-- ==== Sys2Proof/Word.lean ====
section
/-! DEFINITION. The words of the model: bytes, the 64-bit word of the Spar core, the 512-bit vector register,
and the sparse maps by number that hold the large address spaces of the part. -/

namespace Sys2Proof

/-- One byte. -/
abbrev Byte := BitVec 8

/-- The general register of the Spar core. -/
abbrev Word := BitVec 64

/-- A vector register of the Spar core. -/
abbrev VecReg := BitVec 512

/-- A string of bytes, lowest address first. -/
abbrev Bytes := List Byte

/-- A sparse map: pairs of number and value, the numbers strictly rising. -/
abbrev NMap (α : Type) := List (Nat × α)

end Sys2Proof
end

