-- ==== Sys2Proof/Machine/Bits.lean ====
section
/-! DEFINITION. Bit fields, byte order (R6, R7), signed values (R8), sparse maps and small list helpers. -/

namespace Sys2Proof.Machine

/-- Bits hi down to lo of a number, counted as R7 counts them. -/
def bitsOf (x hi lo : Nat) : Nat := (x / 2 ^ lo) % 2 ^ (hi + 1 - lo)

/-- Bit i of a number as a truth value. -/
def bitAt (x i : Nat) : Bool := (x / 2 ^ i) % 2 == 1

/-- Little-endian value of a byte string (R6). -/
def leNat : Bytes → Nat
  | [] => 0
  | b :: bs => b.toNat + 256 * leNat bs

/-- The n low bytes of a number, least significant first (R6). -/
def toLE : Nat → Nat → Bytes
  | 0, _ => []
  | n + 1, x => BitVec.ofNat 8 x :: toLE n (x / 256)

/-- Big-endian value, for the fields of external standards (R6). -/
def beNat (bs : Bytes) : Nat := leNat bs.reverse

/-- The n low bytes of a number, most significant first. -/
def toBE (n x : Nat) : Bytes := (toLE n x).reverse

/-- The w-bit two's-complement reading of a number (R8). -/
def signedOf (w x : Nat) : Int :=
  let y := x % 2 ^ w
  if 2 * y < 2 ^ w then (y : Int) else (y : Int) - (2 ^ w : Nat)

/-- The w-bit two's-complement form of an integer (R8). -/
def unsignedOf (w : Nat) (x : Int) : Nat := (x % ((2 ^ w : Nat) : Int)).toNat

/-- A number cut to w bits. -/
def trunc (w x : Nat) : Nat := x % 2 ^ w

/-- n bytes of a string from an offset. -/
def sliceB (off n : Nat) (bs : Bytes) : Bytes := (bs.drop off).take n

/-- The little-endian field of n bytes at an offset. -/
def fieldAt (off n : Nat) (bs : Bytes) : Nat := leNat (sliceB off n bs)

/-- A byte string padded with zeros, or cut, to n bytes. -/
def padTo (n : Nat) (bs : Bytes) : Bytes := (bs ++ List.replicate (n - bs.length) 0).take n

/-- n zero bytes. -/
def zeros (n : Nat) : Bytes := List.replicate n 0

/-- ⌈a / b⌉. -/
def ceilDiv (a b : Nat) : Nat := (a + b - 1) / b

/-- The smallest n with 2^n at least x, at most the given fuel. -/
def ceilLog2 : Nat → Nat → Nat
  | 0, _ => 0
  | fuel + 1, x => if x ≤ 1 then 0 else 1 + ceilLog2 fuel ((x + 1) / 2)

/-- The value under a number in a sparse map. -/
def nget {α : Type} (m : NMap α) (k : Nat) : Option α :=
  match m with
  | [] => none
  | (j, v) :: r => if j == k then some v else if k < j then none else nget r k

/-- A sparse map with a value placed under a number. -/
def nput {α : Type} (m : NMap α) (k : Nat) (v : α) : NMap α :=
  match m with
  | [] => [(k, v)]
  | (j, w) :: r =>
    if j == k then (k, v) :: r else if k < j then (k, v) :: (j, w) :: r else (j, w) :: nput r k v

/-- A sparse map without the entry of a number. -/
def ndel {α : Type} (m : NMap α) (k : Nat) : NMap α :=
  match m with
  | [] => []
  | (j, w) :: r => if j == k then r else if k < j then (j, w) :: r else (j, w) :: ndel r k

/-- A sparse map with the value under a number changed where there is one. -/
def nmod {α : Type} (m : NMap α) (k : Nat) (f : α → α) : NMap α :=
  m.map fun (j, v) => if j == k then (j, f v) else (j, v)

/-- A sparse map of numbers, an unlisted number reading as zero. -/
def ngetZ (m : NMap Nat) (k : Nat) : Nat := (nget m k).getD 0

/-- Places a number, the value zero removing the entry. -/
def nputZ (m : NMap Nat) (k v : Nat) : NMap Nat := if v == 0 then ndel m k else nput m k v

/-- The keys of a sparse map rise strictly. -/
def nsorted {α : Type} : NMap α → Bool
  | [] => true
  | [_] => true
  | (i, _) :: (j, w) :: r => i < j && nsorted ((j, w) :: r)

/-- Replaces the element at a place of a list; nothing changes past its end. -/
def lset {α : Type} (l : List α) (i : Nat) (v : α) : List α := l.set i v

/-- Updates the element at a place of a list. -/
def lmod {α : Type} (l : List α) (i : Nat) (f : α → α) : List α := l.modify i f

/-- Keeps the newest n elements of a list whose newest is last. -/
def keepLast {α : Type} (n : Nat) (l : List α) : List α := l.drop (l.length - n)

/-- Inserts into a list kept in order, after the elements that do not come after it. -/
def insertBy {α : Type} (lt : α → α → Bool) (x : α) : List α → List α
  | [] => [x]
  | y :: r => if lt x y then x :: y :: r else y :: insertBy lt x r

/-- A stable sort by insertion. -/
def sortBy {α : Type} (lt : α → α → Bool) (l : List α) : List α :=
  l.foldr (fun x acc => insertBy (fun a b => !lt b a) x acc) []

/-- Order of byte strings, lowest address first, a proper prefix first. -/
def bytesLt : Bytes → Bytes → Bool
  | [], [] => false
  | [], _ => true
  | _, [] => false
  | a :: r, b :: q => a.toNat < b.toNat || (a == b && bytesLt r q)

/-- The numbers n, n+1, … , one for each of the count. -/
def upFrom (n count : Nat) : List Nat := (List.range count).map (n + ·)

/-- A W1C register after a write (R11). -/
def clearOnes (cur v : Nat) : Nat := cur ^^^ (cur &&& v)

end Sys2Proof.Machine
end

