-- ==== Sys2Proof/Machine/Types.lean ====
section
/-! DEFINITION. Small types shared by the commands' operands and the state. -/

namespace Sys2Proof.Machine

/-- A tile's index, 8 × course + position. -/
abbrev TileId := Fin 64
/-- A course C0 to C7. -/
abbrev CourseId := Fin 8
/-- A host port H0 to H3, or an Eave port E0 to E3. -/
abbrev PortId := Fin 4
/-- An instance I0 to I63. -/
abbrev InstId := Fin 64
/-- A function of the part, 16 × port + function. -/
abbrev FuncId := Fin 64
/-- A Gutter channel GC0 to GC31. -/
abbrev ChanId := Fin 32
/-- A scalar or vector register number of the Spar core. -/
abbrev Reg := Fin 32
/-- A mask register m0 to m7. -/
abbrev MReg := Fin 8

/-- A parity error that a load meets (R397): none, in the instruction line fetched, in its L1 line, in its Thatch line. [log 86 DESIGN CHOICE] -/
inductive CPar where
  | none | fetch | l1 | thatch
deriving DecidableEq, Repr

/-- How a write to an object reaches the dictionary (R564): through a function's window, or as a Plyn WRITE of one message that a
key slot authenticated, with its port (0 to 3 E0 to E3, 4 and 5 F0 and F1) and XID. -/
inductive Via where
  | window (f : FuncId)
  | plyn (slot : Fin 8) (port : Fin 6) (xid : Nat)
deriving DecidableEq, Repr

end Sys2Proof.Machine
end

