-- ==== Sys2Proof/Machine/StCore.lean ====
section
/-! DEFINITION. State of the time base (chapter 02), of the error log and diagnostics (chapter 24) and of the object
dictionary with Plyn (chapter 20). -/

namespace Sys2Proof.Machine

/-- A stamp (R62): TS64, SRC8, SEQ24 and TQ8. -/
structure Stamp where
  ts : Nat
  src : Nat
  seq : Nat
  tq : Nat
deriving DecidableEq, Repr

/-- The states of TIME_STATE (R40, R692). -/
inductive TState where
  | unsynced | acquiring | locked | holdover | behind | localSrc | edgeLocked
deriving DecidableEq, Repr

/-- The number 0x0410:01 reads for a state. -/
def TState.code : TState → Nat
  | .unsynced => 0 | .acquiring => 1 | .locked => 2 | .holdover => 3 | .behind => 4 | .localSrc => 5
  | .edgeLocked => 6

/-- What the last Rafter boundary was (R49, R693). -/
inductive BoundaryKind where
  | none | grid | regular | synthetic
deriving DecidableEq, Repr

/-- One tick handed to the Batten (R51). -/
structure Tick where
  ts : Nat
  raft : Nat
  index : Nat
  dist : Nat
deriving DecidableEq, Repr

/-- A two-step Sync that waits for its Follow_Up (R40). -/
structure SyncWait where
  seq : Nat
  rx : Nat
  corr : Int
deriving DecidableEq, Repr

/-- The time base and the standby time counter. -/
structure TimeSt where
  /-- TS64 (R36). -/
  ts : Nat
  /-- Domain 17 runs (R19, R58). -/
  run : Bool
  /-- Domain 18 carries TS64 (R44). -/
  sbRun : Bool
  /-- The standby counter, in halves of a nanosecond (R44 adds 24.5 ns). -/
  sbHalf : Nat
  /-- Rate trim as a ratio (R39, R41, R693). -/
  trim : Rat
  /-- RAFTER_PERIOD in force (0x0401:81). -/
  period : Nat
  /-- RAFTER_PHASE in force (0x0401:82). -/
  phase : Nat
  /-- RAFTER_MODE in force (0x0401:83): edge mode when true. -/
  edgeMode : Bool
  /-- RAFTER_IN_EDGE in force (R50): falling when true. -/
  edgeFalling : Bool
  /-- k in force (R51, R52). -/
  tickExp : Nat
  /-- TIME_SOURCE in force (R39): 0 gPTP, 1 RAFTER_IN, 2 Local. -/
  source : Nat
  state : TState
  /-- Last measured offset (0x0410:02), or p with the RAFTER_IN source (R693). -/
  offset : Int
  /-- Magnitude held when LOCKED or EDGE-LOCKED was left (R43). -/
  e0 : Nat
  /-- TS64 at that moment (R43). -/
  leftAt : Nat
  /-- LOCKED or EDGE-LOCKED since start-up and since the last change of source (R43). -/
  everLocked : Bool
  /-- TQ8.UNSYNCED with the gPTP source: cleared at the first entry into LOCKED (R40). -/
  unsynced : Bool
  /-- TQ8.STEPPED: the first cycle after a forward step (R42). -/
  stepped : Bool
  /-- TS64 of the last state change (0x0410:07). -/
  lastChange : Nat
  /-- Consecutive Syncs below the lock threshold (R40). -/
  goodSyncs : Nat
  /-- TS64 of the last Sync and its interval in ns (R40, R54). -/
  lastSync : Nat
  syncInterval : Nat
  syncWait : Option SyncWait
  gmIdentity : Nat
  /-- Mean link delay, when one has been measured (R40). -/
  linkDelay : Option Nat
  /-- TS64 at which the outstanding Pdelay_Req was sent. -/
  pdelaySent : Option Nat
  /-- TS64 of the last Pdelay_Req. -/
  pdelayLast : Nat
  /-- A decided forward step that waits for its boundary (R41). -/
  stepPending : Option Nat
  /-- RAFT32. -/
  raft : Nat
  /-- TS64 of the last boundary, and its kind. -/
  lastBoundary : Nat
  lastKind : BoundaryKind
  /-- TS64 of the boundary that the cycle's ticks count from (R51). -/
  tickBase : Nat
  /-- Consecutive regular edges, and consecutive synthetic boundaries (R692). -/
  regularRun : Nat
  synthRun : Nat
  /-- Index of the next tick of the cycle to issue (R51). -/
  nextTick : Nat
  /-- The tick index last issued (0x0411:05). -/
  tickNow : Nat
  /-- The 48.16 accumulators (R55, R56). -/
  dist : Nat
  rev : Nat
  /-- Reserves committed (R46): TS_RESERVE, DIST_RESERVE, REV_RESERVE. -/
  tsReserve : Nat
  distReserve : Nat
  revReserve : Nat
  /-- A state change since the last row of the time table, and a step at the coming row (R65). -/
  rowChange : Bool
  rowStep : Bool
  /-- Reserves whose commit has failed, to be tried again at each boundary, bit n for reserve n (R46). -/
  retry : Nat
  /-- One SEQ24 counter for each SRC8 (R61). -/
  seqs : NMap Nat
  /-- TS64 of the last stamp of each SRC8: what R61 compares within a source, and R38 between a cause and its effect. -/
  stamped : NMap Nat
deriving DecidableEq, Repr

/-- The time base after reset (R66 defaults, R40, R63). -/
def TimeSt.reset : TimeSt :=
  { ts := 0, run := false, sbRun := true, sbHalf := 0, trim := 0, period := 1000000, phase := 0, edgeMode := false,
    edgeFalling := false, tickExp := 4, source := 0, state := .unsynced, offset := 0, e0 := 0, leftAt := 0,
    everLocked := false, unsynced := true, stepped := false, lastChange := 0, goodSyncs := 0, lastSync := 0,
    syncInterval := 0, syncWait := none, gmIdentity := 0, linkDelay := none, pdelaySent := none, pdelayLast := 0,
    stepPending := none, raft := 0, lastBoundary := 0, lastKind := .none, tickBase := 0, regularRun := 0, synthRun := 0,
    nextTick := 0, tickNow := 0, dist := 0, rev := 0, tsReserve := 0, distReserve := 0, revReserve := 0,
    rowChange := false, rowStep := false, retry := 0, seqs := [], stamped := [] }

/-- The five severities of R663. -/
inductive Severity where
  | note | corrected | contained | degraded | fatal
deriving DecidableEq, Repr

/-- The number of a severity (R663). -/
def Severity.code : Severity → Nat
  | .note => 0 | .corrected => 1 | .contained => 2 | .degraded => 3 | .fatal => 4

/-- An error record (R662). -/
structure ErrRec where
  stamp : Stamp
  code : Nat
  severity : Severity
  scope : Nat
  scopeId : Nat
  /-- 0xFF when no instance is concerned. -/
  inst : Nat
  event : Nat
  planSlot : Option Nat
  address : Nat
  detail0 : Nat
  detail1 : Nat
  count : Nat
  causeSeq : Nat
  causeSrc : Nat
  /-- RAFT32 of the Rafter cycle it was detected in (R665). -/
  cycle : Nat
deriving DecidableEq, Repr

/-- A self-test that runs, or the last one (R670, R671). -/
structure SelfTest where
  stamp : Stamp
  target : Nat
  index : Nat
  /-- 0 running, 1 passed, 2 failed, 3 abandoned. -/
  outcome : Nat
  durationUs : Nat
deriving DecidableEq, Repr

/-- The error ring, self-test, trace stop and availability of chapter 24. -/
structure ErrSt where
  /-- The records in the ring, oldest first, at most 512 (R665). -/
  ring : List ErrRec
  /-- LOG_HEAD, LOG_COPIED, LOG_DROPPED, LOG_MERGED (R676). -/
  head : Nat
  copied : Nat
  dropped : Nat
  merged : Nat
  /-- SEVERITY_COUNTS, NOTE to FATAL. -/
  sevCounts : Vector Nat 5
  selfTest : Option SelfTest
  /-- Stamp of the record that stopped the trace (R672). -/
  traceStopped : Option Stamp
  /-- AVAILABILITY (R673): powered and outage time in µs, outages, gaps. -/
  poweredUs : Nat
  outageUs : Nat
  outages : Nat
  gaps : Nat
  /-- The mirror in the persistent store (R674). -/
  mirrorPowered : Nat
  mirrorOutage : Nat
  mirrorOutages : Nat
  /-- Powered time at the last mirror (R674). -/
  mirrorAt : Nat
  /-- TS64 at which powered time was last counted, while it is being counted. -/
  poweredSince : Option Nat
  /-- TS64 at which the outage in progress began. -/
  outageSince : Option Nat
deriving DecidableEq, Repr

/-- Chapter 24 after reset (R676 defaults). -/
def ErrSt.reset : ErrSt :=
  { ring := [], head := 0, copied := 0, dropped := 0, merged := 0, sevCounts := .replicate 5 0, selfTest := none,
    traceStopped := none, poweredUs := 0, outageUs := 0, outages := 0, gaps := 0, mirrorPowered := 0,
    mirrorOutage := 0, mirrorOutages := 0, mirrorAt := 0, poweredSince := none, outageSince := none }

/-- The one source of an access to the dictionary (R564). -/
inductive Source where
  | host (h : PortId)
  | inst (i : InstId)
  /-- A Plyn key slot 1 to 8 (as 0 to 7) and the SRC8 of the port that received the message. -/
  | plyn (slot : Fin 8) (src8 : Nat)
deriving DecidableEq, Repr

/-- Who sent a Plyn frame: the port it arrived on (0 to 3 E0 to E3, 4 and 5 F0 and F1), its source address, and its VLAN ID
and PCP where it carries a tag (R578). -/
structure PlynPeer where
  port : Nat
  mac : Bytes
  tci : Option Nat
deriving DecidableEq, Repr

/-- An authenticated Plyn request that waits for the active Ridge (R581, R584, R599): its header and value bytes, the key it
was authenticated with, and TS64 at its arrival. -/
structure PlynIn where
  peer : PlynPeer
  slot : Fin 8
  bytes : Bytes
  key : Bytes
  at_ : Nat
deriving DecidableEq, Repr

/-- Where the completion of a dictionary write goes. -/
inductive ReplyTo where
  | window (f : FuncId)
  | plyn (slot : Fin 8) (peer : PlynPeer) (node xid index sub : Nat) (key : Bytes)
deriving DecidableEq, Repr

/-- A dictionary write received and not yet completed (R569, R572). -/
structure DictWrite where
  stamp : Stamp
  source : Source
  /-- index × 256 + subindex. -/
  key : Nat
  value : Bytes
  node : Nat
  /-- Number of the boundary that ends the cycle of its receipt. -/
  cycle : Nat
  reply : ReplyTo
  /-- TS64 at which it was applied, for one that waits for its commit. -/
  applied : Nat
deriving DecidableEq, Repr

/-- The dictionary window of one function (R575). -/
structure DWindow where
  /-- DW_REQ as written. -/
  req : Nat
  /-- DW_DATA. -/
  data : Bytes
  busy : Bool
  status : Nat
  length : Nat
  type : Nat
  stamp : Stamp
deriving DecidableEq, Repr

/-- The window after reset: every field 0 (R575). -/
def DWindow.reset : DWindow :=
  { req := 0, data := [], busy := false, status := 0, length := 0, type := 0, stamp := ⟨0, 0, 0, 0⟩ }

/-- A fragmented write being assembled (R582). -/
structure Assembly where
  xid : Nat
  key : Nat
  type : Nat
  total : Nat
  bytes : Bytes
  lastAt : Nat
deriving DecidableEq, Repr

/-- One Plyn key slot (R584, KEY_STATE). -/
structure PlynSlot where
  key : Bytes
  node : Nat
  rights : Nat
  lastTs : Nat
  accepted : Nat
  assembly : Option Assembly
  /-- Where its last accepted message came from. -/
  peer : PlynPeer
deriving DecidableEq, Repr

/-- An empty slot. -/
def PlynSlot.reset : PlynSlot := { key := [], node := 0, rights := 0, lastTs := 0, accepted := 0, assembly := none, peer := ⟨0, [], none⟩ }

/-- A Plyn reply that waits to be sent (R583, R585). -/
structure PlynReply where
  peer : PlynPeer
  slot : Fin 8
  node : Nat
  xid : Nat
  kind : Nat
  key : Nat
  type : Nat
  offset : Nat
  total : Nat
  last : Bool
  status : Nat
  value : Bytes
  /-- The key it is signed with (R583). -/
  signKey : Bytes
deriving DecidableEq, Repr

/-- The object dictionary (chapter 20). -/
structure DictSt where
  /-- Values in force of the objects that have left their default, by index × 256 + subindex. -/
  vals : NMap Bytes
  /-- The persistent dictionary store in boot flash (R572). -/
  store : NMap Bytes
  /-- Scalar counters and readings of RO objects, an unlisted one reading 0. -/
  ro : NMap Nat
  /-- Staged writes of the running cycle, oldest first (R569). -/
  staged : List DictWrite
  /-- The Finial's own copy of the safety writes (R571). -/
  finialCopy : List DictWrite
  /-- Applied writes to P objects that wait for their commit (R572). -/
  commits : List DictWrite
  windows : Vector DWindow 64
  slots : Vector PlynSlot 8
  /-- The mirror of the last accepted TS64 of each slot in the store (R581). -/
  slotMirror : Vector Nat 8
  replies : List PlynReply
  /-- Plyn requests that wait, oldest first. -/
  plynIn : List PlynIn
  /-- Windows whose request is deferred, oldest first (R599). -/
  deferred : List FuncId
  /-- PLCA_STATUS of F0 and F1 (R589). -/
  plcaActive : Vector Bool 2
  /-- Field ports stopped by a clock alarm (R668). -/
  fieldStopped : Vector Bool 2
deriving DecidableEq, Repr

/-- The dictionary after reset: every object at its default. -/
def DictSt.reset : DictSt :=
  { vals := [], store := [], ro := [], staged := [], finialCopy := [], commits := [], windows := .replicate 64 .reset,
    slots := .replicate 8 .reset, slotMirror := .replicate 8 0, replies := [], plynIn := [], deferred := [], plcaActive := .replicate 2 false,
    fieldStopped := .replicate 2 false }

end Sys2Proof.Machine
end

