-- ==== Sys2Proof/Machine/StData.lean ====
section
/-! DEFINITION. State of the table store (chapter 03) and of ingest: the Ligger, the Eave ports and the signal map
(chapter 04). -/

namespace Sys2Proof.Machine

/-- One stored value: NULL, the bits of a fixed-width value, or the bytes of a STR or BYTES value (R73). -/
inductive Val where
  | null
  | num (bits : Nat)
  | str (b : Bytes)
deriving DecidableEq, Repr

/-- A column descriptor (R69). -/
structure ColDesc where
  type : Nat
  nullable : Bool
  openEnc : Nat
  scale : Nat
  sealSet : Nat
  yelmFmt : Nat
  maxLen : Nat
deriving DecidableEq, Repr

/-- A hold of a table (R69, R107). -/
structure Hold where
  lo : Nat
  hi : Nat
deriving DecidableEq, Repr

/-- The Ligger parameters of a table (R141): µs, admit, ms. -/
structure IngestParams where
  lateWindow : Nat
  lateAdmit : Bool
  lateHorizon : Nat
deriving DecidableEq, Repr

/-- The retention fields of a descriptor with its holds, as an alteration leaves them until they are in force (R72). -/
structure RetParams where
  time : Nat
  dist : Nat
  bytes : Nat
  holds : List Hold
deriving DecidableEq, Repr

/-- A table descriptor (R69). -/
structure TableDesc where
  id : Nat
  owner : Nat
  keep : Bool
  lapped : Bool
  chained : Bool
  retTime : Nat
  retDist : Nat
  retBytes : Nat
  sealAge : Nat
  ingest : IngestParams
  readers : Nat
  holds : List Hold
  cols : List ColDesc
deriving DecidableEq, Repr

/-- One row: its stamp, the values of columns 3 onwards, and DIST48 latched at its release (R75). [log 23 DESIGN CHOICE] -/
structure SRow where
  stamp : Stamp
  vals : List Val
  dist : Nat
deriving DecidableEq, Repr

/-- The states of a segment (R103). -/
inductive SegState where
  | opened | sealed | kept | retired
deriving DecidableEq, Repr

/-- STATE in the segment header (R75). -/
def SegState.code : SegState → Nat
  | .opened => 0 | .sealed => 1 | .kept => 2 | .retired => 3

/-- A segment (R75): its header fields, its rows in stored order, and once sealed the chunk bytes of copy A and B. [log 23 DESIGN CHOICE] -/
structure Segment where
  no : Nat
  state : SegState
  unordered : Bool
  overlap : Bool
  rows : List SRow
  /-- TS64 at which the first row was released (R97). -/
  firstAt : Nat
  /-- Sealing has started (R98). -/
  sealing : Bool
  /-- Column descriptors sealing started with, when the table was altered since (R72). -/
  sealCols : Option (List ColDesc)
  sealStamp : Option Stamp
  prevDigest : Bytes
  digest : Bytes
  /-- Column chunks in column order, from sealing on (R79). -/
  chunksA : List Bytes
  chunksB : List Bytes
  /-- Blocks of copy A, or B, that are uncorrectable, as COLUMN × 16 + block (R111). -/
  badA : List Nat
  badB : List Nat
  /-- Bytes of the open form still held beside the sealed form (R694). -/
  openHeld : Nat
  /-- Its rows in the order of the open form, while that form is held beside the sealed one (R31). -/
  openRows : List SRow
  /-- MAX_STAMP of the table's previous segment as this one was opened (R75). -/
  prevMax : Option Stamp
  /-- TS64 at which sealing started. -/
  sealAt : Nat
  /-- Device addresses of the form in force, copy A and copy B: of header and directory, then of each column chunk (R78, R425);
  and those of an open form held beside a sealed one. -/
  atA : List Nat
  atB : List Nat
  openAtA : List Nat
  openAtB : List Nat
deriving DecidableEq, Repr

/-- A table: its descriptor, its segments in SEGMENT_NO order, and what the Ligger holds for it. [log 23 DESIGN CHOICE] -/
structure Table where
  desc : TableDesc
  /-- A drop has been accepted and waits for snapshots (R71). -/
  dropping : Bool
  /-- INGEST as altered, in force from the next boundary (R142). -/
  ingestNext : Option IngestParams
  /-- Retention fields and holds as altered, in force from the next retention evaluation (R72). -/
  retNext : Option RetParams
  segs : List Segment
  nextSeg : Nat
  /-- The release mark M (R143). -/
  mark : Option Stamp
  /-- Rows held by the Ligger, least triple first. -/
  held : List SRow
  /-- The table refuses rows because RET_BYTES, Keep space or its owner's quota could not be met (R108). -/
  refusing : Bool
  /-- MAX_STAMP of the newest segment, and SEAL_DIGEST of the last one sealed, whether or not they are still held (R75, R101). -/
  lastMax : Option Stamp
  lastDigest : Bytes
deriving DecidableEq, Repr

/-- A pending APPEND as the Ligger knows it (R143). -/
structure PendAppend where
  receipt : Stamp
  table : Nat
  since : Nat
  /-- BLOCK_LIMIT has passed: it no longer blocks. -/
  expired : Bool
deriving DecidableEq, Repr

/-- One entry of the unit record (R147). -/
structure UnitRec where
  stamp : Stamp
  firstTable : Nat
  rows : Nat
  /-- TS64 at which the unit was entered. -/
  enteredAt : Nat
deriving DecidableEq, Repr

/-- A row of a decoded frame that waits for its stamp, with its table (R137). -/
structure DecRow where
  table : Nat
  vals : List Val
deriving DecidableEq, Repr

/-- A frame in a capture ring (R127): its capture descriptor, its decoded rows and the SEQ24 base once reserved. -/
structure RingEntry where
  ts : Nat
  tq : Nat
  frame : Bytes
  wireLength : Nat
  /-- FLAGS of R139. -/
  flags : Nat
  pdus : Nat
  rows : List DecRow
  capture : Bool
  base : Option Nat
  /-- Generation of the signal map that decodes it (R138). -/
  generation : Nat
  entered : Bool
deriving DecidableEq, Repr

/-- An Eave port (R125 to R128). -/
structure EaveSt where
  linkUp : Bool
  /-- Reception stopped by a clock alarm (R668). -/
  stopped : Bool
  /-- The frames the ring holds: those entered that a takeover would decode again, then those still to be entered (R128, R149). -/
  ring : List RingEntry
  ringUsed : Nat
  /-- Frames freed so far: the ring position of the first frame held. -/
  ringBase : Nat
deriving DecidableEq, Repr

/-- A port after reset. -/
def EaveSt.reset : EaveSt := { linkUp := false, stopped := false, ring := [], ringUsed := 0, ringBase := 0 }

/-- A signal-map entry (MAP_ENTRY of R152). -/
structure MapEntry where
  priority : Nat
  key : Nat
  mask : Nat
  result : Nat
deriving DecidableEq, Repr

/-- A decode program being written or complete (R134, PROGRAM_CHUNK of R152). -/
structure DecProgram where
  bytes : Bytes
  complete : Bool
deriving DecidableEq, Repr

/-- A generation of the signal map (R138): entries by bank × 65,536 + index, and programs by number. -/
structure MapGen where
  number : Nat
  /-- TS64 of the boundary from which it is in force. -/
  since : Nat
  entries : NMap MapEntry
  programs : NMap DecProgram
deriving DecidableEq, Repr

/-- An empty generation. -/
def MapGen.reset : MapGen := { number := 0, since := 0, entries := [], programs := [] }

/-- The Ligger, the unit record, the Eave ports and the signal map. -/
structure IngestSt where
  appends : List PendAppend
  units : List UnitRec
  eave : Vector EaveSt 4
  mapNow : MapGen
  mapPrev : Option MapGen
  shadow : MapGen
deriving DecidableEq, Repr

/-- Ingest after reset. -/
def IngestSt.reset : IngestSt :=
  { appends := [], units := [], eave := .replicate 4 .reset, mapNow := .reset, mapPrev := none, shadow := .reset }

/-- The table store. -/
structure TableSt where
  tables : NMap Table
  /-- TS64 of the last retention evaluation (R106). -/
  lastRetention : Nat
  /-- Keep catalogue: table and segment numbers whose entry it holds (R99, R103). -/
  keepCatalogue : List (Nat × Nat)
deriving DecidableEq, Repr

/-- A fixed-width column that may not be NULL, or a BYTES column when a length is given. -/
def plainCol (type maxLen : Nat) : ColDesc :=
  { type := type, nullable := false, openEnc := 0, scale := 0, sealSet := 0, yelmFmt := 0, maxLen := maxLen }

/-- A built-in table (R112): KEEP, OWNER 0xFF, readable by every instance; its columns after the stamp triple. -/
def builtinTable (id : Nat) (cols : List (Nat × Nat)) : Table :=
  { desc := { id := id, owner := 0xFF, keep := true, lapped := false, chained := false, retTime := 0, retDist := 0,
              retBytes := 0, sealAge := 0, ingest := ⟨0, false, 0⟩, readers := 2 ^ 64 - 1, holds := [],
              cols := ([(0x0C, 0), (0x06, 0), (0x08, 0)] ++ cols).map fun (c : Nat × Nat) => plainCol c.1 c.2 }
    dropping := false, ingestNext := none, retNext := none, segs := [], nextSeg := 0, mark := none, held := [], refusing := false, lastMax := none
    lastDigest := [] }

/-- Built-in tables: time (R65), catalogue (R112), raw frames (R139), trace (R317), dictionary log (R573), errors
(R666). [log 24 DEDUCED] -/
def builtinTables : NMap Table :=
  [(0xFFF0, builtinTable 0xFFF0 [(8, 0), (9, 0), (9, 0), (5, 0), (9, 0), (6, 0)]),
   (0xFFF1, builtinTable 0xFFF1 [(7, 0), (8, 0), (6, 0), (8, 0), (12, 0), (12, 0), (9, 0), (9, 0), (9, 0), (15, 32)]),
   (0xFFF2, builtinTable 0xFFF2 [(7, 0), (7, 0), (6, 0), (7, 0), (15, 2044)]),
   (0xFFF3, builtinTable 0xFFF3
     [(6, 0), (6, 0), (7, 0), (6, 0), (8, 0), (6, 0), (1, 0), (6, 0), (1, 0), (7, 0), (8, 0)]),
   (0xFFF4, builtinTable 0xFFF4 [(7, 0), (6, 0), (7, 0), (7, 0), (12, 0), (7, 0), (15, 64)]),
   (0xFFF5, builtinTable 0xFFF5
     [(7, 0), (6, 0), (6, 0), (7, 0), (6, 0), (6, 0), (7, 0), (1, 0), (9, 0), (9, 0), (9, 0), (8, 0), (8, 0), (6, 0)])]

/-- The table store after reset: the built-in tables, with no segment (R112). [log 24 DEDUCED] -/
def TableSt.empty : TableSt := { tables := builtinTables, lastRetention := 0, keepCatalogue := [] }

end Sys2Proof.Machine
end

