-- ==== Sys2Proof/Machine/StQuery.lean ====
section
/-! DEFINITION. State of plans (chapter 05), Reed units (06), the Purlin store and operators (07), continuous
queries (08) and the Batten (09). -/

namespace Sys2Proof.Machine

/-- One segment of a snapshot: table, SEGMENT_NO, the rows visible in it, and whether it was open then, so that its open
form is read (R31, R178, R273). -/
structure SnapSeg where
  table : Nat
  seg : Nat
  rows : Nat
  opened : Bool
deriving DecidableEq, Repr

/-- A bundle descriptor (R293). -/
structure BDesc where
  planSlot : Nat
  pipeline : Nat
  priority : Nat
  flat : Bool
  courses : Nat
  inst : Nat
  hip : Bool
  firing : Bool
  banks : Nat
  attempt : Nat
  exclude : Option Nat
  affinity : Nat
  unit : Nat
  contextAddr : Nat
  rowFirst : Nat
  rowCount : Nat
  sourceAddr : Nat
  readyTs : Nat
  depends : Nat
deriving DecidableEq, Repr

/-- A descriptor of zeros. -/
def BDesc.zero : BDesc :=
  { planSlot := 0, pipeline := 0, priority := 0, flat := false, courses := 0, inst := 0, hip := false, firing := false,
    banks := 0, attempt := 0, exclude := none, affinity := 0, unit := 0, contextAddr := 0, rowFirst := 0,
    rowCount := 0, sourceAddr := 0, readyTs := 0, depends := 0 }

/-- A row of a batch: the value in each slot it fills (chapter 05, "Pipelines and slots"). -/
abbrev SlotRow := NMap Val

/-- A batch handed to operators: its rows and its selection vector (R205). -/
structure Batch where
  rows : List SlotRow
  sel : List Bool
deriving DecidableEq, Repr

/-- The running state of one aggregate (R243). -/
structure AggSt where
  value : Val
  /-- A present input has been met. -/
  seen : Bool
  /-- An overflow, or a NULL partial, has fixed the SUM at NULL. -/
  stuck : Bool
deriving DecidableEq, Repr

/-- The state an operator keeps within its bundle. -/
inductive OpSt where
  | idle
  | limit (passed : Nat)
  /-- Groups in the order their first rows were met (R244, R246). -/
  | groups (g : List (List Val × List AggSt))
  | aggregate (a : List AggSt)
  | topk (rows : List SlotRow)
  | sort (rows : List SlotRow)
deriving DecidableEq, Repr

/-- How a kernel ended for one batch (R171): the exception that left it and its VALUE (R341, SVC 0 being its return), its status, and its output
slots' types and values, row by row. [log 42 DESIGN CHOICE] -/
structure KRes where
  cause : Nat
  value : Nat
  status : Nat
  tys : List (Nat × Nat × Nat)
  cols : List (List Val)
deriving DecidableEq, Repr

/-- Rows a bundle has for a buffer, with the partition or run they belong to. -/
structure BufRows where
  buffer : Nat
  part : Nat
  /-- Type code, scale and MAX_LEN of each column. -/
  tys : List (Nat × Nat × Nat)
  rows : List (List Val)
deriving DecidableEq, Repr

/-- A batch closed by a Reed unit: its block, its bytes in the batch area, and what they hold (R205). -/
structure RBatch where
  block : Nat
  image : Bytes
  batch : Batch
deriving DecidableEq, Repr

/-- The Reed unit's command and what it has ready (R191, R205). A block is SEGMENT_NO × 16 + its number. -/
structure ReedSt where
  /-- Batches closed and not yet handed over. -/
  batches : List RBatch
  /-- Blocks scanned to their end for the bundle. -/
  scanned : List Nat
  /-- The block of which operators have consumed some batches, and how many (R255). -/
  cur : Option Nat
  consumed : Nat
  /-- The scan has ended with this failure (R213). -/
  failed : Option Nat
  /-- The address outside the windows that it failed at, else 0. -/
  failedAt : Nat
  active : Bool
deriving DecidableEq, Repr

/-- An idle Reed unit. -/
def ReedSt.reset : ReedSt :=
  { batches := [], scanned := [], cur := none, consumed := 0, failed := none, failedAt := 0, active := false }

/-- What a bundle has computed so far: operator states and output not yet in effect (R185). -/
structure BRun where
  ops : List OpSt
  /-- Result batches (R164) for the result area. -/
  results : List Bytes
  resultRows : Nat
  buffers : List BufRows
  nulled : Nat
  /-- Types of slots that kernels and buffers gave them, beyond what the image fixes. -/
  types : NMap (Nat × Nat × Nat)
  /-- Purlin banks leased (R253). -/
  leased : List Nat
  /-- A failure met while operators ran. -/
  failed : Option Nat
  /-- The context stands at CONTEXT_ADDR (R350), and the vector registers with it. -/
  ctx : Bool
  vctx : Bool
deriving DecidableEq, Repr

/-- A bundle that has computed nothing. -/
def BRun.empty : BRun :=
  { ops := [], results := [], resultRows := 0, buffers := [], nulled := 0, types := [], leased := [], failed := none,
    ctx := false, vctx := false }

/-- The claims of a plan (R173). -/
structure Claims where
  tiles : Nat
  banks : Nat
  hip : Nat
  yelm : Nat
  channels : Nat
  scratchKib : Nat
  resultBytes : Nat
  bufferBytes : Nat
  energyLimit : Nat
deriving DecidableEq, Repr

/-- Progress of one pipeline of a plan or firing. -/
structure PipeProg where
  /-- Bundles still to form, by UNIT, with segment and row range (R182). -/
  toForm : List (Nat × Nat × Nat × Nat)
  /-- UNITs formed and not yet complete. -/
  running : List Nat
  ready : Bool
  complete : Bool
deriving DecidableEq, Repr

/-- An accepted plan, a waiting plan, or the standing plan of a registered query. [log 47 DEDUCED] -/
structure Plan where
  inst : Nat
  receipt : Stamp
  image : Bytes
  params : List Nat
  digest : Bytes
  snapshot : List SnapSeg
  claims : Claims
  banks : List Nat
  /-- Banks loaded by a KJOIN_BUILD, by operator index (R235). -/
  buildBanks : NMap (List Nat)
  channels : List Nat
  hipHeld : Nat
  pipes : List PipeProg
  buffers : List BufRows
  /-- Device addresses of its buffers. -/
  bufAt : List Nat
  results : List Bytes
  resultRows : Nat
  nulled : Nat
  /-- Bundles re-run (R528). -/
  reruns : Nat
  /-- Energy attributed to its bundles so far, in µJ (R653). -/
  energy : Rat
  /-- Ended with this status; running bundles have still to stop (R187). -/
  ended : Option Nat
  /-- CQ_ID and firing number for a plan that is a firing. -/
  query : Option Nat
  /-- RESULT_ADDR and RESULT_SPACE (R522). -/
  resultAddr : Nat
  resultSpace : Nat
  /-- Offset in the result area (R522). -/
  resultOffset : Nat
deriving DecidableEq, Repr

/-- An entry of an instance's image cache (R180). -/
structure CacheEntry where
  inst : Nat
  digest : Bytes
  keySlot : Option Nat
deriving DecidableEq, Repr

/-- Plans and the image cache (chapter 05). -/
structure PlanSt where
  /-- By plan slot 0 to 4,095. -/
  plans : NMap Plan
  /-- Most recently accepted last, for each instance (R181). -/
  cache : List CacheEntry
  /-- Images whose bytes are being read, by receipt: see the task queues. -/
  lastRefusal : Option (Stamp × Nat × Nat × Nat)
deriving DecidableEq, Repr

/-- Plans after reset. -/
def PlanSt.reset : PlanSt := { plans := [], cache := [], lastRefusal := none }

/-- The role of a Purlin bank (R216). -/
inductive BankRole where
  | free | mapRole | dictRole | planRole
deriving DecidableEq, Repr

/-- PB_CFG.ROLE (R218). -/
def BankRole.code : BankRole → Nat
  | .free => 0 | .mapRole => 1 | .dictRole => 2 | .planRole => 3

/-- Key, priority and result of a Purlin entry (R215). -/
structure PCells where
  key : List Nat
  priority : Nat
  result : Nat
deriving DecidableEq, Repr

/-- A valid Purlin entry: what its cells hold, and its ECC-protected copy (R215). -/
structure PEntry extends PCells where
  copy : PCells
deriving DecidableEq, Repr

/-- An entry as it is written, cells and copy alike. -/
def PEntry.of (key : List Nat) (priority result : Nat) : PEntry := ⟨⟨key, priority, result⟩, ⟨key, priority, result⟩⟩

/-- A Purlin bank with its registers (R215, R218). -/
structure Bank where
  width : Nat
  role : BankRole
  masked : Bool
  owner : Nat
  enable : Bool
  entries : NMap PEntry
  /-- Retired indexes (R229) and the false hits of each index since start-up. -/
  retired : List Nat
  hits : NMap Nat
  falseHits : Nat
  uncorrectable : Nat
  bistFail : Bool
  /-- MAP entries that wait to be rewritten by the Ridge (R228). -/
  awaiting : List Nat
deriving DecidableEq, Repr

/-- A bank after reset (R218). -/
def Bank.reset : Bank :=
  { width := 0, role := .free, masked := false, owner := 0xFF, enable := false, entries := [], retired := [], hits := [],
    falseHits := 0, uncorrectable := 0, bistFail := false, awaiting := [] }

/-- A Purlin response (R221). -/
structure PResp where
  outcome : Nat
  bank : Nat
  index : Nat
  result : Nat
  priority : Nat
  status : Nat
deriving DecidableEq, Repr

/-- The response of zeros. -/
def PResp.zero : PResp := { outcome := 0, bank := 0, index := 0, result := 0, priority := 0, status := 0 }

/-- A Purlin request (R220). -/
structure PReq where
  op : Nat
  replicate : Bool
  /-- A reserved field is not zero. -/
  reserved : Bool
  banks : Nat
  priority : Nat
  index : Nat
  result : Nat
  key : List Nat
deriving DecidableEq, Repr

/-- What a tile that presents a request runs (R226). -/
inductive PRole where
  | bundle | ingest | decode
deriving DecidableEq, Repr

/-- Who presents a request: the active Ridge, or a tile with its tag (R347). -/
inductive PWho where
  | ridge
  | tile (t : TileId) (tag : Fin 64) (role : PRole)
deriving DecidableEq, Repr

/-- Cell faults that have arisen when a request is executed, by bank and index: what the cells of an entry now hold, and entries whose
copies are uncorrectable (R227, R228). -/
structure PFaults where
  flips : List (Nat × Nat × PCells)
  dead : List (Nat × Nat)
deriving DecidableEq, Repr

/-- A value of an open DICT chunk held by the tile-run hash table in DRAM in place of the store (R123, R233). -/
structure DictSpill where
  table : Nat
  seg : Nat
  col : Nat
  val : Val
  code : Nat
deriving DecidableEq, Repr

/-- The Purlin store and the Hip units (chapter 07). -/
structure PurlinSt where
  banks : Vector Bank 8
  /-- The Ridge's staging area and response at 0x080_8000 (chapter 07, "Requests"). -/
  staging : Bytes
  response : PResp
  /-- Hip units: leased to a bundle (plan slot, pipeline, UNIT), used by sealing (table, segment), or free (R253, R254). -/
  hipLease : Vector (Option (Nat × Nat × Nat)) 8
  hipSeal : Vector (Option (Nat × Nat)) 8
  dictBanksNow : Nat
  /-- The DRAM hash table of open DICT chunks. -/
  spilled : List DictSpill
  /-- Requests that wait for a bank, oldest first (R225, R228). -/
  waiting : List (PWho × PReq)
  /-- Open DICT chunks, by table, segment and column, of which an entry was lost: the ingest tile rebuilds them (R228). -/
  rebuild : List (Nat × Nat × Nat)
deriving DecidableEq, Repr

/-- The store after reset. -/
def PurlinSt.reset : PurlinSt :=
  { banks := .replicate 8 .reset, staging := [], response := .zero, hipLease := .replicate 8 none, hipSeal := .replicate 8 none, dictBanksNow := 4
    spilled := [], waiting := [], rebuild := [] }

/-- A window of a continuous query with its bounds (R269, R270). -/
structure Window where
  no : Nat
  dStart : Nat
  dEnd : Nat
  tStart : Nat
  tEnd : Nat
deriving DecidableEq, Repr

/-- How far a firing has got. -/
inductive FiringPhase where
  | due | running | complete
deriving DecidableEq, Repr

/-- One firing between being due and being delivered (R272 to R282). -/
structure Firing where
  window : Window
  stamp : Stamp
  snapshot : List SnapSeg
  phase : FiringPhase
  status : Nat
  amend : Bool
  lateRows : Nat
  partialRec : Bool
  catchUp : Bool
  skippedBefore : Nat
  results : List Bytes
  rows : Nat
  energy : Nat
deriving DecidableEq, Repr

/-- The open session of a session query (R270). -/
structure Session where
  no : Nat
  vFirst : Nat
  vLast : Nat
  tFirst : Nat
deriving DecidableEq, Repr

/-- A row made visible since the last tick: its table, the TS64 at which it became visible, and whether the queries that read its table
have taken it up (R270, R279). -/
structure FreshRow where
  table : Nat
  row : SRow
  at' : Nat
  taken : Bool
deriving DecidableEq, Repr

/-- A registered query (R261 to R264). -/
structure Query where
  inst : Nat
  receipt : Stamp
  planSlot : Nat
  hold : Nat
  start : Nat
  amendWindows : Nat
  vector : Nat
  fireOnKeep : Bool
  ringAddr : Nat
  ringBytes : Nat
  indexAddr : Nat
  /-- W0 to W5 of the WINDOW operator (R265). -/
  w : List Nat
  table : Nat
  /-- The next window number to fall due, for tumbling and sliding windows. -/
  nextNo : Nat
  /-- Sessions that have opened and not fired, oldest first; the last may still extend (R270). -/
  sessions : List Session
  nextSession : Nat
  /-- D_END of the last session (R270). -/
  lastEnd : Nat
  /-- Windows that have fired, oldest first (R279). -/
  fired : List Window
  /-- Windows marked dirty with their late rows (R279, R280). -/
  dirty : List (Window × Nat)
  firings : List Firing
  /-- PRODUCED of the ring (R282). -/
  produced : Nat
  skippedSince : Nat
  /-- TS64 at acceptance: a window due by then is a catch-up window (R277). -/
  regTs : Nat
  /-- A previous firing ended with a repeated tile fault (R288). -/
  faultStreak : Bool
  /-- To be removed once its dispatched firings are delivered, with a last record of this status where it is not 0 (R284,
  R285, R288). -/
  removing : Option Nat
  /-- Delivery is held after a ring access that failed, until access returns (R289). -/
  held : Bool
  /-- Its instance was bound to another function: delivery is held until RETARGET_QUERY (R284). -/
  rebound : Bool
  /-- Its delay list was full: the Ridge tries again at the next tick (R320). -/
  toArm : Bool
  /-- Per-query counts of R291. -/
  nFirings : Nat
  nAmends : Nat
  nSkipped : Nat
  lastWindow : Nat
deriving DecidableEq, Repr

/-- A delay-list entry (R311). -/
structure DEntry where
  due : Nat
  step : Nat
  /-- Original list and form: 0 time, 1 distance, 2 cycle. -/
  form : Nat
  flat : Bool
  /-- The entry now counts Rafter cycles. -/
  cycle : Bool
  kind : Nat
  owner : Nat
  holdNs : Nat
  /-- The DUE of its original form, to which STEP is added (R313). -/
  origDue : Nat
deriving DecidableEq, Repr

/-- The states of a tile as the Batten keeps them (R300). -/
inductive TileState where
  | idle | dispatching | running | preempting | saving | resetting | fenced
deriving DecidableEq, Repr

/-- TILE_STATE [2:0] (R300). -/
def TileState.code : TileState → Nat
  | .idle => 0 | .dispatching => 1 | .running => 2 | .preempting => 3 | .saving => 4 | .resetting => 5 | .fenced => 6

/-- A bundle on a ready list, with what it has saved if it was pre-empted (R296, R304). -/
structure ReadyB where
  desc : BDesc
  order : Nat
  saved : Option (BRun × ReedSt)
  /-- The tile on which it has raised its one pre-emption (R302). -/
  raised : Option Nat
  /-- It has been counted as held for banks, and for a Hip unit (R253). -/
  bankWait : Bool
  hipWait : Bool
deriving DecidableEq, Repr

/-- A tile as the Batten keeps it. -/
structure TileSched where
  state : TileState
  desc : Option BDesc
  order : Nat
  lastAffinity : Option Nat
  /-- The instance whose bundle the tile last entered (R329). -/
  lastInst : Option Nat
  /-- TS64 of its dispatch, of the pre-emption or acceptance in progress, and of its last change of state. -/
  since : Nat
  preemptAt : Nat
  changed : Nat
  /-- Its bundle was purged while it saved (R305). -/
  purged : Bool
  /-- Parking is what pre-empts it (R302). -/
  parking : Bool
  /-- TS64 of its recent faults (R308). -/
  faults : List Nat
  faultFenced : Bool
  run : BRun
  reed : ReedSt
  /-- Energy attributed to its bundle since its dispatch, in µJ (R653). -/
  energy : Rat
deriving DecidableEq, Repr

/-- A tile after reset: its course is not running, so it is FENCED until the course is unparked (R300). -/
def TileSched.reset : TileSched :=
  { state := .fenced, desc := none, order := 0, lastAffinity := none, lastInst := none, since := 0, preemptAt := 0, changed := 0, purged := false,
    parking := false, faults := [], faultFenced := false, run := .empty, reed := .reset, energy := 0 }

/-- A plan slot table entry (R297). -/
structure SlotEntry where
  hipLimit : Nat
  bankMask : Nat
  hipHeld : Nat
  banksLeased : Nat
deriving DecidableEq, Repr

/-- A bundle-done record (R295). -/
structure DoneRec where
  stamp : Stamp
  planSlot : Nat
  pipeline : Nat
  tile : Nat
  unit : Nat
  status : Nat
  attempt : Nat
deriving DecidableEq, Repr

/-- A decision-trace record (R316). -/
structure TraceRec where
  stamp : Stamp
  event : Nat
  tile : Nat
  planSlot : Nat
  pipeline : Nat
  unit : Nat
  priority : Nat
  flat : Bool
  inst : Nat
  affinityHit : Bool
  status : Nat
  wait : Nat
  /-- PLAN_ID of its plan, for which R316's 32 bytes hold no field (R153). -/
  planId : Bytes
deriving DecidableEq, Repr

/-- The counters of one ready list (R318). -/
structure ListStat where
  depthMax : Nat
  waitMax : Nat
  waitSum : Nat
  dispatches : Nat
deriving DecidableEq, Repr

/-- The counters of one course (R318). -/
structure CourseStat where
  loadLast : Nat
  loadMax : Nat
  busy : Nat
  preemptions : Nat
  timeoutResets : Nat
  /-- Tile-nanoseconds busy in the running cycle. -/
  busyCycle : Nat
deriving DecidableEq, Repr

/-- A ring of records the Batten writes and a reader drains (R292, R317). [log 63 DEDUCED] -/
structure RingRegs where
  base : Nat
  size : Nat
  head : Nat
  tail : Nat
deriving DecidableEq, Repr

/-- The Batten (chapter 09) and the registered queries (chapter 08). -/
structure BattenSt where
  enable : Bool
  preemptUs : Nat
  affinityUs : Nat
  prioPreempt : Bool
  preemptAfterUs : Nat
  desc : Bytes
  submitResult : Nat
  delayStage : Bytes
  delayResult : Nat
  delayResultEntry : Nat
  ready : List ReadyB
  orderNo : Nat
  tiles : Vector TileSched 64
  slots : NMap SlotEntry
  timeList : NMap DEntry
  distList : NMap DEntry
  templates : NMap BDesc
  done : List DoneRec
  doneRegs : RingRegs
  trace : List TraceRec
  traceRegs : RingRegs
  /-- HEAD up to which records have been copied to table 0xFFF3 (R317). -/
  traceCopied : Nat
  lastTick : Option Tick
  /-- Visible rows latched at the last tick (R273). -/
  latch : List SnapSeg
  /-- Ticks at which RAFT32 or DIST48 changed, newest first: the axes of R268. -/
  axis : List Tick
  /-- Rows made visible since the last tick, while queries are registered (R270, R279). -/
  fresh : List FreshRow
  /-- The intervals of TS64 stepped over, newest first (R42, R278). -/
  stepOver : List (Nat × Nat)
  lists : Vector ListStat 9
  courseStats : Vector CourseStat 8
  queries : NMap Query
deriving DecidableEq, Repr

/-- The Batten after reset (R292). -/
def BattenSt.reset : BattenSt :=
  { enable := false, preemptUs := 10, affinityUs := 20, prioPreempt := true, preemptAfterUs := 100, desc := [],
    submitResult := 0, delayStage := [], delayResult := 0, delayResultEntry := 0, ready := [], orderNo := 0,
    tiles := .replicate 64 .reset, slots := [], timeList := [], distList := [], templates := [], done := [],
    doneRegs := ⟨0, 0, 0, 0⟩, trace := [], traceRegs := ⟨0, 0x100000, 0, 0⟩, traceCopied := 0, lastTick := none,
    latch := [], axis := [], fresh := [], stepOver := [], lists := .replicate 9 ⟨0, 0, 0, 0⟩, courseStats := .replicate 8 ⟨0, 0, 0, 0, 0, 0⟩,
    queries := [] }

end Sys2Proof.Machine
end

