-- ==== Sys2Proof/Machine/StTile.lean ====
section
/-! DEFINITION. State of the tiles (chapters 10 and 11), of their caches and of the Thatch (chapter 12). -/

namespace Sys2Proof.Machine

/-- The states TC_STATE shows (R348). -/
inductive CoreState where
  | reset | monitor | bundle | waiting | stalled
deriving DecidableEq, Repr

/-- TC_STATE [2:0]. -/
def CoreState.code : CoreState → Nat
  | .reset => 0 | .monitor => 1 | .bundle => 2 | .waiting => 3 | .stalled => 4

/-- A line of an L1 data cache or victim cache: 128 bytes in four sectors (R376). -/
structure L1Line where
  /-- A[40:7] of its address: set and tag together. -/
  line : Nat
  valid : List Bool
  dirty : List Bool
  data : Bytes
  locked : Bool
  /-- Region table entry its dirty sectors belong to, the shadow of R397. -/
  region : Option Nat
  /-- Order in which it became dirty (R382). -/
  dirtyNo : Nat
deriving DecidableEq, Repr

/-- A line of an L1 instruction cache (R376, R383). -/
structure ILine where
  line : Nat
  valid : List Bool
  locked : Bool
  /-- PLAN_SLOT for a line fetched in bundle mode. -/
  planSlot : Option Nat
deriving DecidableEq, Repr

/-- One tile: the Spar core, its tile-control block, its scratch and its caches. -/
structure Tile where
  g : Vector Word 32
  v : Vector VecReg 32
  m : Vector Word 8
  pc : Word
  /-- ST (R323). -/
  im : Bool
  pl : Bool
  vx : Bool
  fx : BitVec 5
  tcmp : Word
  msp : Word
  msl : Word
  mvec : Word
  scrMon : BitVec 6
  wbase : Vector Word 16
  wlim : Vector Word 16
  wattr : Vector (BitVec 5) 16
  state : CoreState
  resetPc : Word
  /-- Tile fault registers (R339, R347). -/
  tfValid : Bool
  tfCause : Word
  tfMsp : Word
  tfPc : Word
  mailbox : BDesc
  pendPreempt : Bool
  pendDispatch : Bool
  /-- TIMER has been accepted for the present TCMP (R343). -/
  timerTaken : Bool
  unitSrc : BitVec 4
  unitEnable : BitVec 4
  reedCmd : Bytes
  reedBusy : Bool
  reedHanded : Nat
  reedStatus : Nat
  purlinStage : Bytes
  purlinReady : Word
  purlinResp : NMap PResp
  /-- The 256 KiB of scratch; an unlisted byte reads 0. -/
  scratch : List Host.Cell
  l1d : NMap L1Line
  l1dPlru : NMap Nat
  victim : List L1Line
  l1i : NMap ILine
  l1iPlru : NMap Nat
  dirtyNo : Nat
deriving DecidableEq, Repr

/-- The base of tile scratch addresses (R22, R324). -/
def scratchBase : Nat := 0x020100000000

/-- A tile after reset (R323, R324, R349). Its course has no clock yet, so it stands in RESET. -/
def Tile.reset : Tile :=
  { g := .replicate 32 0, v := .replicate 32 0, m := .replicate 8 0, pc := 0, im := true, pl := true, vx := false,
    fx := 0, tcmp := 0, msp := 0x020100040000, msl := 0x02010003C020, mvec := 0, scrMon := 0x3C,
    wbase := .replicate 16 0, wlim := .replicate 16 0, wattr := .replicate 16 0, state := .reset, resetPc := 0,
    tfValid := false, tfCause := 0, tfMsp := 0, tfPc := 0, mailbox := .zero, pendPreempt := false,
    pendDispatch := false, timerTaken := false, unitSrc := 0, unitEnable := 0, reedCmd := [], reedBusy := false, reedHanded := 0,
    reedStatus := 0, purlinStage := [], purlinReady := 0, purlinResp := [], scratch := [], l1d := [], l1dPlru := [],
    victim := [], l1i := [], l1iPlru := [], dirtyNo := 0 }

/-- A Thatch line (R376, R388). -/
structure TLine where
  /-- A[40:6] of its address; an aperture line has none. -/
  line : Nat
  data : Bytes
  dirty0 : Bool
  dirty1 : Bool
  locked : Bool
  aperture : Bool
  region : Option Nat
  /-- Sectors of an aperture line that hold bad parity (R397). -/
  bad0 : Bool
  bad1 : Bool
deriving DecidableEq, Repr

/-- The Thatch operation registers of a slice's block (R390). -/
structure MopRegs where
  mop : Nat
  addr : Nat
  len : Nat
  busy : Bool
  status : Nat
  acted : Nat
  skipped : Nat
  discarded : Nat
  refused : Nat
deriving DecidableEq, Repr

/-- The registers after reset (R390). -/
def MopRegs.reset : MopRegs :=
  { mop := 0, addr := 0, len := 0, busy := false, status := 0, acted := 0, skipped := 0, discarded := 0, refused := 0 }

/-- A Thatch slice: lines by set × 16 + way (R376, R390, R393). -/
structure Slice where
  enabled : Bool
  powered : Bool
  fused : Bool
  disableRefused : Bool
  /-- POWER written 1 and the slice not yet DISABLED (SLICE_POWER_ON_DONE). -/
  powering : Bool
  lines : NMap TLine
  plru : NMap Nat
  mop : MopRegs
deriving DecidableEq, Repr

/-- A slice at power-on: DISABLED (R393). -/
def Slice.reset : Slice :=
  { enabled := false, powered := true, fused := false, disableRefused := false, powering := false, lines := [],
    plru := [], mop := .reset }

/-- An entry of the region table (R381). -/
structure Region where
  base : Nat
  limit : Nat
  valid : Bool
  lost : Bool
  planSlot : Nat
  pipeline : Nat
  unit : Nat
deriving DecidableEq, Repr

/-- The Thatch, the region table and PLAN_RETIRE. -/
structure ThatchSt where
  slices : Vector Slice 16
  regions : NMap Region
  retireSlot : Nat
  /-- TS64 until which BUSY reads 1 (R384, R400). -/
  retireUntil : Nat
deriving DecidableEq, Repr

/-- The Thatch at power-on. -/
def ThatchSt.reset : ThatchSt :=
  { slices := .replicate 16 .reset, regions := [], retireSlot := 0, retireUntil := 0 }

end Sys2Proof.Machine
end

