-- ==== Sys2Proof/Machine/StDevice.lean ====
section
/-! DEFINITION. State of the memory controllers, the Keep and rank sparing (chapter 13), of the Gutter (14), of the
Yelm engines (15) and of the Flashing engine (16). -/

namespace Sys2Proof.Machine

/-- A write that waits in a controller's queue (R410, R411). -/
structure QWrite where
  addr : Nat
  data : Bytes
deriving DecidableEq, Repr

/-- A row tracked by a bank's row-hammer tracker: its activations, and those of each requester as (SRC8, PLAN_SLOT, number) (R419). -/
structure RhRow where
  bank : Nat
  row : Nat
  count : Nat
  reqs : List (Nat × Nat × Nat)
  /-- It has reached RH_THRESHOLD in this window (R420). -/
  acted : Bool
deriving DecidableEq, Repr

/-- The requester with the most activations of a row (R419): SRC8 and PLAN_SLOT. -/
def RhRow.top (r : RhRow) : Nat × Nat :=
  let best := r.reqs.foldl (fun (b : Nat × Nat × Nat) x => if b.2.2 < x.2.2 then x else b) (0, 0, 0)
  (best.1, best.2.1)

/-- A throttled requester of one bank (R420). -/
structure Throttle where
  rank : Nat
  bank : Nat
  src8 : Nat
  planSlot : Nat
  tokens : Nat
  /-- TS64 to which the bucket has been refilled. -/
  since : Nat
  /-- Windows that must still end before it lapses. -/
  windows : Nat
deriving DecidableEq, Repr

/-- An open row of a bank (R412): the bank by rank in the module × 64 + bank, its last access, and whether it closes by itself. -/
structure OpenPage where
  bank : Nat
  row : Nat
  since : Nat
  auto : Bool
deriving DecidableEq, Repr

/-- The block of one memory controller (R430). -/
structure MemChan where
  enable : Bool
  trainSet : Nat
  srReq : Bool
  pasr : Nat
  trained : Bool
  inSr : Bool
  wmHigh : Nat
  wmLow : Nat
  pageIdle : Nat
  readAge : Nat
  rhThreshold : Nat
  rhRate : Nat
  ce : Vector Nat 2
  ue : Vector Nat 2
  errAddr : Nat
  errInfo : Nat
  writes : List QWrite
  /-- Alerts of the last millisecond: the physical rank and TS64 (R418). -/
  alerts : List (Nat × Nat)
  rows : List RhRow
  /-- Rows that stand open. -/
  pages : List OpenPage
  throttles : List Throttle
  /-- TS64 of the corrected errors of each device in the last 24 hours, by rank × 32 + subchannel × 16 + device (R416). -/
  devCe : NMap (List Nat)
deriving DecidableEq, Repr

/-- A controller after reset (R430). -/
def MemChan.reset : MemChan :=
  { enable := false, trainSet := 0, srReq := false, pasr := 0, trained := false, inSr := false, wmHigh := 48, wmLow := 16,
    pageIdle := 32, readAge := 400, rhThreshold := 2048, rhRate := 50, ce := .replicate 2 0, ue := .replicate 2 0,
    errAddr := 0, errInfo := 0, writes := [], alerts := [], rows := [], pages := [], throttles := [], devCe := [] }

/-- MIG_PROGRESS (R430). -/
structure MigProgress where
  units : Nat
  fromRank : Nat
  toRank : Nat
  /-- 0 none, 1 copying, 2 paused, 3 done. -/
  state : Nat
deriving DecidableEq, Repr

/-- What Keep entry copies to always-on registers, and what S11 compares (R422, R423). -/
structure KeepCopy where
  slotMap : List Nat
  rankSize : Nat
  eighths : Nat
deriving DecidableEq, Repr

/-- How far a Keep entry has come. -/
inductive KeepPhase where
  | out | entering | inKeep
deriving DecidableEq, Repr

/-- DRAM, the Keep and sparing. -/
structure DramSt where
  chans : Vector MemChan 8
  /-- N, Z and R of R405 and R406; no slot is mapped before S6. -/
  slots : Nat
  rankSize : Nat
  ranksPerModule : Nat
  /-- The remap table: a physical rank, 0xFE spare, 0xFF NONE (R427, R430). -/
  remap : List Nat
  /-- The spare rank while it is held and unused. -/
  spare : Option Nat
  migRate : Nat
  migPause : Bool
  mig : MigProgress
  migSlot : Nat
  migStarted : Nat
  /-- DRAM_RESET_N is driven low (R424, R683). -/
  modulesReset : Bool
  /-- Lines (address / 64) that hold the poison syndrome (R417). -/
  poison : NMap Unit
  /-- Training state of each channel: 0 NORMAL, 1 CONSERVATIVE, 2 EXCLUDED (R409). -/
  train : Vector Nat 8
  trainReset : Bool
  dataRate : Nat
  /-- Physical ranks out of service. -/
  ranksOut : Nat
  scrubLine : Nat
  ecs : NMap Nat
  /-- KEEP_EIGHTHS in force, KEEP_VALID and T_K of the last entry. -/
  eighths : Nat
  keepValid : Bool
  keepEntered : Nat
  keepStamp : Option Stamp
  phase : KeepPhase
  /-- Nail commands were dropped because the limit passed (R423). -/
  overran : Bool
  copy : Option KeepCopy
  standbyLost : Bool
  /-- TS64 at which WAKE went low, while it stays low outside the Keep. -/
  wakeLowAt : Option Nat
  /-- TS64, carried by the standby counter, at step 7 (R424). -/
  retainFrom : Option Nat
deriving DecidableEq, Repr

/-- DRAM after reset: nothing trained, nothing mapped. -/
def DramSt.reset : DramSt :=
  { chans := .replicate 8 .reset, slots := 0, rankSize := 0, ranksPerModule := 0, remap := [], spare := none, migRate := 8,
    migPause := false, mig := ⟨0, 0, 0, 0⟩, migSlot := 0, migStarted := 0, modulesReset := true, poison := [], train := .replicate 8 0,
    trainReset := false, dataRate := 0, ranksOut := 0, scrubLine := 0, ecs := [], eighths := 2, keepValid := false,
    keepEntered := 0, keepStamp := none, phase := .out, overran := false, copy := none, standbyLost := true,
    wakeLowAt := none, retainFrom := none }

/-- CH_STATUS.STATE (R436). -/
inductive ChState where
  | idle | running | waiting | pausing | paused | done | stopped
deriving DecidableEq, Repr

/-- The number of a channel state. -/
def ChState.code : ChState → Nat
  | .idle => 0 | .running => 1 | .waiting => 2 | .pausing => 3 | .paused => 4 | .done => 5 | .stopped => 6

/-- A descriptor read into a channel (R437). -/
structure GDesc where
  /-- Its 64 bytes, as CH_DESC_COPY shows them. -/
  raw : Bytes
  /-- The stream table of an INTERLEAVE or DEINTERLEAVE: (ADDR, e) (R440). -/
  table : List (Nat × Nat)
  /-- Bytes, or rows, of a host read issued and not yet returned. -/
  asked : Nat
  /-- Position at which the burst of the request being served ends (R444). -/
  burstTo : Nat
  /-- Bytes, or rows of a transposition, written to its destinations so far. -/
  moved : Nat
  /-- Every byte is written and the read-back is outstanding (R448). -/
  readBack : Bool
deriving DecidableEq, Repr

/-- What a channel works for. -/
inductive ChUse where
  | free
  | firmware
  | inst (i : InstId)
  | plan (slot : Nat)
deriving DecidableEq, Repr

/-- One Gutter channel (R434, R436). -/
structure GChan where
  ctrl : Nat
  state : ChState
  pendingReq : Nat
  code : Nat
  descAddr : Nat
  src : Nat
  dst : Nat
  count : Nat
  row : Nat
  rowByte : Nat
  ring : Nat
  wbase : Vector Nat 4
  wlim : Vector Nat 4
  bytes : Nat
  desc : Option GDesc
  use : ChUse
  /-- Marked for release by a CHANNELS decrease (R550). -/
  marked : Bool
  /-- Paused by a FREEZE or UNBIND of its instance (R543). -/
  frozen : Bool
  /-- The code it stops with once its host reads have returned (R447). -/
  stopAs : Option Nat
deriving DecidableEq, Repr

/-- A channel after reset: PRIORITY 7, REQ_LINE 0x3F, BURST 31, poll interval 5 (R436). -/
def GChan.reset : GChan :=
  { ctrl := 7 * 2 ^ 5 + 0x3F * 2 ^ 8 + 31 * 2 ^ 14, state := .idle, pendingReq := 0, code := 0, descAddr := 0, src := 0,
    dst := 0, count := 0, row := 0, rowByte := 0, ring := 5 * 2 ^ 52, wbase := .replicate 4 0, wlim := .replicate 4 0,
    bytes := 0, desc := none, use := .free, marked := false, frozen := false, stopAs := none }

/-- The Gutter (chapter 14). -/
structure GutterSt where
  enable : Bool
  overrun : Nat
  chans : Vector GChan 32
deriving DecidableEq, Repr

/-- The Gutter after reset. -/
def GutterSt.reset : GutterSt := { enable := false, overrun := 0, chans := .replicate 32 .reset }

/-- A resume state held for a STATE_ADDR (R465). -/
structure YResume where
  addr : Nat
  desc : Bytes
  input : Bytes
  /-- Whole input bytes consumed, and the gain limit of the original job. -/
  consumed : Nat
  limit : Option Nat
  /-- Output bytes already produced, and where: (address, bytes). -/
  outDone : Nat
  parts : List (Nat × Bytes)
deriving DecidableEq, Repr

/-- A job an engine has taken (R457, R460). -/
structure YJob where
  queue : Nat
  slot : Nat
  desc : Bytes
  tile : Option TileId
  planSlot : Option Nat
  /-- The input as it stands when the job is taken (R466), up to a poisoned line. -/
  input : Bytes
  poisoned : Bool
  /-- Ended early, by a check of R461 or by R468, with this status. -/
  ended : Option Nat
  /-- TS64 at which it was taken. -/
  since : Nat
  /-- The gain limit L of a COMPRESS job (R462), and the resume state a RESUME job goes on from (R465). -/
  limit : Option Nat
  before : Option YResume
deriving DecidableEq, Repr

/-- The registers of one Yelm queue (R469). -/
structure YQueue where
  enable : Bool
  priority : Nat
  engines : Nat
  base : Nat
  slots : Nat
  lastSlot : Nat
deriving DecidableEq, Repr

/-- A queue after reset (R469). -/
def YQueue.reset : YQueue := { enable := false, priority := 3, engines := 0xF, base := 0, slots := 0, lastSlot := 63 }

/-- The Yelm engines (chapter 15). -/
structure YelmSt where
  enable : Bool
  poll : Nat
  jobs : Vector (Option YJob) 4
  read : Vector Nat 4
  queues : Vector YQueue 16
  lastQueue : Nat
  /-- PLAN_YELM: claims by plan slot. -/
  claims : NMap Nat
  resumes : List YResume
deriving DecidableEq, Repr

/-- The engines after reset (R469). -/
def YelmSt.reset : YelmSt :=
  { enable := false, poll := 5, jobs := .replicate 4 none, read := .replicate 4 0, queues := .replicate 16 .reset,
    lastQueue := 15, claims := [], resumes := [] }

/-- FC_STATUS.STATE (R476). -/
inductive FcState where
  | free | set | running | done | failed
deriving DecidableEq, Repr

/-- The number of a context state. -/
def FcState.code : FcState → Nat
  | .free => 0 | .set => 1 | .running => 2 | .done => 3 | .failed => 4

/-- One Flashing context (R474, R476). The message bytes taken stand for its chaining state. -/
structure FCtx where
  state : FcState
  /-- FC_CTRL [19:0] as written. -/
  ctrl : Nat
  len : Nat
  src : Nat
  dst : Nat
  taken : Bytes
  keyLen : Nat
  keyMem : Bool
  keyWritten : Bool
  keyAddr : Nat
  key : Bytes
  /-- The HMAC key in use, from START on. -/
  inUse : Bytes
  expect : Bytes
  digest : Bytes
  compare : Nat
  code : Nat
  /-- Blocks of its message that the hash core has taken (R475). -/
  served : Nat
deriving DecidableEq, Repr

/-- A FREE context. -/
def FCtx.reset : FCtx :=
  { state := .free, ctrl := 0, len := 0, src := 0, dst := 0, taken := [], keyLen := 0, keyMem := false, keyWritten := false,
    keyAddr := 0, key := [], inUse := [], expect := [], digest := [], compare := 0, code := 0, served := 0 }

/-- The Flashing engine (chapter 16). -/
structure FlashSt where
  ctxs : Vector FCtx 16
  cleared : Bool
  /-- Alarms that persist: voltage, clock, temperature, tamper, Finial, as bits 2 to 6 (FD_STATUS causes). -/
  alarms : Nat
  lastCause : Nat
  lastClear : Option (Stamp × Nat × Nat)
  /-- The word that the last read of FD_ALLOC answered. -/
  allocAnswer : Nat
  /-- The TAP context, and the other context, that the hash core has served last (R475). -/
  lastTap : Nat
  lastOther : Nat
deriving DecidableEq, Repr

/-- The engine after reset. -/
def FlashSt.reset : FlashSt :=
  { ctxs := .replicate 16 .reset, cleared := false, alarms := 0, lastCause := 0, lastClear := none, allocAnswer := 0, lastTap := 15, lastOther := 15 }

end Sys2Proof.Machine
end

