-- ==== Sys2Proof/Machine/StHost.lean ====
section
/-! DEFINITION. State of the host ports (chapter 17), of the task command path (18) and of instances and their
mailboxes (19). -/

namespace Sys2Proof.Machine

/-- FRZ_STATUS.STATE (R506). -/
inductive PortState where
  | running | frozen | suspended
deriving DecidableEq, Repr

/-- The number of a port state. -/
def PortState.code : PortState → Nat
  | .running => 0 | .frozen => 1 | .suspended => 2

/-- What an outstanding read belongs to. -/
inductive TagUse where
  | chan (c : ChanId)
  | command (i : InstId) (seq : Nat)
  /-- A channel that has stopped: what returns is discarded (R447, R500). -/
  | gone
deriving DecidableEq, Repr

/-- A requester tag in use (R503, R504). -/
inductive TagSt where
  /-- Its timeout falls at this TS64 (R503). -/
  | outstanding (f : FuncId) (use : TagUse) (due : Nat)
  | quarantined (endsAt : Nat)
deriving DecidableEq, Repr

/-- AER and port counters (0x3001). -/
structure PortCounters where
  correctable : Nat
  uncorrectable : Nat
  timeouts : Nat
  late : Nat
  unexpected : Nat
  freezes : Nat
  releaseRefused : Nat
deriving DecidableEq, Repr

/-- One host port (R489, R506, R511). -/
structure HPort where
  linkUp : Bool
  /-- 1 to 5 for 2.5 to 32 GT/s. -/
  speed : Nat
  width : Nat
  ltssm : Nat
  degraded : Bool
  enable : Bool
  fault : Bool
  state : PortState
  cause : Nat
  freezeSeq : Nat
  frozenAt : Stamp
  /-- TS64 at which FREEZE_HOLD ends. -/
  holdEnd : Nat
  tags : NMap TagSt
  /-- Bus number captured (R498). -/
  bus : Nat
  vfEnable : Bool
  numVfs : Nat
  counters : PortCounters
  perst : Bool
deriving DecidableEq, Repr

/-- A port after reset: link down, RUNNING (R506, R510). -/
def HPort.reset : HPort :=
  { linkUp := false, speed := 0, width := 0, ltssm := 0, degraded := false, enable := false, fault := false,
    state := .running, cause := 0, freezeSeq := 0, frozenAt := ⟨0, 0, 0, 0⟩, holdEnd := 0, tags := [], bus := 0,
    vfEnable := false, numVfs := 0, counters := ⟨0, 0, 0, 0, 0, 0, 0⟩, perst := false }

/-- The instance registers of a function: BAR0 0x0000 to 0x00FF, the interrupt block and OB_HIGH (R547). -/
structure InstRegs where
  cmd : Nat
  tag : Nat
  args : Vector Nat 8
  receipt : Stamp
  lastStatus : Nat
  cmplBase : Nat
  cmplCfg : Nat
  cmplIndex : Nat
  consumed : Nat
  produced : Nat
  /-- DEEPEST as written to INST_POWER (R531). -/
  deepest : Option Nat
  intCause : Nat
  intEnable : Nat
  intVector : Nat
  intHoldoff : Nat
  obHigh : Nat
deriving DecidableEq, Repr

/-- The registers at their reset values (R495, R498, R516). -/
def InstRegs.reset : InstRegs :=
  { cmd := 0, tag := 0, args := .replicate 8 0, receipt := ⟨0, 0, 0, 0⟩, lastStatus := 0, cmplBase := 0, cmplCfg := 0,
    cmplIndex := 0, consumed := 0, produced := 0, deepest := none, intCause := 0, intEnable := 0, intVector := 0,
    intHoldoff := 0, obHigh := 0 }

/-- An MSI-X table entry (R492, R496). -/
structure MsixEntry where
  addr : Nat
  data : Nat
  masked : Bool
deriving DecidableEq, Repr

/-- One function of a port (R490 to R498). -/
structure HFunc where
  memEn : Bool
  bme : Bool
  d3 : Bool
  msiEn : Bool
  /-- log2 of the messages allocated. -/
  msiLog : Nat
  msiAddr : Nat
  msiData : Nat
  msiMask : Nat
  msixEn : Bool
  msixMask : Bool
  msix : Vector MsixEntry 32
  /-- Pending bits of the 32 vectors (R497). -/
  pba : Nat
  /-- TS64 until which a vector is held off, and vectors with merged events (R495). -/
  heldOff : NMap Nat
  merged : Nat
  /-- Other writable configuration registers, by dword offset. -/
  config : NMap Nat
  inst : Option InstId
  regs : InstRegs
  mbIn : Bytes
  /-- A Function Level Reset is in progress until this TS64 (R502). -/
  flrUntil : Nat
deriving DecidableEq, Repr

/-- A function after reset. -/
def HFunc.reset : HFunc :=
  { memEn := false, bme := false, d3 := false, msiEn := false, msiLog := 0, msiAddr := 0, msiData := 0, msiMask := 0,
    msixEn := false, msixMask := false, msix := .replicate 32 ⟨0, 0, true⟩, pba := 0, heldOff := [], merged := 0,
    config := [], inst := none, regs := .reset, mbIn := [], flrUntil := 0 }

/-- The host ports (chapter 17). -/
structure HostSt where
  ports : Vector HPort 4
  funcs : Vector HFunc 64
  lateLog : Option (Stamp × Nat × Nat × Nat)
deriving DecidableEq, Repr

/-- The host ports after reset. -/
def HostSt.reset : HostSt := { ports := .replicate 4 .reset, funcs := .replicate 64 .reset, lateLog := none }

/-- The stage of a command in its instance's queue. -/
inductive CmdStage where
  /-- In the queue, not started. -/
  | queued
  /-- Started; bytes of host memory are awaited: 0 for the first read, 1 for the payload of an APPEND. -/
  | reading (part : Nat)
  /-- A plan or query read and validated, waiting for order (R523) or for resources (R177). -/
  | waiting
  /-- An APPEND committed, a plan accepted, a FLUSH waiting, a Nail command waiting for its conditions. -/
  | running
deriving DecidableEq, Repr

/-- A command taken and not complete (R519, R526). -/
structure Cmd where
  receipt : Stamp
  word : Nat
  tag : Nat
  args : List Nat
  stage : CmdStage
  /-- Image, batch or descriptor bytes read so far. -/
  data : Bytes
  params : List Nat
  /-- Tables its image reads, once read. -/
  reads : List Nat
  /-- Plan slot of an accepted plan. -/
  planSlot : Option Nat
  /-- An APPEND has left the Ligger: every row visible or dropped (R524). A plan has passed its checks (R177). -/
  settled : Bool
  d : Vector Nat 4
  /-- Energy attributed to it so far, in µJ (R654). -/
  energy : Rat
  planId : Bytes
  /-- Its instance was bound to the PF of the manager host at the receipt (R520). -/
  manager : Bool
deriving DecidableEq, Repr

/-- A completion record that waits to be delivered (R529, R530). -/
structure CRec where
  receipt : Stamp
  bytes : Bytes
  /-- Result bytes to be written to RESULT_ADDR before it, with that address (R32, R522). -/
  result : Bytes
  resultAddr : Nat
deriving DecidableEq, Repr

/-- The states of an instance (R541). -/
inductive InstState where
  | free | unbound | bound | freezing | frozen | suspended
deriving DecidableEq, Repr

/-- The number of an instance state. -/
def InstState.code : InstState → Nat
  | .free => 0 | .unbound => 1 | .bound => 2 | .freezing => 3 | .frozen => 4 | .suspended => 5

/-- A mailbox message (R554). -/
structure MbMsg where
  stamp : Stamp
  kind : Nat
  sender : Nat
  body : Bytes
deriving DecidableEq, Repr

/-- A result set in a result area (R522). -/
structure ResSet where
  offset : Nat
  bytes : Nat
  /-- Held for RELEASE_RESULT. -/
  held : Bool
deriving DecidableEq, Repr

/-- One instance (chapters 18 and 19). -/
structure Inst where
  state : InstState
  func : Option FuncId
  /-- The function it was last bound to, for the BOUND message. -/
  prevFunc : Option FuncId
  /-- FREEZING was begun by UNBIND. -/
  unbinding : Bool
  ctx : InstRegs
  queue : List Cmd
  records : List CRec
  resets : List ResSet
  /-- The bytes of the result area. -/
  area : NMap Byte
  /-- The ingest staging area: a stream of validity bitmaps, then one per supplied column (R122). -/
  staging : List Bytes
  inbox : List MbMsg
  outbox : List MbMsg
  mbDropped : Nat
  noticesLost : Nat
  /-- INST_POWER.STATE and the TS64 since which the instance has been idle in it (R531). -/
  power : Nat
  idleSince : Nat
  /-- Gutter channels reserved, and RESULT_MIB reserved (R549). -/
  chanMask : Nat
  resultMib : Nat
  energyTotal : Nat
  commands : Nat
  goIgnored : Nat
  writesDiscarded : Nat
  cancelled : Nat
deriving DecidableEq, Repr

/-- An instance at start-up without a creation record: FREE (R541). -/
def Inst.reset : Inst :=
  { state := .free, func := none, prevFunc := none, unbinding := false, ctx := .reset, queue := [], records := [],
    resets := [], area := [], staging := [], inbox := [], outbox := [], mbDropped := 0, noticesLost := 0, power := 0, idleSince := 0,
    chanMask := 0, resultMib := 0, energyTotal := 0, commands := 0, goIgnored := 0, writesDiscarded := 0, cancelled := 0 }

end Sys2Proof.Machine
end

