-- ==== Sys2Proof/Machine/StControl.lean ====
section
/-! DEFINITION. State of the Ridges and the Finial (chapter 21), of start-up, firmware and attestation (22), of pitch
and power (23) and of the package (25). -/

namespace Sys2Proof.Machine

/-- The states of a Ridge (R592). -/
inductive RState where
  | off | testing | syncing | ready | active | failed
deriving DecidableEq, Repr

/-- The number of a Ridge state. -/
def RState.code : RState → Nat
  | .off => 0 | .testing => 1 | .syncing => 2 | .ready => 3 | .active => 4 | .failed => 5

/-- FN_RETURN.STATE (R594). -/
inductive RetState where
  | none | holdoff | waiting | handover
deriving DecidableEq, Repr

/-- The number of a return state. -/
def RetState.code : RetState → Nat
  | .none => 0 | .holdoff => 1 | .waiting => 2 | .handover => 3

/-- One Ridge as the Finial keeps it (R592 to R594) with its self-tests (R605). -/
structure RidgeSt where
  state : RState
  cause : Nat
  missed : Nat
  attempts : Nat
  selfCode : Nat
  lastAck : Nat
  /-- Consecutive checkpoints acknowledged while SYNCING, and whether the full image has arrived. -/
  acks : Nat
  image : Bool
  /-- TS64 at which it entered READY or ACTIVE, or FAILED. -/
  readySince : Nat
  failedAt : Nat
  marchPasses : Nat
  marchFails : Nat
  vectorRuns : Nat
  vectorFails : Nat
deriving DecidableEq, Repr

/-- A Ridge at power-on: OFF. -/
def RidgeSt.reset : RidgeSt :=
  { state := .off, cause := 0, missed := 0, attempts := 0, selfCode := 0, lastAck := 0, acks := 0, image := false,
    readySince := 0, failedAt := 0, marchPasses := 0, marchFails := 0, vectorRuns := 0, vectorFails := 0 }

/-- A journal entry (R600). -/
structure JEntry where
  stamp : Stamp
  kind : Nat
  jseq : Nat
  payload : Nat
  /-- The snapshot of an ACCEPT entry (R178). -/
  snapshot : List SnapSeg
deriving DecidableEq, Repr

/-- A checkpoint sent and its fate (R597, R598). [log 242 DESIGN CHOICE] -/
structure CkptSt where
  raft : Nat
  jseq : Nat
  bytes : Nat
  crc : Nat
  acked : Bool
  /-- Ring position of each Eave port (R149). -/
  rings : Vector Nat 4
deriving DecidableEq, Repr

/-- LAST_TAKEOVER (0x3801:03). -/
structure Takeover where
  stamp : Stamp
  fromRidge : Nat
  toRidge : Nat
  cause : Nat
  raft : Nat
  entries : Nat
  durationNs : Nat
deriving DecidableEq, Repr

/-- The Finial and the pair of Ridges (chapter 21). [log 224 DESIGN CHOICE] -/
structure FinialSt where
  ridges : Vector RidgeSt 2
  /-- HOLDER: 0 none, 1 A, 2 B. -/
  holder : Nat
  handover : Bool
  tokenSeq : Nat
  holdoffMs : Nat
  notBefore : Nat
  ret : RetState
  /-- A READY instant of Ridge A from which the hold-off runs. -/
  readyAt : Nat
  returnAt : Nat
  /-- A handover requested through ACTIVE_RIDGE (R610), with its write. -/
  requested : Option (Nat × DictWrite)
  flatDue : Bool
  /-- FN_ALERT and its mask (R594, R595). -/
  alert : Nat
  alertMask : Nat
  /-- FIN_ALERT_N driven low by a brownout or halt until the next start (R622, R679). -/
  alertForced : Bool
  vetoLow : Bool
  /-- SAFE_VETO_N was low at some moment of the running cycle. -/
  vetoInCycle : Bool
  fault : Bool
  heartbeat : Bool
  heartbeatsIgnored : Nat
  heartbeatsMissed : Nat
  lastTakeover : Option Takeover
  ckpt : CkptSt
  /-- JSEQ of the first entry the last acknowledged checkpoint does not cover. -/
  ackJseq : Nat
  ckptAcked : Nat
  ckptMax : Nat
  journal : List JEntry
  jseq : Nat
  /-- JOURNAL_ENTRIES in force, taken over at a start. -/
  journalCap : Nat
  journalMax : Nat
  deferrals : Nat
  /-- Writes of the standby Ridge discarded (R26). -/
  discarded : Nat
  /-- The Ridge whose self-test decides a lone restart, the Ridges already tried, and the TS64 of the declaration (R611). -/
  lone : Option (Fin 2)
  loneTried : Nat
  declaredAt : Nat
deriving DecidableEq, Repr

/-- The Finial after reset (R594). -/
def FinialSt.reset : FinialSt :=
  { ridges := .replicate 2 .reset, holder := 0, handover := false, tokenSeq := 0, holdoffMs := 10000, notBefore := 0,
    ret := .none, readyAt := 0, returnAt := 0, requested := none, flatDue := false, alert := 2, alertMask := 0,
    alertForced := false, vetoLow := false, vetoInCycle := false, fault := false, heartbeat := false,
    heartbeatsIgnored := 0, heartbeatsMissed := 0, lastTakeover := none, ckpt := ⟨0, 0, 0, 0, true, .replicate 4 0⟩, ackJseq := 0, ckptAcked := 0,
    ckptMax := 0, journal := [], jseq := 0, journalCap := 4096, journalMax := 0, deferrals := 0, discarded := 0, lone := none,
    loneTried := 0, declaredAt := 0 }

/-- One start step as the boot record keeps it (R623). -/
structure StepRec where
  ts : Nat
  attempts : Nat
  outcome : Nat
  cause : Nat
  detail : Nat
deriving DecidableEq, Repr

/-- A firmware slot in boot flash (R625, R631). -/
structure FwSlot where
  image : Bytes
  /-- 0 empty, 1 valid, 2 staged, 3 in use, 4 invalid. -/
  state : Nat
deriving DecidableEq, Repr

/-- A plan-key slot (R634). -/
structure PlanKey where
  /-- 0 empty, 1 ACTIVE, 2 REVOKED. -/
  state : Nat
  modulus : Bytes
deriving DecidableEq, Repr

/-- The fuse array (R628). -/
structure Fuses where
  keyHash : Vector Bytes 4
  revoked : Nat
  ridgeSvn : Nat
  tileSvn : Nat
  identityHash : Bytes
  /-- Read by the Ridge public-key unit only. -/
  deviceSecret : Bytes
  serial : Nat
  grade : Nat
deriving DecidableEq, Repr

/-- A part as it leaves the factory, every fuse field at its reset value (R628). -/
def Fuses.reset : Fuses :=
  { keyHash := .replicate 4 (List.replicate 32 0), revoked := 0, ridgeSvn := 0, tileSvn := 0,
    identityHash := List.replicate 32 0, deviceSecret := List.replicate 32 0, serial := 0, grade := 0 }

/-- What S11 finds of a Keep segment (R105): its MAGIC or VERSION wrong, and the columns whose chunk of copy A, or of copy B, fails its
CRC. -/
structure BadSeg where
  table : Nat
  seg : Nat
  head : Bool
  colsA : List Nat
  colsB : List Nat
deriving DecidableEq, Repr

/-- What one pass through the start steps meets (R619 to R621, R685): a start that begins again meets the next one. [log 174 DESIGN CHOICE] -/
structure StartEnv where
  /-- Time each step takes, in ns. -/
  times : List Nat
  /-- STRAP_SCC and STRAP_TEST as sampled at S0; mV of the rails. -/
  straps : Nat
  rails : List Nat
  /-- RST_N goes low before S3 (R684). -/
  rstLow : Bool
  /-- S1, S2: the fuse read is uncorrectable; the Finial's copies disagree. -/
  fuseBad : Bool
  finialBad : Bool
  /-- S3: Ridges whose ROM self-test fails; both store start-up blocks fail their CRC. -/
  romFail : Nat
  blocksBad : Bool
  /-- S5: bit n, the PLL of domain n does not lock. -/
  pllBad : Nat
  /-- S6: channels that answer as described; those whose RESUME verification, or whose full set, fails. -/
  answers : Nat
  resumeBad : Nat
  trainBad : Nat
  /-- S7 to S9: slices, banks, courses and ports that fail their tests. -/
  slicesBad : Nat
  banksBad : Nat
  coursesBad : Nat
  portsBad : Nat
  /-- S10: keys of store records that fail their CRC. -/
  badRecords : List Nat
  /-- S3: reserves whose commit fails, bit n for reserve n (R46). -/
  reserveBad : Nat
  /-- S11: the segments of which something fails. -/
  badSegs : List BadSeg
  /-- The Finial declares the active Ridge failed in this step (R620). -/
  ridgeLost : Option Nat
deriving DecidableEq, Repr

/-- A pass in which nothing fails. -/
def StartEnv.clean : StartEnv :=
  { times := [], straps := 0, rails := [], rstLow := false, fuseBad := false, finialBad := false, romFail := 0, blocksBad := false,
    pllBad := 0, answers := 0xFF, resumeBad := 0, trainBad := 0, slicesBad := 0, banksBad := 0, coursesBad := 0, portsBad := 0,
    badRecords := [], reserveBad := 0, badSegs := [], ridgeLost := none }

/-- A write to a register that has no row of its own (R11): by a host through BAR0 of a function, or by a Ridge at a device
address (R24); the bytes are those the write carries, lowest first. And a read of either kind, of n bytes: what a write has set, a read
shows (R11). [log 216 DESIGN CHOICE] -/
inductive RegAccess where
  | bar0 (f : FuncId) (off : Nat) (data : Bytes)
  | ridge (r : Fin 2) (addr : Nat) (data : Bytes)
  | bar0Read (f : FuncId) (off n : Nat)
  | ridgeRead (r : Fin 2) (addr n : Nat) (parity : Bool)
deriving DecidableEq, Repr

/-- What the makers of the part and of the board put into it before its first start: the four images in boot flash, and the
fuses the part leaves the factory with (R625, R628). [log 7 DESIGN CHOICE] -/
structure Provision where
  images : Vector Bytes 4
  keyHash : Vector Bytes 4
  serial : Nat
  grade : Nat
deriving DecidableEq, Repr

/-- Start-up, firmware and attestation (chapter 22) and the straps (25). -/
structure BootSt where
  /-- The device is in service: S12 has passed. -/
  inService : Bool
  halted : Bool
  /-- Kind of the last start: 0 COLD, 1 WAKE, 2 WARM. -/
  kind : Nat
  steps : Vector StepRec 13
  stepReset : Bool
  limits : Vector Nat 13
  /-- Ridge slots A and B, then tile-monitor slots A and B. -/
  slots : Vector FwSlot 4
  ridgeSlot : Nat
  tileSlot : Nat
  /-- The store half in use, the SEQ of its newest record, and the bytes of its log (R626). -/
  storeHalf : Nat
  storeSeq : Nat
  storeFill : Nat
  coursesOff : Nat
  /-- Courses fenced for the session by a clock alarm (R668). -/
  coursesFenced : Nat
  banksOff : Nat
  slicesOff : Nat
  portsOff : Nat
  rateSteps : Nat
  eaveOff : Bool
  /-- The two flash copies and the shadow of the boot record. -/
  flash : Vector Bytes 2
  generation : Nat
  shadow : Bytes
  fuses : Fuses
  romDigest : Bytes
  romVersion : Nat
  ms : Vector Bytes 8
  identityPublic : Bytes
  /-- The identity's private key as the persistent store holds it, wrapped (R635). -/
  identityWrapped : Bytes
  attest : Option (Bytes × DictWrite)
  report : Bytes
  /-- Staging open for KIND 1 and 2. -/
  staging : Vector Bool 2
  lastKind : Nat
  lastCode : Nat
  /-- Activation of a KIND in progress, with the TS64 of its stamp (R535, R632, R633). -/
  activating : Option (Nat × Nat)
  /-- Courses a tile-monitor activation has still to visit, the one being visited first, and whether contexts of the old
  monitor are of no use (R633). -/
  visits : List Nat
  visitFresh : Bool
  /-- Bytes staged (FW_STATUS). -/
  stagedBytes : Nat
  planKeys : Vector PlanKey 8
  tokenAtS12 : Nat
  straps : Nat
  rstIgnored : Nat
  tamperEvents : Nat
  brownouts : Nat
  /-- Domains that raise a clock alarm, bit n for domain n; rails that raise a voltage alarm. -/
  clockAlarms : Nat
  railsOut : Nat
  railAlarms : Vector Nat 10
  rails : Vector Nat 10
  /-- Main rails in range, standby rails in range, MAIN_EN driven high. -/
  mainUp : Bool
  standbyUp : Bool
  mainEn : Bool
  /-- XSPI_RESET_N is high (R683). -/
  xspiOn : Bool
  wakeHigh : Bool
  wakePending : Bool
  brownedOut : Bool
  /-- The step at which the last halt fell (R622); 13 for none. -/
  haltStep : Nat
  /-- Alternatives of step S3 (R621): Ridge B is granted the token; the session runs on defaults. -/
  startB : Bool
  noStore : Bool
deriving DecidableEq, Repr

/-- Start-up after reset: no supply, nothing run. -/
def BootSt.reset : BootSt :=
  { inService := false, halted := false, kind := 0, steps := .replicate 13 ⟨0, 0, 0, 0, 0⟩, stepReset := false,
    limits := .replicate 13 3, slots := .replicate 4 ⟨[], 0⟩, ridgeSlot := 0, tileSlot := 0, storeHalf := 0, storeSeq := 0, storeFill := 0,
    coursesOff := 0, coursesFenced := 0, banksOff := 0, slicesOff := 0, portsOff := 0, rateSteps := 0, eaveOff := false,
    flash := .replicate 2 [], generation := 0, shadow := [], fuses := .reset, romDigest := [], romVersion := 0,
    ms := .replicate 8 (List.replicate 32 0), identityPublic := [], identityWrapped := [], attest := none, report := [],
    staging := .replicate 2 false, lastKind := 0, lastCode := 0, activating := none, visits := [],
    visitFresh := false, stagedBytes := 0, planKeys := .replicate 8 ⟨0, []⟩,
    tokenAtS12 := 0, straps := 0, rstIgnored := 0, tamperEvents := 0, brownouts := 0, clockAlarms := 0, railsOut := 0, railAlarms := .replicate 10 0,
    rails := .replicate 10 0, mainUp := false, standbyUp := false, mainEn := false, xspiOn := false, wakeHigh := false,
    wakePending := false, brownedOut := false, haltStep := 13, startB := false, noStore := false }

/-- What draws on a shared unit: the bundle on a tile, or a command's host transfers (R653, R654). -/
inductive EnergyUser where
  | tile (t : TileId)
  | cmd (i : InstId) (seq : Nat)
deriving DecidableEq, Repr

/-- One user's activity count in a shared unit over a sample (R653). -/
structure EnergyUse where
  user : EnergyUser
  unit : Nat
  count : Nat
deriving DecidableEq, Repr

/-- One course as chapter 23 keeps it. [log 186 DEDUCED] -/
structure CoursePw where
  assigned : Nat
  effective : Nat
  mhz : Nat
  ceiling : Nat
  changing : Bool
  policyPark : Bool
  /-- TS64 since which no tile of it runs and no ready bundle is eligible for it (R644). -/
  idleSince : Option Nat
deriving DecidableEq, Repr

/-- A course at power-on: assigned Low, effective Parked (R647). -/
def CoursePw.reset : CoursePw :=
  { assigned := 1, effective := 3, mhz := 0, ceiling := 1800, changing := false, policyPark := false, idleSince := none }

/-- A thermal trip: set, and the TS64 since which every reading has been 5 °C below it (R651). -/
structure Trip where
  set : Bool
  clearSince : Option Nat
  count : Nat
deriving DecidableEq, Repr

/-- Pitch and power (chapter 23). -/
structure PowerSt where
  courses : Vector CoursePw 8
  capW : Nat
  hystMw : Nat
  /-- Device power in units of 0.01 W, and the maximum since read. -/
  now : Nat
  maxMw : Nat
  capActive : Bool
  capUnmet : Bool
  /-- TS64 since which power has been below the cap less the margin. -/
  belowSince : Option Nat
  capEvents : Nat
  capUnmetEvents : Nat
  /-- Warn, throttle, critical, shutdown. -/
  trips : Vector Trip 4
  /-- °C × 16 of the sixteen sensors. -/
  temps : Vector Int 16
  tempMax : Int
  energy : Vector Nat 16
  unattributed : Nat
deriving DecidableEq, Repr

/-- Power after reset (R647). -/
def PowerSt.reset : PowerSt :=
  { courses := .replicate 8 .reset, capW := 125, hystMw := 3000, now := 0, maxMw := 0, capActive := false, capUnmet := false,
    belowSince := none, capEvents := 0, capUnmetEvents := 0, trips := .replicate 4 ⟨false, none, 0⟩,
    temps := .replicate 16 0, tempMax := 0, energy := .replicate 16 0, unattributed := 0 }

/-- What the part sends out: the model's own record of it, oldest first. -/
inductive Out where
  /-- A posted PCIe write of a function. -/
  | hostWrite (f : FuncId) (addr : Nat) (data : Bytes)
  /-- A PCIe read request of a function (R27). -/
  | hostRead (f : FuncId) (addr n : Nat)
  /-- What a Ridge's read of a device address returns (R24). -/
  | ridgeData (r : Fin 2) (addr : Nat) (data : Bytes)
  /-- The bus error that an access of a Ridge meets (R25). -/
  | busError (r : Fin 2) (addr : Nat)
  /-- A memory-write message of a vector. -/
  | message (f : FuncId) (addr data : Nat)
  /-- The answer to a host read: an Unsupported Request, or bytes. -/
  | reply (f : FuncId) (data : Option Bytes)
  /-- A frame leaving a field port. -/
  | fieldFrame (port : Nat) (data : Bytes)
  /-- A frame leaving an Eave port. -/
  | eaveFrame (port : PortId) (data : Bytes)
  /-- The header of a Sway frame that carries a checkpoint, or of its ACK (R597, R598). -/
  | swayFrame (header : Bytes)
  /-- A Pdelay_Req, and the answer to a link partner's (chapter 02, "The gPTP subset"). -/
  | pdelayReq (port : PortId)
  | pdelayResp (port : PortId) (seq receivedAt : Nat)
deriving DecidableEq, Repr

end Sys2Proof.Machine
end

