-- ==== Sys2Proof/Syntax.lean ====
section
/-! DEFINITION. The commands of the block: one constructor of `Instr` for each row of spec/opcode_table.json,
with the operands the chapters give the row. What the environment brings with an event (bytes that arrive, the
outcome of a check made outside the part, a measured value) is an operand of that event. -/

namespace Sys2Proof

open Sys2Proof.Machine

/-- The commands and events of spec/opcode_table.json, each citing the rule its row names. -/
inductive Instr where
  /-- REGISTER_WRITE (R11): A write to a register that has no row of its own takes effect by its field access codes. -/
  | registerWrite (access : RegAccess)
  /-- CLOCK_ALARM (R21): A clock domain stays more than 5 % off its set frequency for 10 µs; the Finial raises a clock alarm and contains it by domain. -/
  | clockAlarm (domain : Nat)
  /-- STANDBY_WRITE_DISCARDED (R26): A write the standby Ridge issues outside its SRAM and the Sway link is discarded and counted. -/
  | standbyWriteDiscarded
  /-- BAR2_READ (R29): A host read of BAR2 returns result-area bytes, or an Unsupported Request and an error record beyond the area or with no bound instance. -/
  | bar2Read (func : FuncId) (off n : Nat)
  /-- BAR2_WRITE (R29): A host write to BAR2 is discarded and counted. -/
  | bar2Write (func : FuncId) (off : Nat) (data : Bytes)
  /-- RAFTER_BOUNDARY (R47): A grid Rafter boundary falls due and RAFT32 advances, with tick 0 delivered to the Batten. -/
  | rafterBoundary (ckptBytes ckptCrc : Nat)
  /-- RAFTER_IN_EDGE (R48): A RAFTER_IN edge arrives and is stamped, then ignored as early or taken as a boundary. -/
  | rafterInEdge (falling : Bool) (ckptBytes ckptCrc : Nat)
  /-- SYNTHETIC_BOUNDARY (R49): No edge arrives by 1.25 periods after the last boundary; a synthetic boundary is generated and counted. -/
  | syntheticBoundary (ckptBytes ckptCrc : Nat)
  /-- BATTEN_TICK (R51): A Batten tick falls due and is delivered with its TS64, RAFT32, index and latched DIST48. -/
  | battenTick
  /-- GPTP_SYNC (R40): A gPTP Sync is received; the offset is measured and the time-base state and correction advance. -/
  | gptpSync (port : PortId) (domain : Nat) (twoStep : Bool) (seq : Nat) (log : Int) (origin : Nat) (corr : Int)
  /-- GPTP_FOLLOW_UP (R40): A two-step Follow_Up is received and completes its Sync. -/
  | gptpFollowUp (port : PortId) (domain seq origin : Nat) (corr : Int)
  /-- GPTP_ANNOUNCE (R40): A gPTP Announce is received from the grandmaster. -/
  | gptpAnnounce (port : PortId) (domain gm : Nat)
  /-- PDELAY_REQ (R40): A link partner's Pdelay_Req is received and answered. -/
  | pdelayReq (port : PortId) (seq : Nat)
  /-- PDELAY_RESP (R40): A Pdelay response is received and the link delay is measured. -/
  | pdelayResp (port : PortId) (t2 t3 : Nat)
  /-- PDELAY_INTERVAL (R40): The once-per-second interval expires and the device sends its own Pdelay_Req. -/
  | pdelayInterval
  /-- SYNC_TIMEOUT (R54): No Sync arrives for three intervals; the time base enters HOLDOVER. -/
  | syncTimeout
  /-- RESERVE_COMMIT (R46): A counter comes within its margin of its reserve, and the Ridge commits a new reserve to the persistent store. -/
  | reserveCommit (kind : Fin 3) (ok : Bool)
  /-- ODO_TICK (R55): A qualified ODO_TICK edge adds its distance to DIST48, and to REV48 when ODO_DIR shows reverse. -/
  | odoTick (rising stable dirHigh dirStable : Bool)
  /-- TABLE_DROP_COMPLETE (R71): The last snapshot holding a dropped table's segments is released; the drop completes and frees the id. -/
  | tableDropComplete (table : Nat)
  /-- SEAL_AGE_EXPIRY (R97): SEAL_AGE ms pass since an open segment's first row, and sealing starts. -/
  | sealAgeExpiry (table : Nat)
  /-- SEAL_COMPLETE (R99): Sealing work ends and one atomic catalogue update replaces the open form with the sealed form. -/
  | sealComplete (table : Nat)
  /-- RETENTION_EVALUATION (R106): The retention interval expires and unheld segments past their time or distance limit are retired. -/
  | retentionEvaluation
  /-- LAPPED_REPAIR (R111): The Ridge rewrites a damaged chunk of a double-lapped table from the intact copy. -/
  | lappedRepair (table seg col : Nat) (copyB : Bool)
  /-- APPEND_HEADER_READ (R120): The batch header arrives and is checked against the command before the payload is read. -/
  | appendHeaderRead (inst : InstId) (seq : Nat) (header : Bytes)
  /-- APPEND_PAYLOAD_READ (R121): The whole payload arrives in staging, is value-checked and the unit is entered into the Ligger. -/
  | appendPayloadRead (inst : InstId) (seq : Nat) (payload : Bytes)
  /-- EAVE_FRAME_RECEIVED (R126): An Eave port receives a frame, stamps it, drops it on bad FCS or size, or writes it into its capture ring. -/
  | eaveFrameReceived (port : PortId) (frame : Bytes) (fcsOk : Bool)
  /-- EAVE_UNIT_ENTRY (R128): A decoded frame, once earlier frames of its port are entered, reserves its SEQ24 block and enters the Ligger. -/
  | eaveUnitEntry (port : PortId)
  /-- LIGGER_RELEASE (R143): A held row's lateness window expires and no earlier pending APPEND blocks it; the row is released and made visible. -/
  | liggerRelease (table : Nat)
  /-- BLOCK_LIMIT_EXPIRY (R143): A pending APPEND reaches BLOCK_LIMIT and stops blocking the release of later rows. -/
  | blockLimitExpiry (inst : InstId) (seq : Nat)
  /-- FORCED_RELEASE (R145): The Ligger's held count passes 15/16 of capacity, and it releases globally in triple order. -/
  | forcedRelease
  /-- MAP_ENTRY (R152): A signal-map entry is written into the shadow generation. -/
  | mapEntry (via : Via) (index bank priority key mask result : Nat) (valid : Bool)
  /-- PROGRAM_CHUNK (R152): A decode-program chunk is written into the shadow generation. -/
  | programChunk (via : Via) (program offset : Nat) (last : Bool) (bytes : Bytes)
  /-- MAP_ENTRY_REWRITE (R228): The active Ridge rewrites a MAP entry invalidated by an uncorrectable copy, releasing waiting searches. -/
  | mapEntryRewrite (bank : Fin 8) (index : Nat)
  /-- PLAN_IMAGE_READ (R176): A plan image has been read and digested; it is validated and accepted or refused. -/
  | planImageRead (inst : InstId) (seq : Nat) (image : Bytes) (params : Option (List Nat))
  /-- PLAN_ADMISSION (R177): Resources return, and a waiting plan is admitted in submission order. -/
  | planAdmission
  /-- REED_START (R201): The tile monitor starts a Reed scan command over a range of blocks. -/
  | reedStart (tile : TileId) (seg first count : Nat) (bad : List (Nat × Bool))
  /-- REED_ABANDON (R210): The tile monitor abandons the Reed command in progress, and its partial batch is discarded. -/
  | reedAbandon (tile : TileId)
  /-- REED_BATCH_HANDOVER (R205): The Reed unit closes a batch and hands it to Spar code. -/
  | reedBatchHandover (tile : TileId) (kernels : List KRes)
  /-- SEARCH (R222): A Purlin SEARCH reports the winning matching entry or MISS. -/
  | search (who : PWho) (q : PReq) (f : PFaults)
  /-- INSERT (R222): A Purlin INSERT reports a hit or writes a new entry, or reports FULL. -/
  | insert (who : PWho) (q : PReq) (f : PFaults)
  /-- WRITE (R222): A Purlin WRITE replaces the entry at an index. -/
  | write (who : PWho) (q : PReq)
  /-- INVALIDATE (R222): A Purlin INVALIDATE clears an entry's valid bit. -/
  | invalidate (who : PWho) (q : PReq)
  /-- READ (R222): A Purlin READ returns the entry at an index. -/
  | read (who : PWho) (q : PReq)
  /-- CLEAR (R222): A Purlin CLEAR invalidates every entry of the named banks. -/
  | clear (who : PWho) (q : PReq)
  /-- PURLIN_BACKGROUND_COMPARE (R230): The background port compares an entry's key cells with its copy and handles a difference as a false hit. -/
  | purlinBackgroundCompare (bank : Fin 8) (index : Nat) (dead : Bool)
  /-- SEAL_HIP_YIELD (R254): Sealing reaches a 4,096-record boundary and yields the Hip unit to a waiting bundle. -/
  | sealHipYield (course : CourseId)
  /-- DELAY_ENTRY_RELEASE (R313): A delay-list entry falls due at a tick and is released, then re-armed or freed. -/
  | delayEntryRelease
  /-- FIRING_RECORD_DELIVERY (R282): Once ring space is present, a firing record is written, PRODUCED updated and the message sent. -/
  | firingRecordDelivery (cq : Nat) (consumed : Option Nat) (answered : Nat)
  /-- BT_SUBMIT (R294): The active Ridge submits a bundle descriptor, which is placed or refused. -/
  | btSubmit (desc : Bytes)
  /-- BT_PURGE (R306): Every ready and pre-empted bundle of an instance or plan slot is removed with ABORTED_RESET. -/
  | btPurge (bySlot : Bool) (num : Nat)
  /-- DELAY_INSERT (R312): A delay entry is inserted into the lowest free slot of its list. -/
  | delayInsert (entry : Bytes)
  /-- DELAY_MOVE (R312): A delay entry's DUE is replaced. -/
  | delayMove (dist : Bool) (entry due : Nat)
  /-- DELAY_REMOVE (R312): A delay entry is freed. -/
  | delayRemove (dist : Bool) (entry : Nat)
  /-- RESERVATION_EXPIRY (R298): The oldest affinity reservation expires and idle tiles are chosen for again. -/
  | reservationExpiry
  /-- PREEMPT_AFTER_EXPIRY (R302): A waiting bundle reaches PREEMPT_AFTER_US and may pre-empt a lower-priority tile. -/
  | preemptAfterExpiry
  /-- PREEMPTION_TIMEOUT (R303): A tile in PREEMPTING has not accepted within the timeout; it is reset and its bundle re-placed with TILE_FAULT. -/
  | preemptionTimeout (tile : TileId)
  /-- SAVE_LIMIT_EXPIRY (R303): A tile in SAVING has not yielded within 8 µs; it is reset and its bundle re-placed. -/
  | saveLimitExpiry (tile : TileId)
  /-- DISPATCH_ACK (R300): The tile acknowledges its dispatch; L1 data lines are invalidated and the tile becomes RUNNING. -/
  | dispatchAck (tile : TileId)
  /-- YIELD (R304): The tile reports its context saved; dirty lines are written back and the bundle returns to its list. -/
  | yield (tile : TileId) (lost : List Nat)
  /-- DONE (R295): The tile reports its bundle's status; a bundle-done record is written and dependent work proceeds. -/
  | done (tile : TileId) (status : Nat) (kernels : List KRes) (lost : List Nat)
  /-- TILE_RESET_DONE (R349): A hardware tile reset completes and the tile becomes IDLE or FENCED. -/
  | tileResetDone (tile : TileId)
  /-- ILLEGAL (R334): An undecodable or reserved instruction word raises ILLEGAL. -/
  | illegal (tile : TileId) (word : BitVec 32)
  /-- ADD (R331): Integer add modulo 2^64. -/
  | add (tile : TileId) (d a b : Reg)
  /-- SUB (R331): Integer subtract modulo 2^64. -/
  | sub (tile : TileId) (d a b : Reg)
  /-- AND (R331): Bitwise AND. -/
  | and (tile : TileId) (d a b : Reg)
  /-- OR (R331): Bitwise OR. -/
  | or (tile : TileId) (d a b : Reg)
  /-- XOR (R331): Bitwise XOR. -/
  | xor (tile : TileId) (d a b : Reg)
  /-- ANDN (R331): a AND NOT b. -/
  | andn (tile : TileId) (d a b : Reg)
  /-- SHL (R331): Shift left. -/
  | shl (tile : TileId) (d a b : Reg)
  /-- SHR (R331): Logical shift right. -/
  | shr (tile : TileId) (d a b : Reg)
  /-- SAR (R331): Arithmetic shift right. -/
  | sar (tile : TileId) (d a b : Reg)
  /-- ROR (R331): Rotate right by b mod 64. -/
  | ror (tile : TileId) (d a b : Reg)
  /-- MUL (R331): Low 64 bits of the product. -/
  | mul (tile : TileId) (d a b : Reg)
  /-- MULHU (R331): High 64 bits of the unsigned product. -/
  | mulhu (tile : TileId) (d a b : Reg)
  /-- MULHS (R331): High 64 bits of the signed product. -/
  | mulhs (tile : TileId) (d a b : Reg)
  /-- DIVU (R332): Unsigned divide, quotient 0 on division by zero. -/
  | divu (tile : TileId) (d a b : Reg)
  /-- DIVS (R332): Signed divide toward zero. -/
  | divs (tile : TileId) (d a b : Reg)
  /-- REMU (R332): Unsigned remainder. -/
  | remu (tile : TileId) (d a b : Reg)
  /-- REMS (R332): Signed remainder with the sign of the dividend. -/
  | rems (tile : TileId) (d a b : Reg)
  /-- MINU (R331): Unsigned minimum. -/
  | minu (tile : TileId) (d a b : Reg)
  /-- MINS (R331): Signed minimum. -/
  | mins (tile : TileId) (d a b : Reg)
  /-- MAXU (R331): Unsigned maximum. -/
  | maxu (tile : TileId) (d a b : Reg)
  /-- MAXS (R331): Signed maximum. -/
  | maxs (tile : TileId) (d a b : Reg)
  /-- SLTU (R331): Set 1 when a is below b, unsigned. -/
  | sltu (tile : TileId) (d a b : Reg)
  /-- SLTS (R331): Set 1 when a is below b, signed. -/
  | slts (tile : TileId) (d a b : Reg)
  /-- SEQ (R331): Set 1 when a equals b. -/
  | seq (tile : TileId) (d a b : Reg)
  /-- CLZ (R332): Count leading zeros; 64 for zero. -/
  | clz (tile : TileId) (d a : Reg)
  /-- CTZ (R332): Count trailing zeros; 64 for zero. -/
  | ctz (tile : TileId) (d a : Reg)
  /-- POPC (R331): Population count. -/
  | popc (tile : TileId) (d a : Reg)
  /-- BSWAP (R331): Byte swap. -/
  | bswap (tile : TileId) (d a : Reg)
  /-- ADDI (R331): Add sign-extended immediate. -/
  | addi (tile : TileId) (d a : Reg) (imm : BitVec 16)
  /-- ANDI (R331): AND with zero-extended immediate. -/
  | andi (tile : TileId) (d a : Reg) (imm : BitVec 16)
  /-- ORI (R331): OR with zero-extended immediate. -/
  | ori (tile : TileId) (d a : Reg) (imm : BitVec 16)
  /-- XORI (R331): XOR with zero-extended immediate. -/
  | xori (tile : TileId) (d a : Reg) (imm : BitVec 16)
  /-- SHLI (R331): Shift left by immediate. -/
  | shli (tile : TileId) (d a : Reg) (imm : BitVec 16)
  /-- SHRI (R331): Logical shift right by immediate. -/
  | shri (tile : TileId) (d a : Reg) (imm : BitVec 16)
  /-- SARI (R331): Arithmetic shift right by immediate. -/
  | sari (tile : TileId) (d a : Reg) (imm : BitVec 16)
  /-- SLTSI (R331): Signed compare with sign-extended immediate. -/
  | sltsi (tile : TileId) (d a : Reg) (imm : BitVec 16)
  /-- SLTUI (R331): Unsigned compare with sign-extended immediate. -/
  | sltui (tile : TileId) (d a : Reg) (imm : BitVec 16)
  /-- MOVZ (R331): Load a shifted 16-bit immediate, zeroing the rest. -/
  | movz (tile : TileId) (d : Reg) (sel : Fin 4) (imm : BitVec 16)
  /-- MOVK (R331): Insert a 16-bit immediate at a 16-bit position, keeping the other bits. -/
  | movk (tile : TileId) (d : Reg) (sel : Fin 4) (imm : BitVec 16)
  /-- LD8U (R331): Load a byte, zero-extended. -/
  | ld8u (tile : TileId) (d a : Reg) (off : BitVec 16) (par : CPar)
  /-- LD8S (R331): Load a byte, sign-extended. -/
  | ld8s (tile : TileId) (d a : Reg) (off : BitVec 16) (par : CPar)
  /-- LD16U (R331): Load 16 bits, zero-extended. -/
  | ld16u (tile : TileId) (d a : Reg) (off : BitVec 16) (par : CPar)
  /-- LD16S (R331): Load 16 bits, sign-extended. -/
  | ld16s (tile : TileId) (d a : Reg) (off : BitVec 16) (par : CPar)
  /-- LD32U (R331): Load 32 bits, zero-extended. -/
  | ld32u (tile : TileId) (d a : Reg) (off : BitVec 16) (par : CPar)
  /-- LD32S (R331): Load 32 bits, sign-extended. -/
  | ld32s (tile : TileId) (d a : Reg) (off : BitVec 16) (par : CPar)
  /-- LD64 (R331): Load 64 bits. -/
  | ld64 (tile : TileId) (d a : Reg) (off : BitVec 16) (par : CPar)
  /-- ST8 (R331): Store a byte. -/
  | st8 (tile : TileId) (d a : Reg) (off : BitVec 16)
  /-- ST16 (R331): Store 16 bits. -/
  | st16 (tile : TileId) (d a : Reg) (off : BitVec 16)
  /-- ST32 (R331): Store 32 bits. -/
  | st32 (tile : TileId) (d a : Reg) (off : BitVec 16)
  /-- ST64 (R331): Store 64 bits. -/
  | st64 (tile : TileId) (d a : Reg) (off : BitVec 16)
  /-- FLD32 (R356): Load an F32 into f(d), zeroing the rest of v(d). -/
  | fld32 (tile : TileId) (d a : Reg) (off : BitVec 16) (par : CPar)
  /-- FLD64 (R356): Load an F64 into f(d), zeroing the rest of v(d). -/
  | fld64 (tile : TileId) (d a : Reg) (off : BitVec 16) (par : CPar)
  /-- FST32 (R356): Store bits [31:0] of f(d). -/
  | fst32 (tile : TileId) (d a : Reg) (off : BitVec 16)
  /-- FST64 (R356): Store bits [63:0] of f(d). -/
  | fst64 (tile : TileId) (d a : Reg) (off : BitVec 16)
  /-- BEQ (R331): Branch if equal. -/
  | beq (tile : TileId) (a b : Reg) (off : BitVec 16)
  /-- BNE (R331): Branch if not equal. -/
  | bne (tile : TileId) (a b : Reg) (off : BitVec 16)
  /-- BLTS (R331): Branch if less, signed. -/
  | blts (tile : TileId) (a b : Reg) (off : BitVec 16)
  /-- BGES (R331): Branch if greater or equal, signed. -/
  | bges (tile : TileId) (a b : Reg) (off : BitVec 16)
  /-- BLTU (R331): Branch if less, unsigned. -/
  | bltu (tile : TileId) (a b : Reg) (off : BitVec 16)
  /-- BGEU (R331): Branch if greater or equal, unsigned. -/
  | bgeu (tile : TileId) (a b : Reg) (off : BitVec 16)
  /-- J (R331): PC-relative jump. -/
  | j (tile : TileId) (off : BitVec 26)
  /-- JAL (R331): PC-relative jump writing the return address to g31. -/
  | jal (tile : TileId) (off : BitVec 26)
  /-- JR (R331): Jump to a register address. -/
  | jr (tile : TileId) (a : Reg)
  /-- JALR (R331): Jump to a register address, writing the return address. -/
  | jalr (tile : TileId) (d a : Reg)
  /-- FADD (R333): Floating-point add. -/
  | fadd (tile : TileId) (dbl : Bool) (d a b : Reg)
  /-- FSUB (R333): Floating-point subtract. -/
  | fsub (tile : TileId) (dbl : Bool) (d a b : Reg)
  /-- FMUL (R333): Floating-point multiply. -/
  | fmul (tile : TileId) (dbl : Bool) (d a b : Reg)
  /-- FDIV (R333): Floating-point divide. -/
  | fdiv (tile : TileId) (dbl : Bool) (d a b : Reg)
  /-- FSQRT (R333): Floating-point square root. -/
  | fsqrt (tile : TileId) (dbl : Bool) (d a : Reg)
  /-- FMIN (R333): Minimum by order key. -/
  | fmin (tile : TileId) (dbl : Bool) (d a b : Reg)
  /-- FMAX (R333): Maximum by order key. -/
  | fmax (tile : TileId) (dbl : Bool) (d a b : Reg)
  /-- FEQ (R333): Floating-point equal, 0 on NaN. -/
  | feq (tile : TileId) (dbl : Bool) (d a b : Reg)
  /-- FLT (R333): Floating-point less than, 0 on NaN. -/
  | flt (tile : TileId) (dbl : Bool) (d a b : Reg)
  /-- FLE (R333): Floating-point less or equal, 0 on NaN. -/
  | fle (tile : TileId) (dbl : Bool) (d a b : Reg)
  /-- FTOI (R333): Float to integer toward zero, saturating. -/
  | ftoi (tile : TileId) (dbl : Bool) (d a : Reg)
  /-- ITOF (R333): Integer to float. -/
  | itof (tile : TileId) (dbl : Bool) (d a : Reg)
  /-- FCVT (R333): Convert to the other precision. -/
  | fcvt (tile : TileId) (dbl : Bool) (d a : Reg)
  /-- FMVG (R331): Move the bits of f(a) to g(d). -/
  | fmvg (tile : TileId) (dbl : Bool) (d a : Reg)
  /-- FMVF (R331): Move the bits of g(a) to f(d). -/
  | fmvf (tile : TileId) (dbl : Bool) (d a : Reg)
  /-- FUSED_MULTIPLY_ADD (R331): f(a) × f(b) + f(c) with one rounding. -/
  | fusedMultiplyAdd (tile : TileId) (dbl : Bool) (d a b c : Reg)
  /-- FUSED_MULTIPLY_SUBTRACT (R331): f(a) × f(b) − f(c) with one rounding. -/
  | fusedMultiplySubtract (tile : TileId) (dbl : Bool) (d a b c : Reg)
  /-- MOVS (R345): Copy c bytes granule by granule. -/
  | movs (tile : TileId) (a b c : Reg) (granules : Nat) (par : CPar)
  /-- CMPS (R345): Compare bytes until the first difference. -/
  | cmps (tile : TileId) (a b c : Reg) (granules : Nat) (par : CPar)
  /-- FILLS (R345): Fill c bytes with a repeated 8-byte pattern. -/
  | fills (tile : TileId) (a b c : Reg) (granules : Nat)
  /-- SCANS (R345): Search bytes for a value. -/
  | scans (tile : TileId) (a b c : Reg) (granules : Nat) (par : CPar)
  /-- SVC (R335): Raise the SVC exception. -/
  | svc (tile : TileId) (imm : BitVec 16)
  /-- RTM (R336): Return from the frame at MSP, restoring PC and ST indivisibly. -/
  | rtm (tile : TileId)
  /-- MFS (R324): Read a system register. -/
  | mfs (tile : TileId) (g : Reg) (num : BitVec 16)
  /-- MTS (R328): Write a system register, effective for the next instruction. -/
  | mts (tile : TileId) (g : Reg) (num : BitVec 16)
  /-- WAIT (R335): Stop fetch until an asynchronous event is pending. -/
  | wait (tile : TileId)
  /-- WAIT_WAKEUP (R348): An event becomes pending for a WAITING tile, which resumes at PC + 4. -/
  | waitWakeup (tile : TileId)
  /-- BRK (R335): Raise the BREAK exception. -/
  | brk (tile : TileId) (imm : BitVec 16)
  /-- FENCE (R335): Complete once every earlier load and store has reached its target. -/
  | fence (tile : TileId)
  /-- CMO_CLEAN (R389): Write back dirty L1 lines of a range or set-and-way selection. -/
  | cmoClean (tile : TileId) (r : Reg) (setway : Bool) (target : Fin 4) (incl : Bool)
  /-- CMO_INVALIDATE (R389): Invalidate L1 lines, discarding dirty sectors. -/
  | cmoInvalidate (tile : TileId) (r : Reg) (setway : Bool) (target : Fin 4) (incl : Bool)
  /-- CMO_CLEAN_INVALIDATE (R389): Write back, then invalidate L1 lines. -/
  | cmoCleanInvalidate (tile : TileId) (r : Reg) (setway : Bool) (target : Fin 4) (incl : Bool)
  /-- CMO_LOCK (R389): Lock L1 lines, fetching absent ones. -/
  | cmoLock (tile : TileId) (r : Reg) (setway : Bool) (target : Fin 4) (incl : Bool)
  /-- CMO_UNLOCK (R389): Unlock L1 lines. -/
  | cmoUnlock (tile : TileId) (r : Reg) (setway : Bool) (target : Fin 4) (incl : Bool)
  /-- PREEMPT (R343): A pending PREEMPT event is accepted; the monitor enters and the Batten moves the tile to SAVING. -/
  | preempt (tile : TileId)
  /-- DISPATCH (R343): A pending DISPATCH event is accepted and the monitor reads the dispatch mailbox. -/
  | dispatch (tile : TileId)
  /-- UNIT (R343): A pending UNIT event is accepted for an enabled unit source. -/
  | unit (tile : TileId)
  /-- TIMER (R341): TSNOW reaches TCMP and the TIMER event is accepted. -/
  | timer (tile : TileId)
  /-- VADD (R360): Vector integer add. -/
  | vadd (tile : TileId) (d a b : Reg) (m : MReg) (z : Bool) (ew : Fin 4)
  /-- VSUB (R360): Vector integer subtract. -/
  | vsub (tile : TileId) (d a b : Reg) (m : MReg) (z : Bool) (ew : Fin 4)
  /-- VMUL (R360): Vector multiply, low w bits. -/
  | vmul (tile : TileId) (d a b : Reg) (m : MReg) (z : Bool) (ew : Fin 4)
  /-- VMULHU (R360): Vector multiply high, unsigned. -/
  | vmulhu (tile : TileId) (d a b : Reg) (m : MReg) (z : Bool) (ew : Fin 4)
  /-- VMULHS (R360): Vector multiply high, signed. -/
  | vmulhs (tile : TileId) (d a b : Reg) (m : MReg) (z : Bool) (ew : Fin 4)
  /-- VAND (R360): Vector AND. -/
  | vand (tile : TileId) (d a b : Reg) (m : MReg) (z : Bool) (ew : Fin 4)
  /-- VOR (R360): Vector OR. -/
  | vor (tile : TileId) (d a b : Reg) (m : MReg) (z : Bool) (ew : Fin 4)
  /-- VXOR (R360): Vector XOR. -/
  | vxor (tile : TileId) (d a b : Reg) (m : MReg) (z : Bool) (ew : Fin 4)
  /-- VANDN (R360): Vector a AND NOT b. -/
  | vandn (tile : TileId) (d a b : Reg) (m : MReg) (z : Bool) (ew : Fin 4)
  /-- VSHL (R360): Vector shift left. -/
  | vshl (tile : TileId) (d a b : Reg) (m : MReg) (z : Bool) (ew : Fin 4)
  /-- VSHR (R360): Vector logical shift right. -/
  | vshr (tile : TileId) (d a b : Reg) (m : MReg) (z : Bool) (ew : Fin 4)
  /-- VSAR (R360): Vector arithmetic shift right. -/
  | vsar (tile : TileId) (d a b : Reg) (m : MReg) (z : Bool) (ew : Fin 4)
  /-- VROR (R360): Vector rotate right. -/
  | vror (tile : TileId) (d a b : Reg) (m : MReg) (z : Bool) (ew : Fin 4)
  /-- VMINU (R360): Vector unsigned minimum. -/
  | vminu (tile : TileId) (d a b : Reg) (m : MReg) (z : Bool) (ew : Fin 4)
  /-- VMINS (R360): Vector signed minimum. -/
  | vmins (tile : TileId) (d a b : Reg) (m : MReg) (z : Bool) (ew : Fin 4)
  /-- VMAXU (R360): Vector unsigned maximum. -/
  | vmaxu (tile : TileId) (d a b : Reg) (m : MReg) (z : Bool) (ew : Fin 4)
  /-- VMAXS (R360): Vector signed maximum. -/
  | vmaxs (tile : TileId) (d a b : Reg) (m : MReg) (z : Bool) (ew : Fin 4)
  /-- VABS (R360): Vector absolute value. -/
  | vabs (tile : TileId) (d a : Reg) (m : MReg) (z : Bool) (ew : Fin 4)
  /-- VNEG (R360): Vector negate. -/
  | vneg (tile : TileId) (d a : Reg) (m : MReg) (z : Bool) (ew : Fin 4)
  /-- VMOV (R360): Vector move. -/
  | vmov (tile : TileId) (d a : Reg) (m : MReg) (z : Bool) (ew : Fin 4)
  /-- VFADD (R360): Vector floating-point add. -/
  | vfadd (tile : TileId) (d a b : Reg) (m : MReg) (z : Bool) (ew : Fin 4)
  /-- VFSUB (R360): Vector floating-point subtract. -/
  | vfsub (tile : TileId) (d a b : Reg) (m : MReg) (z : Bool) (ew : Fin 4)
  /-- VFMUL (R360): Vector floating-point multiply. -/
  | vfmul (tile : TileId) (d a b : Reg) (m : MReg) (z : Bool) (ew : Fin 4)
  /-- VFDIV (R360): Vector floating-point divide. -/
  | vfdiv (tile : TileId) (d a b : Reg) (m : MReg) (z : Bool) (ew : Fin 4)
  /-- VFSQRT (R360): Vector floating-point square root. -/
  | vfsqrt (tile : TileId) (d a : Reg) (m : MReg) (z : Bool) (ew : Fin 4)
  /-- VFMIN (R360): Vector minimum by order key. -/
  | vfmin (tile : TileId) (d a b : Reg) (m : MReg) (z : Bool) (ew : Fin 4)
  /-- VFMAX (R360): Vector maximum by order key. -/
  | vfmax (tile : TileId) (d a b : Reg) (m : MReg) (z : Bool) (ew : Fin 4)
  /-- VFMA (R360): Vector fused a × b + d. -/
  | vfma (tile : TileId) (d a b : Reg) (m : MReg) (z : Bool) (ew : Fin 4)
  /-- VFMS (R360): Vector fused a × b − d. -/
  | vfms (tile : TileId) (d a b : Reg) (m : MReg) (z : Bool) (ew : Fin 4)
  /-- VCEQ (R360): Vector compare equal into a mask. -/
  | vceq (tile : TileId) (d : MReg) (a b : Reg) (m : MReg) (z : Bool) (ew : Fin 4)
  /-- VCNE (R360): Vector compare not equal into a mask. -/
  | vcne (tile : TileId) (d : MReg) (a b : Reg) (m : MReg) (z : Bool) (ew : Fin 4)
  /-- VCLTU (R360): Vector compare less, unsigned. -/
  | vcltu (tile : TileId) (d : MReg) (a b : Reg) (m : MReg) (z : Bool) (ew : Fin 4)
  /-- VCLEU (R360): Vector compare less or equal, unsigned. -/
  | vcleu (tile : TileId) (d : MReg) (a b : Reg) (m : MReg) (z : Bool) (ew : Fin 4)
  /-- VCLTS (R360): Vector compare less, signed. -/
  | vclts (tile : TileId) (d : MReg) (a b : Reg) (m : MReg) (z : Bool) (ew : Fin 4)
  /-- VCLES (R360): Vector compare less or equal, signed. -/
  | vcles (tile : TileId) (d : MReg) (a b : Reg) (m : MReg) (z : Bool) (ew : Fin 4)
  /-- VFCEQ (R360): Vector IEEE equal, 0 on NaN. -/
  | vfceq (tile : TileId) (d : MReg) (a b : Reg) (m : MReg) (z : Bool) (ew : Fin 4)
  /-- VFCLT (R360): Vector IEEE less than. -/
  | vfclt (tile : TileId) (d : MReg) (a b : Reg) (m : MReg) (z : Bool) (ew : Fin 4)
  /-- VFCLE (R360): Vector IEEE less or equal. -/
  | vfcle (tile : TileId) (d : MReg) (a b : Reg) (m : MReg) (z : Bool) (ew : Fin 4)
  /-- VFKLT (R360): Vector less than by order key. -/
  | vfklt (tile : TileId) (d : MReg) (a b : Reg) (m : MReg) (z : Bool) (ew : Fin 4)
  /-- VFKLE (R360): Vector less or equal by order key. -/
  | vfkle (tile : TileId) (d : MReg) (a b : Reg) (m : MReg) (z : Bool) (ew : Fin 4)
  /-- VLD (R361): Contiguous vector load. -/
  | vld (tile : TileId) (d a : Reg) (m : MReg) (z : Bool) (ew : Fin 4) (pe : Nat) (par : CPar)
  /-- VST (R364): Contiguous vector store, all or nothing. -/
  | vst (tile : TileId) (d a : Reg) (m : MReg) (z : Bool) (ew : Fin 4)
  /-- VLDS (R361): Strided vector load. -/
  | vlds (tile : TileId) (d a b : Reg) (m : MReg) (z : Bool) (ew : Fin 4) (pe : Nat) (par : CPar)
  /-- VSTS (R364): Strided vector store. -/
  | vsts (tile : TileId) (d a b : Reg) (m : MReg) (z : Bool) (ew : Fin 4)
  /-- VGTH (R365): Indexed gather, completing whole or faulting with no effect. -/
  | vgth (tile : TileId) (d a b : Reg) (scale : Bool) (m : MReg) (z : Bool) (ew : Fin 4) (pe : Nat) (par : CPar)
  /-- GTHF (R366): First-fault gather, truncating the mask at a later faulting element. -/
  | gthf (tile : TileId) (d a b : Reg) (scale : Bool) (m : MReg) (z : Bool) (ew : Fin 4) (pe : Nat) (par : CPar)
  /-- VSCT (R364): Indexed scatter in ascending element order. -/
  | vsct (tile : TileId) (d a b : Reg) (scale : Bool) (m : MReg) (z : Bool) (ew : Fin 4)
  /-- VBCAST (R360): Broadcast g(a) into active elements. -/
  | vbcast (tile : TileId) (d a : Reg) (m : MReg) (z : Bool) (ew : Fin 4)
  /-- VEXTR (R360): Extract one element into g(d). -/
  | vextr (tile : TileId) (d a b : Reg) (m : MReg) (z : Bool) (ew : Fin 4)
  /-- VCMPRS (R371): Compress active elements to the front. -/
  | vcmprs (tile : TileId) (d a : Reg) (m : MReg) (ew : Fin 4)
  /-- VSLDN (R360): Slide elements down by g(b). -/
  | vsldn (tile : TileId) (d a b : Reg) (m : MReg) (z : Bool) (ew : Fin 4)
  /-- VREDSUMU (R360): Unsigned sum reduction. -/
  | vredsumu (tile : TileId) (d a : Reg) (m : MReg) (z : Bool) (ew : Fin 4)
  /-- VREDSUMS (R360): Signed sum reduction. -/
  | vredsums (tile : TileId) (d a : Reg) (m : MReg) (z : Bool) (ew : Fin 4)
  /-- VREDMINU (R360): Unsigned minimum reduction. -/
  | vredminu (tile : TileId) (d a : Reg) (m : MReg) (z : Bool) (ew : Fin 4)
  /-- VREDMINS (R360): Signed minimum reduction. -/
  | vredmins (tile : TileId) (d a : Reg) (m : MReg) (z : Bool) (ew : Fin 4)
  /-- VREDMAXU (R360): Unsigned maximum reduction. -/
  | vredmaxu (tile : TileId) (d a : Reg) (m : MReg) (z : Bool) (ew : Fin 4)
  /-- VREDMAXS (R360): Signed maximum reduction. -/
  | vredmaxs (tile : TileId) (d a : Reg) (m : MReg) (z : Bool) (ew : Fin 4)
  /-- VFREDSUM (R360): Ordered floating-point sum reduction. -/
  | vfredsum (tile : TileId) (d a : Reg) (m : MReg) (z : Bool) (ew : Fin 4)
  /-- MAND (R360): Mask AND. -/
  | mand (tile : TileId) (d a b m : MReg) (z : Bool) (ew : Fin 4)
  /-- MOR (R360): Mask OR. -/
  | mor (tile : TileId) (d a b m : MReg) (z : Bool) (ew : Fin 4)
  /-- MXOR (R360): Mask XOR. -/
  | mxor (tile : TileId) (d a b m : MReg) (z : Bool) (ew : Fin 4)
  /-- MANDN (R360): Mask a AND NOT b. -/
  | mandn (tile : TileId) (d a b m : MReg) (z : Bool) (ew : Fin 4)
  /-- MNOT (R360): Mask NOT. -/
  | mnot (tile : TileId) (d a m : MReg) (z : Bool) (ew : Fin 4)
  /-- MPOPC (R360): Count set mask bits below n. -/
  | mpopc (tile : TileId) (d : Reg) (a m : MReg) (z : Bool) (ew : Fin 4)
  /-- MFIRST (R360): Index of the lowest set mask bit. -/
  | mfirst (tile : TileId) (d : Reg) (a m : MReg) (z : Bool) (ew : Fin 4)
  /-- MTOG (R360): Move a mask to a general register. -/
  | mtog (tile : TileId) (d : Reg) (a m : MReg) (z : Bool) (ew : Fin 4)
  /-- GTOM (R360): Move a general register to a mask. -/
  | gtom (tile : TileId) (d : MReg) (a : Reg) (m : MReg) (z : Bool) (ew : Fin 4)
  /-- VWHILE (R360): Form the mask g(a) + i < g(b). -/
  | vwhile (tile : TileId) (d : MReg) (a b : Reg) (m : MReg) (z : Bool) (ew : Fin 4)
  /-- VUNPK (R367): Unpack bit-packed items into elements. -/
  | vunpk (tile : TileId) (d a b : Reg) (m : MReg) (z : Bool) (ew : Fin 4)
  /-- VPLCMP (R368): Advance a PLANE comparison by one plane for 64 rows. -/
  | vplcmp (tile : TileId) (d : MReg) (a b : Reg) (m : MReg)
  /-- VHASH (R370): Hash each element with H. -/
  | vhash (tile : TileId) (d a : Reg) (m : MReg) (z : Bool) (ew : Fin 4)
  /-- VHSTEP (R370): Apply the hash step function per lane. -/
  | vhstep (tile : TileId) (d a : Reg) (m : MReg) (z : Bool) (ew : Fin 4)
  /-- VHFIN (R370): Apply the hash finish function per lane. -/
  | vhfin (tile : TileId) (d a : Reg) (m : MReg) (z : Bool) (ew : Fin 4)
  /-- VZEXT (R360): Zero-extend the low half of the elements. -/
  | vzext (tile : TileId) (d a : Reg) (m : MReg) (z : Bool) (ew : Fin 4)
  /-- VSEXT (R360): Sign-extend the low half of the elements. -/
  | vsext (tile : TileId) (d a : Reg) (m : MReg) (z : Bool) (ew : Fin 4)
  /-- VNARW (R360): Truncate elements to half width. -/
  | vnarw (tile : TileId) (d a : Reg) (m : MReg) (z : Bool) (ew : Fin 4)
  /-- VITOF (R360): Vector integer to float. -/
  | vitof (tile : TileId) (d a : Reg) (m : MReg) (z : Bool) (ew : Fin 4)
  /-- VFTOI (R360): Vector float to integer, saturating. -/
  | vftoi (tile : TileId) (d a : Reg) (m : MReg) (z : Bool) (ew : Fin 4)
  /-- VFCVT (R360): Vector precision conversion. -/
  | vfcvt (tile : TileId) (d a : Reg) (m : MReg) (z : Bool) (ew : Fin 4)
  /-- TH_CLEAN (R390): A Thatch operation writes back dirty lines of the named slices. -/
  | thClean (block : Fin 16) (addr len : Nat) (setway incl : Bool) (slices : Nat)
  /-- TH_INVALIDATE (R390): A Thatch operation invalidates lines, discarding dirty sectors. -/
  | thInvalidate (block : Fin 16) (addr len : Nat) (setway incl : Bool) (slices : Nat)
  /-- TH_CLEAN_INVALIDATE (R390): A Thatch operation writes back, then invalidates lines. -/
  | thCleanInvalidate (block : Fin 16) (addr len : Nat) (setway incl : Bool) (slices : Nat)
  /-- TH_LOCK (R390): A Thatch operation locks lines. -/
  | thLock (block : Fin 16) (addr len : Nat) (setway incl : Bool) (slices : Nat)
  /-- TH_UNLOCK (R390): A Thatch operation unlocks lines. -/
  | thUnlock (block : Fin 16) (addr len : Nat) (setway incl : Bool) (slices : Nat)
  /-- APERTURE (R388): A Thatch line is cleaned, zeroed and made a locked aperture line. -/
  | aperture (block : Fin 16) (selector : Nat) (setway incl : Bool) (slices : Nat)
  /-- THATCH_OPERATION_DONE (R390): A running Thatch operation finishes and BUSY clears with its status and result. -/
  | thatchOperationDone (block : Fin 16)
  /-- PLAN_RETIRE (R384): Bundle-mode instruction lines of a freed plan slot are invalidated on every tile. -/
  | planRetire (slot : Nat)
  /-- SLICE_ENABLE (R394): A slice's ENABLE is written; disabling is refused while it holds dirty lines or runs an operation. -/
  | sliceEnable (slice : Fin 16) (on : Bool)
  /-- SLICE_POWER (R393): A slice's POWER is written, powering it off when disabled or starting power-on. -/
  | slicePower (slice : Fin 16) (on : Bool)
  /-- SLICE_POWER_ON_DONE (R400): Slice power-on completes and the slice is DISABLED with every line invalid. -/
  | slicePowerOnDone (slice : Fin 16)
  /-- MEMORY_READ (R410): A read request reaches a memory controller, is scheduled and served with ECC correction. -/
  | memoryRead (addr src8 planSlot devErrs device hint : Nat)
  /-- MEMORY_WRITE (R411): A write request reaches a memory controller and is queued for draining. -/
  | memoryWrite (addr : Nat) (data : Bytes) (src8 planSlot hint : Nat) (readWaits : Bool)
  /-- REFRESH (R413): A same-bank refresh falls due and is issued. -/
  | refresh (chan : Fin 8) (bank : Nat)
  /-- SCRUB (R416): Patrol scrubbing reaches a line, counts corrected errors and reads ECS counts. -/
  | scrub (devErrs device : Nat) (ecs : Option (Nat × Nat))
  /-- CA_PARITY_ALERT (R418): An RCD parity alert or write CRC error makes the controller re-issue commands. -/
  | caParityAlert (phys : Fin 16) (writeCrc : Bool)
  /-- RFM (R419): A bank's activation count requires Refresh Management and RFM is issued. -/
  | rfm (chan : Fin 8) (bank : Nat)
  /-- ROW_HAMMER_THRESHOLD (R420): A tracked row reaches RH_THRESHOLD; neighbours are refreshed and the offender throttled. -/
  | rowHammerThreshold (chan : Fin 8) (bank row : Nat)
  /-- RH_WINDOW_END (R419): A 32 ms refresh window ends and row tracking restarts. -/
  | rhWindowEnd (chan : Fin 8)
  /-- MIGRATION_UNIT (R429): A 1 MiB migration unit finishes and MIG_PROGRESS is written. -/
  | migrationUnit (bad : List Nat)
  /-- TRAIN_RESET (R409): Every channel returns to NORMAL training at the next start-up. -/
  | trainReset (via : Via) (on : Bool)
  /-- KEEP_WAKE_DELAY_EXPIRY (R422): WAKE stays low for KEEP_WAKE_DELAY and Keep entry begins. -/
  | keepWakeDelayExpiry
  /-- SELF_REFRESH_ENTRY (R422): Queues drained, channels enter self-refresh with PASR and KEEP_VALID is set. -/
  | selfRefreshEntry
  /-- KEEP_ENTRY_LIMIT_EXPIRY (R423): Step 7 is not reached in KEEP_ENTRY_LIMIT; the Keep is entered with KEEP_VALID clear. -/
  | keepEntryLimitExpiry
  /-- KEEP_RETENTION_EXPIRY (R424): The retention timer passes KEEP_RETENTION; KEEP_VALID clears and the modules are reset. -/
  | keepRetentionExpiry
  /-- CH_START (R436): A Gutter channel starts its chain or ring. -/
  | chStart (chan : ChanId) (host : Bytes)
  /-- CH_PAUSE (R446): A channel stops reading and drains toward PAUSED. -/
  | chPause (chan : ChanId)
  /-- CH_RESUME (R446): A paused channel resumes from its registers. -/
  | chResume (chan : ChanId) (host : Bytes)
  /-- CH_ABORT (R447): A channel discards its buffer and stops with ABORTED_CANCEL. -/
  | chAbort (chan : ChanId)
  /-- CHANNEL_PAUSED (R446): The drain ends and the channel enters PAUSED with exact registers. -/
  | channelPaused (chan : ChanId)
  /-- REQUEST_LINE_RAISE (R444): A request line is raised and its channel's PENDING count rises. -/
  | requestLineRaise (line : Fin 48)
  /-- COPY (R438): A COPY descriptor copies bytes. -/
  | copy (chan : ChanId) (n : Nat)
  /-- FILL (R438): A FILL descriptor writes a repeated pattern. -/
  | fill (chan : ChanId) (n : Nat)
  /-- INTERLEAVE (R440): An INTERLEAVE descriptor builds rows from streams. -/
  | interleave (chan : ChanId) (n : Nat)
  /-- DEINTERLEAVE (R440): A DEINTERLEAVE descriptor splits rows into streams. -/
  | deinterleave (chan : ChanId) (n : Nat)
  /-- PLANE (R441): A PLANE descriptor transposes elements into bit planes. -/
  | plane (chan : ChanId) (n : Nat)
  /-- UNPLANE (R442): An UNPLANE descriptor rebuilds elements from bit planes. -/
  | unplane (chan : ChanId) (n : Nat)
  /-- DESCRIPTOR_COMPLETE (R448): A descriptor's read-back returns; the done record is written, NOTIFY and CODE set. -/
  | descriptorComplete (chan : ChanId) (dataBack doneBack : Bool) (host : Bytes)
  /-- RING_POLL (R449): A ring channel's poll interval expires and it reads PRODUCED. -/
  | ringPoll (chan : ChanId) (host : Bytes)
  /-- YELM_POLL (R458): An engine's poll interval expires and it takes the next READY job by priority. -/
  | yelmPoll (engine : Fin 4)
  /-- YELM_JOB_DONE (R467): A job ends; its done record is written and read back, DONE is set and the tile notified. -/
  | yelmJobDone (engine : Fin 4)
  /-- FD_ALLOC (R477): A read of FD_ALLOC allocates the lowest FREE Flashing context or refuses. -/
  | fdAlloc
  /-- FC_START (R477): A context's message starts, or fails with BAD_ARGUMENT. -/
  | fcStart (ctx : Fin 16) (ctrl : Nat)
  /-- FC_FREE (R480): A context is zeroised and freed. -/
  | fcFree (ctx : Fin 16)
  /-- FC_DATA (R478): Eight message bytes are supplied to a REGISTER-source context. -/
  | fcData (ctx : Fin 16) (data : Word)
  /-- FC_KEYCTL (R478): The HMAC key length and source are written and the key is marked written. -/
  | fcKeyctl (ctx : Fin 16) (value : Nat)
  /-- MESSAGE_FINISH (R479): FC_TAKEN reaches FC_LEN; the message is padded, finished and delivered to its destination. -/
  | messageFinish (ctx : Fin 16)
  /-- CONFIG_REQUEST (R492): A PCIe configuration request to a function is answered. -/
  | configRequest (func : FuncId) (bus off : Nat) (write : Option Nat)
  /-- BUS_MASTER_ENABLE_CLEAR (R499): Bus Master Enable is cleared; requests stop and the instance's channels stop with HOST_ACCESS_REVOKED. -/
  | busMasterEnableClear (func : FuncId)
  /-- FUNCTION_LEVEL_RESET (R501): A Function Level Reset resets the bound instance and the function's state and quarantines its tags. -/
  | functionLevelReset (func : FuncId)
  /-- LINK_DOWN (R505): Data Link Layer Down on a port freezes it. -/
  | linkDown (port : PortId) (cause : Nat)
  /-- FATAL_ERROR (R505): An uncorrectable error logged Fatal freezes the port. -/
  | fatalError (port : PortId)
  /-- LINK_UP (R489): A host link trains and comes up. -/
  | linkUp (port : PortId) (speed width ltssm : Nat)
  /-- COMPLETION_RECEIVED (R504): A PCIe completion arrives and is delivered, dropped as late, or treated as unexpected. -/
  | completionReceived (func : FuncId) (tag status : Nat) (poisoned : Bool) (data : Bytes)
  /-- COMPLETION_TIMEOUT (R503): A non-posted request times out; it fails with LENGTH_SHORT and its tag is quarantined. -/
  | completionTimeout (port : PortId) (tag : Nat)
  /-- QUARANTINE_END (R503): A tag's quarantine expires and the tag may be issued again. -/
  | quarantineEnd (port : PortId) (tag : Nat)
  /-- FREEZE_HOLD_EXPIRY (R506): FREEZE_HOLD passes on a FROZEN port, which becomes SUSPENDED. -/
  | freezeHoldExpiry (port : PortId)
  /-- FRZ_RELEASE (R507): A release written through the PF with SEQ returns a frozen port to RUNNING, or is refused. -/
  | frzRelease (func : FuncId) (value : Nat)
  /-- FREEZE_RELEASE (R507): The manager's ACTION 1 releases a frozen port when SEQ matches. -/
  | freezeRelease (via : Via) (port : PortId) (seq : Nat)
  /-- SUSPEND_NOW (R507): The manager's ACTION 2 suspends a FROZEN port at once. -/
  | suspendNow (via : Via) (port : PortId) (seq : Nat)
  /-- INT_HOLDOFF_EXPIRY (R495): A vector's holdoff ends and merged events send one message. -/
  | intHoldoffExpiry (func : FuncId) (vec : Fin 32)
  /-- TASK_GO (R519): A TASK_GO is stamped and the command copied into the instance queue, or ignored when not FREE. -/
  | taskGo (func : FuncId) (value : Nat)
  /-- BAD_OPCODE (R520): A command with an unlisted opcode completes with BAD_OPCODE. -/
  | badOpcode (inst : InstId)
  /-- NOP (R520): The NOP command completes. -/
  | nop (inst : InstId)
  /-- FLUSH (R525): FLUSH starts waiting for every earlier write of its instance to reach its durable state. -/
  | flush (inst : InstId)
  /-- FLUSH_COMPLETE (R525): Every earlier write is durable and FLUSH completes, releasing later commands. -/
  | flushComplete (inst : InstId)
  /-- CANCEL (R526): CANCEL ends its targets according to their stage. -/
  | cancel (inst : InstId)
  /-- CREATE_TABLE (R70): A table descriptor is read, checked and the table created. -/
  | createTable (inst : InstId) (desc : Bytes)
  /-- ALTER_TABLE (R72): A table's RW descriptor fields are altered. -/
  | alterTable (inst : InstId) (desc : Bytes)
  /-- DROP_TABLE (R71): A table is dropped, removing registered queries that read it. -/
  | dropTable (inst : InstId)
  /-- APPEND (R117): An APPEND is checked and its batch read begins. -/
  | append (inst : InstId)
  /-- RUN_PLAN (R176): RUN_PLAN starts the read of its plan image. -/
  | runPlan (inst : InstId)
  /-- RELEASE_RESULT (R522): A held result set is freed from the result area. -/
  | releaseResult (inst : InstId)
  /-- REGISTER_QUERY (R262): A continuous query is validated and registered with its delay entry and templates. -/
  | registerQuery (inst : InstId) (desc image : Bytes)
  /-- UNREGISTER_QUERY (R284): A registered query is removed after its running firing is delivered. -/
  | unregisterQuery (inst : InstId)
  /-- RETARGET_QUERY (R261): A query's result ring, index and vector are replaced. -/
  | retargetQuery (inst : InstId) (desc : Bytes)
  /-- NAIL_COMPLETE (R527): A Nail command's rows or descriptor are durable and it completes with NAILED. -/
  | nailComplete (inst : InstId) (seq : Nat)
  /-- COMPLETION_RECORD_DELIVERY (R529): With ring space, a completion record is written, PRODUCED updated and DONE signalled. -/
  | completionRecordDelivery (inst : InstId) (answered : Nat)
  /-- DOZE_ENTRY (R531): An idle instance reaches DOZE_AFTER and enters DOZE. -/
  | dozeEntry (inst : InstId)
  /-- SLEEP_ENTRY (R531): A dozing instance reaches SLEEP_AFTER and enters SLEEP. -/
  | sleepEntry (inst : InstId)
  /-- ACTIVATION_DRAIN_EXPIRY (R535): ACTIVATION_DRAIN passes; commands still running end with ABORTED_ACTIVATION. -/
  | activationDrainExpiry
  /-- CREATE (R552): An instance is created and its reserved quotas taken. -/
  | create (via : Via) (inst : InstId)
  /-- DESTROY (R552): An instance is reset and freed, optionally dropping its tables. -/
  | destroy (via : Via) (inst : InstId) (dropTables : Bool)
  /-- BIND (R546): An instance is bound to a function and its context loaded. -/
  | bind (via : Via) (inst : InstId) (port fn : Nat) (restore : Bool)
  /-- UNBIND (R545): An instance is drained if needed, its context saved and its binding cleared. -/
  | unbind (via : Via) (inst : InstId)
  /-- FREEZE (R543): An instance starts draining its host access toward FROZEN. -/
  | freeze (via : Via) (inst : InstId)
  /-- THAW (R552): A frozen or suspended instance returns to BOUND and resumes delivery. -/
  | thaw (via : Via) (inst : InstId)
  /-- RESET (R533): An instance reset ends its commands and the Batten purges it. -/
  | reset (via : Via) (inst : InstId)
  /-- INSTANCE_DRAINED (R543): Every host channel of a freezing instance is paused or stopped and it leaves FREEZING. -/
  | instanceDrained (inst : InstId)
  /-- MB_OUT_ACK (R553): The displayed outbound message is removed and the next displayed. -/
  | mbOutAck (func : FuncId) (value : Nat)
  /-- MB_IN_POST (R555): The host posts an inbound message for the manager, or the post is ignored. -/
  | mbInPost (func : FuncId) (value : Nat)
  /-- MB_SEND (R555): The manager queues an outbound message, or is refused with BUSY. -/
  | mbSend (via : Via) (inst : InstId) (kind : Nat) (body : Bytes)
  /-- MB_RECEIVE_ACK (R559): The oldest inbound message is removed. -/
  | mbReceiveAck (via : Via) (inst : InstId) (on : Bool)
  /-- DW_READ (R576): A window READ returns an object's value. -/
  | dwRead (func : FuncId)
  /-- DW_WRITE (R567): A window WRITE is checked and applied, staged or committed. -/
  | dwWrite (func : FuncId)
  /-- DW_INFO (R577): A window INFO returns an object's properties. -/
  | dwInfo (func : FuncId)
  /-- FIELD_PORT_FRAME (R585): A field port receives a frame and drops it or passes a Plyn frame on. -/
  | fieldPortFrame (port : Fin 2) (frame : Bytes) (fcsOk : Bool)
  /-- PLYN_READ (R581): An authenticated Plyn READ is answered with the value. -/
  | plynRead
  /-- PLYN_WRITE (R581): An authenticated Plyn WRITE, or fragment of one, is assembled and handled as a dictionary write. -/
  | plynWrite
  /-- PLYN_INFO (R581): An authenticated Plyn INFO is answered. -/
  | plynInfo
  /-- FRAGMENT_TIMEOUT (R582): 100 ms pass without the next fragment and the assembly is discarded. -/
  | fragmentTimeout (slot : Fin 8)
  /-- PLYN_REPLY_TRANSMIT (R586): A ready Plyn reply is sent at the port's transmit opportunity. -/
  | plynReplyTransmit (port : Fin 6)
  /-- PERSISTENT_COMMIT (R572): A P-object value is committed to the persistent store and its write completes. -/
  | persistentCommit
  /-- PLYN_KEY (R584): A Plyn key slot is set or emptied, resetting its last accepted TS64. -/
  | plynKey (via : Via) (slot : Fin 8) (node rights : Nat) (key : Bytes)
  /-- HEARTBEAT (R596): The active Ridge writes FN_HEARTBEAT for the cycle. -/
  | heartbeat (raft : Nat)
  /-- CHECKPOINT (R597): The standby receives a checkpoint and applies it. -/
  | checkpoint (crc : Nat)
  /-- ACK (R597): A checkpoint ACK is received and counted by the Finial. -/
  | ack (raft crc : Nat)
  /-- HEALTH (R606): A standby HEALTH frame is received and published. -/
  | health (lockstepOk : Bool)
  /-- SYNC (R606): A SYNC frame carries firmware and state to a repaired Ridge. -/
  | sync (complete : Bool)
  /-- HANDOVER (R608): A HANDOVER frame carries the final checkpoint of a planned handover. -/
  | handover (crc : Nat)
  /-- CHECKPOINT_DEADLINE (R602): At b + 60 µs missing heartbeats or acknowledgements declare a Ridge failed. -/
  | checkpointDeadline
  /-- SELF_FAULT (R602): A write to FN_SELF_FAULT declares the writer failed. -/
  | selfFault (ridge : Fin 2) (code : Nat)
  /-- LOCKSTEP_MISMATCH (R602): A Ridge's lockstep compare mismatches and it is declared failed. -/
  | lockstepMismatch (ridge : Fin 2)
  /-- FAILED_RESET_EXPIRY (R592): A FAILED Ridge has been in reset 10 ms and returns to TESTING or OFF. -/
  | failedResetExpiry (ridge : Fin 2)
  /-- RIDGE_SELF_TEST_DONE (R592): A TESTING Ridge passes or fails its self-test. -/
  | ridgeSelfTestDone (ridge : Fin 2) (pass : Bool)
  /-- REPAIR_COUNT_CLEAR (R593): A Ridge stays READY or ACTIVE for one hour and its repair count clears. -/
  | repairCountClear (ridge : Fin 2)
  /-- STANDBY_SELF_TEST (R605): A periodic standby test vector or march pass runs and may fail the standby. -/
  | standbySelfTest (march pass : Bool)
  /-- REVERT_HOLDOFF_EXPIRY (R607): The revert hold-off ends and the Finial waits for a boundary to return the token. -/
  | revertHoldoffExpiry
  /-- FINIAL_MISMATCH (R612): The Finial's two copies disagree and it sets FINIAL_FAULT. -/
  | finialMismatch
  /-- SAFE_VETO_N (R607): SAFE_VETO_N changes level, vetoing or permitting a return. -/
  | safeVetoN (high : Bool)
  /-- ALERT_CLEAR (R616): W1C bits of FN_ALERT are cleared. -/
  | alertClear (via : Via) (bits : Nat)
  /-- COLD_START (R617): The standby supply rises, the Finial runs and drives MAIN_EN high. -/
  | coldStart (provision : Option Provision)
  /-- MAIN_SUPPLIES_IN_RANGE (R681): The last main rail is in range and the start sequence begins at S0. -/
  | mainSuppliesInRange (passes : List StartEnv)
  /-- WAKE (R682): WAKE rises in the Keep and MAIN_EN is driven high for a WAKE start. -/
  | wake (railsUp : Bool) (passes : List StartEnv)
  /-- RST_N (R684): RST_N rises after a low pulse and causes a WARM start, or is ignored in the Keep. -/
  | rstN (passes : List StartEnv)
  /-- FW_STAGE_BEGIN (R631): The unused slot of a kind is erased for staging. -/
  | fwStageBegin (via : Via) (kind : Nat)
  /-- FW_CHUNK (R631): Image bytes are written into the staging slot. -/
  | fwChunk (via : Via) (kind offset : Nat) (bytes : Bytes)
  /-- FW_STAGE_END (R631): The staged image is checked and marked STAGED or refused. -/
  | fwStageEnd (via : Via) (kind : Nat)
  /-- FW_STAGE_ABANDON (R631): An open staging is abandoned. -/
  | fwStageAbandon (via : Via) (kind : Nat)
  /-- ATTEST_NONCE (R637): A nonce starts an attestation report, or is refused with BUSY. -/
  | attestNonce (via : Via) (nonce : Bytes)
  /-- ATTEST_REPORT_DONE (R637): The report is signed, stands in ATTEST_REPORT and the nonce write completes. -/
  | attestReportDone
  /-- MEASURE_EXTEND (R636): MS7 is extended with 32 written bytes. -/
  | measureExtend (via : Via) (digest : Bytes)
  /-- STEP_RESET (R641): Every start-step alternative and attempt count clears at the next start. -/
  | stepReset (via : Via) (on : Bool)
  /-- PITCH_CHANGE_DONE (R645): A course completes its clock, supply or parking change. -/
  | pitchChangeDone (course : CourseId)
  /-- POLICY_PARK (R644): An idle Steep or Low course reaches AUTO_PARK and firmware parks it. -/
  | policyPark (course : CourseId)
  /-- CAP_SAMPLE (R649): Each microsecond's device power sample lowers or raises course ceilings against the cap. -/
  | capSample (power : Nat) (energy : List Nat) (uses : List EnergyUse)
  /-- THERMAL_SAMPLE (R651): The hottest junction reading sets or clears thermal trips. -/
  | thermalSample (temps : List Int)
  /-- SELF_TEST (R670): An in-service self-test of a course, slice or bank starts, or is refused. -/
  | selfTest (via : Via) (target index : Nat)
  /-- SELF_TEST_DONE (R670): A self-test ends; the target passes or is fused off. -/
  | selfTestDone (pass : Bool)
  /-- TRACE_REARM (R672): Tracing resumes after a fault stop. -/
  | traceRearm (via : Via) (on : Bool)
  /-- AVAIL_RESET (R676): The availability counters and their mirror are zeroed. -/
  | availReset (via : Via) (on : Bool)
  /-- AVAILABILITY_MIRROR (R674): Every 60 s of powered time the availability counters are mirrored to the store. -/
  | availabilityMirror
  /-- VOLTAGE_ALARM (R679): A main rail stays outside ±5 % for 2 µs; a voltage alarm is raised. -/
  | voltageAlarm (rail : Fin 8) (mv : Nat)
  /-- BROWNOUT (R679): A main rail stays below 90 % for 10 µs; main domains are reset and MAIN_EN dropped. -/
  | brownout (rail : Fin 8)
  /-- STANDBY_SUPPLY_LOSS (R680): A standby rail falls below 90 % for 10 µs and the device enters OFF. -/
  | standbySupplyLoss
  /-- TAMPER_N (R482): TAMPER_N low raises the tamper alarm until the next start. -/
  | tamperN
  /-- WAKE_FALL (R422): WAKE goes low outside the Keep, starting the KEEP_WAKE_DELAY count that WAKE rising again cancels. -/
  | wakeFall
  /-- EAVE_BLOCK_LOCK (R152): An Eave port's PCS gains or loses block lock on its lane, changing LINK_UP (0x3140:07). -/
  | eaveBlockLock (port : PortId) (locked : Bool)
  /-- PLCA_BEACON (R589): A field port hears or sends a PLCA BEACON, or stops doing so, changing PLCA_STATUS (0x3158:05). -/
  | plcaBeacon (port : Fin 2) (present : Bool)
  /-- MAIN_RAILS_LOW (R682): Every main rail has been below 10 % of nominal for 1 ms after WAKE rose in the Keep, and the Finial drives MAIN_EN high. -/
  | mainRailsLow
  /-- CLOCK_ALARM_END (R482): A domain that raised a clock alarm returns within 5 % of its set frequency, ending the alarm so FD_ALLOC allocates again. -/
  | clockAlarmEnd (domain : Nat)
  /-- VOLTAGE_ALARM_END (R482): A main rail that raised a voltage alarm returns within ±5 % of nominal, ending the alarm so FD_ALLOC allocates again. -/
  | voltageAlarmEnd (rail : Fin 8) (mv : Nat)
deriving DecidableEq, Repr

end Sys2Proof
end

