-- ==== Sys2Proof/Decode.lean ====
section
/-! DEFINITION. The words of the opcode table. Its rows are commands and events of the part's interfaces, and the table gives
none of them any bits, so no word spells a command. The fields of the Spar instruction words (R330, R359) that the part itself
decodes are read in SparWords.lean. -/

namespace Sys2Proof

/-- The command that a word spells by the table's bits: none, since no row of the table has bits. [log 6 DESIGN CHOICE] -/
def decodeTableWord (_nbits _w : Nat) : Option Instr := none

end Sys2Proof
end

