-- ==== Sys2Proof/Machine/Digest.lean ====
section
/-! DEFINITION. The digests of chapter 16 (FIPS 180-4, RFC 2104), the CRC-32 of R78, the check values of chapter 15, and
RSASSA-PSS verification (R629). -/

namespace Sys2Proof.Machine

/-- Round constants of SHA-512; those of SHA-256 are the high halves of the first 64, part 0. -/
def shaK0 : List Nat :=
  [0x428A2F98D728AE22, 0x7137449123EF65CD, 0xB5C0FBCFEC4D3B2F, 0xE9B5DBA58189DBBC,
   0x3956C25BF348B538, 0x59F111F1B605D019, 0x923F82A4AF194F9B, 0xAB1C5ED5DA6D8118,
   0xD807AA98A3030242, 0x12835B0145706FBE, 0x243185BE4EE4B28C, 0x550C7DC3D5FFB4E2,
   0x72BE5D74F27B896F, 0x80DEB1FE3B1696B1, 0x9BDC06A725C71235, 0xC19BF174CF692694]
/-- Round constants of SHA-512; those of SHA-256 are the high halves of the first 64, part 1. -/
def shaK1 : List Nat :=
  [0xE49B69C19EF14AD2, 0xEFBE4786384F25E3, 0x0FC19DC68B8CD5B5, 0x240CA1CC77AC9C65,
   0x2DE92C6F592B0275, 0x4A7484AA6EA6E483, 0x5CB0A9DCBD41FBD4, 0x76F988DA831153B5,
   0x983E5152EE66DFAB, 0xA831C66D2DB43210, 0xB00327C898FB213F, 0xBF597FC7BEEF0EE4,
   0xC6E00BF33DA88FC2, 0xD5A79147930AA725, 0x06CA6351E003826F, 0x142929670A0E6E70]
/-- Round constants of SHA-512; those of SHA-256 are the high halves of the first 64, part 2. -/
def shaK2 : List Nat :=
  [0x27B70A8546D22FFC, 0x2E1B21385C26C926, 0x4D2C6DFC5AC42AED, 0x53380D139D95B3DF,
   0x650A73548BAF63DE, 0x766A0ABB3C77B2A8, 0x81C2C92E47EDAEE6, 0x92722C851482353B,
   0xA2BFE8A14CF10364, 0xA81A664BBC423001, 0xC24B8B70D0F89791, 0xC76C51A30654BE30,
   0xD192E819D6EF5218, 0xD69906245565A910, 0xF40E35855771202A, 0x106AA07032BBD1B8]
/-- Round constants of SHA-512; those of SHA-256 are the high halves of the first 64, part 3. -/
def shaK3 : List Nat :=
  [0x19A4C116B8D2D0C8, 0x1E376C085141AB53, 0x2748774CDF8EEB99, 0x34B0BCB5E19B48A8,
   0x391C0CB3C5C95A63, 0x4ED8AA4AE3418ACB, 0x5B9CCA4F7763E373, 0x682E6FF3D6B2B8A3,
   0x748F82EE5DEFB2FC, 0x78A5636F43172F60, 0x84C87814A1F0AB72, 0x8CC702081A6439EC,
   0x90BEFFFA23631E28, 0xA4506CEBDE82BDE9, 0xBEF9A3F7B2C67915, 0xC67178F2E372532B]
/-- Round constants of SHA-512; those of SHA-256 are the high halves of the first 64, part 4. -/
def shaK4 : List Nat :=
  [0xCA273ECEEA26619C, 0xD186B8C721C0C207, 0xEADA7DD6CDE0EB1E, 0xF57D4F7FEE6ED178,
   0x06F067AA72176FBA, 0x0A637DC5A2C898A6, 0x113F9804BEF90DAE, 0x1B710B35131C471B,
   0x28DB77F523047D84, 0x32CAAB7B40C72493, 0x3C9EBE0A15C9BEBC, 0x431D67C49C100D4C,
   0x4CC5D4BECB3E42B6, 0x597F299CFC657E2A, 0x5FCB6FAB3AD6FAEC, 0x6C44198C4A475817]
/-- Round constants of SHA-512; those of SHA-256 are the high halves of the first 64. -/
def shaK : List Nat := shaK0 ++ shaK1 ++ shaK2 ++ shaK3 ++ shaK4
/-- Initial hash of SHA-512; that of SHA-256 is its high halves. -/
def shaH512 : List Nat :=
  [0x6A09E667F3BCC908, 0xBB67AE8584CAA73B, 0x3C6EF372FE94F82B, 0xA54FF53A5F1D36F1,
   0x510E527FADE682D1, 0x9B05688C2B3E6C1F, 0x1F83D9ABFB41BD6B, 0x5BE0CD19137E2179]
/-- Initial hash of SHA-384. -/
def shaH384 : List Nat :=
  [0xCBBB9D5DC1059ED8, 0x629A292A367CD507, 0x9159015A3070DD17, 0x152FECD8F70E5939,
   0x67332667FFC00B31, 0x8EB44A8768581511, 0xDB0C2E0D64F98FA7, 0x47B5481DBEFA4FA4]

/-- Right rotation within w bits. -/
def rotr (w n x : Nat) : Nat := x / 2 ^ n + x % 2 ^ n * 2 ^ (w - n)

/-- The parameters of one SHA-2 family: word width, rounds, and the rotations of Σ0, Σ1, σ0, σ1. -/
structure ShaP where
  w : Nat
  rounds : Nat
  big0 : Nat × Nat × Nat
  big1 : Nat × Nat × Nat
  small0 : Nat × Nat × Nat
  small1 : Nat × Nat × Nat

/-- SHA-256. -/
def shaP256 : ShaP := ⟨32, 64, (2, 13, 22), (6, 11, 25), (7, 18, 3), (17, 19, 10)⟩
/-- SHA-512 and SHA-384. -/
def shaP512 : ShaP := ⟨64, 80, (28, 34, 39), (14, 18, 41), (1, 8, 7), (19, 61, 6)⟩

/-- Σ of three rotations. -/
def ShaP.big (p : ShaP) (r : Nat × Nat × Nat) (x : Nat) : Nat := rotr p.w r.1 x ^^^ rotr p.w r.2.1 x ^^^ rotr p.w r.2.2 x
/-- σ of two rotations and a shift. -/
def ShaP.small (p : ShaP) (r : Nat × Nat × Nat) (x : Nat) : Nat := rotr p.w r.1 x ^^^ rotr p.w r.2.1 x ^^^ x / 2 ^ r.2.2

/-- The message schedule, newest word first. -/
def ShaP.expand (p : ShaP) : Nat → List Nat → List Nat
  | 0, l => l
  | n + 1, l =>
    let x := (p.small p.small1 (l.getD 1 0) + l.getD 6 0 + p.small p.small0 (l.getD 14 0) + l.getD 15 0) % 2 ^ p.w
    p.expand n (x :: l)

/-- The eight working variables after the rounds of the given constants and schedule words. -/
def ShaP.roundsOf (p : ShaP) : List (Nat × Nat) → List Nat → List Nat
  | [], v => v
  | (k, wt) :: r, [a, b, c, d, e, f, g, h] =>
    let m := 2 ^ p.w
    let t1 := h + p.big p.big1 e + ((e &&& f) ^^^ ((m - 1 - e) &&& g)) + k + wt
    let t2 := p.big p.big0 a + ((a &&& b) ^^^ (a &&& c) ^^^ (b &&& c))
    p.roundsOf r [(t1 + t2) % m, a, b, c, (d + t1) % m, e, f, g]
  | _, v => v

/-- Splits a byte string into strings of n bytes. -/
def chunksOf (n : Nat) : Nat → Bytes → List Bytes
  | 0, _ => []
  | fuel + 1, bs => if bs.isEmpty then [] else bs.take n :: chunksOf n fuel (bs.drop n)

/-- One block folded into the chaining state. -/
def ShaP.block (p : ShaP) (hs : List Nat) (b : Bytes) : List Nat :=
  let w16 := (chunksOf (p.w / 8) 16 b).map beNat
  let ws := (p.expand (p.rounds - 16) w16.reverse).reverse
  let ks := if p.w == 32 then shaK.map (· / 2 ^ 32) else shaK
  let out := p.roundsOf (ks.zip ws) hs
  (hs.zip out).map fun (x, y) => (x + y) % 2 ^ p.w

/-- The padded message. -/
def ShaP.pad (p : ShaP) (m : Bytes) : Bytes :=
  let bb := 2 * p.w
  let lenB := p.w / 4
  let zeros := (bb - (m.length + 1 + lenB) % bb) % bb
  m ++ [0x80] ++ List.replicate zeros 0 ++ toBE lenB (8 * m.length)

/-- The digest of a message from an initial hash. -/
def ShaP.digest (p : ShaP) (h0 : List Nat) (m : Bytes) : Bytes :=
  let q := p.pad m
  ((chunksOf (2 * p.w) (q.length + 1) q).foldl p.block h0).flatMap (toBE (p.w / 8))

/-- SHA-256. -/
def sha256 (m : Bytes) : Bytes := shaP256.digest (shaH512.map (· / 2 ^ 32)) m
/-- SHA-384. -/
def sha384 (m : Bytes) : Bytes := (shaP512.digest shaH384 m).take 48
/-- SHA-512. -/
def sha512 (m : Bytes) : Bytes := shaP512.digest shaH512 m

/-- The digest that FC_CTRL.ALG names: 1 SHA-256, 2 SHA-384, else SHA-512. -/
def shaAlg (alg : Nat) (m : Bytes) : Bytes := if alg == 1 then sha256 m else if alg == 2 then sha384 m else sha512 m
/-- Its digest length. -/
def shaLen (alg : Nat) : Nat := if alg == 1 then 32 else if alg == 2 then 48 else 64
/-- Its block length. -/
def shaBlock (alg : Nat) : Nat := if alg == 1 then 64 else 128

/-- HMAC (RFC 2104): a key longer than the block is hashed first (R478). -/
def hmacAlg (alg : Nat) (key m : Bytes) : Bytes :=
  let k := padTo (shaBlock alg) (if shaBlock alg < key.length then shaAlg alg key else key)
  shaAlg alg (k.map (· ^^^ 0x5C) ++ shaAlg alg (k.map (· ^^^ 0x36) ++ m))

/-- One bit step of the reflected CRC-32 of RFC 1952. -/
def crcStep (c : Nat) : Nat := if c % 2 == 1 then (c / 2) ^^^ 0xEDB88320 else c / 2

/-- CRC-32 (R78). -/
def crc32 (m : Bytes) : Nat :=
  (m.foldl (fun c b => Nat.repeat crcStep 8 (c ^^^ b.toNat)) 0xFFFFFFFF) ^^^ 0xFFFFFFFF

/-- Adler-32 (RFC 1950). -/
def adler32 (m : Bytes) : Nat :=
  let (a, b) := m.foldl (fun (a, b) x => let a' := (a + x.toNat) % 65521; (a', (b + a') % 65521)) (1, 0)
  b * 65536 + a

/-- Left rotation of 32 bits. -/
def rotl32 (n x : Nat) : Nat := (x * 2 ^ n) % 2 ^ 32 + x / 2 ^ (32 - n)

/-- Primes of xxHash-32. -/
def xxP1 : Nat := 2654435761
/-- Second prime of xxHash-32. -/
def xxP2 : Nat := 2246822519
/-- Third prime of xxHash-32. -/
def xxP3 : Nat := 3266489917
/-- Fourth prime of xxHash-32. -/
def xxP4 : Nat := 668265263
/-- Fifth prime of xxHash-32. -/
def xxP5 : Nat := 374761393

/-- A lane's round. -/
def xxRound (acc x : Nat) : Nat := rotl32 13 ((acc + x * xxP2) % 2 ^ 32) * xxP1 % 2 ^ 32

/-- Finishes the bytes after the last 16-byte stripe. -/
def xxTail : Nat → Nat → Bytes → Nat
  | 0, h, _ => h
  | fuel + 1, h, bs =>
    if 4 ≤ bs.length then xxTail fuel (rotl32 17 ((h + leNat (bs.take 4) * xxP3) % 2 ^ 32) * xxP4 % 2 ^ 32) (bs.drop 4)
    else match bs with
      | [] => h
      | b :: r => xxTail fuel (rotl32 11 ((h + b.toNat * xxP5) % 2 ^ 32) * xxP1 % 2 ^ 32) r

/-- xxHash-32 with seed 0. -/
def xxh32 (m : Bytes) : Nat :=
  let stripes := (chunksOf 16 (m.length + 1) m).filter (·.length == 16)
  let lanes := stripes.foldl (fun (l : List Nat) st => (l.zip (chunksOf 4 4 st)).map fun (a, x) => xxRound a (leNat x))
    [(xxP1 + xxP2) % 2 ^ 32, xxP2, 0, 2 ^ 32 - xxP1]
  let h := if stripes.isEmpty then xxP5 else
    (rotl32 1 (lanes.getD 0 0) + rotl32 7 (lanes.getD 1 0) + rotl32 12 (lanes.getD 2 0) + rotl32 18 (lanes.getD 3 0)) % 2 ^ 32
  let h := xxTail (m.length + 1) ((h + m.length) % 2 ^ 32) (m.drop (16 * stripes.length))
  let h := (h ^^^ h / 2 ^ 15) * xxP2 % 2 ^ 32
  let h := (h ^^^ h / 2 ^ 13) * xxP3 % 2 ^ 32
  h ^^^ h / 2 ^ 16

/-- x^65,537 mod n. -/
def rsaPub (n x : Nat) : Nat := (Nat.repeat (fun y => y * y % n) 16 (x % n)) * x % n

/-- MGF1 with SHA-256, for a mask of at most 384 bytes. -/
def mgf1 (seed : Bytes) (len : Nat) : Bytes :=
  ((List.range 12).flatMap fun i => sha256 (seed ++ toBE 4 i)).take len

/-- RSASSA-PSS verification with SHA-256, MGF1 with SHA-256 and a 32-byte salt, for a 3,072-bit modulus and exponent
65,537 (R629, RFC 8017 section 8.1.2). -/
def pssVerify (modulus msg sig : Bytes) : Bool :=
  let n := beNat modulus
  let sg := beNat sig
  let emBits := 3071
  if modulus.length != 384 || sig.length != 384 || n ≤ sg then false else
  let em := toBE 384 (rsaPub n sg)
  let masked := em.take 351
  let h := (em.drop 351).take 32
  let db := (masked.zip (mgf1 h 351)).map fun (a, b) => a ^^^ b
  let db := (db.take 1).map (· &&& BitVec.ofNat 8 (2 ^ (emBits % 8) - 1)) ++ db.drop 1
  let top := (masked.take 1).all fun b => b.toNat < 2 ^ (emBits % 8)
  let zeros := (db.take 318).all (· == 0)
  top && em.drop 383 == [0xBC] && zeros && (db.drop 318).take 1 == [1]
    && sha256 (List.replicate 8 0 ++ sha256 msg ++ db.drop 319) == h

end Sys2Proof.Machine
end

