-- ==== Sys2Proof/Config.lean ====
section
/-! DEFINITION. The free values: constants without a body, one for each value the spec leaves open on a command
that completes. Nothing can be proved of what they are; a log entry names each. -/

namespace Sys2Proof.Config

/-- The rate trim, in parts per 10^9, that the gPTP servo chooses for an offset (R41 bounds it, and states no rule);
argument: the free counter and the offset in ns. [log 12 DESIGN CHOICE] -/
opaque slewTrim : Nat → Int → Int

/-- IEEE 754 lets an implementation detect tininess before or after rounding; R333 does not choose. [log 73 DESIGN CHOICE] -/
opaque tininessAfterRounding : Bool

/-- IEEE 754 lets an implementation signal invalid or not for a fused operation of 0 × ∞ and a quiet NaN. [log 74 DESIGN CHOICE] -/
opaque fusedZeroInfNanInvalid : Bool

/-- The bytes a Yelm engine writes when it compresses: a fixed function of format and input (R455) that the spec does
not give. [log 119 DESIGN CHOICE] -/
opaque yelmBytes : Nat → Bytes → Bytes

/-- The signature of an attestation report: it rests on the private identity key and on a random salt (R635, R637). [log 172 DESIGN CHOICE] -/
opaque attestSignature : Nat → Bytes → Bytes

/-- The identity key pair's public modulus, made from the on-die entropy source (R635). [log 172 DESIGN CHOICE] -/
opaque identityModulus : Nat → Bytes

/-- The identity's private key, wrapped under a key derived from DEVICE_SECRET (R635): neither is readable. [log 246 DESIGN CHOICE] -/
opaque wrappedIdentity : Bytes → Nat → Bytes

/-- The digest of the Ridge ROM, which MS0 is extended with (R636), and ROM_VERSION (R641): what the part's ROM holds. [log 171 DESIGN CHOICE] -/
opaque romDigest : Bytes
opaque romVersion : Nat

/-- Whether the persistent store takes a commit that the Ridge tries again (R46); argument: the free counter. [log 228 DEDUCED] -/
opaque storeTakes : Nat → Bool

/-- A byte the spec leaves undefined; arguments: the free counter and its place. [log 11 DESIGN CHOICE] -/
opaque freeByte : Nat → Nat → Byte

/-- A number the spec leaves open; argument: the free counter. [log 11 DESIGN CHOICE] -/
opaque freeNat : Nat → Nat

/-- How PORT_STATUS.SPEED, in whole GT/s, shows a link at 2.5 GT/s: the spec gives no value. [log 123 DESIGN CHOICE] -/
opaque gen1Speed : Nat

/-- Bytes of an instance's plan area beyond one image of the greatest length: the spec gives the area no size. [log 209 DESIGN CHOICE] -/
opaque planAreaExtra : Nat

end Sys2Proof.Config
end

