-- ==== Sys2Proof/Machine/State.lean ====
section
/-! DEFINITION. The state of the whole part, the reasons a command can stop, and the state after reset. -/

namespace Sys2Proof.Machine

/-- No command of this block ends in a fault: the type has no constructor. -/
inductive Fault where
deriving DecidableEq, Repr

/-- Why a command is refused. -/
inductive Refusal where
  /-- Raised by an arm of `exec` whose command has no meaning yet; safe, since the machine stops. -/
  | notModelled (mnemonic : String)
deriving DecidableEq, Repr

/-- The state of the part. -/
structure State where
  /-- The time base (chapter 02). -/
  time : TimeSt
  /-- The error log, self-tests, trace stop and availability (24). -/
  err : ErrSt
  /-- The object dictionary and Plyn (20). -/
  dict : DictSt
  /-- The table store (03). -/
  tables : TableSt
  /-- The Ligger, the Eave ports and the signal map (04). -/
  ingest : IngestSt
  /-- Plans and the image cache (05, 06). -/
  plans : PlanSt
  /-- The Purlin store and the Hip units (07). -/
  purlin : PurlinSt
  /-- The Batten and the registered queries (08, 09). -/
  batten : BattenSt
  /-- The 64 tiles (10 to 12). -/
  tiles : Vector Tile 64
  /-- The Thatch and the region table (12). -/
  thatch : ThatchSt
  /-- The memory controllers, the Keep and sparing (13). -/
  dram : DramSt
  /-- The Gutter (14). -/
  gutter : GutterSt
  /-- The Yelm engines (15). -/
  yelm : YelmSt
  /-- The Flashing engine (16). -/
  flash : FlashSt
  /-- The host ports and functions (17). -/
  host : HostSt
  /-- The instances (18, 19). -/
  insts : Vector Inst 64
  /-- The Ridges and the Finial (21). -/
  finial : FinialSt
  /-- Start-up, firmware, attestation and pins (22, 25). -/
  boot : BootSt
  /-- Pitch and power (23). -/
  power : PowerSt
  /-- Device DRAM: address and byte, addresses strictly rising, no byte 0 listed; an unlisted byte reads 0. -/
  mem : List Host.Cell
  /-- What the part has sent out, oldest first: the model's own record. -/
  outs : List Out
  /-- Counter from which free values are drawn: the model's own field. -/
  freeCtr : Nat
  /-- Commands that wait, first in, first out. -/
  pending : List Instr
deriving DecidableEq, Repr

/-- The part with no supply, every register at its reset value: what COLD_START begins from. [log 8 DESIGN CHOICE] -/
def State.reset : State :=
  { time := .reset,
    err := .reset,
    dict := .reset,
    tables := .empty,
    ingest := .reset,
    plans := .reset,
    purlin := .reset,
    batten := .reset,
    tiles := .replicate 64 .reset,
    thatch := .reset,
    dram := .reset,
    gutter := .reset,
    yelm := .reset,
    flash := .reset,
    host := .reset,
    insts := .replicate 64 .reset,
    finial := .reset,
    boot := .reset,
    power := .reset,
    mem := [],
    outs := [],
    freeCtr := 0,
    pending := [] }

end Sys2Proof.Machine
end

