-- ==== Sys2Proof/Machine/Update.lean ====
section
/-! DEFINITION. One update for each field of the state, and the answer of a command that completes. -/

namespace Sys2Proof.Machine

/-- The answer of a command. -/
abbrev Res := Host.Outcome State Fault Refusal

/-- `time` changed by a function. -/
def State.modTime (s : State) (f : TimeSt → TimeSt) : State := { s with time := f s.time }

/-- `err` changed by a function. -/
def State.modErr (s : State) (f : ErrSt → ErrSt) : State := { s with err := f s.err }

/-- `dict` changed by a function. -/
def State.modDict (s : State) (f : DictSt → DictSt) : State := { s with dict := f s.dict }

/-- `tables` changed by a function. -/
def State.modTables (s : State) (f : TableSt → TableSt) : State := { s with tables := f s.tables }

/-- `ingest` changed by a function. -/
def State.modIngest (s : State) (f : IngestSt → IngestSt) : State := { s with ingest := f s.ingest }

/-- `plans` changed by a function. -/
def State.modPlans (s : State) (f : PlanSt → PlanSt) : State := { s with plans := f s.plans }

/-- `purlin` changed by a function. -/
def State.modPurlin (s : State) (f : PurlinSt → PurlinSt) : State := { s with purlin := f s.purlin }

/-- `batten` changed by a function. -/
def State.modBatten (s : State) (f : BattenSt → BattenSt) : State := { s with batten := f s.batten }

/-- `tiles` changed by a function. -/
def State.modTiles (s : State) (f : Vector Tile 64 → Vector Tile 64) : State := { s with tiles := f s.tiles }

/-- `thatch` changed by a function. -/
def State.modThatch (s : State) (f : ThatchSt → ThatchSt) : State := { s with thatch := f s.thatch }

/-- `dram` changed by a function. -/
def State.modDram (s : State) (f : DramSt → DramSt) : State := { s with dram := f s.dram }

/-- `gutter` changed by a function. -/
def State.modGutter (s : State) (f : GutterSt → GutterSt) : State := { s with gutter := f s.gutter }

/-- `yelm` changed by a function. -/
def State.modYelm (s : State) (f : YelmSt → YelmSt) : State := { s with yelm := f s.yelm }

/-- `flash` changed by a function. -/
def State.modFlash (s : State) (f : FlashSt → FlashSt) : State := { s with flash := f s.flash }

/-- `host` changed by a function. -/
def State.modHost (s : State) (f : HostSt → HostSt) : State := { s with host := f s.host }

/-- `insts` changed by a function. -/
def State.modInsts (s : State) (f : Vector Inst 64 → Vector Inst 64) : State := { s with insts := f s.insts }

/-- `finial` changed by a function. -/
def State.modFinial (s : State) (f : FinialSt → FinialSt) : State := { s with finial := f s.finial }

/-- `boot` changed by a function. -/
def State.modBoot (s : State) (f : BootSt → BootSt) : State := { s with boot := f s.boot }

/-- `power` changed by a function. -/
def State.modPower (s : State) (f : PowerSt → PowerSt) : State := { s with power := f s.power }

/-- `mem` changed by a function. -/
def State.modMem (s : State) (f : List Host.Cell → List Host.Cell) : State := { s with mem := f s.mem }

/-- `outs` changed by a function. -/
def State.modOuts (s : State) (f : List Out → List Out) : State := { s with outs := f s.outs }

/-- `freeCtr` changed by a function. -/
def State.modFreeCtr (s : State) (f : Nat → Nat) : State := { s with freeCtr := f s.freeCtr }

/-- `pending` changed by a function. -/
def State.modPending (s : State) (f : List Instr → List Instr) : State := { s with pending := f s.pending }

end Sys2Proof.Machine
end

