-- ==== Sys2Proof/Machine/Ops.lean ====
section
/-! DEFINITION. Operations every chapter shares: reading the dictionary's values in force, time quality and stamps
(R61 to R63, R43), free values, the error log (R662 to R667), FN_ALERT (R595), interrupts (R495 to R497), the journal
(R600), device memory, and counters. -/

namespace Sys2Proof.Machine

/-! Values in force and counters of the dictionary. -/

/-- The key of an object: index × 256 + subindex. -/
def objKey (index sub : Nat) : Nat := index * 256 + sub

/-- The bytes in force of an object that has left its default. -/
def State.objBytes (s : State) (index sub : Nat) : Option Bytes := nget s.dict.vals (objKey index sub)

/-- The number in force of a scalar object, with its default from the chapter's object table. -/
def State.cfg (s : State) (index sub default : Nat) : Nat :=
  match s.objBytes index sub with
  | some b => leNat b
  | none => default

/-- The value in force of a BOOL object. -/
def State.cfgBool (s : State) (index sub : Nat) (default : Bool) : Bool :=
  s.cfg index sub (if default then 1 else 0) == 1

/-- Adds to a counter of an RO object. [log 199 DESIGN CHOICE] -/
def State.bump (s : State) (index sub n : Nat) : State :=
  s.modDict fun d => { d with ro := nputZ d.ro (objKey index sub) (ngetZ d.ro (objKey index sub) + n) }

/-- Sets a reading of an RO object. -/
def State.setRo (s : State) (index sub v : Nat) : State :=
  s.modDict fun d => { d with ro := nputZ d.ro (objKey index sub) v }

/-- A counter or reading of an RO object. -/
def State.ro (s : State) (index sub : Nat) : Nat := ngetZ s.dict.ro (objKey index sub)

/-! Elements of the vectors of the state. -/

/-- One tile changed. -/
def State.modTile (s : State) (t : TileId) (f : Tile → Tile) : State := s.modTiles fun v => v.set t (f (v[t]))
/-- One tile as the Batten keeps it, changed. -/
def State.modSched (s : State) (t : TileId) (f : TileSched → TileSched) : State :=
  s.modBatten fun b => { b with tiles := b.tiles.set t (f (b.tiles[t])) }
/-- One instance changed. -/
def State.modInst (s : State) (i : InstId) (f : Inst → Inst) : State := s.modInsts fun v => v.set i (f (v[i]))
/-- One function changed. -/
def State.modFunc (s : State) (x : FuncId) (f : HFunc → HFunc) : State :=
  s.modHost fun h => { h with funcs := h.funcs.set x (f (h.funcs[x])) }
/-- One host port changed. -/
def State.modPort (s : State) (p : PortId) (f : HPort → HPort) : State :=
  s.modHost fun h => { h with ports := h.ports.set p (f (h.ports[p])) }
/-- One Gutter channel changed. -/
def State.modChan (s : State) (c : ChanId) (f : GChan → GChan) : State :=
  s.modGutter fun g => { g with chans := g.chans.set c (f (g.chans[c])) }
/-- One memory controller changed. -/
def State.modMemChan (s : State) (m : Fin 8) (f : MemChan → MemChan) : State :=
  s.modDram fun d => { d with chans := d.chans.set m (f (d.chans[m])) }
/-- One course's pitch and power changed. -/
def State.modCourse (s : State) (c : CourseId) (f : CoursePw → CoursePw) : State :=
  s.modPower fun p => { p with courses := p.courses.set c (f (p.courses[c])) }
/-- One Ridge changed. -/
def State.modRidge (s : State) (r : Fin 2) (f : RidgeSt → RidgeSt) : State :=
  s.modFinial fun x => { x with ridges := x.ridges.set r (f (x.ridges[r])) }
/-- One Purlin bank changed. -/
def State.modBank (s : State) (b : Fin 8) (f : Bank → Bank) : State :=
  s.modPurlin fun p => { p with banks := p.banks.set b (f (p.banks[b])) }

/-- The port of a function (R23). -/
def funcPort (f : FuncId) : PortId := ⟨f.val / 16, by omega⟩
/-- Function k of a port. -/
def funcOf (p : PortId) (k : Fin 16) : FuncId := ⟨16 * p.val + k.val, by omega⟩
/-- The course of a tile (R22). -/
def courseOf (t : TileId) : CourseId := ⟨t.val / 8, by omega⟩
/-- Tile at a position of a course. -/
def tileOf (c : CourseId) (p : Fin 8) : TileId := ⟨8 * c.val + p.val, by omega⟩

/-! Time quality and stamps. -/

/-- A fresh free value's argument: the counter, and the state with it advanced. [log 11 DESIGN CHOICE] -/
def State.fresh (s : State) : Nat × State := (s.freeCtr, s.modFreeCtr (· + 1))

/-- n bytes the spec leaves undefined. [log 11 DESIGN CHOICE] -/
def State.freeBytes (s : State) (n : Nat) : Bytes × State :=
  ((List.range n).map fun i => Config.freeByte s.freeCtr i, s.modFreeCtr (· + 1))

/-- The smallest n with 2^n ≥ e, saturating at 31 (R43, R63). -/
def eerrOf (e : Nat) : Nat := ceilLog2 31 e

/-- The time base is LOCKED or EDGE-LOCKED. -/
def TimeSt.locked (t : TimeSt) : Bool := t.state == .locked || t.state == .edgeLocked

/-- TQ8.HOLDOVER (R40, R692; R668 for a stopped domain 17). -/
def TimeSt.holdover (t : TimeSt) : Bool := !t.locked || !t.run

/-- The estimated error of R43, none while the time base holds no estimate. [log 226 DESIGN CHOICE] -/
def State.estError (s : State) : Option Nat :=
  let t := s.time
  if !t.holdover then some t.offset.natAbs
  else if !t.everLocked then none
  else some (t.e0 + ceilDiv (s.cfg 0x0402 4 5000 * (t.ts - t.leftAt)) 1000000000)

/-- TQ8 as R63 gives it. -/
def State.tq8 (s : State) : Nat :=
  let t := s.time
  let unsynced := t.unsynced || t.source != 0 || !t.run
  let eerr := match s.estError with
    | some e => eerrOf e
    | none => 31
  (if t.holdover then 1 else 0) + (if unsynced then 2 else 0) + (if t.stepped then 4 else 0) + 8 * eerr

/-- The next SEQ24 values of a source reserved (R61): the first, and the state. -/
def State.takeSeq (s : State) (src n : Nat) : Nat × State :=
  let q := ngetZ s.time.seqs src
  (q, s.modTime fun t => { t with seqs := nputZ t.seqs src ((q + n) % 2 ^ 24) })

/-- A stamp issued by a source at a TS64. -/
def State.stampAt (s : State) (src ts : Nat) : Stamp × State :=
  let (q, s') := s.takeSeq src 1
  (⟨ts, src, q, s.tq8⟩, s'.modTime fun t => { t with stamped := nputZ t.stamped src (max (ngetZ t.stamped src) ts) })

/-- Sources that stamp what reaches the part from outside: instances, hosts, Eave and field ports (R60). -/
def stampsInput (src : Nat) : Bool := src < 0x60

/-- TS64 moves on to an event's due time, never back (R37). [log 4 DESIGN CHOICE] -/
def State.advanceTo (s : State) (due : Nat) : State := s.modTime fun t => { t with ts := max t.ts due }

/-- The TS64 of a stamp that a source issues now: none of its own goes before (R61), and a unit inside the part answers at least
16 ns after what others have stamped (R38). [log 229 DEDUCED] -/
def State.stampTime (s : State) (src : Nat) : Nat :=
  let others := if stampsInput src then 0 else
    s.time.stamped.foldl (fun m p => if p.1 == src then m else max m (p.2 + 16)) 0
  max s.time.ts (max (ngetZ s.time.stamped src) others)

/-- A stamp issued by a source now (R62). -/
def State.stamp (s : State) (src : Nat) : Stamp × State :=
  let ts := s.stampTime src
  (s.advanceTo ts).stampAt src ts

/-- The order rule (R64). -/
def Stamp.lt (a b : Stamp) : Bool :=
  a.ts < b.ts || (a.ts == b.ts && (a.src < b.src || (a.src == b.src && a.seq < b.seq)))

/-- Two stamps carry one triple (R64). -/
def Stamp.same (a b : Stamp) : Bool := a.ts == b.ts && a.src == b.src && a.seq == b.seq

/-- The zero stamp. -/
def Stamp.zero : Stamp := ⟨0, 0, 0, 0⟩

/-- The 16 bytes of a stamp (R62). -/
def Stamp.bytes (a : Stamp) : Bytes :=
  toLE 8 a.ts ++ toLE 3 a.seq ++ toLE 1 a.tq ++ toLE 1 a.src ++ List.replicate 3 0

/-- SRC8 of the Finial, the time base, the Batten, the Ligger, the Gutter, the Flashing engine, the Purlin store. -/
def srcFinial : Nat := 0x70
/-- SRC8 of the time base. -/
def srcTime : Nat := 0xC0
/-- SRC8 of the Batten. -/
def srcBatten : Nat := 0xC1
/-- SRC8 of the Ligger. -/
def srcLigger : Nat := 0xC2
/-- SRC8 of the Gutter. -/
def srcGutter : Nat := 0xC3
/-- SRC8 of the Flashing engine. -/
def srcFlash : Nat := 0xC8
/-- SRC8 of the Purlin store. -/
def srcPurlin : Nat := 0xC9

/-- SRC8 of a tile (R60). -/
def srcTile (t : TileId) : Nat := 0x80 + t.val

/-- SRC8 of the active Ridge; that of Ridge A while none holds the token. -/
def State.ridgeSrc (s : State) : Nat := if s.finial.holder == 2 then 0x61 else 0x60

/-- A Ridge holds the token and takes input (R599, R608). -/
def State.ridgeActs (s : State) : Bool := s.finial.holder != 0

/-! The persistent store (R626). -/

/-- A record of the store's log: INDEX, SUB, TYPE, LENGTH, SEQ, the value and their CRC-32 take 16 bytes and the value's own. -/
def storeRecordLen (v : Bytes) : Nat := 16 + v.length

/-- Bytes of a half that its log may take: 20 MiB less the start-up block. -/
def storeLogMax : Nat := 20 * 2 ^ 20 - 256 * 2 ^ 10

/-- A record is appended; a full half has every current value written into the other half, with SEQ continuing (R626). [log 245 DEDUCED] -/
def State.storeWrite (s : State) (key : Nat) (v : Option Bytes) : State :=
  let s := s.modDict fun d => { d with store := match v with
    | some b => nput d.store key b
    | none => ndel d.store key }
  let held := s.dict.store
  let n := storeRecordLen (v.getD [])
  s.modBoot fun b =>
    if storeLogMax < b.storeFill + n then
      { b with storeHalf := 1 - b.storeHalf % 2, storeSeq := (b.storeSeq + held.length) % 2 ^ 32
               storeFill := (held.map fun p => storeRecordLen p.2).sum }
    else { b with storeSeq := (b.storeSeq + 1) % 2 ^ 32, storeFill := b.storeFill + n }

/-! The journal (R600). -/

/-- The 64 bytes of an entry in the ring (R600). [log 242 DESIGN CHOICE] -/
def JEntry.bytes (e : JEntry) : Bytes := e.stamp.bytes ++ toLE 1 e.kind ++ zeros 3 ++ toLE 4 e.jseq ++ toLE 40 e.payload

/-- Journal entries after the last acknowledged checkpoint (R599). [log 154 DEDUCED, 155 DEDUCED] -/
def FinialSt.unacked (x : FinialSt) : Nat := (x.jseq + 2 ^ 32 - x.ackJseq) % 2 ^ 32

/-- The active Ridge takes new input: no handover runs (R608) and the journal has room (R599). [log 154 DEDUCED] -/
def State.ridgeTakes (s : State) : Bool := s.ridgeActs && !s.finial.handover && s.finial.unacked + 1 < 1024

/-- Input that finds the active Ridge not taking any waits, and is counted (R599). [log 155 DEDUCED] -/
def State.noteDeferral (s : State) : State :=
  if s.ridgeActs && !s.ridgeTakes then s.modFinial fun x => { x with deferrals := x.deferrals + 1 } else s

/-- The active Ridge writes an input's entry; that of an acceptance holds its snapshot (R178). -/
def State.journalWith (s : State) (kind : Nat) (stamp : Stamp) (payload : Nat) (snapshot : List SnapSeg) : State :=
  s.modFinial fun x =>
    { x with journal := keepLast x.journalCap (x.journal ++ [⟨stamp, kind, x.jseq, payload, snapshot⟩])
             jseq := (x.jseq + 1) % 2 ^ 32
             journalMax := max x.journalMax (x.unacked + 1) }

/-- The active Ridge writes an input's entry. -/
def State.journal (s : State) (kind : Nat) (stamp : Stamp) (payload : Nat) : State := s.journalWith kind stamp payload []

/-! Interrupts. -/

/-- A message leaves the part. -/
def State.emit (s : State) (o : Out) : State := s.modOuts (· ++ [o])

/-- A function may send messages: bus master, not in D3hot (R494), port RUNNING (R505). -/
def State.funcSends (s : State) (f : FuncId) : Bool :=
  let x := s.host.funcs[f]
  x.bme && !x.d3 && (s.host.ports[funcPort f]).state == .running

/-- Sets the pending bit of a vector (R497). -/
def HFunc.pend (x : HFunc) (v : Nat) : HFunc := { x with pba := x.pba ||| 2 ^ v }

/-- Sends vector v of a function (R496), subject to masks, Bus Master Enable (R497) and holdoff (R495). -/
def State.sendVector (s : State) (f : FuncId) (v : Fin 32) : State :=
  let x := s.host.funcs[f]
  if !x.msixEn && !x.msiEn then s else
  let slot := if x.msixEn then v.val else v.val % 2 ^ x.msiLog
  let masked := if x.msixEn then x.msixMask || (x.msix[v]).masked else bitAt x.msiMask slot
  if masked || !s.funcSends f then s.modFunc f (·.pend slot)
  else if s.time.ts < ngetZ x.heldOff v.val then s.modFunc f fun y => { y with merged := y.merged ||| 2 ^ v.val }
  else
    let addr := if x.msixEn then (x.msix[v]).addr else x.msiAddr
    let data := if x.msixEn then (x.msix[v]).data else x.msiData / 2 ^ x.msiLog * 2 ^ x.msiLog + slot
    let s := s.emit (.message f addr data)
    s.modFunc f fun y =>
      { y with heldOff := nputZ y.heldOff v.val (s.time.ts + 1000 * (y.regs.intHoldoff % 2 ^ 16))
               merged := y.merged &&& (2 ^ 32 - 1 - 2 ^ v.val) }

/-- Sets a cause bit and, where INT_ENABLE has it, sends a vector (R495). -/
def State.raiseCause (s : State) (f : FuncId) (bit : Nat) (v : Nat) : State :=
  let en := bitAt (s.host.funcs[f]).regs.intEnable bit
  let s := s.modFunc f fun x => { x with regs := { x.regs with intCause := x.regs.intCause ||| 2 ^ bit } }
  if en then s.sendVector f (Fin.ofNat 32 v) else s

/-- The vector of a group in INT_VECTOR: DONE at bit 0, MAILBOX at 8, EVENT at 16. -/
def State.vecOf (s : State) (f : FuncId) (lo : Nat) : Nat := bitsOf (s.host.funcs[f]).regs.intVector (lo + 4) lo

/-- A cause of the EVENT group: FREEZE 3, ERROR 4, BIND 5. -/
def State.eventCause (s : State) (f : FuncId) (bit : Nat) : State := s.raiseCause f bit (s.vecOf f 16)

/-! Errors. -/

/-- A record as its detecting unit makes it; the fields a unit leaves out stay at their reset values (R662). -/
def ErrRec.blank : ErrRec :=
  { stamp := Stamp.zero, code := 0, severity := .note, scope := 0, scopeId := 0, inst := 0xFF, event := 0, planSlot := none,
    address := 0, detail0 := 0, detail1 := 0, count := 1, causeSeq := 0, causeSrc := 0, cycle := 0 }

/-- Records of the ring not yet copied to table 0xFFF5. -/
def ErrSt.uncopied (e : ErrSt) : List ErrRec := keepLast (e.head - e.copied) e.ring

/-- Removes the first element that meets a condition. -/
def eraseFirst {α : Type} (p : α → Bool) : List α → List α
  | [] => []
  | x :: r => if p x then r else x :: eraseFirst p r

/-- Whether a new record merges with an uncopied one (R665). [log 161 DEDUCED] -/
def ErrRec.mergesWith (r x : ErrRec) : Bool :=
  x.code == r.code && x.scope == r.scope && x.scopeId == r.scopeId && x.stamp.src == r.stamp.src && x.cycle == r.cycle

/-- The ring with a record appended: room, a FATAL in place of the oldest uncopied lesser one, or a drop (R666). [log 160 DEDUCED, 161 DEDUCED] -/
def ErrSt.push (e : ErrSt) (r : ErrRec) : ErrSt :=
  let sev := e.sevCounts.set (Fin.ofNat 5 r.severity.code) (e.sevCounts[Fin.ofNat 5 r.severity.code] + 1)
  if e.head - e.copied < 512 then
    { e with ring := keepLast 512 (e.ring ++ [r]), head := e.head + 1, sevCounts := sev }
  else if r.severity == .fatal && e.uncopied.any (·.severity != .fatal) then
    { e with ring := eraseFirst (·.severity != .fatal) e.ring ++ [r], head := e.head + 1, copied := e.copied + 1,
             sevCounts := sev }
  else { e with dropped := e.dropped + 1 }

/-- The trace stops on a record (R672). -/
def State.traceTrigger (s : State) (r : ErrRec) : State :=
  let code := s.cfg 0x3C20 1 0
  let sev := s.cfg 0x3C20 2 0
  if s.err.traceStopped.isNone && ((code != 0 && r.code == code) || (sev != 0 && sev ≤ r.severity.code)) then
    s.modErr fun e => { e with traceStopped := some r.stamp }
  else s

/-- A unit writes an error record (R665 to R667, R672). [log 250 DESIGN CHOICE] -/
def State.raise (s : State) (src : Nat) (r : ErrRec) : State :=
  let r := { r with stamp := ⟨s.time.ts, src, 0, 0⟩, cycle := s.time.raft }
  if s.err.uncopied.any r.mergesWith then
    s.modErr fun e =>
      let old := e.ring.take (e.ring.length - (e.head - e.copied))
      let new := e.uncopied
      let i := new.findIdx r.mergesWith
      { e with ring := old ++ lmod new i (fun x => { x with count := x.count + 1 }), merged := e.merged + 1 }
  else
    let (st, s) := s.stamp src
    let r := { r with stamp := st }
    let before := s.err.head
    let s := s.modErr (·.push r)
    if s.err.head == before then s else
    let s := s.traceTrigger r
    let s :=
      if r.inst < 64 then
        match (s.insts[Fin.ofNat 64 r.inst]).func with
        | some f => s.eventCause f 4
        | none => s
      else s
    if r.scope == 9 && r.scopeId < 4 then s.eventCause (funcOf (Fin.ofNat 4 r.scopeId) 0) 4 else s

/-- The stamp of the newest uncopied record of a source with a code and a scope: what a consequence names as its cause (R662). -/
def State.recordOf (s : State) (src code scope scopeId : Nat) : Stamp :=
  ((s.err.uncopied.reverse.find? fun x => x.stamp.src == src && x.code == code && x.scope == scope && x.scopeId == scopeId).map
    (·.stamp)).getD Stamp.zero

/-- Writes 1 to an FN_ALERT bit, with the Finial's error record (R595). -/
def State.alert (s : State) (bit : Nat) (sev : Severity) (scope scopeId : Nat) : State :=
  if bitAt s.finial.alert bit then s else
  (s.modFinial fun x => { x with alert := x.alert ||| 2 ^ bit }).raise srcFinial
    { ErrRec.blank with severity := sev, scope := scope, scopeId := scopeId, event := bit }

/-- Clears an FN_ALERT bit. -/
def State.unalert (s : State) (bit : Nat) : State :=
  s.modFinial fun x => { x with alert := x.alert &&& (0xFFFF - 2 ^ bit % 0x10000) }

/-- FIN_ALERT_N is driven low (R595, R622, R679). -/
def State.finAlertLow (s : State) : Bool :=
  s.finial.alertForced || (s.finial.alert &&& (0xFFFF - s.finial.alertMask % 0x10000)) != 0

/-! Device memory (R22). -/

/-- The byte at a DRAM address; an unlisted byte reads 0. [log 9 DESIGN CHOICE] -/
def memByte (m : List Host.Cell) (a : Nat) : Byte := (nget m a).getD 0

/-- Memory with one byte written, in canonical form. -/
def memPut (m : List Host.Cell) (a : Nat) (b : Byte) : List Host.Cell := if b == 0 then ndel m a else nput m a b

/-- Memory with a byte string written. -/
def memPutBytes (m : List Host.Cell) (a : Nat) : Bytes → List Host.Cell
  | [] => m
  | b :: bs => memPutBytes (memPut m a b) (a + 1) bs

/-- n bytes of memory from an address. -/
def memBytes (m : List Host.Cell) (a n : Nat) : Bytes := (List.range n).map fun i => memByte m (a + i)

/-- The canonical form of memory: addresses strictly rising, no byte 0 listed. [log 9 DESIGN CHOICE] -/
def Memory.wf (m : List Host.Cell) : Bool := nsorted m && m.all (·.2 != 0)

/-- A region of R22. -/
inductive Region48 where
  | dram
  | aperture
  | scratch (tile : TileId) (offset : Nat)
  | control (offset : Nat)
  | window (port : PortId) (x : Nat)
  | unmapped
deriving DecidableEq, Repr

/-- Managed capacity N × Z (R406). -/
def DramSt.managed (d : DramSt) : Nat := d.slots * d.rankSize

/-- The region of a device address. -/
def State.regionOf (s : State) (a : Nat) : Region48 :=
  if a < s.dram.managed then .dram
  else if 0x020000000000 ≤ a && a < 0x020008000000 then .aperture
  else if 0x020100000000 ≤ a && a < 0x020101000000 then
    .scratch (Fin.ofNat 64 ((a - 0x020100000000) / 0x40000)) ((a - 0x020100000000) % 0x40000)
  else if 0x030000000000 ≤ a && a < 0x030010000000 then .control (a - 0x030000000000)
  else if 0x040000000000 ≤ a && a < 0x080000000000 then
    .window (Fin.ofNat 4 ((a - 0x040000000000) / 0x010000000000)) (a % 0x010000000000)
  else .unmapped

/-- The host address of an offset in an outbound window (R27). -/
def State.hostAddr (s : State) (f : FuncId) (x : Nat) : Nat :=
  (s.host.funcs[f]).regs.obHigh % 2 ^ 24 * 2 ^ 40 + x % 2 ^ 40

/-- A posted write to host memory at an offset of the window (R27). -/
def State.hostWrite (s : State) (f : FuncId) (x : Nat) (data : Bytes) : State :=
  s.emit (.hostWrite f (s.hostAddr f x) data)

/-- A byte string of a sparse byte map, an unlisted byte reading 0. -/
def nbytes (m : NMap Byte) (a n : Nat) : Bytes := memBytes m a n

/-- A byte string written into a fixed-size register image. -/
def overlay (image : Bytes) (off : Nat) (data : Bytes) : Bytes :=
  let n := max image.length (off + data.length)
  let img := padTo n image
  img.take off ++ data ++ img.drop (off + data.length)

end Sys2Proof.Machine
end

