-- ==== Sys2Proof/Machine/BootRecord.lean ====
section
/-! DEFINITION. The boot record (R623, R624): its 512 bytes, its shadow and its two flash copies. -/

namespace Sys2Proof.Machine

/-- MIG_PROGRESS as a 64-bit word (R430). -/
def MigProgress.word (m : MigProgress) : Nat := m.units + m.fromRank * 2 ^ 19 + m.toRank * 2 ^ 23 + m.state * 2 ^ 27

/-- One step's 16 bytes (R623). -/
def StepRec.bytes (r : StepRec) : Bytes :=
  toLE 8 r.ts ++ toLE 1 r.attempts ++ toLE 1 r.outcome ++ toLE 2 r.cause ++ toLE 4 r.detail

/-- The boot record with a GENERATION and a write stamp (R623). -/
def State.bootRecord (s : State) (gen : Nat) (stamp : Stamp) : Bytes :=
  let b := s.boot
  let body :=
    toLE 4 0x44524342 ++ toLE 4 gen ++ stamp.bytes ++ toLE 8 s.time.ts ++ toLE 8 (s.time.dist / 65536)
      ++ toLE 8 (s.time.rev / 65536) ++ toLE 1 b.kind ++ toLE 1 b.tokenAtS12 ++ toLE 1 b.ridgeSlot ++ toLE 1 b.tileSlot
      ++ toLE 1 b.storeHalf ++ zeros 3 ++ s.dram.train.toList.flatMap (toLE 1) ++ toLE 1 b.coursesOff ++ toLE 1 b.banksOff
      ++ toLE 2 b.slicesOff ++ toLE 1 (b.portsOff % 16 + if b.eaveOff then 16 else 0) ++ toLE 1 b.rateSteps
      ++ toLE 2 s.dram.ranksOut ++ toLE 8 s.dram.mig.word ++ b.steps.toList.flatMap StepRec.bytes
      ++ b.limits.toList.flatMap (toLE 1) ++ zeros 207
  body ++ toLE 4 (crc32 body)

/-- The shadow follows the record at every step outcome (R624). -/
def State.writeShadow (s : State) : State :=
  s.modBoot fun b => { b with shadow := s.bootRecord b.generation ⟨s.time.ts, s.ridgeSrc, 0, s.tq8⟩ }

/-- The domain on whose clock the boot-flash controller runs (R17, R18): that of the Ridge that holds the token, or Ridge A's before
the first grant. [log 230 DEDUCED] -/
def State.xspiDomain (s : State) : Nat := if s.finial.holder == 2 then 16 else 15

/-- A domain's clock runs (R19): one of PLLs with the main rails up, a course unless Parked, the Eave domain unless off for the
session, the time base unless stopped, and the standby domain always while its supply stands. -/
def State.domainRuns (s : State) (n : Nat) : Bool :=
  if n == 18 then s.boot.standbyUp else
  s.boot.mainUp &&
    if h : 1 ≤ n ∧ n ≤ 8 then 0 < (s.power.courses[n - 1]).mhz
    else if n == 12 then !s.boot.eaveOff
    else if n == 17 then s.time.run
    else 9 ≤ n && n ≤ 16

/-- The flash copy is written to the older of the two copies, GENERATION raised by one (R624);
its controller runs on the clock of R18. [log 230 DEDUCED] -/
def State.writeBootFlash (s : State) : State :=
  if !s.domainRuns s.xspiDomain then s else
  let (st, s) := s.stamp s.ridgeSrc
  let gen := (s.boot.generation + 1) % 2 ^ 32
  let r := s.bootRecord gen st
  s.modBoot fun b => { b with generation := gen, flash := b.flash.set (Fin.ofNat 2 gen) r, shadow := r }

end Sys2Proof.Machine
end

