-- ==== Sys2Proof/Machine/Compress.lean ====
section
/-! DEFINITION. The formats of the Yelm engines (R454): decompression with its named errors (R463, R464), and
compression, whose bytes the spec fixes as a function it does not give (R455). -/

namespace Sys2Proof.Machine

/-- Status codes of R659 that the engines report. -/
def stNoGain : Nat := 0x4001
/-- ILLEGAL_CODE. -/
def stIllegalCode : Nat := 0x4002
/-- DIST_TOO_FAR. -/
def stDistTooFar : Nat := 0x4003
/-- LEN_OVERRUN. -/
def stLenOverrun : Nat := 0x4004
/-- CHECK_MISMATCH. -/
def stCheckMismatch : Nat := 0x4005
/-- TRUNCATED_INPUT. -/
def stTruncated : Nat := 0x4006
/-- POISONED. -/
def stPoisoned : Nat := 0x4007
/-- OUT_FULL. -/
def stOutFull : Nat := 0x3003

/-- A stream being decoded: input as one little-endian number, bit position, output newest byte first. -/
structure Dec where
  input : Nat
  bits : Nat
  pos : Nat
  /-- Output of this stream, newest first, and its length. -/
  out : Bytes
  outLen : Nat
  /-- Most output bytes that may be written. -/
  limit : Nat
  /-- The stop met: a status and the bit at which it was met. -/
  stop : Option (Nat × Nat)

/-- The decoder stops with a status where it stands. -/
def Dec.fail (d : Dec) (status : Nat) : Dec := if d.stop.isSome then d else { d with stop := some (status, d.pos) }

/-- n bits, least significant first; past the end the input is truncated. -/
def Dec.take (d : Dec) (n : Nat) : Nat × Dec :=
  if d.stop.isSome then (0, d)
  else if d.bits < d.pos + n then (0, d.fail stTruncated)
  else (d.input / 2 ^ d.pos % 2 ^ n, { d with pos := d.pos + n })

/-- One output byte; with no room the job is full. -/
def Dec.put (d : Dec) (b : Byte) : Dec :=
  if d.stop.isSome then d
  else if d.limit ≤ d.outLen then d.fail stOutFull
  else { d with out := b :: d.out, outLen := d.outLen + 1 }

/-- Skips to the next byte boundary. -/
def Dec.align (d : Dec) : Dec := { d with pos := (d.pos + 7) / 8 * 8 }

/-- n whole bytes as a little-endian number. -/
def Dec.bytes (d : Dec) (n : Nat) : Nat × Dec := d.take (8 * n)

/-- Copies n bytes of the input to the output. -/
def Dec.literals : Nat → Dec → Dec
  | 0, d => d
  | n + 1, d =>
    if d.stop.isSome then d else
    let (b, d) := d.take 8
    Dec.literals n (if d.stop.isSome then d else d.put (BitVec.ofNat 8 b))

/-- Copies n bytes from a distance back in the output. -/
def Dec.copy (dist : Nat) : Nat → Dec → Dec
  | 0, d => d
  | n + 1, d => if d.stop.isSome then d else Dec.copy dist n (d.put (d.out.getD (dist - 1) 0))

/-- A Huffman code: how many codes of each length, and the symbols in code order. -/
structure Huff where
  counts : List Nat
  symbols : List Nat

/-- Unused code space after lengths 1 to 15; none when the lengths over-subscribe it. -/
def huffLeft : List Nat → Option Nat
  | cs => cs.foldl (fun (left : Option Nat) c => left.bind fun l => if 2 * l < c then none else some (2 * l - c)) (some 1)

/-- The code of a list of lengths by symbol; invalid when over-subscribed, or incomplete unless it is one code of one
bit or, for distances, no code at all (RFC 1951 section 3.2.7). -/
def huffOf (lens : List Nat) (single : Bool) : Option Huff :=
  let idx := lens.zip (List.range lens.length)
  let ofLen := fun n => (idx.filter (·.1 == n)).map (·.2)
  let syms := (upFrom 1 15).flatMap ofLen
  let counts := (upFrom 1 15).map fun n => (ofLen n).length
  match huffLeft counts with
  | none => none
  | some 0 => some ⟨counts, syms⟩
  | some _ => if single && (syms.isEmpty || (syms.length == 1 && counts.head? == some 1)) then some ⟨counts, syms⟩ else none

/-- Decodes one symbol: code, first code and index advance with the length. -/
def huffGo (syms : List Nat) : List Nat → Nat → Nat → Nat → Dec → Option Nat × Dec
  | [], _, _, _, d => (none, d.fail stIllegalCode)
  | c :: cs, code, first, index, d =>
    let (b, d) := d.take 1
    if d.stop.isSome then (none, d) else
    let code := code + b
    if code < first + c then (syms[index + (code - first)]?, d)
    else huffGo syms cs (2 * code) (2 * (first + c)) (index + c) d

/-- The next symbol under a code. -/
def Dec.symbol (h : Huff) (d : Dec) : Option Nat × Dec := huffGo h.symbols h.counts 0 0 0 d

/-- Base and extra bits of length codes 257 to 285. -/
def lenTable : List (Nat × Nat) :=
  [(3,0),(4,0),(5,0),(6,0),(7,0),(8,0),(9,0),(10,0),(11,1),(13,1),(15,1),(17,1),(19,2),(23,2),(27,2),(31,2),
   (35,3),(43,3),(51,3),(59,3),(67,4),(83,4),(99,4),(115,4),(131,5),(163,5),(195,5),(227,5),(258,0)]

/-- Base and extra bits of distance codes 0 to 29. -/
def distTable : List (Nat × Nat) :=
  [(1,0),(2,0),(3,0),(4,0),(5,1),(7,1),(9,2),(13,2),(17,3),(25,3),(33,4),(49,4),(65,5),(97,5),(129,6),(193,6),
   (257,7),(385,7),(513,8),(769,8),(1025,9),(1537,9),(2049,10),(3073,10),(4097,11),(6145,11),(8193,12),(12289,12),
   (16385,13),(24577,13)]

/-- The symbols of one compressed block until its end-of-block code. -/
def inflateCodes (lit dist : Huff) : Nat → Dec → Dec
  | 0, d => d
  | fuel + 1, d =>
    match d.symbol lit with
    | (none, d) => d
    | (some sym, d) =>
      if sym < 256 then
        let d := d.put (BitVec.ofNat 8 sym)
        if d.stop.isSome then d else inflateCodes lit dist fuel d
      else if sym == 256 then d
      else match lenTable[sym - 257]? with
        | none => d.fail stLenOverrun
        | some (lb, le) =>
          let (x, d) := d.take le
          match d.symbol dist with
          | (none, d) => d
          | (some ds, d) =>
            match distTable[ds]? with
            | none => d.fail stDistTooFar
            | some (db, de) =>
              let (y, d) := d.take de
              if d.stop.isSome then d
              else if d.outLen < db + y then d.fail stDistTooFar
              else
                let d := Dec.copy (db + y) (lb + x) d
                if d.stop.isSome then d else inflateCodes lit dist fuel d

/-- Lengths of a dynamic block: literal runs and repeats, until n lengths stand (newest first). -/
def dynLengths (code : Huff) (n : Nat) : Nat → List Nat → Dec → List Nat × Dec
  | 0, acc, d => (acc, d)
  | fuel + 1, acc, d =>
    if n ≤ acc.length then (acc, if n < acc.length then d.fail stIllegalCode else d) else
    match d.symbol code with
    | (none, d) => (acc, d)
    | (some s, d) =>
      if s < 16 then dynLengths code n fuel (s :: acc) d
      else
        let (base, extra) := if s == 16 then (3, 2) else if s == 17 then (3, 3) else (11, 7)
        let (x, d) := d.take extra
        if d.stop.isSome then (acc, d)
        else if s == 16 && acc.isEmpty then (acc, d.fail stIllegalCode)
        else dynLengths code n fuel (List.replicate (base + x) (if s == 16 then acc.headD 0 else 0) ++ acc) d

/-- Order in which code-length code lengths are sent. -/
def clOrder : List Nat := [16, 17, 18, 0, 8, 7, 9, 6, 10, 5, 11, 4, 12, 3, 13, 2, 14, 1, 15]

/-- k three-bit numbers. -/
def take3s : Nat → Dec → List Nat × Dec
  | 0, d => ([], d)
  | k + 1, d =>
    let (x, d) := d.take 3
    let (r, d) := take3s k d
    (x :: r, d)

/-- The codes of a dynamic block. -/
def dynCodes (d : Dec) : Option (Huff × Huff) × Dec :=
  let (hlit, d) := d.take 5
  let (hdist, d) := d.take 5
  let (hclen, d) := d.take 4
  let (cl, d) := take3s (hclen + 4) d
  if d.stop.isSome then (none, d) else
  let lens := (List.range 19).map fun s =>
    match (clOrder.zip cl).find? (·.1 == s) with
    | some (_, n) => n
    | none => 0
  if 29 < hlit then (none, d.fail stIllegalCode) else
  match huffOf lens false with
  | none => (none, d.fail stIllegalCode)
  | some code =>
    let n := hlit + 257 + hdist + 1
    let (rev, d) := dynLengths code n (n + 1) [] d
    if d.stop.isSome then (none, d) else
    let all := rev.reverse
    let ll := all.take (hlit + 257)
    if ll.getD 256 0 == 0 then (none, d.fail stIllegalCode) else
    match huffOf ll true, huffOf (all.drop (hlit + 257)) true with
    | some a, some b => (some (a, b), d)
    | _, _ => (none, d.fail stIllegalCode)

/-- Lengths of the fixed literal code. -/
def fixedLit : List Nat :=
  List.replicate 144 8 ++ List.replicate 112 9 ++ List.replicate 24 7 ++ List.replicate 8 8

/-- DEFLATE blocks until the last one ends (RFC 1951). -/
def inflateBlocks : Nat → Dec → Dec
  | 0, d => d
  | fuel + 1, d =>
    let (last, d) := d.take 1
    let (type, d) := d.take 2
    if d.stop.isSome then d else
    let d :=
      match type with
      | 0 =>
        let d := d.align
        let (n, d) := d.bytes 2
        let (c, d) := d.bytes 2
        if d.stop.isSome then d
        else if n + c != 0xFFFF then d.fail stIllegalCode
        else Dec.literals n d
      | 1 =>
        match huffOf fixedLit true, huffOf (List.replicate 32 5) true with
        | some a, some b => inflateCodes a b (d.bits + 1) d
        | _, _ => d
      | 2 =>
        match dynCodes d with
        | (some (a, b), d) => inflateCodes a b (d.bits + 1) d
        | (none, d) => d
      | _ => d.fail stIllegalCode
    if d.stop.isSome || last == 1 then d else inflateBlocks fuel d

/-- A decoder at the start of an input. -/
def Dec.start (input : Bytes) (limit : Nat) : Dec :=
  { input := leNat input, bits := 8 * input.length, pos := 0, out := [], outLen := 0, limit := limit, stop := none }

/-- What a stream ends with: the decoder, and computed and stored check values with whether each part agreed. -/
structure StreamEnd where
  dec : Dec
  computed : Nat
  stored : Nat
  good : Bool

/-- A zlib stream (RFC 1950); FDICT is outside R454. -/
def decZlib (d : Dec) : StreamEnd :=
  let (cmf, d) := d.bytes 1
  let (flg, d) := d.bytes 1
  if d.stop.isSome then ⟨d, 0, 0, true⟩
  else if cmf % 16 != 8 || 7 < cmf / 16 || (cmf * 256 + flg) % 31 != 0 || bitAt flg 5 then ⟨d.fail stIllegalCode, 0, 0, true⟩
  else
    let d := inflateBlocks (d.bits + 1) d
    if d.stop.isSome then ⟨d, 0, 0, true⟩ else
    let (v, d) := d.align.bytes 4
    if d.stop.isSome then ⟨d, 0, 0, true⟩ else
    let a := adler32 d.out.reverse
    let stored := beNat (toLE 4 v)
    ⟨d, a, stored, a == stored⟩

/-- Skips a zero-terminated header field. -/
def skipZ : Nat → Dec → Dec
  | 0, d => d
  | fuel + 1, d =>
    let (b, d) := d.bytes 1
    if d.stop.isSome || b == 0 then d else skipZ fuel d

/-- A gzip member (RFC 1952). -/
def decGzip (input : Bytes) (d : Dec) : StreamEnd :=
  let (id, d) := d.bytes 2
  let (cm, d) := d.bytes 1
  let (flg, d) := d.bytes 1
  let (_, d) := d.bytes 6
  if d.stop.isSome then ⟨d, 0, 0, true⟩
  else if id != 0x8B1F || cm != 8 || 32 ≤ flg then ⟨d.fail stIllegalCode, 0, 0, true⟩
  else
    let d := if bitAt flg 2 then let (n, d) := d.bytes 2; (d.bytes n).2 else d
    let d := if bitAt flg 3 then skipZ (d.bits + 1) d else d
    let d := if bitAt flg 4 then skipZ (d.bits + 1) d else d
    let headerLen := d.pos / 8
    let (hcrc, d) := if bitAt flg 1 then d.bytes 2 else (0, d)
    let hgood := !bitAt flg 1 || hcrc == crc32 (input.take headerLen) % 65536
    if d.stop.isSome then ⟨d, 0, 0, true⟩ else
    let d := inflateBlocks (d.bits + 1) d
    if d.stop.isSome then ⟨d, 0, 0, true⟩ else
    let (crc, d) := d.align.bytes 4
    let (isize, d) := d.bytes 4
    if d.stop.isSome then ⟨d, 0, 0, true⟩ else
    let c := crc32 d.out.reverse
    ⟨d, c, crc, hgood && c == crc && isize == d.outLen % 2 ^ 32⟩

/-- The rest of a length whose nibble is 15: bytes of 255 and a last one. -/
def lz4More (endBit : Nat) : Nat → Nat → Dec → Nat × Dec
  | 0, n, d => (n, d)
  | fuel + 1, n, d =>
    if endBit ≤ d.pos then (n, d.fail stLenOverrun) else
    let (b, d) := d.bytes 1
    if d.stop.isSome then (n, d) else if b == 255 then lz4More endBit fuel (n + 255) d else (n + b, d)

/-- The sequences of an LZ4 block that ends at a bit; `base` is where the block's history may begin in the output, and
`short` the code for a block that ends inside a sequence. [log 31 DEDUCED] -/
def lz4Seqs (endBit base short : Nat) : Nat → Dec → Dec
  | 0, d => d
  | fuel + 1, d =>
    if endBit < d.pos + 8 then d.fail short else
    let (tok, d) := d.bytes 1
    let (lit, d) := if tok / 16 == 15 then lz4More endBit (d.bits + 1) 15 d else (tok / 16, d)
    if d.stop.isSome then d
    else if endBit < d.pos + 8 * lit then d.fail stLenOverrun
    else
      let d := Dec.literals lit d
      if d.stop.isSome then d
      else if d.pos == endBit then d
      else if endBit < d.pos + 16 then d.fail short
      else
        let (off, d) := d.bytes 2
        let (m, d) := if tok % 16 == 15 then lz4More endBit (d.bits + 1) 15 d else (tok % 16, d)
        if d.stop.isSome then d
        else if off == 0 || d.outLen - base < off then d.fail stDistTooFar
        else
          let d := Dec.copy off (m + 4) d
          if d.stop.isSome then d else lz4Seqs endBit base short fuel d

/-- Blocks of an LZ4 frame until its end mark. -/
def lz4Blocks (maxBlock : Nat) (independent blockSum verify : Bool) (size : Option Nat) : Nat → Bool → Dec → Dec × Bool
  | 0, ok, d => (d, ok)
  | fuel + 1, ok, d =>
    let (h, d) := d.bytes 4
    if d.stop.isSome || h == 0 then (d, ok) else
    let n := h % 2 ^ 31
    if maxBlock < n then (d.fail stLenOverrun, ok) else
    if d.bits < d.pos + 8 * n then (d.fail stTruncated, ok) else
    let raw := toLE n (d.input / 2 ^ d.pos)
    let before := d.outLen
    let d := if 2 ^ 31 ≤ h then Dec.literals n d
             else lz4Seqs (d.pos + 8 * n) (if independent then before else 0) stLenOverrun (d.bits + 1) d
    if d.stop.isSome then (d, ok)
    else if maxBlock < d.outLen - before then (d.fail stLenOverrun, ok)
    else if (size.map fun z => decide (z < d.outLen)) == some true then (d.fail stLenOverrun, ok)
    else
      let (sum, d) := if blockSum then d.bytes 4 else (0, d)
      lz4Blocks maxBlock independent blockSum verify size fuel (ok && (!blockSum || sum == xxh32 raw)) d

/-- An LZ4 frame; a dictionary ID and skippable frames are outside R454. -/
def decLz4Frame (input : Bytes) (d : Dec) : StreamEnd :=
  let (magic, d) := d.bytes 4
  let (flg, d) := d.bytes 1
  let (bd, d) := d.bytes 1
  if d.stop.isSome then ⟨d, 0, 0, true⟩
  else if magic != 0x184D2204 || flg / 64 != 1 || bitAt flg 1 || bitAt flg 0 || bd % 16 != 0 || bd / 16 < 4 || 7 < bd / 16
  then ⟨d.fail stIllegalCode, 0, 0, true⟩
  else
    let (size, d) := if bitAt flg 3 then d.bytes 8 else (0, d)
    let headEnd := d.pos / 8
    let (hc, d) := d.bytes 1
    if d.stop.isSome then ⟨d, 0, 0, true⟩
    else if hc != xxh32 (sliceB 4 (headEnd - 4) input) / 256 % 256 then ⟨d.fail stIllegalCode, 0, 0, true⟩
    else
      let z := if bitAt flg 3 then some size else none
      let (d, ok) := lz4Blocks (2 ^ (8 + 2 * (bd / 16))) (bitAt flg 5) (bitAt flg 4) true z (d.bits + 1) true d
      if d.stop.isSome then ⟨d, 0, 0, true⟩ else
      let sizeOk := z.all (· == d.outLen)
      if !bitAt flg 2 then ⟨d, 0, 0, ok && sizeOk⟩ else
      let (v, d) := d.bytes 4
      if d.stop.isSome then ⟨d, 0, 0, true⟩ else
      let c := xxh32 d.out.reverse
      ⟨d, c, v, ok && sizeOk && c == v⟩

/-- One stream of a format decoded. [log 31 DEDUCED] -/
def decStream (format : Nat) (input : Bytes) (limit : Nat) : StreamEnd :=
  let d := Dec.start input limit
  match format with
  | 0 => ⟨(inflateBlocks (d.bits + 1) d), 0, 0, true⟩
  | 1 => decZlib d
  | 2 => decGzip input d
  | 3 => ⟨lz4Seqs d.bits 0 stTruncated (d.bits + 1) d, 0, 0, true⟩
  | _ => decLz4Frame input d

/-- The outcome of a decompression (R463, R467). -/
structure YelmOut where
  status : Nat
  output : Bytes
  consumed : Nat
  errorBit : Nat
  computed : Nat
  stored : Nat
deriving DecidableEq, Repr

/-- Decompression under a VALIDATE mode: 1 NAMED, 2 CHECK, 3 BOTH (R463). -/
def yelmDecompress (format validate : Nat) (input : Bytes) (limit : Nat) : YelmOut :=
  let e := decStream format input limit
  let d := e.dec
  let out := d.out.reverse
  let endByte := ceilDiv d.pos 8
  let named := validate == 1 || validate == 3
  let mk := fun (st bit : Nat) => (⟨st, out, min (if st == stOutFull then d.pos / 8 else endByte) input.length, bit, e.computed, e.stored⟩ : YelmOut)
  match d.stop with
  | some (st, bit) =>
    if st == stOutFull then mk st 0xFFFFFFFF
    else if named then mk st bit else mk stCheckMismatch 0xFFFFFFFF
  | none =>
    if named && endByte < input.length then
      let second := format == 2 && sliceB endByte 2 input == [0x1F, 0x8B]
      mk (if second then stIllegalCode else stLenOverrun) (8 * endByte)
    else if (validate == 2 || validate == 3) && !e.good then mk stCheckMismatch 0xFFFFFFFF
    else mk 0 0xFFFFFFFF

/-- Stored DEFLATE blocks of an input. -/
def storedBlocks : Nat → Bytes → Bytes
  | 0, _ => []
  | fuel + 1, bs =>
    let c := bs.take 65535
    let last := bs.length ≤ 65535
    [if last then 1 else 0] ++ toLE 2 c.length ++ toLE 2 (65535 - c.length) ++ c
      ++ (if last then [] else storedBlocks fuel (bs.drop 65535))

/-- Uncompressed LZ4 frame blocks of 4 MiB. [log 31 DEDUCED] -/
def rawLz4Blocks : Nat → Bytes → Bytes
  | 0, _ => toLE 4 0
  | fuel + 1, bs =>
    if bs.isEmpty then toLE 4 0 else
    let c := bs.take 4194304
    toLE 4 (2 ^ 31 + c.length) ++ c ++ rawLz4Blocks fuel (bs.drop 4194304)

/-- A literal length's extra bytes. -/
def lz4LenBytes (n : Nat) : Bytes :=
  if n < 15 then [] else List.replicate ((n - 15) / 255) 255 ++ [BitVec.ofNat 8 ((n - 15) % 255)]

/-- The header the engine writes for a format (R454). -/
def yelmHeader (format : Nat) : Bytes :=
  match format with
  | 1 => [0x78, 0x9C]
  | 2 => [0x1F, 0x8B, 8, 0, 0, 0, 0, 0, 0, 0xFF]
  | 4 =>
    let fd : Bytes := [0x64, 0x70]
    [0x04, 0x22, 0x4D, 0x18] ++ fd ++ [BitVec.ofNat 8 (xxh32 fd / 256)]
  | _ => []

/-- A valid stream of a format that stores its input. -/
def yelmStored (format : Nat) (input : Bytes) : Bytes :=
  let fuel := input.length + 1
  yelmHeader format ++ match format with
  | 0 => storedBlocks fuel input
  | 1 => storedBlocks fuel input ++ toBE 4 (adler32 input)
  | 2 => storedBlocks fuel input ++ toLE 4 (crc32 input) ++ toLE 4 input.length
  | 3 => [BitVec.ofNat 8 (16 * min 15 input.length)] ++ lz4LenBytes input.length ++ input
  | _ => rawLz4Blocks fuel input ++ toLE 4 (xxh32 input)

/-- The compressed stream: the free bytes of R455 where they are a valid stream of the input with the header of R454,
else the stored form, so that the output is always a valid stream. [log 119 DESIGN CHOICE] -/
def yelmCompress (format : Nat) (input : Bytes) : Bytes :=
  let c := Config.yelmBytes format input
  let r := yelmDecompress format (if format == 0 || format == 3 then 1 else 3) c input.length
  let h := yelmHeader format
  if r.status == 0 && r.output == input && c.take h.length == h then c else yelmStored format input

end Sys2Proof.Machine
end

