-- ==== Sys2Proof/Machine/Flags.lean ====
section
/-! DEFINITION. IEEE 754 arithmetic (R8, R333) and its flags FX (R323): exact arithmetic on dyadic numbers, one
rounding to nearest with ties to even, and the flag rules. -/

namespace Sys2Proof.Machine

/-- A binary format: significand bits, least exponent of a normal number, and width. -/
structure FFmt where
  p : Nat
  emin : Int
  width : Nat
deriving DecidableEq, Repr

/-- binary32. -/
def f32 : FFmt := { p := 24, emin := -126, width := 32 }
/-- binary64. -/
def f64 : FFmt := { p := 53, emin := -1022, width := 64 }

/-- FX as a 5-bit field: invalid, divide by zero, overflow, underflow, inexact, from bit 0 (R323). -/
abbrev Fx := BitVec 5

/-- The invalid flag. -/
def fxInvalid : Fx := 1
/-- The divide-by-zero flag. -/
def fxDivZero : Fx := 2
/-- The overflow flag. -/
def fxOverflow : Fx := 4
/-- The underflow flag. -/
def fxUnderflow : Fx := 8
/-- The inexact flag. -/
def fxInexact : Fx := 16

/-- A result with the flags it raises. -/
structure FRes where
  bits : Nat
  fx : Fx
deriving DecidableEq, Repr

/-- A floating-point datum: sign and class; a finite one is mant × 2^exp. -/
inductive FVal where
  | nan (signalling : Bool)
  | inf (neg : Bool)
  | fin (neg : Bool) (mant : Nat) (exp : Int)
deriving DecidableEq, Repr

/-- Bits of the fraction field. -/
def FFmt.fracBits (f : FFmt) : Nat := f.p - 1

/-- All-ones exponent field. -/
def FFmt.expMax (f : FFmt) : Nat := 2 ^ (f.width - f.p) - 1

/-- Bits of a positive infinity. -/
def FFmt.infBits (f : FFmt) : Nat := f.expMax * 2 ^ f.fracBits

/-- The canonical quiet NaN (R74). -/
def FFmt.qnan (f : FFmt) : Nat := f.infBits + 2 ^ (f.fracBits - 1)

/-- The sign bit. -/
def FFmt.signBit (f : FFmt) : Nat := 2 ^ (f.width - 1)

/-- Reads a bit pattern. -/
def FFmt.unpack (f : FFmt) (x : Nat) : FVal :=
  let b := x % 2 ^ f.width
  let neg := bitAt b (f.width - 1)
  let e := bitsOf b (f.width - 2) f.fracBits
  let m := b % 2 ^ f.fracBits
  if e == f.expMax then
    if m == 0 then .inf neg else .nan (!bitAt m (f.fracBits - 1))
  else if e == 0 then .fin neg m (f.emin - f.fracBits)
  else .fin neg (m + 2 ^ f.fracBits) (f.emin - f.fracBits + (e - 1))

/-- Number of bits of a number without leading zeros. -/
def bitLen (n : Nat) : Nat := if n == 0 then 0 else Nat.log2 n + 1

/-- Sign applied to a magnitude's bits. -/
def FFmt.signed (f : FFmt) (neg : Bool) (bits : Nat) : Nat := if neg then bits + f.signBit else bits

/-- Nearest, ties to even: m / 2^k, the discarded part non-zero beyond its bits when sticky. -/
def roundShift (m k : Nat) (sticky : Bool) : Nat × Bool :=
  if k == 0 then (m, sticky) else
  let q := m / 2 ^ k
  let r := m % 2 ^ k
  let half := 2 ^ (k - 1)
  let up := half < r || (r == half && (sticky || q % 2 == 1))
  (if up then q + 1 else q, r != 0 || sticky)

/-- Rounds (m + δ) × 2^e, 0 < δ < 1 when sticky, to the format (R333). [log 73 DESIGN CHOICE] -/
def FFmt.round (f : FFmt) (neg : Bool) (m : Nat) (e : Int) (sticky : Bool) : FRes :=
  if m == 0 && !sticky then ⟨f.signed neg 0, 0⟩ else
  let len := bitLen m
  let qMin : Int := f.emin - f.fracBits
  let q := max (e + len - f.p) qMin
  let sh := q - e
  let (mant, inexact) := if sh ≤ 0 then (m * 2 ^ (-sh).toNat, sticky) else roundShift m sh.toNat sticky
  let (mant, q) := if mant == 2 ^ f.p then (mant / 2, q + 1) else (mant, q)
  let expField : Int := if mant < 2 ^ f.fracBits then 0 else q - qMin + 1
  if (f.expMax : Int) ≤ expField then ⟨f.signed neg f.infBits, fxOverflow ||| fxInexact⟩ else
  let bits := if expField == 0 then mant else mant - 2 ^ f.fracBits + expField.toNat * 2 ^ f.fracBits
  let tinyBefore := e + len ≤ f.emin
  let qFree := e + len - f.p
  let (mFree, _) := if qFree - e ≤ 0 then (m * 2 ^ (e - qFree).toNat, sticky) else roundShift m (qFree - e).toNat sticky
  let tinyAfter := mFree < 2 ^ f.p || qFree + f.p < f.emin
  let tiny := tinyBefore && (tinyAfter || !Config.tininessAfterRounding)
  let fx := (if inexact then fxInexact else 0) ||| (if tiny && inexact then fxUnderflow else 0)
  ⟨f.signed neg bits, fx⟩

/-- A NaN result: canonical, invalid when an operand signals. -/
def FFmt.nanRes (f : FFmt) (signal : Bool) : FRes := ⟨f.qnan, if signal then fxInvalid else 0⟩

/-- The datum signals. -/
def FVal.signals : FVal → Bool
  | .nan s => s
  | _ => false

/-- The datum is a NaN. -/
def FVal.isNan : FVal → Bool
  | .nan _ => true
  | _ => false

/-- The datum with its sign changed. -/
def FVal.negate : FVal → FVal
  | .nan s => .nan s
  | .inf n => .inf (!n)
  | .fin n m e => .fin (!n) m e

/-- Exact sum of two finite data as sign, magnitude and exponent. -/
def addExact (na : Bool) (ma : Nat) (ea : Int) (nb : Bool) (mb : Nat) (eb : Int) : Int × Int :=
  let e := min ea eb
  let x : Int := (ma * 2 ^ (ea - e).toNat : Nat)
  let y : Int := (mb * 2 ^ (eb - e).toNat : Nat)
  ((if na then -x else x) + (if nb then -y else y), e)

/-- Sum of two data (R333). -/
def FFmt.addV (f : FFmt) (a b : FVal) : FRes :=
  match a, b with
  | .nan s, y => f.nanRes (s || y.signals)
  | _, .nan s => f.nanRes s
  | .inf n, .inf k => if n == k then ⟨f.signed n f.infBits, 0⟩ else f.nanRes true
  | .inf n, .fin .. => ⟨f.signed n f.infBits, 0⟩
  | .fin .., .inf n => ⟨f.signed n f.infBits, 0⟩
  | .fin na ma ea, .fin nb mb eb =>
    let (v, e) := addExact na ma ea nb mb eb
    if v == 0 then ⟨f.signed (na && nb) 0, 0⟩ else f.round (v < 0) v.natAbs e false

/-- FADD. -/
def FFmt.add (f : FFmt) (a b : Nat) : FRes := f.addV (f.unpack a) (f.unpack b)

/-- FSUB. -/
def FFmt.sub (f : FFmt) (a b : Nat) : FRes := f.addV (f.unpack a) (f.unpack b).negate

/-- FMUL. -/
def FFmt.mul (f : FFmt) (a b : Nat) : FRes :=
  match f.unpack a, f.unpack b with
  | .nan s, y => f.nanRes (s || y.signals)
  | _, .nan s => f.nanRes s
  | .inf n, .inf k => ⟨f.signed (n != k) f.infBits, 0⟩
  | .inf n, .fin k m _ => if m == 0 then f.nanRes true else ⟨f.signed (n != k) f.infBits, 0⟩
  | .fin k m _, .inf n => if m == 0 then f.nanRes true else ⟨f.signed (n != k) f.infBits, 0⟩
  | .fin na ma ea, .fin nb mb eb => f.round (na != nb) (ma * mb) (ea + eb) false

/-- FDIV. -/
def FFmt.div (f : FFmt) (a b : Nat) : FRes :=
  match f.unpack a, f.unpack b with
  | .nan s, y => f.nanRes (s || y.signals)
  | _, .nan s => f.nanRes s
  | .inf _, .inf _ => f.nanRes true
  | .inf n, .fin k _ _ => ⟨f.signed (n != k) f.infBits, 0⟩
  | .fin n _ _, .inf k => ⟨f.signed (n != k) 0, 0⟩
  | .fin na ma ea, .fin nb mb eb =>
    if mb == 0 then
      if ma == 0 then f.nanRes true else ⟨f.signed (na != nb) f.infBits, fxDivZero⟩
    else
      let k := 2 * f.p + 4 + bitLen mb
      let n := ma * 2 ^ k
      f.round (na != nb) (n / mb) (ea - eb - k) (n % mb != 0)

/-- FSQRT. -/
def FFmt.sqrt (f : FFmt) (a : Nat) : FRes :=
  match f.unpack a with
  | .nan s => f.nanRes s
  | .inf n => if n then f.nanRes true else ⟨f.infBits, 0⟩
  | .fin n m e =>
    if m == 0 then ⟨f.signed n 0, 0⟩ else if n then f.nanRes true else
    let e2 := if e % 2 == 0 then e else e - 1
    let m2 := if e % 2 == 0 then m else 2 * m
    let k := f.p + 2
    let x := m2 * 2 ^ (2 * k)
    let r := Nat.sqrt x
    f.round false r (e2 / 2 - k) (r * r != x)

/-- a × b + c with one rounding; c negated when sub (R331, VFMA, VFMS). [log 74 DESIGN CHOICE] -/
def FFmt.fma (f : FFmt) (sub : Bool) (a b c : Nat) : FRes :=
  let va := f.unpack a
  let vb := f.unpack b
  let vc := if sub then (f.unpack c).negate else f.unpack c
  let sig := va.signals || vb.signals || vc.signals
  let zeroInf := match va, vb with
    | .inf _, .fin _ m _ => m == 0
    | .fin _ m _, .inf _ => m == 0
    | _, _ => false
  if va.isNan || vb.isNan then f.nanRes sig
  else if zeroInf then
    if vc.isNan then f.nanRes (sig || Config.fusedZeroInfNanInvalid) else f.nanRes true
  else if vc.isNan then f.nanRes sig
  else match va, vb, vc with
    | .fin na ma ea, .fin nb mb eb, .fin nc mc ec =>
      let (v, e) := addExact (na != nb) (ma * mb) (ea + eb) nc mc ec
      if v == 0 then ⟨f.signed ((na != nb) && nc) 0, 0⟩ else f.round (v < 0) v.natAbs e false
    | .fin .., .fin .., .inf n => ⟨f.signed n f.infBits, 0⟩
    | x, y, z =>
      let sgn := fun (q : FVal) => match q with | .inf n => n | .fin n _ _ => n | .nan _ => false
      let np := sgn x != sgn y
      match z with
      | .inf n => if n == np then ⟨f.signed n f.infBits, 0⟩ else f.nanRes true
      | _ => ⟨f.signed np f.infBits, 0⟩

/-- The order key of a floating-point pattern (R73). -/
def FFmt.key (f : FFmt) (x : Nat) : Nat :=
  let b := x % 2 ^ f.width
  if bitAt b (f.width - 1) then 2 ^ f.width - 1 - b else b + f.signBit

/-- A NaN pattern made canonical, any other kept (R74). -/
def FFmt.canon (f : FFmt) (x : Nat) : Nat := if (f.unpack x).isNan then f.qnan else x % 2 ^ f.width

/-- FMIN by order key (R333). [log 87 DEDUCED] -/
def FFmt.minK (f : FFmt) (a b : Nat) : FRes := ⟨f.canon (if f.key b < f.key a then b else a), 0⟩
/-- FMAX by order key. [log 87 DEDUCED] -/
def FFmt.maxK (f : FFmt) (a b : Nat) : FRes := ⟨f.canon (if f.key a < f.key b then b else a), 0⟩

/-- Exact order of two data that are no NaN: less, equal. -/
def FFmt.cmp (f : FFmt) (a b : Nat) : Bool × Bool :=
  let r : FVal → Int × Int × Int := fun q => match q with
    | .fin n m e => let (v, x) := addExact n m e false 0 (f.emin - f.fracBits); (0, v, x)
    | .inf n => (if n then (-1 : Int) else 1, 0, 0)
    | .nan _ => (0, 0, 0)
  let (ia, va, xa) := r (f.unpack a)
  let (ib, vb, xb) := r (f.unpack b)
  if ia != ib then (ia < ib, false) else
  let e := min xa xb
  let p := va * 2 ^ (xa - e).toNat
  let q := vb * 2 ^ (xb - e).toNat
  (p < q, p == q)

/-- FEQ: quiet comparison, invalid only on a signalling NaN. [log 88 DEDUCED] -/
def FFmt.eqF (f : FFmt) (a b : Nat) : Bool × Fx :=
  let s := (f.unpack a).signals || (f.unpack b).signals
  if (f.unpack a).isNan || (f.unpack b).isNan then (false, if s then fxInvalid else 0) else ((f.cmp a b).2, 0)

/-- FLT, or FLE when orEqual: signalling comparison, invalid on any NaN. [log 88 DEDUCED] -/
def FFmt.ltF (f : FFmt) (orEqual : Bool) (a b : Nat) : Bool × Fx :=
  if (f.unpack a).isNan || (f.unpack b).isNan then (false, fxInvalid) else
  let (l, e) := f.cmp a b
  (l || (orEqual && e), 0)

/-- FTOI: toward zero, saturating at the w-bit signed range, NaN giving 0 (R333). -/
def FFmt.toInt (f : FFmt) (w : Nat) (a : Nat) : FRes :=
  let top : Int := 2 ^ (w - 1) - 1
  let bot : Int := -(2 ^ (w - 1))
  match f.unpack a with
  | .nan _ => ⟨0, fxInvalid⟩
  | .inf n => ⟨unsignedOf w (if n then bot else top), fxInvalid⟩
  | .fin n m e =>
    let mag := if 0 ≤ e then m * 2 ^ e.toNat else m / 2 ^ (-e).toNat
    let exact := 0 ≤ e || m % 2 ^ (-e).toNat == 0
    let v : Int := if n then -(mag : Int) else mag
    if top < v then ⟨unsignedOf w top, fxInvalid⟩
    else if v < bot then ⟨unsignedOf w bot, fxInvalid⟩
    else ⟨unsignedOf w v, if exact then 0 else fxInexact⟩

/-- ITOF of an exact integer. -/
def FFmt.ofInt (f : FFmt) (v : Int) : FRes := f.round (v < 0) v.natAbs 0 false

/-- FCVT from one format to another. -/
def FFmt.cvt (src dst : FFmt) (a : Nat) : FRes :=
  match src.unpack a with
  | .nan s => dst.nanRes s
  | .inf n => ⟨dst.signed n dst.infBits, 0⟩
  | .fin n m e => if m == 0 then ⟨dst.signed n 0, 0⟩ else dst.round n m e false

end Sys2Proof.Machine
end

