-- ==== Sys2Proof/Machine/Encode.lean ====
section
/-! DEFINITION. Column types and order keys (R73, R74), blocks, zone maps and encodings (R79 to R96), and the choice of
an encoding at sealing (R100). -/

namespace Sys2Proof.Machine

/-- Width in bytes of a fixed-width type; 0 for STR and BYTES (R73). -/
def tyWidth (ty : Nat) : Nat :=
  match ty with
  | 1 => 1 | 2 => 1 | 3 => 2 | 4 => 4 | 5 => 8 | 6 => 1 | 7 => 2 | 8 => 4 | 9 => 8 | 10 => 4 | 11 => 8 | 12 => 8 | 13 => 8
  | _ => 0

/-- A type code of the table (R73). -/
def tyKnown (ty : Nat) : Bool := 1 ≤ ty && ty ≤ 15
/-- STR or BYTES. -/
def tyVar (ty : Nat) : Bool := ty == 14 || ty == 15
/-- Signed integers and DEC64. -/
def tySigned (ty : Nat) : Bool := (2 ≤ ty && ty ≤ 5) || ty == 13
/-- F32 or F64. -/
def tyFloat (ty : Nat) : Bool := ty == 10 || ty == 11
/-- Bits of a fixed-width type. -/
def tyBits (ty : Nat) : Nat := 8 * tyWidth ty

/-- The order key of a fixed-width value (R73). -/
def orderKey (ty x : Nat) : Nat :=
  if tySigned ty then (x + 2 ^ (tyBits ty - 1)) % 2 ^ tyBits ty
  else if ty == 10 then f32.key x
  else if ty == 11 then f64.key x
  else x

/-- The value of an order key. -/
def unKey (ty k : Nat) : Nat :=
  let h := 2 ^ (tyBits ty - 1)
  if tySigned ty then (k + h) % 2 ^ tyBits ty
  else if tyFloat ty then if h ≤ k then k - h else 2 * h - 1 - k
  else k

/-- A stored value: NaN made canonical (R74). -/
def canonVal (ty : Nat) (v : Val) : Val :=
  match v with
  | .num x => .num (if ty == 10 then f32.canon x else if ty == 11 then f64.canon x else x % 2 ^ tyBits ty)
  | v => v

/-- The value is a NaN of its type. -/
def isNaNVal (ty : Nat) (v : Val) : Bool :=
  match v with
  | .num x => if ty == 10 then (f32.unpack x).isNan else if ty == 11 then (f64.unpack x).isNan else false
  | _ => false

/-- Order of two present values of a type (R73). -/
def valLt (ty : Nat) (a b : Val) : Bool :=
  match a, b with
  | .num x, .num y => orderKey ty x < orderKey ty y
  | .str x, .str y => bytesLt x y
  | _, _ => false

/-- The key a zone map holds for a value: its order key, or its 8-byte prefix (R81). -/
def zoneKey (ty : Nat) (v : Val) : Nat :=
  match v with
  | .num x => orderKey ty x
  | .str b => beNat (padTo 8 b)
  | .null => 0

/-- The least and the greatest present value. -/
def extremes (ty : Nat) (vals : List Val) : Option (Val × Val) :=
  vals.foldl (fun acc v =>
    if v == .null then acc else match acc with
    | none => some (v, v)
    | some (lo, hi) => some (if valLt ty v lo then v else lo, if valLt ty hi v then v else hi)) none

/-- Encodings the encoding table allows for a type (R87). -/
def encAllowed (ty enc : Nat) : Bool :=
  match enc with
  | 0 => true
  | 1 => ty == 1 || tySigned ty || (6 ≤ ty && ty ≤ 9)
  | 2 => !tyVar ty
  | 3 => tySigned ty || (6 ≤ ty && ty ≤ 9) || ty == 12
  | 4 => !tyVar ty
  | 5 => true
  | 6 => !tyVar ty
  | 7 => true
  | _ => false

/-- The values with the filler in place of each NULL (R85); none when every row is NULL. -/
def withFiller (vals : List Val) : List Val :=
  match vals.find? (· != .null) with
  | none => vals
  | some first => (vals.foldl (fun (acc : List Val × Val) v =>
      let x := if v == .null then acc.2 else v
      (x :: acc.1, x)) ([], first)).1.reverse

/-- The bits of a fixed-width value. -/
def Val.bitsD (v : Val) : Nat := match v with | .num x => x | _ => 0
/-- The bytes of a STR or BYTES value. -/
def Val.bytesD (v : Val) : Bytes := match v with | .str b => b | _ => []

/-- A packed array of items of B bits (R86). -/
def packBits (B : Nat) (items : List Nat) : Bytes :=
  toLE (ceilDiv (items.length * B) 64 * 8) (items.foldr (fun x acc => x % 2 ^ B + 2 ^ B * acc) 0)

/-- n items of B bits. -/
def unpackBits (B n : Nat) (bs : Bytes) : List Nat :=
  let x := leNat bs
  (List.range n).map fun i => x / 2 ^ (i * B) % 2 ^ B

/-- Zigzag code of a w-bit two's-complement value (R89). -/
def zigzag (w x : Nat) : Nat :=
  let v := signedOf w x
  (if 0 ≤ v then 2 * v else -2 * v - 1).toNat

/-- The w-bit value of a zigzag code. -/
def unzigzag (w z : Nat) : Nat := unsignedOf w (if z % 2 == 0 then (z / 2 : Int) else -((z / 2 : Nat) : Int) - 1)

/-- A value extended to 64 bits (R91). -/
def ext64 (ty x : Nat) : Nat := if tySigned ty then unsignedOf 64 (signedOf (tyBits ty) x) else x

/-- Pads to a multiple of 8 bytes. -/
def pad8 (bs : Bytes) : Bytes := padTo (ceilDiv bs.length 8 * 8) bs
/-- Pads to a multiple of 64 bytes. -/
def pad64 (bs : Bytes) : Bytes := padTo (ceilDiv bs.length 64 * 64) bs

/-- The validity bitmap (R84). -/
def bitmapOf (vals : List Val) : Bytes := packBits 1 (vals.map fun v => if v == .null then 0 else 1)

/-- Offsets of a list of byte strings, from 0 to the total length. -/
def offsetsOf (l : List Bytes) : List Nat :=
  (l.foldl (fun (acc : List Nat × Nat) b => ((acc.2 + b.length) :: acc.1, acc.2 + b.length)) ([0], 0)).1.reverse

/-- Maximal runs: value and exclusive end (R92). -/
def runsOf (vals : List Nat) : List (Nat × Nat) :=
  (vals.foldl (fun (acc : List (Nat × Nat) × Nat) v =>
    match acc.1 with
    | (x, _) :: r => if x == v then ((x, acc.2 + 1) :: r, acc.2 + 1) else ((v, acc.2 + 1) :: acc.1, acc.2 + 1)
    | [] => ([(v, acc.2 + 1)], acc.2 + 1)) ([], 0)).1.reverse

/-- The sorted dictionary of a chunk's present values (R93). -/
def dictOf (ty : Nat) (vals : List Val) : List Val :=
  let sorted := sortBy (valLt ty) (vals.filter (· != .null))
  (sorted.foldl (fun (acc : List Val) v => if acc.head? == some v then acc else v :: acc) []).reverse

/-- Bytes of a dictionary (R93). -/
def dictBytes (ty : Nat) (dict : List Val) : Bytes :=
  if tyVar ty then
    let bs := dict.map (·.bytesD)
    (offsetsOf bs).flatMap (toLE 4) ++ bs.flatten
  else dict.flatMap fun v => toLE (tyWidth ty) v.bitsD

/-- A body header (R83). -/
def bodyHeader (enc B : Nat) (bitmap : Bool) (inner count param : Nat) : Bytes :=
  toLE 1 enc ++ toLE 1 B ++ toLE 1 (if bitmap then 1 else 0) ++ toLE 1 inner ++ toLE 2 count ++ toLE 2 0 ++ toLE 8 param

/-- B, PARAM, COUNT and payload of a block in an encoding (R87 to R94). -/
def payloadOf (ty enc : Nat) (dict vals : List Val) : Nat × Nat × Nat × Bytes :=
  let w := tyWidth ty
  let filled := withFiller vals
  let xs := filled.map (·.bitsD)
  let ks := xs.map (orderKey ty)
  let lo := ks.foldl min (ks.headD 0)
  let hi := ks.foldl max 0
  match enc with
  | 0 =>
    if tyVar ty then
      let bs := vals.map (·.bytesD)
      (0, 0, 0, pad8 ((offsetsOf bs).flatMap (toLE 4)) ++ pad8 bs.flatten)
    else (8 * w, 0, 0, pad8 (xs.flatMap (toLE w)))
  | 1 =>
    let items := if tySigned ty then xs.map (zigzag (8 * w)) else xs
    let B := bitLen (items.foldl max 0)
    (B, 0, 0, packBits B items)
  | 2 =>
    let B := bitLen (hi - lo)
    (B, lo, 0, packBits B (ks.map (· - lo)))
  | 3 =>
    let es := xs.map (ext64 ty)
    let ds := (es.zip (es.drop 1)).map fun (a, b) => zigzag 64 (b + 2 ^ 64 - a)
    let B := bitLen (ds.foldl max 0)
    (B, es.headD 0, 0, packBits B ds)
  | 4 =>
    let rs := runsOf xs
    (0, 0, rs.length, pad8 (rs.flatMap fun r => toLE w r.1) ++ pad8 (rs.flatMap fun r => toLE 2 r.2))
  | 5 =>
    let B := max 1 (bitLen (dict.length - 1))
    (B, 0, 0, packBits B (filled.map fun v => dict.findIdx (· == v)))
  | _ =>
    let B := bitLen (hi - lo)
    (B, lo, 0, (List.range B).flatMap fun p => packBits 1 (ks.map fun k => (k - lo) / 2 ^ (B - 1 - p) % 2))

/-- A block body (R83); empty when every row is NULL (R81). -/
def bodyOf (ty enc : Nat) (dict vals : List Val) : Bytes :=
  if vals.all (· == .null) then [] else
  let (B, param, count, payload) := payloadOf ty enc dict vals
  let nulls := vals.any (· == .null)
  bodyHeader enc B nulls 0 count param ++ (if nulls then bitmapOf vals else []) ++ payload

/-- A YELM body (R95). -/
def yelmBody (fmt : Nat) (inner compressed : Bytes) : Bytes :=
  bodyHeader 7 0 false (fieldAt 0 1 inner) 0 (inner.length + fmt * 2 ^ 32) ++ compressed

/-- The engine format of a YELM_FMT. -/
def yelmFormat (fmt : Nat) : Nat := if fmt == 2 then 4 else 1

/-- A Yelm job that sealing submits: the bytes of the body, and the compressed length unless it ends with NO_GAIN (R462). -/
abbrev SealJob := Nat × Option Nat

/-- A body compressed when that saves a sixteenth (R100): the body kept, and the job submitted for it. -/
def compressBody (fmt enc : Nat) (body : Bytes) : Bytes × Option SealJob :=
  if fmt == 0 || enc == 6 || body.isEmpty then (body, none) else
  let c := yelmCompress (yelmFormat fmt) body
  if c.length ≤ body.length - ceilDiv body.length 16 then (yelmBody fmt body c, some (body.length, some c.length))
  else (body, some (body.length, none))

/-- Rows of a segment in blocks of 4,096 (R80). -/
def blocksOf {α : Type} : Nat → List α → List (List α)
  | 0, _ => []
  | fuel + 1, l => if l.isEmpty then [] else l.take 4096 :: blocksOf fuel (l.drop 4096)

/-- A zone-map entry (R81). -/
def zoneEntry (ty : Nat) (vals : List Val) (body : Bytes) (enc off : Nat) : Bytes :=
  let nulls := vals.countP (· == .null)
  let all := nulls == vals.length
  let ex := extremes ty vals
  let flags := (if all then 1 else 0) + (if vals.any (fun v => 8 < v.bytesD.length) then 2 else 0)
    + (if vals.any (isNaNVal ty) then 4 else 0)
  toLE 8 ((ex.map fun e => zoneKey ty e.1).getD 0) ++ toLE 8 ((ex.map fun e => zoneKey ty e.2).getD 0) ++ toLE 2 nulls
    ++ toLE 2 vals.length ++ toLE 1 flags ++ toLE 1 (if body.isEmpty then enc else fieldAt 0 1 body) ++ toLE 2 0
    ++ toLE 4 off ++ toLE 4 body.length

/-- Places bodies at multiples of 64 bytes: each offset with the bytes laid out. [log 233 DEDUCED] -/
def layBodies : Nat → List Bytes → List Nat × Bytes
  | _, [] => ([], [])
  | off, b :: r =>
    let p := pad64 b
    let (os, bs) := layBodies (off + p.length) r
    (off :: os, p ++ bs)

/-- Length of a chunk without its bodies' contents. -/
def chunkFront (nblocks : Nat) : Nat := ceilDiv (64 + 32 * nblocks) 64 * 64

/-- A column chunk (R79) from its dictionary and block bodies, with every offset, zone-map entry and count. -/
def chunkBytes (col : Nat) (cd : ColDesc) (enc : Nat) (sorted : Bool) (dict : List Val) (bodies : List Bytes) (vals : List Val) : Bytes :=
  let ty := cd.type
  let blocks := blocksOf (vals.length + 1) vals
  let db := if enc == 5 then dictBytes ty dict else []
  let front := chunkFront blocks.length
  let (offs, laid) := layBodies (front + (pad64 db).length) bodies
  let zones := ((blocks.zip bodies).zip offs).flatMap fun ((b, body), off) => zoneEntry ty b body enc off
  let nulls := vals.countP (· == .null)
  let ex := extremes ty vals
  let plainLen := chunkFront blocks.length + (layBodies 0 (blocks.map (bodyOf ty 0 []))).2.length
  let flags := (if enc == 5 then 1 else 0) + (if enc == 5 && sorted then 2 else 0) + (if nulls == vals.length then 4 else 0)
  let header := toLE 2 col ++ toLE 1 ty ++ toLE 1 flags ++ toLE 1 enc ++ toLE 1 blocks.length ++ toLE 2 0
    ++ toLE 4 vals.length ++ toLE 4 nulls ++ toLE 8 ((ex.map fun e => zoneKey ty e.1).getD 0)
    ++ toLE 8 ((ex.map fun e => zoneKey ty e.2).getD 0) ++ toLE 4 (if enc == 5 then front else 0) ++ toLE 4 dict.length
    ++ toLE 4 db.length ++ toLE 4 plainLen ++ List.replicate 16 0
  padTo front (header ++ zones) ++ pad64 db ++ laid

/-- A column chunk as sealing writes it, in an encoding, and the Yelm jobs submitted for its bodies. -/
def chunkOf (col : Nat) (cd : ColDesc) (enc : Nat) (vals : List Val) (compress : Bool) : Bytes × List SealJob :=
  let dict := if enc == 5 then dictOf cd.type vals else []
  let bodies := (blocksOf (vals.length + 1) vals).map fun b =>
    compressBody (if compress then cd.yelmFmt else 0) enc (bodyOf cd.type enc dict b)
  (chunkBytes col cd enc true dict (bodies.map (·.1)) vals, bodies.filterMap (·.2))

/-! The open form (R93, R94, R123, R124). -/

/-- Present values in order of first appearance: an open chunk's dictionary (R93). -/
def firstSeen (vals : List Val) : List Val :=
  (vals.foldl (fun (acc : List Val) x => if x == .null || acc.contains x then acc else x :: acc) []).reverse

/-- A block body of an open chunk: DICT codes of 16 bits, planes with REF 0 of every bit, or PLAIN. -/
def openBody (cd : ColDesc) (dict vals : List Val) : Bytes :=
  let ty := cd.type
  let nulls := vals.any (· == .null)
  let start := fun (enc B : Nat) => bodyHeader enc B nulls 0 0 0 ++ if nulls then bitmapOf vals else []
  if vals.all (· == .null) then []
  else if cd.openEnc == 5 then start 5 16 ++ packBits 16 ((withFiller vals).map fun v => dict.findIdx (· == v))
  else if cd.openEnc == 6 then
    let B := tyBits ty
    start 6 B ++ (List.range B).flatMap fun p => packBits 1 ((withFiller vals).map fun v => orderKey ty v.bitsD / 2 ^ (B - 1 - p) % 2)
  else bodyOf ty 0 [] vals

/-- A column chunk of an open segment. -/
def openChunk (col : Nat) (cd : ColDesc) (vals : List Val) : Bytes :=
  let vals := vals.map (canonVal cd.type)
  let enc := if cd.openEnc == 5 || cd.openEnc == 6 then cd.openEnc else 0
  let dict := if enc == 5 then firstSeen vals else []
  chunkBytes col cd enc false dict ((blocksOf (vals.length + 1) vals).map (openBody cd dict)) vals

/-- The encoding R100 seals a column with: bodies count with their own lengths, and a dictionary padded to 8 bytes, as the worked
example of chapter 03 counts them. [log 234 DEDUCED] -/
def sealEnc (cd : ColDesc) (vals : List Val) : Nat :=
  if bitAt cd.sealSet 6 then 6 else
  let cands := (List.range 6).filter fun e =>
    bitAt cd.sealSet e && encAllowed cd.type e && (e != 5 || vals.any (· != .null))
  let size := fun (e : Nat) =>
    let dict := if e == 5 then dictOf cd.type vals else []
    ((blocksOf (vals.length + 1) vals).map fun b => (bodyOf cd.type e dict b).length).sum
      + if e == 5 then (pad8 (dictBytes cd.type dict)).length else 0
  match cands with
  | [] => 0
  | e :: r => r.foldl (fun best x => if size x < size best then x else best) e

/-- The sealed chunk of a column. -/
def sealChunk (col : Nat) (cd : ColDesc) (vals : List Val) : Bytes × List SealJob :=
  chunkOf col cd (sealEnc cd vals) (vals.map (canonVal cd.type)) true

/-- Passes a sort of n records makes over runs of 16 (R258). -/
def mergePasses (n : Nat) : Nat := (ceilLog2 64 (ceilDiv n 16) + 1) / 2

/-- A decoder's failure, or what it decodes. -/
abbrev DecRes (α : Type) := Except Nat α

/-- Fails a scan with CHECK_MISMATCH unless a condition holds (R96). -/
def guardCheck (ok : Bool) : DecRes Unit := if ok then .ok () else .error stCheckMismatch

/-- A strictly increasing list that ends at n. -/
def endsOk (n : Nat) (prev : Nat) : List Nat → Bool
  | [] => prev == n
  | e :: r => prev < e && endsOk n e r

/-- The values of runs laid out row by row. -/
def unrun (prev : Nat) : List (Nat × Nat) → List Nat
  | [] => []
  | (v, e) :: r => List.replicate (e - prev) v ++ unrun e r

/-- The values that a body in encodings 0 to 6 stores, fillers at its NULL rows (R85). -/
def decodeStored (ty n : Nat) (dict : List Val) (body : Bytes) : DecRes (List Val) := do
  let enc := fieldAt 0 1 body
  let B := fieldAt 1 1 body
  let hasMap := bitAt (fieldAt 2 1 body) 0
  let count := fieldAt 4 2 body
  let param := fieldAt 8 8 body
  let w := tyWidth ty
  let mapLen := if hasMap then ceilDiv n 64 * 8 else 0
  let pay := body.drop (16 + mapLen)
  guardCheck (B ≤ 64 && 16 + mapLen ≤ body.length)
  let packed := ceilDiv (n * B) 64 * 8
  match enc with
    | 0 =>
      if tyVar ty then do
        let head := ceilDiv (4 * (n + 1)) 8 * 8
        guardCheck (head ≤ pay.length)
        let offs := (List.range (n + 1)).map fun i => fieldAt (4 * i) 4 pay
        let data := pay.drop head
        guardCheck (offs.headD 1 == 0 && (offs.zip (offs.drop 1)).all (fun (a, b) => a ≤ b) && offs.getLastD 0 ≤ data.length)
        pure ((offs.zip (offs.drop 1)).map fun (a, b) => Val.str (sliceB a (b - a) data))
      else do
        guardCheck (n * w ≤ pay.length)
        pure ((List.range n).map fun i => Val.num (fieldAt (i * w) w pay))
    | 1 => do
      guardCheck (packed ≤ pay.length)
      pure ((unpackBits B n pay).map fun z => Val.num (if tySigned ty then unzigzag (8 * w) z else z))
    | 2 => do
      guardCheck (packed ≤ pay.length)
      pure ((unpackBits B n pay).map fun q => Val.num (unKey ty ((q + param) % 2 ^ (8 * w))))
    | 3 => do
      guardCheck (ceilDiv ((n - 1) * B) 64 * 8 ≤ pay.length)
      let ds := unpackBits B (n - 1) pay
      let es := ds.foldl (fun (acc : List Nat) z => (acc.headD 0 + unzigzag 64 z) % 2 ^ 64 :: acc) [param]
      pure (es.reverse.map fun e => Val.num (e % 2 ^ (8 * w)))
    | 4 => do
      let vlen := ceilDiv (count * w) 8 * 8
      guardCheck (vlen + ceilDiv (count * 2) 8 * 8 ≤ pay.length)
      let ends := (List.range count).map fun i => fieldAt (vlen + 2 * i) 2 pay
      guardCheck (endsOk n 0 ends)
      pure ((unrun 0 (((List.range count).map fun i => fieldAt (i * w) w pay).zip ends)).map Val.num)
    | 5 => do
      guardCheck (packed ≤ pay.length)
      let codes := unpackBits B n pay
      guardCheck (codes.all (· < dict.length))
      pure (codes.map fun c => dict.getD c .null)
    | 6 => do
      let pl := ceilDiv n 64 * 8
      guardCheck (B * pl ≤ pay.length)
      let planes := (List.range B).map fun p => unpackBits 1 n (pay.drop (p * pl))
      pure ((List.range n).map fun i =>
        Val.num (unKey ty (((planes.foldl (fun q pl => 2 * q + pl.getD i 0) 0) + param) % 2 ^ (8 * w))))
    | _ => .error stCheckMismatch

/-- Stored values with NULL put back where the validity bitmap says so (R84). -/
def putNulls (n : Nat) (body : Bytes) (vals : List Val) : List Val :=
  if bitAt (fieldAt 2 1 body) 0 then (vals.zip (unpackBits 1 n (body.drop 16))).map fun (v, b) => if b == 1 then v else .null
  else vals

/-- The values of a body in encodings 0 to 6. -/
def decodeBody (ty n : Nat) (dict : List Val) (body : Bytes) : DecRes (List Val) :=
  (decodeStored ty n dict body).map (putNulls n body)

/-- The dictionary of a chunk (R93). -/
def chunkDict (ty : Nat) (chunk : Bytes) : List Val :=
  let off := fieldAt 32 4 chunk
  let n := fieldAt 36 4 chunk
  if !bitAt (fieldAt 3 1 chunk) 0 then [] else
  if tyVar ty then
    let data := chunk.drop (off + 4 * (n + 1))
    (List.range n).map fun i =>
      let a := fieldAt (off + 4 * i) 4 chunk
      Val.str (sliceB a (fieldAt (off + 4 * (i + 1)) 4 chunk - a) data)
  else (List.range n).map fun i => Val.num (fieldAt (off + i * tyWidth ty) (tyWidth ty) chunk)

/-- A failure's code with the unit that found it: 0 the Reed unit, 1 a Yelm engine, 2 the tile monitor or the memory (R213). -/
def failBy (unit code : Nat) : Nat := code + unit * 65536

/-- What a Yelm engine makes of a YELM body in BOTH mode, with space for INNER_LENGTH bytes (R464). -/
def yelmRun (body : Bytes) : YelmOut := yelmDecompress (yelmFormat (fieldAt 12 1 body)) 3 (body.drop 16) (fieldAt 8 4 body)

/-- The inner body of a YELM body (R95, R208). -/
def unYelm (body : Bytes) : DecRes Bytes :=
  let r := yelmRun body
  if r.status == stOutFull then .error (failBy 2 stCheckMismatch)
  else if r.status != 0 then .error (failBy 1 r.status)
  else if r.output.length != fieldAt 8 4 body || fieldAt 0 1 r.output != fieldAt 3 1 body then .error (failBy 2 stCheckMismatch)
  else .ok r.output

/-- The zone-map entry of block j. -/
def zoneAt (chunk : Bytes) (j : Nat) : Bytes := sliceB (64 + 32 * j) 32 chunk

/-- The body of block j as it is stored, none of a block with ALL_NULL. -/
def blockBody (chunk : Bytes) (j : Nat) : Option Bytes :=
  let z := zoneAt chunk j
  if bitAt (fieldAt 20 1 z) 0 then none else some (sliceB (fieldAt 24 4 z) (fieldAt 28 4 z) chunk)

/-- The body of block j of a sealed chunk to be decoded, decompressed where it is a YELM body, with the checks of R96 against its
zone-map entry, the chunk header and the segment. -/
def innerBody (ty : Nat) (chunk : Bytes) (segRows j rows : Nat) : DecRes (Option Bytes) := do
  let z := zoneAt chunk j
  guardCheck (fieldAt 18 2 z == rows && fieldAt 2 1 chunk == ty && fieldAt 8 4 chunk == segRows)
  match blockBody chunk j with
  | none => pure none
  | some body => do
    let enc := fieldAt 21 1 z
    guardCheck (fieldAt 0 1 body == enc && (if enc == 7 then fieldAt 3 1 body else enc) == fieldAt 4 1 chunk)
    if enc == 7 then (unYelm body).map some else pure (some body)

/-- The values of block j of a sealed chunk. -/
def decodeBlock (ty : Nat) (chunk : Bytes) (segRows j rows : Nat) : DecRes (List Val) := do
  match ← innerBody ty chunk segRows j rows with
  | none => pure (List.replicate rows .null)
  | some b => decodeBody ty rows (chunkDict ty chunk) b

end Sys2Proof.Machine
end

