-- ==== Sys2Proof/Machine/Placement.lean ====
section
/-! DEFINITION. Where segments lie and what bytes they are (R75, R78, R79, R110, R425): header, chunk directory and column chunks of
each copy, their device addresses, and the block that a line of DRAM belongs to. -/

namespace Sys2Proof.Machine

/-- A table of an id. -/
def State.table (s : State) (id : Nat) : Option Table := nget s.tables.tables id

/-- Changes a table where it exists. -/
def State.modTable (s : State) (id : Nat) (f : Table → Table) : State :=
  s.modTables fun t => { t with tables := nmod t.tables id f }

/-- Columns 0 to 2 and the supplied ones of a row (R62). -/
def SRow.col (r : SRow) (i : Nat) : Val :=
  match i with
  | 0 => .num r.stamp.ts
  | 1 => .num r.stamp.src
  | 2 => .num (r.stamp.seq + r.stamp.tq * 2 ^ 24)
  | n + 3 => r.vals.getD n .null

/-! Segments. -/

/-- Least and greatest stamp of a segment's rows (R75). -/
def Segment.bounds (g : Segment) : Option (Stamp × Stamp) :=
  g.rows.foldl (fun acc r => match acc with
    | none => some (r.stamp, r.stamp)
    | some (lo, hi) => some (if r.stamp.lt lo then r.stamp else lo, if hi.lt r.stamp then r.stamp else hi)) none

/-- DIST_MIN and DIST_MAX (R75). -/
def Segment.dists (g : Segment) : Nat × Nat :=
  (g.rows.foldl (fun m r => min m r.dist) ((g.rows.head?.map (·.dist)).getD 0), g.rows.foldl (fun m r => max m r.dist) 0)

/-- Pending and present holds of a table: one that is written protects at once (R109), one that is taken away still does until the next
retention evaluation (R72). [log 231 DEDUCED] -/
def Table.allHolds (t : Table) : List Hold := t.desc.holds ++ ((t.retNext.map (·.holds)).getD []).filter fun h => !t.desc.holds.contains h

/-- A hold covers the segment (R107). [log 235 DESIGN CHOICE] -/
def segIsHeld (holds : List Hold) (g : Segment) : Bool :=
  match g.bounds with
  | none => false
  | some (lo, hi) => holds.any fun h => h.lo ≤ hi.ts && lo.ts ≤ h.hi

/-- An empty segment of a number. -/
def Segment.new (no ts : Nat) : Segment :=
  { no := no, state := .opened, unordered := false, overlap := false, rows := [], firstAt := ts, sealing := false, sealCols := none,
    sealStamp := none, prevDigest := [], digest := [], chunksA := [], chunksB := [], badA := [], badB := [], openHeld := 0, openRows := []
    prevMax := none, sealAt := 0, atA := [], atB := [], openAtA := [], openAtB := [] }

/-- A segment's 256-byte header (R75), of copy A or copy B. -/
def segHeader (t : Table) (g : Segment) (copyB : Bool) : Bytes :=
  let d := t.desc
  let (lo, hi) := (g.bounds).getD (Stamp.zero, Stamp.zero)
  let (dmin, dmax) := g.dists
  let flags := (if d.lapped then 1 else 0) + (if d.chained then 2 else 0) + (if g.unordered then 4 else 0)
    + (if g.overlap then 8 else 0)
  toLE 4 0x4D474553 ++ toLE 2 1 ++ toLE 2 d.id ++ toLE 4 g.no ++ toLE 4 g.rows.length ++ toLE 2 d.cols.length
    ++ toLE 1 flags ++ toLE 1 0 ++ lo.bytes ++ hi.bytes ++ toLE 8 dmin ++ toLE 8 dmax
    ++ (g.sealStamp.getD Stamp.zero).bytes ++ List.replicate 44 0 ++ padTo 32 g.prevDigest ++ padTo 32 g.digest
    ++ toLE 1 g.state.code ++ toLE 1 (copyB.toNat + if segIsHeld t.allHolds g then 2 else 0) ++ List.replicate 62 0

/-- The column chunks of an open form (R123). -/
def openChunks (d : TableDesc) (rows : List SRow) : List Bytes :=
  (d.cols.zip (List.range d.cols.length)).map fun (c, i) => openChunk i c (rows.map fun (r : SRow) => r.col i)

/-- The column chunks of the form in force: both copies hold the same bytes (R110). -/
def Segment.chunks (d : TableDesc) (g : Segment) : List Bytes := if g.state == .opened then openChunks d g.rows else g.chunksA

/-- A chunk directory entry (R78): device address, length, and the CRC-32 of the chunk, zero while OPEN. -/
def dirEntry (addr : Nat) (chunk : Bytes) (opened : Bool) : Bytes :=
  toLE 6 addr ++ toLE 2 0 ++ toLE 4 chunk.length ++ toLE 4 (if opened then 0 else crc32 chunk)

/-- Addresses of a copy. -/
def Segment.at' (g : Segment) (copyB : Bool) : List Nat := if copyB then g.atB else g.atA

/-- Header and chunk directory of a copy (R75, R78). -/
def segFront (t : Table) (g : Segment) (copyB : Bool) : Bytes :=
  segHeader t g copyB ++ ((g.chunks t.desc).zip ((g.at' copyB).drop 1)).flatMap fun (c, a) => dirEntry a c (g.state == .opened)

/-- A copy of a segment as it lies in memory: header and directory, then each chunk, each with its device address. -/
def segImage (t : Table) (g : Segment) (copyB : Bool) : List (Nat × Bytes) :=
  (g.at' copyB).zip (segFront t g copyB :: g.chunks t.desc)

/-- Bytes of header and directory. -/
def TableDesc.frontLen (d : TableDesc) : Nat := 256 + 16 * d.cols.length

/-- Bytes of the open form of a segment, one copy. -/
def openBytes (d : TableDesc) (g : Segment) : Nat := d.frontLen + ((openChunks d g.rows).map (·.length)).sum

/-- The chunks that sealing gives a segment, in stamp order (R99, R100), and how many blocks stay uncompressed for no gain. -/
def sealedChunks (d : TableDesc) (g : Segment) : List SRow × List Bytes × List SealJob :=
  let rows : List SRow := if g.unordered then sortBy (fun a b => a.stamp.lt b.stamp) g.rows else g.rows
  let chunks := (d.cols.zip (List.range d.cols.length)).map fun (c, i) => sealChunk i c (rows.map fun (r : SRow) => r.col i)
  (rows, chunks.map (·.1), chunks.flatMap (·.2))

/-- Stored bytes of a segment, all copies (R694); while it is being sealed, the sealed form that is allotted counts too. [log 232 DEDUCED] -/
def segStored (d : TableDesc) (g : Segment) : Nat :=
  let one := match g.state with
    | .opened =>
      openBytes d g + if g.sealing then
        d.frontLen + (((sealedChunks { d with cols := g.sealCols.getD d.cols } g).2.1).map (·.length)).sum else 0
    | .sealed | .kept => d.frontLen + (g.chunksA.map (·.length)).sum + g.openHeld
    | .retired => 0
  if d.lapped then 2 * one else one

/-! Placement (R425, R426). Where a chunk is allotted is a free value; a copy B follows R425. -/

/-- The channel that serves a page, none where its slot is marked NONE. -/
def DramSt.pageChan (d : DramSt) (page : Nat) : Nat := d.remap.getD (page % d.slots) 0xFF / 2

/-- The distance in pages, modulo the slots, at which copy B of n bytes lies: 1 where that keeps every page on another channel, as it
does while the remap table is unchanged, else the least that does (R425). -/
def DramSt.copyShift (d : DramSt) (a n : Nat) : Nat :=
  let pages := upFrom (a / 4096) ((a + n - 1) / 4096 + 1 - a / 4096)
  ((upFrom 1 (d.slots - 1)).find? fun k => pages.all fun p => d.pageChan p != d.pageChan (p + k)).getD 1

/-- Where memory of KEEP tables, and of everything else, may be allotted (R421): from the first address to before the second. -/
def DramSt.area (d : DramSt) (keep : Bool) : Nat × Nat :=
  let edge := d.managed * d.eighths / 8
  if keep then (0, edge) else (edge, d.managed)

/-- A line-aligned address of n bytes allotted. [log 202 DESIGN CHOICE] -/
def State.newPlace (s : State) (keep : Bool) (n : Nat) : Nat × State :=
  let (c, s) := s.fresh
  let (lo, hi) := s.dram.area keep
  (ceilDiv lo 64 * 64 + Config.freeNat c % ((hi - lo - n) / 64 + 1) * 64, s)

/-- An address for the copy of n bytes whose other copy lies at a, under a mapping of slots, on the same side of the Keep's edge (R421, R425,
R428). [log 202 DESIGN CHOICE] -/
def State.newCopy (s : State) (d : DramSt) (a n : Nat) : Nat × State :=
  let (c, s) := s.fresh
  let (lo, hi) := d.area (a < (d.area true).2)
  let row := 4096 * d.slots
  let rows := hi / row - ceilDiv lo row - ceilDiv n row
  let page := (ceilDiv lo row + Config.freeNat c % (rows + 1)) * d.slots + (a / 4096 + d.copyShift a n) % d.slots
  (page * 4096 + a % 4096, s)

/-- The most bytes an open column chunk can take. -/
def openCap (cd : ColDesc) : Nat :=
  let w := tyWidth cd.type
  let dict := if cd.openEnc == 5 then 65536 * (w + cd.maxLen + 4) + 64 else 0
  let body := if cd.openEnc == 5 then 8192 else 4096 * (w + cd.maxLen + 4) + 64
  chunkFront 16 + dict + 16 * (16 + 512 + body + 64)

/-- Addresses for pieces of these lengths, of copy A and, for a double-lapped table, of copy B. -/
def State.newPlaces (s : State) (keep lapped : Bool) (lens : List Nat) : List Nat × List Nat × State :=
  lens.foldl (fun (acc : List Nat × List Nat × State) n =>
    let (a, s) := acc.2.2.newPlace keep n
    if lapped then
      let (b, s) := s.newCopy s.dram a n
      (acc.1 ++ [a], acc.2.1 ++ [b], s)
    else (acc.1 ++ [a], acc.2.1, s)) ([], [], s)

/-! The block a line belongs to (R111). -/

/-- Blocks of a chunk that a byte of it damages: the block whose body holds it, or all of them. -/
def chunkBlocks (chunk : Bytes) (off : Nat) : List Nat :=
  let all := List.range (fieldAt 5 1 chunk)
  match all.find? fun j => fieldAt 24 4 (zoneAt chunk j) ≤ off && off < fieldAt 24 4 (zoneAt chunk j) + ceilDiv (fieldAt 28 4 (zoneAt chunk j)) 64 * 64 with
  | some j => [j]
  | none => all

/-- Blocks of a copy that the line of a DRAM address holds, as COLUMN × 16 + block. -/
def Segment.blocksAt (d : TableDesc) (g : Segment) (copyB : Bool) (a : Nat) : List Nat :=
  let cs := ((g.chunks d).zip ((g.at' copyB).drop 1)).zip (List.range d.cols.length)
  cs.flatMap fun ((c, at'), col) =>
    if at' ≤ a / 64 * 64 + 63 && a / 64 * 64 < at' + c.length then (chunkBlocks c (a / 64 * 64 - at')).map (16 * col + ·) else []

/-- Table, segment and copy of a double-lapped table whose blocks the line of an address holds. -/
def State.lappedAt (s : State) (a : Nat) : List (Nat × Nat × Bool × List Nat) :=
  (s.tables.tables.filter (·.2.desc.lapped)).flatMap fun p => p.2.segs.flatMap fun g =>
    [false, true].filterMap fun b =>
      let l := g.blocksAt p.2.desc b a
      if l.isEmpty then none else some (p.1, g.no, b, l)

/-- Blocks of a copy noted as uncorrectable. -/
def Segment.harm (g : Segment) (copyB : Bool) (l : List Nat) : Segment :=
  if copyB then { g with badB := (g.badB ++ l).eraseDups } else { g with badA := (g.badA ++ l).eraseDups }

/-- The line of an address is uncorrectable: the blocks of a double-lapped table it holds are noted, for the Ridge to rewrite (R111); the
flag says that the other copy of each is intact. -/
def State.harmAt (s : State) (a : Nat) : Bool × State :=
  let hit := s.lappedAt a
  let other := fun (g : Segment) (b : Bool) => if b then g.badA else g.badB
  let ok := !hit.isEmpty && hit.all fun (id, no, b, l) =>
    ((s.table id).bind fun t => t.segs.find? (·.no == no)).any fun g => l.all fun k => !(other g b).contains k
  (ok, hit.foldl (fun s (id, no, b, l) =>
    s.modTable id fun t => { t with segs := t.segs.map fun g => if g.no == no then g.harm b l else g }) s)

end Sys2Proof.Machine
end

