-- ==== Sys2Proof/Machine/Dram.lean ====
section
/-! DEFINITION. The memory controllers (chapter 13): the address map, queues, error correction, row hammer, rank
retirement and migration. -/

namespace Sys2Proof.Machine

/-- Where a DRAM address lies (R406). -/
structure Place where
  slot : Nat
  phys : Nat
  sub : Nat
  bg : Nat
  bank : Nat
  row : Nat
  col : Nat
deriving DecidableEq, Repr

/-- place(a) of R406; the remap table gives the physical rank (R427). -/
def DramSt.place (d : DramSt) (a : Nat) : Place :=
  let page := a / 4096
  let slot := page % d.slots
  let line := (page / d.slots * 4096 + a % 4096) / 64
  let row := line / 2 ^ 12
  { slot := slot, phys := d.remap.getD slot 0xFF, sub := line % 2, bg := bitsOf line 9 7 ^^^ row % 8, bank := bitsOf line 11 10,
    row := row, col := bitsOf line 6 1 }

/-- The slot of an address is marked NONE (R426). -/
def DramSt.gone (d : DramSt) (a : Nat) : Bool := (d.place a).phys == 0xFF

/-- The rank that serves a read: the spare for a finished unit of the migrating slot (R427). -/
def DramSt.readRank (d : DramSt) (a : Nat) : Nat :=
  let p := d.place a
  let offset := a / 4096 / d.slots * 4096 + a % 4096
  if (d.mig.state == 1 || d.mig.state == 2) && p.slot == d.migSlot then
    if offset / 2 ^ 20 < d.mig.units then d.mig.toRank else d.mig.fromRank
  else p.phys

/-- The channel of an address. -/
def DramSt.chanOf (d : DramSt) (a : Nat) : Fin 8 := Fin.ofNat 8 (d.readRank a / 2)

/-! Contents. -/

/-- A byte stored; a slot marked NONE discards it (R426). -/
def State.storeByte (s : State) (a : Nat) (b : Byte) : State := if s.dram.gone a then s else s.modMem fun m => memPut m a b

/-- Lines of 64 bytes that lie wholly in a range. -/
def wholeLines (a n : Nat) : List Nat := (upFrom (ceilDiv a 64) (n / 64 + 1)).filter fun l => 64 * l + 64 ≤ a + n

/-- Bytes stored into DRAM; a full write of a line clears its poison (R417). -/
def State.storeBytes (s : State) (a : Nat) (bs : Bytes) : State :=
  let s := (bs.zip (List.range bs.length)).foldl (fun s (b, i) => s.storeByte (a + i) b) s
  if s.dram.poison.isEmpty then s else
  s.modDram fun d => { d with poison := (wholeLines a bs.length).foldl (fun p l => ndel p l) d.poison }

/-- The first n writes of a kind taken out of a queue. -/
def dropWrites (which : QWrite → Bool) : Nat → List QWrite → List QWrite
  | _, [] => []
  | 0, l => l
  | n + 1, w :: l => if which w then dropWrites which n l else w :: dropWrites which (n + 1) l

/-- Queued writes of a kind of one channel reach DRAM in arrival order, all but the newest k (R410, R411). [log 107 DEDUCED] -/
def State.drainChan (s : State) (m : Fin 8) (which : QWrite → Bool) (k : Nat) : State :=
  let q := (s.dram.chans[m]).writes.filter which
  let out := q.take (q.length - k)
  let s := s.modMemChan m fun c => { c with writes := dropWrites which (q.length - k) c.writes }
  out.foldl (fun s w => s.storeBytes w.addr w.data) s

/-- Every write queue drains. -/
def State.drainAll (s : State) : State := (List.finRange 8).foldl (fun s m => s.drainChan m (fun _ => true) 0) s

/-- A DRAM byte as a read sees it: the newest queued write, then memory (R411). -/
def State.dramByte (s : State) (a : Nat) : Byte :=
  match ((s.dram.chans[s.dram.chanOf a]).writes.reverse.find? fun w => w.addr ≤ a && a < w.addr + w.data.length) with
  | some w => w.data.getD (a - w.addr) 0
  | none => memByte s.mem a

/-- The line of an address reads POISONED (R417, R426). -/
def State.lineBad (s : State) (a : Nat) : Bool := (nget s.dram.poison (a / 64)).isSome || s.dram.gone a

/-- n bytes of DRAM, none where a line is poisoned. -/
def State.dramRead (s : State) (a n : Nat) : Option Bytes :=
  if (upFrom (a / 64) ((a + n + 63) / 64 - a / 64)).any (fun l => s.lineBad (64 * l)) then none
  else some ((List.range n).map fun i => s.dramByte (a + i))

/-- A unit's write to DRAM, after the writes already queued. -/
def State.dramWrite (s : State) (a : Nat) (bs : Bytes) : State := s.drainAll.storeBytes a bs

/-! Retiring a rank (R426). -/

/-- SCOPE_ID of a memory error (R664). -/
def memScope (phys : Nat) : Nat := phys / 2 * 16 + phys

/-- A physical rank leaves service; its slot migrates to a free spare, or is marked NONE. The record names what caused it (R662), and
has POISONED where no spare is free (R669). -/
def State.retireRank (s : State) (phys : Nat) (cause : Stamp) : State :=
  if bitAt s.dram.ranksOut phys then s else
  let src := 0xE0 + phys / 2
  let lost := s.dram.remap.contains phys && s.dram.spare.isNone
  let s := s.raise src { ErrRec.blank with severity := .degraded, scope := 8, scopeId := memScope phys, event := 1, causeSeq := cause.seq,
                                           causeSrc := cause.src, code := if lost then stPoisoned else 0 }
  let s := s.modDram fun d =>
    let d := { d with ranksOut := d.ranksOut ||| 2 ^ phys }
    if (d.mig.state == 1 || d.mig.state == 2) && d.mig.toRank == phys then
      { d with remap := lset d.remap d.migSlot 0xFF, mig := { d.mig with state := 0 } }
    else
      match d.remap.findIdx? (· == phys), d.spare with
      | none, some sp => if sp == phys then { d with spare := none } else d
      | none, none => d
      | some slot, some sp =>
        { d with mig := ⟨0, phys, sp, if d.migPause then 2 else 1⟩, migSlot := slot, migStarted := s.time.ts, spare := none }
      | some slot, none => { d with remap := lset d.remap slot 0xFF }
  s.writeBootFlash

/-- Records the last error of a channel (R430): device, subchannel, rank, kind. -/
def State.memError (s : State) (phys addr device kind : Nat) : State :=
  s.modMemChan (Fin.ofNat 8 (phys / 2)) fun c =>
    { c with errAddr := addr, errInfo := device % 16 + (s.dram.place addr).sub * 16 + phys % 2 * 32 + kind * 64 }

/-- The record of a corrected error, or of a device that reaches CE_THRESHOLD (R416, R669). [log 250 DESIGN CHOICE] -/
def State.correctedRecord (s : State) (phys addr device event : Nat) : State :=
  s.raise (0xE0 + phys / 2)
    { ErrRec.blank with severity := .corrected, scope := 8, scopeId := memScope phys, event := event, address := addr, detail0 := device }

/-- A corrected error of one device (R415, R416). [log 219 DEDUCED] -/
def State.corrected (s : State) (phys addr device : Nat) : State :=
  let m : Fin 8 := Fin.ofNat 8 (phys / 2)
  let key := phys % 2 * 32 + (s.dram.place addr).sub * 16 + device % 16
  let s := s.modMemChan m fun c =>
    { c with ce := c.ce.set (Fin.ofNat 2 phys) (c.ce[Fin.ofNat 2 phys] + 1)
             devCe := nput c.devCe key ((((nget c.devCe key).getD []).filter fun t => s.time.ts < t + 86400000000000) ++ [s.time.ts]) }
  let s := (s.memError phys addr device 0).bump 0x1014 4 1
  if ((nget (s.dram.chans[m]).devCe key).getD []).length == s.cfg 0x1014 2 1000 then
    let s := s.correctedRecord phys addr device 2
    if s.cfgBool 0x1014 3 false then s.retireRank phys (s.recordOf (0xE0 + phys / 2) 0 8 (memScope phys)) else s
  else s.correctedRecord phys addr device 5

/-- An uncorrectable error (R417): the line is poisoned unless the other copy of a double-lapped table serves it (R111); the rank is
retired. -/
def State.uncorrectable (s : State) (phys addr : Nat) : State :=
  let (lapped, s) := s.harmAt addr
  let m : Fin 8 := Fin.ofNat 8 (phys / 2)
  let s := s.modMemChan m fun c => { c with ue := c.ue.set (Fin.ofNat 2 phys) (c.ue[Fin.ofNat 2 phys] + 1) }
  let s := (s.memError phys addr 0 1).bump 0x1014 5 1
  let s :=
    if lapped then s else
    let s := s.modDram fun d => { d with poison := nput d.poison (addr / 64) () }
    (s.bump 0x1014 7 1).raise (0xE0 + phys / 2)
      { ErrRec.blank with code := stPoisoned, severity := .contained, scope := 8, scopeId := memScope phys, event := 3, address := addr }
  s.retireRank phys (if lapped then Stamp.zero else s.recordOf (0xE0 + phys / 2) stPoisoned 8 (memScope phys))

/-! Row hammer (R419, R420). -/

/-- Tokens of a throttled requester now: depth 8, refilled at RH_RATE per millisecond. -/
def Throttle.now (t : Throttle) (ts rate : Nat) : Throttle :=
  let add := (ts - t.since) * rate / 1000000
  { t with tokens := min 8 (t.tokens + add), since := if 0 < add then ts else t.since }

/-- The bank of a place within its rank, 0 to 31, with its subchannel. -/
def Place.bankNo (p : Place) : Nat := p.sub * 32 + p.bg * 4 + p.bank

/-- A requester is told by its PLAN_SLOT too only where it is a tile (R419). -/
def reqSlot (src8 planSlot : Nat) : Nat := if 0x80 ≤ src8 && src8 < 0xC0 then planSlot else 0

/-- A requester whose activations of a bank are limited and has no token left. [log 108 DEDUCED] -/
def State.throttled (s : State) (a src8 planSlot : Nat) : Bool :=
  let planSlot := reqSlot src8 planSlot
  let p := s.dram.place a
  let c := s.dram.chans[s.dram.chanOf a]
  c.throttles.any fun t => t.rank == s.dram.readRank a && t.bank == p.bankNo && t.src8 == src8 && t.planSlot == planSlot
    && (t.now s.time.ts c.rhRate).tokens == 0

/-- One activation of a row by a requester: tracked among the 16 most-activated rows of the bank, a token taken. -/
def State.activate (s : State) (a src8 planSlot : Nat) : State :=
  let planSlot := reqSlot src8 planSlot
  let p := s.dram.place a
  let rank := s.dram.readRank a
  let key := rank % 2 * 64 + p.bankNo
  s.modMemChan (s.dram.chanOf a) fun c =>
    let mine := c.rows.filter fun r => r.bank == key
    let others := c.rows.filter fun r => r.bank != key
    let hit := mine.find? (·.row == p.row)
    let new : RhRow := match hit with
      | some r =>
        let mine := fun (x : Nat × Nat × Nat) => (x.1, x.2.1) == (src8, planSlot)
        let reqs := if r.reqs.any mine then r.reqs.map fun x => if mine x then (x.1, x.2.1, x.2.2 + 1) else x else r.reqs ++ [(src8, planSlot, 1)]
        { r with count := r.count + 1, reqs := reqs }
      | none => ⟨key, p.row, 1, [(src8, planSlot, 1)], false⟩
    let rest := mine.filter (·.row != p.row)
    let kept := (sortBy (fun (x y : RhRow) => y.count < x.count) (new :: rest)).take 16
    { c with rows := others ++ kept
             throttles := c.throttles.map fun t =>
               if t.rank == rank && t.bank == p.bankNo && t.src8 == src8 && t.planSlot == planSlot then
                 let t := t.now s.time.ts c.rhRate
                 { t with tokens := t.tokens - 1 }
               else t }

/-- Units of 1 MiB in a rank. -/
def DramSt.unitsTotal (d : DramSt) : Nat := d.rankSize / 2 ^ 20

/-! Open rows (R412). -/

/-- Memory clocks in ns: a quarter of the data rate (R19). -/
def DramSt.clocksNs (d : DramSt) (n : Nat) : Nat := n * 4000 / d.dataRate

/-- The bank of an address in its channel. -/
def State.bankKey (s : State) (a : Nat) : Nat := s.dram.readRank a % 2 * 64 + (s.dram.place a).bankNo

/-- The row of an address stands open: an AUTO row until PAGE_IDLE memory clocks after its last access (R412). -/
def State.rowOpen (s : State) (a : Nat) : Bool :=
  let c := s.dram.chans[s.dram.chanOf a]
  c.pages.any fun p => p.bank == s.bankKey a && p.row == (s.dram.place a).row
    && (!p.auto || s.time.ts ≤ p.since + s.dram.clocksNs c.pageIdle)

/-- An access of a row with a hint: 0 AUTO, 1 OPEN, 2 CLOSE (R412). A row that is not open is activated, and closes the one that was. -/
def State.touchRow (s : State) (a src8 planSlot hint : Nat) : State :=
  let s := if s.rowOpen a then s else s.activate a src8 planSlot
  let key := s.bankKey a
  s.modMemChan (s.dram.chanOf a) fun c =>
    { c with pages := c.pages.filter (·.bank != key) ++
        if hint == 2 then [] else [⟨key, (s.dram.place a).row, s.time.ts, hint == 0⟩] }

/-- A request waits: its row is not open and its requester has no activation left (R420). -/
def State.rowWaits (s : State) (a src8 planSlot : Nat) : Bool := !s.rowOpen a && s.throttled a src8 planSlot

/-! Commands. -/

/-- What the ECC of an access finds: devices in error and the lowest of them (R415). -/
def State.ecc (s : State) (a devErrs device : Nat) : State :=
  let phys := s.dram.readRank a
  if devErrs == 0 then s
  else if devErrs == 1 then s.corrected phys a device
  else s.uncorrectable phys a

/-- A read request of a line: throttled it waits; a queued write answers it; else it is served with ECC (R410 to
R417). [log 106 DEDUCED] -/
def State.memRead (s : State) (addr src8 planSlot devErrs device hint : Nat) : State :=
  let a := addr / 64 * 64
  if s.dram.managed ≤ a || s.rowWaits a src8 planSlot then s else
  let s := s.touchRow a src8 planSlot hint
  if (s.dram.chans[s.dram.chanOf a]).writes.any (fun w => w.addr / 64 == a / 64) then s
  else if s.lineBad a then s.bump 0x1014 7 1
  else s.ecc a devErrs device

/-- A read request with its page hint reaches a memory controller; the operands name the devices in error. -/
def execMemoryRead (addr src8 planSlot devErrs device hint : Nat) (s : State) : Res :=
  .next (s.memRead addr src8 planSlot devErrs device hint)

/-- A write request: queued in arrival order; the queue drains to WM_LOW at WM_HIGH, and wholly while no read waits
(R410, R411). [log 107 DEDUCED, 219 DEDUCED] -/
def State.memWrite (s : State) (addr : Nat) (data : Bytes) (src8 planSlot hint : Nat) (readWaits : Bool) : State :=
  if s.dram.managed < addr + data.length || s.rowWaits addr src8 planSlot then s else
  let s := s.touchRow addr src8 planSlot hint
  let m := s.dram.chanOf addr
  let s := s.modMemChan m fun c => { c with writes := c.writes ++ [⟨addr, data⟩] }
  let c := s.dram.chans[m]
  let mine := fun (w : QWrite) => (s.dram.place w.addr).sub == (s.dram.place addr).sub
  if !readWaits then s.drainChan m mine 0
  else if c.wmHigh ≤ c.writes.countP mine then s.drainChan m mine c.wmLow
  else s

/-- A write request of at most one line reaches a memory controller; bytes past the line are another request's. -/
def execMemoryWrite (addr : Nat) (data : Bytes) (src8 planSlot hint : Nat) (readWaits : Bool) (s : State) : Res :=
  .next (s.memWrite addr (data.take (64 - addr % 64)) src8 planSlot hint readWaits)

/-- A same-bank refresh is issued (R413): it changes no contents, and closes the rows of that bank in every bank group (R412). [log 205 PRESUMED] -/
def execRefresh (chan : Fin 8) (bank : Nat) (s : State) : Res :=
  .next (s.modMemChan chan fun c => { c with pages := c.pages.filter fun p => p.bank / 32 != bank / 32 || p.bank % 4 != bank % 4 })

/-- Patrol scrubbing of the next line (R416), with an ECS count of a rank where one is read. -/
def State.scrub (s : State) (devErrs device : Nat) (ecs : Option (Nat × Nat)) : State :=
  let lines := s.dram.managed / 64
  if lines == 0 || s.dram.phase == .inKeep then s else
  let a := s.dram.scrubLine * 64
  let s := s.modDram fun d => { d with scrubLine := (d.scrubLine + 1) % lines }
  let s := if s.lineBad a then s else s.ecc a devErrs device
  match ecs with
  | none => s
  | some (rank, n) => s.modDram fun d => { d with ecs := nputZ d.ecs (rank % 16) (max (ngetZ d.ecs (rank % 16)) n) }

/-- Patrol scrubbing reaches a line. -/
def execScrub (devErrs device : Nat) (ecs : Option (Nat × Nat)) (s : State) : Res :=
  .next (s.scrub devErrs device ecs)

/-- An RCD parity alert or write CRC error (R418): re-issue, or an uncorrectable error at the third within 1 ms. [log 219 DEDUCED] -/
def State.caAlert (s : State) (phys : Fin 16) (writeCrc : Bool) : State :=
  let m : Fin 8 := Fin.ofNat 8 (phys.val / 2)
  let recent := (s.dram.chans[m]).alerts.filter fun x => s.time.ts ≤ x.2 + 1000000
  let s := s.memError phys.val 0 0 (if writeCrc then 3 else 2)
  if 2 ≤ recent.countP (·.1 == phys.val) then
    let s := s.modMemChan m fun c =>
      { c with alerts := recent.filter (·.1 != phys.val), ue := c.ue.set (Fin.ofNat 2 phys.val) (c.ue[Fin.ofNat 2 phys.val] + 1) }
    let s := (s.bump 0x1014 5 1).raise (0xE0 + m.val)
      { ErrRec.blank with severity := .contained, code := stPoisoned, scope := 8, scopeId := memScope phys.val, event := 3 }
    s.retireRank phys.val (s.recordOf (0xE0 + m.val) stPoisoned 8 (memScope phys.val))
  else s.modMemChan m fun c => { c with alerts := recent ++ [(phys.val, s.time.ts)] }

/-- An alert of a rank. -/
def execCaParityAlert (phys : Fin 16) (writeCrc : Bool) (s : State) : Res := .next (s.caAlert phys writeCrc)

/-- RFM is issued to a bank (R419). -/
def execRfm (chan : Fin 8) (bank : Nat) (s : State) : Res := .next (s.bump 0x1015 4 1)

/-- A tracked row reaches RH_THRESHOLD: directed RFM, a record, and a throttle of the offender (R420). [log 219 DEDUCED] -/
def State.rowHammer (s : State) (chan : Fin 8) (bank row : Nat) : State :=
  let c := s.dram.chans[chan]
  match c.rows.find? fun r => r.bank == bank && r.row == row && c.rhThreshold ≤ r.count && !r.acted with
  | none => s
  | some r =>
    let s := (s.bump 0x1015 3 1).bump 0x1015 4 1
    let rank := 2 * chan.val + bank / 64
    let (src8, planSlot) := r.top
    let tile := 0x80 ≤ src8 && src8 < 0xC0
    let inst := if src8 < 0x40 then src8 else if tile then ((nget s.plans.plans planSlot).map (·.inst)).getD 0xFF else 0xFF
    let s := s.raise (0xE0 + chan.val)
      { ErrRec.blank with scope := 8, scopeId := memScope rank, inst := inst, planSlot := if tile then some planSlot else none,
                          detail0 := bank % 64 * 2 ^ 32 + row, detail1 := src8 * 2 ^ 32 + r.count, event := 4 }
    s.modMemChan chan fun c =>
      { c with throttles := (c.throttles.filter fun t =>
                 !(t.rank == rank && t.bank == bank % 64 && t.src8 == src8 && t.planSlot == planSlot))
                 ++ [⟨rank, bank % 64, src8, planSlot, 8, s.time.ts, 2⟩]
               rows := c.rows.map fun x => if x.bank == bank && x.row == row then { x with acted := true } else x }

/-- A tracked row of a bank (64 × rank + bank) reaches the threshold. -/
def execRowHammerThreshold (chan : Fin 8) (bank row : Nat) (s : State) : Res := .next (s.rowHammer chan bank row)

/-- A 32 ms refresh window of a channel ends (R419, R420). -/
def execRhWindowEnd (chan : Fin 8) (s : State) : Res :=
  .next (s.modMemChan chan fun c =>
    { c with rows := [], throttles := (c.throttles.map fun t => { t with windows := t.windows - 1 }).filter (0 < ·.windows) })

end Sys2Proof.Machine
end

