-- ==== Sys2Proof/Machine/Cache.lean ====
section
/-! DEFINITION. The tile caches and the Thatch (chapter 12): where a line lives, replacement, fills, stores, cleaning,
and the reads and writes of every unit that reaches DRAM through the Thatch. -/

namespace Sys2Proof.Machine

/-! Replacement (R385, R386). -/

/-- The tree bits with every node on a way's path pointed away from it, or toward it for a stream fill. The levels
count down, `node` is the present node. -/
def plruPoint (toward : Bool) : Nat → Nat → Nat → Nat → Nat
  | 0, _, _, bits => bits
  | lv + 1, node, way, bits =>
    let dir := bitAt way lv
    let v := if toward then dir else !dir
    let cleared := if bitAt bits node then bits - 2 ^ node else bits
    plruPoint toward lv (2 * node + 1 + dir.toNat) way (if v then cleared + 2 ^ node else cleared)

/-- The way the tree bits choose among those that may be chosen (R385). -/
def plruChoose (bits : Nat) (ok : Nat → Bool) : Nat → Nat → Nat → Nat
  | 0, _, base => base
  | lv + 1, node, base =>
    let side := (bitAt bits node).toNat
    let has := fun (sd : Nat) => (upFrom (base + sd * 2 ^ lv) (2 ^ lv)).any ok
    let side := if has side then side else 1 - side
    plruChoose bits ok lv (2 * node + 1 + side) (base + side * 2 ^ lv)

/-- choose_victim of R385 over 2^lv ways: the lowest free way, or the tree's choice. -/
def chooseVictim (lv bits : Nat) (free ok : Nat → Bool) : Nat :=
  match (List.range (2 ^ lv)).find? free with
  | some w => w
  | none => plruChoose bits ok lv 0 0

/-! The Thatch. -/

/-- The slice of a line (R378). -/
def thSlice (l : Nat) : Fin 16 := Fin.ofNat 16 (l % 16 ^^^ bitsOf l 7 4 ^^^ bitsOf l 11 8 ^^^ bitsOf l 15 12)

/-- The set of a line (R378). -/
def thSet (l : Nat) : Nat := bitsOf l 16 4

/-- One slice changed. -/
def State.modSlice (s : State) (i : Fin 16) (f : Slice → Slice) : State :=
  s.modThatch fun t => { t with slices := t.slices.set i (f (t.slices[i])) }

/-- The place in its slice of a line held there: set × 16 + way. -/
def Slice.find (c : Slice) (l : Nat) : Option Nat :=
  (upFrom (thSet l * 16) 16).find? fun k => match nget c.lines k with
    | some x => !x.aperture && x.line == l
    | none => false

/-- The lowest-numbered valid region an address lies in (R381). -/
def State.regionAt (s : State) (a : Nat) : Option Nat :=
  (s.thatch.regions.find? fun p => p.2.valid && p.2.base * 65536 ≤ a && a < p.2.limit * 65536).map (·.1)

/-- A way's path pointed away from it, or toward it. [log 103 DESIGN CHOICE] -/
def Slice.touch (c : Slice) (k : Nat) (toward : Bool) : Slice :=
  { c with plru := nputZ c.plru (k / 16) (plruPoint toward 4 0 (k % 16) (ngetZ c.plru (k / 16))) }

/-- Dirty sectors of a line as bytes to be written: (address, bytes). -/
def TLine.dirtyParts (x : TLine) : List (Nat × Bytes) :=
  (if x.dirty0 then [(64 * x.line, x.data.take 32)] else [])
    ++ (if x.dirty1 then [(64 * x.line + 32, x.data.drop 32)] else [])

/-- A Thatch line's dirty sectors written back to DRAM. -/
def State.writeBack (s : State) (x : TLine) : State :=
  if x.aperture then s else x.dirtyParts.foldl (fun s p => s.dramWrite p.1 p.2) s

/-- A line placed in its slice: a victim chosen, its dirty sectors written back. [log 103 DESIGN CHOICE] -/
def State.thFill (s : State) (x : TLine) (stream : Bool) : State :=
  let i := thSlice x.line
  let c := s.thatch.slices[i]
  let base := thSet x.line * 16
  let at' := fun w => nget c.lines (base + w)
  let w := chooseVictim 4 (ngetZ c.plru (thSet x.line)) (fun w => (at' w).isNone)
    (fun w => match at' w with | some y => !y.locked && !y.aperture | none => true)
  let s := match at' w with
    | some y => s.writeBack y
    | none => s
  s.modSlice i fun c => { c with lines := nput c.lines (base + w) x }.touch (base + w) stream

/-- A read of one 64-byte line by any requester: from the slice, filled on a miss, or in bypass (R377, R393). The
answer is none where DRAM answers POISONED. -/
def State.thRead (s : State) (l : Nat) (stream : Bool) : Option Bytes × State :=
  let i := thSlice l
  let c := s.thatch.slices[i]
  if !c.enabled then (s.dramRead (64 * l) 64, s) else
  match c.find l with
  | some k =>
    (((nget c.lines k).map (·.data)), s.modSlice i (·.touch k false))
  | none =>
    match s.dramRead (64 * l) 64 with
    | none => (none, s)
    | some d =>
      (some d, s.thFill { line := l, data := d, dirty0 := false, dirty1 := false, locked := false, aperture := false,
                          region := none, bad0 := false, bad1 := false } stream)

/-- Bytes put into a line's data at an offset. -/
def putAt (data : Bytes) (off : Nat) (bs : Bytes) : Bytes := data.take off ++ bs ++ data.drop (off + bs.length)

/-- A write through of bytes within one line: a present line is updated, DRAM is written (R380). -/
def State.thThrough (s : State) (a : Nat) (bs : Bytes) : State :=
  let l := a / 64
  let i := thSlice l
  let c := s.thatch.slices[i]
  let s :=
    if !c.enabled then s else
    match c.find l with
    | some k =>
      s.modSlice i fun c =>
        { c with lines := nmod c.lines k fun x => { x with data := putAt x.data (a % 64) bs } }.touch k false
    | none => s
  s.dramWrite a bs

/-- A write back of bytes within one 32-byte sector of a region: the Thatch sector becomes dirty (R380); in bypass, or
where its line cannot be read, the bytes go through. -/
def State.thDirty (s : State) (a : Nat) (bs : Bytes) (region : Nat) : State :=
  let l := a / 64
  let i := thSlice l
  if !(s.thatch.slices[i]).enabled then s.thThrough a bs else
  let (d, s) := s.thRead l false
  if d.isNone then s.thThrough a bs else
  match (s.thatch.slices[i]).find l with
  | some k =>
    s.modSlice i fun c => { c with lines := nmod c.lines k fun x =>
      { x with data := putAt x.data (a % 64) bs, region := some region,
               dirty0 := x.dirty0 || a % 64 < 32, dirty1 := x.dirty1 || 32 ≤ a % 64 } }
  | none => s.thThrough a bs

/-- A range of bytes cut at multiples of g: (address, length). -/
def cuts (g : Nat) : Nat → Nat → Nat → List (Nat × Nat)
  | 0, _, _ => []
  | fuel + 1, a, n => if n == 0 then [] else
    let k := min n (g - a % g)
    (a, k) :: cuts g fuel (a + k) (n - k)

/-- A unit's read of DRAM through the Thatch, none where a line answers POISONED. -/
def State.sysRead (s : State) (a n : Nat) (stream : Bool) : Option Bytes × State :=
  (cuts 64 (n + 1) a n).foldl (fun (acc : Option Bytes × State) c =>
    let (d, s) := acc.2.thRead (c.1 / 64) stream
    match acc.1, d with
    | some got, some x => (some (got ++ sliceB (c.1 % 64) c.2 x), s)
    | _, _ => (none, s)) (some [], s)

/-- A unit's write to DRAM through the Thatch: write back inside a bundle-temporary region, through outside (R380). -/
def State.sysWrite (s : State) (a : Nat) (bs : Bytes) : State :=
  (cuts 32 (bs.length + 1) a bs.length).foldl (fun s c =>
    let part := sliceB (c.1 - a) c.2 bs
    match s.regionAt c.1 with
    | some r => s.thDirty c.1 part r
    | none => s.thThrough c.1 part) s

/-! The aperture (R379). -/

/-- The slice and place an aperture offset names. -/
def apertureAt (x : Nat) : Fin 16 × Nat := (Fin.ofNat 16 (bitsOf x 26 23), bitsOf x 18 6 * 16 + bitsOf x 22 19)

/-- The aperture line an address reaches, if access to it is permitted. -/
def State.apertureLine (s : State) (a : Nat) : Option TLine :=
  if a < 0x020000000000 || 0x020008000000 ≤ a then none else
  let p := apertureAt (a - 0x020000000000)
  let c := s.thatch.slices[p.1]
  if !c.enabled then none else (nget c.lines p.2).filter (·.aperture)

/-- A write to an aperture line restores the parity of the sectors it writes (R397). -/
def State.apertureWrite (s : State) (a : Nat) (bs : Bytes) : State :=
  let p := apertureAt (a - 0x020000000000)
  s.modSlice p.1 fun c => { c with lines := nmod c.lines p.2 fun x =>
    { x with data := putAt x.data (a % 64) bs
             bad0 := x.bad0 && 32 ≤ a % 64
             bad1 := x.bad1 && a % 64 + bs.length ≤ 32 } }

/-- Bytes of one line read, none where a sector of them holds bad parity (R397). -/
def TLine.apertureBytes (x : TLine) (off n : Nat) : Option Bytes :=
  if (x.bad0 && off < 32) || (x.bad1 && 32 < off + n) then none else some (sliceB off n x.data)

/-- Bytes of the aperture at an address lie in a sector that holds bad parity (R397). -/
def State.apertureBad (s : State) (a n : Nat) : Bool :=
  (cuts 64 (n + 1) a n).any fun c => (s.apertureLine c.1).any fun x => (x.apertureBytes (c.1 % 64) c.2).isNone

/-- The slice's record of bad parity in an aperture line (R397, R669). [log 250 DESIGN CHOICE] -/
def State.apertureRecord (s : State) (a : Nat) : State :=
  s.raise (0xD0 + (apertureAt (a - 0x020000000000)).1.val)
    { ErrRec.blank with severity := .contained, scope := 10, scopeId := s.finial.holder - 1, event := 3, address := a }

/-- A parity error in the aperture sector at an address, counted (R397). -/
def State.apertureSpoil (s : State) (a : Nat) : State :=
  if (s.apertureLine a).isNone then s else
  let p := apertureAt (a - 0x020000000000)
  (s.modSlice p.1 fun c => { c with lines := nmod c.lines p.2 fun x =>
    { x with bad0 := x.bad0 || a % 64 < 32, bad1 := x.bad1 || 32 ≤ a % 64 } }).bump 0x1801 6 1

/-! L1 data and victim cache. -/

/-- The lines of a set of L1 data: set × 4 + way. -/
def Tile.l1Find (t : Tile) (line : Nat) : Option Nat :=
  (upFrom (line % 128 * 4) 4).find? fun k => match nget t.l1d k with
    | some x => x.line == line
    | none => false

/-- A way of L1 data used. -/
def Tile.l1Touch (t : Tile) (k : Nat) : Tile :=
  { t with l1dPlru := nputZ t.l1dPlru (k / 4) (plruPoint false 2 0 (k % 4) (ngetZ t.l1dPlru (k / 4))) }

/-- Any sector dirty. -/
def L1Line.isDirty (x : L1Line) : Bool := x.dirty.any id

/-- The dirty sectors of an L1 line written back to the Thatch. -/
def State.l1WriteBack (s : State) (x : L1Line) : State :=
  (List.range 4).foldl (fun s j =>
    if x.dirty.getD j false then
      let a := 128 * x.line + 32 * j
      let d := sliceB (32 * j) 32 x.data
      match x.region with
      | some r => s.thDirty a d r
      | none => s.thThrough a d
    else s) s

/-- An L1 line without dirty sectors. -/
def L1Line.clean (x : L1Line) : L1Line := { x with dirty := [false, false, false, false], region := none }

/-- Makes room in the set of a line and places it there: the victim's dirty sectors are written back and the line goes
to the victim cache (R399). -/
def State.l1Place (s : State) (t : TileId) (x : L1Line) : State :=
  let c := s.tiles[t]
  let base := x.line % 128 * 4
  let w := chooseVictim 2 (ngetZ c.l1dPlru (x.line % 128)) (fun w => (nget c.l1d (base + w)).isNone)
    (fun w => match nget c.l1d (base + w) with | some y => !y.locked | none => true)
  let old := nget c.l1d (base + w)
  let s := match old with
    | some y => s.l1WriteBack y
    | none => s
  s.modTile t fun c =>
    let v : List L1Line := match old with
      | some y => keepLast 8 (c.victim.filter (·.line != y.line) ++ [{ y.clean with locked := false }])
      | none => c.victim
    { c with l1d := nput c.l1d (base + w) x, victim := v.filter fun (y : L1Line) => y.line != x.line }.l1Touch (base + w)

/-- The place of a line in L1 data, brought from the victim cache or allocated with no valid sector on a miss. -/
def State.l1Ensure (s : State) (t : TileId) (line : Nat) : Nat × State :=
  match (s.tiles[t]).l1Find line with
  | some k => (k, s.modTile t (·.l1Touch k))
  | none =>
    let s := match (s.tiles[t]).victim.find? (·.line == line) with
      | some x => (s.bump 0x1804 1 1).l1Place t x
      | none =>
        s.l1Place t { line := line, valid := [false, false, false, false], dirty := [false, false, false, false],
                      data := zeros 128, locked := false, region := none, dirtyNo := 0 }
    (((s.tiles[t]).l1Find line).getD 0, s)

/-- The line a tile holds in L1 data, or in its victim cache. -/
def Tile.l1Held (c : Tile) (line : Nat) : Option L1Line :=
  match c.l1Find line with
  | some k => nget c.l1d k
  | none => c.victim.find? fun x => x.line == line

/-- A sector of a line made valid from the Thatch; false where DRAM answers POISONED. -/
def State.l1Sector (s : State) (t : TileId) (line j : Nat) : Bool × State :=
  let held : List Bool := match (s.tiles[t]).l1Held line with
    | some x => x.valid
    | none => []
  if held.getD j false then (true, (s.l1Ensure t line).2) else
  let a := 128 * line + 32 * j
  let (d, s) := s.thRead (a / 64) false
  match d with
  | none => (false, s)
  | some d =>
    let (k, s) := s.l1Ensure t line
    (true, s.modTile t fun c => { c with l1d := nmod c.l1d k fun x =>
      { x with valid := lset x.valid j true, data := putAt x.data (32 * j) (sliceB (a % 64) 32 d) } })

/-- A load of bytes within one sector; none is POISONED. -/
def State.l1Read (s : State) (t : TileId) (a n : Nat) : Option Bytes × State :=
  let (ok, s) := s.l1Sector t (a / 128) (a % 128 / 32)
  if !ok then (none, s) else
  match ((s.tiles[t]).l1Find (a / 128)).bind fun k => nget (s.tiles[t]).l1d k with
  | some x => (some (sliceB (a % 128) n x.data), s)
  | none => (none, s)

/-- The dirty lines of an L1, least recently made dirty first. -/
def Tile.dirtyLines (c : Tile) : List (Nat × L1Line) :=
  sortBy (fun a b => a.2.dirtyNo < b.2.dirtyNo) (c.l1d.filter (·.2.isDirty))

/-- One L1 line cleaned. -/
def State.l1CleanAt (s : State) (t : TileId) (k : Nat) : State :=
  match nget (s.tiles[t]).l1d k with
  | some x => (s.l1WriteBack x).modTile t fun c => { c with l1d := nmod c.l1d k L1Line.clean }
  | none => s

/-- Every dirty line of a tile's L1 written back, as YIELD and DONE do (R383). -/
def State.l1CleanAll (s : State) (t : TileId) : State :=
  (s.tiles[t]).dirtyLines.foldl (fun s p => s.l1CleanAt t p.1) s

/-- Bytes within one sector written through (R380). [log 104 DEDUCED] -/
def State.l1Through (s : State) (t : TileId) (a : Nat) (bs : Bytes) : State :=
  let line := a / 128
  let upd := fun (x : L1Line) =>
    if x.line == line && x.valid.getD (a % 128 / 32) false then { x with data := putAt x.data (a % 128) bs } else x
  (s.modTile t fun c => { c with l1d := c.l1d.map fun p => (p.1, upd p.2), victim := c.victim.map upd }).thThrough a bs

/-- A store of bytes within one sector (R380 to R382). [log 104 DEDUCED] -/
def State.l1Write (s : State) (t : TileId) (a : Nat) (bs : Bytes) : State :=
  let line := a / 128
  let j := a % 128 / 32
  match s.regionAt a with
  | none => s.l1Through t a bs
  | some r =>
    if !(s.thatch.slices[thSlice (a / 64)]).enabled then s.l1Through t a bs else
    let (ok, s) := if bs.length == 32 then (true, s) else s.l1Sector t line j
    if !ok then s.l1Through t a bs else
    let (k, s) := s.l1Ensure t line
    let dirtyNow := ((nget (s.tiles[t]).l1d k).map (·.isDirty)).getD false
    let s :=
      if !dirtyNow && 64 ≤ (s.tiles[t]).dirtyLines.length then
        match (s.tiles[t]).dirtyLines.head? with
        | some p => s.l1CleanAt t p.1
        | none => s
      else s
    s.modTile t fun c =>
      { c with dirtyNo := if dirtyNow then c.dirtyNo else c.dirtyNo + 1
               l1d := nmod c.l1d k fun x =>
                 { x with data := putAt x.data (a % 128) bs, valid := lset x.valid j true, dirty := lset x.dirty j true,
                          region := some r, dirtyNo := if dirtyNow then x.dirtyNo else c.dirtyNo } }

/-- DISPATCH_ACK invalidates every unlocked line of L1 data and of the victim cache (R383). -/
def Tile.l1Flash (c : Tile) : Tile := { c with l1d := c.l1d.filter (·.2.locked), victim := [] }

/-! L1 instruction cache (R376, R383). -/

/-- The place of the line a fetch hits: a line fetched in bundle mode hits only under its own plan slot. -/
def Tile.iFind (c : Tile) (line : Nat) (slot : Option Nat) : Option Nat :=
  (upFrom (line % 64 * 4) 4).find? fun k => match nget c.l1i k with
    | some x => x.line == line && (slot.isNone || x.planSlot == slot)
    | none => false

/-- A fetch of the word at a DRAM address through the instruction cache; false where DRAM answers POISONED. -/
def State.iFetch (s : State) (t : TileId) (a : Nat) (slot : Option Nat) : Bool × State :=
  let line := a / 128
  let j := a % 128 / 32
  let touch := fun (c : Tile) (k : Nat) =>
    { c with l1iPlru := nputZ c.l1iPlru (k / 4) (plruPoint false 2 0 (k % 4) (ngetZ c.l1iPlru (k / 4))) }
  let hit := (s.tiles[t]).iFind line slot
  match hit.bind fun k => (nget (s.tiles[t]).l1i k).map fun x => (k, x.valid.getD j false) with
  | some (k, true) => (true, s.modTile t fun c => touch c k)
  | _ =>
    let (d, s) := s.thRead (a / 64) false
    if d.isNone then (false, s) else
    match hit with
    | some k =>
      (true, s.modTile t fun c => touch { c with l1i := nmod c.l1i k fun x => { x with valid := lset x.valid j true } } k)
    | none =>
      (true, s.modTile t fun c =>
        let base := line % 64 * 4
        let w := chooseVictim 2 (ngetZ c.l1iPlru (line % 64)) (fun w => (nget c.l1i (base + w)).isNone)
          (fun w => match nget c.l1i (base + w) with | some y => !y.locked | none => true)
        touch { c with l1i := nput c.l1i (base + w) ⟨line, lset [false, false, false, false] j true, false, slot⟩ } (base + w))

/-- The bundle-mode instruction lines of a plan slot invalidated on every tile (R384). -/
def State.retireLines (s : State) (slot : Nat) : State :=
  s.modTiles fun v => v.map fun c => { c with l1i := c.l1i.filter fun x => x.2.planSlot != some (slot % 2 ^ 12) }

/-! Tile reset (R349). -/

/-- A tile at reset: tags invalidated, registers zeroed, system registers at reset, fault registers kept, fetching at
TC_RESET_PC in monitor mode. Scratch is not cleared. -/
def Tile.hardReset (c : Tile) : Tile :=
  { Tile.reset with
      resetPc := c.resetPc, pc := c.resetPc, state := .monitor, scratch := c.scratch, tfValid := c.tfValid,
      tfCause := c.tfCause, tfMsp := c.tfMsp, tfPc := c.tfPc }

end Sys2Proof.Machine
end

