-- ==== Sys2Proof/Machine/Bus.lean ====
section
/-! DEFINITION. Reads and writes of device addresses by units other than a tile's loads and stores (R22, R24), and the
requester tags of host reads (R503). -/

namespace Sys2Proof.Machine

/-- Bytes of a tile's scratch. -/
def Tile.scratchRead (c : Tile) (off n : Nat) : Bytes := memBytes c.scratch off n

/-- A tile's scratch written. -/
def Tile.scratchWrite (c : Tile) (off : Nat) (bs : Bytes) : Tile := { c with scratch := memPutBytes c.scratch off bs }

/-- A range cut where what answers changes: at the lines of the aperture, and between the scratches of two tiles (R22). -/
def State.devCuts (s : State) (a n : Nat) : List (Nat × Nat) :=
  match s.regionOf a with
  | .aperture => cuts 64 (n + 1) a n
  | .scratch _ _ => cuts 0x40000 (n + 1) a n
  | _ => [(a, n)]

/-- A read that one line of the aperture, one scratch, or DRAM answers. -/
def State.devRead1 (s : State) (a n : Nat) (stream : Bool) : Option Bytes × State :=
  match s.regionOf a with
  | .dram => if s.dram.managed < a + n then (none, s) else s.sysRead a n stream
  | .aperture => ((s.apertureLine a).bind fun x => x.apertureBytes (a % 64) n, s)
  | .scratch t off => (some ((s.tiles[t]).scratchRead off n), s)
  | _ => (none, s)

/-- A read of device space; none where nothing answers or the data is POISONED. -/
def State.devRead (s : State) (a n : Nat) (stream : Bool) : Option Bytes × State :=
  (s.devCuts a n).foldl (fun (acc : Option Bytes × State) c =>
    let (d, s) := acc.2.devRead1 c.1 c.2 stream
    (acc.1.bind fun got => d.map (got ++ ·), s)) (some [], s)

/-- A write that one line of the aperture, one scratch, or DRAM takes. -/
def State.devWrite1 (s : State) (a : Nat) (bs : Bytes) : State :=
  match s.regionOf a with
  | .dram => s.sysWrite a (bs.take (s.dram.managed - a))
  | .aperture => s.apertureWrite a bs
  | .scratch t off => s.modTile t fun c => c.scratchWrite off bs
  | _ => s

/-- A write of device space; nothing where nothing answers. -/
def State.devWrite (s : State) (a : Nat) (bs : Bytes) : State :=
  (s.devCuts a bs.length).foldl (fun s c => s.devWrite1 c.1 (sliceB (c.1 - a) c.2 bs)) s

/-- The number of requester tags of a port: 512 where the host enabled 10-bit tags, else 256. -/
def State.tagCount (s : State) (p : PortId) : Nat :=
  if bitAt (ngetZ (s.host.funcs[funcOf p 0]).config 0x98) 12 then 512 else 256

/-- COMPLETION_TIMEOUT of a port in ns (R503). -/
def State.cplTimeout (s : State) (p : PortId) : Nat := 1000 * s.cfg 0x3011 (p.val + 1) 50000

/-- A read of n bytes of host memory leaves with a function's requester ID, at the host address of an offset of the window (R27). -/
def State.hostRead (s : State) (f : FuncId) (x n : Nat) : State := s.emit (.hostRead f (s.hostAddr f x) n)

/-- A read-back of the line that holds the last of n bytes written at an offset of the window (R32, R448, R529). -/
def State.readBack (s : State) (f : FuncId) (x n : Nat) : State := s.hostRead f ((x + n - 1) / 64 * 64) 64

/-- The lowest free tag of a port given to a read of n bytes at an offset of the window, and the request sent; none while every
tag is taken, and the read waits (R27, R503, R504). -/
def State.takeTag (s : State) (f : FuncId) (use : TagUse) (x n : Nat) : Option State :=
  let p := funcPort f
  let tags := (s.host.ports[p]).tags
  ((List.range (s.tagCount p)).find? fun k => (nget tags k).isNone).map fun k =>
    (s.modPort p fun h => { h with tags := nput h.tags k (.outstanding f use (s.time.ts + s.cplTimeout p)) }).hostRead f x n

end Sys2Proof.Machine
end

