-- ==== Sys2Proof/Machine/Expr.lean ====
section
/-! DEFINITION. The hash function H (R369) and the expression programs of plan images (R166, R167): their operations,
their static types and scales (R695), and their evaluation. -/

namespace Sys2Proof.Machine

/-! H (R369). -/

/-- A rotate left of 64 bits. -/
def rotl64 (x n : Nat) : Nat := (x * 2 ^ n % 2 ^ 64) ||| (x / 2 ^ (64 - n))

/-- step(h, x). -/
def hStep (h x : Nat) : Nat := rotl64 ((h ^^^ x) * 0xB3F10D5AC7E2946B % 2 ^ 64) 29 * 0x8E2C5193F7A03D6D % 2 ^ 64

/-- fin(h). -/
def hFin (h : Nat) : Nat :=
  let h := h ^^^ h / 2 ^ 31
  let h := h * 0xD1B54A329C6E07F5 % 2 ^ 64
  h ^^^ h / 2 ^ 33

/-- H of a byte string. -/
def hashBytes (s : Bytes) : Nat :=
  let n := ceilDiv s.length 8
  hFin ((List.range n).foldl (fun h i => hStep h (fieldAt (8 * i) 8 s)) (0x6A1D4C8F2B97E535 ^^^ s.length))

/-- HASH64 of a value of a type (R370). -/
def hashVal (ty : Nat) (v : Val) : Nat :=
  match v with
  | .null => hashBytes (List.replicate 8 0xFF)
  | .num x => hashBytes (toLE (tyWidth ty) x)
  | .str b => hashBytes b

/-! Types of slots and expressions. -/

/-- The static type of a slot, temporary or constant: type code, DEC64 scale, MAX_LEN of STR and BYTES. -/
structure STy where
  ty : Nat
  scale : Nat
  maxLen : Nat
deriving DecidableEq, Repr

/-- A constant of an image with its value for a run (R168, R169). -/
structure XConst where
  sty : STy
  isNull : Bool
  isSet : Bool
  isParam : Bool
  vals : List Val
deriving DecidableEq, Repr

/-- An expression instruction (R166). -/
structure XIns where
  op : Nat
  ty : Nat
  dst : Nat
  a : Nat
  b : Nat
  c : Nat
  k : Nat
deriving DecidableEq, Repr

/-- An expression program. -/
structure XProg where
  rtype : Nat
  temps : Nat
  ins : List XIns
deriving DecidableEq, Repr

/-- A type that the image does not fix: the slot of a kernel, or of a table whose schema does not answer (R162, R176). -/
def STy.unfixed : STy := ⟨0xFF, 0xFF, 0⟩

/-- Equal scales, as far as both are fixed. -/
def STy.sameScale (a b : STy) : Bool := a.scale == 0xFF || b.scale == 0xFF || a.scale == b.scale

/-- The scale of two operands of equal scale. -/
def STy.oneScale (a b : STy) : Nat := if a.scale == 0xFF then b.scale else a.scale

/-- The static type of an operand: a slot, a temporary, or constant k. -/
def xOperandTy (slots temps : NMap STy) (consts : List XConst) (k o : Nat) : Option STy :=
  if o < 0x40 then nget slots o
  else if o < 0x60 then nget temps o
  else if o == 0xFE then ((consts[k]?).filter fun c => !c.isSet).map (·.sty)
  else none

/-- An instruction reads the constant K through an operand. -/
def XIns.readsK (i : XIns) : Bool := i.a == 0xFE || i.b == 0xFE || i.c == 0xFE

/-- Operands an operation uses: A, B, C. -/
def xUses (op : Nat) : Bool × Bool × Bool :=
  if op == 6 || op == 7 || op == 0x1A || op == 0x20 || op == 0x21 || op == 0x25 || op == 0x28 || op == 0x30 || op == 0x31
    || op == 0x38 || op == 0x39 then (true, false, false)
  else if op == 0x23 || op == 0x24 then (true, true, true)
  else (true, true, false)

/-- Numeric types: integers, TS64, DEC64, floating point. -/
def tyNumeric (ty : Nat) : Bool := 2 ≤ ty && ty ≤ 13

/-- The static result type of an instruction, none where it breaks R166, R167 or R695. -/
def xInsTy (slots temps : NMap STy) (consts : List XConst) (i : XIns) : Option STy :=
  let (ua, ub, uc) := xUses i.op
  let absent := (ua || i.a == 0xFF) && (ub || i.b == 0xFF) && (uc || i.c == 0xFF)
  let kUsed := i.readsK || i.op == 0x25 || i.op == 0x30 || (i.op == 0x28 && i.ty == 13)
  if !absent || (!kUsed && i.k != 0) || !tyKnown i.ty then none else
  let get := fun o => xOperandTy slots temps consts i.k o
  let bool : STy := ⟨1, 0, 0⟩
  match get i.a with
  | none => none
  | some a =>
    let bty := if ub then get i.b else some a
    let cty := if uc then get i.c else some a
    match bty, cty with
    | some b, some c =>
      let is := fun (x : STy) => x.ty == i.ty || x.ty == 0xFF
      let sc := fun (s : Nat) => if i.ty == 13 then s else 0
      let res := fun (s : Nat) => some (⟨i.ty, sc s, 0⟩ : STy)
      let open' := i.ty == 13 && (a.scale == 0xFF || b.scale == 0xFF)
      match i.op with
      | 0x01 | 0x02 | 0x05 => if tyNumeric i.ty && is a && is b && a.sameScale b then res (a.oneScale b) else none
      | 0x03 => if tyNumeric i.ty && is a && is b && (open' || sc (a.scale + b.scale) ≤ 18) then res (if open' then 0xFF else a.scale + b.scale) else none
      | 0x04 => if tyNumeric i.ty && is a && is b then res a.scale else none
      | 0x06 | 0x07 => if tyNumeric i.ty && is a then res a.scale else none
      | 0x10 | 0x11 | 0x12 | 0x13 | 0x14 | 0x15 => if is a && is b && a.sameScale b then some bool else none
      | 0x18 | 0x19 => if i.ty == 1 && is a && is b then some bool else none
      | 0x1A => if i.ty == 1 && is a then some bool else none
      | 0x20 | 0x21 => if is a then some bool else none
      | 0x22 => if is a && is b && a.sameScale b then some ⟨i.ty, sc (a.oneScale b), max a.maxLen b.maxLen⟩ else none
      | 0x23 =>
        if (a.ty == 1 || a.ty == 0xFF) && is b && is c && b.sameScale c then some ⟨i.ty, sc (b.oneScale c), max b.maxLen c.maxLen⟩ else none
      | 0x24 => if is a && is b && is c && a.sameScale b && a.sameScale c && b.sameScale c then some bool else none
      | 0x25 =>
        match consts[i.k]? with
        | some k => if is a && k.isSet && k.sty.ty == i.ty && k.sty.sameScale a then some bool else none
        | none => none
      | 0x28 =>
        if (a.ty != 0xFF && tyVar a.ty != tyVar i.ty) || (i.ty == 13 && 18 < i.k) then none
        else some ⟨i.ty, if i.ty == 13 then i.k else 0, if tyVar i.ty then a.maxLen else 0⟩
      | 0x30 =>
        match consts[i.k]? with
        | some k => if is a && tyVar i.ty && k.sty.ty == i.ty && !k.isSet then some bool else none
        | none => none
      | 0x31 => if is a && tyVar i.ty then some ⟨8, 0, 0⟩ else none
      | 0x38 => if is a then some ⟨9, 0, 0⟩ else none
      | 0x39 => if is a && i.ty == 12 then some ⟨8, 0, 0⟩ else none
      | _ => none
    | _, _ => none

/-- The static type of a program's result, none where a program is malformed; temporaries typed as written. -/
def xProgTy (slots : NMap STy) (consts : List XConst) (p : XProg) : Option STy :=
  let r := p.ins.foldl (fun (acc : Option (NMap STy × STy)) i =>
    match acc with
    | none => none
    | some (temps, _) =>
      if i.dst < 0x40 || 0x40 + p.temps ≤ i.dst then none
      else (xInsTy slots temps consts i).map fun t => (nput temps i.dst t, t)) (some ([], ⟨0, 0, 0⟩))
  match r with
  | some (_, t) => if p.ins.isEmpty || t.ty != p.rtype then none else some t
  | none => none

/-! Operations on values. -/

/-- The exact integer of a fixed-width integer, BOOL, TS64 or DEC64 value. -/
def xInt (ty x : Nat) : Int := if tySigned ty then signedOf (tyBits ty) x else (x : Int)

/-- An integer as a value of an integer-like type; none outside its range. -/
def xFit (ty : Nat) (v : Int) : Option Nat :=
  let w := tyBits ty
  let ok :=
    if ty == 1 then 0 ≤ v && v ≤ 1
    else if tySigned ty then -(2 ^ (w - 1) : Int) ≤ v && v < 2 ^ (w - 1)
    else 0 ≤ v && v < 2 ^ w
  if ok then some (unsignedOf w v) else none

/-- The format of a floating-point type. -/
def fmtOf (ty : Nat) : FFmt := if ty == 10 then f32 else f64

/-- The truncated remainder, exact, with the sign of the dividend (R167). -/
def FFmt.rem (f : FFmt) (a b : Nat) : Nat :=
  match f.unpack a, f.unpack b with
  | .nan _, _ => f.qnan
  | _, .nan _ => f.qnan
  | .inf _, _ => f.qnan
  | .fin .., .inf _ => a % 2 ^ f.width
  | .fin na ma ea, .fin _ mb eb =>
    if mb == 0 then f.qnan else
    let e := min ea eb
    let r := (ma * 2 ^ (ea - e).toNat) % (mb * 2 ^ (eb - e).toNat)
    (f.round na r e false).bits

/-- Arithmetic on two values present (R167); none is a counted NULL. `sb` is scale(B) for a DEC64 DIV. -/
def xArith (op ty sb a b : Nat) : Option Nat :=
  if tyFloat ty then
    let f := fmtOf ty
    match op with
    | 1 => some (f.add a b).bits
    | 2 => some (f.sub a b).bits
    | 3 => some (f.mul a b).bits
    | 4 => some (f.div a b).bits
    | 5 => some (f.rem a b)
    | 6 => some (f.canon (a ^^^ f.signBit))
    | _ => some (f.canon (a % f.signBit))
  else
    let x := xInt ty a
    let y := xInt ty b
    match op with
    | 1 => xFit ty (x + y)
    | 2 => xFit ty (x - y)
    | 3 => xFit ty (x * y)
    | 4 =>
      if y == 0 then none
      else if ty == 13 then
        match xFit ty (x * 10 ^ sb) with
        | some _ => xFit ty (Int.tdiv (x * 10 ^ sb) y)
        | none => none
      else xFit ty (Int.tdiv x y)
    | 5 => if y == 0 then none else xFit ty (Int.tmod x y)
    | 6 => xFit ty (-x)
    | _ => xFit ty (x.natAbs : Int)

/-- v × 10^(to − from), truncated toward zero. -/
def rescale (v : Int) (from' to' : Nat) : Int :=
  if from' ≤ to' then v * 10 ^ (to' - from') else Int.tdiv v (10 ^ (from' - to'))

/-- v × 10^−scale rounded once to a format. -/
def FFmt.ofDec (f : FFmt) (v : Int) (scale : Nat) : Nat :=
  let d := 10 ^ scale
  let k := 2 * f.p + 64
  let n := v.natAbs * 2 ^ k
  (f.round (v < 0) (n / d) (-(k : Int)) (n % d != 0)).bits

/-- CAST of a present value (R167); none is a counted NULL. -/
def xCast (src : STy) (ty scale : Nat) (v : Val) : Option Val :=
  match v with
  | .null => some .null
  | .str b => some (.str b)
  | .num x =>
    if tyFloat src.ty then
      let f := fmtOf src.ty
      if tyFloat ty then some (.num (f.cvt (fmtOf ty) x).bits) else
      match f.unpack x with
      | .fin n m e =>
        let mag := m * 10 ^ scale
        let t := if 0 ≤ e then mag * 2 ^ e.toNat else mag / 2 ^ (-e).toNat
        (xFit ty (if n then -(t : Int) else t)).map Val.num
      | _ => none
    else
      let i := xInt src.ty x
      if tyFloat ty then some (.num ((fmtOf ty).ofDec i src.scale))
      else (xFit ty (rescale i src.scale scale)).map Val.num

/-- A truth value as a BOOL value. -/
def xBool (b : Bool) : Val := .num (if b then 1 else 0)

/-- The comparisons 0x10 to 0x15 on present values (R167). -/
def xCompare (op ty : Nat) (a b : Val) : Bool :=
  let lt := valLt ty a b
  let gt := valLt ty b a
  match op with
  | 0x10 => !lt && !gt
  | 0x11 => lt || gt
  | 0x12 => lt
  | 0x13 => !gt
  | 0x14 => gt
  | _ => !lt

/-- A byte string begins with another. -/
def beginsWith (a p : Bytes) : Bool := a.take p.length == p

/-- RAFT32 of a TS64 by the formula of R47. -/
def raftOf (ts period phase : Nat) : Nat := (((ts : Int) - phase) / (period : Int) % 2 ^ 32).toNat

/-- One operation: its value, and whether it gave a counted NULL. -/
def xOp (i : XIns) (sa : STy) (sb : Nat) (consts : List XConst) (period phase : Nat) (a b c : Val) : Val × Bool :=
  let strict2 := a == .null || b == .null
  let counted := fun (r : Option Val) => match r with
    | some v => (v, false)
    | none => (Val.null, true)
  match i.op with
  | 0x01 | 0x02 | 0x03 | 0x04 | 0x05 =>
    if strict2 then (.null, false) else counted ((xArith i.op i.ty sb a.bitsD b.bitsD).map Val.num)
  | 0x06 | 0x07 => if a == .null then (.null, false) else counted ((xArith i.op i.ty 0 a.bitsD 0).map Val.num)
  | 0x10 | 0x11 | 0x12 | 0x13 | 0x14 | 0x15 => (if strict2 then .null else xBool (xCompare i.op i.ty a b), false)
  | 0x18 => (if a == xBool false || b == xBool false then xBool false else if strict2 then .null else xBool true, false)
  | 0x19 => (if a == xBool true || b == xBool true then xBool true else if strict2 then .null else xBool false, false)
  | 0x1A => (if a == .null then .null else xBool (a != xBool true), false)
  | 0x20 => (xBool (a == .null), false)
  | 0x21 => (xBool (a != .null), false)
  | 0x22 => (if a == .null then b else a, false)
  | 0x23 => (if a == xBool true then b else c, false)
  | 0x24 => (if a == .null || b == .null || c == .null then .null else xBool (!valLt i.ty a b && !valLt i.ty c a), false)
  | 0x25 =>
    (if a == .null then .null else xBool (((consts[i.k]?).map fun k => k.vals.any fun m => !valLt i.ty a m && !valLt i.ty m a).getD
      false), false)
  | 0x28 => if a == .null then (.null, false) else counted (xCast sa i.ty (if i.ty == 13 then i.k else 0) a)
  | 0x30 =>
    match (consts[i.k]?).bind (·.vals.head?) with
    | some p => (if a == .null || p == .null then .null else xBool (beginsWith a.bytesD p.bytesD), false)
    | none => (.null, false)
  | 0x31 => (if a == .null then .null else .num a.bytesD.length, false)
  | 0x38 => (.num (hashVal i.ty a), false)
  | _ => (if a == .null then .null else .num (raftOf a.bitsD period phase), false)

/-- A program evaluated on a row: the result, and how many values it made NULL by count. -/
def xEval (slots : NMap STy) (consts : List XConst) (period phase : Nat) (p : XProg) (row : SlotRow) : Val × Nat :=
  let r := p.ins.foldl (fun (acc : NMap Val × NMap STy × Val × Nat) i =>
    let (temps, tys, _, n) := acc
    let get := fun (o : Nat) =>
      if o < 0x40 then (nget row o).getD .null
      else if o < 0x60 then (nget temps o).getD .null
      else if o == 0xFE then (((consts[i.k]?).bind (·.vals.head?)).getD .null)
      else .null
    let ty := fun (o : Nat) => (xOperandTy slots tys consts i.k o).getD ⟨0, 0, 0⟩
    let (v, bad) := xOp i (ty i.a) (ty i.b).scale consts period phase (get i.a) (get i.b) (get i.c)
    let v := canonVal ((xInsTy slots tys consts i).getD ⟨0, 0, 0⟩).ty v
    (nput temps i.dst v, nput tys i.dst ((xInsTy slots tys consts i).getD ⟨0, 0, 0⟩), v, if bad then n + 1 else n))
    ([], [], Val.null, 0)
  (r.2.2.1, r.2.2.2)

end Sys2Proof.Machine
end

