-- ==== Sys2Proof/Machine/SparWords.lean ====
section
/-! DEFINITION. Instruction words of the Spar core (R330, R331, R335, R345, R359, R360): which are legal (R334), which
need monitor mode, where a direct branch goes, and the words that exceptions report. -/

namespace Sys2Proof.Machine

/-- What a word is: illegal, or an instruction that may need monitor mode and may branch by a number of words. -/
inductive WordKind where
  | illegal
  | legal (monitor : Bool) (branch : Option Int)
deriving DecidableEq, Repr

/-- Major opcode of a word. -/
def wMajor (x : Nat) : Nat := bitsOf x 31 26
/-- Field [25:21]. -/
def wD (x : Nat) : Nat := bitsOf x 25 21
/-- Field [20:16]. -/
def wA (x : Nat) : Nat := bitsOf x 20 16
/-- Field [15:11]. -/
def wB (x : Nat) : Nat := bitsOf x 15 11

/-- System register numbers of R324. -/
def sysRegListed (n : Nat) : Bool := n ≤ 3 || (8 ≤ n && n ≤ 0xB) || (0x10 ≤ n && n ≤ 0x3F)

/-- The imm16 of a CMO (R389). -/
def cmoLegal (imm : Nat) : Bool := 1 ≤ imm % 8 && imm % 8 ≤ 5 && bitsOf imm 5 4 ≤ 2 && imm / 2 ^ 7 == 0

/-- The elements of a vector at an element width (R354). -/
def vElems (ew : Nat) : Nat := 64 / 2 ^ ew

/-- A vector word of majors 0x30 to 0x39 is legal (R359 to R371). [log 89 DEDUCED, 92 DEDUCED] -/
def vecLegal (x : Nat) : Bool :=
  let f := x % 32
  let ew := bitsOf x 6 5
  let z := bitAt x 7
  let m := bitsOf x 10 8
  let d := wD x
  let a := wA x
  let b := wB x
  let fp := 2 ≤ ew
  match wMajor x with
  | 0x30 => f ≤ 19 && (f < 17 || b == 0)
  | 0x31 => f ≤ 8 && fp && (f != 4 || b == 0)
  | 0x32 => f ≤ 10 && d < 8 && (f < 6 || fp)
  | 0x33 =>
    let gather := b % ceilDiv (vElems ew) 16 == 0
    if f == 0 || f == 1 then b == 0
    else if f == 2 || f == 3 then true
    else if f == 4 || f == 0xC || f == 6 || f == 0xE then gather
    else (f == 5 || f == 0xD) && gather && m != 0
  | 0x34 => f ≤ 10 && (f == 1 || f == 3 || b == 0) && (f != 2 || !z) && (f != 10 || fp)
  | 0x35 =>
    if f ≤ 3 then d < 8 && a < 8 && b < 8
    else if f == 4 then d < 8 && a < 8 && b == 0
    else if f ≤ 7 then a < 8 && b == 0
    else if f == 8 then d < 8 && b == 0
    else f == 9 && d < 8
  | 0x36 => f == 0
  | 0x37 => f == 0 && ew == 0 && !z && (d == 2 || d == 4 || d == 6)
  | 0x38 => b == 0 && (f == 0 || ((f == 1 || f == 2) && ew == 3))
  | 0x39 =>
    b == 0 && (if f == 0 || f == 1 then ew ≤ 2 else if f == 2 then 1 ≤ ew else f ≤ 5 && fp)
  | _ => false

/-- The kind of an instruction word (R334). [log 92 DEDUCED] -/
def sparWord (x : Nat) : WordKind :=
  let low := x % 2 ^ 11
  let imm := x % 2 ^ 16
  let yes := fun (ok : Bool) => if ok then WordKind.legal false none else .illegal
  if x == 0 || x == 0xFFFFFFFF then .illegal else
  match wMajor x with
  | 0x00 => yes (low ≤ 0x1B && (low < 0x18 || wB x == 0))
  | 0x01 | 0x02 | 0x03 | 0x04 | 0x05 | 0x06 | 0x07 | 0x08 | 0x09 => yes true
  | 0x0A | 0x0B => yes (wA x < 4)
  | 0x10 | 0x11 | 0x12 | 0x13 | 0x14 | 0x15 | 0x16 | 0x18 | 0x19 | 0x1A | 0x1B | 0x1C | 0x1D | 0x1E | 0x1F => yes true
  | 0x20 | 0x21 | 0x22 | 0x23 | 0x24 | 0x25 => .legal false (some (signedOf 16 imm))
  | 0x26 | 0x27 => .legal false (some (signedOf 26 x))
  | 0x28 => yes ((low == 0 && wD x == 0 && wB x == 0) || (low == 1 && wB x == 0))
  | 0x2C =>
    let op := low / 2
    yes (op ≤ 14 && ((op != 4 && op < 10) || wB x == 0))
  | 0x2D => yes (bitsOf x 5 2 == 0)
  | 0x3D => yes (low ≤ 3)
  | 0x3E =>
    match wA x with
    | 0 => yes (wD x == 0)
    | 1 => if wD x == 0 && imm == 0 then .legal true none else .illegal
    | 2 | 3 => yes (sysRegListed imm)
    | 4 => if wD x == 0 && imm == 0 then .legal true none else .illegal
    | 5 => yes (wD x == 0)
    | 6 => yes (wD x == 0 && imm == 0)
    | 7 => if cmoLegal imm then .legal true none else .illegal
    | _ => .illegal
  | _ => yes (vecLegal x)

/-- The word of a system instruction: func5, g, imm16. -/
def wordS (func5 g imm : Nat) : Nat := 0x3E * 2 ^ 26 + g * 2 ^ 21 + func5 * 2 ^ 16 + imm % 2 ^ 16

/-- The word of a vector instruction: major, func, d, a, b, m, Z, EW. -/
def wordV (major func d a b m : Nat) (z : Bool) (ew : Nat) : Nat :=
  major * 2 ^ 26 + d * 2 ^ 21 + a * 2 ^ 16 + b * 2 ^ 11 + m * 2 ^ 8 + z.toNat * 2 ^ 7 + ew * 2 ^ 5 + func

/-- A kernel's code decodes as instructions a bundle may hold, its direct branches staying inside it (check 8 of R176). -/
def kernelCodeOk (code : Bytes) : Bool :=
  let n := code.length / 4
  code.length % 4 == 0 && (List.range n).all fun i =>
    match sparWord (fieldAt (4 * i) 4 code) with
    | .illegal => false
    | .legal mon none => !mon
    | .legal mon (some off) => !mon && 0 ≤ (i : Int) + off && (i : Int) + off < n

end Sys2Proof.Machine
end

