-- ==== Sys2Proof/Machine/PlanImage.lean ====
section
/-! DEFINITION. Plan images (chapter 05): the parts of an image (R153 to R175), and what check 4 of R176 judges. -/

namespace Sys2Proof.Machine

/-- A table reference (R156). -/
structure TRefD where
  id : Nat
  crc : Nat
  tsFrom : Nat
  tsTo : Nat
  mask : Nat
deriving DecidableEq, Repr

/-- A pipeline descriptor (R158). -/
structure PipeD where
  first : Nat
  count : Nat
  kind : Nat
  split : Nat
  priority : Nat
  courses : Nat
  depends : Nat
deriving DecidableEq, Repr

/-- The courses a pipeline may run on as a mask; a COURSES of 0 names all of them (R158). -/
def PipeD.mayRunOn (p : PipeD) : Nat := if p.courses == 0 then 0xFF else p.courses

/-- An operator descriptor (R161). -/
structure OpD where
  code : Nat
  outFirst : Nat
  outCount : Nat
  expr : Nat
  kernel : Nat
  ins : List Nat
  w : List Nat
deriving DecidableEq, Repr

/-- A kernel entry with its code (R170). -/
structure KernD where
  offset : Nat
  bytes : Nat
  entry : Nat
  dataKib : Nat
  stack : Nat
  level : Nat
  vl : Nat
  code : Bytes
deriving DecidableEq, Repr

/-- A buffer entry (R173). -/
structure BufD where
  kind : Nat
  parts : Nat
  bytes : Nat
deriving DecidableEq, Repr

/-- The sections of an image: type, directory entry's offset, OFFSET and LENGTH. -/
structure SecD where
  type : Nat
  dir : Nat
  off : Nat
  len : Nat
deriving DecidableEq, Repr

/-- The contents of an image that the device uses. -/
structure PImg where
  continuous : Bool
  signed : Bool
  level : Nat
  trefs : List TRefD
  pipes : List PipeD
  ops : List OpD
  exprs : List XProg
  consts : List XConst
  kernels : List KernD
  claims : Claims
  bufs : List BufD
  /-- OFFSETs of the sections TABLES to CLAIMS and SIGNATURE, by type. -/
  at' : NMap Nat
  /-- Offsets of the expression programs and of the constants. -/
  exprAt : List Nat
  constAt : List Nat
deriving DecidableEq, Repr

/-- Directory of an image (R154), at most eight entries. -/
def imgDir (b : Bytes) : List SecD :=
  (List.range (min 8 (fieldAt 12 2 b))).map fun i =>
    let e := 128 + 16 * i
    ⟨fieldAt e 1 b, e, fieldAt (e + 4) 4 b, fieldAt (e + 8) 4 b⟩

/-- The section of a type: its OFFSET and its bytes; nothing for one that is absent. -/
def imgSec (b : Bytes) (ty : Nat) : Nat × Bytes :=
  match (imgDir b).find? (·.type == ty) with
  | some s => (s.off, sliceB s.off s.len b)
  | none => (0, [])

/-- The offsets an index of EXPRESSIONS or CONSTANTS lists (R166, R168). -/
def secIndex (sec : Bytes) (limit : Nat) : List Nat :=
  (List.range (min limit (fieldAt 0 4 sec))).map fun i => fieldAt (4 + 4 * i) 4 sec

/-- An expression program at an offset of its section (R166). -/
def parseProg (sec : Bytes) (o : Nat) : XProg :=
  { rtype := fieldAt (o + 2) 1 sec, temps := fieldAt (o + 3) 1 sec,
    ins := (List.range (min 256 (fieldAt o 2 sec))).map fun i =>
      let q := o + 8 + 8 * i
      { op := fieldAt q 1 sec, ty := fieldAt (q + 1) 1 sec, dst := fieldAt (q + 2) 1 sec, a := fieldAt (q + 3) 1 sec,
        b := fieldAt (q + 4) 1 sec, c := fieldAt (q + 5) 1 sec, k := fieldAt (q + 6) 2 sec } }

/-- A constant at an offset of its section (R168); a parameter keeps its index as its value. -/
def parseConst (sec : Bytes) (o : Nat) : XConst :=
  let ty := fieldAt o 1 sec
  let fl := fieldAt (o + 1) 1 sec
  let n := fieldAt (o + 2) 2 sec
  let vb := fieldAt (o + 4) 4 sec
  let w := tyWidth ty
  let v := o + 8
  let vals :=
    if bitAt fl 0 then [Val.null]
    else if tyVar ty then [Val.str (sliceB (v + 4) (fieldAt v 4 sec) sec)]
    else (List.range (if bitAt fl 1 then n else 1)).map fun i => Val.num (fieldAt (v + i * w) w sec)
  { sty := ⟨ty, fl / 8, if tyVar ty then vb - 4 else 0⟩, isNull := bitAt fl 0, isSet := bitAt fl 1, isParam := bitAt fl 2,
    vals := vals.map (canonVal ty) }

/-- Constants with the parameter words of a run in place of parameter indices (R169). -/
def bindParams (params : List Nat) (l : List XConst) : List XConst :=
  l.map fun c =>
    if c.isParam then
      { c with vals := c.vals.map fun v => canonVal c.sty.ty (.num (params.getD v.bitsD 0 % 2 ^ tyBits c.sty.ty)) }
    else c

/-- The claim header (R173). -/
def parseClaims (sec : Bytes) : Claims :=
  { tiles := fieldAt 0 1 sec, banks := fieldAt 1 1 sec, hip := fieldAt 2 1 sec, yelm := fieldAt 3 1 sec,
    channels := fieldAt 4 1 sec, scratchKib := fieldAt 8 4 sec, resultBytes := fieldAt 16 8 sec,
    bufferBytes := fieldAt 24 8 sec, energyLimit := fieldAt 32 8 sec }

/-- An image read into its parts. -/
def parseImage (b : Bytes) : PImg :=
  let tb := (imgSec b 1).2
  let pb := (imgSec b 2).2
  let ob := (imgSec b 3).2
  let (eo, eb) := imgSec b 4
  let kb := (imgSec b 5).2
  let (co, cb) := imgSec b 6
  let lb := (imgSec b 7).2
  { continuous := bitAt (fieldAt 6 1 b) 0, signed := bitAt (fieldAt 6 1 b) 1, level := fieldAt 20 1 b,
    trefs := (List.range (min 64 (tb.length / 64))).map fun i =>
      let o := 64 * i
      ⟨fieldAt o 2 tb, fieldAt (o + 8) 4 tb, fieldAt (o + 16) 8 tb, fieldAt (o + 24) 8 tb, fieldAt (o + 32) 32 tb⟩,
    pipes := (List.range (min 16 (pb.length / 16))).map fun i =>
      let o := 16 * i
      let k := fieldAt (o + 3) 1 pb
      ⟨fieldAt o 2 pb, fieldAt (o + 2) 1 pb, k % 16, k / 16, fieldAt (o + 4) 1 pb % 8, fieldAt (o + 5) 1 pb,
       fieldAt (o + 6) 2 pb⟩,
    ops := (List.range (min 512 (ob.length / 64))).map fun i =>
      let o := 64 * i
      ⟨fieldAt o 1 ob, fieldAt (o + 1) 1 ob, fieldAt (o + 2) 1 ob, fieldAt (o + 4) 2 ob, fieldAt (o + 6) 2 ob,
       (List.range 8).map fun j => fieldAt (o + 8 + j) 1 ob, (List.range 6).map fun j => fieldAt (o + 16 + 8 * j) 8 ob⟩,
    exprs := (secIndex eb 1024).map (parseProg eb),
    consts := (secIndex cb 4096).map (parseConst cb),
    kernels := (List.range (min 64 (fieldAt 0 4 kb))).map fun i =>
      let o := 4 + 32 * i
      let off := fieldAt o 4 kb
      let n := fieldAt (o + 4) 4 kb
      ⟨off, n, fieldAt (o + 8) 4 kb, fieldAt (o + 12) 2 kb, fieldAt (o + 14) 2 kb, fieldAt (o + 16) 1 kb,
       fieldAt (o + 17) 1 kb, sliceB off n kb⟩,
    claims := parseClaims lb,
    bufs := (List.range (min 32 (fieldAt 5 1 lb))).map fun i =>
      let o := 64 + 16 * i
      ⟨fieldAt o 1 lb, fieldAt (o + 1) 2 lb, fieldAt (o + 8) 8 lb⟩,
    at' := (imgDir b).foldl (fun m s => nput m s.type s.off) [],
    exprAt := (secIndex eb 1024).map (eo + ·), constAt := (secIndex cb 4096).map (co + ·) }

/-- PLAN_ID of an image (R153). -/
def imgPlanId (b : Bytes) : Bytes := sliceB 24 16 b

/-- The KEY_SLOT of a signed image, 1 to 8 (R175). -/
def imgKeySlot (b : Bytes) : Nat := fieldAt 0 1 (imgSec b 15).2

/-! Checks. A check answers the offset of the first offending field (R179). -/

/-- The offset where no offset applies (R179). -/
def noOffset : Nat := 0xFFFFFFFF

/-- The first condition that fails, with its offset. -/
def firstBad : List (Bool × Nat) → Option Nat
  | [] => none
  | (ok, off) :: r => if ok then firstBad r else some off

/-- The offset of the first non-zero byte of a range, if there is one. -/
def firstNonZero (b : Bytes) (off n : Nat) : Option Nat :=
  ((sliceB off n b).findIdx? (· != 0)).map (off + ·)

/-- A range of zeros, as a condition and its offset. -/
def zeroAt (b : Bytes) (off n : Nat) : Bool × Nat := ((firstNonZero b off n).isNone, (firstNonZero b off n).getD off)

/-- Bits of each parameter word that the operator code table uses (R162); the others are reserved. -/
def opMasks (code : Nat) : List Nat :=
  let f := 2 ^ 64 - 1
  let aggs := 0x7F7F7F7F7F7F7F7F
  match code with
  | 0x01 => [0x3FFFFF, f, f, f, f, 0]
  | 0x02 => [0xFFFF, 0, 0, 0, 0, 0]
  | 0x05 => [f, f, f, f, f, f]
  | 0x10 => [0x1FFFF, 0, 0, 0, 0, 0]
  | 0x11 | 0x13 => [0xFF03, 0, 0, 0, 0, 0]
  | 0x12 | 0x14 | 0x28 => [0xFFFF, 0, 0, 0, 0, 0]
  | 0x20 | 0x21 => [0xFFF1, aggs, 0, 0, 0, 0]
  | 0x22 => [1, aggs, 0, 0, 0, 0]
  | 0x29 => [0xFF, 0, 0, 0, 0, 0]
  | 0x2A => [0xFFFFFFFFF, 0, 0, 0, 0, 0]
  | 0x30 => [0x1FFFFFF, f, f, f, f, f]
  | 0x3C => [f, 0, 0, 0, 0, 0]
  | 0x3E => [0xFF, f, 0, 0, 0, 0]
  | 0x3F => [0xFFFF, f, 0, 0, 0, 0]
  | _ => [0, 0, 0, 0, 0, 0]

/-- The header (R153). -/
def headerChecks (b : Bytes) : List (Bool × Nat) :=
  let n := fieldAt 8 4 b
  [(fieldAt 0 4 b == 0x4E414C50, 0), (fieldAt 4 2 b == 1, 4), (fieldAt 6 2 b < 4, 6),
   (n % 64 == 0 && 256 ≤ n && n ≤ 4194304 && n == b.length, 8), (4 ≤ fieldAt 12 2 b && fieldAt 12 2 b ≤ 8, 12),
   (fieldAt 14 2 b == 0, 14), (1 ≤ fieldAt 16 2 b && fieldAt 16 2 b ≤ 16, 16),
   (1 ≤ fieldAt 18 2 b && fieldAt 18 2 b ≤ 512, 18), zeroAt b 21 3, zeroAt b 44 84]

/-- The directory (R154, R155): each entry against the type and the end of the one before. -/
def dirChecks (b : Bytes) : List (Bool × Nat) :=
  let start := 128 + 16 * fieldAt 12 2 b
  let ds := imgDir b
  let ends := ds.map fun s => s.off + s.len
  let types := ds.map (·.type)
  let each := ((ds.zip (0 :: types)).zip (start :: ends)).flatMap fun ((s, pt), pe) =>
    [((((1 ≤ s.type && s.type ≤ 7) || s.type == 15) && pt < s.type : Bool), s.dir), zeroAt b (s.dir + 1) 3,
     (s.off % 64 == 0 && pe ≤ s.off && s.off + s.len ≤ b.length, s.dir + 4),
     (fieldAt (s.dir + 12) 4 b == (if s.type == 15 then 0 else crc32 (sliceB s.off s.len b)), s.dir + 12)]
  each ++ [([1, 2, 3, 7].all types.contains, noOffset), (types.contains 15 == bitAt (fieldAt 6 1 b) 1, 6)]

/-- Bytes in neither the header, the directory nor a section are zero (R155). -/
def gapChecks (b : Bytes) : List (Bool × Nat) :=
  let ds := imgDir b
  let starts := ds.map (·.off) ++ [b.length]
  let ends := (128 + 16 * fieldAt 12 2 b) :: ds.map fun s => s.off + s.len
  (ends.zip starts).map fun (e, s) => zeroAt b e (s - e)

/-- The image has a section of a type. -/
def imgHas (b : Bytes) (ty : Nat) : Bool := (imgDir b).any (·.type == ty)

/-- Lengths of the sections with counted records. -/
def lengthChecks (b : Bytes) : List (Bool × Nat) :=
  (imgDir b).map fun s =>
    let ok : Bool := match s.type with
      | 1 => s.len % 64 == 0 && 64 ≤ s.len && s.len ≤ 4096
      | 2 => s.len == 16 * fieldAt 16 2 b
      | 3 => s.len == 64 * fieldAt 18 2 b
      | 7 => 64 ≤ s.len && s.len == 64 + 16 * fieldAt (s.off + 5) 1 b
      | 15 => s.len == 448
      | _ => true
    (ok, s.dir + 8)

/-- Reserved fields of the sections (R10). -/
def reservedChecks (b : Bytes) : List (Bool × Nat) :=
  let m := parseImage b
  let base := fun ty => (imgSec b ty).1
  let tables := (List.range m.trefs.length).flatMap fun i =>
    [zeroAt b (base 1 + 64 * i + 2) 6, zeroAt b (base 1 + 64 * i + 12) 4]
  let pipes := (List.range m.pipes.length).flatMap fun i =>
    let o := base 2 + 16 * i
    [((fieldAt (o + 4) 1 b < 8 : Bool), o + 4), zeroAt b (o + 8) 8]
  let ops := ((List.range m.ops.length).zip m.ops).flatMap fun (i, x) =>
    let o := base 3 + 64 * i
    zeroAt b (o + 3) 1 :: ((List.range 6).zip (x.w.zip (opMasks x.code))).map fun (j, w, k) =>
      (w &&& k == w, o + 16 + 8 * j)
  let progs := m.exprAt.map fun o => zeroAt b (o + 4) 4
  let kernels := (List.range m.kernels.length).map fun i => zeroAt b (base 5 + 4 + 32 * i + 18) 14
  let claims := [zeroAt b (base 7 + 6) 2, zeroAt b (base 7 + 12) 4, zeroAt b (base 7 + 40) 24]
  let bufs := (List.range m.bufs.length).map fun i => zeroAt b (base 7 + 64 + 16 * i + 3) 5
  let slot := imgKeySlot b
  let sig : List (Bool × Nat) :=
    if m.signed then [(1 ≤ slot && slot ≤ 8, base 15), (fieldAt (base 15 + 1) 1 b == 1, base 15 + 1), zeroAt b (base 15 + 2) 62]
    else []
  tables ++ pipes ++ ops ++ progs ++ kernels ++ claims ++ bufs ++ sig

/-- Check 4 of R176: the offset of the first offending field. -/
def check4 (b : Bytes) : Option Nat :=
  (firstBad (headerChecks b)).or <| (firstBad (dirChecks b)).or <| (firstBad (gapChecks b)).or <|
    (firstBad (lengthChecks b)).or (firstBad (reservedChecks b))

/-- Verification of a SIGNATURE section with a plan key's modulus (R175). -/
def imgSigned (b modulus : Bytes) : Bool :=
  let (off, sec) := imgSec b 15
  fieldAt 1 1 sec == 1 && pssVerify modulus (b.take off) (sliceB 64 384 sec)

end Sys2Proof.Machine
end

