-- ==== Sys2Proof/Machine/Purlin.lean ====
section
/-! DEFINITION. The Purlin key store (chapter 07, R215 to R234): requests, the check of every hit, loading of MAP banks and
the entries of open DICT chunks. -/

namespace Sys2Proof.Machine

/-- Entries of a bank at its width (R215). -/
def Bank.capacity (b : Bank) : Nat := 4096 / 2 ^ b.width

/-- A bank's number as a bit of BANKS. -/
def bankBit (b : Fin 8) : Nat := 2 ^ b.val

/-- Banks named by a mask, in ascending order. -/
def banksOf (mask : Nat) : List (Fin 8) := (List.finRange 8).filter fun b => bitAt mask b.val

/-- A request read from its 48 bytes (R220). -/
def PReq.parse (b : Bytes) : PReq :=
  let w := fieldAt 0 8 b
  { op := w % 16, replicate := bitAt w 4,
    reserved := bitsOf w 7 5 != 0 || bitsOf w 31 24 != 0 || bitsOf w 63 44 != 0 || fieldAt 12 4 b != 0,
    banks := bitsOf w 15 8, priority := bitsOf w 23 16, index := bitsOf w 43 32, result := fieldAt 8 4 b,
    key := (List.range 4).map fun u => fieldAt (16 + 8 * u) 8 b }

/-- A response's 16 bytes (R221). -/
def PResp.bytes (r : PResp) : Bytes :=
  toLE 4 (r.outcome + r.bank * 2 ^ 8 + r.index * 2 ^ 16) ++ toLE 4 r.result ++ toLE 1 r.priority ++ toLE 1 0 ++ toLE 2 r.status
    ++ toLE 4 0

/-- A response that refuses a request. -/
def PResp.refuse (status : Nat) : PResp := { PResp.zero with status := status }

/-- The response that reports an entry. -/
def PEntry.report (e : PEntry) (outcome bank index : Nat) : PResp :=
  { outcome := outcome, bank := bank, index := index, result := e.result, priority := e.priority, status := 0 }

/-- An entry matches a key (R223). -/
def PEntry.hits (masked : Bool) (e : PEntry) (key : List Nat) : Bool :=
  if masked then ((key.getD 0 0 ^^^ e.key.getD 0 0) &&& e.key.getD 1 0) == 0 else e.key == key

/-- Cells and copy agree. -/
def PEntry.sound (e : PEntry) : Bool := e.toPCells == e.copy

/-- One false hit (R227, R229): counted, rewritten from the copy, retired at the threshold. [log 59 DEDUCED] -/
def State.falseHit (s : State) (b : Fin 8) (idx : Nat) : State :=
  let s := s.bump 0x18C0 4 1
  let limit := s.cfg 0x18C1 2 16
  let n := ngetZ (s.purlin.banks[b]).hits idx + 1
  let s := s.modBank b fun k =>
    { k with falseHits := k.falseHits + 1, hits := nputZ k.hits idx n, entries := nmod k.entries idx fun e => { e with toPCells := e.copy } }
  let s := s.raise srcPurlin { ErrRec.blank with severity := .corrected, scope := 7, scopeId := 0x100 + b.val, event := 2, detail0 := idx }
  if n < limit || (s.purlin.banks[b]).retired.contains idx then s
  else (s.modBank b fun k => { k with retired := k.retired ++ [idx], entries := ndel k.entries idx }).bump 0x18C0 6 1

/-- One uncorrectable copy (R228): the entry goes, counted, with an error record that names the bundle where one leases the bank (R669); a MAP entry awaits its rewriting, and the entries of a
DICT entry's chunk are to be rebuilt. [log 60 DEDUCED] -/
def State.deadEntry (s : State) (b : Fin 8) (idx : Nat) : State :=
  let k := s.purlin.banks[b]
  let s := match k.role, nget k.entries idx with
    | .dictRole, some e =>
      let u := e.copy.key.getD 1 0
      s.modPurlin fun p => { p with rebuild := (p.rebuild ++ [(u % 2 ^ 16, bitsOf u 55 24, bitsOf u 23 16)]).eraseDups }
    | _, _ => s
  let s := s.modBank b fun k =>
    { k with entries := ndel k.entries idx, uncorrectable := k.uncorrectable + 1,
             awaiting := if k.role == .mapRole then k.awaiting ++ [idx] else k.awaiting }
  let user := (List.finRange 64).find? fun t => (s.batten.tiles[t]).run.leased.contains b.val
  let bundle := if k.role == .planRole then user else none
  (s.bump 0x18C0 5 1).raise srcPurlin
    { ErrRec.blank with
      severity := .contained
      scope := if bundle.isSome then 2 else 7
      scopeId := (bundle.map (·.val)).getD (0x100 + b.val)
      event := 1
      detail0 := idx
      detail1 := b.val
      code := if k.role == .planRole then 0x7001 else 0 }

/-- Entries of banks that match a key by their cells, none of them retired (R223). -/
def State.pMatches (s : State) (banks : List (Fin 8)) (key : List Nat) : List (Fin 8 × Nat × PEntry) :=
  banks.flatMap fun b =>
    let k := s.purlin.banks[b]
    (k.entries.filter fun e => e.2.hits k.masked key && !k.retired.contains e.1).map fun e => (b, e.1, e.2)

/-- The winning entry of a search: of the entries that match and agree with their copies, the one of least priority (R224, R227). -/
def State.pWinner (s : State) (banks : List (Fin 8)) (key : List Nat) : Option (Nat × Nat × PEntry) :=
  ((s.pMatches banks key).filter fun x => x.2.2.sound).foldl (fun (best : Option (Nat × Nat × PEntry)) x =>
    match best with
    | some y => if x.2.2.priority < y.2.2.priority then some (x.1.val, x.2) else best
    | none => some (x.1.val, x.2)) none

/-- Faults that have arisen: the cells they name change, and matching entries whose copies are uncorrectable go (R228). -/
def State.meetFaults (s : State) (banks : List (Fin 8)) (key : List Nat) (f : PFaults) : State :=
  let s := f.flips.foldl (fun s x =>
    s.modBank (Fin.ofNat 8 x.1) fun k => { k with entries := nmod k.entries x.2.1 fun e => { e with toPCells := x.2.2 } }) s
  f.dead.foldl (fun s x =>
    if (s.pMatches banks key).any fun m => m.1.val == x.1 && m.2.1 == x.2 then s.deadEntry (Fin.ofNat 8 x.1) x.2 else s) s

/-- A search of banks: what wins, each match that differs from its copy a false hit (R222, R227, R228). -/
def State.pSearch (s : State) (banks : List (Fin 8)) (key : List Nat) (f : PFaults) : Option (Nat × Nat × PEntry) × State :=
  let s := s.meetFaults banks key f
  (s.pWinner banks key, ((s.pMatches banks key).filter fun x => !x.2.2.sound).foldl (fun s x => s.falseHit x.1 x.2.1) s)

/-- The lowest free, unretired index of a bank. -/
def Bank.freeIndex (k : Bank) : Option Nat :=
  (List.range k.capacity).find? fun i => (nget k.entries i).isNone && !k.retired.contains i

/-- An INSERT over banks taken together (R222). -/
def State.pInsert (s : State) (banks : List (Fin 8)) (q : PReq) (key : List Nat) (f : PFaults) : PResp × State :=
  match s.pSearch banks key f with
  | (some (b, i, e), s) => (e.report 1 b i, s)
  | (none, s) =>
    match banks.find? fun b => ((s.purlin.banks[b]).freeIndex).isSome with
    | none => ({ PResp.zero with outcome := 3 }, s)
    | some b =>
      let i := ((s.purlin.banks[b]).freeIndex).getD 0
      let e := PEntry.of key q.priority q.result
      (e.report 2 b.val i, s.modBank b fun k => { k with entries := nput k.entries i e })

/-- The units of a key at a bank's width. -/
def keyUnits (width : Nat) (key : List Nat) : List Nat := (List.range (2 ^ width)).map fun u => key.getD u 0

/-- A request is malformed (R222). [log 57 DEDUCED] -/
def State.pMalformed (s : State) (banks : List (Fin 8)) (q : PReq) : Bool :=
  let k := s.purlin.banks[banks.headD 0]
  let single := q.op == 3 || q.op == 4 || q.op == 5
  banks.isEmpty || q.reserved || q.op == 0 || 6 < q.op
    || banks.any (fun b => (s.purlin.banks[b]).width != k.width || (s.purlin.banks[b]).masked != k.masked)
    || (single && banks.length != 1) || (q.op == 2 && k.masked) || (q.replicate && q.op != 2)
    || (q.key.drop (2 ^ k.width)).any (· != 0) || (single && k.capacity ≤ q.index)
    || (q.op == 3 && k.retired.contains q.index)

/-- A well-formed request executed by the banks it names (R222 to R225): the response, and the KEY a READ returns. [log 58 DEDUCED] -/
def State.pExecute (s : State) (q : PReq) (f : PFaults) : PResp × Option (List Nat) × State :=
  let banks := banksOf q.banks
  let b := banks.headD 0
  let k := s.purlin.banks[b]
  let key := keyUnits k.width q.key
  match q.op with
  | 1 =>
    match s.pSearch banks key f with
    | (some (n, i, e), s) => (e.report 1 n i, none, s)
    | (none, s) => (PResp.zero, none, s)
  | 2 =>
    if q.replicate then
      banks.reverse.foldl (fun (acc : PResp × Option (List Nat) × State) b =>
        let (r, s) := acc.2.2.pInsert [b] q key f
        (r, none, s)) (PResp.zero, none, s)
    else
      let (r, s) := s.pInsert banks q key f
      (r, none, s)
  | 3 =>
    let e := PEntry.of key q.priority q.result
    (e.report 2 b.val q.index, none, s.modBank b fun k => { k with entries := nput k.entries q.index e })
  | 4 =>
    match nget k.entries q.index with
    | some e => (e.report 1 b.val q.index, none, s.modBank b fun k => { k with entries := ndel k.entries q.index })
    | none => ({ PResp.zero with bank := b.val, index := q.index }, none, s)
  | 5 =>
    match nget k.entries q.index with
    | some e => (e.report 1 b.val q.index, some e.copy.key, s)
    | none => ({ PResp.zero with bank := b.val, index := q.index }, none, s)
  | _ => (PResp.zero, none, banks.foldl (fun s b => s.modBank b fun k => { k with entries := [], awaiting := [] }) s)

/-- Every bank named executes requests: enabled, past its self-test, with no MAP entry awaiting its rewriting. [log 56 DEDUCED] -/
def State.pReady (s : State) (q : PReq) : Bool :=
  (banksOf q.banks).all fun b =>
    let k := s.purlin.banks[b]
    k.enable && !k.bistFail && (q.op != 1 || k.awaiting.isEmpty)

/-! Bank roles. -/

/-- Banks of the plan pool (R216). -/
def State.poolBanks (s : State) : List (Fin 8) :=
  let map := s.cfg 0x1840 1 3
  (List.finRange 8).filter fun b =>
    !bitAt map b.val && !bitAt s.purlin.dictBanksNow b.val && !(s.purlin.banks[b]).bistFail

/-- Free banks of the plan pool, lowest first. -/
def State.freeBanks (s : State) : List (Fin 8) := s.poolBanks.filter fun b => (s.purlin.banks[b]).role == .free

/-- A bank set up for a role by the active Ridge, empty. -/
def State.setBank (s : State) (b : Fin 8) (role : BankRole) (width : Nat) (masked : Bool) (owner : Nat) : State :=
  s.modBank b fun k =>
    { k with role := role, width := width, masked := masked, owner := owner, enable := role != .free, entries := [], awaiting := [] }

/-- A bank cleared by a request of its own (R222 op 6). -/
def State.clearBank (s : State) (b : Fin 8) : State := (s.modBank b fun k => { k with entries := [], awaiting := [] }).bump 0x18C0 3 1

/-- Bits of MAP_BANKS whose banks hold the map: those that passed self-test and that no plan holds. -/
def State.mapBanks (s : State) : List (Fin 8) := (List.finRange 8).filter fun b => (s.purlin.banks[b]).role == .mapRole

/-- A map entry finds room in the MAP banks (R231): in a bank that has the role, at an index that is not retired (R222, R229). [log 30 DEDUCED] -/
def State.mapFits (s : State) (place : Nat) : Bool :=
  let b : Fin 8 := Fin.ofNat 8 (place / 65536)
  place / 65536 < 8 && place % 65536 < 2048 && (s.purlin.banks[b]).role == .mapRole && !(s.purlin.banks[b]).retired.contains (place % 65536)

/-- A map entry as a bank holds it. -/
def MapEntry.cells (e : MapEntry) : PEntry := .of [e.key, e.mask] e.priority e.result

/-- MAP banks loaded from the generation in force with WRITE (R231): those of MAP_BANKS that passed self-test, once the plan that holds
one has returned it; an entry that does not fit is left out and named. [log 30 DEDUCED] -/
def State.loadMapBanks (s : State) : State :=
  let map := s.cfg 0x1840 1 3
  let s := (List.finRange 8).foldl (fun s b =>
    if bitAt map b.val && !(s.purlin.banks[b]).bistFail && (s.purlin.banks[b]).role != .planRole then s.setBank b .mapRole 1 true 0xFF
    else s) s
  s.ingest.mapNow.entries.foldl (fun s (e : Nat × MapEntry) =>
    if s.mapFits e.1 then
      (s.modBank (Fin.ofNat 8 (e.1 / 65536)) fun k => { k with entries := nput k.entries (e.1 % 65536) e.2.cells }).bump 0x18C0 3 1
    else s.raise s.ridgeSrc { ErrRec.blank with event := 5, detail0 := e.1 }) s

/-- The DICT banks set up (R216). -/
def State.setDictBanks (s : State) : State :=
  (List.finRange 8).foldl (fun s b =>
    if bitAt s.purlin.dictBanksNow b.val && !(s.purlin.banks[b]).bistFail then s.setBank b .dictRole 1 false 0xFF else s) s

/-! DICT entries of open chunks (R232, R233). -/

/-- Key units of a value of an open DICT chunk; none for a STR or BYTES value longer than 8 bytes. -/
def dictUnits (table col seg ty : Nat) (v : Val) : Option (List Nat) :=
  let unit1 := fun (len : Nat) => table + col * 2 ^ 16 + seg % 2 ^ 32 * 2 ^ 24 + len * 2 ^ 56
  match v with
  | .null => none
  | .num x => some [orderKey ty x, unit1 0xF]
  | .str b => if 8 < b.length then none else some [leNat b, unit1 b.length]

/-- Banks that hold DICT entries. -/
def State.dictBanks (s : State) : List (Fin 8) := (List.finRange 8).filter fun b => (s.purlin.banks[b]).role == .dictRole

/-- An entry belongs to an open chunk's segment. -/
def PEntry.ofSeg (e : PEntry) (table seg : Nat) : Bool :=
  let u := e.key.getD 1 0
  u % 2 ^ 16 == table && bitsOf u 55 24 == seg % 2 ^ 32

/-- DICT entries an instance's tables hold. -/
def State.dictHeld (s : State) (owner : Nat) : Nat :=
  ((s.dictBanks.map fun b => (s.purlin.banks[b]).entries.countP fun e =>
    ((nget s.tables.tables ((e.2.key.getD 1 0) % 2 ^ 16)).map (·.desc.owner)) == some owner)).sum

/-- A value coded through the DRAM hash table of its chunk (R123, R233). -/
def State.dictSpill (s : State) (table seg col code : Nat) (v : Val) : State :=
  s.modPurlin fun p =>
    { p with spilled := if p.spilled.any fun x => x.table == table && x.seg == seg && x.col == col && x.val == v then p.spilled
        else p.spilled ++ [⟨table, seg, col, v, code⟩] }

/-- A short value of a chunk is in the hash table: the store's allotment was full when it was met, and the table takes the store's
place for that chunk (R123). -/
def State.chunkSpilled (s : State) (table seg col ty : Nat) : Bool :=
  s.purlin.spilled.any fun x => x.table == table && x.seg == seg && x.col == col && (dictUnits table col seg ty x.val).isSome

/-- A value's key stands in one of the DICT banks. -/
def State.dictHas (s : State) (key : List Nat) : Bool :=
  s.dictBanks.any fun b => (s.purlin.banks[b]).entries.any fun e => e.2.key == key

/-- The entry of one released value: in the store, or in the DRAM hash table where the value is longer than 8 bytes, the quota is used
up, the banks hold no room, or the table has taken the store's place for the chunk; its code is its place in the chunk dictionary. [log 208 DEDUCED] -/
def State.dictNote (s : State) (table seg col ty owner code : Nat) (v : Val) : State :=
  if v == .null then s else
  match dictUnits table col seg ty v with
  | none => s.dictSpill table seg col code v
  | some key =>
    if s.dictHas key then s.bump 0x18C0 3 1
    else if s.chunkSpilled table seg col ty || (owner < 64 && s.cfg (0x4001 + 0x100 * owner) 0x0C 1024 ≤ s.dictHeld owner) then
      s.dictSpill table seg col code v
    else
      let (r, s) := (s.bump 0x18C0 3 1).pInsert s.dictBanks ⟨2, false, false, 0, 0, 0, code, key⟩ key ⟨[], []⟩
      if r.outcome == 3 then s.dictSpill table seg col code v else s

/-- A segment's DICT entries invalidated (R233). -/
def State.dictForget (s : State) (table seg : Nat) : State :=
  (s.dictBanks.foldl (fun s b =>
    s.modBank b fun k => { k with entries := k.entries.filter fun e => !e.2.ofSeg table seg }) s).modPurlin fun p =>
      { p with spilled := p.spilled.filter fun x => !(x.table == table && x.seg == seg) }

end Sys2Proof.Machine
end

