-- ==== Sys2Proof/Machine/Tables.lean ====
section
/-! DEFINITION. The table store (chapter 03): descriptors, segments, stored bytes, sealing, retention, built-in rows. -/

namespace Sys2Proof.Machine

/-! Descriptors. -/

/-- A column descriptor's 16 bytes read; the flag says its reserved bits are zero. -/
def ColDesc.parse (b : Bytes) : ColDesc × Bool :=
  ({ type := fieldAt 0 1 b, nullable := bitAt (fieldAt 1 1 b) 0, openEnc := fieldAt 2 1 b, scale := fieldAt 3 1 b,
     sealSet := fieldAt 4 1 b % 128, yelmFmt := fieldAt 5 1 b, maxLen := fieldAt 8 4 b },
   fieldAt 1 1 b < 2 && fieldAt 4 1 b < 128 && fieldAt 6 2 b == 0 && fieldAt 12 4 b == 0)

/-- A descriptor read (R69), with its COLUMNS field and whether every reserved bit is zero. -/
def TableDesc.parse (b : Bytes) : TableDesc × Nat × Bool :=
  let flags := fieldAt 5 3 b
  let ncol := (b.length - 128) / 16
  let cols := (List.range ncol).map fun i => ColDesc.parse (sliceB (128 + 16 * i) 16 b)
  let holds := (List.range 4).filterMap fun i =>
    let lo := fieldAt (64 + 16 * i) 8 b
    let hi := fieldAt (72 + 16 * i) 8 b
    if lo == 0 && hi == 0 then none else some ⟨lo, hi⟩
  ({ id := fieldAt 0 2 b, owner := fieldAt 4 1 b, keep := bitAt flags 0, lapped := bitAt flags 1, chained := bitAt flags 2,
     retTime := fieldAt 8 8 b, retDist := fieldAt 16 8 b, retBytes := fieldAt 24 8 b, sealAge := fieldAt 32 4 b,
     ingest := ⟨fieldAt 40 4 b, bitAt (fieldAt 44 1 b) 0, fieldAt 48 4 b⟩, readers := fieldAt 56 8 b, holds := holds,
     cols := cols.map (·.1) },
   fieldAt 2 2 b,
   flags < 8 && fieldAt 36 4 b == 0 && fieldAt 44 4 b < 2 && fieldAt 52 4 b == 0 && cols.all (·.2))

/-- Bytes of a row by R68. -/
def TableDesc.rowBytes (d : TableDesc) : Nat := (d.cols.map fun c => tyWidth c.type + c.maxLen).sum

/-- One column meets R70 and the ranges of R69. -/
def ColDesc.ok (c : ColDesc) : Bool :=
  tyKnown c.type && (c.openEnc == 0 || c.openEnc == 5 || c.openEnc == 6) && encAllowed c.type c.openEnc
    && (List.range 7).all (fun e => !bitAt c.sealSet e || encAllowed c.type e)
    && (if c.type == 13 then c.scale ≤ 18 else c.scale == 0) && c.yelmFmt ≤ 2
    && (if tyVar c.type then 1 ≤ c.maxLen && c.maxLen ≤ 65535 else c.maxLen == 0)

/-- INGEST meets its ranges (R141). -/
def IngestParams.ok (p : IngestParams) : Bool := p.lateWindow ≤ 100000

/-- The first three columns are the stamp's (R70). -/
def TableDesc.stampCols (d : TableDesc) : Bool :=
  (d.cols.take 3).map (fun c => (c.type, c.nullable, c.openEnc)) == [(12, false, 0), (6, false, 0), (8, false, 0)]

/-- Channels populated and trained. -/
def State.channelsUp (s : State) : Nat := (s.dram.chans.toList.filter (·.trained)).length

/-- A descriptor meets R68, R70 and R141. -/
def State.descOk (s : State) (d : TableDesc) : Bool :=
  3 ≤ d.cols.length && d.cols.length ≤ 256 && d.rowBytes ≤ 65536 && d.stampCols && d.cols.all (·.ok)
    && (!d.lapped || 2 ≤ s.channelsUp) && d.ingest.ok

/-- RO fields of two descriptors agree (R72). -/
def TableDesc.sameFixed (a b : TableDesc) : Bool :=
  a.id == b.id && a.owner == b.owner && a.keep == b.keep && a.lapped == b.lapped && a.chained == b.chained
    && a.cols.map (fun c => { c with sealSet := 0, yelmFmt := 0 }) == b.cols.map (fun c => { c with sealSet := 0, yelmFmt := 0 })

/-- Stored bytes of a table (R694). -/
def Table.stored (t : Table) : Nat := (t.segs.map (segStored t.desc)).sum

/-- Stored bytes of an instance's tables (R694). -/
def State.instStored (s : State) (owner : Nat) : Nat :=
  (s.tables.tables.map fun p => if p.2.desc.owner == owner then p.2.stored else 0).sum

/-- Size of the Keep (R421) and bytes allotted in it. -/
def State.keepBytes (s : State) : Nat := s.dram.managed * s.dram.eighths / 8
/-- KEEP_USED. -/
def State.keepUsed (s : State) : Nat := (s.tables.tables.map fun p => if p.2.desc.keep then p.2.stored else 0).sum

/-- A snapshot of a plan or of a firing holds the segment (R31, R71). -/
def State.snapHolds (s : State) (table seg : Nat) : Bool :=
  let hit := fun (l : List SnapSeg) => l.any fun x => x.table == table && x.seg == seg
  s.plans.plans.any (fun p => hit p.2.snapshot)
    || s.batten.queries.any (fun q => q.2.firings.any fun f => hit f.snapshot)

/-- The segment that takes rows: open and not sealing. -/
def Table.openSeg (t : Table) : Option Segment := t.segs.find? fun g => g.state == .opened && !g.sealing

/-- Sealing of a segment starts (R97, R98). -/
def Segment.startSealing (g : Segment) (now : Nat) : Segment := if g.sealing then g else { g with sealing := true, sealAt := now }

/-- A row appended to a segment: UNORDERED where a later row stands in it (R77), OVERLAP against the previous segment (R75), sealing
started when it is full (R97). -/
def Segment.add (g : Segment) (now : Nat) (r : SRow) : Segment :=
  let g := { g with rows := g.rows ++ [r], unordered := g.unordered || g.rows.any fun x => r.stamp.lt x.stamp }
  let beyond := match g.prevMax, g.bounds with
    | some m, some (lo, _) => !m.lt lo
    | _, _ => false
  let g := { g with overlap := beyond }
  if 65536 ≤ g.rows.length then g.startSealing now else g

/-- A row placed into the table's open segment, a new one opened where there is none (R98, R123). -/
def Table.place (t : Table) (now : Nat) (r : SRow) : Table :=
  let (t, no) := match t.openSeg with
    | some g => (t, g.no)
    | none =>
      ({ t with segs := t.segs ++ [{ Segment.new t.nextSeg now with prevMax := t.lastMax }], nextSeg := t.nextSeg + 1, lastMax := none }, t.nextSeg)
  let top := match t.lastMax with
    | some m => if m.lt r.stamp then r.stamp else m
    | none => r.stamp
  { t with lastMax := some top, segs := t.segs.map fun g => if g.no == no then g.add now r else g }

/-! Copies in memory. -/

/-- Both copies of a segment are written as they stand (R78, R82, R110). [log 202 DESIGN CHOICE] -/
def State.storeSeg (s : State) (id no : Nat) : State :=
  match (s.table id).bind fun t => (t.segs.find? (·.no == no)).map fun g => (t, g) with
  | none => s
  | some (t, g) => (segImage t g false ++ segImage t g true).foldl (fun s x => s.sysWrite x.1 x.2) s

/-- Header and directory of a segment are written again: STATE or HELD has changed. -/
def State.storeFront (s : State) (id no : Nat) : State :=
  match (s.table id).bind fun t => (t.segs.find? (·.no == no)).map fun g => (t, g) with
  | none => s
  | some (t, g) => ((segImage t g false).take 1 ++ (segImage t g true).take 1).foldl (fun s x => s.sysWrite x.1 x.2) s

/-- A segment that has just been opened is allotted memory for its open form, and every placed row is written to both copies (R110, R123,
R124). -/
def State.storeOpen (s : State) (id no : Nat) : State :=
  match (s.table id).bind fun t => (t.segs.find? (·.no == no)).map fun g => (t, g) with
  | none => s
  | some (t, g) =>
    if !g.atA.isEmpty then s.storeSeg id no else
    let (la, lb, s) := s.newPlaces t.desc.keep t.desc.lapped (t.desc.frontLen :: t.desc.cols.map openCap)
    (s.modTable id fun t => { t with segs := t.segs.map fun x => if x.no == no then { x with atA := la, atB := lb } else x }).storeSeg id no

/-- A row made visible is noted for the queries that read its table. -/
def State.noteFresh (s : State) (id : Nat) (r : SRow) : State :=
  if s.batten.queries.any fun q => q.2.table == id then s.modBatten fun b => { b with fresh := b.fresh ++ [⟨id, r, s.time.ts, false⟩] } else s

/-- A row placed in a table, with the number of the segment it has opened, if it has. -/
def State.putRow (s : State) (id : Nat) (late : Bool) (r : SRow) : Option Nat × State :=
  match s.table id with
  | none => (none, s)
  | some t =>
    let m := match t.mark with
      | some m => if m.lt r.stamp then r.stamp else m
      | none => r.stamp
    let t' := { t.place s.time.ts r with mark := if late then t.mark else some m }
    let s := ((s.noteFresh id r).modTable id fun _ => t').storeOpen id (((t.openSeg).map (·.no)).getD t.nextSeg)
    (if t'.nextSeg == t.nextSeg then none else some t.nextSeg, s)

/-- The values of a catalogue row (R112). -/
def catalogueRow (d : TableDesc) (g : Segment) (event : Nat) : List Val :=
  let (lo, hi) := (g.bounds).getD (Stamp.zero, Stamp.zero)
  let (dmin, dmax) := g.dists
  [.num d.id, .num g.no, .num event, .num g.rows.length, .num lo.ts, .num hi.ts, .num dmin, .num dmax, .num (segStored d g), .str g.digest]

/-- A row of the catalogue, and where it opens a segment of the catalogue itself, that segment's row (R112). -/
def State.putCatalogue (s : State) (d : TableDesc) (g : Segment) (event : Nat) : State :=
  let (st, s) := s.stamp s.ridgeSrc
  let (opened, s) := s.putRow 0xFFF1 false ⟨st, catalogueRow d g event, s.time.dist / 65536⟩
  match opened.bind fun no => (s.table 0xFFF1).bind fun t => (t.segs.find? (·.no == no)).map fun g => (t, g) with
  | none => s
  | some (t, g) =>
    let (st, s) := s.stamp s.ridgeSrc
    (s.putRow 0xFFF1 false ⟨st, catalogueRow t.desc g 0, s.time.dist / 65536⟩).2

/-- A catalogue event: 0 opened, 1 sealed, 2 kept, 3 retired, 4 discarded at the Keep check, 5 lost at Keep entry, 6
numbering restarted (R112). -/
def State.catalogue (s : State) (id : Nat) (g : Segment) (event : Nat) : State :=
  match s.table id with
  | none => s
  | some t => s.putCatalogue t.desc g event

/-- A row has opened a segment: the catalogue says so (R112). -/
def State.noteOpened (s : State) (id : Nat) (opened : Option Nat) : State :=
  match opened.bind fun no => (s.table id).bind fun t => t.segs.find? (·.no == no) with
  | some g => s.catalogue id g 0
  | none => s

/-- A row into a built-in table, in force at once (R65, R317, R573, R666). [log 27 DEDUCED] -/
def State.logRow (s : State) (id : Nat) (stamp : Stamp) (vals : List Val) : State :=
  let (opened, s) := s.putRow id false ⟨stamp, vals, s.time.dist / 65536⟩
  s.noteOpened id opened

/-- The code of a value in an open chunk's dictionary, in order of first appearance (R93). -/
def openCode (rows : List SRow) (col : Nat) (v : Val) : Nat := (firstSeen (rows.map (·.col col))).findIdx (· == v)

/-- The entries of a chunk that lost one are rebuilt from its dictionary before further values are coded (R228). -/
def State.dictRebuild (s : State) (id : Nat) (g : Segment) (col ty owner : Nat) : State :=
  if !s.purlin.rebuild.contains (id, g.no, col) then s else
  let vals := firstSeen (g.rows.map (·.col col))
  ((List.range vals.length).zip vals).foldl (fun s x => s.dictNote id g.no col ty owner x.1 x.2)
    (s.modPurlin fun p => { p with rebuild := p.rebuild.filter (· != (id, g.no, col)) })

/-- DICT entries for the values of a released row (R123, R232). -/
def State.noteDict (s : State) (id : Nat) (r : SRow) : State :=
  match (s.table id).bind fun t => (t.segs.find? fun g => g.state == .opened && g.rows.any (·.stamp.same r.stamp)).map fun g => (t, g) with
  | none => s
  | some (t, g) =>
    ((List.range t.desc.cols.length).zip t.desc.cols).foldl (fun s (x : Nat × ColDesc) =>
      if x.2.openEnc == 5 then
        (s.dictRebuild id g x.1 x.2.type t.desc.owner).dictNote id g.no x.1 x.2.type t.desc.owner
          (openCode g.rows x.1 (r.col x.1)) (r.col x.1)
      else s) s

/-- A row released into a user's table: placed, the catalogue told of a new segment, the release mark raised. [log 23 DESIGN CHOICE] -/
def State.placeRow (s : State) (id : Nat) (late : Bool) (r : SRow) : State :=
  let r := { r with dist := s.time.dist / 65536 }
  let (opened, s) := s.putRow id late r
  (s.noteDict id r).noteOpened id opened

/-- Frees retired segments that no snapshot holds, and open forms likewise (R31, R103). -/
def State.freeSegs (s : State) (id : Nat) : State :=
  s.modTable id fun t =>
    { t with segs := (t.segs.filter fun g => g.state != .retired || s.snapHolds id g.no).map fun g =>
        if s.snapHolds id g.no then g else { g with openHeld := 0, openRows := [], openAtA := [], openAtB := [] } }

/-- Retires one segment (R103), with a catalogue event. [log 27 DEDUCED] -/
def State.retireSeg (s : State) (id no event : Nat) : State :=
  match (s.table id).bind fun t => t.segs.find? (·.no == no) with
  | none => s
  | some g =>
    let s := s.catalogue id g event
    let s := (s.modTable id fun t =>
      { t with segs := t.segs.map fun x => if x.no == no then { x with state := .retired } else x }).storeFront id no
    let s := s.modTables fun t => { t with keepCatalogue := t.keepCatalogue.filter (· != (id, no)) }
    (s.dictForget id no).freeSegs id

/-- The segment may be retired by retention or quota: sealed, and held by nothing (R107, R108). -/
def retirable (t : Table) (g : Segment) : Bool := (g.state == .sealed || g.state == .kept) && !segIsHeld t.allHolds g

/-- Retention of one table (R106). -/
def State.retainTable (s : State) (id : Nat) : State :=
  match s.table id with
  | none => s
  | some t =>
    let now := s.time.ts
    let dist := s.time.dist / 65536
    let gone := t.segs.filter fun g => retirable t g && (match g.bounds with
      | none => false
      | some (_, hi) => (t.desc.retTime != 0 && hi.ts + t.desc.retTime < now)
        || (t.desc.retDist != 0 && g.dists.2 + t.desc.retDist < dist))
    gone.foldl (fun s g => s.retireSeg id g.no 3) s

/-- Retires the table's segments in SEGMENT_NO order while a condition holds; the flag says it could not clear. -/
def State.squeeze (beyond : State → Bool) (pick : State → Option (Nat × Nat)) : Nat → State → State × Bool
  | 0, s => (s, beyond s)
  | fuel + 1, s =>
    if !beyond s then (s, false) else
    match pick s with
    | none => (s, true)
    | some (id, no) => State.squeeze beyond pick fuel (s.retireSeg id no 3)

/-- The first retirable segment of a table. -/
def State.firstRetirable (s : State) (id : Nat) : Option (Nat × Nat) :=
  (s.table id).bind fun t => (t.segs.find? (retirable t)).map fun g => (id, g.no)

/-- The retirable segment of an instance with the least MAX_STAMP.TS64, then table id, then number (R108). -/
def State.leastRetirable (s : State) (owner : Nat) : Option (Nat × Nat) :=
  let all := (s.tables.tables.filter fun p => p.2.desc.owner == owner).flatMap fun p =>
    (p.2.segs.filter (retirable p.2)).map fun g => (((g.bounds).map (·.2.ts)).getD 0, p.1, g.no)
  (sortBy (fun a b => a.1 < b.1 || (a.1 == b.1 && (a.2.1 < b.2.1 || (a.2.1 == b.2.1 && a.2.2 < b.2.2)))) all).head?.map (·.2)

/-- A table's stored bytes exceed RET_BYTES (R108). -/
def State.overBytes (s : State) (id : Nat) : Bool :=
  (s.table id).any fun t => t.desc.retBytes != 0 && t.desc.retBytes < t.stored

/-- A KEEP table finds no free Keep space (R108). -/
def State.overKeep (s : State) (id : Nat) : Bool := (s.table id).any fun t => t.desc.keep && s.keepBytes < s.keepUsed

/-- An instance's stored bytes exceed its STORED_GIB (R108, R549). -/
def State.overQuota (s : State) (owner : Nat) : Bool :=
  owner < 64 && s.cfg (0x4001 + 0x100 * owner) 0x0A 64 * 2 ^ 30 < s.instStored owner

/-- Rows for a table are refused: a condition of R108 that could not clear still stands. -/
def State.refusesRows (s : State) (id : Nat) : Bool :=
  (s.table id).any fun t => t.refusing && (s.overBytes id || s.overKeep id || s.overQuota t.desc.owner)

/-- Quotas of a table and of its owner enforced; tables that cannot meet them refuse rows (R108). -/
def State.enforce (s : State) (id : Nat) : State :=
  match s.table id with
  | none => s
  | some t =>
    let fuel := 1 + (s.tables.tables.map fun p => p.2.segs.length).sum
    let (s, r1) := State.squeeze (·.overBytes id) (·.firstRetirable id) fuel s
    let (s, r2) := State.squeeze (·.overKeep id) (·.firstRetirable id) fuel s
    let owner := t.desc.owner
    if 64 ≤ owner then s.modTable id fun t => { t with refusing := r1 || r2 } else
    let (s, r3) := State.squeeze (·.overQuota owner) (·.leastRetirable owner) fuel s
    s.modTables fun ts => { ts with tables := ts.tables.map fun p =>
      if p.1 == id then (p.1, { p.2 with refusing := r1 || r2 || r3 })
      else if p.2.desc.owner == owner && r3 then (p.1, { p.2 with refusing := true }) else p }

/-! Commands of the table store. -/

/-- No snapshot holds a segment of the table (R71). -/
def State.tableFree (s : State) (id : Nat) : Bool :=
  ((s.table id).map fun t => t.segs.all fun g => !s.snapHolds id g.no).getD true

/-- A dropped table's last snapshot is released: the drop completes and the id is free (R71). -/
def State.dropComplete (s : State) (id : Nat) : State :=
  match s.table id with
  | some t =>
    if t.dropping && s.tableFree id then
      s.modTables fun ts =>
        { ts with tables := ndel ts.tables id, keepCatalogue := ts.keepCatalogue.filter (·.1 != id) }
    else s
  | none => s

/-- Sealing of a table's open segment starts (R97, R98). -/
def State.startSeal (s : State) (id : Nat) : State :=
  s.modTable id fun t =>
    { t with segs := t.segs.map fun g => if g.state == .opened && !g.rows.isEmpty then g.startSealing s.time.ts else g }

/-- Segments being sealed, at most SEAL_PARALLEL at once, those whose sealing started first before the others (0x1081:02). [log 203 DEDUCED] -/
def State.sealWork (s : State) : List (Nat × Nat) :=
  let all := s.tables.tables.flatMap fun p => (p.2.segs.filter (·.sealing)).map fun g => (g.sealAt, p.1, g.no)
  ((sortBy (fun a b => a.1 < b.1 || (a.1 == b.1 && (a.2.1 < b.2.1 || (a.2.1 == b.2.1 && a.2.2 < b.2.2)))) all).take (s.cfg 0x1081 2 8)).map (·.2)

/-- SEAL_AGE ms pass since the first row of the open segment (R97). -/
def State.sealAgeExpiry (s : State) (id : Nat) : State :=
  match s.table id with
  | none => s
  | some t =>
    match t.openSeg with
    | some g =>
      if t.desc.sealAge == 0 || g.rows.isEmpty || !s.ridgeActs then s
      else (s.advanceTo (g.firstAt + 1000000 * t.desc.sealAge)).startSeal id
    | none => s

/-- SEAL_AGE expires. -/
def execSealAgeExpiry (table : Nat) (s : State) : Res := .next (s.sealAgeExpiry table)

/-- The sealed form of a segment: rows sorted, columns encoded, both copies at new addresses, digest (R99 to R101); and the
Yelm jobs submitted for it. -/
def sealForm (t : Table) (stamp : Stamp) (openLen : Nat) (at' : List Nat × List Nat) (g : Segment) : Segment × List SealJob :=
  let d := { t.desc with cols := g.sealCols.getD t.desc.cols }
  let (rows, bytes, jobs) := sealedChunks d g
  let held := openLen != 0
  let g := { g with rows := rows, unordered := false, sealing := false, sealStamp := some stamp, state := .sealed, badA := [], badB := []
                    prevDigest := if d.chained then padTo 32 t.lastDigest else [], chunksA := bytes,
                    chunksB := if d.lapped then bytes else [], openHeld := openLen, openRows := if held then g.rows else []
                    openAtA := if held then g.atA else [], openAtB := if held then g.atB else [], atA := at'.1, atB := at'.2 }
  let dig := if d.chained then sha256 ((segHeader t g false).take 160 ++ bytes.flatten) else []
  ({ g with digest := dig }, jobs)

/-- The Yelm jobs of sealing counted (R462, R472); how much of a body an engine reads and writes before it gives up is free. -/
def State.sealJobs (s : State) (jobs : List SealJob) : State :=
  jobs.foldl (fun s j =>
    match j.2 with
    | some out => ((s.bump 0x2C01 1 1).bump 0x2C01 2 j.1).bump 0x2C01 3 out
    | none =>
      let (a, s) := s.fresh
      let (b, s) := s.fresh
      (((s.bump 0x2C01 1 1).bump 0x2C01 2 (Config.freeNat a % (j.1 + 1))).bump 0x2C01 3
        (Config.freeNat b % (j.1 - ceilDiv j.1 16 + 1))).bump 0x2C01 4 1) s

/-- Sealing work of the table's first sealing segment ends: the catalogue update (R99, R101, R103). -/
def State.sealComplete (s : State) (id : Nat) : State :=
  match s.table id with
  | none => s
  | some t =>
    match t.segs.find? (·.sealing) with
    | none => s
    | some g =>
      if !s.ridgeActs || !s.sealWork.contains (id, g.no) then s else
      let (stamp, s) := s.stamp s.ridgeSrc
      let openLen := if s.snapHolds id g.no then openBytes t.desc g else 0
      let lens := (sealedChunks { t.desc with cols := g.sealCols.getD t.desc.cols } g).2.1.map (·.length)
      let (la, lb, s) := s.newPlaces t.desc.keep t.desc.lapped (t.desc.frontLen :: lens)
      let (sealedSeg, jobs) := sealForm t stamp openLen (la, lb) g
      let put := fun (s : State) (x : Segment) =>
        (s.modTable id fun t =>
          { t with lastDigest := x.digest, segs := t.segs.map fun y => if y.no == g.no then x else y }).storeSeg id g.no
      let s := put (((s.bump 0x1082 1 (jobs.countP (·.2.isNone))).sealJobs jobs).dictForget id g.no) sealedSeg
      let s := if g.unordered then s.bump 0x20C0 1 (g.rows.length * (1 + mergePasses g.rows.length)) else s
      let s := s.modPurlin fun p => { p with hipSeal := p.hipSeal.map fun x => if x == some (id, g.no) then none else x }
      let s := s.catalogue id sealedSeg 1
      let s :=
        if t.desc.keep then
          let kept := { sealedSeg with state := .kept }
          let s := s.modTables fun ts =>
            { ts with keepCatalogue := ts.keepCatalogue.filter (· != (id, g.no)) ++ [(id, g.no)] }
          (put s kept).catalogue id kept 2
        else s
      s.enforce id

/-- Sealing work ends. -/
def execSealComplete (table : Nat) (s : State) : Res := .next (s.sealComplete table)

/-- Retention fields and holds as altered come into force (R72). -/
def Table.takeRet (t : Table) : Table :=
  match t.retNext with
  | none => t
  | some r =>
    { t with retNext := none, desc := { t.desc with retTime := r.time, retDist := r.dist, retBytes := r.bytes, holds := r.holds } }

/-- The first boundary after the retention interval has come: altered fields are in force and every table is evaluated (R72, R106). [log 204 DEDUCED] -/
def State.retention (s : State) : State :=
  if !s.ridgeActs || s.time.lastBoundary < s.tables.lastRetention + 1000000 * s.cfg 0x1081 1 1000 then s else
  let s := s.modTables fun t => { t with tables := t.tables.map fun p => (p.1, p.2.takeRet) }
  let s := s.tables.tables.foldl (fun s p => (s.retainTable p.1).enforce p.1) s
  s.modTables fun t => { t with lastRetention := s.time.ts }

/-- The retention interval expires. -/
def execRetentionEvaluation (s : State) : Res := .next s.retention

/-- One column chunk of a copy is written at its address. [log 202 DESIGN CHOICE] -/
def State.storeChunk (s : State) (id no col : Nat) (copyB : Bool) : State :=
  match (s.table id).bind fun t => (t.segs.find? (·.no == no)).map fun g => (t, g) with
  | none => s
  | some (t, g) => ((segImage t g copyB).drop (col + 1)).take 1 |>.foldl (fun s x => s.sysWrite x.1 x.2) s

/-- The Ridge rewrites a damaged chunk of a double-lapped segment from the other copy, where that has every damaged block of it intact
(R111). -/
def State.lappedRepair (s : State) (id no col : Nat) (copyB : Bool) : State :=
  match ((s.table id).filter (·.desc.lapped)).bind fun t => t.segs.find? (·.no == no) with
  | none => s
  | some g =>
    let bad := if copyB then g.badB else g.badA
    let other := if copyB then g.badA else g.badB
    let mine := bad.filter (· / 16 == col)
    if !s.ridgeActs || mine.isEmpty || mine.any other.contains then s else
    let s := s.modTable id fun t => { t with segs := t.segs.map fun x =>
      if x.no != no then x
      else if copyB then { x with chunksB := lset x.chunksB col (x.chunksA.getD col []), badB := x.badB.filter (· / 16 != col) }
      else { x with chunksA := lset x.chunksA col (x.chunksB.getD col []), badA := x.badA.filter (· / 16 != col) } }
    (s.storeChunk id no col copyB).bump 0x1082 3 1

/-- A damaged chunk is rewritten from the other copy. -/
def execLappedRepair (table seg col : Nat) (copyB : Bool) (s : State) : Res :=
  .next (s.lappedRepair table seg col copyB)

end Sys2Proof.Machine
end

