-- ==== Sys2Proof/Machine/TaskOps.lean ====
section
/-! DEFINITION. Status codes (R659) and what every command of an instance shares: its entry in the queue and its one
completion record (R528). -/

namespace Sys2Proof.Machine

/-- OK. -/
def stOk : Nat := 0
/-- SUPERSEDED. -/
def stSuperseded : Nat := 0x1001
/-- LATE_ROWS_ADMITTED. -/
def stLateAdmitted : Nat := 0x1002
/-- AMEND. -/
def stAmend : Nat := 0x1003
/-- BAD_OPCODE. -/
def stBadOpcode : Nat := 0x2001
/-- BAD_ARGUMENT. -/
def stBadArgument : Nat := 0x2002
/-- BAD_IMAGE. -/
def stBadImage : Nat := 0x2003
/-- NOT_OWNER. -/
def stNotOwner : Nat := 0x2004
/-- CONFLICT. -/
def stConflict : Nat := 0x2005
/-- WRONG_STATE. -/
def stWrongState : Nat := 0x2006
/-- BATCH_INCONSISTENT. -/
def stBatchInconsistent : Nat := 0x2007
/-- LENGTH_SHORT. -/
def stLengthShort : Nat := 0x2008
/-- LENGTH_LONG. -/
def stLengthLong : Nat := 0x2009
/-- SIGNATURE_REQUIRED. -/
def stSignatureRequired : Nat := 0x200A
/-- BUSY. -/
def stBusy : Nat := 0x3001
/-- NO_CONTEXT. -/
def stNoContext : Nat := 0x3002
/-- QUOTA_EXCEEDED. -/
def stQuota : Nat := 0x3004
/-- QUEUE_FULL. -/
def stQueueFull : Nat := 0x3005
/-- LATE_ROWS_REJECTED. -/
def stLateRejected : Nat := 0x4008
/-- DUPLICATE_STAMP. -/
def stDuplicate : Nat := 0x4009
/-- WINDOW_FAULT. -/
def stWindowFault : Nat := 0x5001
/-- HOST_ACCESS_REVOKED. -/
def stRevoked : Nat := 0x5002
/-- PORT_FROZEN. -/
def stPortFrozen : Nat := 0x5003
/-- AUTH_FAILED. -/
def stAuthFailed : Nat := 0x5004
/-- ALARM_CLEARED. -/
def stAlarmCleared : Nat := 0x5005
/-- ABORTED_CANCEL. -/
def stAbortCancel : Nat := 0x6001
/-- ABORTED_RESET. -/
def stAbortReset : Nat := 0x6002
/-- ABORTED_ACTIVATION. -/
def stAbortActivation : Nat := 0x6003
/-- TILE_FAULT. -/
def stTileFault : Nat := 0x7001
/-- STACK_LIMIT. -/
def stStackLimit : Nat := 0x7002
/-- INTERNAL. -/
def stInternal : Nat := 0x7003

/-- OPCODE of a command (R516). -/
def Cmd.opcode (c : Cmd) : Nat := c.word % 256
/-- The Nail flag. -/
def Cmd.nail (c : Cmd) : Bool := bitAt c.word 8
/-- An argument. -/
def Cmd.arg (c : Cmd) (i : Nat) : Nat := c.args.getD i 0

/-- The command of an instance with a receipt. -/
def State.cmd (s : State) (i : InstId) (r : Stamp) : Option Cmd := (s.insts[i]).queue.find? (·.receipt == r)

/-- The command of an instance with a receipt SEQ24. -/
def State.cmdSeq (s : State) (i : InstId) (seq : Nat) : Option Cmd := (s.insts[i]).queue.find? (·.receipt.seq == seq)

/-- Changes the command with a receipt. -/
def State.modCmd (s : State) (i : InstId) (r : Stamp) (f : Cmd → Cmd) : State :=
  s.modInst i fun x => { x with queue := x.queue.map fun c => if c.receipt == r then f c else c }

/-- The plan of a slot. -/
def State.plan (s : State) (slot : Nat) : Option Plan := nget s.plans.plans slot
/-- One plan changed. -/
def State.modPlan (s : State) (slot : Nat) (f : Plan → Plan) : State :=
  s.modPlans fun p => { p with plans := nmod p.plans slot f }

/-- The 128 bytes of a completion record (R528). -/
def recordBytes (c : Cmd) (i : InstId) (status : Nat) (nailed : Bool) (done : Stamp) : Bytes :=
  toLE 4 0x454E4F44 ++ toLE 1 c.opcode ++ toLE 1 (i.val + if nailed then 64 else 0) ++ toLE 2 status ++ toLE 8 c.tag
    ++ c.receipt.bytes ++ done.bytes ++ toLE 8 c.energy.floor.toNat ++ zeros 8 ++ toLE 8 (c.d[0]) ++ toLE 8 (c.d[1])
    ++ toLE 8 (c.d[2]) ++ toLE 8 (c.d[3]) ++ padTo 16 c.planId ++ zeros 16

/-- A command ends in its one record, which then waits for delivery (R528 to R530). -/
def State.completeWith (s : State) (i : InstId) (r : Stamp) (status : Nat) (nailed : Bool) (result : Bytes)
    (resultAddr : Nat) : State :=
  match s.cmd i r with
  | none => s
  | some c =>
    let (done, s) := s.stamp s.ridgeSrc
    let rec' : CRec :=
      { receipt := r, bytes := recordBytes c i status nailed done, result := result, resultAddr := resultAddr }
    let s := s.modInst i fun x =>
      { x with queue := x.queue.filter (·.receipt != r), records := x.records ++ [rec'],
               energyTotal := x.energyTotal + c.energy.floor.toNat, idleSince := s.time.ts }
    let s := s.modIngest fun g => { g with appends := g.appends.filter (·.receipt != r) }
    s.journal 5 r status

/-- A command ends with a status and no result bytes. -/
def State.complete (s : State) (i : InstId) (r : Stamp) (status : Nat) : State := s.completeWith i r status false [] 0

/-- Sets the details D0 to D3 of a command. -/
def State.setDetails (s : State) (i : InstId) (r : Stamp) (d0 d1 d2 d3 : Nat) : State :=
  s.modCmd i r fun c => { c with d := #v[d0, d1, d2, d3] }

/-- Tags of a command's reads freed. -/
def State.freeCmdTags (s : State) (i : InstId) (seq : Nat) : State :=
  s.modHost fun h => { h with ports := h.ports.map fun p =>
    { p with tags := p.tags.filter fun t => match t.2 with
      | .outstanding _ use _ => use != .command i seq
      | .quarantined _ => true } }

end Sys2Proof.Machine
end

