-- ==== Sys2Proof/Machine/Batten.lean ====
section
/-! DEFINITION. The Batten's mechanics (chapter 09): descriptors, ready lists, eligibility and choice, leases, dispatch and
pre-emption, the bundle-done queue and the decision trace. -/

namespace Sys2Proof.Machine

/-- A descriptor's 64 bytes (R293). -/
def BDesc.bytes (d : BDesc) : Bytes :=
  let w := d.planSlot + d.pipeline * 2 ^ 12 + d.priority * 2 ^ 16 + d.flat.toNat * 2 ^ 19 + d.courses * 2 ^ 20 + d.inst * 2 ^ 28
    + d.hip.toNat * 2 ^ 34 + d.firing.toNat * 2 ^ 35 + d.banks * 2 ^ 36 + d.attempt * 2 ^ 40 + (d.exclude.getD 0) * 2 ^ 43
    + d.exclude.isSome.toNat * 2 ^ 49
  toLE 8 w ++ toLE 4 d.affinity ++ toLE 4 d.unit ++ toLE 6 d.contextAddr ++ zeros 2 ++ toLE 4 d.rowFirst ++ toLE 4 d.rowCount
    ++ toLE 6 d.sourceAddr ++ zeros 2 ++ toLE 8 d.readyTs ++ toLE 2 d.depends ++ zeros 14

/-- A descriptor read from 64 bytes; the flag says that its reserved fields are zero. -/
def BDesc.parse (b : Bytes) : BDesc × Bool :=
  let w := fieldAt 0 8 b
  ({ planSlot := w % 2 ^ 12, pipeline := bitsOf w 15 12, priority := bitsOf w 18 16, flat := bitAt w 19, courses := bitsOf w 27 20,
     inst := bitsOf w 33 28, hip := bitAt w 34, firing := bitAt w 35, banks := bitsOf w 39 36, attempt := bitsOf w 42 40,
     exclude := if bitAt w 49 then some (bitsOf w 48 43) else none, affinity := fieldAt 8 4 b, unit := fieldAt 12 4 b,
     contextAddr := fieldAt 16 6 b, rowFirst := fieldAt 24 4 b, rowCount := fieldAt 28 4 b, sourceAddr := fieldAt 32 6 b,
     readyTs := fieldAt 40 8 b, depends := fieldAt 48 2 b },
   bitsOf w 63 50 == 0 && fieldAt 22 2 b == 0 && fieldAt 38 2 b == 0 && fieldAt 50 14 b == 0)

/-- The identity of a bundle (R186, R294). -/
def BDesc.ident (d : BDesc) : Nat × Nat × Nat := (d.planSlot, d.pipeline, d.unit)

/-! The two rings of records. -/

/-- A record written at the head of a ring in DRAM, when the ring has a size. [log 63 DEDUCED] -/
def State.ringWrite (s : State) (r : RingRegs) (bs : Bytes) : State :=
  if r.size == 0 then s else s.sysWrite (r.base + r.head % r.size) bs

/-- A bundle-done record (R295). -/
def State.doneRecord (s : State) (d : BDesc) (tile status : Nat) : State :=
  let (st, s) := s.stamp srcBatten
  let bs := st.bytes ++ toLE 2 d.planSlot ++ toLE 1 d.pipeline ++ toLE 1 tile ++ toLE 4 d.unit ++ toLE 2 status
    ++ toLE 1 d.attempt ++ zeros 5
  (s.ringWrite s.batten.doneRegs bs).modBatten fun b =>
    { b with done := keepLast 32768 (b.done ++ [⟨st, d.planSlot, d.pipeline, tile, d.unit, status, d.attempt⟩])
             doneRegs := { b.doneRegs with head := b.doneRegs.head + 32 } }

/-- A trace record's 32 bytes (R316). [log 253 DEDUCED] -/
def TraceRec.bytes (r : TraceRec) : Bytes :=
  r.stamp.bytes ++ toLE 1 r.event ++ toLE 1 r.tile ++ toLE 2 (r.planSlot + r.pipeline * 2 ^ 12) ++ toLE 4 r.unit
    ++ toLE 2 (r.priority + r.flat.toNat * 8 + r.inst * 16 + r.affinityHit.toNat * 2 ^ 10) ++ toLE 2 r.status ++ toLE 4 r.wait

/-- An event traced where TRACE_MASK has its bit and no stop holds (R316, R317, R672). [log 253 DEDUCED] -/
def State.trace (s : State) (event tile : Nat) (d : BDesc) (status : Nat) (hit : Bool) : State :=
  if !bitAt (s.cfg 0x2030 1 0) event || s.err.traceStopped.isSome then s else
  let r := s.batten.traceRegs
  let full := r.size < r.head - r.tail + 32
  let mode := s.cfg 0x2030 2 0
  if full && mode == 0 then s.bump 0x2030 5 1 else
  let (st, s) := s.stamp srcBatten
  let rec' : TraceRec :=
    { stamp := st, event := event, tile := tile, planSlot := d.planSlot, pipeline := d.pipeline, unit := d.unit,
      priority := d.priority, flat := d.flat, inst := d.inst, affinityHit := hit, status := status,
      wait := min (2 ^ 32 - 1) (s.time.ts - d.readyTs), planId := ((nget s.plans.plans d.planSlot).map fun p => sliceB 24 16 p.image).getD [] }
  (s.ringWrite r rec'.bytes).modBatten fun b =>
    { b with trace := keepLast (r.size / 32) (b.trace ++ [rec'])
             traceRegs := { r with head := r.head + 32, tail := if full then r.tail + 32 else r.tail } }

/-! Courses and tiles. -/

/-- A course the Batten may use: not Parked, not fused off or fenced. -/
def State.courseUp (s : State) (c : CourseId) : Bool :=
  (s.power.courses[c]).effective != 3 && !bitAt s.boot.coursesOff c.val && !bitAt s.boot.coursesFenced c.val

/-- A course at Flat pitch. -/
def State.courseFlat (s : State) (c : CourseId) : Bool := (s.power.courses[c]).assigned == 2

/-- Courses a mask names. -/
def coursesIn (mask : Nat) : List CourseId := (List.finRange 8).filter fun c => bitAt mask c.val

/-- FLAT of a descriptor: every course in COURSES is at Flat pitch (R293). -/
def State.flatOf (s : State) (courses : Nat) : Bool := (coursesIn courses).all s.courseFlat

/-- The state counts toward a course's load (R318). -/
def TileState.busy : TileState → Bool
  | .dispatching | .running | .saving => true
  | _ => false

/-- One course's counters changed. -/
def State.modCourseStat (s : State) (c : CourseId) (f : CourseStat → CourseStat) : State :=
  s.modBatten fun b => { b with courseStats := b.courseStats.set c (f (b.courseStats[c])) }

/-- A tile changes state; the time it was busy counts for its course. -/
def State.tileTo (s : State) (t : TileId) (x : TileState) : State :=
  let now := s.time.ts
  let old := s.batten.tiles[t]
  let s := s.modSched t fun y => { y with state := x, changed := now }
  if !old.state.busy then s else
  s.modCourseStat (courseOf t) fun k =>
    { k with busy := k.busy + (now - old.changed) * 8 / 5, busyCycle := k.busyCycle + (now - max old.changed s.time.lastBoundary) }

/-- Load of a course over the cycle that ends now, in whole percent (R318). -/
def State.courseLoad (s : State) (c : CourseId) (start : Nat) : Nat :=
  let now := s.time.ts
  let open' := ((List.finRange 8).map fun p =>
    let y := s.batten.tiles[tileOf c p]
    if y.state.busy then now - max y.changed start else 0).sum
  if now ≤ start then 0 else ((s.batten.courseStats[c]).busyCycle + open') * 100 / (8 * (now - start))

/-! Leases (R253). -/

/-- Banks leased to bundles of a plan slot. -/
def State.leasedBanks (s : State) (slot : Nat) : List Nat :=
  (s.batten.tiles.toList.flatMap fun y => if y.desc.any (·.planSlot == slot) then y.run.leased else [])
    ++ s.batten.ready.flatMap fun r => if r.desc.planSlot == slot then (r.saved.map (·.1.leased)).getD [] else []

/-- The plan slot table's entry of a slot. -/
def State.slotEntry (s : State) (slot : Nat) : SlotEntry := (nget s.batten.slots slot).getD ⟨0, 0, 0, 0⟩

/-- Banks of a plan slot that no bundle leases, in ascending order. -/
def State.unleased (s : State) (slot : Nat) : List Nat :=
  let held := s.leasedBanks slot
  (List.range 8).filter fun b => bitAt (s.slotEntry slot).bankMask b && !held.contains b

/-- A course's Hip unit is free for a bundle. -/
def State.hipFree (s : State) (c : CourseId) (d : BDesc) : Bool :=
  (s.purlin.hipLease[c] == none && s.purlin.hipSeal[c] == none) || s.purlin.hipLease[c] == some d.ident

/-- Hip units a plan slot's bundles hold. -/
def State.hipHeld (s : State) (slot : Nat) : Nat := s.purlin.hipLease.toList.countP fun x => x.any (·.1 == slot)

/-- Hip leases of a bundle returned. -/
def State.dropHip (s : State) (d : BDesc) : State :=
  s.modPurlin fun p => { p with hipLease := p.hipLease.map fun x => if x == some d.ident then none else x }

/-- HIP_HELD and BANKS_LEASED follow the leases (R297). -/
def State.syncSlot (s : State) (slot : Nat) : State :=
  match nget s.batten.slots slot with
  | none => s
  | some e =>
    let mask := ((s.leasedBanks slot).eraseDups.map (2 ^ ·)).sum
    let e := { e with hipHeld := s.hipHeld slot, banksLeased := mask }
    s.modBatten fun b => { b with slots := nput b.slots slot e }

/-- Tiles that a plan's bundles occupy (R174). -/
def State.tilesOf (s : State) (slot : Nat) : Nat := s.batten.tiles.toList.countP fun y => y.desc.any (·.planSlot == slot)

/-- A plan may occupy one more tile of its claim. [log 64 DEDUCED] -/
def State.tileClaim (s : State) (slot : Nat) : Bool :=
  match nget s.plans.plans slot with
  | some p => s.tilesOf slot < p.claims.tiles
  | none => true

/-! Placement and choice. -/

/-- A bundle is eligible for a tile (R297), leases apart. -/
def State.eligibleTile (s : State) (d : BDesc) (t : TileId) : Bool :=
  let c := courseOf t
  bitAt d.courses c.val && s.courseUp c && !(s.batten.tiles[t]).faultFenced && d.exclude != some t.val && s.tileClaim d.planSlot

/-- A bundle is eligible for a tile (R297). [log 64 DEDUCED] -/
def State.eligible (s : State) (r : ReadyB) (t : TileId) : Bool :=
  let d := r.desc
  s.eligibleTile d t
    && (!d.hip || (s.hipFree (courseOf t) d && (r.saved.isSome || s.hipHeld d.planSlot < (s.slotEntry d.planSlot).hipLimit)))
    && (d.banks == 0 || r.saved.isSome || d.banks ≤ (s.unleased d.planSlot).length)

/-- The list of a bundle: 0 the Flat list, 1 + PRIORITY the others (R296). -/
def BDesc.list (d : BDesc) : Nat := if d.flat then 0 else 1 + d.priority

/-- Depth of a ready list. -/
def State.listDepth (s : State) (n : Nat) : Nat := s.batten.ready.countP fun r => r.desc.list == n

/-- One list's counters changed. -/
def State.modList (s : State) (n : Nat) (f : ListStat → ListStat) : State :=
  s.modBatten fun b => { b with lists := b.lists.set (Fin.ofNat 9 n) (f (b.lists[Fin.ofNat 9 n])) }

/-- A bundle enters its ready list with READY_TS and FLAT set by the Batten (R293, R296). -/
def State.placeBundle (s : State) (d : BDesc) (readyTs : Nat) (order : Option Nat) (saved : Option (BRun × ReedSt)) : State :=
  let d := { d with readyTs := readyTs, flat := s.flatOf d.courses }
  let no := order.getD s.batten.orderNo
  let r : ReadyB := ⟨d, no, saved, none, false, false⟩
  let s := s.modBatten fun b => { b with ready := b.ready ++ [r], orderNo := b.orderNo + if order.isNone then 1 else 0 }
  let n := s.listDepth d.list
  (s.modList d.list fun k => { k with depthMax := max k.depthMax n }).trace 1 0 d 0 false

/-- Of two waiting bundles, the one with the less READY_TS, then the earlier submission (R298). -/
def olderOf (a : Option ReadyB) (b : ReadyB) : Option ReadyB :=
  match a with
  | none => some b
  | some x => if b.desc.readyTs < x.desc.readyTs || (b.desc.readyTs == x.desc.readyTs && b.order < x.order) then some b else some x

/-- The oldest bundle of a list. -/
def oldest (l : List ReadyB) : Option ReadyB := l.foldl olderOf none

/-- A bundle is reserved for another tile (R298). -/
def State.reserved (s : State) (r : ReadyB) (t : TileId) : Bool :=
  s.time.ts < r.desc.readyTs + 1000 * s.batten.affinityUs &&
    (List.finRange 64).any fun u =>
      u != t && (s.batten.tiles[u]).state == .running && (s.batten.tiles[u]).lastAffinity == some r.desc.affinity
        && bitAt r.desc.courses (courseOf u).val

/-- The Batten's choice for an IDLE tile, and whether affinity made it (R298). -/
def State.choose (s : State) (t : TileId) : Option (ReadyB × Bool) :=
  let el := s.batten.ready.filter fun r => s.eligible r t
  let flat := if s.courseFlat (courseOf t) then oldest (el.filter fun r => r.desc.list == 0) else none
  match flat with
  | some r => some (r, false)
  | none =>
    match (List.range 8).find? fun p => el.any fun r => r.desc.list == 1 + p with
    | none => none
    | some p =>
      let l := el.filter fun r => r.desc.list == 1 + p
      match oldest (l.filter fun r => (s.batten.tiles[t]).lastAffinity == some r.desc.affinity) with
      | some r => some (r, true)
      | none => (oldest (l.filter fun r => !s.reserved r t)).map fun r => (r, false)

/-- Takes a waiting bundle off its list. -/
def State.unready (s : State) (d : BDesc) : State :=
  s.modBatten fun b => { b with ready := b.ready.filter fun r => r.desc.ident != d.ident }

/-- A bundle's pipeline keeps groups or merge passes in a bundle-temporary region (R244, R246, R251). -/
def State.wantsRegion (s : State) (d : BDesc) : Bool :=
  match nget s.plans.plans d.planSlot with
  | none => false
  | some p =>
    let m := parseImage p.image
    (m.pipes[d.pipeline]?).any fun pd => ((m.ops.drop pd.first).take pd.count).any fun x =>
      x.code == 0x20 || x.code == 0x21 || x.code == 0x29

/-- The active Ridge writes the region of a bundle in the lowest entry that is not valid, before its dispatch (R381): HASH_TEMP_MIB at a place
of its choice. [log 218 DESIGN CHOICE] -/
def State.openRegion (s : State) (d : BDesc) : State :=
  if !s.wantsRegion d || s.thatch.regions.any (fun p => p.2.valid && (p.2.planSlot, p.2.pipeline, p.2.unit) == d.ident) then s else
  match (List.range 256).find? fun k => !(nget s.thatch.regions k).any (·.valid) with
  | none => s
  | some k =>
    let (c, s) := s.fresh
    let units := 16 * s.cfg 0x18C1 3 16
    let base := Config.freeNat c % (s.dram.managed / 65536 - units + 1)
    let entry : Region :=
      { base := base, limit := base + units, valid := true, lost := false, planSlot := d.planSlot, pipeline := d.pipeline, unit := d.unit }
    s.modThatch fun t => { t with regions := nput t.regions k entry }

/-- A dispatch (R301): mailbox, interrupt, leases, DISPATCHING. -/
def State.dispatch (s : State) (t : TileId) (r : ReadyB) (hit : Bool) : State :=
  let d := r.desc
  let now := s.time.ts
  let lease := if r.saved.isSome then [] else (s.unleased d.planSlot).take d.banks
  let s := lease.foldl (fun s b => s.clearBank (Fin.ofNat 8 b)) ((s.unready d).openRegion d)
  let (run, reed) := r.saved.getD ({ BRun.empty with leased := lease }, .reset)
  let s := if d.hip then
      (s.dropHip d).modPurlin fun p => { p with hipLease := p.hipLease.set (courseOf t) (some d.ident) }
    else s
  let s := (s.tileTo t .dispatching).modSched t fun y =>
    { y with desc := some d, order := r.order, since := now, run := run, reed := reed, purged := false, parking := false, energy := 0 }
  let s := (s.modTile t fun c => { c with mailbox := d, pendDispatch := true }).syncSlot d.planSlot
  let wait := now - d.readyTs
  let s := s.modList d.list fun k =>
    { k with waitMax := max k.waitMax wait, waitSum := k.waitSum + wait, dispatches := k.dispatches + 1 }
  let s := if hit then s.bump 0x2022 4 1 else s
  let s := if d.firing && d.flat && d.pipeline == 0 then s.setRo 0x2100 7 (max (s.ro 0x2100 7) wait) else s
  let wasted := r.raised.any fun u =>
    u != t.val && ((s.batten.tiles[Fin.ofNat 64 u]).state == .preempting || (s.batten.tiles[Fin.ofNat 64 u]).state == .saving)
  (if wasted then s.bump 0x2022 3 1 else s).trace 2 t.val d 0 hit

/-! Yelm jobs of a tile (R459, R468). -/

/-- Jobs of a tile that leaves its bundle end with a status. -/
def State.yelmLeave (s : State) (t : TileId) (code : Nat) : State :=
  let f := fun (j : YJob) => if j.tile == some t && j.ended.isNone then { j with ended := some code } else j
  s.modYelm fun y => { y with jobs := y.jobs.map fun j => j.map f }

/-- An engine holds a job of the tile. -/
def State.yelmHolds (s : State) (t : TileId) : Bool := s.yelm.jobs.toList.any fun j => j.any fun j => j.tile == some t

/-- An IDLE tile that the Batten does not hold until a Yelm slot reads DONE. -/
def State.tileFree (s : State) (t : TileId) : Bool := (s.batten.tiles[t]).state == .idle && !s.yelmHolds t

/-- The Batten chooses for each IDLE tile in turn. -/
def State.chooseAll (s : State) : State :=
  (List.finRange 64).foldl (fun s t =>
    if !s.tileFree t then s else
    match s.choose t with
    | some (r, hit) => s.dispatch t r hit
    | none => s) s

/-- A pre-emption raised on a RUNNING tile (R302). -/
def State.preemptTile (s : State) (t : TileId) (parking : Bool) : State :=
  match (s.batten.tiles[t]).desc with
  | none => s
  | some d =>
    let s := (s.tileTo t .preempting).modSched t fun y => { y with preemptAt := s.time.ts, parking := parking }
    let s := s.modTile t fun c => { c with pendPreempt := true }
    (s.modCourseStat (courseOf t) fun k => { k with preemptions := k.preemptions + 1 }).trace 3 t.val d 0 false

/-- The victim among candidates: greatest PRIORITY, longest since dispatch, lowest tile (R302). -/
def State.victim (s : State) (ts : List TileId) : Option TileId :=
  ts.foldl (fun (best : Option TileId) t =>
    match best with
    | none => some t
    | some u =>
      let a := s.batten.tiles[t]
      let b := s.batten.tiles[u]
      let pa := (a.desc.map (·.priority)).getD 0
      let pb := (b.desc.map (·.priority)).getD 0
      if pb < pa || (pa == pb && a.since < b.since) then some t else best) none

/-- The tile a waiting bundle may pre-empt now, if it may (R302). -/
def State.preemptFor (s : State) (r : ReadyB) : Option TileId :=
  let idle := (List.finRange 64).any fun t => s.tileFree t && s.eligible r t
  let running := (List.finRange 64).filter fun t =>
    (s.batten.tiles[t]).state == .running && ((s.batten.tiles[t]).desc.any fun d => !d.flat)
  if r.raised.isSome || idle then none
  else if r.desc.flat then s.victim (running.filter fun t => bitAt r.desc.courses (courseOf t).val)
  else if s.batten.prioPreempt && r.desc.readyTs + 1000 * s.batten.preemptAfterUs ≤ s.time.ts then
    s.victim (running.filter fun t =>
      s.eligible r t && ((s.batten.tiles[t]).desc.any fun d => r.desc.priority < d.priority))
  else none

/-- Pre-emptions raised for waiting bundles, the Flat list first. -/
def State.preemptAll (s : State) : State :=
  let order := sortBy (fun (a b : ReadyB) => a.desc.list < b.desc.list ||
    (a.desc.list == b.desc.list && (a.desc.readyTs < b.desc.readyTs || (a.desc.readyTs == b.desc.readyTs && a.order < b.order))))
    s.batten.ready
  order.foldl (fun s r =>
    match s.preemptFor r with
    | none => s
    | some t =>
      (s.preemptTile t false).modBatten fun b =>
        { b with ready := b.ready.map fun x => if x.desc.ident == r.desc.ident then { x with raised := some t.val } else x }) s

/-- Bundles found held for banks or for a Hip unit are counted once (R253). [log 65 DEDUCED] -/
def State.countWaits (s : State) : State :=
  s.batten.ready.foldl (fun s r =>
    let d := r.desc
    let idle := (List.finRange 64).any fun t => s.tileFree t && s.eligibleTile d t
    let bank := idle && r.saved.isNone && (s.unleased d.planSlot).length < d.banks
    let hip := idle && d.hip && !(List.finRange 64).any fun t =>
      s.tileFree t && s.eligibleTile d t && s.hipFree (courseOf t) d
        && s.hipHeld d.planSlot < (s.slotEntry d.planSlot).hipLimit
    let s := if bank && !r.bankWait then s.bump 0x18C2 5 1 else s
    let s := if hip && !r.hipWait then s.bump 0x20C0 2 1 else s
    s.modBatten fun b => { b with ready := b.ready.map fun x =>
      if x.desc.ident == d.ident then { x with bankWait := x.bankWait || bank, hipWait := x.hipWait || hip } else x }) s

/-- Firmware unparks a course it parked for a bundle that no IDLE tile can take (R644): the change starts. -/
def State.policyUnpark (s : State) : State :=
  if !s.ridgeActs then s else
  s.batten.ready.foldl (fun s r =>
    let idle := (List.finRange 64).any fun t => s.tileFree t && s.eligible r t
    if idle then s else
    (coursesIn r.desc.courses).foldl (fun s c =>
      if (s.power.courses[c]).policyPark then
        s.modCourse c fun k => { k with policyPark := false, changing := true }
      else s) s) s

/-- A course holds a RUNNING tile, or a ready bundle is eligible for it (R644). -/
def State.courseNeeded (s : State) (c : CourseId) : Bool :=
  (List.finRange 8).any (fun p => (s.batten.tiles[tileOf c p]).state == .running)
    || s.batten.ready.any fun r => bitAt r.desc.courses c.val

/-- The idle interval of each course begins, goes on or ends (R644). -/
def State.noteIdle (s : State) : State :=
  (List.finRange 8).foldl (fun s c =>
    if s.courseNeeded c then s.modCourse c fun k => { k with idleSince := none }
    else if (s.power.courses[c]).idleSince.isNone then s.modCourse c fun k => { k with idleSince := some s.time.ts } else s) s

/-- Segments that are sealed out of stamp order and hold no Hip unit: table and SEGMENT_NO (R99). -/
def State.sealWants (s : State) : List (Nat × Nat) :=
  s.tables.tables.flatMap fun p => (p.2.segs.filter fun g => g.sealing && g.unordered && s.sealWork.contains (p.1, g.no)).filterMap fun g =>
    if s.purlin.hipSeal.toList.contains (some (p.1, g.no)) then none else some (p.1, g.no)

/-- Sealing takes Hip units that no bundle leases, never one of a Flat course (R254, R309). [log 62 DEDUCED] -/
def State.sealHips (s : State) : State :=
  s.sealWants.foldl (fun s x =>
    match (List.finRange 8).find? fun c => s.purlin.hipLease[c] == none && s.purlin.hipSeal[c] == none && s.courseUp c && !s.courseFlat c with
    | some c => s.modPurlin fun p => { p with hipSeal := p.hipSeal.set c (some x) }
    | none => s) s

/-- The Batten works: choice, pre-emption, and the firmware's answer to what it holds (R298, R302, R644). -/
def State.pump (s : State) : State :=
  if !s.batten.enable then s.sealHips else s.chooseAll.preemptAll.countWaits.policyUnpark.sealHips.noteIdle

/-- Descriptors held: ready, running and pre-empted (R294). -/
def State.heldDescs (s : State) : Nat := s.batten.ready.length + s.batten.tiles.toList.countP fun y => y.desc.isSome

/-- A bundle with this identity is ready, running or pre-empted. -/
def State.holdsIdent (s : State) (d : BDesc) : Bool :=
  s.batten.ready.any (fun r => r.desc.ident == d.ident)
    || s.batten.tiles.toList.any fun y => y.desc.any fun x => x.ident == d.ident

/-- A submission judged (R294). -/
def State.judgeSubmit (s : State) (d : BDesc) (reservedOk : Bool) : Nat :=
  if !reservedOk || d.courses == 0 || 8 < d.banks || 65536 < d.rowCount || d.depends != 0 then 0x2002
  else if 32768 ≤ s.heldDescs then 0x3001
  else if s.holdsIdent d then 0x2006
  else 0

/-- A submission: placed, or refused and counted (R294, R320). -/
def State.submit (s : State) (d : BDesc) (reservedOk : Bool) : Nat × State :=
  let st := s.judgeSubmit d reservedOk
  if st == 0 then (0, s.placeBundle d s.time.ts none none)
  else
    let s := if st == 0x3001 then s.bump 0x2022 2 1 else s
    (st, s.trace 11 0 { d with readyTs := s.time.ts } st false)

/-! Tiles that end with a bundle. -/

/-- Where a tile without a bundle stands: FENCED where its course is down or faults fenced it, else IDLE (R300). -/
def State.restState (s : State) (t : TileId) : TileState :=
  if (s.batten.tiles[t]).faultFenced || !s.courseUp (courseOf t) then .fenced else .idle

/-- The energy attributed to a tile's bundle is counted to its plan (R653, R654). [log 249 DESIGN CHOICE] -/
def State.spendEnergy (s : State) (t : TileId) : State :=
  let y := s.batten.tiles[t]
  match y.desc with
  | some d => (s.modPlan d.planSlot fun p => { p with energy := p.energy + y.energy }).modSched t fun y => { y with energy := 0 }
  | none => s

/-- A tile gives up its bundle's leases, its banks cleared, and stands at rest with no bundle; jobs of its course queue end with
ABORTED_RESET (R468). -/
def State.freeTile (s : State) (t : TileId) (x : TileState) : State :=
  let s := (s.yelmLeave t 0x6002).spendEnergy t
  match (s.batten.tiles[t]).desc with
  | none => s.tileTo t x
  | some d =>
    let s := (s.batten.tiles[t]).run.leased.foldl (fun s b => s.clearBank (Fin.ofNat 8 b)) (s.dropHip d)
    let s := (s.tileTo t x).modSched t fun y => { y with desc := none, run := .empty, reed := .reset, purged := false, parking := false }
    (s.modTile t fun c => { c with pendPreempt := false, pendDispatch := false }).syncSlot d.planSlot

/-- A fault of a tile noted; the threshold within one second fences it (R308). -/
def State.noteFault (s : State) (t : TileId) : State :=
  let now := s.time.ts
  let s := s.modSched t fun y => { y with faults := (y.faults.filter fun x => now ≤ x + 1000000000) ++ [now] }
  if (s.batten.tiles[t]).faultFenced || (s.batten.tiles[t]).faults.length < s.cfg 0x2012 3 3 then s
  else
    (s.modSched t fun y => { y with faultFenced := true }).raise srcBatten
      { ErrRec.blank with severity := .degraded, scope := 5, scopeId := t.val, event := 2 }

/-- The bundle-temporary region of a bundle is discarded: its lines in the Thatch and in the tiles are dropped without a write, and it is no
longer LOST; the entry stays valid for a bundle that runs again (R256, R381). -/
def State.discardRegion (s : State) (d : BDesc) (again : Bool) : State :=
  let mine := (s.thatch.regions.filter fun p => (p.2.planSlot, p.2.pipeline, p.2.unit) == d.ident).map (·.1)
  if mine.isEmpty then s else
  let of := fun (r : Option Nat) => r.any mine.contains
  (s.modThatch fun t =>
    { t with regions := t.regions.map fun p => if mine.contains p.1 then (p.1, { p.2 with lost := false, valid := p.2.valid && again }) else p
             slices := t.slices.map fun c => { c with lines := c.lines.filter fun x => !of x.2.region } }).modTiles fun v =>
    v.map fun c => { c with l1d := c.l1d.filter fun x => !of x.2.region }

/-- A failed bundle's re-run is placed, its region discarded (R185, R256, R303, R305). [log 66 DEDUCED] -/
def State.placeRerun (s : State) (d : BDesc) (order : Nat) (exclude : Option Nat) : State :=
  ((s.discardRegion d true).bump 0x2080 7 1).placeBundle { d with attempt := d.attempt + 1, exclude := exclude.or d.exclude } d.readyTs (some order) none

end Sys2Proof.Machine
end

