-- ==== Sys2Proof/Machine/PlanCheck.lean ====
section
/-! DEFINITION. Check 8 of R176: pipelines, slots, operators, buffers, constants, types and scales, kernels (R158 to R162,
R173, R194, R257, R264, R267, R695 to R697). The walk also gives the types that the operators work with. -/

namespace Sys2Proof.Machine

/-- What a buffer holds: its writer, and the type of each column, none where the image alone does not fix it. -/
structure BufInfo where
  pipe : Nat
  kind : Nat
  tys : List (Option STy)
  /-- Key columns, first in order. -/
  nkeys : Nat
  /-- PARTITIONS of the source of a SPLIT 3 writer, else 0. -/
  parts : Nat
deriving DecidableEq, Repr

/-- What a KJOIN_BUILD offers its probes (R235). -/
structure BuildInfo where
  pipe : Nat
  keys : List (Option STy)
  unique : Bool
  payload : Option (Option STy)
  banks : Nat
deriving DecidableEq, Repr

/-- What the walk through an image has met. -/
structure Walk where
  slots : NMap (Option STy)
  /-- Slots of each pipeline walked. -/
  done : NMap (NMap (Option STy))
  bufs : NMap BufInfo
  builds : NMap BuildInfo
  kbanks : Nat
  gbanks : Nat
deriving DecidableEq, Repr

/-- What check 8 takes from outside the image: columns by TREF, and the least SIZE of a TIME window. -/
structure CheckEnv where
  cols : List (Option (List ColDesc))
  minNs : Nat
deriving DecidableEq, Repr

/-- A condition with the offset of its field. -/
def need (ok : Bool) (off : Nat) : Except Nat Unit := if ok then .ok () else .error off

/-- Every condition of a list, in order. -/
def needAll (l : List (Bool × Nat)) : Except Nat Unit :=
  match firstBad l with
  | none => .ok ()
  | some off => .error off

/-- The static type of a column. -/
def ColDesc.sty (c : ColDesc) : STy := ⟨c.type, c.scale, c.maxLen⟩

/-- Types of equal code and scale. -/
def STy.like (a b : STy) : Bool := a.ty == b.ty && a.scale == b.scale

/-- Two types agree, as far as both are fixed. -/
def tyAgree (a b : Option STy) : Bool :=
  match a, b with
  | some x, some y => x.like y
  | _, _ => true

/-- The type of a slot read by an operator: an error where no earlier operator wrote it. -/
def Walk.read (wk : Walk) (slot off : Nat) : Except Nat (Option STy) :=
  match nget wk.slots slot with
  | some t => .ok t
  | none => .error off

/-- Types of the used input slots IN lo to IN hi − 1. -/
def Walk.inputs (wk : Walk) (x : OpD) (lo hi o : Nat) : Except Nat (List (Option STy)) :=
  ((List.range hi).drop lo).foldlM (fun acc j =>
    let s := x.ins.getD j 0xFF
    if s == 0xFF then .ok acc else (wk.read s (o + 8 + j)).map fun t => acc ++ [t]) []

/-- Inputs used, in order. -/
def OpD.used (x : OpD) (lo hi : Nat) : List Nat := ((x.ins.take hi).drop lo).filter (· != 0xFF)

/-- The used inputs of a range run without a gap. -/
def OpD.noGap (x : OpD) (lo hi : Nat) : Bool := (((x.ins.take hi).drop lo).dropWhile (· != 0xFF)).all (· == 0xFF)

/-- A parameter word. -/
def OpD.p (x : OpD) (i : Nat) : Nat := x.w.getD i 0

/-- Byte i of the bytes of W1, W2 … -/
def OpD.listByte (x : OpD) (i : Nat) : Nat := x.p (1 + i / 8) / 2 ^ (8 * (i % 8)) % 256

/-- Slots listed by EMIT and MATERIALISE: IN0 to IN7, then W1. -/
def OpD.listed (x : OpD) (n : Nat) : List Nat :=
  (List.range n).map fun i => if i < 8 then x.ins.getD i 0xFF else x.listByte (i - 8)

/-- Slots written: each within 0 to 63 and not written before. -/
def Walk.write (wk : Walk) (x : OpD) (tys : List (Option STy)) (o : Nat) : Except Nat Walk := do
  need (x.outCount == tys.length) (o + 2)
  need (x.outFirst + x.outCount ≤ 64 && (List.range x.outCount).all fun i => (nget wk.slots (x.outFirst + i)).isNone) (o + 1)
  pure { wk with slots := ((List.range x.outCount).zip tys).foldl (fun m p => nput m (x.outFirst + p.1) p.2) wk.slots }

/-- A buffer written by this pipeline, as its writer forms it (R160, R257). -/
def Walk.writeBuf (wk : Walk) (m : PImg) (pi : Nat) (parts buf kind nkeys : Nat) (tys : List (Option STy)) (o : Nat) :
    Except Nat Walk := do
  need (((m.bufs[buf]?).map (·.kind)) == some kind) o
  let info : BufInfo := ⟨pi, kind, tys, nkeys, parts⟩
  need ((nget wk.bufs buf).isNone || nget wk.bufs buf == some info) o
  pure { wk with bufs := nput wk.bufs buf info }

/-- A buffer read: its writer is named in DEPENDS (R160). -/
def Walk.readBuf (wk : Walk) (p : PipeD) (buf o : Nat) : Except Nat BufInfo :=
  match nget wk.bufs buf with
  | some b => if bitAt p.depends b.pipe then .ok b else .error o
  | none => .error o

/-- The scan's columns at bytes of W1 onwards: in the COLUMN_MASK, and 0xFF beyond the count (R162, R194). -/
def colsOf (env : CheckEnv) (m : PImg) (tref : Nat) (bytes : List Nat) (n o : Nat) : Except Nat (List (Option STy)) := do
  let mask := ((m.trefs[tref]?).map (·.mask)).getD 0
  let cols := (env.cols[tref]?).getD none
  let used := bytes.take n
  needAll ((List.range bytes.length).zip bytes |>.map fun (i, c) =>
    ((if i < n then bitAt mask c && cols.all (fun l => c < l.length) else c == 0xFF : Bool), o + 24 + i))
  pure (used.map fun c => cols.bind fun l => (l[c]?).map ColDesc.sty)

/-- A predicate word: column, comparison, constant index (R193). -/
def predParts (w : Nat) : Nat × Nat × Nat := (w % 256, w / 256 % 256, w / 65536 % 65536)

/-- A predicate meets R194. -/
def predOk (env : CheckEnv) (m : PImg) (tref w : Nat) : Bool :=
  let (c, code, k) := predParts w
  let mask := ((m.trefs[tref]?).map (·.mask)).getD 0
  let cols := (env.cols[tref]?).getD none
  let ty := cols.bind fun l => (l[c]?).map ColDesc.sty
  let const := fun (i : Nat) (set : Bool) => match m.consts[i]? with
    | some x => x.isSet == set && tyAgree (some x.sty) ty
    | none => false
  bitAt mask c && cols.all (fun l => c < l.length) &&
    match code with
    | 0x10 | 0x11 | 0x12 | 0x13 | 0x14 | 0x15 => const k false
    | 0x20 | 0x21 => k == 0
    | 0x24 => const k false && const (k + 1) false
    | 0x25 => const k true && ty.all fun t => !tyVar t.ty
    | 0x30 => const k false && ty.all fun t => tyVar t.ty
    | _ => false

/-- A key slot of the key store: fixed-width; its packed bits (R234). -/
def keyBits (tys : List (Option STy)) : Nat := (tys.map fun t => (t.map fun t => tyBits t.ty + 1).getD 0).sum

/-- Key slots are fixed-width and pack into 256 bits. -/
def packable (tys : List (Option STy)) : Bool := tys.all (fun t => t.all fun t => !tyVar t.ty) && keyBits tys ≤ 256

/-- The output type of an aggregate for an input of a type, none outside R242. -/
def aggTy (final : Bool) (code : Nat) (ty : STy) : Option STy :=
  match code with
  | 0 | 1 => if final && ty.ty != 9 then none else some ⟨9, 0, 0⟩
  | 2 =>
    let out : STy :=
      if 2 ≤ ty.ty && ty.ty ≤ 5 then ⟨5, 0, 0⟩ else if 6 ≤ ty.ty && ty.ty ≤ 9 then ⟨9, 0, 0⟩
      else if ty.ty == 13 then ⟨13, ty.scale, 0⟩ else if tyFloat ty.ty then ⟨11, 0, 0⟩ else ⟨0, 0, 0⟩
    if out.ty == 0 || (final && !out.like ty) then none else some out
  | 3 | 4 => if tyVar ty.ty then none else some ty
  | 5 | 6 => if ty.ty == 1 then some ty else none
  | _ => none

/-- Types of the aggregates of W1 (R242). -/
def aggTys (wk : Walk) (x : OpD) (n o : Nat) : Except Nat (List (Option STy)) :=
  (List.range n).foldlM (fun acc i => do
    let b := x.p 1 / 2 ^ (8 * i) % 256
    let final := bitAt (x.p 0) 0
    let j := b / 16
    need (b < 128 && b % 16 ≤ 6) (o + 24 + i)
    if b % 16 == 0 && !final then do
      need (j == 0) (o + 24 + i)
      pure (acc ++ [some ⟨9, 0, 0⟩])
    else do
      need (x.ins.getD j 0xFF != 0xFF) (o + 24 + i)
      match ← wk.read (x.ins.getD j 0xFF) (o + 8 + j) with
      | none => pure (acc ++ [none])
      | some t =>
        match aggTy final (b % 16) t with
        | some r => pure (acc ++ [some r])
        | none => .error (o + 24 + i)) []

/-- The types an expression sees: the slots whose type is fixed. -/
def fixedSlots (m : NMap (Option STy)) : NMap STy := m.filterMap fun p => p.2.map fun t => (p.1, t)

/-- The type of each written slot, unfixed where the image does not fix it. -/
def slotTypes (m : NMap (Option STy)) : NMap STy := m.map fun p => (p.1, p.2.getD .unfixed)

/-- The result type of an operator's program, judged as far as the types of its slots are fixed; unfixed where its scale depends on
one that is not. -/
def progTy (m : PImg) (wk : Walk) (x : OpD) (o : Nat) : Except Nat (Option STy) :=
  match m.exprs[x.expr]? with
  | none => .error (o + 4)
  | some p =>
    match xProgTy (slotTypes wk.slots) m.consts p with
    | some t => .ok (if t.scale == 0xFF then none else some t)
    | none => .error (m.exprAt.getD x.expr noOffset)

/-- A WINDOW's definition meets R265 and R267. -/
def windowChecks (env : CheckEnv) (m : PImg) (x : OpD) (o : Nat) : List (Bool × Nat) :=
  let w0 := x.p 0
  let tref := w0 % 256
  let n := bitsOf w0 15 8
  let dom := bitsOf w0 17 16
  let shape := bitsOf w0 19 18
  let np := bitsOf w0 21 20
  let size := x.p 2
  let slide := x.p 3
  let t := m.trefs[tref]?
  [(t.any fun r => r.tsFrom == 0 && r.tsTo == 0, o + 16), (1 ≤ n && n ≤ 8, o + 17), (dom ≤ 2 && shape ≤ 2 && np ≤ 2, o + 18),
   (np != 0 || !bitAt w0 22, o + 18), (shape != 2 || !bitAt w0 24, o + 19),
   ((if dom == 0 then env.minNs ≤ size else if dom == 1 then 1 ≤ size else 100 ≤ size : Bool), o + 32),
   ((if shape == 1 then slide != 0 && size % slide == 0 && size / slide ≤ 64 else slide == 0 : Bool), o + 40),
   ((if shape == 0 then x.p 4 < size else if shape == 1 then x.p 4 < slide else size ≤ x.p 4 : Bool), o + 48)]
    ++ (List.range 2).map fun i =>
      let w := x.p 5 / 2 ^ (32 * i) % 2 ^ 32
      ((if i < np then predOk env m tref w else w == 0 : Bool), o + 56 + 4 * i)

/-- PARTITIONS of the buffer a SPLIT 3 pipeline reads, else 0. -/
def srcParts (m : PImg) (p : PipeD) : Nat :=
  if p.split != 3 then 0 else
  (((m.ops[p.first]?).bind fun x => m.bufs[x.p 0 % 256]?).map (·.parts)).getD 0

/-- Sources by KIND (R159, R162): MERGE stands in place of BUFSCAN. -/
def isSourceOf (kind code : Nat) : Bool :=
  (kind == 0 && code == 1) || (kind == 1 && (code == 2 || code == 0x29)) || (kind == 2 && code == 0x30)
/-- Sources. -/
def isSource (code : Nat) : Bool := code == 1 || code == 2 || code == 0x29 || code == 0x30
/-- Sinks. -/
def isSink (code : Nat) : Bool :=
  code == 0x10 || code == 0x12 || code == 0x14 || code == 0x28 || code == 0x3E || code == 0x3F
/-- Inner and breaking operators. -/
def isInner (code : Nat) : Bool :=
  code == 3 || code == 4 || code == 5 || code == 0x11 || code == 0x13 || (0x20 ≤ code && code ≤ 0x22) || code == 0x2A
    || code == 0x3C
/-- Operators that need a Hip unit (R253). -/
def needsHip (code : Nat) : Bool := code == 0x28 || code == 0x29 || code == 0x2A

/-- One operator of a pipeline (R159 to R162, R194, R257). -/
def opCheck (env : CheckEnv) (m : PImg) (pi : Nat) (p : PipeD) (i : Nat) (x : OpD) (wk : Walk) : Except Nat Walk := do
  let o := ((nget m.at' 3).getD 0) + 64 * i
  let w0 := x.p 0
  let buf := w0 % 256
  let parts := srcParts m p
  let first := i == p.first
  let last := i + 1 == p.first + p.count
  need ((!first || isSourceOf p.kind x.code) && (!last || isSink x.code) && (first || last || isInner x.code)) o
  need (x.expr == 0xFFFF || x.code == 3 || x.code == 4) (o + 4)
  need (x.kernel == 0xFFFF || x.code == 5) (o + 6)
  need (!needsHip x.code || m.claims.hip != 0) o
  match x.code with
  | 0x01 => do
    let n := bitsOf w0 15 8
    let np := bitsOf w0 19 16
    need ((m.trefs[buf]?).isSome) (o + 16)
    need (1 ≤ n && n ≤ 16) (o + 17)
    need (np ≤ 4 && (np != 0 || !bitAt w0 20)) (o + 18)
    let tys ← colsOf env m buf ((List.range 16).map x.listByte) n o
    needAll ((List.range 4).map fun k =>
      let w := x.p (3 + k / 2) / 2 ^ (32 * (k % 2)) % 2 ^ 32
      ((if k < np then predOk env m buf w else w == 0 : Bool), o + 40 + 4 * k))
    wk.write x tys o
  | 0x02 => do
    let b ← wk.readBuf p buf (o + 16)
    need ((b.kind == 0 && p.split == 2) || b.kind == 2) (o + 16)
    need (bitsOf w0 15 8 == b.tys.length) (o + 17)
    wk.write x b.tys o
  | 0x29 => do
    let b ← wk.readBuf p buf (o + 16)
    need (b.kind == 3 && p.split == 2) (o + 16)
    wk.write x b.tys o
  | 0x30 => do
    needAll (windowChecks env m x o)
    let tys ← colsOf env m buf ((List.range 8).map x.listByte) (bitsOf w0 15 8) o
    wk.write x ([some ⟨12, 0, 0⟩, some ⟨12, 0, 0⟩, some ⟨9, 0, 0⟩, some ⟨9, 0, 0⟩] ++ tys) o
  | 0x03 => do
    let t ← progTy m wk x o
    need (t.all fun t => t.ty == 1) (o + 4)
    wk.write x [] o
  | 0x04 => do
    let t ← progTy m wk x o
    wk.write x [t] o
  | 0x05 => do
    let _ ← wk.inputs x 0 8 o
    need (x.kernel < m.kernels.length) (o + 6)
    wk.write x (List.replicate x.outCount none) o
  | 0x10 => do
    let k := buf
    let banks := bitsOf w0 15 8
    need (p.split == 2) o
    need (1 ≤ k && k ≤ 4 && (x.used 0 4).length == k && x.noGap 0 4) (o + 16)
    need (1 ≤ banks && banks ≤ 8) (o + 17)
    let keys ← wk.inputs x 0 k o
    need (packable keys) (o + 8)
    let pay := x.ins.getD 4 0xFF
    let payload ← if pay == 0xFF then pure none else (wk.read pay (o + 12)).map some
    need (payload.all fun t => t.all fun t => !tyVar t.ty && tyWidth t.ty ≤ 4) (o + 12)
    let wk ← wk.write x [] o
    pure { wk with builds := nput wk.builds i ⟨pi, keys, bitAt w0 16, payload, banks⟩, kbanks := wk.kbanks + banks }
  | 0x11 => do
    match nget wk.builds (bitsOf w0 15 8) with
    | none => .error (o + 17)
    | some b => do
      need (bitAt p.depends b.pipe) (o + 17)
      need ((x.used 0 4).length == b.keys.length && x.noGap 0 4) (o + 8)
      let keys ← wk.inputs x 0 4 o
      need ((keys.zip b.keys).all (fun (a, c) => tyAgree a c) && packable keys) (o + 8)
      if w0 % 4 < 2 then do
        need (b.unique && b.payload.isSome) (o + 17)
        wk.write x [b.payload.getD none, some ⟨1, 0, 0⟩] o
      else wk.write x [] o
  | 0x12 => do
    let k := bitsOf w0 15 8
    need (k ≤ (x.used 0 8).length && x.noGap 0 8) (o + 17)
    let tys ← wk.inputs x 0 8 o
    let wk ← wk.write x [] o
    wk.writeBuf m pi parts buf 1 k tys (o + 16)
  | 0x13 => do
    let b ← wk.readBuf p (bitsOf w0 15 8) (o + 17)
    need (b.kind == 1) (o + 17)
    need (p.split != 3 || b.parts == 0 || b.parts == parts) (o + 17)
    need ((x.used 0 8).length == b.nkeys && x.noGap 0 8) (o + 8)
    let keys ← wk.inputs x 0 8 o
    need ((keys.zip b.tys).all (fun (a, c) => tyAgree a c)) (o + 8)
    wk.write x (if w0 % 4 < 2 then b.tys.drop b.nkeys ++ [some ⟨1, 0, 0⟩] else []) o
  | 0x14 => do
    let r := bitsOf w0 15 8
    need (1 ≤ r && r ≤ 12) (o + 17)
    need (((m.bufs[buf]?).map (·.parts)) == some (2 ^ r)) (o + 16)
    need (x.ins.getD 0 0xFF != 0xFF) (o + 8)
    let tys ← wk.inputs x 0 8 o
    let wk ← wk.write x [] o
    wk.writeBuf m pi parts buf 2 1 tys (o + 16)
  | 0x20 | 0x21 => do
    let k := bitsOf w0 7 4
    let b8 := bitsOf w0 15 8
    need (1 ≤ k && k ≤ 4 && (x.used 0 4).length == k && x.noGap 0 4) (o + 16)
    need (k ≤ x.outCount && x.outCount ≤ k + 8) (o + 2)
    let keys ← wk.inputs x 0 k o
    let aggs ← aggTys wk x (x.outCount - k) o
    if x.code == 0x20 then do
      need (1 ≤ b8 && b8 ≤ 8) (o + 17)
      need (packable keys) (o + 8)
      let wk ← wk.write x (keys ++ aggs) o
      pure { wk with gbanks := max wk.gbanks b8 }
    else do
      let spill ← wk.inputs x 0 8 o
      let wk ← if b8 == 0xFF then pure wk else wk.writeBuf m pi parts b8 2 k spill (o + 17)
      wk.write x (keys ++ aggs) o
  | 0x22 => do
    need (x.outCount ≤ 8) (o + 2)
    let aggs ← aggTys wk x x.outCount o
    wk.write x aggs o
  | 0x28 => do
    need (x.noGap 0 4) (o + 8)
    let keys ← wk.inputs x 0 4 o
    let carried ← wk.inputs x 4 8 o
    let wk ← wk.write x [] o
    wk.writeBuf m pi parts buf 3 keys.length (keys ++ carried) (o + 16)
  | 0x2A => do
    let k := w0 % 2 ^ 32
    need (x.outFirst == 0 && x.outCount == 0) (o + 1)
    need (1 ≤ k && k ≤ 65536) (o + 16)
    need (x.ins.getD 0 0xFF != 0xFF && x.noGap 0 4) (o + 8)
    let _ ← wk.inputs x 0 8 o
    pure wk
  | 0x3C => wk.write x [] o
  | 0x3E | 0x3F => do
    let n := if x.code == 0x3E then w0 % 256 else bitsOf w0 15 8
    need (n ≤ 16) (if x.code == 0x3E then o + 16 else o + 17)
    needAll ((List.range 8).map fun j => ((j + 8 < n || x.listByte j == 0xFF : Bool), o + 24 + j))
    let tys ← (x.listed n).foldlM (fun acc s => (wk.read s (o + 8)).map fun t => acc ++ [t]) []
    let wk ← wk.write x [] o
    if x.code == 0x3E then pure wk else wk.writeBuf m pi parts buf 0 0 tys (o + 16)
  | _ => .error o

/-- One pipeline (R158, R159): its operators in order over slots of its own. -/
def pipeCheck (env : CheckEnv) (m : PImg) (pi : Nat) (p : PipeD) (wk : Walk) : Except Nat Walk := do
  let wk := { wk with slots := [] }
  let wk ← (List.range p.count).foldlM (fun wk j =>
    match m.ops[p.first + j]? with
    | some x => opCheck env m pi p (p.first + j) x wk
    | none => .error noOffset) wk
  pure { wk with done := nput wk.done pi wk.slots }

/-- Pipelines that name pipeline 0 directly or through others (R264). -/
def reachesZero (pipes : List PipeD) : List Bool :=
  pipes.foldl (fun acc p =>
    acc ++ [(List.range acc.length).any fun q => bitAt p.depends q && (q == 0 || acc.getD q false)]) []

/-- Pipeline descriptors (R158, R159, R264). -/
def pipeRules (m : PImg) : List (Bool × Nat) :=
  let base := (nget m.at' 2).getD 0
  let idx := List.range m.pipes.length
  let each := (idx.zip m.pipes).flatMap fun (i, p) =>
    let o := base + 16 * i
    let pair := (p.kind, p.split)
    [((1 ≤ p.count && p.count ≤ 32 && p.first + p.count ≤ m.ops.length : Bool), o),
     ([(0, 0), (0, 1), (0, 2), (1, 2), (1, 3), (2, 2)].contains pair, o + 3),
     (p.split != 3 || (((m.ops[p.first]?).bind fun x => m.bufs[x.p 0 % 256]?).map (·.kind)) == some 2, o + 3),
     (p.kind != 2 || m.continuous, o + 3), (p.depends / 2 ^ i == 0, o + 6)]
  let cover := (List.range m.ops.length).map fun k =>
    ((m.pipes.countP fun p => p.first ≤ k && k < p.first + p.count) == 1, (nget m.at' 3).getD 0 + 64 * k)
  let reach := reachesZero m.pipes
  let cq : List (Bool × Nat) :=
    if m.continuous then (idx.zip m.pipes).map fun (i, p) =>
      ((if i == 0 then p.kind == 2 else p.kind == 1 && reach.getD i false), base + 16 * i)
    else []
  each ++ cover ++ cq

/-- Claims and buffer entries (R173). -/
def claimRules (b : Bytes) (m : PImg) : List (Bool × Nat) :=
  let o := (nget m.at' 7).getD 0
  let c := m.claims
  [((fieldAt (o + 5) 1 b ≤ 32 : Bool), o + 5), ((1 ≤ c.tiles && c.tiles ≤ 64 : Bool), o), (c.banks ≤ 8, o + 1), (c.hip ≤ 8, o + 2), (c.yelm ≤ 4, o + 3), (c.channels ≤ 8, o + 4),
   (c.scratchKib ≤ 256, o + 8), (c.bufferBytes == (m.bufs.map (·.bytes)).sum, o + 24)]
    ++ ((List.range m.bufs.length).zip m.bufs).map fun (i, b) =>
      let pow := (List.range 13).any fun r => 1 ≤ r && b.parts == 2 ^ r
      ((b.kind ≤ 3 && (if b.kind == 2 then pow else b.parts == 0) : Bool), o + 64 + 16 * i)

/-- Offsets of an index, in a section that is present: its count, then entries at multiples of 8, behind the index and inside the section. -/
def indexRules (present : Bool) (base : Nat) (sec : Bytes) (limit : Nat) : List (Bool × Nat) :=
  if !present then [] else
  let n := fieldAt 0 4 sec
  (((n ≤ limit && 4 + 4 * n ≤ sec.length : Bool), base)) ::
    (List.range (min limit n)).map fun i =>
      let a := fieldAt (4 + 4 * i) 4 sec
      ((a % 8 == 0 && 4 + 4 * n ≤ a && a + 8 ≤ sec.length : Bool), base + 4 + 4 * i)

/-- A constant at an offset of its section is well formed (R168, R697). -/
def constOk (sec : Bytes) (o : Nat) : Bool :=
  let ty := fieldAt o 1 sec
  let fl := fieldAt (o + 1) 1 sec
  let n := fieldAt (o + 2) 2 sec
  let vb := fieldAt (o + 4) 4 sec
  let w := tyWidth ty
  let null := bitAt fl 0
  let set := bitAt fl 1
  let param := bitAt fl 2
  let scale := fl / 8
  let vals := (List.range n).map fun i => orderKey ty (fieldAt (o + 8 + i * w) w sec)
  tyKnown ty && o + 8 + vb ≤ sec.length && scale ≤ 18 && (ty == 13 || scale == 0) && !(null && (set || param))
    && !(set && param) &&
    (if null then n == 1 && vb == 0
     else if set then !tyVar ty && 1 ≤ n && vb == n * w && (vals.zip (vals.drop 1)).all fun (a, b) => a < b
     else if param then !tyVar ty && n == 1 && vb == w && fieldAt (o + 8) w sec < 16
     else if tyVar ty then n == 1 && 4 ≤ vb && vb == 4 + fieldAt (o + 8) 4 sec
     else n == 1 && vb == w)

/-- Expression programs, constants and kernels apart from types (R166, R168, R170). -/
def partRules (b : Bytes) (m : PImg) : List (Bool × Nat) :=
  let (eo, eb) := imgSec b 4
  let (ko, kb) := imgSec b 5
  let (co, cb) := imgSec b 6
  let progs := (secIndex eb 1024).map fun a =>
    let n := fieldAt a 2 eb
    ((1 ≤ n && n ≤ 256 && a + 8 + 8 * n ≤ eb.length && fieldAt (a + 3) 1 eb ≤ 32 : Bool), eo + a)
  let consts := (secIndex cb 4096).map fun a => (constOk cb a, co + a)
  let kcount : List (Bool × Nat) :=
    if !imgHas b 5 then [] else [((fieldAt 0 4 kb ≤ 64 && 4 + 32 * fieldAt 0 4 kb ≤ kb.length : Bool), ko)]
  let kernels := ((List.range m.kernels.length).zip m.kernels).map fun (i, k) =>
    ((k.offset % 64 == 0 && 4 + 32 * m.kernels.length ≤ k.offset && k.offset + k.bytes ≤ kb.length && k.bytes % 4 == 0
      && k.bytes ≤ 32768 && k.entry % 4 == 0 && k.entry < k.bytes && k.dataKib ≤ 128 && k.stack ≤ 16384 && k.level ≤ m.level
      && (k.vl == 0 || k.vl == 8) && kernelCodeOk k.code : Bool), ko + 4 + 32 * i)
  [((m.level ≤ 1 : Bool), 20)] ++ indexRules (imgHas b 4) eo eb 1024 ++ progs ++ indexRules (imgHas b 6) co cb 4096 ++ consts ++ kcount ++ kernels

/-- Check 8 of R176, with what the walk gives. -/
def check8 (env : CheckEnv) (b : Bytes) : Except Nat Walk := do
  let m := parseImage b
  needAll (partRules b m)
  needAll (claimRules b m)
  needAll (pipeRules m)
  let wk ← ((List.range m.pipes.length).zip m.pipes).foldlM (fun wk (x : Nat × PipeD) => pipeCheck env m x.1 x.2 wk)
    (⟨[], [], [], [], 0, 0⟩ : Walk)
  let co := (nget m.at' 7).getD 0
  need (wk.kbanks + wk.gbanks ≤ m.claims.banks) (co + 1)
  needAll ((List.range m.bufs.length).map fun i => ((nget wk.bufs i).isSome, co + 64 + 16 * i))
  pure wk

/-- The types an accepted image's operators work with. -/
def walkOf (env : CheckEnv) (b : Bytes) : Walk :=
  match check8 env b with
  | .ok w => w
  | .error _ => ⟨[], [], [], [], 0, 0⟩

end Sys2Proof.Machine
end

