-- ==== Sys2Proof/Machine/Reach.lean ====
section
/-! DEFINITION. What a tile may reach (R24, R325, R326): its own scratch, its tile-control block, and DRAM through its
enabled windows. -/

namespace Sys2Proof.Machine

/-- The kinds of access a window grants (R324). -/
inductive Perm where
  | read | write | fetch
deriving DecidableEq, Repr

/-- The WATTR bit of a permission. -/
def Perm.bit : Perm → Nat
  | .read => 1 | .write => 2 | .fetch => 3

/-- Window n grants a permission in a mode: enabled, and without MON unless in monitor mode. -/
def Tile.winOn (c : Tile) (n : Fin 16) (p : Perm) (mon : Bool) : Bool :=
  let a := (c.wattr[n]).toNat
  bitAt a 0 && bitAt a p.bit && (mon || !bitAt a 4)

/-- The end of the windows that cover a DRAM byte, if any does. -/
def Tile.winCover (c : Tile) (p : Perm) (mon : Bool) (a : Nat) : Option Nat :=
  ((List.finRange 16).filterMap fun n =>
    let b := (c.wbase[n]).toNat
    let l := (c.wlim[n]).toNat
    if c.winOn n p mon && b ≤ a && a < l then some l else none).max?

/-- The first byte at or after a position that windows do not cover. [log 105 DEDUCED] -/
def Tile.winReach (c : Tile) (p : Perm) (mon : Bool) : Nat → Nat → Nat
  | 0, a => a
  | fuel + 1, a =>
    match c.winCover p mon a with
    | some l => Tile.winReach c p mon fuel l
    | none => a

/-- An address in the range of tile scratch reaches the tile's own scratch at this offset (R325). -/
def ownScratch (a : Nat) : Option Nat :=
  if scratchBase ≤ a && a < scratchBase + 0x1000000 then some ((a - scratchBase) % 0x40000) else none

/-- Base of a tile's control block in control space (R347). -/
def tcBase (t : TileId) : Nat := 0x030001000000 + t.val * 0x10000

/-- The first byte at or after a position that the tile may not access, none where all of n bytes are permitted
(R326). Fetch in bundle mode is only by a window. -/
def State.denied (s : State) (t : TileId) (p : Perm) (a n : Nat) : Option Nat :=
  let c := s.tiles[t]
  let mon := c.pl
  let stop : Nat :=
    match ownScratch a with
    | some off =>
      if mon then min (a + n) (scratchBase + 0x1000000)
      else if p == .fetch then a
      else
        let lim := c.scrMon.toNat * 4096
        if lim ≤ off then a else min (a + n) (a + (lim - off))
    | none =>
      if mon && tcBase t ≤ a && a < tcBase t + 0x10000 then min (a + n) (tcBase t + 0x10000)
      else min (c.winReach p mon 16 a) s.dram.managed |> max a
  if a + n ≤ stop then none else some stop

end Sys2Proof.Machine
end

