-- ==== Sys2Proof/Machine/Reed.lean ====
section
/-! DEFINITION. The Reed scan units' work on one block (chapter 06): predicates and zone decisions (R193 to R200), the
selected rows and the lines and planes read for them (R201 to R209), and batches (R205, R206). -/

namespace Sys2Proof.Machine

/-- What a scan command looks for: the source operator of its bundle with the constants and the range in force. -/
structure RPred where
  col : Nat
  code : Nat
  vals : List Val
  isNull : Bool
deriving DecidableEq, Repr

/-- A scan (R162, R195): table, columns in slot order, predicates, OR, zone maps off, TS64 range, slots of its own. -/
structure ScanSpec where
  table : Nat
  cols : List Nat
  outFirst : Nat
  preds : List RPred
  orMode : Bool
  skipOff : Bool
  lo : Nat
  hi : Nat
  /-- The range of R157 is given. -/
  ranged : Bool
  fixed : List (Nat × Val)
  /-- The plan claims a Yelm engine (R459). -/
  yelm : Bool
deriving DecidableEq, Repr

/-- A predicate word with its constants (R193). -/
def mkPred (consts : List XConst) (w : Nat) : RPred :=
  let (c, code, k) := predParts w
  let ks := if code == 0x24 then [k, k + 1] else if code == 0x20 || code == 0x21 then [] else [k]
  let vals := ks.flatMap fun i => ((consts[i]?).map (·.vals)).getD []
  { col := c, code := code, vals := vals, isNull := vals.contains .null }

/-- The range predicate on column 0 (R157, R200). -/
def ScanSpec.range (sp : ScanSpec) : RPred :=
  { col := 0, code := 0x24, vals := [.num sp.lo, .num sp.hi], isNull := false }

/-- A predicate is TRUE of a value; NULL counts as FALSE for selection (R196). -/
def RPred.holds (p : RPred) (ty : Nat) (v : Val) : Bool :=
  let c := p.vals.headD .null
  if p.code == 0x20 then v == .null
  else if p.code == 0x21 then v != .null
  else if v == .null || p.isNull then false
  else if p.code == 0x24 then !valLt ty v c && !valLt ty (p.vals.getD 1 .null) v
  else if p.code == 0x25 then p.vals.any fun m => !valLt ty v m && !valLt ty m v
  else if p.code == 0x30 then beginsWith v.bytesD c.bytesD
  else xCompare p.code ty v c

/-- A decision drawn from headers alone. -/
inductive ZDec where
  | no | all | some'
deriving DecidableEq, Repr

/-- A chunk header's or a zone-map entry's figures (R81). -/
structure ZoneS where
  lo : Nat
  hi : Nat
  nulls : Nat
  rows : Nat
deriving DecidableEq, Repr

/-- ALL_NULL. -/
def ZoneS.allNull (z : ZoneS) : Bool := z.nulls == z.rows

/-- The figures of a list of values. -/
def zoneOf (ty : Nat) (vals : List Val) : ZoneS :=
  let ex := extremes ty vals
  ⟨(ex.map fun e => zoneKey ty e.1).getD 0, (ex.map fun e => zoneKey ty e.2).getD 0, vals.countP (· == .null), vals.length⟩

/-- The zone-map entry of a sealed block. -/
def zoneRead (chunk : Bytes) (j : Nat) : ZoneS :=
  let z := zoneAt chunk j
  let n := fieldAt 18 2 z
  ⟨fieldAt 0 8 z, fieldAt 8 8 z, if bitAt (fieldAt 20 1 z) 0 then n else fieldAt 16 2 z, n⟩

/-- The figures of a sealed chunk's header. -/
def chunkZone (chunk : Bytes) : ZoneS := ⟨fieldAt 16 8 chunk, fieldAt 24 8 chunk, fieldAt 12 4 chunk, fieldAt 8 4 chunk⟩

/-- The decision on a predicate (R198, R199). -/
def RPred.decide' (p : RPred) (ty : Nat) (z : ZoneS) : ZDec :=
  let k := zoneKey ty (p.vals.headD .null)
  let k2 := zoneKey ty (p.vals.getD 1 .null)
  let full := z.nulls == 0
  let pick := fun (no all : Bool) => if no then ZDec.no else if all then .all else .some'
  if p.code == 0x20 then (if tyVar ty then .some' else pick full z.allNull)
  else if p.code == 0x21 then (if tyVar ty then .some' else pick z.allNull full)
  else if z.allNull || p.isNull then .no
  else if tyVar ty then
    match p.code with
    | 0x10 => pick (k < z.lo || z.hi < k) false
    | 0x13 => pick (k < z.lo) false
    | 0x15 => pick (z.hi < k) false
    | 0x24 => pick (k2 < k || z.hi < k || k2 < z.lo) false
    | _ => .some'
  else
    match p.code with
    | 0x10 => pick (k < z.lo || z.hi < k) (z.lo == z.hi && z.hi == k && full)
    | 0x11 => pick (z.lo == z.hi && z.hi == k) ((k < z.lo || z.hi < k) && full)
    | 0x12 => pick (k ≤ z.lo) (z.hi < k && full)
    | 0x13 => pick (k < z.lo) (z.hi ≤ k && full)
    | 0x14 => pick (z.hi ≤ k) (k < z.lo && full)
    | 0x15 => pick (z.hi < k) (k ≤ z.lo && full)
    | 0x24 => pick (k2 < k || z.hi < k || k2 < z.lo) (k ≤ z.lo && z.hi ≤ k2 && full)
    | 0x25 =>
      let ks := p.vals.map (zoneKey ty)
      pick (!ks.any fun x => z.lo ≤ x && x ≤ z.hi) (z.lo == z.hi && ks.contains z.lo && full)
    | _ => .some'

/-- What a scan does with memory and the Yelm engines, in the order it does it (R208, R209). -/
inductive ReedAcc where
  /-- The line of a byte of a column's chunk is read, for a block; `stream` says that it is a body line. -/
  | line (col block off : Nat) (stream : Bool)
  /-- A YELM body goes through a Yelm engine: bytes in and out, and the job's status. -/
  | job (inBytes outBytes status : Nat)
  /-- The inner body lies in scratch. -/
  | inner (body : Bytes)
deriving DecidableEq, Repr

/-- A column of one block as a Reed unit reads it. -/
structure BCol where
  ty : Nat
  vals : List Val
  /-- Values as the body stores them, fillers at NULL rows (R85); none where the block has no body. -/
  stored : List Val
  /-- Rows the body holds; an open block may hold more than the snapshot has. -/
  n : Nat
  /-- ENC, that of the inner body of a YELM body. -/
  enc : Nat
  yelm : Bool
  bits : Nat
  mapLen : Nat
  /-- REF of FOR and PLANE. -/
  ref : Nat
  /-- The chunk's dictionary, and whether it is sorted. -/
  dict : List Val
  sorted : Bool
  /-- Bytes of the stored body, and their offset in the chunk. -/
  len : Nat
  off : Nat
  /-- What reading the body takes beside its lines. -/
  acts : List ReedAcc
  /-- The body cannot be used (R213). -/
  fail : Option Nat
deriving DecidableEq, Repr

/-- The lines that n bytes at an offset of a body touch. -/
def linesOf (a n : Nat) : List Nat := if n == 0 then [] else upFrom (a / 64) ((a + n - 1) / 64 + 1 - a / 64)

/-- Lines of a body in a set. -/
def addLines (m : NMap Unit) (l : List Nat) : NMap Unit := l.foldl (fun m x => nput m x ()) m

/-- Every line of a body. -/
def BCol.whole (c : BCol) : List Nat := linesOf 0 c.len

/-- Lines of the body header and the validity bitmap; a YELM body is read whole (R202). -/
def BCol.head (c : BCol) : List Nat :=
  if c.len == 0 then [] else if c.yelm then c.whole else linesOf 0 (16 + c.mapLen)

/-- Bytes of one plane. -/
def BCol.planeLen (c : BCol) : Nat := ceilDiv c.n 64 * 8

/-- Lines that hold rows' items; a limit cuts each STR or BYTES value (R202, R205). -/
def BCol.items (c : BCol) (rows : List Nat) (limit : Option Nat) : NMap Unit :=
  let base := 16 + c.mapLen
  if c.len == 0 || c.yelm then [] else
  match c.enc with
  | 0 =>
    if tyVar c.ty then
      let st := offsetsOf (c.vals.map (·.bytesD))
      let data := base + ceilDiv (4 * (c.n + 1)) 8 * 8
      rows.foldl (fun m i =>
        let n := (c.vals.getD i .null).bytesD.length
        addLines (addLines m (linesOf (base + 4 * i) 8)) (linesOf (data + st.getD i 0) (min n (limit.getD n)))) []
    else rows.foldl (fun m i => addLines m (linesOf (base + i * tyWidth c.ty) (tyWidth c.ty))) []
  | 1 | 2 | 5 =>
    if c.bits == 0 then [] else
    rows.foldl (fun m i => addLines m (linesOf (base + i * c.bits / 8) (((i + 1) * c.bits - 1) / 8 + 1 - i * c.bits / 8))) []
  | 6 =>
    rows.foldl (fun m i => (List.range c.bits).foldl (fun m p => addLines m (linesOf (base + p * c.planeLen + i / 8) 1)) m) []
  | _ => if rows.isEmpty then [] else addLines [] c.whole

/-- Comparisons with one constant that a predicate makes: (code, key); none for those that need every plane or item. -/
def RPred.atoms (p : RPred) (ty : Nat) : List (Nat × Nat) :=
  let k := fun i => zoneKey ty (p.vals.getD i .null)
  if 0x10 ≤ p.code && p.code ≤ 0x15 then [(p.code, k 0)] else if p.code == 0x24 then [(0x15, k 0), (0x13, k 1)] else []

/-- A predicate that the bitmap decides: a null test, or a NULL constant (R196, R202). -/
def RPred.byMap (p : RPred) : Bool := p.code == 0x20 || p.code == 0x21 || p.isNull

/-- A constant beyond what the body can hold: above all of it, or below (R204). -/
def BCol.beyond (c : BCol) (v : Val) : Option Bool :=
  let k := zoneKey c.ty v
  match c.enc with
  | 1 => if !tySigned c.ty && 2 ^ c.bits ≤ k then some true else none
  | 2 | 6 => if k < c.ref then some false else if c.ref + 2 ^ c.bits ≤ k then some true else none
  | 5 =>
    if !c.sorted then none
    else if valLt c.ty v (c.dict.headD .null) then some false
    else if valLt c.ty (c.dict.getLastD .null) v then some true
    else none
  | _ => none

/-- A constant that a sorted dictionary does not hold (R202). -/
def BCol.absent (c : BCol) (v : Val) : Bool := c.enc == 5 && c.sorted && !c.dict.contains v

/-- A predicate needs no item of a body: the bitmap decides it, or its constants lie beyond what the body can hold (R202, R204). -/
def BCol.settled (c : BCol) (p : RPred) : Bool :=
  let a := c.beyond (p.vals.headD .null)
  let b := c.beyond (p.vals.getD 1 .null)
  if p.byMap then true
  else match p.code with
    | 0x24 => a == some true || b == some false || (a.isSome && b.isSome)
    | 0x25 => p.vals.all fun v => c.absent v || (c.beyond v).isSome
    | 0x30 => false
    | 0x10 => c.absent (p.vals.headD .null) || a.isSome
    | _ => a.isSome

/-- Planes read before one comparison of a row is decided, and how it is decided (R203). -/
def planeAtom (bits code qc q : Nat) : Nat → Nat → Nat × Bool
  | 0, p => (p, xKeyCmp code q qc)
  | fuel + 1, p =>
    let rest := qc % 2 ^ (bits - p)
    if (code == 0x15 && rest == 0) || (code == 0x13 && rest + 1 == 2 ^ (bits - p)) then (p, true)
    else if (code == 0x12 && rest == 0) || (code == 0x14 && rest + 1 == 2 ^ (bits - p)) then (p, false)
    else if p == bits then (p, xKeyCmp code q qc)
    else if bitAt q (bits - 1 - p) != bitAt qc (bits - 1 - p) then (p + 1, xKeyCmp code q qc)
    else planeAtom bits code qc q fuel (p + 1)
where
  /-- A comparison of keys. -/
  xKeyCmp (code a b : Nat) : Bool :=
    match code with
    | 0x10 => a == b
    | 0x11 => a != b
    | 0x12 => a < b
    | 0x13 => a ≤ b
    | 0x14 => b < a
    | _ => b ≤ a

/-- Planes before an outcome made of parts is settled: the first part that settles it alone, else the last of all. -/
def settleAt (alone : Bool) (parts : List (Nat × Bool)) : Nat × Bool :=
  match (parts.filterMap fun p => if p.2 == alone then some p.1 else none).min? with
  | some n => (n, alone)
  | none => ((parts.map (·.1)).foldl max 0, !alone)

/-- Planes read before a predicate of a row is decided, or 1 item where the column is not in planes; none for one settled before. -/
def BCol.readsFor (c : BCol) (p : RPred) (v : Val) : Nat × Bool :=
  let key := zoneKey c.ty v
  let truth := p.holds c.ty v
  if c.settled p then (0, truth)
  else if c.enc != 6 then (1, truth)
  else if p.code == 0x25 then (c.bits, truth)
  else settleAt false ((p.atoms c.ty).map fun a =>
    if a.2 < c.ref || c.ref + 2 ^ c.bits ≤ a.2 then (0, planeAtom.xKeyCmp a.1 key a.2)
    else planeAtom c.bits a.1 (a.2 - c.ref) (key - c.ref) (c.bits + 1) 0)

/-- What a scan counts (R214). -/
structure ScanCnt where
  chunks : Nat
  examined : Nat
  skipped : Nat
  planes : Nat
  avoided : Nat
  lines : Nat
  linesAvoided : Nat
deriving DecidableEq, Repr

/-- Nothing counted. -/
def ScanCnt.zero : ScanCnt := ⟨0, 0, 0, 0, 0, 0, 0⟩

/-- Two counts together. -/
def ScanCnt.add (a b : ScanCnt) : ScanCnt :=
  ⟨a.chunks + b.chunks, a.examined + b.examined, a.skipped + b.skipped, a.planes + b.planes, a.avoided + b.avoided,
   a.lines + b.lines, a.linesAvoided + b.linesAvoided⟩

/-- The pass over one predicate column: rows that stay open, rows decided TRUE, lines, planes read and left (R201 to
R204). -/
structure PassRes where
  opens : List Nat
  taken : List Nat
  lines : NMap Unit
  planes : Nat
  avoided : Nat
deriving DecidableEq, Repr

/-- One pass: the predicates on a column for the open rows, joined by AND or OR; a row is read only while they leave it open (R201). -/
def BCol.pass (c : BCol) (ps : List RPred) (orMode : Bool) (opens : List Nat) : PassRes :=
  let val := fun i => c.vals.getD i .null
  let present := opens.filter fun i => val i != .null
  let hit := fun (i : Nat) => if orMode then ps.any (·.holds c.ty (val i)) else ps.all (·.holds c.ty (val i))
  let live := ps.filter fun p => !c.settled p
  let needs := present.map fun i => (i, (settleAt orMode (ps.map fun p => c.readsFor p (val i))).1)
  let readRows := (needs.filter fun x => 0 < x.2).map (·.1)
  let planes := if c.enc == 6 then (needs.map (·.2)).foldl max 0 else 0
  let limit := if live.all (·.code == 0x30) then some ((live.map fun p => (p.vals.headD .null).bytesD.length).foldl max 0) else none
  let body : NMap Unit :=
    if readRows.isEmpty || c.yelm then []
    else if c.enc == 6 then
      (List.range planes).foldl (fun m p =>
        needs.foldl (fun m (x : Nat × Nat) =>
          if p < x.2 then addLines m (linesOf (16 + c.mapLen + p * c.planeLen + x.1 / 8) 1) else m) m) []
    else if c.enc == 0 && tyVar c.ty then
      addLines (c.items readRows limit) (linesOf (16 + c.mapLen) (4 * (c.n + 1)))
    else c.items readRows none
  { opens := if orMode then opens.filter (fun i => !hit i) else opens.filter hit,
    taken := if orMode then opens.filter hit else [], lines := addLines body c.head, planes := planes,
    avoided := if c.enc == 6 && ps.any (fun p => !p.byMap) then c.bits - planes else 0 }

/-- Predicate columns in the order of their first predicates. -/
def predCols (ps : List RPred) : List Nat :=
  ps.foldl (fun acc p => if acc.contains p.col then acc else acc ++ [p.col]) []

/-! Dictionaries (R93, R202). -/

/-- Lines of a chunk that hold one entry of its dictionary. -/
def dictLines (ty : Nat) (chunk : Bytes) (i : Nat) : List Nat :=
  let off := fieldAt 32 4 chunk
  if tyVar ty then
    let data := off + 4 * (fieldAt 36 4 chunk + 1)
    let a := fieldAt (off + 4 * i) 4 chunk
    linesOf (off + 4 * i) 8 ++ linesOf (data + a) (fieldAt (off + 4 * (i + 1)) 4 chunk - a)
  else linesOf (off + i * tyWidth ty) (tyWidth ty)

/-- Entries a binary search looks at. [log 210 DEDUCED] -/
def searchPath (below : Nat → Bool) : Nat → Nat → Nat → List Nat
  | 0, _, _ => []
  | fuel + 1, lo, hi =>
    if hi ≤ lo then [] else
    let m := (lo + hi) / 2
    m :: if below m then searchPath below fuel (m + 1) hi else searchPath below fuel lo m

/-- Lines of a dictionary that a predicate takes: those searched, or the whole of an unsorted one. -/
def dictSearch (ty : Nat) (chunk : Bytes) (p : RPred) : List Nat :=
  let d := chunkDict ty chunk
  if bitAt (fieldAt 3 1 chunk) 1 then
    p.vals.flatMap fun v => (searchPath (fun i => valLt ty (d.getD i .null) v) 17 0 d.length).flatMap (dictLines ty chunk)
  else linesOf (fieldAt 32 4 chunk) (fieldAt 40 4 chunk)

/-! Blocks. -/

/-- Lines read of each column of a block. -/
abbrev LineMap := NMap (NMap Unit)

/-- Lines added for a column. -/
def LineMap.add (m : LineMap) (col : Nat) (l : NMap Unit) : LineMap :=
  nput m col (addLines ((nget m col).getD []) (l.map (·.1)))

/-- How far a block has come: rows still open and rows taken, with what was read for them, or the failure that ends it. -/
structure BlockRes where
  opens : List Nat
  taken : List Nat
  lines : LineMap
  planes : Nat
  avoided : Nat
  acts : List ReedAcc
  fail : Option Nat
deriving DecidableEq, Repr

/-- Lines of a column's body read, each once (R209); what decompressing it takes comes before its first lines. -/
def BlockRes.read (j col : Nat) (c : BCol) (l : NMap Unit) (r : BlockRes) : BlockRes :=
  let seen := nget r.lines col
  let new := (l.map (·.1)).filter fun x => (nget (seen.getD []) x).isNone
  { r with lines := r.lines.add col l
           acts := r.acts ++ (new.map fun x => .line col j (c.off + 64 * x) true) ++ if seen.isNone then c.acts else [] }

/-- A body that cannot be used: its header has been read. -/
def BlockRes.stop (j col : Nat) (c : BCol) (e : Nat) (r : BlockRes) : BlockRes :=
  { r.read j col c (addLines [] (if c.yelm then c.whole else linesOf 0 (min 16 c.len))) with fail := some e }

/-- The predicates on one column evaluated for the rows still open (R201). -/
def BlockRes.column (getCol : Nat → BCol) (j col : Nat) (ps : List RPred) (orMode : Bool) (r : BlockRes) : BlockRes :=
  if r.fail.isSome || r.opens.isEmpty then r else
  let c := getCol col
  match c.fail with
  | some e => r.stop j col c e
  | none =>
    let p := c.pass ps orMode r.opens
    { r.read j col c p.lines with
      opens := p.opens
      taken := r.taken ++ p.taken
      planes := r.planes + p.planes
      avoided := r.avoided + p.avoided }

/-- The rows of a block that a scan selects, left in `opens`, reading only what it needs (R201). -/
def selectRows (getCol : Nat → BCol) (j : Nat) (sp : ScanSpec) (rangeDec : ZDec) (decs : List (RPred × ZDec)) (n : Nat) : BlockRes :=
  let r0 : BlockRes := ⟨List.range n, [], [], 0, 0, [], none⟩
  let r := if rangeDec == .all then r0 else r0.column getCol j 0 [sp.range] false
  if (sp.orMode && decs.any (·.2 == .all)) || sp.preds.isEmpty then r else
  let live := (decs.filter (·.2 == .some')).map (·.1)
  let e := (predCols live).foldl (fun (r : BlockRes) col => r.column getCol j col (live.filter (·.col == col)) sp.orMode) r
  { e with opens := if sp.orMode then r.opens.filter e.taken.contains else e.opens }

/-- A selected row's output column read, with the dictionary entries its codes name. -/
def BlockRes.output (getCol : Nat → BCol) (chunk : Nat → Bytes) (j col : Nat) (r : BlockRes) : BlockRes :=
  if r.fail.isSome then r else
  let c := getCol col
  match c.fail with
  | some e => r.stop j col c e
  | none =>
    let r := r.read j col c (addLines (c.items r.opens none) c.head)
    let codes := if c.enc == 5 then (r.opens.map fun i => c.dict.findIdx (· == c.stored.getD i .null)).eraseDups else []
    { r with acts := r.acts ++ codes.flatMap fun i => (dictLines c.ty (chunk col) i).map fun x => .line col j (64 * x) false }

/-- Values for a batch, closing at 4,096 rows or before 65,536 value bytes are passed (R205). -/
def cutBatches (size : SlotRow → Nat) : List SlotRow → List SlotRow → Nat → List (List SlotRow)
  | [], cur, _ => if cur.isEmpty then [] else [cur.reverse]
  | r :: rest, cur, bytes =>
    let n := size r
    if !cur.isEmpty && (cur.length == 4096 || 65536 < bytes + n) then cur.reverse :: cutBatches size rest [r] n
    else cutBatches size rest (r :: cur) (bytes + n)

/-- Value bytes of a row's listed columns. -/
def rowValueBytes (tys : List (Nat × Nat)) (r : SlotRow) : Nat :=
  (tys.map fun (slot, ty) => if tyVar ty then (((nget r slot).getD .null).bytesD).length else tyWidth ty).sum

/-- A batch with every row selected. -/
def Batch.full (rows : List SlotRow) : Batch := ⟨rows, rows.map fun _ => true⟩

/-- A batch as a scan closes it: its rows, and for each the value that its listed columns' bodies store (R205, R206). -/
structure ScanBatch where
  rows : List SlotRow
  fills : List (List (Option Val))
deriving DecidableEq, Repr

/-- Rows cut into batches, with what their bodies store. -/
def scanBatches (size : SlotRow → Nat) (rows : List SlotRow) (fills : List (List (Option Val))) : List ScanBatch :=
  ((cutBatches size rows [] 0).foldl (fun (acc : List ScanBatch × Nat) b =>
    (acc.1 ++ [⟨b, (fills.drop acc.2).take b.length⟩], acc.2 + b.length)) ([], 0)).1

/-- A batch's bytes in the batch area: row count, selection vector, then for each listed column its values in PLAIN form and its
bitmap; a NULL row of a block that has no body holds a free value (R205, R206). [log 211 DESIGN CHOICE] -/
def batchImage (cols : List (Nat × Nat)) (b : ScanBatch) (ctr : Nat) : Bytes :=
  let n := b.rows.length
  toLE 8 n ++ packBits 1 (List.replicate n 1) ++
    ((List.range cols.length).zip cols).flatMap fun (k, slot, ty) =>
      let vals := b.rows.map fun r => (nget r slot).getD .null
      let put := ((List.range n).zip (vals.zip b.fills)).map fun (i, v, f) =>
        if v != .null || tyVar ty then v else ((f.getD k none).getD (.num (Config.freeNat (ctr + n * k + i))))
      (payloadOf ty 0 [] put).2.2.2 ++ bitmapOf vals

/-- A column's block as its body gives it, `take` of its n rows in the snapshot, with the checks of R96 and R213. -/
def readBCol (opened claim : Bool) (cd : ColDesc) (chunk : Bytes) (segRows j n take : Nat) : BCol :=
  let z := zoneRead chunk j
  let outer := blockBody chunk j
  let yelm := outer.any fun b => fieldAt 0 1 b == 7
  let run := yelmRun (outer.getD [])
  let acts : List ReedAcc :=
    if !yelm then [] else if !claim then [.job 0 0 0x3004]
    else .job run.consumed run.output.length run.status :: if run.status == 0 then [.inner run.output] else []
  let dec : DecRes (Bytes × List Val × List Val) := do
    if yelm && !claim then throw (failBy 1 0x3004)
    match ← innerBody cd.type chunk segRows j n with
    | none => pure ([], [], List.replicate n .null)
    | some body =>
      let stored ← decodeStored cd.type n (chunkDict cd.type chunk) body
      let vals := putNulls n body stored
      let present := vals.filter (· != .null)
      let enc := fieldAt 0 1 body
      guardCheck (present.length + z.nulls == z.rows)
      guardCheck (present.all fun v => z.lo ≤ zoneKey cd.type v && zoneKey cd.type v ≤ z.hi)
      guardCheck (opened || present.isEmpty || !(enc == 2 || enc == 6) || fieldAt 8 8 body == z.lo)
      pure (body, stored, vals)
  let (body, stored, vals) := match dec with
    | .ok x => x
    | .error _ => ([], [], [])
  let enc := fieldAt 0 1 body
  { ty := cd.type, vals := vals.take take, stored := stored.take take, n := n, enc := enc, yelm := yelm, bits := fieldAt 1 1 body,
    mapLen := if bitAt (fieldAt 2 1 body) 0 then ceilDiv n 64 * 8 else 0, ref := fieldAt 8 8 body,
    dict := if enc == 5 then chunkDict cd.type chunk else [], sorted := bitAt (fieldAt 3 1 chunk) 1,
    len := (outer.map (·.length)).getD 0, off := fieldAt 24 4 (zoneAt chunk j), acts := acts,
    fail := match dec with
      | .ok _ => none
      | .error e => some e }

/-- A segment as a snapshot sees it: its open form with V rows, or its sealed form; `form` holds the form's column chunks and `formRows`
the rows it has. -/
structure SegView where
  desc : TableDesc
  seg : Segment
  /-- The open form is read. -/
  opened : Bool
  rows : Nat
  form : List Bytes
  formRows : Nat

/-- A segment's view: rows after V that its open form already holds are part of that form (R207). -/
def SegView.of (d : TableDesc) (g : Segment) (opened : Bool) (rows : Nat) : SegView :=
  let held := if g.state == .opened then g.rows else g.openRows
  if opened then ⟨d, g, true, rows, openChunks d held, held.length⟩ else ⟨d, g, false, rows, g.chunksA, g.rows.length⟩

/-- A block uncorrectable in copy A, and in copy B where the table has one (R111). -/
def SegView.lost (v : SegView) (j col : Nat) : Bool :=
  v.seg.badA.contains (16 * col + j) && (!v.desc.lapped || v.seg.badB.contains (16 * col + j))

/-- Copy B is read of a block that is uncorrectable in copy A (R111). -/
def SegView.fromB (v : SegView) (j col : Nat) : Bool := v.desc.lapped && v.seg.badA.contains (16 * col + j)

/-- The chunk a Reed unit reads a block from. -/
def SegView.chunk (v : SegView) (j col : Nat) : Bytes :=
  (if !v.opened && v.fromB j col then v.seg.chunksB else v.form).getD col []

/-- The device address of a column chunk, of copy A or copy B (R78). -/
def SegView.chunkAt (v : SegView) (copyB : Bool) (col : Nat) : Nat :=
  let l := if v.opened && v.seg.state != .opened then (if copyB then v.seg.openAtB else v.seg.openAtA) else v.seg.at' copyB
  l.getD (col + 1) 0

/-- A column's descriptor. -/
def SegView.cd (v : SegView) (col : Nat) : ColDesc := v.desc.cols.getD col (plainCol 1 0)

/-- Rows of block j in the snapshot. -/
def SegView.blockRows (v : SegView) (j : Nat) : Nat := min 4096 (v.rows - 4096 * j)

/-- A column of block j. -/
def SegView.bcol (v : SegView) (sp : ScanSpec) (j col : Nat) : BCol :=
  let c := readBCol v.opened sp.yelm (v.cd col) (v.chunk j col) v.formRows j (min 4096 (v.formRows - 4096 * j)) (v.blockRows j)
  if v.lost j col then { c with fail := some (failBy 2 0x4007), acts := [] } else c

/-- The zone figures of a column: of its chunk, or of a block. -/
def SegView.zone (v : SegView) (col : Nat) : Option Nat → ZoneS
  | some j => if v.lost j col then ⟨0, 2 ^ 64 - 1, 1, 65536⟩ else zoneRead (v.chunk j col) j
  | none => chunkZone (v.form.getD col [])

/-- The decision on a predicate; an EQ constant that a sorted dictionary does not hold makes the chunk NONE (R198, R199, R202). -/
def SegView.decide' (v : SegView) (p : RPred) (block : Option Nat) : ZDec :=
  let ty := (v.cd p.col).type
  let chunk := v.form.getD p.col []
  let d := p.decide' ty (v.zone p.col block)
  let k := p.vals.headD .null
  if d == .some' && p.code == 0x10 && fieldAt 3 1 chunk % 4 == 3 && !(chunkDict ty chunk).contains k then .no else d

/-- The decisions on a chunk or a block: on the range, and on each predicate (R200). -/
def SegView.decs (v : SegView) (sp : ScanSpec) (zones : Bool) (block : Option Nat) : ZDec × List (RPred × ZDec) :=
  let on := zones && !sp.skipOff
  (if !sp.ranged then .all else if on then sp.range.decide' 12 (v.zone 0 block) else .some',
   sp.preds.map fun p => (p, if on then v.decide' p block else .some'))

/-- Decisions that skip a chunk or a block (R200). -/
def decsSkip (orMode : Bool) (d : ZDec × List (RPred × ZDec)) : Bool :=
  d.1 == .no || (if orMode then !d.2.isEmpty && d.2.all (·.2 == .no) else d.2.any (·.2 == .no))

/-- Body lines a full read of a column's block takes. -/
def SegView.fullLines (v : SegView) (j col : Nat) : Nat :=
  let c := v.chunk j col
  if v.lost j col || (zoneRead c j).allNull then 0 else (linesOf 0 (fieldAt 28 4 (zoneAt c j))).length

/-- Columns whose headers decide, and columns a scan may read. -/
def ScanSpec.deciding (sp : ScanSpec) : List Nat :=
  ((if sp.ranged then [0] else []) ++ sp.preds.map (fun (p : RPred) => p.col)).eraseDups
/-- Columns a scan may read. -/
def ScanSpec.touched (sp : ScanSpec) : List Nat := (sp.deciding ++ sp.cols).eraseDups

/-- One part of a scan: of a chunk's headers, or of a block; what was counted, what was read, batches and a failure. -/
structure ScanStep where
  block : Option Nat
  cnt : ScanCnt
  acts : List ReedAcc
  batches : List ScanBatch
  fail : Option Nat
deriving DecidableEq, Repr

/-- The slots of a scan's listed columns with their types. -/
def SegView.slots (v : SegView) (sp : ScanSpec) : List (Nat × Nat) :=
  (upFrom (sp.outFirst + sp.fixed.length) sp.cols.length).zip (sp.cols.map fun c => (v.cd c).type)

/-- A block scanned (R195, R201 to R206). -/
def SegView.scanBlock (v : SegView) (sp : ScanSpec) (zones : Bool) (j : Nat) : ScanStep :=
  let full := (sp.touched.map (v.fullLines j)).sum
  let on := zones && !sp.skipOff
  let d := v.decs sp zones (some j)
  let ex := on.toNat
  if on && decsSkip sp.orMode d then ⟨some j, ⟨0, ex, 1, 0, 0, 0, full⟩, [], [], none⟩
  else
    let r := selectRows (v.bcol sp j) j sp d.1 d.2 (v.blockRows j)
    let r := if r.opens.isEmpty then r else
      sp.cols.foldl (fun (r : BlockRes) col => r.output (v.bcol sp j) (v.chunk j) j col) r
    let n := (r.lines.map fun p => p.2.length).sum
    let slots := v.slots sp
    let cols := if r.fail.isSome then [] else sp.cols.map fun col => v.bcol sp j col
    let vals := cols.map fun c => r.opens.map fun i => c.vals.getD i .null
    let rows := if r.fail.isSome then [] else (List.range r.opens.length).map fun k =>
      ((slots.map (·.1)).zip vals).foldl (fun (m : SlotRow) (x : Nat × List Val) => nput m x.1 (x.2.getD k .null))
        (sp.fixed.foldl (fun (m : SlotRow) f => nput m f.1 f.2) [])
    let fills := r.opens.map fun i => cols.map fun c => c.stored[i]?
    ⟨some j, ⟨0, ex, 0, r.planes, r.avoided, n, if r.fail.isSome then 0 else full - n⟩, r.acts,
      scanBatches (rowValueBytes slots) rows fills, r.fail⟩

/-- Chunk headers and zone maps of columns read. -/
def SegView.fronts (v : SegView) (cols : List Nat) : List ReedAcc :=
  cols.flatMap fun col => (linesOf 0 (64 + 32 * fieldAt 5 1 (v.form.getD col []))).map fun x => .line col 0 (64 * x) false

/-- The dictionary lines that turning the predicates takes, once per chunk and column (R202). -/
def SegView.dicts (v : SegView) (sp : ScanSpec) (zones : Bool) : List ReedAcc :=
  let ps := sp.preds.filter fun p =>
    bitAt (fieldAt 3 1 (v.form.getD p.col [])) 0 && !p.byMap &&
      (!(zones && !sp.skipOff) || p.decide' (v.cd p.col).type (v.zone p.col none) == .some')
  (predCols ps).flatMap fun col =>
    (((ps.filter (·.col == col)).flatMap (dictSearch (v.cd col).type (v.form.getD col []))).eraseDups).map fun x => .line col 0 (64 * x) false

/-- Blocks of a segment scanned in order up to the first failure, after the decision on the chunk (R200). -/
def SegView.scan (v : SegView) (sp : ScanSpec) (zones : Bool) (blocks : List Nat) : List ScanStep :=
  let blocks := blocks.filter fun j => 4096 * j < v.rows
  let acts := v.fronts sp.deciding ++ v.dicts sp zones
  if zones && !sp.skipOff && decsSkip sp.orMode (v.decs sp zones none) then
    ⟨none, ⟨1, 0, 0, 0, 0, 0, (blocks.map fun j => (sp.touched.map (v.fullLines j)).sum).sum⟩, acts, [], none⟩
      :: blocks.map fun j => ⟨some j, .zero, [], [], none⟩
  else
    let rest := sp.touched.filter fun c => !sp.deciding.contains c
    blocks.foldl (fun (acc : List ScanStep) j =>
      if acc.any (·.fail.isSome) then acc else acc ++ [v.scanBlock sp zones j]) [⟨none, .zero, acts ++ v.fronts rest, [], none⟩]

/-- The counters of R214 raised: a mismatch counts where the Reed unit itself found it. -/
def State.countScan (s : State) (c : ScanCnt) (fail : Option Nat) : State :=
  let s := (((s.bump 0x20A0 1 c.chunks).bump 0x20A0 2 c.examined).bump 0x20A0 3 c.skipped).bump 0x20A0 4 c.planes
  let s := ((s.bump 0x20A0 5 c.avoided).bump 0x20A0 6 c.lines).bump 0x20A0 7 c.linesAvoided
  if fail == some stCheckMismatch then s.bump 0x20A0 9 1 else s

/-! The unit's traffic (R192, R208, R209). -/

/-- A line of DRAM read through the Thatch with page hint OPEN by a tile for a plan: it answers, or is uncorrectable. -/
def State.reedLine (s : State) (t : TileId) (slot a : Nat) (stream : Bool) : Bool × State :=
  let l := a / 64
  let c := s.thatch.slices[thSlice l]
  let s := if c.enabled && (c.find l).isSome then s else s.touchRow (64 * l) (srcTile t) slot 1
  let (d, s) := s.thRead l stream
  (d.isSome, s)

/-- Bytes laid into a tile's scratch at a free place within the claim of its plan (R174). [log 211 DESIGN CHOICE] -/
def State.toScratch (s : State) (t : TileId) (kib : Nat) (b : Bytes) : Nat × State :=
  let (c, s) := s.fresh
  let off := Config.freeNat c % ((min 262144 (1024 * kib) - b.length) / 64 + 1) * 64
  (off, s.modTile t fun x => x.scratchWrite off b)

/-- A Yelm job of a plan counted (R470). -/
def State.countJob (s : State) (inBytes outBytes status : Nat) : State :=
  let s := ((s.bump 0x2C01 1 1).bump 0x2C01 2 inBytes).bump 0x2C01 3 outBytes
  if status == 0 || status == 0x3004 then s else if status == stOutFull then s.bump 0x2C01 5 1 else s.bump 0x2C01 6 1

/-- One access of a scan: a line uncorrectable in the copy that is read is served from the other copy, where the table has one whose block is
intact, and noted for repair (R111, R213); else the scan fails. -/
def State.reedAct (s : State) (t : TileId) (slot kib : Nat) (v : SegView) (x : ReedAcc) : Option Nat × State :=
  match x with
  | .job i o st => (none, s.countJob i o st)
  | .inner b => (none, (s.toScratch t kib b).2)
  | .line col j off stream =>
    let b := v.fromB j col
    let (ok, s) := s.reedLine t slot (v.chunkAt b col + off) (stream && s.cfg 0x20A1 1 1 == 1)
    if ok then (none, s)
    else if !v.desc.lapped || b then (some stPoisoned, s)
    else
      let note := fun (g : Segment) => if g.no == v.seg.no then g.harm false [16 * col + j] else g
      let s := s.modTable v.desc.id fun tb => { tb with segs := tb.segs.map note }
      let (ok, s) := s.reedLine t slot (v.chunkAt true col + off) (stream && s.cfg 0x20A1 1 1 == 1)
      (if ok then none else some stPoisoned, s)

/-- The first byte of a chunk that the windows do not let the tile read; a tile that has no window enabled reads by those that the monitor
opens for the plan's segments. [log 212 DEDUCED] -/
def State.chunkFault (s : State) (t : TileId) (v : SegView) (cols : List Nat) : Option Nat :=
  let c := s.tiles[t]
  if ((List.finRange 16).filter fun n => c.winOn n .read false).isEmpty then none else
  (cols.map fun col => (v.chunkAt false col, (v.form.getD col []).length)).findSome? fun (a, n) =>
    let stop := c.winReach .read false 16 a
    if a + n ≤ stop then none else some (max a stop)

end Sys2Proof.Machine
end

