-- ==== Sys2Proof/Machine/QueryOps.lean ====
section
/-! DEFINITION. The operators of a pipeline on batches (chapters 05 and 07): filters, projections, kernels, joins,
aggregation, sorting and sinks. -/

namespace Sys2Proof.Machine

/-- What a bundle's operators work with. -/
structure QCtx where
  img : PImg
  /-- SCRATCH_KIB of its plan (R174). -/
  scratchKib : Nat
  /-- Banks of each GROUP_KEYSTORE among those leased, and buffers divided into sub-tables (R241, R244). -/
  shares : NMap (Nat × Nat)
  divided : List Nat
  slots : NMap (Option STy)
  consts : List XConst
  period : Nat
  phase : Nat
  tile : Nat
  /-- The bundle's place in the order of R182, and its partition where the pipeline is SPLIT 3. -/
  ordinal : Nat
  part : Option Nat
  /-- Banks of each KJOIN_BUILD by operator index (R235). -/
  builds : NMap (List Nat)
  buffers : List BufRows
deriving DecidableEq, Repr

/-- The device, the bundle's computation and the kernel results still to come. -/
structure QAcc where
  s : State
  run : BRun
  kernels : List KRes
deriving DecidableEq, Repr

/-- The bundle has failed with a code. -/
def QAcc.fail (a : QAcc) (code : Nat) : QAcc := { a with run := { a.run with failed := a.run.failed.or (some code) } }

/-- The state of the operator at a place of the pipeline. -/
def QAcc.op (a : QAcc) (j : Nat) : OpSt := a.run.ops.getD j .idle

/-- The state of an operator placed. -/
def QAcc.setOp (a : QAcc) (j : Nat) (x : OpSt) : QAcc :=
  let ops := a.run.ops ++ List.replicate (j + 1 - a.run.ops.length) .idle
  { a with run := { a.run with ops := ops.set j x } }

/-- A type as state holds it. -/
def STy.triple (t : STy) : Nat × Nat × Nat := (t.ty, t.scale, t.maxLen)
/-- A type read from state. -/
def tripleTy (x : Nat × Nat × Nat) : STy := ⟨x.1, x.2.1, x.2.2⟩

/-- The type of a slot: from the image and the tables, or as a kernel or a buffer gave it. -/
def QCtx.ty (c : QCtx) (a : QAcc) (slot : Nat) : STy :=
  match nget c.slots slot with
  | some (some t) => t
  | _ => ((nget a.run.types slot).map tripleTy).getD ⟨0, 0, 0⟩

/-- The types an expression sees. -/
def QCtx.tys (c : QCtx) (a : QAcc) : NMap STy :=
  a.run.types.foldl (fun m p => if (nget m p.1).isSome then m else nput m p.1 (tripleTy p.2)) (fixedSlots c.slots)

/-- Selected rows of a batch. -/
def Batch.selected (b : Batch) : List SlotRow := (b.rows.zip b.sel).filterMap fun x => if x.2 then some x.1 else none

/-- A batch with the selection narrowed by a test of the selected rows. -/
def Batch.narrow (b : Batch) (p : SlotRow → Bool) : Batch :=
  { b with sel := (b.rows.zip b.sel).map fun x => x.2 && p x.1 }

/-- Rows in batches of 4,096. -/
def batchesOf : Nat → List SlotRow → List Batch
  | 0, _ => []
  | fuel + 1, l => if l.isEmpty then [] else Batch.full (l.take 4096) :: batchesOf fuel (l.drop 4096)

/-- Values of slots of a row. -/
def rowVals (r : SlotRow) (slots : List Nat) : List Val := slots.map fun s => (nget r s).getD .null

/-- A row with values placed from a slot on. -/
def rowPut (r : SlotRow) (first : Nat) (vals : List Val) : SlotRow :=
  ((upFrom first vals.length).zip vals).foldl (fun (m : SlotRow) x => nput m x.1 x.2) r

/-! Keys of the key store (R234). -/

/-- Packed bits of key values: value and presence of each slot. -/
def packBitsOf (tys : List STy) (vals : List Val) : Nat × Nat :=
  (tys.zip vals).foldl (fun (acc : Nat × Nat) x =>
    let w := tyBits x.1.ty
    let v := match x.2 with
      | .num n => orderKey x.1.ty n + 2 ^ w
      | _ => 0
    (acc.1 + v * 2 ^ acc.2, acc.2 + w + 1)) (0, 0)

/-- Width of the entries for packed bits: 1, 2 or 4 units as 0, 1 or 2. -/
def keyWidth (bits : Nat) : Nat := if bits ≤ 64 then 0 else if bits ≤ 128 then 1 else 2

/-- The key units of a row (R234). -/
def packKey (tys : List STy) (vals : List Val) : List Nat :=
  let (x, bits) := packBitsOf tys vals
  (List.range (2 ^ keyWidth bits)).map fun u => x / 2 ^ (64 * u) % 2 ^ 64

/-! Aggregates (R242, R243). -/

/-- An aggregate: function, input slot, input and output type, final mode. -/
structure AggD where
  code : Nat
  slot : Nat
  inTy : STy
  outTy : STy
  final : Bool
deriving DecidableEq, Repr

/-- The aggregates of an operator, after its keys. -/
def aggsOf (c : QCtx) (a : QAcc) (x : OpD) (keys : Nat) : List AggD :=
  (List.range (x.outCount - keys)).map fun i =>
    let b := x.p 1 / 2 ^ (8 * i) % 256
    let slot := x.ins.getD (b / 16 % 8) 0xFF
    ⟨b % 16, slot, c.ty a slot, c.ty a (x.outFirst + keys + i), bitAt (x.p 0) 0⟩

/-- An aggregate that has met nothing. -/
def AggD.start (d : AggD) : AggSt := { value := if d.code ≤ 2 then .num 0 else .null, seen := false, stuck := false }

/-- The output type of an aggregate, from its input type where the image does not fix it. -/
def AggD.out (d : AggD) : Nat :=
  if d.outTy.ty != 0 then d.outTy.ty else ((aggTy d.final d.code d.inTy).map (·.ty)).getD 9

/-- The sum of a running value and an input in the output type; none is an overflow. -/
def AggD.sum (d : AggD) (acc v : Nat) : Option Nat :=
  if d.out == 11 then
    let x := if d.inTy.ty == 10 then (f32.cvt f64 v).bits else v
    some (f64.add acc x).bits
  else xFit d.out (xInt d.out acc + xInt d.inTy.ty v)

/-- One input joins an aggregate; the flag counts an overflow. -/
def AggD.add (d : AggD) (st : AggSt) (v : Val) : AggSt × Bool :=
  if st.stuck then (st, false) else
  match d.code with
  | 0 | 1 =>
    let n := if d.final then v.bitsD else if d.code == 0 || v != .null then 1 else 0
    ({ st with value := .num (st.value.bitsD + n), seen := true }, false)
  | 2 =>
    if v == .null then (if d.final then ({ st with value := .null, stuck := true }, false) else (st, false)) else
    match d.sum st.value.bitsD v.bitsD with
    | some x => ({ st with value := .num x, seen := true }, false)
    | none => ({ value := .null, seen := true, stuck := true }, true)
  | _ =>
    if v == .null then (st, false)
    else if st.value == .null then ({ st with value := v, seen := true }, false)
    else
      let take : Bool := match d.code with
        | 3 => valLt d.inTy.ty v st.value
        | 4 => valLt d.inTy.ty st.value v
        | 5 => v == .num 0
        | _ => v != .num 0
      (if take then { st with value := v } else st, false)

/-- A row joins the aggregates of its group; the count is of overflows. -/
def addRow (ds : List AggD) (sts : List AggSt) (r : SlotRow) : List AggSt × Nat :=
  let rs := (ds.zip sts).map fun (d, st) => d.add st ((nget r d.slot).getD .null)
  (rs.map (·.1), rs.countP (·.2))

/-- Overflows counted (R243). -/
def QAcc.overflow (a : QAcc) (n : Nat) : QAcc :=
  if n == 0 then a else { a with s := a.s.bump 0x18C2 3 n, run := { a.run with nulled := a.run.nulled + n } }

/-! Sorting (R249). -/

/-- A key slot's order: type, descending, NULLs first. -/
structure SortKey where
  slot : Nat
  ty : Nat
  desc : Bool
  nullsFirst : Bool
deriving DecidableEq, Repr

/-- Two values of a key slot compared: less, or equal. -/
def SortKey.cmp (k : SortKey) (x y : Val) : Ordering :=
  let rank := fun (v : Val) => if (v == .null) == k.nullsFirst then 0 else 1
  if rank x < rank y then .lt else if rank y < rank x then .gt
  else if x == .null then .eq
  else
    let lt := if k.desc then valLt k.ty y x else valLt k.ty x y
    let gt := if k.desc then valLt k.ty x y else valLt k.ty y x
    if lt then .lt else if gt then .gt else .eq

/-- Rows in sort order. -/
def keysLt (ks : List SortKey) (a b : SlotRow) : Bool :=
  (ks.foldl (fun (acc : Ordering) k =>
    if acc == .eq then k.cmp ((nget a k.slot).getD .null) ((nget b k.slot).getD .null) else acc) .eq) == .lt

/-- 4-way passes that merge n runs into one (R251). -/
def runPasses (n : Nat) : Nat := (ceilLog2 64 n + 1) / 2

/-! Sizes. -/

/-- Bytes of a slot in a row of a buffer (R250, R696). -/
def slotBytes (t : STy) : Nat := if tyVar t.ty then t.maxLen + 4 else tyWidth t.ty
/-- Bytes of a row in a buffer of KIND rows or sorted runs (R250, R696). -/
def bufRowBytes (tys : List STy) : Nat := ceilDiv ((tys.map slotBytes).sum + tys.length) 8 * 8
/-- Bytes of an entry of a hash table (R238). -/
def hashEntryBytes (tys : List STy) : Nat := ceilDiv (16 + (tys.map slotBytes).sum + tys.length) 8 * 8
/-- Bytes of a group of GROUP_HASH (R246). -/
def groupBytes (tys : List STy) (aggs : Nat) : Nat := ceilDiv (16 + (tys.map slotBytes).sum + 8 * aggs) 8 * 8
/-- The greatest power of two not above a number. -/
def pow2Floor (n : Nat) : Nat := if n == 0 then 0 else 2 ^ (bitLen n - 1)

/-- Bytes a buffer's contents take (R238, R240, R241, R250, R696). -/
def bufUsed (b : BufD) (parts : Nat) (l : List BufRows) : Nat :=
  let tys := fun (r : BufRows) => r.tys.map tripleTy
  match b.kind with
  | 0 | 3 => (l.map fun r => r.rows.length * bufRowBytes (tys r)).sum
  | 1 =>
    let sub := if parts == 0 then b.bytes else b.bytes / parts
    (l.map fun r => r.rows.length * hashEntryBytes (tys r)).sum + (max 1 parts) * (8 * pow2Floor (sub / 64))
  | _ =>
    let ps := (l.map (·.part)).eraseDups
    (ps.map fun p =>
      ceilDiv ((l.filter fun r => r.part == p).map fun r => r.rows.length * bufRowBytes (tys r)).sum 65536 * 65536).sum

/-- Rows added to what a bundle has for a buffer. -/
def BRun.buffer (run : BRun) (buf part : Nat) (tys : List STy) (rows : List (List Val)) : BRun :=
  if rows.isEmpty then run else
  match run.buffers.findIdx? fun r => r.buffer == buf && r.part == part with
  | some i => { run with buffers := lmod run.buffers i fun r => { r with rows := r.rows ++ rows } }
  | none => { run with buffers := run.buffers ++ [⟨buf, part, tys.map STy.triple, rows⟩] }

/-- The partition of a value: the top r bits of its HASH64 (R240). -/
def partOf (ty r : Nat) (v : Val) : Nat := hashVal ty v / 2 ^ (64 - r)

/-- A result batch (R164). [log 43 DEDUCED] -/
def resultBatch (tys : List STy) (rows : List (List Val)) : Bytes :=
  let n := rows.length
  let cols := (List.range tys.length).map fun i =>
    let vals := rows.map fun r => r.getD i .null
    pad64 (bitmapOf vals) ++ pad64 (payloadOf (tys.getD i ⟨0, 0, 0⟩).ty 0 [] vals).2.2.2
  let body := cols.flatten
  toLE 4 0x54534552 ++ toLE 2 tys.length ++ toLE 2 0 ++ toLE 4 n ++ toLE 4 (32 + body.length)
    ++ padTo 16 (tys.flatMap fun t => toLE 1 t.ty) ++ body

/-! The key-store operators. -/

/-- Empty banks take the width of the entries to come (R215, R234). -/
def State.sizeBanks (s : State) (banks : List (Fin 8)) (width : Nat) : State :=
  banks.foldl (fun s b => s.modBank b fun k => if k.entries.isEmpty then { k with width := width } else k) s

/-- One row of a KJOIN_BUILD (R235, R236). -/
def buildRow (banks : List (Fin 8)) (tys : List STy) (keys : List Nat) (pay : Nat) (unique : Bool) (a : QAcc) (r : SlotRow) : QAcc :=
  let vals := rowVals r keys
  if a.run.failed.isSome || vals.contains .null then a else
  let p := if pay == 0xFF then Val.num 0 else (nget r pay).getD .null
  let key := packKey tys vals
  let q : PReq := ⟨2, true, false, 0, if p == .null then 1 else 0, 0, p.bitsD % 2 ^ 32, key⟩
  let (resp, s) := banks.reverse.foldl (fun (acc : PResp × State) b => acc.2.pInsert [b] q key ⟨[], []⟩) (PResp.zero, a.s.bump 0x18C0 3 1)
  let a := { a with s := s }
  if resp.outcome == 3 then a.fail 0x3004
  else if resp.outcome == 1 && unique then { a with s := a.s.bump 0x18C2 4 1 }.fail stCheckMismatch
  else a

/-- One row of a KJOIN_PROBE: the entry found (R237). -/
def probeRow (bank : Option (Fin 8)) (tys : List STy) (keys : List Nat) (s : State) (r : SlotRow) : Option PEntry × State :=
  let vals := rowVals r keys
  match bank with
  | none => (none, s)
  | some b =>
    if vals.contains .null then (none, s) else
    let (w, s) := (s.bump 0x18C0 3 1).pSearch [b] (packKey tys vals) ⟨[], []⟩
    (w.map (·.2.2), s)

/-- A group found by its key values, or none. -/
def findGroup (g : List (List Val × List AggSt)) (key : List Val) : Option Nat := g.findIdx? fun x => x.1 == key

/-- Rows that groups give, keys first (R242). -/
def groupRows (first : Nat) (g : List (List Val × List AggSt)) : List SlotRow :=
  g.map fun x => rowPut [] first (x.1 ++ x.2.map (·.value))

/-- One row joins a group at a place of the list. -/
def joinGroup (ds : List AggD) (a : QAcc) (j : Nat) (g : List (List Val × List AggSt)) (i : Nat) (r : SlotRow) : QAcc :=
  let (sts, n) := addRow ds ((g.getD i ([], [])).2) r
  (a.setOp j (.groups (g.set i ((g.getD i ([], [])).1, sts)))).overflow n

/-- The groups an operator holds. -/
def QAcc.groups (a : QAcc) (j : Nat) : List (List Val × List AggSt) :=
  match a.op j with
  | .groups g => g
  | _ => []

/-- The banks of a GROUP_KEYSTORE, of those its bundle leases (R244). -/
def QCtx.groupBanks (c : QCtx) (a : QAcc) (i : Nat) : List (Fin 8) :=
  let (first, n) := (nget c.shares i).getD (0, 0)
  ((a.run.leased.drop first).take n).map (Fin.ofNat 8 ·)

/-- One row of a GROUP_KEYSTORE (R244, R245). -/
def groupKeyRow (emit : List Batch → QAcc → QAcc) (banks : List (Fin 8)) (x : OpD) (ds : List AggD) (tys : List STy) (keys : List Nat)
    (j : Nat) (a : QAcc) (r : SlotRow) : QAcc :=
  if a.run.failed.isSome then a else
  let vals := rowVals r keys
  let key := packKey tys vals
  let q : PReq := ⟨2, false, false, 0, 0, 0, 0, key⟩
  let (resp, s) := (a.s.bump 0x18C0 3 1).pInsert banks q key ⟨[], []⟩
  let a := { a with s := s }
  let g := a.groups j
  match findGroup g vals with
  | some i => joinGroup ds a j g i r
  | none =>
    if resp.outcome != 3 then joinGroup ds a j (g ++ [(vals, ds.map AggD.start)]) g.length r
    else if bitAt (x.p 0) 0 then a.fail 0x3004
    else
      let a := emit (batchesOf (g.length + 1) (groupRows x.outFirst g)) { a with s := a.s.bump 0x18C2 1 1 }
      let s := banks.foldl (fun s b => s.clearBank b) a.s
      let (_, s) := s.pInsert banks q key ⟨[], []⟩
      joinGroup ds { a with s := s } j [(vals, ds.map AggD.start)] 0 r

/-- One row of a GROUP_HASH (R246). -/
def groupHashRow (emit : List Batch → QAcc → QAcc) (c : QCtx) (x : OpD) (ds : List AggD) (tys : List STy) (keys : List Nat) (j : Nat)
    (a : QAcc) (r : SlotRow) : QAcc :=
  if a.run.failed.isSome then a else
  let vals := rowVals r keys
  let g := a.groups j
  let full := 3 * (a.s.cfg 0x18C1 3 16 * 2 ^ 20) ≤ 4 * (g.length * groupBytes tys ds.length)
  let spill := bitsOf (x.p 0) 15 8
  match findGroup g vals with
  | some i => joinGroup ds a j g i r
  | none =>
    if !full then joinGroup ds a j (g ++ [(vals, ds.map AggD.start)]) g.length r
    else if !bitAt (x.p 0) 0 then
      let a := emit (batchesOf (g.length + 1) (groupRows x.outFirst g)) { a with s := a.s.bump 0x18C2 1 1 }
      joinGroup ds a j [(vals, ds.map AggD.start)] 0 r
    else if spill == 0xFF then a.fail 0x3004
    else
      let used := x.used 0 8
      let bits := bitLen (((c.img.bufs[spill]?).map (·.parts)).getD 1) - 1
      let p := partOf (c.ty a (used.headD 0)).ty bits ((nget r (used.headD 0)).getD .null)
      { a with s := a.s.bump 0x18C2 2 1, run := a.run.buffer spill p (used.map (c.ty a)) [rowVals r used] }

/-! Batches through the operators. -/

/-- Counts values that an expression made NULL. -/
def QAcc.countNull (a : QAcc) (n : Nat) : QAcc := { a with run := { a.run with nulled := a.run.nulled + n } }

/-- Rows of a build that match a probe row (R239). -/
def hashMatches (l : List (List Val)) (nkeys : Nat) (vals : List Val) : List (List Val) :=
  if vals.contains .null then [] else l.filter fun r => r.take nkeys == vals && !(r.take nkeys).contains .null

/-- Sort keys of an operator's key slots. -/
def sortKeys (c : QCtx) (a : QAcc) (keys : List Nat) (desc nulls : Nat) : List SortKey :=
  ((List.range keys.length).zip keys).map fun (i, k) => ⟨k, (c.ty a k).ty, bitAt desc i, bitAt nulls i⟩

/-! Kernels (R171). -/

/-- A tile enters a kernel for a batch: values and bitmap of each input slot, the batch block that lists their addresses with the row count
and the selection vector, the parameter words and the output block lie in scratch; g0 to g2 hold the blocks' addresses, g30 the top of the
stack's region (R350), and bundle mode starts at ENTRY. -/
def State.kernelEnter (s : State) (t : TileId) (kib entry stack : Nat) (words : List Nat) (ins : List (Nat × List Val)) (sel : List Bool) : State :=
  let base := scratchBase
  let (ats, s) := ins.foldl (fun (acc : List Nat × State) x =>
    let (v, s) := acc.2.toScratch t kib (payloadOf x.1 0 [] x.2).2.2.2
    let (m, s) := s.toScratch t kib (bitmapOf x.2)
    (acc.1 ++ [base + v, base + m], s)) ([], s)
  let (block, s) := s.toScratch t kib (ats.flatMap (toLE 8) ++ toLE 8 sel.length ++ packBits 1 (sel.map (·.toNat)))
  let (params, s) := s.toScratch t kib (words.flatMap (toLE 8))
  let (out, s) := s.toScratch t kib []
  let (low, s) := s.toScratch t kib (zeros stack)
  let (code, s) := s.fresh
  s.modTile t fun c =>
    { c with g := (((c.g.set 0 (BitVec.ofNat 64 (base + block))).set 1 (BitVec.ofNat 64 (base + params))).set 2
               (BitVec.ofNat 64 (base + out))).set 30 (BitVec.ofNat 64 (base + low + stack))
             pl := false, state := .bundle, pc := BitVec.ofNat 64 (64 * (Config.freeNat code % 2 ^ 34) + entry) }

/-- A kernel returns by SVC 0 with a status in g0: the tile monitor goes on where it was. -/
def State.kernelReturn (s : State) (t : TileId) (pc : Word) (status : Nat) : State :=
  s.modTile t fun c => { c with g := c.g.set 0 (BitVec.ofNat 64 status), pl := true, state := .monitor, pc := pc }

/-- The code that a kernel's end gives its bundle (R171, R344); 0 continues the plan. -/
def KRes.code (k : KRes) : Nat :=
  if k.cause == 0x07 && k.value == 0 then (if k.status == 0 || (0x4000 ≤ k.status && k.status < 0x5000) then k.status else 0x7003)
  else if k.cause == 0x04 then 0x5001
  else if k.cause == 0x05 then 0x4007
  else if k.cause == 0x06 then 0x7001
  else if k.cause == 0x09 then 0x7002
  else 0x7003

/-- A kernel that returned 0 and left its outputs free. -/
def KRes.returned : KRes := { cause := 0x07, value := 0, status := 0, tys := [], cols := [] }

/-- The Hip unit's records counted. -/
def QAcc.hipRecords (a : QAcc) (n : Nat) : QAcc := { a with s := a.s.bump 0x20C0 1 n }

/-- A batch enters the operators from one place of the pipeline on (R163 to R165, R235 to R252). -/
def pushBatch (c : QCtx) : List (Nat × Nat × OpD) → Batch → QAcc → QAcc
  | [], _, a => a
  | (j, i, x) :: rest, b, a =>
    let emit : List Batch → QAcc → QAcc := fun bs a => bs.foldl (fun a b => pushBatch c rest b a) a
    let w0 := x.p 0
    let sel := b.selected
    if a.run.failed.isSome then a else
    match x.code with
    | 0x03 =>
      match c.img.exprs[x.expr]? with
      | none => a
      | some p =>
        let rs := (b.rows.zip b.sel).map fun (r, on) => if on then xEval (c.tys a) c.consts c.period c.phase p r else (.null, 0)
        pushBatch c rest { b with sel := rs.map fun v => v.1 == .num 1 } (a.countNull (rs.map (·.2)).sum)
    | 0x04 =>
      match c.img.exprs[x.expr]? with
      | none => a
      | some p =>
        let rs := (b.rows.zip b.sel).map fun (r, on) => if on then xEval (c.tys a) c.consts c.period c.phase p r else (.null, 0)
        let a := match nget c.slots x.outFirst, xProgTy (c.tys a) (c.img.consts) p with
          | some (some _), _ => a
          | _, some t => { a with run := { a.run with types := nput a.run.types x.outFirst t.triple } }
          | _, none => a
        pushBatch c rest { b with rows := (b.rows.zip rs).map fun (r, v) => nput r x.outFirst v.1 } (a.countNull (rs.map (·.2)).sum)
    | 0x05 =>
      let k : KRes := (a.kernels.head?).getD .returned
      let t : TileId := Fin.ofNat 64 c.tile
      let used := x.used 0 8
      let entry := ((c.img.kernels[x.kernel]?).map (·.entry)).getD 0
      let stack := ((c.img.kernels[x.kernel]?).map (·.stack)).getD 0
      let ins := used.map fun i => ((c.ty a i).ty, b.rows.map fun r => (nget r i).getD .null)
      let s := (a.s.kernelEnter t c.scratchKib entry stack ((List.range 6).map x.p) ins b.sel).kernelReturn t (a.s.tiles[t]).pc k.status
      let a := { a with s := s, kernels := a.kernels.drop 1 }
      if k.code != 0 then a.fail k.code else
      let free := a.kernels.isEmpty && k.cols.isEmpty
      let n := b.rows.length
      let val := fun (i o : Nat) =>
        if free then Val.num (Config.freeNat (a.s.freeCtr + i * x.outCount + o)) else (k.cols.getD i []).getD o .null
      let rows := ((List.range n).zip b.rows).map fun (i, r) => rowPut r x.outFirst ((List.range x.outCount).map (val i))
      let types := ((List.range x.outCount).zip k.tys).foldl (fun m t => nput m (x.outFirst + t.1) t.2) a.run.types
      pushBatch c rest { b with rows := rows }
        { a with s := a.s.modFreeCtr (· + if free then n * x.outCount else 0), run := { a.run with types := types } }
    | 0x3C =>
      let passed := match a.op j with
        | .limit n => n
        | _ => 0
      let (sel', n) := b.sel.foldl (fun (acc : List Bool × Nat) on =>
        if on && acc.2 < w0 then (acc.1 ++ [true], acc.2 + 1) else (acc.1 ++ [false], acc.2)) ([], passed)
      pushBatch c rest { b with sel := sel' } (a.setOp j (.limit n))
    | 0x10 =>
      let keys := x.used 0 4
      let banks := ((nget c.builds i).getD []).map (Fin.ofNat 8 ·)
      let tys := keys.map (c.ty a)
      let width := keyWidth ((tys.map fun t => tyBits t.ty + 1).sum)
      if sel.isEmpty then a else
      sel.foldl (buildRow banks tys keys (x.ins.getD 4 0xFF) (bitAt w0 16)) { a with s := a.s.sizeBanks banks width }
    | 0x11 =>
      let keys := x.used 0 4
      let banks := (nget c.builds (bitsOf w0 15 8)).getD []
      let bank := (banks[c.tile % max 1 banks.length]?).map (Fin.ofNat 8 ·)
      let join := w0 % 4
      let tys := keys.map (c.ty a)
      let (rows, s) := (b.rows.zip b.sel).foldl (fun (acc : List (SlotRow × Bool) × State) x' =>
        let (r, on) := x'
        if !on then (acc.1 ++ [(r, false)], acc.2) else
        let (e, s) := probeRow bank tys keys acc.2 r
        let pay : Val := match e with
          | some e => if e.priority == 1 then .null else .num e.result
          | none => .null
        let keep := match join with
          | 0 | 2 => e.isSome
          | 1 => true
          | _ => e.isNone
        (acc.1 ++ [(if join < 2 then rowPut r x.outFirst [pay, xBool e.isSome] else r, keep)], s)) ([], a.s)
      pushBatch c rest ⟨rows.map (·.1), rows.map (·.2)⟩ { a with s := s }
    | 0x13 =>
      let keys := x.used 0 8
      let buf := bitsOf w0 15 8
      let join := w0 % 4
      let table := (c.buffers.filter fun r =>
        r.buffer == buf && (c.part.isNone || !c.divided.contains buf || c.part == some r.part)).flatMap (·.rows)
      if join < 2 then
        let pays := x.outCount - 1
        let out := sel.flatMap fun r =>
          let ms := hashMatches table keys.length (rowVals r keys)
          if ms.isEmpty then (if join == 1 then [rowPut r x.outFirst (List.replicate pays Val.null ++ [xBool false])] else [])
          else ms.map fun m => rowPut r x.outFirst (m.drop keys.length ++ [xBool true])
        emit (batchesOf (out.length + 1) out) a
      else
        pushBatch c rest (b.narrow fun r => (hashMatches table keys.length (rowVals r keys)).isEmpty == (join == 3)) a
    | 0x12 =>
      let used := x.used 0 8
      let keys := used.take (bitsOf w0 15 8)
      let rows := (sel.filter fun r => !(rowVals r keys).contains .null).map fun r => rowVals r used
      { a with run := a.run.buffer (w0 % 256) (c.part.getD 0) (used.map (c.ty a)) rows }
    | 0x14 =>
      let used := x.used 0 8
      let k := x.ins.getD 0 0
      sel.foldl (fun a r =>
        let p := partOf (c.ty a k).ty (bitsOf w0 15 8) ((nget r k).getD .null)
        { a with run := a.run.buffer (w0 % 256) p (used.map (c.ty a)) [rowVals r used] }) a
    | 0x20 =>
      let keys := x.used 0 4
      let ds := aggsOf c a x keys.length
      let tys := keys.map (c.ty a)
      let width := keyWidth ((tys.map fun t => tyBits t.ty + 1).sum)
      let banks := c.groupBanks a i
      if sel.isEmpty then a else
      sel.foldl (groupKeyRow emit banks x ds tys keys j) { a with s := a.s.sizeBanks banks width }
    | 0x21 =>
      let keys := x.used 0 4
      sel.foldl (groupHashRow emit c x (aggsOf c a x keys.length) (keys.map (c.ty a)) keys j) a
    | 0x22 =>
      let ds := aggsOf c a x 0
      sel.foldl (fun a r =>
        let st := match a.op j with
          | .aggregate l => l
          | _ => ds.map AggD.start
        let (st, n) := addRow ds st r
        (a.setOp j (.aggregate st)).overflow n) a
    | 0x28 =>
      let rows := match a.op j with
        | .sort l => l
        | _ => []
      a.setOp j (.sort (rows ++ sel))
    | 0x2A =>
      if sel.isEmpty then a else
      let keys := x.used 0 4
      let kept := match a.op j with
        | .topk l => l
        | _ => []
      let k := w0 % 2 ^ 32
      let ks := sortKeys c a keys (bitsOf w0 35 32) 0
      let n := sel.length
      (a.setOp j (.topk ((sortBy (keysLt ks) (kept ++ sel)).take k))).hipRecords (n * (1 + mergePasses n) + min k (kept.length + n))
    | 0x3E =>
      if sel.isEmpty then a else
      let slots := x.listed (w0 % 256)
      let rows := sel.map fun r => rowVals r slots
      { a with run := { a.run with results := a.run.results ++ [resultBatch (slots.map (c.ty a)) rows],
                                   resultRows := a.run.resultRows + rows.length } }
    | 0x3F =>
      let slots := x.listed (bitsOf w0 15 8)
      { a with run := a.run.buffer (w0 % 256) 0 (slots.map (c.ty a)) (sel.map fun r => rowVals r slots) }
    | _ => a

/-- The end of a bundle: each breaking operator passes its output on, and SORT writes its run (R162, R244 to R252). -/
def flushOps (c : QCtx) : List (Nat × Nat × OpD) → QAcc → QAcc
  | [], a => a
  | (j, _, x) :: rest, a =>
    let emit : List SlotRow → QAcc → QAcc := fun rows a =>
      (batchesOf (rows.length + 1) rows).foldl (fun a b => pushBatch c rest b a) a
    let a := if a.run.failed.isSome then a else
      match x.code with
      | 0x20 | 0x21 => emit (groupRows x.outFirst (a.groups j)) (a.setOp j .idle)
      | 0x22 =>
        let st := match a.op j with
          | .aggregate l => l
          | _ => (aggsOf c a x 0).map AggD.start
        emit [rowPut [] x.outFirst (st.map (·.value))] (a.setOp j .idle)
      | 0x2A =>
        match a.op j with
        | .topk l => emit l (a.setOp j .idle)
        | _ => a
      | 0x28 =>
        match a.op j with
        | .sort l =>
          let keys := x.used 0 4
          let cols := keys ++ x.used 4 8
          let sorted := sortBy (keysLt (sortKeys c a keys (bitsOf (x.p 0) 11 8) (bitsOf (x.p 0) 15 12))) l
          let a := { a with run := a.run.buffer (x.p 0 % 256) c.ordinal (cols.map (c.ty a)) (sorted.map fun r => rowVals r cols) }
          (a.setOp j .idle).hipRecords (l.length * (1 + mergePasses l.length))
        | _ => a
      | _ => a
    flushOps c rest a

/-- The rows of a BUFSCAN or MERGE source, as the slots it writes (R159, R251). [log 40 DEDUCED] -/
def sourceRows (c : QCtx) (x : OpD) : List SlotRow × List (Nat × Nat × Nat) :=
  let buf := x.p 0 % 256
  let mine := c.buffers.filter fun r => r.buffer == buf && (c.part.isNone || c.part == some r.part)
  let tys := (mine.head?.map (·.tys)).getD []
  if x.code == 0x29 then
    let runs := sortBy (fun (a b : BufRows) => a.part < b.part) mine
    let w0 := ((c.img.ops.find? fun o => o.code == 0x28 && o.p 0 % 256 == buf).map (·.p 0)).getD 0
    let nkeys := ((c.img.ops.find? fun o => o.code == 0x28 && o.p 0 % 256 == buf).map fun o => (o.used 0 4).length).getD 0
    let ks := (List.range nkeys).map fun i =>
      (⟨x.outFirst + i, ((tys[i]?).map (·.1)).getD 0, bitAt (bitsOf w0 11 8) i, bitAt (bitsOf w0 15 12) i⟩ : SortKey)
    (sortBy (keysLt ks) (runs.flatMap fun r => r.rows.map (rowPut [] x.outFirst)), tys)
  else
    let parts := sortBy (fun (a b : BufRows) => a.part < b.part) mine
    ((if c.part.isNone then parts else mine).flatMap fun r => r.rows.map (rowPut [] x.outFirst), tys)

end Sys2Proof.Machine
end

