-- ==== Sys2Proof/Machine/PlanRun.lean ====
section
/-! DEFINITION. Plans in the device (chapter 05): the checks of R176, admission and acceptance (R177, R178), the image cache
(R180, R181), bundles formed (R182 to R184), and the work of one bundle on its tile (R191, R201, R205, R210). -/

namespace Sys2Proof.Machine

/-! What a plan sees of the tables. -/

/-- A column descriptor's 16 bytes with SEAL_SET and YELM_FMT zero (R69, R156). -/
def ColDesc.schema (c : ColDesc) : Bytes :=
  toLE 1 c.type ++ toLE 1 c.nullable.toNat ++ toLE 1 c.openEnc ++ toLE 1 c.scale ++ zeros 4 ++ toLE 4 c.maxLen ++ zeros 4

/-- SCHEMA_CRC of columns (R156). -/
def schemaCrc (cols : List ColDesc) : Nat := crc32 (cols.flatMap ColDesc.schema)

/-- The table of a reference: it exists, and its schema matches. A table being dropped serves only plans accepted before. [log 35 DEDUCED] -/
def State.trefTable (s : State) (dropped : Bool) (r : TRefD) : Option Table :=
  (s.table r.id).filter fun t => (dropped || !t.dropping) && schemaCrc t.desc.cols == r.crc

/-- Nanoseconds of a tick period, rounded up (R51, R267). -/
def State.tickNs (s : State) : Nat := ceilDiv s.time.period (2 ^ s.time.tickExp)

/-- What check 8 takes from the device. -/
def State.checkEnv (s : State) (dropped : Bool) (m : PImg) : CheckEnv :=
  ⟨m.trefs.map fun r => (s.trefTable dropped r).map fun t => t.desc.cols, s.tickNs⟩

/-! Quotas and resources. -/

/-- A limit quota of an instance in force (R549). -/
def State.quota (s : State) (i : InstId) (sub default : Nat) : Nat := s.cfg (0x4001 + 0x100 * i.val) sub default

/-- COURSES of an instance. -/
def State.quotaCourses (s : State) (i : InstId) : Nat := s.quota i 1 0xFF

/-- Claims and quotas in the order TILES, PURLIN_BANKS, HIP_UNITS, YELM_ENGINES, GUTTER_CHANNELS, BUFFER_BYTES. -/
def Claims.summed (c : Claims) : List Nat := [c.tiles, c.banks, c.hip, c.yelm, c.channels, c.bufferBytes]

/-- The quotas that bound those claims. -/
def State.quotas (s : State) (i : InstId) : List Nat :=
  [s.quota i 3 16, s.quota i 4 2, s.quota i 5 1, s.quota i 6 1, s.quota i 7 2, s.quota i 9 1024 * 2 ^ 20]

/-- Bytes of an instance's result area. -/
def State.areaBytes (s : State) (i : InstId) : Nat := (s.insts[i]).resultMib * 2 ^ 20

/-- The lowest free place of a length in a result area, in steps of 64 bytes. [log 33 DEDUCED, 209 DESIGN CHOICE] -/
def State.areaPlace (s : State) (i : InstId) (n : Nat) : Option Nat :=
  let sets := (s.insts[i]).resets
  let ends := 0 :: sets.map fun r => ceilDiv (r.offset + r.bytes) 64 * 64
  let fits := ends.filter fun o =>
    o + n ≤ s.areaBytes i && sets.all fun r => o + n ≤ r.offset || r.offset + r.bytes ≤ o
  (sortBy (fun (a b : Nat) => a < b) fits).head?

/-- Sums of the claims of an instance's accepted plans and registered queries (R177). [log 36 DESIGN CHOICE] -/
def State.claimed (s : State) (i : InstId) : List Nat :=
  (s.plans.plans.filter fun p => p.2.inst == i.val).foldl (fun (acc : List Nat) p =>
    (acc.zip p.2.claims.summed).map fun (a, b) => a + b) [0, 0, 0, 0, 0, 0]

/-- Free Gutter channels, lowest first. -/
def State.freeChans (s : State) : List ChanId :=
  (List.finRange 32).filter fun c => (s.gutter.chans[c]).use == .free && !(s.gutter.chans[c]).marked

/-- A plan's resources can be allotted now (R177). -/
def State.canAllot (s : State) (i : InstId) (c : Claims) : Bool :=
  (((s.claimed i).zip c.summed).zip (s.quotas i)).all (fun x => x.1.1 + x.1.2 ≤ x.2)
    && (s.areaPlace i c.resultBytes).isSome && c.banks ≤ s.freeBanks.length && c.channels ≤ s.freeChans.length
    && s.plans.plans.length < 4096

/-! Checks of an image (R176). -/

/-- Bytes of an instance's plan area that are taken: images of its accepted plans and queries, and of those that are read or wait. -/
def State.planAreaUsed (s : State) (i : InstId) : Nat :=
  ((s.plans.plans.filter fun p => p.2.inst == i.val).map fun p => p.2.image.length).sum
    + (((s.insts[i]).queue.filter fun c => c.stage == .waiting).map fun c => c.data.length).sum

/-- The plan area has room for an image of n bytes; it holds one of the greatest length at least (R176 check 1). [log 209 DESIGN CHOICE] -/
def State.planAreaFree (s : State) (i : InstId) (n : Nat) : Bool := s.planAreaUsed i + n ≤ 4194304 + Config.planAreaExtra

/-- The image cache's entry for an image (R180). -/
def State.cacheHit (s : State) (i : InstId) (digest : Bytes) : Option CacheEntry :=
  s.plans.cache.find? fun e => e.inst == i.val && e.digest == digest

/-- A plan-key slot 1 to 8 is ACTIVE (R634). -/
def State.planKeyUp (s : State) (slot : Nat) : Bool := 1 ≤ slot && slot ≤ 8 && (s.boot.planKeys[Fin.ofNat 8 (slot - 1)]).state == 1

/-- Check 6. -/
def State.signOk (s : State) (img : Bytes) : Bool :=
  let slot := imgKeySlot img
  s.planKeyUp slot && imgSigned img (s.boot.planKeys[Fin.ofNat 8 (slot - 1)]).modulus

/-- Check 9: the offset of the first reference whose table or schema does not answer. -/
def State.check9 (s : State) (m : PImg) : Option Nat :=
  let base := (nget m.at' 1).getD 0
  firstBad (((List.range m.trefs.length).zip m.trefs).flatMap fun (k, r) =>
    [((s.table r.id).any fun t => !t.dropping, base + 64 * k), ((s.trefTable false r).isSome, base + 64 * k + 8)])

/-- Check 10. -/
def State.check10 (s : State) (i : InstId) (m : PImg) : Option Nat :=
  let base := (nget m.at' 1).getD 0
  firstBad (((List.range m.trefs.length).zip m.trefs).map fun (k, r) =>
    ((s.table r.id).any fun t => t.desc.owner == i.val || bitAt t.desc.readers i.val, base + 64 * k))

/-- Check 11. [log 33 DEDUCED] -/
def State.check11 (s : State) (i : InstId) (m : PImg) : Option Nat :=
  let co := (nget m.at' 7).getD 0
  let po := (nget m.at' 2).getD 0
  let c := m.claims
  let q := s.quotas i
  let claims : List (Bool × Nat) :=
    [(c.tiles ≤ q.getD 0 0, co), (c.banks ≤ q.getD 1 0, co + 1), (c.hip ≤ q.getD 2 0, co + 2),
      (c.yelm ≤ q.getD 3 0, co + 3), (c.channels ≤ q.getD 4 0, co + 4), (c.scratchKib ≤ s.quota i 8 256, co + 8),
      (c.resultBytes ≤ s.areaBytes i, co + 16), (c.bufferBytes ≤ q.getD 5 0, co + 24)]
  firstBad (claims ++ ((List.range m.pipes.length).zip m.pipes).map fun (k, p) =>
      ((p.mayRunOn &&& s.quotaCourses i) != 0, po + 16 * k + 5))

/-- Checks 4, 6 and 8 are made: the image cache does not hold the image, or its key slot has been revoked since (R180). -/
def State.judgedAgain (s : State) (i : InstId) (img : Bytes) : Bool :=
  match s.cacheHit i (sha256 img) with
  | none => true
  | some e => e.keySlot.any fun k => !s.planKeyUp k

/-- Check 8, where it is made. -/
def State.imageTypes (s : State) (i : InstId) (img : Bytes) : Option (Nat × Nat) :=
  if !s.judgedAgain i img then none else
    match check8 (s.checkEnv false (parseImage img)) img with
    | .ok _ => none
    | .error o => some (stBadImage, o)

/-- Checks 2 to 8 of R176 on the bytes that arrived; the code and the offset of a refusal (R179). [log 34 DEDUCED] -/
def State.checkImage (s : State) (i : InstId) (declared : Nat) (query : Bool) (img : Bytes) (paramsOk : Bool) :
    Option (Nat × Nat) :=
  let n := fieldAt 8 4 img
  if 12 ≤ img.length && declared < n then some (stLengthLong, 8)
  else if 12 ≤ img.length && n < declared then some (stLengthShort, 8)
  else if img.length < declared || !paramsOk then some (stLengthShort, noOffset)
  else
    let img := img.take declared
    let m := parseImage img
    let bad4 := if (s.cacheHit i (sha256 img)).isNone then check4 img else none
    match bad4 with
    | some o => some (stBadImage, o)
    | none =>
      if s.quota i 15 0 == 1 && !m.signed then some (stSignatureRequired, 6)
      else if s.judgedAgain i img && m.signed && !s.signOk img then some (stAuthFailed, (nget m.at' 15).getD noOffset)
      else if m.continuous != query then some (stBadArgument, 6)
      else s.imageTypes i img

/-- Checks 9 to 11 of R176, judged once the earlier commands let the plan on; so is check 8 for the types of a table that did
not stand before (R176, R523). [log 34 DEDUCED] -/
def State.checkTables (s : State) (i : InstId) (img : Bytes) : Option (Nat × Nat) :=
  let m := parseImage img
  match s.imageTypes i img with
  | some x => some x
  | none =>
    match s.check9 m with
    | some o => some (stBadArgument, o)
    | none =>
      match s.check10 i m with
      | some o => some (stNotOwner, o)
      | none => (s.check11 i m).map fun o => (stQuota, o)

/-- A refusal: the error record, the counters, and the command's end (R176, R179). [log 38 DEDUCED] -/
def State.refusePlan (s : State) (i : InstId) (r : Stamp) (code off : Nat) : State :=
  let s := (s.bump 0x2080 5 1).modPlans fun p => { p with lastRefusal := some (r, code, i.val, off) }
  let s := s.raise s.ridgeSrc
    { ErrRec.blank with code := code, severity := .contained, scope := 1, scopeId := r.seq % 65536, inst := i.val, detail0 := r.ts,
                        detail1 := r.seq + r.src * 2 ^ 24 + off * 2 ^ 32 }
  s.complete i r code

/-- An image that arrives whole and is in the cache counts as a hit, whether it is then accepted or refused (R180, R188, R190). -/
def State.countHit (s : State) (i : InstId) (declared : Nat) (img : Bytes) : State :=
  if declared ≤ img.length && (s.cacheHit i (sha256 (img.take declared))).isSome then s.bump 0x2080 6 1 else s

/-- The entries of one instance beyond the newest that the cache may hold go (R181, R190). -/
def keepCached (n : Nat) (l : List CacheEntry) : List CacheEntry :=
  (List.range 64).flatMap fun i => keepLast n (l.filter fun e => e.inst == i)

/-- IMAGE_CACHE_ENTRIES written: the caches hold no more; 0 disables them (R181, R190). -/
def State.cacheTrim (s : State) (n : Nat) : State := s.modPlans fun p => { p with cache := keepCached n p.cache }

/-- The image cache after an acceptance: this image newest, the oldest of the instance beyond its entries gone (R181). -/
def State.cachePut (s : State) (i : InstId) (img : Bytes) (m : PImg) : State :=
  let d := sha256 img
  let mine := s.plans.cache.filter fun e => e.inst == i.val && e.digest != d
  let others := s.plans.cache.filter fun e => e.inst != i.val
  let e : CacheEntry := ⟨i.val, d, if m.signed then some (imgKeySlot img) else none⟩
  s.modPlans fun p => { p with cache := others ++ keepLast (s.cfg 0x2080 1 16) (mine ++ [e]) }

/-- The image cache of one instance, or of all, emptied (R181). -/
def State.cacheDrop (s : State) (i : Option InstId) : State :=
  s.modPlans fun p => { p with cache := match i with
    | some i => p.cache.filter fun e => e.inst != i.val
    | none => [] }

/-! Plans. -/

/-- Snapshot entries of some tables now (R30, R178). -/
def State.snapNow (s : State) (tables : List Nat) : List SnapSeg :=
  tables.eraseDups.flatMap fun id =>
    (((s.table id).map (·.segs)).getD []).filterMap fun g =>
      if g.state == .retired || g.rows.isEmpty then none else some ⟨id, g.no, g.rows.length, g.state == .opened⟩

/-- Banks that the KJOIN_BUILDs of an image load, by operator index, out of those allotted; and the rest (R235). -/
def buildBanksOf (m : PImg) (banks : List Nat) : NMap (List Nat) × List Nat :=
  ((List.range m.ops.length).zip m.ops).foldl (fun (acc : NMap (List Nat) × List Nat) (x : Nat × OpD) =>
    if x.2.code == 0x10 then
      let n := bitsOf (x.2.p 0) 15 8
      (nput acc.1 x.1 (acc.2.take n), acc.2.drop n)
    else acc) ([], banks)

/-- A table reference's range takes in a snapshot segment (R157). -/
def State.segSurvives (s : State) (r : TRefD) (x : SnapSeg) : Bool :=
  match ((s.table x.table).bind fun t => t.segs.find? (·.no == x.seg)).bind fun g =>
      ({ g with rows := (if g.openRows.isEmpty then g.rows else g.openRows).take x.rows } : Segment).bounds with
  | none => true
  | some (lo, hi) => (r.tsFrom == 0 || r.tsFrom ≤ hi.ts) && (r.tsTo == 0 || lo.ts ≤ r.tsTo)

/-- The source operator of a pipeline. -/
def PImg.source (m : PImg) (p : PipeD) : OpD := m.ops.getD p.first ⟨0, 0, 0, 0, 0, [], []⟩

/-- Operators of a pipeline after its source, with place and operator index. -/
def PImg.rest (m : PImg) (p : PipeD) : List (Nat × Nat × OpD) :=
  (List.range (p.count - 1)).filterMap fun j => (m.ops[p.first + 1 + j]?).map fun x => (j, p.first + 1 + j, x)

/-- Snapshot segments a scanning pipeline reads, in bundle order: the open segment last (R157, R182). -/
def State.srcSegs (s : State) (p : Plan) (m : PImg) (pd : PipeD) : List SnapSeg :=
  match m.trefs[(m.source pd).p 0 % 256]? with
  | none => []
  | some r =>
    let l := sortBy (fun (a b : SnapSeg) => a.seg < b.seg) (p.snapshot.filter fun x => x.table == r.id && s.segSurvives r x)
    l.filter (fun x => !x.opened) ++ l.filter (·.opened)

/-- The bundles of a pipeline, in order: UNIT, segment, first row and rows (R182). A firing's pipelines form one bundle
each, whose UNIT is its window's number (R314). [log 39 DEDUCED] -/
def State.unitsOf (s : State) (p : Plan) (m : PImg) (pd : PipeD) (window : Option Nat) : List (Nat × Nat × Nat × Nat) :=
  match window with
  | some w => [(w % 2 ^ 32, 0, 0, 0)]
  | none =>
    if pd.kind == 1 then
      if pd.split == 3 then (List.range (srcParts m pd)).map fun k => (k, k, 0, 0) else [(0, 0, 0, 0)]
    else
      let segs := s.srcSegs p m pd
      match pd.split with
      | 0 => segs.map fun x => (x.seg, x.seg, 0, x.rows)
      | 1 => segs.flatMap fun x => (List.range (ceilDiv x.rows 4096)).map fun b =>
          (x.seg * 16 + b, x.seg, 4096 * b, min 4096 (x.rows - 4096 * b))
      | _ =>
        let first := (segs.head?.map (·.seg)).getD 0
        [(first, first, 0, min 65536 ((segs.map (·.rows)).sum))]

/-- Progress before anything has run. -/
def PipeProg.fresh : PipeProg := { toForm := [], running := [], ready := false, complete := false }

/-- Pipelines whose DEPENDS are all complete become ready (R183). -/
def State.readyPipes (s : State) (slot : Nat) (window : Option Nat) : State :=
  match s.plan slot with
  | none => s
  | some p =>
    let m := parseImage p.image
    let done := fun k => ((p.pipes[k]?).map (·.complete)).getD false
    let pipes := ((List.range m.pipes.length).zip m.pipes).map fun (k, pd) =>
      let g := p.pipes.getD k .fresh
      if g.ready || !(List.range 16).all (fun d => !bitAt pd.depends d || done d) then g
      else
        let units := s.unitsOf p m pd window
        { g with ready := true, toForm := units, complete := units.isEmpty }
    s.modPlan slot fun p => { p with pipes := pipes }

/-- Readiness passed on through pipelines that form no bundle at all. -/
def State.readyAll (s : State) (slot : Nat) (window : Option Nat) : State :=
  (List.range 16).foldl (fun s _ => s.readyPipes slot window) s

/-- The address of what a bundle reads (R293): of its segment's header, or of its partition of a buffer; none for a window, which spans
segments. [log 45 DESIGN CHOICE] -/
def State.sourceAddr (s : State) (p : Plan) (m : PImg) (pd : PipeD) (seg : Nat) : Option Nat :=
  let x := (m.source pd).p 0 % 256
  if pd.kind == 1 then
    let b := m.bufs.getD x ⟨0, 0, 0⟩
    (p.bufAt[x]?).map fun a => a + (if b.parts == 0 then 0 else seg * (b.bytes / b.parts))
  else if pd.kind == 2 then none
  else
    match (m.trefs[x]?).bind fun r => (s.table r.id).bind fun t => t.segs.find? (·.no == seg) with
    | none => none
    | some g => (if g.openAtA.isEmpty then g.atA else g.openAtA).head?

/-- A descriptor of a bundle (R183, R293); its context address is free, and so is the source address of a window. [log 45 DESIGN CHOICE] -/
def State.makeDesc (s : State) (slot : Nat) (p : Plan) (m : PImg) (k : Nat) (pd : PipeD) (unit seg first count : Nat) (firing : Bool) :
    BDesc :=
  let ops := (m.source pd) :: (m.rest pd).map (·.2.2)
  let i := Fin.ofNat 64 p.inst
  { BDesc.zero with
    planSlot := slot, pipeline := k, priority := max pd.priority (s.quota i 2 0), courses := pd.mayRunOn &&& s.quotaCourses i,
    inst := p.inst, hip := ops.any fun x => needsHip x.code, firing := firing,
    banks := ((ops.filter fun x => x.code == 0x20).map fun x => bitsOf (x.p 0) 15 8).sum,
    affinity := fieldAt 0 4 p.digest % 2 ^ 28 * 16 + k, unit := unit, contextAddr := 64 * (Config.freeNat s.freeCtr % 2 ^ 35),
    rowFirst := first, rowCount := count,
    sourceAddr := (s.sourceAddr p m pd seg).getD (64 * (Config.freeNat (s.freeCtr + 1) % 2 ^ 35)) }

/-- Bundles of a plan on the ready lists (R184). -/
def State.readyOf (s : State) (slot : Nat) : Nat := s.batten.ready.countP fun r => r.desc.planSlot == slot

/-- One bundle of a plan formed and submitted, the lowest pipeline first; the flag says that one was. -/
def State.formOne (s : State) (slot : Nat) : Bool × State :=
  match s.plan slot with
  | none => (false, s)
  | some p =>
    if p.ended.isSome || s.cfg 0x2080 3 4096 ≤ s.readyOf slot then (false, s) else
    let m := parseImage p.image
    match ((List.range p.pipes.length).zip p.pipes).find? fun x => !x.2.toForm.isEmpty with
    | none => (false, s)
    | some (k, g) =>
      match g.toForm, m.pipes[k]? with
      | (unit, seg, first, count) :: more, some pd =>
        let d := s.makeDesc slot p m k pd unit seg first count p.query.isSome
        let (st, s) := (s.modFreeCtr (· + 2)).submit d true
        if st == stBusy then (false, s)
        else
          let s := s.modPlan slot fun p =>
            { p with pipes := lmod p.pipes k fun g => { g with toForm := more, running := g.running ++ [unit] } }
          (true, s)
      | _, _ => (false, s)

/-- Bundles of a plan formed while it may have more on the ready lists (R182, R184). -/
def State.form (slot : Nat) : Nat → State → State
  | 0, s => s
  | n + 1, s => match s.formOne slot with
    | (true, s) => State.form slot n s
    | (false, s) => s

/-- Bundles a plan has still to form. -/
def State.toForm (s : State) (slot : Nat) : Nat := ((s.plan slot).map fun p => (p.pipes.map fun g => g.toForm.length).sum).getD 0

/-- Bundles formed, the Batten's choice, and more formed as those are dispatched, until nothing more can be (R184). -/
def State.formRounds (slot : Nat) : Nat → State → State
  | 0, s => s
  | n + 1, s =>
    let t := (State.form slot (s.toForm slot) s).pump
    if t.toForm slot == 0 || t.toForm slot == s.toForm slot then t else State.formRounds slot n t

/-- A plan's ready pipelines form their bundles, and the Batten chooses. -/
def State.formAll (s : State) (slot : Nat) : State := State.formRounds slot (s.toForm slot + 1) s

/-- The Batten works, and plans form more bundles as theirs are dispatched (R184). -/
def State.pumpPlans (s : State) : State :=
  let s := s.pump
  (s.plans.plans.filter fun p => p.2.query.isNone && p.2.ended.isNone && p.2.pipes.any fun g => !g.toForm.isEmpty).foldl
    (fun s p => s.formAll p.1) s

/-- Acceptance's allotments for an image (R174, R178, R217): the slot, and the state with the plan in it. [log 218 DESIGN CHOICE] -/
def State.allot (s : State) (i : InstId) (c : Cmd) (img : Bytes) (params : List Nat) (query : Option Nat) : Nat × State :=
  let slot := ((List.range 4096).find? fun k => (s.plan k).isNone).getD 0
  let m := parseImage img
  let banks := s.freeBanks.take m.claims.banks
  let chans := s.freeChans.take m.claims.channels
  let place := (s.areaPlace i m.claims.resultBytes).getD 0
  let (builds, rest) := buildBanksOf m (banks.map (·.val))
  let (bufAt, _, s) := s.newPlaces false false (m.bufs.map (·.bytes))
  let s := (s.modThatch fun t => { t with retireSlot := slot, retireUntil := max s.time.ts t.retireUntil + 1000 }).retireLines slot
  let p : Plan :=
    { inst := i.val, receipt := c.receipt, image := img, params := params, digest := sha256 img, snapshot := [], claims := m.claims,
      banks := banks.map (·.val), buildBanks := builds, channels := chans.map (·.val), hipHeld := 0,
      pipes := m.pipes.map fun _ => .fresh, buffers := [], bufAt := bufAt, results := [], resultRows := 0, nulled := 0, reruns := 0, energy := 0,
      ended := none, query := query, resultAddr := if query.isSome then 0 else c.arg 3,
      resultSpace := if query.isSome then 0 else c.arg 4, resultOffset := place }
  let s := banks.foldl (fun s b => (s.clearBank b).setBank b .planRole 0 false i.val) s
  let s := chans.foldl (fun s k => s.modChan k fun x => { x with use := .plan slot }) s
  let s := s.modInst i fun x => { x with resets := x.resets ++ [⟨place, m.claims.resultBytes, false⟩] }
  let s := s.modPlans fun ps => { ps with plans := nput ps.plans slot p }
  let s := s.modBatten fun b => { b with slots := nput b.slots slot ⟨m.claims.hip, (rest.map (2 ^ ·)).sum, 0, 0⟩ }
  let s := s.modYelm fun y => { y with claims := nputZ y.claims slot m.claims.yelm }
  (slot, (s.cachePut i img m).bump 0x2080 4 1)

/-! Order of an instance's commands (R523). -/

/-- The table an APPEND or a table command names; none for a CREATE_TABLE, whose descriptor gives it. -/
def Cmd.table (c : Cmd) : Option Nat :=
  match c.opcode with
  | 0x20 => some (c.arg 1 % 2 ^ 16)
  | 0x11 => some (c.arg 2 % 2 ^ 16)
  | 0x12 => some (c.arg 0 % 2 ^ 16)
  | 0x10 => c.reads.head?
  | _ => none

/-- A table command. -/
def Cmd.isTable (c : Cmd) : Bool := c.opcode == 0x10 || c.opcode == 0x11 || c.opcode == 0x12
/-- A RUN_PLAN or REGISTER_QUERY. -/
def Cmd.isPlan (c : Cmd) : Bool := c.opcode == 0x30 || c.opcode == 0x38
/-- Its image has not been read. [log 135 DEDUCED] -/
def Cmd.unread (c : Cmd) : Bool := match c.stage with
  | .queued | .reading _ => true
  | _ => false
/-- A plan accepted. -/
def Cmd.accepted (c : Cmd) : Bool := c.stage == .running

/-- Two commands may touch one table; an unread descriptor's table may be any. -/
def Cmd.sameTable (a b : Cmd) : Bool :=
  match a.table, b.table with
  | some x, some y => x == y
  | _, _ => true

/-- An earlier command keeps a later one of its instance from starting, or a plan from being accepted (R523). -/
def Cmd.holdsBack (e c : Cmd) : Bool :=
  if c.opcode == 3 then false
  else if e.opcode == 2 then true
  else if c.isPlan && c.unread then false
  else if c.isPlan then
    let touches := match e.table with
      | some t => c.reads.contains t
      | none => true
    (e.opcode == 0x20 && touches && !e.settled) || (e.isTable && touches)
  else if c.opcode == 0x20 then
    (e.isPlan && e.unread) || (e.isPlan && !e.accepted && c.table.any e.reads.contains) || (e.isTable && e.sameTable c)
  else if c.isTable then
    (e.isPlan && e.unread) || (e.isPlan && (match c.table with
      | some t => e.reads.contains t
      | none => true)) || (e.opcode == 0x20 && e.sameTable c) || (e.isTable && e.sameTable c)
  else false

/-- No earlier command of its instance keeps a command back. -/
def State.inOrder (s : State) (i : InstId) (c : Cmd) : Bool :=
  (s.insts[i]).queue.all fun e => !(e.receipt.lt c.receipt && e.holdsBack c)

/-! The work of one bundle. -/

/-- The firing a standing plan runs, with its query (R274). -/
def State.firingOf (s : State) (p : Plan) : Option Firing :=
  (p.query.bind fun q => nget s.batten.queries q).bind fun q => q.firings.find? fun f => f.phase == .running

/-- What a bundle's scan looks for (R157, R162, R265, R266). -/
def State.scanSpec (s : State) (p : Plan) (m : PImg) (x : OpD) : ScanSpec :=
  let consts := bindParams p.params m.consts
  let w0 := x.p 0
  let r := m.trefs.getD (w0 % 256) ⟨0, 0, 0, 0, 0⟩
  let n := bitsOf w0 15 8
  let pred := fun (w k : Nat) => mkPred consts (x.p (w + k / 2) / 2 ^ (32 * (k % 2)) % 2 ^ 32)
  if x.code == 0x30 then
    let w := ((s.firingOf p).map (·.window)).getD ⟨0, 0, 0, 0, 0⟩
    { table := r.id, cols := (List.range n).map x.listByte, outFirst := x.outFirst,
      preds := (List.range (bitsOf w0 21 20)).map (pred 5), orMode := bitAt w0 22, skipOff := false, lo := w.tStart,
      hi := w.tEnd - 1, ranged := true,
      fixed := [(x.outFirst, .num w.tStart), (x.outFirst + 1, .num w.tEnd), (x.outFirst + 2, .num w.dStart),
                (x.outFirst + 3, .num w.dEnd)], yelm := p.claims.yelm != 0 }
  else
    { table := r.id, cols := (List.range n).map x.listByte, outFirst := x.outFirst,
      preds := (List.range (bitsOf w0 19 16)).map (pred 3), orMode := bitAt w0 20, skipOff := bitAt w0 21, lo := r.tsFrom,
      hi := if r.tsTo == 0 then 2 ^ 64 - 1 else r.tsTo, ranged := r.tsFrom != 0 || r.tsTo != 0, fixed := [], yelm := p.claims.yelm != 0 }

/-- A snapshot segment as a Reed unit sees it. -/
def State.segView (s : State) (x : SnapSeg) : Option SegView :=
  (s.table x.table).bind fun t => (t.segs.find? (·.no == x.seg)).map fun g =>
    let opened := x.opened && (g.state == .opened || !g.openRows.isEmpty)
    SegView.of t.desc g opened x.rows

/-- The blocks of a bundle as SEGMENT_NO × 16 + block, in order (R182). -/
def State.bundleBlocks (s : State) (p : Plan) (m : PImg) (pd : PipeD) (unit : Nat) : List Nat :=
  let segs := s.srcSegs p m pd
  let all := fun (x : SnapSeg) => (List.range (ceilDiv x.rows 4096)).map fun b => x.seg * 16 + b
  if pd.kind == 2 || pd.split == 2 then segs.flatMap all
  else if pd.split == 1 then [unit]
  else (segs.filter fun x => x.seg == unit).flatMap all

/-- The place of a bundle in the order of R182. -/
def State.ordinalOf (s : State) (p : Plan) (m : PImg) (pd : PipeD) (unit : Nat) : Nat :=
  if pd.kind == 1 then (if pd.split == 3 then unit else 0)
  else match pd.split with
    | 0 => ((s.srcSegs p m pd).findIdx? fun x => x.seg == unit).getD 0
    | 1 => ((s.srcSegs p m pd).findIdx? fun x => x.seg == unit / 16).getD 0 * 16 + unit % 16
    | _ => 0

/-- Each GROUP_KEYSTORE of a pipeline has banks of its own among those its bundle leases (R244): first and number, by operator index. -/
def bankShares (ops : List (Nat × Nat × OpD)) : NMap (Nat × Nat) :=
  (ops.foldl (fun (acc : NMap (Nat × Nat) × Nat) x =>
    if x.2.2.code != 0x20 then acc else
    let n := bitsOf (x.2.2.p 0) 15 8
    (nput acc.1 x.2.1 (acc.2, n), acc.2 + n)) ([], 0)).1

/-- What a bundle's operators work with. -/
def State.qctx (s : State) (t : TileId) (d : BDesc) (p : Plan) (m : PImg) (pd : PipeD) : QCtx :=
  { img := m, scratchKib := p.claims.scratchKib, shares := bankShares (m.rest pd)
    divided := (List.range m.bufs.length).filter fun k => ((nget (walkOf (s.checkEnv true m) p.image).bufs k).map (·.parts)).getD 0 != 0
    slots := (nget (walkOf (s.checkEnv true m) p.image).done d.pipeline).getD [],
    consts := bindParams p.params m.consts, period := s.time.period, phase := s.time.phase, tile := t.val,
    ordinal := s.ordinalOf p m pd d.unit, part := if pd.split == 3 && p.query.isNone then some d.unit else none,
    builds := p.buildBanks, buffers := p.buffers }

/-- The plan, image and pipeline of the bundle a tile runs. -/
def State.bundleOf (s : State) (t : TileId) : Option (BDesc × Plan × PImg × PipeD) :=
  (s.batten.tiles[t]).desc.bind fun d => (s.plan d.planSlot).bind fun p =>
    let m := parseImage p.image
    (m.pipes[d.pipeline]?).map fun pd => (d, p, m, pd)

/-- The bundle of a tile works on, its operators fed by a function. -/
def State.feed (s : State) (t : TileId) (kernels : List KRes) (f : QCtx → List (Nat × Nat × OpD) → QAcc → QAcc) : State × List KRes :=
  match s.bundleOf t with
  | none => (s, kernels)
  | some (d, p, m, pd) =>
    let a := f (s.qctx t d p m pd) (m.rest pd) ⟨s, (s.batten.tiles[t]).run, kernels⟩
    (a.s.modSched t fun y => { y with run := a.run }, a.kernels)

/-! The Reed unit of a tile. -/

/-- Blocks of a bundle that its operators have not had whole. -/
def ReedSt.left (r : ReedSt) (blocks : List Nat) : List Nat := blocks.filter fun b => !r.scanned.contains b

/-- The Reed unit of a tile has failed with a code, at an address where one is to be recorded (R213). -/
def State.reedFails (s : State) (t : TileId) (code at' : Nat) : State :=
  s.modSched t fun y =>
    if y.reed.failed.isSome then y else { y with reed := { y.reed with failed := some code, failedAt := at' } }

/-- The batches of a block wait to be handed over, those already consumed before a pre-emption left out (R205, R255); a block that gives
none has been scanned. -/
def State.reedBatches (s : State) (t : TileId) (slots : List (Nat × Nat)) (key : Nat) (bs : List ScanBatch) : State :=
  let ctr := s.freeCtr
  let ready := ((List.range bs.length).zip bs).map fun (i, b) =>
    (⟨key, batchImage slots b (ctr + 65536 * i), .full b.rows⟩ : RBatch)
  (s.modFreeCtr (· + 65536 * bs.length)).modSched t fun y =>
    let r := y.reed
    let ready := if r.cur == some key then ready.drop r.consumed else ready
    { y with reed := { r with batches := r.batches ++ ready, scanned := if ready.isEmpty then r.scanned ++ [key] else r.scanned,
                              active := !(r.batches ++ ready).isEmpty } }

/-- One part of a scan in effect: its accesses in order, its counts, and its batches or its failure; the flag ends the scan. -/
def State.scanStep (t : TileId) (slot kib : Nat) (v : SegView) (slots : List (Nat × Nat)) (acc : Bool × State) (x : ScanStep) :
    Bool × State :=
  if acc.1 then acc else
  let (bad, s) := x.acts.foldl (fun (a : Option Nat × State) y =>
    if a.1.isSome then a else a.2.reedAct t slot kib v y) (none, acc.2)
  match bad with
  | some code => (true, s.reedFails t code 0)
  | none =>
    let s := s.countScan x.cnt x.fail
    match x.fail, x.block with
    | some code, _ => (true, s.reedFails t (code % 65536) 0)
    | none, some j => (false, s.reedBatches t slots (v.seg.no * 16 + j) x.batches)
    | none, none => (false, s)

/-- A scan of blocks of one segment for a tile's bundle (R192, R201, R205, R213). -/
def State.scanInto (s : State) (t : TileId) (slot : Nat) (p : Plan) (m : PImg) (pd : PipeD) (seg : Nat) (blocks : List Nat) : State :=
  let sp := s.scanSpec p m (m.source pd)
  match ((p.snapshot.find? fun x => x.table == sp.table && x.seg == seg).bind s.segView) with
  | none => s.reedFails t stCheckMismatch 0
  | some v =>
    match s.chunkFault t v sp.touched with
    | some a => s.reedFails t stWindowFault a
    | none =>
      ((v.scan sp (s.cfg 0x20A1 2 1 == 1) blocks).foldl (State.scanStep t slot p.claims.scratchKib v (v.slots sp)) (false, s)).2

/-- A REED_CMD started by the tile monitor (R191, R201): blocks of one segment, and those, as COLUMN × 16 + block, of copy A, or of copy B
where the flag is set, that the memory answers poisoned (R111, R113). -/
def State.reedStart (s : State) (t : TileId) (seg first count : Nat) (bad : List (Nat × Bool)) : State :=
  match s.bundleOf t with
  | none => s
  | some (d, p, m, pd) =>
    if pd.kind == 1 || (s.tiles[t]).reedBusy then s else
    let table := (s.scanSpec p m (m.source pd)).table
    let s := s.modTable table fun tb => { tb with segs := tb.segs.map fun g =>
      if g.no != seg then g else
      (g.harm false ((bad.filter fun x => !x.2).map (·.1))).harm true ((bad.filter (·.2)).map (·.1)) }
    let want := (upFrom (seg * 16 + first) count).filter fun k => k / 16 == seg
    let blocks := (((s.batten.tiles[t]).reed.left (s.bundleBlocks p m pd d.unit)).filter want.contains).map (· % 16)
    let s := s.scanInto t d.planSlot p m pd seg blocks
    s.modTile t fun c =>
      { c with reedBusy := (s.batten.tiles[t]).reed.active, reedHanded := 0, reedStatus := (s.batten.tiles[t]).reed.failed.getD 0 }

/-- The command in progress abandoned, its batches not yet handed over discarded (R210). [log 41 DEDUCED] -/
def State.reedAbandon (s : State) (t : TileId) : State :=
  let r := (s.batten.tiles[t]).reed
  let s := if r.active then s.bump 0x20A0 8 1 else s
  let s := s.modSched t fun y => { y with reed := { y.reed with batches := [], active := false } }
  s.modTile t fun c => { c with reedBusy := false }

/-- The first closed batch, written in the batch area, passes to the operators (R205). -/
def State.reedHandover (s : State) (t : TileId) (kernels : List KRes) : State × List KRes :=
  match (s.batten.tiles[t]).reed.batches with
  | [] => (s, kernels)
  | ⟨key, image, b⟩ :: more =>
    let last := !more.any fun x => x.block == key
    let kib := ((s.bundleOf t).map fun x => x.2.1.claims.scratchKib).getD 0
    let s := (s.toScratch t kib image).2
    let s := s.modSched t fun y =>
      let r := y.reed
      { y with reed := { r with batches := more, active := !more.isEmpty, scanned := if last then r.scanned ++ [key] else r.scanned,
                                cur := if last then none else some key,
                                consumed := if last then 0 else (if r.cur == some key then r.consumed else 0) + 1 } }
    let s := s.modTile t fun c => { c with reedHanded := (c.reedHanded + 1) % 256, reedBusy := !more.isEmpty }
    s.feed t kernels fun c ops a => pushBatch c ops b a

/-- The tile monitor starts a Reed command. -/
def execReedStart (tile : TileId) (seg first count : Nat) (bad : List (Nat × Bool)) (s : State) : Res :=
  .next (s.reedStart tile seg first count bad)

/-- The tile monitor abandons the Reed command in progress. -/
def execReedAbandon (tile : TileId) (s : State) : Res := .next (s.reedAbandon tile)

/-- The Reed unit hands a batch over; the operand gives what kernels return. [log 42 DESIGN CHOICE] -/
def execReedBatchHandover (tile : TileId) (kernels : List KRes) (s : State) : Res := .next (s.reedHandover tile kernels).1

/-! The end of a bundle's work. -/

/-- Every batch still waiting passes to the operators. -/
def State.handAll (t : TileId) : Nat → State × List KRes → State × List KRes
  | 0, x => x
  | n + 1, (s, k) =>
    if (s.batten.tiles[t]).reed.batches.isEmpty then (s, k) else State.handAll t n (s.reedHandover t k)

/-- A segment's blocks scanned and handed over. -/
def State.scanAll (s : State) (t : TileId) (kernels : List KRes) (slot : Nat) (p : Plan) (m : PImg) (pd : PipeD) (seg : Nat)
    (blocks : List Nat) : State × List KRes :=
  let s := s.scanInto t slot p m pd seg blocks
  State.handAll t ((s.batten.tiles[t]).reed.batches.length) (s, kernels)

/-- What the tile monitor has still to do before it reports OK: batches waiting, blocks not scanned, a buffer source, and the
breaking operators' output (R162, R201, R251). [log 40 DEDUCED] -/
def State.finishWork (s : State) (t : TileId) (kernels : List KRes) : State :=
  match s.bundleOf t with
  | none => s
  | some (d, p, m, pd) =>
    let (s, kernels) := State.handAll t ((s.batten.tiles[t]).reed.batches.length) (s, kernels)
    let (s, kernels) :=
      if pd.kind == 1 then
        s.feed t kernels fun c ops a =>
          let (rows, tys) := sourceRows c (m.source pd)
          let types := ((List.range tys.length).zip tys).foldl (fun mp x => nput mp ((m.source pd).outFirst + x.1) x.2) a.run.types
          let runs := (c.buffers.filter fun r => r.buffer == (m.source pd).p 0 % 256).length
          let a := if (m.source pd).code == 0x29 then a.hipRecords (rows.length * runPasses runs) else a
          (batchesOf (rows.length + 1) rows).foldl (fun a b => pushBatch c ops b a) { a with run := { a.run with types := types } }
      else
        let left := (s.batten.tiles[t]).reed.left (s.bundleBlocks p m pd d.unit)
        let segs := (left.map (· / 16)).eraseDups
        segs.foldl (fun (acc : State × List KRes) seg =>
          acc.1.scanAll t acc.2 d.planSlot p m pd seg ((left.filter fun k => k / 16 == seg).map (· % 16))) (s, kernels)
    (s.feed t kernels fun c ops a =>
      let a := { a with run := { a.run with failed := a.run.failed.or (a.s.batten.tiles[t]).reed.failed } }
      flushOps c ops a).1

end Sys2Proof.Machine
end

