-- ==== Sys2Proof/Machine/PlanEnd.lean ====
section
/-! DEFINITION. How plans end (chapter 05): bundles purged (R306), resources returned (R174), the completion of a RUN_PLAN
(R522, R528), the output of a bundle put in effect (R185), and the admission of waiting plans (R177). -/

namespace Sys2Proof.Machine

/-! Purging (R306). -/

/-- Leases of a bundle off the tiles returned, its banks cleared. -/
def State.dropLeases (s : State) (r : ReadyB) : State :=
  let banks := (r.saved.map (·.1.leased)).getD []
  banks.foldl (fun s b => s.clearBank (Fin.ofNat 8 b)) (s.dropHip r.desc)

/-- Every ready and pre-empted bundle that a test names removed, with a done record of ABORTED_RESET each; a bundle on a
tile runs on to its boundary, and its output will be discarded. -/
def State.purge (s : State) (which : BDesc → Bool) : State :=
  let gone := s.batten.ready.filter fun r => which r.desc
  let s := s.modBatten fun b => { b with ready := b.ready.filter fun r => !which r.desc }
  let s := gone.foldl (fun s r =>
    let s := ((s.dropLeases r).doneRecord r.desc 0 stAbortReset).discardRegion r.desc false
    (s.trace 12 0 r.desc stAbortReset false).syncSlot r.desc.planSlot) s
  s.modBatten fun b => { b with tiles := b.tiles.map fun y => if y.desc.any which then { y with purged := true } else y }

/-- A tile holds a bundle of a plan slot. -/
def State.slotOnTile (s : State) (slot : Nat) : Bool := s.batten.tiles.toList.any fun y => y.desc.any fun d => d.planSlot == slot

/-! Resources. -/

/-- A plan's snapshot is released; retired segments and old open forms go (R31). -/
def State.releaseSnap (s : State) (slot : Nat) : State :=
  let tables := (((s.plan slot).map fun p => p.snapshot.map (·.table)).getD []).eraseDups
  tables.foldl (fun s t => s.freeSegs t) (s.modPlan slot fun p => { p with snapshot := [] })

/-- A plan's resources return to their pools: banks cleared, channels, result-area claim, plan slot (R174, R217). -/
def State.releasePlan (s : State) (slot : Nat) : State :=
  match s.plan slot with
  | none => s
  | some p =>
    let s := p.banks.foldl (fun s b =>
      let b : Fin 8 := Fin.ofNat 8 b
      if (s.purlin.banks[b]).role == .planRole then (s.clearBank b).setBank b .free 0 false 0xFF else s) (s.releaseSnap slot)
    let s := if p.banks.any fun b => bitAt (s.cfg 0x1840 1 3) b then s.loadMapBanks else s
    let s := s.modYelm fun y => { y with claims := ndel y.claims slot }
    let s := p.channels.foldl (fun s c => s.modChan (Fin.ofNat 32 c) fun x => { x with use := .free }) s
    let s := s.modInst (Fin.ofNat 64 p.inst) fun x =>
      { x with resets := x.resets.filter fun r => r.held || r.offset != p.resultOffset }
    let s := s.modBatten fun b => { b with slots := ndel b.slots slot }
    s.modPlans fun ps => { ps with plans := ndel ps.plans slot }

/-- A RUN_PLAN ends: its details, its result set where it succeeded, and its record (R187, R522, R528). -/
def State.completePlan (s : State) (slot status : Nat) : State :=
  match s.plan slot with
  | none => s
  | some p =>
    let i := Fin.ofNat 64 p.inst
    let bytes := p.results.flatten
    let ok := status == 0
    let toHost := p.resultAddr != 0
    let s := s.setDetails i p.receipt bytes.length (if !ok then 0 else if toHost then 2 ^ 64 - 1 else p.resultOffset) p.resultRows
      (p.nulled % 2 ^ 32 + p.reruns % 2 ^ 32 * 2 ^ 32)
    let s := s.modCmd i p.receipt fun c => { c with energy := c.energy + p.energy, planId := imgPlanId p.image }
    let s := s.releasePlan slot
    let s := if ok && !toHost then
        s.modInst i fun x => { x with resets := x.resets ++ [⟨p.resultOffset, bytes.length, true⟩], area := memPutBytes x.area p.resultOffset bytes }
      else s
    s.completeWith i p.receipt status false (if ok && toHost then bytes else []) p.resultAddr

/-! A bundle's output in effect (R185). -/

/-- Buffers with a bundle's rows added. -/
def mergeBuffers (a : List BufRows) (b : List BufRows) : List BufRows :=
  b.foldl (fun l x =>
    match l.findIdx? fun y => y.buffer == x.buffer && y.part == x.part with
    | some i => lmod l i fun y => { y with rows := y.rows ++ x.rows }
    | none => l ++ [x]) a

/-- Every buffer within its BYTES, a divided hash table in each of its sub-tables (R189, R241, R250, R696). [log 44 DEDUCED] -/
def buffersFit (m : PImg) (bufs : NMap BufInfo) (l : List BufRows) : Bool :=
  ((List.range m.bufs.length).zip m.bufs).all fun (k, b) =>
    let parts := ((nget bufs k).map (·.parts)).getD 0
    let mine := l.filter fun r => r.buffer == k
    if b.kind == 1 && parts != 0 then
      (mine.map (·.part)).eraseDups.all fun p => bufUsed b parts (mine.filter fun r => r.part == p) ≤ b.bytes / parts
    else bufUsed b parts mine ≤ b.bytes

/-- A row in R250's layout: its values in slot order, a STR or BYTES value after its length, then a validity byte a slot; bytes that hold no
value are free. [log 213 DESIGN CHOICE] -/
def rowImage (ctr : Nat) (tys : List STy) (vals : List Val) : Bytes :=
  let pad := fun (k n : Nat) => (List.range n).map fun i => Config.freeByte ctr (65536 * k + i)
  let cells := ((List.range tys.length).zip (tys.zip vals)).flatMap fun (k, t, v) =>
    match v with
    | .null => pad k (slotBytes t)
    | .num x => toLE (slotBytes t) x
    | .str b => toLE 4 b.length ++ b ++ pad k (t.maxLen - b.length)
  let all := cells ++ vals.map fun v => if v == .null then 0 else 1
  all ++ pad tys.length (bufRowBytes tys - all.length)

/-- A bundle's rows for buffers of KIND rows and sorted runs written after those that stand there (R185, R250, R696). -/
def State.storeRows (s : State) (m : PImg) (p : Plan) (new : List BufRows) : State :=
  (new.foldl (fun (acc : List BufRows × State) r =>
    let b := m.bufs.getD r.buffer ⟨0, 0, 0⟩
    let tys := r.tys.map tripleTy
    let at' := p.bufAt.getD r.buffer 0 + bufUsed b 0 (acc.1.filter fun x => x.buffer == r.buffer)
    let s := if b.kind == 0 || b.kind == 3 then
        (acc.2.modFreeCtr (· + r.rows.length)).sysWrite at'
          (((List.range r.rows.length).zip r.rows).flatMap fun (i, v) => rowImage (acc.2.freeCtr + i) tys v)
      else acc.2
    (acc.1 ++ [r], s)) (p.buffers, s)).2

/-- A bundle's output takes effect, or the code with which the plan must end (R185, R189). [log 44 DEDUCED] -/
def State.commitBundle (s : State) (t : TileId) : Option Nat × State :=
  match s.bundleOf t with
  | none => (none, s)
  | some (d, p, m, _) =>
    let run := (s.batten.tiles[t]).run
    let bufs := mergeBuffers p.buffers run.buffers
    let old := (p.results.map (·.length)).sum
    let new := run.results.flatten
    let walk := walkOf (s.checkEnv true m) p.image
    if p.claims.resultBytes < old + new.length || !buffersFit m walk.bufs bufs then (some stQuota, s)
    else
      let s := (s.storeRows m p run.buffers).modPlan d.planSlot fun p =>
        { p with buffers := bufs, results := p.results ++ run.results, resultRows := p.resultRows + run.resultRows,
                 nulled := p.nulled + run.nulled }
      let s := if p.query.isSome then s else
        s.modInst (Fin.ofNat 64 p.inst) fun x => { x with area := memPutBytes x.area (p.resultOffset + old) new }
      (none, s.bump 0x2080 8 run.nulled)

/-- A bundle leaves the plan's list of those running; the pipeline may be complete. -/
def State.unitDone (s : State) (d : BDesc) : State :=
  (s.discardRegion d false).modPlan d.planSlot fun p =>
    { p with pipes := lmod p.pipes d.pipeline fun g =>
        let running := g.running.filter (· != d.unit)
        { g with running := running, complete := running.isEmpty && g.toForm.isEmpty } }

/-- Every pipeline of a plan is complete. -/
def Plan.allDone (p : Plan) : Bool := p.pipes.all (·.complete)

end Sys2Proof.Machine
end

