-- ==== Sys2Proof/Machine/Query.lean ====
section
/-! DEFINITION. Continuous queries (chapter 08): registration, windows, firings, late rows, delivery; and how a plan or a
firing is started, ends, or is stopped. -/

namespace Sys2Proof.Machine

/-! The query descriptor (R261). -/

/-- What a query descriptor says. -/
structure QDesc where
  imageAddr : Nat
  imageBytes : Nat
  hold : Nat
  start : Nat
  amend : Nat
  vector : Nat
  onKeep : Bool
  ringAddr : Nat
  ringBytes : Nat
  indexAddr : Nat
  params : List Nat
deriving DecidableEq, Repr

/-- A descriptor read. -/
def QDesc.parse (b : Bytes) : QDesc :=
  { imageAddr := fieldAt 0 8 b, imageBytes := fieldAt 8 4 b, hold := fieldAt 12 4 b, start := fieldAt 16 8 b,
    amend := fieldAt 24 1 b, vector := fieldAt 25 1 b, onKeep := bitAt (fieldAt 26 1 b) 0, ringAddr := fieldAt 32 8 b,
    ringBytes := fieldAt 40 4 b, indexAddr := fieldAt 48 8 b, params := (List.range 16).map fun k => fieldAt (128 + 8 * k) 8 b }

/-- A ring's address, size, index and vector are within R261. -/
def QDesc.ringOk (d : QDesc) : Bool :=
  d.ringAddr % 4096 == 0 && d.indexAddr % 16 == 0 && 65536 ≤ d.ringBytes && d.ringBytes ≤ 2 ^ 30
    && 2 ^ (bitLen d.ringBytes - 1) == d.ringBytes && d.vector < 32

/-- The ranges and reserved fields of R261. -/
def queryDescOk (b : Bytes) : Bool :=
  let d := QDesc.parse b
  d.imageAddr % 64 == 0 && d.hold ≤ 1000000 && d.amend ≤ 16 && d.ringOk && fieldAt 26 1 b < 2 && fieldAt 27 5 b == 0
    && fieldAt 44 4 b == 0 && fieldAt 56 72 b == 0

/-- A RETARGET_QUERY descriptor: only the ring's four fields are not zero (R261). -/
def retargetDescOk (b : Bytes) : Bool :=
  (QDesc.parse b).ringOk && fieldAt 0 25 b == 0 && fieldAt 26 6 b == 0 && fieldAt 44 4 b == 0 && fieldAt 56 200 b == 0

/-! Windows (R265 to R270). -/

/-- A word of the WINDOW operator. -/
def Query.word (q : Query) (k : Nat) : Nat := q.w.getD k 0
/-- DOMAIN: 0 TIME, 1 CYCLE, 2 DIST. -/
def Query.domain (q : Query) : Nat := bitsOf (q.word 0) 17 16
/-- SHAPE: 0 tumbling, 1 sliding, 2 session. -/
def Query.shape (q : Query) : Nat := bitsOf (q.word 0) 19 18
/-- EMIT_EMPTY. [log 52 DEDUCED] -/
def Query.emitEmpty (q : Query) : Bool := bitAt (q.word 0) 23
/-- AMEND. -/
def Query.amend (q : Query) : Bool := bitAt (q.word 0) 24
/-- SLIDE, that of a tumbling window its SIZE (R269). -/
def Query.slide (q : Query) : Nat := if q.shape == 0 then q.word 2 else q.word 3

/-- D_END of window j (R269). -/
def Query.endOf (q : Query) (j : Nat) : Nat := q.word 4 + j * q.slide
/-- The least window whose start is at least a value (R269). -/
def firstWindow (w : List Nat) (shape start : Nat) : Nat :=
  let size := w.getD 2 0
  let slide := if shape == 0 then size else w.getD 3 0
  if slide == 0 then 0 else ceilDiv (start + size - w.getD 4 0) slide

/-- The domain value now: TS64, RAFT32 or DIST48 in mm. -/
def State.domainNow (s : State) (dom : Nat) : Nat :=
  match dom with
  | 0 => s.time.ts
  | 1 => s.time.raft
  | _ => s.time.dist / 65536

/-- t(e) of a domain value, by the ticks issued; a value not reached yet stands at the last tick (R268). -/
def State.edgeTs (s : State) (dom e : Nat) : Nat :=
  if dom == 0 then e else
  let ticks := s.batten.axis.reverse
  let hit := ticks.find? fun k => e ≤ (if dom == 1 then k.raft else k.dist)
  (hit.map (·.ts)).getD ((s.batten.lastTick.map (·.ts)).getD s.time.ts)

/-- v(r) of a TS64, by the ticks issued (R268). -/
def State.domainAt (s : State) (dom ts : Nat) : Nat :=
  if dom == 0 then ts else
  match s.batten.axis.find? fun k => k.ts ≤ ts with
  | some k => if dom == 1 then k.raft else k.dist
  | none => 0

/-- Window j with its bounds (R269). [log 48 DEDUCED] -/
def State.windowOf (s : State) (q : Query) (j : Nat) : Window :=
  let e := q.endOf j
  let b := e - q.word 2
  ⟨j, b, e, s.edgeTs q.domain b, s.edgeTs q.domain e⟩

/-- The value at which an open session closes (R270). -/
def Query.closes (q : Query) (x : Session) : Nat := min (x.vLast + q.word 2) (x.vFirst + q.word 4)

/-- One query changed. -/
def State.modQuery (s : State) (cq : Nat) (f : Query → Query) : State :=
  s.modBatten fun b => { b with queries := nmod b.queries cq f }

/-- The query of a CQ_ID. -/
def State.query (s : State) (cq : Nat) : Option Query := nget s.batten.queries cq

/-! Delay lists (R311 to R313). -/

/-- The lowest free entry number of a list (R312). -/
def freeEntry (l : NMap DEntry) : Option Nat := (List.range 1024).find? fun k => (nget l k).isNone

/-- The list an entry stands on: the distance list, or the time list. -/
def DEntry.onDist (e : DEntry) : Bool := e.form == 1

/-- An entry inserted into its list: its number; where the list is full nothing is placed, and that is counted (R312, R320). [log 214 DEDUCED] -/
def State.delayInsert (s : State) (e : DEntry) : Option Nat × State :=
  let l := if e.onDist then s.batten.distList else s.batten.timeList
  match freeEntry l with
  | none => (none, s.bump 0x2022 2 1)
  | some k => (some k, s.modBatten fun b =>
      if e.onDist then { b with distList := nput b.distList k e } else { b with timeList := nput b.timeList k e })

/-- Entries of a query's firings removed from both lists. -/
def State.delayDrop (s : State) (cq : Nat) : State :=
  s.modBatten fun b =>
    { b with timeList := b.timeList.filter fun e => !(e.2.kind == 0 && e.2.owner == cq)
             distList := b.distList.filter fun e => !(e.2.kind == 0 && e.2.owner == cq) }

/-- A DUE that no tick reaches: a session query's entry while no session is open. [log 51 DEDUCED] -/
def neverDue : Nat := 2 ^ 64 - 1

/-- A query's entry for a due value of its domain (R271). [log 51 DEDUCED] -/
def Query.entry (q : Query) (due step : Nat) (flat : Bool) : DEntry :=
  let form := if q.domain == 2 then 1 else if q.domain == 1 then 2 else 0
  let hold := 1000 * q.hold
  { due := if form == 0 && due != neverDue then due + hold else due, step := step, form := form, flat := flat, cycle := form == 2,
    kind := 0, owner := 0, holdNs := if form == 0 then 0 else hold, origDue := due }

/-- A query's courses of pipeline 0 are all at Flat pitch. -/
def State.queryFlat (s : State) (cq : Nat) : Bool :=
  ((nget s.batten.templates (cq * 16)).map fun d => s.flatOf d.courses).getD false

/-- Distance entries fall due only while MM_PER_TICK is not 0 (R59, R313). -/
def State.distRuns (s : State) : Bool := s.cfg 0x0404 1 0 != 0

/-- A CYCLE or distance entry whose edge is reached, as a time due: that of a query stands HOLD after the TS64 of its edge, whenever it
was inserted or moved (R272); that of a timer turns at the tick that meets it (R313). [log 214 DEDUCED] -/
def State.turned (s : State) (k : Tick) (e : DEntry) : Option DEntry :=
  if e.due == neverDue || e.form == 0 then none
  else if e.form == 2 then
    if !e.cycle then none
    else if e.kind == 0 && e.due ≤ k.raft then some { e with due := s.edgeTs 1 e.due + e.holdNs, cycle := false }
    else if k.index == 0 && e.due == k.raft then some { e with due := k.ts + e.holdNs, cycle := false }
    else none
  else if k.dist < e.due || !s.distRuns then none
  else some { e with due := (if e.kind == 0 then s.edgeTs 2 e.due else k.ts) + e.holdNs }

/-- An entry on the lowest free place of the time list. -/
def State.timeInsert (s : State) (e : DEntry) : Option State :=
  (freeEntry s.batten.timeList).map fun n => s.modBatten fun b => { b with timeList := nput b.timeList n e }

/-- The query's entry placed anew, where its list has room (R271, R320). -/
def State.armQuery (s : State) (cq : Nat) (q : Query) (due step : Nat) : State :=
  let s := s.delayDrop cq
  let e : DEntry := { q.entry due step (s.queryFlat cq) with owner := cq }
  let (ok, s) := match (s.batten.lastTick.bind fun k => s.turned k e).bind s.timeInsert with
    | some s => (true, s)
    | none => let (n, s) := s.delayInsert e; (n.isSome, s)
  s.modQuery cq fun q => { q with toArm := !ok }

/-! Rows made visible (R270, R279). -/

/-- A released row extends the last session of a query that its domain value has not closed, or opens the next one (R270); the operand is
the TS64 at which it became visible. -/
def State.sessionRow (s : State) (cq : Nat) (r : SRow) (seen : Nat) : State :=
  match s.query cq with
  | none => s
  | some q =>
    if q.shape != 2 then s else
    let v := s.domainAt q.domain r.stamp.ts
    let opened := s.modQuery cq fun q =>
      { q with sessions := q.sessions ++ [⟨q.nextSession, v, v, r.stamp.ts⟩], nextSession := q.nextSession + 1 }
    match q.sessions.getLast? with
    | some x =>
      if q.closes x ≤ v then opened
      else if v < x.vFirst || q.closes x ≤ s.domainAt q.domain seen then s
      else s.modQuery cq fun q => { q with sessions := q.sessions.dropLast ++ [{ x with vLast := max x.vLast v }] }
    | none => if v < q.lastEnd then s else opened

/-- A row lies in a window (R268). -/
def Window.holds (w : Window) (r : SRow) : Bool := w.tStart ≤ r.stamp.ts && r.stamp.ts < w.tEnd

/-- A row made visible in a window already fired marks it dirty, or is counted as lost (R279). -/
def State.lateRowIn (s : State) (cq : Nat) (w : Window) : State :=
  match s.query cq with
  | none => s
  | some q =>
    if q.amend && (keepLast q.amendWindows q.fired).contains w then
      s.modQuery cq fun q =>
        { q with dirty := match q.dirty.findIdx? fun d => d.1.no == w.no with
            | some k => lmod q.dirty k fun d => (d.1, d.2 + 1)
            | none => q.dirty ++ [(w, 1)] }
    else s.bump 0x2100 6 1

/-- A row made visible is late for each window of a query that has fired and holds it (R279). -/
def State.lateRow (s : State) (cq : Nat) (r : SRow) : State :=
  match s.query cq with
  | none => s
  | some q => (q.fired.filter (·.holds r)).foldl (fun s w => s.lateRowIn cq w) s

/-- Rows made visible and not taken up yet reach the queries that read their tables. -/
def State.takeFresh (s : State) : State :=
  let l := s.batten.fresh.filter fun x => !x.taken
  let s := s.modBatten fun b => { b with fresh := b.fresh.map fun x => { x with taken := true } }
  l.foldl (fun s x => s.batten.queries.foldl (fun s q =>
    if q.2.table != x.table then s else (s.lateRow q.1 x.row).sessionRow q.1 x.row x.at') s) s

/-- Tables a query's image reads. -/
def State.queryTables (s : State) (q : Query) : List Nat :=
  ((s.plan q.planSlot).map fun p => (parseImage p.image).trefs.map (·.id)).getD []

/-- The late rows that make a window dirty before its AMEND firing dispatches join that firing, which reads the window afresh with them
(R279, R280). -/
def State.joinLate (s : State) (cq k : Nat) : State :=
  match s.query cq with
  | none => s
  | some q =>
    match q.firings[k]?.bind fun f => (q.dirty.find? fun d => d.1.no == f.window.no).map (·.2) with
    | none => s
    | some n =>
      let snap := s.snapNow (s.queryTables q)
      s.modQuery cq fun q =>
        let no := ((q.firings[k]?).map (·.window.no)).getD 0
        { q with dirty := q.dirty.filter fun d => d.1.no != no
                 firings := lmod q.firings k fun f => { f with lateRows := f.lateRows + n, snapshot := snap } }

/-- A window turns out to hold no selected row: it has not fired after all, and nothing amends it (R276). -/
def State.windowEmpty (s : State) (cq k : Nat) : State :=
  let s := s.modQuery cq fun q =>
    match q.firings[k]? with
    | none => q
    | some f =>
      { q with firings := (q.firings.eraseIdx k).filter fun g => f.amend || !(g.amend && g.phase == .due && g.window.no == f.window.no)
               fired := if f.amend then q.fired else q.fired.filter fun w => w.no != f.window.no
               dirty := if f.amend then q.dirty else q.dirty.filter fun d => d.1.no != f.window.no }
  s.bump 0x2100 5 1

/-! A firing starts and ends. -/

/-- The plan of a query as a firing begins: nothing computed, its build banks cleared. -/
def State.freshRun (s : State) (slot : Nat) (snap : List SnapSeg) : State :=
  match s.plan slot with
  | none => s
  | some p =>
    let s := (p.buildBanks.flatMap (·.2)).foldl (fun s b => s.clearBank (Fin.ofNat 8 b)) s
    s.modPlan slot fun p =>
      { p with snapshot := snap, pipes := p.pipes.map fun _ => .fresh, buffers := [], results := [], resultRows := 0, nulled := 0,
               reruns := 0, energy := 0, ended := none }

/-- Bundles of a firing placed from the templates, one for each ready pipeline (R314); a full descriptor store takes none, which is counted,
and they are placed at a later tick (R294, R320). -/
def State.placeFiring (s : State) (cq slot : Nat) (f : Firing) : State :=
  match s.plan slot with
  | none => s
  | some p =>
    if p.ended.isSome then s else
    ((List.range p.pipes.length).zip p.pipes).foldl (fun s (x : Nat × PipeProg) =>
      match x.2.toForm, nget s.batten.templates (cq * 16 + x.1) with
      | (unit, _) :: _, some d =>
        if 32768 ≤ s.heldDescs then s.bump 0x2022 2 1 else
        let s := s.placeBundle { d with unit := unit, attempt := 0, exclude := none } f.stamp.ts none none
        s.modPlan slot fun p => { p with pipes := lmod p.pipes x.1 fun g => { g with toForm := [], running := [unit] } }
      | _, _ => s) s

/-- Pipelines of a firing that have become ready are placed. -/
def State.advanceFiring (s : State) (slot : Nat) : State :=
  match s.plan slot with
  | none => s
  | some p =>
    match p.query, s.firingOf p with
    | some cq, some f => (s.readyAll slot (some f.window.no)).placeFiring cq slot f
    | _, _ => s

/-- A firing's window holds a selected row (R276). -/
def State.windowHit (s : State) (slot : Nat) : Bool :=
  match s.plan slot with
  | none => false
  | some p =>
    let m := parseImage p.image
    match m.pipes[0]? with
    | none => false
    | some pd =>
      let sp := s.scanSpec p m (m.source pd)
      (s.srcSegs p m pd).any fun x =>
        match s.segView x with
        | none => false
        | some v =>
          (v.scan sp true (List.range (ceilDiv x.rows 4096))).any fun (y : ScanStep) => y.fail.isSome || !y.batches.isEmpty

/-- A query goes, with its templates, its entry and its claim (R263, R284). -/
def State.removeQuery (s : State) (cq : Nat) : State :=
  match s.query cq with
  | none => s
  | some q =>
    let s := (s.delayDrop cq).modBatten fun b =>
      { b with queries := ndel b.queries cq, templates := b.templates.filter fun d => d.1 / 16 != cq }
    s.releasePlan q.planSlot

/-- A query that is to be removed goes once nothing of it is dispatched or undelivered, the firing of its open window at Keep entry among
that; before it goes its last record, where it is to have one, takes its place (R284, R285). After an instance reset no record is delivered. -/
def State.settleRemoval (s : State) (cq : Nat) : State :=
  match s.query cq with
  | none => s
  | some q =>
    match q.removing with
    | none => s
    | some st =>
      let stays := fun (f : Firing) => f.phase != .due || f.partialRec
      let s := s.modQuery cq fun q => { q with firings := q.firings.filter stays }
      let left := q.firings.filter stays
      if left.any fun f => f.phase != .complete then s
      else if st == stAbortReset then s.removeQuery cq
      else if st != 0 then
        let (stamp, s) := s.stamp srcBatten
        let w : Window := (q.fired.getLast?).getD ⟨0, 0, 0, 0, 0⟩
        let f : Firing :=
          { window := w, stamp := stamp, snapshot := [], phase := .complete, status := st, amend := false, lateRows := 0,
            partialRec := false, catchUp := false, skippedBefore := 0, results := [], rows := 0, energy := 0 }
        s.modQuery cq fun q => { q with firings := q.firings ++ [f], removing := some 0 }
      else if left.isEmpty then s.removeQuery cq
      else s

/-- Firings due wait while new Ridge firmware is being activated (R284). [log 214 DEDUCED] -/
def State.firingsWait (s : State) : Bool := s.boot.activating.any (·.1 == 1)

/-- The oldest firing of a query not yet run begins, where none runs (R274, R276, R280); of a query that is to be removed, only the firing
of its open window at Keep entry does (R284). -/
def State.startFiring (cq : Nat) : Nat → State → State
  | 0, s => s
  | n + 1, s =>
    match s.query cq with
    | none => s
    | some q =>
      if s.firingsWait || q.firings.any (fun f => f.phase == .running) then s else
      match q.firings.findIdx? fun f => f.phase == .due && (q.removing.isNone || f.partialRec) with
      | none => s
      | some k =>
        let amends := (q.firings[k]?).any (·.amend)
        let s := if amends then s.takeFresh.joinLate cq k else s
        let s := s.modQuery cq fun q => { q with firings := lmod q.firings k fun f => { f with phase := .running } }
        match (s.query cq).bind fun q => q.firings[k]? with
        | none => s
        | some f =>
          let s := s.freshRun q.planSlot f.snapshot
          if !q.emitEmpty && !s.windowHit q.planSlot then
            State.startFiring cq n (((s.windowEmpty cq k).releaseSnap q.planSlot).settleRemoval cq)
          else
            let s := s.modQuery cq fun q => { q with lastWindow := if f.amend then q.lastWindow else f.window.no }
            s.advanceFiring q.planSlot

/-- A query's next firing begins if it may, and the Batten chooses. [log 47 DEDUCED] -/
def State.runQuery (s : State) (cq : Nat) : State :=
  (State.startFiring cq ((((s.query cq).map fun q => q.firings.length).getD 0) + 1) s).pumpPlans

/-- A running firing ends (R279, R287, R288): its record waits for delivery, and the next firing begins. -/
def State.firingEnds (s : State) (cq slot status : Nat) : State :=
  match s.plan slot, s.query cq with
  | some p, some q =>
    let fault := status == stTileFault || status == stStackLimit
    let again := fault && q.faultStreak
    let s := s.modQuery cq fun q =>
      { q with faultStreak := fault, removing := if again then q.removing.or (some 0) else q.removing,
               firings := q.firings.map fun f => if f.phase != .running then f else
                 { f with phase := .complete, status := if status != 0 then status else if f.amend then stAmend else 0,
                          results := if status == 0 then p.results else [], rows := if status == 0 then p.resultRows else 0,
                          energy := p.energy.floor.toNat, snapshot := [] } }
    ((s.releaseSnap slot).settleRemoval cq).runQuery cq
  | _, _ => s

/-- A plan or firing whose bundles have all ended, or that ended with a code and has no bundle on a tile, is over. -/
def State.finishJob (s : State) (slot : Nat) : State :=
  match s.plan slot with
  | none => s
  | some p =>
    let ends : Option Nat := match p.ended with
      | some code => if s.slotOnTile slot then none else some code
      | none => if p.allDone then some 0 else none
    match ends with
    | none => s
    | some code =>
      match p.query with
      | some cq => if (s.firingOf p).isSome then s.firingEnds cq slot code else s
      | none => s.completePlan slot code

/-- A plan or firing ends with a failure code (R187): bundles not dispatched are discarded, running ones stop at their
boundary. [log 48 DEDUCED] -/
def State.endPlan (s : State) (slot code : Nat) : State :=
  match s.plan slot with
  | none => s
  | some p =>
    if p.ended.isSome then s else
    let s := s.modPlan slot fun p => { p with ended := some code, pipes := p.pipes.map fun g => { g with toForm := [] } }
    ((s.purge fun d => d.planSlot == slot).finishJob slot).pumpPlans

/-- A RUN_PLAN accepted: allotments, snapshot, first bundles (R178, R182), and its end where it forms no bundle (R187). [log 36 DESIGN CHOICE, 45 DESIGN CHOICE] -/
def State.acceptPlan (s : State) (i : InstId) (c : Cmd) : State :=
  let (slot, s) := s.allot i c c.data c.params none
  let m := parseImage c.data
  let snap := s.snapNow (m.trefs.map (·.id))
  let s := (s.modPlan slot fun p => { p with snapshot := snap }).journalWith 2 c.receipt slot snap
  let s := s.modCmd i c.receipt fun x => { x with stage := .running, planSlot := some slot }
  ((s.readyAll slot none).formAll slot).finishJob slot

/-! Registration (R262, R263). -/

/-- The lowest CQ_ID that no query holds. -/
def State.freeCq (s : State) : Option Nat := (List.range 256).find? fun k => (s.query k).isNone

/-- The CQ_ID of the next query of an instance, where the device and the instance's quota have room for it (R262). -/
def State.queryRoom (s : State) (i : InstId) : Option Nat :=
  if s.quota i 11 8 ≤ s.batten.queries.countP (fun q => q.2.inst == i.val) then none else s.freeCq

/-- The limits of R262 at check 11. [log 46 DEDUCED] -/
def State.queryLimit (s : State) (i : InstId) (desc img : Bytes) : Option Nat :=
  let d := QDesc.parse desc
  let m := parseImage img
  let x := m.source (m.pipes.getD 0 ⟨0, 0, 0, 0, 0, 0, 0⟩)
  if !queryDescOk desc || d.ringBytes / 2 < m.claims.resultBytes + 128 then some stBadArgument
  else if (s.queryRoom i).isNone then some stQuota
  else if bitsOf (x.p 0) 17 16 == 2 && d.start != 0 && d.start < s.domainNow 2 then some stBadArgument
  else none

/-- The firing templates of a query written by the active Ridge (R314). -/
def State.writeTemplates (s : State) (cq slot : Nat) : State :=
  match s.plan slot with
  | none => s
  | some p =>
    let m := parseImage p.image
    ((List.range m.pipes.length).zip m.pipes).foldl (fun s (x : Nat × PipeD) =>
      let d := { s.makeDesc slot p m x.1 x.2 0 0 0 0 true with depends := x.2.depends }
      (s.modFreeCtr (· + 2)).modBatten fun b => { b with templates := nput b.templates (cq * 16 + x.1) d }) s

/-- The rows of a table that a query reads as it is registered open and extend its sessions from START onwards (R270, R277). [log 214 DEDUCED] -/
def State.pastSessions (s : State) (cq table : Nat) : State :=
  let rows := (((s.table table).map (·.segs)).getD []).flatMap fun g => if g.state == .retired then [] else g.rows
  (sortBy (fun (a b : SRow) => a.stamp.lt b.stamp) rows).foldl (fun s r => s.sessionRow cq r r.stamp.ts) s

/-- The value its next entry stands at, and its STEP: the next window's end, or the closing value of its oldest session (R271). -/
def Query.nextEntry (q : Query) : Nat × Nat :=
  if q.shape == 2 then (((q.sessions.head?).map q.closes).getD neverDue, 0) else (q.endOf q.nextNo, q.slide)

/-- The query's entry at its next due edge (R271). -/
def State.armNext (s : State) (cq : Nat) : State :=
  match s.query cq with
  | none => s
  | some q => s.armQuery cq q q.nextEntry.1 q.nextEntry.2

/-- A REGISTER_QUERY accepted: claim, templates, first entry on its delay list, CQ_ID (R263, R269, R271). -/
def State.acceptQuery (s : State) (i : InstId) (c : Cmd) (cq : Nat) : State :=
  let desc := c.data.take 256
  let img := c.data.drop 256
  let d := QDesc.parse desc
  let (slot, s) := s.allot i c img d.params (some cq)
  let m := parseImage img
  let x := m.source (m.pipes.getD 0 ⟨0, 0, 0, 0, 0, 0, 0⟩)
  let w := (List.range 6).map x.p
  let dom := bitsOf (w.getD 0 0) 17 16
  let shape := bitsOf (w.getD 0 0) 19 18
  let now := s.domainNow dom
  let start := if d.start == 0 then now else d.start
  let first := if shape == 2 then 0 else firstWindow w shape start
  let q : Query :=
    { inst := i.val, receipt := c.receipt, planSlot := slot, hold := d.hold, start := start, amendWindows := d.amend,
      vector := d.vector, fireOnKeep := d.onKeep, ringAddr := d.ringAddr, ringBytes := d.ringBytes, indexAddr := d.indexAddr,
      w := w, table := ((m.trefs[w.getD 0 0 % 256]?).map (·.id)).getD 0, nextNo := first, sessions := [], nextSession := 0,
      lastEnd := start, fired := [], dirty := [], firings := [], produced := 0, skippedSince := 0, regTs := s.time.ts,
      faultStreak := false, removing := none, held := false, rebound := false, toArm := false, nFirings := 0, nAmends := 0, nSkipped := 0, lastWindow := 0 }
  let s := (s.modBatten fun b => { b with queries := nput b.queries cq q }).writeTemplates cq slot
  let s := (if shape == 2 then s.pastSessions cq q.table else s).armNext cq
  let s := s.setDetails i c.receipt cq 0 0 0
  let s := (s.modCmd i c.receipt fun c => { c with planId := imgPlanId img }).journal 7 c.receipt cq
  s.complete i c.receipt 0

/-! Admission (R177). -/

/-- Check 12 of R176 (R522). -/
def Cmd.spaceOk (c : Cmd) (m : PImg) : Bool :=
  if c.arg 3 == 0 then c.arg 4 == 0 else m.claims.resultBytes ≤ c.arg 4

/-- The image of a waiting RUN_PLAN or REGISTER_QUERY. -/
def Cmd.image (c : Cmd) : Bytes := if c.opcode == 0x38 then c.data.drop 256 else c.data

/-- Checks 9 to 12 of R176, with the limits of R262 for a registration. -/
def State.lateCheck (s : State) (i : InstId) (c : Cmd) : Option (Nat × Nat) :=
  match s.checkTables i c.image with
  | some x => some x
  | none =>
    if c.opcode == 0x38 then (s.queryLimit i (c.data.take 256) c.image).map fun code => (code, noOffset)
    else if c.spaceOk (parseImage c.image) then none else some (stBadArgument, noOffset)

/-- A waiting plan, or registration: once order lets it on it is checked, then accepted if resources let it and no earlier one of
its instance waits for them; the flag says that it goes on waiting for resources. One whose checks have passed waits without
refusal, a registration for a CQ_ID as well (R177, R263). [log 34 DEDUCED] -/
def State.tryAdmit (s : State) (behind : Bool) (i : InstId) (c : Cmd) : Bool × State :=
  if !s.inOrder i c then (false, s) else
  match if c.settled then none else s.lateCheck i c with
  | some (code, off) => (false, s.refusePlan i c.receipt code off)
  | none =>
    let waits := (true, s.modCmd i c.receipt fun c => { c with settled := true })
    if behind || !s.canAllot i (parseImage c.image).claims then waits
    else if c.opcode != 0x38 then (false, s.acceptPlan i c)
    else match s.queryRoom i with
      | some cq => (false, s.acceptQuery i c cq)
      | none => waits

/-- Waiting plans in submission order. [log 37 DEDUCED] -/
def State.waitingPlans (s : State) : List (InstId × Cmd) :=
  sortBy (fun (a b : InstId × Cmd) => a.2.receipt.lt b.2.receipt)
    ((List.finRange 64).flatMap fun i =>
      ((s.insts[i]).queue.filter fun c => c.isPlan && c.stage == .waiting).map fun c => (i, c))

/-- Waiting plans admitted in submission order: one that waits for resources holds back later ones of its instance. -/
def State.admitPlans (s : State) : State :=
  if !s.ridgeActs then s else
  (s.waitingPlans.foldl (fun (acc : State × List InstId) (x : InstId × Cmd) =>
    match acc.1.tryAdmit (acc.2.contains x.1) x.1 x.2 with
    | (true, s) => (s, x.1 :: acc.2)
    | (false, s) => (s, acc.2)) (s, [])).1

/-- Resources return, or order lets a plan on. -/
def execPlanAdmission (s : State) : Res := .next s.admitPlans

/-- A RUN_PLAN's image and parameter block have been read: checked, and accepted, left waiting, or refused (R176, R523). -/
def State.imageRead (s : State) (i : InstId) (seq : Nat) (image : Bytes) (params : Option (List Nat)) : State :=
  if !s.ridgeActs then s else
  match (s.insts[i]).queue.find? fun c => c.receipt.seq == seq && c.opcode == 0x30 && c.stage == .reading 0 with
  | none => s
  | some c =>
    let s := s.freeCmdTags i seq
    let declared := c.arg 1 % 2 ^ 32
    let ps := if c.arg 2 == 0 then some (List.replicate 16 0) else params
    let s := s.countHit i declared image
    match s.checkImage i declared false image ps.isSome with
    | some (code, off) => s.refusePlan i c.receipt code off
    | none =>
      let img := image.take declared
      let m := parseImage img
      (s.modCmd i c.receipt fun c =>
        { c with stage := .waiting, data := img, params := ps.getD [], reads := m.trefs.map (·.id), planId := imgPlanId img }).admitPlans

/-- The bytes of a plan image and of its parameter block arrive, as far as they do. -/
def execPlanImageRead (inst : InstId) (seq : Nat) (image : Bytes) (params : Option (List Nat)) (s : State) : Res :=
  .next (s.imageRead inst seq image params)

/-! Ticks (R268, R271, R273, R279, R313). -/

/-- The snapshot of a firing at the last tick: its latch (R273). -/
def State.firingSnap (s : State) (q : Query) : List SnapSeg :=
  let ts := s.queryTables q
  s.batten.latch.filter fun x => ts.contains x.table

/-- A firing of a query. -/
def Firing.due (w : Window) (stamp : Stamp) (snap : List SnapSeg) (amend catchUp part : Bool) (late : Nat) : Firing :=
  { window := w, stamp := stamp, snapshot := snap, phase := .due, status := 0, amend := amend, lateRows := late,
    partialRec := part, catchUp := catchUp, skippedBefore := 0, results := [], rows := 0, energy := 0 }

/-- A firing falls due at the last tick, whose TS64 the Batten stamps it with and whose latch it reads (R272, R273). From that tick on its
window counts as fired: a row that has become visible since is late for it (R279). [log 52 DEDUCED] -/
def State.pushFiring (s : State) (cq : Nat) (q : Query) (w : Window) (amend catchUp : Bool) (late : Nat) : State :=
  let ts := (s.batten.lastTick.map (·.ts)).getD s.time.ts
  let (stamp, s) := s.stampAt srcBatten ts
  let f := Firing.due w stamp (s.firingSnap q) amend catchUp false late
  let s := s.modQuery cq fun q => { q with firings := q.firings ++ [f], fired := if amend then q.fired else q.fired ++ [w] }
  if amend then s else
    (s.batten.fresh.filter fun x => x.taken && x.table == q.table && w.holds x.row).foldl (fun s _ => s.lateRowIn cq w) s

/-- Firings of a query that count towards R275: catch-up firings are exempt (R277). -/
def Query.outstanding (q : Query) : Nat := q.firings.countP fun f => !f.catchUp

/-- At a tick, rows that have become visible join the AMEND firings that wait, and dirty windows fire again while there is room for them
(R275, R279, R280). -/
def State.amendQuery (s : State) (cq : Nat) : State :=
  match s.query cq with
  | none => s
  | some q =>
    let waits := (List.range q.firings.length).filter fun k => (q.firings[k]?).any fun f => f.amend && f.phase == .due
    let s := waits.foldl (fun s k => s.joinLate cq k) s
    let dirty := ((s.query cq).map (·.dirty)).getD []
    let room := if q.removing.isSome then 0 else 4 - q.outstanding
    let now := dirty.take room
    let s := s.modQuery cq fun q => { q with dirty := q.dirty.drop room }
    let s := now.foldl (fun s d => s.pushFiring cq q d.1 true false d.2) s
    if now.isEmpty then s else s.runQuery cq

/-- A window lies wholly inside an interval stepped over: of TS64, or of cycles that RAFT32 passed over at a boundary (R278). -/
def State.inStep (s : State) (dom : Nat) (w : Window) : Bool :=
  match dom with
  | 0 => s.batten.stepOver.any fun x => x.1 ≤ w.tStart && w.tEnd ≤ x.2
  | 1 => (s.batten.axis.zip s.batten.axis.tail).any fun x => x.2.raft < w.dStart && w.dEnd ≤ x.1.raft
  | _ => false

/-- A window of a query falls due: fired, skipped, or passed over (R274, R275, R277, R278). -/
def State.windowDue (s : State) (cq : Nat) (w : Window) : State :=
  match s.query cq with
  | none => s
  | some q =>
    if q.removing.isSome || s.inStep q.domain w then s else
    let catchUp := w.tEnd + 1000 * q.hold ≤ q.regTs || q.firings.any fun f => f.catchUp && f.phase != .complete
    if !catchUp && 4 ≤ q.outstanding then
      (s.bump 0x2100 4 1).modQuery cq fun q => { q with skippedSince := q.skippedSince + 1, nSkipped := q.nSkipped + 1 }
    else (s.pushFiring cq q w false catchUp 0).runQuery cq

/-- The next window of a tumbling or sliding query falls due. -/
def State.nextWindow (s : State) (cq : Nat) : State :=
  match s.query cq with
  | none => s
  | some q =>
    let w := s.windowOf q q.nextNo
    (s.modQuery cq fun q => { q with nextNo := q.nextNo + 1 }).windowDue cq w

/-- The oldest session of a query closes and fires, once its domain value has reached the closing value (R270). -/
def State.closeSession (s : State) (cq : Nat) : State :=
  match s.query cq with
  | none => s
  | some q =>
    match q.sessions with
    | [] => s
    | x :: rest =>
      let e := q.closes x
      if s.domainNow q.domain < e then s else
      let w : Window := ⟨x.no, x.vFirst, e, x.tFirst, s.edgeTs q.domain e⟩
      (s.modQuery cq fun q => { q with sessions := rest, lastEnd := e }).windowDue cq w

/-- At a tick the active Ridge moves a session query's entry to the closing value of its oldest session, and places an entry that its full
list did not take (R271, R320). -/
def State.moveEntry (s : State) (cq : Nat) : State :=
  match s.query cq with
  | none => s
  | some q =>
    let due := q.nextEntry.1
    let same := (s.batten.timeList ++ s.batten.distList).any fun e => e.2.kind == 0 && e.2.owner == cq && e.2.origDue == due
    if !s.ridgeActs || q.removing.isSome || !(q.toArm || (q.shape == 2 && !q.sessions.isEmpty && !same)) then s
    else s.armNext cq

/-- Entries of the distance list that found it full on their return go back while it has room. [log 214 DEDUCED] -/
def State.returnEntries (s : State) : State :=
  (s.batten.timeList.filter fun e => e.2.form == 1 && e.2.due == neverDue).foldl (fun s e =>
    match freeEntry s.batten.distList with
    | none => s
    | some n => s.modBatten fun b =>
        { b with timeList := ndel b.timeList e.1, distList := nput b.distList n { e.2 with due := e.2.origDue } }) s

/-- CYCLE entries and distance entries whose edges are reached turn into time dues (R313). -/
def State.convertEntries (s : State) (k : Tick) : State :=
  let s := s.returnEntries
  let s := s.modBatten fun b => { b with timeList := b.timeList.map fun e =>
    (e.1, if e.2.form == 2 then (s.turned k e.2).getD e.2 else e.2) }
  s.batten.distList.foldl (fun s e =>
    match (s.turned k e.2).bind s.timeInsert with
    | none => s
    | some s => s.modBatten fun b => { b with distList := ndel b.distList e.1 }) s

/-- Bundles of a query's running firing that found the descriptor store full are placed (R320). -/
def State.placeLeft (s : State) (cq : Nat) : State :=
  match s.query cq with
  | none => s
  | some q =>
    match (s.plan q.planSlot).bind fun p => (s.firingOf p).map fun f => (p, f) with
    | some (p, f) => if p.pipes.any fun g => !g.toForm.isEmpty then s.placeFiring cq q.planSlot f else s
    | none => s

/-- A tick reaches the Batten: the axes of R268, late rows and sessions, the latch of R273, steps 1 and 2 of R313, and the
firings that a tick alone makes due. [log 50 DEDUCED] -/
def State.battenTick (s : State) (k : Tick) : State :=
  let last := s.batten.lastTick
  let moved : Bool := match last with
    | some l => l.raft != k.raft || l.dist != k.dist
    | none => true
  let s := s.takeFresh
  let s := s.modBatten fun b =>
    { b with lastTick := some k, axis := if moved then k :: b.axis else b.axis, fresh := [] }
  let snap := s.snapNow (s.tables.tables.map (·.1))
  let s := s.modBatten fun b => { b with latch := snap }
  let ids := s.batten.queries.map (·.1)
  let s := ids.foldl (fun s cq => s.moveEntry cq) s
  let s := s.convertEntries k
  let s := ids.foldl (fun s cq => s.amendQuery cq) s
  (ids.foldl (fun s cq => s.placeLeft cq) s).pumpPlans

/-- An entry is before another in the order of release (R313). -/
def releaseBefore (a b : Nat × DEntry) : Bool :=
  if a.2.flat != b.2.flat then a.2.flat
  else a.2.due < b.2.due || (a.2.due == b.2.due && a.1 < b.1)

/-- The time-list entry that the last tick releases next. [log 49 DEDUCED] -/
def State.dueEntry (s : State) : Option (Nat × DEntry) :=
  s.batten.lastTick.bind fun k =>
    (s.batten.timeList.filter fun e => !e.2.cycle && e.2.due ≤ k.ts).foldl (fun (best : Option (Nat × DEntry)) e =>
      match best with
      | none => some e
      | some b => if releaseBefore e b then some e else best) none

/-- An entry after its release: freed, or back in its original form a STEP later (R313). One that finds the distance list full waits for
room. [log 214 DEDUCED] -/
def State.rearm (s : State) (k : Nat) (e : DEntry) : State :=
  let s := s.modBatten fun b => { b with timeList := ndel b.timeList k }
  if e.step == 0 then s else
  let back : DEntry :=
    { e with due := (if e.form == 0 then e.due else e.origDue) + e.step, origDue := e.origDue + e.step, cycle := e.form == 2 }
  let put := fun (x : DEntry) => s.modBatten fun b => { b with timeList := nput b.timeList k x }
  match (if e.kind == 0 then s.batten.lastTick else none).bind fun t => s.turned t back with
  | some x => put x
  | none =>
    if e.form != 1 then put back
    else match s.delayInsert back with
      | (some _, s) => s
      | (none, _) => put { back with due := neverDue }

/-- The next due entry is released: its query's window falls due, or a firmware timer ends (R313, R314). [log 54 DEDUCED] -/
def State.releaseEntry (s : State) : State :=
  if !s.batten.enable then s else
  match s.dueEntry with
  | none => s
  | some (k, e) =>
    let s := ((s.bump 0x2022 7 1).trace 9 0 { BDesc.zero with unit := k, readyTs := e.due } 0 false).rearm k e
    if e.kind != 0 then s.journal 8 Stamp.zero e.owner else
    match s.query e.owner with
    | none => s
    | some q =>
      if q.shape == 2 then
        (s.closeSession e.owner).armNext e.owner
      else s.nextWindow e.owner

/-- A due delay-list entry is released. [log 49 DEDUCED] -/
def execDelayEntryRelease (s : State) : Res := .next s.releaseEntry

/-! Delivery (R281, R282, R289). -/

/-- The record of a firing: header, result batches, padding (R281). -/
def firingBytes (cq skipped : Nat) (f : Firing) : Bytes :=
  let body := f.results.flatten
  let head := toLE 4 0x45524946 ++ toLE 2 cq ++ toLE 2 f.status ++ toLE 8 f.window.no ++ toLE 8 f.window.tStart ++ toLE 8 f.window.tEnd
    ++ toLE 8 f.window.dStart ++ toLE 8 f.window.dEnd ++ f.stamp.bytes ++ toLE 4 f.rows ++ toLE 4 body.length ++ toLE 8 f.energy
    ++ toLE 4 (f.partialRec.toNat + 2 * f.catchUp.toNat) ++ toLE 4 f.lateRows ++ toLE 4 skipped ++ zeros 36
  pad64 (padTo 128 head ++ body)

/-- The function through which a query's instance reaches its host, where delivery may go on (R284, R289, R505, R543). -/
def State.queryFunc (s : State) (q : Query) : Option FuncId :=
  let x := s.insts[Fin.ofNat 64 q.inst]
  if x.state == .bound && !q.rebound then x.func.filter fun f => s.funcSends f else none

/-- The oldest complete firing of a query is written into its ring, where CONSUMED leaves room (R282): the record, then PRODUCED, then the
message, each once the read-back of the one before has returned. [log 55 DEDUCED, 201 DESIGN CHOICE] -/
def State.deliverFiring (s : State) (cq : Nat) (consumed : Option Nat) (answered : Nat) : State :=
  if !s.ridgeActs then s else
  match s.query cq with
  | none => s
  | some q =>
    match s.queryFunc q, q.firings.findIdx? fun f => f.phase == .complete with
    | some fn, some k =>
      match consumed with
      | none => (s.modQuery cq fun q => { q with held := true }).raise s.ridgeSrc
          { ErrRec.blank with code := stRevoked, severity := .contained, scope := 4, scopeId := q.inst, inst := q.inst }
      | some used =>
        match q.firings[k]? with
        | none => s
        | some f =>
          let bytes := firingBytes cq q.skippedSince f
          let at' := q.produced % q.ringBytes
          let tail := q.ringBytes - at'
          let fill := if at' + bytes.length ≤ q.ringBytes then 0 else tail
          if q.ringBytes < q.produced - used + fill + bytes.length then s
          else
            let s := if fill == 0 then s else
              s.hostWrite fn (q.ringAddr + at') (padTo 64 (toLE 4 0x44415046))
            let pos := if fill == 0 then at' else 0
            let s := (s.hostWrite fn (q.ringAddr + pos) bytes).readBack fn (q.ringAddr + pos) bytes.length
            if answered == 0 then s else
            let prod := q.produced + fill + bytes.length
            let s := (s.hostWrite fn (q.indexAddr + 8) (toLE 8 prod)).readBack fn (q.indexAddr + 8) 8
            if answered == 1 then s else
            let s := s.sendVector fn (Fin.ofNat 32 q.vector)
            let s := (s.bump 0x2100 2 1).bump 0x2100 3 f.amend.toNat
            let s := s.modInst (Fin.ofNat 64 q.inst) fun x => { x with energyTotal := x.energyTotal + f.energy }
            let s := s.modQuery cq fun q =>
              { q with firings := q.firings.eraseIdx k, produced := prod, skippedSince := 0, held := false, nFirings := q.nFirings + 1,
                       nAmends := q.nAmends + f.amend.toNat }
            (s.settleRemoval cq).runQuery cq
    | _, _ => s

/-- A firing record is delivered; the operands are CONSUMED as the Gutter reads it, none where the read or a write fails, and how many
of the two read-backs return. -/
def execFiringRecordDelivery (cq : Nat) (consumed : Option Nat) (answered : Nat) (s : State) : Res :=
  .next (s.deliverFiring cq consumed answered)

/-! Events around queries (R284, R285). -/

/-- A query's firings not dispatched are dropped and no later one dispatches; it goes when the dispatched ones are
delivered, with a last record of a status other than 0. [log 55 DEDUCED] -/
def State.retireQuery (s : State) (cq status : Nat) : State :=
  let s := s.modQuery cq fun q => if q.removing.isSome then q else { q with removing := some status, dirty := [] }
  (s.delayDrop cq).settleRemoval cq

/-- Queries that read a table are retired when it is dropped (R285). -/
def State.dropQueries (s : State) (table : Nat) : State :=
  (s.batten.queries.filter fun q => (s.queryTables q.2).contains table).foldl (fun s q => s.retireQuery q.1 stAbortCancel) s

/-- Queries of an instance removed at once, their firings dropped with no record (R284). -/
def State.resetQueries (s : State) (i : InstId) : State :=
  (s.batten.queries.filter fun q => q.2.inst == i.val).foldl (fun s q =>
    let slot := q.2.planSlot
    let s := s.modQuery q.1 fun q =>
      { q with removing := some stAbortReset, dirty := [], firings := q.firings.filter fun f => f.phase == .running }
    ((s.delayDrop q.1).endPlan slot stAbortReset).settleRemoval q.1) s

end Sys2Proof.Machine
end

