-- ==== Sys2Proof/Machine/BattenOps.lean ====
section
/-! DEFINITION. The commands of the Batten (chapter 09): submissions, delay entries, expiries, and how a tile's bundle is
acknowledged, yielded, ended, lost or re-run. -/

namespace Sys2Proof.Machine

/-! Submissions and delay entries (R292, R294, R306, R311, R312). -/

/-- BT_DESC is staged and submitted by the active Ridge. -/
def State.btSubmit (s : State) (desc : Bytes) : State :=
  if !s.ridgeActs then s else
  let (d, ok) := BDesc.parse (padTo 64 desc)
  let (st, s) := (s.modBatten fun b => { b with desc := padTo 64 desc }).submit d ok
  (s.modBatten fun b => { b with submitResult := st }).pumpPlans

/-- The active Ridge submits a bundle descriptor. -/
def execBtSubmit (desc : Bytes) (s : State) : Res := .next (s.btSubmit desc)

/-- Every bundle of an instance or plan slot is purged; a plan or firing that loses bundles ends with it (R306, R187). [log 67 DEDUCED] -/
def State.btPurge (s : State) (bySlot : Bool) (num : Nat) : State :=
  if !s.ridgeActs then s else
  let which := fun (d : BDesc) => if bySlot then d.planSlot == num else d.inst == num
  let slots := ((s.batten.ready.map (·.desc) ++ s.batten.tiles.toList.filterMap (·.desc)).filter which).map (·.planSlot)
  (slots.eraseDups.foldl (fun s k => s.endPlan k stAbortReset) (s.purge which)).pumpPlans

/-- BT_PURGE is written. -/
def execBtPurge (bySlot : Bool) (num : Nat) (s : State) : Res := .next (s.btPurge bySlot num)

/-- A delay entry read from 32 bytes (R311); none where it is malformed. -/
def DEntry.parse (b : Bytes) : Option DEntry :=
  let w := fieldAt 16 1 b
  let dist := bitAt w 0
  let cycle := bitAt w 2
  if 8 ≤ w || (dist && cycle) || 1 < fieldAt 17 1 b || fieldAt 24 8 b != 0 then none else
  some { due := fieldAt 0 8 b, step := fieldAt 8 8 b, form := if dist then 1 else if cycle then 2 else 0, flat := bitAt w 1,
         cycle := cycle, kind := fieldAt 17 1 b, owner := fieldAt 18 2 b, holdNs := fieldAt 20 4 b, origDue := fieldAt 0 8 b }

/-- BT_DELAY_RESULT. -/
def State.delayAnswer (s : State) (st entry : Nat) : State :=
  s.modBatten fun b => { b with delayResult := st, delayResultEntry := entry }

/-- An INSERT: the lowest free entry, BUSY, or BAD_ARGUMENT (R312, R320). -/
def State.delayInsertCmd (s : State) (entry : Bytes) : State :=
  if !s.ridgeActs then s else
  let s := s.modBatten fun b => { b with delayStage := padTo 32 entry }
  match DEntry.parse (padTo 32 entry) with
  | none => s.delayAnswer stBadArgument 0
  | some e =>
    match s.delayInsert e with
    | (some k, s) => s.delayAnswer 0 k
    | (none, s) => s.delayAnswer stBusy 0

/-- A delay entry is inserted. -/
def execDelayInsert (entry : Bytes) (s : State) : Res := .next (s.delayInsertCmd entry)

/-- The entry of a list. -/
def State.delayAt (s : State) (dist : Bool) (k : Nat) : Option DEntry := nget (if dist then s.batten.distList else s.batten.timeList) k

/-- A list changed. -/
def State.modDelay (s : State) (dist : Bool) (f : NMap DEntry → NMap DEntry) : State :=
  s.modBatten fun b => if dist then { b with distList := f b.distList } else { b with timeList := f b.timeList }

/-- A MOVE replaces DUE; of an entry turned into a time due, only that. -/
def State.delayMove (s : State) (dist : Bool) (k due : Nat) : State :=
  if !s.ridgeActs then s else
  match s.delayAt dist k with
  | none => s.delayAnswer stBadArgument k
  | some e =>
    let turned := !dist && ((e.form == 2 && !e.cycle) || e.form == 1)
    (s.modDelay dist fun l => nput l k { e with due := due, origDue := if turned then e.origDue else due }).delayAnswer 0 k

/-- A delay entry's DUE is replaced. -/
def execDelayMove (dist : Bool) (entry due : Nat) (s : State) : Res := .next (s.delayMove dist entry due)

/-- A REMOVE frees the entry. -/
def State.delayRemove (s : State) (dist : Bool) (k : Nat) : State :=
  if !s.ridgeActs then s else
  if (s.delayAt dist k).isNone then s.delayAnswer stBadArgument k
  else (s.modDelay dist fun l => ndel l k).delayAnswer 0 k

/-- A delay entry is freed. -/
def execDelayRemove (dist : Bool) (entry : Nat) (s : State) : Res := .next (s.delayRemove dist entry)

/-! Expiries of waiting bundles (R298, R302). -/

/-- Bundles that an IDLE tile leaves alone only for a reservation. -/
def State.reservedBundles (s : State) : List ReadyB :=
  s.batten.ready.filter fun r => r.desc.list != 0 && (List.finRange 64).any fun t =>
    s.tileFree t && s.eligible r t && s.reserved r t

/-- The oldest reservation expires; the Batten chooses again for IDLE tiles (R298). -/
def State.reservationExpiry (s : State) : State :=
  if !s.batten.enable then s else
  match oldest s.reservedBundles with
  | none => s
  | some r =>
    let s := s.advanceTo (r.desc.readyTs + 1000 * s.batten.affinityUs)
    ((s.bump 0x2022 5 1).trace 10 0 r.desc 0 false).pumpPlans

/-- The oldest affinity reservation expires. -/
def execReservationExpiry (s : State) : Res := .next s.reservationExpiry

/-- The oldest bundle that may yet pre-empt reaches PREEMPT_AFTER_US (R302). -/
def State.preemptAfter (s : State) : State :=
  if !s.batten.enable || !s.batten.prioPreempt then s else
  match oldest (s.batten.ready.filter fun r => !r.desc.flat && r.raised.isNone) with
  | none => s
  | some r => (s.advanceTo (r.desc.readyTs + 1000 * s.batten.preemptAfterUs)).pumpPlans

/-- A waiting bundle reaches PREEMPT_AFTER_US. -/
def execPreemptAfterExpiry (s : State) : Res := .next s.preemptAfter

/-! Bundles that must run again (R185, R256, R303, R305). -/

/-- A bundle that failed on a tile, its leases gone: placed again, or its plan ends with the code. -/
def State.bundleFails (s : State) (d : BDesc) (order code : Nat) (exclude : Option Nat) (purged : Bool) : State :=
  match s.plan d.planSlot with
  | none => if purged then s else s.placeRerun d order exclude
  | some p =>
    if purged || p.ended.isSome then (s.unitDone d).finishJob d.planSlot
    else if s.cfg 0x2080 2 2 ≤ d.attempt then (s.unitDone d).endPlan d.planSlot code
    else
      let m := parseImage p.image
      let builds := (((m.pipes[d.pipeline]?).map m.rest).getD []).filterMap fun x =>
        if x.2.2.code == 0x10 then some ((nget p.buildBanks x.2.1).getD []) else none
      let s := builds.flatten.foldl (fun s b => s.clearBank (Fin.ofNat 8 b)) s
      (s.modPlan d.planSlot fun p => { p with reruns := p.reruns + 1 }).placeRerun d order exclude

/-- Hardware resets a tile (R349): RESETTING until the tags are invalidated. [log 71 DEDUCED] -/
def State.resetTile (s : State) (t : TileId) : State :=
  let s := s.modPurlin fun p => { p with waiting := p.waiting.filter fun x => match x.1 with
    | .tile u _ _ => u != t
    | .ridge => true }
  ((s.freeTile t .resetting).modSched t fun y => { y with lastAffinity := none }).modTile t fun c =>
    { c.hardReset with state := .reset }

/-- A tile reset by the Batten, with or without a bundle that must run again. -/
def State.tileLost (s : State) (t : TileId) (code : Nat) (exclude fault : Bool) : State :=
  let y := s.batten.tiles[t]
  let s := s.resetTile t
  let s := if fault then s.noteFault t else s
  match y.desc with
  | none => s.pumpPlans
  | some d =>
    let s := s.doneRecord d t.val code
    (s.bundleFails d y.order code (if exclude then some t.val else none) y.purged).pumpPlans

/-- The record of a bundle that failed on a tile (R669). -/
def State.bundleRecord (s : State) (src : Nat) (t : TileId) (code : Nat) : State :=
  let slot := ((s.batten.tiles[t]).desc).map (·.planSlot)
  s.raise src { ErrRec.blank with severity := .contained, code := code, scope := 2, scopeId := t.val, planSlot := slot }

/-- A tile reset because it did not answer in time (R303). -/
def State.timeoutReset (s : State) (t : TileId) : State :=
  let d := (s.batten.tiles[t]).desc.getD .zero
  let s := s.modCourseStat (courseOf t) fun k => { k with timeoutResets := k.timeoutResets + 1 }
  ((s.trace 8 t.val d stTileFault false).bundleRecord srcBatten t stTileFault).tileLost t stTileFault true true

/-- A tile in PREEMPTING has not accepted within the timeout: PREEMPT_US, or 3 µs on a Flat course (R303). -/
def State.preemptionTimeout (s : State) (t : TileId) : State :=
  let y := s.batten.tiles[t]
  if y.state != .preempting then s else
  (s.advanceTo (y.preemptAt + 1000 * (if s.courseFlat (courseOf t) then 3 else s.batten.preemptUs))).timeoutReset t

/-- The pre-emption timeout of a tile passes. -/
def execPreemptionTimeout (tile : TileId) (s : State) : Res := .next (s.preemptionTimeout tile)

/-- A tile in SAVING has not yielded within 8 µs of acceptance (R303). -/
def State.saveLimit (s : State) (t : TileId) : State :=
  let y := s.batten.tiles[t]
  if y.state != .saving then s else (s.advanceTo (y.preemptAt + 8000)).timeoutReset t

/-- The save limit of a tile passes. -/
def execSaveLimitExpiry (tile : TileId) (s : State) : Res := .next (s.saveLimit tile)

/-! Dirty sectors lost (R398). -/

/-- The owner of a region whose dirty sector is lost is run again from nothing; a loss in an L1 counts against its tile. -/
def State.regionLost (s : State) (r : Nat) (l1 : Bool) : State :=
  match nget s.thatch.regions r with
  | none => s
  | some g =>
    if g.lost then s else
    let s := s.modThatch fun th => { th with regions := nmod th.regions r fun g => { g with lost := true } }
    let mine := fun (d : BDesc) => d.ident == (g.planSlot, g.pipeline, g.unit)
    let owner := (List.finRange 64).find? fun t => (s.batten.tiles[t]).desc.any mine
    let s := s.raise srcBatten
      { ErrRec.blank with severity := .contained, code := stTileFault, scope := 2, scopeId := (owner.map (·.val)).getD 0,
                          planSlot := some g.planSlot, address := g.base * 65536 }
    match owner with
    | some t => s.tileLost t stTileFault l1 l1
    | none =>
      match s.batten.ready.find? fun x => mine x.desc with
      | some x =>
        let s := ((s.unready x.desc).dropLeases x).doneRecord x.desc 0 stTileFault
        ((s.syncSlot g.planSlot).bundleFails x.desc x.order stTileFault none false).pumpPlans
      | none => s.bump 0x1801 5 1

/-- Dirty lines of a tile's L1 whose parity fails are dropped; the regions they named (R397, R398). [log 69 DESIGN CHOICE] -/
def State.dropDirty (s : State) (t : TileId) (lost : List Nat) : List Nat × State :=
  let hit := (s.tiles[t]).l1d.filter fun x => x.2.isDirty && lost.contains x.2.line
  let n := (hit.map fun x => x.2.dirty.countP id).sum
  let s := s.modTile t fun c => { c with l1d := c.l1d.filter fun x => !(x.2.isDirty && lost.contains x.2.line) }
  ((hit.filterMap fun x => x.2.region).eraseDups, if n == 0 then s else s.bump 0x1801 3 n)

/-! A tile's reports (R295, R300, R304, R305). -/

/-- The tile reports its context saved: dirty lines are written back and the bundle returns to its list (R304, R383); the
operand names lines whose dirty sectors prove lost as they are written back. [log 68 DEDUCED] -/
def State.tileYield (s : State) (t : TileId) (lost : List Nat) : State :=
  let y := s.batten.tiles[t]
  match y.desc with
  | none => s
  | some d =>
    if y.state != .saving then s else
    let (regions, s) := s.dropDirty t lost
    let s := s.l1CleanAll t
    if !regions.isEmpty then regions.foldl (fun s r => s.regionLost r true) s else
    let s := ((s.reedAbandon t).yelmLeave t stAbortCancel).spendEnergy t
    let y := s.batten.tiles[t]
    let aff := fun (s : State) => s.modSched t fun z => { z with lastAffinity := some d.affinity }
    if y.purged then
      let s := (aff (s.freeTile t (s.restState t))).doneRecord d t.val stAbortReset
      (((s.trace 12 t.val d stAbortReset false).unitDone d).finishJob d.planSlot).pumpPlans
    else
      let s := (aff (s.tileTo t (s.restState t))).modSched t fun z => { z with desc := none, run := .empty, reed := .reset, parking := false }
      let s := s.modTile t fun c => { c with pendPreempt := false }
      let s := s.trace 5 t.val d 0 false
      (s.placeBundle d d.readyTs (some y.order) (some (y.run, y.reed))).pumpPlans

/-- YIELD is written 1. [log 69 DESIGN CHOICE] -/
def execYield (tile : TileId) (lost : List Nat) (s : State) : Res := .next (s.tileYield tile lost)

/-- A bundle of a plan has completed with OK: its energy is judged, and what depends on it goes on (R183, R189, R314). -/
def State.bundleCompleted (s : State) (d : BDesc) : State :=
  let s := s.unitDone d
  match s.plan d.planSlot with
  | none => s
  | some p =>
    if p.claims.energyLimit != 0 && p.claims.energyLimit < p.energy then s.endPlan d.planSlot stQuota
    else if p.query.isSome then (s.advanceFiring d.planSlot).finishJob d.planSlot
    else ((s.readyAll d.planSlot none).formAll d.planSlot).finishJob d.planSlot

/-- The end of a bundle on a tile: its work finished and put in effect where it reports OK, its done record, and what follows
for the tile, the bundle and the plan (R185, R187, R295, R305). -/
def State.tileDone (s : State) (t : TileId) (status : Nat) (kernels : List KRes) (lost : List Nat) : State :=
  let y := s.batten.tiles[t]
  match y.desc with
  | none => s
  | some d =>
    if !(y.state == .running || y.state == .preempting) then s else
    let (regions, s) := s.dropDirty t lost
    let s := s.l1CleanAll t
    if !regions.isEmpty then regions.foldl (fun s r => s.regionLost r true) s else
    let stopped := y.purged || ((s.plan d.planSlot).any fun p => p.ended.isSome)
    let s := if status == 0 && !stopped then s.finishWork t kernels else s
    let code := if status != 0 then status else ((s.batten.tiles[t]).run.failed).getD 0
    let (quota, s) := if code == 0 && !stopped then s.commitBundle t else (none, s)
    let code := quota.getD code
    let s := if code == stWindowFault || code == stPoisoned then
        s.raise (srcTile t) { ErrRec.blank with
          severity := .contained
          code := code
          scope := 3
          scopeId := d.planSlot
          inst := d.inst
          planSlot := some d.planSlot
          address := (s.batten.tiles[t]).reed.failedAt }
      else s
    let s := (s.doneRecord d t.val code).trace (if code == 0 then 6 else 7) t.val d code false
    let fault := code == stTileFault
    let s := if fault then (s.resetTile t).noteFault t
      else (s.freeTile t (s.restState t)).modSched t fun z => { z with lastAffinity := some d.affinity }
    let s :=
      if fault || code == stStackLimit then s.bundleFails d y.order code (some t.val) stopped
      else if stopped then (s.unitDone d).finishJob d.planSlot
      else if code == 0 then s.bundleCompleted d
      else (s.unitDone d).endPlan d.planSlot code
    s.pumpPlans

/-- The tile reports its bundle's status; the operands are what kernels return in the work that is still to be done, and the lines whose dirty sectors prove lost. [log 69 DESIGN CHOICE] -/
def execDone (tile : TileId) (status : Nat) (kernels : List KRes) (lost : List Nat) (s : State) : Res :=
  .next (s.tileDone tile status kernels lost)

/-- Bytes that a tile reads in DRAM through its L1; else the lowest address met that is POISONED. -/
def State.dramGet (s : State) (t : TileId) (a n : Nat) : Except Nat Bytes × State :=
  (cuts 32 (n + 1) a n).foldl (fun (acc : Except Nat Bytes × State) c =>
    let (d, s) := acc.2.l1Read t c.1 c.2
    match acc.1, d with
    | .ok got, some x => (.ok (got ++ x), s)
    | .ok _, none => (.error c.1, s)
    | .error e, _ => (.error e, s)) (.ok [], s)

/-- Bytes that a tile writes in DRAM through its L1. -/
def State.dramPut (s : State) (t : TileId) (a : Nat) (bs : Bytes) : State :=
  (cuts 32 (bs.length + 1) a bs.length).foldl (fun s c => s.l1Write t c.1 (sliceB (c.1 - a) c.2 bs)) s

/-- The registers of a context (R350), its frame back on the monitor's stack with VX clear; the vector registers where the context has them. -/
def Tile.resume (c : Tile) (b : Bytes) (vectors : Bool) : Tile :=
  let st := fieldAt 8 8 b
  let frame := sliceB 0 8 b ++ toLE 8 (st / 8 * 8 + st % 4) ++ sliceB 16 16 b
  let c := c.scratchWrite (c.msp.toNat % 0x40000) frame
  let g := Vector.ofFn fun (i : Fin 32) => BitVec.ofNat 64 (fieldAt (0x20 + 8 * i.val) 8 b)
  let m := Vector.ofFn fun (i : Fin 8) => if i == 0 then c.m[i] else BitVec.ofNat 64 (fieldAt (0x120 + 8 * i.val) 8 b)
  let v := if vectors then Vector.ofFn fun (i : Fin 32) => BitVec.ofNat 512 (fieldAt (0x200 + 64 * i.val) 64 b) else c.v
  { c with g := g, m := m, v := v }

/-- Before it enters the first bundle of another instance, the tile monitor zeroes the scratch below its own (R329). -/
def State.clearScratch (s : State) (t : TileId) (inst : Nat) : State :=
  if (s.batten.tiles[t]).lastInst == some inst then s else
  (s.modTile t fun c => { c with scratch := c.scratch.filter fun x => c.scrMon.toNat * 4096 ≤ x.1 }).modSched t fun y =>
    { y with lastInst := some inst }

/-- The tile monitor restores a bundle's context from CONTEXT_ADDR (R350); a POISONED line of it is reported as TILE_FAULT (R344). [log 217 DESIGN CHOICE] -/
def State.restoreContext (s : State) (t : TileId) (d : BDesc) : State :=
  let run := (s.batten.tiles[t]).run
  if !run.ctx then s else
  match s.dramGet t d.contextAddr (if run.vctx then 0xA00 else 0x160) with
  | (.ok b, s) => s.modTile t fun c => c.resume b run.vctx
  | (.error _, s) => s.tileDone t stTileFault [] []

/-- The tile acknowledges its dispatch (R300, R383); a course being parked pre-empts it (R302, R645). -/
def State.dispatchAck (s : State) (t : TileId) : State :=
  if (s.batten.tiles[t]).state != .dispatching then s else
  let s := (s.tileTo t .running).modTile t fun c => { c.l1Flash with pendDispatch := false }
  let s := match (s.batten.tiles[t]).desc with
    | some d => (s.clearScratch t d.inst).restoreContext t d
    | none => s
  (if s.courseUp (courseOf t) || (s.batten.tiles[t]).state != .running then s else s.preemptTile t true).pumpPlans

/-- DISPATCH_ACK is written 1. -/
def execDispatchAck (tile : TileId) (s : State) : Res := .next (s.dispatchAck tile)

/-- A stall reported to the Batten: the tile is reset and the bundle re-run (R339). [log 70 DEDUCED, 71 DEDUCED] -/
def State.tileStalled (s : State) (t : TileId) (code : Nat) : State :=
  let s := match (s.batten.tiles[t]).desc with
    | some d => s.trace 7 t.val d code false
    | none => s
  (s.bundleRecord (srcTile t) t code).tileLost t code true (code == stTileFault)

/-- A hardware tile reset completes: IDLE, or FENCED (R300, R349). -/
def State.tileResetDone (s : State) (t : TileId) : State :=
  if (s.batten.tiles[t]).state != .resetting then s else
  ((s.tileTo t (s.restState t)).modTile t fun c => { c with state := .monitor, pc := c.resetPc }).pumpPlans

/-- A tile reset completes. -/
def execTileResetDone (tile : TileId) (s : State) : Res := .next (s.tileResetDone tile)

end Sys2Proof.Machine
end

