-- ==== Sys2Proof/Machine/HashCore.lean ====
section
/-! DEFINITION. The Flashing engine's contexts and its hash core, block by block (R475, R481). -/

namespace Sys2Proof.Machine

/-- ALG. -/
def FCtx.alg (x : FCtx) : Nat := x.ctrl % 4
/-- HMAC. -/
def FCtx.hmac (x : FCtx) : Bool := bitAt x.ctrl 2
/-- SOURCE. -/
def FCtx.source (x : FCtx) : Nat := bitsOf x.ctrl 4 3
/-- DEST. -/
def FCtx.dest (x : FCtx) : Nat := bitsOf x.ctrl 6 5
/-- TAP_CHANNEL. -/
def FCtx.tap (x : FCtx) : Nat := bitsOf x.ctrl 11 7
/-- PACED. -/
def FCtx.paced (x : FCtx) : Bool := bitAt x.ctrl 12
/-- CMP_LEN. -/
def FCtx.cmpLen (x : FCtx) : Nat := bitsOf x.ctrl 19 13

/-- Blocks of a whole message with its padding. -/
def FCtx.blocks (x : FCtx) : Nat := (x.len + 1 + shaBlock x.alg / 8 + shaBlock x.alg - 1) / shaBlock x.alg

/-- A context in RUNNING that holds a whole block of input the core has not taken; with its last byte comes its padding. [log 215 DEDUCED] -/
def FCtx.wholeBlock (x : FCtx) : Bool :=
  x.state == .running
    && (shaBlock x.alg * (x.served + 1) ≤ x.taken.length || (x.taken.length == x.len && x.served < x.blocks))

/-- The contexts in round-robin order after one of them. -/
def ctxsAfter (last : Nat) : List (Fin 16) := (List.range 16).map fun i => Fin.ofNat 16 (last + 1 + i)

/-- The context whose block the core takes next: of TAP contexts while one holds a whole block, else of the others, each kind round-robin in
context order (R475). -/
def FlashSt.nextBlock (f : FlashSt) : Option (Fin 16) :=
  let holds := fun (tap : Bool) (k : Fin 16) => (f.ctxs[k]).wholeBlock && ((f.ctxs[k]).source == 2) == tap
  match (ctxsAfter f.lastTap).find? (holds true) with
  | some k => some k
  | none => (ctxsAfter f.lastOther).find? (holds false)

/-- The core takes one block of a context. -/
def FlashSt.takeBlock (f : FlashSt) (k : Fin 16) : FlashSt :=
  let x := f.ctxs[k]
  let f := { f with ctxs := f.ctxs.set k { x with served := x.served + 1 } }
  if x.source == 2 then { f with lastTap := k.val } else { f with lastOther := k.val }

/-- The TAP context that holds a whole block of input and is next in turn (R475). -/
def FlashSt.nextTap (f : FlashSt) : Option (Fin 16) :=
  (ctxsAfter f.lastTap).find? fun k =>
    let x := f.ctxs[k]
    x.state == .running && x.source == 2 && shaBlock x.alg * (x.served + 1) ≤ x.taken.length

/-- The core takes the whole blocks that TAP contexts hold, in turn; the count says how often the buffer of a PACED one gains room for
2,048 bytes (R475, R481). -/
def FlashSt.serveTaps : Nat → FlashSt → Nat × FlashSt
  | 0, f => (0, f)
  | n + 1, f =>
    match f.nextTap with
    | none => (0, f)
    | some k =>
      let x := f.ctxs[k]
      let b := shaBlock x.alg
      let room := if x.paced && b * x.served / 2048 < b * (x.served + 1) / 2048 then 1 else 0
      let (m, f) := FlashSt.serveTaps n (f.takeBlock k)
      (room + m, f)

end Sys2Proof.Machine
end

