-- ==== Sys2Proof/Machine/Gutter.lean ====
section
/-! DEFINITION. The Gutter DMA engine (chapter 14). A mode command moves the next part of the descriptor in progress; a
part that lies in host memory is asked for, and moves when its completion arrives. -/

namespace Sys2Proof.Machine

/-! Fields of CH_CTRL (R436). -/

/-- RING. -/
def GChan.isRing (c : GChan) : Bool := bitAt c.ctrl 3
/-- FIRMWARE. -/
def GChan.firmware (c : GChan) : Bool := bitAt c.ctrl 4
/-- REQ_LINE. -/
def GChan.line (c : GChan) : Nat := bitsOf c.ctrl 13 8
/-- Bytes of a burst. [log 115 DEDUCED] -/
def GChan.burst (c : GChan) : Nat := 64 * (bitsOf c.ctrl 18 14 + 1)
/-- INSTANCE. -/
def GChan.inst (c : GChan) : InstId := Fin.ofNat 64 (bitsOf c.ctrl 24 19)
/-- NOTIFY_TILE. -/
def GChan.notifyTile (c : GChan) : TileId := Fin.ofNat 64 (bitsOf c.ctrl 30 25)
/-- NOTIFY_EN. -/
def GChan.notifyEn (c : GChan) : Bool := bitAt c.ctrl 31
/-- The channel runs, waits, pauses or is paused. -/
def GChan.busy (c : GChan) : Bool := c.state == .running || c.state == .waiting || c.state == .pausing || c.state == .paused

/-! Fields of a descriptor (R437). -/

/-- MODE. -/
def GDesc.mode (d : GDesc) : Nat := fieldAt 0 1 d.raw
/-- NOTIFY. -/
def GDesc.notify (d : GDesc) : Bool := bitAt (fieldAt 0 4 d.raw) 10
/-- STREAM. -/
def GDesc.stream (d : GDesc) : Bool := bitAt (fieldAt 0 4 d.raw) 11
/-- COUNT. -/
def GDesc.count (d : GDesc) : Nat := fieldAt 4 4 d.raw
/-- SRC. -/
def GDesc.src (d : GDesc) : Nat := fieldAt 8 6 d.raw
/-- DST. -/
def GDesc.dst (d : GDesc) : Nat := fieldAt 16 6 d.raw
/-- PARAM0. -/
def GDesc.p0 (d : GDesc) : Nat := fieldAt 24 8 d.raw
/-- PARAM1. -/
def GDesc.p1 (d : GDesc) : Nat := fieldAt 32 8 d.raw
/-- PARAM2. -/
def GDesc.p2 (d : GDesc) : Nat := fieldAt 40 8 d.raw
/-- NEXT. -/
def GDesc.nextAddr (d : GDesc) : Nat := fieldAt 48 6 d.raw
/-- DONE_ADDR. -/
def GDesc.doneAddr (d : GDesc) : Nat := fieldAt 56 6 d.raw
/-- EW of a transposition. -/
def GDesc.ew (d : GDesc) : Nat := d.p1 % 4
/-- KEY of a transposition. -/
def GDesc.keyRule (d : GDesc) : Nat := bitsOf d.p1 3 2
/-- B of a transposition. -/
def GDesc.planes (d : GDesc) : Nat := bitsOf d.p1 14 8
/-- Element width in bits. -/
def GDesc.w (d : GDesc) : Nat := 8 * 2 ^ d.ew
/-- S, the bytes of a row of streams. -/
def GDesc.rowLen (d : GDesc) : Nat := (d.table.map (·.2)).sum
/-- What is to be moved: bytes, or rows of a transposition. -/
def GDesc.total (d : GDesc) : Nat := if d.mode == 2 || d.mode == 3 then d.count * d.rowLen else d.count

/-- The place of byte b of a row among the streams: stream and offset in it. -/
def streamOf : List (Nat × Nat) → Nat → Nat → Nat × Nat
  | [], j, b => (j, b)
  | (_, e) :: r, j, b => if b < e then (j, b) else streamOf r (j + 1) (b - e)

/-- Address of position p among the streams, with the bytes that follow it in that element (R440). -/
def GDesc.streamAddr (d : GDesc) (p : Nat) : Nat × Nat :=
  let r := p / d.rowLen
  let (j, o) := streamOf d.table 0 (p % d.rowLen)
  let (a, e) := d.table.getD j (0, 1)
  (a + r * e + o, e - o)

/-- The source address at a position, none for FILL. -/
def GDesc.srcAt (d : GDesc) (p : Nat) : Option Nat :=
  match d.mode with
  | 0 | 3 => some (d.src + p)
  | 2 => some (d.streamAddr p).1
  | 4 => some (d.src + p * (d.w / 8))
  | 5 => some (d.src + 8 * (p / 64))
  | _ => none

/-- The destination address at a position. -/
def GDesc.dstAt (d : GDesc) (p : Nat) : Nat :=
  match d.mode with
  | 3 => (d.streamAddr p).1
  | 4 => d.dst + 8 * (p / 64)
  | 5 => d.dst + p * (d.w / 8)
  | _ => d.dst + p

/-- Bytes of the next beat: at most 64, within one element of a stream. -/
def GDesc.beat (d : GDesc) (p : Nat) : Nat :=
  let n := min 64 (d.total - p)
  if d.mode == 2 || d.mode == 3 then min n (d.streamAddr p).2 else n

/-! Checks (R439 to R442). -/

/-- A region of R22 as a number, for the rule on one descriptor's destinations. -/
def State.regionNo (s : State) (a : Nat) : Nat :=
  match s.regionOf a with
  | .dram => 0 | .aperture => 1 | .scratch _ _ => 2 | .control _ => 3 | .window p _ => 4 + p.val | .unmapped => 8

/-- Destination ranges of a descriptor: (address, bytes). -/
def GDesc.dests (d : GDesc) : List (Nat × Nat) :=
  match d.mode with
  | 2 => [(d.dst, d.total)]
  | 3 => d.table.map fun (a, e) => (a, d.count * e)
  | 4 => (List.range d.planes).map fun p => (d.dst + p * d.p2, ceilDiv d.count 64 * 8)
  | 5 => [(d.dst, d.count * (d.w / 8))]
  | _ => [(d.dst, d.count)]

/-- Every reserved or unused field is zero and every field in range. [log 116 DEDUCED] -/
def GDesc.fieldsOk (d : GDesc) : Bool :=
  let head := fieldAt 0 4 d.raw
  let reserved := head / 2 ^ 12 == 0 && fieldAt 14 2 d.raw == 0 && fieldAt 22 2 d.raw == 0 && fieldAt 54 2 d.raw == 0
    && fieldAt 62 2 d.raw == 0
  let trans := d.p1 / 2 ^ 15 == 0 && bitsOf d.p1 7 4 == 0 && d.keyRule ≤ 2 && (d.keyRule != 2 || 2 ≤ d.ew)
    && 1 ≤ d.planes && d.planes ≤ d.w && d.p2 % 8 == 0 && ceilDiv d.count 64 * 8 ≤ d.p2 && d.p0 < 2 ^ d.w
  reserved && bitsOf head 9 8 ≤ 2 && 1 ≤ d.count && (match d.mode with
    | 0 => d.p0 == 0 && d.p1 == 0 && d.p2 == 0
        && (d.src + d.count ≤ d.dst || d.dst + d.count ≤ d.src)
    | 1 => d.src == 0 && d.p1 == 0 && d.p2 == 0
    | 2 => d.src == 0 && 1 ≤ d.p1 && d.p1 ≤ 256 && d.p2 == 0 && d.p0 % 16 == 0 && d.p0 < 2 ^ 48
    | 3 => d.dst == 0 && 1 ≤ d.p1 && d.p1 ≤ 256 && d.p2 == 0 && d.p0 % 16 == 0 && d.p0 < 2 ^ 48
    | 4 => trans && d.src % (d.w / 8) == 0 && d.dst % 8 == 0
    | 5 => trans && d.dst % (d.w / 8) == 0 && d.src % 8 == 0
    | _ => false)

/-- The rules that need the stream table and the map of regions. -/
def State.descFits (s : State) (d : GDesc) : Bool :=
  ((d.mode != 2 && d.mode != 3) || d.rowLen ≤ 65536)
    && (match d.dests with
        | [] => true
        | (a, _) :: _ => d.dests.all fun (b, n) => s.regionNo b == s.regionNo a && s.regionNo (b + n - 1) == s.regionNo a)

/-! Reach (R24, R435). -/

/-- The function through which a channel reaches a port: that of its instance, or the PF for a firmware channel. -/
def State.chanFunc (s : State) (c : ChanId) (p : PortId) : Option FuncId :=
  let x := s.gutter.chans[c]
  if x.firmware then some (funcOf p 0) else ((s.insts[x.inst]).func).filter fun f => funcPort f == p

/-- A channel may read, or write, a range. [log 117 DEDUCED] -/
def State.chanMay (s : State) (c : ChanId) (a n : Nat) (write : Bool) : Bool :=
  let x := s.gutter.chans[c]
  match s.regionOf a with
  | .dram =>
    a + n ≤ s.dram.managed && (x.firmware || (cuts 4096 (n + 1) a n).all fun p => (List.range 4).any fun j =>
      let b := x.wbase.toList.getD j 0
      let l := x.wlim.toList.getD j 0
      bitAt b (if write then 1 else 0) && bitsOf b 47 12 * 4096 ≤ p.1 && p.1 + p.2 ≤ bitsOf l 47 12 * 4096)
  | .aperture => x.firmware && (s.devCuts a n).all fun c => (s.apertureLine c.1).isSome
  | .scratch _ _ => a + n ≤ scratchBase + 0x1000000
  | .window p o => o + n ≤ 2 ^ 40 && (s.chanFunc c p).isSome
  | _ => false

/-! Stopping and loading. -/

/-- A read that a channel has outstanding returns to nobody (R447, R500). -/
def HPort.forget (h : HPort) (c : ChanId) : HPort :=
  { h with tags := h.tags.map fun t => match t.2 with
    | .outstanding f (.chan d) due => if d == c then (t.1, .outstanding f .gone due) else t
    | _ => t }

/-- A channel enters STOPPED with a code (R436, R447); a WINDOW_FAULT is recorded (R669). -/
def State.chanStop (s : State) (c : ChanId) (code : Nat) : State :=
  let s := (List.finRange 4).foldl (fun s p => s.modPort p (·.forget c)) s
  let x := s.gutter.chans[c]
  let s := if code != stWindowFault then s else
    s.raise srcGutter { ErrRec.blank with
      severity := .contained
      code := code
      scope := if x.firmware then 0 else 4
      scopeId := if x.firmware then 0 else x.inst
      inst := if x.firmware then 0xFF else x.inst
      event := 1
      detail0 := c.val }
  (s.modChan c fun x => { x with state := .stopped, code := code, desc := none, stopAs := none }).bump 0x2801 7 1

/-- A channel of an instance that is reset stops once the bytes it has asked a host for are written (R446, R447). [log 220 DEDUCED] -/
def State.chanDrainStop (s : State) (c : ChanId) (code : Nat) : State :=
  if (s.gutter.chans[c]).desc.any fun d => d.asked != 0 then s.modChan c fun x => { x with state := .pausing, stopAs := some code }
  else s.chanStop c code

/-- Bytes of a control structure (a descriptor, a stream table, a ring header), from the device or from what host
memory answers; the code on failure. -/
def State.chanFetch (s : State) (c : ChanId) (a n : Nat) (host : Bytes) : Except Nat (Bytes × Bytes) × State :=
  if !s.chanMay c a n false then (.error stWindowFault, s) else
  match s.regionOf a with
  | .window p x =>
    match s.chanFunc c p with
    | none => (.error stWindowFault, s)
    | some f =>
      if (s.host.ports[p]).state != .running then (.error stPortFrozen, s)
      else if !s.funcSends f then (.error stRevoked, s)
      else
        let s := s.hostRead f x n
        if host.length < n then (.error stLengthShort, s) else (.ok (host.take n, host.drop n), s)
  | _ =>
    match s.devRead a n false with
    | (some d, s) => (.ok (d, host), s)
    | (none, s) => if s.apertureBad a n then (.error stWindowFault, s.apertureRecord a) else (.error stPoisoned, s)

/-- CH_SRC, CH_DST, CH_COUNT and CH_ROW follow what has been written (R436, R446). -/
def GChan.show (x : GChan) : GChan :=
  match x.desc with
  | none => x
  | some d =>
    let rows := d.mode == 2 || d.mode == 3
    { x with src := (d.srcAt d.moved).getD 0, dst := d.dstAt d.moved,
             count := if rows then d.count - d.moved / d.rowLen else d.count - d.moved,
             row := if rows then d.moved / d.rowLen else 0, rowByte := if rows then d.moved % d.rowLen else 0 }

/-- A descriptor read into the channel, checked before any byte moves (R439). -/
def State.chanLoad (s : State) (c : ChanId) (a : Nat) (host : Bytes) : State :=
  let s := s.modChan c fun x => { x with descAddr := a }
  if a % 64 != 0 then s.chanStop c stBadArgument else
  match s.chanFetch c a 64 host with
  | (.error e, s) => s.chanStop c e
  | (.ok (raw, host), s) =>
    let d : GDesc := { raw := raw, table := [], asked := 0, burstTo := 0, moved := 0, readBack := false }
    if !d.fieldsOk || ((s.gutter.chans[c]).isRing && d.nextAddr != 0) then s.chanStop c stBadArgument else
    let go := fun (s : State) (d : GDesc) =>
      if !s.descFits d then s.chanStop c stBadArgument else
      s.modChan c fun x =>
        ({ x with desc := some d, state := if x.line != 0x3F && x.pendingReq == 0 then .waiting else .running } : GChan).show
    if d.mode == 2 || d.mode == 3 then
      match s.chanFetch c d.p0 (16 * d.p1) host with
      | (.error e, s) => s.chanStop c e
      | (.ok (tab, _), s) =>
        let ents := (List.range d.p1).map fun j => sliceB (16 * j) 16 tab
        if ents.any fun e => fieldAt 6 2 e != 0 || fieldAt 10 6 e != 0 then s.chanStop c stBadArgument
        else go s { d with table := ents.map fun e => (fieldAt 0 6 e, fieldAt 8 2 e + 1) }
    else go s d

/-- The ring is looked at: an entry is loaded, or the channel waits (R449). -/
def State.chanRing (s : State) (c : ChanId) (host : Bytes) : State :=
  let x := s.gutter.chans[c]
  let hdr := x.ring % 2 ^ 48
  let n := 2 ^ (bitsOf x.ring 51 48 + 4)
  match s.chanFetch c hdr 8 host with
  | (.error e, s) => s.chanStop c e
  | (.ok (h, host), s) =>
    let left := (fieldAt 0 4 h + 2 ^ 32 - fieldAt 4 4 h) % 2 ^ 32
    if n < left then s.chanStop c stBadArgument
    else if left == 0 then s.modChan c fun x => { x with state := .waiting, desc := none }
    else s.chanLoad c (hdr + 64 + 64 * (fieldAt 4 4 h % n)) host

/-- START of a channel (R436, R444). [log 113 DESIGN CHOICE] -/
def State.chanStart (s : State) (c : ChanId) (host : Bytes) : State :=
  let x := s.gutter.chans[c]
  if x.busy || !s.ridgeActs then s else
  let clash := x.line != 0x3F && (List.finRange 32).any fun j =>
    j != c && (s.gutter.chans[j]).line == x.line && (s.gutter.chans[j]).busy
  let s := s.modChan c fun x => { x with state := .running, bytes := 0, code := 0, desc := none }
  if clash then s.chanStop c stWrongState
  else if x.isRing then s.chanRing c host
  else s.chanLoad c x.descAddr host

/-- A channel starts its chain or ring. [log 113 DESIGN CHOICE] -/
def execChStart (chan : ChanId) (host : Bytes) (s : State) : Res := .next (s.chanStart chan host)

/-- Channels marked for release go back to the pool once in none of RUNNING, WAITING, PAUSING and PAUSED (R550). -/
def State.sweepMarked (s : State) : State :=
  (List.finRange 32).foldl (fun s c =>
    let x := s.gutter.chans[c]
    match x.use with
    | .inst i =>
      if x.marked && !x.busy then
        (s.modChan c fun x => { x with use := .free, marked := false }).modInst i fun y =>
          { y with chanMask := y.chanMask &&& (2 ^ 32 - 1 - 2 ^ c.val) }
      else s
    | _ => s) s

/-! Moving. -/

/-- The key of an element under a KEY rule (R441). -/
def planeKey (w rule v : Nat) : Nat :=
  match rule with
  | 0 => v
  | 1 => v ^^^ 2 ^ (w - 1)
  | _ => if bitAt v (w - 1) then 2 ^ w - 1 - v else v + 2 ^ (w - 1)

/-- The element of a key. -/
def planeUnkey (w rule k : Nat) : Nat :=
  match rule with
  | 0 => k
  | 1 => k ^^^ 2 ^ (w - 1)
  | _ => if bitAt k (w - 1) then k - 2 ^ (w - 1) else 2 ^ w - 1 - k

/-- The words of a group's planes, or none where a value is out of range (R441). -/
def planeWords (d : GDesc) (vals : List Nat) : Option (List Nat) :=
  let qs := vals.map fun v => (planeKey d.w d.keyRule v, planeKey d.w d.keyRule v - d.p0)
  if qs.any fun (k, q) => k < d.p0 || 2 ^ d.planes ≤ q then none else
  some ((List.range d.planes).map fun p =>
    ((qs.zip (List.range qs.length)).map fun (x : (Nat × Nat) × Nat) =>
      if bitAt x.1.2 (d.planes - 1 - p) then 2 ^ x.2 else 0).sum)

/-- Elements of a group rebuilt from its plane words (R442). -/
def unplaneVals (d : GDesc) (words : List Nat) (n : Nat) : List Nat :=
  (List.range n).map fun i =>
    let q := ((words.zip (List.range words.length)).map fun (x : Nat × Nat) =>
      if bitAt x.1 i then 2 ^ (d.planes - 1 - x.2) else 0).sum
    planeUnkey d.w d.keyRule ((q + d.p0) % 2 ^ d.w)

/-- What one beat or group reads: (address, bytes) each; rows or bytes it covers. [log 115 DEDUCED] -/
def GDesc.part (d : GDesc) : List (Nat × Nat) × Nat :=
  let p := d.moved
  match d.mode with
  | 1 => ([], d.beat p)
  | 4 => let n := min 64 (d.count - p); ([(d.src + p * (d.w / 8), n * (d.w / 8))], n)
  | 5 => ((List.range d.planes).map fun j => (d.src + j * d.p2 + 8 * (p / 64), 8), min 64 (d.count - p))
  | _ => ([((d.srcAt p).getD 0, d.beat p)], d.beat p)

/-- What one beat or group writes from the bytes it read; the code on failure. -/
def GDesc.emitPart (d : GDesc) (data : Bytes) (n : Nat) : Except Nat (List (Nat × Bytes)) :=
  let p := d.moved
  match d.mode with
  | 1 => .ok [(d.dst + p, (List.range n).map fun i =>
      (toLE 8 d.p0).getD ((d.dst + p + i) % 8) 0)]
  | 4 =>
    match planeWords d ((List.range n).map fun i => fieldAt (i * (d.w / 8)) (d.w / 8) data) with
    | none => .error stCheckMismatch
    | some ws => .ok ((ws.zip (List.range ws.length)).map fun (x : Nat × Nat) => (d.dst + x.2 * d.p2 + 8 * (p / 64), toLE 8 x.1))
  | 5 =>
    let vals := unplaneVals d ((List.range d.planes).map fun j => fieldAt (8 * j) 8 data) n
    .ok [(d.dstAt p, vals.flatMap (toLE (d.w / 8)))]
  | _ => .ok [(d.dstAt p, data)]

/-- A channel writes a range: a posted write through a window, or device space; none where it is refused. -/
def State.chanWrite (s : State) (c : ChanId) (a : Nat) (bs : Bytes) : Except Nat State :=
  if !s.chanMay c a bs.length true then .error stWindowFault else
  match s.regionOf a with
  | .window p x =>
    match s.chanFunc c p with
    | none => .error stWindowFault
    | some f =>
      if (s.host.ports[p]).state != .running then .error stPortFrozen
      else if !s.funcSends f then .error stRevoked
      else .ok (s.hostWrite f x bs)
  | _ => .ok (s.devWrite a bs)

/-- The writes of one beat or group made in order up to the first refused one: the bytes written, and the code of the refusal. -/
def State.chanWrites (s : State) (c : ChanId) : List (Nat × Bytes) → Bytes × Option Nat × State
  | [] => ([], none, s)
  | (a, b) :: r =>
    match s.chanWrite c a b with
    | .error e => ([], some e, s)
    | .ok s =>
      let (l, e, s) := s.chanWrites c r
      (b ++ l, e, s)

/-- A channel reads back the line of the last of n bytes it wrote; a line of host memory is asked for (R448). -/
def State.chanReadBack (s : State) (c : ChanId) (a n : Nat) : State :=
  match s.regionOf a with
  | .window p x => match s.chanFunc c p with
    | some f => s.readBack f x n
    | none => s
  | _ => s

/-- A request line raised (R444). -/
def State.raiseLine (s : State) (l : Nat) : State :=
  if 21 ≤ l && l ≤ 23 then s else
  let named := (List.finRange 32).filter fun c => (s.gutter.chans[c]).line == l
  match (named.find? fun c => (s.gutter.chans[c]).busy).orElse fun _ => named.head? with
  | none => s
  | some c =>
    if 255 ≤ (s.gutter.chans[c]).pendingReq then
      (s.modGutter fun g => { g with overrun := g.overrun ||| 2 ^ l }).bump 0x2801 4 1
    else
      s.modChan c fun x =>
        { x with pendingReq := x.pendingReq + 1
                 state := if x.state == .waiting && x.desc.isSome then .running else x.state }

/-- Bytes a channel writes are taken by the Flashing context that taps it, until it holds FC_LEN (R478); the core, which serves TAP
contexts first, takes their whole blocks at once, so no buffer fills (R475, R481). [log 215 DEDUCED] -/
def State.tapTake (s : State) (c : ChanId) (bs : Bytes) : State :=
  match (List.finRange 16).find? fun k =>
    let x := s.flash.ctxs[k]
    x.state == .running && x.source == 2 && x.tap == c.val with
  | none => s
  | some k =>
    let x := s.flash.ctxs[k]
    let got := (x.taken ++ bs).take x.len
    let s := s.modFlash fun f => { f with ctxs := f.ctxs.set k { f.ctxs[k] with taken := got } }
    let s := s.bump 0x2E00 3 (got.length - x.taken.length)
    let (rooms, f) := s.flash.serveTaps (got.length + 4096)
    (List.range rooms).foldl (fun s _ => s.raiseLine 20) (s.modFlash fun _ => f)

/-- A beat or group written: the registers and counters follow; after the last one the read-back is due (R448). -/
def State.chanPut (s : State) (c : ChanId) (d : GDesc) (data : Bytes) (n : Nat) : State :=
  match d.emitPart data n with
  | .error e => s.chanStop c e
  | .ok ws =>
    let (out, refused, s) := s.chanWrites c ws
    let s := ((s.tapTake c out).modChan c fun x => { x with bytes := x.bytes + out.length }).bump 0x2801 1 out.length
    match refused with
    | some e => s.chanStop c e
    | none =>
      let d := { d with moved := d.moved + n, asked := 0 }
      let s := s.modChan c fun x => ({ x with desc := some { d with readBack := d.total ≤ d.moved } } : GChan).show
      match ws.getLast? with
      | some w => if d.total ≤ d.moved then s.chanReadBack c w.1 w.2.length else s
      | none => s

/-- One beat or group of the descriptor in progress; a host source is asked for instead. [log 114 DEDUCED] -/
def State.chanBeat (s : State) (c : ChanId) : State :=
  match (s.gutter.chans[c]).desc with
  | none => s
  | some d =>
    if d.readBack || d.asked != 0 || (s.gutter.chans[c]).state != .running then s else
    let (reads, n) := d.part
    if reads.any fun (x : Nat × Nat) => !s.chanMay c x.1 x.2 false then s.chanStop c stWindowFault else
    let hostReads := reads.filterMap fun (x : Nat × Nat) => match s.regionOf x.1 with
      | .window p o => some (p, o, x.2)
      | _ => none
    match (hostReads.head?).bind fun (x : PortId × Nat × Nat) => s.chanFunc c x.1 with
    | some f =>
      if (s.host.ports[funcPort f]).state != .running then s.chanStop c stPortFrozen
      else if !s.funcSends f then s.chanStop c stRevoked
      else match s.takeTag f (.chan c) (hostReads.headD (0, 0, 0)).2.1 (hostReads.headD (0, 0, 0)).2.2 with
        | none => s
        | some s =>
          let s := hostReads.tail.foldl (fun s (x : PortId × Nat × Nat) => s.hostRead f x.2.1 x.2.2) s
          s.modChan c fun x => { x with desc := some { d with asked := n } }
    | none =>
      let (data, s) := reads.foldl (fun (acc : Option Bytes × State) (x : Nat × Nat) =>
        let (b, s) := acc.2.devRead x.1 x.2 d.stream
        match acc.1, b with
        | some p, some q => (some (p ++ q), s)
        | _, _ => (none, s)) ((some [] : Option Bytes), s)
      match data with
      | none =>
        match reads.find? fun (x : Nat × Nat) => s.apertureBad x.1 x.2 with
        | some x => (s.apertureRecord x.1).chanStop c stWindowFault
        | none => s.chanStop c stPoisoned
      | some data => s.chanPut c d data n

/-- The beats of one command: bounded by the count given, and by one burst for a channel that runs on requests. -/
def State.chanBeats (c : ChanId) : Nat → Nat → State → State
  | 0, _, s => s
  | fuel + 1, stopAt, s =>
    match (s.gutter.chans[c]).desc with
    | some d =>
      if stopAt ≤ d.moved || d.readBack || d.asked != 0 || (s.gutter.chans[c]).state != .running then s
      else State.chanBeats c fuel stopAt (s.chanBeat c)
    | none => s

/-- A channel that runs on requests waits once its burst is over and no request is pending (R436, R444). -/
def GChan.await (x : GChan) : GChan :=
  match x.desc with
  | some d =>
    if x.line != 0x3F && x.state == .running && x.pendingReq == 0 && d.burstTo ≤ d.moved && !d.readBack && d.asked == 0 then
      { x with state := .waiting }
    else x
  | none => x

/-- A channel in a mode moves up to n bytes, or rows of a transposition (R438, R444, R445). -/
def State.chanMove (s : State) (mode : Nat) (c : ChanId) (n : Nat) : State :=
  let x := s.gutter.chans[c]
  match x.desc with
  | some d =>
    if !s.gutter.enable || x.state != .running || d.mode != mode || d.readBack || d.asked != 0 then s else
    let unit := if mode == 4 || mode == 5 then max 64 (x.burst / (8 * d.w) * 64) else x.burst
    let onReq := x.line != 0x3F
    let inBurst := d.moved < d.burstTo
    if onReq && !inBurst && x.pendingReq == 0 then s else
    let rest := d.total - d.moved
    let want := if !onReq then min (max n 1) rest else if inBurst then d.burstTo - d.moved else min unit rest
    let s :=
      if onReq && !inBurst then
        s.modChan c fun x =>
          { x with pendingReq := x.pendingReq - 1, desc := x.desc.map fun d => { d with burstTo := d.moved + want } }
      else s
    (State.chanBeats c (want + 1) (d.moved + want) s).modChan c (·.await)
  | none => s

/-- A COPY descriptor moves. -/
def execCopy (chan : ChanId) (n : Nat) (s : State) : Res := .next (s.chanMove 0 chan n)
/-- A FILL descriptor moves. -/
def execFill (chan : ChanId) (n : Nat) (s : State) : Res := .next (s.chanMove 1 chan n)
/-- An INTERLEAVE descriptor moves. -/
def execInterleave (chan : ChanId) (n : Nat) (s : State) : Res := .next (s.chanMove 2 chan n)
/-- A DEINTERLEAVE descriptor moves. -/
def execDeinterleave (chan : ChanId) (n : Nat) (s : State) : Res := .next (s.chanMove 3 chan n)
/-- A PLANE descriptor moves whole groups. -/
def execPlane (chan : ChanId) (n : Nat) (s : State) : Res := .next (s.chanMove 4 chan n)
/-- An UNPLANE descriptor moves whole groups. -/
def execUnplane (chan : ChanId) (n : Nat) (s : State) : Res := .next (s.chanMove 5 chan n)

/-- A host read of a channel returns: written where the channel still waits for it, else discarded and counted
(R447, R500). [log 114 DEDUCED] -/
def State.chanReturn (s : State) (c : ChanId) (data : Bytes) : State :=
  let x := s.gutter.chans[c]
  match x.desc with
  | some d =>
    if d.asked == 0 || !(x.state == .running || x.state == .pausing || x.state == .waiting) then s.bump 0x2801 5 1 else
    let need := (d.part.1.map (·.2)).sum
    if data.length < need then s.chanStop c (x.stopAs.getD stLengthShort) else
    let s := (s.chanPut c d (data.take need) d.asked).modChan c (·.await)
    match x.stopAs with
    | some code => if (s.gutter.chans[c]).state == .stopped then s else s.chanStop c code
    | none => s
  | none => s.bump 0x2801 5 1

/-! Pause, stop, requests, completion. -/

/-- PAUSE written 1 (R446). [log 118 DESIGN CHOICE] -/
def State.chanPause (s : State) (c : ChanId) : State :=
  let x := s.gutter.chans[c]
  if x.state == .running || x.state == .waiting then s.modChan c fun x => { x with ctrl := x.ctrl ||| 2, state := .pausing } else s

/-- PAUSE is written 1. -/
def execChPause (chan : ChanId) (s : State) : Res := .next (if s.ridgeActs then s.chanPause chan else s)

/-- The drain ends: nothing is outstanding and no read-back is due (R446, R450). -/
def State.chanPaused (s : State) (c : ChanId) : State :=
  let x := s.gutter.chans[c]
  if x.state == .pausing && !(x.desc.any fun d => d.readBack || d.asked != 0) then
    s.modChan c fun x => ({ x with state := .paused } : GChan).show
  else s

/-- A channel's drain ends. -/
def execChannelPaused (chan : ChanId) (s : State) : Res := .next (s.chanPaused chan)

/-- PAUSE written 0: the channel resumes from its registers, PENDING kept (R446). -/
def State.chanResume (s : State) (c : ChanId) (host : Bytes) : State :=
  let x := s.gutter.chans[c]
  if (x.state == .paused || x.state == .pausing) && x.stopAs.isNone then
    let s := s.modChan c fun x => { x with ctrl := x.ctrl &&& (2 ^ 64 - 3), state := .running, frozen := false }
    match x.desc with
    | some d =>
      if x.line != 0x3F && x.pendingReq == 0 && !d.readBack then s.modChan c fun x => { x with state := .waiting } else s
    | none => if x.isRing then s.chanRing c host else s.chanLoad c x.descAddr host
  else s

/-- PAUSE is written 0. -/
def execChResume (chan : ChanId) (host : Bytes) (s : State) : Res := .next (if s.ridgeActs then s.chanResume chan host else s)

/-- ABORT discards the buffer and every returning read (R447). -/
def execChAbort (chan : ChanId) (s : State) : Res :=
  .next (if (s.gutter.chans[chan]).busy && s.ridgeActs then (s.chanStop chan stAbortCancel).sweepMarked else s)

/-- A request line is raised: by a unit, or, from line 24 on, by the active Ridge's write of GD_SWREQ (R436, R443). [log 220 DEDUCED] -/
def execRequestLineRaise (line : Fin 48) (s : State) : Res := .next (if line.val < 24 || s.ridgeActs then s.raiseLine line.val else s)

/-- Descriptor and done record complete, in the order of R448; then the next descriptor, the ring, or the end. -/
def State.chanComplete (s : State) (c : ChanId) (dataBack doneBack : Bool) (host : Bytes) : State :=
  let x := s.gutter.chans[c]
  match x.desc with
  | none => s
  | some d =>
    if !d.readBack || !(x.state == .running || x.state == .pausing || x.state == .waiting) then s else
    let failBack := fun (s : State) => (s.chanStop c stRevoked).bump 0x2801 6 1
    if !dataBack then failBack s else
    let recorded : Except Nat State :=
      if d.doneAddr == 0 then .ok s else
      let (st, s) := s.stamp srcGutter
      s.chanWrite c d.doneAddr (st.bytes ++ toLE 2 stOk ++ toLE 1 c.val ++ toLE 1 d.mode ++ zeros 4
        ++ toLE 8 (if d.mode == 4 then ceilDiv d.count 64 * 8 * d.planes
                   else if d.mode == 5 then d.count * (d.w / 8) else d.total))
    match recorded with
    | .error e => s.chanStop c e
    | .ok s =>
      let s := if d.doneAddr == 0 then s else s.chanReadBack c d.doneAddr 32
      if d.doneAddr != 0 && !doneBack then failBack s else
      let s := if d.notify && x.notifyEn then s.modTile x.notifyTile fun t => { t with unitSrc := t.unitSrc ||| 4 } else s
      let s := (s.modChan c fun x => { x with code := stOk, desc := none, descAddr := d.nextAddr }).bump 0x2801 2 1
      if x.isRing then
        let hdr := x.ring % 2 ^ 48
        match s.chanFetch c hdr 8 (host.take 8) with
        | (.error e, s) => s.chanStop c e
        | (.ok (h, _), s) =>
          match s.chanWrite c (hdr + 4) (toLE 4 (fieldAt 4 4 h + 1)) with
          | .error e => s.chanStop c e
          | .ok s =>
            let s := s.chanReadBack c (hdr + 4) 4
            let host := host.take 4 ++ toLE 4 (fieldAt 4 4 h + 1) ++ host.drop 8
            if x.state == .pausing then s.modChan c fun x => { x with state := .paused } else s.chanRing c host
      else if d.nextAddr == 0 then s.modChan c fun x => { x with state := .done }
      else if x.state == .pausing then s.modChan c fun x => { x with state := .paused }
      else s.chanLoad c d.nextAddr host

/-- A descriptor's read-back returns (or fails), and that of its done record. -/
def execDescriptorComplete (chan : ChanId) (dataBack doneBack : Bool) (host : Bytes) (s : State) : Res :=
  .next (s.chanComplete chan dataBack doneBack host).sweepMarked

/-- A ring channel's poll interval expires (R449). -/
def State.ringPoll (s : State) (c : ChanId) (host : Bytes) : State :=
  let x := s.gutter.chans[c]
  if x.isRing && x.state == .waiting && x.desc.isNone && s.gutter.enable then s.chanRing c host else s

/-- A ring channel reads PRODUCED. -/
def execRingPoll (chan : ChanId) (host : Bytes) (s : State) : Res := .next (s.ringPoll chan host)

/-- Channels that reach a function's host stop with a code (R447). -/
def State.stopFuncChans (s : State) (p : FuncId → Bool) (code : Nat) : State :=
  (List.finRange 32).foldl (fun s c =>
    let x := s.gutter.chans[c]
    if x.busy && !x.firmware && ((s.insts[x.inst]).func).any p then s.chanStop c code else s) s

end Sys2Proof.Machine
end

