-- ==== Sys2Proof/Machine/HostOps.lean ====
section
/-! DEFINITION. What the command path shares with the host ports and the instances: TASK_STATE (R517), the manager host
(R509), reach to a host (R499, R505, R543), tags of command reads (R503), idleness (R531). -/

namespace Sys2Proof.Machine

/-- The port of the manager host (R509, R515); none while the role is held over Plyn only. -/
def State.managerPort (s : State) : Option PortId :=
  let m := s.cfg 0x3010 1 0
  if 4 ≤ m then none else
  let p := Fin.ofNat 4 m
  if (s.host.ports[p]).state == .running then some p else
  let alt := s.cfg 0x3010 2 0xFF
  if alt < 4 then some (Fin.ofNat 4 alt) else none

/-- The registers of an instance: those of its function, or its saved context (R547). -/
def State.instRegs (s : State) (i : InstId) : InstRegs :=
  match (s.insts[i]).func with
  | some f => (s.host.funcs[f]).regs
  | none => (s.insts[i]).ctx

/-- The registers of an instance changed where they stand. -/
def State.modInstRegs (s : State) (i : InstId) (g : InstRegs → InstRegs) : State :=
  match (s.insts[i]).func with
  | some f => s.modFunc f fun x => { x with regs := g x.regs }
  | none => s.modInst i fun x => { x with ctx := g x.ctx }

/-- Whether work of an instance reaches its host now: its function, or the code with which the work ends (R499, R505), or
none where it waits (R541, R543). [log 131 DEDUCED] -/
def State.hostReach (s : State) (i : InstId) : Except (Option Nat) FuncId :=
  let x := s.insts[i]
  match x.func with
  | none => .error none
  | some f =>
    if (s.host.ports[funcPort f]).state != .running then .error (some stPortFrozen)
    else if x.state != .bound then .error none
    else if !s.funcSends f then .error (some stRevoked)
    else .ok f

/-- Commands in an instance's queue: a slot is held until the record is delivered (R530). -/
def Inst.queued (x : Inst) : Nat := x.queue.length + x.records.length

/-- TASK_STATE reads BUSY for a function (R517, R535, R544). -/
def State.taskBusy (s : State) (f : FuncId) : Bool :=
  let x := s.host.funcs[f]
  let held : Bool := match x.inst with
    | none => true
    | some i => (s.insts[i]).state == .freezing || (s.insts[i]).state == .frozen || (s.insts[i]).state == .suspended
  (s.host.ports[funcPort f]).state != .running || held || decide (s.time.ts < x.flrUntil) || s.boot.activating.any (·.1 == 1) || !s.boot.inService

/-- The queue of a function's instance holds 256 commands. -/
def State.taskFull (s : State) (f : FuncId) : Bool :=
  match (s.host.funcs[f]).inst with
  | some i => 256 ≤ (s.insts[i]).queued
  | none => false

/-- TASK_STATE.STATE (R516, R517). [log 133 DEDUCED] -/
def State.taskState (s : State) (f : FuncId) : Nat := if s.taskBusy f then 1 else if s.taskFull f then 2 else 0

/-- A command asks its host for bytes: a tag taken; none while no tag is free. -/
def State.askHost (s : State) (i : InstId) (f : FuncId) (seq x n : Nat) : Option State := s.takeTag f (.command i seq) x n

/-- Gutter channels of an instance: reserved, or held by a plan of it. -/
def State.instChans (s : State) (i : InstId) : List ChanId :=
  (List.finRange 32).filter fun c =>
    match (s.gutter.chans[c]).use with
    | .inst j => j == i
    | .plan slot => ((s.plan slot).map fun p => p.inst == i.val).getD false
    | _ => false

/-- Ends the commands of an instance that wait for bytes of host memory (R499, R505). -/
def State.endReads (s : State) (i : InstId) (code : Nat) : State :=
  ((s.insts[i]).queue.filter fun c => match c.stage with
    | .reading _ => true
    | _ => false).foldl (fun s c => s.complete i c.receipt code) s

end Sys2Proof.Machine
end

