-- ==== Sys2Proof/Machine/PlynArrive.lean ====
section
/-! DEFINITION. A Plyn frame arrives: addressing (R578) and authentication (R580, step 1 of R581). Authentication is judged at
reception, since a write to a key slot acts on requests received after it (R584). -/

namespace Sys2Proof.Machine

/-- MAC_ADDRESS: 02:F0, then the low 32 bits of the serial number (R589). -/
def State.macAddress (s : State) : Nat := s.cfg 0x3060 2 (0x02F0 * 2 ^ 32 + s.boot.fuses.serial % 2 ^ 32)

/-- SRC8 of a port that receives Plyn frames (R60). -/
def plynSrc (port : Nat) : Nat := if port < 4 then 0x48 + port else 0x4C + port

/-- What a header names, where VERSION, KIND, slot, NODE, TARGET and LENGTH stand: the slot, the bytes its tag covers, and the tag. -/
def State.plynNamed (s : State) (payload : Bytes) : Option (Fin 8 × Bytes × Bytes) :=
  let n := fieldAt 2 1 payload
  let k := s.dict.slots[Fin.ofNat 8 (n - 1)]
  let len := fieldAt 26 2 payload
  if fieldAt 0 1 payload != 1 || fieldAt 1 1 payload == 0 || 3 < fieldAt 1 1 payload || n == 0 || 8 < n || k.key.isEmpty
      || fieldAt 4 2 payload != k.node || fieldAt 6 2 payload != s.cfg 0x3060 3 1 || payload.length < 48 + len then none
  else some (Fin.ofNat 8 (n - 1), payload.take (32 + len), sliceB (32 + len) 16 payload)

/-- The payload of a Plyn frame reaches the active Ridge's queue, or is dropped silently and counted (R581). The tag is checked by
the Flashing engine in COMPARE mode, whose counts follow (R479, R580). -/
def State.plynArrive (s : State) (peer : PlynPeer) (payload : Bytes) (ts : Nat) : State :=
  match s.plynNamed payload with
  | none => s.bump 0x3061 2 1
  | some (slot, body, tag) =>
    let key := (s.dict.slots[slot]).key
    let s := (s.bump 0x2E00 2 1).bump 0x2E00 3 body.length
    if (hmacAlg 1 key body).take 16 != tag then (s.bump 0x2E00 5 1).bump 0x3061 2 1
    else s.modDict fun d => { d with plynIn := d.plynIn ++ [⟨peer, slot, body, key, ts⟩] }

/-- An Ethernet frame without its FCS is a Plyn frame for this part (R578). -/
def State.plynFor (s : State) (frame : Bytes) : Bool :=
  let tagged := beNat (sliceB 12 2 frame) == 0x8100
  beNat (sliceB (if tagged then 16 else 12) 2 frame) == 0x88B5 && beNat (frame.take 6) == s.macAddress

/-- A frame is handed on where it is a Plyn frame for this part and PLYN_PORTS enables the port (R578). -/
def State.plynFrame (s : State) (port : Nat) (frame : Bytes) (ts : Nat) : State :=
  let tagged := beNat (sliceB 12 2 frame) == 0x8100
  let peer : PlynPeer := ⟨port, sliceB 6 6 frame, if tagged then some (beNat (sliceB 14 2 frame) &&& 0xEFFF) else none⟩
  if s.plynFor frame && bitAt (s.cfg 0x3060 1 0x30) port then s.plynArrive peer (frame.drop (if tagged then 18 else 14)) ts else s

end Sys2Proof.Machine
end

