-- ==== Sys2Proof/Machine/Signal.lean ====
section
/-! DEFINITION. The parser of the Eave ports (R129 to R132), the signal map's lookup (R133, R224) and decode programs
(R134 to R136). Header layouts of IEEE 1722-2016, IPv4, IPv6, UDP and SOME/IP come from those standards. -/

namespace Sys2Proof.Machine

/-- FLAGS of the raw-frame table (R139). -/
def fTruncated : Nat := 1
/-- TRAILING. -/
def fTrailing : Nat := 2
/-- UNKNOWN_KEY. -/
def fUnknown : Nat := 4
/-- SHORT_PAYLOAD. -/
def fShort : Nat := 8
/-- PARSE_STOPPED. -/
def fStopped : Nat := 16
/-- CUT. -/
def fCut : Nat := 32
/-- NO_TABLE. -/
def fNoTable : Nat := 64
/-- PDU_LIMIT. -/
def fLimit : Nat := 128

/-- What the parser finds in a frame: PDUs as key and payload in order, flags, skipped messages, trailing bytes, and
whether the frame went to the time base or the dictionary. -/
structure Parsed where
  pdus : List (Nat × Bytes)
  flags : Nat
  skipped : Nat
  trailing : Nat
  passed : Bool
deriving DecidableEq, Repr

/-- Nothing found. -/
def Parsed.none : Parsed := { pdus := [], flags := 0, skipped := 0, trailing := 0, passed := false }

/-- A big-endian field of a frame. -/
def beAt (off n : Nat) (d : Bytes) : Nat := beNat (sliceB off n d)

/-- Sets a flag. -/
def Parsed.flag (p : Parsed) (f : Nat) : Parsed := { p with flags := p.flags ||| f }

/-- The parser holds 64 PDUs and another is found (R131). -/
def Parsed.full (p : Parsed) : Bool := 64 ≤ p.pdus.length

/-- Header bytes of a recognised ACF message type (IEEE 1722-2016). -/
def acfHeader (type : Nat) : Option Nat :=
  match type with
  | 1 => some 16
  | 2 => some 8
  | 3 => some 12
  | _ => Option.none

/-- The key of an ACF message (R132). -/
def acfKey (port type : Nat) (m : Bytes) : Nat :=
  let f := fieldAt 2 1 m
  if type == 3 then 2 * 2 ^ 60 + port * 2 ^ 58 + (f % 32) * 2 ^ 32 + fieldAt 3 1 m % 64
  else
    let id := beAt (if type == 1 then 12 else 4) 4 m % 2 ^ 29
    2 ^ 60 + port * 2 ^ 58 + (fieldAt 3 1 m % 32) * 2 ^ 32 + bitsOf f 4 4 * 2 ^ 31 + bitsOf f 1 1 * 2 ^ 30
      + bitsOf f 3 3 * 2 ^ 29 + id

/-- The ACF messages of AVTP data (R129, R130). -/
def parseAcf (port : Nat) : Nat → Bytes → Parsed → Parsed
  | 0, _, p => p
  | fuel + 1, d, p =>
    if d.isEmpty then p
    else if d.length < 4 then { p.flag fTrailing with trailing := p.trailing + d.length }
    else
      let type := fieldAt 0 1 d / 2
      let len := 4 * (beAt 0 2 d % 512)
      match acfHeader type with
      | some hdr =>
        if p.full then p.flag fLimit
        else if len == 0 || d.length < len || len < hdr then p.flag fTruncated
        else
          let pay := sliceB hdr (len - hdr - fieldAt 2 1 d / 64) d
          parseAcf port fuel (d.drop len) { p with pdus := p.pdus ++ [(acfKey port type d, pay)] }
      | Option.none =>
        if len == 0 || d.length < len then p.flag fTruncated
        else parseAcf port fuel (d.drop len) { p with skipped := p.skipped + 1 }

/-- An IEEE 1722 frame: NTSCF or TSCF. -/
def parseAvtp (port : Nat) (d : Bytes) (p : Parsed) : Parsed :=
  let sub := fieldAt 0 1 d
  if sub == 0x82 && 12 ≤ d.length then
    let data := (d.drop 12).take (beAt 1 2 d % 2048)
    parseAcf port (data.length + 1) data p
  else if sub == 0x05 && 24 ≤ d.length then
    let data := (d.drop 24).take (beAt 20 2 d)
    parseAcf port (data.length + 1) data p
  else p

/-- The SOME/IP messages of a UDP payload (R129, R130). -/
def parseSomeip (port : Nat) : Nat → Bytes → Parsed → Parsed
  | 0, _, p => p
  | fuel + 1, d, p =>
    if d.isEmpty then p
    else if d.length < 8 then { p.flag fTrailing with trailing := p.trailing + d.length }
    else
      let len := beAt 4 4 d
      let size := 8 + len
      if len < 8 || d.length < size then (if p.full then p.flag fLimit else p.flag fTruncated)
      else
        let mt := fieldAt 14 1 d
        if fieldAt 12 1 d != 1 || bitAt mt 5 then parseSomeip port fuel (d.drop size) { p with skipped := p.skipped + 1 }
        else if p.full then p.flag fLimit
        else
          let key := 3 * 2 ^ 60 + port * 2 ^ 58 + fieldAt 13 1 d * 2 ^ 40 + mt * 2 ^ 32 + beAt 0 4 d
          parseSomeip port fuel (d.drop size) { p with pdus := p.pdus ++ [(key, sliceB 16 (size - 16) d)] }

/-- A UDP datagram to a listed port. [log 241 DEDUCED] -/
def parseUdp (port : Nat) (udpPorts : List Nat) (d : Bytes) (p : Parsed) : Parsed :=
  let dst := beAt 2 2 d
  let len := beAt 4 2 d
  if d.length < 8 || dst == 0 || !udpPorts.contains dst then p
  else if len < 8 || d.length < len then p.flag fTruncated
  else parseSomeip port (len + 1) (sliceB 8 (len - 8) d) p

/-- One's-complement sum of 16-bit words, folded. -/
def ipSum (d : Bytes) : Nat :=
  let t := ((chunksOf 2 (d.length + 1) d).map fun c => beNat (padTo 2 c)).sum
  Nat.repeat (fun x => x % 65536 + x / 65536) 4 t

/-- An IPv4 packet: valid checksum, no fragment, UDP. -/
def parseIpv4 (port : Nat) (udpPorts : List Nat) (d : Bytes) (p : Parsed) : Parsed :=
  let ihl := 4 * (fieldAt 0 1 d % 16)
  if d.length < 20 || fieldAt 0 1 d / 16 != 4 then p
  else if ihl < 20 || d.length < ihl || ipSum (d.take ihl) != 65535 || beAt 6 2 d % 2 ^ 14 != 0 then p.flag fStopped
  else if fieldAt 9 1 d != 17 then p
  else parseUdp port udpPorts ((d.take (beAt 2 2 d)).drop ihl) p

/-- Next Header values of IPv6 extension headers. -/
def ipv6Ext : List Nat := [0, 43, 44, 50, 51, 60, 135, 139, 140]

/-- An IPv6 packet with UDP next. -/
def parseIpv6 (port : Nat) (udpPorts : List Nat) (d : Bytes) (p : Parsed) : Parsed :=
  let nh := fieldAt 6 1 d
  if d.length < 40 || fieldAt 0 1 d / 16 != 6 then p
  else if ipv6Ext.contains nh then p.flag fStopped
  else if nh != 17 then p
  else parseUdp port udpPorts ((d.drop 40).take (beAt 4 2 d)) p

/-- A frame without its FCS divided into PDUs (R129 to R132). -/
def parseFrame (port : Nat) (gptpPort : Nat) (udpPorts : List Nat) (d : Bytes) : Parsed :=
  let et0 := beAt 12 2 d
  let tagged := et0 == 0x8100
  let et := if tagged then beAt 16 2 d else et0
  let body := d.drop (if tagged then 18 else 14)
  let vid := if tagged then beAt 14 2 d % 4096 else 0
  let p :=
    if et == 0x8100 || et == 0x88A8 then Parsed.none.flag fStopped
    else if et == 0x22F0 then parseAvtp port body Parsed.none
    else if et == 0x0800 then parseIpv4 port udpPorts body Parsed.none
    else if et == 0x86DD then parseIpv6 port udpPorts body Parsed.none
    else if (et == 0x88F7 && port == gptpPort) || et == 0x88B5 then { Parsed.none with passed := true }
    else Parsed.none
  if p.pdus.isEmpty && !p.passed then
    { p with pdus := [(4 * 2 ^ 60 + port * 2 ^ 58 + (if tagged then 2 ^ 28 else 0) + vid * 2 ^ 16 + et, body)] }
  else p

/-- The winning entry of a generation for a key: least priority, then bank, then index (R224). -/
def mapLookup (entries : NMap MapEntry) (key : Nat) : Option MapEntry :=
  entries.foldl (fun best e =>
    if (e.2.key ^^^ key) &&& e.2.mask != 0 then best else
    match best with
    | some b => if e.2.priority < b.priority then some e.2 else best
    | Option.none => some e.2) Option.none

/-- One signal entry (R134). -/
structure SigEntry where
  start : Nat
  length : Nat
  big : Bool
  signed : Bool
  convert : Nat
  target : Nat
  factor : Nat
  offset : Nat
deriving DecidableEq, Repr

/-- A decode program read from its bytes. -/
structure Prog where
  table : Nat
  narrow : Bool
  minPayload : Nat
  entries : List SigEntry
  reservedOk : Bool
deriving DecidableEq, Repr

/-- Reads one signal entry. -/
def SigEntry.parse (b : Bytes) : SigEntry :=
  let x := fieldAt 2 2 b
  { start := fieldAt 0 2 b, length := x % 128, big := bitAt x 7, signed := bitAt x 8, convert := bitsOf x 10 9,
    target := fieldAt 4 2 b, factor := fieldAt 8 4 b, offset := fieldAt 12 4 b }

/-- Reads a decode program (R134). -/
def Prog.parse (b : Bytes) : Prog :=
  let n := fieldAt 2 1 b
  let raw := (List.range n).map fun i => sliceB (16 + 16 * i) 16 b
  { table := fieldAt 0 2 b, narrow := bitAt (fieldAt 3 1 b) 0, minPayload := fieldAt 4 2 b,
    entries := raw.map SigEntry.parse,
    reservedOk := 1 ≤ n && n ≤ 64 && b.length == 16 + 16 * n && fieldAt 3 1 b < 2 && fieldAt 6 10 b == 0
      && raw.all fun e => fieldAt 2 2 e < 2 ^ 11 && fieldAt 6 2 e == 0 }

/-- Bit positions of a value, least significant first (R135). -/
def bitPlaces (e : SigEntry) : List Nat :=
  if !e.big then (List.range e.length).map (e.start + ·)
  else
    ((List.range e.length).foldl (fun (acc : List Nat × Nat) _ =>
      (acc.2 :: acc.1, if acc.2 % 8 == 0 then acc.2 + 15 else acc.2 - 1)) ([], e.start)).1

/-- The raw value, sign-extended where SIGNED (R135). -/
def extractRaw (e : SigEntry) (payload : Bytes) : Int :=
  let v := (bitPlaces e).foldr (fun p acc => 2 * acc + bitsOf (payload.getD (p / 8) 0).toNat (p % 8) (p % 8)) 0
  if e.signed then signedOf e.length v else v

/-- An entry's value for a column of a type, or for VALUE of a narrow row (R135). -/
def entryValue (narrow : Bool) (ty : Nat) (e : SigEntry) (payload : Bytes) : Val :=
  let raw := extractRaw e payload
  let bits := unsignedOf 64 raw
  if e.convert == 3 then
    let m := f64.mul (f64.ofInt raw).bits (f32.cvt f64 e.factor).bits
    .num (f64.canon (f64.add m.bits (f32.cvt f64 e.offset).bits).bits)
  else if narrow then
    if e.convert == 1 then .num (f32.cvt f64 bits).bits
    else if e.convert == 2 then .num (f64.canon bits)
    else .num (f64.ofInt raw).bits
  else canonVal ty (.num bits)

/-- The rows a program produces from a payload, in entry order; the columns are those of the target table. -/
def progRows (p : Prog) (cols : List ColDesc) (payload : Bytes) : List DecRow :=
  if p.narrow then p.entries.map fun e => ⟨p.table, [.num e.target, entryValue true 0x0B e payload]⟩
  else
    [⟨p.table, (List.range (cols.length - 3)).map fun i =>
      match p.entries.find? (·.target == i + 3) with
      | some e => entryValue false ((cols.getD (i + 3) (plainCol 0 0)).type) e payload
      | Option.none => .null⟩]

/-- Bits and signedness of a type that counts as an integer column (R136). -/
def intColumn (ty : Nat) : Option (Nat × Bool) :=
  if ty == 1 then some (1, false)
  else if ty == 12 then some (64, false)
  else if tySigned ty then some (tyBits ty, true)
  else if 6 ≤ ty && ty ≤ 9 then some (tyBits ty, false)
  else Option.none

/-- An entry suits its column (R136). -/
def entrySuits (e : SigEntry) (c : ColDesc) : Bool :=
  match e.convert with
  | 0 =>
    match intColumn c.type with
    | some (bits, sg) =>
      if c.type == 1 then e.length == 1 && !e.signed
      else if e.signed then sg && e.length ≤ bits
      else if sg then e.length + 1 ≤ bits else e.length ≤ bits
    | Option.none => false
  | 1 => c.type == 10
  | 2 => c.type == 11
  | _ => c.type == 11

/-- A program suits its target table (R136). -/
def progSuits (p : Prog) (d : TableDesc) : Bool :=
  if p.narrow then
    (d.cols.drop 3).map (fun c => (c.type, c.nullable)) == [(7, false), (11, false)]
  else
    let ts := p.entries.map (·.target)
    ts.all (fun t => 3 ≤ t && t < d.cols.length) && decide ts.Nodup
      && p.entries.all (fun e => entrySuits e (d.cols.getD e.target (plainCol 0 0)))
      && (List.range d.cols.length).all fun i =>
        i < 3 || ts.contains i || (d.cols.getD i (plainCol 0 0)).nullable

/-- The entry's own rules (R136). -/
def entryOk (minPayload : Nat) (e : SigEntry) : Bool :=
  1 ≤ e.length && e.length ≤ 64 && (e.convert != 1 || e.length == 32) && (e.convert != 2 || e.length == 64)
    && (bitPlaces e).all (· < 8 * minPayload)

/-- The first program that breaks R136, with 4,096 for a map entry's missing program. -/
def badProgram (g : MapGen) (table : Nat → Option TableDesc) : Option Nat :=
  let missing := g.entries.find? fun e =>
    !bitAt e.2.result 12 && ((nget g.programs (e.2.result % 4096)).map (·.complete)) != some true
  match missing with
  | some e => some (e.2.result % 4096)
  | Option.none =>
    (g.programs.find? fun p =>
      let q := Prog.parse p.2.bytes
      !p.2.complete || !q.reservedOk || !q.entries.all (entryOk q.minPayload) ||
        match table q.table with
        | some d => !progSuits q d
        | Option.none => true).map (·.1)

end Sys2Proof.Machine
end

