-- ==== Sys2Proof/Machine/Ingest.lean ====
section
/-! DEFINITION. Ingest (chapter 04): units, the Ligger's release, late rows and duplicates, the Eave ports and the
shadow generation of the signal map. -/

namespace Sys2Proof.Machine

/-- Rows the Ligger holds (0x1090:01). -/
def State.heldRows (s : State) : Nat := (s.tables.tables.map fun p => p.2.held.length).sum

/-- HELD_MAX follows the rows held. -/
def State.noteHeld (s : State) : State := s.setRo 0x1090 2 (max (s.ro 0x1090 2) s.heldRows)

/-- The duplicate horizon in ns: the longer of four Rafter periods and 10 ms (R147). -/
def State.dupHorizon (s : State) : Nat := max (4 * s.time.period) 10000000

/-- A row joins the rows the Ligger holds for a table, in triple order. -/
def holdRow (t : Table) (r : SRow) : Table := { t with held := insertBy (fun a b => a.stamp.lt b.stamp) r t.held }

/-- What entering a unit did: late rows admitted and dropped, and whether the unit was a duplicate. -/
structure UnitOut where
  admitted : Nat
  dropped : Nat
  duplicate : Bool
deriving DecidableEq, Repr

/-- One row of a unit enters (R144). -/
def State.enterRow (acc : State × UnitOut) (x : Nat × SRow) : State × UnitOut :=
  let (s, o) := acc
  let (id, r) := x
  match s.table id with
  | none => (s, o)
  | some t =>
    let late := match t.mark with
      | some m => r.stamp.lt m
      | none => false
    if !late then (s.modTable id (holdRow · r), o)
    else
      let p := t.desc.ingest
      let m := (t.mark.map (·.ts)).getD 0
      if p.lateAdmit && (p.lateHorizon == 0 || m ≤ r.stamp.ts + p.lateHorizon * 1000000) then
        (((s.placeRow id true r).enforce id).bump 0x1090 3 1, { o with admitted := o.admitted + 1 })
      else (s.bump 0x1090 4 1, { o with dropped := o.dropped + 1 })

/-- The Ligger still holds a row of a recorded unit (R147). -/
def State.holdsUnit (s : State) (u : UnitRec) : Bool :=
  s.tables.tables.any fun p => p.2.held.any fun r =>
    r.stamp.ts == u.stamp.ts && r.stamp.src == u.stamp.src && decide ((r.stamp.seq + 2 ^ 24 - u.stamp.seq) % 2 ^ 24 ≤ u.rows)

/-- A unit enters the Ligger (R115, R147, R661): found in the unit record it is dropped whole. -/
def State.enterUnit (s : State) (unit : Stamp) (rows : List (Nat × SRow)) : State × UnitOut :=
  let first := (rows.head?.map (·.1)).getD 0
  let s := s.modIngest fun g => { g with units := g.units.filter fun u => decide (s.time.ts ≤ u.enteredAt + s.dupHorizon) || s.holdsUnit u }
  match s.ingest.units.find? fun u => u.stamp.same unit with
  | some u =>
    let s := (s.bump 0x1090 5 1).bump 0x1090 6 rows.length
    let s :=
      if u.firstTable != first || u.rows != rows.length then
        s.raise srcLigger { ErrRec.blank with code := stDuplicate, detail0 := first, detail1 := rows.length }
      else s
    (s, ⟨0, 0, true⟩)
  | none =>
    let s := s.modIngest fun g => { g with units := keepLast 33554432 (g.units ++ [⟨unit, first, rows.length, s.time.ts⟩]) }
    let (s, o) := rows.foldl State.enterRow (s, ⟨0, 0, false⟩)
    (s.noteHeld, o)

/-! APPENDs that the Ligger has finished with. -/

/-- A held row belongs to the unit of a receipt (R116). -/
def ofUnit (receipt : Stamp) (rows : Nat) (r : Stamp) : Bool :=
  r.ts == receipt.ts && r.src == receipt.src && (r.seq + 2 ^ 24 - receipt.seq - 1) % 2 ^ 24 < rows

/-- ROWS of an APPEND. -/
def Cmd.rows (c : Cmd) : Nat := c.arg 2 % 2 ^ 32

/-- Every row of a committed APPEND has been made visible or dropped (R524). -/
def State.appendSettled (s : State) (c : Cmd) : Bool :=
  match s.table (c.arg 1) with
  | none => true
  | some t => !t.held.any fun r => ofUnit c.receipt c.rows r.stamp

/-- The status of a settled APPEND (R144). -/
def Cmd.appendStatus (c : Cmd) : Nat :=
  let admitted : Nat := c.d[1] % 2 ^ 32
  let dropped : Nat := c.d[1] / 2 ^ 32
  if 0 < dropped then stLateRejected else if 0 < admitted then stLateAdmitted else stOk

/-- Marks settled APPENDs, and completes those without the Nail flag (R524). -/
def State.settleAppends (s : State) : State :=
  (List.finRange 64).foldl (fun s i =>
    (s.insts[i]).queue.foldl (fun s c =>
      if c.opcode == 0x20 && c.stage == .running && !c.settled && s.appendSettled c then
        let s := s.modCmd i c.receipt fun c => { c with settled := true }
        if c.nail then s else s.complete i c.receipt c.appendStatus
      else s) s) s

/-! Release. -/

/-- The pending APPEND that blocks a row of a table (R143). -/
def State.blocks (s : State) (id : Nat) (r : Stamp) : Option PendAppend :=
  s.ingest.appends.find? fun a => a.table == id && a.receipt.lt r && !a.expired

/-- The table's least held row is released and made visible (R35, R82, R143). -/
def State.releaseLeast (s : State) (id : Nat) : State :=
  match s.table id with
  | none => s
  | some t =>
    match t.held with
    | [] => s
    | r :: rest => (s.modTable id fun t => { t with held := rest }).placeRow id false r |>.enforce id

/-- Release of the least held row at its due time, unless a pending APPEND blocks it. -/
def State.liggerRelease (s : State) (id : Nat) : State :=
  match (s.table id).bind fun t => t.held.head?.map fun r => (t, r) with
  | none => s
  | some (t, r) =>
    if (s.blocks id r.stamp).isSome then s
    else (((s.advanceTo (r.stamp.ts + 1000 * t.desc.ingest.lateWindow)).releaseLeast id).enforce id).settleAppends

/-- A held row's lateness window expires and no earlier pending APPEND blocks it. -/
def execLiggerRelease (table : Nat) (s : State) : Res := .next (s.liggerRelease table)

/-- A pending APPEND reaches BLOCK_LIMIT and stops blocking (R143). [log 32 DEDUCED] -/
def State.blockExpiry (s : State) (r : Stamp) : State :=
  match s.ingest.appends.find? fun a => a.receipt == r && !a.expired with
  | none => s
  | some a =>
    let s := s.advanceTo (a.since + 1000 * s.cfg 0x1090 0x10 10000)
    (s.modIngest fun g => { g with appends := g.appends.map fun x =>
      if x.receipt == r then { x with expired := true } else x }).bump 0x1090 8 1

/-- The pending APPEND of an instance with a receipt SEQ24 reaches BLOCK_LIMIT. -/
def execBlockLimitExpiry (inst : InstId) (seq : Nat) (s : State) : Res :=
  .next (match s.ingest.appends.find? fun a => a.receipt.src == inst.val && a.receipt.seq == seq with
    | some a => s.blockExpiry a.receipt
    | none => s)

/-- The table whose least held row is globally least (R145). -/
def State.leastTable (s : State) : Option Nat :=
  (s.tables.tables.foldl (fun (best : Option (Nat × Stamp)) p =>
    match p.2.held.head? with
    | none => best
    | some r => match best with
      | some (_, b) => if r.stamp.lt b then some (p.1, r.stamp) else best
      | none => some (p.1, r.stamp)) none).map (·.1)

/-- Releases globally until fewer than a bound are held, counting each row (R145). -/
def State.forceDown (bound : Nat) : Nat → State → State
  | 0, s => s
  | fuel + 1, s =>
    if s.heldRows < bound then s else
    match s.leastTable with
    | none => s
    | some id => State.forceDown bound fuel ((s.releaseLeast id).bump 0x1090 7 1)

/-- The Ligger's held count has passed 15/16 of its capacity (R145). -/
def State.forcedRelease (s : State) : State :=
  if 15728640 < s.heldRows then (s.forceDown 14680064 (s.heldRows + 1)).settleAppends else s

/-- Forced release. -/
def execForcedRelease (s : State) : Res := .next s.forcedRelease

/-! The Eave ports. -/

/-- A counter of an Eave port (0x3148 + n). -/
def State.eaveCount (s : State) (port : PortId) (sub n : Nat) : State := s.bump (0x3148 + port.val) sub n

/-- One Eave port changed. -/
def State.modEave (s : State) (port : PortId) (f : EaveSt → EaveSt) : State :=
  s.modIngest fun g => { g with eave := g.eave.set port (f (g.eave[port])) }

/-- Ring space of a frame: its bytes and a capture descriptor of 64 bytes. [log 28 DEDUCED] -/
def ringSpace (frame : Bytes) : Nat := frame.length + 64

/-- A MAC Control PAUSE frame (IEEE 802.3). -/
def isPause (frame : Bytes) : Bool := beAt 12 2 frame == 0x8808 && beAt 14 2 frame == 1

/-- The generation that decodes a frame of a TS64 (R138). [log 29 DEDUCED] -/
def IngestSt.genOf (g : IngestSt) (ts : Nat) : MapGen :=
  if g.mapNow.since ≤ ts then g.mapNow else g.mapPrev.getD g.mapNow

/-- The note of a frame lost to its FCS or for want of ring space (R669). [log 250 DESIGN CHOICE] -/
def State.eaveNote (s : State) (port : PortId) (event : Nat) : State :=
  s.raise (0x48 + port.val) { ErrRec.blank with scope := 9, scopeId := 0x10 + port.val, event := event }

/-- A frame without its FCS arrives at a port (R126, R127). [log 240 DESIGN CHOICE] -/
def State.eaveFrame (s : State) (port : PortId) (frame : Bytes) (fcsOk : Bool) : State :=
  let wire := frame.length + 4
  let e := s.ingest.eave[port]
  if !s.cfgBool (0x3140 + port.val) 1 false || !s.time.run then s
  else if e.stopped then s.eaveCount port 4 1
  else if !fcsOk then (s.eaveCount port 2 1).eaveNote port 1
  else if wire < 64 || 2048 < wire then s.eaveCount port 3 1
  else if isPause frame then s.eaveCount port 5 1
  else
    let s := s.eaveCount port 1 1
    let cap := s.cfg (0x3140 + port.val) 5 64 * 2 ^ 20
    if cap < e.ringUsed + ringSpace frame then (s.eaveCount port 4 1).eaveNote port 2 else
    let entry : RingEntry :=
      { ts := s.time.ts, tq := s.tq8, frame := frame, wireLength := wire, flags := 0, pdus := 0, rows := [],
        capture := false, base := none, generation := (s.ingest.genOf s.time.ts).number, entered := false }
    let s := s.modEave port fun e =>
      { e with ring := e.ring ++ [entry], ringUsed := e.ringUsed + ringSpace frame }
    s.setRo (0x3148 + port.val) 0x0E
      (max (s.ro (0x3148 + port.val) 0x0E) ((s.ingest.eave[port]).ringUsed * 100 / cap))

/-- An Eave port receives a frame. -/
def execEaveFrameReceived (port : PortId) (frame : Bytes) (fcsOk : Bool) (s : State) : Res :=
  .next (s.eaveFrame port frame fcsOk)

/-- What decoding a frame's PDUs gives: rows, flags, RAW met, and counts of matched, unknown and short PDUs. -/
structure Decoded where
  rows : List DecRow
  flags : Nat
  raw : Bool
  matched : Nat
  unknown : Nat
  short : Nat
deriving DecidableEq, Repr

/-- The entry that a PDU's key finds: under the generation in force, what a SEARCH of the MAP banks gives; under the one before it, what
that generation held in them (R133, R138, R231). [log 29 DEDUCED] -/
def State.mapFind (s : State) (g : MapGen) (key : Nat) : Option Nat × State :=
  if g.number == s.ingest.mapNow.number then
    let (w, s) := (s.bump 0x18C0 3 1).pSearch s.mapBanks [key, 0] ⟨[], []⟩
    (w.map (·.2.2.result), s)
  else ((mapLookup (g.entries.filter fun e => s.mapFits e.1) key).map (·.result), s)

/-- One PDU decoded: the RESULT of the entry its key finds says what becomes of it (R133 to R135). -/
def State.decodePdu (s : State) (g : MapGen) (d : Decoded) (pay : Bytes) : Option Nat → Decoded
  | none => { d with flags := d.flags ||| fUnknown, unknown := d.unknown + 1 }
  | some result =>
    let d := { d with matched := d.matched + 1, raw := d.raw || bitAt result 13 }
    if bitAt result 12 then d else
    match nget g.programs (result % 4096) with
    | none => d
    | some pr =>
      let q := Prog.parse pr.bytes
      if pay.length < q.minPayload then { d with flags := d.flags ||| fShort, short := d.short + 1 } else
      let cols := ((s.table q.table).map (·.desc.cols)).getD []
      { d with rows := d.rows ++ progRows q cols pay }

/-- Decodes a frame's PDUs under a generation (R133 to R135). -/
def State.decodePdus (s : State) (g : MapGen) (p : Parsed) : Decoded × State :=
  p.pdus.foldl (fun (acc : Decoded × State) (key, pay) =>
    let (r, s) := acc.2.mapFind g key
    (s.decodePdu g acc.1 pay r, s)) (⟨[], p.flags, false, 0, 0, 0⟩, s)

/-- Searches of the MAP banks are executed: every one is enabled, and none has an entry awaiting its rewriting (R218, R228). -/
def State.mapReady (s : State) : Bool :=
  s.mapBanks.all fun b => (s.purlin.banks[b]).enable && (s.purlin.banks[b]).awaiting.isEmpty

/-- The generation of a ring entry. -/
def IngestSt.genNo (g : IngestSt) (n : Nat) : MapGen :=
  if g.mapNow.number == n then g.mapNow else g.mapPrev.getD g.mapNow

/-- Capture under the port's mode (R140). [log 28 DEDUCED] -/
def captures (mode flags : Nat) (raw : Bool) : Bool :=
  mode == 1 || (mode == 2 && (raw || flags &&& 0xDF != 0))

/-- The frame's parse under the port's settings (R129). -/
def State.framePdus (s : State) (port : PortId) (e : RingEntry) : Parsed :=
  let ports := match s.objBytes (0x3140 + port.val) 6 with
    | some b => (List.range 16).map fun i => fieldAt (2 * i) 2 b
    | none => []
  parseFrame port.val (s.cfg 0x0402 2 0) ports e.frame

/-- The port's counters take a frame decoded for the first time. -/
def State.frameCounts (s : State) (port : PortId) (p : Parsed) (d : Decoded) : State :=
  let s := (((s.eaveCount port 6 d.matched).eaveCount port 7 d.unknown).eaveCount port 9 d.short).eaveCount port 0x0F p.skipped
  let s := s.eaveCount port 0x0A p.trailing
  let s := if p.flags &&& fTruncated != 0 then s.eaveCount port 8 1 else s
  let s := if p.flags &&& fStopped != 0 then s.eaveCount port 0x0B 1 else s
  if p.flags &&& fLimit != 0 then s.eaveCount port 0x10 1 else s

/-- A frame's entry with its capture descriptor filled in: the rows produced, FLAGS and whether it is captured (R137, R139, R140). -/
def State.frameOut (s : State) (port : PortId) (e : RingEntry) (p : Parsed) (d : Decoded) : RingEntry :=
  let live := d.rows.filter fun r => ((s.table r.table).map fun t => !t.dropping && !s.refusesRows r.table).getD false
  let flags := d.flags ||| (if live.length < d.rows.length then fNoTable else 0)
  let cap := captures (s.cfg (0x3140 + port.val) 3 1) flags d.raw
  { e with
    rows := live, pdus := p.pdus.length, capture := cap
    flags := flags ||| (if s.cfg (0x3140 + port.val) 4 2044 < e.frame.length then fCut else 0) }

/-- SEQ24 values a frame's block takes. -/
def RingEntry.block (e : RingEntry) : Nat := e.rows.length + e.capture.toNat

/-- The rows of a frame with its block's base: the decoded rows, then the raw-frame row (R137, R139). -/
def RingEntry.unitRows (e : RingEntry) (src base len : Nat) : List (Nat × SRow) :=
  let mk := fun (i : Nat) (vals : List Val) => (⟨⟨e.ts, src, (base + i) % 2 ^ 24, e.tq⟩, vals, 0⟩ : SRow)
  let raw := [Val.num e.wireLength, .num e.flags, .num e.pdus, .num e.rows.length, .str (e.frame.take len)]
  ((e.rows.zip (List.range e.rows.length)).map fun (r, i) => (r.table, mk i r.vals))
    ++ (if e.capture then [(0xFFF2, mk e.rows.length raw)] else [])

/-- The unit of a frame enters the Ligger under its block's base. -/
def State.enterFrame (s : State) (port : PortId) (e : RingEntry) (base : Nat) : State :=
  let src := 0x48 + port.val
  (s.enterUnit ⟨e.ts, src, base, e.tq⟩ (e.unitRows src base (s.cfg (0x3140 + port.val) 4 2044))).1

/-- One entry of a port's ring replaced. -/
def State.setEntry (s : State) (port : PortId) (k : Nat) (e : RingEntry) : State :=
  s.modEave port fun x => { x with ring := x.ring.set k e }

/-- The first frame of a port's ring that has not entered is decoded, its SEQ24 block reserved and the base recorded in its ring
entry, and its unit enters the Ligger (R128, R137, R139); a frame whose searches wait waits (R228). [log 29 DEDUCED] -/
def State.eaveEntry (s : State) (port : PortId) : State :=
  let ring := (s.ingest.eave[port]).ring
  match ring.find? (!·.entered) with
  | none => s
  | some e =>
    let k := ring.findIdx (!·.entered)
    let p := s.framePdus port e
    if !p.pdus.isEmpty && !s.mapReady then s else
    let (d, s) := s.decodePdus (s.ingest.genNo e.generation) p
    let s := (s.plynFrame port.val e.frame e.ts).frameCounts port p d
    let e := { s.frameOut port e p d with entered := true }
    let s := (s.eaveCount port 0x0D (d.rows.length - e.rows.length)).bump 0x1082 4 (d.rows.countP fun r => s.refusesRows r.table)
    if e.block == 0 then s.setEntry port k e else
    let (base, s) := s.takeSeq (0x48 + port.val) e.block
    let s := (s.setEntry port k { e with base := some base }).eaveCount port 0x0C e.rows.length
    s.enterFrame port e base

/-- The ring position of each port: the frames that have entered (R149). -/
def IngestSt.ringPos (g : IngestSt) : Vector Nat 4 := g.eave.map fun e => e.ringBase + e.ring.countP (·.entered)

/-- Frames that a checkpoint in force covers leave their rings, and their space is free (R127, R149). [log 207 DEDUCED] -/
def State.freeRings (s : State) (pos : Vector Nat 4) : State :=
  (List.finRange 4).foldl (fun s (i : Fin 4) =>
    s.modEave i fun e =>
      let n := pos[i] - e.ringBase
      { e with ring := e.ring.drop n, ringBase := e.ringBase + (e.ring.take n).length
               ringUsed := e.ringUsed - ((e.ring.take n).map fun x => ringSpace x.frame).sum }) s

/-- A frame whose entry holds a base is decoded again with that base, and the Ligger drops its unit by R147 (R149); it has been counted
once. [log 207 DEDUCED] -/
def State.redecode (s : State) (port : PortId) (e : RingEntry) : State :=
  match e.base with
  | none => s
  | some base =>
    let p := s.framePdus port e
    let (d, s) := s.decodePdus (s.ingest.genNo e.generation) p
    s.enterFrame port (s.frameOut port e p d) base

/-- After a takeover each port's frames are decoded again from the ring position of the last checkpoint (R149); those not yet
entered are decoded as their turn comes. -/
def State.redecodeRings (s : State) : State :=
  (List.finRange 4).foldl (fun s i => ((s.ingest.eave[i]).ring.filter (·.entered)).foldl (fun s e => s.redecode i e) s) s

/-- A decoded frame reserves its SEQ24 block and enters the Ligger. -/
def execEaveUnitEntry (port : PortId) (s : State) : Res := .next (s.eaveEntry port)

/-- A PCS gains or loses block lock (0x3140:07). -/
def execEaveBlockLock (port : PortId) (locked : Bool) (s : State) : Res :=
  .next (s.modEave port fun e => { e with linkUp := locked })

/-! The shadow generation (R138, R152). -/

/-- A map entry written into the shadow generation; not VALID removes it. -/
def State.shadowEntry (s : State) (index bank priority key mask result : Nat) (valid : Bool) : State :=
  s.modIngest fun g =>
    let k := bank * 65536 + index
    let old := g.shadow.entries
    let new := if valid then nput old k (MapEntry.mk priority key mask result) else ndel old k
    { g with shadow := { g.shadow with entries := new } }

/-- Bytes of programs in a generation. -/
def MapGen.progBytes (g : MapGen) : Nat := (g.programs.map fun p => p.2.bytes.length).sum

/-- A program chunk written into the shadow generation at an offset; LAST completes the program. -/
def State.shadowChunk (s : State) (program off : Nat) (last : Bool) (bytes : Bytes) : Nat × State :=
  let old := (nget s.ingest.shadow.programs program).getD ⟨[], false⟩
  let base := if off == 0 then [] else old.bytes
  let new := overlay base off bytes
  if 4096 ≤ program || 4000 < bytes.length || 2 ^ 20 < s.ingest.shadow.progBytes - old.bytes.length + new.length then
    (stBadArgument, s)
  else (stOk, s.modIngest fun g =>
    { g with shadow := { g.shadow with programs := nput g.shadow.programs program ⟨new, last⟩ } })

/-- The digest of a generation that MS6 is extended with (R636). -/
def MapGen.digest (g : MapGen) : Bytes :=
  sha256 ((g.entries.flatMap fun e => toLE 4 e.1 ++ toLE 1 e.2.priority ++ toLE 8 e.2.key ++ toLE 8 e.2.mask ++ toLE 4 e.2.result)
    ++ g.programs.flatMap fun p => toLE 2 p.1 ++ toLE 4 p.2.bytes.length ++ p.2.bytes)

/-- MAP_COMMIT applied at a boundary (R136, R138): 1 commits the shadow, 2 copies the generation in force into it. -/
def State.mapCommit (s : State) (action boundary : Nat) : Nat × State :=
  if action == 2 then
    (stOk, s.modIngest fun g => { g with shadow := { g.mapNow with number := 0, since := 0 } })
  else if action != 1 then (stBadArgument, s)
  else
    let g := s.ingest
    let undecoded := match g.mapPrev with
      | some p => (List.finRange 4).any fun i => (g.eave[i]).ring.any fun e => !e.entered && e.generation == p.number
      | none => false
    if undecoded then (stBusy, s) else
    match badProgram g.shadow (fun id => (s.table id).bind fun t => if t.dropping then none else some t.desc) with
    | some p => (stBadArgument, s.raise s.ridgeSrc { ErrRec.blank with code := stBadArgument, event := 4, detail0 := p })
    | none =>
      let new := { g.shadow with number := g.mapNow.number + 1, since := boundary }
      let s := s.modIngest fun g => { g with mapPrev := some g.mapNow, mapNow := new }
      let s := s.modBoot fun b => { b with ms := b.ms.set 6 (sha256 (b.ms[6] ++ new.digest)) }
      (stOk, s)

end Sys2Proof.Machine
end

