-- ==== Sys2Proof/Machine/Commands.lean ====
section
/-! DEFINITION. Task registers and commands (chapter 18), with APPEND batches (chapter 04) and the table commands (03). -/

namespace Sys2Proof.Machine

/-! TASK_GO (R517 to R519). -/

/-- SEQ24 values a command's receipt reserves (R116, R519). -/
def receiptSeqs (cmd arg2 : Nat) : Nat :=
  let rows := arg2 % 2 ^ 32
  if cmd % 256 == 0x20 && 1 ≤ rows && rows ≤ 65536 then 1 + rows else 1

/-- An instance is bound to the PF of the manager host (R509, R520). -/
def State.managerInst (s : State) (i : InstId) : Bool :=
  match s.managerPort, (s.insts[i]).func with
  | some p, some f => f == funcOf p 0
  | _, _ => false

/-- TASK_GO written at a function. [log 129 DEDUCED, 133 DEDUCED, 134 DEDUCED] -/
def State.taskGo (s : State) (f : FuncId) (value : Nat) : State :=
  if value != 1 then s else
  match (s.host.funcs[f]).inst with
  | none => s.modFunc f fun x => { x with regs := { x.regs with lastStatus := stWrongState } }
  | some i =>
    if s.taskState f != 0 then
      let st := if s.taskFull f then stQueueFull else stBusy
      (s.modFunc f fun x => { x with regs := { x.regs with lastStatus := st } }).modInst i fun x => { x with goIgnored := x.goIgnored + 1 }
    else
      let regs := (s.host.funcs[f]).regs
      let args := regs.args.toList
      let (seq, s) := s.takeSeq i.val (receiptSeqs regs.cmd (args.getD 2 0))
      let r : Stamp := ⟨s.time.ts, i.val, seq, s.tq8⟩
      let c : Cmd :=
        { receipt := r, word := regs.cmd, tag := regs.tag, args := args, stage := .queued, data := [], params := [], reads := [],
          planSlot := none, settled := false, d := .replicate 4 0, energy := 0, planId := [], manager := s.managerInst i }
      let s := s.modInst i fun x => { x with queue := x.queue ++ [c], commands := x.commands + 1, power := 0 }
      let s := s.modFunc f fun x => { x with regs := { x.regs with receipt := r, lastStatus := 0 } }
      if s.ridgeTakes then s.journal 1 r regs.cmd else s.noteDeferral

/-- A write to TASK_GO. -/
def execTaskGo (func : FuncId) (value : Nat) (s : State) : Res := .next (s.taskGo func value)

/-! The checks of R521. -/

/-- Bits of the eight arguments that R520 lists for an opcode. -/
def argMasks (opcode arg0 : Nat) : List Nat :=
  let all : Nat := 2 ^ 64 - 1
  match opcode with
  | 0x03 => [3, if bitAt arg0 0 then all else 0xFFFFFF]
  | 0x10 => [all, 0xFFFFFFFF]
  | 0x11 => [all, 0xFFFFFFFF, 0xFFFF]
  | 0x12 => [0xFFFF]
  | 0x20 => [all, 0xFFFF, all, 0xFFFFFFFF]
  | 0x30 => [all, 0xFFFFFFFF, all, all, 0xFFFFFFFF]
  | 0x31 => [0xFFFFFFFF]
  | 0x38 => [all]
  | 0x39 => [0xFF]
  | 0x3A => [all, 0xFF]
  | _ => []

/-- Opcodes of R520. -/
def opcodes : List Nat := [1, 2, 3, 0x10, 0x11, 0x12, 0x20, 0x30, 0x31, 0x38, 0x39, 0x3A]

/-- Check 2 of R521. -/
def Cmd.reservedOk (c : Cmd) : Bool :=
  c.word / 2 ^ 9 == 0 && (List.range 8).all fun i => c.arg i &&& (argMasks c.opcode (c.arg 0)).getD i 0 == c.arg i

/-- Check 3 of R521. -/
def Cmd.nailOk (c : Cmd) : Bool := !c.nail || c.isTable || c.opcode == 0x20

/-- Host address arguments with their alignment; optional ones only where given. -/
def Cmd.hostAddrs (c : Cmd) : List (Nat × Nat) :=
  match c.opcode with
  | 0x10 => [(c.arg 0, 64)]
  | 0x11 => [(c.arg 0, 64)]
  | 0x20 => [(c.arg 0, 1)]
  | 0x30 => [(c.arg 0, 64)] ++ (if c.arg 2 == 0 then [] else [(c.arg 2, 8)]) ++ (if c.arg 3 == 0 then [] else [(c.arg 3, 64)])
  | 0x38 => [(c.arg 0, 64)]
  | 0x3A => [(c.arg 0, 64)]
  | _ => []

/-- Check 4 of R521. -/
def State.addrsOk (s : State) (i : InstId) (c : Cmd) : Bool :=
  c.hostAddrs.all fun x => x.1 % x.2 == 0 && x.1 / 2 ^ 40 == (s.instRegs i).obHigh % 2 ^ 24

/-- A Keep entry is in progress and the command's receipt follows T_K (R536). -/
def State.afterKeepStamp (s : State) (c : Cmd) : Bool :=
  s.dram.phase == .entering && (s.dram.keepStamp.map fun k => k.lt c.receipt).getD false

/-- The first of checks 2 to 5 of R521 that a command fails. -/
def State.precheck (s : State) (i : InstId) (c : Cmd) : Option Nat :=
  if !c.reservedOk || !c.nailOk || !s.addrsOk i c then some stBadArgument
  else if s.afterKeepStamp c && 3 < c.opcode then some stWrongState
  else none

/-- The earliest command of an instance of a kind that may start: queued, in order (R523) as the command is known to stand,
no activation (R535). -/
def State.startableAs (s : State) (i : InstId) (known : Cmd → Cmd) (p : Cmd → Bool) : Option Cmd :=
  if !s.ridgeTakes || s.boot.activating.any (·.1 == 1) then none
  else (s.insts[i]).queue.find? fun c => c.stage == .queued && p c && s.inOrder i (known c)

/-- The earliest command of an instance of a kind that may start. [log 131 DEDUCED] -/
def State.startable (s : State) (i : InstId) (p : Cmd → Bool) : Option Cmd := s.startableAs i id p

/-- Starts a command: its checks, then its own meaning. -/
def State.startCmd (s : State) (i : InstId) (c : Cmd) (body : State → Cmd → State) : State :=
  let s := if s.finial.journal.any fun e => e.kind == 1 && e.stamp == c.receipt then s else s.journal 1 c.receipt c.word
  match s.precheck i c with
  | some code => s.complete i c.receipt code
  | none => body s c

/-- Starts the earliest command with an opcode. [log 130 DESIGN CHOICE] -/
def State.begin (s : State) (i : InstId) (opcode : Nat) (body : State → Cmd → State) : State :=
  match s.startable i fun c => c.opcode == opcode with
  | none => s
  | some c => s.startCmd i c body

/-- A command that reads host memory goes on where its instance reaches its host; it ends with the code of what stands in
the way, or waits. [log 130 DESIGN CHOICE] -/
def State.withHost (s : State) (i : InstId) (c : Cmd) (go : State → FuncId → State) : State :=
  match s.hostReach i with
  | .error none => s
  | .error (some code) => s.complete i c.receipt code
  | .ok f => go s f

/-- A command whose opcode R520 does not list. -/
def execBadOpcode (inst : InstId) (s : State) : Res :=
  .next (match s.startable inst fun c => !opcodes.contains c.opcode with
    | some c => s.complete inst c.receipt stBadOpcode
    | none => s)

/-- NOP. -/
def execNop (inst : InstId) (s : State) : Res := .next (s.begin inst 1 fun s c => s.complete inst c.receipt stOk)

/-! Persistent descriptors (R72, R572). -/

/-- Key of a table's descriptor in the persistent dictionary store: above every object's key. [log 25 PRESUMED] -/
def tableKey (id : Nat) : Nat := 2 ^ 24 + id

/-- A table's descriptor, or its absence, handed to the persistent store. -/
def State.commitTable (s : State) (i : InstId) (id : Nat) (desc : Bytes) : State :=
  s.modDict fun d =>
    { d with commits := d.commits ++ [⟨⟨s.time.ts, i.val, 0, 0⟩, .inst i, tableKey id, desc, 0, 0, .window (funcOf 0 0), s.time.ts⟩] }

/-- A table's descriptor change has reached the store. -/
def State.tableCommitted (s : State) (id : Nat) : Bool := !s.dict.commits.any fun w => w.key == tableKey id

/-- A descriptor change written to the store at once. [log 25 PRESUMED] -/
def State.storeTable (s : State) (id : Nat) : State :=
  ((s.dict.commits.filter fun w => w.key == tableKey id).foldl (fun s w =>
    s.storeWrite w.key (if w.value.isEmpty then none else some w.value)) s).modDict fun d =>
      { d with commits := d.commits.filter fun w => w.key != tableKey id }

/-- The bytes of a column descriptor (R69). -/
def ColDesc.bytes (c : ColDesc) : Bytes :=
  toLE 1 c.type ++ toLE 1 c.nullable.toNat ++ toLE 1 c.openEnc ++ toLE 1 c.scale ++ toLE 1 c.sealSet ++ toLE 1 c.yelmFmt ++ zeros 2
    ++ toLE 4 c.maxLen ++ zeros 4

/-- The bytes of a table descriptor (R69). -/
def TableDesc.bytes (d : TableDesc) : Bytes :=
  padTo 64 (toLE 2 d.id ++ toLE 2 d.cols.length ++ toLE 1 d.owner ++ toLE 3 (d.keep.toNat + 2 * d.lapped.toNat + 4 * d.chained.toNat)
    ++ toLE 8 d.retTime ++ toLE 8 d.retDist ++ toLE 8 d.retBytes ++ toLE 4 d.sealAge ++ zeros 4 ++ toLE 4 d.ingest.lateWindow
    ++ toLE 4 d.ingest.lateAdmit.toNat ++ toLE 4 d.ingest.lateHorizon ++ zeros 4 ++ toLE 8 d.readers)
  ++ padTo 64 (d.holds.flatMap fun h => toLE 8 h.lo ++ toLE 8 h.hi) ++ d.cols.flatMap (·.bytes)

/-- A table command has done its work: with the Nail flag it completes once its descriptor is stored (R527). -/
def State.tableDone (s : State) (i : InstId) (c : Cmd) (id : Nat) : State :=
  let s := s.setDetails i c.receipt id 0 0 0
  if c.nail then s.modCmd i c.receipt fun c => { c with stage := .running, reads := [id], settled := true }
  else s.complete i c.receipt stOk

/-- ARG1 of CREATE_TABLE and ALTER_TABLE: the number of columns, where it is one. -/
def descCols (bytes : Nat) : Option Nat :=
  let n := (bytes - 128) / 16
  if 128 ≤ bytes && bytes == 128 + 16 * n && 3 ≤ n && n ≤ 256 then some n else none

/-- A table with nothing in it. -/
def Table.fresh (d : TableDesc) : Table :=
  { desc := d, dropping := false, ingestNext := none, retNext := none, segs := [], nextSeg := 0, mark := none, held := [], refusing := false
    lastMax := none, lastDigest := [] }

/-- CREATE_TABLE after its read (R67, R68, R70, R71, R520). [log 135 DEDUCED] -/
def State.createTable (s : State) (i : InstId) (c : Cmd) (n : Nat) (b : Bytes) : State :=
  let (d, cols, clean) := TableDesc.parse b
  let bad := cols != n || !clean || d.owner != i.val || d.id == 0 || 0xFF00 ≤ d.id || !s.descOk d || 4096 ≤ s.tables.tables.length
  if (s.table d.id).isSome && !(cols != n || !clean || d.owner != i.val || d.id == 0 || 0xFF00 ≤ d.id || !s.descOk d) then
    s.complete i c.receipt stWrongState
  else if bad then s.complete i c.receipt stBadArgument
  else
    let s := s.modTables fun t => { t with tables := nput t.tables d.id (Table.fresh d) }
    (s.commitTable i d.id b).tableDone i c d.id

/-- A descriptor's bytes as far as they arrive, cut to what the command declares; LENGTH_SHORT where they are fewer. -/
def descArrived (c : Cmd) (desc : Bytes) : Except Nat Bytes :=
  let n := c.arg 1 % 2 ^ 32
  if desc.length < n then .error stLengthShort else .ok (desc.take n)

/-- A CREATE_TABLE as the TABLE_ID of its descriptor shows it: it touches that table and no other (R520, R523). -/
def Cmd.naming (desc : Bytes) (c : Cmd) : Cmd := if desc.length < 2 then c else { c with reads := [fieldAt 0 2 desc] }

/-- CREATE_TABLE, with the descriptor bytes its host read returns; it waits only behind commands that touch its table. [log 130 DESIGN CHOICE] -/
def execCreateTable (inst : InstId) (desc : Bytes) (s : State) : Res :=
  .next (match s.startableAs inst (·.naming desc) fun c => c.opcode == 0x10 with
    | none => s
    | some c => s.startCmd inst c fun s c =>
      match descCols (c.arg 1 % 2 ^ 32) with
      | none => s.complete inst c.receipt stBadArgument
      | some n => s.withHost inst c fun s _ =>
        match descArrived c desc with
        | .error code => s.complete inst c.receipt code
        | .ok b => s.createTable inst c n b)

/-- Why ALTER_TABLE or DROP_TABLE may not touch a table; `alter` says that it is an ALTER_TABLE whose instance was bound to the manager
host's PF at its receipt (R520). [log 26 DEDUCED] -/
def State.tableDenied (s : State) (i : InstId) (id : Nat) (alter : Bool) : Option Nat :=
  match s.table id with
  | none => some stBadArgument
  | some t =>
    if t.dropping then some stWrongState
    else if t.desc.owner == i.val || (alter && t.desc.owner == 0xFF) then none
    else some stNotOwner

/-- RW fields of a descriptor put in force: INGEST at the next boundary (R142), retention fields and holds at the next retention
evaluation, the encodings for seals still to start (R72). -/
def Table.alter (t : Table) (d : TableDesc) : Table :=
  { t with desc := { d with ingest := t.desc.ingest, retTime := t.desc.retTime, retDist := t.desc.retDist, retBytes := t.desc.retBytes
                            holds := t.desc.holds }
           retNext := some ⟨d.retTime, d.retDist, d.retBytes, d.holds⟩
           ingestNext := if d.ingest == t.desc.ingest then none else some d.ingest
           segs := t.segs.map fun g => if g.sealing && g.sealCols.isNone then { g with sealCols := some t.desc.cols } else g }

/-- ALTER_TABLE after its read (R72). -/
def State.alterTable (s : State) (i : InstId) (c : Cmd) (n id : Nat) (b : Bytes) : State :=
  let (d, cols, clean) := TableDesc.parse b
  match s.table id with
  | none => s.complete i c.receipt stBadArgument
  | some t =>
    if cols != n || !clean || !d.sameFixed t.desc || !s.descOk d then s.complete i c.receipt stBadArgument
    else
      let s := (s.modTable id (·.alter d)).commitTable i id b
      (t.segs.foldl (fun s g => s.storeFront id g.no) s).tableDone i c id

/-- ALTER_TABLE, with the descriptor bytes its host read returns. -/
def execAlterTable (inst : InstId) (desc : Bytes) (s : State) : Res :=
  .next (s.begin inst 0x11 fun s c =>
    let id := c.arg 2 % 2 ^ 16
    match descCols (c.arg 1 % 2 ^ 32), s.tableDenied inst id c.manager with
    | none, _ => s.complete inst c.receipt stBadArgument
    | _, some code => s.complete inst c.receipt code
    | some n, none => s.withHost inst c fun s _ =>
      match descArrived c desc with
      | .error code => s.complete inst c.receipt code
      | .ok b => s.alterTable inst c n id b)

/-- A drop begins: queries that read the table are retired, its SEALED and KEPT segments are RETIRED (R103), and it completes where no
snapshot holds any (R71, R285). [log 237 DEDUCED] -/
def State.startDrop (s : State) (id : Nat) : State :=
  let s := (s.dropQueries id).modTable id fun t => { t with dropping := true, held := [] }
  let nos := (((s.table id).map (·.segs)).getD []).filter (fun g => g.state == .sealed || g.state == .kept) |>.map (·.no)
  (nos.foldl (fun s no => s.retireSeg id no 3) s).dropComplete id

/-- DROP_TABLEs whose tables are gone complete, or wait for the store with the Nail flag. -/
def State.finishDrops (s : State) : State :=
  (List.finRange 64).foldl (fun s i =>
    (s.insts[i]).queue.foldl (fun s c =>
      let id := c.arg 0 % 2 ^ 16
      if c.opcode == 0x12 && c.stage == .running && !c.settled && (s.table id).isNone then
        (s.commitTable i id []).tableDone i c id
      else s) s) s

/-- DROP_TABLE (R71). -/
def execDropTable (inst : InstId) (s : State) : Res :=
  .next (s.begin inst 0x12 fun s c =>
    let id := c.arg 0 % 2 ^ 16
    match s.tableDenied inst id false with
    | some code => s.complete inst c.receipt code
    | none => ((s.modCmd inst c.receipt fun c => { c with stage := .running }).startDrop id).finishDrops)

/-- The last snapshot holding a dropped table's segments is released. -/
def execTableDropComplete (table : Nat) (s : State) : Res := .next ((s.dropComplete table).finishDrops)

/-! APPEND (R117 to R121). -/

/-- Bytes of a column in a batch row (R118). -/
def ColDesc.batchBytes (c : ColDesc) : Nat := if tyVar c.type then 2 + c.maxLen else tyWidth c.type

/-- Columns a batch supplies. -/
def TableDesc.supplied (d : TableDesc) : List ColDesc := d.cols.drop 3

/-- Bytes of the validity bitmap of a batch row. -/
def TableDesc.bitmapBytes (d : TableDesc) : Nat := ceilDiv (d.supplied.countP (·.nullable)) 8

/-- The schema row size S of R118. -/
def TableDesc.batchRow (d : TableDesc) : Nat := d.bitmapBytes + (d.supplied.map (·.batchBytes)).sum

/-- The checks of R117; none where all pass. -/
def State.appendCheck (s : State) (i : InstId) (c : Cmd) : Option Nat :=
  let rows := c.rows
  let size := c.arg 2 / 2 ^ 32
  let bytes := c.arg 3 % 2 ^ 32
  match s.table (c.arg 1 % 2 ^ 16) with
  | none => some stBadArgument
  | some t =>
    if t.dropping then some stBadArgument
    else if t.desc.owner != i.val then some stNotOwner
    else if c.arg 0 % 64 != 0 || rows == 0 || 65536 < rows || 16 * 2 ^ 20 < bytes || (c.nail && !t.desc.keep) then some stBadArgument
    else if size != t.desc.batchRow || rows * size != bytes then some stBatchInconsistent
    else if s.refusesRows t.desc.id then some stQuota
    else none

/-- An APPEND is pending: it has passed R117 (R143). -/
def State.isPending (s : State) (c : Cmd) : Bool := s.ingest.appends.any (·.receipt == c.receipt)

/-- The header of a pending APPEND is asked for, where its instance reaches its host and a tag is free. -/
def State.appendAsk (s : State) (i : InstId) (c : Cmd) : State :=
  s.withHost i c fun s f =>
    match s.askHost i f c.receipt.seq (c.arg 0) 64 with
    | none => s
    | some s => s.modCmd i c.receipt fun c => { c with stage := .reading 0 }

/-- APPEND starts: its checks, a refusal under R108 counted; having passed them it is pending (R143), and its header is read. -/
def execAppend (inst : InstId) (s : State) : Res :=
  .next (s.begin inst 0x20 fun s c =>
    if s.isPending c then s.appendAsk inst c else
    match s.appendCheck inst c with
    | some code => (if code == stQuota then s.bump 0x1082 4 1 else s).complete inst c.receipt code
    | none =>
      (s.modIngest fun g => { g with appends := g.appends ++ [⟨c.receipt, c.arg 1 % 2 ^ 16, s.time.ts, false⟩] }).appendAsk inst c)

/-- The command of an instance that awaits a part of its host bytes. -/
def State.readingCmd (s : State) (i : InstId) (seq opcode part : Nat) : Option Cmd :=
  (s.insts[i]).queue.find? fun c => c.receipt.seq == seq && c.opcode == opcode && c.stage == .reading part

/-- The header against the command, in the order of R120. [log 239 DEDUCED] -/
def headerCode (c : Cmd) (h : Bytes) : Option Nat :=
  let rows := fieldAt 8 4 h
  let bytes := fieldAt 16 4 h
  if h.length < 64 then some stLengthShort
  else if fieldAt 0 4 h != 0x48544142 || fieldAt 4 2 h != 1 || fieldAt 6 2 h != c.arg 1 % 2 ^ 16 || fieldAt 12 4 h != c.arg 2 / 2 ^ 32
      || !(sliceB 20 44 h).all (· == 0) then some stBadArgument
  else if c.rows < rows || c.arg 3 % 2 ^ 32 < bytes then some stLengthLong
  else if rows < c.rows || bytes < c.arg 3 % 2 ^ 32 then some stLengthShort
  else none

/-- The batch header arrives, as far as it does; the payload is asked for only where the header agrees (R119, R120). -/
def State.appendHeader (s : State) (i : InstId) (seq : Nat) (header : Bytes) : State :=
  match s.readingCmd i seq 0x20 0, s.hostReach i with
  | some c, .ok _ =>
    match headerCode c header with
    | some code => (s.freeCmdTags i seq).complete i c.receipt code
    | none => s.modCmd i c.receipt fun c => { c with stage := .reading 1, data := header.take 64 }
  | _, _ => s

/-- The batch header of an APPEND arrives. -/
def execAppendHeaderRead (inst : InstId) (seq : Nat) (header : Bytes) (s : State) : Res :=
  .next (s.appendHeader inst seq header)

/-- The columns of one batch row, where every value is permitted (R118, R120). -/
def batchRow : List ColDesc → Nat → Bytes → Bytes → Option (List Val)
  | [], _, _, _ => some []
  | cd :: cds, k, bitmap, b =>
    let present := !cd.nullable || bitAt (fieldAt (k / 8) 1 bitmap) (k % 8)
    let next := if cd.nullable then k + 1 else k
    let rest := batchRow cds next bitmap (b.drop cd.batchBytes)
    if !present then rest.map (Val.null :: ·)
    else if tyVar cd.type then
      if cd.maxLen < fieldAt 0 2 b then none else rest.map (Val.str (sliceB 2 (fieldAt 0 2 b) b) :: ·)
    else
      let x := fieldAt 0 (tyWidth cd.type) b
      if cd.type == 1 && 1 < x then none else rest.map (canonVal cd.type (.num x) :: ·)

/-- Offset and width of fields of given widths, laid one after the other. -/
def cutAt : Nat → List Nat → List (Nat × Nat)
  | _, [] => []
  | a, w :: ws => (a, w) :: cutAt (a + w) ws

/-- Widths of the streams of the staging area: the validity bitmaps, then each supplied column (R122). -/
def TableDesc.streams (d : TableDesc) : List Nat := d.bitmapBytes :: d.supplied.map (·.batchBytes)

/-- A payload de-interleaved: per stream, its bytes of every row one after the other (R122). -/
def deinterleaved (d : TableDesc) (n : Nat) (b : Bytes) : List Bytes :=
  (cutAt 0 d.streams).map fun c => (List.range n).flatMap fun i => sliceB (i * d.batchRow + c.1) c.2 b

/-- The rows an ingest tile reads from the staging area, where every value is permitted. -/
def stagedRows (d : TableDesc) (n : Nat) (st : List Bytes) : Option (List (List Val)) :=
  let parts := st.zip d.streams
  (List.range n).mapM fun i =>
    let row := parts.map fun p => sliceB (i * p.2) p.2 p.1
    batchRow d.supplied 0 (row.headD []) (row.tail.flatten)

/-- The ingest staging area of an instance (R122). -/
def State.putStaging (s : State) (i : InstId) (st : List Bytes) : State := s.modInst i fun x => { x with staging := st }

/-- The payload arrives whole and is staged: values checked, the unit entered, which commits the APPEND (R116, R120 to R122, R144).
A failure discards the staging. -/
def State.appendPayload (s : State) (i : InstId) (seq : Nat) (payload : Bytes) : State :=
  match s.readingCmd i seq 0x20 1, s.hostReach i with
  | some c, .ok _ =>
    let s := s.freeCmdTags i seq
    let bytes := c.arg 3 % 2 ^ 32
    let id := c.arg 1 % 2 ^ 16
    let finish := fun (s : State) (n code : Nat) => ((s.putStaging i []).setDetails i c.receipt 0 0 n 0).complete i c.receipt code
    if payload.length < bytes then finish s payload.length stLengthShort else
    match (s.table id).map (·.desc) with
    | none => finish s bytes stBadArgument
    | some d =>
    let s := s.putStaging i (deinterleaved d c.rows payload)
    match stagedRows d c.rows (s.insts[i]).staging with
    | none => finish s bytes stBadArgument
    | some rows =>
      let r := c.receipt
      let unit := (rows.zip (List.range rows.length)).map fun (v, k) => (id, (⟨⟨r.ts, r.src, (r.seq + 1 + k) % 2 ^ 24, r.tq⟩, v, 0⟩ : SRow))
      let (s, o) := s.enterUnit r unit
      let s := s.modIngest fun g => { g with appends := g.appends.filter (·.receipt != r) }
      let s := s.setDetails i r (c.rows - o.dropped) (o.admitted + o.dropped * 2 ^ 32) bytes 0
      (s.modCmd i r fun c => { c with stage := .running, data := [] }).settleAppends
  | _, _ => s

/-- The payload bytes of an APPEND arrive, as far as they do. -/
def execAppendPayloadRead (inst : InstId) (seq : Nat) (payload : Bytes) (s : State) : Res :=
  .next (s.appendPayload inst seq payload)

/-! Durability: the Nail flag and FLUSH (R525, R527). -/

/-- The segments that hold a unit's rows enter the Keep catalogue. -/
def State.catalogueUnit (s : State) (c : Cmd) : State :=
  let id := c.arg 1 % 2 ^ 16
  let segs := (((s.table id).map (·.segs)).getD []).filter fun g => g.rows.any fun r => ofUnit c.receipt c.rows r.stamp
  s.modTables fun t =>
    let l := segs.foldl (fun (l : List (Nat × Nat)) g => if l.contains (id, g.no) then l else l ++ [(id, g.no)]) t.keepCatalogue
    { t with keepCatalogue := l }

/-- Open and sealed segments of an instance's KEEP tables enter the Keep catalogue. -/
def State.catalogueKeep (s : State) (i : InstId) : State :=
  let mine := (s.tables.tables.filter fun p => p.2.desc.keep && p.2.desc.owner == i.val).flatMap fun p =>
    (p.2.segs.filter fun g => g.state != .retired && !g.rows.isEmpty).map fun g => (p.1, g.no)
  s.modTables fun t => { t with keepCatalogue := t.keepCatalogue ++ mine.filter fun x => !t.keepCatalogue.contains x }

/-- A Nail command's conditions hold: an APPEND settled, the write queues drained and its rows catalogued, a table command's descriptor
stored. [log 223 DEDUCED] -/
def State.nailComplete (s : State) (i : InstId) (seq : Nat) : State :=
  if !s.ridgeActs then s else
  match s.cmdSeq i seq with
  | none => s
  | some c =>
    if !c.nail || c.stage != .running || !c.settled then s
    else if c.opcode == 0x20 then (s.drainAll.catalogueUnit c).completeWith i c.receipt c.appendStatus true [] 0
    else (s.storeTable (c.reads.headD 0)).completeWith i c.receipt stOk true [] 0

/-- The conditions of R527 hold for the command of a receipt SEQ24. -/
def execNailComplete (inst : InstId) (seq : Nat) (s : State) : Res := .next (s.nailComplete inst seq)

/-- A write command: an APPEND or a table command. -/
def Cmd.isWrite (c : Cmd) : Bool := c.opcode == 0x20 || c.isTable

/-- Earlier writes of an instance not complete. [log 132 DEDUCED] -/
def State.writesBefore (s : State) (i : InstId) (r : Stamp) : List Cmd :=
  (s.insts[i]).queue.filter fun e => e.receipt.lt r && e.isWrite

/-- FLUSH starts to wait; D0 is the number of earlier writes it waits for (R525, R528). -/
def execFlush (inst : InstId) (s : State) : Res :=
  .next (s.begin inst 2 fun s c =>
    (s.setDetails inst c.receipt (s.writesBefore inst c.receipt).length 0 0 0).modCmd inst c.receipt fun c => { c with stage := .running })

/-- A FLUSH completes once no earlier write is left and their descriptors are stored; the write queues have drained and the rows of KEEP
tables stand in the Keep catalogue by then (R525). After T_K it completes at step 5 of Keep entry (R536). [log 223 DEDUCED] -/
def State.flushComplete (s : State) (i : InstId) : State :=
  if !s.ridgeActs then s else
  match (s.insts[i]).queue.find? fun c => c.opcode == 2 && c.stage == .running with
  | none => s
  | some c =>
    if s.afterKeepStamp c || !(s.writesBefore i c.receipt).isEmpty || s.dict.commits.any (fun w => 2 ^ 24 ≤ w.key && w.source == .inst i)
    then s else (s.drainAll.catalogueKeep i).complete i c.receipt stOk

/-- Every earlier write of an instance is durable. -/
def execFlushComplete (inst : InstId) (s : State) : Res := .next (s.flushComplete inst)

/-! CANCEL (R526). -/

/-- A command that CANCEL may end, by its stage. -/
def Cmd.cancellable (c : Cmd) : Bool :=
  match c.stage with
  | .running => c.opcode == 0x30 || c.opcode == 2
  | _ => c.opcode != 3

/-- A command ends with a code in whatever stage it stands (R526, R533): an accepted plan as R187. -/
def State.abortCmd (s : State) (i : InstId) (c : Cmd) (code : Nat) : State :=
  let s := s.freeCmdTags i c.receipt.seq
  match c.planSlot with
  | some slot => s.endPlan slot code
  | none => s.complete i c.receipt code

/-- CANCEL's targets. -/
def Cmd.selects (c e : Cmd) : Bool :=
  e.receipt.lt c.receipt && e.cancellable
    && (bitAt (c.arg 0) 1 || (if bitAt (c.arg 0) 0 then e.tag == c.arg 1 else e.receipt.seq == c.arg 1))

/-- CANCEL. -/
def State.cancel (s : State) (i : InstId) (c : Cmd) : State :=
  let targets := (s.insts[i]).queue.filter c.selects
  let s := targets.foldl (fun s e => s.abortCmd i e stAbortCancel) s
  let s := s.modInst i fun x => { x with cancelled := x.cancelled + targets.length }
  (s.setDetails i c.receipt targets.length 0 0 0).complete i c.receipt stOk

/-- CANCEL starts at its receipt, ahead of every ordering wait. -/
def execCancel (inst : InstId) (s : State) : Res := .next (s.begin inst 3 fun s c => s.cancel inst c)

/-! Plans and queries. -/

/-- Check 1 of R176, on the declared length. -/
def imageSizeOk (n : Nat) : Bool := 256 ≤ n && n ≤ 4194304 && n % 64 == 0

/-- RUN_PLAN starts: check 1 of R176, then the read of its image. -/
def execRunPlan (inst : InstId) (s : State) : Res :=
  .next (s.begin inst 0x30 fun s c =>
    let n := c.arg 1 % 2 ^ 32
    if !imageSizeOk n || !s.planAreaFree inst n then s.refusePlan inst c.receipt stBadArgument noOffset
    else s.withHost inst c fun s f =>
      match s.askHost inst f c.receipt.seq (c.arg 0) n with
      | none => s
      | some s => s.modCmd inst c.receipt fun c => { c with stage := .reading 0 })

/-- RELEASE_RESULT frees a held result set (R522). -/
def execReleaseResult (inst : InstId) (s : State) : Res :=
  .next (s.begin inst 0x31 fun s c =>
    let held := fun (r : ResSet) => r.held && r.offset == c.arg 0
    if (s.insts[inst]).resets.any held then
      ((s.modInst inst fun x => { x with resets := x.resets.filter fun r => !held r }).complete inst c.receipt stOk)
    else s.complete inst c.receipt stBadArgument)

/-- REGISTER_QUERY's descriptor and image are checked (R262); it then waits for order, the other checks and resources. -/
def State.registerQuery (s : State) (i : InstId) (c : Cmd) (desc image : Bytes) : State :=
  if desc.length < 256 then s.complete i c.receipt stLengthShort else
  let desc := desc.take 256
  let d := QDesc.parse desc
  if !imageSizeOk d.imageBytes || !s.planAreaFree i d.imageBytes then s.refusePlan i c.receipt stBadArgument noOffset
  else
    let s := s.countHit i d.imageBytes image
    match s.checkImage i d.imageBytes true image true with
    | some (code, off) => s.refusePlan i c.receipt code off
    | none =>
      let img := image.take d.imageBytes
      (s.modCmd i c.receipt fun c =>
        { c with stage := .waiting, data := desc ++ img, reads := (parseImage img).trefs.map (·.id), planId := imgPlanId img }).admitPlans

/-- REGISTER_QUERY, with the bytes of its descriptor and of its image as far as they arrive. -/
def execRegisterQuery (inst : InstId) (desc image : Bytes) (s : State) : Res :=
  .next (s.begin inst 0x38 fun s c => s.withHost inst c fun s _ => s.registerQuery inst c desc image)

/-- The query of an instance with a CQ_ID. -/
def State.ownQuery (s : State) (i : InstId) (cq : Nat) : Option Query := (s.query cq).filter fun q => q.inst == i.val && q.removing.isNone

/-- UNREGISTER_QUERY (R284, R290): the query goes once its dispatched firings are delivered. -/
def execUnregisterQuery (inst : InstId) (s : State) : Res :=
  .next (s.begin inst 0x39 fun s c =>
    let cq := c.arg 0
    match s.ownQuery inst cq with
    | none => s.complete inst c.receipt stNotOwner
    | some _ => ((s.retireQuery cq 0).setDetails inst c.receipt cq 0 0 0).complete inst c.receipt stOk)

/-- RETARGET_QUERY (R261, R284, R290): ring, index and vector replaced. [log 53 DEDUCED] -/
def State.retargetQuery (s : State) (i : InstId) (c : Cmd) (desc : Bytes) : State :=
  let cq := c.arg 1
  match s.ownQuery i cq with
  | none => s.complete i c.receipt stNotOwner
  | some q =>
    if desc.length < 256 then s.complete i c.receipt stLengthShort else
    let d := QDesc.parse (desc.take 256)
    let m := ((s.plan q.planSlot).map (·.claims.resultBytes)).getD 0
    if !retargetDescOk (desc.take 256) || d.ringBytes / 2 < m + 128 then s.complete i c.receipt stBadArgument
    else
      let s := s.modQuery cq fun q =>
        { q with ringAddr := d.ringAddr, ringBytes := d.ringBytes, indexAddr := d.indexAddr, vector := d.vector, held := false, rebound := false }
      (s.setDetails i c.receipt cq 0 0 0).complete i c.receipt stOk

/-- RETARGET_QUERY, with the bytes of its descriptor as far as they arrive. -/
def execRetargetQuery (inst : InstId) (desc : Bytes) (s : State) : Res :=
  .next (s.begin inst 0x3A fun s c => s.withHost inst c fun s _ => s.retargetQuery inst c desc)

/-! Completion records (R528 to R530). -/

/-- Entries of the completion ring. -/
def InstRegs.entries (r : InstRegs) : Nat := 2 ^ (r.cmplCfg % 16 + 4)

/-- PRODUCED advances once its read-back has returned, and the record leaves with DONE (R529). -/
def State.recordDelivered (s : State) (i : InstId) (f : FuncId) : State :=
  let s := s.modFunc f fun y => { y with regs := { y.regs with produced := (y.regs.produced + 1) % 2 ^ 32 } }
  let s := s.modInst i fun y => { y with records := y.records.drop 1, idleSince := s.time.ts }
  s.raiseCause f 0 (s.vecOf f 0)

/-- The next record of an instance is delivered (R32, R529): results, record and PRODUCED, each only once the read-back of the one
before has returned; the operand counts the read-backs that return. Short of all of them the record is held, and it is written again
to the same slot (R508, R534). [log 201 DESIGN CHOICE] -/
def State.deliverRecord (s : State) (i : InstId) (answered : Nat) : State :=
  let x := s.insts[i]
  match x.records, s.hostReach i with
  | r :: _, .ok f =>
    let g := (s.host.funcs[f]).regs
    if !s.ridgeActs || !bitAt g.cmplCfg 8 || g.entries ≤ (g.produced + 2 ^ 32 - g.consumed) % 2 ^ 32 then s else
    let first := (!r.result.isEmpty).toNat
    let s := if r.result.isEmpty then s else (s.hostWrite f r.resultAddr r.result).readBack f r.resultAddr r.result.length
    if answered < first then s else
    let slot := g.cmplBase / 4096 % 2 ^ 28 * 4096 + 128 * (g.produced % g.entries)
    let s := (s.hostWrite f slot r.bytes).readBack f slot 128
    if answered < first + 1 then s else
    let word := g.cmplIndex / 8 % 2 ^ 37 * 8
    let s := (s.hostWrite f word (toLE 8 ((g.produced + 1) % 2 ^ 32))).readBack f word 8
    if answered < first + 2 then s else s.recordDelivered i f
  | _, _ => s

/-- A completion record is delivered; the operand counts the read-backs that return before something stops the delivery. -/
def execCompletionRecordDelivery (inst : InstId) (answered : Nat) (s : State) : Res := .next (s.deliverRecord inst answered)

/-! Instance power states (R531). -/

/-- DEEPEST in force: as written to INST_POWER, else the instance's DEEPEST object. -/
def State.deepest (s : State) (i : InstId) : Nat :=
  ((s.instRegs i).deepest).getD (s.cfg (0x4010 + 0x100 * i.val) 3 2)

/-- Queue empty, no command running, no record held. -/
def Inst.idle (x : Inst) : Bool := x.queue.isEmpty && x.records.isEmpty

/-- DOZE_AFTER has passed. -/
def execDozeEntry (inst : InstId) (s : State) : Res :=
  let x := s.insts[inst]
  .next (if x.state != .free && x.power == 0 && x.idle && 1 ≤ s.deepest inst then
      let s := s.advanceTo (x.idleSince + 1000000 * s.cfg (0x4010 + 0x100 * inst.val) 1 10)
      s.modInst inst fun x => { x with power := 1, idleSince := s.time.ts }
    else s)

/-- SLEEP_AFTER has passed in DOZE, with no registered query. -/
def execSleepEntry (inst : InstId) (s : State) : Res :=
  let x := s.insts[inst]
  .next (if x.power == 1 && x.idle && s.deepest inst == 2 && !s.batten.queries.any (fun q => q.2.inst == inst.val) then
      let s := s.advanceTo (x.idleSince + 1000000 * s.cfg (0x4010 + 0x100 * inst.val) 2 1000)
      s.modInst inst fun x => { x with power := 2, idleSince := s.time.ts }
    else s)

/-! Instance reset (R533). -/

/-- A command ends by an instance reset, unless it is a committed APPEND or a table command that has done its work. -/
def Cmd.resetEnds (c : Cmd) : Bool :=
  match c.stage with
  | .running => c.opcode == 0x30 || c.opcode == 2
  | _ => true

/-- Commands of an instance end by a reset. -/
def State.resetCommands (s : State) (i : InstId) : State :=
  ((s.insts[i]).queue.filter (·.resetEnds)).foldl (fun s c => s.abortCmd i c stAbortReset) s

/-- Instance reset (R533, R552, R284, R306): commands end, queries go, the Batten purges, and the
instance's Gutter channels stop (R447). -/
def State.instReset (s : State) (i : InstId) : State :=
  let s := ((s.resetQueries i).resetCommands i).cacheDrop (some i)
  (List.finRange 32).foldl (fun s c =>
    let x := s.gutter.chans[c]
    if x.busy && !x.firmware && x.inst == i then s.chanDrainStop c stAbortReset else s) s

end Sys2Proof.Machine
end

