-- ==== Sys2Proof/Machine/Instances.lean ====
section
/-! DEFINITION. Instances (chapter 19): the CONTROL actions, binding and the saved context, quotas, the mailbox, and the
delivery of what a freeze held back (R548). -/

namespace Sys2Proof.Machine

/-! The mailbox (R553 to R555). -/

/-- The outbound message that an instance's function displays: none while a freeze, a suspension or the want of a binding holds them
back (R543). [log 222 DEDUCED] -/
def State.mailShown (s : State) (i : InstId) : Option MbMsg :=
  if (s.insts[i]).state == .bound then (s.insts[i]).outbox.head? else none

/-- An instance's displayed message is new: the MAILBOX cause (R555). -/
def State.mailCause (s : State) (i : InstId) : State :=
  match (s.insts[i]).func, s.mailShown i with
  | some f, some _ => s.raiseCause f 2 (s.vecOf f 8)
  | _, _ => s

/-- A message joins the outbound queue; a new displayed one sets the cause. -/
def State.mailPut (s : State) (i : InstId) (m : MbMsg) : State :=
  let first := (s.insts[i]).outbox.isEmpty
  let s := s.modInst i fun x => { x with outbox := x.outbox ++ [m] }
  if first then s.mailCause i else s

/-- A device notice: it takes the place of the oldest notice in a full queue, or is lost (R555). [log 139 DEDUCED] -/
def State.notice (s : State) (i : InstId) (kind : Nat) (body : Bytes) : State :=
  let (st, s) := s.stamp s.ridgeSrc
  let m : MbMsg := ⟨st, kind, s.ridgeSrc, body⟩
  let box := (s.insts[i]).outbox
  if box.length < 8 then s.mailPut i m
  else
    match box.findIdx? fun x => x.kind < 0x100 with
    | none => s.modInst i fun x => { x with noticesLost := x.noticesLost + 1 }
    | some k =>
      let s := s.modInst i fun x => { x with outbox := x.outbox.eraseIdx k ++ [m] }
      if k == 0 then s.mailCause i else s

/-- MB_OUT_ACK: the displayed message is removed and the next displayed. -/
def State.mailAck (s : State) (f : FuncId) (value : Nat) : State :=
  match (s.host.funcs[f]).inst with
  | some i =>
    if value == 1 && (s.mailShown i).isSome then (s.modInst i fun x => { x with outbox := x.outbox.tail }).mailCause i else s
  | none => s

/-- A write to MB_OUT_ACK. -/
def execMbOutAck (func : FuncId) (value : Nat) (s : State) : Res := .next (s.mailAck func value)

/-- MB_IN_POST queues MB_IN for the manager, or is ignored and counted. -/
def State.mailPost (s : State) (f : FuncId) (value : Nat) : State :=
  match (s.host.funcs[f]).inst with
  | none => s
  | some i =>
    let len := value % 2 ^ 16
    let kind := value / 2 ^ 16 % 2 ^ 16
    if 512 < len || kind < 0x100 || 8 ≤ (s.insts[i]).inbox.length then s.modInst i fun x => { x with mbDropped := x.mbDropped + 1 }
    else
      let body := padTo len (s.host.funcs[f]).mbIn
      let (st, s) := s.stamp i.val
      s.modInst i fun x => { x with inbox := x.inbox ++ [⟨st, kind, i.val, body⟩] }

/-- A write to MB_IN_POST. -/
def execMbInPost (func : FuncId) (value : Nat) (s : State) : Res := .next (s.mailPost func value)

/-- A manager's send (0x4003:01): BUSY for a full queue (R555). -/
def State.mailSend (s : State) (i : InstId) (stamp : Stamp) (kind : Nat) (body : Bytes) : Nat × State :=
  if 8 ≤ (s.insts[i]).outbox.length then (stBusy, s) else (stOk, s.mailPut i ⟨stamp, kind, stamp.src, body⟩)

/-- The manager removes the oldest inbound message (0x4003:03). -/
def State.mailTaken (s : State) (i : InstId) : State := s.modInst i fun x => { x with inbox := x.inbox.tail }

/-- The advertised exit latency of an instance power state, in µs (R531). -/
def exitUs (power : Nat) : Nat := if power == 0 then 0 else if power == 1 then 20 else 2000

/-- INST_POWER of an instance (R531). -/
def State.instPowerWord (s : State) (i : InstId) : Nat :=
  let x := s.insts[i]
  x.power + s.deepest i % 4 * 2 ^ 2 + exitUs x.power * 2 ^ 16

/-! The saved context (R547). -/

/-- The image of BAR0 0x0000 to 0x00FF held in a saved context: TASK_STATE as it reads while the instance drains, with the commands it
holds, and INST_POWER. -/
def InstRegs.image (r : InstRegs) (busy queued power : Nat) : Bytes :=
  padTo 8 (toLE 8 r.cmd) ++ toLE 8 r.tag ++ r.args.toList.flatMap (toLE 8) ++ zeros 8 ++ toLE 8 (busy + r.lastStatus % 2 ^ 16 * 2 ^ 16 + queued * 2 ^ 32)
    ++ padTo 16 r.receipt.bytes ++ toLE 8 r.cmplBase ++ toLE 8 r.cmplCfg ++ toLE 8 r.cmplIndex ++ toLE 8 r.consumed
    ++ toLE 8 r.produced ++ toLE 8 power ++ zeros 96

/-- The 320 bytes of CONTEXT. -/
def InstRegs.context (r : InstRegs) (busy queued power seq : Nat) : Bytes :=
  padTo 256 (r.image busy queued power) ++ toLE 8 r.intEnable ++ toLE 8 r.intVector ++ toLE 8 r.intHoldoff ++ toLE 8 r.intCause ++ toLE 8 r.obHigh
    ++ toLE 4 (seq % 2 ^ 24) ++ zeros 20

/-- What the manager writes into a context: its RO fields stay (R547). -/
def InstRegs.written (r : InstRegs) (b : Bytes) : InstRegs :=
  { r with cmd := fieldAt 0 8 b, tag := fieldAt 8 8 b, args := Vector.ofFn fun (k : Fin 8) => fieldAt (16 + 8 * k.val) 8 b,
           cmplBase := fieldAt 0x70 8 b &&& 0xFFFFFFF000, cmplCfg := fieldAt 0x78 8 b &&& 0x10F
           cmplIndex := fieldAt 0x80 8 b &&& 0xFFFFFFFFF8, consumed := fieldAt 0x88 4 b,
           deepest := some (fieldAt 0x98 1 b / 4 % 4), intEnable := fieldAt 0x100 1 b % 2 ^ 6
           intVector := fieldAt 0x108 8 b &&& 0x1F1F1F, intHoldoff := fieldAt 0x110 2 b, obHigh := fieldAt 0x120 8 b % 2 ^ 24 }

/-! What a port, a freeze or a missing Bus Master Enable held back (R508, R543, R548). -/

/-- A descriptor that has a host source or destination. -/
def GDesc.touchesHost (d : GDesc) : Bool :=
  ((d.srcAt 0).toList ++ d.table.map (·.1) ++ d.dests.map (·.1)).any fun a => 0x040000000000 ≤ a && a < 0x080000000000

/-- Busy channels of an instance with a host source or destination. -/
def State.hostChans (s : State) (i : InstId) : List ChanId :=
  (List.finRange 32).filter fun c =>
    let x := s.gutter.chans[c]
    x.busy && !x.firmware && x.inst == i && x.desc.any (·.touchesHost)

/-- The instance's host channels pause (R446, R543). -/
def State.pauseHost (s : State) (i : InstId) : State :=
  (s.hostChans i).foldl (fun s c => (s.chanPause c).modChan c fun x => { x with frozen := true }) s

/-- Channels a freeze paused go on, once the instance reaches its host (R446, R548). -/
def State.resumeHost (s : State) (i : InstId) : State :=
  match s.hostReach i with
  | .ok _ =>
    (List.finRange 32).foldl (fun s c =>
      let x := s.gutter.chans[c]
      if x.frozen && x.inst == i && !x.firmware then s.chanResume c [] else s) s
  | .error _ => s

/-- Held records of an instance in receipt-stamp order (R508, R548). [log 140 DEDUCED] -/
def State.sortHeld (s : State) (i : InstId) : State :=
  s.modInst i fun x => { x with records := sortBy (fun (a b : CRec) => a.receipt.lt b.receipt) x.records }

/-- Delivery and paused channels of an instance go on (R548). -/
def State.resumeInst (s : State) (i : InstId) : State := (s.sortHeld i).resumeHost i

/-! Persistence (R544). -/

/-- The creation record and binding of an instance in the persistent store. -/
def State.persistInst (s : State) (i : InstId) : State :=
  let x := s.insts[i]
  let k := 0x4000 + 0x100 * i.val
  let put := fun (s : State) (key : Nat) (v : Option Bytes) => if nget s.dict.store key == v then s else s.storeWrite key v
  let s := put s (objKey k 1) (if x.state == .free then none else some [1])
  put s (objKey k 2) (x.func.map fun f => toLE 1 (f.val / 16) ++ toLE 1 (f.val % 16))

/-! Quotas (R549, R550). -/

/-- CHANNELS and RESULT_MIB of an instance. -/
def State.quotaChannels (s : State) (i : InstId) : Nat := s.quota i 0x0D 2
/-- RESULT_MIB of an instance. -/
def State.quotaResult (s : State) (i : InstId) : Nat := s.quota i 0x0E 16

/-- Unreserved channels from GC8 to GC31, lowest first. -/
def State.poolChans (s : State) : List ChanId := s.freeChans.filter fun c => 8 ≤ c.val

/-- RESULT_POOL_MIB in force: applied at start-up (R559). -/
def State.resultPool (s : State) : Nat := if s.ro 0x3050 0xF2 == 0 then 4096 else s.ro 0x3050 0xF2

/-- RESULT_ALLOTTED_MIB. -/
def State.resultAllotted (s : State) : Nat := (s.insts.toList.map (·.resultMib)).sum

/-- Channels given to an instance. [log 136 DESIGN CHOICE] -/
def State.reserveChans (s : State) (i : InstId) (l : List ChanId) : State :=
  l.foldl (fun s c => (s.modChan c fun x => { x with use := .inst i, marked := false }).modInst i fun x =>
    { x with chanMask := x.chanMask ||| 2 ^ c.val }) s

/-- Channels an instance holds and that are not marked, lowest first. -/
def State.heldChans (s : State) (i : InstId) : List ChanId :=
  (List.finRange 32).filter fun c => (s.gutter.chans[c]).use == .inst i && !(s.gutter.chans[c]).marked

/-- Every channel of an instance back to the pool. -/
def State.freeInstChans (s : State) (i : InstId) : State :=
  ((List.finRange 32).foldl (fun s c =>
    if (s.gutter.chans[c]).use == .inst i then
      (if (s.gutter.chans[c]).busy then s.chanStop c stAbortReset else s).modChan c fun x => { x with use := .free, marked := false }
    else s) s).modInst i fun x => { x with chanMask := 0 }

/-- A staged quota takes effect, or is refused (R550); the notice comes with the effect. [log 139 DEDUCED] -/
def State.applyQuota (s : State) (i : InstId) (sub : Nat) (value : Bytes) : Nat × State :=
  let v := leNat value
  let x := s.insts[i]
  let put := fun (s : State) =>
    let s := s.modDict fun d => { d with vals := nput d.vals (objKey (0x4001 + 0x100 * i.val) sub) value }
    if x.state == .free then s else s.notice i 2 (toLE 1 sub)
  if x.state == .free then (stOk, put s)
  else if sub == 0x0D then
    let held := s.heldChans i
    if held.length ≤ v then
      let more := s.poolChans.take (v - held.length)
      if more.length < v - held.length then (stQuota, s) else (stOk, put (s.reserveChans i more))
    else
      let s := (held.drop v).foldl (fun s c => s.modChan c fun y => { y with marked := true }) s
      (stOk, put s.sweepMarked)
  else if sub == 0x0E then
    if x.resultMib ≤ v then
      if s.resultPool < s.resultAllotted - x.resultMib + v then (stQuota, s)
      else (stOk, put (s.modInst i fun y => { y with resultMib := v }))
    else if x.resets.any (·.held) || s.plans.plans.any (fun p => p.2.inst == i.val) then (stWrongState, s)
    else (stOk, put (s.modInst i fun y => { y with resultMib := v }))
  else if sub == 0x0B && v < s.batten.queries.countP (fun q => q.2.inst == i.val) then (stWrongState, s)
  else
    let s := put s
    let tables := if sub == 0x0A then (s.tables.tables.filter fun p => p.2.desc.owner == i.val).map (·.1) else []
    (stOk, tables.foldl (fun s id => s.enforce id) s)

/-! Actions (R545, R546, R552). -/

/-- CREATE (R550, R552). [log 136 DESIGN CHOICE] -/
def State.instCreate (s : State) (i : InstId) : Nat × State :=
  if (s.insts[i]).state != .free then (stWrongState, s) else
  let n := s.quotaChannels i
  let mib := s.quotaResult i
  let chans := s.poolChans.take n
  if chans.length < n || s.resultPool < s.resultAllotted + mib then (stQuota, s) else
  let s := s.modInst i fun _ => { Inst.reset with state := .unbound, resultMib := mib, idleSince := s.time.ts }
  (stOk, (s.reserveChans i chans).persistInst i)

/-- The manager's instance reset: records delivered, mailbox emptied, a RESET notice (R552). -/
def State.managerReset (s : State) (i : InstId) : State :=
  ((s.instReset i).modInst i fun x => { x with inbox := [], outbox := [] }).notice i 3 []

/-- Tables an instance owns and that are not being dropped. [log 137 DEDUCED] -/
def State.ownTables (s : State) (i : InstId) : List Nat :=
  (s.tables.tables.filter fun p => p.2.desc.owner == i.val && !p.2.dropping).map (·.1)

/-- DESTROY (R552). [log 137 DEDUCED] -/
def State.instDestroy (s : State) (i : InstId) (dropTables : Bool) : Nat × State :=
  if (s.insts[i]).state != .unbound then (stWrongState, s) else
  let own := s.ownTables i
  if !own.isEmpty && !dropTables then (stWrongState, s) else
  let s := s.managerReset i
  let s := own.foldl (fun s id => (s.startDrop id).commitTable i id []) s
  let s := (s.freeInstChans i).modIngest fun g => { g with appends := g.appends.filter fun a => a.receipt.src != i.val }
  (stOk, ((s.modInst i fun _ => .reset).persistInst i))

/-- R545: context saved, registers reset, binding cleared. -/
def State.unbindNow (s : State) (i : InstId) : State :=
  match (s.insts[i]).func with
  | none => s
  | some f =>
    let regs := (s.host.funcs[f]).regs
    let s := s.modInst i fun x => { x with state := .unbound, func := none, prevFunc := some f, unbinding := false, ctx := regs }
    let s := s.modFunc f fun x => { x with regs := .reset, inst := none, pba := 0, merged := 0, heldOff := [] }
    (s.eventCause f 5).persistInst i

/-- Queries of an instance bound to another function hold their records until RETARGET_QUERY names a ring in the new host's memory
(R284). [log 214 DEDUCED] -/
def State.holdQueries (s : State) (i : InstId) (other : Bool) : State :=
  s.modBatten fun b => { b with queries := b.queries.map fun q =>
    (q.1, if q.2.inst == i.val then { q.2 with rebound := q.2.rebound || other } else q.2) }

/-- BIND (R546). -/
def State.instBind (s : State) (i : InstId) (port fn : Nat) (restore : Bool) : Nat × State :=
  if 3 < port || 15 < fn then (stBadArgument, s) else
  let p := Fin.ofNat 4 port
  let f := funcOf p (Fin.ofNat 16 fn)
  let x := s.insts[i]
  if x.state != .unbound || (s.host.ports[p]).state != .running || (s.host.funcs[f]).inst.isSome then (stWrongState, s) else
  let regs := if restore then x.ctx else .reset
  let s := s.modFunc f fun y => { y with regs := regs, inst := some i }
  let s := s.modInst i fun y => { y with state := .bound, func := some f }
  let s := s.eventCause f 5
  let body := match x.prevFunc with
    | some g => toLE 1 (g.val / 16) ++ toLE 1 (g.val % 16)
    | none => [0xFF, 0xFF]
  (stOk, ((((s.mailCause i).notice i 1 body).persistInst i).holdQueries i (x.prevFunc.any (· != f))).resumeInst i)

/-- UNBIND (R543, R545). -/
def State.instUnbind (s : State) (i : InstId) : Nat × State :=
  match (s.insts[i]).state with
  | .bound => (stOk, (s.modInst i fun x => { x with state := .freezing, unbinding := true }).pauseHost i)
  | .frozen | .suspended => (stOk, s.unbindNow i)
  | _ => (stWrongState, s)

/-- FREEZE (R543). [log 138 DEDUCED] -/
def State.instFreeze (s : State) (i : InstId) : Nat × State :=
  if (s.insts[i]).state != .bound then (stWrongState, s)
  else (stOk, (s.modInst i fun x => { x with state := .freezing, unbinding := false }).pauseHost i)

/-- THAW (R552). -/
def State.instThaw (s : State) (i : InstId) : Nat × State :=
  let x := s.insts[i]
  let up := x.func.any fun f => (s.host.ports[funcPort f]).state == .running
  if x.state == .frozen || (x.state == .suspended && up) then
    (stOk, ((s.modInst i fun x => { x with state := .bound }).mailCause i).resumeInst i)
  else (stWrongState, s)

/-- RESET (R552). -/
def State.instManagerReset (s : State) (i : InstId) : Nat × State :=
  if (s.insts[i]).state == .free then (stWrongState, s) else (stOk, s.managerReset i)

/-- A CONTROL action (R552); a reserved FLAGS bit and an unlisted action are refused first. -/
def State.control (s : State) (i : InstId) (action port fn flags : Nat) : Nat × State :=
  if 4 ≤ flags || action == 0 || 7 < action then (stBadArgument, s) else
  match action with
  | 1 => s.instCreate i
  | 2 => s.instDestroy i (bitAt flags 1)
  | 3 => s.instBind i port fn (bitAt flags 0)
  | 4 => s.instUnbind i
  | 5 => s.instFreeze i
  | 6 => s.instThaw i
  | _ => s.instManagerReset i

/-- Every host channel of a freezing instance is paused or stopped: FROZEN, or UNBOUND for UNBIND (R543). [log 138 DEDUCED] -/
def State.instDrained (s : State) (i : InstId) : State :=
  let x := s.insts[i]
  if x.state != .freezing || (s.hostChans i).any (fun c => (s.gutter.chans[c]).state != .paused) then s
  else if x.unbinding then s.unbindNow i
  else s.modInst i fun x => { x with state := .frozen }

/-- The drain of a FREEZE or UNBIND ends. -/
def execInstanceDrained (inst : InstId) (s : State) : Res := .next (s.instDrained inst)

end Sys2Proof.Machine
end

