-- ==== Sys2Proof/Machine/Ports.lean ====
section
/-! DEFINITION. Host ports (chapter 17): configuration space, Bus Master Enable, Function Level Reset, tags, freeze and
release, interrupts held off, BAR2. -/

namespace Sys2Proof.Machine

/-- SRC8 of a host port (R60). -/
def srcPort (p : PortId) : Nat := 0xE8 + p.val

/-- The functions of a port. -/
def portFuncs (p : PortId) : List FuncId := (List.finRange 16).map (funcOf p)

/-- Instances bound to the functions of a port. -/
def State.portInsts (s : State) (p : PortId) : List InstId := (portFuncs p).filterMap fun f => (s.host.funcs[f]).inst

/-- A counter of a port changed. -/
def State.portCount (s : State) (p : PortId) (g : PortCounters → PortCounters) : State :=
  s.modPort p fun h => { h with counters := g h.counters }

/-! Bus Master Enable and Function Level Reset (R499 to R502). -/

/-- A function no longer reaches its host: its instance's channels stop and the commands that wait for bytes end. -/
def State.lostHost (s : State) (f : FuncId) (code : Nat) : State :=
  let s := s.stopFuncChans (· == f) code
  match (s.host.funcs[f]).inst with
  | some i => s.endReads i code
  | none => s

/-- The record of access lost to the instance bound to a function (R669). -/
def State.instRecord (s : State) (f : FuncId) (code : Nat) : State :=
  match (s.host.funcs[f]).inst with
  | some i => s.raise (srcPort (funcPort f))
      { ErrRec.blank with code := code, severity := .contained, scope := 4, scopeId := i.val, inst := i.val }
  | none => s

/-- Bus Master Enable cleared on a function (R499). -/
def State.bmeClear (s : State) (f : FuncId) : State :=
  if !(s.host.funcs[f]).bme then s else
  ((s.modFunc f fun x => { x with bme := false }).lostHost f stRevoked).instRecord f stRevoked

/-- Bus Master Enable is cleared. -/
def execBusMasterEnableClear (func : FuncId) (s : State) : Res := .next (s.bmeClear func)

/-- Vectors unmasked and pending are sent once (R497). -/
def State.flushPending (s : State) (f : FuncId) : State :=
  (List.finRange 32).foldl (fun s v =>
    if bitAt (s.host.funcs[f]).pba v.val && s.funcSends f then
      let masked := if (s.host.funcs[f]).msixEn then (s.host.funcs[f]).msixMask || ((s.host.funcs[f]).msix[v]).masked
        else bitAt (s.host.funcs[f]).msiMask v.val
      if masked then s
      else (s.modFunc f fun x => { x with pba := x.pba &&& (2 ^ 32 - 1 - 2 ^ v.val) }).sendVector f v
    else s) s

/-- Bus Master Enable set: pending messages go, and what was held for the instance goes on (R497, R548). -/
def State.bmeSet (s : State) (f : FuncId) : State :=
  if (s.host.funcs[f]).bme then s else
  let s := (s.modFunc f fun x => { x with bme := true }).flushPending f
  match (s.host.funcs[f]).inst with
  | some i => s.resumeHost i
  | none => s

/-- Tags of some functions quarantined for one COMPLETION_TIMEOUT from now (R503). -/
def State.quarantine (s : State) (p : PortId) (which : FuncId → Bool) : State :=
  let till := s.time.ts + s.cplTimeout p
  s.modPort p fun h => { h with tags := h.tags.map fun t => match t.2 with
    | .outstanding f _ _ => if which f then (t.1, .quarantined till) else t
    | .quarantined _ => t }

/-- Function Level Reset of one function (R501). -/
def State.resetFunc (s : State) (f : FuncId) : State :=
  let s := match (s.host.funcs[f]).inst with
    | some i => ((s.instReset i).notice i 3 []).modInst i fun x => { x with records := [] }
    | none => s
  let s := (s.lostHost f stAbortReset).instRecord f stAbortReset
  let s := s.modFunc f fun x => { HFunc.reset with inst := x.inst, flrUntil := s.time.ts + 10000000 }
  let s := s.modDict fun d => { d with windows := d.windows.set f .reset }
  s.quarantine (funcPort f) (· == f)

/-- Function Level Reset; that of a PF clears VF Enable and resets every VF (R501). [log 127 DEDUCED] -/
def State.functionReset (s : State) (f : FuncId) : State :=
  let p := funcPort f
  let s := s.resetFunc f
  if f == funcOf p 0 then
    ((portFuncs p).drop 1).foldl (fun s g => s.resetFunc g) (s.modPort p fun h => { h with vfEnable := false, numVfs := 0 })
  else s

/-- A Function Level Reset. -/
def execFunctionLevelReset (func : FuncId) (s : State) : Res := .next (s.functionReset func)

/-! Configuration space (R490 to R494). -/

/-- Index of a function within its port. -/
def funcIndex (f : FuncId) : Nat := f.val % 16

/-- A function exists: the PF, or a VF while VF Enable is set and NumVFs reaches it (R490). -/
def State.funcExists (s : State) (f : FuncId) : Bool :=
  let h := s.host.ports[funcPort f]
  funcIndex f == 0 || (h.vfEnable && funcIndex f ≤ h.numVfs)

/-- A dword the host wrote, 0 where it wrote none. [log 122 PRESUMED] -/
def HFunc.conf (x : HFunc) (off : Nat) : Nat := ngetZ x.config off

/-- The dword that stands at an offset into a function's BARs: BAR0 with BAR1 is 64-bit and of 64 KiB, BAR2 with BAR3 64-bit,
prefetchable and of 256 MiB, and no other BAR is implemented (R493). [log 122 PRESUMED] -/
def barRead (off v : Nat) : Nat :=
  match off with
  | 0x00 => v / 2 ^ 16 % 2 ^ 16 * 2 ^ 16 + 0x4
  | 0x04 => v
  | 0x08 => v / 2 ^ 28 % 2 ^ 4 * 2 ^ 28 + 0xC
  | 0x0C => v
  | _ => 0

/-- The dword of configuration space at an offset: R491 and R492, other dwords as the host wrote them. [log 122 PRESUMED] -/
def State.configRead (s : State) (f : FuncId) (off : Nat) : Nat :=
  let x := s.host.funcs[f]
  let h := s.host.ports[funcPort f]
  let pf := funcIndex f == 0
  match off with
  | 0x000 => 0x1F8D + (if pf then 0x6480 else 0x6481) * 2 ^ 16
  | 0x004 => x.memEn.toNat * 2 + x.bme.toNat * 4 + 0x10 * 2 ^ 16
  | 0x008 => 0xA0 + 0x120000 * 2 ^ 8
  | 0x010 | 0x014 | 0x018 | 0x01C | 0x020 | 0x024 | 0x030 => if pf then barRead (off - 0x010) (x.conf off) else 0
  | 0x02C => s.ro 0x3003 0xF1
  | 0x034 => 0x40
  | 0x03C => x.conf off % 2 ^ 8
  | 0x040 => 0x01 + 0x50 * 2 ^ 8
  | 0x044 => if x.d3 then 3 else 0
  | 0x050 => 0x05 + 0x70 * 2 ^ 8 + (x.msiEn.toNat + 5 * 2 + x.msiLog * 16 + 2 ^ 7 + 2 ^ 8) * 2 ^ 16
  | 0x054 => x.msiAddr % 2 ^ 32
  | 0x058 => x.msiAddr / 2 ^ 32
  | 0x05C => x.msiData
  | 0x060 => x.msiMask
  | 0x064 => if x.msixEn then 0 else x.pba
  | 0x070 => 0x10 + 0xB0 * 2 ^ 8 + 2 * 2 ^ 16
  | 0x074 => 2 + 2 ^ 15 + 2 ^ 28
  | 0x07C => 5 + 4 * 2 ^ 4 + 2 * 2 ^ 10 + 3 * 2 ^ 15
  | 0x094 => 2 ^ 16 + 2 ^ 17
  | 0x09C => 0x3E
  | 0x080 => x.conf off % 2 ^ 16 + (h.speed + h.width * 2 ^ 4 + (bitAt s.boot.straps (funcPort f).val).toNat * 2 ^ 12) * 2 ^ 16
  | 0x0B0 => 0x11 + (31 + x.msixMask.toNat * 2 ^ 14 + x.msixEn.toNat * 2 ^ 15) * 2 ^ 16
  | 0x0B4 => 0x2000
  | 0x0B8 => 0x3000
  | 0x100 => 0x0001 + 1 * 2 ^ 16 + 0x148 * 2 ^ 20
  | 0x10C => x.conf off ^^^ 0x00462030
  | 0x148 => 0x000E + 1 * 2 ^ 16 + (if pf then 0x158 else 0) * 2 ^ 20
  | 0x158 => if pf then 0x0003 + 1 * 2 ^ 16 + 0x168 * 2 ^ 20 else 0
  | 0x15C => if pf then s.boot.fuses.serial % 2 ^ 32 else 0
  | 0x160 => if pf then s.boot.fuses.serial / 2 ^ 32 else 0
  | 0x168 => if pf then 0x0010 + 1 * 2 ^ 16 else 0
  | 0x170 => if pf then h.vfEnable.toNat else 0
  | 0x174 => if pf then 15 + 15 * 2 ^ 16 else 0
  | 0x178 => if pf then h.numVfs else 0
  | 0x17C => if pf then 1 + 1 * 2 ^ 16 else 0
  | 0x180 => if pf then 0x6481 * 2 ^ 16 else 0
  | 0x184 => if pf then 1 else 0
  | 0x188 => if pf then 1 else 0
  | 0x18C | 0x190 | 0x194 | 0x198 | 0x19C | 0x1A0 => if pf then barRead (off - 0x18C) (x.conf off) else 0
  | _ => x.conf off

/-- A write to the Power Management control: entering D3hot acts as clearing Bus Master Enable (R494); leaving it resets the
function's configuration, since No_Soft_Reset is 0 (R492). [log 124 PRESUMED] -/
def State.powerWrite (s : State) (f : FuncId) (v : Nat) : State :=
  let x := s.host.funcs[f]
  if v % 4 == 3 && !x.d3 then (s.modFunc f fun x => { x with d3 := true }).lostHost f stRevoked
  else if v % 4 == 0 && x.d3 then
    s.modFunc f fun x => { HFunc.reset with inst := x.inst, regs := x.regs, mbIn := x.mbIn, heldOff := x.heldOff }
  else s

/-- A dword write to configuration space. -/
def State.configWrite (s : State) (f : FuncId) (off v : Nat) : State :=
  let p := funcPort f
  let pf := funcIndex f == 0
  match off with
  | 0x004 =>
    let s := s.modFunc f fun x => { x with memEn := bitAt v 1 }
    if bitAt v 2 then s.bmeSet f else s.bmeClear f
  | 0x044 => s.powerWrite f v
  | 0x050 =>
    (s.modFunc f fun x => { x with msiEn := bitAt v 16, msiLog := min 5 (bitsOf v 22 20) }).flushPending f
  | 0x054 => s.modFunc f fun x => { x with msiAddr := x.msiAddr / 2 ^ 32 * 2 ^ 32 + v / 4 * 4 % 2 ^ 32 }
  | 0x058 => s.modFunc f fun x => { x with msiAddr := x.msiAddr % 2 ^ 32 + v % 2 ^ 32 * 2 ^ 32 }
  | 0x05C => s.modFunc f fun x => { x with msiData := v % 2 ^ 16 }
  | 0x060 => (s.modFunc f fun x => { x with msiMask := v % 2 ^ 32 }).flushPending f
  | 0x078 => if bitAt v 15 then s.functionReset f else s.modFunc f fun x => { x with config := nputZ x.config off (v % 2 ^ 32) }
  | 0x0B0 => (s.modFunc f fun x => { x with msixMask := bitAt v 30, msixEn := bitAt v 31 }).flushPending f
  | 0x170 => if pf then s.modPort p fun h => { h with vfEnable := bitAt v 0 } else s
  | 0x178 => if pf && !(s.host.ports[p]).vfEnable then s.modPort p fun h => { h with numVfs := min 15 (v % 2 ^ 16) } else s
  | 0x104 => s.modFunc f fun x => { x with config := nputZ x.config off (clearOnes (x.conf off) v) }
  | 0x10C => s.modFunc f fun x => { x with config := nputZ x.config off (v % 2 ^ 32 ^^^ 0x00462030) }
  | _ => s.modFunc f fun x => { x with config := nputZ x.config off (v % 2 ^ 32) }

/-- A configuration request of one dword, with the bus number it carries: answered where the link is up and no Function
Level Reset is in progress; a write captures the bus number (R498). -/
def State.configRequest (s : State) (f : FuncId) (bus off : Nat) (write : Option Nat) : State :=
  let p := funcPort f
  if !(s.host.ports[p]).linkUp || s.time.ts < (s.host.funcs[f]).flrUntil then s
  else if !s.funcExists f then s.emit (.reply f none)
  else
    match write with
    | none => s.emit (.reply f (some (toLE 4 (s.configRead f (off / 4 * 4)))))
    | some v => ((s.modPort p fun h => { h with bus := bus % 256 }).configWrite f (off / 4 * 4) (v % 2 ^ 32)).emit (.reply f (some []))

/-- A PCIe configuration request to a function. -/
def execConfigRequest (func : FuncId) (bus off : Nat) (write : Option Nat) (s : State) : Res :=
  .next (s.configRequest func bus off write)

/-! Freeze (R505 to R508). -/

/-- An error record about a failed request of a port. -/
def State.portRecord (s : State) (p : PortId) (code : Nat) (sev : Severity) (f : Option FuncId) : State :=
  let inst := ((f.bind fun f => (s.host.funcs[f]).inst).map (·.val)).getD 0xFF
  s.raise (srcPort p) { ErrRec.blank with code := code, severity := sev, scope := 9, scopeId := p.val, inst := inst }

/-- INT_CAUSE.FREEZE on every function of a port (R495). -/
def State.freezeCause (s : State) (p : PortId) : State := (portFuncs p).foldl (fun s f => s.eventCause f 3) s

/-- A freezing instance of a frozen port has nothing left to drain (R556). -/
def State.settleFreezing (s : State) (p : PortId) : State := (s.portInsts p).foldl (fun s i => s.instDrained i) s

/-- A port freezes; a further event while it is frozen only raises FREEZE_SEQ (R505, R506). [log 125 DEDUCED] -/
def State.freezePort (s : State) (p : PortId) (cause : Nat) : State :=
  let s := s.modPort p fun h => { h with freezeSeq := (h.freezeSeq + 1) % 2 ^ 32 }
  if (s.host.ports[p]).state != .running then s else
  let (st, s) := s.stamp (srcPort p)
  let hold := 1000000 * s.cfg 0x3012 1 5000
  let s := s.modPort p fun h => { h with state := .frozen, cause := cause, frozenAt := st, holdEnd := st.ts + hold }
  let s := s.portCount p fun c => { c with freezes := c.freezes + 1 }
  let s := s.quarantine p fun _ => true
  let s := (portFuncs p).foldl (fun s f => s.lostHost f stPortFrozen) s
  let s := (s.settleFreezing p).freezeCause p
  s.portRecord p stPortFrozen .degraded none

/-- Default of the AER Uncorrectable Error Severity register. -/
def aerFatal : Nat := 0x00462030

/-- An uncorrectable error that AER logs, by its bit: 12 poisoned, 14 Completion Timeout, 16 Unexpected Completion, 20 Unsupported
Request; one of Fatal severity that is not masked freezes the port (R503 to R505). [log 221 PRESUMED] -/
def State.aerLog (s : State) (f : FuncId) (bit : Nat) : State :=
  let s := s.modFunc f fun x => { x with config := nputZ x.config 0x104 (x.conf 0x104 ||| 2 ^ bit) }
  let s := s.portCount (funcPort f) fun c => { c with uncorrectable := c.uncorrectable + 1 }
  let x := s.host.funcs[f]
  if bitAt (x.conf 0x10C ^^^ aerFatal) bit && !bitAt (x.conf 0x108) bit then s.freezePort (funcPort f) 4 else s

/-- A link-down's reset of a function: what R547 records keeps its value (R505). -/
def State.linkReset (s : State) (f : FuncId) : State :=
  let s := s.modFunc f fun x =>
    { HFunc.reset with inst := x.inst, regs := if x.inst.isSome then x.regs else .reset }
  s.modDict fun d => { d with windows := d.windows.set f .reset }

/-- Data Link Layer Down of a link that is up: 1 surprise down, 2 Hot Reset or Link Disable, 3 PERST (R505, R510). -/
def State.linkDown (s : State) (p : PortId) (cause : Nat) : State :=
  if !(s.host.ports[p]).linkUp then s.modPort p fun h => { h with perst := h.perst || cause == 3 } else
  let s := s.modPort p fun h => { h with linkUp := false, perst := cause == 3, vfEnable := false, numVfs := 0, bus := 0 }
  let s := s.freezePort p cause
  (portFuncs p).foldl (fun s f => s.linkReset f) s

/-- A port's link goes down. -/
def execLinkDown (port : PortId) (cause : Nat) (s : State) : Res := .next (s.linkDown port cause)

/-- AER logs an uncorrectable error as Fatal (R505). -/
def execFatalError (port : PortId) (s : State) : Res :=
  .next ((s.portCount port fun c => { c with uncorrectable := c.uncorrectable + 1 }).freezePort port 4)

/-- A link trains at a speed code 1 to 5, a width and an LTSSM state (R489, R511, R514). -/
def execLinkUp (port : PortId) (speed width ltssm : Nat) (s : State) : Res :=
  .next (if (s.host.ports[port]).enable && !(s.host.ports[port]).fault then
      s.modPort port fun h => { h with linkUp := true, perst := false, speed := speed, width := width, ltssm := ltssm, degraded := speed ≤ 2 }
    else s)

/-- A FROZEN port becomes SUSPENDED, with the instances bound to it (R506). -/
def State.suspendPort (s : State) (p : PortId) : State :=
  if (s.host.ports[p]).state != .frozen then s else
  let s := s.modPort p fun h => { h with state := .suspended }
  let s := (s.portInsts p).foldl (fun s i => s.modInst i fun x => if x.state == .bound then { x with state := .suspended } else x) s
  s.freezeCause p

/-- FREEZE_HOLD passes. -/
def execFreezeHoldExpiry (port : PortId) (s : State) : Res :=
  .next (if (s.host.ports[port]).state == .frozen then (s.advanceTo (s.host.ports[port]).holdEnd).suspendPort port else s)

/-- A release is counted as refused. -/
def State.releaseRefused (s : State) (p : PortId) : State := s.portCount p fun c => { c with releaseRefused := c.releaseRefused + 1 }

/-- A release (R507, R508). -/
def State.releasePort (s : State) (p : PortId) (seq : Nat) : Nat × State :=
  let h := s.host.ports[p]
  if h.state == .running || !h.linkUp || seq != h.freezeSeq then (stWrongState, s.releaseRefused p) else
  let s := (s.modPort p fun h => { h with state := .running }).freezeCause p
  let s := (portFuncs p).foldl (fun s f => s.flushPending f) s
  (stOk, (s.portInsts p).foldl (fun s i => s.resumeInst i) s)

/-- The manager's FREEZE_RELEASE (R507). -/
def State.freezeAction (s : State) (p : PortId) (action seq : Nat) : Nat × State :=
  match action with
  | 1 => s.releasePort p seq
  | 2 => match (s.host.ports[p]).state with
    | .frozen => (stOk, s.suspendPort p)
    | .suspended => (stOk, s)
    | .running => (stWrongState, s.releaseRefused p)
  | _ => (stBadArgument, s)

/-- FRZ_RELEASE written at a function: only the PF's counts (R507). [log 126 DEDUCED] -/
def State.frzRelease (s : State) (f : FuncId) (value : Nat) : State :=
  let p := funcPort f
  if funcIndex f == 0 then (s.releasePort p (value % 2 ^ 32)).2 else s.releaseRefused p

/-- A write to FRZ_RELEASE. -/
def execFrzRelease (func : FuncId) (value : Nat) (s : State) : Res := .next (s.frzRelease func value)

/-! Completions and tags (R503, R504). -/

/-- The request of a tag fails with LENGTH_SHORT (R452, R503); the image read of a RUN_PLAN fails check 3 of R176. -/
def State.failRead (s : State) (use : TagUse) : State :=
  match use with
  | .chan c => (s.chanReturn c []).sweepMarked
  | .gone => s
  | .command i seq =>
    match s.cmdSeq i seq with
    | some c => (match c.stage with
      | .reading _ => if c.opcode == 0x30 then s.refusePlan i c.receipt stLengthShort noOffset else s.complete i c.receipt stLengthShort
      | _ => s)
    | none => s

/-- A completion arrives: 0 success, 1 Unsupported Request, 2 Completer Abort. -/
def State.cplReceived (s : State) (f : FuncId) (tag status : Nat) (poisoned : Bool) (data : Bytes) : State :=
  let p := funcPort f
  match nget (s.host.ports[p]).tags tag with
  | none => (s.portCount p fun c => { c with unexpected := c.unexpected + 1 }).aerLog f 16
  | some (.quarantined _) =>
    let (st, s) := s.stamp (srcPort p)
    (s.portCount p fun c => { c with late := c.late + 1 }).modHost fun h => { h with lateLog := some (st, p.val, tag, funcIndex f) }
  | some (.outstanding _ use _) =>
    let s := s.modPort p fun h => { h with tags := ndel h.tags tag }
    let s := if poisoned then s.aerLog f 12 else s
    match use with
    | .gone => s.bump 0x2801 5 1
    | .chan c => if status != 0 || poisoned then s.failRead use else (s.chanReturn c data).sweepMarked
    | .command _ _ => if status != 0 || poisoned then s.failRead use else s

/-- A PCIe completion arrives for a tag, with the function its requester ID names. -/
def execCompletionReceived (func : FuncId) (tag status : Nat) (poisoned : Bool) (data : Bytes) (s : State) : Res :=
  .next (s.cplReceived func tag status poisoned data)

/-- The record of a read that timed out: of the request it belonged to, else of the port (R664, R669). -/
def State.timeoutRecord (s : State) (p : PortId) (f : FuncId) (use : TagUse) : State :=
  match use with
  | .command i seq =>
    s.raise (srcPort p)
      { ErrRec.blank with code := stLengthShort, severity := .contained, scope := 1, scopeId := seq % 65536, inst := i.val }
  | _ => s.portRecord p stLengthShort .contained (some f)

/-- A non-posted request times out (R503). -/
def State.cplTimedOut (s : State) (p : PortId) (tag : Nat) : State :=
  match nget (s.host.ports[p]).tags tag with
  | some (.outstanding f use due) =>
    let s := s.advanceTo due
    let s := s.modPort p fun h => { h with tags := nput h.tags tag (.quarantined (s.time.ts + s.cplTimeout p)) }
    let s := ((s.portCount p fun c => { c with timeouts := c.timeouts + 1 }).failRead use).aerLog f 14
    s.timeoutRecord p f use
  | _ => s

/-- COMPLETION_TIMEOUT passes for a tag. -/
def execCompletionTimeout (port : PortId) (tag : Nat) (s : State) : Res := .next (s.cplTimedOut port tag)

/-- A tag's quarantine expires (R503). -/
def execQuarantineEnd (port : PortId) (tag : Nat) (s : State) : Res :=
  .next (match nget (s.host.ports[port]).tags tag with
    | some (.quarantined till) => (s.advanceTo till).modPort port fun h => { h with tags := ndel h.tags tag }
    | _ => s)

/-! Holdoff and BAR2. -/

/-- A vector's holdoff ends and merged events send one message (R495). -/
def execIntHoldoffExpiry (func : FuncId) (vec : Fin 32) (s : State) : Res :=
  let x := s.host.funcs[func]
  .next (if bitAt x.merged vec.val then
      ((s.advanceTo (ngetZ x.heldOff vec.val)).modFunc func fun y => { y with merged := y.merged &&& (2 ^ 32 - 1 - 2 ^ vec.val) }).sendVector
        func vec
    else s)

/-- A BAR answers a function's memory requests (R494). -/
def State.barOpen (s : State) (f : FuncId) : Bool :=
  let x := s.host.funcs[f]
  s.funcExists f && x.memEn && !x.d3

/-- An Unsupported Request with its error record (R29, R514). -/
def State.unsupported (s : State) (f : FuncId) : State :=
  ((s.emit (.reply f none)).aerLog f 20).portRecord (funcPort f) 0 .note (some f)

/-- A host read of BAR2 (R29). [log 198 DEDUCED] -/
def State.bar2Read (s : State) (f : FuncId) (off n : Nat) : State :=
  if !s.barOpen f then s.unsupported f else
  match (s.host.funcs[f]).inst with
  | none => s.unsupported f
  | some i =>
    if s.areaBytes i < off + n then s.unsupported f
    else s.emit (.reply f (some (nbytes (s.insts[i]).area off n)))

/-- A host reads bytes of BAR2. -/
def execBar2Read (func : FuncId) (off n : Nat) (s : State) : Res := .next (s.bar2Read func off n)

/-- A host write to BAR2 is discarded and counted (R29). -/
def execBar2Write (func : FuncId) (off : Nat) (data : Bytes) (s : State) : Res :=
  .next (if s.barOpen func then s.bump 0x3001 (0xF0 + func.val / 16) 1 else s.unsupported func)

end Sys2Proof.Machine
end

