-- ==== Sys2Proof/Machine/Health.lean ====
section
/-! DEFINITION. Availability (R673, R674), and what every loss of the main domains has in common. -/

namespace Sys2Proof.Machine

/-- Powered time counted up to now (R673). -/
def State.countPowered (s : State) : State :=
  s.modErr fun e => match e.poweredSince with
    | some t => { e with poweredUs := e.poweredUs + (s.time.ts - t) / 1000, poweredSince := some s.time.ts }
    | none => e

/-- Powered time is counted, or no longer. -/
def State.setPowered (s : State) (on : Bool) : State :=
  s.countPowered.modErr fun e => { e with poweredSince := if on then some s.time.ts else none }

/-- A cause of outage stands: no Ridge takes input, FINIAL_FAULT, CONTROL_LOST, a halt's among it, or the critical trip (R673). -/
def State.inOutage (s : State) : Bool :=
  s.boot.halted ||
    (s.boot.inService && (s.finial.holder == 0 || s.finial.fault || bitAt s.finial.alert 2 || (s.power.trips[2]).set))

/-- An outage begins or ends. -/
def State.setOutage (s : State) (on : Bool) : State :=
  s.modErr fun e => match e.outageSince, on with
    | none, true => { e with outageSince := some s.time.ts, outages := e.outages + 1 }
    | some t, false => { e with outageSince := none, outageUs := e.outageUs + (s.time.ts - t) / 1000 }
    | _, _ => e

/-- Outage time follows its causes. -/
def State.noteOutage (s : State) : State := s.setOutage s.inOutage

/-- The availability counters are mirrored into the persistent store (R674). -/
def State.mirrorAvail (s : State) : State :=
  s.countPowered.modErr fun e =>
    { e with mirrorPowered := e.poweredUs, mirrorOutage := e.outageUs, mirrorOutages := e.outages, mirrorAt := e.poweredUs }

/-- Every 60 s of powered time the counters are mirrored. -/
def execAvailabilityMirror (s : State) : Res :=
  .next (match s.err.poweredSince with
    | none => s
    | some t =>
      if !s.ridgeActs then s else
      let left := 60000000 - (s.err.poweredUs - s.err.mirrorAt)
      (s.advanceTo (t + 1000 * left)).mirrorAvail)

/-- A table as it stands once the main domains have lost power: what the Ligger held is gone, and so are the segments of a
table without KEEP (R104, R146). Sealing that was in progress is abandoned, and starts again (R102). -/
def Table.dark (t : Table) : Table :=
  { t with ingestNext := none, retNext := none, held := [], mark := none, refusing := false
           segs := if t.desc.keep then t.segs.filter (fun g => g.state != .retired)
             |>.map fun g => { g with sealCols := none, openHeld := 0, openRows := [], openAtA := [], openAtB := [] } else [] }

/-- Drops that waited for a snapshot complete: no snapshot outlives the main domains (R71). [log 236 DEDUCED] -/
def TableSt.dropDone (t : TableSt) : TableSt :=
  let gone := (t.tables.filter (·.2.dropping)).map (·.1)
  { t with tables := t.tables.filter fun p => !gone.contains p.1, keepCatalogue := t.keepCatalogue.filter fun k => !gone.contains k.1 }

/-- The persistent store once those drops have completed. -/
def State.storeDropped (s : State) : NMap Bytes :=
  (s.tables.tables.filter (·.2.dropping)).foldl (fun m p => ndel m (2 ^ 24 + p.1)) s.dict.store

/-- The main domains are reset: what domain 18, boot flash and the modules hold is all that is left (R422, R679). -/
def State.dark (s : State) : State :=
  let s := (s.setPowered false).setOutage false
  { s with
    time := { s.time with run := false, syncWait := none, pdelaySent := none, stepPending := none, nextTick := 0, lastKind := .none },
    dict := { s.dict with store := s.storeDropped, vals := [], ro := [], staged := [], finialCopy := [], commits := [], windows := .replicate 64 .reset,
                          replies := [], plynIn := [], deferred := [], slots := s.dict.slots.map fun k => { k with assembly := none },
                          plcaActive := .replicate 2 false, fieldStopped := .replicate 2 false },
    tables := { s.tables.dropDone with tables := s.tables.dropDone.tables.map fun p => (p.1, p.2.dark) },
    ingest := { IngestSt.reset with mapNow := s.ingest.mapNow },
    plans := .reset,
    purlin := .reset,
    batten := .reset,
    tiles := .replicate 64 .reset,
    thatch := .reset,
    dram := { s.dram with chans := .replicate 8 .reset },
    gutter := .reset,
    yelm := .reset,
    flash := { FlashSt.reset with alarms := s.flash.alarms },
    host := .reset,
    insts := .replicate 64 .reset,
    finial := { s.finial with ridges := .replicate 2 .reset, holder := 0, handover := false, ret := .none, requested := none, lone := none, loneTried := 0,
                              heartbeat := false, journal := [] },
    boot := { s.boot with inService := false, xspiOn := false, activating := none, visits := [], coursesFenced := 0, staging := .replicate 2 false, attest := none, report := [] },
    power := { s.power with courses := .replicate 8 .reset, capActive := false, capUnmet := false, belowSince := none },
    freeCtr := s.freeCtr + 1 }

end Sys2Proof.Machine
end

