-- ==== Sys2Proof/Machine/Keep.lean ====
section
/-! DEFINITION. The Keep (R421 to R424, R536): entry up to step 4, and what holds once the device is in it. -/

namespace Sys2Proof.Machine

/-- Held rows of KEEP tables are made visible at once in triple order; those of other tables are dropped (R146). -/
def State.releaseForKeep (s : State) : State :=
  let rows := s.tables.tables.flatMap fun p => p.2.held.map fun r => (p.1, p.2.desc.keep, r)
  let rows := sortBy (fun (a b : Nat × Bool × SRow) => a.2.2.stamp.lt b.2.2.stamp) rows
  let s := s.modTables fun t => { t with tables := t.tables.map fun p => (p.1, { p.2 with held := [] }) }
  (rows.foldl (fun s (x : Nat × Bool × SRow) => if x.2.1 then s.placeRow x.1 false x.2.2 else s.bump 0x1090 9 1) s).settleAppends

/-- Sealing that has not reached its catalogue update is abandoned: the segment stays OPEN, closed to rows, and its sealing starts
again with the descriptor then in force (R98, R102). -/
def State.abandonSeals (s : State) : State :=
  (s.modPurlin fun p => { p with hipSeal := .replicate 8 none }).modTables fun t => { t with tables := t.tables.map fun p =>
    (p.1, { p.2 with segs := p.2.segs.map fun g => { g with sealCols := none, sealAt := s.time.ts } }) }

/-- The open window of a query: of those whose end edge is not reached, the first; of sessions, the one not closed. -/
def State.openWindow (s : State) (q : Query) : Option Window :=
  let now := s.domainNow q.domain
  if q.shape == 2 then
    (q.sessions.getLast?.filter fun x => now < q.closes x).map fun x => ⟨x.no, x.vFirst, now, x.tFirst, s.time.ts⟩
  else some (s.windowOf q (max q.nextNo (ceilDiv (now + 1 - q.word 4) q.slide)))

/-- The open window of a query fires once, PARTIAL, over the rows visible at Keep entry, whatever firings are outstanding (R284). [log 214 DEDUCED] -/
def State.fireOpen (s : State) (cq : Nat) : State :=
  match s.query cq with
  | none => s
  | some q =>
    match s.openWindow q with
    | none => s
    | some w =>
      if q.removing.isSome then s else
      let (stamp, s) := s.stamp srcBatten
      let f := Firing.due w stamp (s.snapNow (s.queryTables q)) false false true 0
      (s.modQuery cq fun q => { q with firings := q.firings ++ [f] }).runQuery cq

/-- Queries at Keep entry: those with FIRE_ON_KEEP fire; then every query is removed (R284). -/
def State.keepQueries (s : State) : State :=
  let s := s.batten.queries.foldl (fun s q => if q.2.fireOnKeep then s.fireOpen q.1 else s) s
  s.batten.queries.foldl (fun s q => s.retireQuery q.1 0) s

/-- Plans not complete, and registrations not made, end at T_K (R422, R536). -/
def State.keepPlans (s : State) : State :=
  (List.finRange 64).foldl (fun s i =>
    ((s.insts[i]).queue.filter (·.isPlan)).foldl (fun s c => s.abortCmd i c stAbortCancel) s) s

/-- Segments of tables without KEEP are retired (R104). -/
def State.keepRetire (s : State) : State :=
  s.tables.tables.foldl (fun s p =>
    if p.2.desc.keep then s
    else ((p.2.segs.filter fun g => g.state != .retired).foldl (fun s g => s.retireSeg p.1 g.no 5) s)) s

/-- Keep entry begins: T_K is stamped and steps 1 to 4 of R422 take place. -/
def State.keepEntry (s : State) : State :=
  if s.dram.phase != .out || !s.boot.inService then s else
  let (tk, s) := s.stamp srcFinial
  let s := s.modDram fun d => { d with phase := .entering, keepStamp := some tk, keepEntered := tk.ts, keepValid := false, overran := false, wakeLowAt := none }
  s.keepPlans.releaseForKeep.abandonSeals.keepQueries.keepRetire

/-- WAKE goes low outside the Keep, or during the start that its rise began there (R422, R638). -/
def execWakeFall (s : State) : Res :=
  .next (if s.boot.wakeHigh && (s.dram.phase != .inKeep || s.boot.wakePending) then
      (s.modBoot fun b => { b with wakeHigh := false }).modDram fun d => { d with wakeLowAt := some s.time.ts }
    else s.modBoot fun b => { b with wakeHigh := false })

/-- WAKE has stayed low for KEEP_WAKE_DELAY ms: Keep entry begins, unless the delay is 0 (R422). -/
def execKeepWakeDelayExpiry (s : State) : Res :=
  let ms := s.cfg 0x1020 4 2000
  .next (match s.dram.wakeLowAt with
    | some t =>
      if ms == 0 || s.boot.wakeHigh || s.dram.phase != .out || !s.boot.inService then s
      else (s.advanceTo (t + 1000000 * ms)).keepEntry
    | none => s)

/-- The copies of step 6 (R422, R423). -/
def DramSt.keepCopy (d : DramSt) : KeepCopy := ⟨d.remap, d.rankSize, d.eighths⟩

/-- Step 7 of Keep entry: self-refresh with PASR, every main domain off, MAIN_EN low, the retention timer running
(R422 to R424, R681); the drain of a Ridge activation resumes after the Keep (R537). -/
def State.enterKeep (s : State) (valid : Bool) : State :=
  let keep := s.keepBytes
  let drain := s.boot.activating.filter (·.1 == 1)
  let s := s.dark
  let s := s.modMem fun m => m.filter fun c => c.1 < keep
  let s := s.modDram fun d =>
    { d with phase := .inKeep, keepValid := valid, retainFrom := some s.time.ts, mig := if d.mig.state == 1 then { d.mig with state := 2 } else d.mig,
             poison := d.poison.filter fun l => l.1 * 64 < keep }
  s.modBoot fun b => { b with mainEn := false, mainUp := false, activating := drain }

/-- The limit passes before step 7: the Keep is entered regardless, KEEP_VALID clear, Nail commands not completed (R423). -/
def execKeepEntryLimitExpiry (s : State) : Res :=
  .next (match s.dram.phase, s.dram.keepStamp with
    | .entering, some k =>
      let s := s.advanceTo (k.ts + 1000000 * s.cfg 0x1020 5 500)
      let s := s.raise srcFinial { ErrRec.blank with severity := .fatal, event := 1 }
      (s.modDram fun d => { d with overran := true }).enterKeep false
    | _, _ => s)

/-- The retention timer passes KEEP_RETENTION: KEEP_VALID clears and the modules are placed in reset (R424). [log 111 DEDUCED] -/
def State.keepLapse (s : State) (hours : Nat) : State :=
  match s.dram.phase, s.dram.retainFrom with
  | .inKeep, some t =>
    (((s.advanceTo (t + 3600000000000 * hours)).modDram fun d => { d with keepValid := false, retainFrom := none, poison := [], modulesReset := true }).modMem fun _ => [])
  | _, _ => s

/-- KEEP_RETENTION hours have passed since step 7; the store gives the value in force. -/
def execKeepRetentionExpiry (s : State) : Res :=
  .next (s.keepLapse (match nget s.dict.store (objKey 0x1020 2) with
    | some b => leNat b
    | none => 720))

end Sys2Proof.Machine
end

