-- ==== Sys2Proof/Machine/Flashing.lean ====
section
/-! DEFINITION. The Flashing digest engine (chapter 16). -/

namespace Sys2Proof.Machine

/-- ALARM_CLEARED as a context's end (R482). -/
def FCtx.failedWith (code : Nat) : FCtx := { FCtx.reset with state := .failed, code := code }

/-- One context changed. -/
def State.modCtx (s : State) (k : Fin 16) (f : FCtx → FCtx) : State :=
  s.modFlash fun x => { x with ctxs := x.ctxs.set k (f (x.ctxs[k])) }

/-- Contexts that are not FREE, as a mask. -/
def FlashSt.inUse (f : FlashSt) : Nat :=
  ((List.finRange 16).map fun k => if (f.ctxs[k]).state == .free then 0 else 2 ^ k.val).sum

/-- Zeroisation for a cause: 1 bus error, 2 voltage, 3 clock, 4 temperature, 5 tamper, 6 Finial (R482). -/
def State.flashClear (s : State) (cause : Nat) : State :=
  let mask := s.flash.inUse
  let (st, s) := s.stamp srcFlash
  let s := s.modFlash fun f =>
    { f with ctxs := f.ctxs.map fun x => if x.state == .free then x else FCtx.failedWith stAlarmCleared
             cleared := true, lastCause := cause, lastClear := some (st, cause, mask) }
  (s.bump 0x2E00 6 1).raise srcFlash
    { ErrRec.blank with code := stAlarmCleared, severity := .contained, scope := 7, detail0 := cause, event := 1 }

/-- An alarm begins: it clears the engine and persists (R482). [log 121 DEDUCED] -/
def State.flashAlarm (s : State) (cause : Nat) : State :=
  (s.modFlash fun f => { f with alarms := f.alarms ||| 2 ^ cause }).flashClear cause

/-- An alarm ends. -/
def State.flashAlarmEnd (s : State) (cause : Nat) : State :=
  s.modFlash fun f => { f with alarms := if bitAt f.alarms cause then f.alarms - 2 ^ cause else f.alarms }

/-- Every context zeroised and freed, CLEARED left as it is (R484). -/
def State.flashFreeAll (s : State) : State := s.modFlash fun f => { f with ctxs := f.ctxs.map fun _ => FCtx.reset }

/-- The answer of an FD_ALLOC read, and the state after it (R477, R482). [log 120 DEDUCED] -/
def State.fdAlloc (s : State) : Nat × State :=
  if s.flash.alarms != 0 then (stAlarmCleared * 65536, s) else
  match (List.finRange 16).find? fun k => (s.flash.ctxs[k]).state == .free with
  | none => (stNoContext * 65536, s.bump 0x2E00 4 1)
  | some k => (k.val, s.modCtx k fun _ => { FCtx.reset with state := .set })

/-- FD_ALLOC is read by the active Ridge; the word answered is kept as the last answer. -/
def execFdAlloc (s : State) : Res :=
  .next (if s.ridgeActs then
    let (v, s) := s.fdAlloc
    s.modFlash fun f => { f with allocAnswer := v }
  else s)

/-- What refuses a START (R477, R481). -/
def State.fcRefuse (s : State) (k : Fin 16) (x : FCtx) (written : Nat) : Option Nat :=
  let others := (List.finRange 16).filter fun j => j != k && (s.flash.ctxs[j]).state == .running
  let cmpBad := if x.dest == 2 then !(16 ≤ x.cmpLen && x.cmpLen ≤ shaLen x.alg) else x.cmpLen != 0
  let keyBad := x.hmac && (!x.keyWritten || x.keyLen == 0 || 4096 < x.keyLen || (!x.keyMem && 128 < x.keyLen))
  if x.alg == 0 || written / 2 ^ 22 != 0 || x.source == 3 || x.dest == 3 || cmpBad || keyBad
    || (x.dest == 1 && x.dst % 64 != 0)
    || (x.source == 2 && others.any fun j => (s.flash.ctxs[j]).source == 2 && (s.flash.ctxs[j]).tap == x.tap)
  then some stBadArgument
  else if x.source == 2 && x.paced && others.any fun j => (s.flash.ctxs[j]).source == 2 && (s.flash.ctxs[j]).paced
  then some stBusy
  else none

/-- A device range within the reach of the active Ridge whose every byte something answers (R24). -/
def State.ridgeReaches (s : State) (a n : Nat) : Bool :=
  (s.devCuts a n).all fun c =>
    match s.regionOf c.1 with
    | .dram => c.1 + c.2 ≤ s.dram.managed
    | .aperture => (s.apertureLine c.1).isSome
    | .scratch .. => true
    | _ => false

/-- START of a context (R477, R478). -/
def State.fcStart (s : State) (k : Fin 16) (ctrl : Nat) : State :=
  let x := s.flash.ctxs[k]
  if bitAt ctrl 21 then s.modCtx k fun _ => FCtx.reset else
  if x.state != .set then s else
  let x := { x with ctrl := ctrl % 2 ^ 20 }
  match s.fcRefuse k x ctrl with
  | some e => s.modCtx k fun _ => { x with state := .failed, code := e }
  | none =>
    if x.hmac && x.keyMem && !s.ridgeReaches x.keyAddr x.keyLen then s.flashClear 1 else
    let (key, s) := if x.hmac && x.keyMem then s.devRead x.keyAddr x.keyLen false else (some (x.key.take x.keyLen), s)
    match key with
    | none => s.modCtx k fun _ => FCtx.failedWith stPoisoned
    | some key =>
      let x := { x with state := .running, inUse := if x.hmac then padTo x.keyLen key else [], key := [], keyLen := 0,
                        keyMem := false, keyWritten := false, keyAddr := 0, taken := [], served := 0 }
      if x.source == 1 then
        if !s.ridgeReaches x.src x.len then (s.modCtx k fun _ => x).flashClear 1 else
        match s.devRead x.src x.len true with
        | (some d, s) => (s.modCtx k fun _ => { x with taken := d }).bump 0x2E00 3 x.len
        | (none, s) => s.modCtx k fun _ => FCtx.failedWith stPoisoned
      else s.modCtx k fun _ => x

/-- FC_CTRL is written with START: the fields written, START and FREE. -/
def execFcStart (ctx : Fin 16) (ctrl : Nat) (s : State) : Res := .next (if s.ridgeActs then s.fcStart ctx ctrl else s)

/-- FREE zeroises a context and frees it (R480). -/
def execFcFree (ctx : Fin 16) (s : State) : Res :=
  .next (if s.ridgeActs then s.modCtx ctx fun _ => FCtx.reset else s)

/-- Eight message bytes of a REGISTER-source context (R478). -/
def State.fcData (s : State) (k : Fin 16) (data : Word) : State :=
  let x := s.flash.ctxs[k]
  if x.state != .running || x.source != 0 then s
  else if x.len ≤ x.taken.length then s.modCtx k fun _ => FCtx.failedWith stLengthLong
  else
    let got := (x.taken ++ toLE 8 data.toNat).take x.len
    (s.modCtx k fun x => { x with taken := got }).bump 0x2E00 3 (got.length - x.taken.length)

/-- FC_DATA is written. -/
def execFcData (ctx : Fin 16) (data : Word) (s : State) : Res := .next (if s.ridgeActs then s.fcData ctx data else s)

/-- FC_KEYCTL written: key length and source, and the key is marked written (R476, R478). -/
def State.fcKeyctl (s : State) (k : Fin 16) (value : Nat) : State :=
  if (s.flash.ctxs[k]).state != .set then s
  else s.modCtx k fun x => { x with keyLen := value % 2 ^ 13, keyMem := bitAt value 16, keyWritten := true }

/-- FC_KEYCTL is written. -/
def execFcKeyctl (ctx : Fin 16) (value : Nat) (s : State) : Res := .next (if s.ridgeActs then s.fcKeyctl ctx value else s)

/-! Messages that end (R475, R478, R479). -/

/-- A message whose last block the core has taken is finished and delivered (R478, R479). -/
def State.fcDeliver (s : State) (k : Fin 16) : State :=
  let x := s.flash.ctxs[k]
  let dig := if x.hmac then hmacAlg x.alg x.inUse x.taken else shaAlg x.alg x.taken
  let fin : FCtx := { x with state := .done, code := stOk, taken := [], inUse := [] }
  let ended := s.bump 0x2E00 2 1
  match x.dest with
  | 0 => ended.modCtx k fun _ => { fin with digest := dig }
  | 1 =>
    if !s.ridgeReaches x.dst dig.length then s.flashClear 1
    else (ended.devWrite x.dst dig).modCtx k fun _ => fin
  | _ =>
    let eq := dig.take x.cmpLen == x.expect.take x.cmpLen
    (if eq then ended else ended.bump 0x2E00 5 1).modCtx k fun _ => { fin with compare := if eq then 1 else 2, expect := [] }

/-- The core serves block after block until a context's message is finished; messages of others that end on the way are finished as
well, in that order (R475). [log 215 DEDUCED] -/
def State.serveUntil (k : Fin 16) : Nat → State → State
  | 0, s => s
  | n + 1, s =>
    if (s.flash.ctxs[k]).state != .running then s else
    match s.flash.nextBlock with
    | none => s
    | some j =>
      let s := s.modFlash fun f => f.takeBlock j
      let x := s.flash.ctxs[j]
      State.serveUntil k n (if x.taken.length == x.len && x.served == x.blocks then s.fcDeliver j else s)

/-- A whole message is served to its end. -/
def State.fcFinish (s : State) (k : Fin 16) : State :=
  let x := s.flash.ctxs[k]
  if x.state != .running || x.taken.length != x.len then s
  else State.serveUntil k ((s.flash.ctxs.toList.map fun y => y.blocks + 1).sum) s

/-- FC_TAKEN has reached FC_LEN and the message is finished. -/
def execMessageFinish (ctx : Fin 16) (s : State) : Res := .next (s.fcFinish ctx)

end Sys2Proof.Machine
end

