-- ==== Sys2Proof/Machine/Power.lean ====
section
/-! DEFINITION. Pitch, power and temperature (chapter 23), with the course-by-course activation of a tile monitor, whose
parking it shares (R633). -/

namespace Sys2Proof.Machine

/-- The critical trip is in force. -/
def State.critical (s : State) : Bool := (s.power.trips[2]).set

/-- Clock of a pitch in MHz, any ceiling apart (R642). -/
def pitchClock : Nat → Nat
  | 0 => 1800
  | 1 => 1000
  | 2 => 1400
  | _ => 0

/-- The pitch a course is to run at: the assigned one, or Parked for the critical trip (R651), a policy park (R644) or the visit
of a tile-monitor activation (R633). -/
def State.targetPitch (s : State) (c : CourseId) : Nat :=
  let k := s.power.courses[c]
  if k.assigned == 2 && s.critical then 2
  else if k.assigned == 3 || s.critical || (s.boot.visits.head? == some c.val && k.mhz != 0) then 3
  else if k.assigned != 2 && k.policyPark then 3
  else k.assigned

/-- Clock of a course at a pitch, its ceiling counted (R642, R651). -/
def State.clockAt (s : State) (c : CourseId) (pitch : Nat) : Nat :=
  if pitch == 2 then (if s.critical then 600 else 1400) else min (pitchClock pitch) (s.power.courses[c]).ceiling

/-- FLAT of every bundle that does not run, and of every query's delay entry, is re-evaluated (R296, R311, R645). -/
def State.reflat (s : State) : State :=
  let entry := fun (e : Nat × DEntry) => (e.1, if e.2.kind == 0 then { e.2 with flat := s.queryFlat e.2.owner } else e.2)
  s.modBatten fun b =>
    { b with ready := b.ready.map fun r => { r with desc := { r.desc with flat := s.flatOf r.desc.courses } }
             timeList := b.timeList.map entry
             distList := b.distList.map entry }

/-- A change of a course's pitch starts (R645): for Parked, its tiles are fenced or pre-empted. [log 186 DEDUCED] -/
def State.startChange (s : State) (c : CourseId) : State :=
  let k := s.power.courses[c]
  let p := s.targetPitch c
  if p == k.effective && s.clockAt c p == k.mhz && !k.changing then s
  else if p != 3 then s.modCourse c fun k => { k with changing := true }
  else
    let s := s.modCourse c fun k => { k with changing := true, effective := 3 }
    (List.finRange 8).foldl (fun s i =>
      let t := tileOf c i
      match (s.batten.tiles[t]).state with
      | .idle => s.tileTo t .fenced
      | .running => s.preemptTile t true
      | _ => s) s

/-- A tile of a course that is being parked still holds a bundle or a reset. -/
def State.courseBusy (s : State) (c : CourseId) : Bool :=
  (List.finRange 8).any fun i =>
    (s.batten.tiles[tileOf c i]).desc.isSome || (s.batten.tiles[tileOf c i]).state == .resetting

/-- The tiles of a course reset as it leaves Parked: each IDLE, or FENCED for its faults (R300, R349, R645). -/
def State.unparkTiles (s : State) (c : CourseId) : State :=
  (List.finRange 8).foldl (fun s i =>
    let t := tileOf c i
    let s := (s.modTile t fun x => { x.hardReset with state := .monitor }).modSched t fun y => { y with lastAffinity := none }
    s.tileTo t (s.restState t)) s

/-- Contexts saved under an old monitor of another STATE_VERSION are discarded; their bundles run from nothing (R633). [log 173 DEDUCED] -/
def State.dropContexts (s : State) : State :=
  if !s.boot.visitFresh then s else
  (s.batten.ready.filter fun r => r.saved.isSome).foldl (fun s r =>
    ((s.dropLeases r).modBatten fun b =>
      { b with ready := b.ready.map fun x => if x.desc.ident == r.desc.ident then { x with saved := none } else x }).syncSlot r.desc.planSlot) s

/-- A parked course takes the new monitor's address in TC_RESET_PC (R633): a free value, since no rule says where it is loaded. -/
def State.newMonitor (s : State) (c : CourseId) : State :=
  let (ctr, s) := s.fresh
  (List.finRange 8).foldl (fun s i => s.modTile (tileOf c i) fun x => { x with resetPc := BitVec.ofNat 64 (Config.freeNat ctr) }) s

/-- The next course of a tile-monitor activation is parked; after the last, the activation is over (R633). [log 173 DEDUCED] -/
def State.visitNext (s : State) : State :=
  match s.boot.visits with
  | c :: _ => s.startChange (Fin.ofNat 8 c)
  | [] => s.modBoot fun b => { b with activating := if b.activating.any (·.1 == 2) then none else b.activating, visitFresh := false }

/-- A step of a course's change completes (R633, R645). [log 186 DEDUCED] -/
def State.pitchChangeDone (s : State) (c : CourseId) : State :=
  let k := s.power.courses[c]
  let visited := s.boot.visits.head? == some c.val
  if !k.changing then s
  else if k.effective == 3 && k.mhz != 0 then
    if s.courseBusy c then s else
    let s := if visited then (s.newMonitor c).dropContexts else s
    let s := s.modCourse c fun k => { k with mhz := 0 }
    let more := s.targetPitch c != 3
    let s := s.modCourse c fun k => { k with changing := more }
    if visited && !more then (s.modBoot fun b => { b with visits := b.visits.tail }).visitNext.pumpPlans else s.pumpPlans
  else
    let p := s.targetPitch c
    let was := k.effective
    let s := s.modCourse c fun k => { k with changing := false, effective := p, mhz := s.clockAt c p }
    let s := if was == 3 && p != 3 then s.unparkTiles c else s
    let s := if visited then (s.modBoot fun b => { b with visits := b.visits.tail }).visitNext else s
    s.pumpPlans

/-- A course completes its clock, supply or parking change. -/
def execPitchChangeDone (course : CourseId) (s : State) : Res := .next (s.pitchChangeDone course)

/-- A self-test of a course is abandoned by a change of its pitch (R671). -/
def State.abandonCourseTest (s : State) (c : CourseId) : State :=
  s.modErr fun e => match e.selfTest with
    | some t => if t.outcome == 0 && t.target == 1 && t.index == c.val then { e with selfTest := some { t with outcome := 3 } } else e
    | none => e

/-- COURSE_PITCH is applied at a boundary: PW_ASSIGN takes it, and the course follows unless the critical trip is in force
(R645, R651); a course that leaves Flat starts under no ceiling but the throttle trip's. -/
def State.assignPitch (s : State) (c : CourseId) (pitch : Nat) : State :=
  if (s.power.courses[c]).assigned == pitch then s else
  let throttle := (s.power.trips[1]).set
  let s := s.abandonCourseTest c
  let s := s.modCourse c fun k =>
    { k with assigned := pitch, ceiling := if k.assigned == 2 || pitch == 2 then (if throttle then 600 else 1800) else k.ceiling }
  if s.critical then s else (s.reflat.startChange c).pumpPlans

/-- PW_POLICY_PARK is written by the active Ridge (R644, R647). -/
def State.policyParkWrite (s : State) (mask : Nat) : State :=
  ((List.finRange 8).foldl (fun s c =>
    if (s.power.courses[c]).assigned == 2 then s
    else (s.modCourse c fun k => { k with policyPark := bitAt mask c.val }).startChange c) s).pumpPlans

/-- An idle Steep or Low course is parked after AUTO_PARK ms (R644). -/
def State.policyParkDue (s : State) (c : CourseId) : State :=
  let k := s.power.courses[c]
  let ms := s.cfg 0x0812 1 50
  match k.idleSince with
  | none => s
  | some t =>
    if ms == 0 || 2 ≤ k.assigned || k.effective == 3 || k.changing || !s.ridgeActs || s.courseNeeded c then s
    else ((s.advanceTo (t + 1000000 * ms)).modCourse c fun k => { k with policyPark := true }).startChange c

/-- A course reaches AUTO_PARK. -/
def execPolicyPark (course : CourseId) (s : State) : Res := .next (s.policyParkDue course)

/-! The power cap (R648 to R650). -/

/-- Courses of an assigned pitch that run or are about to. [log 188 DEDUCED] -/
def State.coursesAt (s : State) (pitch : Nat) : List CourseId :=
  (List.finRange 8).filter fun c => (s.power.courses[c]).assigned == pitch && s.targetPitch c != 3

/-- The clock a course's ceiling allows now. -/
def State.cappedAt (s : State) (c : CourseId) : Nat :=
  min (pitchClock (s.power.courses[c]).assigned) (s.power.courses[c]).ceiling

/-- A ceiling changes, and with it the clock of a course that runs Steep or Low and is not changing. -/
def State.setCeiling (s : State) (c : CourseId) (mhz : Nat) : State :=
  let s := s.modCourse c fun k => { k with ceiling := mhz }
  s.modCourse c fun k => if k.effective < 2 && !k.changing then { k with mhz := s.cappedAt c } else k

/-- CAP_ACTIVE: some ceiling lies below its pitch's clock. -/
def State.noteCap (s : State) : State :=
  let on := (s.coursesAt 0 ++ s.coursesAt 1).any fun c => (s.power.courses[c]).ceiling < pitchClock (s.power.courses[c]).assigned
  s.modPower fun p => { p with capActive := on, capEvents := p.capEvents + if on && !p.capActive then 1 else 0 }

/-- One step of 100 MHz down: the Steep courses above 200 MHz, or else the Low ones; none can be lowered is `false`. [log 187 DEDUCED] -/
def State.capDown (s : State) : Bool × State :=
  let pick := fun (p : Nat) => (s.coursesAt p).filter fun c => 200 < s.cappedAt c
  let l := if (pick 0).isEmpty then pick 1 else pick 0
  (!l.isEmpty, l.foldl (fun s c => s.setCeiling c (s.cappedAt c - 100)) s)

/-- One step of 100 MHz up: the Low courses first, then the Steep, none above 600 MHz under the throttle trip. [log 187 DEDUCED] -/
def State.capUp (s : State) : State :=
  let top := fun (p : Nat) => if (s.power.trips[1]).set then min 600 (pitchClock p) else pitchClock p
  let pick := fun (p : Nat) => (s.coursesAt p).filter fun c => (s.power.courses[c]).ceiling < top p
  if !(pick 1).isEmpty then (pick 1).foldl (fun s c => s.setCeiling c (min (top 1) (s.cappedAt c + 100))) s
  else (pick 0).foldl (fun s c => s.setCeiling c (min (top 0) (s.cappedAt c + 100))) s

/-- CAP_UNMET follows (R650). [log 188 DEDUCED] -/
def State.setUnmet (s : State) (on : Bool) : State :=
  let was := s.power.capUnmet
  let s := s.modPower fun p => { p with capUnmet := on, capUnmetEvents := p.capUnmetEvents + if on && !was then 1 else 0 }
  if on then s.alert 11 .degraded 0 0 else if was then s.unalert 11 else s

/-! Energy attribution (R653). -/

/-- Energy counted to a bundle or a command. -/
def State.addEnergy (s : State) (user : EnergyUser) (e : Rat) : State :=
  match user with
  | .tile t => s.modSched t fun y => { y with energy := y.energy + e }
  | .cmd i n => s.modInst i fun x => { x with queue := x.queue.map fun c => if c.receipt.seq == n then { c with energy := c.energy + e } else c }

/-- Users whose activity counts: bundles, and in the Gutter (unit 12) the host transfers of commands (R653, R654). -/
def State.countedUses (s : State) (uses : List EnergyUse) (unit : Nat) : List EnergyUse :=
  uses.filter fun x => x.unit == unit && x.count != 0 && match x.user with
    | .tile t => (s.batten.tiles[t]).desc.isSome
    | .cmd i n => unit == 12 && (s.insts[i]).queue.any (·.receipt.seq == n)

/-- A shared unit's energy over a sample, divided by activity counts; what stays unattributed. -/
def State.shareUnit (s : State) (uses : List EnergyUse) (unit e : Nat) : Nat × State :=
  let l := s.countedUses uses unit
  let n := (l.map (·.count)).sum
  if n == 0 then (e, s) else (0, l.foldl (fun s x => s.addEnergy x.user ((e * x.count : Nat) / (n : Rat))) s)

/-- A course's energy over a sample, divided equally among its busy tiles; what stays unattributed. -/
def State.shareCourse (s : State) (c : CourseId) (e : Nat) : Nat × State :=
  let busy := ((List.finRange 8).map (tileOf c ·)).filter fun t =>
    let y := s.batten.tiles[t]
    y.desc.isSome && (y.state == .dispatching || y.state == .running || y.state == .saving)
  if busy.isEmpty then (e, s) else (0, busy.foldl (fun s t => s.addEnergy (.tile t) ((e : Rat) / (busy.length : Nat))) s)

/-- Every unit's energy over a sample, attributed or counted as not (R653): courses, Thatch, memory, host ports, Eave ports, Gutter,
Yelm, Flashing engine, Purlin store, and the Ridges with the Finial. [log 249 DESIGN CHOICE] -/
def State.attribute (s : State) (energy : List Nat) (uses : List EnergyUse) : State :=
  let e := fun (u : Nat) => energy.getD u 0
  let (rest, s) := (List.finRange 8).foldl (fun (acc : Nat × State) c =>
    let (r, s) := acc.2.shareCourse c (e c.val)
    (acc.1 + r, s)) (e 10 + e 11 + e 16, s)
  let (rest, s) := [8, 9, 12, 13, 14, 15].foldl (fun (acc : Nat × State) u =>
    let (r, s) := acc.2.shareUnit uses u (e u)
    (acc.1 + r, s)) (rest, s)
  let shown := fun (u : Nat) => if u == 14 then e 14 + e 15 else if u == 15 then e 16 else e u
  s.modPower fun p =>
    { p with unattributed := p.unattributed + rest
             energy := Vector.ofFn fun (u : Fin 16) => (p.energy[u] + shown u.val) % 2 ^ 64 }

/-- One microsecond's sample: device power in units of 0.01 W, the energy of each unit since the last sample in µJ, and the
activity in the shared units (R648, R649, R653). [log 187 DEDUCED] -/
def State.capSample (s : State) (power : Nat) (energy : List Nat) (uses : List EnergyUse) : State :=
  if !s.boot.mainUp || s.dram.phase == .inKeep then s else
  let s := (s.advanceTo ((s.time.ts / 1000 + 1) * 1000)).attribute energy uses
  let s := s.modPower fun p => { p with now := power, maxMw := max p.maxMw (10 * power) }
  let cap := 100 * s.power.capW
  let s :=
    if cap < power then
      let (done, s) := (s.modPower fun p => { p with belowSince := none }).capDown
      if done then s else s.setUnmet true
    else
      let s := if s.power.capUnmet then s.setUnmet false else s
      if cap * 10 - s.power.hystMw ≤ power * 10 then s.modPower fun p => { p with belowSince := none }
      else
        match s.power.belowSince with
        | none => s.modPower fun p => { p with belowSince := some s.time.ts }
        | some t =>
          if s.time.ts < t + 200000 then s
          else (s.modPower fun p => { p with belowSince := some (s.time.ts - 100000) }).capUp
  s.noteCap

/-- A power sample. -/
def execCapSample (power : Nat) (energy : List Nat) (uses : List EnergyUse) (s : State) : Res :=
  .next (s.capSample power energy uses)

/-! Thermal trips (R651). -/

/-- Trip points in °C: warn, throttle, critical, shutdown. -/
def State.tripPoint (s : State) (k : Fin 4) : Nat :=
  if k = 0 then s.cfg 0x0830 1 110 else if k = 1 then 120 else if k = 2 then 125 else 130

/-- FN_ALERT bit of a trip. -/
def tripBit (k : Fin 4) : Nat := if k = 3 then 12 else 8 + k.val

/-- A trip changed. -/
def State.modTrip (s : State) (k : Fin 4) (f : Trip → Trip) : State :=
  s.modPower fun p => { p with trips := p.trips.set k (f (p.trips[k])) }

/-- What a trip does when it is set; the critical trip is also the Flashing engine's temperature alarm. -/
def State.tripSet (s : State) (k : Fin 4) : State :=
  let sev : Severity := if k = 0 then .note else if k = 3 then .fatal else .degraded
  let s := (s.modTrip k fun t => { t with set := true, clearSince := none, count := t.count + 1 }).alert (tripBit k) sev 0 0
  if k = 1 then
    ((List.finRange 8).foldl (fun s c =>
      if (s.power.courses[c]).assigned == 2 then s else s.setCeiling c (min 600 (s.power.courses[c]).ceiling)) s).noteCap
  else if k = 2 then (((List.finRange 8).foldl (fun s c => s.startChange c) s).flashAlarm 4).noteOutage.pumpPlans
  else if k = 3 then s.keepEntry
  else s

/-- What follows when a trip clears. [log 189 DEDUCED] -/
def State.tripClear (s : State) (k : Fin 4) : State :=
  let s := (s.modTrip k fun t => { t with set := false, clearSince := none }).unalert (tripBit k)
  if k = 2 then ((List.finRange 8).foldl (fun s c => s.startChange c) s.reflat).flashAlarmEnd 4 |>.noteOutage.pumpPlans
  else s

/-- One trip against the hottest reading in °C × 16. -/
def State.tripStep (s : State) (hot : Int) (k : Fin 4) : State :=
  let point : Int := 16 * s.tripPoint k
  let t := s.power.trips[k]
  if !t.set then (if point ≤ hot then s.tripSet k else s)
  else if point - 80 < hot then s.modTrip k fun t => { t with clearSince := none }
  else
    match t.clearSince with
    | none => s.modTrip k fun t => { t with clearSince := some s.time.ts }
    | some since => if since + 10000000 ≤ s.time.ts then s.tripClear k else s

/-- The sixteen sensors are read, in °C × 16 (R647, R651). [log 189 DEDUCED] -/
def State.thermalSample (s : State) (temps : List Int) : State :=
  if !s.boot.mainUp || s.dram.phase == .inKeep then s else
  let v : Vector Int 16 := Vector.ofFn fun (k : Fin 16) => temps.getD k.val 0
  let hot := v.toList.foldl max (v[0])
  let s := s.modPower fun p => { p with temps := v, tempMax := max p.tempMax hot }
  (List.finRange 4).foldl (fun s k => s.tripStep hot k) s

/-- A temperature sample. -/
def execThermalSample (temps : List Int) (s : State) : Res := .next (s.thermalSample temps)

/-- POWER_STATE: 0 ACTIVE, 1 QUIESCENT, 2 KEEP_ENTRY (R652). -/
def State.powerState (s : State) : Nat :=
  if s.dram.phase == .entering then 2 else if s.power.courses.toList.all (·.effective == 3) then 1 else 0

end Sys2Proof.Machine
end

