-- ==== Sys2Proof/Machine/DictOps.lean ====
section
/-! DEFINITION. How a dictionary write ends (R569 to R576, R583): its row in table 0xFFF4 and its completion. -/

namespace Sys2Proof.Machine

/-- SRC8 of a source (R60, R564). -/
def Source.src8 : Source → Nat
  | .host h => 0x40 + h.val
  | .inst i => i.val
  | .plyn _ p => p

/-- Objects that hold keys: their values are logged empty (R573). [log 141 DEDUCED] -/
def isKeyObject (key : Nat) : Bool := key / 256 == 0x2E10 || key / 256 == 0x2E20

/-- The row of a write in table 0xFFF4 (R573); 0 for a write that was not applied. [log 141 DEDUCED] -/
def State.dictLog (s : State) (w : DictWrite) (status applied : Nat) : State :=
  let shown := if isKeyObject w.key then [] else w.value.take 64
  s.logRow 0xFFF4 w.stamp
    [.num (w.key / 256), .num (w.key % 256), .num status, .num w.node, .num applied, .num w.value.length, .str shown]

/-- A window's request ends (R575, R576); a window reset meanwhile shows nothing (R587). -/
def State.windowEnd (s : State) (f : FuncId) (stamp : Stamp) (status : Nat) (data : Option (Nat × Bytes)) : State :=
  s.modDict fun d =>
    let x := d.windows[f]
    if !x.busy || x.stamp != stamp then d else
    let y : DWindow := match data with
      | some (ty, bs) => { x with busy := false, status := status, length := bs.length, type := ty, data := overlay x.data 0 bs }
      | none => { x with busy := false, status := status, length := 0, type := 0 }
    { d with windows := d.windows.set f y }

/-- A Plyn reply made ready (R583). -/
def State.plynReply (s : State) (r : PlynReply) : State := s.modDict fun d => { d with replies := d.replies ++ [r] }

/-- A write's completion reaches its sender. -/
def State.dictReply (s : State) (w : DictWrite) (status : Nat) : State :=
  match w.reply with
  | .window f => s.windowEnd f w.stamp status none
  | .plyn slot peer node xid index sub key =>
    s.plynReply
      { peer := peer, slot := slot, node := node, xid := xid, kind := 0x82, key := objKey index sub, type := 0, offset := 0,
        total := 0, last := true, status := status, value := [], signKey := key }

/-- A write ends with a status: counted, logged and answered. -/
def State.finishWrite (s : State) (w : DictWrite) (status applied : Nat) : State :=
  let s := if status == stSuperseded then s.bump 0x3061 6 1 else if status == stConflict then s.bump 0x3061 7 1 else s
  (s.dictLog w status (if status == stOk then applied else 0)).dictReply w status

/-- A write that RWS or a per-object rule refuses, or that is applied, ends at once; one to a P object waits for its commit,
the last completion with it (R572). -/
def State.writeApplied (s : State) (w : DictWrite) (persistent : Bool) (status : Nat) : State :=
  if persistent && status == stOk then
    s.modDict fun d => { d with commits := d.commits ++ [{ w with applied := s.time.ts }] }
  else s.finishWrite w status s.time.ts

end Sys2Proof.Machine
end

