-- ==== Sys2Proof/Machine/Ridge.lean ====
section
/-! DEFINITION. The pair of Ridges and the Finial (chapter 21): health, checkpoints, takeover, lone restart, planned handover. -/

namespace Sys2Proof.Machine

/-- The Ridge that does not hold the token. -/
def otherRidge (r : Fin 2) : Fin 2 := if r = 0 then 1 else 0

/-- The active Ridge. -/
def State.active (s : State) : Option (Fin 2) := if s.finial.holder == 1 then some 0 else if s.finial.holder == 2 then some 1 else none

/-- The standby, while a Ridge is active. -/
def State.standby (s : State) : Option (Fin 2) := s.active.map otherRidge

/-- State of a Ridge. -/
def State.ridge (s : State) (r : Fin 2) : RidgeSt := s.finial.ridges[r]

/-- A standby that takes checkpoints and acknowledges them: READY, or SYNCING with its image (R592, R597). -/
def State.acknowledges (s : State) (r : Fin 2) : Bool :=
  (s.ridge r).state == .ready || ((s.ridge r).state == .syncing && (s.ridge r).image)

/-- NO_STANDBY follows the states (R606). -/
def State.noteStandby (s : State) : State :=
  if s.finial.ridges.toList.any (·.state == .ready) then s.unalert 1 else s.alert 1 .contained 10 (s.standby.getD 1).val

/-- A requested handover's write ends (R610). -/
def State.endRequest (s : State) (status : Nat) : State :=
  match s.finial.requested with
  | some (_, w) => (s.modFinial fun x => { x with requested := none }).finishWrite w status w.applied
  | none => s

/-- A Ridge fails: held in reset, its repair count raised (R593); a return of Ridge A is withdrawn (R609), and a handover to it
abandoned. -/
def State.ridgeFails (s : State) (r : Fin 2) (cause : Nat) : State :=
  let s := s.modRidge r fun k =>
    { k with state := .failed, cause := cause, missed := 0, attempts := min 15 (k.attempts + 1), failedAt := s.time.ts, image := false, acks := 0 }
  let s := if r = 0 then s.modFinial fun x => { x with ret := .none } else s
  let s := if s.finial.requested.any (·.1 == r.val + 1) then s.endRequest stWrongState else s
  s.noteStandby

/-- A Ridge becomes READY; Ridge A's hold-off starts where Ridge B holds the token (R592, R607). -/
def State.ridgeReady (s : State) (r : Fin 2) : State :=
  let now := s.time.ts
  let s := s.modRidge r fun k => { k with state := .ready, readySince := now }
  let s := if r = 0 && s.finial.holder == 2 then
      s.modFinial fun x => { x with ret := .holdoff, readyAt := now, returnAt := now + 1000000 * x.holdoffMs }
    else s
  s.noteStandby

/-- A committed APPEND whose receipt lies in the journal after the last acknowledged checkpoint and in the unit record (R148). [log 156 DEDUCED] -/
def State.replayed (s : State) (c : Cmd) : Option UnitRec :=
  let f := s.finial
  let since := f.journal.any fun e => e.kind == 1 && e.stamp == c.receipt && (e.jseq + 2 ^ 32 - f.ackJseq) % 2 ^ 32 < f.unacked
  if c.opcode == 0x20 && c.stage == .running && since then s.ingest.units.find? (·.stamp == c.receipt) else none

/-- REPLAYED. -/
def stReplayed : Nat := 0x1004

/-- The new active Ridge takes up the checkpoint and replays the journal (R148, R534, R601): sealing starts again (R102), the
Flashing engine's contexts are free (R484), replayed APPENDs complete; every other effect has taken place once. [log 156 DEDUCED] -/
def State.takeUp (s : State) : State :=
  let s := s.flashFreeAll
  let s := s.modTables fun t => { t with tables := t.tables.map fun p =>
    (p.1, { p.2 with segs := p.2.segs.map fun g => { g with sealCols := none } }) }
  let s := (List.finRange 64).foldl (fun s i =>
    (s.insts[i]).queue.foldl (fun s c =>
      match s.replayed c with
      | some u => (s.setDetails i c.receipt u.rows 0 0 0).complete i c.receipt stReplayed
      | none => s) s) s.redecodeRings
  (s.modFinial fun x => { x with ackJseq := x.jseq }).noteOutage

/-- The token goes to a Ridge. -/
def State.grant (s : State) (r : Fin 2) : State :=
  let now := s.time.ts
  (s.modFinial fun x => { x with holder := r.val + 1, tokenSeq := (x.tokenSeq + 1) % 2 ^ 32, handover := false }).modRidge r fun k =>
    { k with state := .active, readySince := if k.state == .ready then k.readySince else now, missed := 0 }

/-- A takeover (R603): the time from the declaration until input is taken again is a free value of at most 88 µs (R614). [log 157 DESIGN CHOICE] -/
def State.takeover (s : State) (r next : Fin 2) (cause : Nat) : State :=
  let (ctr, s) := s.fresh
  let ns := Config.freeNat ctr % 88001
  let raft := (s.ridge next).lastAck
  let entries := s.finial.unacked
  let s := (((s.modFinial fun x => { x with holder := 0, handover := false, ret := .none }).noteOutage).ridgeFails r cause).grant next
  let (st, s) := s.stamp srcFinial
  let s := s.modFinial fun x => { x with lastTakeover := some ⟨st, r.val + 1, next.val + 1, cause, raft, entries, ns⟩ }
  let s := (s.alert 0 .contained 10 r.val).advanceTo (st.ts + ns)
  let s := if s.finial.requested.any (·.1 == next.val + 1) then s.endRequest stOk else s
  s.takeUp.noteStandby

/-- A lone restart begins (R611): the token is revoked and the failed Ridge reset. [log 158 DEDUCED] -/
def State.loneStart (s : State) (r : Fin 2) (cause : Nat) : State :=
  let s := (s.modFinial fun x =>
    { x with holder := 0, handover := false, ret := .none, lone := some r, loneTried := 0, declaredAt := s.time.ts }).ridgeFails r cause
  (s.alert 4 .contained 10 r.val).noteOutage

/-- The Ridge of a lone restart cannot hold the token: the other is tried, or control is lost (R611). [log 158 DEDUCED] -/
def State.loneFails (s : State) (r : Fin 2) : State :=
  if s.finial.lone != some r then s else
  let o := otherRidge r
  let tried := s.finial.loneTried ||| 2 ^ r.val
  let k := s.ridge o
  if k.state == .ready && !s.finial.fault then
    let s := ((s.modFinial fun x => { x with lone := none, loneTried := 0 }).grant o).alert 0 .contained 10 r.val
    s.takeUp.noteStandby
  else if (k.state == .testing || k.state == .syncing) && !bitAt tried o.val then
    (s.modFinial fun x => { x with lone := some o, loneTried := tried }).modRidge o fun k => { k with state := .testing, image := false }
  else
    ((s.modFinial fun x => { x with lone := none, loneTried := tried }).alert 2 .fatal 10 r.val).noteOutage

/-- The Finial declares the active Ridge failed (R602, R603, R611), and restarts it alone also where a HANDOVER frame waits for its
acknowledgement (R613); with FINIAL_FAULT it declares nothing (R612). [log 244 DEDUCED] -/
def State.declareFailed (s : State) (r : Fin 2) (cause : Nat) : State :=
  if s.finial.fault || s.active != some r then s
  else if !s.finial.handover && (s.ridge (otherRidge r)).state == .ready then s.takeover r (otherRidge r) cause
  else s.loneStart r cause

/-- A Ridge that does not hold the token fails (R605). -/
def State.standbyFails (s : State) (r : Fin 2) (cause : Nat) : State :=
  if s.finial.fault then s else
  match (s.ridge r).state with
  | .testing | .syncing | .ready =>
    let s := if s.finial.handover then s.modFinial fun x => { x with handover := false } else s
    (s.ridgeFails r cause).loneFails r
  | _ => s

/-- A Ridge fails wherever it stands. -/
def State.ridgeDown (s : State) (r : Fin 2) (cause : Nat) : State :=
  if s.active == some r then s.declareFailed r cause else s.standbyFails r cause

/-- FN_HEARTBEAT is written (R596). -/
def State.heartbeatWrite (s : State) (raft : Nat) : State :=
  if !s.ridgeActs then s
  else if raft == s.time.raft then s.modFinial fun x => { x with heartbeat := true }
  else s.modFinial fun x => { x with heartbeatsIgnored := x.heartbeatsIgnored + 1 }

/-- The active Ridge writes FN_HEARTBEAT. -/
def execHeartbeat (raft : Nat) (s : State) : Res := .next (s.heartbeatWrite raft)

/-- At a boundary the Finial judges the ending cycle's heartbeat (R596). -/
def State.judgeHeartbeat (s : State) : State :=
  match s.active with
  | none => s
  | some r =>
    let s := if s.finial.heartbeat then s.modRidge r fun k => { k with missed := 0 }
      else (s.modRidge r fun k => { k with missed := min 3 (k.missed + 1) }).modFinial fun x => { x with heartbeatsMissed := x.heartbeatsMissed + 1 }
    s.modFinial fun x => { x with heartbeat := false }

/-- The header of a Sway frame (R598). -/
def swayHeader (kind : Nat) (r : Fin 2) (raft len jseq crc : Nat) (st : Stamp) : Bytes :=
  toLE 4 0x59415753 ++ toLE 1 kind ++ toLE 1 (0x60 + r.val) ++ zeros 2 ++ toLE 4 raft ++ toLE 4 len ++ toLE 4 jseq ++ toLE 4 crc ++ st.bytes
    ++ zeros 24

/-- A Ridge sends a Sway frame. [log 243 DEDUCED] -/
def State.swaySend (s : State) (kind : Nat) (r : Fin 2) (raft len jseq crc : Nat) : State :=
  let (st, s) := s.stamp (0x60 + r.val)
  s.emit (.swayFrame (swayHeader kind r raft len jseq crc st))

/-- At a boundary the active Ridge sends the checkpoint of the ending cycle, in a HANDOVER frame where one begins (R597, R608); where no
Ridge can acknowledge one, the copy in the aperture is what a restart would replay from (R611). -/
def State.sendCheckpoint (s : State) (raft bytes crc : Nat) : State :=
  if !s.ridgeActs then s else
  let bytes := min 65536 bytes
  let none' := !s.standby.any s.acknowledges
  let s := if none' then s.freeRings s.ingest.ringPos else s
  let s := match s.active with
    | some r => s.swaySend (if s.finial.handover then 5 else 1) r raft bytes s.finial.jseq crc
    | none => s
  s.modFinial fun x =>
    { x with ckpt := ⟨raft, x.jseq, bytes, crc, false, s.ingest.ringPos⟩, ckptMax := max x.ckptMax bytes, ackJseq := if none' then x.jseq else x.ackJseq }

/-- The standby receives the cycle's checkpoint and applies it (R597, R605); the operand is the CRC of the body as received. -/
def State.checkpointIn (s : State) (crc : Nat) : State :=
  match s.standby with
  | none => s
  | some r =>
    if !s.acknowledges r then s
    else if crc != s.finial.ckpt.crc then s.standbyFails r 7
    else
      (s.modRidge r fun k => { k with lastAck := s.finial.ckpt.raft }).swaySend 2 r s.finial.ckpt.raft 0 s.finial.ckpt.jseq crc

/-- A CHECKPOINT frame arrives at the standby. -/
def execCheckpoint (crc : Nat) (s : State) : Res := .next (s.checkpointIn crc)

/-- A HANDOVER frame arrives at the Ridge that is to take the token (R608). -/
def execHandover (crc : Nat) (s : State) : Res := .next (if s.finial.handover then s.checkpointIn crc else s)

/-- A planned handover's token moves (R608). [log 159 DEDUCED] -/
def State.handOver (s : State) : State :=
  match s.active with
  | none => s
  | some r =>
    let s := s.grant (otherRidge r)
    let s := s.modRidge r fun k => { k with state := .syncing, image := true, acks := 0 }
    let s := (s.modFinial fun x => { x with ret := .none }).takeUp.noteStandby
    if s.finial.requested.any (·.1 == s.finial.holder) then s.endRequest stOk else s

/-- An ACK reaches the Finial (R592, R597, R608). -/
def State.ackIn (s : State) (raft crc : Nat) : State :=
  match s.standby with
  | none => s
  | some r =>
    let c := s.finial.ckpt
    if c.acked || raft != c.raft || crc != c.crc || !s.acknowledges r then s else
    let s := (s.freeRings c.rings).modFinial fun x => { x with ckpt := { c with acked := true }, ckptAcked := x.ckptAcked + 1, ackJseq := c.jseq }
    let s := s.modRidge r fun k => { k with lastAck := raft, acks := k.acks + 1 }
    let s := s.modRidge (otherRidge r) fun k => { k with lastAck := raft }
    if s.finial.handover && !s.finial.fault then s.handOver
    else if (s.ridge r).state == .syncing && 8 ≤ (s.ridge r).acks then s.ridgeReady r else s

/-- An ACK is received and counted. [log 200 DEDUCED] -/
def execAck (raft crc : Nat) (s : State) : Res := .next (s.ackIn raft crc)

/-- A HEALTH frame is received and published in 0x3820:01 (R606, R616). -/
def State.healthIn (s : State) (lockstepOk : Bool) : State :=
  match s.standby with
  | none => s
  | some r =>
    let k := s.ridge r
    if k.state == .off || k.state == .failed then s else
    let (st, s) := s.stamp (0x60 + r.val)
    let rec' := st.bytes ++ toLE 1 r.val ++ toLE 1 k.state.code ++ toLE 1 lockstepOk.toNat ++ toLE 4 k.marchPasses ++ toLE 4 k.marchFails
      ++ toLE 4 k.vectorRuns ++ toLE 4 k.vectorFails ++ toLE 4 k.lastAck
    s.modDict fun d => { d with vals := nput d.vals (objKey 0x3820 1) rec' }

/-- The standby's HEALTH frame; the operand is its LOCKSTEP_OK. -/
def execHealth (lockstepOk : Bool) (s : State) : Res := .next (s.healthIn lockstepOk)

/-- SYNC frames reach a repaired Ridge; the operand says that image and SRAM state are complete (R606). -/
def execSync (complete : Bool) (s : State) : Res :=
  .next (match s.standby with
    | some r =>
      if (s.ridge r).state == .syncing then s.modRidge r fun k => { k with image := k.image || complete } else s
    | none => s)

/-- b + 60 µs: a handover without its ACK is abandoned (R608); two missed heartbeats or a missing ACK declare a failure (R602,
R605, R613). -/
def State.ckptDeadline (s : State) : State :=
  match s.active with
  | none => s
  | some r =>
    let s := s.advanceTo (s.time.lastBoundary + 60000)
    let o := otherRidge r
    let silent := !s.finial.ckpt.acked && s.acknowledges o
    if s.finial.handover then if s.finial.fault then s.modFinial fun x => { x with handover := false } else s.standbyFails o 7
    else if silent && (s.ridge o).state == .ready then s.declareFailed r 2
    else
      let s := if silent then s.standbyFails o 7 else s
      if 2 ≤ (s.ridge r).missed then s.declareFailed r 1 else s

/-- The checkpoint's deadline passes. -/
def execCheckpointDeadline (s : State) : Res := .next s.ckptDeadline

/-- FN_SELF_FAULT is written by the active Ridge, or by a standby, whose write is discarded (R26, R602). -/
def State.selfFault (s : State) (ridge : Fin 2) (code : Nat) : State :=
  if s.active != some ridge then s.modFinial fun x => { x with discarded := x.discarded + 1 }
  else if code % 65536 == 0 then s
  else (s.modRidge ridge fun k => { k with selfCode := code % 65536 }).declareFailed ridge 4

/-- A write to FN_SELF_FAULT. -/
def execSelfFault (ridge : Fin 2) (code : Nat) (s : State) : Res := .next (s.selfFault ridge code)

/-- A Ridge's lockstep compare mismatches (R602, R605). -/
def execLockstepMismatch (ridge : Fin 2) (s : State) : Res := .next (s.ridgeDown ridge 3)

/-- 10 ms in reset have passed (R592, R593). -/
def State.failedExpiry (s : State) (r : Fin 2) : State :=
  let k := s.ridge r
  if k.state != .failed then s else
  let s := s.advanceTo (k.failedAt + 10000000)
  if k.attempts < s.cfg 0x3803 3 3 then s.modRidge r fun k => { k with state := .testing }
  else (s.modRidge r fun k => { k with state := .off }).loneFails r

/-- A FAILED Ridge leaves its reset. -/
def execFailedResetExpiry (ridge : Fin 2) (s : State) : Res := .next (s.failedExpiry ridge)

/-- A TESTING Ridge's self-test ends (R592); in a lone restart a pass brings the token back (R611). -/
def State.ridgeTested (s : State) (r : Fin 2) (pass : Bool) : State :=
  if (s.ridge r).state != .testing || s.finial.fault then s
  else if !pass then (s.ridgeFails r 6).loneFails r
  else if s.finial.lone == some r then
    ((s.grant r).modFinial fun x => { x with lone := none, loneTried := 0 }).takeUp.noteStandby
  else if s.standby == some r then s.modRidge r fun k => { k with state := .syncing, image := false, acks := 0 }
  else s

/-- A Ridge's self-test ends. -/
def execRidgeSelfTestDone (ridge : Fin 2) (pass : Bool) (s : State) : Res := .next (s.ridgeTested ridge pass)

/-- One hour in READY or ACTIVE clears the repair count (R593). -/
def execRepairCountClear (ridge : Fin 2) (s : State) : Res :=
  .next (let k := s.ridge ridge
    if k.state == .ready || k.state == .active then
      (s.advanceTo (k.readySince + 3600000000000)).modRidge ridge fun k => { k with attempts := 0 }
    else s)

/-- The standby's march test of its SRAM, or its test vectors, end (R605). -/
def State.standbyTest (s : State) (march pass : Bool) : State :=
  match s.standby with
  | none => s
  | some r =>
    let k := s.ridge r
    if k.state == .off || k.state == .failed then s else
    let s := s.modRidge r fun k =>
      if march then { k with marchPasses := k.marchPasses + pass.toNat, marchFails := k.marchFails + (!pass).toNat }
      else { k with vectorRuns := k.vectorRuns + 1, vectorFails := k.vectorFails + (!pass).toNat }
    if pass then s else s.standbyFails r 6

/-- A periodic test of the standby. -/
def execStandbySelfTest (march pass : Bool) (s : State) : Res := .next (s.standbyTest march pass)

/-- The hold-off ends (R607). -/
def execRevertHoldoffExpiry (s : State) : Res :=
  .next (if s.finial.ret == .holdoff then
      (s.advanceTo s.finial.returnAt).modFinial fun x => { x with ret := .waiting }
    else s)

/-- FN_HOLDOFF changes: FN_RETURN_AT follows from the READY instant (R594, R613). -/
def State.setHoldoff (s : State) (ms : Nat) : State :=
  s.modFinial fun x =>
    let ms := max 1000 (ms % 2 ^ 32)
    { x with holdoffMs := ms, returnAt := if x.ret == .holdoff then x.readyAt + 1000000 * ms else x.returnAt }

/-- The Finial's two copies disagree: FINIAL_FAULT, and a safety write that waits for it ends with CONFLICT (R612). [log 160 DEDUCED, 244 DEDUCED] -/
def execFinialMismatch (s : State) : Res :=
  .next (((s.modFinial fun x => { x with fault := true }).alert 3 .fatal 11 0).endRequest stConflict).noteOutage

/-- SAFE_VETO_N changes level (R607). -/
def execSafeVetoN (high : Bool) (s : State) : Res :=
  .next (s.modFinial fun x => { x with vetoLow := !high, vetoInCycle := x.vetoInCycle || !high })

/-- FN_ALERT is written: TAKEOVER and LONE_RESTART clear where written 1 (R594). -/
def State.alertW1C (s : State) (v : Nat) : State :=
  let s := if bitAt v 0 then s.unalert 0 else s
  if bitAt v 4 then s.unalert 4 else s

/-- A boundary at which nothing stands in the way of a handover (R607). -/
def State.handoverOpen (s : State) : Bool :=
  !s.finial.flatDue && !s.finial.vetoInCycle && !s.finial.vetoLow && s.finial.notBefore ≤ s.time.lastBoundary

/-- The Ridge to which the token is to go at this boundary, if any: Ridge A on its return, or the one ACTIVE_RIDGE names. -/
def State.handoverTo (s : State) : Option (Fin 2) :=
  let named : Option (Fin 2) := s.finial.requested.map fun q => Fin.ofNat 2 (q.1 - 1)
  let back : Option (Fin 2) := if (s.finial.ret == .waiting || s.finial.ret == .holdoff) && s.finial.returnAt ≤ s.time.lastBoundary then some 0 else none
  let want := named.or back
  match want, s.standby with
  | some r, some o => if r = o && (s.ridge o).state == .ready && s.handoverOpen then some r else none
  | _, _ => none

/-- At a boundary, after the cycle's writes: a planned handover begins (R607, R608); the veto's watch starts afresh. [log 159 DEDUCED] -/
def State.startHandover (s : State) : State :=
  let s := match s.handoverTo with
    | some _ =>
      if s.finial.fault || s.finial.handover then s
      else s.modFinial fun x => { x with handover := true, ret := if x.ret == RetState.waiting || x.ret == RetState.holdoff && x.returnAt ≤ s.time.lastBoundary then .handover else x.ret }
    | none => s
  s.modFinial fun x => { x with vetoInCycle := x.vetoLow }

/-- ACTIVE_RIDGE is applied (R610): its write ends at once, or waits for its handover. [log 146 DEDUCED] -/
def State.requestRidge (s : State) (r : Nat) (w : DictWrite) : State :=
  if s.finial.holder == r then s.finishWrite w stOk s.time.ts
  else if s.finial.handover || s.finial.requested.isSome || (s.ridge (Fin.ofNat 2 (r - 1))).state != .ready then
    s.finishWrite w stWrongState s.time.ts
  else s.modFinial fun x => { x with requested := some (r, { w with applied := s.time.ts }) }

end Sys2Proof.Machine
end

