-- ==== Sys2Proof/Machine/Firmware.lean ====
section
/-! DEFINITION. Firmware images, staging and activation, plan keys, measurements and attestation (chapter 22, R535). The effects
that are dictionary writes answer a status; their rows stand in DictRows.lean. -/

namespace Sys2Proof.Machine

/-! Images (R627, R629). -/

/-- Size of a slot of a kind: 1 Ridge, 2 tile monitor (R625). -/
def slotSize (kind : Nat) : Nat := if kind == 1 then 8 * 2 ^ 20 else 2 * 2 ^ 20
/-- IMAGE_BYTES. [log 164 DEDUCED] -/
def fwBytes (b : Bytes) : Nat := fieldAt 8 4 b
/-- KEY_SLOT. -/
def fwKeySlot (b : Bytes) : Nat := fieldAt 5 1 b
/-- SVN. -/
def fwSvn (b : Bytes) : Nat := fieldAt 6 1 b
/-- VERSION. -/
def fwVersion (b : Bytes) : Nat := fieldAt 12 4 b
/-- QUEUE_VERSION. -/
def fwQueueVersion (b : Bytes) : Nat := fieldAt 16 2 b
/-- STATE_VERSION. -/
def fwStateVersion (b : Bytes) : Nat := fieldAt 18 2 b
/-- The digest of an image that MS1 and MS2 are extended with. -/
def fwDigest (b : Bytes) : Bytes := sha256 (b.take (fwBytes b))

/-- Format checks of R629. -/
def fwFormatOk (kind : Nat) (b : Bytes) : Bool :=
  let n := fwBytes b
  let zero := fun (off len : Nat) => (sliceB off len b).all (· == 0)
  fieldAt 0 4 b == (if kind == 1 then 0x45474452 else 0x4E4F4D54) && fieldAt 4 1 b == kind && fwKeySlot b < 4 && fwSvn b ≤ 64
    && n % 4096 == 0 && 4096 ≤ n && n ≤ slotSize kind && n ≤ b.length && zero 7 1 && zero 0x18 40 && zero 0x1C4 60
    && fieldAt 0x1C0 4 b == 65537 && (kind == 1 || fwQueueVersion b == 0)

/-- The key block hashes to a permitted key that is not revoked (R629). -/
def Fuses.keyOk (f : Fuses) (b : Bytes) : Bool :=
  let k := fwKeySlot b
  sha256 (sliceB 0x40 388 b) == f.keyHash[Fin.ofNat 4 k] && !bitAt f.revoked k

/-- The signature verifies (R629). -/
def fwSigned (b : Bytes) : Bool :=
  let n := fwBytes b
  pssVerify (sliceB 0x40 384 b) (b.take (n - 384)) (sliceB (n - 384) 384 b)

/-- The code with which an image is refused, in the order of R629; none where it is accepted (R631). [log 163 DEDUCED] -/
def Fuses.refuse (f : Fuses) (kind : Nat) (b : Bytes) : Option Nat :=
  if !fwFormatOk kind b then some stBadImage
  else if !f.keyOk b then some stAuthFailed
  else if fwSvn b < (if kind == 1 then f.ridgeSvn else f.tileSvn) then some stWrongState
  else if !fwSigned b then some stAuthFailed
  else none

/-! Slots: Ridge A, B, then tile monitor A, B. -/

/-- The slot of a kind in use. -/
def BootSt.used (b : BootSt) (kind : Nat) : Fin 4 := Fin.ofNat 4 (if kind == 1 then b.ridgeSlot % 2 else 2 + b.tileSlot % 2)
/-- The slot of a kind not in use. [log 162 DEDUCED] -/
def BootSt.unused (b : BootSt) (kind : Nat) : Fin 4 := Fin.ofNat 4 (if kind == 1 then 1 - b.ridgeSlot % 2 else 3 - b.tileSlot % 2)
/-- A slot changed. -/
def State.modSlot (s : State) (k : Fin 4) (f : FwSlot → FwSlot) : State :=
  s.modBoot fun b => { b with slots := b.slots.set k (f (b.slots[k])) }
/-- A staging of a kind is open. -/
def BootSt.staged (b : BootSt) (kind : Nat) : Bool := b.staging[Fin.ofNat 2 (kind - 1)]
/-- A staging opens or closes. -/
def State.setStaging (s : State) (kind : Nat) (on : Bool) : State :=
  s.modBoot fun b => { b with staging := b.staging.set (Fin.ofNat 2 (kind - 1)) on }
/-- FW_STATUS keeps the kind and code of the last request. -/
def State.fwResult (s : State) (kind code : Nat) : Nat × State :=
  (code, s.modBoot fun b => { b with lastKind := kind, lastCode := code })

/-- FW_STAGE ACTION 1 (R631). [log 162 DEDUCED] -/
def State.fwBegin (s : State) (kind : Nat) : Nat × State :=
  if s.boot.staged kind then s.fwResult kind stBusy
  else if s.boot.activating.any (·.1 == kind) then s.fwResult kind stWrongState
  else
    let s := (s.modSlot (s.boot.unused kind) fun _ => ⟨[], 4⟩).setStaging kind true
    (s.modBoot fun b => { b with stagedBytes := 0 }).fwResult kind stOk

/-- FW_CHUNK (R631); unwritten bytes below it read as erased flash. -/
def State.fwChunk (s : State) (kind off : Nat) (bytes : Bytes) : Nat × State :=
  if 4000 < bytes.length || slotSize kind < off + bytes.length then (stBadArgument, s)
  else if !s.boot.staged kind then (stWrongState, s)
  else
    let s := s.modSlot (s.boot.unused kind) fun x =>
      ⟨overlay (x.image ++ List.replicate (off - x.image.length) 0xFF) off bytes, 4⟩
    (stOk, s.modBoot fun b => { b with lastKind := kind, stagedBytes := b.stagedBytes + bytes.length })

/-- FW_STAGE ACTION 2 (R631). [log 162 DEDUCED] -/
def State.fwEnd (s : State) (kind : Nat) : Nat × State :=
  if !s.boot.staged kind then s.fwResult kind stWrongState else
  let k := s.boot.unused kind
  let s := s.setStaging kind false
  match s.boot.fuses.refuse kind (s.boot.slots[k]).image with
  | some code => (s.modSlot k fun x => { x with state := 4 }).fwResult kind code
  | none => (s.modSlot k fun x => { x with state := 2 }).fwResult kind stOk

/-- FW_STAGE ACTION 3 (R631). [log 162 DEDUCED] -/
def State.fwAbandon (s : State) (kind : Nat) : Nat × State :=
  if !s.boot.staged kind then s.fwResult kind stWrongState else (s.setStaging kind false).fwResult kind stOk

/-! Measurements (R636). -/

/-- A measurement extended. -/
def State.extendMs (s : State) (n : Fin 8) (d : Bytes) : State :=
  s.modBoot fun b => { b with ms := b.ms.set n (sha256 (b.ms[n] ++ d)) }

/-- MEASURE_EXTEND. -/
def State.measureExtend (s : State) (d : Bytes) : Nat × State :=
  if d.length != 32 then (stBadArgument, s) else (stOk, s.extendMs 7 d)

/-- MS5 follows the Plyn slots and the manager. -/
def State.extendMs5 (s : State) : State :=
  s.extendMs 5 (sha256 ((s.dict.slots.toList.flatMap fun k => toLE 2 k.node ++ toLE 1 k.rights) ++ toLE 1 (s.cfg 0x3010 1 0)))

/-! Plan keys (R634). -/

/-- The hash of a plan-key slot: of modulus and exponent, or 32 zero bytes. [log 168 DEDUCED] -/
def PlanKey.hash (k : PlanKey) : Bytes := if k.state == 1 then sha256 (k.modulus ++ toLE 4 65537) else zeros 32

/-- A plan-key slot of 0 to 7 extends MS4 with its number and hash. [log 169 DEDUCED] -/
def State.extendMs4 (s : State) (i : Fin 8) : State := s.extendMs 4 (toLE 1 (i.val + 1) ++ (s.boot.planKeys[i]).hash)

/-- PLAN_KEY applied: 1 sets, 2 revokes, 3 empties; a revoked slot stays so until it is set (R634). [log 247 DEDUCED] -/
def State.planKeyWrite (s : State) (i : Fin 8) (action exponent : Nat) (modulus : Bytes) : Nat × State :=
  if action == 0 || 3 < action || (action == 1 && (exponent != 65537 || modulus.length != 384)) then (stBadArgument, s) else
  let k : PlanKey := if action == 1 then ⟨1, modulus⟩ else if action == 2 || (s.boot.planKeys[i]).state == 2 then ⟨2, []⟩ else ⟨0, []⟩
  let s := (s.modBoot fun b => { b with planKeys := b.planKeys.set i k }).cacheDrop none
  (stOk, s.extendMs4 i)

/-! Fuses blown in service (R630). -/

/-- KEY_REVOKE. -/
def State.keyRevoke (s : State) (n : Nat) : Nat × State :=
  let b := s.boot
  let f := b.fuses
  let running := [1, 2].any fun kind => fwKeySlot (b.slots[b.used kind]).image == n
  let left := (List.range 4).any fun k => k != n && !bitAt f.revoked k && (f.keyHash[Fin.ofNat 4 k]).any (· != 0)
  if running || !left then (stWrongState, s)
  else (stOk, s.modBoot fun b => { b with fuses := { b.fuses with revoked := b.fuses.revoked ||| 2 ^ n } })

/-- ROLLBACK_COMMIT: the counter reaches the running image's SVN; slots below it become invalid. -/
def State.rollbackCommit (s : State) (kind : Nat) : Nat × State :=
  let svn := fwSvn (s.boot.slots[s.boot.used kind]).image
  let s := s.modBoot fun b =>
    let f := b.fuses
    { b with fuses := if kind == 1 then { f with ridgeSvn := max f.ridgeSvn svn } else { f with tileSvn := max f.tileSvn svn } }
  let u := s.boot.unused kind
  (stOk, s.modSlot u fun x => if !x.image.isEmpty && fwSvn x.image < svn then { x with state := 4 } else x)

/-! Attestation (R637). -/

/-- The report's bytes before its signature. -/
def State.reportBody (s : State) (nonce : Bytes) (st : Stamp) : Bytes :=
  let b := s.boot
  let version := fun (kind : Nat) => fwVersion (b.slots[b.used kind]).image
  toLE 4 0x54535441 ++ toLE 2 1 ++ zeros 2 ++ padTo 32 nonce ++ st.bytes ++ toLE 8 b.fuses.serial ++ (b.ms.toList.flatMap (padTo 32 ·))
    ++ padTo 32 b.fuses.identityHash ++ toLE 4 (version 1) ++ toLE 4 (version 2) ++ toLE 1 b.fuses.ridgeSvn ++ toLE 1 b.fuses.tileSvn
    ++ zeros 6 ++ sha256 b.shadow

/-- ATTEST_NONCE: its write waits for the report, or is refused with BUSY. -/
def State.attestNonce (s : State) (w : DictWrite) : State :=
  if s.boot.attest.isSome then s.finishWrite w stBusy 0
  else s.modBoot fun b => { b with attest := some (w.value, { w with applied := s.time.ts }) }

/-- The report, which an activation lets complete on the old firmware (R638), is signed and stands in ATTEST_REPORT; the signature is a free value. [log 248 DEDUCED] -/
def State.attestDone (s : State) : State :=
  match s.boot.attest with
  | none => s
  | some (nonce, w) =>
    let (st, s) := s.stamp s.ridgeSrc
    let (ctr, s) := s.fresh
    let body := s.reportBody nonce st
    let s := s.modBoot fun b => { b with attest := none, report := body ++ padTo 384 (Config.attestSignature ctr body) }
    s.finishWrite w stOk w.applied

/-- The attestation report is done. -/
def execAttestReportDone (s : State) : Res := .next s.attestDone

/-! Activation (R535, R632, R633). -/

/-- FW_ACTIVATE (R632, R633, R638). [log 167 DEDUCED] -/
def State.fwActivate (s : State) (kind : Nat) : Nat × State :=
  let k := s.boot.unused kind
  if s.boot.staged kind || s.boot.activating.isSome || (s.boot.slots[k]).state != 2 then (stWrongState, s)
  else if kind == 1 then (stOk, s.modBoot fun b => { b with activating := some (1, s.time.ts) })
  else
    let s := s.attestDone
    let old := (s.boot.slots[s.boot.used 2]).image
    let new := (s.boot.slots[k]).image
    let s := (s.modSlot (s.boot.used 2) fun x => { x with state := 1 }).modSlot k fun x => { x with state := 3 }
    let courses := (List.finRange 8).filter fun c => (s.power.courses[c]).effective != 3
    let order := courses.filter (fun c => !s.courseFlat c) ++ courses.filter fun c => s.courseFlat c
    let s := s.modBoot fun b =>
      { b with tileSlot := k.val - 2, activating := some (2, s.time.ts), visits := order.map (·.val)
               visitFresh := fwStateVersion old != fwStateVersion new }
    let parked := (List.finRange 8).filter fun c => (s.power.courses[c]).effective == 3
    let s := parked.foldl (fun s c => s.newMonitor c) s
    (stOk, ((s.extendMs 2 (fwDigest new)).dropContexts.visitNext).cacheDrop none |>.pumpPlans)

/-- Commands that run when the drain's time has passed: all but queued ones and committed APPENDs (R535). [log 165 DEDUCED] -/
def Cmd.drains (c : Cmd) : Bool := c.stage != .queued && !(c.opcode == 0x20 && c.stage == .running)

/-- The new Ridge firmware starts the queued commands and resumes the queries, or ends both where it does not support the queue's version
(R284, R535). [log 166 DEDUCED, 214 DEDUCED] -/
def State.adoptQueue (s : State) (supported : Bool) : State :=
  let s := s.cacheDrop none
  if supported then s.batten.queries.foldl (fun s q => s.runQuery q.1) s else
  let s := s.batten.queries.foldl (fun s q => s.retireQuery q.1 stAbortActivation) s
  (List.finRange 64).foldl (fun s i =>
    ((s.insts[i]).queue.filter (·.stage == .queued)).foldl (fun s c => s.complete i c.receipt stAbortActivation) s) s

/-- S3 and S4 on the new slot (R632): both Ridges reset, the token to Ridge A; a refused image returns to the old slot; state of
another version takes the device through the Keep with T_K equal to the activation stamp, and out of it at once. [log 167 DEDUCED] -/
def State.activateRidge (s : State) (since : Nat) : State :=
  let s := s.attestDone
  let old := s.boot.used 1
  let new := s.boot.unused 1
  let img := (s.boot.slots[new]).image
  let was := (s.boot.slots[old]).image
  let s := ((s.modRidge 0 fun k => { k with state := .testing }).modRidge 1 fun k => { k with state := .testing, image := false, acks := 0 })
  let s := (s.grant 0).modBoot fun b => { b with activating := none }
  match s.boot.fuses.refuse 1 img with
  | some code =>
    let s := (s.modSlot new fun x => { x with state := 4 }).modBoot fun b =>
      { b with steps := b.steps.set 4 { b.steps[4] with ts := s.time.ts, attempts := b.steps[4].attempts + 1, outcome := 3, cause := code }, lastCode := code }
    s.writeShadow.takeUp.noteStandby.adoptQueue true
  | none =>
    let s := (s.modSlot old fun x => { x with state := 1 }).modSlot new fun x => { x with state := 3 }
    let s := (s.modBoot fun b => { b with ridgeSlot := new.val }).extendMs 1 (fwDigest img)
    let s := s.takeUp.noteStandby
    if fwStateVersion img == fwStateVersion was then s.adoptQueue (fwQueueVersion img == fwQueueVersion was)
    else
      let s := (s.modBoot fun b => { b with wakePending := true }).keepEntry
      s.modDram fun d => { d with keepStamp := d.keepStamp.map fun k => { k with ts := since } , keepEntered := since }

/-- The drain of an activation ends: at once where no command runs, else when ACTIVATION_DRAIN has passed (R535, R632). [log 165 DEDUCED] -/
def State.drainEnds (s : State) : State :=
  match s.boot.activating with
  | some (1, since) =>
    if !s.ridgeActs || s.dram.phase != .out then s else
    let left := (List.finRange 64).any fun i => (s.insts[i]).queue.any (·.drains)
    let s := if left then s.advanceTo (since + 1000000 * s.cfg 0x3040 1 200) else s
    let s := (List.finRange 64).foldl (fun s i =>
      ((s.insts[i]).queue.filter (·.drains)).foldl (fun s c => s.abortCmd i c stAbortActivation) s) s
    s.activateRidge since
  | _ => s

/-- ACTIVATION_DRAIN passes. -/
def execActivationDrainExpiry (s : State) : Res := .next s.drainEnds

/-- STEP_RESET (R641). -/
def State.askStepReset (s : State) : State := s.modBoot fun b => { b with stepReset := true }

end Sys2Proof.Machine
end

