-- ==== Sys2Proof/Machine/TimeBase.lean ====
section
/-! DEFINITION. The time base (chapter 02): its cycle, the gPTP states, corrections, reserves and odometry. The
boundaries and ticks, which reach every unit, stand in Boundary.lean. -/

namespace Sys2Proof.Machine

/-- One cycle of domain 17 (R36), or of the standby counter while domain 17 stands (R44). [log 1 DESIGN CHOICE] -/
def TimeSt.cycle (t : TimeSt) : TimeSt :=
  if t.run then { t with ts := t.ts + 4 }
  else if t.sbRun then { t with ts := t.ts + (49 + t.sbHalf) / 2, sbHalf := (49 + t.sbHalf) % 2 }
  else t

/-- 200 ppm (R39, R41, R693). -/
def trimLimit : Rat := 200 / 1000000

/-- A trim clamped to ±200 ppm. -/
def clampTrim (x : Rat) : Rat := max (-trimLimit) (min trimLimit x)

/-- LOCKED or EDGE-LOCKED is left while TQ8.HOLDOVER is 0: the last magnitude and the time are held (R43). -/
def TimeSt.leaveLock (t : TimeSt) : TimeSt := if t.holdover then t else { t with e0 := t.offset.natAbs, leftAt := t.ts }

/-- Domain 17 stops: HOLDOVER reads 1 from here (R668), with the estimate of R43. -/
def TimeSt.stop (t : TimeSt) : TimeSt := { t.leaveLock with run := false }

/-- Enters a state of TIME_STATE, with what leaving LOCKED or EDGE-LOCKED holds (R43) and what entering them sets. -/
def TimeSt.enter (t : TimeSt) (st : TState) : TimeSt :=
  if t.state == st then t else
  let t := t.leaveLock
  let t := { t with state := st, lastChange := t.ts, rowChange := true }
  if st == .locked then { t with everLocked := true, unsynced := false }
  else if st == .edgeLocked then { t with everLocked := true } else t

/-- Entry into HOLDOVER, counted (0x0412:04) and recorded (R669). -/
def State.enterHoldover (s : State) : State :=
  let s := s.modTime (·.enter .holdover)
  let s := s.bump 0x0412 4 1
  s.raise srcTime { ErrRec.blank with scope := 11, scopeId := 1, event := 1 }

/-- The state after a measured offset (R40); the Sync that enters ACQUIRING is judged by ACQUIRING's own rules. [log 13 DEDUCED] -/
def TimeSt.judge (t : TimeSt) (lockTh slew : Nat) : TimeSt :=
  let o := t.offset
  let acquires := match t.state with
    | .unsynced | .holdover => true
    | .behind => decide (-(slew : Int) ≤ o)
    | .locked => decide (16 * lockTh < o.natAbs)
    | _ => false
  let t := if acquires then { t.enter .acquiring with goodSyncs := 0 } else t
  match t.state with
  | .acquiring =>
    if o < -(slew : Int) then t.enter .behind else
    let n := if o.natAbs < lockTh then t.goodSyncs + 1 else 0
    if 8 ≤ n then { t.enter .locked with goodSyncs := n } else { t with goodSyncs := n }
  | _ => t

/-- The correction of an offset (R41): a step decided, a trim, or nothing. [log 12 DESIGN CHOICE] -/
def TimeSt.correct (t : TimeSt) (stepTh slew ctr : Nat) : TimeSt :=
  let o := t.offset
  if (stepTh : Int) < o then { t with stepPending := some o.toNat }
  else
    let t := { t with stepPending := none }
    if -(slew : Int) ≤ o then { t with trim := clampTrim ((Config.slewTrim ctr o : Rat) / 1000000000) } else t

/-- A measured offset of the grandmaster against TS64 (R40, R41). -/
def State.measured (s : State) (offset : Int) : State :=
  let was := s.time.state
  let (ctr, s) := s.fresh
  let slew := s.cfg 0x0403 2 1000000
  let s := s.modTime fun t =>
    ({ t with offset := offset }.judge (s.cfg 0x0402 5 100) slew).correct (s.cfg 0x0403 1 100000) slew ctr
  if s.time.state == .behind && was != .behind then
    s.raise srcTime { ErrRec.blank with scope := 11, scopeId := 1, event := 2 }
  else s

/-- A gPTP message is for this time base: source, port, domain, interval and a running domain 17. -/
def State.gptpTakes (s : State) (port : PortId) (domain : Nat) : Bool :=
  s.time.run && s.time.source == 0 && port.val == s.cfg 0x0402 2 0 && domain == s.cfg 0x0402 3 0
    && !(s.ingest.eave[port]).stopped

/-- The Sync interval of a logSyncInterval from −5 to 0, in ns. -/
def syncNs (log : Int) : Nat := 1000000000 / 2 ^ (-log).toNat

/-- A Sync arrives: one-step, measured at once; two-step, measured at its Follow_Up (R40). [log 22 DEDUCED] -/
def State.gptpSync (s : State) (port : PortId) (domain : Nat) (twoStep : Bool) (seq : Nat) (log : Int) (origin : Nat)
    (corr : Int) : State :=
  if !s.gptpTakes port domain || log < -5 || 0 < log then s else
  let s := s.modTime fun t => { t with lastSync := t.ts, syncInterval := syncNs log }
  if twoStep then s.modTime fun t => { t with syncWait := some ⟨seq, t.ts, corr⟩ } else
  match s.time.linkDelay with
  | none => s
  | some d => s.measured (origin + corr + d - s.time.ts)

/-- A gPTP Sync is received. -/
def execGptpSync (port : PortId) (domain : Nat) (twoStep : Bool) (seq : Nat) (log : Int) (origin : Nat) (corr : Int)
    (s : State) : Res :=
  .next (s.gptpSync port domain twoStep seq log origin corr)

/-- The Follow_Up of the Sync that waits completes it; the offset is taken at the Sync's reception. -/
def State.followUp (s : State) (port : PortId) (domain seq origin : Nat) (corr : Int) : State :=
  if !s.gptpTakes port domain then s else
  match s.time.syncWait with
  | none => s
  | some w =>
    if w.seq != seq then s else
    let s := s.modTime fun t => { t with syncWait := none }
    match s.time.linkDelay with
    | none => s
    | some d => s.measured (origin + w.corr + corr + d - w.rx)

/-- A two-step Follow_Up is received. -/
def execGptpFollowUp (port : PortId) (domain seq origin : Nat) (corr : Int) (s : State) : Res :=
  .next (s.followUp port domain seq origin corr)

/-- An Announce names the grandmaster (0x0410:05). -/
def execGptpAnnounce (port : PortId) (domain gm : Nat) (s : State) : Res :=
  .next (if s.gptpTakes port domain then s.modTime fun t => { t with gmIdentity := gm % 2 ^ 64 } else s)

/-- A link partner's Pdelay_Req is answered. -/
def execPdelayReq (port : PortId) (seq : Nat) (s : State) : Res :=
  .next (if s.gptpTakes port (s.cfg 0x0402 3 0) then s.emit (.pdelayResp port seq s.time.ts) else s)

/-- The link delay from an answered Pdelay_Req: half of what the partner did not hold it. -/
def pdelayOf (t1 t2 t3 t4 : Nat) : Nat := ((((t4 : Int) - t1) - ((t3 : Int) - t2)) / 2).toNat

/-- A Pdelay response: t2 and t3 are the partner's times of reception and sending. -/
def execPdelayResp (port : PortId) (t2 t3 : Nat) (s : State) : Res :=
  .next (if !s.gptpTakes port (s.cfg 0x0402 3 0) then s else
    match s.time.pdelaySent with
    | none => s
    | some t1 => s.modTime fun t => { t with linkDelay := some (pdelayOf t1 t2 t3 t.ts), pdelaySent := none })

/-- The once-per-second interval expires and a Pdelay_Req goes out. -/
def State.pdelayInterval (s : State) : State :=
  let port : PortId := Fin.ofNat 4 (s.cfg 0x0402 2 0)
  if !s.gptpTakes port (s.cfg 0x0402 3 0) then s else
  let s := s.advanceTo (s.time.pdelayLast + 1000000000)
  (s.modTime fun t => { t with pdelaySent := some t.ts, pdelayLast := t.ts }).emit (.pdelayReq port)

/-- The device sends its own Pdelay_Req. -/
def execPdelayInterval (s : State) : Res := .next s.pdelayInterval

/-- Three Sync intervals pass without a Sync (R40, R54). -/
def State.syncTimeout (s : State) : State :=
  if s.time.run && s.time.source == 0 && (s.time.state == .acquiring || s.time.state == .locked) then
    (s.advanceTo (s.time.lastSync + 3 * s.time.syncInterval)).enterHoldover
  else s

/-- No Sync arrives for three intervals. -/
def execSyncTimeout (s : State) : Res := .next s.syncTimeout

/-- Millimetres of a 48.16 accumulator. -/
def mmOf (acc : Nat) : Nat := acc / 65536

/-- The value a reserve is renewed to (R46): for TS_RESERVE, TS64 + 60 s, and where a pending step would pass that, 60 s beyond
the stepped value. -/
def TimeSt.nextReserve (t : TimeSt) (kind : Fin 3) : Nat :=
  match kind with
  | 0 =>
    let step := t.stepPending.getD 0
    if step < 60000000000 then t.ts + 60000000000 else t.ts + step + 60000000000
  | 1 => mmOf t.dist + 10000000
  | 2 => mmOf t.rev + 10000000

/-- A reserve is to be renewed (R46). -/
def TimeSt.reserveDue (t : TimeSt) (kind : Fin 3) : Bool :=
  match kind with
  | 0 => decide (t.tsReserve ≤ t.ts + 30000000000) || decide (t.tsReserve ≤ t.ts + t.stepPending.getD 0)
  | 1 => decide (t.distReserve ≤ mmOf t.dist + 5000000)
  | 2 => decide (t.revReserve ≤ mmOf t.rev + 5000000)

/-- A reserve in force. -/
def TimeSt.setReserve (t : TimeSt) (kind : Fin 3) (v : Nat) : TimeSt :=
  match kind with
  | 0 => { t with tsReserve := v }
  | 1 => { t with distReserve := v }
  | 2 => { t with revReserve := v }

/-- A commit of a reserve fails: a FATAL record, and it is tried again at each boundary (R46). -/
def State.reserveFails (s : State) (kind : Fin 3) : State :=
  (s.modTime fun t => { t with retry := t.retry ||| 2 ^ kind.val }).raise s.ridgeSrc
    { ErrRec.blank with severity := .fatal, scope := 11, scopeId := 1, event := 3 }

/-- The Ridge commits a reserve (R46): 0 TS_RESERVE, 1 DIST_RESERVE, 2 REV_RESERVE; a failed commit is recorded. [log 21 DEDUCED] -/
def State.reserveCommit (s : State) (kind : Fin 3) (ok : Bool) : State :=
  if !(s.time.reserveDue kind || bitAt s.time.retry kind.val) || !s.ridgeActs then s
  else if !ok then s.reserveFails kind
  else
    let v := s.time.nextReserve kind
    let s := s.modTime fun t => { t.setReserve kind v with retry := t.retry &&& (7 - 2 ^ kind.val) }
    let s := s.storeWrite (objKey 0x0413 (kind.val + 1)) (some (toLE 8 v))
    s.bump 0x0413 4 1

/-- At a boundary the Ridge tries each failed commit again; whether the store takes it is a free value (R46). [log 228 DEDUCED] -/
def State.retryReserves (s : State) : State :=
  (List.finRange 3).foldl (fun s k =>
    if !bitAt s.time.retry k.val then s else
    let (ctr, s) := s.fresh
    s.reserveCommit k (Config.storeTakes ctr)) s

/-- A new reserve is committed to the persistent store. -/
def execReserveCommit (kind : Fin 3) (ok : Bool) (s : State) : Res := .next (s.reserveCommit kind ok)

/-- An ODO_TICK edge (R55 to R59): its direction of change, whether its level was stable for 1 µs each side, ODO_DIR at
the edge and whether ODO_DIR was stable for 1 µs before it. -/
def State.odoTick (s : State) (rising stable dirHigh dirStable : Bool) : State :=
  if !s.time.run || rising != (s.cfg 0x0404 2 0 == 0) then s
  else if !stable then s.bump 0x0412 3 1
  else
    let s := if dirStable then s else s.bump 0x0412 6 1
    let mm := s.cfg 0x0404 1 0
    if mm == 0 then s.bump 0x0412 3 1 else
    let reverse := dirHigh != (s.cfg 0x0404 3 0 == 0)
    s.modTime fun t =>
      { t with dist := (t.dist + mm) % 2 ^ 64, rev := if reverse then (t.rev + mm) % 2 ^ 64 else t.rev }

/-- An ODO_TICK edge. -/
def execOdoTick (rising stable dirHigh dirStable : Bool) (s : State) : Res :=
  .next (s.odoTick rising stable dirHigh dirStable)

/-- A change of TIME_SOURCE (R66, R692, R43): UNSYNCED, or LOCAL; the estimate is given up. -/
def State.enterSource (s : State) (src : Nat) : State :=
  if src == s.time.source then s else
  s.modTime fun t =>
    let t := { t with source := src, everLocked := false, goodSyncs := 0, syncWait := none, stepPending := none,
                      regularRun := 0, synthRun := 0 }
    { t.enter (if src == 2 then .localSrc else .unsynced) with everLocked := false }

end Sys2Proof.Machine
end

