-- ==== Sys2Proof/Machine/Diag.lean ====
section
/-! DEFINITION. Self-tests in service, the trace stop and the availability counters (chapter 24), the containment of clock alarms
(R668), and the electrical events of chapter 25. -/

namespace Sys2Proof.Machine

/-! Self-tests (R670, R671). -/

/-- The target of a self-test stands where a test may run. -/
def State.testable (s : State) (target index : Nat) : Bool :=
  if target == 1 then (s.power.courses[Fin.ofNat 8 index]).assigned == 3
  else if target == 2 then
    let c := s.thatch.slices[Fin.ofNat 16 index]
    !c.enabled && c.powered
  else
    let b := s.purlin.banks[Fin.ofNat 8 index]
    b.role == .free && b.entries.isEmpty

/-- SELF_TEST is written. -/
def State.selfTestStart (s : State) (target index : Nat) : Nat × State :=
  if target == 0 || 3 < target || (if target == 2 then 15 else 7) < index then (stBadArgument, s)
  else if s.err.selfTest.any (·.outcome == 0) then (stBusy, s)
  else if !s.testable target index then (stWrongState, s)
  else
    let (st, s) := s.stamp s.ridgeSrc
    (stOk, s.modErr fun e => { e with selfTest := some ⟨st, target, index, 0, 0⟩ })

/-- What a passed test leaves (R670). -/
def State.testPassed (s : State) (target index : Nat) : State :=
  if target == 1 then (List.finRange 8).foldl (fun s p => s.modTile (tileOf (Fin.ofNat 8 index) p) Tile.hardReset) s
  else if target == 2 then s.modSlice (Fin.ofNat 16 index) fun c => { c with lines := [], plru := [] }
  else s.modBank (Fin.ofNat 8 index) fun b => { b with entries := [], awaiting := [] }

/-- What a failed test takes out of service (R621, R670). -/
def State.fuseOff (s : State) (target index : Nat) : State :=
  if target == 1 then
    (s.modBoot fun b => { b with coursesOff := b.coursesOff ||| 2 ^ index }).raise s.ridgeSrc
      { ErrRec.blank with severity := .degraded, scope := 6, scopeId := index }
  else if target == 2 then
    ((s.modBoot fun b => { b with slicesOff := b.slicesOff ||| 2 ^ index }).modSlice (Fin.ofNat 16 index) fun c =>
      { c with fused := true, powered := false, enabled := false, lines := [], plru := [] }).raise s.ridgeSrc
        { ErrRec.blank with severity := .degraded, scope := 7, scopeId := index }
  else
    ((s.modBoot fun b => { b with banksOff := b.banksOff ||| 2 ^ index }).modBank (Fin.ofNat 8 index) fun b =>
      { b with bistFail := true, enable := false, entries := [], awaiting := [] }).raise s.ridgeSrc
        { ErrRec.blank with severity := .degraded, scope := 7, scopeId := 0x100 + index }

/-- A self-test ends. -/
def State.selfTestDone (s : State) (pass : Bool) : State :=
  match s.err.selfTest with
  | none => s
  | some t =>
    if t.outcome != 0 then s else
    let us := (s.time.ts - t.stamp.ts) / 1000
    let s := s.modErr fun e => { e with selfTest := some { t with outcome := if pass then 1 else 2, durationUs := us } }
    if pass then s.testPassed t.target t.index else s.fuseOff t.target t.index

/-- A self-test ends. -/
def execSelfTestDone (pass : Bool) (s : State) : Res := .next (s.selfTestDone pass)

/-- TRACE_REARM (R672). -/
def State.traceRearm (s : State) : State := s.modErr fun e => { e with traceStopped := none }

/-- AVAIL_RESET (R676). -/
def State.availReset (s : State) : State :=
  s.countPowered.modErr fun e =>
    { e with poweredUs := 0, outageUs := 0, outages := 0, gaps := 0, mirrorPowered := 0, mirrorOutage := 0, mirrorOutages := 0, mirrorAt := 0
             outageSince := e.outageSince.map fun _ => s.time.ts }

/-! Clock alarms (R21, R668). -/

/-- A course fenced for the session: its bundles run again elsewhere (R303, R668). -/
def State.fenceCourse (s : State) (c : CourseId) : State :=
  let s := s.modBoot fun b => { b with coursesFenced := b.coursesFenced ||| 2 ^ c.val }
  ((List.finRange 8).foldl (fun s p =>
    let t := tileOf c p
    match (s.batten.tiles[t]).desc with
    | some _ => s.tileLost t stTileFault false false
    | none => s.tileTo t .fenced) s).pumpPlans

/-- Scope, identity and severity of a clock alarm's record. -/
def clockScope (domain : Nat) : Nat × Nat × Severity :=
  if domain ≤ 8 then (6, domain - 1, .degraded)
  else if domain ≤ 10 then (0, 0, .fatal)
  else if domain == 11 then (9, 0, .degraded)
  else if domain == 12 then (9, 0x10, .degraded)
  else if domain ≤ 14 then (9, 0x20 + (domain - 13), .degraded)
  else if domain ≤ 16 then (10, domain - 15, .contained)
  else (11, 1, .degraded)

/-- Containment by domain (R668). -/
def State.containClock (s : State) (domain : Nat) : State :=
  if domain ≤ 8 then s.fenceCourse (Fin.ofNat 8 (domain - 1))
  else if domain ≤ 10 then s.keepEntry
  else if domain == 11 then (List.finRange 4).foldl (fun s p => s.freezePort p 4) s
  else if domain == 12 then
    let s := s.modIngest fun g => { g with eave := g.eave.map fun x => { x with stopped := true } }
    if s.time.source == 0 && s.time.state != .holdover && s.time.state != .unsynced then s.enterHoldover else s
  else if domain ≤ 14 then s.modDict fun d => { d with fieldStopped := d.fieldStopped.set (Fin.ofNat 2 (domain - 13)) true }
  else if domain ≤ 16 then s.ridgeDown (Fin.ofNat 2 (domain - 15)) 5
  else s.modTime (·.stop)

/-- A running domain of 1 to 17 stays more than 5 % off (R21): the record names it, the Flashing engine clears, and it is contained. -/
def State.clockAlarm (s : State) (domain : Nat) : State :=
  if domain == 0 || 17 < domain || bitAt s.boot.clockAlarms domain || !s.domainRuns domain then s else
  let (scope, id, sev) := clockScope domain
  let s := s.modBoot fun b => { b with clockAlarms := b.clockAlarms ||| 2 ^ domain }
  let s := s.raise srcFinial { ErrRec.blank with severity := sev, scope := scope, scopeId := id, event := 20, detail0 := domain }
  (s.flashAlarm 3).containClock domain

/-- A clock alarm. -/
def execClockAlarm (domain : Nat) (s : State) : Res := .next (s.clockAlarm domain)

/-- The domain returns within 5 %: the alarm ends with the last such domain, and Eave or field reception goes on. [log 190 DEDUCED] -/
def State.clockAlarmEnd (s : State) (domain : Nat) : State :=
  if !bitAt s.boot.clockAlarms domain then s else
  let s := s.modBoot fun b => { b with clockAlarms := b.clockAlarms - 2 ^ domain }
  let s := if domain == 12 then s.modIngest fun g => { g with eave := g.eave.map fun x => { x with stopped := false } }
    else if domain == 13 || domain == 14 then s.modDict fun d => { d with fieldStopped := d.fieldStopped.set (Fin.ofNat 2 (domain - 13)) false }
    else s
  if s.boot.clockAlarms == 0 then s.flashAlarmEnd 3 else s

/-- A clock alarm ends. -/
def execClockAlarmEnd (domain : Nat) (s : State) : Res := .next (s.clockAlarmEnd domain)

/-- A write of the standby Ridge is discarded and counted (R26). -/
def execStandbyWriteDiscarded (s : State) : Res :=
  .next (if s.standby.isSome then s.modFinial fun x => { x with discarded := x.discarded + 1 } else s)

/-! The package (R679 to R682). -/

/-- A main rail by its place in the table of R678, after the two standby rails. -/
def mainRail (r : Fin 8) : Fin 10 := ⟨r.val + 2, by omega⟩

/-- A main rail stays outside ±5 % (R679). -/
def State.voltageAlarm (s : State) (rail : Fin 8) (mv : Nat) : State :=
  if !s.boot.mainUp then s else
  let k := mainRail rail
  let s := s.modBoot fun b => { b with rails := b.rails.set k mv }
  if bitAt s.boot.railsOut k.val then s else
  let s := s.modBoot fun b =>
    { b with railsOut := b.railsOut ||| 2 ^ k.val, railAlarms := b.railAlarms.set k (b.railAlarms[k] + 1) }
  (s.raise srcFinial { ErrRec.blank with severity := .contained, event := 21, detail0 := k.val }).flashAlarm 2

/-- A voltage alarm; the operand is the rail's reading in mV. -/
def execVoltageAlarm (rail : Fin 8) (mv : Nat) (s : State) : Res := .next (s.voltageAlarm rail mv)

/-- The rail returns within ±5 %. -/
def State.voltageAlarmEnd (s : State) (rail : Fin 8) (mv : Nat) : State :=
  let k := mainRail rail
  if !bitAt s.boot.railsOut k.val then s else
  let s := s.modBoot fun b => { b with rails := b.rails.set k mv, railsOut := b.railsOut - 2 ^ k.val }
  if s.boot.railsOut == 0 then s.flashAlarmEnd 2 else s

/-- A voltage alarm ends. -/
def execVoltageAlarmEnd (rail : Fin 8) (mv : Nat) (s : State) : Res := .next (s.voltageAlarmEnd rail mv)

/-- A brownout (R679): main domains reset, MAIN_EN low, FIN_ALERT_N low, DRAM lost without self-refresh. [log 112 DEDUCED] -/
def State.brownout (s : State) : State :=
  if !s.boot.mainUp then s else
  let s := (s.dark.modMem fun _ => []).modDram fun d =>
    { d with keepValid := false, phase := .out, poison := [], wakeLowAt := none, retainFrom := none }
  (s.modBoot fun b => { b with mainEn := false, mainUp := false, brownedOut := true, brownouts := b.brownouts + 1 }).modFinial fun x =>
    { x with alertForced := true }

/-- A main rail's brownout. -/
def execBrownout (rail : Fin 8) (s : State) : Res :=
  .next (if s.boot.mainUp then (s.modBoot fun b => { b with rails := b.rails.set (mainRail rail) 0 }).brownout else s)

/-- The boot record that flash gives: a valid CRC and the higher GENERATION (R624). -/
def BootSt.record (b : BootSt) : Option Bytes :=
  let ok := fun (r : Bytes) => r.length == 512 && fieldAt 0 4 r == 0x44524342 && fieldAt 508 4 r == crc32 (r.take 508)
  match ok (b.flash[0]), ok (b.flash[1]) with
  | true, true => some (if fieldAt 4 4 (b.flash[0]) < fieldAt 4 4 (b.flash[1]) then b.flash[1] else b.flash[0])
  | true, false => some (b.flash[0])
  | false, true => some (b.flash[1])
  | false, false => none

/-- What a boot record says of alternatives and attempts (R621, R623). -/
def BootSt.load (b : BootSt) (r : Bytes) : BootSt :=
  let step := fun (n : Nat) =>
    let o := 0x50 + 16 * n
    (⟨fieldAt o 8 r, fieldAt (o + 8) 1 r, fieldAt (o + 9) 1 r, fieldAt (o + 10) 2 r, fieldAt (o + 12) 4 r⟩ : StepRec)
  { b with generation := fieldAt 4 4 r, kind := fieldAt 0x30 1 r, ridgeSlot := fieldAt 0x32 1 r, tileSlot := fieldAt 0x33 1 r
           coursesOff := fieldAt 0x40 1 r, banksOff := fieldAt 0x41 1 r, slicesOff := fieldAt 0x42 2 r
           portsOff := fieldAt 0x44 1 r % 16, eaveOff := bitAt (fieldAt 0x44 1 r) 4, rateSteps := fieldAt 0x45 1 r
           steps := Vector.ofFn fun (k : Fin 13) => step k.val, limits := Vector.ofFn fun (k : Fin 13) => fieldAt (0x120 + k.val) 1 r }

/-- Loss of the standby supply (R680): fuses, boot flash and what it holds are all that is left. TS64 stands until S5 loads it, so
that no stamp before S5 repeats one (R37). [log 8 DESIGN CHOICE, 112 DEDUCED, 227 DEDUCED] -/
def State.off (s : State) : State :=
  let b := s.boot
  let kept : BootSt :=
    { BootSt.reset with slots := b.slots, flash := b.flash, fuses := b.fuses, romDigest := b.romDigest, romVersion := b.romVersion
                        identityPublic := b.identityPublic, storeHalf := b.storeHalf, storeSeq := b.storeSeq, storeFill := b.storeFill
                        identityWrapped := b.identityWrapped
                        haltStep := b.haltStep, startB := b.startB, noStore := b.noStore, stepReset := b.stepReset }
  let boot := match kept.record with
    | some r => kept.load r
    | none => kept
  let dict := { DictSt.reset with store := s.storeDropped, slotMirror := s.dict.slotMirror }
  let e := s.countPowered.err
  let lost := e.poweredUs != e.mirrorPowered || e.outageUs != e.mirrorOutage || e.outages != e.mirrorOutages
  let err := { ErrSt.reset with mirrorPowered := s.err.mirrorPowered, mirrorOutage := s.err.mirrorOutage
                                mirrorOutages := s.err.mirrorOutages, gaps := s.err.gaps + lost.toNat }
  { State.reset with boot := boot, dict := dict, err := err, ingest := { IngestSt.reset with mapNow := s.ingest.mapNow }, time := { TimeSt.reset with sbRun := false, ts := s.time.ts }
                     outs := s.outs, freeCtr := s.freeCtr + 1, pending := s.pending }

/-- A standby rail's loss. -/
def execStandbySupplyLoss (s : State) : Res := .next (if s.boot.standbyUp then s.off else s)

/-- TAMPER_N low: the alarm is latched until the next start (R482, R686). -/
def execTamperN (s : State) : Res :=
  .next (if !s.boot.standbyUp || bitAt s.flash.alarms 5 then s
    else (s.modBoot fun b => { b with tamperEvents := b.tamperEvents + 1 }).flashAlarm 5)

/-- Every main rail has been low for 1 ms after WAKE rose in the Keep: MAIN_EN high (R682). -/
def execMainRailsLow (s : State) : Res :=
  .next (if s.dram.phase == .inKeep && s.boot.wakePending && !s.boot.mainEn then
      s.modBoot fun b => { b with mainEn := true, wakePending := false, mainUp := false }
    else s)

/-- A field port hears or sends a PLCA BEACON, or stops doing so (R589). -/
def execPlcaBeacon (port : Fin 2) (present : Bool) (s : State) : Res :=
  .next (s.modDict fun d => { d with plcaActive := d.plcaActive.set port present })

end Sys2Proof.Machine
end

