-- ==== Sys2Proof/Machine/ObjTable.lean ====
section
/-! DEFINITION. The object tables of every chapter (R560, R561, R563): index, subindices, type, length, access, marks, range and
default. An object of an instance, of an Eave port or of a field port stands here under the first of its indexes. -/

namespace Sys2Proof.Machine

/-- One row of an object table. -/
structure ObjRow where
  index : Nat
  first : Nat
  last : Nat
  /-- Type code (R561), fixed length, and the largest length of a BLOB or of a RECORD's last BLOB. -/
  type : Nat
  len : Nat
  blob : Nat
  /-- 0 RO, 1 RW, 2 RWS, 3 WO. -/
  access : Nat
  /-- Bit 0 P, bit 1 staged, bit 2 safety, bit 3 owner class INSTANCE. -/
  marks : Nat
  /-- Least and greatest value, where the greatest is not 0. -/
  lo : Nat
  hi : Nat
  default : Nat
deriving DecidableEq, Repr

/-- Objects 0x0100 to 0x0410. -/
def objRows0 : List ObjRow :=
  [⟨0x0100, 0x1, 0x1, 9, 8, 0, 0, 0, 0, 0, 0⟩,
   ⟨0x0100, 0x2, 0x2, 6, 1, 0, 0, 0, 0, 0, 160⟩,
   ⟨0x0100, 0x3, 0x3, 6, 1, 0, 0, 0, 0, 0, 0⟩,
   ⟨0x0101, 0x1, 0x1, 8, 4, 0, 0, 0, 0, 0, 0⟩,
   ⟨0x0101, 0x2, 0x2, 17, 24, 0, 0, 0, 0, 0, 0⟩,
   ⟨0x0101, 0x3, 0x3, 17, 2, 0, 0, 0, 0, 0, 0⟩,
   ⟨0x0102, 0x1, 0x1, 17, 3, 128, 0, 0, 0, 0, 0⟩,
   ⟨0x0102, 0x2, 0x2, 6, 1, 0, 3, 6, 0, 3, 0⟩,
   ⟨0x0102, 0x3, 0x3, 6, 1, 0, 3, 6, 1, 2, 0⟩,
   ⟨0x0110, 0x1, 0x1, 16, 0, 388, 0, 0, 0, 0, 0⟩,
   ⟨0x0110, 0x2, 0x2, 16, 0, 4096, 1, 1, 0, 0, 0⟩,
   ⟨0x0120, 0x1, 0x1, 16, 0, 32, 3, 0, 0, 0, 0⟩,
   ⟨0x0120, 0x2, 0x2, 16, 0, 784, 0, 0, 0, 0, 0⟩,
   ⟨0x0120, 0x3, 0x3, 16, 0, 256, 0, 0, 0, 0, 0⟩,
   ⟨0x0120, 0x4, 0x4, 16, 0, 32, 3, 0, 0, 0, 0⟩,
   ⟨0x0130, 0x1, 0x1, 6, 1, 0, 0, 0, 0, 0, 0⟩,
   ⟨0x0130, 0x2, 0x2, 17, 20, 0, 0, 0, 0, 0, 0⟩,
   ⟨0x0130, 0x3, 0x3, 17, 40, 0, 0, 0, 0, 0, 0⟩,
   ⟨0x0130, 0x4, 0x4, 8, 4, 0, 0, 0, 0, 0, 0⟩,
   ⟨0x0130, 0x5, 0x5, 8, 4, 0, 0, 0, 0, 0, 0⟩,
   ⟨0x0130, 0x6, 0x6, 8, 4, 0, 0, 0, 0, 0, 0⟩,
   ⟨0x0200, 0x1, 0x1, 16, 0, 512, 0, 0, 0, 0, 0⟩,
   ⟨0x0201, 0x1, 0xD, 17, 16, 0, 0, 0, 0, 0, 0⟩,
   ⟨0x0202, 0x1, 0x1, 17, 13, 0, 1, 1, 0, 0, 0⟩,
   ⟨0x0202, 0x2, 0x2, 1, 1, 0, 3, 0, 0, 1, 0⟩,
   ⟨0x0210, 0x1, 0x1, 17, 2, 0, 3, 0, 0, 0, 0⟩,
   ⟨0x0210, 0x2, 0x2, 17, 7, 4000, 3, 0, 0, 0, 0⟩,
   ⟨0x0210, 0x3, 0x3, 6, 1, 0, 3, 6, 1, 2, 0⟩,
   ⟨0x0210, 0x4, 0x4, 17, 8, 0, 0, 0, 0, 0, 0⟩,
   ⟨0x0401, 0x1, 0x1, 8, 4, 0, 1, 1, 250000, 100000000, 1000000⟩,
   ⟨0x0401, 0x2, 0x2, 8, 4, 0, 1, 1, 0, 0, 0⟩,
   ⟨0x0401, 0x3, 0x3, 6, 1, 0, 1, 1, 0, 1, 0⟩,
   ⟨0x0401, 0x4, 0x4, 6, 1, 0, 1, 3, 0, 8, 4⟩,
   ⟨0x0401, 0x5, 0x5, 6, 1, 0, 1, 1, 0, 1, 0⟩,
   ⟨0x0401, 0x81, 0x81, 8, 4, 0, 0, 0, 0, 0, 1000000⟩,
   ⟨0x0401, 0x82, 0x82, 8, 4, 0, 0, 0, 0, 0, 0⟩,
   ⟨0x0401, 0x83, 0x83, 6, 1, 0, 0, 0, 0, 0, 0⟩,
   ⟨0x0402, 0x1, 0x1, 6, 1, 0, 1, 3, 0, 2, 0⟩,
   ⟨0x0402, 0x2, 0x2, 6, 1, 0, 1, 3, 0, 3, 0⟩,
   ⟨0x0402, 0x3, 0x3, 6, 1, 0, 1, 3, 0, 0, 0⟩,
   ⟨0x0402, 0x4, 0x4, 8, 4, 0, 1, 1, 0, 0, 5000⟩,
   ⟨0x0402, 0x5, 0x5, 8, 4, 0, 1, 1, 0, 0, 100⟩,
   ⟨0x0403, 0x1, 0x1, 8, 4, 0, 1, 1, 0, 0, 100000⟩,
   ⟨0x0403, 0x2, 0x2, 8, 4, 0, 1, 1, 0, 0, 1000000⟩,
   ⟨0x0404, 0x1, 0x1, 8, 4, 0, 1, 3, 0, 0, 0⟩,
   ⟨0x0404, 0x2, 0x2, 6, 1, 0, 1, 3, 0, 1, 0⟩,
   ⟨0x0404, 0x3, 0x3, 6, 1, 0, 1, 3, 0, 1, 0⟩,
   ⟨0x0410, 0x1, 0x1, 6, 1, 0, 0, 0, 0, 0, 0⟩,
   ⟨0x0410, 0x2, 0x2, 5, 8, 0, 0, 0, 0, 0, 0⟩,
   ⟨0x0410, 0x3, 0x3, 9, 8, 0, 0, 0, 0, 0, 0⟩]

/-- Objects 0x0410 to 0x1014. -/
def objRows1 : List ObjRow :=
  [⟨0x0410, 0x4, 0x4, 6, 1, 0, 0, 0, 0, 0, 251⟩,
   ⟨0x0410, 0x5, 0x5, 9, 8, 0, 0, 0, 0, 0, 0⟩,
   ⟨0x0410, 0x6, 0x6, 8, 4, 0, 0, 0, 0, 0, 0⟩,
   ⟨0x0410, 0x7, 0x7, 12, 8, 0, 0, 0, 0, 0, 0⟩,
   ⟨0x0411, 0x1, 0x1, 12, 8, 0, 0, 0, 0, 0, 0⟩,
   ⟨0x0411, 0x2, 0x2, 8, 4, 0, 0, 0, 0, 0, 0⟩,
   ⟨0x0411, 0x3, 0x3, 9, 8, 0, 0, 0, 0, 0, 0⟩,
   ⟨0x0411, 0x4, 0x4, 9, 8, 0, 0, 0, 0, 0, 0⟩,
   ⟨0x0411, 0x5, 0x5, 6, 1, 0, 0, 0, 0, 0, 0⟩,
   ⟨0x0412, 0x1, 0x1, 8, 4, 0, 0, 0, 0, 0, 0⟩,
   ⟨0x0412, 0x2, 0x2, 8, 4, 0, 0, 0, 0, 0, 0⟩,
   ⟨0x0412, 0x3, 0x3, 8, 4, 0, 0, 0, 0, 0, 0⟩,
   ⟨0x0412, 0x4, 0x4, 8, 4, 0, 0, 0, 0, 0, 0⟩,
   ⟨0x0412, 0x5, 0x5, 8, 4, 0, 0, 0, 0, 0, 0⟩,
   ⟨0x0412, 0x6, 0x6, 8, 4, 0, 0, 0, 0, 0, 0⟩,
   ⟨0x0413, 0x1, 0x1, 12, 8, 0, 0, 0, 0, 0, 0⟩,
   ⟨0x0413, 0x2, 0x2, 9, 8, 0, 0, 0, 0, 0, 0⟩,
   ⟨0x0413, 0x3, 0x3, 9, 8, 0, 0, 0, 0, 0, 0⟩,
   ⟨0x0413, 0x4, 0x4, 8, 4, 0, 0, 0, 0, 0, 0⟩,
   ⟨0x0810, 0x1, 0x8, 6, 1, 0, 1, 7, 0, 3, 1⟩,
   ⟨0x0811, 0x1, 0x8, 17, 7, 0, 0, 0, 0, 0, 0⟩,
   ⟨0x0812, 0x1, 0x1, 8, 4, 0, 1, 1, 0, 60000, 50⟩,
   ⟨0x0820, 0x1, 0x1, 7, 2, 0, 1, 7, 30, 125, 125⟩,
   ⟨0x0821, 0x1, 0x1, 8, 4, 0, 0, 0, 0, 0, 0⟩,
   ⟨0x0821, 0x2, 0x2, 8, 4, 0, 0, 0, 0, 0, 0⟩,
   ⟨0x0821, 0x3, 0x3, 8, 4, 0, 0, 0, 0, 0, 0⟩,
   ⟨0x0821, 0x4, 0x4, 8, 4, 0, 0, 0, 0, 0, 0⟩,
   ⟨0x0830, 0x1, 0x1, 6, 1, 0, 1, 1, 85, 120, 110⟩,
   ⟨0x0830, 0x2, 0x2, 17, 16, 0, 0, 0, 0, 0, 0⟩,
   ⟨0x0830, 0x3, 0x3, 3, 2, 0, 0, 0, 0, 0, 0⟩,
   ⟨0x0840, 0x1, 0x1, 17, 128, 0, 0, 0, 0, 0, 0⟩,
   ⟨0x0840, 0x2, 0x2, 9, 8, 0, 0, 0, 0, 0, 0⟩,
   ⟨0x0841, 0x1, 0x1, 6, 1, 0, 0, 0, 0, 0, 0⟩,
   ⟨0x1010, 0x1, 0x8, 17, 9, 0, 1, 1, 0, 0, 0⟩,
   ⟨0x1010, 0x81, 0x88, 17, 9, 0, 0, 0, 0, 0, 0⟩,
   ⟨0x1011, 0x1, 0x4, 17, 52, 0, 1, 1, 0, 0, 0⟩,
   ⟨0x1012, 0x1, 0x1, 17, 8, 0, 0, 0, 0, 0, 0⟩,
   ⟨0x1012, 0x2, 0x2, 7, 2, 0, 0, 0, 0, 0, 0⟩,
   ⟨0x1012, 0x3, 0x3, 1, 1, 0, 3, 0, 0, 1, 0⟩,
   ⟨0x1013, 0x1, 0x1, 6, 1, 0, 1, 3, 17, 64, 48⟩,
   ⟨0x1013, 0x2, 0x2, 6, 1, 0, 1, 3, 0, 63, 16⟩,
   ⟨0x1013, 0x3, 0x3, 7, 2, 0, 1, 3, 0, 0, 32⟩,
   ⟨0x1013, 0x4, 0x4, 7, 2, 0, 1, 3, 0, 0, 400⟩,
   ⟨0x1014, 0x1, 0x1, 7, 2, 0, 1, 1, 1, 168, 24⟩,
   ⟨0x1014, 0x2, 0x2, 8, 4, 0, 1, 1, 0, 0, 1000⟩,
   ⟨0x1014, 0x3, 0x3, 1, 1, 0, 1, 1, 0, 1, 0⟩,
   ⟨0x1014, 0x4, 0x4, 9, 8, 0, 0, 0, 0, 0, 0⟩,
   ⟨0x1014, 0x5, 0x5, 8, 4, 0, 0, 0, 0, 0, 0⟩,
   ⟨0x1014, 0x6, 0x6, 17, 32, 0, 0, 0, 0, 0, 0⟩,
   ⟨0x1014, 0x7, 0x7, 9, 8, 0, 0, 0, 0, 0, 0⟩]

/-- Objects 0x1015 to 0x1801. -/
def objRows2 : List ObjRow :=
  [⟨0x1015, 0x1, 0x1, 7, 2, 0, 1, 3, 512, 16384, 2048⟩,
   ⟨0x1015, 0x2, 0x2, 7, 2, 0, 1, 3, 1, 1000, 50⟩,
   ⟨0x1015, 0x3, 0x3, 8, 4, 0, 0, 0, 0, 0, 0⟩,
   ⟨0x1015, 0x4, 0x4, 9, 8, 0, 0, 0, 0, 0, 0⟩,
   ⟨0x1016, 0x1, 0x1, 9, 8, 0, 0, 0, 0, 0, 0⟩,
   ⟨0x1016, 0x2, 0x2, 6, 1, 0, 0, 0, 0, 0, 0⟩,
   ⟨0x1020, 0x1, 0x1, 6, 1, 0, 1, 1, 1, 7, 2⟩,
   ⟨0x1020, 0x2, 0x2, 8, 4, 0, 1, 1, 0, 0, 720⟩,
   ⟨0x1020, 0x3, 0x3, 1, 1, 0, 3, 6, 0, 1, 0⟩,
   ⟨0x1020, 0x4, 0x4, 8, 4, 0, 1, 1, 0, 0, 2000⟩,
   ⟨0x1020, 0x5, 0x5, 8, 4, 0, 1, 1, 50, 5000, 500⟩,
   ⟨0x1020, 0x6, 0x6, 1, 1, 0, 0, 0, 0, 1, 0⟩,
   ⟨0x1020, 0x7, 0x7, 12, 8, 0, 0, 0, 0, 0, 0⟩,
   ⟨0x1020, 0x8, 0x8, 9, 8, 0, 0, 0, 0, 0, 0⟩,
   ⟨0x1020, 0x9, 0x9, 9, 8, 0, 0, 0, 0, 0, 0⟩,
   ⟨0x1020, 0x81, 0x81, 6, 1, 0, 0, 0, 0, 0, 0⟩,
   ⟨0x1030, 0x1, 0x1, 6, 1, 0, 1, 1, 0, 1, 1⟩,
   ⟨0x1030, 0x2, 0x2, 6, 1, 0, 1, 1, 0, 7, 7⟩,
   ⟨0x1030, 0x81, 0x81, 6, 1, 0, 0, 0, 0, 0, 0⟩,
   ⟨0x1030, 0x82, 0x82, 6, 1, 0, 0, 0, 0, 0, 0⟩,
   ⟨0x1031, 0x1, 0x1, 6, 1, 0, 1, 1, 1, 32, 8⟩,
   ⟨0x1031, 0x2, 0x2, 17, 19, 0, 0, 0, 0, 0, 0⟩,
   ⟨0x1031, 0x3, 0x3, 7, 2, 0, 0, 0, 0, 0, 0⟩,
   ⟨0x1080, 0x1, 0x1, 7, 2, 0, 0, 0, 0, 0, 0⟩,
   ⟨0x1080, 0x2, 0x2, 8, 4, 0, 0, 0, 0, 0, 0⟩,
   ⟨0x1080, 0x3, 0x3, 8, 4, 0, 0, 0, 0, 0, 0⟩,
   ⟨0x1080, 0x4, 0x4, 8, 4, 0, 0, 0, 0, 0, 0⟩,
   ⟨0x1080, 0x5, 0x5, 9, 8, 0, 0, 0, 0, 0, 0⟩,
   ⟨0x1081, 0x1, 0x1, 8, 4, 0, 1, 1, 10, 60000, 1000⟩,
   ⟨0x1081, 0x2, 0x2, 6, 1, 0, 1, 1, 1, 32, 8⟩,
   ⟨0x1082, 0x1, 0x1, 8, 4, 0, 0, 0, 0, 0, 0⟩,
   ⟨0x1082, 0x2, 0x2, 8, 4, 0, 0, 0, 0, 0, 0⟩,
   ⟨0x1082, 0x3, 0x3, 8, 4, 0, 0, 0, 0, 0, 0⟩,
   ⟨0x1082, 0x4, 0x4, 8, 4, 0, 0, 0, 0, 0, 0⟩,
   ⟨0x1090, 0x1, 0x1, 8, 4, 0, 0, 0, 0, 0, 0⟩,
   ⟨0x1090, 0x2, 0x2, 8, 4, 0, 0, 0, 0, 0, 0⟩,
   ⟨0x1090, 0x3, 0x3, 9, 8, 0, 0, 0, 0, 0, 0⟩,
   ⟨0x1090, 0x4, 0x4, 9, 8, 0, 0, 0, 0, 0, 0⟩,
   ⟨0x1090, 0x5, 0x5, 9, 8, 0, 0, 0, 0, 0, 0⟩,
   ⟨0x1090, 0x6, 0x6, 9, 8, 0, 0, 0, 0, 0, 0⟩,
   ⟨0x1090, 0x7, 0x7, 9, 8, 0, 0, 0, 0, 0, 0⟩,
   ⟨0x1090, 0x8, 0x8, 8, 4, 0, 0, 0, 0, 0, 0⟩,
   ⟨0x1090, 0x9, 0x9, 9, 8, 0, 0, 0, 0, 0, 0⟩,
   ⟨0x1090, 0x10, 0x10, 8, 4, 0, 1, 1, 0, 100000, 10000⟩,
   ⟨0x1090, 0x11, 0x11, 8, 4, 0, 0, 0, 0, 0, 10⟩,
   ⟨0x1800, 0x1, 0x1, 7, 2, 0, 0, 0, 0, 0, 0⟩,
   ⟨0x1800, 0x2, 0x2, 7, 2, 0, 0, 0, 0, 0, 65535⟩,
   ⟨0x1800, 0x3, 0x3, 7, 2, 0, 0, 0, 0, 0, 0⟩,
   ⟨0x1800, 0x4, 0x4, 7, 2, 0, 1, 1, 0, 0, 0⟩,
   ⟨0x1801, 0x1, 0x1, 9, 8, 0, 0, 0, 0, 0, 0⟩]

/-- Objects 0x1801 to 0x2022. -/
def objRows3 : List ObjRow :=
  [⟨0x1801, 0x2, 0x2, 9, 8, 0, 0, 0, 0, 0, 0⟩,
   ⟨0x1801, 0x3, 0x3, 8, 4, 0, 0, 0, 0, 0, 0⟩,
   ⟨0x1801, 0x4, 0x4, 8, 4, 0, 0, 0, 0, 0, 0⟩,
   ⟨0x1801, 0x5, 0x5, 8, 4, 0, 0, 0, 0, 0, 0⟩,
   ⟨0x1801, 0x6, 0x6, 8, 4, 0, 0, 0, 0, 0, 0⟩,
   ⟨0x1802, 0x1, 0x1, 8, 4, 0, 0, 0, 0, 0, 0⟩,
   ⟨0x1802, 0x2, 0x2, 8, 4, 0, 0, 0, 0, 0, 0⟩,
   ⟨0x1802, 0x3, 0x3, 8, 4, 0, 0, 0, 0, 0, 0⟩,
   ⟨0x1803, 0x1, 0x1, 7, 2, 0, 0, 0, 0, 0, 0⟩,
   ⟨0x1804, 0x1, 0x1, 9, 8, 0, 0, 0, 0, 0, 0⟩,
   ⟨0x1804, 0x2, 0x2, 9, 8, 0, 0, 0, 0, 0, 0⟩,
   ⟨0x1840, 0x1, 0x1, 6, 1, 0, 2, 1, 0, 0, 3⟩,
   ⟨0x1840, 0x2, 0x2, 17, 25, 0, 3, 0, 0, 0, 0⟩,
   ⟨0x1840, 0x3, 0x3, 17, 9, 4000, 3, 0, 0, 0, 0⟩,
   ⟨0x1840, 0x4, 0x4, 6, 1, 0, 3, 2, 1, 2, 0⟩,
   ⟨0x1840, 0x5, 0x5, 8, 4, 0, 0, 0, 0, 0, 0⟩,
   ⟨0x1840, 0x6, 0x6, 7, 2, 0, 0, 0, 0, 0, 0⟩,
   ⟨0x1840, 0x7, 0x7, 8, 4, 0, 0, 0, 0, 0, 0⟩,
   ⟨0x1840, 0x8, 0x8, 12, 8, 0, 0, 0, 0, 0, 0⟩,
   ⟨0x18C0, 0x1, 0x1, 17, 8, 0, 0, 0, 0, 0, 0⟩,
   ⟨0x18C0, 0x2, 0x2, 17, 16, 0, 0, 0, 0, 0, 0⟩,
   ⟨0x18C0, 0x3, 0x3, 9, 8, 0, 0, 0, 0, 0, 0⟩,
   ⟨0x18C0, 0x4, 0x4, 9, 8, 0, 0, 0, 0, 0, 0⟩,
   ⟨0x18C0, 0x5, 0x5, 8, 4, 0, 0, 0, 0, 0, 0⟩,
   ⟨0x18C0, 0x6, 0x6, 7, 2, 0, 0, 0, 0, 0, 0⟩,
   ⟨0x18C0, 0x7, 0x7, 6, 1, 0, 0, 0, 0, 0, 0⟩,
   ⟨0x18C1, 0x1, 0x1, 6, 1, 0, 1, 1, 0, 0, 4⟩,
   ⟨0x18C1, 0x2, 0x2, 6, 1, 0, 1, 1, 1, 255, 16⟩,
   ⟨0x18C1, 0x3, 0x3, 7, 2, 0, 1, 1, 1, 256, 16⟩,
   ⟨0x18C1, 0x81, 0x81, 6, 1, 0, 0, 0, 0, 0, 4⟩,
   ⟨0x18C2, 0x1, 0x1, 9, 8, 0, 0, 0, 0, 0, 0⟩,
   ⟨0x18C2, 0x2, 0x2, 9, 8, 0, 0, 0, 0, 0, 0⟩,
   ⟨0x18C2, 0x3, 0x3, 9, 8, 0, 0, 0, 0, 0, 0⟩,
   ⟨0x18C2, 0x4, 0x4, 8, 4, 0, 0, 0, 0, 0, 0⟩,
   ⟨0x18C2, 0x5, 0x5, 9, 8, 0, 0, 0, 0, 0, 0⟩,
   ⟨0x2010, 0x1, 0x1, 8, 4, 0, 1, 3, 2, 100, 10⟩,
   ⟨0x2010, 0x2, 0x2, 8, 4, 0, 0, 0, 0, 0, 3⟩,
   ⟨0x2010, 0x3, 0x3, 8, 4, 0, 0, 0, 0, 0, 8⟩,
   ⟨0x2011, 0x1, 0x1, 8, 4, 0, 1, 3, 0, 1000, 20⟩,
   ⟨0x2012, 0x1, 0x1, 1, 1, 0, 1, 3, 0, 1, 1⟩,
   ⟨0x2012, 0x2, 0x2, 8, 4, 0, 1, 3, 0, 1000000, 100⟩,
   ⟨0x2012, 0x3, 0x3, 6, 1, 0, 1, 1, 1, 15, 3⟩,
   ⟨0x2012, 0x4, 0x4, 9, 8, 0, 0, 0, 0, 0, 0⟩,
   ⟨0x2020, 0x1, 0x9, 17, 24, 0, 0, 0, 0, 0, 0⟩,
   ⟨0x2021, 0x1, 0x8, 17, 18, 0, 0, 0, 0, 0, 0⟩,
   ⟨0x2022, 0x1, 0x1, 7, 2, 0, 0, 0, 0, 0, 0⟩,
   ⟨0x2022, 0x2, 0x2, 8, 4, 0, 0, 0, 0, 0, 0⟩,
   ⟨0x2022, 0x3, 0x3, 8, 4, 0, 0, 0, 0, 0, 0⟩,
   ⟨0x2022, 0x4, 0x4, 9, 8, 0, 0, 0, 0, 0, 0⟩,
   ⟨0x2022, 0x5, 0x5, 9, 8, 0, 0, 0, 0, 0, 0⟩]

/-- Objects 0x2022 to 0x2802. -/
def objRows4 : List ObjRow :=
  [⟨0x2022, 0x6, 0x6, 7, 2, 0, 0, 0, 0, 0, 0⟩,
   ⟨0x2022, 0x7, 0x7, 9, 8, 0, 0, 0, 0, 0, 0⟩,
   ⟨0x2022, 0x8, 0x8, 7, 2, 0, 0, 0, 0, 0, 0⟩,
   ⟨0x2030, 0x1, 0x1, 8, 4, 0, 1, 0, 0, 8191, 0⟩,
   ⟨0x2030, 0x2, 0x2, 6, 1, 0, 1, 1, 0, 1, 0⟩,
   ⟨0x2030, 0x3, 0x3, 9, 8, 0, 2, 0, 0, 0, 0⟩,
   ⟨0x2030, 0x4, 0x4, 8, 4, 0, 2, 0, 65536, 1073741824, 1048576⟩,
   ⟨0x2030, 0x5, 0x5, 9, 8, 0, 0, 0, 0, 0, 0⟩,
   ⟨0x2030, 0x6, 0x6, 1, 1, 0, 1, 1, 0, 1, 0⟩,
   ⟨0x2080, 0x1, 0x1, 6, 1, 0, 1, 1, 0, 64, 16⟩,
   ⟨0x2080, 0x2, 0x2, 6, 1, 0, 1, 1, 0, 7, 2⟩,
   ⟨0x2080, 0x3, 0x3, 7, 2, 0, 1, 1, 256, 16384, 4096⟩,
   ⟨0x2080, 0x4, 0x4, 9, 8, 0, 0, 0, 0, 0, 0⟩,
   ⟨0x2080, 0x5, 0x5, 9, 8, 0, 0, 0, 0, 0, 0⟩,
   ⟨0x2080, 0x6, 0x6, 9, 8, 0, 0, 0, 0, 0, 0⟩,
   ⟨0x2080, 0x7, 0x7, 9, 8, 0, 0, 0, 0, 0, 0⟩,
   ⟨0x2080, 0x8, 0x8, 9, 8, 0, 0, 0, 0, 0, 0⟩,
   ⟨0x2080, 0x9, 0x9, 17, 23, 0, 0, 0, 0, 0, 0⟩,
   ⟨0x20A0, 0x1, 0x1, 9, 8, 0, 0, 0, 0, 0, 0⟩,
   ⟨0x20A0, 0x2, 0x2, 9, 8, 0, 0, 0, 0, 0, 0⟩,
   ⟨0x20A0, 0x3, 0x3, 9, 8, 0, 0, 0, 0, 0, 0⟩,
   ⟨0x20A0, 0x4, 0x4, 9, 8, 0, 0, 0, 0, 0, 0⟩,
   ⟨0x20A0, 0x5, 0x5, 9, 8, 0, 0, 0, 0, 0, 0⟩,
   ⟨0x20A0, 0x6, 0x6, 9, 8, 0, 0, 0, 0, 0, 0⟩,
   ⟨0x20A0, 0x7, 0x7, 9, 8, 0, 0, 0, 0, 0, 0⟩,
   ⟨0x20A0, 0x8, 0x8, 9, 8, 0, 0, 0, 0, 0, 0⟩,
   ⟨0x20A0, 0x9, 0x9, 8, 4, 0, 0, 0, 0, 0, 0⟩,
   ⟨0x20A1, 0x1, 0x1, 1, 1, 0, 1, 1, 0, 1, 1⟩,
   ⟨0x20A1, 0x2, 0x2, 1, 1, 0, 1, 1, 0, 1, 1⟩,
   ⟨0x20C0, 0x1, 0x1, 9, 8, 0, 0, 0, 0, 0, 0⟩,
   ⟨0x20C0, 0x2, 0x2, 9, 8, 0, 0, 0, 0, 0, 0⟩,
   ⟨0x20C0, 0x3, 0x3, 8, 4, 0, 0, 0, 0, 0, 0⟩,
   ⟨0x2100, 0x1, 0x1, 7, 2, 0, 0, 0, 0, 0, 0⟩,
   ⟨0x2100, 0x2, 0x2, 9, 8, 0, 0, 0, 0, 0, 0⟩,
   ⟨0x2100, 0x3, 0x3, 9, 8, 0, 0, 0, 0, 0, 0⟩,
   ⟨0x2100, 0x4, 0x4, 9, 8, 0, 0, 0, 0, 0, 0⟩,
   ⟨0x2100, 0x5, 0x5, 9, 8, 0, 0, 0, 0, 0, 0⟩,
   ⟨0x2100, 0x6, 0x6, 9, 8, 0, 0, 0, 0, 0, 0⟩,
   ⟨0x2100, 0x7, 0x7, 8, 4, 0, 0, 0, 0, 0, 0⟩,
   ⟨0x2110, 0x1, 0x40, 17, 33, 0, 0, 0, 0, 0, 0⟩,
   ⟨0x2800, 0x1, 0x1, 8, 4, 0, 0, 0, 0, 0, 0⟩,
   ⟨0x2800, 0x2, 0x2, 8, 4, 0, 0, 0, 0, 0, 0⟩,
   ⟨0x2801, 0x1, 0x1, 9, 8, 0, 0, 0, 0, 0, 0⟩,
   ⟨0x2801, 0x2, 0x2, 9, 8, 0, 0, 0, 0, 0, 0⟩,
   ⟨0x2801, 0x3, 0x3, 9, 8, 0, 0, 0, 0, 0, 0⟩,
   ⟨0x2801, 0x4, 0x4, 8, 4, 0, 0, 0, 0, 0, 0⟩,
   ⟨0x2801, 0x5, 0x5, 8, 4, 0, 0, 0, 0, 0, 0⟩,
   ⟨0x2801, 0x6, 0x6, 8, 4, 0, 0, 0, 0, 0, 0⟩,
   ⟨0x2801, 0x7, 0x7, 8, 4, 0, 0, 0, 0, 0, 0⟩,
   ⟨0x2802, 0x1, 0x1, 7, 2, 0, 1, 1, 1, 4095, 5⟩]

/-- Objects 0x2C00 to 0x3061. -/
def objRows5 : List ObjRow :=
  [⟨0x2C00, 0x1, 0x1, 6, 1, 0, 1, 1, 1, 8, 4⟩,
   ⟨0x2C00, 0x2, 0x2, 7, 2, 0, 1, 1, 1, 4095, 5⟩,
   ⟨0x2C01, 0x1, 0x1, 9, 8, 0, 0, 0, 0, 0, 0⟩,
   ⟨0x2C01, 0x2, 0x2, 9, 8, 0, 0, 0, 0, 0, 0⟩,
   ⟨0x2C01, 0x3, 0x3, 9, 8, 0, 0, 0, 0, 0, 0⟩,
   ⟨0x2C01, 0x4, 0x4, 9, 8, 0, 0, 0, 0, 0, 0⟩,
   ⟨0x2C01, 0x5, 0x5, 8, 4, 0, 0, 0, 0, 0, 0⟩,
   ⟨0x2C01, 0x6, 0x6, 8, 4, 0, 0, 0, 0, 0, 0⟩,
   ⟨0x2C01, 0x7, 0x7, 8, 4, 0, 0, 0, 0, 0, 0⟩,
   ⟨0x2C01, 0x8, 0x8, 17, 32, 0, 0, 0, 0, 0, 0⟩,
   ⟨0x2E00, 0x1, 0x1, 7, 2, 0, 0, 0, 0, 0, 0⟩,
   ⟨0x2E00, 0x2, 0x2, 9, 8, 0, 0, 0, 0, 0, 0⟩,
   ⟨0x2E00, 0x3, 0x3, 9, 8, 0, 0, 0, 0, 0, 0⟩,
   ⟨0x2E00, 0x4, 0x4, 8, 4, 0, 0, 0, 0, 0, 0⟩,
   ⟨0x2E00, 0x5, 0x5, 8, 4, 0, 0, 0, 0, 0, 0⟩,
   ⟨0x2E00, 0x6, 0x6, 8, 4, 0, 0, 0, 0, 0, 0⟩,
   ⟨0x2E00, 0x7, 0x7, 17, 19, 0, 0, 0, 0, 0, 0⟩,
   ⟨0x2E10, 0x1, 0x8, 17, 5, 32, 3, 1, 0, 0, 0⟩,
   ⟨0x2E11, 0x1, 0x8, 17, 16, 0, 0, 0, 0, 0, 0⟩,
   ⟨0x2E20, 0x1, 0x8, 17, 7, 384, 3, 3, 0, 0, 0⟩,
   ⟨0x2E21, 0x1, 0x8, 17, 3, 32, 0, 0, 0, 0, 0⟩,
   ⟨0x3000, 0x1, 0x4, 17, 18, 0, 0, 0, 0, 0, 0⟩,
   ⟨0x3001, 0x1, 0x4, 17, 28, 0, 0, 0, 0, 0, 0⟩,
   ⟨0x3002, 0x1, 0x1, 17, 20, 0, 0, 0, 0, 0, 0⟩,
   ⟨0x3003, 0x1, 0x1, 8, 4, 0, 1, 1, 0, 0, 0⟩,
   ⟨0x3010, 0x1, 0x1, 6, 1, 0, 1, 7, 0, 0, 0⟩,
   ⟨0x3010, 0x2, 0x2, 6, 1, 0, 1, 3, 0, 0, 255⟩,
   ⟨0x3011, 0x1, 0x4, 8, 4, 0, 1, 1, 50, 64000, 50000⟩,
   ⟨0x3012, 0x1, 0x1, 8, 4, 0, 1, 1, 100, 600000, 5000⟩,
   ⟨0x3013, 0x1, 0x4, 1, 1, 0, 1, 1, 0, 1, 1⟩,
   ⟨0x3020, 0x1, 0x4, 17, 5, 0, 3, 0, 0, 0, 0⟩,
   ⟨0x3040, 0x1, 0x1, 8, 4, 0, 1, 1, 10, 10000, 200⟩,
   ⟨0x3040, 0x2, 0x2, 8, 4, 0, 0, 0, 0, 0, 20⟩,
   ⟨0x3040, 0x3, 0x3, 8, 4, 0, 0, 0, 0, 0, 2000⟩,
   ⟨0x3040, 0x4, 0x4, 7, 2, 0, 0, 0, 0, 0, 1⟩,
   ⟨0x3050, 0x1, 0x1, 9, 8, 0, 0, 0, 0, 0, 0⟩,
   ⟨0x3050, 0x2, 0x2, 8, 4, 0, 1, 1, 256, 65536, 4096⟩,
   ⟨0x3050, 0x3, 0x3, 8, 4, 0, 0, 0, 0, 0, 0⟩,
   ⟨0x3050, 0x4, 0x4, 8, 4, 0, 0, 0, 0, 0, 4294967040⟩,
   ⟨0x3060, 0x1, 0x1, 6, 1, 0, 1, 1, 0, 63, 48⟩,
   ⟨0x3060, 0x2, 0x2, 9, 8, 0, 1, 1, 0, 281474976710655, 0⟩,
   ⟨0x3060, 0x3, 0x3, 7, 2, 0, 1, 1, 1, 65534, 1⟩,
   ⟨0x3060, 0x4, 0x4, 8, 4, 0, 1, 1, 100, 1000000, 10000⟩,
   ⟨0x3061, 0x1, 0x1, 9, 8, 0, 0, 0, 0, 0, 0⟩,
   ⟨0x3061, 0x2, 0x2, 8, 4, 0, 0, 0, 0, 0, 0⟩,
   ⟨0x3061, 0x3, 0x3, 8, 4, 0, 0, 0, 0, 0, 0⟩,
   ⟨0x3061, 0x4, 0x4, 8, 4, 0, 0, 0, 0, 0, 0⟩,
   ⟨0x3061, 0x5, 0x5, 8, 4, 0, 0, 0, 0, 0, 0⟩,
   ⟨0x3061, 0x6, 0x6, 8, 4, 0, 0, 0, 0, 0, 0⟩,
   ⟨0x3061, 0x7, 0x7, 8, 4, 0, 0, 0, 0, 0, 0⟩]

/-- Objects 0x3061 to 0x3811. -/
def objRows6 : List ObjRow :=
  [⟨0x3061, 0x8, 0x8, 8, 4, 0, 0, 0, 0, 0, 0⟩,
   ⟨0x3140, 0x1, 0x1, 1, 1, 0, 1, 1, 0, 1, 0⟩,
   ⟨0x3140, 0x2, 0x2, 6, 1, 0, 2, 1, 0, 2, 0⟩,
   ⟨0x3140, 0x3, 0x3, 6, 1, 0, 1, 1, 0, 2, 1⟩,
   ⟨0x3140, 0x4, 0x4, 7, 2, 0, 1, 1, 64, 2044, 2044⟩,
   ⟨0x3140, 0x5, 0x5, 7, 2, 0, 2, 1, 16, 1024, 64⟩,
   ⟨0x3140, 0x6, 0x6, 17, 32, 0, 1, 1, 0, 0, 0⟩,
   ⟨0x3140, 0x7, 0x7, 1, 1, 0, 0, 0, 0, 1, 0⟩,
   ⟨0x3148, 0x1, 0x1, 9, 8, 0, 0, 0, 0, 0, 0⟩,
   ⟨0x3148, 0x2, 0x2, 8, 4, 0, 0, 0, 0, 0, 0⟩,
   ⟨0x3148, 0x3, 0x3, 8, 4, 0, 0, 0, 0, 0, 0⟩,
   ⟨0x3148, 0x4, 0x4, 8, 4, 0, 0, 0, 0, 0, 0⟩,
   ⟨0x3148, 0x5, 0x5, 8, 4, 0, 0, 0, 0, 0, 0⟩,
   ⟨0x3148, 0x6, 0x6, 9, 8, 0, 0, 0, 0, 0, 0⟩,
   ⟨0x3148, 0x7, 0x7, 9, 8, 0, 0, 0, 0, 0, 0⟩,
   ⟨0x3148, 0x8, 0x8, 8, 4, 0, 0, 0, 0, 0, 0⟩,
   ⟨0x3148, 0x9, 0x9, 8, 4, 0, 0, 0, 0, 0, 0⟩,
   ⟨0x3148, 0xA, 0xA, 9, 8, 0, 0, 0, 0, 0, 0⟩,
   ⟨0x3148, 0xB, 0xB, 8, 4, 0, 0, 0, 0, 0, 0⟩,
   ⟨0x3148, 0xC, 0xC, 9, 8, 0, 0, 0, 0, 0, 0⟩,
   ⟨0x3148, 0xD, 0xD, 9, 8, 0, 0, 0, 0, 0, 0⟩,
   ⟨0x3148, 0xE, 0xE, 6, 1, 0, 0, 0, 0, 0, 0⟩,
   ⟨0x3148, 0xF, 0xF, 8, 4, 0, 0, 0, 0, 0, 0⟩,
   ⟨0x3148, 0x10, 0x10, 8, 4, 0, 0, 0, 0, 0, 0⟩,
   ⟨0x3150, 0x1, 0x1, 1, 1, 0, 1, 1, 0, 1, 0⟩,
   ⟨0x3150, 0x2, 0x2, 1, 1, 0, 2, 1, 0, 1, 1⟩,
   ⟨0x3150, 0x3, 0x3, 6, 1, 0, 2, 1, 0, 0, 255⟩,
   ⟨0x3150, 0x4, 0x4, 6, 1, 0, 2, 1, 1, 255, 8⟩,
   ⟨0x3150, 0x5, 0x5, 6, 1, 0, 2, 1, 0, 0, 32⟩,
   ⟨0x3150, 0x6, 0x6, 6, 1, 0, 2, 1, 0, 0, 0⟩,
   ⟨0x3150, 0x7, 0x7, 6, 1, 0, 2, 1, 0, 0, 128⟩,
   ⟨0x3158, 0x1, 0x1, 9, 8, 0, 0, 0, 0, 0, 0⟩,
   ⟨0x3158, 0x2, 0x2, 9, 8, 0, 0, 0, 0, 0, 0⟩,
   ⟨0x3158, 0x3, 0x3, 8, 4, 0, 0, 0, 0, 0, 0⟩,
   ⟨0x3158, 0x4, 0x4, 8, 4, 0, 0, 0, 0, 0, 0⟩,
   ⟨0x3158, 0x5, 0x5, 6, 1, 0, 0, 0, 0, 0, 0⟩,
   ⟨0x3801, 0x1, 0x1, 6, 1, 0, 1, 6, 1, 2, 1⟩,
   ⟨0x3801, 0x2, 0x2, 8, 4, 0, 0, 0, 0, 0, 0⟩,
   ⟨0x3801, 0x3, 0x3, 17, 29, 0, 0, 0, 0, 0, 0⟩,
   ⟨0x3802, 0x1, 0x1, 8, 4, 0, 1, 1, 1000, 3600000, 10000⟩,
   ⟨0x3802, 0x2, 0x2, 12, 8, 0, 1, 6, 0, 0, 0⟩,
   ⟨0x3802, 0x3, 0x3, 6, 1, 0, 0, 0, 0, 0, 0⟩,
   ⟨0x3803, 0x1, 0x2, 6, 1, 0, 0, 0, 0, 0, 0⟩,
   ⟨0x3803, 0x3, 0x3, 6, 1, 0, 1, 1, 1, 15, 3⟩,
   ⟨0x3810, 0x1, 0x1, 9, 8, 0, 0, 0, 0, 0, 0⟩,
   ⟨0x3810, 0x2, 0x2, 8, 4, 0, 0, 0, 0, 0, 0⟩,
   ⟨0x3810, 0x3, 0x3, 8, 4, 0, 0, 0, 0, 0, 0⟩,
   ⟨0x3810, 0x4, 0x4, 8, 4, 0, 0, 0, 0, 0, 0⟩,
   ⟨0x3811, 0x1, 0x1, 7, 2, 0, 1, 1, 2048, 16384, 4096⟩,
   ⟨0x3811, 0x2, 0x2, 7, 2, 0, 0, 0, 0, 0, 0⟩]

/-- Objects 0x3820 to 0x4010. -/
def objRows7 : List ObjRow :=
  [⟨0x3820, 0x1, 0x1, 17, 39, 0, 0, 0, 0, 0, 0⟩,
   ⟨0x3821, 0x1, 0x1, 7, 2, 0, 0, 0, 0, 0, 2⟩,
   ⟨0x3821, 0x2, 0x2, 7, 2, 0, 3, 0, 0, 0, 0⟩,
   ⟨0x3821, 0x3, 0x3, 7, 2, 0, 1, 1, 0, 0, 0⟩,
   ⟨0x3C00, 0x1, 0x1, 8, 4, 0, 0, 0, 0, 0, 0⟩,
   ⟨0x3C00, 0x2, 0x2, 8, 4, 0, 0, 0, 0, 0, 0⟩,
   ⟨0x3C00, 0x3, 0x3, 8, 4, 0, 0, 0, 0, 0, 0⟩,
   ⟨0x3C00, 0x4, 0x4, 8, 4, 0, 0, 0, 0, 0, 0⟩,
   ⟨0x3C01, 0x1, 0x10, 16, 0, 64, 0, 0, 0, 0, 0⟩,
   ⟨0x3C02, 0x1, 0x1, 17, 20, 0, 0, 0, 0, 0, 0⟩,
   ⟨0x3C10, 0x1, 0x1, 6, 1, 0, 0, 0, 0, 0, 0⟩,
   ⟨0x3C10, 0x2, 0x2, 8, 4, 0, 0, 0, 0, 0, 0⟩,
   ⟨0x3C11, 0x1, 0x1, 17, 2, 0, 3, 0, 0, 0, 0⟩,
   ⟨0x3C11, 0x2, 0x2, 17, 23, 0, 0, 0, 0, 0, 0⟩,
   ⟨0x3C20, 0x1, 0x1, 7, 2, 0, 1, 1, 0, 0, 0⟩,
   ⟨0x3C20, 0x2, 0x2, 6, 1, 0, 1, 1, 0, 4, 0⟩,
   ⟨0x3C20, 0x3, 0x3, 17, 16, 0, 0, 0, 0, 0, 0⟩,
   ⟨0x3C20, 0x4, 0x4, 1, 1, 0, 3, 0, 0, 1, 0⟩,
   ⟨0x3C30, 0x1, 0x1, 17, 28, 0, 0, 0, 0, 0, 0⟩,
   ⟨0x3C30, 0x2, 0x2, 1, 1, 0, 3, 0, 0, 1, 0⟩,
   ⟨0x4000, 0x1, 0x1, 6, 1, 0, 0, 0, 0, 0, 0⟩,
   ⟨0x4000, 0x2, 0x2, 17, 2, 0, 0, 0, 0, 0, 255⟩,
   ⟨0x4000, 0x3, 0x3, 17, 4, 0, 3, 0, 0, 0, 0⟩,
   ⟨0x4000, 0x4, 0x4, 16, 0, 320, 2, 0, 0, 0, 0⟩,
   ⟨0x4000, 0x5, 0x5, 8, 4, 0, 0, 0, 0, 0, 0⟩,
   ⟨0x4001, 0x1, 0x1, 6, 1, 0, 1, 3, 1, 255, 255⟩,
   ⟨0x4001, 0x2, 0x2, 6, 1, 0, 1, 3, 0, 7, 0⟩,
   ⟨0x4001, 0x3, 0x3, 6, 1, 0, 1, 3, 1, 64, 16⟩,
   ⟨0x4001, 0x4, 0x4, 6, 1, 0, 1, 3, 0, 8, 2⟩,
   ⟨0x4001, 0x5, 0x5, 6, 1, 0, 1, 3, 0, 8, 1⟩,
   ⟨0x4001, 0x6, 0x6, 6, 1, 0, 1, 3, 0, 4, 1⟩,
   ⟨0x4001, 0x7, 0x7, 6, 1, 0, 1, 3, 0, 8, 2⟩,
   ⟨0x4001, 0x8, 0x8, 7, 2, 0, 1, 3, 1, 256, 256⟩,
   ⟨0x4001, 0x9, 0x9, 8, 4, 0, 1, 3, 1, 65536, 1024⟩,
   ⟨0x4001, 0xA, 0xA, 8, 4, 0, 1, 3, 1, 2048, 64⟩,
   ⟨0x4001, 0xB, 0xB, 6, 1, 0, 1, 3, 0, 64, 8⟩,
   ⟨0x4001, 0xC, 0xC, 7, 2, 0, 1, 3, 0, 16384, 1024⟩,
   ⟨0x4001, 0xD, 0xD, 6, 1, 0, 1, 3, 1, 8, 2⟩,
   ⟨0x4001, 0xE, 0xE, 7, 2, 0, 1, 3, 1, 256, 16⟩,
   ⟨0x4001, 0xF, 0xF, 1, 1, 0, 1, 3, 0, 1, 0⟩,
   ⟨0x4002, 0x1, 0x1, 9, 8, 0, 0, 0, 0, 0, 0⟩,
   ⟨0x4002, 0x2, 0x2, 8, 4, 0, 0, 0, 0, 0, 0⟩,
   ⟨0x4002, 0x3, 0x3, 8, 4, 0, 0, 0, 0, 0, 0⟩,
   ⟨0x4002, 0x4, 0x4, 9, 8, 0, 0, 0, 0, 0, 0⟩,
   ⟨0x4003, 0x1, 0x1, 17, 4, 416, 3, 0, 0, 0, 0⟩,
   ⟨0x4003, 0x2, 0x2, 17, 20, 512, 0, 0, 0, 0, 0⟩,
   ⟨0x4003, 0x3, 0x3, 1, 1, 0, 3, 0, 0, 1, 0⟩,
   ⟨0x4003, 0x4, 0x4, 17, 10, 0, 0, 0, 0, 0, 0⟩,
   ⟨0x4010, 0x1, 0x1, 8, 4, 0, 1, 9, 1, 60000, 10⟩,
   ⟨0x4010, 0x2, 0x2, 8, 4, 0, 1, 9, 10, 3600000, 1000⟩]

/-- Objects 0x4010 to 0x4010. -/
def objRows8 : List ObjRow :=
  [⟨0x4010, 0x3, 0x3, 6, 1, 0, 1, 9, 0, 2, 2⟩,
   ⟨0x4010, 0x4, 0x4, 6, 1, 0, 0, 0, 0, 0, 0⟩,
   ⟨0x4010, 0x5, 0x5, 9, 8, 0, 0, 0, 0, 0, 0⟩,
   ⟨0x4010, 0x6, 0x6, 8, 4, 0, 0, 0, 0, 0, 0⟩,
   ⟨0x4010, 0x7, 0x7, 8, 4, 0, 0, 0, 0, 0, 0⟩,
   ⟨0x4010, 0x8, 0x8, 7, 2, 0, 0, 0, 0, 0, 0⟩,
   ⟨0x4010, 0x9, 0x9, 8, 4, 0, 0, 0, 0, 0, 0⟩]

/-- Every object. -/
def objRows : List ObjRow :=
  objRows0 ++ objRows1 ++ objRows2 ++ objRows3 ++ objRows4 ++ objRows5 ++ objRows6 ++ objRows7 ++ objRows8

end Sys2Proof.Machine
end

