-- ==== Sys2Proof/Machine/ObjRead.lean ====
section
/-! DEFINITION. The values the RO objects of the dictionary read (R66, R114, R152, R190, R214, R260, R291, R321, R402, R433, R453,
R472, R488, R515, R540, R559, R589, R616, R641, R658, R676, R691). -/

namespace Sys2Proof.Machine

/-- A mask with a bit for each number of a range that satisfies a condition. -/
def maskOf (n : Nat) (p : Nat → Bool) : Nat := ((List.range n).map fun k => if p k then 2 ^ k else 0).sum

/-- An error record's 64 bytes (R662). -/
def ErrRec.bytes (r : ErrRec) : Bytes :=
  r.stamp.bytes ++ toLE 2 r.code ++ toLE 1 r.severity.code ++ toLE 1 r.scope ++ toLE 2 r.scopeId ++ toLE 1 r.inst ++ toLE 1 r.event
    ++ toLE 2 (match r.planSlot with | some p => p % 4096 + 0x8000 | none => 0) ++ toLE 6 r.address ++ toLE 8 r.detail0
    ++ toLE 8 r.detail1 ++ toLE 4 r.count ++ zeros 4 ++ toLE 3 r.causeSeq ++ toLE 1 r.causeSrc ++ zeros 4

/-- Fabric clocks that an engine's current job has run for (R472). -/
def YelmSt.busySince (y : YelmSt) (now : Nat) (n : Fin 4) : Nat := ((y.jobs[n]).map fun j => (now - j.since) * 8 / 5).getD 0

/-- PORT_STATUS.SPEED of a link's speed code. -/
def speedGts : Nat → Nat
  | 1 => Config.gen1Speed | 2 => 5 | 3 => 8 | 4 => 16 | 5 => 32 | _ => 0

/-- Segments of every table. -/
def State.segCount (s : State) (st : SegState) : Nat := (s.tables.tables.map fun p => p.2.segs.countP (·.state == st)).sum

/-- Chapters 02 to 04. -/
def State.readBase (s : State) (key : Nat) : Option Bytes :=
  let t := s.time
  match key with
  | 0x040181 => some (toLE 4 t.period)
  | 0x040182 => some (toLE 4 t.phase)
  | 0x040183 => some (toLE 1 t.edgeMode.toNat)
  | 0x041001 => some (toLE 1 t.state.code)
  | 0x041002 => some (toLE 8 (unsignedOf 64 t.offset))
  | 0x041003 => some (toLE 8 (s.estError.getD (2 ^ 64 - 1)))
  | 0x041004 => some (toLE 1 s.tq8)
  | 0x041005 => some (toLE 8 t.gmIdentity)
  | 0x041006 => some (toLE 4 (t.linkDelay.getD 0))
  | 0x041007 => some (toLE 8 t.lastChange)
  | 0x041101 => some (toLE 8 t.ts)
  | 0x041102 => some (toLE 4 t.raft)
  | 0x041103 => some (toLE 8 (mmOf t.dist))
  | 0x041104 => some (toLE 8 (mmOf t.rev))
  | 0x041105 => some (toLE 1 t.tickNow)
  | 0x041301 => some (toLE 8 t.tsReserve)
  | 0x041302 => some (toLE 8 t.distReserve)
  | 0x041303 => some (toLE 8 t.revReserve)
  | 0x108001 => some (toLE 2 s.tables.tables.length)
  | 0x108002 => some (toLE 4 (s.segCount .opened))
  | 0x108003 => some (toLE 4 (s.segCount .sealed))
  | 0x108004 => some (toLE 4 (s.segCount .kept))
  | 0x108005 => some (toLE 8 (s.tables.tables.map fun p => p.2.stored).sum)
  | 0x109001 => some (toLE 4 s.heldRows)
  | 0x109011 => some (toLE 4 (s.dupHorizon / 1000000))
  | 0x184005 => some (toLE 4 s.ingest.mapNow.number)
  | 0x184006 => some (toLE 2 s.ingest.mapNow.entries.length)
  | 0x184007 => some (toLE 4 s.ingest.mapNow.progBytes)
  | 0x184008 => some (toLE 8 s.ingest.mapNow.since)
  | _ => none

/-- LAST_REFUSAL, banks, queries (chapters 05 to 08). -/
def State.readWork (s : State) (key : Nat) : Option Bytes :=
  match key with
  | 0x208009 => s.plans.lastRefusal.map fun x => x.1.bytes ++ toLE 2 x.2.1 ++ toLE 1 x.2.2.1 ++ toLE 4 x.2.2.2
  | 0x18C001 => some (s.purlin.banks.toList.flatMap fun b => toLE 1 (if b.bistFail then 0xFF else b.role.code))
  | 0x18C002 => some (s.purlin.banks.toList.flatMap fun b => toLE 2 b.entries.length)
  | 0x18C007 => some (toLE 1 (maskOf 8 fun k => (s.purlin.banks[Fin.ofNat 8 k]).bistFail))
  | 0x18C181 => some (toLE 1 s.purlin.dictBanksNow)
  | 0x210001 => some (toLE 2 s.batten.queries.length)
  | _ => none

/-- DUE of the delay entry of a query. -/
def State.nextDue (s : State) (cq : Nat) : Nat :=
  match (s.batten.timeList ++ s.batten.distList).find? fun p => p.2.kind == 0 && p.2.owner == cq with
  | some p => p.2.due
  | none => 0

/-- The QUERY record of a CQ_ID (R291). -/
def State.queryRecord (s : State) (cq : Nat) : Bytes :=
  match s.query cq with
  | none => toLE 1 0xFF ++ zeros 32
  | some q => toLE 1 q.inst ++ toLE 1 q.domain ++ toLE 1 q.shape ++ toLE 8 (s.nextDue cq) ++ toLE 8 q.lastWindow
      ++ toLE 4 q.nFirings ++ toLE 4 q.nAmends ++ toLE 4 q.nSkipped ++ toLE 1 q.firings.length

/-- A bundle no unfenced course may run (R320). -/
def State.unrunnable (s : State) (d : BDesc) : Bool :=
  (coursesIn d.courses).all fun c => !s.courseUp c || (List.finRange 8).all fun p => (s.batten.tiles[tileOf c p]).state == .fenced

/-- Busy fabric clocks of a course up to now (R318). -/
def State.courseBusyNow (s : State) (c : CourseId) : Nat :=
  (s.batten.courseStats[c]).busy + ((List.finRange 8).map fun p =>
    let y := s.batten.tiles[tileOf c p]
    if y.state.busy then (s.time.ts - y.changed) * 8 / 5 else 0).sum

/-- Chapters 09 and 12: fixed subindices, then the records by list and by course. -/
def State.readBatten (s : State) (index sub : Nat) : Option Bytes :=
  let b := s.batten
  let lines := s.thatch.slices.toList.flatMap fun x => x.lines.map (·.2)
  match index * 256 + sub with
  | 0x201002 => some (toLE 4 3)
  | 0x201003 => some (toLE 4 8)
  | 0x201204 => some (toLE 8 (maskOf 64 fun k => (b.tiles[Fin.ofNat 64 k]).state == .fenced))
  | 0x202201 => some (toLE 2 s.heldDescs)
  | 0x202206 => some (toLE 2 (b.timeList.length + b.distList.length))
  | 0x202208 => some (toLE 2 (b.ready.countP fun r => s.unrunnable r.desc))
  | 0x180001 => some (toLE 2 (maskOf 16 fun k => (s.thatch.slices[Fin.ofNat 16 k]).enabled))
  | 0x180002 => some (toLE 2 (maskOf 16 fun k => (s.thatch.slices[Fin.ofNat 16 k]).powered))
  | 0x180003 => some (toLE 2 (maskOf 16 fun k => (s.thatch.slices[Fin.ofNat 16 k]).fused))
  | 0x180201 => some (toLE 4 (lines.countP fun x => x.locked && !x.aperture))
  | 0x180202 => some (toLE 4 (lines.countP (·.aperture)))
  | 0x180301 => some (toLE 2 (s.thatch.regions.countP (·.2.valid)))
  | _ =>
    if index == 0x2020 then
      let x := b.lists[Fin.ofNat 9 (sub - 1)]
      some (toLE 2 (s.listDepth (sub - 1)) ++ toLE 2 x.depthMax ++ toLE 4 x.waitMax ++ toLE 8 x.waitSum ++ toLE 8 x.dispatches)
    else if index == 0x2021 then
      let c : CourseId := Fin.ofNat 8 (sub - 1)
      let x := b.courseStats[c]
      some (toLE 1 x.loadLast ++ toLE 1 x.loadMax ++ toLE 8 (s.courseBusyNow c) ++ toLE 4 x.preemptions ++ toLE 4 x.timeoutResets)
    else if index == 0x2110 then some (s.queryRecord (sub - 1))
    else none

/-- Chapters 13 to 16. -/
def State.readDevices (s : State) (key : Nat) : Option Bytes :=
  let d := s.dram
  match key with
  | 0x101201 => some (d.train.toList.flatMap (toLE 1))
  | 0x101202 => some (toLE 2 d.dataRate)
  | 0x101406 => some ((List.range 16).flatMap fun k => toLE 2 (ngetZ d.ecs k))
  | 0x101601 => some (toLE 8 d.managed)
  | 0x101602 => some (toLE 1 d.slots)
  | 0x102006 => some (toLE 1 d.keepValid.toNat)
  | 0x102007 => some (toLE 8 d.keepEntered)
  | 0x102008 => some (toLE 8 s.keepBytes)
  | 0x102009 => some (toLE 8 s.keepUsed)
  | 0x103102 => some (toLE 1 d.mig.state ++ toLE 1 d.mig.fromRank ++ toLE 1 d.mig.toRank ++ toLE 4 d.mig.units
      ++ toLE 4 (if d.mig.state == 0 then 0 else d.unitsTotal) ++ toLE 8 d.migStarted)
  | 0x103103 => some (toLE 2 d.ranksOut)
  | 0x280001 => some (toLE 4 (maskOf 32 fun k => (s.gutter.chans[Fin.ofNat 32 k]).use != .free))
  | 0x280002 => some (toLE 4 (maskOf 32 fun k => (s.gutter.chans[Fin.ofNat 32 k]).busy))
  | 0x2C0108 => some ((List.range 4).flatMap fun k => toLE 8 (s.ro 0x2C01 (0xF0 + k) + s.yelm.busySince s.time.ts (Fin.ofNat 4 k)))
  | 0x2E0001 => some (toLE 2 s.flash.inUse)
  | 0x2E0007 => s.flash.lastClear.map fun x => x.1.bytes ++ toLE 1 x.2.1 ++ toLE 2 x.2.2
  | _ => none

/-- Chapters 17, 18 and 20, outside the area of an instance. [log 123 DESIGN CHOICE] -/
def State.readHost (s : State) (index sub unit : Nat) : Option Bytes :=
  let h := s.host.ports[Fin.ofNat 4 (sub - 1)]
  let k := s.dict.slots[Fin.ofNat 8 (sub - 1)]
  match index with
  | 0x3000 => some (toLE 1 h.linkUp.toNat ++ toLE 1 (if h.linkUp then speedGts h.speed else 0) ++ toLE 1 (if h.linkUp then h.width else 0)
      ++ toLE 1 h.state.code ++ toLE 1 h.cause ++ toLE 4 h.freezeSeq ++ toLE 8 h.frozenAt.ts ++ toLE 1 (if h.vfEnable then h.numVfs else 0))
  | 0x3001 => some (toLE 4 h.counters.correctable ++ toLE 4 h.counters.uncorrectable ++ toLE 4 h.counters.timeouts
      ++ toLE 4 h.counters.late ++ toLE 4 h.counters.unexpected ++ toLE 4 h.counters.freezes ++ toLE 4 h.counters.releaseRefused)
  | 0x3002 => s.host.lateLog.map fun x => x.1.bytes ++ toLE 1 x.2.1 ++ toLE 2 x.2.2.1 ++ toLE 1 x.2.2.2
  | 0x3050 =>
    match sub with
    | 1 => some (toLE 8 (maskOf 64 fun k => (s.insts[Fin.ofNat 64 k]).state != .free))
    | 3 => some (toLE 4 s.resultAllotted)
    | 4 => some (toLE 4 (s.poolChans.map fun c => 2 ^ c.val).sum)
    | _ => none
  | 0x2E11 => some (toLE 1 (!k.key.isEmpty).toNat ++ toLE 2 k.node ++ toLE 1 k.rights ++ toLE 8 k.lastTs ++ toLE 4 k.accepted)
  | 0x3140 => if sub == 7 then some (toLE 1 (s.ingest.eave[Fin.ofNat 4 unit]).linkUp.toNat) else none
  | 0x3158 =>
    let cfg := fun (k dflt : Nat) => s.cfg (0x3150 + unit) k dflt
    let sends := cfg 1 0 == 1 && cfg 2 1 == 1 && cfg 3 255 == 0
    if sub == 5 then some (toLE 1 (sends || s.dict.plcaActive[Fin.ofNat 2 unit]).toNat) else none
  | _ => none

/-- CONTEXT of an instance (R547); all zero before it was first bound. [log 252 DEDUCED] -/
def State.savedContext (s : State) (i : InstId) : Bytes :=
  let x := s.insts[i]
  let was := x.prevFunc.isSome || x.ctx != .reset
  x.ctx.context was.toNat (if was then x.queued else 0) (if was then s.instPowerWord i else 0) (ngetZ s.time.seqs i.val)

/-- The objects of an instance (chapters 18 and 19). -/
def State.readInst (s : State) (index sub : Nat) (i : InstId) : Option Bytes :=
  let x := s.insts[i]
  match index * 256 + sub with
  | 0x400001 => some (toLE 1 x.state.code)
  | 0x400002 => some (match x.func with
      | some f => toLE 1 (funcPort f).val ++ toLE 1 (funcIndex f)
      | none => [0xFF, 0xFF])
  | 0x400004 => some (s.savedContext i)
  | 0x400005 => some (toLE 4 (ngetZ s.time.seqs i.val))
  | 0x400201 => some (toLE 8 (s.instStored i.val))
  | 0x400202 => some (toLE 4 ((x.resets.filter (·.held)).map (·.bytes)).sum)
  | 0x400203 => some (toLE 4 x.chanMask)
  | 0x400204 => some (toLE 8 x.energyTotal)
  | 0x400302 => some (match x.inbox.head? with
      | some m => m.stamp.bytes ++ toLE 2 m.kind ++ toLE 2 m.body.length ++ m.body
      | none => zeros 20)
  | 0x400304 => some (toLE 1 x.inbox.length ++ toLE 1 x.outbox.length ++ toLE 4 x.mbDropped ++ toLE 4 x.noticesLost)
  | 0x401004 => some (toLE 1 x.power)
  | 0x401005 => some (toLE 8 x.commands)
  | 0x401006 => some (toLE 4 x.goIgnored)
  | 0x401007 => some (toLE 4 x.writesDiscarded)
  | 0x401008 => some (toLE 2 x.records.length)
  | 0x401009 => some (toLE 4 x.cancelled)
  | _ => none

/-- A firmware slot as VERSIONS shows it. -/
def FwSlot.shown (x : FwSlot) : Bytes :=
  if x.image.isEmpty then toLE 1 x.state ++ zeros 5 else toLE 1 x.state ++ toLE 4 (fwVersion x.image) ++ toLE 1 (fwSvn x.image)

/-- FW_STATUS: the kind, whether it is open, staged or activating, the bytes staged and the last code (R641). -/
def BootSt.fwStatus (b : BootSt) : Bytes :=
  let k := b.lastKind
  let st :=
    if b.activating.any (·.1 == k) then 3
    else if (k == 1 || k == 2) && b.staged k then 1
    else if (k == 1 || k == 2) && (b.slots[b.unused k]).state == 2 then 2 else 0
  toLE 1 k ++ toLE 1 st ++ toLE 4 b.stagedBytes ++ toLE 2 b.lastCode

/-- Chapters 21, 22 and 25. -/
def State.readControl (s : State) (index sub : Nat) : Option Bytes :=
  let x := s.finial
  let b := s.boot
  match index * 256 + sub with
  | 0x380101 => some (toLE 1 x.holder)
  | 0x380102 => some (toLE 4 x.tokenSeq)
  | 0x380103 => x.lastTakeover.map fun k => k.stamp.bytes ++ toLE 1 k.fromRidge ++ toLE 1 k.toRidge ++ toLE 1 k.cause ++ toLE 4 k.raft
      ++ toLE 2 k.entries ++ toLE 4 k.durationNs
  | 0x380203 => some (toLE 1 x.ret.code)
  | 0x380301 => some (toLE 1 (x.ridges[0]).state.code)
  | 0x380302 => some (toLE 1 (x.ridges[1]).state.code)
  | 0x381001 => some (toLE 8 x.ckptAcked)
  | 0x381002 => some (toLE 4 x.ckptMax)
  | 0x381003 => some (toLE 4 x.deferrals)
  | 0x381004 => some (toLE 4 x.heartbeatsMissed)
  | 0x381102 => some (toLE 2 x.journalMax)
  | 0x382101 => some (toLE 2 x.alert)
  | 0x010001 => some (toLE 8 b.fuses.serial)
  | 0x010002 => some (toLE 1 0xA0)
  | 0x010003 => some (toLE 1 b.fuses.grade)
  | 0x010101 => some (toLE 4 b.romVersion)
  | 0x010102 => some (b.slots.toList.flatMap FwSlot.shown)
  | 0x010103 => some (toLE 1 b.fuses.ridgeSvn ++ toLE 1 b.fuses.tileSvn)
  | 0x010201 => some (toLE 1 b.fuses.revoked ++ toLE 2 128 ++ b.fuses.keyHash.toList.flatMap (padTo 32))
  | 0x011001 => some b.identityPublic
  | 0x012002 => some b.report
  | 0x012003 => some (b.ms.toList.flatMap (padTo 32))
  | 0x020001 => some b.shadow
  | 0x021004 => some b.fwStatus
  | 0x013001 => some (toLE 1 b.straps)
  | 0x013002 => some (b.rails.toList.flatMap (toLE 2))
  | 0x013003 => some (b.railAlarms.toList.flatMap (toLE 4))
  | 0x013004 => some (toLE 4 b.brownouts)
  | 0x013005 => some (toLE 4 b.rstIgnored)
  | 0x013006 => some (toLE 4 b.tamperEvents)
  | _ =>
    if index == 0x0201 then some (b.steps[Fin.ofNat 13 (sub - 1)]).bytes
    else if index == 0x2E21 then
      let k := b.planKeys[Fin.ofNat 8 (sub - 1)]
      some (toLE 1 k.state ++ toLE 2 32 ++ k.hash)
    else none

/-- DEGRADED_CAUSES (R676). [log 151 DEDUCED] -/
def State.degraded (s : State) : Nat :=
  let p := s.power
  maskOf 12 fun k => match k with
    | 0 => s.batten.tiles.toList.any (·.faultFenced)
    | 1 => s.boot.coursesOff != 0 || s.boot.coursesFenced != 0
    | 2 => s.thatch.slices.toList.any fun x => x.fused || !x.enabled
    | 3 => s.purlin.banks.toList.any (·.bistFail)
    | 4 => s.dram.train.toList.any (· != 0)
    | 5 => s.dram.ranksOut != 0
    | 6 => s.dram.spare.isNone
    | 7 => (List.finRange 4).any fun (h : PortId) => (s.host.ports[h]).state != .running || !(s.host.ports[h]).enable
    | 8 => bitAt s.finial.alert 1
    | 9 => s.boot.eaveOff
    | 10 => (p.trips[1]).set || p.capUnmet
    | 11 => !s.time.locked
    | _ => false

/-- Chapters 23 and 24. -/
def State.readPower (s : State) (index sub : Nat) : Option Bytes :=
  let p := s.power
  let e := s.err
  let e' := s.countPowered.err
  match index * 256 + sub with
  | 0x082101 => some (toLE 4 (p.now * 10))
  | 0x082102 => some (toLE 4 p.maxMw)
  | 0x082103 => some (toLE 4 p.capEvents)
  | 0x082104 => some (toLE 4 p.capUnmetEvents)
  | 0x083002 => some (p.trips.toList.flatMap fun t => toLE 4 t.count)
  | 0x083003 => some (toLE 2 (unsignedOf 16 (p.tempMax / 16)))
  | 0x084001 => some (p.energy.toList.flatMap (toLE 8))
  | 0x084002 => some (toLE 8 p.unattributed)
  | 0x084101 => some (toLE 1 s.powerState)
  | 0x3C0001 => some (toLE 4 e.head)
  | 0x3C0002 => some (toLE 4 e.copied)
  | 0x3C0003 => some (toLE 4 e.dropped)
  | 0x3C0004 => some (toLE 4 e.merged)
  | 0x3C0201 => some (e.sevCounts.toList.flatMap (toLE 4))
  | 0x3C1001 => some (toLE 1 (if s.inOutage then 2 else if s.degraded != 0 then 1 else 0))
  | 0x3C1002 => some (toLE 4 s.degraded)
  | 0x3C1102 => e.selfTest.map fun x => x.stamp.bytes ++ toLE 1 x.target ++ toLE 1 x.index ++ toLE 1 x.outcome ++ toLE 4 x.durationUs
  | 0x3C2003 => e.traceStopped.map Stamp.bytes
  | 0x3C3001 => some (toLE 8 e'.poweredUs ++ toLE 8 e.outageUs ++ toLE 4 e.outages
      ++ toLE 4 (if e'.poweredUs == 0 then 0 else 1000000000 * e.outageUs / e'.poweredUs) ++ toLE 4 e.gaps)
  | _ =>
    if index == 0x0811 then
      let c := p.courses[Fin.ofNat 8 (sub - 1)]
      some (toLE 1 c.effective ++ toLE 2 c.mhz ++ toLE 2 c.ceiling ++ toLE 2 (unsignedOf 16 ((p.temps[Fin.ofNat 16 (sub - 1)]) / 16)))
    else if index == 0x3C01 then some ((e.ring.reverse[sub - 1]?.map ErrRec.bytes).getD [])
    else none

/-! Names, rows and values. -/

/-- The index under which the tables list an object, and the instance, port or block of 64 queries it belongs to (R563). -/
def objBase (index : Nat) : Nat × Nat :=
  if 0x4000 ≤ index && index < 0x8000 then (0x4000 + index % 256, (index - 0x4000) / 256)
  else if 0x2110 ≤ index && index ≤ 0x2113 then (0x2110, index - 0x2110)
  else if 0x3140 ≤ index && index ≤ 0x3143 then (0x3140, index - 0x3140)
  else if 0x3148 ≤ index && index ≤ 0x314B then (0x3148, index - 0x3148)
  else if 0x3150 ≤ index && index ≤ 0x3151 then (0x3150, index - 0x3150)
  else if 0x3158 ≤ index && index ≤ 0x3159 then (0x3158, index - 0x3158)
  else (index, 0)

/-- The row of an object; subindex 0 is an RO U8 of every index in use (R560). [log 148 DEDUCED] -/
def objRow (key : Nat) : Option ObjRow :=
  let b := (objBase (key / 256)).1
  let sub := key % 256
  if sub == 0 then
    let l := objRows.filter (·.index == b)
    if l.isEmpty then none else some ⟨b, 0, 0, 6, 1, 0, 0, 0, 0, 0, (l.map (·.last)).foldl max 0⟩
  else objRows.find? fun r => r.index == b && r.first ≤ sub && sub ≤ r.last

/-- Default bytes of an object: its default number, or zeros; empty for a BLOB. -/
def ObjRow.defaultBytes (r : ObjRow) : Bytes :=
  if r.type == 16 then [] else if r.index == 0x0202 && r.first == 1 then List.replicate 13 3
  else if r.type == 17 then zeros r.len else toLE r.len r.default

/-- The value in force of an object, as a READ returns it (R561, R569). [log 142 DEDUCED] -/
def State.objRead (s : State) (key : Nat) (r : ObjRow) : Bytes :=
  let index := key / 256
  let sub := key % 256
  let (b, unit) := objBase index
  if sub == 0 then toLE 1 r.default else
  match nget s.dict.vals key with
  | some v =>
    match (if b == 0x3801 && sub == 1 then s.readControl b sub else none) with
    | some w => w
    | none => v
  | none =>
    let derived :=
      if 0x4000 ≤ index && index < 0x8000 then s.readInst b sub (Fin.ofNat 64 unit)
      else if b == 0x2110 then some (s.queryRecord (64 * unit + (sub - 1)))
      else if index < 0x0400 || (0x2E20 ≤ index && index < 0x3000) || (0x3800 ≤ index && index < 0x3C00) then s.readControl b sub
      else if (0x0800 ≤ index && index < 0x1000) || 0x3C00 ≤ index then s.readPower b sub
      else if (0x1010 ≤ index && index < 0x1080) || (0x2800 ≤ index && index < 0x2E10) then s.readDevices key
      else if 0x2E10 ≤ index && index < 0x3800 then s.readHost b sub unit
      else if (0x1800 ≤ index && index < 0x1840) || (0x2010 ≤ index && index < 0x2080) then s.readBatten b sub
      else match s.readBase key with
        | some v => some v
        | none => s.readWork key
    match derived with
    | some v => v
    | none =>
      if key == 0x306002 then toLE 8 s.macAddress
      else if r.access == 0 && r.type != 17 && r.type != 16 && nget s.dict.ro key != none then toLE r.len (ngetZ s.dict.ro key)
      else r.defaultBytes

/-- What a read clears (R152, R291, R321, R658). [log 150 DEDUCED] -/
def State.readClears (s : State) (key : Nat) : State :=
  let b := (objBase (key / 256)).1
  if b == 0x3148 && key % 256 == 0x0E then s.setRo (key / 256) 0x0E 0
  else if key == 0x210007 then s.setRo 0x2100 7 0
  else if b == 0x2020 && key % 256 != 0 then s.modList (key % 256 - 1) fun x => { x with depthMax := 0, waitMax := 0 }
  else if key == 0x082102 then s.modPower fun p => { p with maxMw := 0 }
  else if key == 0x083003 then s.modPower fun p => { p with tempMax := p.temps.toList.foldl max (p.temps[0]) }
  else s

/-- The 8 bytes of an INFO (R577). -/
def ObjRow.info (r : ObjRow) : Bytes :=
  let owner := if r.access == 0 then 0 else if bitAt r.marks 3 then 2 else 1
  let size := if r.type == 14 then 64 else r.len + r.blob
  toLE 8 (r.type + r.access * 2 ^ 8 + r.marks % 8 * 2 ^ 10 + owner * 2 ^ 16 + size * 2 ^ 32)

end Sys2Proof.Machine
end

