-- ==== Sys2Proof/Machine/Dict.lean ====
section
/-! DEFINITION. Dictionary writes (R564 to R574): sources, owners, the checks at receipt, standstill, what a write to each object
does, and the arbitration of staged and safety writes. -/

namespace Sys2Proof.Machine

/-! Sources and owners. -/

/-- The source of an access through a function's window (R564); none for a VF with no bound instance. [log 145 DEDUCED] -/
def State.sourceOf (s : State) (f : FuncId) : Option Source :=
  if funcIndex f == 0 then some (.host (funcPort f)) else (s.host.funcs[f]).inst.map Source.inst

/-- Two accesses come from one source: a key slot is one source whatever port its messages arrive on (R564, R570). [log 145 DEDUCED] -/
def Source.same (a b : Source) : Bool :=
  match a, b with
  | .plyn j _, .plyn k _ => j == k
  | _, _ => a == b

/-- A source is a manager (R509, R515, R565). -/
def State.isManager (s : State) (src : Source) : Bool :=
  match src with
  | .host h => s.managerPort == some h
  | .inst _ => false
  | .plyn slot _ => bitAt (s.dict.slots[slot]).rights 1

/-- A source is an instance, or the PF of the port that holds its bound function (R565). -/
def State.ofInst (s : State) (src : Source) (i : InstId) : Bool :=
  match src with
  | .inst j => i == j
  | .host h => (s.insts[i]).func.any fun f => funcPort f == h
  | .plyn _ _ => false

/-- The instance whose area an object lies in (R563). -/
def areaInst (key : Nat) : Option InstId :=
  let index := key / 256
  if 0x4000 ≤ index && index < 0x8000 then some (Fin.ofNat 64 ((index - 0x4000) / 256)) else none

/-- A source may read an object (R565). -/
def State.mayRead (s : State) (src : Source) (key : Nat) : Bool :=
  match areaInst key with
  | none => true
  | some i => s.isManager src || s.ofInst src i

/-- A source may write an object (R565, R566). -/
def State.mayWrite (s : State) (src : Source) (key : Nat) (r : ObjRow) : Bool :=
  match areaInst key with
  | some i => if bitAt r.marks 3 then s.ofInst src i else s.isManager src
  | none => s.isManager src

/-! The checks at receipt (R567). -/

/-- Length of a value (R561, R562); nonces, extensions and contexts have one length. -/
def ObjRow.lengthOk (r : ObjRow) (v : Bytes) : Bool :=
  if r.type == 16 then
    if r.index == 0x0120 then v.length == 32 else if r.index == 0x4000 then v.length == 320 else v.length ≤ r.blob
  else if r.type == 17 then
    if r.blob == 0 then v.length == r.len
    else
      let declared := fieldAt (r.len - 2) 2 v
      r.len ≤ v.length && v.length == r.len + declared && declared ≤ r.blob
  else if r.type == 14 then v.length ≤ 64
  else v.length == r.len

/-- k of a tick exponent leaves at least 2 µs of a period (R52). -/
def tickFits (period k : Nat) : Bool := 2000 * 2 ^ k ≤ period

/-- Tick exponents a period must fit: the one in force and any staged (R52). -/
def State.tickExps (s : State) : List Nat :=
  s.time.tickExp :: (s.dict.staged.filter (·.key == 0x040104)).map fun w => leNat w.value

/-- Whether a number is a power of two. -/
def powerOfTwo (n : Nat) : Bool := n != 0 && n &&& (n - 1) == 0

/-- Check 5 of R567: a range that the object's row gives as two bounds, or one its chapter states. [log 147 DEDUCED] -/
def State.valueOk (s : State) (key : Nat) (r : ObjRow) (v : Bytes) : Bool :=
  let n := leNat v
  let base := r.index * 256 + key % 256
  let b := fun (off : Nat) => fieldAt off 1 v
  (r.hi == 0 || (r.lo ≤ n && n ≤ r.hi)) &&
  match base with
  | 0x040101 => n % 1000 == 0 && s.cfg 0x0401 2 0 < n && s.tickExps.all (tickFits n)
  | 0x040102 => n < s.cfg 0x0401 1 1000000
  | 0x040104 => tickFits s.time.period n && tickFits (s.cfg 0x0401 1 1000000) n
  | 0x184001 => n &&& s.cfg 0x18C1 1 4 == 0 && n &&& s.purlin.dictBanksNow == 0
  | 0x18C101 => n &&& s.cfg 0x1840 1 3 == 0
  | 0x184002 => b 2 ≤ 7 && b 24 ≤ 1 && fieldAt 20 4 v < 2 ^ 14
  | 0x184003 => b 6 ≤ 1
  | 0x101302 => n < s.cfg 0x1013 1 48
  | 0x101304 => 100 ≤ n
  | 0x301001 => n ≤ 3 || n == 0xFF
  | 0x301002 => n ≤ 3 || n == 0xFF
  | 0x020201 => v.all fun x => 1 ≤ x.toNat && x.toNat ≤ 15
  | 0x380202 => n ≤ s.time.ts + 3600 * 1000000000
  | 0x203003 => n % 4096 == 0
  | 0x203004 => powerOfTwo n
  | 0x400003 => 1 ≤ b 0 && b 0 ≤ 7 && b 3 < 4
  | 0x400301 => 0x0100 ≤ fieldAt 0 2 v
  | 0x021001 => 1 ≤ b 0 && b 0 ≤ 3 && 1 ≤ b 1 && b 1 ≤ 2
  | 0x021002 => 1 ≤ b 0 && b 0 ≤ 2
  | _ =>
    if r.index == 0x3020 then 1 ≤ b 0 && b 0 ≤ 2
    else if r.index == 0x2E10 then b 2 < 4 && fieldAt 3 2 v == 32
    else if r.index == 0x1010 then b 0 ≤ 1
    else true

/-- The first check a write fails (R567). -/
def State.submitCode (s : State) (src : Source) (key type : Nat) (v : Bytes) : Option Nat :=
  match objRow key with
  | none => some stBadArgument
  | some r =>
    if r.access == 0 then some stBadArgument
    else if !s.mayWrite src key r then some stNotOwner
    else if type != r.type || !r.lengthOk v then some stBadArgument
    else if !s.valueOk key r v then some stBadArgument
    else none

/-- The unit an RWS object governs stands still (R12). -/
def State.standstill (s : State) (key : Nat) : Bool :=
  let (b, unit) := objBase (key / 256)
  if b == 0x3140 || b == 0x3150 then !s.cfgBool (key / 256) 1 false
  else if b == 0x1840 then (List.range 4).all fun p => !s.cfgBool (0x3140 + p) 1 false
  else if b == 0x2030 then s.cfg 0x2030 1 0 == 0
  else if b == 0x4000 then (s.insts[Fin.ofNat 64 unit]).state == .unbound
  else true

/-! What a write to each object does. -/

/-- A value comes into force. -/
def State.setVal (s : State) (key : Nat) (v : Bytes) : State := s.modDict fun d => { d with vals := nput d.vals key v }

/-- Every memory controller changed. -/
def State.allChans (s : State) (f : MemChan → MemChan) : State := s.modDram fun d => { d with chans := d.chans.map f }

/-- A Plyn key slot is set or emptied (R584): its last accepted TS64 becomes 0, an assembly through it is discarded and counted
(R587), and MS5 follows (R636). -/
def State.setPlynKey (s : State) (slot : Fin 8) (v : Bytes) : State :=
  let rights := fieldAt 2 1 v
  let old := s.dict.slots[slot]
  let new : PlynSlot :=
    { key := if rights == 0 then [] else (v.drop 5).take 32, node := fieldAt 0 2 v, rights := rights, lastTs := 0, accepted := old.accepted,
      assembly := none, peer := old.peer }
  let s := if old.assembly.isSome then s.bump 0x3061 4 1 else s
  (s.modDict fun d => { d with slots := d.slots.set slot new }).extendMs5

/-- MAP_BANKS in force: banks that leave it are free, and those in it hold the generation in force (R231). -/
def State.remapBanks (s : State) : State :=
  let map := s.cfg 0x1840 1 3
  ((List.finRange 8).foldl (fun s b =>
    if (s.purlin.banks[b]).role == .mapRole && !bitAt map b.val then s.setBank b .free 0 false 0xFF else s) s).loadMapBanks

/-- A scalar object whose value other units hold as well: the copy follows. -/
def State.mirrorVal (s : State) (base sub n : Nat) : State :=
  match base * 256 + sub with
  | 0x040104 => s.modTime fun t => { t with tickExp := n }
  | 0x040201 => s.enterSource n
  | 0x184001 => s.remapBanks
  | 0x208001 => s.cacheTrim n
  | 0x101301 => s.allChans fun c => { c with wmHigh := n }
  | 0x101302 => s.allChans fun c => { c with wmLow := n }
  | 0x101303 => s.allChans fun c => { c with pageIdle := n }
  | 0x101304 => s.allChans fun c => { c with readAge := min 400 n }
  | 0x101501 => s.allChans fun c => { c with rhThreshold := n }
  | 0x101502 => s.allChans fun c => { c with rhRate := n }
  | 0x103101 => s.modDram fun d => { d with migRate := n }
  | 0x201001 => s.modBatten fun b => { b with preemptUs := n }
  | 0x201101 => s.modBatten fun b => { b with affinityUs := n }
  | 0x201201 => s.modBatten fun b => { b with prioPreempt := n == 1 }
  | 0x201202 => s.modBatten fun b => { b with preemptAfterUs := n }
  | 0x203003 => s.modBatten fun b => { b with traceRegs := { b.traceRegs with base := n } }
  | 0x203004 => s.modBatten fun b => { b with traceRegs := { b.traceRegs with size := n } }
  | 0x2C0002 => s.modYelm fun y => { y with poll := n }
  | 0x301001 => s.extendMs5
  | 0x380201 => s.setHoldoff n
  | 0x380202 => s.modFinial fun x => { x with notBefore := n }
  | 0x382103 => s.modFinial fun x => { x with alertMask := n &&& 0xFF13 }
  | 0x082001 => s.modPower fun p => { p with capW := n }
  | _ => if base == 0x0810 then s.assignPitch (Fin.ofNat 8 (sub - 1)) n else s

/-- A command object that takes a BOOL: FALSE does nothing. -/
def whenTrue (v : Bytes) (s t : State) : Nat × State := (stOk, if leNat v == 1 then t else s)

/-- The command objects of chapters 04, 13, 17, 19 and 20 to 24, and the objects with rules of their own; none where the handler
completes the write later. [log 149 DEDUCED] -/
def State.objCommand (s : State) (w : DictWrite) (r : ObjRow) (boundary : Nat) : Option Nat × State :=
  let v := w.value
  let n := leNat v
  let sub := w.key % 256
  let (_, unit) := objBase (w.key / 256)
  let i : InstId := Fin.ofNat 64 unit
  let b := fun (off len : Nat) => fieldAt off len v
  let done := fun (x : Nat × State) => (some x.1, x.2)
  match r.index * 256 + sub with
  | 0x184002 => (some stOk, s.shadowEntry (b 0 2) (b 2 1) (b 3 1) (b 4 8) (b 12 8) (b 20 4) (b 24 1 == 1))
  | 0x184003 => done (s.shadowChunk (b 0 2) (b 2 4) (b 6 1 == 1) (v.drop 9))
  | 0x184004 =>
    let (st, t) := s.mapCommit n boundary
    (some st, if st == stOk && n == 1 then t.loadMapBanks else t)
  | 0x101203 => done (whenTrue v s (s.modDram fun d => { d with trainReset := true }))
  | 0x102003 => done (whenTrue v s s.keepEntry)
  | 0x400003 =>
    let (st, t) := s.control i (b 0 1) (b 1 1) (b 2 1) (b 3 1)
    (some st, t)
  | 0x400004 =>
    let x := s.insts[i]
    (some stOk, s.modInst i fun y => { y with ctx := x.ctx.written v })
  | 0x400301 => done (s.mailSend i w.stamp (b 0 2) (v.drop 4))
  | 0x400303 => done (whenTrue v s (s.mailTaken i))
  | 0x010202 => done (s.keyRevoke n)
  | 0x010203 => done (s.rollbackCommit n)
  | 0x012001 => (none, s.attestNonce w)
  | 0x012004 => done (s.measureExtend v)
  | 0x020202 => done (whenTrue v s s.askStepReset)
  | 0x021001 => done (match b 0 1 with
      | 1 => s.fwBegin (b 1 1)
      | 2 => s.fwEnd (b 1 1)
      | _ => s.fwAbandon (b 1 1))
  | 0x021002 => done (s.fwChunk (b 0 1) (b 1 4) (v.drop 7))
  | 0x021003 => done (if n == 1 || n == 2 then s.fwActivate n else (stBadArgument, s))
  | 0x380101 => (none, s.requestRidge n w)
  | 0x382102 => (some stOk, s.alertW1C n)
  | 0x3C1101 => done (s.selfTestStart (b 0 1) (b 1 1))
  | 0x3C2004 => done (whenTrue v s s.traceRearm)
  | 0x3C3002 => done (whenTrue v s s.availReset)
  | _ =>
    if r.index == 0x3020 then done (s.freezeAction (Fin.ofNat 4 (sub - 1)) (b 0 1) (b 1 4))
    else if r.index == 0x2E10 then (some stOk, s.setPlynKey (Fin.ofNat 8 (sub - 1)) v)
    else if r.index == 0x2E20 then done (s.planKeyWrite (Fin.ofNat 8 (sub - 1)) (b 0 1) (b 1 4) (v.drop 7))
    else if r.index == 0x4001 then done (s.applyQuota i sub v)
    else (some stOk, (s.setVal w.key v).mirrorVal r.index sub n)

/-- A write is applied (R568, R569): RWS is checked, the object acts, and the write ends or waits for its commit. [log 146 DEDUCED] -/
def State.applyWrite (s : State) (w : DictWrite) (r : ObjRow) (boundary : Nat) : State :=
  if r.access == 2 && !s.standstill w.key then s.finishWrite w stWrongState 0 else
  match s.objCommand w r boundary with
  | (some st, t) => t.writeApplied w (bitAt r.marks 0) st
  | (none, t) => t

/-- A write received from a source: its journal entry, the checks, and its application or its place among the staged writes
(R567 to R571, R574). -/
def State.dictSubmit (s : State) (w : DictWrite) (type : Nat) : State :=
  let control := (objBase (w.key / 256)).1 == 0x4000 && w.key % 256 == 3
  let s := s.journal (if control then 4 else 3) w.stamp w.key
  match s.submitCode w.source w.key type w.value, objRow w.key with
  | some code, _ => s.finishWrite w code 0
  | none, none => s
  | none, some r =>
    if bitAt r.marks 1 then
      s.modDict fun d =>
        { d with staged := d.staged ++ [w], finialCopy := if bitAt r.marks 2 then d.finialCopy ++ [w] else d.finialCopy }
    else s.applyWrite w r s.time.ts

/-! Arbitration at a boundary (R569 to R571). -/

/-- The last write of each source, latest stamp wins. [log 145 DEDUCED] -/
def lastOfSources (l : List DictWrite) : List DictWrite :=
  l.filter fun w => !l.any fun x => x.source.same w.source && w.stamp.lt x.stamp

/-- The value the last writes of the sources agree on; none where they contradict each other (R570). -/
def agreed (l : List DictWrite) : Option Bytes :=
  match lastOfSources l with
  | [] => none
  | w :: r => if r.all (·.value == w.value) then some w.value else none

/-- One safety object at the end of a cycle: the Finial's decision over its own copy governs (R570, R571, R612). -/
def State.arbitrateSafety (s : State) (r : ObjRow) (l copy : List DictWrite) (boundary : Nat) : State :=
  if s.finial.fault then l.foldl (fun s w => s.finishWrite w stConflict 0) s else
  let last := lastOfSources l
  let early := l.filter fun w => !last.contains w
  let s := early.foldl (fun s w => s.finishWrite w stSuperseded 0) s
  let s := if agreed l == agreed copy then s else
    (s.bump 0x3061 8 1).raise srcFinial { ErrRec.blank with severity := .contained, scope := 11, event := 12, detail0 := r.index }
  match agreed copy, last with
  | none, _ => last.foldl (fun s w => s.finishWrite w stConflict 0) s
  | some _, [] => s
  | some v, w :: rest =>
    let s := s.applyWrite { w with value := v } r boundary
    rest.foldl (fun s x => s.writeApplied x (bitAt r.marks 0) stOk) s

/-- One object without the safety mark: only the last write is applied (R569). -/
def State.arbitratePlain (s : State) (r : ObjRow) (l : List DictWrite) (boundary : Nat) : State :=
  match (sortBy (fun (a b : DictWrite) => a.stamp.lt b.stamp) l).reverse with
  | [] => s
  | w :: early => (early.reverse.foldl (fun s x => s.finishWrite x stSuperseded 0) s).applyWrite w r boundary

/-- The staged writes of one cycle, object by object in the order of the last write to each. -/
def State.applyCycle (s : State) (l copy : List DictWrite) (boundary : Nat) : State :=
  let l := sortBy (fun (a b : DictWrite) => a.stamp.lt b.stamp) l
  let keys := (l.reverse.map (·.key)).eraseDups.reverse
  keys.foldl (fun s k =>
    match objRow k with
    | none => s
    | some r =>
      let mine := l.filter (·.key == k)
      if bitAt r.marks 2 then s.arbitrateSafety r mine (copy.filter (·.key == k)) boundary
      else s.arbitratePlain r mine boundary) s

/-- Every staged write received before a boundary is arbitrated, cycle by cycle (R569, R574). -/
def State.applyStaged (s : State) (boundary : Nat) : State :=
  let early := fun (w : DictWrite) => decide (w.stamp.ts < boundary)
  let due := s.dict.staged.filter early
  let copy := s.dict.finialCopy.filter early
  let s := s.modDict fun d => { d with staged := d.staged.filter (!early ·), finialCopy := d.finialCopy.filter (!early ·) }
  let cycles := (due.map (·.cycle)).eraseDups
  cycles.foldl (fun s c => s.applyCycle (due.filter (·.cycle == c)) (copy.filter (·.cycle == c)) boundary) s

/-! Commits (R572). -/

/-- The value a commit stores: a key slot's own state for the key objects, else the value written. -/
def State.commitValue (s : State) (w : DictWrite) : Bytes :=
  if w.key / 256 == 0x2E20 then
    let k := s.boot.planKeys[Fin.ofNat 8 (w.key % 256 - 1)]
    toLE 1 k.state ++ k.modulus
  else if w.key / 256 == 0x2E10 && fieldAt 2 1 w.value == 0 then w.value.take 5 ++ zeros 32
  else w.value

/-- The oldest applied write is committed and completes; a table's descriptor has no completion of its own. [log 153 DEDUCED] -/
def State.commitOne (s : State) : State :=
  match s.dict.commits with
  | [] => s
  | w :: rest =>
    let s := s.modDict fun d => { d with commits := rest }
    if 2 ^ 24 ≤ w.key then
      s.storeWrite w.key (if w.value.isEmpty then none else some w.value)
    else
      let v := s.commitValue w
      (s.storeWrite w.key (some v)).finishWrite w stOk w.applied

/-- Every pending commit is made, in order. -/
def State.commitAll (s : State) : State := s.dict.commits.foldl (fun s _ => s.commitOne) s

/-- A value is committed to the persistent store (R572, R586); the standby store takes nothing while the part is off. -/
def execPersistentCommit (s : State) : Res := .next (if s.ridgeActs then s.commitOne else s)

end Sys2Proof.Machine
end

