-- ==== Sys2Proof/Machine/DictCmds.lean ====
section
/-! DEFINITION. The dictionary window of BAR0 (R575 to R577), Plyn requests, fragments and replies (R581 to R583), the field ports
(R585), and the command objects with rows of their own. -/

namespace Sys2Proof.Machine

/-! The window. -/

/-- A window changed. -/
def State.modWindow (s : State) (f : FuncId) (g : DWindow → DWindow) : State :=
  s.modDict fun d => { d with windows := d.windows.set f (g (d.windows[f])) }

/-- OP of DW_REQ. -/
def DWindow.op (x : DWindow) : Nat := bitsOf x.req 25 24
/-- INDEX and SUB as one key. -/
def DWindow.key (x : DWindow) : Nat := objKey (bitsOf x.req 15 0) (bitsOf x.req 23 16)
/-- Reserved bits of DW_REQ are zero (R10). -/
def DWindow.reservedOk (x : DWindow) : Bool := bitsOf x.req 31 26 == 0 && bitsOf x.req 47 40 == 0 && bitsOf x.req 63 61 == 0

/-- What a READ of an object by a source answers (R565, R567, R12): a status, the type and the value. -/
def State.readObj (s : State) (src : Source) (key : Nat) : Nat × Option (Nat × Bytes) :=
  match objRow key with
  | none => (stBadArgument, none)
  | some r =>
    if r.access == 3 then (stBadArgument, none)
    else if !s.mayRead src key then (stNotOwner, none)
    else (stOk, some (r.type, s.objRead key r))

/-- The active Ridge serves a window's request (R575 to R577). [log 143 DEDUCED] -/
def State.serveWindow (s : State) (f : FuncId) : State :=
  let x := s.dict.windows[f]
  let lenField := bitsOf x.req 60 48
  let type := bitsOf x.req 39 32
  match s.sourceOf f with
  | none => s.windowEnd f x.stamp stWrongState none
  | some src =>
    let value := padTo (min lenField 4096) x.data
    let w : DictWrite :=
      { stamp := x.stamp, source := src, key := x.key, value := value, node := 0, cycle := s.time.raft + 1, reply := .window f, applied := 0 }
    if !x.reservedOk || x.op == 0 || 4096 < lenField || (x.op != 2 && (type != 0 || lenField != 0)) then
      if x.op == 2 then (s.journal 3 w.stamp w.key).finishWrite w stBadArgument 0 else s.windowEnd f x.stamp stBadArgument none
    else if x.op == 2 then s.dictSubmit w type
    else if x.op == 1 then
      match s.readObj src x.key with
      | (st, some d) => (s.windowEnd f x.stamp st (some d)).readClears x.key
      | (st, none) => s.windowEnd f x.stamp st none
    else
      match objRow x.key with
      | some r => s.windowEnd f x.stamp stOk (some (9, r.info))
      | none => s.windowEnd f x.stamp stBadArgument none

/-- DW_GO written 1 (R575, R576): ignored and counted while BUSY; a VF with no bound instance has no source (R564); input is
deferred while the active Ridge takes none (R599). -/
def State.dwGo (s : State) (f : FuncId) : State :=
  if (s.dict.windows[f]).busy then s.bump 0x3061 5 1 else
  match s.sourceOf f with
  | none => s.modWindow f fun x => { x with status := stWrongState, length := 0, type := 0 }
  | some src =>
    let (st, s) := s.stamp src.src8
    let s := s.modWindow f fun x => { x with busy := true, stamp := st }
    if s.ridgeTakes then s.serveWindow f
    else (s.modDict fun d => { d with deferred := d.deferred ++ [f] }).noteDeferral

/-- Deferred window requests are taken, oldest first, once the Ridge takes input again (R599). [log 152 DEDUCED] -/
def State.takeDeferred (s : State) : State :=
  s.dict.deferred.foldl (fun s f =>
    if !s.ridgeTakes then s else
    let s := s.modDict fun d => { d with deferred := d.deferred.filter (· != f) }
    if (s.dict.windows[f]).busy then s.serveWindow f else s) s

/-- DW_GO written with OP READ in DW_REQ. -/
def execDwRead (func : FuncId) (s : State) : Res := .next (if (s.dict.windows[func]).op == 1 then s.dwGo func else s)

/-- DW_GO written with OP WRITE in DW_REQ. -/
def execDwWrite (func : FuncId) (s : State) : Res := .next (if (s.dict.windows[func]).op == 2 then s.dwGo func else s)

/-- DW_GO written with OP INFO in DW_REQ. -/
def execDwInfo (func : FuncId) (s : State) : Res := .next (if (s.dict.windows[func]).op == 3 then s.dwGo func else s)

/-- A register of the window as it reads (R575). -/
def State.dwRead (s : State) (f : FuncId) (off : Nat) : Nat :=
  let x := s.dict.windows[f]
  if off == 0x8000 then x.req
  else if off == 0x8010 then x.busy.toNat + x.status * 2 ^ 16 + x.length * 2 ^ 32 + x.type * 2 ^ 48
  else if off == 0x8020 then leNat (x.stamp.bytes.take 8)
  else if off == 0x8028 then leNat (x.stamp.bytes.drop 8)
  else if 0x9000 ≤ off && off < 0xA000 then fieldAt (off - 0x9000) 8 (padTo 4096 x.data)
  else 0

/-- DW_REQ written; discarded while BUSY (R576). [log 142 DEDUCED] -/
def State.dwReq (s : State) (f : FuncId) (v : Nat) : State :=
  s.modWindow f fun x => if x.busy then x else { x with req := v % 2 ^ 64 }

/-- Bytes of DW_DATA written; discarded while BUSY. -/
def State.dwData (s : State) (f : FuncId) (off : Nat) (bytes : Bytes) : State :=
  s.modWindow f fun x => if x.busy then x else { x with data := (overlay x.data off bytes).take 4096 }

/-! Plyn requests (R579 to R583). -/

/-- Fields of a Plyn header. -/
def PlynIn.kind (p : PlynIn) : Nat := fieldAt 1 1 p.bytes
/-- The sender's NODE. -/
def PlynIn.node (p : PlynIn) : Nat := fieldAt 4 2 p.bytes
/-- The sender's TS64. -/
def PlynIn.ts (p : PlynIn) : Nat := fieldAt 8 8 p.bytes
/-- XID. -/
def PlynIn.xid (p : PlynIn) : Nat := fieldAt 16 4 p.bytes
/-- INDEX and SUB as one key. -/
def PlynIn.key' (p : PlynIn) : Nat := objKey (fieldAt 20 2 p.bytes) (fieldAt 22 1 p.bytes)
/-- TYPE. -/
def PlynIn.type (p : PlynIn) : Nat := fieldAt 23 1 p.bytes
/-- OFFSET. -/
def PlynIn.offset (p : PlynIn) : Nat := fieldAt 24 2 p.bytes
/-- LENGTH. -/
def PlynIn.length (p : PlynIn) : Nat := fieldAt 26 2 p.bytes
/-- TOTAL. -/
def PlynIn.total (p : PlynIn) : Nat := fieldAt 28 2 p.bytes
/-- LAST. -/
def PlynIn.last (p : PlynIn) : Bool := bitAt (fieldAt 3 1 p.bytes) 0
/-- Reserved bits, and the fields KIND leaves unused, are zero (step 3 of R581). -/
def PlynIn.reservedOk (p : PlynIn) : Bool :=
  fieldAt 3 1 p.bytes < 2 && fieldAt 30 2 p.bytes == 0
    && (p.kind == 2 || (p.type == 0 && p.offset == 0 && p.total == 0 && p.length == 0))

/-- The source of a Plyn request (R564). -/
def PlynIn.source (p : PlynIn) : Source := .plyn p.slot (plynSrc p.peer.port)

/-- A reply to a request, with one value. -/
def PlynIn.reply (p : PlynIn) (status type offset total : Nat) (last : Bool) (value : Bytes) : PlynReply :=
  { peer := p.peer, slot := p.slot, node := p.node, xid := p.xid, kind := p.kind + 0x80, key := p.key', type := type, offset := offset,
    total := total, last := last, status := status, value := value, signKey := p.key }

/-- A request answered with a status alone. [log 144 DEDUCED] -/
def State.plynStatus (s : State) (p : PlynIn) (status : Nat) : State := s.plynReply (p.reply status 0 0 0 true [])

/-- The replies of a READ: fragments of 1,408 bytes of one snapshot (R582). -/
def PlynIn.fragments (p : PlynIn) (type : Nat) (v : Bytes) : List PlynReply :=
  let n := max 1 (ceilDiv v.length 1408)
  (List.range n).map fun k => p.reply stOk type (1408 * k) v.length (k + 1 == n) (sliceB (1408 * k) 1408 v)

/-- Freshness (step 2 of R581): the state with the slot's last accepted TS64 where it passes. -/
def State.plynFresh (s : State) (p : PlynIn) : Option State :=
  let k := s.dict.slots[p.slot]
  let now := s.time.ts
  let near := bitAt s.tq8 1 || (max now p.ts - min now p.ts ≤ 1000 * s.cfg 0x3060 4 10000)
  if p.ts ≤ k.lastTs || !near then none
  else some ((s.modDict fun d => { d with slots := d.slots.set p.slot { k with lastTs := p.ts, accepted := k.accepted + 1, peer := p.peer } }).bump 0x3061 1 1)

/-- A write received whole through Plyn, stamped now (R582, R567). -/
def State.plynSubmit (s : State) (p : PlynIn) (value : Bytes) : State :=
  let (st, s) := s.stamp p.source.src8
  s.dictSubmit
    { stamp := st, source := p.source, key := p.key', value := value, node := p.node, cycle := s.time.raft + 1,
      reply := .plyn p.slot p.peer p.node p.xid (p.key' / 256) (p.key' % 256) p.key, applied := 0 } p.type

/-- A slot's assembly set. -/
def State.setAssembly (s : State) (slot : Fin 8) (a : Option Assembly) : State :=
  s.modDict fun d => { d with slots := d.slots.set slot { d.slots[slot] with assembly := a } }

/-- A fragment continues an assembly (R582). -/
def Assembly.takes (a : Assembly) (p : PlynIn) (now : Nat) : Bool :=
  a.xid == p.xid && a.key == p.key' && a.type == p.type && a.total == p.total && p.offset == a.bytes.length && now ≤ a.lastAt + 100000000
    && p.offset + p.length ≤ p.total && (p.last == (p.offset + p.length == p.total))

/-- An authenticated, fresh WRITE message (R582). -/
def State.plynWriteMsg (s : State) (p : PlynIn) : State :=
  let value := (p.bytes.drop 32).take p.length
  let old := (s.dict.slots[p.slot]).assembly
  if 1408 < p.length || 4096 < p.total then
    (if old.isSome then (s.bump 0x3061 4 1).setAssembly p.slot none else s).plynStatus p stBadArgument
  else if p.offset == 0 then
    let s := if old.isSome then (s.bump 0x3061 4 1).setAssembly p.slot none else s
    if p.total < p.length || p.last != (p.length == p.total) then s.plynStatus p stBadArgument
    else if p.last then s.plynSubmit p value
    else (s.setAssembly p.slot (some ⟨p.xid, p.key', p.type, p.total, value, s.time.ts⟩)).plynStatus p stOk
  else
    match old with
    | none => s.plynStatus p stBadArgument
    | some a =>
      if !a.takes p s.time.ts then ((s.bump 0x3061 4 1).setAssembly p.slot none).plynStatus p stBadArgument
      else if p.last then (s.setAssembly p.slot none).plynSubmit p (a.bytes ++ value)
      else (s.setAssembly p.slot (some { a with bytes := a.bytes ++ value, lastAt := s.time.ts })).plynStatus p stOk

/-- Steps 2 to 4 of R581 for one request. -/
def State.plynServe (s : State) (p : PlynIn) : State :=
  match s.plynFresh p with
  | none => (s.bump 0x3061 3 1).plynStatus p stAuthFailed
  | some s =>
    if !p.reservedOk then s.plynStatus p stBadArgument
    else if p.kind == 2 then s.plynWriteMsg p
    else if (s.dict.slots[p.slot]).rights % 4 == 0 then s.plynStatus p stNotOwner
    else if p.kind == 1 then
      match s.readObj p.source p.key' with
      | (_, some (ty, v)) => ((p.fragments ty v).foldl State.plynReply s).readClears p.key'
      | (st, none) => s.plynStatus p st
    else
      match objRow p.key' with
      | some r => s.plynReply (p.reply stOk 9 0 8 true r.info)
      | none => s.plynStatus p stBadArgument

/-- The oldest waiting request is taken where it is of a KIND and the active Ridge takes input (R581, R599). -/
def State.plynTake (s : State) (kind : Nat) : State :=
  match s.dict.plynIn with
  | [] => s
  | p :: rest =>
    if p.kind != kind then s
    else if !s.ridgeTakes then s.noteDeferral
    else (s.modDict fun d => { d with plynIn := rest }).plynServe p

/-- A Plyn READ is answered. -/
def execPlynRead (s : State) : Res := .next (s.plynTake 1)

/-- A Plyn WRITE, or a fragment of one, is handled. -/
def execPlynWrite (s : State) : Res := .next (s.plynTake 2)

/-- A Plyn INFO is answered. -/
def execPlynInfo (s : State) : Res := .next (s.plynTake 3)

/-- More than 100 ms pass after a fragment: the assembly is discarded with a BAD_ARGUMENT reply (R582, R588). -/
def State.fragmentLate (s : State) (slot : Fin 8) (peer : PlynPeer) : State :=
  let k := s.dict.slots[slot]
  match k.assembly with
  | none => s
  | some a =>
    let s := ((s.advanceTo (a.lastAt + 100000001)).bump 0x3061 4 1).setAssembly slot none
    s.plynReply
      { peer := peer, slot := slot, node := k.node, xid := a.xid, kind := 0x82, key := a.key, type := 0, offset := 0, total := 0,
        last := true, status := stBadArgument, value := [], signKey := k.key }

/-- A fragmented write times out; the reply goes where its fragments came from. -/
def execFragmentTimeout (slot : Fin 8) (s : State) : Res :=
  .next (match (s.dict.slots[slot]).assembly with
    | some _ => s.fragmentLate slot ((s.dict.slots[slot]).peer)
    | none => s)

/-! Replies and the field ports (R583, R585). -/

/-- The frame of a reply, TS64 taken at sending. -/
def State.replyFrame (s : State) (r : PlynReply) : Bytes :=
  let header := toLE 1 1 ++ toLE 1 r.kind ++ toLE 1 (r.slot.val + 1) ++ toLE 1 r.last.toNat ++ toLE 2 (s.cfg 0x3060 3 1) ++ toLE 2 r.node
    ++ toLE 8 s.time.ts ++ toLE 4 r.xid ++ toLE 2 (r.key / 256) ++ toLE 1 (r.key % 256) ++ toLE 1 r.type ++ toLE 2 r.offset
    ++ toLE 2 r.value.length ++ toLE 2 r.total ++ toLE 2 r.status
  let body := header ++ r.value
  let vlan := match r.peer.tci with
    | some t => toBE 2 0x8100 ++ toBE 2 t
    | none => []
  r.peer.mac ++ toBE 6 s.macAddress ++ vlan ++ toBE 2 0x88B5 ++ body ++ (hmacAlg 1 r.signKey body).take 16

/-- The oldest reply of a port is sent at the port's transmit opportunity. -/
def State.plynSend (s : State) (port : Fin 6) : State :=
  match s.dict.replies.find? (·.peer.port == port.val) with
  | none => s
  | some r =>
    let frame := s.replyFrame r
    let s := s.modDict fun d => { d with replies := eraseFirst (· == r) d.replies }
    if port.val < 4 then s.emit (.eaveFrame (Fin.ofNat 4 port.val) frame)
    else
      let n := port.val - 4
      if s.cfgBool (0x3150 + n) 1 false && !(s.dict.fieldStopped[Fin.ofNat 2 n]) then
        (s.emit (.fieldFrame n frame)).bump (0x3158 + n) 2 1
      else s

/-- A Plyn reply leaves its port. -/
def execPlynReplyTransmit (port : Fin 6) (s : State) : Res := .next (s.plynSend port)

/-- A field port receives a frame, given without its FCS (R585). -/
def State.fieldFrame (s : State) (port : Fin 2) (frame : Bytes) (fcsOk : Bool) : State :=
  let n := port.val
  let wire := frame.length + 4
  if !s.cfgBool (0x3150 + n) 1 false then s
  else if s.dict.fieldStopped[port] then s
  else if !fcsOk then s.bump (0x3158 + n) 3 1
  else if wire < 64 || 1522 < wire || !s.plynFor frame then s.bump (0x3158 + n) 4 1
  else (s.bump (0x3158 + n) 1 1).plynFrame (4 + n) frame s.time.ts

/-- A frame arrives at a field port. -/
def execFieldPortFrame (port : Fin 2) (frame : Bytes) (fcsOk : Bool) (s : State) : Res := .next (s.fieldFrame port frame fcsOk)

/-! Writes to command objects. -/

/-- A value is written to an object: DW_REQ, DW_DATA and DW_GO of a window, or one Plyn WRITE that a slot authenticated, which waits
while the active Ridge takes no input. -/
def State.objWrite (s : State) (via : Via) (index sub type : Nat) (value : Bytes) : State :=
  match via with
  | .window f =>
    if (s.dict.windows[f]).busy then s.dwGo f
    else
      let req := index + sub * 2 ^ 16 + 2 * 2 ^ 24 + type * 2 ^ 32 + value.length * 2 ^ 48
      ((s.dwReq f req).dwData f 0 value).dwGo f
  | .plyn slot port xid =>
    let k := s.dict.slots[slot]
    if k.key.isEmpty || !s.ridgeTakes then s.noteDeferral else
    let header := [1, 2, BitVec.ofNat 8 (slot.val + 1), 1] ++ toLE 2 k.node ++ toLE 2 (s.cfg 0x3060 3 1) ++ toLE 8 s.time.ts ++ toLE 4 xid
      ++ toLE 2 index ++ toLE 1 sub ++ toLE 1 type ++ toLE 2 0 ++ toLE 2 value.length ++ toLE 2 value.length ++ toLE 2 0
    s.plynSubmit ⟨⟨port.val, k.peer.mac, k.peer.tci⟩, slot, header ++ value, k.key, s.time.ts⟩ value

/-- The index of an instance's object. -/
def instIndex (i : InstId) (base : Nat) : Nat := base + 0x100 * i.val

/-- A signal-map entry is written into the shadow generation (R152). -/
def execMapEntry (via : Via) (index bank priority key mask result : Nat) (valid : Bool) (s : State) : Res :=
  .next (s.objWrite via 0x1840 2 17 (toLE 2 index ++ toLE 1 bank ++ toLE 1 priority ++ toLE 8 key ++ toLE 8 mask ++ toLE 4 result
    ++ toLE 1 valid.toNat))

/-- A decode-program chunk is written into the shadow generation (R152). -/
def execProgramChunk (via : Via) (program offset : Nat) (last : Bool) (bytes : Bytes) (s : State) : Res :=
  .next (s.objWrite via 0x1840 3 17 (toLE 2 program ++ toLE 4 offset ++ toLE 1 last.toNat ++ toLE 2 bytes.length ++ bytes))

/-- TRAIN_RESET is written (R409). -/
def execTrainReset (via : Via) (on : Bool) (s : State) : Res := .next (s.objWrite via 0x1012 3 1 (toLE 1 on.toNat))

/-- FREEZE_RELEASE with ACTION 1 (R507). -/
def execFreezeRelease (via : Via) (port : PortId) (seq : Nat) (s : State) : Res :=
  .next (s.objWrite via 0x3020 (port.val + 1) 17 (toLE 1 1 ++ toLE 4 seq))

/-- FREEZE_RELEASE with ACTION 2 (R507). -/
def execSuspendNow (via : Via) (port : PortId) (seq : Nat) (s : State) : Res :=
  .next (s.objWrite via 0x3020 (port.val + 1) 17 (toLE 1 2 ++ toLE 4 seq))

/-- CONTROL written with an action. -/
def State.controlWrite (s : State) (via : Via) (i : InstId) (action port fn flags : Nat) : State :=
  s.objWrite via (instIndex i 0x4000) 3 17 (toLE 1 action ++ toLE 1 port ++ toLE 1 fn ++ toLE 1 flags)

/-- CONTROL 1, CREATE (R552). -/
def execCreate (via : Via) (inst : InstId) (s : State) : Res := .next (s.controlWrite via inst 1 0 0 0)

/-- CONTROL 2, DESTROY (R552), with DROP_TABLES. -/
def execDestroy (via : Via) (inst : InstId) (dropTables : Bool) (s : State) : Res :=
  .next (s.controlWrite via inst 2 0 0 (2 * dropTables.toNat))

/-- CONTROL 3, BIND (R546), with RESTORE. -/
def execBind (via : Via) (inst : InstId) (port fn : Nat) (restore : Bool) (s : State) : Res :=
  .next (s.controlWrite via inst 3 port fn restore.toNat)

/-- CONTROL 4, UNBIND (R545). -/
def execUnbind (via : Via) (inst : InstId) (s : State) : Res := .next (s.controlWrite via inst 4 0 0 0)

/-- CONTROL 5, FREEZE (R543). -/
def execFreeze (via : Via) (inst : InstId) (s : State) : Res := .next (s.controlWrite via inst 5 0 0 0)

/-- CONTROL 6, THAW (R552). -/
def execThaw (via : Via) (inst : InstId) (s : State) : Res := .next (s.controlWrite via inst 6 0 0 0)

/-- CONTROL 7, RESET (R533). -/
def execReset (via : Via) (inst : InstId) (s : State) : Res := .next (s.controlWrite via inst 7 0 0 0)

/-- MB_SEND is written (R555). -/
def execMbSend (via : Via) (inst : InstId) (kind : Nat) (body : Bytes) (s : State) : Res :=
  .next (s.objWrite via (instIndex inst 0x4003) 1 17 (toLE 2 kind ++ toLE 2 body.length ++ body))

/-- MB_RECEIVE_ACK is written (R559). -/
def execMbReceiveAck (via : Via) (inst : InstId) (on : Bool) (s : State) : Res :=
  .next (s.objWrite via (instIndex inst 0x4003) 3 1 (toLE 1 on.toNat))

/-- A Plyn key slot is written (R584). -/
def execPlynKey (via : Via) (slot : Fin 8) (node rights : Nat) (key : Bytes) (s : State) : Res :=
  .next (s.objWrite via 0x2E10 (slot.val + 1) 17 (toLE 2 node ++ toLE 1 rights ++ toLE 2 key.length ++ key))

/-- ALERT_CLEAR is written (R616). -/
def execAlertClear (via : Via) (bits : Nat) (s : State) : Res := .next (s.objWrite via 0x3821 2 7 (toLE 2 bits))

/-- FW_STAGE ACTION 1 (R631). -/
def execFwStageBegin (via : Via) (kind : Nat) (s : State) : Res := .next (s.objWrite via 0x0210 1 17 (toLE 1 1 ++ toLE 1 kind))

/-- FW_CHUNK is written (R631). -/
def execFwChunk (via : Via) (kind offset : Nat) (bytes : Bytes) (s : State) : Res :=
  .next (s.objWrite via 0x0210 2 17 (toLE 1 kind ++ toLE 4 offset ++ toLE 2 bytes.length ++ bytes))

/-- FW_STAGE ACTION 2 (R631). -/
def execFwStageEnd (via : Via) (kind : Nat) (s : State) : Res := .next (s.objWrite via 0x0210 1 17 (toLE 1 2 ++ toLE 1 kind))

/-- FW_STAGE ACTION 3 (R631). -/
def execFwStageAbandon (via : Via) (kind : Nat) (s : State) : Res := .next (s.objWrite via 0x0210 1 17 (toLE 1 3 ++ toLE 1 kind))

/-- ATTEST_NONCE is written (R637). -/
def execAttestNonce (via : Via) (nonce : Bytes) (s : State) : Res := .next (s.objWrite via 0x0120 1 16 nonce)

/-- MEASURE_EXTEND is written (R636). -/
def execMeasureExtend (via : Via) (digest : Bytes) (s : State) : Res := .next (s.objWrite via 0x0120 4 16 digest)

/-- STEP_RESET is written (R641). -/
def execStepReset (via : Via) (on : Bool) (s : State) : Res := .next (s.objWrite via 0x0202 2 1 (toLE 1 on.toNat))

/-- SELF_TEST is written (R670). -/
def execSelfTest (via : Via) (target index : Nat) (s : State) : Res := .next (s.objWrite via 0x3C11 1 17 (toLE 1 target ++ toLE 1 index))

/-- TRACE_REARM is written (R672). -/
def execTraceRearm (via : Via) (on : Bool) (s : State) : Res := .next (s.objWrite via 0x3C20 4 1 (toLE 1 on.toNat))

/-- AVAIL_RESET is written (R676). -/
def execAvailReset (via : Via) (on : Bool) (s : State) : Res := .next (s.objWrite via 0x3C30 2 1 (toLE 1 on.toNat))

end Sys2Proof.Machine
end

