-- ==== Sys2Proof/Machine/Yelm.lean ====
section
/-! DEFINITION. The Yelm compression engines (chapter 15). -/

namespace Sys2Proof.Machine

/-- OP of a job descriptor (R460). -/
def yOp (d : Bytes) : Nat := fieldAt 0 1 d % 16
/-- FORMAT. -/
def yFormat (d : Bytes) : Nat := fieldAt 0 1 d / 16
/-- VALIDATE. -/
def yValidate (d : Bytes) : Nat := bitsOf (fieldAt 0 4 d) 9 8
/-- RESUME. -/
def yResumes (d : Bytes) : Bool := bitAt (fieldAt 0 4 d) 10
/-- PACED. -/
def yPaced (d : Bytes) : Bool := bitAt (fieldAt 0 4 d) 11
/-- GAIN. -/
def yGain (d : Bytes) : Nat := bitsOf (fieldAt 0 4 d) 15 12
/-- IN_BYTES. -/
def yInBytes (d : Bytes) : Nat := fieldAt 4 4 d
/-- IN_ADDR. -/
def yInAddr (d : Bytes) : Nat := fieldAt 8 6 d
/-- OUT_ADDR. -/
def yOutAddr (d : Bytes) : Nat := fieldAt 16 6 d
/-- OUT_BYTES. -/
def yOutBytes (d : Bytes) : Nat := fieldAt 24 4 d
/-- STATE_ADDR. -/
def yStateAddr (d : Bytes) : Nat := fieldAt 32 6 d

/-- The fields that a resumed job must repeat (R465). -/
def ySame (a b : Bytes) : Bool :=
  yOp a == yOp b && yFormat a == yFormat b && yValidate a == yValidate b && yGain a == yGain b && yInAddr a == yInAddr b
    && yInBytes a == yInBytes b && yStateAddr a == yStateAddr b

/-- Two ranges meet. -/
def rangesMeet (a : Nat × Nat) (b : Nat × Nat) : Bool := a.1 < b.1 + b.2 && b.1 < a.1 + a.2

/-- The three ranges of a job. -/
def yRanges (d : Bytes) : List (Nat × Nat) :=
  [(yInAddr d, yInBytes d), (yOutAddr d, yOutBytes d)] ++ (if yStateAddr d == 0 then [] else [(yStateAddr d, 40960)])

/-- The resume state a descriptor names, where R465 accepts it. -/
def State.yState (s : State) (d : Bytes) (input : Bytes) : Option YResume :=
  s.yelm.resumes.find? fun r => r.addr == yStateAddr d && ySame r.desc d && r.input == input
    && (yOp d != 2 || yFormat d < 3 || r.parts.all fun p => (s.devRead p.1 p.2.length false).1 == some p.2)

/-- Fields of a job descriptor that are malformed (R461). -/
def yBad (d : Bytes) : Bool :=
  let h := fieldAt 0 4 d
  let g := yGain d
  let r := yRanges d
  h / 2 ^ 16 != 0 || fieldAt 14 2 d != 0 || fieldAt 22 2 d != 0 || fieldAt 28 4 d != 0 || (sliceB 38 26 d).any (· != 0)
    || !(yOp d == 1 || yOp d == 2) || 4 < yFormat d || (9 ≤ g && g ≤ 14) || yInBytes d == 0 || 16777216 < yInBytes d
    || yOutBytes d == 0 || 67108864 < yOutBytes d || yStateAddr d % 64 != 0
    || (yOp d == 2 && (yValidate d == 0 || g != 0)) || (2 ≤ yValidate d && (yFormat d == 0 || yFormat d == 3))
    || rangesMeet (r.getD 0 (0, 0)) (r.getD 1 (0, 0))
    || (r.length == 3 && (rangesMeet (r.getD 0 (0, 0)) (r.getD 2 (0, 0)) || rangesMeet (r.getD 1 (0, 0)) (r.getD 2 (0, 0))))
    || (yResumes d && yStateAddr d == 0)

/-- A course queue's job may reach a range: the tile's own scratch or its enabled windows without MON (R456). -/
def State.yTileMay (s : State) (t : TileId) (p : Perm) (a n : Nat) : Bool :=
  match s.regionOf a with
  | .scratch u off => u == t && off + n ≤ 0x40000
  | .dram => a + n ≤ ((s.tiles[t]).winReach p false 16 a) && a + n ≤ s.dram.managed
  | _ => false

/-- A firmware queue's job may reach a range (R24). -/
def State.yFwMay (s : State) (a n : Nat) : Bool :=
  match s.regionOf a with
  | .dram => a + n ≤ s.dram.managed
  | .scratch _ off => off + n ≤ 0x40000
  | .aperture => (s.apertureLine a).isSome
  | _ => false

/-- Every range of a job lies in its queue's reach. [log 117 DEDUCED] -/
def State.yReach (s : State) (tile : Option TileId) (d : Bytes) : Bool :=
  match tile with
  | none => (yRanges d).all fun r => s.yFwMay r.1 r.2
  | some t =>
    s.yTileMay t .read (yInAddr d) (yInBytes d) && s.yTileMay t .write (yOutAddr d) (yOutBytes d)
      && (yStateAddr d == 0 || (s.yTileMay t .read (yStateAddr d) 40960 && s.yTileMay t .write (yStateAddr d) 40960))

/-- Engines that serve a plan's jobs (R459). -/
def State.yServing (s : State) (slot : Nat) : Nat :=
  (s.yelm.jobs.toList.filter fun j => j.any fun j => j.planSlot == some slot).length

/-- One READY slot with what the order of R458 and the claims of R459 need. -/
structure YCand where
  queue : Fin 16
  slot : Nat
  flat : Bool
  tile : Option TileId
  planSlot : Option Nat
deriving DecidableEq, Repr

/-- The slot state byte's address. -/
def State.ySlot (s : State) (q : Fin 16) (slot : Nat) : Nat := (s.yelm.queues[q]).base + 128 * slot

/-- Jobs an engine may take now. -/
def State.yCands (s : State) (n : Fin 4) : List YCand :=
  (List.finRange 16).flatMap fun q =>
    let x := s.yelm.queues[q]
    if !x.enable || !bitAt x.engines n.val then [] else
    (List.range (if q.val < 8 then 64 else 8)).filterMap fun k =>
      if !bitAt x.slots k || (s.devRead (s.ySlot q k + 0x78) 1 false).1 != some [1] then none else
      if q.val < 8 then some ⟨q, k, false, none, none⟩ else
      let c : CourseId := Fin.ofNat 8 (q.val - 8)
      let t := tileOf c (Fin.ofNat 8 k)
      let slot := ((s.batten.tiles[t]).desc).map (·.planSlot)
      let claim := (slot.map (ngetZ s.yelm.claims ·)).getD 0
      if claim != 0 && claim ≤ (slot.map s.yServing).getD 0 then none
      else some ⟨q, k, (s.power.courses[c]).assigned == 2, some t, slot⟩

/-- The rank of a candidate: Flat course queues, priority, queue and slot round-robin (R458). -/
def State.yRank (s : State) (c : YCand) : Nat :=
  let x := s.yelm.queues[c.queue]
  (if c.flat then 0 else 2 ^ 16) + x.priority * 2 ^ 12 + (c.queue.val + 31 - s.yelm.lastQueue) % 16 * 2 ^ 7
    + (c.slot + 127 - x.lastSlot) % 64

/-- The job an engine takes. -/
def State.yPick (s : State) (n : Fin 4) : Option YCand :=
  (sortBy (fun a b => s.yRank a < s.yRank b) (s.yCands n)).head?

/-- Input as it stands when the job is taken: the readable bytes, and whether a poisoned line cut them. -/
def State.yInput (s : State) (a n : Nat) : Bytes × Bool × State :=
  match s.devRead a n true with
  | (some d, s) => (d, false, s)
  | (none, s) =>
    let parts := (cuts 64 (n + 1) a n).map fun c => (s.devRead c.1 c.2 true).1
    ((parts.takeWhile (·.isSome)).flatMap (·.getD []), true, s)

/-- The gain limit L, none for GAIN 15 (R462). -/
def yLimit (gainDefault gain inBytes : Nat) : Option Nat :=
  if gain == 15 then none else
  let k := if gain == 0 then gainDefault else gain
  some (inBytes - ceilDiv inBytes (2 ^ k))

/-- An idle engine polls and takes the next job (R457 to R461). [log 255 DEDUCED] -/
def State.yelmPoll (s : State) (n : Fin 4) : State :=
  if !s.yelm.enable || (s.yelm.jobs[n]).isSome then s else
  match s.yPick n with
  | none => s
  | some c =>
    let a := s.ySlot c.queue c.slot
    let (d, s) := s.sysRead a 64 false
    let d := d.getD (zeros 64)
    let s := s.sysWrite (a + 0x78) [2]
    let claim := (c.planSlot.map (ngetZ s.yelm.claims ·)).getD 0
    let early :=
      if yBad d then some stBadArgument
      else if !s.yReach c.tile d then some stWindowFault
      else if c.tile.isSome && claim == 0 then some stQuota
      else none
    let (input, poisoned, s') := if early.isSome then ([], false, s) else s.yInput (yInAddr d) (yInBytes d)
    let before := if yResumes d && early.isNone then s.yState d input else none
    let early := if early.isNone && yResumes d && before.isNone then some stBadArgument else early
    let s := if early.isSome then s else s'
    let limit := match before with
      | some r => r.limit
      | none => yLimit (s.cfg 0x2C00 1 4) (yGain d) (yInBytes d)
    let job : YJob :=
      { queue := c.queue.val, slot := c.slot, desc := d, tile := c.tile, planSlot := c.planSlot
        input := if early.isSome then [] else input, poisoned := poisoned && early.isNone, ended := early, since := s.time.ts
        limit := limit, before := before }
    s.modYelm fun y =>
      { y with jobs := y.jobs.set n (some job)
               read := y.read.set n (if early.isSome then 0 else yInBytes d), lastQueue := c.queue.val
               resumes := if before.isSome then y.resumes.filter (·.addr != yStateAddr d) else y.resumes
               queues := y.queues.set c.queue { y.queues[c.queue] with lastSlot := c.slot } }

/-- An engine's poll interval expires. -/
def execYelmPoll (engine : Fin 4) (s : State) : Res := .next (s.yelmPoll engine)

/-- How a job ends: status, whole output so far (from the original job's start), input consumed, error bit, check values;
`undef` holds, for an output that the spec leaves undefined, how many of its bytes that is and how many count as produced. -/
structure YEnd where
  status : Nat
  output : Bytes
  consumed : Nat
  errorBit : Nat
  computed : Nat
  stored : Nat
  undef : Option (Nat × Nat)
deriving DecidableEq, Repr

/-- Check value of a format over plain bytes. -/
def yCheck (format : Nat) (b : Bytes) : Nat :=
  match format with
  | 1 => adler32 b
  | 2 => crc32 b
  | 4 => xxh32 b
  | _ => 0

/-- COMPRESS with a gain limit, `room` output bytes in all submissions, `space` in this one (R462). -/
def yCompressEnd (format : Nat) (limit : Option Nat) (room space consumed ctr : Nat) (input : Bytes) : YEnd :=
  let c := yelmCompress format input
  let fits := c.length ≤ room && (limit.all fun l => c.length ≤ l)
  let part := max consumed (Config.freeNat ctr % (input.length + 1))
  if fits then ⟨stOk, c, input.length, 0xFFFFFFFF, yCheck format input, 0, none⟩
  else if limit.any (· ≤ room) then
    ⟨stNoGain, [], part, 0xFFFFFFFF, 0, 0, some (space, Config.freeNat (ctr + 1) % (space + 1))⟩
  else ⟨stOutFull, c.take room, part, 0xFFFFFFFF, 0, 0, none⟩

/-- How a taken job ends; its resume state gives what earlier submissions produced. Of a COMPRESS job that meets a poisoned line a free
number of free bytes is written: which part of the output precedes it is not stated. -/
def State.yEnd (s : State) (j : YJob) : YEnd :=
  let d := j.desc
  let had := (j.before.map (·.outDone)).getD 0
  let space := yOutBytes d
  let cons := (j.before.map (·.consumed)).getD 0
  let part := max cons (Config.freeNat s.freeCtr % (j.input.length + 1))
  let some' := Config.freeNat (s.freeCtr + 1) % (space + 1)
  match j.ended with
  | some st =>
    if st == stAbortCancel || st == stAbortReset then ⟨st, [], part, 0xFFFFFFFF, 0, 0, some (space, some')⟩
    else ⟨st, [], 0, 0xFFFFFFFF, 0, 0, none⟩
  | none =>
    if yOp d == 1 then
      if j.poisoned then ⟨stPoisoned, [], max cons j.input.length, 0xFFFFFFFF, 0, 0, some (some', some')⟩
      else yCompressEnd (yFormat d) j.limit (had + space) space cons s.freeCtr j.input
    else
      let r := yelmDecompress (yFormat d) (yValidate d) j.input (had + space)
      if j.poisoned && (r.status == stTruncated || r.status == stCheckMismatch || r.status == stOk) then
        ⟨stPoisoned, r.output, r.consumed, 0xFFFFFFFF, 0, 0, none⟩
      else ⟨r.status, r.output, r.consumed, r.errorBit, r.computed, r.stored, none⟩

/-- The output of a job's end stands at OUT_ADDR, and a resume state at STATE_ADDR where it stopped with OUT_FULL (R465, R468): the
bytes produced. -/
def State.yelmOutput (s : State) (j : YJob) (e : YEnd) : Nat × State :=
  let d := j.desc
  let had := (j.before.map (·.outDone)).getD 0
  let s := s.modFreeCtr (· + 2)
  let (new, s) := match e.undef with
    | some (n, _) => s.freeBytes n
    | none => (e.output.drop had, s)
  let s := if new.isEmpty then s else s.devWrite (yOutAddr d) new
  let made := match e.undef with
    | some (_, k) => k
    | none => new.length
  if e.status == stOutFull && yStateAddr d != 0 then
    let (area, s) := s.freeBytes 40960
    let part : YResume :=
      { addr := yStateAddr d, desc := d, input := j.input, consumed := e.consumed, limit := j.limit, outDone := had + made
        parts := ((j.before.map (·.parts)).getD []) ++ [(yOutAddr d, new)] }
    (made, (s.devWrite (yStateAddr d) area).modYelm fun y =>
      { y with resumes := y.resumes.filter (·.addr != yStateAddr d) ++ [part] })
  else (made, s)

/-- Request lines of a PACED job: one for each 2,048 bytes crossed by this submission, and one for a last partial burst (R466). -/
def State.yelmPace (s : State) (n : Fin 4) (j : YJob) (consumed made : Nat) : State :=
  if !yPaced j.desc || j.ended.isSome then s else
  let had := (j.before.map (·.outDone)).getD 0
  let cons := (j.before.map (·.consumed)).getD 0
  let lines := fun (s : State) (l k : Nat) => (List.range k).foldl (fun s _ => s.raiseLine l) s
  lines (lines s (4 + n.val) (consumed / 2048 - cons / 2048)) (8 + n.val)
    ((had + made) / 2048 - had / 2048 + (if (had + made) % 2048 == 0 then 0 else 1))

/-- Counters of a job that has ended (R472). -/
def State.yelmCount (s : State) (status input output : Nat) : State :=
  let s := ((s.bump 0x2C01 1 1).bump 0x2C01 2 input).bump 0x2C01 3 output
  if status == stNoGain then s.bump 0x2C01 4 1
  else if status == stOutFull then s.bump 0x2C01 5 1
  else if status == stAbortCancel || status == stAbortReset then s.bump 0x2C01 7 1
  else if status == stOk || status == stBadArgument || status == stWindowFault || status == stQuota || status == stPoisoned then s
  else s.bump 0x2C01 6 1

/-- A job ends: output, resume state, done record, DONE, UNIT (R462 to R468). -/
def State.yelmEnd (s : State) (n : Fin 4) (j : YJob) : State :=
  let d := j.desc
  let had := (j.before.map (·.outDone)).getD 0
  let e := s.yEnd j
  let (made, s) := s.yelmOutput j e
  let (st, s) := (s.yelmPace n j e.consumed made).stamp (0xC4 + n.val)
  let doneRec := st.bytes ++ toLE 2 e.status ++ toLE 1 n.val ++ zeros 1 ++ toLE 4 e.consumed ++ toLE 4 made
    ++ toLE 4 e.errorBit ++ toLE 4 e.computed ++ toLE 4 e.stored ++ toLE 4 (had + made) ++ zeros 12
  let a := s.ySlot (Fin.ofNat 16 j.queue) j.slot
  let s := (s.sysWrite (a + 0x40) doneRec).sysWrite (a + 0x78) [3]
  let s := match j.tile with
    | some t => s.modTile t fun c => { c with unitSrc := c.unitSrc ||| 8 }
    | none => s
  let s := s.modYelm fun y => { y with jobs := y.jobs.set n none, read := y.read.set n 0 }
  let cons := (j.before.map (·.consumed)).getD 0
  (s.yelmCount e.status (e.consumed - cons) made).bump 0x2C01 (0xF0 + n.val) ((s.time.ts - j.since) * 8 / 5)

/-- An engine's job ends; a tile that was held for it is chosen for again (R468). -/
def State.yelmJobDone (s : State) (n : Fin 4) : State :=
  match s.yelm.jobs[n] with
  | none => s
  | some j => (s.yelmEnd n j).pumpPlans

/-- A job of an engine ends. -/
def execYelmJobDone (engine : Fin 4) (s : State) : Res := .next (s.yelmJobDone engine)

/-- Keep entry reaches its last step: every job ends with ABORTED_CANCEL, and no resume state is left (R468). -/
def State.yelmKeep (s : State) : State :=
  let s := (List.finRange 4).foldl (fun s n =>
    match s.yelm.jobs[n] with
    | none => s
    | some j => s.yelmEnd n (if j.ended.isNone then { j with ended := some stAbortCancel } else j)) s
  s.modYelm fun y => { y with resumes := [] }

end Sys2Proof.Machine
end

