-- ==== Sys2Proof/Machine/Boundary.lean ====
section
/-! DEFINITION. Rafter boundaries and Batten ticks (R42, R47 to R53, R65, R693), what the active Ridge and the Finial do at a boundary
(R142, R317, R569, R596, R597, R607, R666), and the last steps of Keep entry (R422). -/

namespace Sys2Proof.Machine

/-! Ticks. -/

/-- TS64 of tick i of the cycle in progress (R51). -/
def TimeSt.tickAt (t : TimeSt) (i : Nat) : Nat := t.tickBase + i * t.period / 2 ^ t.tickExp

/-- The last tick that lies before 200 µs into a cycle, from its boundary (R286). [log 15 DEDUCED] -/
def TimeSt.lastEarlyTick (t : TimeSt) : Nat := (ceilDiv (200000 * 2 ^ t.tickExp) t.period - 1) * t.period / 2 ^ t.tickExp

/-- FLAT_DUE as the Batten reports it at the last tick before a boundary (R286, R607). [log 18 DEDUCED] -/
def State.flatDueAt (s : State) (b : Nat) : Bool :=
  let until' := b + s.time.lastEarlyTick
  s.batten.timeList.any (fun p =>
    p.2.flat && p.2.kind == 0 && (if p.2.cycle then p.2.due == (s.time.raft + 1) % 2 ^ 32 && b + p.2.holdNs ≤ until' else p.2.due ≤ until'))
  || s.batten.distList.any fun p => p.2.flat && p.2.kind == 0 && p.2.due ≤ mmOf s.time.dist + 1000

/-- A tick reaches the Batten, and after the last of a cycle FLAT_DUE is reported. [log 15 DEDUCED] -/
def State.issueTick (s : State) (i ts : Nat) : State :=
  let s := s.modTime fun t => { t with nextTick := i + 1, tickNow := i }
  let s := s.battenTick ⟨ts, s.time.raft, i, mmOf s.time.dist⟩
  if i + 1 == 2 ^ s.time.tickExp then
    let due := s.flatDueAt (s.time.lastBoundary + s.time.period)
    s.modFinial fun x => { x with flatDue := due }
  else s

/-- A Batten tick falls due (R51). -/
def State.tickDue (s : State) : State :=
  let t := s.time
  if !t.run || t.lastKind == .none || 2 ^ t.tickExp ≤ t.nextTick then s
  else (s.advanceTo (t.tickAt t.nextTick)).issueTick t.nextTick (t.tickAt t.nextTick)

/-- A tick of the cycle falls due. -/
def execBattenTick (s : State) : Res := .next s.tickDue

/-- Ticks of the ending cycle not yet issued are issued, none later than the boundary (R53). [log 17 DEDUCED] -/
def State.lateTicks (s : State) (b : Nat) : State :=
  let t := s.time
  if t.lastKind == .none then s else
  (upFrom t.nextTick (2 ^ t.tickExp - t.nextTick)).foldl (fun s i => s.issueTick i (min b (t.tickAt i))) s

/-! What follows a boundary. -/

/-- RAFT32 at a TS64 (R47). [log 254 DEDUCED] -/
def TimeSt.raftAt (t : TimeSt) (ts : Nat) : Nat := (((ts : Int) - t.phase) / t.period % 2 ^ 32).toNat

/-- COURSE_LOAD over the cycle that ends (R318). -/
def State.endLoads (s : State) : State :=
  if s.time.lastKind == .none then s else
  (List.finRange 8).foldl (fun s c =>
    let n := s.courseLoad c s.time.lastBoundary
    s.modCourseStat c fun k => { k with loadLast := n, loadMax := max k.loadMax n, busyCycle := 0 }) s

/-- The row of table 0xFFF0 (R65). -/
def State.timeRow (s : State) (b : Nat) (synthetic stepNow : Bool) : State :=
  let (st, s) := s.stampAt srcTime (max b (ngetZ s.time.stamped srcTime))
  let t := s.time
  let flags := synthetic.toNat + 2 * stepNow.toNat + 4 * t.rowChange.toNat
  (s.logRow 0xFFF0 st
    [.num t.raft, .num (mmOf t.dist), .num (mmOf t.rev), .num (unsignedOf 64 t.offset), .num (s.estError.getD (2 ^ 64 - 1)), .num flags]).modTime
    fun t => { t with rowChange := false, rowStep := false }

/-- The decided forward step that a boundary applies; a step past TS_RESERVE waits (R41, R46). [log 14 DEDUCED] -/
def TimeSt.stepNow (t : TimeSt) : Option Nat := t.stepPending.filter fun n => t.ts + n < t.tsReserve

/-- A forward step: no boundary and no tick falls in the interval stepped over, and the cycle's later ticks stand (R42, R51). In edge
mode the next edge is judged from the TS64 that the boundary's instant then has (R49). [log 14 DEDUCED] -/
def State.stepBy (s : State) (n : Nat) : State :=
  let before := s.time.ts
  let after := before + n
  let s := s.modTime fun t =>
    let grid := after - (after - t.phase) % t.period
    let t := { t with ts := after, stepPending := none, stepped := true }
    if t.edgeMode || grid ≤ t.lastBoundary then
      { t with lastBoundary := if t.edgeMode then after else t.lastBoundary
               nextTick := ((List.range (2 ^ t.tickExp)).find? fun i => after < t.tickAt i).getD (2 ^ t.tickExp) }
    else { t with lastBoundary := grid, tickBase := grid, nextTick := 2 ^ t.tickExp }
  let s := s.modBatten fun b => { b with stepOver := (before + 1, after) :: b.stepOver }
  (s.bump 0x0412 5 1).raise srcTime { ErrRec.blank with scope := 11, scopeId := 1, event := 2, detail0 := before, detail1 := after }

/-- Table descriptors altered since the last boundary: INGEST comes into force (R142). -/
def State.ingestInForce (s : State) : State :=
  s.modTables fun ts => { ts with tables := ts.tables.map fun p =>
    (p.1, match p.2.ingestNext with
      | some i => { p.2 with desc := { p.2.desc with ingest := i }, ingestNext := none }
      | none => p.2) }

/-- New trace records are copied into table 0xFFF3 (R317). -/
def State.traceCopy (s : State) : State :=
  if !s.cfgBool 0x2030 6 false || !s.ridgeActs then s else
  let b := s.batten
  let new := keepLast ((b.traceRegs.head - b.traceCopied) / 32) b.trace
  let s := new.foldl (fun s r => s.logRow 0xFFF3 r.stamp
    [.num r.event, .num r.tile, .num r.planSlot, .num r.pipeline, .num r.unit, .num r.priority, .num r.flat.toNat, .num r.inst,
     .num r.affinityHit.toNat, .num r.status, .num r.wait]) s
  s.modBatten fun x => { x with traceCopied := x.traceRegs.head }

/-- Uncopied error records are copied into table 0xFFF5 (R666). -/
def State.errorCopy (s : State) : State :=
  if !s.ridgeActs then s else
  let s := s.err.uncopied.foldl (fun s r => s.logRow 0xFFF5 r.stamp
    [.num r.code, .num r.severity.code, .num r.scope, .num r.scopeId, .num r.inst, .num r.event, .num (r.planSlot.getD 0),
     .num r.planSlot.isSome.toNat, .num r.address, .num r.detail0, .num r.detail1, .num r.count, .num r.causeSeq, .num r.causeSrc]) s
  s.modErr fun e => { e with copied := e.head }

/-- Keep space for the built-in tables, whose rows come between boundaries (R108, R112). [log 206 DEDUCED] -/
def State.enforceBuiltin (s : State) : State := builtinTables.foldl (fun s p => s.enforce p.1) s

/-- A Rafter boundary at a TS64: the rest of the ending cycle's ticks, RAFT32, tick 0, a forward step, the time row, and what the Ridge
and the Finial do at a boundary. The checkpoint's size and CRC are the active Ridge's. [log 14 DEDUCED, 16 DEDUCED] -/
def State.rafterBoundary (s : State) (b : Nat) (kind : BoundaryKind) (ckptBytes ckptCrc : Nat) : State :=
  let s := (s.lateTicks b).endLoads
  let ended := s.time.raft
  let s := s.modTime fun t =>
    { t with raft := if t.edgeMode && t.lastKind != .none && !t.stepped then (t.raft + 1) % 2 ^ 32 else t.raftAt b
             lastBoundary := b, tickBase := b, lastKind := kind, stepped := false, nextTick := 0 }
  let s := s.ingestInForce.issueTick 0 b
  let step := s.time.stepNow
  let s := s.timeRow b (kind == .synthetic) step.isSome
  let s := s.judgeHeartbeat
  let s := if s.ridgeActs then s.applyStaged b else s
  let s := s.retryReserves
  let s := s.traceCopy.errorCopy.enforceBuiltin
  let s := (s.startHandover.sendCheckpoint ended ckptBytes ckptCrc).takeDeferred
  match step with
  | some n => s.stepBy n
  | none => s

/-- The next grid boundary (R47). -/
def TimeSt.nextGrid (t : TimeSt) : Nat :=
  if t.lastKind == .none then
    if t.ts ≤ t.phase then t.phase else t.phase + ceilDiv (t.ts - t.phase) t.period * t.period
  else t.lastBoundary + t.period

/-- A grid boundary falls due. -/
def execRafterBoundary (ckptBytes ckptCrc : Nat) (s : State) : Res :=
  let t := s.time
  .next (if !t.run || t.edgeMode then s else (s.advanceTo t.nextGrid).rafterBoundary t.nextGrid .grid ckptBytes ckptCrc)

/-- A regular edge with the RAFTER_IN source: p, the trim and TIME_STATE (R692, R693). [log 19 DEDUCED] -/
def State.regularEdge (s : State) : State :=
  let t := s.time
  let s := s.modTime fun t => { t with regularRun := t.regularRun + 1, synthRun := 0 }
  if t.source != 1 then s else
  let s := if t.lastKind != .regular then s else
    let p : Int := ((t.ts : Int) - t.lastBoundary) - t.period
    s.modTime fun t => { t with offset := p, trim := clampTrim (t.trim - (p : Rat) / t.period) }
  if 2 ≤ s.time.regularRun && (s.time.state == .unsynced || s.time.state == .holdover) then s.modTime (·.enter .edgeLocked) else s

/-- A RAFTER_IN edge arrives (R48, R49). [log 19 DEDUCED, 225 DESIGN CHOICE] -/
def execRafterInEdge (falling : Bool) (ckptBytes ckptCrc : Nat) (s : State) : Res :=
  let t := s.time
  .next (if !t.run || !t.edgeMode || falling != t.edgeFalling then s
    else if t.lastKind != .none && 4 * (t.ts - t.lastBoundary) < 3 * t.period then s.bump 0x0412 1 1
    else s.regularEdge.rafterBoundary t.ts .regular ckptBytes ckptCrc)

/-- No edge has arrived by 1.25 periods after the last boundary (R49, R692): the boundary's row comes before the record of HOLDOVER,
whose TS64 is the later one (R61). [log 20 DEDUCED] -/
def execSyntheticBoundary (ckptBytes ckptCrc : Nat) (s : State) : Res :=
  let t := s.time
  .next (if !t.run || !t.edgeMode || t.lastKind == .none then s else
    let s := (s.advanceTo (t.lastBoundary + 5 * t.period / 4)).bump 0x0412 2 1
    let s := s.modTime fun t => { t with regularRun := 0, synthRun := t.synthRun + 1 }
    let s := s.rafterBoundary (t.lastBoundary + t.period) .synthetic ckptBytes ckptCrc
    if s.time.source == 1 && s.time.state == .edgeLocked && 2 ≤ s.time.synthRun then s.enterHoldover else s)

/-! Keep entry, steps 5 to 7 (R422). -/

/-- An APPEND or table command received before T_K that has not come to its commit. -/
def State.keepWaits (s : State) : Bool :=
  s.insts.toList.any fun x => x.queue.any fun c => c.isWrite && !s.afterKeepStamp c && c.stage != .running

/-- The Keep catalogue holds every segment of every KEEP table; sealed ones are KEPT (R103, R422). [log 110 DEDUCED] -/
def State.keepCatalogueAll (s : State) : State :=
  let kept := s.tables.tables.filter fun p => p.2.desc.keep
  let s := kept.foldl (fun s p => (p.2.segs.filter (·.state == .sealed)).foldl (fun s g =>
    (s.modTable p.1 fun t => { t with segs := t.segs.map fun h => if h.no == g.no then { h with state := .kept } else h }).catalogue p.1 g 2) s) s
  let all := (s.tables.tables.filter fun p => p.2.desc.keep).flatMap fun p =>
    (p.2.segs.filter (·.state != .retired)).map fun g => (p.1, g.no)
  s.modTables fun ts => { ts with keepCatalogue := all }

/-- Nail commands complete, every FLUSH completes with OK, and every record is delivered (R422, R536). -/
def State.keepDeliver (s : State) : State :=
  (List.finRange 64).foldl (fun s i =>
    let q := (s.insts[i]).queue
    let s := (q.filter (·.nail)).foldl (fun s c => s.nailComplete i c.receipt.seq) s
    let s := (q.filter fun c => c.opcode == 2).foldl (fun s c => s.complete i c.receipt stOk) s
    ((s.insts[i]).records).foldl (fun s _ => s.deliverRecord i 3) s) s

/-- Steps 5 to 7: catalogue and queues, pending staged writes, copies, self-refresh (R422, R581, R587, R674). [log 109 DEDUCED] -/
def State.selfRefresh (s : State) : State :=
  if s.dram.phase != .entering || s.keepWaits then s else
  let s := s.releaseForKeep.keepRetire.keepCatalogueAll.drainAll.keepDeliver.commitAll.yelmKeep
  let s := s.applyStaged (s.time.ts + 1)
  let s := s.modDram fun d => { d with copy := some d.keepCopy, mig := if d.mig.state == 1 then { d.mig with state := 2 } else d.mig }
  let s := s.modDict fun d => { d with slotMirror := d.slots.map (·.lastTs) }
  s.mirrorAvail.writeBootFlash.enterKeep true

/-- Channels enter self-refresh. -/
def execSelfRefreshEntry (s : State) : Res := .next s.selfRefresh

end Sys2Proof.Machine
end

