-- ==== Sys2Proof/Machine/Migrate.lean ====
section
/-! DEFINITION. Migration of a retired rank's slot to the spare (R427 to R429), and the copies of double-lapped tables that it moves. -/

namespace Sys2Proof.Machine

/-- The mapping once the migrating slot stands on the spare. -/
def DramSt.migrated (d : DramSt) : DramSt := { d with remap := lset d.remap d.migSlot d.mig.toRank }

/-- Pages of n bytes at an address. -/
def pagesOf (a n : Nat) : List Nat := upFrom (a / 4096) ((a + n - 1) / 4096 + 1 - a / 4096)

/-- A page lies in the unit that is to be copied next. -/
def DramSt.inUnit (d : DramSt) (page : Nat) : Bool := page % d.slots == d.migSlot && page / d.slots * 4096 / 2 ^ 20 == d.mig.units

/-- A piece of a copy must move before the unit is copied (R428): it has a page in the unit, and the same page of the other copy lies on
the spare rank's channel. -/
def DramSt.mustMove (d : DramSt) (mine other n : Nat) : Bool :=
  ((pagesOf mine n).zip (pagesOf other n)).any fun (p, q) => d.inUnit p && d.pageChan q == d.mig.toRank / 2

/-- New addresses for the pieces of a copy that must move. -/
def State.movedPieces (s : State) (mine other lens : List Nat) : List Nat × State :=
  ((mine.zip other).zip lens).foldl (fun (acc : List Nat × State) ((m, o), n) =>
    if acc.2.dram.mustMove m o n then
      let (a, s) := acc.2.newCopy acc.2.dram.migrated o n
      (acc.1 ++ [a], s)
    else (acc.1 ++ [m], acc.2)) ([], s)

/-- A segment of a double-lapped table before a unit is copied: what must move is written to newly allotted memory (R428). [log 238 DEDUCED] -/
def State.moveCopies (s : State) (id no : Nat) : State :=
  match (s.table id).bind fun t => (t.segs.find? (·.no == no)).map fun g => (t, g) with
  | none => s
  | some (t, g) =>
    let lens := if g.state == .opened then t.desc.frontLen :: t.desc.cols.map openCap
      else t.desc.frontLen :: g.chunksA.map (·.length)
    let (la, s) := s.movedPieces g.atA g.atB lens
    let (lb, s) := s.movedPieces g.atB la lens
    if la == g.atA && lb == g.atB then s else
    (s.modTable id fun t => { t with segs := t.segs.map fun x => if x.no == no then { x with atA := la, atB := lb } else x }).storeSeg id no

/-- The unit that is copied next is made ready (R428). -/
def State.clearUnit (s : State) : State :=
  (s.tables.tables.filter (·.2.desc.lapped)).foldl (fun s p => p.2.segs.foldl (fun s g => s.moveCopies p.1 g.no) s) s

/-- A migration unit finishes (R427 to R429); the operand names the lines of the retired rank that prove uncorrectable as they are copied. -/
def State.migrationUnit (s : State) (bad : List Nat) : State :=
  if s.dram.mig.state != 1 then s else
  let s := s.clearUnit
  let s := (bad.filter fun l => s.dram.inUnit (l / 64)).foldl (fun s l => s.uncorrectable s.dram.mig.fromRank (64 * l)) s
  let s := s.modDram fun d =>
    let u := d.mig.units + 1
    if d.unitsTotal ≤ u then
      { d with mig := { d.mig with units := u, state := 3 }, remap := lset d.remap d.migSlot d.mig.toRank }
    else { d with mig := { d.mig with units := u } }
  if s.dram.mig.units % 1024 == 0 || s.dram.mig.state == 3 then s.writeBootFlash else s

/-- A 1 MiB migration unit finishes. -/
def execMigrationUnit (bad : List Nat) (s : State) : Res := .next (s.migrationUnit bad)

end Sys2Proof.Machine
end

