-- ==== Sys2Proof/Machine/StoreOps.lean ====
section
/-! DEFINITION. The commands of the Purlin store (chapter 07): requests of the active Ridge and of tiles (R219 to R226), what a
lost copy does to bundles (R228), the background compare (R230), and the Hip units that sealing gives up (R254). -/

namespace Sys2Proof.Machine

/-- A bundle that a bank serves: it is leased to the bundle, or loaded by a KJOIN_BUILD that its pipeline holds or probes. -/
def State.bankServes (s : State) (b : Nat) (d : BDesc) (leased : List Nat) : Bool :=
  leased.contains b || (s.plan d.planSlot).any fun p =>
    let m := parseImage p.image
    let ops := ((m.pipes[d.pipeline]?).map m.rest).getD []
    p.buildBanks.any fun x => x.2.contains b && ops.any fun o =>
      (o.2.2.code == 0x10 && o.2.1 == x.1) || (o.2.2.code == 0x11 && bitsOf (o.2.2.p 0) 15 8 == x.1)

/-- Bundles that use a PLAN bank whose entry is lost end with TILE_FAULT and run again (R228). -/
def State.bankLost (s : State) (b : Nat) : State :=
  let s := (List.finRange 64).foldl (fun s t =>
    let y := s.batten.tiles[t]
    match y.desc with
    | some d => if s.bankServes b d y.run.leased then s.tileLost t stTileFault false true else s
    | none => s) s
  (s.batten.ready.filter fun r => r.saved.any fun x => s.bankServes b r.desc x.1.leased).foldl (fun s r =>
    let s := ((s.unready r.desc).dropLeases r).doneRecord r.desc 0 stTileFault
    ((s.syncSlot r.desc.planSlot).bundleFails r.desc r.order stTileFault none false).pumpPlans) s

/-- Banks of the PLAN role whose entries a request found lost. -/
def State.deadBanks (before after : State) (f : PFaults) : List Nat :=
  (f.dead.filterMap fun x =>
    let b : Fin 8 := Fin.ofNat 8 x.1
    if (before.purlin.banks[b]).role == .planRole && (nget (before.purlin.banks[b]).entries x.2).isSome
        && (after.purlin.banks[b]).uncorrectable != (before.purlin.banks[b]).uncorrectable then some b.val else none).eraseDups

/-- A tile's request names only banks it may use (R226). -/
def State.ownsBanks (s : State) (t : TileId) (role : PRole) (q : PReq) : Bool :=
  let y := s.batten.tiles[t]
  (banksOf q.banks).all fun b =>
    let k := s.purlin.banks[b]
    match role with
    | .bundle =>
      k.role == .planRole && (y.run.leased.contains b.val ||
        ((y.desc.bind fun d => s.plan d.planSlot).any fun p =>
          p.buildBanks.any fun x => x.2.contains b.val && (q.op == 1 || (s.bundleOf t).any fun u =>
            (u.2.2.1.rest u.2.2.2).any fun o => o.2.1 == x.1)))
    | .ingest => k.role == .dictRole
    | .decode => k.role == .mapRole && q.op == 1

/-- A response reaches its requester: the Ridge's registers, or the tile's by tag with READY and its unit source (R347). [log 56 DEDUCED] -/
def State.purlinAnswer (s : State) (who : PWho) (q : PReq) (r : PResp) (key : Option (List Nat)) : State :=
  let keyBytes := key.map fun k => padTo 32 (k.flatMap (toLE 8))
  match who with
  | .ridge =>
    s.modPurlin fun p =>
      { p with response := r, staging := match keyBytes with
          | some k => padTo 16 (p.staging.take 16) ++ k
          | none => p.staging }
  | .tile t tag _ =>
    s.modTile t fun c =>
      { c with purlinResp := nput c.purlinResp tag.val r, purlinReady := c.purlinReady ||| BitVec.ofNat 64 (2 ^ tag.val),
               unitSrc := c.unitSrc ||| 2, purlinStage := match keyBytes with
                 | some k => padTo 16 (c.purlinStage.take 16) ++ k
                 | none => c.purlinStage }

/-- A request waits for its banks. -/
def State.purlinWait (s : State) (who : PWho) (q : PReq) : State := s.modPurlin fun p => { p with waiting := p.waiting ++ [(who, q)] }

/-- A request its banks take: executed and answered. A SEARCH that meets a MAP entry whose copy is uncorrectable waits for its rewriting,
and repeats (R222 to R228). -/
def State.purlinRun (s : State) (who : PWho) (q : PReq) (f : PFaults) : State :=
  let (r, key, s') := s.pExecute q f
  let s' := if q.op == 1 && !s'.pReady q then s'.purlinWait who q else (s'.bump 0x18C0 3 1).purlinAnswer who q r key
  (State.deadBanks s s' f).foldl (fun s b => s.bankLost b) s'

/-- Waiting requests that their banks now take, oldest first (R225, R228). -/
def State.purlinRetry (s : State) : State :=
  s.purlin.waiting.foldl (fun s x => if s.pReady x.2 then s.purlinRun x.1 x.2 ⟨[], []⟩ else s.purlinWait x.1 x.2)
    (s.modPurlin fun p => { p with waiting := [] })

/-- A request presented (R219 to R228): refused, executed and answered, or, while a bank it names does not execute requests,
left waiting. -/
def State.purlinDo (s : State) (who : PWho) (q : PReq) (f : PFaults) : State :=
  let foreign : Bool := match who with
    | .ridge => false
    | .tile t _ role => !s.ownsBanks t role q
  if who == .ridge && !s.ridgeActs then s
  else if foreign then
    let s := s.purlinAnswer who q (PResp.refuse stNotOwner) none
    match who with
    | .tile t _ .bundle =>
      match (s.batten.tiles[t]).desc with
      | some d => s.endPlan d.planSlot stInternal
      | none => s
    | _ => s
  else if s.pMalformed (banksOf q.banks) q then s.purlinAnswer who q (PResp.refuse stBadArgument) none
  else if !s.pReady q then s.purlinWait who q
  else s.purlinRun who q f

/-- A SEARCH. -/
def execSearch (who : PWho) (q : PReq) (f : PFaults) (s : State) : Res := .next (s.purlinDo who { q with op := 1 } f)
/-- An INSERT. -/
def execInsert (who : PWho) (q : PReq) (f : PFaults) (s : State) : Res := .next (s.purlinDo who { q with op := 2 } f)
/-- A WRITE of an entry. -/
def execWrite (who : PWho) (q : PReq) (s : State) : Res := .next (s.purlinDo who { q with op := 3 } ⟨[], []⟩)
/-- An INVALIDATE of an entry. -/
def execInvalidate (who : PWho) (q : PReq) (s : State) : Res := .next (s.purlinDo who { q with op := 4 } ⟨[], []⟩)
/-- A READ of an entry. -/
def execRead (who : PWho) (q : PReq) (s : State) : Res := .next (s.purlinDo who { q with op := 5 } ⟨[], []⟩)
/-- A CLEAR of banks. -/
def execClear (who : PWho) (q : PReq) (s : State) : Res := .next (s.purlinDo who { q with op := 6 } ⟨[], []⟩).purlinRetry

/-- The background port finds an entry's cells different from its copy: a false hit, or, where the copy is uncorrectable, the
loss of the entry (R228, R230). -/
def State.backCompare (s : State) (b : Fin 8) (idx : Nat) (dead : Bool) : State :=
  if (nget (s.purlin.banks[b]).entries idx).isNone then s
  else if !dead then s.falseHit b idx
  else
    let plan := (s.purlin.banks[b]).role == .planRole
    let s := s.deadEntry b idx
    if plan then s.bankLost b.val else s

/-- The background compare meets a difference. -/
def execPurlinBackgroundCompare (bank : Fin 8) (index : Nat) (dead : Bool) (s : State) : Res := .next (s.backCompare bank index dead)

/-- The active Ridge rewrites a MAP entry from the generation in force; searches of the bank no longer wait for it (R228). -/
def State.mapRewrite (s : State) (b : Fin 8) (idx : Nat) : State :=
  if !s.ridgeActs || !(s.purlin.banks[b]).awaiting.contains idx then s else
  ((s.bump 0x18C0 3 1).modBank b fun k =>
    { k with awaiting := k.awaiting.filter (· != idx), entries := match nget s.ingest.mapNow.entries (b.val * 65536 + idx) with
        | some e => nput k.entries idx e.cells
        | none => k.entries }).purlinRetry

/-- A MAP entry is rewritten. -/
def execMapEntryRewrite (bank : Fin 8) (index : Nat) (s : State) : Res := .next (s.mapRewrite bank index)

/-- Sealing gives a course's Hip unit up at a 4,096-record boundary to a bundle that waits for one (R254). [log 62 DEDUCED] -/
def State.hipYield (s : State) (c : CourseId) : State :=
  if (s.purlin.hipSeal[c]).isNone || !s.batten.ready.any (fun r => r.desc.hip && bitAt r.desc.courses c.val) then s
  else (s.modPurlin fun p => { p with hipSeal := p.hipSeal.set c none }).pumpPlans.bump 0x20C0 3 1

/-- Sealing yields the Hip unit of a course. -/
def execSealHipYield (course : CourseId) (s : State) : Res := .next (s.hipYield course)

end Sys2Proof.Machine
end

