-- ==== Sys2Proof/Machine/Spar.lean ====
section
/-! DEFINITION. The Spar core's shared operations (chapter 10): registers, what an access may reach, the tile-control block,
loads and stores with their faults, taking an exception and stalling, and how an instruction runs. -/

namespace Sys2Proof.Machine

/-! Registers. -/

/-- A general register written. -/
def Tile.setG (c : Tile) (d : Reg) (x : Word) : Tile := { c with g := c.g.set d x }

/-- A vector register written; ST.VX is set (R323). -/
def Tile.setV (c : Tile) (d : Reg) (x : VecReg) : Tile := { c with v := c.v.set d x, vx := true }

/-- f(d) written: the value in the low bits, the rest of v(d) zero (R356). -/
def Tile.setF (c : Tile) (d : Reg) (x : Nat) : Tile := c.setV d (BitVec.ofNat 512 x)

/-- f(a): its low 64 bits (R322). -/
def Tile.f (c : Tile) (a : Reg) : Nat := (c.v[a]).toNat % 2 ^ 64

/-- A mask register; m0 reads as all ones (R322). -/
def Tile.mask (c : Tile) (k : MReg) : Nat := if k == 0 then 2 ^ 64 - 1 else (c.m[k]).toNat

/-- A mask register written; m0 ignores it (R322, R357). [log 83 DEDUCED] -/
def Tile.setM (c : Tile) (k : MReg) (x : Nat) : Tile :=
  if k == 0 then c else { c with m := c.m.set k (BitVec.ofNat 64 x), vx := true }

/-- Flags added to FX. -/
def Tile.addFx (c : Tile) (x : Fx) : Tile := { c with fx := c.fx ||| x }

/-- An address as PC holds it: bits [1:0] and [63:48] zero (R322). -/
def pcWord (x : Nat) : Word := BitVec.ofNat 64 (x % 2 ^ 48 / 4 * 4)

/-- ST as a word (R323). -/
def Tile.st (c : Tile) : Nat := c.im.toNat + c.pl.toNat * 2 + c.vx.toNat * 4 + c.fx.toNat * 8

/-- ST written whole. -/
def Tile.setSt (c : Tile) (x : Nat) : Tile :=
  { c with im := bitAt x 0, pl := bitAt x 1, vx := bitAt x 2, fx := BitVec.ofNat 5 (x / 8) }

/-- TC_STATE follows the mode (R348). -/
def Tile.byMode (c : Tile) : Tile := { c with state := if c.pl then .monitor else .bundle }

/-! Events (R343, R347). -/

/-- TIMER is pending (R324, R343). [log 78 DEDUCED] -/
def State.timerPending (s : State) (c : Tile) : Bool := c.tcmp != 0 && c.tcmp.toNat ≤ s.time.ts && !c.timerTaken

/-- ASYNC_PENDING (R347). -/
def State.asyncPending (s : State) (c : Tile) : Nat :=
  c.pendPreempt.toNat + c.pendDispatch.toNat * 2 + (c.unitSrc &&& c.unitEnable != 0).toNat * 4 + (s.timerPending c).toNat * 8

/-! What an access may reach (R325, R326). -/

/-- Kinds of access. -/
inductive SAcc where
  | load | store | fetch
deriving DecidableEq, Repr

/-- The bit of WATTR that grants an access (R324). -/
def SAcc.bit : SAcc → Nat
  | .load => 1 | .store => 2 | .fetch => 3

/-- An address of the tile scratch range (R325). -/
def inScratch (a : Nat) : Bool := scratchBase ≤ a && a < scratchBase + 0x1000000

/-- The base of a tile's control block (R347). -/
def ctlBase (t : TileId) : Nat := 0x030001000000 + t.val * 0x10000

/-- An address of a tile's own control block. -/
def inCtl (t : TileId) (a : Nat) : Bool := ctlBase t ≤ a && a < ctlBase t + 0x10000

/-- An enabled window grants the access in the present mode (R324, R326); windows cover DRAM and scratch (R24). [log 105 DEDUCED] -/
def State.windowGrants (s : State) (c : Tile) (k : SAcc) (a : Nat) : Bool :=
  (a < s.dram.managed || inScratch a) && (List.finRange 16).any fun i =>
    let w := (c.wattr[i]).toNat
    bitAt w 0 && bitAt w k.bit && (c.pl || !bitAt w 4) && (c.wbase[i]).toNat ≤ a && a < (c.wlim[i]).toNat

/-- The core permits an access to a byte (R326). -/
def State.byteOk (s : State) (t : TileId) (k : SAcc) (a : Nat) : Bool :=
  let c := s.tiles[t]
  (inScratch a && (c.pl || (k != .fetch && (a - scratchBase) % 0x40000 < c.scrMon.toNat * 4096)))
    || (c.pl && inCtl t a) || s.windowGrants c k a

/-- The lowest byte of an access that is not permitted (R326). -/
def State.firstBad (s : State) (t : TileId) (k : SAcc) (a n : Nat) : Option Nat := (upFrom a n).find? fun x => !s.byteOk t k x

/-! Exceptions (R338 to R341). -/

/-- An exception to be taken: its cause, and the regions whose dirty sectors the access lost. -/
structure SFault where
  no : Nat
  status : Nat
  value : Nat
  element : Option Nat
  fetch : Bool
  /-- The frame PC is PC + 4. -/
  after : Bool
  lost : List (Nat × Bool)
deriving DecidableEq, Repr

/-- A fault of an instruction. -/
def SFault.mk0 (no status value : Nat) : SFault :=
  { no := no, status := status, value := value, element := none, fetch := false, after := false, lost := [] }

/-- WINDOW_FAULT. -/
def SFault.window (a : Nat) : SFault := .mk0 0x04 stWindowFault a
/-- ALIGN. -/
def SFault.align (a : Nat) : SFault := .mk0 0x03 stInternal a
/-- POISONED. -/
def SFault.poisoned (a : Nat) : SFault := .mk0 0x05 stPoisoned a

/-- The CAUSE word (R340). -/
def SFault.cause (f : SFault) : Nat :=
  f.no + (f.element.getD 0) * 2 ^ 8 + f.element.isSome.toNat * 2 ^ 14 + f.fetch.toNat * 2 ^ 15 + f.status * 2 ^ 16

/-- MSP fails the first test of R338. -/
def Tile.pushBad (c : Tile) : Bool :=
  let m := c.msp.toNat
  m % 32 != 0 || m < scratchBase + 32 || scratchBase + 0x1000000 < m || m + 32 < c.msl.toNat

/-- Bytes written at a scratch address (R325). -/
def Tile.scratchPut (c : Tile) (a : Nat) : Bytes → Tile
  | [] => c
  | b :: bs => Tile.scratchPut { c with scratch := memPut c.scratch ((a - scratchBase) % 0x40000) b } (a + 1) bs

/-- Bytes read at a scratch address (R325). -/
def Tile.scratchGet (c : Tile) (a n : Nat) : Bytes := (List.range n).map fun i => memByte c.scratch ((a + i - scratchBase) % 0x40000)

/-- The tile latches a cause in its fault registers, the first one only, and is STALLED (R339). -/
def Tile.latch (c : Tile) (cause : Nat) (pc : Word) : Tile :=
  let c := if c.tfValid then c else { c with tfValid := true, tfCause := BitVec.ofNat 64 cause, tfMsp := c.msp, tfPc := pc }
  { c with state := .stalled }

/-- A tile stalls and reports to the Batten (R339). [log 70 DEDUCED] -/
def State.stall (s : State) (t : TileId) (cause : Nat) (pc : Word) (code : Nat) : State :=
  (s.modTile t fun c => c.latch cause pc).tileStalled t code

/-- The frame written at MSP − 32 and the monitor entered at MVEC (R338). -/
def Tile.enter (c : Tile) (pc : Word) (cause value : Nat) : Tile :=
  let m := c.msp.toNat - 32
  let c := c.scratchPut m (toLE 8 pc.toNat ++ toLE 8 c.st ++ toLE 8 cause ++ toLE 8 value)
  { c with msp := BitVec.ofNat 64 m, im := true, pl := true, pc := pcWord c.mvec.toNat, state := .monitor }

/-- take_exception of R338. -/
def State.takeException (s : State) (t : TileId) (cause value : Nat) (pc : Word) : State :=
  let c := s.tiles[t]
  if c.pushBad then s.stall t cause pc stTileFault
  else if c.msl.toNat + 32 ≤ c.msp.toNat then s.modTile t fun c => c.enter pc cause value
  else if c.msp == c.msl then s.modTile t fun c => c.enter pc (stStackLimit * 2 ^ 16 + 0x09) cause
  else s.stall t cause pc stStackLimit

/-! The tile-control block (R347). -/

/-- The 8-byte word at an offset of the block, as the tile monitor reads it. -/
def State.ctlWord (s : State) (t : TileId) (off : Nat) : Nat :=
  let c := s.tiles[t]
  if off == 0x00 then c.state.code
  else if off == 0x08 then c.resetPc.toNat
  else if off == 0x10 then c.tfCause.toNat % 2 ^ 63 + c.tfValid.toNat * 2 ^ 63
  else if off == 0x18 then c.tfMsp.toNat
  else if off == 0x20 then c.tfPc.toNat
  else if 0x40 ≤ off && off < 0x80 then fieldAt (off - 0x40) 8 c.mailbox.bytes
  else if 0x100 ≤ off && off < 0x130 then fieldAt (off - 0x100) 8 c.purlinStage
  else if off == 0x148 then c.purlinReady.toNat
  else if 0x200 ≤ off && off < 0x240 then fieldAt (off - 0x200) 8 c.reedCmd
  else if off == 0x248 then c.reedBusy.toNat + c.reedHanded % 256 * 2 ^ 8 + c.reedStatus % 2 ^ 16 * 2 ^ 16
  else if off == 0x300 then s.asyncPending c
  else if off == 0x308 then c.unitSrc.toNat
  else if off == 0x310 then c.unitEnable.toNat
  else if 0x800 ≤ off && off < 0xC00 then
    fieldAt (off % 16) 8 ((nget c.purlinResp ((off - 0x800) / 16)).map PResp.bytes |>.getD [])
  else 0

/-- Bytes of the block. -/
def State.ctlBytes (s : State) (t : TileId) (off n : Nat) : Bytes :=
  (upFrom off n).map fun x => BitVec.ofNat 8 (s.ctlWord t (x / 8 * 8) / 2 ^ (8 * (x % 8)))

/-- The segment a Reed command of the tile's bundle scans next: its UNIT's, or the one in which blocks are left (R191). -/
def State.reedSeg (s : State) (t : TileId) : Nat :=
  match s.bundleOf t with
  | none => 0
  | some (d, p, m, pd) => (((s.batten.tiles[t]).reed.left (s.bundleBlocks p m pd d.unit)).head?.getD 0) / 16

/-- The tile monitor writes bytes within one 8-byte word of its block (R347). [log 61 DEDUCED, 72 DESIGN CHOICE, 93 DEDUCED] -/
def State.ctlWrite (s : State) (t : TileId) (off : Nat) (bs : Bytes) : State :=
  let reg := off / 8 * 8
  let v := leNat bs * 2 ^ (8 * (off % 8))
  let keep := fun (old : Nat) => leNat (putAt (toLE 8 old) (off % 8) bs)
  if reg == 0x80 then if bitAt v 0 then s.dispatchAck t else s
  else if reg == 0x88 then if bitAt v 0 then s.tileYield t [] else s
  else if reg == 0x90 then s.tileDone t (v % 2 ^ 16) [] []
  else if 0x100 ≤ reg && reg < 0x130 then
    s.modTile t fun c => { c with purlinStage := putAt (padTo 48 c.purlinStage) (off - 0x100) bs }
  else if reg == 0x140 then s.purlinDo (.tile t (Fin.ofNat 64 v) .bundle) (PReq.parse (padTo 48 (s.tiles[t]).purlinStage)) ⟨[], []⟩
  else if reg == 0x148 then s.modTile t fun c => { c with purlinReady := c.purlinReady &&& ~~~(BitVec.ofNat 64 v) }
  else if 0x200 ≤ reg && reg < 0x240 then
    s.modTile t fun c => { c with reedCmd := putAt (padTo 64 c.reedCmd) (off - 0x200) bs }
  else if reg == 0x240 then
    if v == 1 then
      let cmd := padTo 64 (s.tiles[t]).reedCmd
      s.reedStart t (s.reedSeg t) (fieldAt 48 2 cmd) (fieldAt 50 2 cmd) []
    else if v == 2 then s.reedAbandon t else s
  else if reg == 0x308 then s.modTile t fun c => { c with unitSrc := c.unitSrc &&& ~~~(BitVec.ofNat 4 v) }
  else if reg == 0x310 then s.modTile t fun c => { c with unitEnable := BitVec.ofNat 4 (keep c.unitEnable.toNat) }
  else s

/-! Reads and writes of a tile, permitted beforehand. -/

/-- n bytes at an address, or the lowest address met that is POISONED. -/
def State.tileRead (s : State) (t : TileId) (a n : Nat) : Except Nat Bytes × State :=
  if inScratch a then (.ok ((s.tiles[t]).scratchGet a n), s)
  else if inCtl t a then (.ok (s.ctlBytes t (a - ctlBase t) n), s)
  else s.dramGet t a n

/-- Bytes written at an address. -/
def State.tileWrite (s : State) (t : TileId) (a : Nat) (bs : Bytes) : State :=
  if inScratch a then s.modTile t fun c => c.scratchPut a bs
  else if inCtl t a then
    (cuts 8 (bs.length + 1) a bs.length).foldl (fun s c => s.ctlWrite t (c.1 - ctlBase t) (sliceB (c.1 - a) c.2 bs)) s
  else s.dramPut t a bs

/-- A clean line met bad parity: the cache's record (R669). [log 250 DESIGN CHOICE] -/
def State.cleanParity (s : State) (src scope id : Nat) : State :=
  s.raise src { ErrRec.blank with severity := .corrected, scope := scope, scopeId := id, event := 2 }

/-- A parity error met (R397): whether the load raises LINE_LOST, and the regions whose dirty sectors are lost, each with whether
an L1 lost them. [log 86 DESIGN CHOICE] -/
def State.parityMet (s : State) (t : TileId) (a : Nat) (p : CPar) : Bool × List (Nat × Bool) × State :=
  let line := a / 128
  match p with
  | .none => (false, [], s)
  | .fetch =>
    let at' := (s.tiles[t]).pc.toNat / 128
    if (s.tiles[t]).l1i.any fun x => x.2.line == at' then
      (false, [], ((s.modTile t fun c => { c with l1i := c.l1i.filter fun x => x.2.line != at' }).bump 0x1801 1 1).cleanParity
        (srcTile t) 5 t.val)
    else (false, [], s)
  | .l1 =>
    match (s.tiles[t]).l1Held line with
    | none => (false, [], s)
    | some x =>
      let j := a % 128 / 32
      if x.dirty.getD j false then
        let (r, s) := s.dropDirty t [line]
        (true, r.map fun k => (k, true), s)
      else
        let upd := fun (y : L1Line) => if y.line == line then { y with valid := lset y.valid j false } else y
        (false, [], ((s.modTile t fun c => { c with l1d := c.l1d.map fun p => (p.1, upd p.2), victim := c.victim.map upd }).bump
          0x1801 1 1).cleanParity (srcTile t) 5 t.val)
  | .thatch =>
    let l := a / 64
    let i := thSlice l
    match ((s.thatch.slices[i]).find l).bind fun k => (nget (s.thatch.slices[i]).lines k).map fun x => (k, x) with
    | none => (false, [], s)
    | some (k, x) =>
      let s := s.modSlice i fun c => { c with lines := ndel c.lines k }
      let n := x.dirty0.toNat + x.dirty1.toNat
      if n == 0 then (false, [], (s.bump 0x1801 2 1).cleanParity (0xD0 + i.val) 7 i.val) else (false, x.region.toList.map fun r => (r, false), s.bump 0x1801 4 n)

/-- What a load answers: its bytes or its fault, with the regions lost on the way. -/
structure SLoad where
  data : Except SFault Bytes
  lost : List (Nat × Bool)

/-- A load after its alignment and permission are known: POISONED and LINE_LOST (R342, R397). -/
def State.loadBytes (s : State) (t : TileId) (a n : Nat) (p : CPar) : SLoad × State :=
  let (gone, lost, s) := s.parityMet t a p
  if gone then (⟨.error { SFault.mk0 0x06 stTileFault (a / 128 * 128) with lost := lost }, []⟩, s) else
  match s.tileRead t a n with
  | (.ok d, s) => (⟨.ok d, lost⟩, s)
  | (.error x, s) => (⟨.error { SFault.poisoned x with lost := lost }, []⟩, s)

/-- A load of n bytes at an address: ALIGN, WINDOW_FAULT, POISONED, LINE_LOST in that order (R327, R342). -/
def State.sparLoad (s : State) (t : TileId) (a n : Nat) (p : CPar) : SLoad × State :=
  if a % n != 0 then (⟨.error (.align a), []⟩, s) else
  match s.firstBad t .load a n with
  | some b => (⟨.error (.window b), []⟩, s)
  | none => s.loadBytes t a n p

/-! How an instruction runs. -/

/-- What an instruction comes to: PC + 4, another PC, the same PC (a stream between granules), or an exception. The regions
are those whose dirty sectors a load found lost in the Thatch. -/
inductive SOut where
  | next (s : State) (lost : List (Nat × Bool))
  | goto (s : State) (pc : Nat)
  | hold (s : State) (lost : List (Nat × Bool))
  | fault (s : State) (f : SFault)

/-- The tile executes instructions: MONITOR or BUNDLE, on a course that is not parked. [log 76 DEDUCED] -/
def State.sparRuns (s : State) (t : TileId) : Bool :=
  ((s.tiles[t]).state == .monitor || (s.tiles[t]).state == .bundle) && (s.power.courses[courseOf t]).effective != 3

/-- The fetch at PC: WINDOW_FAULT or POISONED (R326, R341), through the instruction cache (R383). [log 77 DEDUCED] -/
def State.sparFetch (s : State) (t : TileId) : Option SFault × State :=
  let c := s.tiles[t]
  let a := c.pc.toNat
  match s.firstBad t .fetch a 4 with
  | some b => (some { SFault.window b with fetch := true }, s)
  | none =>
    if a < s.dram.managed then
      let (ok, s) := s.iFetch t a (if c.pl then none else some c.mailbox.planSlot)
      (if ok then none else some { SFault.poisoned a with fetch := true }, s)
    else (none, s)

/-- The regions lost are charged to their owners (R398). -/
def State.chargeLost (s : State) (lost : List (Nat × Bool)) : State := lost.foldl (fun s x => s.regionLost x.1 x.2) s

/-- PC set, unless the instruction had its own tile reset. -/
def State.setPc (s : State) (t : TileId) (pc : Nat) : State :=
  if (s.tiles[t]).state == .reset then s else s.modTile t fun c => { c with pc := pcWord pc }

/-- A synchronous exception of the instruction at a PC. -/
def State.raiseFault (s : State) (t : TileId) (pc : Nat) (f : SFault) : State :=
  (s.takeException t f.cause f.value (pcWord (if f.after then pc + 4 else pc))).chargeLost f.lost

/-- The outcome of an instruction at a PC put in effect. -/
def SOut.retire (t : TileId) (pc : Nat) : SOut → State
  | .next s lost => (s.setPc t (pc + 4)).chargeLost lost
  | .goto s x => s.setPc t x
  | .hold s lost => s.chargeLost lost
  | .fault s f => s.raiseFault t pc f

/-- A tile executes one instruction: its word for ILLEGAL and PRIVILEGED, whether the word is legal and needs monitor mode,
and its effect (R342). A tile that fetches nothing executes nothing. [log 75 DESIGN CHOICE] -/
def State.sparWord (s : State) (t : TileId) (word : Nat) (legal monitor : Bool) (body : State → SOut) : State :=
  if !s.sparRuns t then s else
  let pc := (s.tiles[t]).pc.toNat
  match s.sparFetch t with
  | (some f, s) => s.raiseFault t pc f
  | (none, s) =>
    if !legal then s.raiseFault t pc (.mk0 0x01 stInternal word)
    else if monitor && !(s.tiles[t]).pl then s.raiseFault t pc (.mk0 0x02 stInternal word)
    else (body s).retire t pc

/-- An instruction that is always legal in both modes. -/
def State.spar (s : State) (t : TileId) (body : State → SOut) : State := s.sparWord t 0 true false body

/-- An instruction that changes only its tile's registers. -/
def State.sparRegs (s : State) (t : TileId) (f : Tile → Tile) : State := s.spar t fun s => .next (s.modTile t f) []

/-- An instruction that writes one general register. -/
def State.sparG (s : State) (t : TileId) (d : Reg) (f : Tile → Word) : State := s.sparRegs t fun c => c.setG d (f c)

/-- A branch (R331): PC + 4 × the offset where it is taken. -/
def State.sparBranch (s : State) (t : TileId) (off : BitVec 16) (taken : Tile → Bool) : State :=
  s.spar t fun s =>
    let c := s.tiles[t]
    if taken c then .goto s (unsignedOf 64 ((c.pc.toNat : Int) + 4 * off.toInt)) else .next s []

/-- The address of a scalar access: base + offset, modulo 2^64. -/
def Tile.ea (c : Tile) (a : Reg) (off : BitVec 16) : Nat := (c.g[a] + off.signExtend 64).toNat

/-- A scalar load: its bytes given to a register (R331). -/
def State.sparLd (s : State) (t : TileId) (a : Reg) (off : BitVec 16) (n : Nat) (p : CPar) (put : Nat → Tile → Tile) : State :=
  s.spar t fun s =>
    match s.sparLoad t ((s.tiles[t]).ea a off) n p with
    | (⟨.ok d, lost⟩, s) => .next (s.modTile t (put (leNat d))) lost
    | (⟨.error f, _⟩, s) => .fault s f

/-- A scalar store of n bytes (R331): ALIGN, WINDOW_FAULT, then the write. -/
def State.sparSt (s : State) (t : TileId) (a : Reg) (off : BitVec 16) (n : Nat) (val : Tile → Nat) : State :=
  s.spar t fun s =>
    let x := (s.tiles[t]).ea a off
    if x % n != 0 then .fault s (.align x) else
    match s.firstBad t .store x n with
    | some b => .fault s (.window b)
    | none => .next (s.tileWrite t x (toLE n (val (s.tiles[t])))) []

end Sys2Proof.Machine
end

