-- ==== Sys2Proof/Machine/Startup.lean ====
section
/-! DEFINITION. Start-up (R617 to R624, R681 to R685): the steps S0 to S12, what a failed step leads to, halts, and the events
that begin a start. One event runs the whole start; what each pass through the steps meets is an operand of it. -/

namespace Sys2Proof.Machine

/-- How a step ends: the next one runs, a start of a kind begins (0 COLD, 1 WAKE, 2 WARM), or the start halts. -/
inductive StepEnd where
  | go
  | again (kind : Nat)
  | halt
deriving DecidableEq, Repr

/-! The record of a step (R620, R621, R624). -/

/-- A step's record changed, and the shadow with it (R624). [log 175 DESIGN CHOICE] -/
def State.noteStep (s : State) (n : Fin 13) (f : StepRec → StepRec) : State :=
  (s.modBoot fun b => { b with steps := b.steps.set n (f (b.steps[n])) }).writeShadow

/-- ATTEMPT_LIMIT of a step: S0 to S2 use 3 after a loss of the standby supply (R621). -/
def State.attemptLimit (s : State) (n : Fin 13) : Nat :=
  if n.val < 3 && s.dram.standbyLost then 3 else s.boot.limits[n]

/-- The step's attempt count has reached its limit. -/
def State.atLimit (s : State) (n : Fin 13) : Bool := s.attemptLimit n ≤ (s.boot.steps[n]).attempts

/-- A step passes: its attempt count clears; an alternative taken before stays in force (R621). [log 176 DEDUCED] -/
def State.stepPassed (s : State) (n : Fin 13) : State :=
  s.noteStep n fun r =>
    if r.outcome ≤ 1 then ⟨s.time.ts, 0, 1, 0, 0⟩ else { r with ts := s.time.ts, attempts := 0, outcome := 3 }

/-- A step fails: recorded before anything else is done (R620); CAUSE and DETAIL are free values. [log 175 DESIGN CHOICE] -/
def State.stepFailed (s : State) (n : Fin 13) : State :=
  let (c, s) := s.fresh
  let (d, s) := s.fresh
  s.noteStep n fun r => ⟨s.time.ts, min 255 (r.attempts + 1), 2, Config.freeNat c % 2 ^ 16, Config.freeNat d % 2 ^ 32⟩

/-- The alternative of a failed step is in force, or its limit outcome with an error record (R621, R669). [log 176 DEDUCED] -/
def State.stepTakes (s : State) (n : Fin 13) : State :=
  if s.atLimit n then
    (s.noteStep n fun r => { r with outcome := 4 }).raise srcFinial { ErrRec.blank with severity := .degraded, event := 30 + n.val }
  else s.noteStep n fun r => { r with outcome := 3 }

/-- A restart under R620: the flash copy is written before it (R624). -/
def State.stepAgain (s : State) (n : Fin 13) (kind : Nat) : StepEnd × State := (.again kind, (s.stepTakes n).writeBootFlash)

/-- A halt (R622): both Ridges in reset, CONTROL_LOST, FIN_ALERT_N low. [log 185 DEDUCED, 251 DEDUCED] -/
def State.haltAt (s : State) (n : Fin 13) : State :=
  let s := s.noteStep n fun r => { r with outcome := 4 }
  let s := s.modBoot fun b => { b with halted := true, haltStep := n.val }
  let s := s.modFinial fun x => { x with ridges := .replicate 2 .reset, holder := 0, handover := false, alertForced := true }
  ((s.alert 2 .fatal 0 n.val).setPowered false).noteOutage

/-! What every start begins with. -/

/-- STEP_RESET clears every alternative and attempt count, TRAIN_RESET every training state (R409, R641). [log 184 DEDUCED] -/
def State.startResets (s : State) : State :=
  let s := if s.boot.stepReset then
      (s.modBoot fun b =>
        { b with stepReset := false, steps := .replicate 13 ⟨0, 0, 0, 0, 0⟩, coursesOff := 0, banksOff := 0, slicesOff := 0, portsOff := 0
                 rateSteps := 0, eaveOff := false, startB := false, noStore := false }).modDram fun d => { d with train := .replicate 8 0 }
    else s
  s.modDram fun d => { d with train := if d.trainReset then .replicate 8 0 else d.train, trainReset := false }

/-- Every domain but 18 begins anew, and with it what R594, R61, R482 and R636 reset at a start; a WARM start counts as powered time
and as an outage from its trigger (R673). [log 251 DEDUCED] -/
def State.startBegin (s : State) (kind : Nat) : State :=
  let s := s.dark.startResets
  let s := if kind == 2 then (s.setPowered true).setOutage true else s
  let s := s.modTime fun t => { t with seqs := [] }
  let s := s.modFinial fun x =>
    { FinialSt.reset with alert := x.alert &&& 0x1700 ||| 2, alertMask := x.alertMask, vetoLow := x.vetoLow, vetoInCycle := x.vetoLow
                          lastTakeover := x.lastTakeover, heartbeatsIgnored := x.heartbeatsIgnored, heartbeatsMissed := x.heartbeatsMissed }
  let s := s.modFlash fun f => { f with alarms := f.alarms &&& (if kind == 2 then 0x14 else 0x10) }
  let s := s.modDram fun d => { d with phase := .out, retainFrom := none, migPause := false }
  s.modBoot fun b =>
    { b with kind := kind, ms := .replicate 8 (zeros 32), mainUp := true, mainEn := true, wakePending := false, brownedOut := false
             clockAlarms := 0, railsOut := if kind == 2 then b.railsOut else 0 }

/-! S0 to S2. -/

/-- S0: resets released, the straps sampled (R685). -/
def State.startS0 (s : State) (env : StartEnv) : StepEnd × State :=
  let s := s.modBoot fun b =>
    { b with straps := env.straps % 64, rails := Vector.ofFn fun (k : Fin 10) => env.rails.getD k.val (b.rails[k]) }
  (.go, s.stepPassed 0)

/-- The fuse bits that MS0 is extended with: [1155:1024], then [1735:1732] (R628, R636). [log 170 DEDUCED] -/
def Fuses.measured (f : Fuses) : Bytes :=
  toLE 17 (f.revoked % 16 + (2 ^ f.ridgeSvn - 1) * 2 ^ 4 + (2 ^ f.tileSvn - 1) * 2 ^ 68) ++ toLE 1 f.grade

/-- S1: fuses read, MS0 extended; STRAP_TEST other than 0 halts (R685). -/
def State.startS1 (s : State) (kind : Nat) (env : StartEnv) : StepEnd × State :=
  if s.boot.straps / 16 != 0 then (.halt, s.stepFailed 1)
  else if env.fuseBad then
    let s := s.stepFailed 1
    if s.atLimit 1 then (.halt, s) else s.stepAgain 1 kind
  else
    let s := s.modBoot fun b => { b with romDigest := padTo 32 Config.romDigest, romVersion := Config.romVersion % 2 ^ 32 }
    (.go, ((s.extendMs 0 s.boot.romDigest).extendMs 0 s.boot.fuses.measured).stepPassed 1)

/-- S2: the Finial's self-test; at the limit the start goes on with FINIAL_FAULT. [log 170 DEDUCED] -/
def State.startS2 (s : State) (kind : Nat) (env : StartEnv) : StepEnd × State :=
  if !env.finialBad then (.go, s.stepPassed 2) else
  let s := s.stepFailed 2
  if s.atLimit 2 then
    (.go, (((s.stepTakes 2).modFinial fun x => { x with fault := true }).alert 3 .fatal 11 0))
  else s.stepAgain 2 kind

/-! S3 and S4: Ridges, images, the start-up block of the store. -/

/-- Objects that are read before S10 (R626). -/
def earlyKey (key : Nat) : Bool :=
  let i := key / 256
  (0x0200 ≤ i && i ≤ 0x02FF) || (0x0400 ≤ i && i ≤ 0x04FF) || (0x0800 ≤ i && i ≤ 0x1FFF) || (0x3000 ≤ i && i ≤ 0x30FF)

/-- A store record whose object takes a stored value. -/
def storedRow (key : Nat) : Option ObjRow :=
  if 2 ^ 24 ≤ key then none else
  (objRow key).filter fun r => (r.access == 1 || r.access == 2) && bitAt r.marks 0

/-- A record's CRC and range hold (R621). -/
def recordOk (env : StartEnv) (key : Nat) (r : ObjRow) (v : Bytes) : Bool :=
  !env.badRecords.contains key && r.lengthOk v && (r.hi == 0 || (r.lo ≤ leNat v && leNat v ≤ r.hi))

/-- Stored values of some keys come into force; a record that fails is skipped and named. -/
def State.loadStore (s : State) (env : StartEnv) (which : Nat → Bool) : State :=
  if s.boot.noStore then s else
  s.dict.store.foldl (fun s (p : Nat × Bytes) =>
    if !which p.1 then s else
    match storedRow p.1 with
    | none => s
    | some r =>
      if recordOk env p.1 r p.2 then s.setVal p.1 p.2
      else s.raise s.ridgeSrc { ErrRec.blank with severity := .degraded, event := 45, detail0 := p.1 }) s

/-- Some stored record of these keys fails. -/
def State.storeFails (s : State) (env : StartEnv) : Bool :=
  !s.boot.noStore && s.dict.store.any fun p => (storedRow p.1).any fun r => !recordOk env p.1 r p.2

/-- The greatest stamp that the boot record holds (R45). [log 182 DEDUCED] -/
def BootSt.lastStamp (b : BootSt) : Nat :=
  match b.record with
  | none => 0
  | some r => ((List.range 13).map fun n => fieldAt (0x50 + 16 * n) 8 r).foldl max (max (fieldAt 0x08 8 r) (fieldAt 0x18 8 r))

/-- A stored number, 0 where the store holds none. -/
def State.stored (s : State) (index sub : Nat) : Nat := leNat ((nget s.dict.store (objKey index sub)).getD [])

/-- The value that S5 loads after a loss of the standby supply, from what flash holds (R45). -/
def State.flashTime (s : State) : Nat := max (if s.boot.noStore then 0 else s.stored 0x0413 1) s.boot.lastStamp + 1000000

/-- After a loss of the standby supply, S3 restores the distances and commits the three reserves (R45, R46, R58); the
boot record's distances stand in for a reserve that cannot be read. A commit that fails leaves its reserve as flash has it. -/
def State.commitReserves (s : State) (bad : Nat) : State :=
  if !s.dram.standbyLost || s.time.tsReserve != 0 then s else
  let rec' := s.boot.record.getD []
  let ts := s.flashTime
  let dist := max (if s.boot.noStore then 0 else s.stored 0x0413 2) (fieldAt 0x20 8 rec')
  let rev := max (if s.boot.noStore then 0 else s.stored 0x0413 3) (fieldAt 0x28 8 rec')
  let s := s.modTime fun t => { t with dist := dist * 65536, rev := rev * 65536, tsReserve := ts, distReserve := dist, revReserve := rev }
  let commit := fun (s : State) (k : Fin 3) (v : Nat) =>
    if bitAt bad k.val then s.reserveFails k else
    ((s.modTime fun t => t.setReserve k v).storeWrite (objKey 0x0413 (k.val + 1)) (some (toLE 8 v))).bump 0x0413 4 1
  commit (commit (commit s 0 (ts + 60000000000)) 1 (dist + 10000000)) 2 (rev + 10000000)

/-- The Ridge a start grants the token to (R591, R609, R621). -/
def State.startRidge (s : State) (fromKeep : Bool) : Fin 2 := if s.boot.startB && !fromKeep && !s.finial.fault then 1 else 0

/-- S3: both Ridges tested, the token granted, the start-up block and the limits read. [log 177 DEDUCED] -/
def State.startS3 (s : State) (fromKeep : Bool) (env : StartEnv) : StepEnd × State :=
  let s := (s.modFinial fun x => { x with ridges := .replicate 2 { RidgeSt.reset with state := .testing } }).modBoot fun b => { b with xspiOn := true }
  let r := s.startRidge fromKeep
  let o := otherRidge r
  if bitAt env.romFail r.val then
    let s := (s.ridgeFails r 6).stepFailed 3
    if s.atLimit 3 && bitAt env.romFail o.val then (.halt, s)
    else (s.modBoot fun b => { b with startB := r == 0 }).stepAgain 3 2
  else if env.blocksBad && !s.boot.noStore then
    ((s.stepFailed 3).modBoot fun b => { b with noStore := true }).stepAgain 3 2
  else
    let s := s.grant r
    let s := if bitAt env.romFail o.val then s.ridgeFails o 6 else s.modRidge o fun k => { k with state := .syncing }
    let s := (s.commitReserves env.reserveBad).loadStore env earlyKey
    let s := match s.objBytes 0x0202 1 with
      | some v => s.modBoot fun b => { b with limits := Vector.ofFn fun (k : Fin 13) => fieldAt k.val 1 v }
      | none => if s.boot.noStore then s else s.modBoot fun b => { b with limits := .replicate 13 3 }
    (.go, s.stepPassed 3)

/-- S4: the chosen Ridge image is checked (R629), or the other slot is chosen. [log 178 DEDUCED] -/
def State.startS4 (s : State) : StepEnd × State :=
  let k := s.boot.used 1
  let o := s.boot.unused 1
  match s.boot.fuses.refuse 1 (s.boot.slots[k]).image with
  | some _ =>
    let s := (s.modSlot k fun x => { x with state := if x.image.isEmpty then 0 else 4 }).stepFailed 4
    if s.atLimit 4 && (s.boot.fuses.refuse 1 (s.boot.slots[o]).image).isSome then (.halt, s)
    else (s.modBoot fun b => { b with ridgeSlot := o.val }).stepAgain 4 2
  | none =>
    let s := (s.modSlot k fun x => { x with state := 3 }).modSlot o fun x => { x with state := if x.state == 3 then 1 else x.state }
    (.go, (s.extendMs 1 (fwDigest (s.boot.slots[k]).image)).stepPassed 4)

/-! S5: clocks and the time base. -/

/-- PLLs that fail and whose domain is still in use. [log 179 DEDUCED] -/
def State.pllFails (s : State) (env : StartEnv) : Nat :=
  maskOf 18 fun n => bitAt env.pllBad n &&
    (if 1 ≤ n && n ≤ 8 then !bitAt s.boot.coursesOff (n - 1) else if n == 12 then !s.boot.eaveOff else n == 9 || n == 10 || 15 ≤ n)

/-- TS64 is loaded (R45), and what R40, R50, R66 and R692 say of a start-up. [log 251 DEDUCED] -/
def State.loadTime (s : State) : State :=
  let l := if bitAt s.time.retry 0 then s.flashTime else s.time.tsReserve - 60000000000
  let ts := if s.dram.standbyLost then max s.time.ts l else s.time.ts
  let src := s.cfg 0x0402 1 0
  let jump := ts - s.time.ts
  let s := s.modErr fun e => { e with poweredSince := e.poweredSince.map (· + jump), outageSince := e.outageSince.map (· + jump) }
  let s := s.modTime fun t =>
    { t with ts := ts, run := true, period := s.cfg 0x0401 1 1000000, phase := s.cfg 0x0401 2 0, edgeMode := s.cfg 0x0401 3 0 == 1
             edgeFalling := s.cfg 0x0401 5 0 == 1, tickExp := s.cfg 0x0401 4 4, source := src, state := if src == 2 then .localSrc else .unsynced
             everLocked := false, unsynced := true, stepped := false, goodSyncs := 0, syncWait := none, linkDelay := none, stepPending := none
             regularRun := 0, synthRun := 0, lastChange := ts, lastKind := .none, nextTick := 0, tickNow := 0, rowChange := true, rowStep := false }
  s.modTime fun t => { t with raft := t.raftAt t.ts }

/-- What the Finial and the active Ridge take from the stored objects: FN_HOLDOFF, FN_ALERT_MASK and the journal's size (R594, R616). -/
def State.loadFinial (s : State) : State :=
  let ms := max 1000 (s.cfg 0x3802 1 10000)
  let mask := s.cfg 0x3821 3 0 &&& 0xFF13
  let cap := s.cfg 0x3811 1 4096
  s.modFinial fun x => { x with holdoffMs := ms, alertMask := mask, journalCap := cap }

/-- S5: every PLL locks, or its alternative is taken. [log 179 DEDUCED, 182 DEDUCED] -/
def State.startS5 (s : State) (env : StartEnv) : StepEnd × State :=
  let bad := s.pllFails env
  if bad == 0 then (.go, s.loadTime.loadFinial.stepPassed 5) else
  let s := s.stepFailed 5
  let s := s.modBoot fun b =>
    { b with coursesOff := b.coursesOff ||| (bad / 2 % 256), eaveOff := b.eaveOff || bitAt bad 12
             rateSteps := if bitAt bad 10 then b.rateSteps + 1 else b.rateSteps }
  if s.atLimit 5 && (bitAt bad 9 || bad / 2 ^ 15 != 0) then (.halt, s) else s.stepAgain 5 2

/-! S6: the population, training and the slot map (R404 to R409). -/

/-- The description of a module (0x1010). -/
def State.moduleDesc (s : State) (m : Nat) : Bytes := (s.objBytes 0x1010 (m + 1)).getD (zeros 9)

/-- A description names a module: present, with capacity, and one or two ranks. -/
def describes (d : Bytes) : Bool := fieldAt 0 1 d == 1 && fieldAt 1 2 d != 0 && (fieldAt 3 1 d == 1 || fieldAt 3 1 d == 2)

/-- Channels whose description is there, is that of the first module described, and is not contradicted (R404). [log 219 DEDUCED] -/
def State.answering (s : State) (env : StartEnv) : List (Fin 8) :=
  let told := (List.finRange 8).filter fun m => describes (s.moduleDesc m.val)
  let first := ((told.head?).map fun m => s.moduleDesc m.val).getD []
  told.filter fun m => s.moduleDesc m.val == first && bitAt env.answers m.val

/-- Channels populated for the session: EXCLUDED ones are left out (R409). -/
def State.populated (s : State) (env : StartEnv) : List (Fin 8) := (s.answering env).filter fun m => s.dram.train[m] != 2

/-- The data rates (R403). -/
def dataRates : List Nat := [4800, 5200, 5600, 6000, 6400]

/-- A rate some steps lower, at least DDR5-4800; a rate the device does not have reads as the lowest. -/
def rateDown (rate steps : Nat) : Nat := dataRates.getD ((dataRates.findIdx? (· == rate)).getD 0 - steps) 4800

/-- Physical ranks in slot order, rank 0 of every channel first (R405). -/
def rankList (chans : List (Fin 8)) (ranks : Nat) : List Nat :=
  (List.range ranks).flatMap fun k => chans.map fun m => 2 * m.val + k

/-- The spare rank, where one is held (R405). -/
def State.spareRank (s : State) (chans : List (Fin 8)) (ranks : Nat) : Option Nat :=
  let want := s.cfg 0x1030 2 7
  let ch := if chans.any (·.val == want) then want else ((chans.getLast?).map (·.val)).getD 0
  if s.cfg 0x1030 1 1 == 1 && 3 ≤ chans.length then some (2 * ch + ranks - 1) else none

/-- The rank that serves a slot whose own is out of service: the spare, the own one while its migration goes on, or NONE (R426,
R429). -/
def DramSt.slotRank (d : DramSt) (p : Nat) : Nat :=
  if !bitAt d.ranksOut p then p
  else if d.mig.state == 0 || d.mig.fromRank != p || bitAt d.ranksOut d.mig.toRank then 0xFF
  else if d.mig.state == 3 || d.standbyLost then d.mig.toRank
  else p

/-- The slots, the remap table and the spare (R405, R427, R429). [log 180 DEDUCED] -/
def State.mapSlots (s : State) (chans : List (Fin 8)) : State :=
  let desc := s.moduleDesc ((chans.head?).map (·.val) |>.getD 0)
  let ranks := fieldAt 3 1 desc
  let held := s.spareRank chans ranks
  let base := (rankList chans ranks).filter fun p => held != some p
  s.modDram fun d =>
    let spent := held.any fun p => bitAt d.ranksOut p || (d.mig.state != 0 && d.mig.toRank == p)
    { d with slots := base.length, rankSize := fieldAt 1 2 desc * 2 ^ 30 / max 1 ranks, ranksPerModule := ranks
             remap := base.map d.slotRank, spare := if spent then none else held
             migSlot := (base.findIdx? (· == d.mig.fromRank)).getD 0
             mig := if d.mig.state == 0 || d.mig.state == 3 then d.mig
               else { d.mig with state := if d.standbyLost then 3 else 1 } }

/-- What R404 and R405 leave out is named: a channel without its module, no spare held. -/
def State.nameMissing (s : State) (env : StartEnv) : State :=
  let s := ((List.finRange 8).filter fun m => !(s.answering env).contains m).foldl (fun s m =>
    s.raise s.ridgeSrc { ErrRec.blank with severity := .degraded, scope := 8, scopeId := memScope (2 * m.val), event := 50 + m.val }) s
  if (s.spareRank (s.populated env) 1).isSome then s
  else s.raise s.ridgeSrc { ErrRec.blank with severity := .note, event := 58 }

/-- The start-up values in force that chapter 13 reports at subindex + 0x80. -/
def State.dramInForce (s : State) : State :=
  let s := (List.range 8).foldl (fun s m => s.setVal (objKey 0x1010 (0x81 + m)) (s.moduleDesc m)) s
  let s := s.setVal (objKey 0x1020 0x81) (toLE 1 (s.cfg 0x1020 1 2))
  let s := s.setVal (objKey 0x1030 0x81) (toLE 1 (s.cfg 0x1030 1 1))
  let s := s.setVal (objKey 0x1030 0x82) (toLE 1 (s.cfg 0x1030 2 7))
  s.modDram fun d => { d with eighths := s.cfg 0x1020 1 2 }

/-- The channels train: their controllers, and the one data rate (R403, R408). -/
def State.trainedAll (s : State) (env : StartEnv) (resume : Bool) : State :=
  let chans := s.populated env
  let resumed := fun (m : Fin 8) => resume && !bitAt env.resumeBad m.val
  let slow := chans.any fun m => !resumed m && s.dram.train[m] == 1
  let rate := fieldAt 6 2 (s.moduleDesc ((chans.head?).map (·.val) |>.getD 0))
  s.modDram fun d =>
    { d with
      modulesReset := false
      chans := Vector.ofFn fun (m : Fin 8) =>
        if chans.contains m then { d.chans[m] with enable := true, trained := true, trainSet := if resumed m then 2 else d.train[m] } else d.chans[m]
      dataRate := if chans.isEmpty then 0 else if chans.all resumed && d.dataRate != 0 then d.dataRate
        else rateDown rate (s.boot.rateSteps + slow.toNat) }

/-- S6: training; a channel that fails moves to its next state and the device starts WARM (R409). [log 180 DEDUCED] -/
def State.startS6 (s : State) (fromKeep : Bool) (env : StartEnv) : StepEnd × State :=
  let s := s.dramInForce
  let bad := (s.populated env).filter fun m => bitAt env.trainBad m.val && (!fromKeep || bitAt env.resumeBad m.val)
  if bad.isEmpty then
    (.go, (((s.nameMissing env).mapSlots (s.populated env)).trainedAll env fromKeep).stepPassed 6)
  else
    let s := s.stepFailed 6
    let limit := s.atLimit 6
    let s := bad.foldl (fun s m =>
      (s.modDram fun d => { d with train := d.train.set m (if limit then 2 else min 2 (d.train[m] + 1)) }).raise (0xE0 + m.val)
        { ErrRec.blank with severity := .degraded, scope := 8, scopeId := memScope (2 * m.val), event := 60 + m.val }) s
    if (s.populated env).isEmpty then (.halt, s) else s.stepAgain 6 2

/-! S7 to S9: self-tests of slices, banks, courses and ports. -/

/-- A step that takes its alternative at once and goes on (R620). -/
def State.stepGoesOn (s : State) (n : Fin 13) (failed : Bool) : State :=
  if failed then (s.stepFailed n).stepTakes n else s.stepPassed n

/-- S7: slices and banks tested; one that fails is fused off for the session (R216, R393). -/
def State.startS7 (s : State) (env : StartEnv) : StepEnd × State :=
  let slices := env.slicesBad % 2 ^ 16 &&& (2 ^ 16 - 1 - s.boot.slicesOff)
  let banks := env.banksBad % 2 ^ 8 &&& (2 ^ 8 - 1 - s.boot.banksOff)
  let s := s.stepGoesOn 7 (slices != 0 || banks != 0)
  let s := s.modBoot fun b => { b with slicesOff := b.slicesOff ||| slices, banksOff := b.banksOff ||| banks }
  let off := s.cfg 0x1800 4 0
  let s := s.modThatch fun t =>
    { t with slices := Vector.ofFn fun (k : Fin 16) =>
        let fused := bitAt s.boot.slicesOff k.val
        { t.slices[k] with fused := fused, powered := !fused && !bitAt off k.val, enabled := false, lines := [], plru := [] } }
  let s := (List.finRange 8).foldl (fun s b => s.modBank b fun k => { k with bistFail := bitAt s.boot.banksOff b.val }) s
  let s := ((List.finRange 16).filter fun k => bitAt slices k.val).foldl (fun s k =>
    s.raise s.ridgeSrc { ErrRec.blank with severity := .degraded, scope := 7, scopeId := k.val }) s
  (.go, ((List.finRange 8).filter fun b => bitAt banks b.val).foldl (fun s b =>
    s.raise s.ridgeSrc { ErrRec.blank with severity := .degraded, scope := 7, scopeId := 0x100 + b.val }) s)

/-- The tile-monitor slot that is accepted: the one in use, else the other. -/
def State.monitorSlot (s : State) : Option (Fin 4) :=
  [s.boot.used 2, s.boot.unused 2].find? fun k => (s.boot.fuses.refuse 2 (s.boot.slots[k]).image).isNone

/-- A monitor is loaded from a slot, MS2 extended. -/
def State.loadMonitor (s : State) (k : Fin 4) : State :=
  let s := [s.boot.used 2, s.boot.unused 2].foldl (fun s o => s.modSlot o fun x =>
    if o == k then { x with state := 3 } else { x with state := if x.state == 3 then 1 else x.state }) s
  let s := (s.modBoot fun b => { b with tileSlot := k.val - 2 }).extendMs 2 (fwDigest (s.boot.slots[k]).image)
  (List.finRange 8).foldl (fun s c => s.newMonitor c) s

/-- S8: courses tested, the tile-monitor image checked and loaded. [log 178 DEDUCED] -/
def State.startS8 (s : State) (env : StartEnv) : StepEnd × State :=
  let bad := env.coursesBad % 256 &&& (255 - s.boot.coursesOff)
  let used := s.boot.used 2
  let slot := s.monitorSlot
  let s := s.stepGoesOn 8 (bad != 0 || slot != some used)
  let s := s.modBoot fun b => { b with coursesOff := b.coursesOff ||| bad }
  let s := if slot == some used || (s.boot.slots[used]).image.isEmpty then s else s.modSlot used fun x => { x with state := 4 }
  if s.boot.coursesOff == 255 then (.halt, s) else
  match slot with
  | none => (.halt, s)
  | some k =>
    let s := ((List.finRange 64).filter fun t => bitAt s.boot.coursesOff (courseOf t).val).foldl (fun s t => s.tileTo t .fenced) s
    (.go, s.loadMonitor k)

/-- S9: enabled ports leave Detect.Quiet (R511); the Subsystem ID is taken (R491). -/
def State.startS9 (s : State) (env : StartEnv) : StepEnd × State :=
  let bad := env.portsBad % 16 &&& (15 - s.boot.portsOff % 16)
  let s := s.stepGoesOn 9 (bad != 0)
  let s := s.modBoot fun b => { b with portsOff := b.portsOff ||| bad }
  let s := s.setRo 0x3003 0xF1 (s.cfg 0x3003 1 0)
  (.go, (List.finRange 4).foldl (fun s p =>
    s.modPort p fun h => { h with enable := s.cfgBool 0x3013 (p.val + 1) true && !bitAt s.boot.portsOff p.val }) s)

/-! S10: the persistent dictionary. -/

/-- Values other units hold as well follow the values that were loaded; those with a restoration of their own are left to it. -/
def State.mirrorAll (s : State) : State :=
  s.dict.vals.foldl (fun s (p : Nat × Bytes) =>
    let b := (objBase (p.1 / 256)).1
    if b == 0x0810 || p.1 == 0x040201 || p.1 == 0x184001 || p.1 == 0x301001 then s else s.mirrorVal b (p.1 % 256) (leNat p.2)) s

/-- Plan keys and Plyn key slots from their records (R581, R584, R634); MS4 and MS5 follow (R636). -/
def State.loadKeys (s : State) : State :=
  let rec' := fun (key : Nat) => if s.boot.noStore then none else nget s.dict.store key
  let lost := s.dram.standbyLost
  let s := s.modBoot fun b =>
    { b with planKeys := Vector.ofFn fun (k : Fin 8) => match rec' (objKey 0x2E20 (k.val + 1)) with
        | some v => ⟨fieldAt 0 1 v, v.drop 1⟩
        | none => ⟨0, []⟩ }
  let s := s.modDict fun d =>
    { d with slots := Vector.ofFn fun (k : Fin 8) =>
        let old := d.slots[k]
        let last := if lost then d.slotMirror[k] else old.lastTs
        match rec' (objKey 0x2E10 (k.val + 1)) with
        | some v =>
          if fieldAt 2 1 v == 0 then { PlynSlot.reset with node := fieldAt 0 2 v }
          else { PlynSlot.reset with key := (v.drop 5).take 32, node := fieldAt 0 2 v, rights := fieldAt 2 1 v, lastTs := last }
        | none => PlynSlot.reset }
  ((List.finRange 8).foldl (fun s k => s.extendMs4 k) s).extendMs5

/-- Table descriptors from the store: an uncommitted creation or alteration is undone; built-in tables are always there (R72). -/
def State.loadTables (s : State) : State :=
  if s.boot.noStore then s else
  let descs := (s.dict.store.filter fun p => 2 ^ 24 ≤ p.1).map fun p => (p.1 - 2 ^ 24, (TableDesc.parse p.2).1)
  let kept := s.tables.tables.filter fun p => 0xFFF0 ≤ p.1 || (descs.any fun d => d.1 == p.1)
  let all : NMap Table := descs.foldl (fun m d =>
    nput m d.1 (match nget m d.1 with
      | some t => { t with desc := d.2 }
      | none => { builtinTable d.1 [] with desc := d.2 })) kept
  s.modTables fun t => { t with tables := all }

/-- A created instance restored: UNBOUND with its channels and result area, then bound to its recorded function (R544). [log 183 DEDUCED] -/
def State.restoreInst (s : State) (i : InstId) : State :=
  let k := 0x4000 + 0x100 * i.val
  if s.boot.noStore || (nget s.dict.store (objKey k 1)).isNone then s else
  let s := s.modInst i fun _ => { Inst.reset with state := .unbound, resultMib := s.quotaResult i, idleSince := s.time.ts }
  let s := s.reserveChans i (s.poolChans.take (s.quotaChannels i))
  match nget s.dict.store (objKey k 2) with
  | none => s
  | some v =>
    let p : PortId := Fin.ofNat 4 (fieldAt 0 1 v)
    let f := funcOf p (Fin.ofNat 16 (fieldAt 1 1 v))
    if !(s.host.ports[p]).enable then
      s.raise s.ridgeSrc { ErrRec.blank with severity := .degraded, scope := 9, scopeId := p.val, inst := i.val, event := 46 }
    else (s.modFunc f fun y => { y with regs := .reset, inst := some i }).modInst i fun y => { y with state := .bound, func := some f }

/-- The identity key pair is generated where IDENTITY_HASH is zero (R635). [log 172 DESIGN CHOICE, 246 DESIGN CHOICE] -/
def State.makeIdentity (s : State) : State :=
  if s.boot.fuses.identityHash.any (· != 0) then s else
  let (ctr, s) := s.fresh
  let pub := padTo 384 (Config.identityModulus ctr) ++ toLE 4 65537
  s.modBoot fun b => { b with identityPublic := pub, identityWrapped := Config.wrappedIdentity b.fuses.deviceSecret ctr, fuses := { b.fuses with identityHash := sha256 pub } }

/-- MAP banks hold the committed generation; an entry that does not fit is named (R231); DICT banks take their role (R216). -/
def State.loadBanks (s : State) : State :=
  let s := (s.modPurlin fun p => { p with dictBanksNow := s.cfg 0x18C1 1 4 }).setDictBanks.loadMapBanks
  s.extendMs 6 s.ingest.mapNow.digest

/-- Assigned pitches from COURSE_PITCH; the courses leave Parked (R647). -/
def State.startCourses (s : State) : State :=
  (List.finRange 8).foldl (fun s c =>
    let s := s.modCourse c fun k => { k with assigned := s.cfg 0x0810 (c.val + 1) 1, ceiling := if (s.power.trips[1]).set then 600 else 1800 }
    if bitAt s.boot.coursesOff c.val || s.critical then s else s.startChange c) s

/-- S10: objects applied, keys, tables and instances restored, banks loaded. [log 169 DEDUCED, 183 DEDUCED] -/
def State.startS10 (s : State) (env : StartEnv) : StepEnd × State :=
  let s := s.stepGoesOn 10 (s.storeFails env)
  let s := (s.loadStore env fun k => !earlyKey k).mirrorAll
  let s := s.setRo 0x3050 0xF2 (s.cfg 0x3050 2 4096)
  let s := s.makeIdentity.loadKeys.loadTables
  let s := (List.finRange 64).foldl (fun s i => s.restoreInst i) s
  (.go, s.loadBanks.startCourses)

/-! S11 and S12. -/

/-- The Keep stands: R423 finds no reason to discard it. -/
def State.keepStands (s : State) : Bool := s.dram.keepValid && s.dram.copy == some s.dram.keepCopy && !s.dram.standbyLost

/-- The Keep is discarded (R423): every segment goes, numbering restarts, and the catalogue records both (R76, R112); memory is
zero-filled (R407). [log 181 DEDUCED] -/
def State.discardKeep (s : State) : State :=
  let old := s.tables.tables
  let s := (s.modMem fun _ => []).modDram fun d => { d with poison := [] }
  let s := s.modTables fun t =>
    { t with keepCatalogue := [], tables := t.tables.map fun p => (p.1, { p.2 with segs := [], nextSeg := 0, mark := none, refusing := false, lastMax := none,
                                                                                              lastDigest := [] }) }
  old.foldl (fun s p =>
    let s := p.2.segs.foldl (fun s g => s.catalogue p.1 g 4) s
    if p.2.nextSeg == 0 then s else s.catalogue p.1 (Segment.new 0 s.time.ts) 6) s

/-- One Keep segment's check (R105): each failing chunk of a double-lapped one is rewritten from the other copy, where that is intact;
otherwise the segment is retired. An open segment's chunks have no CRC. -/
def State.checkSeg (s : State) (x : BadSeg) : State :=
  match (s.table x.table).bind fun t => (t.segs.find? fun g => g.no == x.seg && g.state != .retired).map fun g => (t, g) with
  | none => s
  | some (t, g) =>
    let a := if g.state == .opened then [] else x.colsA.eraseDups
    let b := if g.state == .opened || !t.desc.lapped then [] else x.colsB.eraseDups
    if x.head || (if t.desc.lapped then a.any b.contains else !a.isEmpty) then
      ((s.retireSeg x.table x.seg 4).bump 0x1082 2 1).raise s.ridgeSrc
        { ErrRec.blank with code := stCheckMismatch, severity := .contained, scope := 4, scopeId := x.table, event := 47, detail0 := x.seg }
    else
      let s := a.foldl (fun s c => (s.storeChunk x.table x.seg c false).bump 0x1082 3 1) s
      b.foldl (fun s c => (s.storeChunk x.table x.seg c true).bump 0x1082 3 1) s

/-- The DICT entries of open chunks are rebuilt (R233). -/
def State.rebuildDict (s : State) : State :=
  s.tables.tables.foldl (fun s p =>
    (p.2.segs.filter (·.state == .opened)).foldl (fun s g => g.rows.foldl (fun s r => s.noteDict p.1 r) s) s) s

/-- S11: the Keep is checked or discarded; KEEP_VALID is then cleared (R618). [log 181 DEDUCED] -/
def State.startS11 (s : State) (env : StartEnv) : StepEnd × State :=
  let stands := s.keepStands
  let bad := stands && !env.badSegs.isEmpty
  let s := s.stepGoesOn 11 bad
  let s := if stands then
      (env.badSegs.foldl (fun s x => s.checkSeg x) s).rebuildDict
    else s.discardKeep
  (.go, s.modDram fun d => { d with keepValid := false, standbyLost := false, keepStamp := none })

/-- S12: the boot record is written, MS3 extended, and service begins. -/
def State.startS12 (s : State) : StepEnd × State :=
  let s := (s.modBoot fun b => { b with tokenAtS12 := s.finial.holder }).stepPassed 12
  let s := s.writeBootFlash
  let s := (s.extendMs 3 (sha256 s.boot.shadow)).modBoot fun b => { b with inService := true }
  (.go, (s.setPowered true).noteStandby.noteOutage)

/-! The sequence. -/

/-- A step runs for its time; a Ridge that the Finial declares failed in it fails the step, and the next start takes the other
(R620). -/
def State.stepIn (s : State) (n : Fin 13) (env : StartEnv) (f : State → StepEnd × State) : StepEnd × State :=
  let s := s.advanceTo (s.time.ts + env.times.getD n.val 0)
  if env.ridgeLost == some n.val && 3 ≤ n.val then
    let r : Fin 2 := s.active.getD 0
    (((s.ridgeFails r 4).stepFailed n).modBoot fun b => { b with startB := r == 0 }).stepAgain n 2
  else f s

/-- The steps from one on, in order, until one does not go on. -/
def runSteps (env : StartEnv) : List (Fin 13 × (State → StepEnd × State)) → State → StepEnd × Fin 13 × State
  | [], s => (.go, 12, s)
  | (n, f) :: rest, s =>
    match s.stepIn n env f with
    | (.go, t) => runSteps env rest t
    | (e, t) => (e, n, t)

/-- The steps before S3, which a WARM start leaves out; RST_N low among them begins again at S0 (R684). -/
def earlySteps (kind : Nat) (env : StartEnv) : List (Fin 13 × (State → StepEnd × State)) :=
  if kind == 2 then [] else
  [(0, fun s => s.startS0 env), (1, fun s => s.startS1 kind env), (2, fun s => if env.rstLow then (.again kind, s) else s.startS2 kind env)]

/-- S3 to S12. -/
def lateSteps (fromKeep : Bool) (env : StartEnv) : List (Fin 13 × (State → StepEnd × State)) :=
  [(3, fun s => s.startS3 fromKeep env), (4, fun s => s.startS4), (5, fun s => s.startS5 env), (6, fun s => s.startS6 fromKeep env),
   (7, fun s => s.startS7 env), (8, fun s => s.startS8 env), (9, fun s => s.startS9 env), (10, fun s => s.startS10 env),
   (11, fun s => s.startS11 env), (12, fun s => s.startS12)]

/-- Starts follow one another until one reaches service or halts (R620 to R622); a pass that the operand does not give meets no
fault. [log 174 DESIGN CHOICE] -/
def State.startLoop : Nat → Nat → Bool → List StartEnv → State → State
  | 0, _, _, _, s => s
  | fuel + 1, kind, fromKeep, envs, s =>
    let env := envs.headD .clean
    match runSteps env (earlySteps kind env ++ lateSteps fromKeep env) (s.startBegin kind) with
    | (.go, _, t) => t
    | (.halt, n, t) => t.haltAt n
    | (.again k, _, t) => State.startLoop fuel k (fromKeep && k != 2) envs.tail t

/-- A start of a kind runs. -/
def State.start (s : State) (kind : Nat) (envs : List StartEnv) : State :=
  if s.boot.halted then s else
  State.startLoop (envs.length + 20) kind (s.dram.phase == .inKeep) envs s

/-! The events. -/

/-- Images and fuses that the part and its board come with, before the first start only. [log 7 DESIGN CHOICE] -/
def State.provision (s : State) (p : Option Provision) : State :=
  match p with
  | none => s
  | some q =>
    if s.boot.fuses != Fuses.reset then s else
    let secret := (List.range 32).map fun k => Config.freeByte s.freeCtr k
    s.modBoot fun b =>
      { b with slots := q.images.map fun x => ⟨x, if x.isEmpty then 0 else 1⟩
               fuses := { b.fuses with keyHash := q.keyHash.map (padTo 32 ·), deviceSecret := secret, serial := q.serial % 2 ^ 64, grade := q.grade % 16 } }

/-- What the boot record in flash keeps of the memory: training states (an EXCLUDED channel is tried again, R409), ranks out of
service and the migration (R429, R623). -/
def State.recordDram (s : State) : State :=
  match s.boot.record with
  | none => s
  | some r =>
    let w := fieldAt 0x48 8 r
    s.modDram fun d =>
      { d with train := Vector.ofFn fun (k : Fin 8) => min 1 (fieldAt (0x38 + k.val) 1 r), ranksOut := fieldAt 0x46 2 r
               mig := ⟨w % 2 ^ 19, w / 2 ^ 19 % 16, w / 2 ^ 23 % 16, w / 2 ^ 27 % 4⟩ }

/-- The standby supply rises (R617, R681): the Finial runs, MAIN_EN goes high, the halting step's count clears (R622), and
availability resumes from its mirror (R674). [log 7 DESIGN CHOICE] -/
def State.coldStart (s : State) (p : Option Provision) : State :=
  if s.boot.standbyUp then s else
  let s := (s.provision p).recordDram
  let s := s.modBoot fun b =>
    { b with standbyUp := true, mainEn := true, mainUp := false, kind := 0, halted := false, haltStep := 13
             steps := if h : b.haltStep < 13 then b.steps.set b.haltStep { b.steps[b.haltStep] with attempts := 0 } else b.steps }
  let s := s.modTime fun t => { t with sbRun := true }
  s.modErr fun e => { e with poweredUs := e.mirrorPowered, outageUs := e.mirrorOutage, outages := e.mirrorOutages, mirrorAt := e.mirrorPowered }

/-- COLD_START. -/
def execColdStart (provision : Option Provision) (s : State) : Res := .next (s.coldStart provision)

/-- The last main rail is in range: COLD after a loss of the standby supply, else WAKE (R617). -/
def execMainSuppliesInRange (passes : List StartEnv) (s : State) : Res :=
  .next (if s.boot.standbyUp && !s.boot.mainUp then s.start (if s.dram.standbyLost then 0 else 1) passes else s)

/-- WAKE rises: outside the Keep it cancels the count of R422; in the Keep it begins a WAKE start, at once where the board has kept
the main rails up, else once they have been low for 1 ms and have risen again (R682). -/
def State.wakeRise (s : State) (railsUp : Bool) (passes : List StartEnv) : State :=
  let s := (s.modBoot fun b => { b with wakeHigh := true }).modDram fun d => { d with wakeLowAt := none }
  if s.dram.phase != .inKeep || !s.boot.standbyUp then s
  else if railsUp then s.start 1 passes
  else s.modBoot fun b => { b with wakePending := true }

/-- WAKE. -/
def execWake (railsUp : Bool) (passes : List StartEnv) (s : State) : Res := .next (s.wakeRise railsUp passes)

/-- RST_N rises after a low pulse (R684): ignored and counted in the Keep, else a WARM start. -/
def State.resetPin (s : State) (passes : List StartEnv) : State :=
  if !s.boot.standbyUp then s
  else if s.dram.phase == .inKeep then s.modBoot fun b => { b with rstIgnored := b.rstIgnored + 1 }
  else if !s.boot.mainUp then s
  else s.start 2 passes

/-- RST_N. -/
def execRstN (passes : List StartEnv) (s : State) : Res := .next (s.resetPin passes)

end Sys2Proof.Machine
end

