-- ==== Sys2Proof/Machine/RegRead.lean ====
section
/-! DEFINITION. What the register blocks read (R9, R11, R23, R28): reserved bits and WO registers read zero, and so do offsets that no
register table lists. -/

namespace Sys2Proof.Machine

/-- Bytes of a block whose 8-byte word at an offset is given. -/
def bytesOfWords (word : Nat → Nat) (off n : Nat) : Bytes :=
  (upFrom off n).map fun x => BitVec.ofNat 8 (word (x / 8 * 8) / 2 ^ (8 * (x % 8)))

/-! BAR0 (R28). -/

/-- INST_POWER of a function's instance (R531). -/
def State.instPower (s : State) (f : FuncId) : Nat :=
  match (s.host.funcs[f]).inst with
  | none => 0
  | some i =>
    s.instPowerWord i

/-- A task register (R516). -/
def State.taskWord (s : State) (f : FuncId) (off : Nat) : Nat :=
  let r := (s.host.funcs[f]).regs
  match off / 8 with
  | 0 => r.cmd
  | 1 => r.tag
  | 11 =>
    let queued := (((s.host.funcs[f]).inst).map fun i => (s.insts[i]).queued).getD 0
    s.taskState f + r.lastStatus % 2 ^ 16 * 2 ^ 16 + queued * 2 ^ 32
  | 12 => fieldAt 0 8 r.receipt.bytes
  | 13 => fieldAt 8 8 r.receipt.bytes
  | 14 => r.cmplBase
  | 15 => r.cmplCfg
  | 16 => r.cmplIndex
  | 17 => r.consumed
  | 18 => r.produced
  | 19 => s.instPower f
  | k => if h : 2 ≤ k ∧ k < 10 then r.args[k - 2] else 0

/-- An interrupt register (R495). -/
def State.intWord (s : State) (f : FuncId) (off : Nat) : Nat :=
  let r := (s.host.funcs[f]).regs
  match off / 8 - 32 with
  | 0 => r.intCause
  | 1 => r.intEnable
  | 2 => r.intVector
  | 3 => r.intHoldoff
  | _ => 0

/-- FN_IDENT (R498); SUSPENDED reads 1 in FREEZING, FROZEN and SUSPENDED (R542). -/
def State.fnIdent (s : State) (f : FuncId) : Nat :=
  let x := s.host.funcs[f]
  let inst := (x.inst.map (·.val)).getD 0
  let susp := x.inst.any fun i => (s.insts[i]).state == .freezing || (s.insts[i]).state == .frozen || (s.insts[i]).state == .suspended
  f.val / 16 + f.val % 16 * 2 ^ 4 + inst * 2 ^ 8 + x.inst.isSome.toNat * 2 ^ 14 + susp.toNat * 2 ^ 15 + f.val % 16 * 2 ^ 16
    + (s.host.ports[funcPort f]).bus % 256 * 2 ^ 24

/-- The bytes of MB_OUT: the displayed message (R553, R554). -/
def MbMsg.bytes (m : MbMsg) : Bytes :=
  padTo 448 (padTo 32 (m.stamp.bytes ++ toLE 2 m.kind ++ toLE 2 m.body.length ++ toLE 1 m.sender) ++ m.body)

/-- A mailbox register (R553). -/
def State.mbWord (s : State) (f : FuncId) (off : Nat) : Nat :=
  let x := s.host.funcs[f]
  if 0x600 ≤ off then fieldAt (off - 0x600) 8 (padTo 512 x.mbIn) else
  match x.inst with
  | none => 0
  | some i =>
    let y := s.insts[i]
    if off == 0x400 then
      (s.mailShown i).isSome.toNat + (8 ≤ y.inbox.length : Bool).toNat * 2 + y.outbox.length * 2 ^ 8 + y.inbox.length * 2 ^ 16
    else if off == 0x418 then y.mbDropped % 2 ^ 32
    else if 0x440 ≤ off then fieldAt (off - 0x440) 8 (((s.mailShown i).map MbMsg.bytes).getD (zeros 448))
    else 0

/-- FRZ_STATUS of a port (R510). -/
def HPort.frzStatus (p : HPort) : Nat := p.state.code + p.cause % 16 * 2 ^ 4 + p.freezeSeq % 2 ^ 32 * 2 ^ 32

/-- Firing records of an instance that wait to be delivered. -/
def State.firingsHeld (s : State) (i : InstId) : Nat :=
  (s.batten.queries.map fun q => if q.2.inst == i.val then q.2.firings.countP (·.phase == .complete) else 0).sum

/-- A freeze register (R510). -/
def State.frzWord (s : State) (f : FuncId) (off : Nat) : Nat :=
  let x := s.host.funcs[f]
  let p := s.host.ports[funcPort f]
  if off == 0x800 then p.frzStatus
  else if off == 0x808 then p.frozenAt.ts
  else if off == 0x818 then
    ((x.inst.map fun i => (s.insts[i]).records.length + s.firingsHeld i).getD 0) % 2 ^ 16 + (List.range 32).countP (bitAt x.pba) * 2 ^ 16
  else 0

/-- A word of the MSI-X table (R492). -/
def State.msixWord (s : State) (f : FuncId) (off : Nat) : Nat :=
  let e := (s.host.funcs[f]).msix[Fin.ofNat 32 ((off - 0x2000) / 16)]
  if off % 16 == 0 then e.addr else e.data % 2 ^ 32 + e.masked.toNat * 2 ^ 32

/-- The word at an offset of BAR0 (R28): zero at offsets not listed. -/
def State.bar0Word (s : State) (f : FuncId) (off : Nat) : Nat :=
  if off < 0x100 then s.taskWord f off
  else if off < 0x200 then s.intWord f off
  else if off == 0x200 then (s.host.funcs[f]).regs.obHigh
  else if off == 0x208 then s.fnIdent f
  else if 0x400 ≤ off && off < 0x800 then s.mbWord f off
  else if 0x800 ≤ off && off < 0x900 then s.frzWord f off
  else if 0x2000 ≤ off && off < 0x2200 then s.msixWord f off
  else if off == 0x3000 then (s.host.funcs[f]).pba
  else if 0x8000 ≤ off && off < 0x10000 then s.dwRead f off
  else 0

/-! The Finial's block (R594). -/

/-- FN_RIDGE_A and FN_RIDGE_B. -/
def RidgeSt.word (r : RidgeSt) : Nat :=
  r.state.code + r.cause % 16 * 2 ^ 4 + r.missed % 4 * 2 ^ 8 + r.attempts % 16 * 2 ^ 12 + r.selfCode % 2 ^ 16 * 2 ^ 16
    + r.lastAck % 2 ^ 32 * 2 ^ 32

/-- LAST_TAKEOVER. -/
def Takeover.bytes (k : Takeover) : Bytes :=
  k.stamp.bytes ++ toLE 1 k.fromRidge ++ toLE 1 k.toRidge ++ toLE 1 k.cause ++ toLE 4 k.raft ++ toLE 2 k.entries ++ toLE 4 k.durationNs

/-- FN_RETURN: its VETO, DEFERRED and FLAT_DUE. -/
def State.fnReturn (s : State) : Nat :=
  let x := s.finial
  x.ret.code + x.vetoLow.toNat * 2 ^ 3 + (s.time.ts < x.notBefore : Bool).toNat * 2 ^ 4 + x.flatDue.toNat * 2 ^ 5

/-- The word at an offset of the Finial's block. -/
def State.finialWord (s : State) (off : Nat) : Nat :=
  let x := s.finial
  match off / 8 with
  | 0 => x.holder % 4 + x.handover.toNat * 2 ^ 2 + x.tokenSeq % 2 ^ 32 * 2 ^ 32
  | 1 => (x.ridges[0]).word
  | 2 => (x.ridges[1]).word
  | 5 => x.holdoffMs
  | 6 => x.notBefore
  | 7 => s.fnReturn
  | 8 => x.returnAt
  | 9 => x.alert
  | 10 => x.alertMask
  | _ => if 0x60 ≤ off && off < 0x80 then fieldAt (off - 0x60) 8 (padTo 32 ((x.lastTakeover.map Takeover.bytes).getD [])) else 0

/-! The Batten's block (R292). -/

/-- BT_CTRL as a word (R292). -/
def BattenSt.ctrl (b : BattenSt) : Nat :=
  b.enable.toNat + b.preemptUs * 2 ^ 8 + b.affinityUs * 2 ^ 16 + b.prioPreempt.toNat * 2 ^ 26 + b.preemptAfterUs * 2 ^ 27

/-- BASE, SIZE, HEAD and TAIL of a ring. -/
def RingRegs.word (r : RingRegs) (k : Nat) : Nat :=
  match k with
  | 0 => r.base
  | 1 => r.size
  | 2 => r.head
  | 3 => r.tail
  | _ => 0

/-- TILE_STATE of a tile (R300). -/
def TileSched.word (x : TileSched) : Nat :=
  x.state.code + ((x.desc.map (·.inst)).getD 0) % 64 * 2 ^ 3 + x.lastAffinity.isSome.toNat * 2 ^ 9 + (x.lastAffinity.getD 0) % 2 ^ 32 * 2 ^ 32

/-- A plan slot table entry (R297). -/
def SlotEntry.word (e : SlotEntry) : Nat :=
  e.hipLimit % 16 + e.bankMask % 256 * 2 ^ 4 + e.hipHeld % 16 * 2 ^ 16 + e.banksLeased % 256 * 2 ^ 20

/-- The word at an offset of the Batten's block. -/
def State.battenWord (s : State) (off : Nat) : Nat :=
  let b := s.batten
  if off == 0 then b.ctrl
  else if 0x40 ≤ off && off < 0x80 then fieldAt (off - 0x40) 8 (padTo 64 b.desc)
  else if off == 0x88 then b.submitResult
  else if 0x100 ≤ off && off < 0x120 then fieldAt (off - 0x100) 8 (padTo 32 b.delayStage)
  else if off == 0x148 then b.delayResult + b.delayResultEntry % 1024 * 2 ^ 16
  else if 0x200 ≤ off && off < 0x220 then b.traceRegs.word ((off - 0x200) / 8)
  else if 0x300 ≤ off && off < 0x320 then b.doneRegs.word ((off - 0x300) / 8)
  else if 0x4000 ≤ off && off < 0x4200 then (b.tiles[Fin.ofNat 64 ((off - 0x4000) / 8)]).word
  else if 0x8000 ≤ off && off < 0x10000 then (s.slotEntry ((off - 0x8000) / 8)).word
  else if 0x10000 ≤ off && off < 0x50000 then fieldAt (off % 64) 8 ((nget b.templates ((off - 0x10000) / 64)).getD .zero).bytes
  else 0

/-! The Gutter's block (R436). -/

/-- CH_STATUS. -/
def GChan.status (x : GChan) : Nat := x.state.code + x.pendingReq % 256 * 2 ^ 8 + x.code % 2 ^ 16 * 2 ^ 16

/-- A channel's register. -/
def GChan.word (x : GChan) (off : Nat) : Nat :=
  match off / 8 with
  | 0 => x.ctrl
  | 1 => x.status
  | 2 => x.descAddr
  | 3 => x.src
  | 4 => x.dst
  | 5 => x.count
  | 6 => x.row % 2 ^ 32 + x.rowByte % 2 ^ 16 * 2 ^ 32
  | 7 => x.ring
  | 24 => x.bytes
  | k =>
    if 8 ≤ k && k < 16 then
      let j : Fin 4 := Fin.ofNat 4 ((k - 8) / 2)
      if k % 2 == 0 then x.wbase[j] else x.wlim[j]
    else if 16 ≤ k && k < 24 then fieldAt (off - 0x80) 8 (padTo 64 ((x.desc.map (·.raw)).getD []))
    else 0

/-- GD_BUSY. -/
def GutterSt.busyWord (g : GutterSt) : Nat :=
  maskOf 64 fun k =>
    let st := (g.chans[Fin.ofNat 32 k]).state
    if k < 32 then st == .running || st == .waiting || st == .pausing else st == .paused

/-- The word at an offset of the Gutter's block. -/
def State.gutterWord (s : State) (off : Nat) : Nat :=
  let g := s.gutter
  if off == 0 then g.enable.toNat
  else if off == 8 then g.busyWord
  else if off == 0x18 then g.overrun
  else if 0x10000 ≤ off && off < 0x18000 then (g.chans[Fin.ofNat 32 ((off - 0x10000) / 0x400)]).word (off % 0x400)
  else 0

/-! The Yelm block (R469). -/

/-- YE_STATUS of an engine. -/
def YelmSt.engine (y : YelmSt) (n : Fin 4) : Nat :=
  match y.jobs[n] with
  | none => 0
  | some j => 1 + j.queue % 16 * 2 ^ 4 + j.slot % 64 * 2 ^ 8 + y.read[n] % 2 ^ 32 * 2 ^ 32

/-- A queue's register. -/
def YQueue.word (q : YQueue) (k : Nat) : Nat :=
  match k with
  | 0 => q.enable.toNat + q.priority * 2 + q.engines * 2 ^ 4
  | 1 => q.base
  | 2 => q.slots
  | _ => 0

/-- A PLAN_YELM entry: the claim, and the engines that serve the plan now (R459). -/
def YelmSt.planByte (y : YelmSt) (slot : Nat) : Nat :=
  ngetZ y.claims slot % 8 + (y.jobs.toList.countP fun j => j.any fun j => j.planSlot == some slot) * 2 ^ 4

/-- The word at an offset of the Yelm block. -/
def State.yelmWord (s : State) (off : Nat) : Nat :=
  let y := s.yelm
  if off == 0 then y.enable.toNat + y.poll * 2 ^ 16
  else if 0x100 ≤ off && off < 0x200 then if off % 0x40 == 0 then y.engine (Fin.ofNat 4 ((off - 0x100) / 0x40)) else 0
  else if 0x1000 ≤ off && off < 0x1800 then (y.queues[Fin.ofNat 16 ((off - 0x1000) / 0x80)]).word (off % 0x80 / 8)
  else if 0x8000 ≤ off && off < 0x9000 then leNat ((upFrom (off - 0x8000) 8).map fun k => BitVec.ofNat 8 (y.planByte k))
  else 0

/-! The Flashing block (R476). -/

/-- FD_STATUS: the contexts that are FREE, the last cause, ALARM_ACTIVE and CLEARED. -/
def FlashSt.status (f : FlashSt) : Nat :=
  f.cleared.toNat + (f.alarms != 0).toNat * 2 + f.lastCause % 16 * 2 ^ 8 + maskOf 16 (fun k => (f.ctxs[Fin.ofNat 16 k]).state == .free) * 2 ^ 16

/-- A context's register; FC_DATA, the key registers and FC_EXPECT are WO. -/
def FCtx.word (x : FCtx) (off : Nat) : Nat :=
  match off / 8 with
  | 0 => x.ctrl
  | 1 => x.state.code + x.compare * 2 ^ 3 + x.code % 2 ^ 16 * 2 ^ 16
  | 2 => x.len
  | 3 => x.src
  | 4 => x.dst
  | 5 => x.taken.length
  | _ => if 0x180 ≤ off && off < 0x1C0 then fieldAt (off - 0x180) 8 (padTo 64 x.digest) else 0

/-- The word at an offset of the Flashing block; FD_ALLOC, whose read is a row of its own, shows its last answer. -/
def State.flashWord (s : State) (off : Nat) : Nat :=
  if off == 0 then s.flash.allocAnswer
  else if off == 8 then s.flash.status
  else if 0x1000 ≤ off && off < 0x3000 then (s.flash.ctxs[Fin.ofNat 16 ((off - 0x1000) / 0x200)]).word (off % 0x200)
  else 0

/-! The Purlin block (R218, R219). -/

/-- PB_CFG as a word (R218). -/
def Bank.cfg (b : Bank) : Nat := b.width + b.role.code * 2 ^ 2 + b.masked.toNat * 2 ^ 4 + b.owner * 2 ^ 8 + b.enable.toNat * 2 ^ 16

/-- PB_STATUS: no entry stays suspect between commands, and MAP entries that wait for the Ridge count as being rewritten. -/
def Bank.status (b : Bank) : Nat :=
  b.entries.length + b.awaiting.length * 2 ^ 16 + b.retired.length * 2 ^ 32 + b.bistFail.toNat * 2 ^ 45

/-- PB_COUNT. -/
def Bank.counts (b : Bank) : Nat := b.falseHits % 2 ^ 32 + b.uncorrectable % 2 ^ 16 * 2 ^ 32

/-- The word at an offset of the Purlin block: the banks, the Ridge's staging area and its response. -/
def State.purlinWord (s : State) (off : Nat) : Nat :=
  let p := s.purlin
  if off < 0x8000 then
    let b := p.banks[Fin.ofNat 8 (off / 0x1000)]
    match off % 0x1000 / 8 with
    | 0 => b.cfg
    | 1 => b.status
    | 2 => b.counts
    | _ => 0
  else if off < 0x8030 then fieldAt (off - 0x8000) 8 (padTo 48 p.staging)
  else if off == 0x8048 || off == 0x8050 then fieldAt (off - 0x8048) 8 p.response.bytes
  else 0

/-! A slice's block (R381, R390). -/

/-- A region-table entry's 16 bytes (R381). -/
def Region.bytes (r : Region) : Bytes :=
  toLE 16 (r.base + r.limit * 2 ^ 25 + r.valid.toNat * 2 ^ 50 + r.lost.toNat * 2 ^ 51 + r.planSlot * 2 ^ 52 + r.pipeline * 2 ^ 64
    + r.unit * 2 ^ 68)

/-- An empty region-table entry. -/
def Region.empty : Region := { base := 0, limit := 0, valid := false, lost := false, planSlot := 0, pipeline := 0, unit := 0 }

/-- SL_STATUS. -/
def Slice.status (c : Slice) : Nat :=
  c.enabled.toNat + c.powered.toNat * 2 + c.disableRefused.toNat * 2 ^ 2 + c.fused.toNat * 2 ^ 3
    + (c.lines.countP fun l => l.2.dirty0 || l.2.dirty1) * 2 ^ 14 + (c.lines.countP fun l => l.2.locked || l.2.aperture) * 2 ^ 32

/-- The word at an offset of the slices' block. -/
def State.sliceWord (s : State) (off : Nat) : Nat :=
  let k : Fin 16 := Fin.ofNat 16 (off / 0x10000)
  let o := off % 0x10000
  let c := s.thatch.slices[k]
  match o / 8 with
  | 0 => c.enabled.toNat + c.powered.toNat * 2
  | 1 => c.status
  | 0x20 => c.mop.mop
  | 0x21 => c.mop.addr
  | 0x22 => c.mop.len
  | 0x24 => c.mop.busy.toNat + c.mop.status % 2 ^ 16 * 2 ^ 16
  | 0x25 => c.mop.acted % 2 ^ 32 + c.mop.skipped % 2 ^ 32 * 2 ^ 32
  | 0x26 => c.mop.discarded % 2 ^ 32 + c.mop.refused % 2 ^ 32 * 2 ^ 32
  | _ =>
    if k == 0 && 0x8000 ≤ o && o < 0x9000 then
      fieldAt (o % 16) 8 ((nget s.thatch.regions ((o - 0x8000) / 16)).getD .empty).bytes
    else if k == 0 && o == 0x9000 then (s.time.ts < s.thatch.retireUntil : Bool).toNat * 2 ^ 16
    else 0

/-! The memory controllers' block (R430). -/

/-- MC_CTRL as a word (R430). -/
def MemChan.ctrl (c : MemChan) : Nat := c.enable.toNat + c.trainSet * 2 + c.srReq.toNat * 2 ^ 3 + c.pasr * 2 ^ 4
/-- MC_SCHED as a word. -/
def MemChan.sched (c : MemChan) : Nat := c.wmHigh + c.wmLow * 2 ^ 8 + c.pageIdle * 2 ^ 16 + c.readAge * 2 ^ 32

/-- MC_STATUS: a read is served as it arrives, so no read waits in a queue; writes wait by subchannel. -/
def State.memStatus (s : State) (m : Fin 8) : Nat :=
  let c := s.dram.chans[m]
  let depth := fun (sub : Nat) => c.writes.countP fun w => (s.dram.place w.addr).sub == sub
  c.trained.toNat + c.inSr.toNat * 2 + (bitAt s.dram.ranksOut (2 * m.val)).toNat * 2 ^ 2
    + (bitAt s.dram.ranksOut (2 * m.val + 1)).toNat * 2 ^ 3 + depth 0 % 128 * 2 ^ 24 + depth 1 % 128 * 2 ^ 32

/-- Entry k of RH_TRACK for a bank: its most-activated rows, in the order row, count, SRC8, PLAN_SLOT. [log 216 DESIGN CHOICE] -/
def MemChan.rhEntry (c : MemChan) (bank k : Nat) : Bytes :=
  let rows := sortBy (fun (a b : RhRow) => b.count < a.count) (c.rows.filter fun r => r.bank % 64 == bank)
  match rows[k]? with
  | none => zeros 16
  | some r => toLE 4 r.row ++ toLE 4 r.count ++ toLE 2 r.top.1 ++ toLE 2 r.top.2 ++ zeros 4

/-- SLOT_MAP's 32 bytes. -/
def DramSt.slotMap (d : DramSt) : Bytes := padTo 32 ((d.remap.map (BitVec.ofNat 8 ·)) ++ List.replicate (16 - d.remap.length) 0xFF ++ toLE 1 d.slots)

/-- The word at an offset of the memory controllers' block. -/
def State.memWord (s : State) (off : Nat) : Nat :=
  let m : Fin 8 := Fin.ofNat 8 (off / 0x20000)
  let o := off % 0x20000
  let c := s.dram.chans[m]
  match o / 8 with
  | 0 => c.ctrl
  | 1 => s.memStatus m
  | 2 => c.sched
  | 3 => c.rhThreshold + c.rhRate * 2 ^ 16
  | 4 => c.ce[0] % 2 ^ 32 + c.ce[1] % 2 ^ 32 * 2 ^ 32
  | 5 => c.ue[0] % 2 ^ 16 + c.ue[1] % 2 ^ 16 * 2 ^ 16
  | 8 => c.errAddr
  | 9 => c.errInfo
  | _ =>
    if 0x100 ≤ o && o < 0x4100 then fieldAt (o % 16) 8 (c.rhEntry ((o - 0x100) / 256) ((o - 0x100) / 16 % 16))
    else if m == 0 && 0x10000 ≤ o && o < 0x10020 then fieldAt (o - 0x10000) 8 s.dram.slotMap
    else if m == 0 && o == 0x10020 then s.dram.migRate + s.dram.migPause.toNat * 2 ^ 8
    else 0

/-! Pitch and power (R647). -/

/-- PW_COURSE. -/
def CoursePw.word (c : CoursePw) : Nat :=
  c.assigned % 4 + c.effective % 4 * 2 ^ 2 + c.mhz % 2 ^ 12 * 2 ^ 4 + c.ceiling % 2 ^ 12 * 2 ^ 16 + c.changing.toNat * 2 ^ 28

/-- The thermal state, from the trips: 0 normal, 1 warn, 2 throttle, 3 critical. -/
def PowerSt.thermal (p : PowerSt) : Nat := if p.trips[2].set then 3 else if p.trips[1].set then 2 else if p.trips[0].set then 1 else 0

/-- PW_STATUS. -/
def PowerSt.status (p : PowerSt) : Nat :=
  let hot := (p.temps.toList.foldl max (-1024)) / 16 + 64
  p.now % 2 ^ 16 + p.capActive.toNat * 2 ^ 16 + p.capUnmet.toNat * 2 ^ 17 + p.thermal * 2 ^ 18 + hot.toNat % 256 * 2 ^ 24

/-- The word at an offset of the pitch and power block. -/
def State.powerWord (s : State) (off : Nat) : Nat :=
  let p := s.power
  if off == 0 then ((List.finRange 8).map fun c => (p.courses[c]).assigned % 4 * 4 ^ c.val).sum
  else if off == 8 then maskOf 8 fun k => (p.courses[Fin.ofNat 8 k]).policyPark
  else if off == 0x10 then p.capW % 2 ^ 16 + p.hystMw % 2 ^ 16 * 2 ^ 16
  else if off == 0x18 then p.status
  else if 0x100 ≤ off && off < 0x140 then (p.courses[Fin.ofNat 8 ((off - 0x100) / 8)]).word
  else if 0x200 ≤ off && off < 0x280 then ((p.temps[Fin.ofNat 16 ((off - 0x200) / 8)]) % 2 ^ 16).toNat
  else if 0x400 ≤ off && off < 0x480 then p.energy[Fin.ofNat 16 ((off - 0x400) / 8)] % 2 ^ 64
  else 0

/-! A host port controller's block (R511). -/

/-- The word at an offset of a port controller's block. -/
def HPort.word (p : HPort) (off : Nat) : Nat :=
  match off / 8 with
  | 0 => p.linkUp.toNat + p.speed % 8 * 2 + p.width % 8 * 2 ^ 4 + p.ltssm % 32 * 2 ^ 8 + p.degraded.toNat * 2 ^ 13
  | 1 => p.frzStatus
  | 2 =>
    let quarantined := p.tags.countP fun t => match t.2 with
      | .quarantined _ => true
      | _ => false
    (p.tags.length - quarantined) % 2 ^ 10 + quarantined % 2 ^ 10 * 2 ^ 16
  | 3 => p.enable.toNat
  | _ => 0

/-- The word at an offset of a tile-control block as a Ridge reads it: the rest of the block is the tile monitor's (R347). -/
def State.tileWord (s : State) (t : TileId) (off : Nat) : Nat := if off < 0x80 then s.ctlWord t off else 0

/-! Control space (R23). -/

/-- The word at an offset of control space. -/
def State.controlWord (s : State) (off : Nat) : Nat :=
  if 0x4000000 ≤ off && off < 0x4400000 then s.bar0Word (Fin.ofNat 64 ((off - 0x4000000) / 0x10000)) (off % 0x10000)
  else if 0x2000000 ≤ off && off < 0x2400000 then (s.host.ports[Fin.ofNat 4 ((off - 0x2000000) / 0x100000)]).word (off % 0x100000)
  else if 0x1000000 ≤ off && off < 0x1400000 then s.tileWord (Fin.ofNat 64 ((off - 0x1000000) / 0x10000)) (off % 0x10000)
  else
    let o := off % 0x100000
    match off / 0x100000 with
    | 0 => if o < 512 then fieldAt o 8 (padTo 512 s.boot.shadow) else 0
    | 1 => s.finialWord o
    | 3 => s.battenWord o
    | 5 => s.gutterWord o
    | 6 => s.yelmWord o
    | 7 => s.flashWord o
    | 8 => s.purlinWord o
    | 9 => s.sliceWord o
    | 10 => s.memWord o
    | 12 => s.powerWord o
    | _ => 0

end Sys2Proof.Machine
end

