-- ==== Sys2Proof/Machine/Registers.lean ====
section
/-! DEFINITION. Writes to registers that have no row of their own (R9, R11, R28): BAR0 of a function, and the blocks of control
space that the active Ridge writes; and the reads of both (R24). A write that is itself a row (TASK_GO, CH_CTRL.START and the like) changes nothing here. -/

namespace Sys2Proof.Machine

/-- The word a register of 8 bytes is to hold: the bytes written over those it holds. [log 191 DEDUCED] -/
def wordWith (cur off : Nat) (data : Bytes) : Nat := leNat ((overlay (toLE 8 cur) (off % 8) data).take 8)

/-- The word a write carries to a W1C or WO register: bytes not written are 0. -/
def wordOnly (off : Nat) (data : Bytes) : Nat := wordWith 0 off data

/-- Bits of a mask kept. [log 191 DEDUCED] -/
def keepBits (v mask : Nat) : Nat := v &&& mask

/-! BAR0 (R28). -/

/-- Registers of the bound instance changed. -/
def State.modRegs (s : State) (f : FuncId) (g : InstRegs → InstRegs) : State := s.modFunc f fun x => { x with regs := g x.regs }

/-- TASK_CMD, TASK_TAG and the arguments: discarded and counted while STATE is BUSY (R518). -/
def State.taskReg (s : State) (f : FuncId) (g : InstRegs → InstRegs) : State :=
  if !s.taskBusy f then s.modRegs f g else
  match (s.host.funcs[f]).inst with
  | some i => s.modInst i fun x => { x with writesDiscarded := x.writesDiscarded + 1 }
  | none => s

/-- CMPL_BASE and CMPL_INDEX: ignored while ENABLE is 1 (R530). -/
def State.cmplReg (s : State) (f : FuncId) (g : InstRegs → InstRegs) : State :=
  if bitAt (s.host.funcs[f]).regs.cmplCfg 8 then s else s.modRegs f g

/-- CMPL_CFG: while ENABLE is 1 only a write of 0 to it takes effect (R530). [log 194 DEDUCED] -/
def State.cmplCfg (s : State) (f : FuncId) (off : Nat) (data : Bytes) : State :=
  s.modRegs f fun r =>
    let v := keepBits (wordWith r.cmplCfg off data) 0x10F
    if !bitAt r.cmplCfg 8 then { r with cmplCfg := v } else if bitAt v 8 then r else { r with cmplCfg := r.cmplCfg - 2 ^ 8 }

/-- INST_POWER.DEEPEST: below the present state it returns the instance to ACTIVE (R532). -/
def State.deepestWrite (s : State) (f : FuncId) (off : Nat) (data : Bytes) : State :=
  match (s.host.funcs[f]).inst with
  | none => s
  | some i =>
    let v := bitsOf (wordWith (s.deepest i * 4) off data) 3 2
    let s := s.modRegs f fun r => { r with deepest := some v }
    s.modInst i fun x => if v < x.power then { x with power := 0, idleSince := s.time.ts } else x

/-- A task register (R516). -/
def State.taskBlock (s : State) (f : FuncId) (off : Nat) (data : Bytes) : State :=
  let r := (s.host.funcs[f]).regs
  match off / 8 with
  | 0 => s.taskReg f fun r => { r with cmd := wordWith r.cmd off data }
  | 1 => s.taskReg f fun r => { r with tag := wordWith r.tag off data }
  | 14 => s.cmplReg f fun r => { r with cmplBase := keepBits (wordWith r.cmplBase off data) 0xFFFFFFF000 }
  | 15 => s.cmplCfg f off data
  | 16 => s.cmplReg f fun r => { r with cmplIndex := keepBits (wordWith r.cmplIndex off data) 0xFFFFFFFFF8 }
  | 17 => s.modRegs f fun r => { r with consumed := wordWith r.consumed off data % 2 ^ 32 }
  | 19 => s.deepestWrite f off data
  | n =>
    if h : 2 ≤ n ∧ n < 10 then
      s.taskReg f fun x => { x with args := x.args.set (n - 2) (wordWith (r.args[n - 2]) off data) (by omega) }
    else s

/-- An interrupt register (R495). -/
def State.intBlock (s : State) (f : FuncId) (off : Nat) (data : Bytes) : State :=
  s.modRegs f fun r =>
    match off / 8 - 32 with
    | 0 => { r with intCause := clearOnes r.intCause (wordOnly off data % 2 ^ 6) }
    | 1 => { r with intEnable := wordWith r.intEnable off data % 2 ^ 6 }
    | 2 => { r with intVector := keepBits (wordWith r.intVector off data) 0x1F1F1F }
    | 3 => { r with intHoldoff := wordWith r.intHoldoff off data % 2 ^ 16 }
    | _ => r

/-- An MSI-X table entry (R497): what was pending is sent once it is unmasked. -/
def State.msixWrite (s : State) (f : FuncId) (off : Nat) (data : Bytes) : State :=
  let k : Fin 32 := Fin.ofNat 32 ((off - 0x2000) / 16)
  let e := (s.host.funcs[f]).msix[k]
  let img := overlay (toLE 8 e.addr ++ toLE 4 e.data ++ toLE 4 e.masked.toNat) (off % 16) data
  let e : MsixEntry := ⟨fieldAt 0 8 img / 4 * 4, fieldAt 8 4 img, bitAt (fieldAt 12 4 img) 0⟩
  (s.modFunc f fun x => { x with msix := x.msix.set k e }).flushPending f

/-- DW_REQ, DW_DATA, and DW_GO where DW_REQ.OP is 0 (R575, R576). [log 192 DEDUCED] -/
def State.windowBlock (s : State) (f : FuncId) (off : Nat) (data : Bytes) : State :=
  let x := s.dict.windows[f]
  if off / 8 == 0x1000 then s.dwReq f (wordWith x.req off data)
  else if off / 8 == 0x1001 then if wordOnly off data == 1 && bitsOf x.req 25 24 == 0 then s.dwGo f else s
  else if 0x9000 ≤ off && off < 0xA000 then s.dwData f (off - 0x9000) data
  else s

/-- A host's write to BAR0 (R28, R494); a closed BAR answers with an Unsupported Request (R514). [log 191 DEDUCED] -/
def State.bar0Write (s : State) (f : FuncId) (off : Nat) (data : Bytes) : State :=
  if !s.barOpen f then s.unsupported f
  else if off < 0x100 then s.taskBlock f off data
  else if off < 0x200 then s.intBlock f off data
  else if off / 8 == 0x40 then s.modRegs f fun r => { r with obHigh := wordWith r.obHigh off data % 2 ^ 24 }
  else if 0x600 ≤ off && off < 0x800 then
    s.modFunc f fun x => { x with mbIn := (overlay (padTo 512 x.mbIn) (off - 0x600) data).take 512 }
  else if 0x2000 ≤ off && off < 0x2200 then s.msixWrite f off data
  else if 0x8000 ≤ off then s.windowBlock f off data
  else s

/-! Control space (R23), written by the active Ridge. -/

/-- The Finial's block (R594). -/
def State.finialBlock (s : State) (off : Nat) (data : Bytes) : State :=
  match off / 8 with
  | 5 => s.setHoldoff (wordWith s.finial.holdoffMs off data)
  | 9 => s.alertW1C (wordOnly off data)
  | 10 => s.modFinial fun x => { x with alertMask := keepBits (wordWith x.alertMask off data) 0xFF13 }
  | _ => s

/-- BT_CTRL written, with its clamps. -/
def BattenSt.setCtrl (b : BattenSt) (v : Nat) : BattenSt :=
  { b with enable := bitAt v 0, preemptUs := max 2 (min 100 (bitsOf v 15 8)), affinityUs := min 1000 (bitsOf v 25 16),
           prioPreempt := bitAt v 26, preemptAfterUs := bitsOf v 46 27 }

/-- BASE, SIZE and TAIL of a ring; its HEAD is the Batten's (R317). [log 193 DEDUCED] -/
def RingRegs.written (r : RingRegs) (k off : Nat) (data : Bytes) : RingRegs :=
  match k with
  | 0 => { r with base := wordWith r.base off data % 2 ^ 48 }
  | 1 => { r with size := wordWith r.size off data % 2 ^ 48 }
  | 3 => { r with tail := wordWith r.tail off data }
  | _ => r

/-- A plan slot table entry written (R292, R297): HIP_LIMIT and BANK_MASK are the Ridge's, the rest the Batten's. -/
def State.slotTableWrite (s : State) (slot off : Nat) (data : Bytes) : State :=
  let e := s.slotEntry slot
  let v := wordWith (e.hipLimit + e.bankMask * 2 ^ 4) off data
  s.modBatten fun b => { b with slots := nput b.slots slot { e with hipLimit := bitsOf v 3 0, bankMask := bitsOf v 11 4 } }

/-- The Batten's block (R292). -/
def State.battenBlock (s : State) (off : Nat) (data : Bytes) : State :=
  if off < 8 then (s.modBatten fun b => b.setCtrl (wordWith b.ctrl off data)).pumpPlans
  else if 0x40 ≤ off && off < 0x80 then
    s.modBatten fun b => { b with desc := (overlay (padTo 64 b.desc) (off - 0x40) data).take 64 }
  else if 0x100 ≤ off && off < 0x120 then
    s.modBatten fun b => { b with delayStage := (overlay (padTo 32 b.delayStage) (off - 0x100) data).take 32 }
  else if 0x200 ≤ off && off < 0x220 then
    s.modBatten fun b => { b with traceRegs := b.traceRegs.written ((off - 0x200) / 8) off data }
  else if 0x300 ≤ off && off < 0x320 then
    s.modBatten fun b => { b with doneRegs := b.doneRegs.written ((off - 0x300) / 8) off data }
  else if 0x8000 ≤ off && off < 0x10000 then s.slotTableWrite ((off - 0x8000) / 8) off data
  else if 0x10000 ≤ off && off < 0x50000 then
    s.modBatten fun b =>
      let k := (off - 0x10000) / 64
      let img := ((nget b.templates k).getD .zero).bytes
      { b with templates := nput b.templates k (BDesc.parse ((overlay (padTo 64 img) (off % 64) data).take 64)).1 }
  else s

/-- CH_CTRL: a change to a busy channel's other fields is ignored (R436); START, PAUSE and ABORT have rows of their own. -/
def State.chanCtrlWrite (s : State) (c : ChanId) (off : Nat) (data : Bytes) : State :=
  s.modChan c fun x => if x.busy then x else { x with ctrl := keepBits (wordWith x.ctrl off data) 0xFFFFFFF8 + x.ctrl % 8 }

/-- A channel's registers (R436); a busy channel ignores the write (R450). [log 220 DEDUCED] -/
def State.chanBlock (s : State) (c : ChanId) (off : Nat) (data : Bytes) : State :=
  let k := off % 0x400 / 8
  if k == 0 then s.chanCtrlWrite c off data else
  if (s.gutter.chans[c]).busy then s else
  match k with
  | 2 => s.modChan c fun x => { x with descAddr := wordWith x.descAddr off data % 2 ^ 48 }
  | 7 => s.modChan c fun x => { x with ring := wordWith x.ring off data }
  | k =>
    let j : Fin 4 := Fin.ofNat 4 ((k - 8) / 2)
    if k < 8 || 16 ≤ k then s
    else if k % 2 == 0 then s.modChan c fun x => { x with wbase := x.wbase.set j (keepBits (wordWith (x.wbase[j]) off data) 0xFFFFFFFFF003) }
    else s.modChan c fun x => { x with wlim := x.wlim.set j (keepBits (wordWith (x.wlim[j]) off data) 0xFFFFFFFFF000) }

/-- The Gutter's block (R436). -/
def State.gutterBlock (s : State) (off : Nat) (data : Bytes) : State :=
  if off < 8 then s.modGutter fun g => { g with enable := bitAt (wordWith g.enable.toNat off data) 0 }
  else if off / 8 == 3 then s.modGutter fun g => { g with overrun := clearOnes g.overrun (wordOnly off data % 2 ^ 48) }
  else if 0x10000 ≤ off && off < 0x18000 then s.chanBlock (Fin.ofNat 32 ((off - 0x10000) / 0x400)) off data
  else s

/-- A queue of the Yelm block (R469). -/
def YQueue.written (q : YQueue) (k off : Nat) (data : Bytes) : YQueue :=
  match k with
  | 0 =>
    let v := wordWith (q.enable.toNat + q.priority * 2 + q.engines * 2 ^ 4) off data
    { q with enable := bitAt v 0, priority := bitsOf v 2 1, engines := bitsOf v 7 4 }
  | 1 => { q with base := keepBits (wordWith q.base off data) 0xFFFFFFFFFF80 }
  | 2 => { q with slots := wordWith q.slots off data }
  | _ => q

/-- The Yelm block (R469). -/
def State.yelmBlock (s : State) (off : Nat) (data : Bytes) : State :=
  if off < 8 then
    s.modYelm fun y =>
      let v := wordWith (y.enable.toNat + y.poll * 2 ^ 16) off data
      { y with enable := bitAt v 0, poll := bitsOf v 27 16 }
  else if 0x1000 ≤ off && off < 0x1800 then
    let q : Fin 16 := Fin.ofNat 16 ((off - 0x1000) / 0x80)
    s.modYelm fun y => { y with queues := y.queues.set q ((y.queues[q]).written (off % 0x80 / 8) off data) }
  else if 0x8000 ≤ off && off < 0x9000 then
    s.modYelm fun y => { y with claims :=
      (data.zip (List.range data.length)).foldl (fun (m : NMap Nat) (b : Byte × Nat) => nputZ m (off - 0x8000 + b.2) (b.1.toNat % 8)) y.claims }
  else s

/-- A context's registers (R476): the fields of a message hold still once it has left SET. [log 196 DEDUCED] -/
def State.fcBlock (s : State) (k : Fin 16) (off : Nat) (data : Bytes) : State :=
  let o := off % 0x200
  let x := s.flash.ctxs[k]
  let open' := x.state == .set
  if o < 8 then
    let v := wordWith x.ctrl off data
    if bitAt v 20 || bitAt v 21 then s.fcStart k v
    else s.modCtx k fun x => if open' then { x with ctrl := v % 2 ^ 20 } else x
  else if o / 8 == 6 then s.fcData k (BitVec.ofNat 64 (wordOnly off data))
  else if o / 8 == 7 then s.fcKeyctl k (wordOnly off data)
  else if !open' then s
  else if o / 8 == 2 then s.modCtx k fun x => { x with len := wordWith x.len off data % 2 ^ 48 }
  else if o / 8 == 3 then s.modCtx k fun x => { x with src := wordWith x.src off data % 2 ^ 48 }
  else if o / 8 == 4 then s.modCtx k fun x => { x with dst := wordWith x.dst off data % 2 ^ 48 }
  else if o / 8 == 8 then s.modCtx k fun x => { x with keyAddr := wordWith x.keyAddr off data % 2 ^ 48 }
  else if 0x80 ≤ o && o < 0x100 then
    s.modCtx k fun x => { x with key := (overlay (padTo 128 x.key) (o - 0x80) data).take 128 }
  else if 0x100 ≤ o && o < 0x140 then
    s.modCtx k fun x => { x with expect := (overlay (padTo 64 x.expect) (o - 0x100) data).take 64 }
  else s

/-- The Flashing block (R476). -/
def State.flashBlock (s : State) (off : Nat) (data : Bytes) : State :=
  if off / 8 == 1 then s.modFlash fun f => { f with cleared := f.cleared && !bitAt (wordOnly off data) 0 }
  else if 0x1000 ≤ off && off < 0x3000 then s.fcBlock (Fin.ofNat 16 ((off - 0x1000) / 0x200)) off data
  else s

/-- A ROLE code. -/
def bankRoleOf (n : Nat) : BankRole :=
  match n % 4 with
  | 0 => .free
  | 1 => .mapRole
  | 2 => .dictRole
  | _ => .planRole

/-- PB_CFG written: WIDTH 3 leaves the width, a bank that failed its self-test takes no role, only one of width 1 is masked; a change of
WIDTH, ROLE or MASKED while entries are valid is ignored (R216, R218, R219). -/
def Bank.setCfg (b : Bank) (v : Nat) : Bank :=
  let w := if v % 4 == 3 then b.width else v % 4
  let role := if b.bistFail then .free else bankRoleOf (v / 4)
  let masked := bitAt v 4 && w == 1
  if !b.entries.isEmpty && (w != b.width || role != b.role || masked != b.masked) then b
  else { b with width := w, role := role, masked := masked, owner := bitsOf v 15 8, enable := bitAt v 16 }

/-- The Purlin block (R218) and the Ridge's staging area. -/
def State.purlinBlock (s : State) (off : Nat) (data : Bytes) : State :=
  if off < 0x8000 then
    if off % 0x1000 < 8 then (s.modBank (Fin.ofNat 8 (off / 0x1000)) fun b => b.setCfg (wordWith b.cfg off data)).purlinRetry else s
  else if off < 0x8030 then s.modPurlin fun p => { p with staging := (overlay (padTo 48 p.staging) (off - 0x8000) data).take 48 }
  else if off == 0x8040 && leNat data % 2 ^ 64 == 1 then s.purlinDo .ridge (PReq.parse (padTo 48 s.purlin.staging)) ⟨[], []⟩
  else s

/-- A region-table entry written: LOST clears where written 1 (R11, R381). -/
def Region.written (r : Region) (off : Nat) (data : Bytes) : Region :=
  let v := leNat ((overlay ({ r with lost := false }).bytes (off % 16) data).take 16)
  { base := v % 2 ^ 25, limit := bitsOf v 49 25, valid := bitAt v 50, lost := r.lost && !bitAt v 51, planSlot := bitsOf v 63 52,
    pipeline := bitsOf v 67 64, unit := bitsOf v 99 68 }

/-- A slice's block (R381, R390). -/
def State.sliceBlock (s : State) (off : Nat) (data : Bytes) : State :=
  let k : Fin 16 := Fin.ofNat 16 (off / 0x10000)
  let o := off % 0x10000
  if o / 8 == 1 then s.modSlice k fun c => { c with disableRefused := c.disableRefused && !bitAt (wordOnly off data) 2 }
  else if o / 8 == 0x20 then
    s.modSlice k fun c => { c with mop := { c.mop with mop := keepBits (wordWith c.mop.mop off data) 0xFFFF001F } }
  else if o / 8 == 0x21 then s.modSlice k fun c => { c with mop := { c.mop with addr := wordWith c.mop.addr off data } }
  else if o / 8 == 0x22 then s.modSlice k fun c => { c with mop := { c.mop with len := wordWith c.mop.len off data } }
  else if k == 0 && 0x8000 ≤ o && o < 0x9000 then
    s.modThatch fun t =>
      let n := (o - 0x8000) / 16
      { t with regions := nput t.regions n (((nget t.regions n).getD .empty).written off data) }
  else s

/-- A memory controller's registers (R414, R430). -/
def MemChan.written (c : MemChan) (o off : Nat) (data : Bytes) : MemChan :=
  match o with
  | 0 =>
    let v := wordWith c.ctrl off data
    { c with enable := bitAt v 0, trainSet := bitsOf v 2 1, srReq := bitAt v 3, pasr := bitsOf v 11 4 }
  | 2 =>
    let v := wordWith c.sched off data
    { c with wmHigh := bitsOf v 7 0, wmLow := bitsOf v 15 8, pageIdle := bitsOf v 31 16, readAge := min 400 (bitsOf v 40 32) }
  | 3 =>
    let v := wordWith (c.rhThreshold + c.rhRate * 2 ^ 16) off data
    { c with rhThreshold := bitsOf v 15 0, rhRate := bitsOf v 31 16 }
  | _ => c

/-- The memory controllers' block (R430); PAUSE holds a migration at its unit. -/
def State.memBlock (s : State) (off : Nat) (data : Bytes) : State :=
  if off / 8 == 0x10020 / 8 then
    s.modDram fun d =>
      let v := wordWith (d.migRate + d.migPause.toNat * 2 ^ 8) off data
      let pause := bitAt v 8
      let st := if d.mig.state == 1 && pause then 2 else if d.mig.state == 2 && !pause then 1 else d.mig.state
      { d with migRate := bitsOf v 5 0, migPause := pause, mig := { d.mig with state := st } }
  else s.modMemChan (Fin.ofNat 8 (off / 0x20000)) fun c => c.written (off % 0x20000 / 8) off data

/-- A tile-control block as the active Ridge reaches it (R347). -/
def State.tileBlock (s : State) (t : TileId) (off : Nat) (data : Bytes) : State :=
  match off % 0x10000 / 8 with
  | 1 => s.modTile t fun x => { x with resetPc := BitVec.ofNat 64 (wordWith x.resetPc.toNat off data) }
  | 2 => s.modTile t fun x => { x with tfValid := x.tfValid && !bitAt (wordOnly off data) 63 }
  | _ => s

/-- HP_CTRL (R511): with PORT_ENABLE 0 the link falls back to Detect.Quiet. [log 128 DEDUCED] -/
def State.portBlock (s : State) (p : PortId) (off : Nat) (data : Bytes) : State :=
  if off % 0x100000 / 8 != 3 then s else
  let on := bitAt (wordWith (s.host.ports[p]).enable.toNat off data) 0
  let s := s.modPort p fun h => { h with enable := on }
  if !on && (s.host.ports[p]).linkUp then s.linkDown p 1 else s

/-- An access of a Ridge that is refused, or that nothing answers: the bus error returned to it, and its record (R25). [log 197 DEDUCED] -/
def State.ridgeBusError (s : State) (r : Fin 2) (a : Nat) : State :=
  (s.emit (.busError r a)).raise (0x60 + r.val)
    { ErrRec.blank with severity := .contained, scope := 10, scopeId := r.val, event := 48, address := a }

/-- An offset of control space in a block of R23. -/
def controlMapped (off : Nat) : Bool :=
  off < 0xD00000 || (0x1000000 ≤ off && off < 0x1400000) || (0x2000000 ≤ off && off < 0x2400000) || (0x4000000 ≤ off && off < 0x4400000)

/-- What a Ridge may access (R24): the active one every mapped byte but the outbound windows, another one only reads, and no
scratch. [log 117 DEDUCED] -/
def State.ridgeMay (s : State) (r : Fin 2) (a n : Nat) (write : Bool) : Bool :=
  let act := s.active == some r
  (act || !write) && (s.devCuts a n).all fun c =>
    match s.regionOf c.1 with
    | .dram => c.1 + c.2 ≤ s.dram.managed
    | .aperture => (s.apertureLine c.1).isSome
    | .scratch _ _ => act
    | .control off => controlMapped off
    | _ => false

/-- The active Ridge's write at an offset of control space (R23). [log 128 DEDUCED, 195 DEDUCED] -/
def State.ridgeWrite (s : State) (off : Nat) (data : Bytes) : State :=
  if 0x4000000 ≤ off && off < 0x4400000 then
    s.bar0Write (Fin.ofNat 64 ((off - 0x4000000) / 0x10000)) (off % 0x10000) data
  else if 0x2000000 ≤ off && off < 0x2400000 then s.portBlock (Fin.ofNat 4 ((off - 0x2000000) / 0x100000)) off data
  else if 0x1000000 ≤ off && off < 0x1400000 then s.tileBlock (Fin.ofNat 64 ((off - 0x1000000) / 0x10000)) off data
  else
    let o := off % 0x100000
    match off / 0x100000 with
    | 0 => s
    | 1 => s.finialBlock o data
    | 2 => s
    | 3 => s.battenBlock o data
    | 4 => s
    | 5 => s.gutterBlock o data
    | 6 => s.yelmBlock o data
    | 7 => s.flashBlock o data
    | 8 => s.purlinBlock o data
    | 9 => s.sliceBlock o data
    | 10 => s.memBlock o data
    | 11 => s
    | 12 => if o / 8 == 1 then s.policyParkWrite (wordOnly off data) else s
    | _ => s

/-- A Ridge's write at a device address: the active Ridge's acts where R24 lets it, and is answered with a bus error elsewhere
(R25); every other one is discarded, the standby's counted (R26). -/
def State.ridgeStore (s : State) (r : Fin 2) (a : Nat) (data : Bytes) : State :=
  if s.standby == some r then s.modFinial fun x => { x with discarded := x.discarded + 1 }
  else if s.active != some r then s
  else if !s.ridgeMay r a data.length true then s.ridgeBusError r a
  else match s.regionOf a with
    | .control off => s.ridgeWrite off data
    | _ => s.devWrite a data

/-- A Ridge's read at a device address (R24): answered with what stands there, or with a bus error where it may not read, or where the
data is POISONED (R25); the read may meet a parity error in the aperture (R397). [log 216 DESIGN CHOICE] -/
def State.ridgeLoad (s : State) (r : Fin 2) (a n : Nat) (parity : Bool) : State :=
  if s.active != some r && s.standby != some r then s
  else if !s.ridgeMay r a n false then s.ridgeBusError r a
  else match s.regionOf a with
    | .control off => s.emit (.ridgeData r a (bytesOfWords s.controlWord off n))
    | _ =>
      let s := if parity then s.apertureSpoil a else s
      if s.apertureBad a n then (s.apertureRecord a).ridgeBusError r a else
      match s.devRead a n false with
      | (some d, s) => s.emit (.ridgeData r a d)
      | (none, s) => s.emit (.busError r a)

/-- A host's read of BAR0 (R28, R514). -/
def State.bar0Read (s : State) (f : FuncId) (off n : Nat) : State :=
  if !s.barOpen f then s.unsupported f else s.emit (.reply f (some (bytesOfWords (s.bar0Word f) off n)))

/-- A register without a row of its own is written; or registers and memory are read. [log 192 DEDUCED, 216 DESIGN CHOICE] -/
def execRegisterWrite (access : RegAccess) (s : State) : Res :=
  .next (match access with
    | .bar0 f off data => s.bar0Write f off data
    | .ridge r a data => s.ridgeStore r a data
    | .bar0Read f off n => s.bar0Read f off n
    | .ridgeRead r a n parity => s.ridgeLoad r a n parity)

end Sys2Proof.Machine
end

