-- ==== Sys2Proof/Machine/SparScalar.lean ====
section
/-! DEFINITION. The scalar instructions of the Spar core (R331 to R335): integer, constants, loads and stores, branches and
jumps, floating point. Each command is one instruction executed by one tile. -/

namespace Sys2Proof.Machine

/-- A word that does not decode raises ILLEGAL (R334); a word that decodes is not this event. -/
def execIllegal (tile : TileId) (word : BitVec 32) (s : State) : Res :=
  .next (if Sys2Proof.Machine.sparWord word.toNat == .illegal then s.sparWord tile word.toNat false false fun s => .next s [] else s)

/-! Integer (R331, R332). -/

/-- The high 64 bits of a product. -/
def mulHigh (x y : Int) : Word := BitVec.ofInt 64 (x * y / 2 ^ 64)

/-- Quotient of DIVU: 0 for a divisor 0. -/
def divuW (a b : Word) : Word := if b == 0 then 0 else a / b
/-- Quotient of DIVS: 0 for a divisor 0; −2^63 by −1 wraps. -/
def divsW (a b : Word) : Word := if b == 0 then 0 else a.sdiv b
/-- Remainder of REMU: a for a divisor 0. -/
def remuW (a b : Word) : Word := if b == 0 then a else a % b
/-- Remainder of REMS: a for a divisor 0. -/
def remsW (a b : Word) : Word := if b == 0 then a else a.srem b
/-- 1 or 0. -/
def boolW (b : Bool) : Word := if b then 1 else 0
/-- Leading zeros of a w-bit number, w for 0. -/
def clzN (w x : Nat) : Nat := w - bitLen (x % 2 ^ w)
/-- Trailing zeros, counted up to n. -/
def ctzN : Nat → Nat → Nat
  | 0, _ => 0
  | n + 1, x => if x % 2 == 1 then 0 else 1 + ctzN n (x / 2)
/-- Bits set among the n lowest. -/
def popN (n x : Nat) : Nat := (List.range n).countP fun i => bitAt x i

/-- ADD: a + b. -/
def execAdd (tile : TileId) (d a b : Reg) (s : State) : Res := .next (s.sparG tile d fun c => c.g[a] + c.g[b])
/-- SUB: a − b. -/
def execSub (tile : TileId) (d a b : Reg) (s : State) : Res := .next (s.sparG tile d fun c => c.g[a] - c.g[b])
/-- AND: a AND b. -/
def execAnd (tile : TileId) (d a b : Reg) (s : State) : Res := .next (s.sparG tile d fun c => c.g[a] &&& c.g[b])
/-- OR: a OR b. -/
def execOr (tile : TileId) (d a b : Reg) (s : State) : Res := .next (s.sparG tile d fun c => c.g[a] ||| c.g[b])
/-- XOR: a XOR b. -/
def execXor (tile : TileId) (d a b : Reg) (s : State) : Res := .next (s.sparG tile d fun c => c.g[a] ^^^ c.g[b])
/-- ANDN: a AND NOT b. -/
def execAndn (tile : TileId) (d a b : Reg) (s : State) : Res := .next (s.sparG tile d fun c => c.g[a] &&& ~~~c.g[b])
/-- SHL: shift left by b mod 64. -/
def execShl (tile : TileId) (d a b : Reg) (s : State) : Res := .next (s.sparG tile d fun c => c.g[a] <<< ((c.g[b]).toNat % 64))
/-- SHR: logical shift right by b mod 64. -/
def execShr (tile : TileId) (d a b : Reg) (s : State) : Res := .next (s.sparG tile d fun c => c.g[a] >>> ((c.g[b]).toNat % 64))
/-- SAR: arithmetic shift right by b mod 64. -/
def execSar (tile : TileId) (d a b : Reg) (s : State) : Res := .next (s.sparG tile d fun c => (c.g[a]).sshiftRight ((c.g[b]).toNat % 64))
/-- ROR: rotate right by b mod 64. -/
def execRor (tile : TileId) (d a b : Reg) (s : State) : Res := .next (s.sparG tile d fun c => (c.g[a]).rotateRight ((c.g[b]).toNat % 64))
/-- MUL: the low 64 bits of the product. -/
def execMul (tile : TileId) (d a b : Reg) (s : State) : Res := .next (s.sparG tile d fun c => c.g[a] * c.g[b])
/-- MULHU: the high 64 bits of the unsigned product. -/
def execMulhu (tile : TileId) (d a b : Reg) (s : State) : Res := .next (s.sparG tile d fun c => mulHigh (c.g[a]).toNat (c.g[b]).toNat)
/-- MULHS: the high 64 bits of the signed product. -/
def execMulhs (tile : TileId) (d a b : Reg) (s : State) : Res := .next (s.sparG tile d fun c => mulHigh (c.g[a]).toInt (c.g[b]).toInt)
/-- DIVU: the unsigned quotient. -/
def execDivu (tile : TileId) (d a b : Reg) (s : State) : Res := .next (s.sparG tile d fun c => divuW c.g[a] c.g[b])
/-- DIVS: the signed quotient. -/
def execDivs (tile : TileId) (d a b : Reg) (s : State) : Res := .next (s.sparG tile d fun c => divsW c.g[a] c.g[b])
/-- REMU: the unsigned remainder. -/
def execRemu (tile : TileId) (d a b : Reg) (s : State) : Res := .next (s.sparG tile d fun c => remuW c.g[a] c.g[b])
/-- REMS: the signed remainder. -/
def execRems (tile : TileId) (d a b : Reg) (s : State) : Res := .next (s.sparG tile d fun c => remsW c.g[a] c.g[b])
/-- MINU: the unsigned minimum. -/
def execMinu (tile : TileId) (d a b : Reg) (s : State) : Res := .next (s.sparG tile d fun c => if (c.g[a]).ult c.g[b] then c.g[a] else c.g[b])
/-- MINS: the signed minimum. -/
def execMins (tile : TileId) (d a b : Reg) (s : State) : Res := .next (s.sparG tile d fun c => if (c.g[a]).slt c.g[b] then c.g[a] else c.g[b])
/-- MAXU: the unsigned maximum. -/
def execMaxu (tile : TileId) (d a b : Reg) (s : State) : Res := .next (s.sparG tile d fun c => if (c.g[a]).ult c.g[b] then c.g[b] else c.g[a])
/-- MAXS: the signed maximum. -/
def execMaxs (tile : TileId) (d a b : Reg) (s : State) : Res := .next (s.sparG tile d fun c => if (c.g[a]).slt c.g[b] then c.g[b] else c.g[a])
/-- SLTU: 1 if a < b unsigned. -/
def execSltu (tile : TileId) (d a b : Reg) (s : State) : Res := .next (s.sparG tile d fun c => boolW ((c.g[a]).ult c.g[b]))
/-- SLTS: 1 if a < b signed. -/
def execSlts (tile : TileId) (d a b : Reg) (s : State) : Res := .next (s.sparG tile d fun c => boolW ((c.g[a]).slt c.g[b]))
/-- SEQ: 1 if a = b. -/
def execSeq (tile : TileId) (d a b : Reg) (s : State) : Res := .next (s.sparG tile d fun c => boolW (c.g[a] == c.g[b]))
/-- CLZ: leading zeros, 64 for 0. -/
def execClz (tile : TileId) (d a : Reg) (s : State) : Res := .next (s.sparG tile d fun c => BitVec.ofNat 64 (clzN 64 (c.g[a]).toNat))
/-- CTZ: trailing zeros, 64 for 0. -/
def execCtz (tile : TileId) (d a : Reg) (s : State) : Res := .next (s.sparG tile d fun c => BitVec.ofNat 64 (ctzN 64 (c.g[a]).toNat))
/-- POPC: bits set. -/
def execPopc (tile : TileId) (d a : Reg) (s : State) : Res := .next (s.sparG tile d fun c => BitVec.ofNat 64 (popN 64 (c.g[a]).toNat))
/-- BSWAP: bytes reversed. -/
def execBswap (tile : TileId) (d a : Reg) (s : State) : Res := .next (s.sparG tile d fun c => BitVec.ofNat 64 (leNat (toLE 8 (c.g[a]).toNat).reverse))

/-! Immediates (R331): ADDI and the SLT forms sign-extend, the logical forms zero-extend, shifts use bits [5:0]. -/

/-- ADDI: a + imm. -/
def execAddi (tile : TileId) (d a : Reg) (imm : BitVec 16) (s : State) : Res := .next (s.sparG tile d fun c => c.g[a] + imm.signExtend 64)
/-- ANDI: a AND imm. -/
def execAndi (tile : TileId) (d a : Reg) (imm : BitVec 16) (s : State) : Res := .next (s.sparG tile d fun c => c.g[a] &&& imm.setWidth 64)
/-- ORI: a OR imm. -/
def execOri (tile : TileId) (d a : Reg) (imm : BitVec 16) (s : State) : Res := .next (s.sparG tile d fun c => c.g[a] ||| imm.setWidth 64)
/-- XORI: a XOR imm. -/
def execXori (tile : TileId) (d a : Reg) (imm : BitVec 16) (s : State) : Res := .next (s.sparG tile d fun c => c.g[a] ^^^ imm.setWidth 64)
/-- SHLI: shift left. -/
def execShli (tile : TileId) (d a : Reg) (imm : BitVec 16) (s : State) : Res := .next (s.sparG tile d fun c => c.g[a] <<< (imm.toNat % 64))
/-- SHRI: logical shift right. -/
def execShri (tile : TileId) (d a : Reg) (imm : BitVec 16) (s : State) : Res := .next (s.sparG tile d fun c => c.g[a] >>> (imm.toNat % 64))
/-- SARI: arithmetic shift right. -/
def execSari (tile : TileId) (d a : Reg) (imm : BitVec 16) (s : State) : Res := .next (s.sparG tile d fun c => (c.g[a]).sshiftRight (imm.toNat % 64))
/-- SLTSI: 1 if a < imm signed. -/
def execSltsi (tile : TileId) (d a : Reg) (imm : BitVec 16) (s : State) : Res := .next (s.sparG tile d fun c => boolW ((c.g[a]).slt (imm.signExtend 64)))
/-- SLTUI: 1 if a < imm unsigned. -/
def execSltui (tile : TileId) (d a : Reg) (imm : BitVec 16) (s : State) : Res := .next (s.sparG tile d fun c => boolW ((c.g[a]).ult (imm.signExtend 64)))
/-- MOVZ: d = imm16 × 2^(16s). -/
def execMovz (tile : TileId) (d : Reg) (sel : Fin 4) (imm : BitVec 16) (s : State) : Res :=
  .next (s.sparG tile d fun _ => imm.setWidth 64 <<< (16 * sel.val))
/-- MOVK: bits [16s + 15 : 16s] of d = imm16, the other bits kept. -/
def execMovk (tile : TileId) (d : Reg) (sel : Fin 4) (imm : BitVec 16) (s : State) : Res :=
  .next (s.sparG tile d fun c =>
    (c.g[d] &&& ~~~((0xFFFF : Word) <<< (16 * sel.val))) ||| (imm.setWidth 64 <<< (16 * sel.val)))

/-! Loads and stores (R327, R331, R356). The operand `par` is the parity error that the load meets (R397). -/

/-- LD8U: d = memory at a + sext(offset16), zero-extended. -/
def execLd8u (tile : TileId) (d a : Reg) (off : BitVec 16) (par : CPar) (s : State) : Res :=
  .next (s.sparLd tile a off 1 par fun x c => c.setG d (BitVec.ofNat 64 x))
/-- LD8S: d = memory at a + sext(offset16), sign-extended. -/
def execLd8s (tile : TileId) (d a : Reg) (off : BitVec 16) (par : CPar) (s : State) : Res :=
  .next (s.sparLd tile a off 1 par fun x c => c.setG d (BitVec.ofInt 64 (signedOf 8 x)))
/-- LD16U: d = memory at a + sext(offset16), zero-extended. -/
def execLd16u (tile : TileId) (d a : Reg) (off : BitVec 16) (par : CPar) (s : State) : Res :=
  .next (s.sparLd tile a off 2 par fun x c => c.setG d (BitVec.ofNat 64 x))
/-- LD16S: d = memory at a + sext(offset16), sign-extended. -/
def execLd16s (tile : TileId) (d a : Reg) (off : BitVec 16) (par : CPar) (s : State) : Res :=
  .next (s.sparLd tile a off 2 par fun x c => c.setG d (BitVec.ofInt 64 (signedOf 16 x)))
/-- LD32U: d = memory at a + sext(offset16), zero-extended. -/
def execLd32u (tile : TileId) (d a : Reg) (off : BitVec 16) (par : CPar) (s : State) : Res :=
  .next (s.sparLd tile a off 4 par fun x c => c.setG d (BitVec.ofNat 64 x))
/-- LD32S: d = memory at a + sext(offset16), sign-extended. -/
def execLd32s (tile : TileId) (d a : Reg) (off : BitVec 16) (par : CPar) (s : State) : Res :=
  .next (s.sparLd tile a off 4 par fun x c => c.setG d (BitVec.ofInt 64 (signedOf 32 x)))
/-- LD64: d = memory at a + sext(offset16). -/
def execLd64 (tile : TileId) (d a : Reg) (off : BitVec 16) (par : CPar) (s : State) : Res :=
  .next (s.sparLd tile a off 8 par fun x c => c.setG d (BitVec.ofNat 64 x))
/-- ST8: memory at a + sext(offset16) = low bits of d. -/
def execSt8 (tile : TileId) (d a : Reg) (off : BitVec 16) (s : State) : Res :=
  .next (s.sparSt tile a off 1 fun c => (c.g[d]).toNat)
/-- ST16: memory at a + sext(offset16) = low bits of d. -/
def execSt16 (tile : TileId) (d a : Reg) (off : BitVec 16) (s : State) : Res :=
  .next (s.sparSt tile a off 2 fun c => (c.g[d]).toNat)
/-- ST32: memory at a + sext(offset16) = low bits of d. -/
def execSt32 (tile : TileId) (d a : Reg) (off : BitVec 16) (s : State) : Res :=
  .next (s.sparSt tile a off 4 fun c => (c.g[d]).toNat)
/-- ST64: memory at a + sext(offset16) = low bits of d. -/
def execSt64 (tile : TileId) (d a : Reg) (off : BitVec 16) (s : State) : Res :=
  .next (s.sparSt tile a off 8 fun c => (c.g[d]).toNat)
/-- FLD32: f(d) = memory at a + sext(offset16). -/
def execFld32 (tile : TileId) (d a : Reg) (off : BitVec 16) (par : CPar) (s : State) : Res :=
  .next (s.sparLd tile a off 4 par fun x c => c.setF d x)
/-- FLD64: f(d) = memory at a + sext(offset16). -/
def execFld64 (tile : TileId) (d a : Reg) (off : BitVec 16) (par : CPar) (s : State) : Res :=
  .next (s.sparLd tile a off 8 par fun x c => c.setF d x)
/-- FST32: memory at a + sext(offset16) = low bits of f(d). -/
def execFst32 (tile : TileId) (d a : Reg) (off : BitVec 16) (s : State) : Res :=
  .next (s.sparSt tile a off 4 fun c => c.f d)
/-- FST64: memory at a + sext(offset16) = low bits of f(d). -/
def execFst64 (tile : TileId) (d a : Reg) (off : BitVec 16) (s : State) : Res :=
  .next (s.sparSt tile a off 8 fun c => c.f d)

/-! Branches and jumps (R331). -/

/-- BEQ: branch if equal. -/
def execBeq (tile : TileId) (a b : Reg) (off : BitVec 16) (s : State) : Res := .next (s.sparBranch tile off fun c => c.g[a] == c.g[b])
/-- BNE: branch if not equal. -/
def execBne (tile : TileId) (a b : Reg) (off : BitVec 16) (s : State) : Res := .next (s.sparBranch tile off fun c => c.g[a] != c.g[b])
/-- BLTS: branch if less, signed. -/
def execBlts (tile : TileId) (a b : Reg) (off : BitVec 16) (s : State) : Res := .next (s.sparBranch tile off fun c => (c.g[a]).slt c.g[b])
/-- BGES: branch if greater or equal, signed. -/
def execBges (tile : TileId) (a b : Reg) (off : BitVec 16) (s : State) : Res := .next (s.sparBranch tile off fun c => !(c.g[a]).slt c.g[b])
/-- BLTU: branch if less, unsigned. -/
def execBltu (tile : TileId) (a b : Reg) (off : BitVec 16) (s : State) : Res := .next (s.sparBranch tile off fun c => (c.g[a]).ult c.g[b])
/-- BGEU: branch if greater or equal, unsigned. -/
def execBgeu (tile : TileId) (a b : Reg) (off : BitVec 16) (s : State) : Res := .next (s.sparBranch tile off fun c => !(c.g[a]).ult c.g[b])
/-- The target of J and JAL: PC + 4 × sext(offset26). -/
def jumpTo (c : Tile) (off : BitVec 26) : Nat := unsignedOf 64 ((c.pc.toNat : Int) + 4 * off.toInt)
/-- J. -/
def execJ (tile : TileId) (off : BitVec 26) (s : State) : Res := .next (s.spar tile fun s => .goto s (jumpTo (s.tiles[tile]) off))
/-- JAL: PC + 4 to g31. -/
def execJal (tile : TileId) (off : BitVec 26) (s : State) : Res :=
  .next (s.spar tile fun s =>
    .goto (s.modTile tile fun c => c.setG 31 (pcWord (c.pc.toNat + 4))) (jumpTo (s.tiles[tile]) off))
/-- A jump to a register's address: ALIGN where bits [1:0] are not zero. -/
def State.sparJr (s : State) (t : TileId) (a : Reg) (link : Tile → Tile) : State :=
  s.spar t fun s =>
    let x := ((s.tiles[t]).g[a]).toNat
    if x % 4 != 0 then .fault s (.align x) else .goto (s.modTile t link) x
/-- JR: PC = a. -/
def execJr (tile : TileId) (a : Reg) (s : State) : Res := .next (s.sparJr tile a id)
/-- JALR: d = PC + 4, then PC = a. [log 84 DEDUCED] -/
def execJalr (tile : TileId) (d a : Reg) (s : State) : Res :=
  .next (s.sparJr tile a fun c => c.setG d (pcWord (c.pc.toNat + 4)))

/-! Floating point (R331, R333, R356). The operand `dbl` is func [0]: F64, else F32. -/

/-- The format of a precision. -/
def ffmt (dbl : Bool) : FFmt := if dbl then f64 else f32

/-- An instruction that writes f(d) and adds flags. -/
def State.sparF (s : State) (t : TileId) (d : Reg) (f : Tile → FRes) : State :=
  s.sparRegs t fun c => (c.setF d (f c).bits).addFx (f c).fx

/-- A comparison that writes 1 or 0 to g(d) and adds flags. -/
def State.sparFc (s : State) (t : TileId) (d : Reg) (f : Tile → Bool × Fx) : State :=
  s.sparRegs t fun c => (c.setG d (boolW (f c).1)).addFx (f c).2

/-- FADD: a + b. -/
def execFadd (tile : TileId) (dbl : Bool) (d a b : Reg) (s : State) : Res :=
  .next (s.sparF tile d fun c => (ffmt dbl).add (c.f a) (c.f b))
/-- FSUB: a − b. -/
def execFsub (tile : TileId) (dbl : Bool) (d a b : Reg) (s : State) : Res :=
  .next (s.sparF tile d fun c => (ffmt dbl).sub (c.f a) (c.f b))
/-- FMUL: a × b. -/
def execFmul (tile : TileId) (dbl : Bool) (d a b : Reg) (s : State) : Res :=
  .next (s.sparF tile d fun c => (ffmt dbl).mul (c.f a) (c.f b))
/-- FDIV: a / b. -/
def execFdiv (tile : TileId) (dbl : Bool) (d a b : Reg) (s : State) : Res :=
  .next (s.sparF tile d fun c => (ffmt dbl).div (c.f a) (c.f b))
/-- FMIN: the less by order key. -/
def execFmin (tile : TileId) (dbl : Bool) (d a b : Reg) (s : State) : Res :=
  .next (s.sparF tile d fun c => (ffmt dbl).minK (c.f a) (c.f b))
/-- FMAX: the greater by order key. -/
def execFmax (tile : TileId) (dbl : Bool) (d a b : Reg) (s : State) : Res :=
  .next (s.sparF tile d fun c => (ffmt dbl).maxK (c.f a) (c.f b))
/-- FSQRT: the square root of a. -/
def execFsqrt (tile : TileId) (dbl : Bool) (d a : Reg) (s : State) : Res := .next (s.sparF tile d fun c => (ffmt dbl).sqrt (c.f a))
/-- FEQ: 1 if equal, 0 on NaN. -/
def execFeq (tile : TileId) (dbl : Bool) (d a b : Reg) (s : State) : Res :=
  .next (s.sparFc tile d fun c => (ffmt dbl).eqF (c.f a) (c.f b))
/-- FLT: 1 if less, 0 on NaN. -/
def execFlt (tile : TileId) (dbl : Bool) (d a b : Reg) (s : State) : Res :=
  .next (s.sparFc tile d fun c => (ffmt dbl).ltF false (c.f a) (c.f b))
/-- FLE: 1 if less or equal, 0 on NaN. -/
def execFle (tile : TileId) (dbl : Bool) (d a b : Reg) (s : State) : Res :=
  .next (s.sparFc tile d fun c => (ffmt dbl).ltF true (c.f a) (c.f b))
/-- FTOI: g(d) = f(a) toward zero, saturating. -/
def execFtoi (tile : TileId) (dbl : Bool) (d a : Reg) (s : State) : Res :=
  .next (s.sparRegs tile fun c =>
    let r := (ffmt dbl).toInt 64 (c.f a)
    (c.setG d (BitVec.ofNat 64 r.bits)).addFx r.fx)
/-- ITOF: f(d) = g(a), signed. -/
def execItof (tile : TileId) (dbl : Bool) (d a : Reg) (s : State) : Res :=
  .next (s.sparF tile d fun c => (ffmt dbl).ofInt (c.g[a]).toInt)
/-- FCVT: f(a) to the other precision. -/
def execFcvt (tile : TileId) (dbl : Bool) (d a : Reg) (s : State) : Res :=
  .next (s.sparF tile d fun c => (ffmt dbl).cvt (ffmt !dbl) (c.f a))
/-- FMVG: g(d) = bits of f(a). -/
def execFmvg (tile : TileId) (dbl : Bool) (d a : Reg) (s : State) : Res :=
  .next (s.sparG tile d fun c => BitVec.ofNat 64 (c.f a % 2 ^ (ffmt dbl).width))
/-- FMVF: f(d) = bits of g(a). -/
def execFmvf (tile : TileId) (dbl : Bool) (d a : Reg) (s : State) : Res :=
  .next (s.sparRegs tile fun c => c.setF d ((c.g[a]).toNat % 2 ^ (ffmt dbl).width))
/-- The fused multiply and add: f(d) = f(a) × f(b) + f(c), one rounding. -/
def execFusedMultiplyAdd (tile : TileId) (dbl : Bool) (d a b c : Reg) (s : State) : Res :=
  .next (s.sparF tile d fun x => (ffmt dbl).fma false (x.f a) (x.f b) (x.f c))
/-- The fused multiply and subtract: f(d) = f(a) × f(b) − f(c), one rounding. -/
def execFusedMultiplySubtract (tile : TileId) (dbl : Bool) (d a b c : Reg) (s : State) : Res :=
  .next (s.sparF tile d fun x => (ffmt dbl).fma true (x.f a) (x.f b) (x.f c))

end Sys2Proof.Machine
end

