-- ==== Sys2Proof/Machine/SparSystem.lean ====
section
/-! DEFINITION. Streams, system instructions, CMO and the asynchronous events of the Spar core (R335 to R346, R389). -/

namespace Sys2Proof.Machine

/-! Streams (R345, R346). -/

/-- What one granule comes to. -/
inductive Granule where
  | more (s : State)
  | done (s : State)
  | fault (s : State) (f : SFault)

/-- The granules of a stream instruction: it goes on until it stops, or until an event is accepted after the count. The
operand's parity error is met in the first granule. [log 85 DESIGN CHOICE] -/
def streamLoop (step : State → CPar → List (Nat × Bool) → Granule × List (Nat × Bool)) :
    Nat → State → CPar → List (Nat × Bool) → SOut
  | 0, s, _, lost => .hold s lost
  | n + 1, s, p, lost =>
    match step s p lost with
    | (.done s, lost) => .next s lost
    | (.more s, lost) => streamLoop step n s .none lost
    | (.fault s f, lost) => .fault s { f with lost := f.lost ++ lost }

/-- Length of the granule at a pointer (R346). -/
def granLen (a c : Nat) : Nat := min c (64 - a % 64)

/-- The pointers and the count written back after a granule. -/
def Tile.streamBack (c : Tile) (a b cnt : Reg) (va vb vc : Nat) (twoPtr : Bool) : Tile :=
  let c := c.setG a (BitVec.ofNat 64 va)
  let c := if twoPtr then c.setG b (BitVec.ofNat 64 vb) else c
  c.setG cnt (BitVec.ofNat 64 vc)

/-- One granule of MOVS: read whole, then written. -/
def movsGranule (t : TileId) (a b c : Reg) (s : State) (p : CPar) (lost : List (Nat × Bool)) : Granule × List (Nat × Bool) :=
  let x := s.tiles[t]
  let va := (x.g[a]).toNat
  let vb := (x.g[b]).toNat
  let vc := (x.g[c]).toNat
  if vc == 0 then (.done s, lost) else
  let n := granLen va vc
  match s.firstBad t .load vb n, s.firstBad t .store va n with
  | some k, _ => (.fault s (.window k), lost)
  | none, some k => (.fault s (.window k), lost)
  | none, none =>
    match s.loadBytes t vb n p with
    | (⟨.error f, _⟩, s) => (.fault s f, lost)
    | (⟨.ok d, l⟩, s) =>
      let s := (s.tileWrite t va d).modTile t fun x => x.streamBack a b c (va + n) (vb + n) (vc - n) true
      (if vc == n then .done s else .more s, lost ++ l)

/-- One granule of CMPS. -/
def cmpsGranule (t : TileId) (a b c : Reg) (s : State) (p : CPar) (lost : List (Nat × Bool)) : Granule × List (Nat × Bool) :=
  let x := s.tiles[t]
  let va := (x.g[a]).toNat
  let vb := (x.g[b]).toNat
  let vc := (x.g[c]).toNat
  if vc == 0 then (.done s, lost) else
  let n := granLen va vc
  match s.firstBad t .load va n, s.firstBad t .load vb n with
  | some k, _ => (.fault s (.window k), lost)
  | none, some k => (.fault s (.window k), lost)
  | none, none =>
    match s.loadBytes t va n p with
    | (⟨.error f, _⟩, s) => (.fault s f, lost)
    | (⟨.ok da, l⟩, s) =>
      match s.loadBytes t vb n .none with
      | (⟨.error f, _⟩, s) => (.fault s f, lost ++ l)
      | (⟨.ok db, _⟩, s) =>
        match (List.range n).find? fun i => da[i]? != db[i]? with
        | some k => (.done (s.modTile t fun x => x.streamBack a b c (va + k) (vb + k) (vc - k) true), lost ++ l)
        | none =>
          let s := s.modTile t fun x => x.streamBack a b c (va + n) (vb + n) (vc - n) true
          (if vc == n then .done s else .more s, lost ++ l)

/-- One granule of FILLS: the byte at address x is byte x mod 8 of b. -/
def fillsGranule (t : TileId) (a b c : Reg) (s : State) (_p : CPar) (lost : List (Nat × Bool)) : Granule × List (Nat × Bool) :=
  let x := s.tiles[t]
  let va := (x.g[a]).toNat
  let vb := (x.g[b]).toNat
  let vc := (x.g[c]).toNat
  if vc == 0 then (.done s, lost) else
  let n := granLen va vc
  match s.firstBad t .store va n with
  | some k => (.fault s (.window k), lost)
  | none =>
    let d : Bytes := (upFrom va n).map fun y => BitVec.ofNat 8 (vb / 2 ^ (8 * (y % 8)))
    let s := (s.tileWrite t va d).modTile t fun x => x.streamBack a b c (va + n) vb (vc - n) false
    (if vc == n then .done s else .more s, lost)

/-- One granule of SCANS. -/
def scansGranule (t : TileId) (a b c : Reg) (s : State) (p : CPar) (lost : List (Nat × Bool)) : Granule × List (Nat × Bool) :=
  let x := s.tiles[t]
  let va := (x.g[a]).toNat
  let key : Byte := BitVec.ofNat 8 (x.g[b]).toNat
  let vc := (x.g[c]).toNat
  if vc == 0 then (.done s, lost) else
  let n := granLen va vc
  match s.firstBad t .load va n with
  | some k => (.fault s (.window k), lost)
  | none =>
    match s.loadBytes t va n p with
    | (⟨.error f, _⟩, s) => (.fault s f, lost)
    | (⟨.ok d, l⟩, s) =>
      match (List.range n).find? fun i => d[i]? == some key with
      | some k => (.done (s.modTile t fun x => x.streamBack a b c (va + k) 0 (vc - k) false), lost ++ l)
      | none =>
        let s := s.modTile t fun x => x.streamBack a b c (va + n) 0 (vc - n) false
        (if vc == n then .done s else .more s, lost ++ l)

/-- MOVS; `granules` bounds how many complete before an event is accepted. [log 85 DESIGN CHOICE] -/
def execMovs (tile : TileId) (a b c : Reg) (granules : Nat) (par : CPar) (s : State) : Res :=
  .next (s.spar tile fun s => streamLoop (movsGranule tile a b c) granules s par [])
/-- CMPS. [log 85 DESIGN CHOICE] -/
def execCmps (tile : TileId) (a b c : Reg) (granules : Nat) (par : CPar) (s : State) : Res :=
  .next (s.spar tile fun s => streamLoop (cmpsGranule tile a b c) granules s par [])
/-- FILLS. [log 85 DESIGN CHOICE] -/
def execFills (tile : TileId) (a b c : Reg) (granules : Nat) (s : State) : Res :=
  .next (s.spar tile fun s => streamLoop (fillsGranule tile a b c) granules s .none [])
/-- SCANS. [log 85 DESIGN CHOICE] -/
def execScans (tile : TileId) (a b c : Reg) (granules : Nat) (par : CPar) (s : State) : Res :=
  .next (s.spar tile fun s => streamLoop (scansGranule tile a b c) granules s par [])

/-! System instructions (R335, R336). -/

/-- SVC: exception SVC with imm16. -/
def execSvc (tile : TileId) (imm : BitVec 16) (s : State) : Res :=
  .next (s.spar tile fun s => .fault s { SFault.mk0 0x07 0 imm.toNat with after := true })

/-- BRK: exception BREAK with imm16. -/
def execBrk (tile : TileId) (imm : BitVec 16) (s : State) : Res :=
  .next (s.spar tile fun s => .fault s { SFault.mk0 0x08 0 imm.toNat with after := true })

/-- PC, ST and MSP from the frame at MSP (R336). -/
def Tile.leave (c : Tile) : Tile :=
  let m := c.msp.toNat
  let pc := leNat (c.scratchGet m 8)
  let st := leNat (c.scratchGet (m + 8) 8)
  ({ c.setSt st with pc := pcWord pc, msp := BitVec.ofNat 64 (m + 32) }).byMode

/-- RTM: the frame at MSP restored, or a stall with cause FRAME. -/
def execRtm (tile : TileId) (s : State) : Res :=
  .next (s.sparWord tile (wordS 1 0 0) true true fun s =>
    let c := s.tiles[tile]
    if c.pushBad then .hold (s.stall tile (0x0A + stTileFault * 2 ^ 16) c.pc stTileFault) []
    else .hold (s.modTile tile Tile.leave) [])

/-- The value of a system register (R324). -/
def State.sysRead' (s : State) (t : TileId) (n : Nat) : Word :=
  let c := s.tiles[t]
  let k : Fin 16 := Fin.ofNat 16 n
  if n == 0x00 then BitVec.ofNat 64 c.st
  else if n == 0x01 then BitVec.ofNat 64 (t.val + 0x100 + 0x400000)
  else if n == 0x02 then BitVec.ofNat 64 s.time.ts
  else if n == 0x03 then c.tcmp
  else if n == 0x08 then c.msp
  else if n == 0x09 then c.msl
  else if n == 0x0A then c.mvec
  else if n == 0x0B then c.scrMon.setWidth 64
  else if n < 0x20 then c.wbase[k]
  else if n < 0x30 then c.wlim[k]
  else (c.wattr[k]).setWidth 64

/-- A system register written (R324): bits that read 0 are dropped, TID and TSNOW are read only. [log 81 DEDUCED, 82 DEDUCED] -/
def Tile.sysWrite' (c : Tile) (n : Nat) (x : Word) : Tile :=
  let k : Fin 16 := Fin.ofNat 16 n
  let cut := fun (b : Nat) => BitVec.ofNat 64 (x.toNat / b * b)
  if n == 0x00 then if c.pl then c.setSt x.toNat else { c with fx := BitVec.ofNat 5 (x.toNat / 8) }
  else if n == 0x03 then { c with tcmp := x, timerTaken := false }
  else if n == 0x08 then { c with msp := x }
  else if n == 0x09 then { c with msl := cut 32 }
  else if n == 0x0A then { c with mvec := cut 64 }
  else if n == 0x0B then { c with scrMon := x.setWidth 6 }
  else if 0x10 ≤ n && n < 0x20 then { c with wbase := c.wbase.set k (cut 4096) }
  else if 0x20 ≤ n && n < 0x30 then { c with wlim := c.wlim.set k (cut 4096) }
  else if 0x30 ≤ n && n < 0x40 then { c with wattr := c.wattr.set k (x.setWidth 5) }
  else c

/-- MFS: g = system register. -/
def execMfs (tile : TileId) (g : Reg) (num : BitVec 16) (s : State) : Res :=
  .next (s.sparWord tile (wordS 2 g.val num.toNat) (sysRegListed num.toNat) (2 < num.toNat) fun s =>
    .next (s.modTile tile fun c => c.setG g (s.sysRead' tile num.toNat)) [])

/-- MTS: system register = g, in force for the next instruction (R328). [log 81 DEDUCED] -/
def execMts (tile : TileId) (g : Reg) (num : BitVec 16) (s : State) : Res :=
  .next (s.sparWord tile (wordS 3 g.val num.toNat) (sysRegListed num.toNat) (2 < num.toNat) fun s =>
    .next (s.modTile tile fun c => c.sysWrite' num.toNat c.g[g]) [])

/-- WAIT: the tile is WAITING until an event is pending, and goes on at PC + 4. [log 79 DEDUCED] -/
def execWait (tile : TileId) (s : State) : Res :=
  .next (s.sparWord tile (wordS 4 0 0) true true fun s =>
    .next (if s.asyncPending (s.tiles[tile]) == 0 then s.modTile tile fun c => { c with state := .waiting } else s) [])

/-- An event becomes pending for a WAITING tile; TIMER does when TSNOW reaches TCMP (R324, R348). -/
def State.wakeup (s : State) (t : TileId) : State :=
  let c := s.tiles[t]
  if c.state != .waiting then s else
  let s := if s.asyncPending c == 0 && c.tcmp != 0 && !c.timerTaken then s.advanceTo c.tcmp.toNat else s
  if s.asyncPending c == 0 then s else s.modTile t fun c => { c with state := .monitor }

/-- A WAITING tile resumes at PC + 4. -/
def execWaitWakeup (tile : TileId) (s : State) : Res := .next (s.wakeup tile)

/-- FENCE: loads and stores of a tile reach their target in order here. -/
def execFence (tile : TileId) (s : State) : Res := .next (s.spar tile fun s => .next s [])

/-! Asynchronous events (R343). -/

/-- An event is accepted: IM is 0, the tile executes, and no event before it in the order is pending. -/
def State.acceptEvent (s : State) (t : TileId) (no value : Nat) (clear : Tile → Tile) : State :=
  let c := s.tiles[t]
  (s.modTile t clear).takeException t no value c.pc

/-- The tile may accept the event of a bit of ASYNC_PENDING. [log 80 DEDUCED] -/
def State.accepts (s : State) (t : TileId) (bit : Nat) : Bool :=
  let c := s.tiles[t]
  s.sparRuns t && !c.im && bitAt (s.asyncPending c) bit && s.asyncPending c % 2 ^ bit == 0

/-- Stack and data of the kernels that a bundle may be in (R170, R350): bytes of each. -/
def State.kernelRoom (s : State) (d : BDesc) : Nat :=
  match s.plan d.planSlot with
  | none => 0
  | some p =>
    let m := parseImage p.image
    let rest := ((m.pipes[d.pipeline]?).map m.rest).getD []
    (rest.filterMap fun x => if x.2.2.code == 0x05 then (m.kernels[x.2.2.kernel]?).map fun k => k.stack + k.dataKib * 1024 else none).foldl max 0

/-- The bundle's context stands at CONTEXT_ADDR (R350): the PREEMPT frame, g0 to g31, m0 to m7, the monitor's own state, the vector registers
where the frame's VX is 1, then kernel stack and data. [log 217 DESIGN CHOICE] -/
def State.saveContext (s : State) (t : TileId) (d : BDesc) : State :=
  let room := s.kernelRoom d
  if s.dram.managed < d.contextAddr + 0xA00 + room then s else
  let c := s.tiles[t]
  let (mon, s) := s.freeBytes 160
  let (k, s) := s.fresh
  let off := Config.freeNat k % 0x40000
  let regs := c.g.toList.flatMap (fun x => toLE 8 x.toNat) ++ (List.finRange 8).flatMap (fun i => toLE 8 (c.mask i))
  let s := s.dramPut t d.contextAddr (c.scratchGet c.msp.toNat 32 ++ regs ++ mon)
  let s := if c.vx then s.dramPut t (d.contextAddr + 0x200) (c.v.toList.flatMap fun x => toLE 64 x.toNat) else s
  let s := if room == 0 then s else s.dramPut t (d.contextAddr + 0xA00) (c.scratchGet (scratchBase + off) room)
  s.modSched t fun y => { y with run := { y.run with ctx := true, vctx := y.run.vctx || c.vx } }

/-- PREEMPT accepted; the Batten moves the tile to SAVING (R303) and the tile monitor saves the context (R350). -/
def State.acceptPreempt (s : State) (t : TileId) : State :=
  if !s.accepts t 0 then s else
  let s := s.acceptEvent t 0x10 0 fun c => { c with pendPreempt := false }
  let y := s.batten.tiles[t]
  match y.desc with
  | some d =>
    if y.state != .preempting then s else
    let s := ((s.tileTo t .saving).modSched t fun y => { y with preemptAt := s.time.ts }).trace 4 t.val d 0 false
    if (s.tiles[t]).state == .monitor then s.saveContext t d else s
  | none => s

/-- A pending PREEMPT is accepted. -/
def execPreempt (tile : TileId) (s : State) : Res := .next (s.acceptPreempt tile)

/-- A pending DISPATCH is accepted. -/
def execDispatch (tile : TileId) (s : State) : Res :=
  .next (if s.accepts tile 1 then s.acceptEvent tile 0x11 0 fun c => { c with pendDispatch := false } else s)

/-- A pending UNIT is accepted; it stays pending until every UNIT_SRC bit is cleared. -/
def execUnit (tile : TileId) (s : State) : Res :=
  .next (if s.accepts tile 2 then s.acceptEvent tile 0x12 ((s.tiles[tile]).unitSrc).toNat id else s)

/-- TSNOW reaches TCMP and the tile accepts TIMER. [log 78 DEDUCED] -/
def State.acceptTimer (s : State) (t : TileId) : State :=
  let c := s.tiles[t]
  let s' := if c.tcmp != 0 && !c.timerTaken then s.advanceTo c.tcmp.toNat else s
  if s'.accepts t 3 then s'.acceptEvent t 0x13 s'.time.ts fun c => { c with timerTaken := true } else s

/-- TIMER is accepted. -/
def execTimer (tile : TileId) (s : State) : Res := .next (s.acceptTimer tile)

/-! CMO (R387, R389, R391). -/

/-- What an operation did to a line: acted, skipped as locked, sectors discarded, lock refused. -/
structure CmoTally where
  acted : Nat
  skipped : Nat
  discarded : Nat
  refused : Nat

/-- Nothing done. -/
def CmoTally.zero : CmoTally := ⟨0, 0, 0, 0⟩

/-- Tallies of two lines together. -/
def CmoTally.add (a b : CmoTally) : CmoTally := ⟨a.acted + b.acted, a.skipped + b.skipped, a.discarded + b.discarded, a.refused + b.refused⟩

/-- Locked lines in the set of a place of L1 data. [log 94 DEDUCED] -/
def Tile.lockedIn (c : Tile) (set : Nat) : Nat := (upFrom (set * 4) 4).countP fun k => (nget c.l1d k).any (·.locked)

/-- Locked lines in a set of L1 instruction. -/
def Tile.iLockedIn (c : Tile) (set : Nat) : Nat := (upFrom (set * 4) 4).countP fun k => (nget c.l1i k).any (·.locked)

/-- One L1 data line at a place: operation 1 CLEAN to 5 UNLOCK. A range CLEAN that includes locked lines clears their lock. -/
def State.cmoData (s : State) (t : TileId) (op : Nat) (incl range : Bool) (k : Nat) : CmoTally × State :=
  match nget (s.tiles[t]).l1d k with
  | none => (.zero, s)
  | some x =>
    if x.locked && !incl then (⟨0, 1, 0, 0⟩, s) else
    let n := x.dirty.countP id
    if op == 4 then
      if !x.locked && 3 ≤ (s.tiles[t]).lockedIn (k / 4) then (⟨0, 0, 0, 1⟩, s.bump 0x1802 3 1)
      else (⟨1, 0, 0, 0⟩, s.modTile t fun c => { c with l1d := nmod c.l1d k fun x => { x with locked := true } })
    else
      let s := if op == 1 || op == 3 then s.l1CleanAt t k else s
      let lostN := if op == 2 then n else 0
      let s := if lostN == 0 then s else s.bump 0x1804 2 lostN
      let s := s.modTile t fun c =>
        { c with l1d := if op == 2 || op == 3 then ndel c.l1d k else nmod c.l1d k fun x => { x with locked := x.locked && op == 1 && !range } }
      (⟨1, 0, lostN, 0⟩, s)

/-- One L1 instruction line at a place; CLEAN acts on nothing. -/
def State.cmoInstr (s : State) (t : TileId) (op : Nat) (incl : Bool) (k : Nat) : CmoTally × State :=
  match nget (s.tiles[t]).l1i k with
  | none => (.zero, s)
  | some x =>
    if op == 1 then (.zero, s)
    else if x.locked && !incl then (⟨0, 1, 0, 0⟩, s)
    else if op == 4 then
      if !x.locked && 3 ≤ (s.tiles[t]).iLockedIn (k / 4) then (⟨0, 0, 0, 1⟩, s.bump 0x1802 3 1)
      else (⟨1, 0, 0, 0⟩, s.modTile t fun c => { c with l1i := nmod c.l1i k fun x => { x with locked := true } })
    else
      (⟨1, 0, 0, 0⟩, s.modTile t fun c =>
        { c with l1i := if op == 2 || op == 3 then ndel c.l1i k else nmod c.l1i k fun x => { x with locked := false } })

/-- The line at an address in the L1 data and victim caches. [log 95 DEDUCED] -/
def State.cmoDataLine (s : State) (t : TileId) (op : Nat) (incl : Bool) (line : Nat) : CmoTally × State :=
  let s := if op == 4 && 128 * line < s.dram.managed then (List.range 4).foldl (fun s j => (s.l1Sector t line j).2) s else s
  match (s.tiles[t]).l1Find line with
  | some k => s.cmoData t op incl true k
  | none =>
    if !(s.tiles[t]).victim.any (fun x => x.line == line) then (.zero, s)
    else (⟨1, 0, 0, 0⟩, if op == 2 || op == 3 then s.modTile t fun c => { c with victim := c.victim.filter fun x => x.line != line } else s)

/-- The lines at an address in the L1 instruction cache: one for each plan slot that fetched it. -/
def State.cmoInstrLine (s : State) (t : TileId) (op : Nat) (incl : Bool) (line : Nat) : CmoTally × State :=
  let s := if op == 4 && 128 * line < s.dram.managed then (List.range 4).foldl (fun s j => (s.iFetch t (128 * line + 32 * j) none).2) s else s
  (upFrom (line % 64 * 4) 4).foldl (fun (acc : CmoTally × State) k =>
    if (nget (acc.2.tiles[t]).l1i k).any (fun x => x.line == line) then
      let (y, s) := acc.2.cmoInstr t op incl k
      (acc.1.add y, s)
    else acc) (.zero, s)

/-- One step of a CMO over both targets. [log 94 DEDUCED, 97 DEDUCED] -/
def State.cmoStep (s : State) (t : TileId) (target : Nat) (data instr : State → CmoTally × State) : CmoTally × State :=
  let (a, s) := if target == 1 then (CmoTally.zero, s) else data s
  let (b, s) := if target == 0 then (CmoTally.zero, s) else instr s
  (a.add b, s)

/-- A 16-bit field of the accumulator, saturating. -/
def satField (old lo n : Nat) : Nat := min 0xFFFF (bitsOf old (lo + 15) lo + n) * 2 ^ lo

/-- The accumulator g(r + 2) with a tally added (R389). -/
def CmoTally.into (y : CmoTally) (old : Nat) : Nat :=
  satField old 0 y.acted + satField old 16 y.skipped + satField old 32 y.discarded + satField old 48 y.refused

/-- A range LOCK must fetch a line for a target: it is absent there (R389). [log 86 DESIGN CHOICE] -/
def Tile.lockFetches (c : Tile) (target line : Nat) : Bool :=
  (target != 1 && (c.l1Held line).isNone) || (target != 0 && !c.l1i.any fun x => x.2.line == line)

/-- A CMO: at most 128 lines, then g(r) advanced and the count reduced. [log 96 DEDUCED] -/
def State.cmo (s : State) (t : TileId) (op : Nat) (r : Reg) (setway : Bool) (target : Fin 4) (incl : Bool) : State :=
  let imm := op + setway.toNat * 8 + target.val * 16 + incl.toNat * 64
  s.sparWord t (wordS 7 r.val imm) (cmoLegal imm) true fun s =>
    let g := (s.tiles[t]).g
    let r1 : Reg := r + 1
    let r2 : Reg := r + 2
    let base := (g[r]).toNat
    let count := (g[r1]).toNat
    let finish := fun (y : CmoTally) (s : State) (newBase newCount : Nat) =>
      SOut.next (s.modTile t fun c =>
        ((c.setG r (BitVec.ofNat 64 newBase)).setG r1 (BitVec.ofNat 64 newCount)).setG r2
          (BitVec.ofNat 64 (y.into (c.g[r2]).toNat))) []
    if setway then
      let sets := if target == 1 then 64 else 128
      let n := min count 128
      let first := base % 128 * 4 + bitsOf base 8 7
      let (y, s) := (upFrom first n).foldl (fun (acc : CmoTally × State) k =>
        let (z, s) := acc.2.cmoStep t target.val (fun s => s.cmoData t op incl false (k % 512)) (fun s => s.cmoInstr t op incl (k % 256))
        (acc.1.add z, s)) (CmoTally.zero, s)
      let after := (first + n) % (sets * 4)
      finish y s (after / 4 + after % 4 * 2 ^ 7) (count - n)
    else if base % 128 != 0 || count % 128 != 0 then .fault s (.align base)
    else
      let n := min (count / 128) 128
      let fetched := if op == 4 then (upFrom (base / 128) n).filter ((s.tiles[t]).lockFetches target.val) else []
      let bad := fetched.findSome? fun l => s.firstBad t .load (128 * l) 128
      let poison := (fetched.flatMap fun l => [2 * l, 2 * l + 1]).find? fun l => s.lineBad (64 * l)
      match bad, poison with
      | some k, _ => .fault s (.window k)
      | none, some l => .fault s (.poisoned (64 * l))
      | none, none =>
        let (y, s) := (upFrom (base / 128) n).foldl (fun (acc : CmoTally × State) line =>
          let (z, s) := acc.2.cmoStep t target.val (fun s => s.cmoDataLine t op incl line) (fun s => s.cmoInstrLine t op incl line)
          (acc.1.add z, s)) (CmoTally.zero, s)
        finish y s (base + 128 * n) (count - 128 * n)

/-- CMO CLEAN. -/
def execCmoClean (tile : TileId) (r : Reg) (setway : Bool) (target : Fin 4) (incl : Bool) (s : State) : Res :=
  .next (s.cmo tile 1 r setway target incl)
/-- CMO INVALIDATE. -/
def execCmoInvalidate (tile : TileId) (r : Reg) (setway : Bool) (target : Fin 4) (incl : Bool) (s : State) : Res :=
  .next (s.cmo tile 2 r setway target incl)
/-- CMO CLEAN_INVALIDATE. -/
def execCmoCleanInvalidate (tile : TileId) (r : Reg) (setway : Bool) (target : Fin 4) (incl : Bool) (s : State) : Res :=
  .next (s.cmo tile 3 r setway target incl)
/-- CMO LOCK. -/
def execCmoLock (tile : TileId) (r : Reg) (setway : Bool) (target : Fin 4) (incl : Bool) (s : State) : Res :=
  .next (s.cmo tile 4 r setway target incl)
/-- CMO UNLOCK. -/
def execCmoUnlock (tile : TileId) (r : Reg) (setway : Bool) (target : Fin 4) (incl : Bool) (s : State) : Res :=
  .next (s.cmo tile 5 r setway target incl)

end Sys2Proof.Machine
end

