-- ==== Sys2Proof/Machine/SparVector.lean ====
section
/-! DEFINITION. The vector instructions of the Spar core (chapter 11): elements and masks, the element-wise groups,
reductions, masks, and the column-specific instructions. Memory access stands in SparVecMem. -/

namespace Sys2Proof.Machine

/-! Elements and predication (R354, R357, R358). -/

/-- Bits of an element. -/
def ewBits (ew : Nat) : Nat := 8 * 2 ^ ew

/-- Element i of a vector register. -/
def vElem (x : VecReg) (w i : Nat) : Nat := x.toNat / 2 ^ (w * i) % 2 ^ w

/-- A vector register of elements, lowest first. -/
def vOf (w : Nat) (l : List Nat) : VecReg :=
  BitVec.ofNat 512 ((l.zipIdx.map fun (x : Nat × Nat) => x.1 % 2 ^ w * 2 ^ (w * x.2)).sum)

/-- Element i is active under a governing mask. -/
def Tile.active (c : Tile) (m : MReg) (i : Nat) : Bool := bitAt (c.mask m) i

/-- v(d) of n elements of w bits with the active ones given, the others kept or zero (R358), the rest of v(d) as `top`. -/
def Tile.vMerge (c : Tile) (d : Reg) (m : MReg) (z : Bool) (w n : Nat) (f : Nat → Nat) : List Nat :=
  (List.range n).map fun i => if c.active m i then f i else if z then 0 else vElem c.v[d] w i

/-- Mask d of n elements with the active bits given, the others kept or zero; bits n and above zero (R357, R358). -/
def Tile.mMerge (c : Tile) (d m : MReg) (z : Bool) (n : Nat) (f : Nat → Bool) : Nat :=
  ((List.range n).map fun i =>
    if (if c.active m i then f i else !z && bitAt (c.mask d) i) then 2 ^ i else 0).sum

/-- The flags of the active elements. -/
def Tile.vFlags (c : Tile) (m : MReg) (n : Nat) (f : Nat → Fx) : Fx :=
  (List.range n).foldl (fun (acc : Fx) i => if c.active m i then acc ||| f i else acc) 0

/-- A vector instruction that changes only registers; its word decides whether it is legal (R334, R359). -/
def State.vRegs (s : State) (t : TileId) (word : Nat) (f : Tile → Tile) : State :=
  s.sparWord t word (vecLegal word) false fun s => .next (s.modTile t f) []

/-- An element-wise instruction into v(d). -/
def State.vMap (s : State) (t : TileId) (word : Nat) (d : Reg) (m : MReg) (z : Bool) (ew : Fin 4)
    (f : Tile → Nat → Nat → Nat) : State :=
  s.vRegs t word fun c =>
    let w := ewBits ew.val
    c.setV d (vOf w (c.vMerge d m z w (vElems ew.val) (f c w)))

/-- An integer instruction on elements of a and b (R360). -/
def State.vInt (s : State) (t : TileId) (func : Nat) (d a b : Reg) (m : MReg) (z : Bool) (ew : Fin 4) (f : Nat → Nat → Nat → Nat) :
    State :=
  s.vMap t (wordV 0x30 func d.val a.val b.val m.val z ew.val) d m z ew fun c w i => f w (vElem c.v[a] w i) (vElem c.v[b] w i)

/-- The format of floating-point elements. -/
def ewFmt (ew : Fin 4) : FFmt := if ew == 3 then f64 else f32

/-- A floating-point instruction on elements of a, b and d (R360). -/
def State.vFp (s : State) (t : TileId) (func : Nat) (d a b : Reg) (m : MReg) (z : Bool) (ew : Fin 4)
    (f : FFmt → Nat → Nat → Nat → FRes) : State :=
  s.vRegs t (wordV 0x31 func d.val a.val b.val m.val z ew.val) fun c =>
    let w := ewBits ew.val
    let r := fun i => f (ewFmt ew) (vElem c.v[a] w i) (vElem c.v[b] w i) (vElem c.v[d] w i)
    (c.setV d (vOf w (c.vMerge d m z w (vElems ew.val) fun i => (r i).bits))).addFx (c.vFlags m (vElems ew.val) fun i => (r i).fx)

/-- A comparison into mask d (R360). -/
def State.vCmp (s : State) (t : TileId) (func : Nat) (d : MReg) (a b : Reg) (m : MReg) (z : Bool) (ew : Fin 4)
    (f : Nat → Nat → Nat → Bool × Fx) : State :=
  s.vRegs t (wordV 0x32 func d.val a.val b.val m.val z ew.val) fun c =>
    let w := ewBits ew.val
    let r := fun i => f w (vElem c.v[a] w i) (vElem c.v[b] w i)
    (c.setM d (c.mMerge d m z (vElems ew.val) fun i => (r i).1)).addFx (c.vFlags m (vElems ew.val) fun i => (r i).2)

/-- A reduction into g(d) over the active elements of a (R360). -/
def State.vRed (s : State) (t : TileId) (func : Nat) (d a : Reg) (m : MReg) (z : Bool) (ew : Fin 4)
    (f : Nat → List Nat → Nat) : State :=
  s.vRegs t (wordV 0x34 func d.val a.val 0 m.val z ew.val) fun c =>
    let w := ewBits ew.val
    c.setG d (BitVec.ofNat 64 (f w (((List.range (vElems ew.val)).filter (c.active m)).map (vElem c.v[a] w))))

/-- An instruction on masks a and b into mask d (R360). -/
def State.vMaskOp (s : State) (t : TileId) (func : Nat) (d a b m : MReg) (z : Bool) (ew : Fin 4) (f : Bool → Bool → Bool) : State :=
  s.vRegs t (wordV 0x35 func d.val a.val b.val m.val z ew.val) fun c =>
    c.setM d (c.mMerge d m z (vElems ew.val) fun i => f (bitAt (c.mask a) i) (bitAt (c.mask b) i))

/-- Shift right of a w-bit two's-complement number. -/
def sarW (w x k : Nat) : Nat := unsignedOf w (signedOf w x / 2 ^ k)

/-! Integer (major 0x30). -/

/-- VADD. -/
def execVadd (tile : TileId) (d a b : Reg) (m : MReg) (z : Bool) (ew : Fin 4) (s : State) : Res := .next (s.vInt tile 0 d a b m z ew fun _ x y => x + y)
/-- VSUB. -/
def execVsub (tile : TileId) (d a b : Reg) (m : MReg) (z : Bool) (ew : Fin 4) (s : State) : Res := .next (s.vInt tile 1 d a b m z ew fun w x y => x + 2 ^ w - y)
/-- VMUL. -/
def execVmul (tile : TileId) (d a b : Reg) (m : MReg) (z : Bool) (ew : Fin 4) (s : State) : Res := .next (s.vInt tile 2 d a b m z ew fun _ x y => x * y)
/-- VMULHU. -/
def execVmulhu (tile : TileId) (d a b : Reg) (m : MReg) (z : Bool) (ew : Fin 4) (s : State) : Res := .next (s.vInt tile 3 d a b m z ew fun w x y => x * y / 2 ^ w)
/-- VMULHS. -/
def execVmulhs (tile : TileId) (d a b : Reg) (m : MReg) (z : Bool) (ew : Fin 4) (s : State) : Res := .next (s.vInt tile 4 d a b m z ew fun w x y => unsignedOf w (signedOf w x * signedOf w y / 2 ^ w))
/-- VAND. -/
def execVand (tile : TileId) (d a b : Reg) (m : MReg) (z : Bool) (ew : Fin 4) (s : State) : Res := .next (s.vInt tile 5 d a b m z ew fun _ x y => x &&& y)
/-- VOR. -/
def execVor (tile : TileId) (d a b : Reg) (m : MReg) (z : Bool) (ew : Fin 4) (s : State) : Res := .next (s.vInt tile 6 d a b m z ew fun _ x y => x ||| y)
/-- VXOR. -/
def execVxor (tile : TileId) (d a b : Reg) (m : MReg) (z : Bool) (ew : Fin 4) (s : State) : Res := .next (s.vInt tile 7 d a b m z ew fun _ x y => x ^^^ y)
/-- VANDN. -/
def execVandn (tile : TileId) (d a b : Reg) (m : MReg) (z : Bool) (ew : Fin 4) (s : State) : Res := .next (s.vInt tile 8 d a b m z ew fun w x y => x &&& (2 ^ w - 1 - y))
/-- VSHL. -/
def execVshl (tile : TileId) (d a b : Reg) (m : MReg) (z : Bool) (ew : Fin 4) (s : State) : Res := .next (s.vInt tile 9 d a b m z ew fun w x y => x * 2 ^ (y % w))
/-- VSHR. -/
def execVshr (tile : TileId) (d a b : Reg) (m : MReg) (z : Bool) (ew : Fin 4) (s : State) : Res := .next (s.vInt tile 10 d a b m z ew fun w x y => x / 2 ^ (y % w))
/-- VSAR. -/
def execVsar (tile : TileId) (d a b : Reg) (m : MReg) (z : Bool) (ew : Fin 4) (s : State) : Res := .next (s.vInt tile 11 d a b m z ew fun w x y => sarW w x (y % w))
/-- VROR. -/
def execVror (tile : TileId) (d a b : Reg) (m : MReg) (z : Bool) (ew : Fin 4) (s : State) : Res := .next (s.vInt tile 12 d a b m z ew fun w x y => x / 2 ^ (y % w) + x * 2 ^ (w - y % w))
/-- VMINU. -/
def execVminu (tile : TileId) (d a b : Reg) (m : MReg) (z : Bool) (ew : Fin 4) (s : State) : Res := .next (s.vInt tile 13 d a b m z ew fun _ x y => min x y)
/-- VMINS. -/
def execVmins (tile : TileId) (d a b : Reg) (m : MReg) (z : Bool) (ew : Fin 4) (s : State) : Res := .next (s.vInt tile 14 d a b m z ew fun w x y => if signedOf w y < signedOf w x then y else x)
/-- VMAXU. -/
def execVmaxu (tile : TileId) (d a b : Reg) (m : MReg) (z : Bool) (ew : Fin 4) (s : State) : Res := .next (s.vInt tile 15 d a b m z ew fun _ x y => max x y)
/-- VMAXS. -/
def execVmaxs (tile : TileId) (d a b : Reg) (m : MReg) (z : Bool) (ew : Fin 4) (s : State) : Res := .next (s.vInt tile 16 d a b m z ew fun w x y => if signedOf w x < signedOf w y then y else x)
/-- VABS: reads a only. -/
def execVabs (tile : TileId) (d a : Reg) (m : MReg) (z : Bool) (ew : Fin 4) (s : State) : Res := .next (s.vInt tile 17 d a 0 m z ew fun w x _ => if signedOf w x < 0 then 2 ^ w - x else x)
/-- VNEG: reads a only. -/
def execVneg (tile : TileId) (d a : Reg) (m : MReg) (z : Bool) (ew : Fin 4) (s : State) : Res := .next (s.vInt tile 18 d a 0 m z ew fun w x _ => 2 ^ w - x)
/-- VMOV: reads a only. -/
def execVmov (tile : TileId) (d a : Reg) (m : MReg) (z : Bool) (ew : Fin 4) (s : State) : Res := .next (s.vInt tile 19 d a 0 m z ew fun _ x _ => x)

/-! Floating point (major 0x31). -/

/-- VFADD. -/
def execVfadd (tile : TileId) (d a b : Reg) (m : MReg) (z : Bool) (ew : Fin 4) (s : State) : Res := .next (s.vFp tile 0 d a b m z ew fun f x y _ => f.add x y)
/-- VFSUB. -/
def execVfsub (tile : TileId) (d a b : Reg) (m : MReg) (z : Bool) (ew : Fin 4) (s : State) : Res := .next (s.vFp tile 1 d a b m z ew fun f x y _ => f.sub x y)
/-- VFMUL. -/
def execVfmul (tile : TileId) (d a b : Reg) (m : MReg) (z : Bool) (ew : Fin 4) (s : State) : Res := .next (s.vFp tile 2 d a b m z ew fun f x y _ => f.mul x y)
/-- VFDIV. -/
def execVfdiv (tile : TileId) (d a b : Reg) (m : MReg) (z : Bool) (ew : Fin 4) (s : State) : Res := .next (s.vFp tile 3 d a b m z ew fun f x y _ => f.div x y)
/-- VFSQRT: reads a. -/
def execVfsqrt (tile : TileId) (d a : Reg) (m : MReg) (z : Bool) (ew : Fin 4) (s : State) : Res := .next (s.vFp tile 4 d a 0 m z ew fun f x _ _ => f.sqrt x)
/-- VFMIN. -/
def execVfmin (tile : TileId) (d a b : Reg) (m : MReg) (z : Bool) (ew : Fin 4) (s : State) : Res := .next (s.vFp tile 5 d a b m z ew fun f x y _ => f.minK x y)
/-- VFMAX. -/
def execVfmax (tile : TileId) (d a b : Reg) (m : MReg) (z : Bool) (ew : Fin 4) (s : State) : Res := .next (s.vFp tile 6 d a b m z ew fun f x y _ => f.maxK x y)
/-- VFMA. -/
def execVfma (tile : TileId) (d a b : Reg) (m : MReg) (z : Bool) (ew : Fin 4) (s : State) : Res := .next (s.vFp tile 7 d a b m z ew fun f x y q => f.fma false x y q)
/-- VFMS. -/
def execVfms (tile : TileId) (d a b : Reg) (m : MReg) (z : Bool) (ew : Fin 4) (s : State) : Res := .next (s.vFp tile 8 d a b m z ew fun f x y q => f.fma true x y q)

/-! Comparisons into a mask (major 0x32). -/

/-- VCEQ. -/
def execVceq (tile : TileId) (d : MReg) (a b : Reg) (m : MReg) (z : Bool) (ew : Fin 4) (s : State) : Res :=
  .next (s.vCmp tile 0 d a b m z ew fun _ x y => (x == y, 0))
/-- VCNE. -/
def execVcne (tile : TileId) (d : MReg) (a b : Reg) (m : MReg) (z : Bool) (ew : Fin 4) (s : State) : Res :=
  .next (s.vCmp tile 1 d a b m z ew fun _ x y => (x != y, 0))
/-- VCLTU. -/
def execVcltu (tile : TileId) (d : MReg) (a b : Reg) (m : MReg) (z : Bool) (ew : Fin 4) (s : State) : Res :=
  .next (s.vCmp tile 2 d a b m z ew fun _ x y => (decide (x < y), 0))
/-- VCLEU. -/
def execVcleu (tile : TileId) (d : MReg) (a b : Reg) (m : MReg) (z : Bool) (ew : Fin 4) (s : State) : Res :=
  .next (s.vCmp tile 3 d a b m z ew fun _ x y => (decide (x ≤ y), 0))
/-- VCLTS. -/
def execVclts (tile : TileId) (d : MReg) (a b : Reg) (m : MReg) (z : Bool) (ew : Fin 4) (s : State) : Res :=
  .next (s.vCmp tile 4 d a b m z ew fun w x y => (decide (signedOf w x < signedOf w y), 0))
/-- VCLES. -/
def execVcles (tile : TileId) (d : MReg) (a b : Reg) (m : MReg) (z : Bool) (ew : Fin 4) (s : State) : Res :=
  .next (s.vCmp tile 5 d a b m z ew fun w x y => (decide (signedOf w x ≤ signedOf w y), 0))
/-- VFCEQ. -/
def execVfceq (tile : TileId) (d : MReg) (a b : Reg) (m : MReg) (z : Bool) (ew : Fin 4) (s : State) : Res :=
  .next (s.vCmp tile 6 d a b m z ew fun _ x y => (ewFmt ew).eqF x y)
/-- VFCLT. -/
def execVfclt (tile : TileId) (d : MReg) (a b : Reg) (m : MReg) (z : Bool) (ew : Fin 4) (s : State) : Res :=
  .next (s.vCmp tile 7 d a b m z ew fun _ x y => (ewFmt ew).ltF false x y)
/-- VFCLE. -/
def execVfcle (tile : TileId) (d : MReg) (a b : Reg) (m : MReg) (z : Bool) (ew : Fin 4) (s : State) : Res :=
  .next (s.vCmp tile 8 d a b m z ew fun _ x y => (ewFmt ew).ltF true x y)
/-- VFKLT. -/
def execVfklt (tile : TileId) (d : MReg) (a b : Reg) (m : MReg) (z : Bool) (ew : Fin 4) (s : State) : Res :=
  .next (s.vCmp tile 9 d a b m z ew fun _ x y => (decide ((ewFmt ew).key x < (ewFmt ew).key y), 0))
/-- VFKLE. -/
def execVfkle (tile : TileId) (d : MReg) (a b : Reg) (m : MReg) (z : Bool) (ew : Fin 4) (s : State) : Res :=
  .next (s.vCmp tile 10 d a b m z ew fun _ x y => (decide ((ewFmt ew).key x ≤ (ewFmt ew).key y), 0))

/-! Permute and reduce (major 0x34). -/

/-- VBCAST: each active element = low w bits of g(a). -/
def execVbcast (tile : TileId) (d a : Reg) (m : MReg) (z : Bool) (ew : Fin 4) (s : State) : Res :=
  .next (s.vMap tile (wordV 0x34 0 d.val a.val 0 m.val z ew.val) d m z ew fun c _ _ => (c.g[a]).toNat)
/-- VEXTR: g(d) = element (g(b) mod n) of v(a), zero-extended. [log 91 DEDUCED] -/
def execVextr (tile : TileId) (d a b : Reg) (m : MReg) (z : Bool) (ew : Fin 4) (s : State) : Res :=
  .next (s.vRegs tile (wordV 0x34 1 d.val a.val b.val m.val z ew.val) fun c =>
    c.setG d (BitVec.ofNat 64 (vElem c.v[a] (ewBits ew.val) ((c.g[b]).toNat % vElems ew.val))))
/-- VCMPRS: the active elements of v(a) to the front of v(d), zero behind them (R371). -/
def execVcmprs (tile : TileId) (d a : Reg) (m : MReg) (ew : Fin 4) (s : State) : Res :=
  .next (s.vRegs tile (wordV 0x34 2 d.val a.val 0 m.val false ew.val) fun c =>
    let w := ewBits ew.val
    c.setV d (vOf w (((List.range (vElems ew.val)).filter (c.active m)).map (vElem c.v[a] w))))
/-- VSLDN: element i = element i + g(b) of v(a), zero where that is n or above. -/
def execVsldn (tile : TileId) (d a b : Reg) (m : MReg) (z : Bool) (ew : Fin 4) (s : State) : Res :=
  .next (s.vMap tile (wordV 0x34 3 d.val a.val b.val m.val z ew.val) d m z ew fun c w i =>
    let k := i + (c.g[b]).toNat
    if k < vElems ew.val then vElem c.v[a] w k else 0)
/-- VREDSUMU. -/
def execVredsumu (tile : TileId) (d a : Reg) (m : MReg) (z : Bool) (ew : Fin 4) (s : State) : Res :=
  .next (s.vRed tile 4 d a m z ew fun _ l => l.sum)
/-- VREDSUMS. -/
def execVredsums (tile : TileId) (d a : Reg) (m : MReg) (z : Bool) (ew : Fin 4) (s : State) : Res :=
  .next (s.vRed tile 5 d a m z ew fun w l => unsignedOf 64 ((l.map (signedOf w)).sum))
/-- VREDMINU. -/
def execVredminu (tile : TileId) (d a : Reg) (m : MReg) (z : Bool) (ew : Fin 4) (s : State) : Res :=
  .next (s.vRed tile 6 d a m z ew fun w l => l.foldl min (2 ^ w - 1))
/-- VREDMINS. -/
def execVredmins (tile : TileId) (d a : Reg) (m : MReg) (z : Bool) (ew : Fin 4) (s : State) : Res :=
  .next (s.vRed tile 7 d a m z ew fun w l => unsignedOf 64 ((l.map (signedOf w)).foldl min (2 ^ (w - 1) - 1)))
/-- VREDMAXU. -/
def execVredmaxu (tile : TileId) (d a : Reg) (m : MReg) (z : Bool) (ew : Fin 4) (s : State) : Res :=
  .next (s.vRed tile 8 d a m z ew fun _ l => l.foldl max 0)
/-- VREDMAXS. -/
def execVredmaxs (tile : TileId) (d a : Reg) (m : MReg) (z : Bool) (ew : Fin 4) (s : State) : Res :=
  .next (s.vRed tile 9 d a m z ew fun w l => unsignedOf 64 ((l.map (signedOf w)).foldl max (-(2 ^ (w - 1)))))
/-- VFREDSUM: f(d) = +0.0 plus the active elements, in ascending order with one rounding per addition. -/
def execVfredsum (tile : TileId) (d a : Reg) (m : MReg) (z : Bool) (ew : Fin 4) (s : State) : Res :=
  .next (s.vRegs tile (wordV 0x34 10 d.val a.val 0 m.val z ew.val) fun c =>
    let w := ewBits ew.val
    let l := ((List.range (vElems ew.val)).filter (c.active m)).map (vElem c.v[a] w)
    let r : FRes := l.foldl (fun (acc : FRes) x =>
      let y := (ewFmt ew).add acc.bits x
      ⟨y.bits, acc.fx ||| y.fx⟩) ⟨0, 0⟩
    (c.setF d r.bits).addFx r.fx)

/-! Masks (major 0x35). -/

/-- MAND. -/
def execMand (tile : TileId) (d a b m : MReg) (z : Bool) (ew : Fin 4) (s : State) : Res :=
  .next (s.vMaskOp tile 0 d a b m z ew fun x y => x && y)
/-- MOR. -/
def execMor (tile : TileId) (d a b m : MReg) (z : Bool) (ew : Fin 4) (s : State) : Res :=
  .next (s.vMaskOp tile 1 d a b m z ew fun x y => x || y)
/-- MXOR. -/
def execMxor (tile : TileId) (d a b m : MReg) (z : Bool) (ew : Fin 4) (s : State) : Res :=
  .next (s.vMaskOp tile 2 d a b m z ew fun x y => x != y)
/-- MANDN. -/
def execMandn (tile : TileId) (d a b m : MReg) (z : Bool) (ew : Fin 4) (s : State) : Res :=
  .next (s.vMaskOp tile 3 d a b m z ew fun x y => x && !y)
/-- MNOT: reads a, ignores the governing mask. -/
def execMnot (tile : TileId) (d a m : MReg) (z : Bool) (ew : Fin 4) (s : State) : Res :=
  .next (s.vRegs tile (wordV 0x35 4 d.val a.val 0 m.val z ew.val) fun c =>
    c.setM d (2 ^ vElems ew.val - 1 - c.mask a % 2 ^ vElems ew.val))
/-- MPOPC: g(d) = set bits of m(a) among the active elements. -/
def execMpopc (tile : TileId) (d : Reg) (a m : MReg) (z : Bool) (ew : Fin 4) (s : State) : Res :=
  .next (s.vRegs tile (wordV 0x35 5 d.val a.val 0 m.val z ew.val) fun c =>
    c.setG d (BitVec.ofNat 64 ((List.range (vElems ew.val)).countP fun i => c.active m i && bitAt (c.mask a) i)))
/-- MFIRST: g(d) = the lowest active element whose bit of m(a) is set, or n. -/
def execMfirst (tile : TileId) (d : Reg) (a m : MReg) (z : Bool) (ew : Fin 4) (s : State) : Res :=
  .next (s.vRegs tile (wordV 0x35 6 d.val a.val 0 m.val z ew.val) fun c =>
    c.setG d (BitVec.ofNat 64
      (((List.range (vElems ew.val)).find? fun i => c.active m i && bitAt (c.mask a) i).getD (vElems ew.val))))
/-- MTOG: g(d) = m(a), ignoring the governing mask. -/
def execMtog (tile : TileId) (d : Reg) (a m : MReg) (z : Bool) (ew : Fin 4) (s : State) : Res :=
  .next (s.vRegs tile (wordV 0x35 7 d.val a.val 0 m.val z ew.val) fun c =>
    c.setG d (BitVec.ofNat 64 (c.mask a % 2 ^ vElems ew.val)))
/-- GTOM: m(d) = g(a), ignoring the governing mask. -/
def execGtom (tile : TileId) (d : MReg) (a : Reg) (m : MReg) (z : Bool) (ew : Fin 4) (s : State) : Res :=
  .next (s.vRegs tile (wordV 0x35 8 d.val a.val 0 m.val z ew.val) fun c => c.setM d ((c.g[a]).toNat % 2 ^ vElems ew.val))
/-- VWHILE: m(d) bit i = 1 when g(a) + i < g(b), unsigned. -/
def execVwhile (tile : TileId) (d : MReg) (a b : Reg) (m : MReg) (z : Bool) (ew : Fin 4) (s : State) : Res :=
  .next (s.vRegs tile (wordV 0x35 9 d.val a.val b.val m.val z ew.val) fun c =>
    c.setM d (c.mMerge d m z (vElems ew.val) fun i => (c.g[a]).toNat + i < (c.g[b]).toNat))

/-! Column-specific (R367 to R371). -/

/-- VUNPK: packed items of v(a) into elements (R367). -/
def execVunpk (tile : TileId) (d a b : Reg) (m : MReg) (z : Bool) (ew : Fin 4) (s : State) : Res :=
  .next (s.vMap tile (wordV 0x36 0 d.val a.val b.val m.val z ew.val) d m z ew fun c w i =>
    let k := (c.g[b]).toNat
    let n := min (bitsOf k 15 9) w
    let x := (c.v[a]).toNat / 2 ^ (k % 2 ^ 9 + i * n) % 2 ^ n
    if bitAt k 16 then unzigzag w x else x)

/-- VPLCMP: one plane of a comparison of 64 rows (R368): m(d) is EQ, m(d + 1) is GT. -/
def execVplcmp (tile : TileId) (d : MReg) (a b : Reg) (m : MReg) (s : State) : Res :=
  .next (s.vRegs tile (wordV 0x37 0 d.val a.val b.val m.val false 0) fun c =>
    let plane := (c.g[a]).toNat
    let k := bitAt (c.g[b]).toNat 0
    let gtReg : MReg := d + 1
    let hit := fun i => c.active m i && bitAt (c.mask d) i && bitAt plane i != k
    let eq := ((List.range 64).map fun i => if bitAt (c.mask d) i && !hit i then 2 ^ i else 0).sum
    let gt := ((List.range 64).map fun i => if (if hit i then bitAt plane i else bitAt (c.mask gtReg) i) then 2 ^ i else 0).sum
    (c.setM d eq).setM gtReg gt)

/-- VHASH: H of the bytes of each active element below 8 (R369, R370). -/
def execVhash (tile : TileId) (d a : Reg) (m : MReg) (z : Bool) (ew : Fin 4) (s : State) : Res :=
  .next (s.vRegs tile (wordV 0x38 0 d.val a.val 0 m.val z ew.val) fun c =>
    c.setV d (vOf 64 (c.vMerge d m z 64 8 fun i =>
      hashBytes (toLE (2 ^ ew.val) (vElem c.v[a] (ewBits ew.val) i)))))
/-- VHSTEP: d_i = step(d_i, a_i). -/
def execVhstep (tile : TileId) (d a : Reg) (m : MReg) (z : Bool) (ew : Fin 4) (s : State) : Res :=
  .next (s.vMap tile (wordV 0x38 1 d.val a.val 0 m.val z ew.val) d m z ew fun c w i => hStep (vElem c.v[d] w i) (vElem c.v[a] w i))
/-- VHFIN: d_i = fin(a_i). -/
def execVhfin (tile : TileId) (d a : Reg) (m : MReg) (z : Bool) (ew : Fin 4) (s : State) : Res :=
  .next (s.vMap tile (wordV 0x38 2 d.val a.val 0 m.val z ew.val) d m z ew fun c w i => hFin (vElem c.v[a] w i))

/-! Conversions (major 0x39): EW names the source. -/

/-- VZEXT: elements 0 to n/2 − 1 widened with zeros. -/
def execVzext (tile : TileId) (d a : Reg) (m : MReg) (z : Bool) (ew : Fin 4) (s : State) : Res :=
  .next (s.vRegs tile (wordV 0x39 0 d.val a.val 0 m.val z ew.val) fun c =>
    let w := ewBits ew.val
    c.setV d (vOf (2 * w) (c.vMerge d m z (2 * w) (vElems ew.val / 2) fun i => vElem c.v[a] w i)))
/-- VSEXT: elements 0 to n/2 − 1 widened with their sign. -/
def execVsext (tile : TileId) (d a : Reg) (m : MReg) (z : Bool) (ew : Fin 4) (s : State) : Res :=
  .next (s.vRegs tile (wordV 0x39 1 d.val a.val 0 m.val z ew.val) fun c =>
    let w := ewBits ew.val
    c.setV d (vOf (2 * w) (c.vMerge d m z (2 * w) (vElems ew.val / 2) fun i => unsignedOf (2 * w) (signedOf w (vElem c.v[a] w i)))))
/-- VNARW: elements truncated to w/2, the upper half of v(d) zero. -/
def execVnarw (tile : TileId) (d a : Reg) (m : MReg) (z : Bool) (ew : Fin 4) (s : State) : Res :=
  .next (s.vRegs tile (wordV 0x39 2 d.val a.val 0 m.val z ew.val) fun c =>
    let w := ewBits ew.val
    c.setV d (vOf (w / 2) (c.vMerge d m z (w / 2) (vElems ew.val) fun i => vElem c.v[a] w i)))
/-- A conversion of elements that may raise flags. [log 89 DEDUCED, 90 DEDUCED] -/
def State.vConv (s : State) (t : TileId) (func : Nat) (d a : Reg) (m : MReg) (z : Bool) (ew : Fin 4) (w n : Nat) (keepTop : Bool)
    (f : Nat → FRes) : State :=
  s.vRegs t (wordV 0x39 func d.val a.val 0 m.val z ew.val) fun c =>
    let r := fun i => f (vElem c.v[a] (ewBits ew.val) i)
    let top := if keepTop then (upFrom n (512 / w - n)).map (vElem c.v[d] w) else []
    (c.setV d (vOf w (c.vMerge d m z w n (fun i => (r i).bits) ++ top))).addFx (c.vFlags m n fun i => (r i).fx)
/-- VITOF: signed integers to floating point of the same width. -/
def execVitof (tile : TileId) (d a : Reg) (m : MReg) (z : Bool) (ew : Fin 4) (s : State) : Res :=
  .next (s.vConv tile 3 d a m z ew (ewBits ew.val) (vElems ew.val) false fun x => (ewFmt ew).ofInt (signedOf (ewBits ew.val) x))
/-- VFTOI: floating point to signed integers of the same width, saturating. -/
def execVftoi (tile : TileId) (d a : Reg) (m : MReg) (z : Bool) (ew : Fin 4) (s : State) : Res :=
  .next (s.vConv tile 4 d a m z ew (ewBits ew.val) (vElems ew.val) false fun x => (ewFmt ew).toInt (ewBits ew.val) x)
/-- VFCVT: F32 to F64 from the low half, or F64 to F32 into the low half. -/
def execVfcvt (tile : TileId) (d a : Reg) (m : MReg) (z : Bool) (ew : Fin 4) (s : State) : Res :=
  .next (if ew == 3 then s.vConv tile 5 d a m z ew 32 8 true fun x => f64.cvt f32 x
    else s.vConv tile 5 d a m z ew 64 8 false fun x => f32.cvt f64 x)

end Sys2Proof.Machine
end

