-- ==== Sys2Proof/Machine/SparVecMem.lean ====
section
/-! DEFINITION. Vector loads, stores, gathers and scatters (R361 to R366): element addresses, the whole-instruction fault
rule and first-fault gathers. -/

namespace Sys2Proof.Machine

/-- Active elements in ascending order. -/
def Tile.activeElems (c : Tile) (m : MReg) (n : Nat) : List Nat := (List.range n).filter (c.active m)

/-- An address as 64 bits. -/
def addr64 (x : Int) : Nat := unsignedOf 64 x

/-- Element i's address of VLD and VST. -/
def Tile.unitAddr (c : Tile) (a : Reg) (ew : Fin 4) (i : Nat) : Nat := addr64 ((c.g[a]).toNat + i * 2 ^ ew.val)

/-- Element i's address of VLDS and VSTS: a signed stride. -/
def Tile.strideAddr (c : Tile) (a b : Reg) (i : Nat) : Nat := addr64 ((c.g[a]).toNat + i * (c.g[b]).toInt)

/-- Element i's address of a gather or scatter: the 32-bit index (i mod 16) of v(b + ⌊i/16⌋), scaled or not. -/
def Tile.indexAddr (c : Tile) (a b : Reg) (scale : Bool) (ew : Fin 4) (i : Nat) : Nat :=
  let x := vElem c.v[Fin.ofNat 32 (b.val + i / 16)] 32 (i % 16)
  addr64 ((c.g[a]).toNat + x * (if scale then 2 ^ ew.val else 1))

/-- A fault of an element (R365). -/
def SFault.ofElem (f : SFault) (i : Nat) : SFault := { f with element := some i }

/-- What reading elements one after another comes to: the values read, or the first fault with its element. -/
structure VLoad where
  got : List (Nat × Nat)
  fault : Option (Nat × SFault)
  lost : List (Nat × Bool)

/-- The active elements read in ascending order until one faults; element `pe` meets a parity error. -/
def State.vRead (s : State) (t : TileId) (addr : Nat → Nat) (bytes : Nat) (pe : Nat) (par : CPar) (elems : List Nat) :
    VLoad × State :=
  elems.foldl (fun (acc : VLoad × State) i =>
    if acc.1.fault.isSome then acc else
    let (r, s) := acc.2.sparLoad t (addr i) bytes (if i == pe then par else .none)
    match r.data with
    | .ok d => ({ acc.1 with got := acc.1.got ++ [(i, leNat d)], lost := acc.1.lost ++ r.lost }, s)
    | .error f => ({ acc.1 with fault := some (i, f) }, s)) (⟨[], none, []⟩, s)

/-- v(d) with the elements read; the other elements kept or zero. -/
def Tile.vFill (c : Tile) (d : Reg) (z : Bool) (ew : Fin 4) (got : List (Nat × Nat)) : Tile :=
  let w := ewBits ew.val
  c.setV d (vOf w ((List.range (vElems ew.val)).map fun i =>
    match got.find? fun (x : Nat × Nat) => x.1 == i with
    | some x => x.2
    | none => if z then 0 else vElem c.v[d] w i))

/-- A vector load: every active element, or none (R365). -/
def State.vLoad (s : State) (t : TileId) (word : Nat) (d : Reg) (m : MReg) (z : Bool) (ew : Fin 4) (pe : Nat) (par : CPar)
    (addr : Tile → Nat → Nat) : State :=
  s.sparWord t word (vecLegal word) false fun s =>
    let c := s.tiles[t]
    let (r, s) := s.vRead t (addr c) (2 ^ ew.val) pe par (c.activeElems m (vElems ew.val))
    match r.fault with
    | some (i, f) => .fault s { f.ofElem i with lost := r.lost ++ f.lost }
    | none => .next (s.modTile t fun c => c.vFill d z ew r.got) r.lost

/-- A first-fault gather (R366). -/
def State.vLoadFirst (s : State) (t : TileId) (word : Nat) (d : Reg) (m : MReg) (z : Bool) (ew : Fin 4) (pe : Nat) (par : CPar)
    (addr : Tile → Nat → Nat) : State :=
  s.sparWord t word (vecLegal word) false fun s =>
    let c := s.tiles[t]
    let (r, s) := s.vRead t (addr c) (2 ^ ew.val) pe par (c.activeElems m (vElems ew.val))
    match r.fault with
    | none => .next (s.modTile t fun c => c.vFill d z ew r.got) r.lost
    | some (i, f) =>
      if r.got.isEmpty then .fault s { f.ofElem i with lost := r.lost ++ f.lost }
      else .next (s.modTile t fun c => (c.vFill d z ew r.got).setM m (c.mask m % 2 ^ i)) (r.lost ++ f.lost)

/-- The first active element whose store faults (R364): ALIGN, then WINDOW_FAULT. -/
def State.vStoreFault (s : State) (t : TileId) (addr : Nat → Nat) (bytes : Nat) (elems : List Nat) : Option SFault :=
  elems.findSome? fun i =>
    if addr i % bytes != 0 then some ((SFault.align (addr i)).ofElem i)
    else (s.firstBad t .store (addr i) bytes).map fun b => (SFault.window b).ofElem i

/-- A vector store: every active element checked, then written in ascending order (R363, R364). -/
def State.vStore (s : State) (t : TileId) (word : Nat) (d : Reg) (m : MReg) (ew : Fin 4) (addr : Tile → Nat → Nat) : State :=
  s.sparWord t word (vecLegal word) false fun s =>
    let c := s.tiles[t]
    let elems := c.activeElems m (vElems ew.val)
    match s.vStoreFault t (addr c) (2 ^ ew.val) elems with
    | some f => .fault s f
    | none =>
      .next (elems.foldl (fun s i => s.tileWrite t (addr c i) (toLE (2 ^ ew.val) (vElem c.v[d] (ewBits ew.val) i))) s) []

/-- VLD; element `pe` meets the parity error `par` (R397). -/
def execVld (tile : TileId) (d a : Reg) (m : MReg) (z : Bool) (ew : Fin 4) (pe : Nat) (par : CPar) (s : State) : Res :=
  .next (s.vLoad tile (wordV 0x33 0 d.val a.val 0 m.val z ew.val) d m z ew pe par fun c i => c.unitAddr a ew i)
/-- VST. -/
def execVst (tile : TileId) (d a : Reg) (m : MReg) (z : Bool) (ew : Fin 4) (s : State) : Res :=
  .next (s.vStore tile (wordV 0x33 1 d.val a.val 0 m.val z ew.val) d m ew fun c i => c.unitAddr a ew i)
/-- VLDS. -/
def execVlds (tile : TileId) (d a b : Reg) (m : MReg) (z : Bool) (ew : Fin 4) (pe : Nat) (par : CPar) (s : State) : Res :=
  .next (s.vLoad tile (wordV 0x33 2 d.val a.val b.val m.val z ew.val) d m z ew pe par fun c i => c.strideAddr a b i)
/-- VSTS. -/
def execVsts (tile : TileId) (d a b : Reg) (m : MReg) (z : Bool) (ew : Fin 4) (s : State) : Res :=
  .next (s.vStore tile (wordV 0x33 3 d.val a.val b.val m.val z ew.val) d m ew fun c i => c.strideAddr a b i)
/-- VGTH; `scale` is bit 3 of func. -/
def execVgth (tile : TileId) (d a b : Reg) (scale : Bool) (m : MReg) (z : Bool) (ew : Fin 4) (pe : Nat) (par : CPar) (s : State) : Res :=
  .next (s.vLoad tile (wordV 0x33 (4 + scale.toNat * 8) d.val a.val b.val m.val z ew.val) d m z ew pe par
    fun c i => c.indexAddr a b scale ew i)
/-- GTHF. -/
def execGthf (tile : TileId) (d a b : Reg) (scale : Bool) (m : MReg) (z : Bool) (ew : Fin 4) (pe : Nat) (par : CPar) (s : State) : Res :=
  .next (s.vLoadFirst tile (wordV 0x33 (5 + scale.toNat * 8) d.val a.val b.val m.val z ew.val) d m z ew pe par
    fun c i => c.indexAddr a b scale ew i)
/-- VSCT. -/
def execVsct (tile : TileId) (d a b : Reg) (scale : Bool) (m : MReg) (z : Bool) (ew : Fin 4) (s : State) : Res :=
  .next (s.vStore tile (wordV 0x33 (6 + scale.toNat * 8) d.val a.val b.val m.val z ew.val) d m ew
    fun c i => c.indexAddr a b scale ew i)

end Sys2Proof.Machine
end

