-- ==== Sys2Proof/Machine/ThatchOps.lean ====
section
/-! DEFINITION. The Thatch operations of the active Ridge, PLAN_RETIRE and the slices' states (R384, R387 to R396). -/

namespace Sys2Proof.Machine

/-- Lines of a set that are locked or in aperture use. -/
def Slice.heldIn (c : Slice) (set : Nat) : Nat :=
  (upFrom (set * 16) 16).countP fun k => (nget c.lines k).any fun x => x.locked || x.aperture

/-- One line of a slice under operation 1 CLEAN to 5 UNLOCK (R387, R391); the place is known to hold a line. [log 99 DEDUCED] -/
def State.thLineOp (s : State) (i : Fin 16) (op : Nat) (incl range : Bool) (k : Nat) : CmoTally × State :=
  match nget (s.thatch.slices[i]).lines k with
  | none => (.zero, s)
  | some x =>
    if (x.locked || x.aperture) && !incl then (⟨0, if x.locked then 1 else 0, 0, 0⟩, s)
    else if op == 4 then
      if !x.locked && !x.aperture && 15 ≤ (s.thatch.slices[i]).heldIn (k / 16) then (⟨0, 0, 0, 1⟩, s.bump 0x1802 3 1)
      else (⟨1, 0, 0, 0⟩, s.modSlice i fun c => { c with lines := nmod c.lines k fun x => { x with locked := true } })
    else
      let s := if op == 1 || op == 3 then s.writeBack x else s
      let n := if op == 2 then x.dirty0.toNat + x.dirty1.toNat else 0
      let s := if n == 0 then s else s.bump 0x1804 2 n
      let s := s.modSlice i fun c =>
        { c with lines :=
            if op == 2 || op == 3 then ndel c.lines k
            else if op == 1 then nmod c.lines k fun x =>
              { x with dirty0 := false, dirty1 := false, region := none, locked := x.locked && !range }
            else nmod c.lines k fun x => { x with locked := false } }
      (⟨1, 0, n, 0⟩, s)

/-- APERTURE of one place (R388). [log 100 DEDUCED] -/
def State.thAperture (s : State) (i : Fin 16) (incl : Bool) (k : Nat) : CmoTally × State :=
  let c := s.thatch.slices[i]
  let old := nget c.lines k
  let held := old.any fun x => x.locked || x.aperture
  if held && !incl then (⟨0, 1, 0, 0⟩, s)
  else if !held && 15 ≤ c.heldIn (k / 16) then (⟨0, 0, 0, 1⟩, s.bump 0x1802 3 1)
  else
    let s := match old with
      | some x => s.writeBack x
      | none => s
    let x : TLine :=
      { line := 0, data := zeros 64, dirty0 := false, dirty1 := false, locked := true, aperture := true, region := none, bad0 := false,
        bad1 := false }
    (⟨1, 0, 0, 0⟩, s.modSlice i fun c => { c with lines := nput c.lines k x })

/-- Places of a slice that an operation visits: lines of a range, or of a selector (R390). -/
def Slice.visited (c : Slice) (setway : Bool) (addr len : Nat) : List Nat :=
  (c.lines.filter fun p =>
    if setway then
      (bitAt addr 21 || p.1 / 16 == addr % 2 ^ 13) && (bitAt addr 20 || p.1 % 16 == bitsOf addr 19 16)
    else !p.2.aperture && addr ≤ 64 * p.2.line && 64 * p.2.line < addr + len).map (·.1)

/-- An operation over one slice. -/
def State.thSliceOp (s : State) (i : Fin 16) (op : Nat) (setway incl : Bool) (addr len : Nat) : CmoTally × State :=
  if !(s.thatch.slices[i]).powered then (.zero, s)
  else if op == 6 then s.thAperture i incl (addr % 2 ^ 13 * 16 + bitsOf addr 19 16)
  else ((s.thatch.slices[i]).visited setway addr len).foldl (fun (acc : CmoTally × State) k =>
    let (y, s) := acc.2.thLineOp i op incl (!setway) k
    (acc.1.add y, s)) (CmoTally.zero, s)

/-- Slices that a mask names, in order. -/
def slicesIn (mask : Nat) : List (Fin 16) := (List.finRange 16).filter fun i => bitAt mask i.val

/-- An operation runs in a slice. [log 101 DEDUCED] -/
def State.thBusyIn (s : State) (mask : Nat) : Bool :=
  s.thatch.slices.toList.any fun c => c.mop.busy && (c.mop.mop / 2 ^ 16 &&& mask) != 0

/-- A Thatch operation written in a slice's block and started (R390). [log 98 DEDUCED] -/
def State.thOp (s : State) (block : Fin 16) (op : Nat) (addr len : Nat) (setway incl : Bool) (mask : Nat) : State :=
  if !s.ridgeActs then s else
  let mask := mask % 2 ^ 16
  let word := op + setway.toNat * 8 + incl.toNat * 16 + mask * 2 ^ 16
  let put := fun (s : State) (busy : Bool) (status : Nat) (y : CmoTally) => s.modSlice block fun c =>
    { c with mop := { mop := word, addr := addr, len := len, busy := busy, status := status, acted := y.acted, skipped := y.skipped,
                      discarded := y.discarded, refused := y.refused } }
  if (s.thatch.slices[block]).mop.busy then
    s.modSlice block fun c => { c with mop := { c.mop with status := stBusy } }
  else if (op == 6 && !setway) || (!setway && (addr % 64 != 0 || len % 64 != 0 || s.dram.managed < addr + len)) || mask == 0 then
    put s false stBadArgument .zero
  else if s.thBusyIn mask then put s false stBusy .zero
  else
    let (y, s) := (slicesIn mask).foldl (fun (acc : CmoTally × State) i =>
      let (z, s) := acc.2.thSliceOp i op setway incl addr len
      (acc.1.add z, s)) (CmoTally.zero, s)
    put s true 0 y

/-- TH_MOP CLEAN. -/
def execThClean (block : Fin 16) (addr len : Nat) (setway incl : Bool) (slices : Nat) (s : State) : Res :=
  .next (s.thOp block 1 addr len setway incl slices)
/-- TH_MOP INVALIDATE. -/
def execThInvalidate (block : Fin 16) (addr len : Nat) (setway incl : Bool) (slices : Nat) (s : State) : Res :=
  .next (s.thOp block 2 addr len setway incl slices)
/-- TH_MOP CLEAN_INVALIDATE. -/
def execThCleanInvalidate (block : Fin 16) (addr len : Nat) (setway incl : Bool) (slices : Nat) (s : State) : Res :=
  .next (s.thOp block 3 addr len setway incl slices)
/-- TH_MOP LOCK. -/
def execThLock (block : Fin 16) (addr len : Nat) (setway incl : Bool) (slices : Nat) (s : State) : Res :=
  .next (s.thOp block 4 addr len setway incl slices)
/-- TH_MOP UNLOCK. -/
def execThUnlock (block : Fin 16) (addr len : Nat) (setway incl : Bool) (slices : Nat) (s : State) : Res :=
  .next (s.thOp block 5 addr len setway incl slices)
/-- TH_MOP APERTURE. -/
def execAperture (block : Fin 16) (selector : Nat) (setway incl : Bool) (slices : Nat) (s : State) : Res :=
  .next (s.thOp block 6 selector 0 setway incl slices)

/-- A running operation finishes: BUSY clears, its status and result stand. -/
def execThatchOperationDone (block : Fin 16) (s : State) : Res :=
  .next (s.modSlice block fun c => { c with mop := { c.mop with busy := false } })

/-- A plan slot retired on every tile (R384); ignored while BUSY reads 1. [log 102 DESIGN CHOICE] -/
def State.planRetire (s : State) (slot : Nat) : State :=
  if !s.ridgeActs || s.time.ts < s.thatch.retireUntil then s else
  (s.modThatch fun t => { t with retireSlot := slot % 2 ^ 12, retireUntil := s.time.ts + 1000 }).retireLines slot

/-- PLAN_RETIRE is written. -/
def execPlanRetire (slot : Nat) (s : State) : Res := .next (s.planRetire slot)

/-- The slice holds dirty sectors. -/
def Slice.anyDirty (c : Slice) : Bool := c.lines.any fun p => p.2.dirty0 || p.2.dirty1

/-- ENABLE written (R393, R394). -/
def State.sliceEnable (s : State) (i : Fin 16) (on : Bool) : State :=
  if !s.ridgeActs then s else
  let c := s.thatch.slices[i]
  if on then if c.powered then s.modSlice i fun c => { c with enabled := true } else s
  else if !c.enabled then s
  else if c.anyDirty || s.thBusyIn (2 ^ i.val) then s.modSlice i fun c => { c with disableRefused := true }
  else s.modSlice i fun c => { c with enabled := false }

/-- ENABLE of a slice is written. -/
def execSliceEnable (slice : Fin 16) (on : Bool) (s : State) : Res := .next (s.sliceEnable slice on)

/-- POWER written (R393, R394). -/
def State.slicePower (s : State) (i : Fin 16) (on : Bool) : State :=
  if !s.ridgeActs then s else
  let c := s.thatch.slices[i]
  if on then if c.powered || c.fused then s else s.modSlice i fun c => { c with powering := true }
  else if c.enabled then s
  else s.modSlice i fun c => { c with powered := false, powering := false, lines := [], plru := [] }

/-- POWER of a slice is written. -/
def execSlicePower (slice : Fin 16) (on : Bool) (s : State) : Res := .next (s.slicePower slice on)

/-- Power-on completes: DISABLED, every line invalid and unlocked. -/
def execSlicePowerOnDone (slice : Fin 16) (s : State) : Res :=
  .next (if (s.thatch.slices[slice]).powering then
    s.modSlice slice fun c => { c with powered := true, powering := false, enabled := false, lines := [], plru := [] }
  else s)

end Sys2Proof.Machine
end

