-- ==== Sys2Proof/Machine/Dispatch.lean ====
section
/-! DEFINITION. One arm for each command of `Instr`, each a direct call of that command's meaning. -/

namespace Sys2Proof.Machine

def exec (i : Instr) (s : State) : Host.Outcome State Fault Refusal :=
  match i with
  | .registerWrite access => Sys2Proof.Machine.execRegisterWrite access s
  | .clockAlarm domain => Sys2Proof.Machine.execClockAlarm domain s
  | .standbyWriteDiscarded => Sys2Proof.Machine.execStandbyWriteDiscarded s
  | .bar2Read func off n => Sys2Proof.Machine.execBar2Read func off n s
  | .bar2Write func off data => Sys2Proof.Machine.execBar2Write func off data s
  | .rafterBoundary ckptBytes ckptCrc => Sys2Proof.Machine.execRafterBoundary ckptBytes ckptCrc s
  | .rafterInEdge falling ckptBytes ckptCrc => Sys2Proof.Machine.execRafterInEdge falling ckptBytes ckptCrc s
  | .syntheticBoundary ckptBytes ckptCrc => Sys2Proof.Machine.execSyntheticBoundary ckptBytes ckptCrc s
  | .battenTick => Sys2Proof.Machine.execBattenTick s
  | .gptpSync port domain twoStep seq log origin corr => Sys2Proof.Machine.execGptpSync port domain twoStep seq log origin corr s
  | .gptpFollowUp port domain seq origin corr => Sys2Proof.Machine.execGptpFollowUp port domain seq origin corr s
  | .gptpAnnounce port domain gm => Sys2Proof.Machine.execGptpAnnounce port domain gm s
  | .pdelayReq port seq => Sys2Proof.Machine.execPdelayReq port seq s
  | .pdelayResp port t2 t3 => Sys2Proof.Machine.execPdelayResp port t2 t3 s
  | .pdelayInterval => Sys2Proof.Machine.execPdelayInterval s
  | .syncTimeout => Sys2Proof.Machine.execSyncTimeout s
  | .reserveCommit kind ok => Sys2Proof.Machine.execReserveCommit kind ok s
  | .odoTick rising stable dirHigh dirStable => Sys2Proof.Machine.execOdoTick rising stable dirHigh dirStable s
  | .tableDropComplete table => Sys2Proof.Machine.execTableDropComplete table s
  | .sealAgeExpiry table => Sys2Proof.Machine.execSealAgeExpiry table s
  | .sealComplete table => Sys2Proof.Machine.execSealComplete table s
  | .retentionEvaluation => Sys2Proof.Machine.execRetentionEvaluation s
  | .lappedRepair table seg col copyB => Sys2Proof.Machine.execLappedRepair table seg col copyB s
  | .appendHeaderRead inst seq header => Sys2Proof.Machine.execAppendHeaderRead inst seq header s
  | .appendPayloadRead inst seq payload => Sys2Proof.Machine.execAppendPayloadRead inst seq payload s
  | .eaveFrameReceived port frame fcsOk => Sys2Proof.Machine.execEaveFrameReceived port frame fcsOk s
  | .eaveUnitEntry port => Sys2Proof.Machine.execEaveUnitEntry port s
  | .liggerRelease table => Sys2Proof.Machine.execLiggerRelease table s
  | .blockLimitExpiry inst seq => Sys2Proof.Machine.execBlockLimitExpiry inst seq s
  | .forcedRelease => Sys2Proof.Machine.execForcedRelease s
  | .mapEntry via index bank priority key mask result valid => Sys2Proof.Machine.execMapEntry via index bank priority key mask result valid s
  | .programChunk via program offset last bytes => Sys2Proof.Machine.execProgramChunk via program offset last bytes s
  | .mapEntryRewrite bank index => Sys2Proof.Machine.execMapEntryRewrite bank index s
  | .planImageRead inst seq image params => Sys2Proof.Machine.execPlanImageRead inst seq image params s
  | .planAdmission => Sys2Proof.Machine.execPlanAdmission s
  | .reedStart tile seg first count bad => Sys2Proof.Machine.execReedStart tile seg first count bad s
  | .reedAbandon tile => Sys2Proof.Machine.execReedAbandon tile s
  | .reedBatchHandover tile kernels => Sys2Proof.Machine.execReedBatchHandover tile kernels s
  | .search who q f => Sys2Proof.Machine.execSearch who q f s
  | .insert who q f => Sys2Proof.Machine.execInsert who q f s
  | .write who q => Sys2Proof.Machine.execWrite who q s
  | .invalidate who q => Sys2Proof.Machine.execInvalidate who q s
  | .read who q => Sys2Proof.Machine.execRead who q s
  | .clear who q => Sys2Proof.Machine.execClear who q s
  | .purlinBackgroundCompare bank index dead => Sys2Proof.Machine.execPurlinBackgroundCompare bank index dead s
  | .sealHipYield course => Sys2Proof.Machine.execSealHipYield course s
  | .delayEntryRelease => Sys2Proof.Machine.execDelayEntryRelease s
  | .firingRecordDelivery cq consumed answered => Sys2Proof.Machine.execFiringRecordDelivery cq consumed answered s
  | .btSubmit desc => Sys2Proof.Machine.execBtSubmit desc s
  | .btPurge bySlot num => Sys2Proof.Machine.execBtPurge bySlot num s
  | .delayInsert entry => Sys2Proof.Machine.execDelayInsert entry s
  | .delayMove dist entry due => Sys2Proof.Machine.execDelayMove dist entry due s
  | .delayRemove dist entry => Sys2Proof.Machine.execDelayRemove dist entry s
  | .reservationExpiry => Sys2Proof.Machine.execReservationExpiry s
  | .preemptAfterExpiry => Sys2Proof.Machine.execPreemptAfterExpiry s
  | .preemptionTimeout tile => Sys2Proof.Machine.execPreemptionTimeout tile s
  | .saveLimitExpiry tile => Sys2Proof.Machine.execSaveLimitExpiry tile s
  | .dispatchAck tile => Sys2Proof.Machine.execDispatchAck tile s
  | .yield tile lost => Sys2Proof.Machine.execYield tile lost s
  | .done tile status kernels lost => Sys2Proof.Machine.execDone tile status kernels lost s
  | .tileResetDone tile => Sys2Proof.Machine.execTileResetDone tile s
  | .illegal tile word => Sys2Proof.Machine.execIllegal tile word s
  | .add tile d a b => Sys2Proof.Machine.execAdd tile d a b s
  | .sub tile d a b => Sys2Proof.Machine.execSub tile d a b s
  | .and tile d a b => Sys2Proof.Machine.execAnd tile d a b s
  | .or tile d a b => Sys2Proof.Machine.execOr tile d a b s
  | .xor tile d a b => Sys2Proof.Machine.execXor tile d a b s
  | .andn tile d a b => Sys2Proof.Machine.execAndn tile d a b s
  | .shl tile d a b => Sys2Proof.Machine.execShl tile d a b s
  | .shr tile d a b => Sys2Proof.Machine.execShr tile d a b s
  | .sar tile d a b => Sys2Proof.Machine.execSar tile d a b s
  | .ror tile d a b => Sys2Proof.Machine.execRor tile d a b s
  | .mul tile d a b => Sys2Proof.Machine.execMul tile d a b s
  | .mulhu tile d a b => Sys2Proof.Machine.execMulhu tile d a b s
  | .mulhs tile d a b => Sys2Proof.Machine.execMulhs tile d a b s
  | .divu tile d a b => Sys2Proof.Machine.execDivu tile d a b s
  | .divs tile d a b => Sys2Proof.Machine.execDivs tile d a b s
  | .remu tile d a b => Sys2Proof.Machine.execRemu tile d a b s
  | .rems tile d a b => Sys2Proof.Machine.execRems tile d a b s
  | .minu tile d a b => Sys2Proof.Machine.execMinu tile d a b s
  | .mins tile d a b => Sys2Proof.Machine.execMins tile d a b s
  | .maxu tile d a b => Sys2Proof.Machine.execMaxu tile d a b s
  | .maxs tile d a b => Sys2Proof.Machine.execMaxs tile d a b s
  | .sltu tile d a b => Sys2Proof.Machine.execSltu tile d a b s
  | .slts tile d a b => Sys2Proof.Machine.execSlts tile d a b s
  | .seq tile d a b => Sys2Proof.Machine.execSeq tile d a b s
  | .clz tile d a => Sys2Proof.Machine.execClz tile d a s
  | .ctz tile d a => Sys2Proof.Machine.execCtz tile d a s
  | .popc tile d a => Sys2Proof.Machine.execPopc tile d a s
  | .bswap tile d a => Sys2Proof.Machine.execBswap tile d a s
  | .addi tile d a imm => Sys2Proof.Machine.execAddi tile d a imm s
  | .andi tile d a imm => Sys2Proof.Machine.execAndi tile d a imm s
  | .ori tile d a imm => Sys2Proof.Machine.execOri tile d a imm s
  | .xori tile d a imm => Sys2Proof.Machine.execXori tile d a imm s
  | .shli tile d a imm => Sys2Proof.Machine.execShli tile d a imm s
  | .shri tile d a imm => Sys2Proof.Machine.execShri tile d a imm s
  | .sari tile d a imm => Sys2Proof.Machine.execSari tile d a imm s
  | .sltsi tile d a imm => Sys2Proof.Machine.execSltsi tile d a imm s
  | .sltui tile d a imm => Sys2Proof.Machine.execSltui tile d a imm s
  | .movz tile d sel imm => Sys2Proof.Machine.execMovz tile d sel imm s
  | .movk tile d sel imm => Sys2Proof.Machine.execMovk tile d sel imm s
  | .ld8u tile d a off par => Sys2Proof.Machine.execLd8u tile d a off par s
  | .ld8s tile d a off par => Sys2Proof.Machine.execLd8s tile d a off par s
  | .ld16u tile d a off par => Sys2Proof.Machine.execLd16u tile d a off par s
  | .ld16s tile d a off par => Sys2Proof.Machine.execLd16s tile d a off par s
  | .ld32u tile d a off par => Sys2Proof.Machine.execLd32u tile d a off par s
  | .ld32s tile d a off par => Sys2Proof.Machine.execLd32s tile d a off par s
  | .ld64 tile d a off par => Sys2Proof.Machine.execLd64 tile d a off par s
  | .st8 tile d a off => Sys2Proof.Machine.execSt8 tile d a off s
  | .st16 tile d a off => Sys2Proof.Machine.execSt16 tile d a off s
  | .st32 tile d a off => Sys2Proof.Machine.execSt32 tile d a off s
  | .st64 tile d a off => Sys2Proof.Machine.execSt64 tile d a off s
  | .fld32 tile d a off par => Sys2Proof.Machine.execFld32 tile d a off par s
  | .fld64 tile d a off par => Sys2Proof.Machine.execFld64 tile d a off par s
  | .fst32 tile d a off => Sys2Proof.Machine.execFst32 tile d a off s
  | .fst64 tile d a off => Sys2Proof.Machine.execFst64 tile d a off s
  | .beq tile a b off => Sys2Proof.Machine.execBeq tile a b off s
  | .bne tile a b off => Sys2Proof.Machine.execBne tile a b off s
  | .blts tile a b off => Sys2Proof.Machine.execBlts tile a b off s
  | .bges tile a b off => Sys2Proof.Machine.execBges tile a b off s
  | .bltu tile a b off => Sys2Proof.Machine.execBltu tile a b off s
  | .bgeu tile a b off => Sys2Proof.Machine.execBgeu tile a b off s
  | .j tile off => Sys2Proof.Machine.execJ tile off s
  | .jal tile off => Sys2Proof.Machine.execJal tile off s
  | .jr tile a => Sys2Proof.Machine.execJr tile a s
  | .jalr tile d a => Sys2Proof.Machine.execJalr tile d a s
  | .fadd tile dbl d a b => Sys2Proof.Machine.execFadd tile dbl d a b s
  | .fsub tile dbl d a b => Sys2Proof.Machine.execFsub tile dbl d a b s
  | .fmul tile dbl d a b => Sys2Proof.Machine.execFmul tile dbl d a b s
  | .fdiv tile dbl d a b => Sys2Proof.Machine.execFdiv tile dbl d a b s
  | .fsqrt tile dbl d a => Sys2Proof.Machine.execFsqrt tile dbl d a s
  | .fmin tile dbl d a b => Sys2Proof.Machine.execFmin tile dbl d a b s
  | .fmax tile dbl d a b => Sys2Proof.Machine.execFmax tile dbl d a b s
  | .feq tile dbl d a b => Sys2Proof.Machine.execFeq tile dbl d a b s
  | .flt tile dbl d a b => Sys2Proof.Machine.execFlt tile dbl d a b s
  | .fle tile dbl d a b => Sys2Proof.Machine.execFle tile dbl d a b s
  | .ftoi tile dbl d a => Sys2Proof.Machine.execFtoi tile dbl d a s
  | .itof tile dbl d a => Sys2Proof.Machine.execItof tile dbl d a s
  | .fcvt tile dbl d a => Sys2Proof.Machine.execFcvt tile dbl d a s
  | .fmvg tile dbl d a => Sys2Proof.Machine.execFmvg tile dbl d a s
  | .fmvf tile dbl d a => Sys2Proof.Machine.execFmvf tile dbl d a s
  | .fusedMultiplyAdd tile dbl d a b c => Sys2Proof.Machine.execFusedMultiplyAdd tile dbl d a b c s
  | .fusedMultiplySubtract tile dbl d a b c => Sys2Proof.Machine.execFusedMultiplySubtract tile dbl d a b c s
  | .movs tile a b c granules par => Sys2Proof.Machine.execMovs tile a b c granules par s
  | .cmps tile a b c granules par => Sys2Proof.Machine.execCmps tile a b c granules par s
  | .fills tile a b c granules => Sys2Proof.Machine.execFills tile a b c granules s
  | .scans tile a b c granules par => Sys2Proof.Machine.execScans tile a b c granules par s
  | .svc tile imm => Sys2Proof.Machine.execSvc tile imm s
  | .rtm tile => Sys2Proof.Machine.execRtm tile s
  | .mfs tile g num => Sys2Proof.Machine.execMfs tile g num s
  | .mts tile g num => Sys2Proof.Machine.execMts tile g num s
  | .wait tile => Sys2Proof.Machine.execWait tile s
  | .waitWakeup tile => Sys2Proof.Machine.execWaitWakeup tile s
  | .brk tile imm => Sys2Proof.Machine.execBrk tile imm s
  | .fence tile => Sys2Proof.Machine.execFence tile s
  | .cmoClean tile r setway target incl => Sys2Proof.Machine.execCmoClean tile r setway target incl s
  | .cmoInvalidate tile r setway target incl => Sys2Proof.Machine.execCmoInvalidate tile r setway target incl s
  | .cmoCleanInvalidate tile r setway target incl => Sys2Proof.Machine.execCmoCleanInvalidate tile r setway target incl s
  | .cmoLock tile r setway target incl => Sys2Proof.Machine.execCmoLock tile r setway target incl s
  | .cmoUnlock tile r setway target incl => Sys2Proof.Machine.execCmoUnlock tile r setway target incl s
  | .preempt tile => Sys2Proof.Machine.execPreempt tile s
  | .dispatch tile => Sys2Proof.Machine.execDispatch tile s
  | .unit tile => Sys2Proof.Machine.execUnit tile s
  | .timer tile => Sys2Proof.Machine.execTimer tile s
  | .vadd tile d a b m z ew => Sys2Proof.Machine.execVadd tile d a b m z ew s
  | .vsub tile d a b m z ew => Sys2Proof.Machine.execVsub tile d a b m z ew s
  | .vmul tile d a b m z ew => Sys2Proof.Machine.execVmul tile d a b m z ew s
  | .vmulhu tile d a b m z ew => Sys2Proof.Machine.execVmulhu tile d a b m z ew s
  | .vmulhs tile d a b m z ew => Sys2Proof.Machine.execVmulhs tile d a b m z ew s
  | .vand tile d a b m z ew => Sys2Proof.Machine.execVand tile d a b m z ew s
  | .vor tile d a b m z ew => Sys2Proof.Machine.execVor tile d a b m z ew s
  | .vxor tile d a b m z ew => Sys2Proof.Machine.execVxor tile d a b m z ew s
  | .vandn tile d a b m z ew => Sys2Proof.Machine.execVandn tile d a b m z ew s
  | .vshl tile d a b m z ew => Sys2Proof.Machine.execVshl tile d a b m z ew s
  | .vshr tile d a b m z ew => Sys2Proof.Machine.execVshr tile d a b m z ew s
  | .vsar tile d a b m z ew => Sys2Proof.Machine.execVsar tile d a b m z ew s
  | .vror tile d a b m z ew => Sys2Proof.Machine.execVror tile d a b m z ew s
  | .vminu tile d a b m z ew => Sys2Proof.Machine.execVminu tile d a b m z ew s
  | .vmins tile d a b m z ew => Sys2Proof.Machine.execVmins tile d a b m z ew s
  | .vmaxu tile d a b m z ew => Sys2Proof.Machine.execVmaxu tile d a b m z ew s
  | .vmaxs tile d a b m z ew => Sys2Proof.Machine.execVmaxs tile d a b m z ew s
  | .vabs tile d a m z ew => Sys2Proof.Machine.execVabs tile d a m z ew s
  | .vneg tile d a m z ew => Sys2Proof.Machine.execVneg tile d a m z ew s
  | .vmov tile d a m z ew => Sys2Proof.Machine.execVmov tile d a m z ew s
  | .vfadd tile d a b m z ew => Sys2Proof.Machine.execVfadd tile d a b m z ew s
  | .vfsub tile d a b m z ew => Sys2Proof.Machine.execVfsub tile d a b m z ew s
  | .vfmul tile d a b m z ew => Sys2Proof.Machine.execVfmul tile d a b m z ew s
  | .vfdiv tile d a b m z ew => Sys2Proof.Machine.execVfdiv tile d a b m z ew s
  | .vfsqrt tile d a m z ew => Sys2Proof.Machine.execVfsqrt tile d a m z ew s
  | .vfmin tile d a b m z ew => Sys2Proof.Machine.execVfmin tile d a b m z ew s
  | .vfmax tile d a b m z ew => Sys2Proof.Machine.execVfmax tile d a b m z ew s
  | .vfma tile d a b m z ew => Sys2Proof.Machine.execVfma tile d a b m z ew s
  | .vfms tile d a b m z ew => Sys2Proof.Machine.execVfms tile d a b m z ew s
  | .vceq tile d a b m z ew => Sys2Proof.Machine.execVceq tile d a b m z ew s
  | .vcne tile d a b m z ew => Sys2Proof.Machine.execVcne tile d a b m z ew s
  | .vcltu tile d a b m z ew => Sys2Proof.Machine.execVcltu tile d a b m z ew s
  | .vcleu tile d a b m z ew => Sys2Proof.Machine.execVcleu tile d a b m z ew s
  | .vclts tile d a b m z ew => Sys2Proof.Machine.execVclts tile d a b m z ew s
  | .vcles tile d a b m z ew => Sys2Proof.Machine.execVcles tile d a b m z ew s
  | .vfceq tile d a b m z ew => Sys2Proof.Machine.execVfceq tile d a b m z ew s
  | .vfclt tile d a b m z ew => Sys2Proof.Machine.execVfclt tile d a b m z ew s
  | .vfcle tile d a b m z ew => Sys2Proof.Machine.execVfcle tile d a b m z ew s
  | .vfklt tile d a b m z ew => Sys2Proof.Machine.execVfklt tile d a b m z ew s
  | .vfkle tile d a b m z ew => Sys2Proof.Machine.execVfkle tile d a b m z ew s
  | .vld tile d a m z ew pe par => Sys2Proof.Machine.execVld tile d a m z ew pe par s
  | .vst tile d a m z ew => Sys2Proof.Machine.execVst tile d a m z ew s
  | .vlds tile d a b m z ew pe par => Sys2Proof.Machine.execVlds tile d a b m z ew pe par s
  | .vsts tile d a b m z ew => Sys2Proof.Machine.execVsts tile d a b m z ew s
  | .vgth tile d a b scale m z ew pe par => Sys2Proof.Machine.execVgth tile d a b scale m z ew pe par s
  | .gthf tile d a b scale m z ew pe par => Sys2Proof.Machine.execGthf tile d a b scale m z ew pe par s
  | .vsct tile d a b scale m z ew => Sys2Proof.Machine.execVsct tile d a b scale m z ew s
  | .vbcast tile d a m z ew => Sys2Proof.Machine.execVbcast tile d a m z ew s
  | .vextr tile d a b m z ew => Sys2Proof.Machine.execVextr tile d a b m z ew s
  | .vcmprs tile d a m ew => Sys2Proof.Machine.execVcmprs tile d a m ew s
  | .vsldn tile d a b m z ew => Sys2Proof.Machine.execVsldn tile d a b m z ew s
  | .vredsumu tile d a m z ew => Sys2Proof.Machine.execVredsumu tile d a m z ew s
  | .vredsums tile d a m z ew => Sys2Proof.Machine.execVredsums tile d a m z ew s
  | .vredminu tile d a m z ew => Sys2Proof.Machine.execVredminu tile d a m z ew s
  | .vredmins tile d a m z ew => Sys2Proof.Machine.execVredmins tile d a m z ew s
  | .vredmaxu tile d a m z ew => Sys2Proof.Machine.execVredmaxu tile d a m z ew s
  | .vredmaxs tile d a m z ew => Sys2Proof.Machine.execVredmaxs tile d a m z ew s
  | .vfredsum tile d a m z ew => Sys2Proof.Machine.execVfredsum tile d a m z ew s
  | .mand tile d a b m z ew => Sys2Proof.Machine.execMand tile d a b m z ew s
  | .mor tile d a b m z ew => Sys2Proof.Machine.execMor tile d a b m z ew s
  | .mxor tile d a b m z ew => Sys2Proof.Machine.execMxor tile d a b m z ew s
  | .mandn tile d a b m z ew => Sys2Proof.Machine.execMandn tile d a b m z ew s
  | .mnot tile d a m z ew => Sys2Proof.Machine.execMnot tile d a m z ew s
  | .mpopc tile d a m z ew => Sys2Proof.Machine.execMpopc tile d a m z ew s
  | .mfirst tile d a m z ew => Sys2Proof.Machine.execMfirst tile d a m z ew s
  | .mtog tile d a m z ew => Sys2Proof.Machine.execMtog tile d a m z ew s
  | .gtom tile d a m z ew => Sys2Proof.Machine.execGtom tile d a m z ew s
  | .vwhile tile d a b m z ew => Sys2Proof.Machine.execVwhile tile d a b m z ew s
  | .vunpk tile d a b m z ew => Sys2Proof.Machine.execVunpk tile d a b m z ew s
  | .vplcmp tile d a b m => Sys2Proof.Machine.execVplcmp tile d a b m s
  | .vhash tile d a m z ew => Sys2Proof.Machine.execVhash tile d a m z ew s
  | .vhstep tile d a m z ew => Sys2Proof.Machine.execVhstep tile d a m z ew s
  | .vhfin tile d a m z ew => Sys2Proof.Machine.execVhfin tile d a m z ew s
  | .vzext tile d a m z ew => Sys2Proof.Machine.execVzext tile d a m z ew s
  | .vsext tile d a m z ew => Sys2Proof.Machine.execVsext tile d a m z ew s
  | .vnarw tile d a m z ew => Sys2Proof.Machine.execVnarw tile d a m z ew s
  | .vitof tile d a m z ew => Sys2Proof.Machine.execVitof tile d a m z ew s
  | .vftoi tile d a m z ew => Sys2Proof.Machine.execVftoi tile d a m z ew s
  | .vfcvt tile d a m z ew => Sys2Proof.Machine.execVfcvt tile d a m z ew s
  | .thClean block addr len setway incl slices => Sys2Proof.Machine.execThClean block addr len setway incl slices s
  | .thInvalidate block addr len setway incl slices => Sys2Proof.Machine.execThInvalidate block addr len setway incl slices s
  | .thCleanInvalidate block addr len setway incl slices => Sys2Proof.Machine.execThCleanInvalidate block addr len setway incl slices s
  | .thLock block addr len setway incl slices => Sys2Proof.Machine.execThLock block addr len setway incl slices s
  | .thUnlock block addr len setway incl slices => Sys2Proof.Machine.execThUnlock block addr len setway incl slices s
  | .aperture block selector setway incl slices => Sys2Proof.Machine.execAperture block selector setway incl slices s
  | .thatchOperationDone block => Sys2Proof.Machine.execThatchOperationDone block s
  | .planRetire slot => Sys2Proof.Machine.execPlanRetire slot s
  | .sliceEnable slice on => Sys2Proof.Machine.execSliceEnable slice on s
  | .slicePower slice on => Sys2Proof.Machine.execSlicePower slice on s
  | .slicePowerOnDone slice => Sys2Proof.Machine.execSlicePowerOnDone slice s
  | .memoryRead addr src8 planSlot devErrs device hint => Sys2Proof.Machine.execMemoryRead addr src8 planSlot devErrs device hint s
  | .memoryWrite addr data src8 planSlot hint readWaits => Sys2Proof.Machine.execMemoryWrite addr data src8 planSlot hint readWaits s
  | .refresh chan bank => Sys2Proof.Machine.execRefresh chan bank s
  | .scrub devErrs device ecs => Sys2Proof.Machine.execScrub devErrs device ecs s
  | .caParityAlert phys writeCrc => Sys2Proof.Machine.execCaParityAlert phys writeCrc s
  | .rfm chan bank => Sys2Proof.Machine.execRfm chan bank s
  | .rowHammerThreshold chan bank row => Sys2Proof.Machine.execRowHammerThreshold chan bank row s
  | .rhWindowEnd chan => Sys2Proof.Machine.execRhWindowEnd chan s
  | .migrationUnit bad => Sys2Proof.Machine.execMigrationUnit bad s
  | .trainReset via on => Sys2Proof.Machine.execTrainReset via on s
  | .keepWakeDelayExpiry => Sys2Proof.Machine.execKeepWakeDelayExpiry s
  | .selfRefreshEntry => Sys2Proof.Machine.execSelfRefreshEntry s
  | .keepEntryLimitExpiry => Sys2Proof.Machine.execKeepEntryLimitExpiry s
  | .keepRetentionExpiry => Sys2Proof.Machine.execKeepRetentionExpiry s
  | .chStart chan host => Sys2Proof.Machine.execChStart chan host s
  | .chPause chan => Sys2Proof.Machine.execChPause chan s
  | .chResume chan host => Sys2Proof.Machine.execChResume chan host s
  | .chAbort chan => Sys2Proof.Machine.execChAbort chan s
  | .channelPaused chan => Sys2Proof.Machine.execChannelPaused chan s
  | .requestLineRaise line => Sys2Proof.Machine.execRequestLineRaise line s
  | .copy chan n => Sys2Proof.Machine.execCopy chan n s
  | .fill chan n => Sys2Proof.Machine.execFill chan n s
  | .interleave chan n => Sys2Proof.Machine.execInterleave chan n s
  | .deinterleave chan n => Sys2Proof.Machine.execDeinterleave chan n s
  | .plane chan n => Sys2Proof.Machine.execPlane chan n s
  | .unplane chan n => Sys2Proof.Machine.execUnplane chan n s
  | .descriptorComplete chan dataBack doneBack host => Sys2Proof.Machine.execDescriptorComplete chan dataBack doneBack host s
  | .ringPoll chan host => Sys2Proof.Machine.execRingPoll chan host s
  | .yelmPoll engine => Sys2Proof.Machine.execYelmPoll engine s
  | .yelmJobDone engine => Sys2Proof.Machine.execYelmJobDone engine s
  | .fdAlloc => Sys2Proof.Machine.execFdAlloc s
  | .fcStart ctx ctrl => Sys2Proof.Machine.execFcStart ctx ctrl s
  | .fcFree ctx => Sys2Proof.Machine.execFcFree ctx s
  | .fcData ctx data => Sys2Proof.Machine.execFcData ctx data s
  | .fcKeyctl ctx value => Sys2Proof.Machine.execFcKeyctl ctx value s
  | .messageFinish ctx => Sys2Proof.Machine.execMessageFinish ctx s
  | .configRequest func bus off write => Sys2Proof.Machine.execConfigRequest func bus off write s
  | .busMasterEnableClear func => Sys2Proof.Machine.execBusMasterEnableClear func s
  | .functionLevelReset func => Sys2Proof.Machine.execFunctionLevelReset func s
  | .linkDown port cause => Sys2Proof.Machine.execLinkDown port cause s
  | .fatalError port => Sys2Proof.Machine.execFatalError port s
  | .linkUp port speed width ltssm => Sys2Proof.Machine.execLinkUp port speed width ltssm s
  | .completionReceived func tag status poisoned data => Sys2Proof.Machine.execCompletionReceived func tag status poisoned data s
  | .completionTimeout port tag => Sys2Proof.Machine.execCompletionTimeout port tag s
  | .quarantineEnd port tag => Sys2Proof.Machine.execQuarantineEnd port tag s
  | .freezeHoldExpiry port => Sys2Proof.Machine.execFreezeHoldExpiry port s
  | .frzRelease func value => Sys2Proof.Machine.execFrzRelease func value s
  | .freezeRelease via port seq => Sys2Proof.Machine.execFreezeRelease via port seq s
  | .suspendNow via port seq => Sys2Proof.Machine.execSuspendNow via port seq s
  | .intHoldoffExpiry func vec => Sys2Proof.Machine.execIntHoldoffExpiry func vec s
  | .taskGo func value => Sys2Proof.Machine.execTaskGo func value s
  | .badOpcode inst => Sys2Proof.Machine.execBadOpcode inst s
  | .nop inst => Sys2Proof.Machine.execNop inst s
  | .flush inst => Sys2Proof.Machine.execFlush inst s
  | .flushComplete inst => Sys2Proof.Machine.execFlushComplete inst s
  | .cancel inst => Sys2Proof.Machine.execCancel inst s
  | .createTable inst desc => Sys2Proof.Machine.execCreateTable inst desc s
  | .alterTable inst desc => Sys2Proof.Machine.execAlterTable inst desc s
  | .dropTable inst => Sys2Proof.Machine.execDropTable inst s
  | .append inst => Sys2Proof.Machine.execAppend inst s
  | .runPlan inst => Sys2Proof.Machine.execRunPlan inst s
  | .releaseResult inst => Sys2Proof.Machine.execReleaseResult inst s
  | .registerQuery inst desc image => Sys2Proof.Machine.execRegisterQuery inst desc image s
  | .unregisterQuery inst => Sys2Proof.Machine.execUnregisterQuery inst s
  | .retargetQuery inst desc => Sys2Proof.Machine.execRetargetQuery inst desc s
  | .nailComplete inst seq => Sys2Proof.Machine.execNailComplete inst seq s
  | .completionRecordDelivery inst answered => Sys2Proof.Machine.execCompletionRecordDelivery inst answered s
  | .dozeEntry inst => Sys2Proof.Machine.execDozeEntry inst s
  | .sleepEntry inst => Sys2Proof.Machine.execSleepEntry inst s
  | .activationDrainExpiry => Sys2Proof.Machine.execActivationDrainExpiry s
  | .create via inst => Sys2Proof.Machine.execCreate via inst s
  | .destroy via inst dropTables => Sys2Proof.Machine.execDestroy via inst dropTables s
  | .bind via inst port fn restore => Sys2Proof.Machine.execBind via inst port fn restore s
  | .unbind via inst => Sys2Proof.Machine.execUnbind via inst s
  | .freeze via inst => Sys2Proof.Machine.execFreeze via inst s
  | .thaw via inst => Sys2Proof.Machine.execThaw via inst s
  | .reset via inst => Sys2Proof.Machine.execReset via inst s
  | .instanceDrained inst => Sys2Proof.Machine.execInstanceDrained inst s
  | .mbOutAck func value => Sys2Proof.Machine.execMbOutAck func value s
  | .mbInPost func value => Sys2Proof.Machine.execMbInPost func value s
  | .mbSend via inst kind body => Sys2Proof.Machine.execMbSend via inst kind body s
  | .mbReceiveAck via inst on => Sys2Proof.Machine.execMbReceiveAck via inst on s
  | .dwRead func => Sys2Proof.Machine.execDwRead func s
  | .dwWrite func => Sys2Proof.Machine.execDwWrite func s
  | .dwInfo func => Sys2Proof.Machine.execDwInfo func s
  | .fieldPortFrame port frame fcsOk => Sys2Proof.Machine.execFieldPortFrame port frame fcsOk s
  | .plynRead => Sys2Proof.Machine.execPlynRead s
  | .plynWrite => Sys2Proof.Machine.execPlynWrite s
  | .plynInfo => Sys2Proof.Machine.execPlynInfo s
  | .fragmentTimeout slot => Sys2Proof.Machine.execFragmentTimeout slot s
  | .plynReplyTransmit port => Sys2Proof.Machine.execPlynReplyTransmit port s
  | .persistentCommit => Sys2Proof.Machine.execPersistentCommit s
  | .plynKey via slot node rights key => Sys2Proof.Machine.execPlynKey via slot node rights key s
  | .heartbeat raft => Sys2Proof.Machine.execHeartbeat raft s
  | .checkpoint crc => Sys2Proof.Machine.execCheckpoint crc s
  | .ack raft crc => Sys2Proof.Machine.execAck raft crc s
  | .health lockstepOk => Sys2Proof.Machine.execHealth lockstepOk s
  | .sync complete => Sys2Proof.Machine.execSync complete s
  | .handover crc => Sys2Proof.Machine.execHandover crc s
  | .checkpointDeadline => Sys2Proof.Machine.execCheckpointDeadline s
  | .selfFault ridge code => Sys2Proof.Machine.execSelfFault ridge code s
  | .lockstepMismatch ridge => Sys2Proof.Machine.execLockstepMismatch ridge s
  | .failedResetExpiry ridge => Sys2Proof.Machine.execFailedResetExpiry ridge s
  | .ridgeSelfTestDone ridge pass => Sys2Proof.Machine.execRidgeSelfTestDone ridge pass s
  | .repairCountClear ridge => Sys2Proof.Machine.execRepairCountClear ridge s
  | .standbySelfTest march pass => Sys2Proof.Machine.execStandbySelfTest march pass s
  | .revertHoldoffExpiry => Sys2Proof.Machine.execRevertHoldoffExpiry s
  | .finialMismatch => Sys2Proof.Machine.execFinialMismatch s
  | .safeVetoN high => Sys2Proof.Machine.execSafeVetoN high s
  | .alertClear via bits => Sys2Proof.Machine.execAlertClear via bits s
  | .coldStart provision => Sys2Proof.Machine.execColdStart provision s
  | .mainSuppliesInRange passes => Sys2Proof.Machine.execMainSuppliesInRange passes s
  | .wake railsUp passes => Sys2Proof.Machine.execWake railsUp passes s
  | .rstN passes => Sys2Proof.Machine.execRstN passes s
  | .fwStageBegin via kind => Sys2Proof.Machine.execFwStageBegin via kind s
  | .fwChunk via kind offset bytes => Sys2Proof.Machine.execFwChunk via kind offset bytes s
  | .fwStageEnd via kind => Sys2Proof.Machine.execFwStageEnd via kind s
  | .fwStageAbandon via kind => Sys2Proof.Machine.execFwStageAbandon via kind s
  | .attestNonce via nonce => Sys2Proof.Machine.execAttestNonce via nonce s
  | .attestReportDone => Sys2Proof.Machine.execAttestReportDone s
  | .measureExtend via digest => Sys2Proof.Machine.execMeasureExtend via digest s
  | .stepReset via on => Sys2Proof.Machine.execStepReset via on s
  | .pitchChangeDone course => Sys2Proof.Machine.execPitchChangeDone course s
  | .policyPark course => Sys2Proof.Machine.execPolicyPark course s
  | .capSample power energy uses => Sys2Proof.Machine.execCapSample power energy uses s
  | .thermalSample temps => Sys2Proof.Machine.execThermalSample temps s
  | .selfTest via target index => Sys2Proof.Machine.execSelfTest via target index s
  | .selfTestDone pass => Sys2Proof.Machine.execSelfTestDone pass s
  | .traceRearm via on => Sys2Proof.Machine.execTraceRearm via on s
  | .availReset via on => Sys2Proof.Machine.execAvailReset via on s
  | .availabilityMirror => Sys2Proof.Machine.execAvailabilityMirror s
  | .voltageAlarm rail mv => Sys2Proof.Machine.execVoltageAlarm rail mv s
  | .brownout rail => Sys2Proof.Machine.execBrownout rail s
  | .standbySupplyLoss => Sys2Proof.Machine.execStandbySupplyLoss s
  | .tamperN => Sys2Proof.Machine.execTamperN s
  | .wakeFall => Sys2Proof.Machine.execWakeFall s
  | .eaveBlockLock port locked => Sys2Proof.Machine.execEaveBlockLock port locked s
  | .plcaBeacon port present => Sys2Proof.Machine.execPlcaBeacon port present s
  | .mainRailsLow => Sys2Proof.Machine.execMainRailsLow s
  | .clockAlarmEnd domain => Sys2Proof.Machine.execClockAlarmEnd domain s
  | .voltageAlarmEnd rail mv => Sys2Proof.Machine.execVoltageAlarmEnd rail mv s

end Sys2Proof.Machine
end

