-- ==== Sys2Proof/Machine/Step.lean ====
section
/-! DEFINITION. One step of the part: the command at the front of the queue takes effect, or, when none waits, one cycle of the
time base's clock passes (R36, R44). -/

namespace Sys2Proof.Machine

/-- One step. With no command waiting TS64 advances by one cycle of domain 17, or of the standby counter; everything else that
time brings is an event of its own. [log 1 DESIGN CHOICE, 5 DESIGN CHOICE, 10 DESIGN CHOICE] -/
def step (s : State) : Host.Outcome State Fault Refusal :=
  match s.pending with
  | [] => .next (s.modTime TimeSt.cycle)
  | c :: rest => exec c { s with pending := rest }

/-- The state with the command that a word of the opcode table spells put at the front of its queue. The table gives no row any
bits, so no word spells a command. [log 6 DESIGN CHOICE] -/
def State.withFetchWord (s : State) (nbits w : Nat) : State :=
  match decodeTableWord nbits w with
  | some c => { s with pending := c :: s.pending }
  | none => s

end Sys2Proof.Machine
end

