-- ==== Sys2Proof/Safety.lean ====
section
/-! DEFINITION. The terms the statements use: a sound state, and an instruction of a tile that was fetched and goes on. -/

namespace Sys2Proof.Machine

/-- Device memory and every tile's scratch stand in their canonical form: addresses strictly rising and no listed byte 0. -/
def State.sound (s : State) : Prop := Memory.wf s.mem = true ∧ ∀ t : TileId, Memory.wf (s.tiles[t]).scratch = true

/-- The tile executes, and its fetch at PC is permitted and meets no POISONED line; s' is the state after the fetch. -/
def Fetched (s : State) (t : TileId) (s' : State) : Prop := s.sparRuns t = true ∧ s.sparFetch t = (none, s')

/-- A tile whose PC went on from a PC by one instruction. -/
def Tile.past (c : Tile) (pc : Word) : Tile := { c with pc := pcWord (pc.toNat + 4) }

/-- The state after an instruction of a tile that has an effect on its tile and goes on at PC + 4. -/
def State.retires (s : State) (t : TileId) (f : Tile → Tile) : State := s.modTile t fun c => (f c).past c.pc

/-- MSP passes the first test of R338. -/
abbrev Tile.pushGood (c : Tile) : Prop :=
  c.msp.toNat % 32 = 0 ∧ scratchBase + 32 ≤ c.msp.toNat ∧ c.msp.toNat ≤ scratchBase + 0x1000000 ∧ c.msl.toNat ≤ c.msp.toNat + 32

/-- A frame fits above MSL (R338). -/
abbrev Tile.roomy (c : Tile) : Prop := c.pushGood ∧ c.msl.toNat + 32 ≤ c.msp.toNat

/-- The tile before and after an exception entry: the frame of 32 bytes stands below the old MSP, every other scratch byte as
before, IM and PL are 1, PC is MVEC, and nothing else changes (R338). -/
def Tile.enters (c e : Tile) (pc : Word) (cause value : Nat) : Prop :=
  let m := c.msp.toNat - 32
  e = { c with msp := c.msp - 32, im := true, pl := true, pc := pcWord c.mvec.toNat, state := .monitor, scratch := e.scratch } ∧
  e.scratchGet m 32 = toLE 8 pc.toNat ++ toLE 8 c.st ++ toLE 8 cause ++ toLE 8 value ∧
  ∀ o, o < 0x40000 → ¬((m - scratchBase) % 0x40000 ≤ o ∧ o < (m - scratchBase) % 0x40000 + 32) →
    memByte e.scratch o = memByte c.scratch o

/-- The earliest command of an instance that may start has this opcode, and its receipt names no other. -/
def State.starts (s : State) (i : InstId) (opcode : Nat) (c : Cmd) : Prop :=
  s.startable i (fun c => c.opcode == opcode) = some c ∧ s.cmd i c.receipt = some c

/-- The earliest CREATE_TABLE may start, as its descriptor names its table (R523), and passes the checks of R521. -/
def State.creates (s : State) (i : InstId) (desc : Bytes) (c : Cmd) : Prop :=
  s.startableAs i (·.naming desc) (fun c => c.opcode == 0x10) = some c ∧ s.cmd i c.receipt = some c

/-- The earliest command with this opcode may start and passes the checks of R521. -/
def State.goesOn (s : State) (i : InstId) (opcode : Nat) (c : Cmd) : Prop := s.starts i opcode c ∧ s.precheck i c = none

/-- The state in which a command's own meaning begins: its COMMAND entry stands in the journal (R600). -/
def State.noted (s : State) (c : Cmd) : State :=
  if s.finial.journal.any fun e => e.kind == 1 && e.stamp == c.receipt then s else s.journal 1 c.receipt c.word

/-- A command has ended: it is gone from its queue, and one record follows the others, with its receipt, and its opcode, status,
tag and details where R528 puts them. -/
def Ended (s u : State) (i : InstId) (c : Cmd) (status : Nat) (d : Vector Nat 4) : Prop :=
  (u.insts[i]).queue = (s.insts[i]).queue.filter (·.receipt != c.receipt) ∧
  ∃ r, (u.insts[i]).records = (s.insts[i]).records ++ [r] ∧ r.receipt = c.receipt ∧ r.bytes.length = 128 ∧
    fieldAt 0 4 r.bytes = 0x454E4F44 ∧ fieldAt 4 1 r.bytes = c.opcode ∧ fieldAt 6 2 r.bytes = status % 2 ^ 16 ∧
    fieldAt 8 8 r.bytes = c.tag % 2 ^ 64 ∧
    ∀ k : Fin 4, fieldAt (64 + 8 * k.val) 8 r.bytes = d[k] % 2 ^ 64

/-- A function whose window is free, that is a source, and whose request the active Ridge serves at once (R564, R576, R599). -/
def State.windowServes (s : State) (f : FuncId) (src : Source) : Prop :=
  (s.dict.windows[f]).busy = false ∧ s.sourceOf f = some src ∧ s.ridgeTakes = true

/-- A write of a value to an object, received now through a function's window from its source (R567, R576). -/
def State.windowWrite (s : State) (f : FuncId) (src : Source) (index sub : Nat) (v : Bytes) : DictWrite :=
  { stamp := (s.stamp src.src8).1, source := src, key := objKey index sub, value := v, node := 0, cycle := s.time.raft + 1,
    reply := .window f, applied := 0 }

/-- The state in which such a write is served: DW_REQ and DW_DATA hold it, and the window is BUSY with its stamp (R575, R576). -/
def State.windowBusy (s : State) (f : FuncId) (src : Source) (index sub type : Nat) (v : Bytes) : State :=
  let s := (s.dwReq f (index + sub * 2 ^ 16 + 2 * 2 ^ 24 + type * 2 ^ 32 + v.length * 2 ^ 48)).dwData f 0 v
  ((s.stamp src.src8).2).modWindow f fun x => { x with busy := true, stamp := (s.stamp src.src8).1 }

/-- A command object written through a window acts at once: the write is journaled, the object's action runs, and the write ends
with the action's status, or, where the object is persistent and the status is OK, once it is committed (R568, R572, R600). -/
def State.windowActs (s : State) (f : FuncId) (src : Source) (i : Instr) (index sub type : Nat) (v : Bytes) (kind : Nat) (p : Bool)
    (action : State → Nat × State) : Prop :=
  let w := s.windowWrite f src index sub v
  let t := (s.windowBusy f src index sub type v).journal kind w.stamp w.key
  t.submitCode src w.key type v = none → exec i s = .next ((action t).2.writeApplied w p (action t).1)

end Sys2Proof.Machine
end

