-- ==== Sys2Proof/Certificates/Slice0/Obligations.lean ====
section
/-! DEFINITION. The statements for the provers. -/

open Sys2Proof Sys2Proof.Machine

/-- The block's form, with log entry 1: a step of a state whose queue begins with a command is exec of that command on the state
with the queue's rest. -/
def Obligations.StepRunsFrontCommand : Prop :=
  ∀ (c : Sys2Proof.Instr) (rest : List Sys2Proof.Instr) (s : State), s.pending = c :: rest → step s = exec c { s with pending := rest }

/-- The block's form, with log entries 1, 5 and 10: with no command waiting a step is one cycle of the time base, and no command
ends in a fault or a refusal: each answers a next state. What the spec leaves open here is decided as log entries 1, 5, 10 say:
the model's own choice or inference. -/
def Obligations.EmptyQueueAndNoStop : Prop :=
  (∀ s : State, s.pending = [] → step s = .next (s.modTime TimeSt.cycle)) ∧
  (∀ (c : Sys2Proof.Instr) (s : State), ∃ t, exec c s = .next t)

/-- The block's form (log entry 1): a step takes the command in front and leaves the queue's rest as it stands, whatever the
command. -/
def Obligations.QueueKept : Prop :=
  ∀ (s s' : State) (c : Sys2Proof.Instr) (rest : List Sys2Proof.Instr), s.pending = c :: rest → step s = .next s' → s'.pending = rest

/-- Every step keeps the canonical form of device memory and of each tile's scratch: addresses strictly rising, no listed byte 0. -/
def Obligations.SoundKept : Prop := ∀ s s' : State, s.sound → step s = .next s' → s'.sound

/-- Reset: memory and scratch stand in their canonical form with nothing listed and no command waits. From R323, R324: ST has IM
and PL 1, the system registers their reset values; R495, R498: the function registers read 0. From R349: a tile reset zeroes
the registers and sets the system registers to their reset values, leaves scratch and the tile fault registers, invalidates
both L1s and fetches at TC_RESET_PC in monitor mode. That the part begins with no supply is the model's choice (log entry 8). -/
def Obligations.ResetValues : Prop :=
  State.reset.sound ∧ State.reset.mem = [] ∧ State.reset.pending = [] ∧ State.reset.boot.standbyUp = false ∧
  (∀ t : TileId, let c := State.reset.tiles[t]
    c.st = 0x3 ∧ c.tcmp = 0 ∧ c.msp = 0x020100040000 ∧ c.msl = 0x02010003C020 ∧ c.mvec = 0 ∧ c.scrMon = 0x3C ∧
    ∀ k : Fin 16, c.wbase[k] = 0 ∧ c.wlim[k] = 0 ∧ c.wattr[k] = 0) ∧
  (∀ f : FuncId, let r := (State.reset.host.funcs[f]).regs
    r.intCause = 0 ∧ r.intEnable = 0 ∧ r.intVector = 0 ∧ r.intHoldoff = 0 ∧ r.obHigh = 0) ∧
  (∀ c : Tile, let r := c.hardReset
    (∀ k : Reg, r.g[k] = 0 ∧ r.v[k] = 0) ∧ (∀ k : MReg, r.m[k] = 0) ∧ r.st = 0x3 ∧ r.tcmp = 0 ∧ r.msp = 0x020100040000 ∧
    r.msl = 0x02010003C020 ∧ r.mvec = 0 ∧ r.scrMon = 0x3C ∧ (∀ k : Fin 16, r.wbase[k] = 0 ∧ r.wlim[k] = 0 ∧ r.wattr[k] = 0) ∧
    r.pc = c.resetPc ∧ r.state = .monitor ∧ r.scratch = c.scratch ∧ r.tfValid = c.tfValid ∧ r.tfCause = c.tfCause ∧ r.tfMsp = c.tfMsp ∧
    r.tfPc = c.tfPc ∧ r.l1d = [] ∧ r.l1i = [])

/-- R64: events are ordered by TS64, then SRC8, then SEQ24; TQ8 takes no part; of two stamps exactly one is the earlier, unless
they carry the same triple, which is one event. -/
def Obligations.StampOrder : Prop :=
  ∀ a b c : Stamp,
    (a.lt b = true ↔ a.ts < b.ts ∨ (a.ts = b.ts ∧ (a.src < b.src ∨ (a.src = b.src ∧ a.seq < b.seq)))) ∧
    (∀ q q', ({ a with tq := q } : Stamp).lt { b with tq := q' } = a.lt b) ∧
    (a.same b = true ↔ a.ts = b.ts ∧ a.src = b.src ∧ a.seq = b.seq) ∧
    (a.lt b = true → b.lt a = false ∧ a.same b = false) ∧ (a.lt b = false → b.lt a = false → a.same b = true) ∧
    (a.lt b = true → b.lt c = true → a.lt c = true)

/-- R74: a NaN is stored as the positive quiet NaN, every other pattern as it is, and no stored value has a greater order key than
NaN. -/
def Obligations.NansAreCanonical : Prop :=
  (∀ x : Nat, x < 2 ^ 32 →
    (0x7F800000 < x % 2 ^ 31 → canonVal 10 (.num x) = .num 0x7FC00000) ∧
    (x % 2 ^ 31 ≤ 0x7F800000 → canonVal 10 (.num x) = .num x ∧ orderKey 10 x < orderKey 10 0x7FC00000)) ∧
  (∀ x : Nat, x < 2 ^ 64 →
    (0x7FF0000000000000 < x % 2 ^ 63 → canonVal 11 (.num x) = .num 0x7FF8000000000000) ∧
    (x % 2 ^ 63 ≤ 0x7FF0000000000000 → canonVal 11 (.num x) = .num x ∧ orderKey 11 x < orderKey 11 0x7FF8000000000000))

/-- R86: a packed array of items of B bits. Item i stands at bits [i × B + B − 1 : i × B], bit j at bit (j mod 8) of byte ⌊j/8⌋;
the array is padded with zeros to a multiple of 8 bytes, and is empty with B = 0. -/
def Obligations.PackedArrays : Prop :=
  ∀ (B : Nat) (items : List Nat),
    let a := packBits B items
    a.length % 8 = 0 ∧ items.length * B ≤ 8 * a.length ∧ 8 * a.length < items.length * B + 64 ∧
    (∀ i k, k < B → ((a.getD ((i * B + k) / 8) 0).toNat).testBit ((i * B + k) % 8) = (items.getD i 0).testBit k) ∧
    (∀ j, items.length * B ≤ j → ((a.getD (j / 8) 0).toNat).testBit (j % 8) = false) ∧
    (B = 0 → a = [])

/-- From R84 to R94: decoding a block undoes its encoding. Of a block of at most 4,096 values of a column type with one that is
present, in any encoding that R87 permits to the type, from PLAIN to PLANE, with a dictionary that holds them for DICT, the
decoder gives back the values. -/
def Obligations.DecodedBlocksAreTheirValues : Prop :=
  ∀ (ty enc : Nat) (dict vals : List Val), tyKnown ty = true → enc ≤ 6 → encAllowed ty enc = true → vals.length ≤ 4096 →
    (∃ v ∈ vals, v ≠ .null) → (enc = 5 → dict.length ≤ 2 ^ 32 ∧ ∀ v ∈ vals, v ≠ .null → v ∈ dict) →
    (∀ v ∈ vals, v = .null ∨ (tyVar ty = true ∧ ∃ b, v = .str b) ∨ (tyVar ty = false ∧ ∃ x, v = .num x ∧ x < 2 ^ tyBits ty)) →
    (vals.map fun v => v.bytesD.length).sum < 2 ^ 32 →
    decodeBody ty vals.length dict (bodyOf ty enc dict vals) = .ok vals

/-- R331, R332: the integer instructions and the constants. The result wraps modulo 2^64 and goes to g(d); nothing else of the tile
changes but PC, which goes on by 4, and no other unit changes but as the fetch changed it. -/
def Obligations.SparIntegerResults : Prop :=
  ∀ (s s' : State) (t : TileId) (d a b : Reg) (imm : BitVec 16) (sel : Fin 4), Fetched s t s' →
    let A := ((s.tiles[t]).g[a]).toNat
    let B := ((s.tiles[t]).g[b]).toNat
    let D := ((s.tiles[t]).g[d]).toNat
    let SA := ((s.tiles[t]).g[a]).toInt
    let SB := ((s.tiles[t]).g[b]).toInt
    let go := fun (i : Instr) (x : Int) => exec i s = .next (s'.retires t fun c => c.setG d (BitVec.ofInt 64 x))
    go (.add t d a b) (A + B) ∧ go (.sub t d a b) (A - B) ∧
    go (.and t d a b) (A &&& B : Nat) ∧ go (.or t d a b) (A ||| B : Nat) ∧ go (.xor t d a b) (A ^^^ B : Nat) ∧
    go (.andn t d a b) (A &&& (2 ^ 64 - 1 - B) : Nat) ∧
    go (.shl t d a b) (A * 2 ^ (B % 64)) ∧ go (.shr t d a b) (A / 2 ^ (B % 64) : Nat) ∧ go (.sar t d a b) (SA / 2 ^ (B % 64)) ∧
    go (.ror t d a b) (A / 2 ^ (B % 64) + A * 2 ^ (64 - B % 64) : Nat) ∧
    go (.mul t d a b) (A * B) ∧ go (.mulhu t d a b) (A * B / 2 ^ 64 : Nat) ∧ go (.mulhs t d a b) (SA * SB / 2 ^ 64) ∧
    go (.divu t d a b) (if B = 0 then 0 else A / B : Nat) ∧ go (.divs t d a b) (if B = 0 then 0 else SA.tdiv SB) ∧
    go (.remu t d a b) (if B = 0 then A else A % B : Nat) ∧ go (.rems t d a b) (if B = 0 then SA else SA.tmod SB) ∧
    go (.minu t d a b) (min A B : Nat) ∧ go (.mins t d a b) (min SA SB) ∧
    go (.maxu t d a b) (max A B : Nat) ∧ go (.maxs t d a b) (max SA SB) ∧
    go (.sltu t d a b) (if A < B then 1 else 0) ∧ go (.slts t d a b) (if SA < SB then 1 else 0) ∧
    go (.seq t d a b) (if A = B then 1 else 0) ∧
    (∃ k : Nat, k ≤ 64 ∧ A < 2 ^ (64 - k) ∧ (k < 64 → 2 ^ (63 - k) ≤ A) ∧ go (.clz t d a) k) ∧
    (∃ k : Nat, k ≤ 64 ∧ 2 ^ k ∣ A ∧ (k < 64 → ¬ 2 ^ (k + 1) ∣ A) ∧ go (.ctz t d a) k) ∧
    go (.popc t d a) ((List.range 64).countP fun i => A.testBit i : Nat) ∧
    go (.bswap t d a) (((List.range 8).map fun i => A / 256 ^ i % 256 * 256 ^ (7 - i)).sum : Nat) ∧
    go (.addi t d a imm) (A + imm.toInt) ∧ go (.andi t d a imm) (A &&& imm.toNat : Nat) ∧
    go (.ori t d a imm) (A ||| imm.toNat : Nat) ∧ go (.xori t d a imm) (A ^^^ imm.toNat : Nat) ∧
    go (.shli t d a imm) (A * 2 ^ (imm.toNat % 64)) ∧ go (.shri t d a imm) (A / 2 ^ (imm.toNat % 64) : Nat) ∧
    go (.sari t d a imm) (SA / 2 ^ (imm.toNat % 64)) ∧
    go (.sltsi t d a imm) (if SA < imm.toInt then 1 else 0) ∧
    go (.sltui t d a imm) (if A < (imm.signExtend 64).toNat then 1 else 0) ∧
    go (.movz t d sel imm) (imm.toNat * 2 ^ (16 * sel.val)) ∧
    go (.movk t d sel imm) (D - D / 2 ^ (16 * sel.val) % 2 ^ 16 * 2 ^ (16 * sel.val) + imm.toNat * 2 ^ (16 * sel.val))

/-- From R331, R333, R356: floating point. f(d) takes the result with the rest of v(d) zero, or g(d) takes 1 or 0; FX collects the
flags; nothing traps. A NaN result is canonical, FMIN and FMAX choose by order key, a comparison with a NaN gives 0, and FTOI
saturates. What the spec leaves open here is decided as log entries 74, 87, 88 say: the model's own choice or inference. -/
def Obligations.SparFloatResults : Prop :=
  ∀ (s s' : State) (t : TileId) (dbl : Bool) (d a b e : Reg), Fetched s t s' →
    let f := ffmt dbl
    let x := (s.tiles[t]).f a
    let y := (s.tiles[t]).f b
    let w := (s.tiles[t]).f e
    let isNan := fun (v : Nat) => (f.unpack v).isNan = true
    let go := fun (i : Instr) (r : FRes) => exec i s = .next (s'.retires t fun c => (c.setF d r.bits).addFx r.fx)
    let num := fun (i : Instr) (r : FRes) => go i r ∧ (isNan r.bits → r.bits = f.qnan)
    let cmp := fun (i : Instr) (r : Bool × Fx) =>
      exec i s = .next (s'.retires t fun c => (c.setG d (if r.1 then 1 else 0)).addFx r.2) ∧ (isNan x ∨ isNan y → r.1 = false)
    num (.fadd t dbl d a b) (f.add x y) ∧ num (.fsub t dbl d a b) (f.sub x y) ∧ num (.fmul t dbl d a b) (f.mul x y) ∧
    num (.fdiv t dbl d a b) (f.div x y) ∧ num (.fsqrt t dbl d a) (f.sqrt x) ∧
    num (.fusedMultiplyAdd t dbl d a b e) (f.fma false x y w) ∧ num (.fusedMultiplySubtract t dbl d a b e) (f.fma true x y w) ∧
    num (.fmin t dbl d a b) (f.minK x y) ∧ num (.fmax t dbl d a b) (f.maxK x y) ∧
    (¬ isNan x → ¬ isNan y → f.key (f.minK x y).bits = min (f.key x) (f.key y) ∧ f.key (f.maxK x y).bits = max (f.key x) (f.key y)) ∧
    cmp (.feq t dbl d a b) (f.eqF x y) ∧ cmp (.flt t dbl d a b) (f.ltF false x y) ∧ cmp (.fle t dbl d a b) (f.ltF true x y) ∧
    num (.itof t dbl d a) (f.ofInt ((s.tiles[t]).g[a]).toInt) ∧
    (go (.fcvt t dbl d a) (f.cvt (ffmt !dbl) x) ∧
      (((ffmt !dbl).unpack (f.cvt (ffmt !dbl) x).bits).isNan = true → (f.cvt (ffmt !dbl) x).bits = (ffmt !dbl).qnan)) ∧
    exec (.fmvg t dbl d a) s = .next (s'.retires t fun c => c.setG d (BitVec.ofNat 64 (x % 2 ^ f.width))) ∧
    exec (.fmvf t dbl d a) s = .next (s'.retires t fun c => c.setF d (((s.tiles[t]).g[a]).toNat % 2 ^ f.width)) ∧
    (∃ r : FRes, exec (.ftoi t dbl d a) s = .next (s'.retires t fun c => (c.setG d (BitVec.ofNat 64 r.bits)).addFx r.fx) ∧
      match f.unpack x with
      | .nan _ => r = ⟨0, fxInvalid⟩
      | .inf n => r = ⟨if n then 2 ^ 63 else 2 ^ 63 - 1, fxInvalid⟩
      | .fin n m p =>
        let v : Int := (if n then -1 else 1) * (if 0 ≤ p then m * 2 ^ p.toNat else m / 2 ^ (-p).toNat : Nat)
        if 2 ^ 63 ≤ v then r = ⟨2 ^ 63 - 1, fxInvalid⟩
        else if v < -(2 ^ 63) then r = ⟨2 ^ 63, fxInvalid⟩
        else BitVec.ofNat 64 r.bits = BitVec.ofInt 64 v)

/-- From R331, R325 to R327: loads. An aligned load whose bytes are all permitted and none POISONED or lost writes its register,
zero-extended or sign-extended, or f(d) with the rest of v(d) zero. A load from scratch reads the tile's own scratch bytes.
From R331, R325 to R327: stores. An aligned store whose bytes are all permitted is made and PC goes on by 4. In scratch it
changes the stored bytes of the tile's own scratch and nothing else. In DRAM outside every bundle-temporary region, with no
write queued, it changes the stored bytes of memory and no other byte. What the spec leaves open here is decided as log entries
9, 227 say: the model's own choice or inference. -/
def Obligations.SparLoadAndStoreResults : Prop :=
  (∀ (s s' s'' : State) (t : TileId) (d a : Reg) (off : BitVec 16) (par : CPar) (bs : Bytes) (lost : List (Nat × Bool)),
    Fetched s t s' →
    let x := ((s.tiles[t]).g[a] + off.signExtend 64).toNat
    let v := leNat bs
    let loads := fun (i : Instr) (n : Nat) (f : Tile → Tile) =>
      x % n = 0 → s'.firstBad t .load x n = none → s'.loadBytes t x n par = (⟨.ok bs, lost⟩, s'') →
        exec i s = .next ((s''.retires t f).chargeLost lost)
    loads (.ld8u t d a off par) 1 (fun c => c.setG d (BitVec.ofNat 64 v)) ∧
    loads (.ld8s t d a off par) 1 (fun c => c.setG d ((BitVec.ofNat 8 v).signExtend 64)) ∧
    loads (.ld16u t d a off par) 2 (fun c => c.setG d (BitVec.ofNat 64 v)) ∧
    loads (.ld16s t d a off par) 2 (fun c => c.setG d ((BitVec.ofNat 16 v).signExtend 64)) ∧
    loads (.ld32u t d a off par) 4 (fun c => c.setG d (BitVec.ofNat 64 v)) ∧
    loads (.ld32s t d a off par) 4 (fun c => c.setG d ((BitVec.ofNat 32 v).signExtend 64)) ∧
    loads (.ld64 t d a off par) 8 (fun c => c.setG d (BitVec.ofNat 64 v)) ∧
    loads (.fld32 t d a off par) 4 (fun c => c.setV d (BitVec.ofNat 512 v)) ∧
    loads (.fld64 t d a off par) 8 (fun c => c.setV d (BitVec.ofNat 512 v)) ∧
    (∀ n, inScratch x = true →
      s'.loadBytes t x n .none =
        (⟨.ok ((List.range n).map fun i => memByte (s.tiles[t]).scratch ((x + i - scratchBase) % 0x40000)), []⟩, s'))) ∧
  (∀ (s s' : State) (t : TileId) (d a : Reg) (off : BitVec 16), s.sound → Fetched s t s' →
    let x := ((s.tiles[t]).g[a] + off.signExtend 64).toNat
    let stores := fun (i : Instr) (n v : Nat) =>
      x % n = 0 → s'.firstBad t .store x n = none →
        ∃ u, exec i s = .next u ∧ u = (s'.tileWrite t x (toLE n v)).setPc t ((s.tiles[t]).pc.toNat + 4) ∧
          (inScratch x = true →
            u = s'.retires t (fun c => { c with scratch := (u.tiles[t]).scratch }) ∧
            ∀ o, o < 0x40000 → memByte (u.tiles[t]).scratch o =
              if (o + 0x40000 - (x - scratchBase) % 0x40000) % 0x40000 < n then
                BitVec.ofNat 8 (v / 256 ^ ((o + 0x40000 - (x - scratchBase) % 0x40000) % 0x40000))
              else memByte (s.tiles[t]).scratch o) ∧
          (inScratch x = false → inCtl t x = false → s'.regionAt x = none → (∀ m : Fin 8, (s'.dram.chans[m]).writes = []) →
            (u.tiles[t]).pc = pcWord ((s.tiles[t]).pc.toNat + 4) ∧ (u.tiles[t]).g = (s.tiles[t]).g ∧
            (u.tiles[t]).v = (s.tiles[t]).v ∧ ∀ y, s'.dram.gone y = false → memByte u.mem y =
              if x ≤ y ∧ y < x + n then BitVec.ofNat 8 (v / 256 ^ (y - x)) else memByte s'.mem y)
    stores (.st8 t d a off) 1 ((s.tiles[t]).g[d]).toNat ∧ stores (.st16 t d a off) 2 ((s.tiles[t]).g[d]).toNat ∧
    stores (.st32 t d a off) 4 ((s.tiles[t]).g[d]).toNat ∧ stores (.st64 t d a off) 8 ((s.tiles[t]).g[d]).toNat ∧
    stores (.fst32 t d a off) 4 ((s.tiles[t]).v[d]).toNat ∧ stores (.fst64 t d a off) 8 ((s.tiles[t]).v[d]).toNat)

/-- From R331: branches and jumps. Nothing changes but PC, and the link register of JAL and JALR. A target of JR or JALR whose bits
[1:0] are not zero is not this case. What the spec leaves open here is decided as log entries 84, 227 say: the model's own
choice or inference. -/
def Obligations.SparBranchResults : Prop :=
  ∀ (s s' : State) (t : TileId) (d a b : Reg) (off : BitVec 16) (far : BitVec 26), Fetched s t s' →
    let A := (s.tiles[t]).g[a]
    let B := (s.tiles[t]).g[b]
    let pc := (s.tiles[t]).pc.toNat
    let near := (((pc : Int) + 4 * off.toInt) % 2 ^ 64).toNat
    let there := (((pc : Int) + 4 * far.toInt) % 2 ^ 64).toNat
    let to' := fun (i : Instr) (link : Tile → Tile) (x : Nat) =>
      exec i s = .next (s'.modTile t fun c => { link c with pc := pcWord x })
    (A = B → to' (.beq t a b off) id near) ∧ (A ≠ B → to' (.beq t a b off) id (pc + 4)) ∧
    (A ≠ B → to' (.bne t a b off) id near) ∧ (A = B → to' (.bne t a b off) id (pc + 4)) ∧
    (A.toInt < B.toInt → to' (.blts t a b off) id near) ∧ (B.toInt ≤ A.toInt → to' (.blts t a b off) id (pc + 4)) ∧
    (B.toInt ≤ A.toInt → to' (.bges t a b off) id near) ∧ (A.toInt < B.toInt → to' (.bges t a b off) id (pc + 4)) ∧
    (A.toNat < B.toNat → to' (.bltu t a b off) id near) ∧ (B.toNat ≤ A.toNat → to' (.bltu t a b off) id (pc + 4)) ∧
    (B.toNat ≤ A.toNat → to' (.bgeu t a b off) id near) ∧ (A.toNat < B.toNat → to' (.bgeu t a b off) id (pc + 4)) ∧
    to' (.j t far) id there ∧ to' (.jal t far) (fun c => c.setG 31 (pcWord (pc + 4))) there ∧
    (A.toNat % 4 = 0 → to' (.jr t a) id A.toNat) ∧
    (A.toNat % 4 = 0 → to' (.jalr t d a) (fun c => c.setG d (pcWord (pc + 4))) A.toNat)

/-- R338: taking an exception, by the four cases of its procedure. What the spec leaves open here is decided as log entry 70 says:
the model's own choice or inference. -/
def Obligations.ExceptionEntry : Prop :=
  ∀ (s : State) (t : TileId) (cause value : Nat) (pc : Word), s.sound →
    let c := s.tiles[t]
    if ¬ c.pushGood then s.takeException t cause value pc = s.stall t cause pc 0x7001
    else if c.msl.toNat + 32 ≤ c.msp.toNat then
      ∃ e, c.enters e pc cause value ∧ s.takeException t cause value pc = s.modTile t fun _ => e
    else if c.msp = c.msl then
      ∃ e, c.enters e pc 0x70020009 cause ∧ s.takeException t cause value pc = s.modTile t fun _ => e
    else s.takeException t cause value pc = s.stall t cause pc 0x7002

/-- From R334, R335, R341, R342: exceptions of an instruction, with the frame PC, CAUSE and VALUE of R341, when a frame fits: SVC
and BRK; a word that does not decode, and a system register that R324 does not list, ILLEGAL; RTM, WAIT and a monitor-only
system register in bundle mode, PRIVILEGED with the instruction word; a jump target or an address that is not aligned, ALIGN,
before an access that is not permitted, WINDOW_FAULT. What the spec leaves open here is decided as log entries 70, 79, 81, 82,
84, 92, 227 say: the model's own choice or inference. -/
def Obligations.SparTraps : Prop :=
  ∀ (s s' : State) (t : TileId) (d a : Reg) (imm off num : BitVec 16) (word : BitVec 32) (par : CPar), s.sound → Fetched s t s' →
    (s.tiles[t]).roomy →
    let pc := (s.tiles[t]).pc
    let traps := fun (i : Instr) (at' : Word) (cause value : Nat) =>
      ∃ e, (s'.tiles[t]).enters e at' cause value ∧ exec i s = .next (s'.modTile t fun _ => e)
    let here := pcWord pc.toNat
    let n := num.toNat
    let sys := fun (func g imm : Nat) => 0x3E * 2 ^ 26 + g * 2 ^ 21 + func * 2 ^ 16 + imm
    let target := ((s.tiles[t]).g[a]).toNat
    let x := ((s.tiles[t]).g[a] + off.signExtend 64).toNat
    traps (.svc t imm) (pcWord (pc.toNat + 4)) 0x07 imm.toNat ∧ traps (.brk t imm) (pcWord (pc.toNat + 4)) 0x08 imm.toNat ∧
    (Sys2Proof.Machine.sparWord word.toNat = .illegal → traps (.illegal t word) here 0x70030001 word.toNat) ∧
    (¬(n ≤ 3 ∨ (8 ≤ n ∧ n ≤ 0xB) ∨ (0x10 ≤ n ∧ n ≤ 0x3F)) →
      traps (.mfs t d num) here 0x70030001 (sys 2 d.val n) ∧ traps (.mts t d num) here 0x70030001 (sys 3 d.val n)) ∧
    ((s.tiles[t]).pl = false →
      traps (.rtm t) here 0x70030002 (sys 1 0 0) ∧ traps (.wait t) here 0x70030002 (sys 4 0 0) ∧
      (n = 3 ∨ (8 ≤ n ∧ n ≤ 0xB) ∨ (0x10 ≤ n ∧ n ≤ 0x3F) →
        traps (.mfs t d num) here 0x70030002 (sys 2 d.val n) ∧ traps (.mts t d num) here 0x70030002 (sys 3 d.val n))) ∧
    (target % 4 ≠ 0 → traps (.jr t a) here 0x70030003 target ∧ traps (.jalr t d a) here 0x70030003 target) ∧
    (∀ p ∈ ([(2, .ld16u t d a off par), (2, .ld16s t d a off par), (4, .ld32u t d a off par), (4, .ld32s t d a off par),
        (8, .ld64 t d a off par), (4, .fld32 t d a off par), (8, .fld64 t d a off par), (2, .st16 t d a off), (4, .st32 t d a off),
        (8, .st64 t d a off), (4, .fst32 t d a off), (8, .fst64 t d a off)] : List (Nat × Instr)),
      x % p.1 ≠ 0 → traps p.2 here 0x70030003 x) ∧
    (∀ b, ∀ p ∈ ([(1, .ld8u t d a off par), (1, .ld8s t d a off par), (2, .ld16u t d a off par), (2, .ld16s t d a off par),
        (4, .ld32u t d a off par), (4, .ld32s t d a off par), (8, .ld64 t d a off par), (4, .fld32 t d a off par),
        (8, .fld64 t d a off par)] : List (Nat × Instr)),
      x % p.1 = 0 → s'.firstBad t .load x p.1 = some b → traps p.2 here 0x50010004 b) ∧
    (∀ b, ∀ p ∈ ([(1, .st8 t d a off), (2, .st16 t d a off), (4, .st32 t d a off), (8, .st64 t d a off), (4, .fst32 t d a off),
        (8, .fst64 t d a off)] : List (Nat × Instr)),
      x % p.1 = 0 → s'.firstBad t .store x p.1 = some b → traps p.2 here 0x50010004 b)

/-- R336: RTM in monitor mode restores PC, ST and MSP from the frame at MSP, and TC_STATE follows PL (R348); with an MSP that fails
the first test of R338 it restores nothing and the tile stalls with cause FRAME. What the spec leaves open here is decided as
log entry 70 says: the model's own choice or inference. -/
def Obligations.RtmRestores : Prop :=
  ∀ (s s' : State) (t : TileId), Fetched s t s' → (s.tiles[t]).pl = true →
    let m := (s.tiles[t]).msp.toNat
    let st := leNat ((s.tiles[t]).scratchGet (m + 8) 8)
    ((s.tiles[t]).pushGood → exec (.rtm t) s = .next (s'.modTile t fun c =>
      { c with pc := pcWord (leNat ((s.tiles[t]).scratchGet m 8)), im := bitAt st 0, pl := bitAt st 1, vx := bitAt st 2,
               fx := BitVec.ofNat 5 (st / 8), msp := c.msp + 32, state := if bitAt st 1 then .monitor else .bundle })) ∧
    (¬ (s.tiles[t]).pushGood → exec (.rtm t) s = .next (s'.stall t 0x7001000A (s.tiles[t]).pc 0x7001))

/-- From R324, R328: MFS reads and MTS writes every system register, in monitor mode, and in bundle mode where R324 says so. From
R335, R348: WAIT in monitor mode goes on at PC + 4, and waits there while no event is pending; a WAITING tile resumes in
MONITOR when one is; FENCE goes on at PC + 4 and changes nothing else. What the spec leaves open here is decided as log entries
79, 81, 82, 92 say: the model's own choice or inference. -/
def Obligations.SystemInstructions : Prop :=
  (∀ (s s' : State) (t : TileId) (g : Reg) (num : BitVec 16) (k : Fin 16), Fetched s t s' →
    ((s.tiles[t]).pl = true ∨ num.toNat ≤ 2) →
    let c := s.tiles[t]
    let x := (s.tiles[t]).g[g]
    let n := num.toNat
    let reads := fun (v : Word) => exec (.mfs t g num) s = .next (s'.retires t fun c => c.setG g v)
    let writes := fun (f : Tile → Tile) => exec (.mts t g num) s = .next (s'.retires t f)
    (n = 0x00 → reads (BitVec.ofNat 64 (c.im.toNat + 2 * c.pl.toNat + 4 * c.vx.toNat + 8 * c.fx.toNat)) ∧
      (c.pl = true → writes fun c =>
        { c with im := x.getLsbD 0, pl := x.getLsbD 1, vx := x.getLsbD 2, fx := x.extractLsb' 3 5 }) ∧
      (c.pl = false → writes fun c => { c with fx := x.extractLsb' 3 5 })) ∧
    (n = 0x01 → reads (BitVec.ofNat 64 (t.val + 1 * 2 ^ 8 + 64 * 2 ^ 16)) ∧ writes id) ∧
    (n = 0x02 → reads (BitVec.ofNat 64 s'.time.ts) ∧ writes id) ∧
    (n = 0x03 → reads c.tcmp ∧ writes fun c => { c with tcmp := x, timerTaken := false }) ∧
    (n = 0x08 → reads c.msp ∧ writes fun c => { c with msp := x }) ∧
    (n = 0x09 → reads c.msl ∧ writes fun c => { c with msl := x &&& ~~~0x1F }) ∧
    (n = 0x0A → reads c.mvec ∧ writes fun c => { c with mvec := x &&& ~~~0x3F }) ∧
    (n = 0x0B → reads (c.scrMon.setWidth 64) ∧ writes fun c => { c with scrMon := x.setWidth 6 }) ∧
    (n = 0x10 + k.val → reads c.wbase[k] ∧ writes fun c => { c with wbase := c.wbase.set k (x &&& ~~~0xFFF) }) ∧
    (n = 0x20 + k.val → reads c.wlim[k] ∧ writes fun c => { c with wlim := c.wlim.set k (x &&& ~~~0xFFF) }) ∧
    (n = 0x30 + k.val → reads ((c.wattr[k]).setWidth 64) ∧ writes fun c => { c with wattr := c.wattr.set k (x.setWidth 5) })) ∧
  (∀ (s s' : State) (t : TileId),
    (Fetched s t s' → (s.tiles[t]).pl = true →
      exec (.wait t) s = .next (s'.retires t fun c => if s'.asyncPending c = 0 then { c with state := .waiting } else c)) ∧
    (Fetched s t s' → exec (.fence t) s = .next (s'.retires t id)) ∧
    ((s.tiles[t]).state = .waiting → s.asyncPending s.tiles[t] ≠ 0 →
      exec (.waitWakeup t) s = .next (s.modTile t fun c => { c with state := .monitor })) ∧
    ((s.tiles[t]).state = .waiting → s.asyncPending s.tiles[t] = 0 → (s.tiles[t]).tcmp ≠ 0 → (s.tiles[t]).timerTaken = false →
      ∃ u, exec (.waitWakeup t) s = .next u ∧ u.time.ts = max s.time.ts (s.tiles[t]).tcmp.toNat ∧
        u.tiles[t] = { s.tiles[t] with state := .monitor }))

/-- From R343, R341: with IM 0 a pending event is accepted in the order PREEMPT, DISPATCH, UNIT, TIMER. It enters the monitor with
the PC of the instruction not yet executed, and its pending bit is cleared, but for UNIT. A PREEMPT of a tile being preempted
makes it SAVING (R303); saving the context (R350) changes of that tile only its data cache. What the spec leaves open here is
decided as log entries 76, 78, 80 say: the model's own choice or inference. -/
def Obligations.AsynchronousEvents : Prop :=
  ∀ (s : State) (t : TileId), s.sound → s.sparRuns t = true → (s.tiles[t]).im = false → (s.tiles[t]).roomy →
    let c := s.tiles[t]
    let unit := c.unitSrc &&& c.unitEnable ≠ 0
    let takes := fun (i : Instr) (c' : Tile) (cause value : Nat) =>
      ∃ u, exec i s = .next u ∧ c'.enters u.tiles[t] c.pc cause value
    (c.pendPreempt = true → ∃ u e, exec (.preempt t) s = .next u ∧ ({ c with pendPreempt := false } : Tile).enters e c.pc 0x10 0 ∧
      u.tiles[t] = { e with l1d := (u.tiles[t]).l1d, l1dPlru := (u.tiles[t]).l1dPlru, victim := (u.tiles[t]).victim,
                            dirtyNo := (u.tiles[t]).dirtyNo } ∧
      ((s.batten.tiles[t]).state ≠ .preempting → u.tiles[t] = e) ∧
      ((s.batten.tiles[t]).state = .preempting → (s.batten.tiles[t]).desc.isSome = true → (u.batten.tiles[t]).state = .saving)) ∧
    (c.pendPreempt = false → c.pendDispatch = true → takes (.dispatch t) { c with pendDispatch := false } 0x11 0) ∧
    (c.pendPreempt = false → c.pendDispatch = false → unit → takes (.unit t) c 0x12 c.unitSrc.toNat) ∧
    (c.pendPreempt = false → c.pendDispatch = false → ¬ unit → c.tcmp ≠ 0 → c.timerTaken = false →
      takes (.timer t) { c with timerTaken := true } 0x13 (max s.time.ts c.tcmp.toNat))

/-- From R345, R346: streams over the tile's own scratch. Of the count, `m` bytes are done after the granules that run: the first
ends at the next 64-byte boundary of a, the others are 64 bytes. The pointers and the count describe what is done, and PC goes
on by 4 only when the stream stops. What the spec leaves open here is decided as log entries 9, 85 say: the model's own choice
or inference. -/
def Obligations.StreamResults : Prop :=
  ∀ (s s' : State) (t : TileId) (a b c : Reg) (granules : Nat) (par : CPar), s.sound → Fetched s t s' → 0 < granules →
    let e := s.tiles[t]
    let va := (e.g[a]).toNat
    let vb := (e.g[b]).toNat
    let n := (e.g[c]).toNat
    let m := min n (64 * granules - va % 64)
    let pc := e.pc.toNat
    let byte := fun (x : Nat) => memByte e.scratch (x - scratchBase)
    let ok := fun (k : SAcc) (x : Nat) => scratchBase ≤ x ∧ x + n ≤ scratchBase + 0x40000 ∧ ∀ i, i < n → s'.byteOk t k (x + i) = true
    let ends := fun (i : Instr) (done : Bool) (x : Nat) (y : Option Nat) (left : Nat) (scr : Nat → Byte) =>
      ∃ u, exec i s = .next u ∧ u = (s'.modTile t fun c' =>
          { c' with g := ((match y with
                      | some y => (c'.g.set a (BitVec.ofNat 64 x)).set b (BitVec.ofNat 64 y)
                      | none => c'.g.set a (BitVec.ofNat 64 x))).set c (BitVec.ofNat 64 left),
                    pc := if done then pcWord (pc + 4) else c'.pc, scratch := (u.tiles[t]).scratch }) ∧
        ∀ o, o < 0x40000 → memByte (u.tiles[t]).scratch o = scr o
    (n = 0 → exec (.movs t a b c granules par) s = .next (s'.retires t id) ∧
      exec (.cmps t a b c granules par) s = .next (s'.retires t id) ∧
      exec (.fills t a b c granules) s = .next (s'.retires t id) ∧
      exec (.scans t a b c granules par) s = .next (s'.retires t id)) ∧
    (0 < n → a ≠ b → a ≠ c → b ≠ c →
      (ok .store va → ok .load vb → (va + n ≤ vb ∨ vb + n ≤ va) →
        ends (.movs t a b c granules .none) (m = n) (va + m) (some (vb + m)) (n - m) fun o =>
          if va - scratchBase ≤ o ∧ o < va - scratchBase + m then byte (vb + (o + scratchBase - va)) else memByte e.scratch o) ∧
      (ok .store va →
        ends (.fills t a b c granules) (m = n) (va + m) none (n - m) fun o =>
          if va - scratchBase ≤ o ∧ o < va - scratchBase + m then BitVec.ofNat 8 (vb / 256 ^ ((o + scratchBase) % 8))
          else memByte e.scratch o) ∧
      (ok .load va → ok .load vb →
        (∀ k, k < m → byte (va + k) ≠ byte (vb + k) → (∀ i, i < k → byte (va + i) = byte (vb + i)) →
          ends (.cmps t a b c granules .none) true (va + k) (some (vb + k)) (n - k) (memByte e.scratch)) ∧
        ((∀ i, i < m → byte (va + i) = byte (vb + i)) →
          ends (.cmps t a b c granules .none) (m = n) (va + m) (some (vb + m)) (n - m) (memByte e.scratch))) ∧
      (ok .load va →
        (∀ k, k < m → byte (va + k) = BitVec.ofNat 8 vb → (∀ i, i < k → byte (va + i) ≠ BitVec.ofNat 8 vb) →
          ends (.scans t a b c granules .none) true (va + k) none (n - k) (memByte e.scratch)) ∧
        ((∀ i, i < m → byte (va + i) ≠ BitVec.ofNat 8 vb) →
          ends (.scans t a b c granules .none) (m = n) (va + m) none (n - m) (memByte e.scratch))))

/-- From R389, R391: CMO in monitor mode, with a legal target, over sets and ways or over an aligned range (for LOCK, one it may
load from). One execution does at most 128 lines, advances g(r), reduces the count in g(r + 1) and adds to the accumulator g(r
+ 2); no other register of the tile changes, and PC goes on by 4. From R390, R391, R401: a Thatch operation of the active
Ridge, well formed, with none running in its slices. Its block shows it BUSY with status 0; it changes no tile; INVALIDATE,
LOCK and UNLOCK write nothing to memory; after CLEAN a line it acted on holds no dirty sector, after UNLOCK no lock, both with
its data as before. A malformed one does nothing and shows BAD_ARGUMENT. From R384, R390: PLAN_RETIRE invalidates on every tile
the bundle-mode instruction lines of its slot, and changes nothing else of the tiles; while BUSY reads 1 it is ignored. A
Thatch operation that finishes clears BUSY of its block alone. What the spec leaves open here is decided as log entries 94, 96,
98, 101, 102 say: the model's own choice or inference. -/
def Obligations.CacheOperations : Prop :=
  (∀ (s s' : State) (t : TileId) (r : Reg) (setway incl : Bool) (target : Fin 4), Fetched s t s' → (s.tiles[t]).pl = true → target ≠ 3 →
    let g := (s.tiles[t]).g
    let base := (g[r]).toNat
    let r1 : Reg := r + 1
    let r2 : Reg := r + 2
    let count := (g[r1]).toNat
    let first := base % 128 * 4 + base / 128 % 4
    let lines := min (if setway then count else count / 128) 128
    let sets := if target = 1 then 64 else 128
    let next := if setway then ((first + lines) % (4 * sets)) / 4 + (first + lines) % 4 * 128 else base + 128 * lines
    let rest := if setway then count - lines else count - 128 * lines
    let does := fun (i : Instr) (op : Nat) => ∃ u acc, exec i s = .next u ∧
      (u.tiles[t]).g = ((g.set r (BitVec.ofNat 64 next)).set r1 (BitVec.ofNat 64 rest)).set r2 acc ∧
      (u.tiles[t]).v = (s.tiles[t]).v ∧ (u.tiles[t]).m = (s.tiles[t]).m ∧ (u.tiles[t]).msp = (s.tiles[t]).msp ∧
      (u.tiles[t]).scratch = (s.tiles[t]).scratch ∧ (u.tiles[t]).pc = pcWord ((s.tiles[t]).pc.toNat + 4) ∧
      (setway = true → target = 0 → count = 1 → g[r2] = 0 →
        match nget (s.tiles[t]).l1d first with
        | none => acc = 0
        | some x =>
          if x.locked = true ∧ incl = false then acc = 2 ^ 16
          else if op = 4 ∧ x.locked = false ∧ 3 ≤ (s.tiles[t]).lockedIn (first / 4) then acc = 2 ^ 48
          else acc = BitVec.ofNat 64 (1 + if op = 2 then min 0xFFFF (x.dirty.countP id) * 2 ^ 32 else 0))
    let aligned := setway = true ∨ (base % 128 = 0 ∧ count % 128 = 0)
    (aligned → does (.cmoClean t r setway target incl) 1) ∧ (aligned → does (.cmoInvalidate t r setway target incl) 2) ∧
    (aligned → does (.cmoCleanInvalidate t r setway target incl) 3) ∧
    (aligned → (setway = true ∨ (s'.firstBad t .load base (128 * lines) = none ∧
        ∀ l, l < 2 * lines → s'.lineBad (64 * (base / 64 + l)) = false)) → does (.cmoLock t r setway target incl) 4) ∧
    (aligned → does (.cmoUnlock t r setway target incl) 5)) ∧
  (∀ (s : State) (block : Fin 16) (addr len slices : Nat) (setway incl : Bool), s.ridgeActs = true → (s.thatch.slices[block]).mop.busy = false →
    let mask := slices % 2 ^ 16
    let formed := mask ≠ 0 ∧ (setway = true ∨ (addr % 64 = 0 ∧ len % 64 = 0 ∧ addr + len ≤ s.dram.managed))
    let acts := fun (i : Fin 16) (k : Nat) (x : TLine) =>
      mask.testBit i.val = true ∧ (s.thatch.slices[i]).powered = true ∧ nget (s.thatch.slices[i]).lines k = some x ∧
      k ∈ (s.thatch.slices[i]).visited setway addr len ∧ ((x.locked = false ∧ x.aperture = false) ∨ incl = true)
    let runs := fun (i : Instr) (op len' : Nat) (after : State → Prop) =>
      (formed → s.thBusyIn mask = false → ∃ u, exec i s = .next u ∧ u.tiles = s.tiles ∧
        (u.thatch.slices[block]).mop.busy = true ∧ (u.thatch.slices[block]).mop.status = 0 ∧
        (u.thatch.slices[block]).mop.mop = op + setway.toNat * 8 + incl.toNat * 16 + mask * 2 ^ 16 ∧
        (u.thatch.slices[block]).mop.addr = addr ∧ (u.thatch.slices[block]).mop.len = len' ∧ after u) ∧
      (¬ formed → ∃ u, exec i s = .next u ∧ u = s.modSlice block (fun c => { c with mop := (u.thatch.slices[block]).mop }) ∧
        (u.thatch.slices[block]).mop.status = 0x2002 ∧ (u.thatch.slices[block]).mop.busy = false)
    runs (.thClean block addr len setway incl slices) 1 len (fun u => ∀ (i : Fin 16) (k : Nat) (x : TLine), acts i k x → ∃ y, nget (u.thatch.slices[i]).lines k = some y ∧
      y.line = x.line ∧ y.data = x.data ∧ y.dirty0 = false ∧ y.dirty1 = false) ∧
    runs (.thInvalidate block addr len setway incl slices) 2 len (fun u => u.mem = s.mem) ∧
    runs (.thCleanInvalidate block addr len setway incl slices) 3 len (fun _ => True) ∧
    runs (.thLock block addr len setway incl slices) 4 len (fun u => u.mem = s.mem ∧ ∀ (i : Fin 16) (k : Nat) (x : TLine), nget (s.thatch.slices[i]).lines k = some x →
      ∃ y, nget (u.thatch.slices[i]).lines k = some y ∧ y = { x with locked := y.locked } ∧ (x.locked = true → y.locked = true)) ∧
    runs (.thUnlock block addr len setway incl slices) 5 len (fun u => u.mem = s.mem ∧ ∀ (i : Fin 16) (k : Nat) (x : TLine), acts i k x →
      nget (u.thatch.slices[i]).lines k = some { x with locked := false }) ∧
    (setway = true → runs (.aperture block addr setway incl slices) 6 0 (fun u => ∀ i : Fin 16,
      mask.testBit i.val = true → (s.thatch.slices[i]).powered = true →
      (∀ x, nget (s.thatch.slices[i]).lines (addr % 2 ^ 13 * 16 + addr / 2 ^ 16 % 16) = some x → x.locked = false ∧ x.aperture = false) →
      (s.thatch.slices[i]).heldIn (addr % 2 ^ 13) < 15 →
      ∃ y, nget (u.thatch.slices[i]).lines (addr % 2 ^ 13 * 16 + addr / 2 ^ 16 % 16) = some y ∧ y.aperture = true ∧ y.locked = true ∧
        y.data = zeros 64))) ∧
  (∀ (s : State) (slot : Nat) (block : Fin 16),
    exec (.thatchOperationDone block) s = .next (s.modSlice block fun c => { c with mop := { c.mop with busy := false } }) ∧
    (s.ridgeActs = true → s.thatch.retireUntil ≤ s.time.ts → ∃ u, exec (.planRetire slot) s = .next u ∧
      u.thatch.slices = s.thatch.slices ∧ u.thatch.regions = s.thatch.regions ∧ u.mem = s.mem ∧
      ∀ t : TileId, (∀ p, p ∈ (u.tiles[t]).l1i ↔ p ∈ (s.tiles[t]).l1i ∧ p.2.planSlot ≠ some (slot % 2 ^ 12)) ∧
        u.tiles[t] = { s.tiles[t] with l1i := (u.tiles[t]).l1i }) ∧
    (s.time.ts < s.thatch.retireUntil → exec (.planRetire slot) s = .next s))

/-- R393, R394: writes of ENABLE and POWER. A write of 0 to ENABLE of an enabled slice takes effect only when the slice holds no
dirty line and runs no operation; otherwise DISABLE_REFUSED is set. A write of 0 to POWER while ENABLED is ignored. -/
def Obligations.SliceEnableAndPower : Prop :=
  ∀ (s : State) (i : Fin 16), s.ridgeActs = true →
    let c := s.thatch.slices[i]
    let gives := fun (x : Instr) (f : Slice → Slice) => exec x s = .next (s.modSlice i f)
    (c.powered = true → gives (.sliceEnable i true) fun c => { c with enabled := true }) ∧
    (c.enabled = true → (∀ p ∈ c.lines, p.2.dirty0 = false ∧ p.2.dirty1 = false) → s.thBusyIn (2 ^ i.val) = false →
      gives (.sliceEnable i false) fun c => { c with enabled := false }) ∧
    (c.enabled = true → ((∃ p ∈ c.lines, p.2.dirty0 = true ∨ p.2.dirty1 = true) ∨ s.thBusyIn (2 ^ i.val) = true) →
      gives (.sliceEnable i false) fun c => { c with disableRefused := true }) ∧
    (c.enabled = false → gives (.slicePower i false) fun c => { c with powered := false, powering := false, lines := [], plru := [] }) ∧
    (c.enabled = true → exec (.slicePower i false) s = .next s) ∧
    (c.powered = false → c.fused = false → gives (.slicePower i true) fun c => { c with powering := true }) ∧
    (c.powering = true → gives (.slicePowerOnDone i) fun c =>
      { c with powered := true, powering := false, enabled := false, lines := [], plru := [] })

/-- From R354, R358, R360: the integer vector instructions. Every active element takes its result modulo 2^w; an inactive one keeps
its value when Z is 0 and becomes zero when Z is 1. Of the tile only v(d), VX and PC change. -/
def Obligations.VectorIntegerResults : Prop :=
  ∀ (s s' : State) (t : TileId) (d a b : Reg) (m : MReg) (z : Bool) (ew : Fin 4), Fetched s t s' →
    let c := s.tiles[t]
    let w := 8 * 2 ^ ew.val
    let S := fun (x : Nat) => if 2 * x < 2 ^ w then (x : Int) else (x : Int) - 2 ^ w
    let does := fun (ins : Instr) (f : Nat → Nat → Int) => ∃ x : VecReg,
      exec ins s = .next (s'.retires t fun c => { c with v := c.v.set d x, vx := true }) ∧
      ∀ i, i < 64 / 2 ^ ew.val → (vElem x w i : Int) =
        if c.active m i then f (vElem c.v[a] w i) (vElem c.v[b] w i) % 2 ^ w else if z then 0 else vElem c.v[d] w i
    does (.vadd t d a b m z ew) (fun x y => x + y) ∧ does (.vsub t d a b m z ew) (fun x y => x - y) ∧
    does (.vmul t d a b m z ew) (fun x y => x * y) ∧ does (.vmulhu t d a b m z ew) (fun x y => (x * y / 2 ^ w : Nat)) ∧
    does (.vmulhs t d a b m z ew) (fun x y => S x * S y / 2 ^ w) ∧ does (.vand t d a b m z ew) (fun x y => (x &&& y : Nat)) ∧
    does (.vor t d a b m z ew) (fun x y => (x ||| y : Nat)) ∧ does (.vxor t d a b m z ew) (fun x y => (x ^^^ y : Nat)) ∧
    does (.vandn t d a b m z ew) (fun x y => (x &&& (2 ^ w - 1 - y) : Nat)) ∧
    does (.vshl t d a b m z ew) (fun x y => x * 2 ^ (y % w)) ∧ does (.vshr t d a b m z ew) (fun x y => (x / 2 ^ (y % w) : Nat)) ∧
    does (.vsar t d a b m z ew) (fun x y => S x / 2 ^ (y % w)) ∧
    does (.vror t d a b m z ew) (fun x y => (x / 2 ^ (y % w) + x * 2 ^ (w - y % w) : Nat)) ∧
    does (.vminu t d a b m z ew) (fun x y => (min x y : Nat)) ∧ does (.vmins t d a b m z ew) (fun x y => min (S x) (S y)) ∧
    does (.vmaxu t d a b m z ew) (fun x y => (max x y : Nat)) ∧ does (.vmaxs t d a b m z ew) (fun x y => max (S x) (S y)) ∧
    does (.vabs t d a m z ew) (fun x _ => (S x).natAbs) ∧ does (.vneg t d a m z ew) (fun x _ => -x) ∧
    does (.vmov t d a m z ew) (fun x _ => x)

/-- From R358, R360, R333: the floating-point vector instructions, at EW 2 or 3. Active elements take the scalar operation's
result, the others are kept or zeroed, and FX collects exactly the flags of the active elements. What the spec leaves open here
is decided as log entries 74, 87, 89, 90 say: the model's own choice or inference. -/
def Obligations.VectorFloatResults : Prop :=
  ∀ (s s' : State) (t : TileId) (d a b : Reg) (m : MReg) (z : Bool) (ew : Fin 4), Fetched s t s' → 2 ≤ ew.val →
    let c := s.tiles[t]
    let w := 8 * 2 ^ ew.val
    let n := 64 / 2 ^ ew.val
    let F := if ew = 3 then f64 else f32
    let does := fun (ins : Instr) (f : Nat → Nat → Nat → FRes) =>
      let r := fun i => f (vElem c.v[a] w i) (vElem c.v[b] w i) (vElem c.v[d] w i)
      ∃ (x : VecReg) (fx : Fx), exec ins s = .next (s'.retires t fun c => { c with v := c.v.set d x, vx := true, fx := c.fx ||| fx }) ∧
        (∀ i, i < n → vElem x w i = if c.active m i then (r i).bits % 2 ^ w else if z then 0 else vElem c.v[d] w i) ∧
        ∀ k, fx.getLsbD k = true ↔ ∃ i, i < n ∧ c.active m i = true ∧ (r i).fx.getLsbD k = true
    does (.vfadd t d a b m z ew) (fun x y _ => F.add x y) ∧ does (.vfsub t d a b m z ew) (fun x y _ => F.sub x y) ∧
    does (.vfmul t d a b m z ew) (fun x y _ => F.mul x y) ∧ does (.vfdiv t d a b m z ew) (fun x y _ => F.div x y) ∧
    does (.vfsqrt t d a m z ew) (fun x _ _ => F.sqrt x) ∧ does (.vfmin t d a b m z ew) (fun x y _ => F.minK x y) ∧
    does (.vfmax t d a b m z ew) (fun x y _ => F.maxK x y) ∧ does (.vfma t d a b m z ew) (fun x y q => F.fma false x y q) ∧
    does (.vfms t d a b m z ew) (fun x y q => F.fma true x y q) ∧
    does (.vitof t d a m z ew) (fun x _ _ => F.ofInt (signedOf w x)) ∧ does (.vftoi t d a m z ew) (fun x _ _ => F.toInt w x)

/-- From R357, R358, R360: comparisons into mask d. Bits n and above become zero, an inactive bit is kept or zeroed, and m0 ignores
the write. The floating-point forms need EW 2 or 3; VFCEQ, VFCLT and VFCLE give 0 on a NaN. From R357, R358, R360: the mask
instructions. Bits n and above are read as nothing and written as zero, m0 ignores a write, and all but MNOT, MTOG and GTOM
honour the governing mask. What the spec leaves open here is decided as log entries 83, 88 say: the model's own choice or
inference. -/
def Obligations.VectorCompareAndMaskResults : Prop :=
  (∀ (s s' : State) (t : TileId) (d : MReg) (a b : Reg) (m : MReg) (z : Bool) (ew : Fin 4), Fetched s t s' →
    let c := s.tiles[t]
    let w := 8 * 2 ^ ew.val
    let n := 64 / 2 ^ ew.val
    let F := if ew = 3 then f64 else f32
    let S := fun (x : Nat) => if 2 * x < 2 ^ w then (x : Int) else (x : Int) - 2 ^ w
    let isNan := fun (x : Nat) => (F.unpack x).isNan = true
    let does := fun (ins : Instr) (p : Nat → Nat → Prop) (g : Nat → Nat → Fx) => ∃ (k : Word) (fx : Fx),
      exec ins s = .next (s'.retires t fun c =>
        { (if d = 0 then c else { c with m := c.m.set d k, vx := true }) with fx := c.fx ||| fx }) ∧
      (∀ i, k.getLsbD i = true ↔ i < n ∧
        if c.active m i then p (vElem c.v[a] w i) (vElem c.v[b] w i) else z = false ∧ (c.mask d).testBit i = true) ∧
      ∀ j, fx.getLsbD j = true ↔ ∃ i, i < n ∧ c.active m i = true ∧ (g (vElem c.v[a] w i) (vElem c.v[b] w i)).getLsbD j = true
    does (.vceq t d a b m z ew) (fun x y => x = y) (fun _ _ => 0) ∧ does (.vcne t d a b m z ew) (fun x y => x ≠ y) (fun _ _ => 0) ∧
    does (.vcltu t d a b m z ew) (fun x y => x < y) (fun _ _ => 0) ∧ does (.vcleu t d a b m z ew) (fun x y => x ≤ y) (fun _ _ => 0) ∧
    does (.vclts t d a b m z ew) (fun x y => S x < S y) (fun _ _ => 0) ∧
    does (.vcles t d a b m z ew) (fun x y => S x ≤ S y) (fun _ _ => 0) ∧
    (2 ≤ ew.val →
      does (.vfceq t d a b m z ew) (fun x y => ¬ isNan x ∧ ¬ isNan y ∧ (F.eqF x y).1 = true) (fun x y => (F.eqF x y).2) ∧
      does (.vfclt t d a b m z ew) (fun x y => ¬ isNan x ∧ ¬ isNan y ∧ (F.ltF false x y).1 = true) (fun x y => (F.ltF false x y).2) ∧
      does (.vfcle t d a b m z ew) (fun x y => ¬ isNan x ∧ ¬ isNan y ∧ (F.ltF true x y).1 = true) (fun x y => (F.ltF true x y).2) ∧
      does (.vfklt t d a b m z ew) (fun x y => F.key x < F.key y) (fun _ _ => 0) ∧
      does (.vfkle t d a b m z ew) (fun x y => F.key x ≤ F.key y) (fun _ _ => 0))) ∧
  (∀ (s s' : State) (t : TileId) (d a b m : MReg) (gd ga gb : Reg) (z : Bool) (ew : Fin 4), Fetched s t s' →
    let c := s.tiles[t]
    let n := 64 / 2 ^ ew.val
    let A := fun i => (c.mask a).testBit i = true
    let B := fun i => (c.mask b).testBit i = true
    let toM := fun (ins : Instr) (p : Nat → Prop) => ∃ k : Word,
      exec ins s = .next (s'.retires t fun c => if d = 0 then c else { c with m := c.m.set d k, vx := true }) ∧
      ∀ i, k.getLsbD i = true ↔ i < n ∧ p i
    let merged := fun (p : Nat → Prop) (i : Nat) => if c.active m i then p i else z = false ∧ (c.mask d).testBit i = true
    let toG := fun (ins : Instr) (x : Nat) => exec ins s = .next (s'.retires t fun c => c.setG gd (BitVec.ofNat 64 x))
    toM (.mand t d a b m z ew) (merged fun i => A i ∧ B i) ∧ toM (.mor t d a b m z ew) (merged fun i => A i ∨ B i) ∧
    toM (.mxor t d a b m z ew) (merged fun i => ¬(A i ↔ B i)) ∧ toM (.mandn t d a b m z ew) (merged fun i => A i ∧ ¬ B i) ∧
    toM (.mnot t d a m z ew) (fun i => ¬ A i) ∧
    toG (.mpopc t gd a m z ew) (((List.range n).filter fun i => c.active m i && (c.mask a).testBit i).length) ∧
    (∃ k, toG (.mfirst t gd a m z ew) k ∧ k ≤ n ∧ (k < n → c.active m k = true ∧ A k) ∧
      ∀ i, i < k → ¬(c.active m i = true ∧ A i)) ∧
    toG (.mtog t gd a m z ew) (c.mask a % 2 ^ n) ∧
    toM (.gtom t d ga m z ew) (fun i => (c.g[ga]).getLsbD i = true) ∧
    toM (.vwhile t d ga gb m z ew) (merged fun i => (c.g[ga]).toNat + i < (c.g[gb]).toNat))

/-- From R360, R371: permutes and reductions. A reduction is over the active elements; with none, a sum is 0, a minimum the type's
greatest value and a maximum its least value. VCMPRS has Z 0. What the spec leaves open here is decided as log entry 91 says:
the model's own choice or inference. -/
def Obligations.VectorPermuteAndReduce : Prop :=
  ∀ (s s' : State) (t : TileId) (d a b : Reg) (m : MReg) (z : Bool) (ew : Fin 4), Fetched s t s' →
    let c := s.tiles[t]
    let w := 8 * 2 ^ ew.val
    let n := 64 / 2 ^ ew.val
    let el := vElem c.v[a] w
    let S := fun (x : Nat) => if 2 * x < 2 ^ w then (x : Int) else (x : Int) - 2 ^ w
    let acts := ((List.range n).filter (c.active m)).map el
    let toG := fun (ins : Instr) (r : Int) => exec ins s = .next (s'.retires t fun c => c.setG d (BitVec.ofInt 64 r))
    let toV := fun (ins : Instr) (p : Nat → Nat → Prop) => ∃ x : VecReg,
      exec ins s = .next (s'.retires t fun c => { c with v := c.v.set d x, vx := true }) ∧ ∀ i, i < n → p i (vElem x w i)
    let merged := fun (f : Nat → Nat) (i x : Nat) => x = if c.active m i then f i else if z then 0 else vElem c.v[d] w i
    let least := fun (ins : Instr) (V : Nat → Int) (none' : Int) => ∃ r : Int, toG ins r ∧ (acts = [] → r = none') ∧
      (acts ≠ [] → (∃ x ∈ acts, V x = r) ∧ ∀ x ∈ acts, r ≤ V x)
    let most := fun (ins : Instr) (V : Nat → Int) (none' : Int) => ∃ r : Int, toG ins r ∧ (acts = [] → r = none') ∧
      (acts ≠ [] → (∃ x ∈ acts, V x = r) ∧ ∀ x ∈ acts, V x ≤ r)
    toV (.vbcast t d a m z ew) (merged fun _ => (c.g[a]).toNat % 2 ^ w) ∧
    toG (.vextr t d a b m z ew) (el ((c.g[b]).toNat % n)) ∧
    toV (.vcmprs t d a m ew) (fun i x => x = acts.getD i 0) ∧
    toV (.vsldn t d a b m z ew) (merged fun i => if i + (c.g[b]).toNat < n then el (i + (c.g[b]).toNat) else 0) ∧
    toG (.vredsumu t d a m z ew) acts.sum ∧ toG (.vredsums t d a m z ew) (acts.map S).sum ∧
    least (.vredminu t d a m z ew) (fun x => x) (2 ^ w - 1) ∧ least (.vredmins t d a m z ew) S (2 ^ (w - 1) - 1) ∧
    most (.vredmaxu t d a m z ew) (fun x => x) 0 ∧ most (.vredmaxs t d a m z ew) S (-(2 ^ (w - 1))) ∧
    (2 ≤ ew.val →
      let F := if ew = 3 then f64 else f32
      let r := acts.foldl (fun (p : FRes) x => ⟨(F.add p.bits x).bits, p.fx ||| (F.add p.bits x).fx⟩) ⟨0, 0⟩
      exec (.vfredsum t d a m z ew) s = .next (s'.retires t fun c => (c.setF d r.bits).addFx r.fx))

/-- From R367 to R370: VUNPK, VPLCMP and the hash instructions, and the conversions of R360 that are not element-wise of one width.
What the spec leaves open here is decided as log entries 83, 89, 90 say: the model's own choice or inference. -/
def Obligations.ColumnInstructions : Prop :=
  ∀ (s s' : State) (t : TileId) (d a b : Reg) (e m : MReg) (z : Bool) (ew : Fin 4), Fetched s t s' →
    let c := s.tiles[t]
    let w := 8 * 2 ^ ew.val
    let n := 64 / 2 ^ ew.val
    let S := fun (x : Nat) => if 2 * x < 2 ^ w then (x : Int) else (x : Int) - 2 ^ w
    let toV := fun (ins : Instr) (w' n' : Nat) (f : Nat → Int) => ∃ x : VecReg,
      exec ins s = .next (s'.retires t fun c => { c with v := c.v.set d x, vx := true }) ∧
      ∀ i, i < n' → (vElem x w' i : Int) = if c.active m i then f i % 2 ^ w' else if z then 0 else vElem c.v[d] w' i
    let rotl := fun (x k : Nat) => (x * 2 ^ k + x / 2 ^ (64 - k)) % 2 ^ 64
    let step := fun (h x : Nat) => rotl ((h ^^^ x) * 0xB3F10D5AC7E2946B % 2 ^ 64) 29 * 0x8E2C5193F7A03D6D % 2 ^ 64
    let fin : Nat → Nat := fun h =>
      let y := (h ^^^ h / 2 ^ 31) * 0xD1B54A329C6E07F5 % 2 ^ 64
      y ^^^ y / 2 ^ 33
    let e1 : MReg := e + 1
    let key := (c.g[b]).toNat
    let B := min (key / 2 ^ 9 % 2 ^ 7) w
    let item : Nat → Nat := fun i => (c.v[a]).toNat / 2 ^ (key % 2 ^ 9 + i * B) % 2 ^ B
    toV (.vunpk t d a b m z ew) w n (fun i =>
      if key.testBit 16 then if item i % 2 = 0 then (item i / 2 : Nat) else -(item i / 2 : Nat) - 1 else item i) ∧
    toV (.vhash t d a m z ew) 64 8 (fun i => fin (step (0x6A1D4C8F2B97E535 ^^^ 2 ^ ew.val) (vElem c.v[a] w i))) ∧
    (ew = 3 → toV (.vhstep t d a m z ew) 64 8 (fun i => step (vElem c.v[d] 64 i) (vElem c.v[a] 64 i)) ∧
      toV (.vhfin t d a m z ew) 64 8 (fun i => fin (vElem c.v[a] 64 i))) ∧
    ((e = 2 ∨ e = 4 ∨ e = 6) → ∃ eq gt : Word,
      exec (.vplcmp t e a b m) s = .next (s'.retires t fun c => { c with m := (c.m.set e eq).set e1 gt, vx := true }) ∧
      ∀ i, i < 64 →
        let hit := c.active m i = true ∧ (c.m[e]).getLsbD i = true ∧ (c.g[a]).getLsbD i ≠ (c.g[b]).getLsbD 0
        eq.getLsbD i = ((c.m[e]).getLsbD i && !decide hit) ∧
        gt.getLsbD i = if hit then (c.g[a]).getLsbD i else (c.m[e1]).getLsbD i) ∧
    (ew.val ≤ 2 → toV (.vzext t d a m z ew) (2 * w) (n / 2) (fun i => vElem c.v[a] w i) ∧
      toV (.vsext t d a m z ew) (2 * w) (n / 2) (fun i => S (vElem c.v[a] w i))) ∧
    (1 ≤ ew.val → toV (.vnarw t d a m z ew) (w / 2) n (fun i => vElem c.v[a] w i)) ∧
    (2 ≤ ew.val → ∃ (x : VecReg) (fx : Fx),
      exec (.vfcvt t d a m z ew) s = .next (s'.retires t fun c => { c with v := c.v.set d x, vx := true, fx := c.fx ||| fx }) ∧
      ∀ i, i < 8 → c.active m i = true →
        if ew = 2 then vElem x 64 i = (f32.cvt f64 (vElem c.v[a] 32 i)).bits % 2 ^ 64
        else vElem x 32 i = (f64.cvt f32 (vElem c.v[a] 64 i)).bits % 2 ^ 32)

/-- From R361 to R366: vector loads, stores, gathers and scatters whose active elements are aligned and permitted. A load from
scratch gives each active element its bytes; a store to scratch writes the elements in ascending order, the higher-numbered one
winning; a first-fault gather whose first faulting element k is not its first active one completes under the mask cut to the
bits below k. What the spec leaves open here is decided as log entry 9 says: the model's own choice or inference. -/
def Obligations.VectorMemoryResults : Prop :=
  ∀ (s s' s'' : State) (t : TileId) (d a b : Reg) (m : MReg) (z scale : Bool) (ew : Fin 4) (pe : Nat) (par : CPar) (r : VLoad),
    s.sound → Fetched s t s' →
    let c := s.tiles[t]
    let w := 8 * 2 ^ ew.val
    let n := 64 / 2 ^ ew.val
    let unit := fun (i : Nat) => ((c.g[a]).toNat + i * 2 ^ ew.val) % 2 ^ 64
    let strided := fun (i : Nat) => (((c.g[a]).toNat + i * (c.g[b]).toInt) % 2 ^ 64).toNat
    let indexed := fun (i : Nat) =>
      ((c.g[a]).toNat + vElem c.v[Fin.ofNat 32 (b.val + i / 16)] 32 (i % 16) * (if scale then 2 ^ ew.val else 1)) % 2 ^ 64
    let byte := fun (x : Nat) => memByte c.scratch ((x - scratchBase) % 0x40000)
    let fits := fun (k : SAcc) (x : Nat) => x % 2 ^ ew.val = 0 ∧ s'.firstBad t k x (2 ^ ew.val) = none
    let loaded := fun (addr : Nat → Nat) (x : VecReg) (top : Nat) => ∀ i, i < n → vElem x w i =
      if c.active m i = true ∧ i < top then leNat ((List.range (2 ^ ew.val)).map fun j => byte (addr i + j))
      else if z then 0 else vElem c.v[d] w i
    let loads := fun (ins : CPar → Instr) (addr : Nat → Nat) =>
      (s'.vRead t addr (2 ^ ew.val) pe par (c.activeElems m n) = (r, s'') → r.fault = none →
        exec (ins par) s = .next ((s''.retires t fun c => c.vFill d z ew r.got).chargeLost r.lost)) ∧
      ((∀ i, i < n → c.active m i = true → fits .load (addr i) ∧ inScratch (addr i) = true) →
        ∃ x, exec (ins .none) s = .next (s'.retires t fun c => { c with v := c.v.set d x, vx := true }) ∧ loaded addr x n)
    let stores := fun (ins : Instr) (addr : Nat → Nat) =>
      (∀ i, i < n → c.active m i = true → fits .store (addr i)) →
        exec ins s = .next (((c.activeElems m n).foldl (fun s i => s.tileWrite t (addr i) (toLE (2 ^ ew.val) (vElem c.v[d] w i))) s').setPc t
          (c.pc.toNat + 4)) ∧
        ((∀ i, i < n → c.active m i = true → inScratch (addr i) = true) → ∃ u, exec ins s = .next u ∧
          u = s'.retires t (fun c => { c with scratch := (u.tiles[t]).scratch }) ∧
          ∀ o, o < 0x40000 →
            let covers := fun (i : Nat) => c.active m i && decide ((o + 0x40000 - (addr i - scratchBase) % 0x40000) % 0x40000 < 2 ^ ew.val)
            match ((List.range n).filter covers).getLast? with
            | none => memByte (u.tiles[t]).scratch o = memByte c.scratch o
            | some i => memByte (u.tiles[t]).scratch o =
                BitVec.ofNat 8 (vElem c.v[d] w i / 256 ^ ((o + 0x40000 - (addr i - scratchBase) % 0x40000) % 0x40000)))
    let paired := b.val % (if ew = 0 then 4 else if ew = 1 then 2 else 1) = 0
    loads (fun p => .vld t d a m z ew pe p) unit ∧ loads (fun p => .vlds t d a b m z ew pe p) strided ∧
    (paired → loads (fun p => .vgth t d a b scale m z ew pe p) indexed) ∧
    (paired → m ≠ 0 → loads (fun p => .gthf t d a b scale m z ew pe p) indexed ∧
      ∀ f k, f < k → k < n → c.active m f = true → c.active m k = true → ¬ fits .load (indexed k) →
        (∀ i, i < k → c.active m i = true → fits .load (indexed i) ∧ inScratch (indexed i) = true) →
        ∃ x, exec (.gthf t d a b scale m z ew pe .none) s = .next (s'.retires t fun c =>
            { c with v := c.v.set d x, m := c.m.set m (BitVec.ofNat 64 ((c.m[m]).toNat % 2 ^ k)), vx := true }) ∧
          loaded indexed x k) ∧
    stores (.vst t d a m z ew) unit ∧ stores (.vsts t d a b m z ew) strided ∧
    (paired → stores (.vsct t d a b scale m z ew) indexed)

/-- From R410 to R412, R417, R420: write and read requests. An access opens or closes the row as its hint says, and activates it
only where it is not open. A write reaches memory at once while no read waits and none is queued; while reads wait and the
queue stays below WM_HIGH it is queued behind the others and a read of its bytes is answered from the queue. A read without
error changes nothing else, a read of a POISONED line is only counted, and a request whose row is not open and whose requester
has no activation left waits. From R415 to R418, R426: what ECC finds on a read and what an alert comes to. One device in error
is corrected and counted; two poison the line, unless its other copy serves it, and retire the rank; so does a rank's third
alert within 1 ms. What the spec leaves open here is decided as log entries 9, 106, 107, 219 say: the model's own choice or
inference. -/
def Obligations.MemoryRequestsAndErrors : Prop :=
  (∀ (s : State) (addr : Nat) (data : Bytes) (src8 planSlot device hint : Nat) (readWaits : Bool), s.sound →
    let bs := data.take (64 - addr % 64)
    let m := s.dram.chanOf addr
    let rowThen := fun (u : State) (a : Nat) => ∀ p, p.bank = s.bankKey a →
      (p ∈ (u.dram.chans[s.dram.chanOf a]).pages ↔ hint ≠ 2 ∧ p = ⟨s.bankKey a, (s.dram.place a).row, s.time.ts, decide (hint = 0)⟩)
    let rowOnly := fun (u : State) (a : Nat) => u = s.modMemChan (s.dram.chanOf a) (fun c =>
        { c with pages := (u.dram.chans[s.dram.chanOf a]).pages, rows := (u.dram.chans[s.dram.chanOf a]).rows,
                 throttles := (u.dram.chans[s.dram.chanOf a]).throttles }) ∧
      (s.rowOpen a = true → (u.dram.chans[s.dram.chanOf a]).rows = (s.dram.chans[s.dram.chanOf a]).rows ∧
        (u.dram.chans[s.dram.chanOf a]).throttles = (s.dram.chans[s.dram.chanOf a]).throttles)
    (addr + bs.length ≤ s.dram.managed → s.rowWaits addr src8 planSlot = false →
      ((∀ k : Fin 8, (s.dram.chans[k]).writes = []) → ∃ u, exec (.memoryWrite addr data src8 planSlot hint false) s = .next u ∧
        u.tiles = s.tiles ∧ u.thatch = s.thatch ∧ rowThen u addr ∧ ∀ y, s.dram.gone y = false →
          memByte u.mem y = if addr ≤ y ∧ y < addr + bs.length then bs.getD (y - addr) 0 else memByte s.mem y) ∧
      ((s.dram.chans[m]).writes.length + 1 < (s.dram.chans[m]).wmHigh →
        ∃ u, exec (.memoryWrite addr data src8 planSlot hint true) s = .next u ∧ u.mem = s.mem ∧ rowThen u addr ∧
          (u.dram.chans[m]).writes = (s.dram.chans[m]).writes ++ [⟨addr, bs⟩] ∧
          ∀ i, i < bs.length → u.dramByte (addr + i) = bs.getD i 0)) ∧
    (addr + bs.length ≤ s.dram.managed → s.rowWaits addr src8 planSlot = true →
      exec (.memoryWrite addr data src8 planSlot hint readWaits) s = .next s) ∧
    (let a := addr / 64 * 64
     a < s.dram.managed → (s.rowWaits a src8 planSlot = true → exec (.memoryRead addr src8 planSlot 0 device hint) s = .next s) ∧
      (s.rowWaits a src8 planSlot = false → (∀ w ∈ (s.dram.chans[s.dram.chanOf a]).writes, w.addr / 64 ≠ a / 64) →
        (s.lineBad a = false → ∃ u, exec (.memoryRead addr src8 planSlot 0 device hint) s = .next u ∧ rowThen u a ∧ rowOnly u a) ∧
        (s.lineBad a = true → ∃ u, exec (.memoryRead addr src8 planSlot 0 device hint) s = .next u ∧ rowThen u a ∧
          u.ro 0x1014 7 = s.ro 0x1014 7 + 1 ∧ rowOnly (u.modDict fun d => { d with ro := s.dict.ro }) a)))) ∧
  (∀ (s : State) (addr src8 planSlot devErrs device hint : Nat) (phys : Fin 16) (writeCrc : Bool),
    let a := addr / 64 * 64
    let rank := s.dram.readRank a
    let ch : Fin 8 := Fin.ofNat 8 (rank / 2)
    (a < s.dram.managed → s.rowWaits a src8 planSlot = false → s.lineBad a = false →
      (∀ w ∈ (s.dram.chans[s.dram.chanOf a]).writes, w.addr / 64 ≠ a / 64) →
      (∃ u, exec (.memoryRead addr src8 planSlot 1 device hint) s = .next u ∧ u.mem = s.mem ∧ u.dram.poison = s.dram.poison ∧
        (u.dram.chans[ch]).ce[Fin.ofNat 2 rank] = (s.dram.chans[ch]).ce[Fin.ofNat 2 rank] + 1) ∧
      (2 ≤ devErrs → ∃ u, exec (.memoryRead addr src8 planSlot devErrs device hint) s = .next u ∧ u.mem = s.mem ∧
        (u.dram.chans[ch]).ue[Fin.ofNat 2 rank] = (s.dram.chans[ch]).ue[Fin.ofNat 2 rank] + 1 ∧
        (rank < 16 → u.dram.ranksOut.testBit rank = true) ∧
        ((s.harmAt a).1 = false → (nget u.dram.poison (a / 64)).isSome = true) ∧
        ((s.harmAt a).1 = true → u.dram.poison = s.dram.poison))) ∧
    (let c := s.dram.chans[(Fin.ofNat 8 (phys.val / 2) : Fin 8)]
     let recent := c.alerts.filter fun x => s.time.ts ≤ x.2 + 1000000
     let mine := recent.filter fun x => x.1 == phys.val
     (mine.length < 2 → ∃ u, exec (.caParityAlert phys writeCrc) s = .next u ∧ u.mem = s.mem ∧ u.dram.ranksOut = s.dram.ranksOut ∧
        (u.dram.chans[(Fin.ofNat 8 (phys.val / 2) : Fin 8)]).alerts = recent ++ [(phys.val, s.time.ts)]) ∧
     (2 ≤ mine.length → ∃ u, exec (.caParityAlert phys writeCrc) s = .next u ∧ u.mem = s.mem ∧
        u.dram.ranksOut.testBit phys.val = true)))

/-- From R412, R413, R416, R419, R420, R427: a refresh closes the rows of its bank in every bank group and changes nothing else;
RFM is counted; scrubbing moves to the next mapped line and keeps the largest ECS count; a row at the threshold throttles the
requester that activated it most; a window's end forgets the rows; a migration unit that ends is counted, its unreadable lines
poisoned, and the last one points the slot at the spare. From R421 to R424, R536, R681: the Keep. WAKE low outside the Keep is
timed; its delay begins the entry at T_K; an entry that overruns its limit ends in the Keep with KEEP_VALID clear and a main
supply off; bytes above the Keep read 0; the retention limit clears KEEP_VALID and empties memory; rails that fall low let a
pending wake raise MAIN_EN. What the spec leaves open here is decided as log entries 4, 9, 109, 111, 199, 205, 219, 250 say:
the model's own choice or inference. -/
def Obligations.MemoryUpkeepAndKeep : Prop :=
  (∀ (s : State) (chan : Fin 8) (bank row rank n : Nat) (bad : List Nat),
    (∃ u, exec (.refresh chan bank) s = .next u ∧ u = s.modMemChan chan (fun c => { c with pages := (u.dram.chans[chan]).pages }) ∧
      ∀ p, p ∈ (u.dram.chans[chan]).pages ↔ p ∈ (s.dram.chans[chan]).pages ∧ ¬(p.bank / 32 = bank / 32 ∧ p.bank % 4 = bank % 4)) ∧
    (∃ u, exec (.rfm chan bank) s = .next u ∧ u.ro 0x1015 4 = s.ro 0x1015 4 + 1 ∧
      u = s.modDict (fun d => { d with ro := u.dict.ro })) ∧
    (64 ≤ s.dram.managed → s.dram.phase ≠ .inKeep →
      exec (.scrub 0 0 none) s = .next (s.modDram fun d => { d with scrubLine := (d.scrubLine + 1) % (s.dram.managed / 64) }) ∧
      (0 < n → ∃ u, exec (.scrub 0 0 (some (rank, n))) s = .next u ∧ u.mem = s.mem ∧
        ngetZ u.dram.ecs (rank % 16) = max (ngetZ s.dram.ecs (rank % 16)) n)) ∧
    (∀ r, (s.dram.chans[chan]).rows.find? (fun r => r.bank == bank && r.row == row && (s.dram.chans[chan]).rhThreshold ≤ r.count && !r.acted) = some r →
      ∃ u, exec (.rowHammerThreshold chan bank row) s = .next u ∧ u.mem = s.mem ∧
        (⟨2 * chan.val + bank / 64, bank % 64, r.top.1, r.top.2, 8, u.time.ts, 2⟩ : Throttle) ∈ (u.dram.chans[chan]).throttles ∧
        ∀ x ∈ (u.dram.chans[chan]).rows, x.bank = bank → x.row = row → x.acted = true) ∧
    (∃ u, exec (.rhWindowEnd chan) s = .next u ∧ (u.dram.chans[chan]).rows = [] ∧ u.mem = s.mem ∧
      ∀ t, t ∈ (u.dram.chans[chan]).throttles ↔ 0 < t.windows ∧ { t with windows := t.windows + 1 } ∈ (s.dram.chans[chan]).throttles) ∧
    (s.dram.mig.state = 1 → bitAt s.dram.ranksOut s.dram.mig.fromRank = true → ∃ u, exec (.migrationUnit bad) s = .next u ∧
      u.dram.mig.units = s.dram.mig.units + 1 ∧
      ((∀ p ∈ s.tables.tables, p.2.desc.lapped = false) → u.mem = s.mem ∧
        ∀ l ∈ bad, s.dram.inUnit (l / 64) = true → (nget u.dram.poison l).isSome = true) ∧
      (s.dram.mig.units + 1 < s.dram.rankSize / 2 ^ 20 → u.dram.mig.state = 1 ∧ u.dram.remap = s.dram.remap) ∧
      (s.dram.rankSize / 2 ^ 20 ≤ s.dram.mig.units + 1 → u.dram.mig.state = 3 ∧
        u.dram.remap = s.dram.remap.set s.dram.migSlot s.dram.mig.toRank))) ∧
  (∀ (s : State),
    (s.boot.wakeHigh = true → s.dram.phase ≠ .inKeep → ∃ u, exec .wakeFall s = .next u ∧ u.boot.wakeHigh = false ∧
      u.dram.wakeLowAt = some s.time.ts ∧ u.mem = s.mem ∧ u.tiles = s.tiles) ∧
    (∀ t, s.dram.wakeLowAt = some t → s.cfg 0x1020 4 2000 ≠ 0 → s.boot.wakeHigh = false → s.dram.phase = .out → s.boot.inService = true →
      exec .keepWakeDelayExpiry s = .next (s.advanceTo (t + 1000000 * s.cfg 0x1020 4 2000)).keepEntry) ∧
    (∀ k, s.dram.phase = .entering → s.dram.keepStamp = some k → ∃ u, exec .keepEntryLimitExpiry s = .next u ∧
      u.dram.phase = .inKeep ∧ u.dram.keepValid = false ∧ u.dram.overran = true ∧ u.boot.mainEn = false ∧
      u.dram.retainFrom = some u.time.ts) ∧
    (∀ t, s.dram.phase = .inKeep → s.dram.retainFrom = some t → ∃ u, exec .keepRetentionExpiry s = .next u ∧
      u.dram.keepValid = false ∧ u.mem = [] ∧ u.dram.phase = .inKeep ∧ u.dram.modulesReset = true ∧ u.boot = s.boot) ∧
    (s.dram.phase = .inKeep → s.boot.wakePending = true → s.boot.mainEn = false →
      exec .mainRailsLow s = .next (s.modBoot fun b => { b with mainEn := true, wakePending := false, mainUp := false })) ∧
    (s.dram.phase = .entering → s.keepWaits = false → ∃ u, exec .selfRefreshEntry s = .next u ∧ u.dram.phase = .inKeep ∧
      u.dram.keepValid = true ∧ u.boot.mainEn = false ∧ u.dram.retainFrom = some u.time.ts ∧
      ∀ y, u.dram.managed * u.dram.eighths / 8 ≤ y → memByte u.mem y = 0))

/-- From R436, R443, R444, R446 to R449: the Gutter's control commands. Lines 21 to 23 raise nothing, and lines from 24 on are
raised by the active Ridge's write alone. From R438 to R442: one beat, or one group, of each Gutter mode between tile
scratches. The bytes written are those the mode makes of the bytes read, in order; the descriptor and BYTES follow what was
written, and memory is unchanged. A channel that runs without a request line moves at least what it is asked for. What the spec
leaves open here is decided as log entries 69, 113, 115, 117, 118, 220, 227 say: the model's own choice or inference. -/
def Obligations.GutterControlAndMoves : Prop :=
  (∀ (s s' : State) (c : ChanId) (host h host' : Bytes) (line : Fin 48) (doneBack : Bool),
    let x := s.gutter.chans[c]
    (s.ridgeActs = true → x.busy = false → x.line = 0x3F → x.isRing = false →
      exec (.chStart c host) s =
        .next ((s.modChan c fun x => { x with state := .running, bytes := 0, code := 0, desc := none }).chanLoad c x.descAddr host)) ∧
    (s.ridgeActs = true → x.busy = false → x.line ≠ 0x3F →
      (∃ j : ChanId, j ≠ c ∧ (s.gutter.chans[j]).line = x.line ∧ (s.gutter.chans[j]).busy = true) →
      ∃ u, exec (.chStart c host) s = .next u ∧ (u.gutter.chans[c]).state = .stopped ∧ (u.gutter.chans[c]).code = 0x2006) ∧
    (s.ridgeActs = true → (x.state = .running ∨ x.state = .waiting) →
      exec (.chPause c) s = .next (s.modChan c fun x => { x with ctrl := x.ctrl ||| 2, state := .pausing })) ∧
    (x.state = .pausing → (∀ d, x.desc = some d → d.readBack = false ∧ d.asked = 0) →
      exec (.channelPaused c) s = .next (s.modChan c fun x => ({ x with state := .paused } : GChan).show)) ∧
    (∀ d, s.ridgeActs = true → x.state = .paused → x.stopAs = none → x.desc = some d → x.line = 0x3F →
      exec (.chResume c host) s =
        .next (s.modChan c fun x => { x with ctrl := x.ctrl &&& (2 ^ 64 - 3), state := .running, frozen := false })) ∧
    (s.ridgeActs = true → x.busy = true → ∃ u, exec (.chAbort c) s = .next u ∧ (u.gutter.chans[c]).state = .stopped ∧
      (u.gutter.chans[c]).code = 0x6001 ∧ (u.gutter.chans[c]).desc = none ∧ u.mem = s.mem ∧ u.tiles = s.tiles) ∧
    (21 ≤ line.val → line.val ≤ 23 → exec (.requestLineRaise line) s = .next s) ∧
    (24 ≤ line.val → s.ridgeActs = false → exec (.requestLineRaise line) s = .next s) ∧
    (x.line = line.val → x.busy = true → (line.val < 21 ∨ (24 ≤ line.val ∧ s.ridgeActs = true)) →
      (∀ j : ChanId, (s.gutter.chans[j]).line = line.val → j = c) →
      (x.pendingReq < 255 → exec (.requestLineRaise line) s = .next (s.modChan c fun x =>
        { x with pendingReq := x.pendingReq + 1, state := if x.state = .waiting ∧ x.desc.isSome = true then .running else x.state })) ∧
      (x.pendingReq = 255 → ∃ u, exec (.requestLineRaise line) s = .next u ∧ u.gutter.overrun = s.gutter.overrun ||| 2 ^ line.val ∧
        u.gutter.chans = s.gutter.chans ∧ u.ro 0x2801 4 = s.ro 0x2801 4 + 1)) ∧
    (∀ d, x.desc = some d → d.readBack = true → x.state = .running →
      (∃ u, exec (.descriptorComplete c false doneBack host) s = .next u ∧ (u.gutter.chans[c]).state = .stopped ∧
        (u.gutter.chans[c]).code = 0x5002) ∧
      (d.doneAddr = 0 → d.nextAddr = 0 → x.isRing = false → ∃ u, exec (.descriptorComplete c true doneBack host) s = .next u ∧
        (u.gutter.chans[c]).state = .done ∧ (u.gutter.chans[c]).code = 0 ∧ (u.gutter.chans[c]).desc = none ∧
        (d.notify = true → x.notifyEn = true → (u.tiles[x.notifyTile]).unitSrc = (s.tiles[x.notifyTile]).unitSrc ||| 4))) ∧
    (x.isRing = true → x.state = .waiting → x.desc = none → s.gutter.enable = true →
      s.chanFetch c (x.ring % 2 ^ 48) 8 host = (.ok (h, host'), s') → fieldAt 0 4 h = fieldAt 4 4 h →
      exec (.ringPoll c host) s = .next (s'.modChan c fun x => { x with state := .waiting, desc := none }))) ∧
  (∀ (s : State) (c : ChanId) (d : GDesc) (reads : List (Nat × Nat)) (n : Nat) (ws : List (Nat × Bytes)),
    (s.gutter.chans[c]).desc = some d → s.gutter.enable = true → (s.gutter.chans[c]).state = .running →
    (s.gutter.chans[c]).line = 0x3F → d.readBack = false → d.asked = 0 → d.moved < d.total → d.part = (reads, n) → 0 < n →
    (∀ x ∈ reads, s.chanMay c x.1 x.2 false = true ∧ ∃ t off, s.regionOf x.1 = .scratch t off) →
    d.emitPart (reads.flatMap fun x => (s.devRead x.1 x.2 false).1.getD []) n = .ok ws →
    (∀ x ∈ ws, s.chanMay c x.1 x.2.length true = true ∧ ∃ t off, s.regionOf x.1 = .scratch t off) →
    (∀ k : Fin 16, (s.flash.ctxs[k]).state ≠ .running) →
    let moves := fun (i : Instr) => ∃ u, exec i s = .next u ∧ u.mem = s.mem ∧ u.dram = s.dram ∧ u.thatch = s.thatch ∧
      u.tiles = (ws.foldl (fun s x => s.devWrite x.1 x.2) s).tiles ∧
      (u.gutter.chans[c]).bytes = (s.gutter.chans[c]).bytes + (ws.map fun x => x.2.length).sum ∧
      (u.gutter.chans[c]).desc = some { d with moved := d.moved + n, readBack := d.total ≤ d.moved + n }
    (d.mode = 0 → moves (.copy c 1)) ∧ (d.mode = 1 → moves (.fill c 1)) ∧ (d.mode = 2 → moves (.interleave c 1)) ∧
    (d.mode = 3 → moves (.deinterleave c 1)) ∧ (d.mode = 4 → moves (.plane c 1)) ∧ (d.mode = 5 → moves (.unplane c 1)))

/-- From R441, R442, R73: UNPLANE undoes PLANE. Of a group of at most 64 elements that PLANE accepts, the words it writes, rebuilt
by UNPLANE with the same parameters, are the elements. -/
def Obligations.UnplaneUndoesPlane : Prop :=
  ∀ (d : GDesc) (vals words : List Nat), vals.length ≤ 64 → d.keyRule ≤ 2 → 1 ≤ d.planes → d.planes ≤ d.w → d.p0 < 2 ^ d.w →
    (∀ v ∈ vals, v < 2 ^ d.w) → planeWords d vals = some words → unplaneVals d words vals.length = vals

/-- From R457 to R461, R466, R468: the Yelm engines. An idle enabled engine with a READY job takes the one R458 ranks first, at
once and with BAD_ARGUMENT for a malformed descriptor; with none it stays idle. A job that ends frees its engine and raises
UNIT of its tile, after which bundles that waited are dispatched. From R475 to R480, R482: the Flashing engine. A message that
ends is finished after the blocks of it and of other running contexts, each in its turn. What the spec leaves open here is
decided as log entries 69, 120, 255 say: the model's own choice or inference. -/
def Obligations.YelmAndFlashing : Prop :=
  (∀ (s : State) (n : Fin 4),
    (s.yelm.enable = true → s.yelm.jobs[n] = none → s.yPick n = none → exec (.yelmPoll n) s = .next s) ∧
    (∀ c, s.yelm.enable = true → s.yelm.jobs[n] = none → s.yPick n = some c → ∃ u, exec (.yelmPoll n) s = .next u ∧ ∃ j,
      u.yelm.jobs[n] = some j ∧ j.queue = c.queue.val ∧ j.slot = c.slot ∧ j.tile = c.tile ∧ j.planSlot = c.planSlot ∧
      j.since = s.time.ts ∧ u.yelm.lastQueue = c.queue.val ∧ (yBad j.desc = true → j.ended = some 0x2002)) ∧
    (s.yelm.jobs[n] = none → exec (.yelmJobDone n) s = .next s) ∧
    (∀ j, s.yelm.jobs[n] = some j → ∃ u : State, exec (.yelmJobDone n) s = .next u.pumpPlans ∧ u.yelm.jobs[n] = none ∧ u.yelm.read[n] = 0 ∧
      (∀ t, j.tile = some t → (u.tiles[t]).unitSrc.getLsbD 3 = true) ∧
      ∀ k : Fin 4, k ≠ n → u.yelm.jobs[k] = s.yelm.jobs[k])) ∧
  (∀ (s : State) (k : Fin 16) (ctrl value : Nat) (data : Word), s.ridgeActs = true →
    let x := s.flash.ctxs[k]
    let ctx := fun (i : Instr) (p : FCtx → Prop) => ∃ u, exec i s = .next u ∧ p u.flash.ctxs[k] ∧ u.mem = s.mem ∧
      ∀ j : Fin 16, j ≠ k → u.flash.ctxs[j] = s.flash.ctxs[j]
    (s.flash.alarms = 0 → x.state = .free → (∀ j : Fin 16, j < k → (s.flash.ctxs[j]).state ≠ .free) →
      exec .fdAlloc s = .next (s.modFlash fun f =>
        { f with ctxs := f.ctxs.set k { FCtx.reset with state := .set }, allocAnswer := k.val })) ∧
    (s.flash.alarms = 0 → (∀ j : Fin 16, (s.flash.ctxs[j]).state ≠ .free) → ∃ u, exec .fdAlloc s = .next u ∧
      u.flash = { s.flash with allocAnswer := 0x3002 * 65536 } ∧ u.ro 0x2E00 4 = s.ro 0x2E00 4 + 1) ∧
    (s.flash.alarms ≠ 0 → exec .fdAlloc s = .next (s.modFlash fun f => { f with allocAnswer := 0x5005 * 65536 })) ∧
    (exec (.fcFree k) s = .next (s.modFlash fun f => { f with ctxs := f.ctxs.set k FCtx.reset })) ∧
    (x.state = .set → ctx (.fcKeyctl k value) (fun y =>
      y = { x with keyLen := value % 2 ^ 13, keyMem := value.testBit 16, keyWritten := true })) ∧
    (x.state ≠ .set → exec (.fcKeyctl k value) s = .next s) ∧
    (x.state = .set → ctrl.testBit 21 = false → ctrl % 4 = 0 → ctx (.fcStart k ctrl) (fun y => y.state = .failed ∧ y.code = 0x2002)) ∧
    (x.state = .set → ctrl.testBit 21 = false → s.fcRefuse k { x with ctrl := ctrl % 2 ^ 20 } ctrl = none → ctrl.testBit 2 = false →
      ctrl / 8 % 4 ≠ 1 → ctx (.fcStart k ctrl) (fun y => y.state = .running ∧ y.taken = [] ∧ y.ctrl = ctrl % 2 ^ 20)) ∧
    ((x.state = .done ∨ x.state = .failed) → ctrl.testBit 21 = false → exec (.fcStart k ctrl) s = .next s) ∧
    (x.state = .running → x.source = 0 →
      (x.taken.length < x.len → ctx (.fcData k data) (fun y => y = { x with taken := (x.taken ++ toLE 8 data.toNat).take x.len })) ∧
      (x.len ≤ x.taken.length → ctx (.fcData k data) (fun y => y.state = .failed ∧ y.code = 0x2009 ∧ y.digest = FCtx.reset.digest))) ∧
    (x.state = .running → x.taken.length = x.len → x.served < x.blocks →
      (∀ j : Fin 16, j ≠ k → (s.flash.ctxs[j]).state = .running → (s.flash.ctxs[j]).dest ≠ 1 ∧
        (s.flash.ctxs[j]).taken.length ≤ (s.flash.ctxs[j]).len ∧ (s.flash.ctxs[j]).served ≤ (s.flash.ctxs[j]).blocks) →
      let dig := if x.hmac then hmacAlg x.alg x.inUse x.taken else shaAlg x.alg x.taken
      let ends := fun (p : FCtx → Prop) => ∃ u, exec (.messageFinish k) s = .next u ∧ p u.flash.ctxs[k] ∧
        (u.flash.ctxs[k]).state = .done ∧ (u.flash.ctxs[k]).code = 0 ∧
        ∀ j : Fin 16, j ≠ k → (s.flash.ctxs[j]).state ≠ .running → u.flash.ctxs[j] = s.flash.ctxs[j]
      (x.dest = 0 → ends (fun y => y.digest = dig)) ∧
      (x.dest = 1 → s.ridgeReaches x.dst dig.length = true → ends (fun y => y.taken = [])) ∧
      (x.dest = 2 → ends (fun y =>
        y.compare = (if dig.take x.cmpLen = x.expect.take x.cmpLen then 1 else 2) ∧ y.expect = []))))

/-- From R494, R498, R29: configuration requests and BAR2. A read of configuration space answers its dword, a write captures the
bus number and answers with no bytes, a function that does not exist answers Unsupported Request; a BAR2 read inside the area
answers the area's bytes, 0 where none stands, and a BAR2 write is counted and discarded. From R495: when a vector's holdoff
ends, merged events send one message, and with none merged nothing is sent. What the spec leaves open here is decided as log
entries 4, 122, 151, 198, 199, 227 say: the model's own choice or inference. -/
def Obligations.ConfigurationBar2AndHoldoff : Prop :=
  (∀ (s : State) (f : FuncId) (i : InstId) (bus off n v : Nat) (data : Bytes),
    let p := funcPort f
    let at4 := off / 4 * 4
    ((s.host.ports[p]).linkUp = true → (s.host.funcs[f]).flrUntil ≤ s.time.ts →
      (s.funcExists f = true →
        (exec (.configRequest f bus off none) s = .next (s.emit (.reply f (some (toLE 4 (s.configRead f at4)))))) ∧
        (∃ u, exec (.configRequest f bus off (some v)) s = .next (u.emit (.reply f (some []))) ∧
          u = (s.modPort p fun h => { h with bus := bus % 256 }).configWrite f at4 (v % 2 ^ 32) ∧
          (at4 = 0x05C → (u.host.funcs[f]).msiData = v % 2 ^ 16 ∧ (u.host.ports[p]).bus = bus % 256 ∧
            ∀ g, g ≠ f → u.host.funcs[g] = s.host.funcs[g]))) ∧
      (s.funcExists f = false → exec (.configRequest f bus off none) s = .next (s.emit (.reply f none)))) ∧
    (s.barOpen f = true → (s.host.funcs[f]).inst = some i → off + n ≤ s.areaBytes i →
      exec (.bar2Read f off n) s = .next (s.emit (.reply f (some (nbytes (s.insts[i]).area off n))))) ∧
    (s.barOpen f = true → exec (.bar2Write f off data) s = .next (s.bump 0x3001 (0xF0 + f.val / 16) 1))) ∧
  (∀ (s : State) (f : FuncId) (vec : Fin 32),
    (bitAt (s.host.funcs[f]).merged vec.val = true → ∃ w, w = (s.advanceTo (ngetZ (s.host.funcs[f]).heldOff vec.val)).modFunc f (fun x =>
        { x with merged := x.merged &&& (2 ^ 32 - 1 - 2 ^ vec.val) }) ∧
      exec (.intHoldoffExpiry f vec) s = .next (w.sendVector f vec) ∧ bitAt (w.host.funcs[f]).merged vec.val = false) ∧
    (bitAt (s.host.funcs[f]).merged vec.val = false → exec (.intHoldoffExpiry f vec) s = .next s))

/-- From R489, R505 to R508, R511: links and freeze. An enabled port without a fault trains at the speed and width reported; a
link-down resets every function of the port and freezes it; an event on a port that is not RUNNING only counts in FREEZE_SEQ;
FREEZE_HOLD leads from FROZEN to SUSPENDED, and a release with the right FREEZE_SEQ back to RUNNING. From R499, R501, R503,
R504: the end of reach to a host, a function's reset, and the tags of a port. An error that AER logs, of a read that fails, is
logged at the function. What the spec leaves open here is decided as log entries 4, 114, 125, 126, 127, 151, 199, 221 say: the
model's own choice or inference. -/
def Obligations.PortEvents : Prop :=
  (∀ (s : State) (p : PortId) (f : FuncId) (cause speed width ltssm seq : Nat),
    let h := s.host.ports[p]
    (h.enable = true → h.fault = false → exec (.linkUp p speed width ltssm) s =
      .next (s.modPort p fun h => { h with linkUp := true, perst := false, speed := speed, width := width, ltssm := ltssm,
                                           degraded := decide (speed ≤ 2) })) ∧
    (h.linkUp = false → exec (.linkDown p cause) s = .next (s.modPort p fun h => { h with perst := h.perst || decide (cause = 3) })) ∧
    (h.linkUp = true → ∃ u, exec (.linkDown p cause) s = .next u ∧ (u.host.ports[p]).linkUp = false ∧ ∀ g, funcPort g = p →
      ∃ inst regs, u.host.funcs[g] = { HFunc.reset with inst := inst, regs := regs }) ∧
    (h.state ≠ .running → exec (.fatalError p) s = .next
      ((s.portCount p fun c => { c with uncorrectable := c.uncorrectable + 1 }).modPort p fun h =>
        { h with freezeSeq := (h.freezeSeq + 1) % 2 ^ 32 })) ∧
    (h.state = .running → ∃ u, exec (.fatalError p) s = .next u ∧ u = (s.portCount p fun c =>
      { c with uncorrectable := c.uncorrectable + 1 }).freezePort p 4) ∧
    (h.state = .frozen → ∃ u, exec (.freezeHoldExpiry p) s = .next u ∧ u = (s.advanceTo h.holdEnd).suspendPort p) ∧
    (p = funcPort f → seq < 2 ^ 32 →
      ((h.state = .running ∨ h.linkUp = false ∨ seq ≠ h.freezeSeq ∨ funcIndex f ≠ 0) → exec (.frzRelease f seq) s =
        .next (s.portCount p fun c => { c with releaseRefused := c.releaseRefused + 1 })) ∧
      (h.state ≠ .running → h.linkUp = true → seq = h.freezeSeq → funcIndex f = 0 → ∃ w, w = (portFuncs p).foldl (fun s g => s.flushPending g)
          ((s.modPort p fun h => { h with state := .running }).freezeCause p) ∧
        exec (.frzRelease f seq) s = .next ((w.portInsts p).foldl (fun s i => s.resumeInst i) w)))) ∧
  (∀ (s : State) (p : PortId) (f : FuncId) (tag status due till : Nat) (use : TagUse) (c : ChanId) (poisoned : Bool) (data : Bytes),
    let h := s.host.ports[p]
    let freed := s.modPort p fun h => { h with tags := ndel h.tags tag }
    ((s.host.funcs[f]).bme = true → exec (.busMasterEnableClear f) s =
      .next (((s.modFunc f fun x => { x with bme := false }).lostHost f stRevoked).instRecord f stRevoked)) ∧
    ((s.host.funcs[f]).bme = false → exec (.busMasterEnableClear f) s = .next s) ∧
    (funcIndex f ≠ 0 → ∃ u, exec (.functionLevelReset f) s = .next u ∧ ∃ inst until',
      u.host.funcs[f] = { HFunc.reset with inst := inst, flrUntil := until' }) ∧
    (p = funcPort f →
      (nget h.tags tag = none → exec (.completionReceived f tag status poisoned data) s =
        .next ((s.portCount p fun c => { c with unexpected := c.unexpected + 1 }).aerLog f 16)) ∧
      (nget h.tags tag = some (.quarantined till) → ∃ u, exec (.completionReceived f tag status poisoned data) s = .next u ∧
        (u.host.ports[p]).counters.late = h.counters.late + 1 ∧ (u.host.ports[p]).tags = h.tags) ∧
      (nget h.tags tag = some (.outstanding f (.chan c) due) → status = 0 → poisoned = false →
        exec (.completionReceived f tag status poisoned data) s = .next (freed.chanReturn c data).sweepMarked) ∧
      (nget h.tags tag = some (.outstanding f use due) → status ≠ 0 ∨ poisoned = true → use ≠ .gone →
        exec (.completionReceived f tag status poisoned data) s =
          .next ((if poisoned = true then freed.aerLog f 12 else freed).failRead use)) ∧
      (nget h.tags tag = some (.outstanding f .gone due) → poisoned = false →
        exec (.completionReceived f tag status poisoned data) s = .next (freed.bump 0x2801 5 1))) ∧
    (nget h.tags tag = some (.outstanding f use due) → ∃ u, exec (.completionTimeout p tag) s = .next u ∧
      u = (((((s.advanceTo due).modPort p fun h => { h with tags := nput h.tags tag (.quarantined (max s.time.ts due + s.cplTimeout p)) }).portCount
        p fun c => { c with timeouts := c.timeouts + 1 }).failRead use).aerLog f 14).timeoutRecord p f use) ∧
    (nget h.tags tag = some (.quarantined till) → exec (.quarantineEnd p tag) s =
      .next ((s.advanceTo till).modPort p fun h => { h with tags := ndel h.tags tag })))

/-- From R517 to R519: TASK_GO. Written 1 at a bound function in service with room, it queues one command with the words of the
function's registers and a receipt whose SRC8 is the instance; with no room it is ignored, counted, and LAST_STATUS says why.
From R521, R528: a command that one of checks 2 to 5 fails ends at once in one record with that check's code, whatever its
opcode, and one that R520 does not list ends with BAD_OPCODE. What the spec leaves open here is decided as log entries 26, 38,
53, 55, 129, 130, 131, 132, 133, 134, 135, 199, 209, 237 say: the model's own choice or inference. -/
def Obligations.TaskGoAndChecks : Prop :=
  (∀ (s : State) (f : FuncId) (i : InstId), (s.host.funcs[f]).inst = some i →
    let x := s.insts[i]
    let regs := (s.host.funcs[f]).regs
    (s.taskState f = 0 → ∃ u c, exec (.taskGo f 1) s = .next u ∧
      (u.insts[i]).queue = x.queue ++ [c] ∧ (u.insts[i]).commands = x.commands + 1 ∧ (u.insts[i]).power = 0 ∧
      c.word = regs.cmd ∧ c.tag = regs.tag ∧ c.args = regs.args.toList ∧ c.stage = .queued ∧ c.receipt.ts = s.time.ts ∧
      c.receipt.src = i.val ∧ (u.host.funcs[f]).regs.receipt = c.receipt ∧ (u.host.funcs[f]).regs.lastStatus = 0) ∧
    (s.taskState f ≠ 0 → exec (.taskGo f 1) s =
      .next ((s.modFunc f fun x => { x with regs := { x.regs with lastStatus := if s.taskFull f then 0x3005 else 0x3001 } }).modInst i fun x =>
        { x with goIgnored := x.goIgnored + 1 }))) ∧
  (∀ (s : State) (i : InstId) (c : Cmd) (code : Nat) (b b' : Bytes),
    (∀ x ∈ ([(0x01, .nop i), (0x02, .flush i), (0x03, .cancel i), (0x11, .alterTable i b), (0x12, .dropTable i),
        (0x20, .append i), (0x30, .runPlan i), (0x31, .releaseResult i), (0x38, .registerQuery i b b'), (0x39, .unregisterQuery i),
        (0x3A, .retargetQuery i b)] : List (Nat × Sys2Proof.Instr)),
      s.starts i x.1 c → s.precheck i c = some code → ∃ u, exec x.2 s = .next u ∧ Ended s u i c code c.d) ∧
    (s.creates i b c → s.precheck i c = some code → ∃ u, exec (.createTable i b) s = .next u ∧ Ended s u i c code c.d) ∧
    (s.startable i (fun c => !opcodes.contains c.opcode) = some c → s.cmd i c.receipt = some c →
      ∃ u, exec (.badOpcode i) s = .next u ∧ Ended s u i c 0x2001 c.d) ∧
    (c.word / 2 ^ 9 ≠ 0 → s.precheck i c = some 0x2002))

/-- From R520, R522, R525, R526: the commands that need nothing of the host. NOP and RELEASE_RESULT of a held result end with OK, a
release of anything else with BAD_ARGUMENT; FLUSH waits, with D0 the earlier writes of its instance, and ends once none is
left; CANCEL ends its targets, then itself with D0 their number. From R32, R527 to R531, R535: a Nail command whose conditions
hold ends NAILED; the oldest record goes to its slot of the completion ring, then PRODUCED + 1, each only once the read-back of
the one before has returned, and the record leaves after the last; an idle instance goes to DOZE and on to SLEEP. What the spec
leaves open here is decided as log entries 4, 130, 131, 132, 194, 201, 223 say: the model's own choice or inference. -/
def Obligations.PlainCommandsAndCompletion : Prop :=
  (∀ (s : State) (i : InstId) (c : Cmd),
    let held := fun (r : ResSet) => r.held && r.offset == c.arg 0
    let writes := ((s.insts[i]).queue.filter fun e => e.receipt.lt c.receipt && e.isWrite).length
    (s.goesOn i 1 c → ∃ u, exec (.nop i) s = .next u ∧ Ended s u i c 0 c.d) ∧
    (s.goesOn i 0x31 c → (s.insts[i]).resets.any held = true → ∃ u, exec (.releaseResult i) s = .next u ∧ Ended s u i c 0 c.d ∧
      (u.insts[i]).resets = (s.insts[i]).resets.filter fun r => !held r) ∧
    (s.goesOn i 0x31 c → (s.insts[i]).resets.any held = false →
      ∃ u, exec (.releaseResult i) s = .next u ∧ Ended s u i c 0x2002 c.d) ∧
    (s.goesOn i 2 c → ∃ u, exec (.flush i) s = .next u ∧
      u.cmd i c.receipt = some { c with stage := .running, d := #v[writes, 0, 0, 0] }) ∧
    (s.ridgeActs = true → (s.insts[i]).queue.find? (fun c => c.opcode == 2 && c.stage == .running) = some c →
      s.cmd i c.receipt = some c → s.afterKeepStamp c = false → s.writesBefore i c.receipt = [] →
      s.dict.commits.any (fun w => 2 ^ 24 ≤ w.key && w.source == .inst i) = false →
      ∃ u, exec (.flushComplete i) s = .next u ∧ Ended s u i c 0 c.d) ∧
    (s.goesOn i 3 c → exec (.cancel i) s =
      .next ((((((s.insts[i]).queue.filter c.selects).foldl (fun s e => s.abortCmd i e stAbortCancel) (s.noted c)).modInst i fun x =>
        { x with cancelled := x.cancelled + ((s.insts[i]).queue.filter c.selects).length }).setDetails i c.receipt
          ((s.insts[i]).queue.filter c.selects).length 0 0 0).complete i c.receipt stOk)) ∧
    (s.goesOn i 3 c → (s.insts[i]).queue.filter c.selects = [] →
      ∃ u, exec (.cancel i) s = .next u ∧ Ended s u i c 0 #v[0, 0, 0, 0])) ∧
  (∀ (s : State) (i : InstId) (c : Cmd) (seq answered : Nat) (r : CRec) (rest : List CRec) (f : FuncId),
    let x := s.insts[i]
    let g := (s.host.funcs[f]).regs
    (s.ridgeActs = true → s.cmdSeq i seq = some c → s.cmd i c.receipt = some c → c.nail = true → c.stage = .running → c.settled = true →
      ∃ u, exec (.nailComplete i seq) s = .next u ∧ Ended s u i c (if c.opcode = 0x20 then c.appendStatus else 0) c.d) ∧
    (x.records = r :: rest → s.hostReach i = .ok f → s.ridgeActs = true → bitAt g.cmplCfg 8 = true →
      (g.produced + 2 ^ 32 - g.consumed) % 2 ^ 32 < g.entries → r.result = [] →
      let slot := g.cmplBase / 4096 % 2 ^ 28 * 4096 + 128 * (g.produced % g.entries)
      let word := g.cmplIndex / 8 % 2 ^ 37 * 8
      let first : List Out := [.hostWrite f (s.hostAddr f slot) r.bytes, .hostRead f (s.hostAddr f ((slot + 127) / 64 * 64)) 64]
      let second : List Out := [.hostWrite f (s.hostAddr f word) (toLE 8 ((g.produced + 1) % 2 ^ 32)),
        .hostRead f (s.hostAddr f ((word + 7) / 64 * 64)) 64]
      (answered = 0 → exec (.completionRecordDelivery i answered) s = .next (s.modOuts (· ++ first))) ∧
      (answered = 1 → exec (.completionRecordDelivery i answered) s = .next (s.modOuts (· ++ first ++ second))) ∧
      (2 ≤ answered → ∃ u, exec (.completionRecordDelivery i answered) s = .next u ∧ (u.insts[i]).records = rest ∧
        (u.insts[i]).idleSince = s.time.ts ∧ (u.host.funcs[f]).regs.produced = (g.produced + 1) % 2 ^ 32 ∧
        bitAt (u.host.funcs[f]).regs.intCause 0 = true ∧ ∃ more, u.outs = s.outs ++ first ++ second ++ more)) ∧
    (x.state ≠ .free → x.power = 0 → x.idle = true → 1 ≤ s.deepest i → ∃ u, exec (.dozeEntry i) s = .next u ∧
      u.time.ts = max s.time.ts (x.idleSince + 1000000 * s.cfg (0x4010 + 0x100 * i.val) 1 10) ∧
      u.insts[i] = { x with power := 1, idleSince := u.time.ts }) ∧
    (x.power = 1 → x.idle = true → s.deepest i = 2 → s.batten.queries.any (fun q => q.2.inst == i.val) = false →
      ∃ u, exec (.sleepEntry i) s = .next u ∧
        u.time.ts = max s.time.ts (x.idleSince + 1000000 * s.cfg (0x4010 + 0x100 * i.val) 2 1000) ∧
        u.insts[i] = { x with power := 2, idleSince := u.time.ts }))

/-- From R67 to R72, R520: CREATE_TABLE with a permitted descriptor makes an empty table, ALTER_TABLE changes its RW fields and
leaves the tables besides, each ends with OK and its TABLE_ID without the Nail flag; DROP_TABLE makes the table a dropped one,
and it goes when no snapshot holds it. What the spec leaves open here is decided as log entries 26, 130, 131, 135, 237 say: the
model's own choice or inference. -/
def Obligations.TableCommands : Prop :=
  ∀ (s : State) (i : InstId) (c : Cmd) (desc : Bytes) (f : FuncId) (n id : Nat) (d : TableDesc) (t : Table),
    let len := c.arg 1 % 2 ^ 32
    let arrived := descCols len = some n ∧ s.hostReach i = .ok f ∧ len ≤ desc.length ∧ TableDesc.parse (desc.take len) = (d, n, true)
    (s.creates i desc c → s.precheck i c = none → arrived → d.owner = i.val → 0 < d.id → d.id < 0xFF00 → s.descOk d = true → s.tables.tables.length < 4096 →
      s.table d.id = none → c.nail = false →
      ∃ u, exec (.createTable i desc) s = .next u ∧ Ended s u i c 0 #v[d.id, 0, 0, 0] ∧ u.table d.id = some (Table.fresh d) ∧
        ∀ k, k ≠ d.id → u.table k = s.table k) ∧
    (s.goesOn i 0x11 c → arrived → c.arg 2 % 2 ^ 16 = id → s.table id = some t → s.tableDenied i id c.manager = none →
      d.sameFixed t.desc = true → s.descOk d = true → c.nail = false →
      ∃ u, exec (.alterTable i desc) s = .next u ∧ Ended s u i c 0 #v[id, 0, 0, 0] ∧ u.table id = some (t.alter d) ∧
        ∀ k, k ≠ id → u.table k = s.table k) ∧
    (s.goesOn i 0x12 c → c.arg 0 % 2 ^ 16 = id → s.tableDenied i id false = none → exec (.dropTable i) s =
      .next ((((s.noted c).modCmd i c.receipt fun c => { c with stage := .running }).startDrop id).finishDrops)) ∧
    (s.goesOn i 0x12 c → c.arg 0 % 2 ^ 16 = id → s.table id = none →
      ∃ u, exec (.dropTable i) s = .next u ∧ Ended s u i c 0x2002 c.d) ∧
    (s.table id = some t → t.dropping = true → s.tableFree id = true → exec (.tableDropComplete id) s =
      .next ((s.modTables fun ts =>
        { ts with tables := ndel ts.tables id, keepCatalogue := ts.keepCatalogue.filter (·.1 != id) }).finishDrops))

/-- From R108, R116 to R122, R143: an APPEND that passes R117 is pending from then on, and asks for its header once it reaches its
host and a tag is free; a header that agrees asks for the payload, one that does not ends the command; the payload whole is
staged per column and enters as one unit of rows, unless a value is not permitted. What the spec leaves open here is decided as
log entries 130, 131, 199, 239 say: the model's own choice or inference. -/
def Obligations.AppendStages : Prop :=
  ∀ (s s' : State) (i : InstId) (c : Cmd) (f : FuncId) (seq code : Nat) (header payload : Bytes) (rows : List (List Val)) (t : Table),
    let id := c.arg 1 % 2 ^ 16
    (s.goesOn i 0x20 c → s.isPending c = false → s.appendCheck i c = some code →
      ∃ u, exec (.append i) s = .next u ∧ Ended s u i c code c.d ∧
        (code = 0x3004 → u.ro 0x1082 4 = s.ro 0x1082 4 + 1)) ∧
    (s.goesOn i 0x20 c → (s.isPending c = true ∨ s.appendCheck i c = none) →
      let w := if s.isPending c then s.noted c else (s.noted c).modIngest fun g =>
        { g with appends := g.appends ++ [⟨c.receipt, id, s.time.ts, false⟩] }
      w.isPending c = true ∧ (s.hostReach i = .error none → exec (.append i) s = .next w) ∧
      (s.hostReach i = .ok f → w.askHost i f c.receipt.seq (c.arg 0) 64 = none → exec (.append i) s = .next w) ∧
      (s.hostReach i = .ok f → w.askHost i f c.receipt.seq (c.arg 0) 64 = some s' →
        exec (.append i) s = .next (s'.modCmd i c.receipt fun c => { c with stage := .reading 0 }))) ∧
    (s.readingCmd i seq 0x20 0 = some c → s.cmd i c.receipt = some c → s.hostReach i = .ok f →
      (headerCode c header = none → ∃ u, exec (.appendHeaderRead i seq header) s = .next u ∧
        u.cmd i c.receipt = some { c with stage := .reading 1, data := header.take 64 }) ∧
      (headerCode c header = some code → ∃ u, exec (.appendHeaderRead i seq header) s = .next u ∧ Ended s u i c code c.d)) ∧
    (s.readingCmd i seq 0x20 1 = some c → s.cmd i c.receipt = some c → s.hostReach i = .ok f →
      (payload.length < c.arg 3 % 2 ^ 32 → ∃ u, exec (.appendPayloadRead i seq payload) s = .next u ∧
        Ended s u i c 0x2008 #v[0, 0, payload.length, 0]) ∧
      (c.arg 3 % 2 ^ 32 ≤ payload.length → s.table id = some t → stagedRows t.desc c.rows (deinterleaved t.desc c.rows payload) = none →
        ∃ u, exec (.appendPayloadRead i seq payload) s = .next u ∧ Ended s u i c 0x2002 #v[0, 0, c.arg 3 % 2 ^ 32, 0] ∧
          (u.insts[i]).staging = []) ∧
      (c.arg 3 % 2 ^ 32 ≤ payload.length → s.table id = some t →
        stagedRows t.desc c.rows (deinterleaved t.desc c.rows payload) = some rows →
        ∃ w o, ((s.freeCmdTags i seq).putStaging i (deinterleaved t.desc c.rows payload)).enterUnit c.receipt ((rows.zip (List.range rows.length)).map fun (v, k) =>
            (id, (⟨⟨c.receipt.ts, c.receipt.src, (c.receipt.seq + 1 + k) % 2 ^ 24, c.receipt.tq⟩, v, 0⟩ : SRow))) = (w, o) ∧
          exec (.appendPayloadRead i seq payload) s =
            .next ((((w.modIngest fun g => { g with appends := g.appends.filter (·.receipt != c.receipt) }).setDetails i c.receipt
              (c.rows - o.dropped) (o.admitted + o.dropped * 2 ^ 32) (c.arg 3 % 2 ^ 32) 0).modCmd i c.receipt fun c =>
                { c with stage := .running, data := [] }).settleAppends)))

/-- From R176, R262, R284, R261, R520: RUN_PLAN asks for its image after check 1 of R176; a query's descriptor that does not pass
ends its REGISTER_QUERY; UNREGISTER_QUERY retires the query of its instance and RETARGET_QUERY replaces where its firings go.
What the spec leaves open here is decided as log entries 34, 38, 53, 55, 130, 131, 209 say: the model's own choice or
inference. -/
def Obligations.PlanAndQueryCommands : Prop :=
  ∀ (s s' : State) (i : InstId) (c : Cmd) (f : FuncId) (q : Query) (desc image : Bytes),
    let d := QDesc.parse (desc.take 256)
    (s.goesOn i 0x30 c → imageSizeOk (c.arg 1 % 2 ^ 32) = true → s.planAreaFree i (c.arg 1 % 2 ^ 32) = true → s.hostReach i = .ok f →
      (s.noted c).askHost i f c.receipt.seq (c.arg 0) (c.arg 1 % 2 ^ 32) = some s' →
      exec (.runPlan i) s = .next (s'.modCmd i c.receipt fun c => { c with stage := .reading 0 })) ∧
    (s.goesOn i 0x30 c → (imageSizeOk (c.arg 1 % 2 ^ 32) = false ∨ s.planAreaFree i (c.arg 1 % 2 ^ 32) = false) →
      exec (.runPlan i) s = .next ((s.noted c).refusePlan i c.receipt 0x2002 noOffset)) ∧
    (s.goesOn i 0x38 c → s.hostReach i = .ok f →
      (desc.length < 256 → ∃ u, exec (.registerQuery i desc image) s = .next u ∧ Ended s u i c 0x2008 c.d) ∧
      (256 ≤ desc.length → imageSizeOk d.imageBytes = true → s.planAreaFree i d.imageBytes = true →
        ((s.noted c).countHit i d.imageBytes image).checkImage i d.imageBytes true image true = none → exec (.registerQuery i desc image) s =
          .next ((((s.noted c).countHit i d.imageBytes image).modCmd i c.receipt fun c =>
            { c with stage := .waiting, data := desc.take 256 ++ image.take d.imageBytes
                     reads := (parseImage (image.take d.imageBytes)).trefs.map (·.id)
                     planId := imgPlanId (image.take d.imageBytes) }).admitPlans))) ∧
    (s.goesOn i 0x39 c →
      (s.ownQuery i (c.arg 0) = none → ∃ u, exec (.unregisterQuery i) s = .next u ∧ Ended s u i c 0x2004 c.d) ∧
      (s.ownQuery i (c.arg 0) = some q → exec (.unregisterQuery i) s =
        .next ((((s.noted c).retireQuery (c.arg 0) 0).setDetails i c.receipt (c.arg 0) 0 0 0).complete i c.receipt 0))) ∧
    (s.goesOn i 0x3A c → s.hostReach i = .ok f → s.ownQuery i (c.arg 1) = some q → 256 ≤ desc.length →
      retargetDescOk (desc.take 256) = true → ((s.plan q.planSlot).map (·.claims.resultBytes)).getD 0 + 128 ≤ d.ringBytes / 2 →
      ∃ u, exec (.retargetQuery i desc) s = .next u ∧ Ended s u i c 0 #v[c.arg 1, 0, 0, 0] ∧
        u.batten.queries = nmod s.batten.queries (c.arg 1) fun q =>
          { q with ringAddr := d.ringAddr, ringBytes := d.ringBytes, indexAddr := d.indexAddr, vector := d.vector, held := false, rebound := false })

/-- From R575 to R577: the dictionary window. A READ answers the value, an INFO the object's description, a WRITE reaches the
checks of R567 with the value as DW_DATA holds it, and DW_GO at a BUSY window is only counted. From R567: a write that one of
the checks fails ends with its code and changes no object's value; one to a staged object waits for the boundary; one to a
plain object is applied at receipt. What the spec leaves open here is decided as log entries 146, 148, 199 say: the model's own
choice or inference. -/
def Obligations.WindowRequestsAndChecks : Prop :=
  (∀ (s : State) (f : FuncId) (src : Source) (r : ObjRow) (st type : Nat) (v : Bytes),
    let x := s.dict.windows[f]
    let n := bitsOf x.req 60 48
    let busy := ((s.stamp src.src8).2).modWindow f fun x => { x with busy := true, stamp := (s.stamp src.src8).1 }
    let answered := fun (u : State) (status type : Nat) (v : Bytes) => u.dict.windows[f] =
      { x with busy := false, stamp := (s.stamp src.src8).1, status := status, length := v.length, type := type, data := overlay x.data 0 v }
    (s.windowServes f src → x.reservedOk = true →
      (x.op = 1 → n = 0 → bitsOf x.req 39 32 = 0 → busy.readObj src x.key = (st, some (type, v)) →
        ∃ u, exec (.dwRead f) s = .next u ∧ answered u st type v) ∧
      (x.op = 3 → n = 0 → bitsOf x.req 39 32 = 0 → objRow x.key = some r →
        ∃ u, exec (.dwInfo f) s = .next u ∧ answered u 0 9 r.info) ∧
      (x.op = 2 → n ≤ 4096 → exec (.dwWrite f) s = .next (busy.dictSubmit
        { stamp := (s.stamp src.src8).1, source := src, key := x.key, value := padTo n x.data, node := 0, cycle := s.time.raft + 1,
          reply := .window f, applied := 0 } (bitsOf x.req 39 32)))) ∧
    (x.busy = true →
      (x.op = 1 → exec (.dwRead f) s = .next (s.bump 0x3061 5 1)) ∧ (x.op = 2 → exec (.dwWrite f) s = .next (s.bump 0x3061 5 1)) ∧
      (x.op = 3 → exec (.dwInfo f) s = .next (s.bump 0x3061 5 1)))) ∧
  (∀ (s : State) (w : DictWrite) (r : ObjRow) (type code : Nat),
    let t := s.journal (if (objBase (w.key / 256)).1 == 0x4000 && w.key % 256 == 3 then 4 else 3) w.stamp w.key
    (s.submitCode w.source w.key type w.value = some code → s.dictSubmit w type = t.finishWrite w code 0 ∧
      (s.dictSubmit w type).dict.vals = s.dict.vals) ∧
    (s.submitCode w.source w.key type w.value = none → objRow w.key = some r →
      (bitAt r.marks 1 = true → (s.dictSubmit w type).dict.staged = s.dict.staged ++ [w] ∧
        (s.dictSubmit w type).dict.vals = s.dict.vals) ∧
      (bitAt r.marks 1 = false → s.dictSubmit w type = t.applyWrite w r s.time.ts)) ∧
    (objRow w.key = none → s.submitCode w.source w.key type w.value = some 0x2002) ∧
    (objRow w.key = some r → r.access ≠ 0 → s.mayWrite w.source w.key r = false →
      s.submitCode w.source w.key type w.value = some 0x2004))

/-- From R152, R409, R507, R616, R631, R636, R637, R641, R670, R672, R676, R584: a value written through a window to a command
object has that object's action on the fields the value spells. From R637: ATTEST_NONCE makes its write wait for the report,
which signs the nonce, and a second one meanwhile is BUSY. What the spec leaves open here is decided as log entries 162, 227
say: the model's own choice or inference. -/
def Obligations.CommandObjectWrites : Prop :=
  (∀ (s : State) (f : FuncId) (src : Source), s.windowServes f src →
    let acts := fun (i : Sys2Proof.Instr) (index sub : Nat) (v : Bytes) (action : State → Nat × State) =>
      s.windowActs f src i index sub 17 v 3 false action
    let flag := fun (i : Sys2Proof.Instr) (index sub : Nat) (on : Bool) (action : State → State) =>
      s.windowActs f src i index sub 1 (toLE 1 on.toNat) 3 false fun t => (0, if on then action t else t)
    (∀ n bank priority key mask result valid, n < 2 ^ 16 → bank < 2 ^ 8 → priority < 2 ^ 8 → key < 2 ^ 64 → mask < 2 ^ 64 → result < 2 ^ 32 →
      acts (.mapEntry (.window f) n bank priority key mask result valid) 0x1840 2
        (toLE 2 n ++ toLE 1 bank ++ toLE 1 priority ++ toLE 8 key ++ toLE 8 mask ++ toLE 4 result ++ toLE 1 valid.toNat)
        fun t => (0, t.shadowEntry n bank priority key mask result valid)) ∧
    (∀ program off last (bytes : Bytes), program < 2 ^ 16 → off < 2 ^ 32 → bytes.length ≤ 4000 →
      acts (.programChunk (.window f) program off last bytes) 0x1840 3
        (toLE 2 program ++ toLE 4 off ++ toLE 1 last.toNat ++ toLE 2 bytes.length ++ bytes) fun t => t.shadowChunk program off last bytes) ∧
    (∀ port seq, seq < 2 ^ 32 →
      acts (.freezeRelease (.window f) port seq) 0x3020 (port.val + 1) (toLE 1 1 ++ toLE 4 seq) (fun t => t.freezeAction port 1 seq) ∧
      acts (.suspendNow (.window f) port seq) 0x3020 (port.val + 1) (toLE 1 2 ++ toLE 4 seq) fun t => t.freezeAction port 2 seq) ∧
    (∀ kind, kind < 2 ^ 8 →
      acts (.fwStageBegin (.window f) kind) 0x0210 1 (toLE 1 1 ++ toLE 1 kind) (fun t => t.fwBegin kind) ∧
      acts (.fwStageEnd (.window f) kind) 0x0210 1 (toLE 1 2 ++ toLE 1 kind) (fun t => t.fwEnd kind) ∧
      acts (.fwStageAbandon (.window f) kind) 0x0210 1 (toLE 1 3 ++ toLE 1 kind) (fun t => t.fwAbandon kind) ∧
      ∀ off (bytes : Bytes), off < 2 ^ 32 → bytes.length ≤ 4000 → acts (.fwChunk (.window f) kind off bytes) 0x0210 2
        (toLE 1 kind ++ toLE 4 off ++ toLE 2 bytes.length ++ bytes) fun t => t.fwChunk kind off bytes) ∧
    (∀ target index, target < 2 ^ 8 → index < 2 ^ 8 → acts (.selfTest (.window f) target index) 0x3C11 1 (toLE 1 target ++ toLE 1 index)
      fun t => t.selfTestStart target index) ∧
    (∀ on, flag (.trainReset (.window f) on) 0x1012 3 on (fun t => t.modDram fun d => { d with trainReset := true }) ∧
      flag (.stepReset (.window f) on) 0x0202 2 on State.askStepReset ∧ flag (.traceRearm (.window f) on) 0x3C20 4 on State.traceRearm ∧
      flag (.availReset (.window f) on) 0x3C30 2 on State.availReset) ∧
    (∀ bits, bits < 2 ^ 16 → s.windowActs f src (.alertClear (.window f) bits) 0x3821 2 7 (toLE 2 bits) 3 false fun t => (0, t.alertW1C bits)) ∧
    (∀ digest : Bytes, digest.length = 32 →
      s.windowActs f src (.measureExtend (.window f) digest) 0x0120 4 16 digest 3 false fun t => t.measureExtend digest) ∧
    (∀ (slot : Fin 8) node rights (key : Bytes), node < 2 ^ 16 → rights < 4 → key.length = 32 →
      s.windowActs f src (.plynKey (.window f) slot node rights key) 0x2E10 (slot.val + 1) 17
        (toLE 2 node ++ toLE 1 rights ++ toLE 2 32 ++ key) 3 true fun t =>
          (0, t.setPlynKey slot (toLE 2 node ++ toLE 1 rights ++ toLE 2 32 ++ key)))) ∧
  (∀ (s : State) (f : FuncId) (src : Source) (nonce : Bytes), s.windowServes f src → nonce.length = 32 →
    let w := s.windowWrite f src 0x0120 1 nonce
    let t := (s.windowBusy f src 0x0120 1 16 nonce).journal 3 w.stamp w.key
    t.submitCode src w.key 16 nonce = none →
    (s.boot.attest = none → ∃ u, exec (.attestNonce (.window f) nonce) s = .next u ∧
      u.boot.attest = some (nonce, { w with applied := t.time.ts }) ∧ (u.dict.windows[f]).busy = true) ∧
    (s.boot.attest ≠ none → ∃ u, exec (.attestNonce (.window f) nonce) s = .next u ∧ u.boot.attest = s.boot.attest ∧
      (u.dict.windows[f]).busy = false ∧ (u.dict.windows[f]).status = 0x3001))

/-- From R552, R543, R545, R546, R550, R555, R559: CONTROL, MB_SEND and MB_RECEIVE_ACK written through a window have their actions,
and an action that finds its instance in another state than R552 names ends with WRONG_STATE and changes nothing. From R552:
the states from which the CONTROL actions are taken; from any other the action ends with WRONG_STATE and changes nothing. From
R543, R553 to R555: MB_OUT_ACK takes the displayed message away, and where none is displayed does nothing; MB_IN_POST queues
one message for the manager with its length, kind and body, and counts what it cannot queue. What the spec leaves open here is
decided as log entries 136, 137, 138 say: the model's own choice or inference. -/
def Obligations.InstanceControlAndMailbox : Prop :=
  (∀ (s : State) (f : FuncId) (src : Source) (i : InstId), s.windowServes f src →
    let base := 0x4000 + 0x100 * i.val
    let control := fun (c : Sys2Proof.Instr) (action port fn flags : Nat) (to' : State → Nat × State) =>
      s.windowActs f src c base 3 17 (toLE 1 action ++ toLE 1 port ++ toLE 1 fn ++ toLE 1 flags) 4 false to'
    control (.create (.window f) i) 1 0 0 0 (fun t => t.instCreate i) ∧
    (∀ drop, control (.destroy (.window f) i drop) 2 0 0 (2 * drop.toNat) fun t => t.instDestroy i drop) ∧
    (∀ port fn restore, port < 2 ^ 8 → fn < 2 ^ 8 →
      control (.bind (.window f) i port fn restore) 3 port fn restore.toNat fun t => t.instBind i port fn restore) ∧
    control (.unbind (.window f) i) 4 0 0 0 (fun t => t.instUnbind i) ∧ control (.freeze (.window f) i) 5 0 0 0 (fun t => t.instFreeze i) ∧
    control (.thaw (.window f) i) 6 0 0 0 (fun t => t.instThaw i) ∧
    control (.reset (.window f) i) 7 0 0 0 (fun t => t.instManagerReset i) ∧
    (∀ kind (body : Bytes), kind < 2 ^ 16 → body.length ≤ 416 → s.windowActs f src (.mbSend (.window f) i kind body) (base + 3) 1 17
      (toLE 2 kind ++ toLE 2 body.length ++ body) 3 false fun t => t.mailSend i (s.stamp src.src8).1 kind body) ∧
    (∀ on, s.windowActs f src (.mbReceiveAck (.window f) i on) (base + 3) 3 1 (toLE 1 on.toNat) 3 false fun t =>
      (0, if on then t.mailTaken i else t))) ∧
  (∀ (s : State) (i : InstId) (port fn : Nat) (b : Bool),
    let st := (s.insts[i]).state
    (st ≠ .free → s.instCreate i = (0x2006, s)) ∧ (st ≠ .unbound → s.instDestroy i b = (0x2006, s)) ∧
    (st ≠ .unbound → port ≤ 3 → fn ≤ 15 → s.instBind i port fn b = (0x2006, s)) ∧
    (st ≠ .bound → s.instFreeze i = (0x2006, s)) ∧ (st = .free ∨ st = .unbound ∨ st = .freezing → s.instUnbind i = (0x2006, s)) ∧
    (st ≠ .frozen → st ≠ .suspended → s.instThaw i = (0x2006, s)) ∧ (st = .free → s.instManagerReset i = (0x2006, s)) ∧
    (st = .freezing → (s.hostChans i).all (fun c => (s.gutter.chans[c]).state == .paused) = true →
      ((s.insts[i]).unbinding = false → exec (.instanceDrained i) s = .next (s.modInst i fun x => { x with state := .frozen })) ∧
      ((s.insts[i]).unbinding = true → exec (.instanceDrained i) s = .next (s.unbindNow i)))) ∧
  (∀ (s : State) (f : FuncId) (i : InstId) (value : Nat), (s.host.funcs[f]).inst = some i →
    let x := s.insts[i]
    let len := value % 2 ^ 16
    let kind := value / 2 ^ 16 % 2 ^ 16
    (∀ m rest, x.outbox = m :: rest → x.state = .bound → ∃ u, exec (.mbOutAck f 1) s = .next u ∧ (u.insts[i]).outbox = rest ∧ (u.insts[i]).inbox = x.inbox) ∧
    (x.outbox = [] ∨ value ≠ 1 ∨ x.state ≠ .bound → exec (.mbOutAck f value) s = .next s) ∧
    (len ≤ 512 → 0x100 ≤ kind → x.inbox.length < 8 → ∃ u, exec (.mbInPost f value) s = .next u ∧
      u.insts[i] = { x with inbox := x.inbox ++ [⟨(s.stamp i.val).1, kind, i.val, padTo len (s.host.funcs[f]).mbIn⟩] }) ∧
    (512 < len ∨ kind < 0x100 ∨ 8 ≤ x.inbox.length → exec (.mbInPost f value) s =
      .next (s.modInst i fun x => { x with mbDropped := x.mbDropped + 1 })))

/-- From R581 to R583: the oldest Plyn request, once fresh, is answered: a READ with the fragments of the value, an INFO with the
object's description, a WRITE of one message by the checks of R567; a stale one is answered AUTH_FAILED and counted. What the
spec leaves open here is decided as log entries 144, 148, 150, 154, 199 say: the model's own choice or inference. -/
def Obligations.PlynRequests : Prop :=
  ∀ (s s' : State) (p : PlynIn) (rest : List PlynIn) (r : ObjRow) (st type : Nat) (v : Bytes), s.dict.plynIn = p :: rest → s.ridgeTakes = true →
    let taken := s.modDict fun d => { d with plynIn := rest }
    let fresh := taken.plynFresh p = some s' ∧ p.reservedOk = true
    let mayRead := (s'.dict.slots[p.slot]).rights % 4 ≠ 0
    (p.kind = 1 → fresh → mayRead → s'.readObj p.source p.key' = (st, some (type, v)) →
      exec .plynRead s = .next (((p.fragments type v).foldl State.plynReply s').readClears p.key') ∧
      ((p.fragments type v).foldl State.plynReply s').dict.replies = s'.dict.replies ++ p.fragments type v) ∧
    (p.kind = 3 → fresh → mayRead → objRow p.key' = some r → exec .plynInfo s = .next (s'.plynReply (p.reply 0 9 0 8 true r.info))) ∧
    (p.kind = 2 → fresh → p.offset = 0 → p.last = true → p.length = p.total → p.length ≤ 1408 →
      (s'.dict.slots[p.slot]).assembly = none → exec .plynWrite s = .next (s'.plynSubmit p ((p.bytes.drop 32).take p.length))) ∧
    (taken.plynFresh p = none → ∀ x ∈ ([(1, .plynRead), (2, .plynWrite), (3, .plynInfo)] : List (Nat × Sys2Proof.Instr)), p.kind = x.1 →
      exec x.2 s = .next ((taken.bump 0x3061 3 1).plynStatus p 0x5004))

/-- From R578, R582, R583, R585, R589, R572: fragments that stop, replies that leave, the field ports and the persistent store.
From R564, R580, R581: a write through an authenticated Plyn slot reaches the same checks as one through a window, with the
slot and its port as its source. What the spec leaves open here is decided as log entries 153, 154, 199, 240 say: the model's
own choice or inference. -/
def Obligations.PlynEventsAndWrites : Prop :=
  (∀ (s : State) (slot : Fin 8) (a : Assembly) (port : Fin 6) (r : PlynReply) (n : Fin 2) (frame : Bytes) (w : DictWrite)
    (rest : List DictWrite) (present : Bool),
    ((s.dict.slots[slot]).assembly = some a → ∃ u, exec (.fragmentTimeout slot) s = .next u ∧ u.time.ts = max s.time.ts (a.lastAt + 100000001) ∧
      (u.dict.slots[slot]).assembly = none ∧ ∃ q, u.dict.replies = s.dict.replies ++ [q] ∧ q.status = 0x2002 ∧ q.kind = 0x82 ∧ q.xid = a.xid) ∧
    (s.dict.replies.find? (·.peer.port == port.val) = some r →
      (∀ h : port.val < 4, exec (.plynReplyTransmit port) s =
        .next ((s.modDict fun d => { d with replies := eraseFirst (· == r) d.replies }).emit (.eaveFrame ⟨port.val, h⟩ (s.replyFrame r)))) ∧
      (∀ m : Fin 2, port.val = 4 + m.val → s.cfgBool (0x3150 + m.val) 1 false = true → s.dict.fieldStopped[m] = false →
        exec (.plynReplyTransmit port) s = .next (((s.modDict fun d =>
          { d with replies := eraseFirst (· == r) d.replies }).emit (.fieldFrame m.val (s.replyFrame r))).bump (0x3158 + m.val) 2 1))) ∧
    (s.cfgBool (0x3150 + n.val) 1 false = true → s.dict.fieldStopped[n] = false →
      exec (.fieldPortFrame n frame false) s = .next (s.bump (0x3158 + n.val) 3 1) ∧
      (60 ≤ frame.length → frame.length ≤ 1518 → s.plynFor frame = true →
        exec (.fieldPortFrame n frame true) s = .next ((s.bump (0x3158 + n.val) 1 1).plynFrame (4 + n.val) frame s.time.ts))) ∧
    (exec (.plcaBeacon n present) s = .next (s.modDict fun d => { d with plcaActive := d.plcaActive.set n present })) ∧
    (s.ridgeActs = true → s.dict.commits = w :: rest → w.key < 2 ^ 24 → ∃ u, exec .persistentCommit s = .next u ∧ u.dict.commits = rest ∧
      nget u.dict.store w.key = some ((s.modDict fun d => { d with commits := rest }).commitValue w))) ∧
  (∀ (s : State) (slot : Fin 8) (port : Fin 6) (xid index sub type : Nat) (v : Bytes), (s.dict.slots[slot]).key.isEmpty = false →
    s.ridgeTakes = true → index < 2 ^ 16 → sub < 2 ^ 8 → type < 2 ^ 8 → v.length ≤ 4096 → xid < 2 ^ 32 →
    let k := s.dict.slots[slot]
    let src : Source := .plyn slot (plynSrc port.val)
    (s.objWrite (.plyn slot port xid) index sub type v = (s.stamp (plynSrc port.val)).2.dictSubmit
      { stamp := (s.stamp (plynSrc port.val)).1, source := src, key := objKey index sub, value := v, node := k.node % 2 ^ 16,
        cycle := s.time.raft + 1, reply := .plyn slot ⟨port.val, k.peer.mac, k.peer.tci⟩ (k.node % 2 ^ 16) xid index sub k.key, applied := 0 } type) ∧
    ∀ on, exec (.traceRearm (.plyn slot port xid) on) s = .next (s.objWrite (.plyn slot port xid) 0x3C20 4 1 (toLE 1 on.toNat)))

/-- From R592, R596 to R598, R606, R608, R612: what the two Ridges send. A heartbeat of the cycle counts, another is ignored and
counted; a checkpoint whose CRC agrees is taken by a standby that acknowledges, with an ACK frame; an ACK of it moves the
replay start of the journal up to it; HEALTH publishes the standby's state; SYNC completes the image of a Ridge that is
SYNCING. From R592, R593, R605, R607, R612, R613: what befalls a Ridge. Ten milliseconds after its failure it is tested again,
or stays off past the limit; a passed test makes the standby SYNCING, a failed one a failure; an hour of service clears its
count; a failed periodic test, like a lockstep mismatch, fails the standby; the hold-off ends in the wait for a boundary. What
the spec leaves open here is decided as log entries 4, 158, 160, 200, 227, 244 say: the model's own choice or inference. -/
def Obligations.RidgeMessagesAndLife : Prop :=
  (∀ (s : State) (r : Fin 2) (raft crc : Nat) (complete ok : Bool),
    let f := s.finial
    (s.ridgeActs = true → exec (.heartbeat s.time.raft) s = .next (s.modFinial fun x => { x with heartbeat := true })) ∧
    (s.ridgeActs = true → raft ≠ s.time.raft →
      exec (.heartbeat raft) s = .next (s.modFinial fun x => { x with heartbeatsIgnored := x.heartbeatsIgnored + 1 })) ∧
    (s.standby = some r → s.acknowledges r = true →
      (∀ i ∈ ([.checkpoint f.ckpt.crc, .handover f.ckpt.crc] : List Sys2Proof.Instr), (i = .handover f.ckpt.crc → f.handover = true) →
        ∃ (u : State) (st : Stamp), exec i s = .next (u.emit (.swayFrame (swayHeader 2 r f.ckpt.raft 0 f.ckpt.jseq f.ckpt.crc st))) ∧ st.src = 0x60 + r.val ∧
          (u.finial.ridges[r]).lastAck = f.ckpt.raft ∧ u.finial.ckpt = f.ckpt ∧ u.outs = s.outs) ∧
      (f.handover = false → exec (.handover crc) s = .next s) ∧
      (crc ≠ f.ckpt.crc → exec (.checkpoint crc) s = .next (s.standbyFails r 7)) ∧
      (f.ckpt.acked = false → f.handover = false → (f.ridges[r]).state = .ready → ∃ u, exec (.ack f.ckpt.raft f.ckpt.crc) s = .next u ∧
        u.finial.ckpt = { f.ckpt with acked := true } ∧ u.finial.ckptAcked = f.ckptAcked + 1 ∧ u.finial.ackJseq = f.ckpt.jseq ∧
        u.finial.holder = f.holder ∧ ∀ q : Fin 2, (u.finial.ridges[q]).lastAck = f.ckpt.raft) ∧
      (f.ckpt.acked = false → f.handover = true → f.fault = false → ∃ u, exec (.ack f.ckpt.raft f.ckpt.crc) s = .next u ∧ u.finial.holder = r.val + 1 ∧
        u.finial.handover = false)) ∧
    (s.standby = some r → (f.ridges[r]).state ≠ .off → (f.ridges[r]).state ≠ .failed → ∃ u v, exec (.health ok) s = .next u ∧
      nget u.dict.vals (objKey 0x3820 1) = some v ∧ fieldAt 16 1 v = r.val ∧ fieldAt 17 1 v = (f.ridges[r]).state.code % 256 ∧
      fieldAt 18 1 v = ok.toNat) ∧
    (s.standby = some r → (f.ridges[r]).state = .syncing →
      exec (.sync complete) s = .next (s.modRidge r fun k => { k with image := k.image || complete }))) ∧
  (∀ (s : State) (r : Fin 2) (march high : Bool) (code : Nat),
    let k := s.finial.ridges[r]
    let due := s.advanceTo (k.failedAt + 10000000)
    (k.state = .failed →
      (k.attempts < s.cfg 0x3803 3 3 → exec (.failedResetExpiry r) s = .next (due.modRidge r fun k => { k with state := .testing })) ∧
      (s.cfg 0x3803 3 3 ≤ k.attempts →
        exec (.failedResetExpiry r) s = .next ((due.modRidge r fun k => { k with state := .off }).loneFails r))) ∧
    (k.state = .testing → s.finial.fault = false →
      (exec (.ridgeSelfTestDone r false) s = .next ((s.ridgeFails r 6).loneFails r)) ∧
      (s.finial.lone = none → s.standby = some r → exec (.ridgeSelfTestDone r true) s =
        .next (s.modRidge r fun k => { k with state := .syncing, image := false, acks := 0 }))) ∧
    (k.state = .ready ∨ k.state = .active → exec (.repairCountClear r) s =
      .next ((s.advanceTo (k.readySince + 3600000000000)).modRidge r fun k => { k with attempts := 0 })) ∧
    (s.standby = some r → k.state ≠ .off → k.state ≠ .failed → exec (.standbySelfTest march true) s = .next (s.modRidge r fun k =>
      if march then { k with marchPasses := k.marchPasses + 1 } else { k with vectorRuns := k.vectorRuns + 1 })) ∧
    (s.standby = some r → k.state = .ready → s.finial.fault = false → s.finial.handover = false →
      exec (.lockstepMismatch r) s = .next ((s.ridgeFails r 3).loneFails r)) ∧
    (s.finial.ret = .holdoff → exec .revertHoldoffExpiry s =
      .next ((s.advanceTo s.finial.returnAt).modFinial fun x => { x with ret := .waiting })) ∧
    (∃ u, exec .finialMismatch s = .next u ∧ u.finial.fault = true ∧ bitAt u.finial.alert 3 = true) ∧
    (exec (.safeVetoN high) s = .next (s.modFinial fun x => { x with vetoLow := !high, vetoInCycle := x.vetoInCycle || !high })) ∧
    (s.active ≠ some r → exec (.selfFault r code) s = .next (s.modFinial fun x => { x with discarded := x.discarded + 1 })) ∧
    (s.standby.isSome = true → exec .standbyWriteDiscarded s = .next (s.modFinial fun x => { x with discarded := x.discarded + 1 })))

/-- From R602 to R604, R613: the active Ridge's failure while the other is READY. At the checkpoint's deadline with two missed
heartbeats, or at its own report, the token goes to the other Ridge, which takes up the queue, and the failed one is held in
reset; while a HANDOVER frame waits for its acknowledgement the failed one is restarted alone instead (R613). -/
def Obligations.TakeoverGrantsTheToken : Prop :=
  ∀ (s : State) (r : Fin 2) (code : Nat), s.active = some r → s.finial.fault = false →
    (s.finial.ridges[otherRidge r]).state = .ready →
    let goes := fun (i : Sys2Proof.Instr) => ∃ u, exec i s = .next u ∧ u.finial.holder = (otherRidge r).val + 1 ∧
      (u.finial.ridges[r]).state = .failed ∧ (u.finial.ridges[otherRidge r]).state = .active ∧
      u.finial.tokenSeq = (s.finial.tokenSeq + 1) % 2 ^ 32 ∧ bitAt u.finial.alert 0 = true
    let alone := fun (i : Sys2Proof.Instr) => ∃ u, exec i s = .next u ∧ u.finial.holder = 0 ∧ u.finial.lone = some r ∧
      (u.finial.ridges[r]).state = .failed ∧ u.finial.handover = false ∧ bitAt u.finial.alert 4 = true
    (s.finial.handover = false →
      (code % 2 ^ 16 ≠ 0 → goes (.selfFault r code)) ∧ goes (.lockstepMismatch r) ∧
      (s.finial.ckpt.acked = true → 2 ≤ (s.finial.ridges[r]).missed → goes .checkpointDeadline) ∧
      (s.finial.ckpt.acked = false → goes .checkpointDeadline)) ∧
    (s.finial.handover = true → (code % 2 ^ 16 ≠ 0 → alone (.selfFault r code)) ∧ alone (.lockstepMismatch r))

/-- From R9, R11, R24 to R26, R28, R29, R219, R495, R518, R530: register accesses. Through an open BAR0 a whole word goes into a
task register of a function that is not BUSY, 1s clear bits of INT_CAUSE, CMPL_BASE and CMPL_INDEX hold still while ENABLE is
1, and a closed BAR answers with an Unsupported Request; a read answers the words that stand there. In control space the active
Ridge's writes reach the block's registers, those of the standby are discarded and counted, both may read, and what is not
mapped or not permitted is a bus error. What the spec leaves open here is decided as log entries 117, 191, 192, 194, 197, 216,
227 say: the model's own choice or inference. -/
def Obligations.RegisterWrites : Prop :=
  ∀ (s s' : State) (f : FuncId) (n : Fin 8) (r : Fin 2) (off addr len : Nat) (parity : Bool) (data : Bytes), data.length = 8 →
    let v := leNat data
    let ridge := fun (off : Nat) => exec (.registerWrite (.ridge r (0x030000000000 + off) data)) s
    let host := fun (off : Nat) (g : InstRegs → InstRegs) =>
      exec (.registerWrite (.bar0 f off data)) s = .next (s.modFunc f fun x => { x with regs := g x.regs })
    (s.barOpen f = true →
      (s.taskBusy f = false → host 0x00 (fun r => { r with cmd := v }) ∧ host 0x08 (fun r => { r with tag := v }) ∧
        host (0x10 + 8 * n.val) fun r => { r with args := r.args.set n v }) ∧
      (∀ i, s.taskBusy f = true → (s.host.funcs[f]).inst = some i → exec (.registerWrite (.bar0 f 0 data)) s =
        .next (s.modInst i fun x => { x with writesDiscarded := x.writesDiscarded + 1 })) ∧
      host 0x100 (fun r => { r with intCause := r.intCause ^^^ (r.intCause &&& v % 2 ^ 6) }) ∧
      host 0x108 (fun r => { r with intEnable := v % 2 ^ 6 }) ∧ host 0x118 (fun r => { r with intHoldoff := v % 2 ^ 16 }) ∧
      host 0x200 (fun r => { r with obHigh := v % 2 ^ 24 }) ∧ host 0x88 (fun r => { r with consumed := v % 2 ^ 32 }) ∧
      (bitAt (s.host.funcs[f]).regs.cmplCfg 8 = false → host 0x70 (fun r => { r with cmplBase := v &&& 0xFFFFFFF000 }) ∧
        host 0x80 (fun r => { r with cmplIndex := v &&& 0xFFFFFFFFF8 })) ∧
      (bitAt (s.host.funcs[f]).regs.cmplCfg 8 = true → exec (.registerWrite (.bar0 f 0x70 data)) s = .next s)) ∧
    (s.barOpen f = false → exec (.registerWrite (.bar0 f off data)) s = .next (s.unsupported f)) ∧
    (s.active = some r → s.dram.managed ≤ 0x020000000000 →
      (ridge 0x100028 = .next (s.setHoldoff v)) ∧
      (ridge 0x500000 = .next (s.modGutter fun g => { g with enable := bitAt v 0 })) ∧
      (ridge 0x500018 = .next (s.modGutter fun g => { g with overrun := g.overrun ^^^ (g.overrun &&& v % 2 ^ 48) })) ∧
      (∀ b : Fin 8, (s.purlin.banks[b]).entries = [] → v % 4 ≠ 3 → ridge (0x800000 + 0x1000 * b.val) =
        .next (s.modBank b fun k => { k with width := v % 4, role := if k.bistFail then .free else bankRoleOf (v / 4),
                                              masked := bitAt v 4 && decide (v % 4 = 1), owner := bitsOf v 15 8,
                                              enable := bitAt v 16 }).purlinRetry) ∧
      (0xD00000 ≤ off → off < 0x1000000 → ridge off = .next (s.ridgeBusError r (0x030000000000 + off)))) ∧
    (s.standby = some r → ridge off = .next (s.modFinial fun x => { x with discarded := x.discarded + 1 })) ∧
    (s.active ≠ some r → s.standby ≠ some r → ridge off = .next s) ∧
    (s.barOpen f = true → exec (.registerWrite (.bar0Read f off len)) s =
      .next (s.emit (.reply f (some (bytesOfWords (s.bar0Word f) off len))))) ∧
    (s.barOpen f = false → exec (.registerWrite (.bar0Read f off len)) s = .next (s.unsupported f)) ∧
    (s.active = some r ∨ s.standby = some r →
      (s.ridgeMay r addr len false = false → exec (.registerWrite (.ridgeRead r addr len parity)) s = .next (s.ridgeBusError r addr)) ∧
      (∀ o, s.ridgeMay r addr len false = true → s.regionOf addr = .control o → exec (.registerWrite (.ridgeRead r addr len parity)) s =
        .next (s.emit (.ridgeData r addr (bytesOfWords s.controlWord o len)))) ∧
      (∀ d, s.ridgeMay r addr len false = true → addr < s.dram.managed → s.dram.managed ≤ 0x020000000000 → s.devRead addr len false = (some d, s') →
        exec (.registerWrite (.ridgeRead r addr len parity)) s = .next (s'.emit (.ridgeData r addr d))))

/-- From R40, R41: gPTP. A Sync for this time base is measured at once where it is one-step and the link delay is known, and a
two-step one at its Follow_Up, from its own reception; Announce names the grandmaster; the link delay is half the round trip
less what the partner held it; three intervals without a Sync bring HOLDOVER. What the spec leaves open here is decided as log
entries 4, 22, 170 say: the model's own choice or inference. -/
def Obligations.GptpMessages : Prop :=
  ∀ (s : State) (p : PortId) (dom seq origin gm t2 t3 t1 d : Nat) (log corr : Int) (w : SyncWait), s.gptpTakes p dom = true →
    (-5 ≤ log → log ≤ 0 →
      let rx := s.modTime fun t => { t with lastSync := t.ts, syncInterval := syncNs log }
      (s.time.linkDelay = some d → exec (.gptpSync p dom false seq log origin corr) s = .next (rx.measured (origin + corr + d - s.time.ts))) ∧
      (exec (.gptpSync p dom true seq log origin corr) s = .next (rx.modTime fun t => { t with syncWait := some ⟨seq, t.ts, corr⟩ }))) ∧
    (s.time.syncWait = some w → w.seq = seq → s.time.linkDelay = some d → exec (.gptpFollowUp p dom seq origin corr) s =
      .next ((s.modTime fun t => { t with syncWait := none }).measured (origin + w.corr + corr + d - w.rx))) ∧
    (exec (.gptpAnnounce p dom gm) s = .next (s.modTime fun t => { t with gmIdentity := gm % 2 ^ 64 })) ∧
    (exec (.pdelayReq p seq) s = .next (s.emit (.pdelayResp p seq s.time.ts))) ∧
    (s.time.pdelaySent = some t1 → t2 ≤ t3 → t1 + (t3 - t2) ≤ s.time.ts → exec (.pdelayResp p t2 t3) s = .next (s.modTime fun t =>
      { t with linkDelay := some ((s.time.ts - t1 - (t3 - t2)) / 2), pdelaySent := none })) ∧
    (exec .pdelayInterval s = .next (((s.advanceTo (s.time.pdelayLast + 1000000000)).modTime fun t =>
      { t with pdelaySent := some t.ts, pdelayLast := t.ts }).emit (.pdelayReq p))) ∧
    (s.time.state = .acquiring ∨ s.time.state = .locked → ∃ u, exec .syncTimeout s = .next u ∧ u.time.state = .holdover ∧
      u.time.lastChange = max s.time.ts (s.time.lastSync + 3 * s.time.syncInterval))

/-- From R40, R41: what a measured offset does. The eighth good Sync in a row locks, a large offset unlocks, an offset further
behind than SLEW gives BEHIND, a large forward one is to be stepped, and the trim never leaves ±200 ppm. What the spec leaves
open here is decided as log entries 12, 13 say: the model's own choice or inference. -/
def Obligations.OffsetsMoveTheTimeState : Prop :=
  ∀ (t : TimeSt) (lockTh stepTh slew ctr : Nat),
    (t.state = .acquiring → t.goodSyncs = 7 → t.offset.natAbs < lockTh → -(slew : Int) ≤ t.offset → (t.judge lockTh slew).state = .locked) ∧
    (t.state = .acquiring → t.offset < -(slew : Int) → (t.judge lockTh slew).state = .behind) ∧
    (t.state = .locked → 16 * lockTh < t.offset.natAbs → (t.judge lockTh slew).goodSyncs = 0 ∧
      (t.judge lockTh slew).state = if t.offset < -(slew : Int) then .behind else .acquiring) ∧
    (t.state = .unsynced ∨ t.state = .holdover → -(slew : Int) ≤ t.offset → (t.judge lockTh slew).state = .acquiring ∧
      (t.judge lockTh slew).goodSyncs = if t.offset.natAbs < lockTh then 1 else 0) ∧
    (t.state = .locked → t.offset.natAbs ≤ 16 * lockTh → t.judge lockTh slew = t) ∧
    ((stepTh : Int) < t.offset → (t.correct stepTh slew ctr).stepPending = some t.offset.toNat ∧ (t.correct stepTh slew ctr).trim = t.trim) ∧
    (t.offset ≤ (stepTh : Int) → (t.correct stepTh slew ctr).stepPending = none) ∧
    (t.offset ≤ (stepTh : Int) → -(slew : Int) ≤ t.offset →
      -trimLimit ≤ (t.correct stepTh slew ctr).trim ∧ (t.correct stepTh slew ctr).trim ≤ trimLimit) ∧
    (t.offset < -(slew : Int) → (t.correct stepTh slew ctr).trim = t.trim)

/-- From R46, R55 to R59: reserves and odometry. A reserve that is due is committed a fixed stretch ahead and stored, a failed
commit is only recorded; an ODO_TICK edge of the configured direction that is stable adds its millimetres to the distance, and
to the reverse distance where ODO_DIR says reverse. From R47 to R53, R692: boundaries and ticks. On the grid the next boundary
is one period after the last, or the next multiple of the period from PHASE; with RAFTER_IN an edge earlier than three quarters
of a period is counted only, and a quarter period after a missing edge the boundary is made; a tick falls at its share of the
period after the boundary. What the spec leaves open here is decided as log entries 4, 14, 15, 16, 19, 20, 21, 50, 199, 225,
254 say: the model's own choice or inference. -/
def Obligations.TimeEvents : Prop :=
  (∀ (s : State) (high dirStable : Bool),
    let mm := s.cfg 0x0404 1 0
    let rising := decide (s.cfg 0x0404 2 0 = 0)
    (s.ridgeActs = true → s.time.stepPending = none → s.time.tsReserve ≤ s.time.ts + 30000000000 → ∃ u,
      exec (.reserveCommit 0 true) s = .next u ∧ u.time.tsReserve = s.time.ts + 60000000000 ∧
      nget u.dict.store (objKey 0x0413 1) = some (toLE 8 (s.time.ts + 60000000000))) ∧
    (s.ridgeActs = true → s.time.distReserve ≤ mmOf s.time.dist + 5000000 → ∃ u,
      exec (.reserveCommit 1 true) s = .next u ∧ u.time.distReserve = mmOf s.time.dist + 10000000 ∧
      nget u.dict.store (objKey 0x0413 2) = some (toLE 8 (mmOf s.time.dist + 10000000))) ∧
    (s.ridgeActs = true → s.time.revReserve ≤ mmOf s.time.rev + 5000000 → ∃ u,
      exec (.reserveCommit 2 true) s = .next u ∧ u.time.revReserve = mmOf s.time.rev + 10000000 ∧
      nget u.dict.store (objKey 0x0413 3) = some (toLE 8 (mmOf s.time.rev + 10000000))) ∧
    (s.time.run = true →
      (∃ u, exec (.odoTick rising true high dirStable) s = .next u ∧ (0 < mm → u.time.dist = (s.time.dist + mm) % 2 ^ 64 ∧
        u.time.rev = if high = decide (s.cfg 0x0404 3 0 = 0) then s.time.rev else (s.time.rev + mm) % 2 ^ 64)) ∧
      (mm = 0 → exec (.odoTick rising true high true) s = .next (s.bump 0x0412 3 1)) ∧
      (exec (.odoTick rising false high dirStable) s = .next (s.bump 0x0412 3 1)) ∧
      (exec (.odoTick (!rising) true high dirStable) s = .next s))) ∧
  (∀ (s : State) (bytes crc : Nat), s.time.run = true →
    let t := s.time
    (t.edgeMode = false → t.lastKind ≠ .none → exec (.rafterBoundary bytes crc) s =
      .next ((s.advanceTo (t.lastBoundary + t.period)).rafterBoundary (t.lastBoundary + t.period) .grid bytes crc)) ∧
    (t.edgeMode = false → t.lastKind = .none → 0 < t.period → ∃ b, b % t.period = t.phase % t.period ∧ t.phase ≤ b ∧ t.ts ≤ b ∧
      (t.phase < b → b < t.ts + t.period) ∧ exec (.rafterBoundary bytes crc) s = .next ((s.advanceTo b).rafterBoundary b .grid bytes crc)) ∧
    (t.edgeMode = true → t.lastKind ≠ .none →
      (4 * (t.ts - t.lastBoundary) < 3 * t.period → exec (.rafterInEdge t.edgeFalling bytes crc) s = .next (s.bump 0x0412 1 1)) ∧
      (3 * t.period ≤ 4 * (t.ts - t.lastBoundary) → exec (.rafterInEdge t.edgeFalling bytes crc) s =
        .next (s.regularEdge.rafterBoundary t.ts .regular bytes crc)) ∧
      (∃ w, w = (((s.advanceTo (t.lastBoundary + 5 * t.period / 4)).bump 0x0412 2 1).modTime fun t =>
          { t with regularRun := 0, synthRun := t.synthRun + 1 }).rafterBoundary (t.lastBoundary + t.period) .synthetic bytes crc ∧
        exec (.syntheticBoundary bytes crc) s =
          .next (if w.time.source = 1 ∧ w.time.state = .edgeLocked ∧ 2 ≤ w.time.synthRun then w.enterHoldover else w))) ∧
    (t.lastKind ≠ .none → t.nextTick < 2 ^ t.tickExp →
      let due := t.tickBase + t.nextTick * t.period / 2 ^ t.tickExp
      exec .battenTick s = .next ((s.advanceTo due).issueTick t.nextTick due)) ∧
    (0 < t.period → t.raftAt (t.phase + 7 * t.period) = 7) ∧
    (0 < t.phase → t.phase ≤ t.period → t.raftAt 0 = 2 ^ 32 - 1))

/-- From R645, R648 to R651, R644: pitch, power and temperature. A change completes with the clock of the pitch in force; an idle
course is parked after AUTO_PARK; a power sample is recorded with the energy of each unit and never moves a Flat course, and a
course's energy goes to its one busy tile's bundle, or is unattributed (R653); a temperature sample below every trip point with
no trip set is recorded and changes nothing else. From R621, R670, R674: a self-test that ends passed leaves its target
initialised, one that fails takes it out of service; the availability counters are mirrored at each 60 s of powered time. What
the spec leaves open here is decided as log entries 4, 186, 187, 189 say: the model's own choice or inference. -/
def Obligations.PowerAndSelfTest : Prop :=
  (∀ (s : State) (c : CourseId) (power ms since : Nat) (energy : List Nat) (uses : List EnergyUse) (temps : List Int)
    (u16 : Fin 16) (i : Fin 8),
    let k := s.power.courses[c]
    let p := s.targetPitch c
    let v : Vector Int 16 := Vector.ofFn fun (k : Fin 16) => temps.getD k.val 0
    (k.changing = true → k.effective ≠ 3 → s.boot.visits = [] → exec (.pitchChangeDone c) s =
      .next (s.modCourse c fun k => { k with changing := false, effective := p, mhz := s.clockAt c p }).pumpPlans) ∧
    (k.idleSince = some since → s.cfg 0x0812 1 50 = ms → 0 < ms → k.assigned < 2 → k.effective ≠ 3 → k.changing = false → s.ridgeActs = true →
      s.courseNeeded c = false → exec (.policyPark c) s =
        .next (((s.advanceTo (since + 1000000 * ms)).modCourse c fun k => { k with policyPark := true }).startChange c)) ∧
    (s.boot.mainUp = true → s.dram.phase ≠ .inKeep → ∃ u, exec (.capSample power energy uses) s = .next u ∧ u.power.now = power ∧
      u.power.maxMw = max s.power.maxMw (10 * power) ∧ u.power.energy[u16] = (s.power.energy[u16] + (if u16.val = 14 then energy.getD 14 0 + energy.getD 15 0 else
        energy.getD (if u16.val = 15 then 16 else u16.val) 0)) % 2 ^ 64 ∧
      (uses = [] → (∀ t : TileId, (s.batten.tiles[t]).desc = none) → u.power.unattributed =
        s.power.unattributed + ((List.range 17).map fun k => energy.getD k 0).sum) ∧
      (uses = [] → (s.batten.tiles[tileOf c i]).state = .running → (s.batten.tiles[tileOf c i]).desc ≠ none →
        (∀ j : Fin 8, j ≠ i → (s.batten.tiles[tileOf c j]).desc = none) →
        (u.batten.tiles[tileOf c i]).energy = (s.batten.tiles[tileOf c i]).energy + ((energy.getD c.val 0 : Nat) : Rat)) ∧
      ∀ d : CourseId, (s.power.courses[d]).assigned = 2 → u.power.courses[d] = s.power.courses[d]) ∧
    (s.boot.mainUp = true → s.dram.phase ≠ .inKeep →
      (exec (.thermalSample temps) s = .next ((List.finRange 4).foldl (fun s k => s.tripStep (v.toList.foldl max (v[0])) k)
        (s.modPower fun p => { p with temps := v, tempMax := max p.tempMax (v.toList.foldl max (v[0])) }))) ∧
      ((∀ t : Fin 4, (s.power.trips[t]).set = false ∧ v.toList.foldl max (v[0]) < 16 * (s.tripPoint t : Int)) →
        exec (.thermalSample temps) s =
          .next (s.modPower fun p => { p with temps := v, tempMax := max p.tempMax (v.toList.foldl max (v[0])) })))) ∧
  (∀ (s : State) (t : SelfTest) (since : Nat), s.err.selfTest = some t → t.outcome = 0 →
    let ended := fun (n : Nat) => s.modErr fun e => { e with selfTest := some { t with outcome := n, durationUs := (s.time.ts - t.stamp.ts) / 1000 } }
    (exec (.selfTestDone true) s = .next ((ended 1).testPassed t.target t.index)) ∧
    (exec (.selfTestDone false) s = .next ((ended 2).fuseOff t.target t.index)) ∧
    (t.target = 2 → t.index < 16 → ∃ u, exec (.selfTestDone false) s = .next u ∧ bitAt u.boot.slicesOff t.index = true ∧
      (u.thatch.slices[Fin.ofNat 16 t.index]).fused = true ∧ (u.thatch.slices[Fin.ofNat 16 t.index]).powered = false) ∧
    (s.err.poweredSince = some since → s.ridgeActs = true → ∃ u, exec .availabilityMirror s = .next u ∧
      u.time.ts = max s.time.ts (since + 1000 * (60000000 - (s.err.poweredUs - s.err.mirrorAt))) ∧ u.err.mirrorPowered = u.err.poweredUs ∧
      u.err.mirrorOutage = u.err.outageUs ∧ u.err.mirrorAt = u.err.poweredUs))

/-- From R21, R71, R482, R668, R679, R680, R686: the alarm of a running clock domain and a voltage alarm clear the Flashing engine
and are contained; the last one's end ends the alarm; a brownout loses memory and the Keep, the loss of the standby supply all
but fuses, boot flash and what it holds (a drop that waited for a snapshot completes); a tamper event is latched. What the spec
leaves open here is decided as log entries 8, 112, 121, 190, 227, 250 say: the model's own choice or inference. -/
def Obligations.ElectricalEvents : Prop :=
  ∀ (s : State) (dom : Nat) (rail : Fin 8) (mv : Nat) (p : PortId) (locked : Bool),
    let k := mainRail rail
    (s.domainRuns dom = true → 0 < dom → dom ≤ 17 → bitAt s.boot.clockAlarms dom = false → ∃ scope id sev, clockScope dom = (scope, id, sev) ∧
      exec (.clockAlarm dom) s = .next ((((s.modBoot fun b => { b with clockAlarms := b.clockAlarms ||| 2 ^ dom }).raise srcFinial
        { ErrRec.blank with severity := sev, scope := scope, scopeId := id, event := 20, detail0 := dom }).flashAlarm 3).containClock dom)) ∧
    (s.domainRuns 17 = true → bitAt s.boot.clockAlarms 17 = false → ∃ u, exec (.clockAlarm 17) s = .next u ∧ u.time.run = false ∧
      bitAt u.boot.clockAlarms 17 = true ∧ bitAt u.flash.alarms 3 = true ∧ u.flash.cleared = true) ∧
    (s.boot.clockAlarms = 2 ^ dom → ∃ u, exec (.clockAlarmEnd dom) s = .next u ∧ u.boot.clockAlarms = 0 ∧
      bitAt u.flash.alarms 3 = false) ∧
    (s.boot.mainUp = true → bitAt s.boot.railsOut k.val = false → ∃ u, exec (.voltageAlarm rail mv) s = .next u ∧ u.boot.rails[k] = mv ∧
      u.boot.railAlarms[k] = s.boot.railAlarms[k] + 1 ∧ bitAt u.boot.railsOut k.val = true ∧ bitAt u.flash.alarms 2 = true) ∧
    (s.boot.railsOut = 2 ^ k.val → ∃ u, exec (.voltageAlarmEnd rail mv) s = .next u ∧ u.boot.rails[k] = mv ∧ u.boot.railsOut = 0 ∧
      bitAt u.flash.alarms 2 = false) ∧
    (s.boot.mainUp = true → ∃ u, exec (.brownout rail) s = .next u ∧ u.mem = [] ∧ u.boot.mainUp = false ∧ u.boot.mainEn = false ∧
      u.boot.brownouts = s.boot.brownouts + 1 ∧ u.dram.keepValid = false ∧ u.finial.alertForced = true ∧ u.finial.holder = 0 ∧
      u.dict.store = s.storeDropped) ∧
    (s.boot.standbyUp = true → ∃ u, exec .standbySupplyLoss s = .next u ∧ u.mem = [] ∧ u.boot.standbyUp = false ∧ u.time.sbRun = false ∧
      u.boot.fuses = s.boot.fuses ∧ u.boot.flash = s.boot.flash ∧ u.dict.store = s.storeDropped ∧ u.finial = State.reset.finial) ∧
    (s.boot.standbyUp = true → bitAt s.flash.alarms 5 = false → ∃ u, exec .tamperN s = .next u ∧
      u.boot.tamperEvents = s.boot.tamperEvents + 1 ∧ bitAt u.flash.alarms 5 = true ∧ u.flash.cleared = true) ∧
    (exec (.eaveBlockLock p locked) s = .next (s.modEave p fun e => { e with linkUp := locked }))

/-- From R617, R674, R681, R682, R684: what begins a start. The standby supply brings up the standby domain and MAIN_EN; the main
supplies begin a COLD start after a loss of the standby supply and a WAKE start otherwise; WAKE in the Keep begins one at once
where the rails are up and waits for them otherwise; RST_N is counted in the Keep and begins a WARM start outside it. From
R632, R637, R535: the drain of a Ridge activation ends with no command left to drain, or by ending those that are left, and the
activation goes on; an attestation report signs the nonce and the part's measurements and answers its write. What the spec
leaves open here is decided as log entries 4, 7, 165, 167, 248 say: the model's own choice or inference. -/
def Obligations.StartAndActivation : Prop :=
  (∀ (s : State) (pr : Option Provision) (passes : List StartEnv),
    (s.boot.standbyUp = false → ∃ u, exec (.coldStart pr) s = .next u ∧ u.boot.standbyUp = true ∧ u.boot.mainEn = true ∧ u.boot.mainUp = false ∧
      u.boot.halted = false ∧ u.time.sbRun = true ∧ u.err.poweredUs = s.err.mirrorPowered ∧ u.err.outages = s.err.mirrorOutages) ∧
    (s.boot.standbyUp = true → s.boot.mainUp = false →
      exec (.mainSuppliesInRange passes) s = .next (s.start (if s.dram.standbyLost then 0 else 1) passes)) ∧
    (∀ high, high = ((s.modBoot fun b => { b with wakeHigh := true }).modDram fun d => { d with wakeLowAt := none }) →
      (s.dram.phase ≠ .inKeep → exec (.wake true passes) s = .next high) ∧
      (s.dram.phase = .inKeep → s.boot.standbyUp = true → exec (.wake true passes) s = .next (high.start 1 passes) ∧
        exec (.wake false passes) s = .next (high.modBoot fun b => { b with wakePending := true }))) ∧
    (s.boot.standbyUp = true →
      (s.dram.phase = .inKeep → exec (.rstN passes) s = .next (s.modBoot fun b => { b with rstIgnored := b.rstIgnored + 1 })) ∧
      (s.dram.phase ≠ .inKeep → s.boot.mainUp = true → exec (.rstN passes) s = .next (s.start 2 passes))) ∧
    (s.boot.halted = true → s.start 0 passes = s)) ∧
  (∀ (s : State) (since : Nat) (nonce : Bytes) (w : DictWrite) (f : FuncId),
    (s.boot.activating = some (1, since) → s.ridgeActs = true → s.dram.phase = .out →
      ((∀ i : InstId, (s.insts[i]).queue.any (·.drains) = false) → exec .activationDrainExpiry s = .next (s.activateRidge since)) ∧
      (∀ i : InstId, (s.insts[i]).queue.any (·.drains) = true → exec .activationDrainExpiry s =
        .next (((List.finRange 64).foldl (fun s i => ((s.insts[i]).queue.filter (·.drains)).foldl (fun s c =>
          s.abortCmd i c 0x6003) s) (s.advanceTo (since + 1000000 * s.cfg 0x3040 1 200))).activateRidge since))) ∧
    (s.boot.attest = some (nonce, w) → ∃ u, exec .attestReportDone s = .next u ∧ u.boot.attest = none ∧
      (∃ body, body = ((s.stamp s.ridgeSrc).2.fresh).2.reportBody nonce (s.stamp s.ridgeSrc).1 ∧
        u.boot.report.take body.length = body ∧ u.boot.report.length = body.length + 384) ∧
      (w.reply = .window f → (s.dict.windows[f]).busy = true → (s.dict.windows[f]).stamp = w.stamp →
        (u.dict.windows[f]).busy = false ∧ (u.dict.windows[f]).status = 0)))

/-- From R219 to R226: a request of the active Ridge, or of a tile that may use the banks it names, to banks that execute requests
is executed at once and answered where its sender reads: a SEARCH or INSERT by the entry it finds or places, a WRITE by the
entry placed, an INVALIDATE by the entry removed, a READ with the key of its copy, a CLEAR by empty banks; a SEARCH of a bank
that executes none waits. A malformed request, and one to banks of another, are refused and change no entry. From R227 to R230,
R254: what the background compare meets, the rewriting of MAP entries, after which the requests that waited for it are taken
up, and the Hip units that sealing gives up. What the spec leaves open here is decided as log entries 56, 57, 58, 59, 62, 199
say: the model's own choice or inference. -/
def Obligations.PurlinRequestsAndUpkeep : Prop :=
  (∀ (s : State) (who : PWho) (q : PReq) (f : PFaults) (b : Fin 8) (e : PEntry),
    let k := s.purlin.banks[b]
    let key := keyUnits k.width q.key
    let banks := banksOf q.banks
    let sought := keyUnits (s.purlin.banks[banks.headD 0]).width q.key
    let agree := (s.pMatches banks sought).all (·.2.2.sound) = true
    let done := fun (u : State) (n : Nat) (r : PResp) (key : Option (List Nat)) => (u.bump 0x18C0 3 1).purlinAnswer who { q with op := n } r key
    let may := fun (q : PReq) => match who with
      | .ridge => s.ridgeActs = true
      | .tile t _ role => s.ownsBanks t role q = true
    let runs := fun (n : Nat) => may { q with op := n } ∧ s.pMalformed banks { q with op := n } = false ∧ s.pReady { q with op := n } = true
    (runs 1 → f.dead = [] → ∃ r u, s.pExecute { q with op := 1 } f = (r, none, u) ∧
      exec (.search who q f) s = .next (done u 1 r none)) ∧
    (runs 1 → f = ⟨[], []⟩ → agree → exec (.search who q f) s = .next (done s 1 (match s.pWinner banks sought with
      | some (n, i, e) => e.report 1 n i
      | none => PResp.zero) none)) ∧
    (runs 2 → f.dead = [] → ∃ r u, s.pExecute { q with op := 2 } f = (r, none, u) ∧
      exec (.insert who q f) s = .next (done u 2 r none)) ∧
    (runs 2 → q.replicate = false → f = ⟨[], []⟩ → agree → exec (.insert who q f) s = .next (match s.pWinner banks sought with
      | some (n, i, e) => done s 2 (e.report 1 n i) none
      | none => match banks.find? fun b => ((s.purlin.banks[b]).freeIndex).isSome with
        | none => done s 2 { PResp.zero with outcome := 3 } none
        | some b => done (s.modBank b fun k => { k with entries := nput k.entries (k.freeIndex.getD 0) (.of sought q.priority q.result) }) 2
            ⟨2, b.val, ((s.purlin.banks[b]).freeIndex).getD 0, q.result, q.priority, 0⟩ none)) ∧
    (banks = [b] →
      (runs 3 → exec (.write who q) s = .next (done (s.modBank b fun k =>
        { k with entries := nput k.entries q.index (.of key q.priority q.result) }) 3 ⟨2, b.val, q.index, q.result, q.priority, 0⟩ none)) ∧
      (runs 4 → nget k.entries q.index = some e → exec (.invalidate who q) s =
        .next (done (s.modBank b fun k => { k with entries := ndel k.entries q.index }) 4
          ⟨1, b.val, q.index, e.result, e.priority, 0⟩ none)) ∧
      (runs 5 → nget k.entries q.index = some e → exec (.read who q) s =
        .next (done s 5 ⟨1, b.val, q.index, e.result, e.priority, 0⟩ (some e.copy.key)))) ∧
    (runs 6 → exec (.clear who q) s = .next (done (banks.foldl (fun s b => s.modBank b fun k => { k with entries := [], awaiting := [] }) s) 6
      PResp.zero none).purlinRetry) ∧
    (may { q with op := 1 } → s.pMalformed banks { q with op := 1 } = false → s.pReady { q with op := 1 } = false →
      exec (.search who q f) s = .next (s.purlinWait who { q with op := 1 })) ∧
    (s.ridgeActs = true → s.pMalformed banks { q with op := 1 } = true → ∃ u, exec (.search .ridge q f) s = .next u ∧
      u.purlin.banks = s.purlin.banks ∧ u.purlin.response = { PResp.zero with status := 0x2002 }) ∧
    (∀ t tag, s.ownsBanks t .ingest { q with op := 1 } = false → ∃ u, exec (.search (.tile t tag .ingest) q f) s = .next u ∧
      u.purlin = s.purlin ∧ nget (u.tiles[t]).purlinResp tag.val = some { PResp.zero with status := 0x2004 })) ∧
  (∀ (s : State) (b : Fin 8) (idx : Nat) (e : PEntry) (m : MapEntry) (c : CourseId),
    (nget (s.purlin.banks[b]).entries idx = none → ∀ dead, exec (.purlinBackgroundCompare b idx dead) s = .next s) ∧
    (nget (s.purlin.banks[b]).entries idx = some e →
      (exec (.purlinBackgroundCompare b idx false) s = .next (s.falseHit b idx) ∧
        ((s.falseHit b idx).purlin.banks[b]).falseHits = (s.purlin.banks[b]).falseHits + 1) ∧
      ((s.purlin.banks[b]).role ≠ .planRole → ∃ u, exec (.purlinBackgroundCompare b idx true) s = .next u ∧
        (u.purlin.banks[b]).entries = ndel (s.purlin.banks[b]).entries idx ∧
        (u.purlin.banks[b]).uncorrectable = (s.purlin.banks[b]).uncorrectable + 1 ∧
        ((s.purlin.banks[b]).role = .mapRole → (u.purlin.banks[b]).awaiting = (s.purlin.banks[b]).awaiting ++ [idx]))) ∧
    (s.ridgeActs = true → (s.purlin.banks[b]).awaiting.contains idx = true → nget s.ingest.mapNow.entries (b.val * 65536 + idx) = some m →
      exec (.mapEntryRewrite b idx) s = .next ((s.bump 0x18C0 3 1).modBank b fun k =>
        { k with awaiting := k.awaiting.filter (· != idx), entries := nput k.entries idx (.of [m.key, m.mask] m.priority m.result) }).purlinRetry) ∧
    ((s.purlin.hipSeal[c]).isSome = true → s.batten.ready.any (fun r => r.desc.hip && bitAt r.desc.courses c.val) = true →
      exec (.sealHipYield c) s = .next ((s.modPurlin fun p => { p with hipSeal := p.hipSeal.set c none }).pumpPlans.bump 0x20C0 3 1)))

/-- R224, with the matching of R223: the winner of a search over banks is an entry of one of them, at an index in use, that matches
the key and agrees with its copy (R227, R229); none that matches has a lower PRIORITY, of those with the same it is one of the
lowest-numbered bank, and within it, where the bank's entries stand in rising order of index, the lowest index. Where nothing
is found nothing matches. -/
def Obligations.PurlinWinner : Prop :=
  ∀ (s : State) (mask : Nat) (key : List Nat),
    let hit := fun (b : Fin 8) (i : Nat) (e : PEntry) =>
      bitAt mask b.val = true ∧ (i, e) ∈ (s.purlin.banks[b]).entries ∧ e.hits (s.purlin.banks[b]).masked key = true ∧
      e.sound = true ∧ (s.purlin.banks[b]).retired.contains i = false
    match s.pWinner (banksOf mask) key with
    | some (n, i, e) => ∃ b : Fin 8, b.val = n ∧ hit b i e ∧ ∀ b' i' e', hit b' i' e' →
        e.priority < e'.priority ∨ (e.priority = e'.priority ∧
          (b.val < b'.val ∨ (b = b' ∧ (nsorted (s.purlin.banks[b]).entries = true → i ≤ i'))))
    | none => ∀ b i e, ¬ hit b i e

/-- From R292, R294, R306: a submission that the Batten takes is placed as the last of the ready bundles with the time of
submission and the next order number; one it refuses leaves them as they are; the result says which. From R311, R312, R320: an
INSERT takes the lowest free entry of its list and answers its number, BUSY, which is counted, with the list full, and
BAD_ARGUMENT for a malformed entry; a MOVE replaces DUE, a REMOVE frees the entry, and both answer BAD_ARGUMENT where there is
none. What the spec leaves open here is decided as log entries 48, 51, 67, 199, 214 say: the model's own choice or inference. -/
def Obligations.SubmissionsAndDelayLists : Prop :=
  (∀ (s : State) (desc : Bytes) (d : BDesc) (ok : Bool), s.ridgeActs = true → BDesc.parse (padTo 64 desc) = (d, ok) →
    let code := s.judgeSubmit d ok
    (∃ u : State, exec (.btSubmit desc) s = .next u.pumpPlans ∧ u.batten.submitResult = code ∧ u.batten.desc = padTo 64 desc ∧
      (code = 0 → ∃ r, u.batten.ready = s.batten.ready ++ [r] ∧ r.order = s.batten.orderNo ∧ r.saved = none ∧
        r.desc = { d with readyTs := s.time.ts, flat := s.flatOf d.courses }) ∧
      (code ≠ 0 → u.batten.ready = s.batten.ready)) ∧
    ((ok = false ∨ d.courses = 0 ∨ 8 < d.banks ∨ 65536 < d.rowCount ∨ d.depends ≠ 0) → code = 0x2002) ∧
    (code = 0 → s.heldDescs < 32768 ∧ s.holdsIdent d = false) ∧
    (∀ bySlot num, exec (.btPurge bySlot num) s =
      .next (((((s.batten.ready.map (·.desc) ++ s.batten.tiles.toList.filterMap (·.desc)).filter fun (d : BDesc) =>
        if bySlot then d.planSlot == num else d.inst == num).map (·.planSlot)).eraseDups.foldl (fun s k => s.endPlan k 0x6002)
          (s.purge fun d => if bySlot then d.planSlot == num else d.inst == num)).pumpPlans))) ∧
  (∀ (s : State) (entry : Bytes) (e : DEntry) (dist : Bool) (k due : Nat), s.ridgeActs = true →
    let staged := s.modBatten fun b => { b with delayStage := padTo 32 entry }
    let listOf := fun (s : State) (dist : Bool) => if dist then s.batten.distList else s.batten.timeList
    (DEntry.parse (padTo 32 entry) = none → exec (.delayInsert entry) s = .next (staged.delayAnswer 0x2002 0)) ∧
    (DEntry.parse (padTo 32 entry) = some e →
      (freeEntry (listOf s e.onDist) = none → exec (.delayInsert entry) s = .next ((staged.bump 0x2022 2 1).delayAnswer 0x3001 0)) ∧
      (freeEntry (listOf s e.onDist) = some k → (∃ u, exec (.delayInsert entry) s = .next u ∧ u.batten.delayResult = 0 ∧
        u.batten.delayResultEntry = k ∧ nget (listOf u e.onDist) k = some e ∧ listOf u (!e.onDist) = listOf s (!e.onDist)) ∧
        nget (listOf s e.onDist) k = none ∧ ∀ j, j < k → (nget (listOf s e.onDist) j).isSome = true)) ∧
    (s.delayAt dist k = some e → e.form = 0 →
      exec (.delayMove dist k due) s = .next ((s.modDelay dist fun l => nput l k { e with due := due, origDue := due }).delayAnswer 0 k)) ∧
    (s.delayAt dist k = some e → exec (.delayRemove dist k) s = .next ((s.modDelay dist fun l => ndel l k).delayAnswer 0 k)) ∧
    (s.delayAt dist k = none → exec (.delayMove dist k due) s = .next (s.delayAnswer 0x2002 k) ∧
      exec (.delayRemove dist k) s = .next (s.delayAnswer 0x2002 k)))

/-- From R298, R300, R302, R303, R349: what time and tiles report. A reservation and PREEMPT_AFTER_US expire at their due times; a
tile that does not accept within the pre-emption timeout, or does not yield within 8 µs, is reset; a tile runs once it
acknowledges its dispatch, the scratch below the monitor's zeroed where the instance is another (R329), and stands at rest once
its reset is done. From R295, R304, R305: the end of a bundle on a tile none of whose dirty lines is lost. YIELD returns it to
its list with its work as it stands; DONE with a code ends its plan with that code, and DONE with OK lets what depends on it go
on. What the spec leaves open here is decided as log entries 4, 40, 41, 44, 48, 68, 69, 199, 249, 253 say: the model's own
choice or inference. -/
def Obligations.BattenEventsAndBundleEnds : Prop :=
  (∀ (s : State) (t : TileId) (r : ReadyB),
    let y := s.batten.tiles[t]
    let limit := if s.courseFlat (courseOf t) then 3 else s.batten.preemptUs
    (s.batten.enable = true → oldest s.reservedBundles = some r → exec .reservationExpiry s =
      .next ((((s.advanceTo (r.desc.readyTs + 1000 * s.batten.affinityUs)).bump 0x2022 5 1).trace 10 0 r.desc 0 false).pumpPlans)) ∧
    (s.batten.enable = true → s.batten.prioPreempt = true → oldest (s.batten.ready.filter fun r => !r.desc.flat && r.raised.isNone) = some r →
      exec .preemptAfterExpiry s = .next ((s.advanceTo (r.desc.readyTs + 1000 * s.batten.preemptAfterUs)).pumpPlans)) ∧
    (y.state = .preempting → exec (.preemptionTimeout t) s = .next ((s.advanceTo (y.preemptAt + 1000 * limit)).timeoutReset t)) ∧
    (y.state = .saving → exec (.saveLimitExpiry t) s = .next ((s.advanceTo (y.preemptAt + 8000)).timeoutReset t)) ∧
    (y.state = .dispatching → s.courseUp (courseOf t) = true → y.run.ctx = false → ∃ u : State, exec (.dispatchAck t) s = .next u.pumpPlans ∧
      (u.batten.tiles[t]).state = .running ∧ (u.tiles[t]).pendDispatch = false ∧
      ∀ d, y.desc = some d → (u.batten.tiles[t]).lastInst = some d.inst ∧ (y.lastInst ≠ some d.inst →
        ∀ a, a < (s.tiles[t]).scrMon.toNat * 4096 → nget (u.tiles[t]).scratch a = none)) ∧
    (y.state = .resetting → ∃ u : State, exec (.tileResetDone t) s = .next u.pumpPlans ∧ (u.batten.tiles[t]).state = s.restState t ∧
      (u.tiles[t]).state = .monitor ∧ (u.tiles[t]).pc = (s.tiles[t]).resetPc)) ∧
  (∀ (s s' : State) (t : TileId) (d : BDesc) (status : Nat) (kernels : List KRes) (lost : List Nat),
    let y := s.batten.tiles[t]
    let clean := s'.l1CleanAll t
    let freed := fun (w : State) => (w.freeTile t (w.restState t)).modSched t fun z => { z with lastAffinity := some d.affinity }
    y.desc = some d → y.purged = false → s.dropDirty t lost = ([], s') →
    (∀ w : State, w = (((s'.l1CleanAll t).reedAbandon t).yelmLeave t 0x6001).spendEnergy t → (w.batten.tiles[t]).purged = false → y.state = .saving → ∃ z, z = ((((w.tileTo t (w.restState t)).modSched t fun z =>
        { z with lastAffinity := some d.affinity }).modSched t fun z =>
          { z with desc := none, run := .empty, reed := .reset, parking := false }).modTile t fun c => { c with pendPreempt := false }) ∧
      exec (.yield t lost) s = .next (((z.trace 5 t.val d 0 false).placeBundle d d.readyTs (some (w.batten.tiles[t]).order)
        (some ((w.batten.tiles[t]).run, (w.batten.tiles[t]).reed))).pumpPlans)) ∧
    (y.state = .running ∨ y.state = .preempting → (clean.plan d.planSlot).any (fun p => p.ended.isSome) = false →
      (status ≠ 0 → status ≠ stWindowFault → status ≠ stPoisoned → status ≠ stTileFault → status ≠ stStackLimit →
        exec (.done t status kernels lost) s =
          .next ((((freed ((clean.doneRecord d t.val status).trace 7 t.val d status false)).unitDone d).endPlan d.planSlot status).pumpPlans)) ∧
      (∀ w, status = 0 → ((clean.finishWork t kernels).batten.tiles[t]).run.failed = none → (clean.finishWork t kernels).commitBundle t = (none, w) →
        exec (.done t status kernels lost) s =
          .next (((freed ((w.doneRecord d t.val 0).trace 6 t.val d 0 false)).bundleCompleted d).pumpPlans))))

/-- From R176, R177, R263, R523: a read image is checked and waits; a waiting plan in order is judged once by the checks that need
the tables and the free space, accepted where the resources it claims are free (for a query, a CQ_ID too), and waits settled
where they are not. From R201, R205, R210: a Reed command scans the blocks it names that the bundle has left; one abandoned
drops the batches not handed over; a batch handed over is the first closed one, stands in the scratch, and passes to the
bundle's operators. What the spec leaves open here is decided as log entries 34, 36, 37, 38, 41, 42, 45, 80, 211, 227 say: the
model's own choice or inference. -/
def Obligations.PlanAdmissionAndReed : Prop :=
  (∀ (s : State) (i : InstId) (c : Cmd) (seq code off : Nat) (image : Bytes) (params : Option (List Nat)), s.ridgeActs = true →
    let settled := s.modCmd i c.receipt fun c => { c with settled := true }
    (s.waitingPlans = [] → exec .planAdmission s = .next s) ∧
    (s.waitingPlans = [(i, c)] → s.inOrder i c = true →
      (c.settled = false → s.lateCheck i c = some (code, off) → exec .planAdmission s = .next (s.refusePlan i c.receipt code off)) ∧
      (c.settled = true ∨ s.lateCheck i c = none →
        (s.canAllot i (parseImage c.image).claims = true → exec .planAdmission s = .next (if c.opcode ≠ 0x38 then s.acceptPlan i c else
          match s.queryRoom i with
          | some cq => s.acceptQuery i c cq
          | none => settled)) ∧
        (s.canAllot i (parseImage c.image).claims = false → exec .planAdmission s = .next settled))) ∧
    ((s.insts[i]).queue.find? (fun c => c.receipt.seq == seq && c.opcode == 0x30 && c.stage == .reading 0) = some c →
      let n := c.arg 1 % 2 ^ 32
      let ready := (s.freeCmdTags i seq).countHit i n image
      let ps := if c.arg 2 == 0 then some (List.replicate 16 0) else params
      (ready.checkImage i n false image ps.isSome = some (code, off) →
        exec (.planImageRead i seq image params) s = .next (ready.refusePlan i c.receipt code off)) ∧
      (ready.checkImage i n false image ps.isSome = none → exec (.planImageRead i seq image params) s = .next ((ready.modCmd i c.receipt fun c =>
          { c with stage := .waiting, data := image.take n, params := ps.getD [], reads := (parseImage (image.take n)).trefs.map (·.id)
                   planId := imgPlanId (image.take n) }).admitPlans)))) ∧
  (∀ (s : State) (t : TileId) (seg first count key : Nat) (bad : List (Nat × Bool)) (kernels : List KRes) (image : Bytes) (b : Batch)
    (more : List RBatch),
    let r := (s.batten.tiles[t]).reed
    let last := !more.any fun x => x.block == key
    (r.active = false → ∃ u, exec (.reedAbandon t) s = .next u ∧ (u.batten.tiles[t]).reed = { r with batches := [], active := false } ∧
      (u.tiles[t]).reedBusy = false) ∧
    (r.active = true → ∃ u, exec (.reedAbandon t) s = .next u ∧ (u.batten.tiles[t]).reed = { r with batches := [], active := false } ∧
      u.ro 0x20A0 8 = s.ro 0x20A0 8 + 1) ∧
    (r.batches = [] → exec (.reedBatchHandover t kernels) s = .next s) ∧
    (r.batches = ⟨key, image, b⟩ :: more → ∃ w : State, exec (.reedBatchHandover t kernels) s =
        .next (w.feed t kernels fun c ops a => pushBatch c ops b a).1 ∧ (w.batten.tiles[t]).reed.batches = more ∧
      (w.batten.tiles[t]).reed.scanned = (if last then r.scanned ++ [key] else r.scanned) ∧ (w.tiles[t]).reedBusy = !more.isEmpty ∧
      (w.tiles[t]).scratch = ((s.toScratch t (((s.bundleOf t).map fun x => x.2.1.claims.scratchKib).getD 0) image).2.tiles[t]).scratch) ∧
    (∀ d p m pd, s.bundleOf t = some (d, p, m, pd) → pd.kind ≠ 1 → (s.tiles[t]).reedBusy = false → ∃ w v,
      w = s.modTable (s.scanSpec p m (m.source pd)).table (fun tb => { tb with segs := tb.segs.map fun g => if g.no != seg then g else
        { g with badA := (g.badA ++ (bad.filter fun x => !x.2).map (·.1)).eraseDups
                 badB := (g.badB ++ (bad.filter (·.2)).map (·.1)).eraseDups } }) ∧
      v = w.scanInto t d.planSlot p m pd seg (((r.left (w.bundleBlocks p m pd d.unit)).filter
        ((upFrom (seg * 16 + first) count).filter fun k => k / 16 == seg).contains).map (· % 16)) ∧
      exec (.reedStart t seg first count bad) s = .next (v.modTile t fun c =>
        { c with reedBusy := (v.batten.tiles[t]).reed.active, reedHanded := 0, reedStatus := (v.batten.tiles[t]).reed.failed.getD 0 })))

/-- From R281, R282, R289, R313: a due delay entry is released: a firmware timer is journaled, a query's window falls due; a
complete firing is written into its query's ring where it fits, and once that is read back the new PRODUCED, or waits where it
does not. What the spec leaves open here is decided as log entries 47, 49, 54, 55, 199, 201, 214, 250, 253 say: the model's own
choice or inference. -/
def Obligations.FiringsFallDueAndAreDelivered : Prop :=
  ∀ (s : State) (k cq n used : Nat) (e : DEntry) (q : Query) (f : Firing) (fn : FuncId),
    let released := ((s.bump 0x2022 7 1).trace 9 0 { BDesc.zero with unit := k, readyTs := e.due } 0 false).rearm k e
    (s.batten.enable = true → s.dueEntry = some (k, e) →
      (e.kind ≠ 0 → exec .delayEntryRelease s = .next (released.journal 8 Stamp.zero e.owner)) ∧
      (e.kind = 0 → s.query e.owner = some q → q.shape ≠ 2 → exec .delayEntryRelease s = .next (released.nextWindow e.owner)) ∧
      (e.kind = 0 → s.query e.owner = some q → q.shape = 2 → ∃ u, u = released.closeSession e.owner ∧
        exec .delayEntryRelease s = .next (u.armNext e.owner))) ∧
    (s.ridgeActs = true → s.query cq = some q → s.queryFunc q = some fn → q.firings.findIdx? (fun f => f.phase == .complete) = some n →
      (exec (.firingRecordDelivery cq none k) s = .next ((s.modQuery cq fun q => { q with held := true }).raise s.ridgeSrc
        { ErrRec.blank with code := 0x5002, severity := .contained, scope := 4, scopeId := q.inst, inst := q.inst })) ∧
      (q.firings[n]? = some f →
        let bytes := firingBytes cq q.skippedSince f
        let at' := q.produced % q.ringBytes
        let prod := q.produced + bytes.length
        let rec' := [Out.hostWrite fn (s.hostAddr fn (q.ringAddr + at')) bytes,
          .hostRead fn (s.hostAddr fn ((q.ringAddr + at' + bytes.length - 1) / 64 * 64)) 64]
        (q.ringBytes < q.produced - used + bytes.length → exec (.firingRecordDelivery cq (some used) k) s = .next s) ∧
        (at' + bytes.length ≤ q.ringBytes → q.produced - used + bytes.length ≤ q.ringBytes → ∃ u, exec (.firingRecordDelivery cq (some used) 0) s = .next u ∧
          u.outs = s.outs ++ rec' ∧ u.batten = s.batten) ∧
        (at' + bytes.length ≤ q.ringBytes → q.produced - used + bytes.length ≤ q.ringBytes → ∃ (w : State) (more : List Out),
          exec (.firingRecordDelivery cq (some used) 2) s = .next ((w.settleRemoval cq).runQuery cq) ∧
          w.outs = s.outs ++ rec' ++ [.hostWrite fn (s.hostAddr fn (q.indexAddr + 8)) (toLE 8 prod),
            .hostRead fn (s.hostAddr fn ((q.indexAddr + 8 + 8 - 1) / 64 * 64)) 64] ++ more ∧
          w.batten.queries = nmod s.batten.queries cq fun q =>
            { q with firings := q.firings.eraseIdx n, produced := prod, skippedSince := 0, held := false
                     nFirings := q.nFirings + 1, nAmends := q.nAmends + f.amend.toNat })))

/-- From R72, R97, R99, R101, R103, R106, R111: the open segment of a table starts to seal SEAL_AGE after its first row; a seal
that ends leaves the segment SEALED with its rows in stamp order; at the first boundary after its interval retention takes
altered fields and passes over every table; a damaged chunk is rewritten from the intact copy. From R126 to R140: frames of an
Eave port. A length outside 64 to 2,048 bytes and a PAUSE frame are counted and no more, a bad FCS and a frame lost for want of
ring space are noted too; a good frame stands in the port's ring with the TS64 of its reception; the first frame not yet
entered is decoded, its base recorded where it stands, and enters the Ligger as one unit with its rows. From R143 to R145: the
Ligger releases a table's least held row when its lateness window has passed and no pending APPEND blocks it; an APPEND that
reaches BLOCK_LIMIT stops blocking; above fifteen sixteenths of its capacity rows are released until the bound holds. What the
spec leaves open here is decided as log entries 4, 28, 29, 32, 199, 202, 203, 204, 240, 250 say: the model's own choice or
inference. -/
def Obligations.IngestAndSegments : Prop :=
  (∀ (s : State) (id col : Nat) (t : Table) (g : Segment), s.table id = some t → s.ridgeActs = true →
    let badIn := fun (l : List Nat) => l.filter (· / 16 == col)
    (t.openSeg = some g → 0 < t.desc.sealAge → g.rows ≠ [] → exec (.sealAgeExpiry id) s =
      .next ((s.advanceTo (g.firstAt + 1000000 * t.desc.sealAge)).startSeal id)) ∧
    (t.segs.find? (·.sealing) = some g → s.sealWork.contains (id, g.no) = true → t.desc.keep = false → ∃ (w : State) (x : Segment), exec (.sealComplete id) s = .next ((w.catalogue id x 1).enforce id) ∧
      w.table id = some { t with lastDigest := x.digest, segs := t.segs.map fun y => if y.no == g.no then x else y } ∧ x.no = g.no ∧ x.state = .sealed ∧
      x.sealing = false ∧ x.sealStamp = some (s.stamp s.ridgeSrc).1 ∧
      x.rows = if g.unordered then sortBy (fun a b => a.stamp.lt b.stamp) g.rows else g.rows) ∧
    (t.segs.find? (·.sealing) = some g → s.sealWork.contains (id, g.no) = true → t.desc.keep = true → ∃ (w : State) (x : Segment), exec (.sealComplete id) s = .next ((w.catalogue id x 2).enforce id) ∧
      x.no = g.no ∧ x.state = .kept ∧ x.sealing = false ∧ w.tables.keepCatalogue.contains (id, g.no) = true) ∧
    (s.time.lastBoundary < s.tables.lastRetention + 1000000 * s.cfg 0x1081 1 1000 → exec .retentionEvaluation s = .next s) ∧
    (s.tables.lastRetention + 1000000 * s.cfg 0x1081 1 1000 ≤ s.time.lastBoundary → ∃ r w : State,
      r = s.modTables (fun t => { t with tables := t.tables.map fun p => (p.1, p.2.takeRet) }) ∧
      w = r.tables.tables.foldl (fun s p => (s.retainTable p.1).enforce p.1) r ∧
      exec .retentionEvaluation s = .next (w.modTables fun t => { t with lastRetention := w.time.ts })) ∧
    (t.desc.lapped = true → t.segs.find? (fun x => x.no == g.no) = some g →
      (badIn g.badA ≠ [] → (badIn g.badA).any g.badB.contains = false → exec (.lappedRepair id g.no col false) s =
        .next (((s.modTable id fun t => { t with segs := t.segs.map fun x => if x.no != g.no then x else
          { x with chunksA := lset x.chunksA col (x.chunksB.getD col []), badA := x.badA.filter (· / 16 != col) } }).storeChunk id g.no col false).bump 0x1082 3 1)) ∧
      (badIn g.badB ≠ [] → (badIn g.badB).any g.badA.contains = false → exec (.lappedRepair id g.no col true) s =
        .next (((s.modTable id fun t => { t with segs := t.segs.map fun x => if x.no != g.no then x else
          { x with chunksB := lset x.chunksB col (x.chunksA.getD col []), badB := x.badB.filter (· / 16 != col) } }).storeChunk id g.no col true).bump 0x1082 3 1)))) ∧
  (∀ (s : State) (p : PortId) (frame : Bytes) (e : RingEntry) (rest : List RingEntry),
    let x := s.ingest.eave[p]
    let count := fun (sub : Nat) => Host.Outcome.next (s.eaveCount p sub 1)
    (s.cfgBool (0x3140 + p.val) 1 false = true → s.time.run = true → x.stopped = false →
      (exec (.eaveFrameReceived p frame false) s = .next ((s.eaveCount p 2 1).eaveNote p 1)) ∧
      (frame.length + 4 < 64 ∨ 2048 < frame.length + 4 → exec (.eaveFrameReceived p frame true) s = count 3) ∧
      (60 ≤ frame.length → frame.length ≤ 2044 → isPause frame = true → exec (.eaveFrameReceived p frame true) s = count 5) ∧
      (60 ≤ frame.length → frame.length ≤ 2044 → isPause frame = false →
        x.ringUsed + ringSpace frame ≤ s.cfg (0x3140 + p.val) 5 64 * 2 ^ 20 → ∃ u y, exec (.eaveFrameReceived p frame true) s = .next u ∧
          (u.ingest.eave[p]).ring = x.ring ++ [y] ∧ (u.ingest.eave[p]).ringUsed = x.ringUsed + ringSpace frame ∧ y.ts = s.time.ts ∧
          y.frame = frame ∧ y.wireLength = frame.length + 4 ∧ y.entered = false ∧ u.tables = s.tables) ∧
      (60 ≤ frame.length → frame.length ≤ 2044 → isPause frame = false →
        s.cfg (0x3140 + p.val) 5 64 * 2 ^ 20 < x.ringUsed + ringSpace frame → exec (.eaveFrameReceived p frame true) s =
          .next (((s.eaveCount p 1 1).eaveCount p 4 1).eaveNote p 2))) ∧
    (x.ring.find? (!·.entered) = none → exec (.eaveUnitEntry p) s = .next s) ∧
    (x.ring = e :: rest → e.entered = false → s.mapReady = true → s.cfg (0x3140 + p.val) 3 1 = 1 → ∃ (w : State) (y : RingEntry) (base : Nat) (rows : List (Nat × SRow)) (raw : SRow), exec (.eaveUnitEntry p) s =
        .next (w.enterUnit ⟨e.ts, 0x48 + p.val, base, e.tq⟩ (rows ++ [(0xFFF2, raw)])).1 ∧
      (w.ingest.eave[p]).ring = y :: rest ∧ y.entered = true ∧ y.base = some base ∧ y.frame = e.frame ∧ (w.ingest.eave[p]).ringUsed = x.ringUsed ∧
      w.tables = s.tables ∧
      (raw.stamp).seq = (base + rows.length) % 2 ^ 24 ∧ ngetZ s.time.seqs (0x48 + p.val) = base)) ∧
  (∀ (s : State) (id : Nat) (t : Table) (r : SRow) (rest : List SRow) (i : InstId) (seq : Nat) (a : PendAppend),
    (s.table id = some t → t.held = r :: rest →
      (s.blocks id r.stamp = none → exec (.liggerRelease id) s =
        .next ((((s.advanceTo (r.stamp.ts + 1000 * t.desc.ingest.lateWindow)).releaseLeast id).enforce id).settleAppends)) ∧
      (s.blocks id r.stamp ≠ none → exec (.liggerRelease id) s = .next s)) ∧
    (s.ingest.appends.find? (fun a => a.receipt.src == i.val && a.receipt.seq == seq) = some a →
      s.ingest.appends.find? (fun b => b.receipt == a.receipt && !b.expired) = some a → ∃ u, exec (.blockLimitExpiry i seq) s = .next u ∧
        u.time.ts = max s.time.ts (a.since + 1000 * s.cfg 0x1090 0x10 10000) ∧
        u.ingest.appends = s.ingest.appends.map fun x => if x.receipt == a.receipt then { x with expired := true } else x) ∧
    (s.heldRows ≤ 15728640 → exec .forcedRelease s = .next s) ∧
    (15728640 < s.heldRows → ∃ u, exec .forcedRelease s = .next u.settleAppends ∧ u = State.forceDown 14680064 (s.heldRows + 1) s))
end

