-- ==== Sys2Proof/Laws/State.lean ====
section
/-! SUPPORT. Each field after each update of the state. -/

namespace Sys2Proof.Machine

set_option Elab.async false

@[simp] theorem State.modTime_time (s : State) (f : TimeSt → TimeSt) : (s.modTime f).time = f s.time := rfl
@[simp] theorem State.modTime_err (s : State) (f : TimeSt → TimeSt) : (s.modTime f).err = s.err := rfl
@[simp] theorem State.modTime_dict (s : State) (f : TimeSt → TimeSt) : (s.modTime f).dict = s.dict := rfl
@[simp] theorem State.modTime_tables (s : State) (f : TimeSt → TimeSt) : (s.modTime f).tables = s.tables := rfl
@[simp] theorem State.modTime_ingest (s : State) (f : TimeSt → TimeSt) : (s.modTime f).ingest = s.ingest := rfl
@[simp] theorem State.modTime_plans (s : State) (f : TimeSt → TimeSt) : (s.modTime f).plans = s.plans := rfl
@[simp] theorem State.modTime_purlin (s : State) (f : TimeSt → TimeSt) : (s.modTime f).purlin = s.purlin := rfl
@[simp] theorem State.modTime_batten (s : State) (f : TimeSt → TimeSt) : (s.modTime f).batten = s.batten := rfl
@[simp] theorem State.modTime_tiles (s : State) (f : TimeSt → TimeSt) : (s.modTime f).tiles = s.tiles := rfl
@[simp] theorem State.modTime_thatch (s : State) (f : TimeSt → TimeSt) : (s.modTime f).thatch = s.thatch := rfl
@[simp] theorem State.modTime_dram (s : State) (f : TimeSt → TimeSt) : (s.modTime f).dram = s.dram := rfl
@[simp] theorem State.modTime_gutter (s : State) (f : TimeSt → TimeSt) : (s.modTime f).gutter = s.gutter := rfl
@[simp] theorem State.modTime_yelm (s : State) (f : TimeSt → TimeSt) : (s.modTime f).yelm = s.yelm := rfl
@[simp] theorem State.modTime_flash (s : State) (f : TimeSt → TimeSt) : (s.modTime f).flash = s.flash := rfl
@[simp] theorem State.modTime_host (s : State) (f : TimeSt → TimeSt) : (s.modTime f).host = s.host := rfl
@[simp] theorem State.modTime_insts (s : State) (f : TimeSt → TimeSt) : (s.modTime f).insts = s.insts := rfl
@[simp] theorem State.modTime_finial (s : State) (f : TimeSt → TimeSt) : (s.modTime f).finial = s.finial := rfl
@[simp] theorem State.modTime_boot (s : State) (f : TimeSt → TimeSt) : (s.modTime f).boot = s.boot := rfl
@[simp] theorem State.modTime_power (s : State) (f : TimeSt → TimeSt) : (s.modTime f).power = s.power := rfl
@[simp] theorem State.modTime_mem (s : State) (f : TimeSt → TimeSt) : (s.modTime f).mem = s.mem := rfl
@[simp] theorem State.modTime_outs (s : State) (f : TimeSt → TimeSt) : (s.modTime f).outs = s.outs := rfl
@[simp] theorem State.modTime_freeCtr (s : State) (f : TimeSt → TimeSt) : (s.modTime f).freeCtr = s.freeCtr := rfl
@[simp] theorem State.modTime_pending (s : State) (f : TimeSt → TimeSt) : (s.modTime f).pending = s.pending := rfl
@[simp] theorem State.modErr_time (s : State) (f : ErrSt → ErrSt) : (s.modErr f).time = s.time := rfl
@[simp] theorem State.modErr_err (s : State) (f : ErrSt → ErrSt) : (s.modErr f).err = f s.err := rfl
@[simp] theorem State.modErr_dict (s : State) (f : ErrSt → ErrSt) : (s.modErr f).dict = s.dict := rfl
@[simp] theorem State.modErr_tables (s : State) (f : ErrSt → ErrSt) : (s.modErr f).tables = s.tables := rfl
@[simp] theorem State.modErr_ingest (s : State) (f : ErrSt → ErrSt) : (s.modErr f).ingest = s.ingest := rfl
@[simp] theorem State.modErr_plans (s : State) (f : ErrSt → ErrSt) : (s.modErr f).plans = s.plans := rfl
@[simp] theorem State.modErr_purlin (s : State) (f : ErrSt → ErrSt) : (s.modErr f).purlin = s.purlin := rfl
@[simp] theorem State.modErr_batten (s : State) (f : ErrSt → ErrSt) : (s.modErr f).batten = s.batten := rfl
@[simp] theorem State.modErr_tiles (s : State) (f : ErrSt → ErrSt) : (s.modErr f).tiles = s.tiles := rfl
@[simp] theorem State.modErr_thatch (s : State) (f : ErrSt → ErrSt) : (s.modErr f).thatch = s.thatch := rfl
@[simp] theorem State.modErr_dram (s : State) (f : ErrSt → ErrSt) : (s.modErr f).dram = s.dram := rfl
@[simp] theorem State.modErr_gutter (s : State) (f : ErrSt → ErrSt) : (s.modErr f).gutter = s.gutter := rfl
@[simp] theorem State.modErr_yelm (s : State) (f : ErrSt → ErrSt) : (s.modErr f).yelm = s.yelm := rfl
@[simp] theorem State.modErr_flash (s : State) (f : ErrSt → ErrSt) : (s.modErr f).flash = s.flash := rfl
@[simp] theorem State.modErr_host (s : State) (f : ErrSt → ErrSt) : (s.modErr f).host = s.host := rfl
@[simp] theorem State.modErr_insts (s : State) (f : ErrSt → ErrSt) : (s.modErr f).insts = s.insts := rfl
@[simp] theorem State.modErr_finial (s : State) (f : ErrSt → ErrSt) : (s.modErr f).finial = s.finial := rfl
@[simp] theorem State.modErr_boot (s : State) (f : ErrSt → ErrSt) : (s.modErr f).boot = s.boot := rfl
@[simp] theorem State.modErr_power (s : State) (f : ErrSt → ErrSt) : (s.modErr f).power = s.power := rfl
@[simp] theorem State.modErr_mem (s : State) (f : ErrSt → ErrSt) : (s.modErr f).mem = s.mem := rfl
@[simp] theorem State.modErr_outs (s : State) (f : ErrSt → ErrSt) : (s.modErr f).outs = s.outs := rfl
@[simp] theorem State.modErr_freeCtr (s : State) (f : ErrSt → ErrSt) : (s.modErr f).freeCtr = s.freeCtr := rfl
@[simp] theorem State.modErr_pending (s : State) (f : ErrSt → ErrSt) : (s.modErr f).pending = s.pending := rfl
@[simp] theorem State.modDict_time (s : State) (f : DictSt → DictSt) : (s.modDict f).time = s.time := rfl
@[simp] theorem State.modDict_err (s : State) (f : DictSt → DictSt) : (s.modDict f).err = s.err := rfl
@[simp] theorem State.modDict_dict (s : State) (f : DictSt → DictSt) : (s.modDict f).dict = f s.dict := rfl
@[simp] theorem State.modDict_tables (s : State) (f : DictSt → DictSt) : (s.modDict f).tables = s.tables := rfl
@[simp] theorem State.modDict_ingest (s : State) (f : DictSt → DictSt) : (s.modDict f).ingest = s.ingest := rfl
@[simp] theorem State.modDict_plans (s : State) (f : DictSt → DictSt) : (s.modDict f).plans = s.plans := rfl
@[simp] theorem State.modDict_purlin (s : State) (f : DictSt → DictSt) : (s.modDict f).purlin = s.purlin := rfl
@[simp] theorem State.modDict_batten (s : State) (f : DictSt → DictSt) : (s.modDict f).batten = s.batten := rfl
@[simp] theorem State.modDict_tiles (s : State) (f : DictSt → DictSt) : (s.modDict f).tiles = s.tiles := rfl
@[simp] theorem State.modDict_thatch (s : State) (f : DictSt → DictSt) : (s.modDict f).thatch = s.thatch := rfl
@[simp] theorem State.modDict_dram (s : State) (f : DictSt → DictSt) : (s.modDict f).dram = s.dram := rfl
@[simp] theorem State.modDict_gutter (s : State) (f : DictSt → DictSt) : (s.modDict f).gutter = s.gutter := rfl
@[simp] theorem State.modDict_yelm (s : State) (f : DictSt → DictSt) : (s.modDict f).yelm = s.yelm := rfl
@[simp] theorem State.modDict_flash (s : State) (f : DictSt → DictSt) : (s.modDict f).flash = s.flash := rfl
@[simp] theorem State.modDict_host (s : State) (f : DictSt → DictSt) : (s.modDict f).host = s.host := rfl
@[simp] theorem State.modDict_insts (s : State) (f : DictSt → DictSt) : (s.modDict f).insts = s.insts := rfl
@[simp] theorem State.modDict_finial (s : State) (f : DictSt → DictSt) : (s.modDict f).finial = s.finial := rfl
@[simp] theorem State.modDict_boot (s : State) (f : DictSt → DictSt) : (s.modDict f).boot = s.boot := rfl
@[simp] theorem State.modDict_power (s : State) (f : DictSt → DictSt) : (s.modDict f).power = s.power := rfl
@[simp] theorem State.modDict_mem (s : State) (f : DictSt → DictSt) : (s.modDict f).mem = s.mem := rfl
@[simp] theorem State.modDict_outs (s : State) (f : DictSt → DictSt) : (s.modDict f).outs = s.outs := rfl
@[simp] theorem State.modDict_freeCtr (s : State) (f : DictSt → DictSt) : (s.modDict f).freeCtr = s.freeCtr := rfl
@[simp] theorem State.modDict_pending (s : State) (f : DictSt → DictSt) : (s.modDict f).pending = s.pending := rfl
@[simp] theorem State.modTables_time (s : State) (f : TableSt → TableSt) : (s.modTables f).time = s.time := rfl
@[simp] theorem State.modTables_err (s : State) (f : TableSt → TableSt) : (s.modTables f).err = s.err := rfl
@[simp] theorem State.modTables_dict (s : State) (f : TableSt → TableSt) : (s.modTables f).dict = s.dict := rfl
@[simp] theorem State.modTables_tables (s : State) (f : TableSt → TableSt) : (s.modTables f).tables = f s.tables := rfl
@[simp] theorem State.modTables_ingest (s : State) (f : TableSt → TableSt) : (s.modTables f).ingest = s.ingest := rfl
@[simp] theorem State.modTables_plans (s : State) (f : TableSt → TableSt) : (s.modTables f).plans = s.plans := rfl
@[simp] theorem State.modTables_purlin (s : State) (f : TableSt → TableSt) : (s.modTables f).purlin = s.purlin := rfl
@[simp] theorem State.modTables_batten (s : State) (f : TableSt → TableSt) : (s.modTables f).batten = s.batten := rfl
@[simp] theorem State.modTables_tiles (s : State) (f : TableSt → TableSt) : (s.modTables f).tiles = s.tiles := rfl
@[simp] theorem State.modTables_thatch (s : State) (f : TableSt → TableSt) : (s.modTables f).thatch = s.thatch := rfl
@[simp] theorem State.modTables_dram (s : State) (f : TableSt → TableSt) : (s.modTables f).dram = s.dram := rfl
@[simp] theorem State.modTables_gutter (s : State) (f : TableSt → TableSt) : (s.modTables f).gutter = s.gutter := rfl
@[simp] theorem State.modTables_yelm (s : State) (f : TableSt → TableSt) : (s.modTables f).yelm = s.yelm := rfl
@[simp] theorem State.modTables_flash (s : State) (f : TableSt → TableSt) : (s.modTables f).flash = s.flash := rfl
@[simp] theorem State.modTables_host (s : State) (f : TableSt → TableSt) : (s.modTables f).host = s.host := rfl
@[simp] theorem State.modTables_insts (s : State) (f : TableSt → TableSt) : (s.modTables f).insts = s.insts := rfl
@[simp] theorem State.modTables_finial (s : State) (f : TableSt → TableSt) : (s.modTables f).finial = s.finial := rfl
@[simp] theorem State.modTables_boot (s : State) (f : TableSt → TableSt) : (s.modTables f).boot = s.boot := rfl
@[simp] theorem State.modTables_power (s : State) (f : TableSt → TableSt) : (s.modTables f).power = s.power := rfl
@[simp] theorem State.modTables_mem (s : State) (f : TableSt → TableSt) : (s.modTables f).mem = s.mem := rfl
@[simp] theorem State.modTables_outs (s : State) (f : TableSt → TableSt) : (s.modTables f).outs = s.outs := rfl
@[simp] theorem State.modTables_freeCtr (s : State) (f : TableSt → TableSt) : (s.modTables f).freeCtr = s.freeCtr := rfl
@[simp] theorem State.modTables_pending (s : State) (f : TableSt → TableSt) : (s.modTables f).pending = s.pending := rfl
@[simp] theorem State.modIngest_time (s : State) (f : IngestSt → IngestSt) : (s.modIngest f).time = s.time := rfl
@[simp] theorem State.modIngest_err (s : State) (f : IngestSt → IngestSt) : (s.modIngest f).err = s.err := rfl
@[simp] theorem State.modIngest_dict (s : State) (f : IngestSt → IngestSt) : (s.modIngest f).dict = s.dict := rfl
@[simp] theorem State.modIngest_tables (s : State) (f : IngestSt → IngestSt) : (s.modIngest f).tables = s.tables := rfl
@[simp] theorem State.modIngest_ingest (s : State) (f : IngestSt → IngestSt) : (s.modIngest f).ingest = f s.ingest := rfl
@[simp] theorem State.modIngest_plans (s : State) (f : IngestSt → IngestSt) : (s.modIngest f).plans = s.plans := rfl
@[simp] theorem State.modIngest_purlin (s : State) (f : IngestSt → IngestSt) : (s.modIngest f).purlin = s.purlin := rfl
@[simp] theorem State.modIngest_batten (s : State) (f : IngestSt → IngestSt) : (s.modIngest f).batten = s.batten := rfl
@[simp] theorem State.modIngest_tiles (s : State) (f : IngestSt → IngestSt) : (s.modIngest f).tiles = s.tiles := rfl
@[simp] theorem State.modIngest_thatch (s : State) (f : IngestSt → IngestSt) : (s.modIngest f).thatch = s.thatch := rfl
@[simp] theorem State.modIngest_dram (s : State) (f : IngestSt → IngestSt) : (s.modIngest f).dram = s.dram := rfl
@[simp] theorem State.modIngest_gutter (s : State) (f : IngestSt → IngestSt) : (s.modIngest f).gutter = s.gutter := rfl
@[simp] theorem State.modIngest_yelm (s : State) (f : IngestSt → IngestSt) : (s.modIngest f).yelm = s.yelm := rfl
@[simp] theorem State.modIngest_flash (s : State) (f : IngestSt → IngestSt) : (s.modIngest f).flash = s.flash := rfl
@[simp] theorem State.modIngest_host (s : State) (f : IngestSt → IngestSt) : (s.modIngest f).host = s.host := rfl
@[simp] theorem State.modIngest_insts (s : State) (f : IngestSt → IngestSt) : (s.modIngest f).insts = s.insts := rfl
@[simp] theorem State.modIngest_finial (s : State) (f : IngestSt → IngestSt) : (s.modIngest f).finial = s.finial := rfl
@[simp] theorem State.modIngest_boot (s : State) (f : IngestSt → IngestSt) : (s.modIngest f).boot = s.boot := rfl
@[simp] theorem State.modIngest_power (s : State) (f : IngestSt → IngestSt) : (s.modIngest f).power = s.power := rfl
@[simp] theorem State.modIngest_mem (s : State) (f : IngestSt → IngestSt) : (s.modIngest f).mem = s.mem := rfl
@[simp] theorem State.modIngest_outs (s : State) (f : IngestSt → IngestSt) : (s.modIngest f).outs = s.outs := rfl
@[simp] theorem State.modIngest_freeCtr (s : State) (f : IngestSt → IngestSt) : (s.modIngest f).freeCtr = s.freeCtr := rfl
@[simp] theorem State.modIngest_pending (s : State) (f : IngestSt → IngestSt) : (s.modIngest f).pending = s.pending := rfl
@[simp] theorem State.modPlans_time (s : State) (f : PlanSt → PlanSt) : (s.modPlans f).time = s.time := rfl
@[simp] theorem State.modPlans_err (s : State) (f : PlanSt → PlanSt) : (s.modPlans f).err = s.err := rfl
@[simp] theorem State.modPlans_dict (s : State) (f : PlanSt → PlanSt) : (s.modPlans f).dict = s.dict := rfl
@[simp] theorem State.modPlans_tables (s : State) (f : PlanSt → PlanSt) : (s.modPlans f).tables = s.tables := rfl
@[simp] theorem State.modPlans_ingest (s : State) (f : PlanSt → PlanSt) : (s.modPlans f).ingest = s.ingest := rfl
@[simp] theorem State.modPlans_plans (s : State) (f : PlanSt → PlanSt) : (s.modPlans f).plans = f s.plans := rfl
@[simp] theorem State.modPlans_purlin (s : State) (f : PlanSt → PlanSt) : (s.modPlans f).purlin = s.purlin := rfl
@[simp] theorem State.modPlans_batten (s : State) (f : PlanSt → PlanSt) : (s.modPlans f).batten = s.batten := rfl
@[simp] theorem State.modPlans_tiles (s : State) (f : PlanSt → PlanSt) : (s.modPlans f).tiles = s.tiles := rfl
@[simp] theorem State.modPlans_thatch (s : State) (f : PlanSt → PlanSt) : (s.modPlans f).thatch = s.thatch := rfl
@[simp] theorem State.modPlans_dram (s : State) (f : PlanSt → PlanSt) : (s.modPlans f).dram = s.dram := rfl
@[simp] theorem State.modPlans_gutter (s : State) (f : PlanSt → PlanSt) : (s.modPlans f).gutter = s.gutter := rfl
@[simp] theorem State.modPlans_yelm (s : State) (f : PlanSt → PlanSt) : (s.modPlans f).yelm = s.yelm := rfl
@[simp] theorem State.modPlans_flash (s : State) (f : PlanSt → PlanSt) : (s.modPlans f).flash = s.flash := rfl
@[simp] theorem State.modPlans_host (s : State) (f : PlanSt → PlanSt) : (s.modPlans f).host = s.host := rfl
@[simp] theorem State.modPlans_insts (s : State) (f : PlanSt → PlanSt) : (s.modPlans f).insts = s.insts := rfl
@[simp] theorem State.modPlans_finial (s : State) (f : PlanSt → PlanSt) : (s.modPlans f).finial = s.finial := rfl
@[simp] theorem State.modPlans_boot (s : State) (f : PlanSt → PlanSt) : (s.modPlans f).boot = s.boot := rfl
@[simp] theorem State.modPlans_power (s : State) (f : PlanSt → PlanSt) : (s.modPlans f).power = s.power := rfl
@[simp] theorem State.modPlans_mem (s : State) (f : PlanSt → PlanSt) : (s.modPlans f).mem = s.mem := rfl
@[simp] theorem State.modPlans_outs (s : State) (f : PlanSt → PlanSt) : (s.modPlans f).outs = s.outs := rfl
@[simp] theorem State.modPlans_freeCtr (s : State) (f : PlanSt → PlanSt) : (s.modPlans f).freeCtr = s.freeCtr := rfl
@[simp] theorem State.modPlans_pending (s : State) (f : PlanSt → PlanSt) : (s.modPlans f).pending = s.pending := rfl
@[simp] theorem State.modPurlin_time (s : State) (f : PurlinSt → PurlinSt) : (s.modPurlin f).time = s.time := rfl
@[simp] theorem State.modPurlin_err (s : State) (f : PurlinSt → PurlinSt) : (s.modPurlin f).err = s.err := rfl
@[simp] theorem State.modPurlin_dict (s : State) (f : PurlinSt → PurlinSt) : (s.modPurlin f).dict = s.dict := rfl
@[simp] theorem State.modPurlin_tables (s : State) (f : PurlinSt → PurlinSt) : (s.modPurlin f).tables = s.tables := rfl
@[simp] theorem State.modPurlin_ingest (s : State) (f : PurlinSt → PurlinSt) : (s.modPurlin f).ingest = s.ingest := rfl
@[simp] theorem State.modPurlin_plans (s : State) (f : PurlinSt → PurlinSt) : (s.modPurlin f).plans = s.plans := rfl
@[simp] theorem State.modPurlin_purlin (s : State) (f : PurlinSt → PurlinSt) : (s.modPurlin f).purlin = f s.purlin := rfl
@[simp] theorem State.modPurlin_batten (s : State) (f : PurlinSt → PurlinSt) : (s.modPurlin f).batten = s.batten := rfl
@[simp] theorem State.modPurlin_tiles (s : State) (f : PurlinSt → PurlinSt) : (s.modPurlin f).tiles = s.tiles := rfl
@[simp] theorem State.modPurlin_thatch (s : State) (f : PurlinSt → PurlinSt) : (s.modPurlin f).thatch = s.thatch := rfl
@[simp] theorem State.modPurlin_dram (s : State) (f : PurlinSt → PurlinSt) : (s.modPurlin f).dram = s.dram := rfl
@[simp] theorem State.modPurlin_gutter (s : State) (f : PurlinSt → PurlinSt) : (s.modPurlin f).gutter = s.gutter := rfl
@[simp] theorem State.modPurlin_yelm (s : State) (f : PurlinSt → PurlinSt) : (s.modPurlin f).yelm = s.yelm := rfl
@[simp] theorem State.modPurlin_flash (s : State) (f : PurlinSt → PurlinSt) : (s.modPurlin f).flash = s.flash := rfl
@[simp] theorem State.modPurlin_host (s : State) (f : PurlinSt → PurlinSt) : (s.modPurlin f).host = s.host := rfl
@[simp] theorem State.modPurlin_insts (s : State) (f : PurlinSt → PurlinSt) : (s.modPurlin f).insts = s.insts := rfl
@[simp] theorem State.modPurlin_finial (s : State) (f : PurlinSt → PurlinSt) : (s.modPurlin f).finial = s.finial := rfl
@[simp] theorem State.modPurlin_boot (s : State) (f : PurlinSt → PurlinSt) : (s.modPurlin f).boot = s.boot := rfl
@[simp] theorem State.modPurlin_power (s : State) (f : PurlinSt → PurlinSt) : (s.modPurlin f).power = s.power := rfl
@[simp] theorem State.modPurlin_mem (s : State) (f : PurlinSt → PurlinSt) : (s.modPurlin f).mem = s.mem := rfl
@[simp] theorem State.modPurlin_outs (s : State) (f : PurlinSt → PurlinSt) : (s.modPurlin f).outs = s.outs := rfl
@[simp] theorem State.modPurlin_freeCtr (s : State) (f : PurlinSt → PurlinSt) : (s.modPurlin f).freeCtr = s.freeCtr := rfl
@[simp] theorem State.modPurlin_pending (s : State) (f : PurlinSt → PurlinSt) : (s.modPurlin f).pending = s.pending := rfl
@[simp] theorem State.modBatten_time (s : State) (f : BattenSt → BattenSt) : (s.modBatten f).time = s.time := rfl
@[simp] theorem State.modBatten_err (s : State) (f : BattenSt → BattenSt) : (s.modBatten f).err = s.err := rfl
@[simp] theorem State.modBatten_dict (s : State) (f : BattenSt → BattenSt) : (s.modBatten f).dict = s.dict := rfl
@[simp] theorem State.modBatten_tables (s : State) (f : BattenSt → BattenSt) : (s.modBatten f).tables = s.tables := rfl
@[simp] theorem State.modBatten_ingest (s : State) (f : BattenSt → BattenSt) : (s.modBatten f).ingest = s.ingest := rfl
@[simp] theorem State.modBatten_plans (s : State) (f : BattenSt → BattenSt) : (s.modBatten f).plans = s.plans := rfl
@[simp] theorem State.modBatten_purlin (s : State) (f : BattenSt → BattenSt) : (s.modBatten f).purlin = s.purlin := rfl
@[simp] theorem State.modBatten_batten (s : State) (f : BattenSt → BattenSt) : (s.modBatten f).batten = f s.batten := rfl
@[simp] theorem State.modBatten_tiles (s : State) (f : BattenSt → BattenSt) : (s.modBatten f).tiles = s.tiles := rfl
@[simp] theorem State.modBatten_thatch (s : State) (f : BattenSt → BattenSt) : (s.modBatten f).thatch = s.thatch := rfl
@[simp] theorem State.modBatten_dram (s : State) (f : BattenSt → BattenSt) : (s.modBatten f).dram = s.dram := rfl
@[simp] theorem State.modBatten_gutter (s : State) (f : BattenSt → BattenSt) : (s.modBatten f).gutter = s.gutter := rfl
@[simp] theorem State.modBatten_yelm (s : State) (f : BattenSt → BattenSt) : (s.modBatten f).yelm = s.yelm := rfl
@[simp] theorem State.modBatten_flash (s : State) (f : BattenSt → BattenSt) : (s.modBatten f).flash = s.flash := rfl
@[simp] theorem State.modBatten_host (s : State) (f : BattenSt → BattenSt) : (s.modBatten f).host = s.host := rfl
@[simp] theorem State.modBatten_insts (s : State) (f : BattenSt → BattenSt) : (s.modBatten f).insts = s.insts := rfl
@[simp] theorem State.modBatten_finial (s : State) (f : BattenSt → BattenSt) : (s.modBatten f).finial = s.finial := rfl
@[simp] theorem State.modBatten_boot (s : State) (f : BattenSt → BattenSt) : (s.modBatten f).boot = s.boot := rfl
@[simp] theorem State.modBatten_power (s : State) (f : BattenSt → BattenSt) : (s.modBatten f).power = s.power := rfl
@[simp] theorem State.modBatten_mem (s : State) (f : BattenSt → BattenSt) : (s.modBatten f).mem = s.mem := rfl
@[simp] theorem State.modBatten_outs (s : State) (f : BattenSt → BattenSt) : (s.modBatten f).outs = s.outs := rfl
@[simp] theorem State.modBatten_freeCtr (s : State) (f : BattenSt → BattenSt) : (s.modBatten f).freeCtr = s.freeCtr := rfl
@[simp] theorem State.modBatten_pending (s : State) (f : BattenSt → BattenSt) : (s.modBatten f).pending = s.pending := rfl
@[simp] theorem State.modTiles_time (s : State) (f : Vector Tile 64 → Vector Tile 64) : (s.modTiles f).time = s.time := rfl
@[simp] theorem State.modTiles_err (s : State) (f : Vector Tile 64 → Vector Tile 64) : (s.modTiles f).err = s.err := rfl
@[simp] theorem State.modTiles_dict (s : State) (f : Vector Tile 64 → Vector Tile 64) : (s.modTiles f).dict = s.dict := rfl
@[simp] theorem State.modTiles_tables (s : State) (f : Vector Tile 64 → Vector Tile 64) : (s.modTiles f).tables = s.tables := rfl
@[simp] theorem State.modTiles_ingest (s : State) (f : Vector Tile 64 → Vector Tile 64) : (s.modTiles f).ingest = s.ingest := rfl
@[simp] theorem State.modTiles_plans (s : State) (f : Vector Tile 64 → Vector Tile 64) : (s.modTiles f).plans = s.plans := rfl
@[simp] theorem State.modTiles_purlin (s : State) (f : Vector Tile 64 → Vector Tile 64) : (s.modTiles f).purlin = s.purlin := rfl
@[simp] theorem State.modTiles_batten (s : State) (f : Vector Tile 64 → Vector Tile 64) : (s.modTiles f).batten = s.batten := rfl
@[simp] theorem State.modTiles_tiles (s : State) (f : Vector Tile 64 → Vector Tile 64) : (s.modTiles f).tiles = f s.tiles := rfl
@[simp] theorem State.modTiles_thatch (s : State) (f : Vector Tile 64 → Vector Tile 64) : (s.modTiles f).thatch = s.thatch := rfl
@[simp] theorem State.modTiles_dram (s : State) (f : Vector Tile 64 → Vector Tile 64) : (s.modTiles f).dram = s.dram := rfl
@[simp] theorem State.modTiles_gutter (s : State) (f : Vector Tile 64 → Vector Tile 64) : (s.modTiles f).gutter = s.gutter := rfl
@[simp] theorem State.modTiles_yelm (s : State) (f : Vector Tile 64 → Vector Tile 64) : (s.modTiles f).yelm = s.yelm := rfl
@[simp] theorem State.modTiles_flash (s : State) (f : Vector Tile 64 → Vector Tile 64) : (s.modTiles f).flash = s.flash := rfl
@[simp] theorem State.modTiles_host (s : State) (f : Vector Tile 64 → Vector Tile 64) : (s.modTiles f).host = s.host := rfl
@[simp] theorem State.modTiles_insts (s : State) (f : Vector Tile 64 → Vector Tile 64) : (s.modTiles f).insts = s.insts := rfl
@[simp] theorem State.modTiles_finial (s : State) (f : Vector Tile 64 → Vector Tile 64) : (s.modTiles f).finial = s.finial := rfl
@[simp] theorem State.modTiles_boot (s : State) (f : Vector Tile 64 → Vector Tile 64) : (s.modTiles f).boot = s.boot := rfl
@[simp] theorem State.modTiles_power (s : State) (f : Vector Tile 64 → Vector Tile 64) : (s.modTiles f).power = s.power := rfl
@[simp] theorem State.modTiles_mem (s : State) (f : Vector Tile 64 → Vector Tile 64) : (s.modTiles f).mem = s.mem := rfl
@[simp] theorem State.modTiles_outs (s : State) (f : Vector Tile 64 → Vector Tile 64) : (s.modTiles f).outs = s.outs := rfl
@[simp] theorem State.modTiles_freeCtr (s : State) (f : Vector Tile 64 → Vector Tile 64) : (s.modTiles f).freeCtr = s.freeCtr := rfl
@[simp] theorem State.modTiles_pending (s : State) (f : Vector Tile 64 → Vector Tile 64) : (s.modTiles f).pending = s.pending := rfl
@[simp] theorem State.modThatch_time (s : State) (f : ThatchSt → ThatchSt) : (s.modThatch f).time = s.time := rfl
@[simp] theorem State.modThatch_err (s : State) (f : ThatchSt → ThatchSt) : (s.modThatch f).err = s.err := rfl
@[simp] theorem State.modThatch_dict (s : State) (f : ThatchSt → ThatchSt) : (s.modThatch f).dict = s.dict := rfl
@[simp] theorem State.modThatch_tables (s : State) (f : ThatchSt → ThatchSt) : (s.modThatch f).tables = s.tables := rfl
@[simp] theorem State.modThatch_ingest (s : State) (f : ThatchSt → ThatchSt) : (s.modThatch f).ingest = s.ingest := rfl
@[simp] theorem State.modThatch_plans (s : State) (f : ThatchSt → ThatchSt) : (s.modThatch f).plans = s.plans := rfl
@[simp] theorem State.modThatch_purlin (s : State) (f : ThatchSt → ThatchSt) : (s.modThatch f).purlin = s.purlin := rfl
@[simp] theorem State.modThatch_batten (s : State) (f : ThatchSt → ThatchSt) : (s.modThatch f).batten = s.batten := rfl
@[simp] theorem State.modThatch_tiles (s : State) (f : ThatchSt → ThatchSt) : (s.modThatch f).tiles = s.tiles := rfl
@[simp] theorem State.modThatch_thatch (s : State) (f : ThatchSt → ThatchSt) : (s.modThatch f).thatch = f s.thatch := rfl
@[simp] theorem State.modThatch_dram (s : State) (f : ThatchSt → ThatchSt) : (s.modThatch f).dram = s.dram := rfl
@[simp] theorem State.modThatch_gutter (s : State) (f : ThatchSt → ThatchSt) : (s.modThatch f).gutter = s.gutter := rfl
@[simp] theorem State.modThatch_yelm (s : State) (f : ThatchSt → ThatchSt) : (s.modThatch f).yelm = s.yelm := rfl
@[simp] theorem State.modThatch_flash (s : State) (f : ThatchSt → ThatchSt) : (s.modThatch f).flash = s.flash := rfl
@[simp] theorem State.modThatch_host (s : State) (f : ThatchSt → ThatchSt) : (s.modThatch f).host = s.host := rfl
@[simp] theorem State.modThatch_insts (s : State) (f : ThatchSt → ThatchSt) : (s.modThatch f).insts = s.insts := rfl
@[simp] theorem State.modThatch_finial (s : State) (f : ThatchSt → ThatchSt) : (s.modThatch f).finial = s.finial := rfl
@[simp] theorem State.modThatch_boot (s : State) (f : ThatchSt → ThatchSt) : (s.modThatch f).boot = s.boot := rfl
@[simp] theorem State.modThatch_power (s : State) (f : ThatchSt → ThatchSt) : (s.modThatch f).power = s.power := rfl
@[simp] theorem State.modThatch_mem (s : State) (f : ThatchSt → ThatchSt) : (s.modThatch f).mem = s.mem := rfl
@[simp] theorem State.modThatch_outs (s : State) (f : ThatchSt → ThatchSt) : (s.modThatch f).outs = s.outs := rfl
@[simp] theorem State.modThatch_freeCtr (s : State) (f : ThatchSt → ThatchSt) : (s.modThatch f).freeCtr = s.freeCtr := rfl
@[simp] theorem State.modThatch_pending (s : State) (f : ThatchSt → ThatchSt) : (s.modThatch f).pending = s.pending := rfl
@[simp] theorem State.modDram_time (s : State) (f : DramSt → DramSt) : (s.modDram f).time = s.time := rfl
@[simp] theorem State.modDram_err (s : State) (f : DramSt → DramSt) : (s.modDram f).err = s.err := rfl
@[simp] theorem State.modDram_dict (s : State) (f : DramSt → DramSt) : (s.modDram f).dict = s.dict := rfl
@[simp] theorem State.modDram_tables (s : State) (f : DramSt → DramSt) : (s.modDram f).tables = s.tables := rfl
@[simp] theorem State.modDram_ingest (s : State) (f : DramSt → DramSt) : (s.modDram f).ingest = s.ingest := rfl
@[simp] theorem State.modDram_plans (s : State) (f : DramSt → DramSt) : (s.modDram f).plans = s.plans := rfl
@[simp] theorem State.modDram_purlin (s : State) (f : DramSt → DramSt) : (s.modDram f).purlin = s.purlin := rfl
@[simp] theorem State.modDram_batten (s : State) (f : DramSt → DramSt) : (s.modDram f).batten = s.batten := rfl
@[simp] theorem State.modDram_tiles (s : State) (f : DramSt → DramSt) : (s.modDram f).tiles = s.tiles := rfl
@[simp] theorem State.modDram_thatch (s : State) (f : DramSt → DramSt) : (s.modDram f).thatch = s.thatch := rfl
@[simp] theorem State.modDram_dram (s : State) (f : DramSt → DramSt) : (s.modDram f).dram = f s.dram := rfl
@[simp] theorem State.modDram_gutter (s : State) (f : DramSt → DramSt) : (s.modDram f).gutter = s.gutter := rfl
@[simp] theorem State.modDram_yelm (s : State) (f : DramSt → DramSt) : (s.modDram f).yelm = s.yelm := rfl
@[simp] theorem State.modDram_flash (s : State) (f : DramSt → DramSt) : (s.modDram f).flash = s.flash := rfl
@[simp] theorem State.modDram_host (s : State) (f : DramSt → DramSt) : (s.modDram f).host = s.host := rfl
@[simp] theorem State.modDram_insts (s : State) (f : DramSt → DramSt) : (s.modDram f).insts = s.insts := rfl
@[simp] theorem State.modDram_finial (s : State) (f : DramSt → DramSt) : (s.modDram f).finial = s.finial := rfl
@[simp] theorem State.modDram_boot (s : State) (f : DramSt → DramSt) : (s.modDram f).boot = s.boot := rfl
@[simp] theorem State.modDram_power (s : State) (f : DramSt → DramSt) : (s.modDram f).power = s.power := rfl
@[simp] theorem State.modDram_mem (s : State) (f : DramSt → DramSt) : (s.modDram f).mem = s.mem := rfl
@[simp] theorem State.modDram_outs (s : State) (f : DramSt → DramSt) : (s.modDram f).outs = s.outs := rfl
@[simp] theorem State.modDram_freeCtr (s : State) (f : DramSt → DramSt) : (s.modDram f).freeCtr = s.freeCtr := rfl
@[simp] theorem State.modDram_pending (s : State) (f : DramSt → DramSt) : (s.modDram f).pending = s.pending := rfl
@[simp] theorem State.modGutter_time (s : State) (f : GutterSt → GutterSt) : (s.modGutter f).time = s.time := rfl
@[simp] theorem State.modGutter_err (s : State) (f : GutterSt → GutterSt) : (s.modGutter f).err = s.err := rfl
@[simp] theorem State.modGutter_dict (s : State) (f : GutterSt → GutterSt) : (s.modGutter f).dict = s.dict := rfl
@[simp] theorem State.modGutter_tables (s : State) (f : GutterSt → GutterSt) : (s.modGutter f).tables = s.tables := rfl
@[simp] theorem State.modGutter_ingest (s : State) (f : GutterSt → GutterSt) : (s.modGutter f).ingest = s.ingest := rfl
@[simp] theorem State.modGutter_plans (s : State) (f : GutterSt → GutterSt) : (s.modGutter f).plans = s.plans := rfl
@[simp] theorem State.modGutter_purlin (s : State) (f : GutterSt → GutterSt) : (s.modGutter f).purlin = s.purlin := rfl
@[simp] theorem State.modGutter_batten (s : State) (f : GutterSt → GutterSt) : (s.modGutter f).batten = s.batten := rfl
@[simp] theorem State.modGutter_tiles (s : State) (f : GutterSt → GutterSt) : (s.modGutter f).tiles = s.tiles := rfl
@[simp] theorem State.modGutter_thatch (s : State) (f : GutterSt → GutterSt) : (s.modGutter f).thatch = s.thatch := rfl
@[simp] theorem State.modGutter_dram (s : State) (f : GutterSt → GutterSt) : (s.modGutter f).dram = s.dram := rfl
@[simp] theorem State.modGutter_gutter (s : State) (f : GutterSt → GutterSt) : (s.modGutter f).gutter = f s.gutter := rfl
@[simp] theorem State.modGutter_yelm (s : State) (f : GutterSt → GutterSt) : (s.modGutter f).yelm = s.yelm := rfl
@[simp] theorem State.modGutter_flash (s : State) (f : GutterSt → GutterSt) : (s.modGutter f).flash = s.flash := rfl
@[simp] theorem State.modGutter_host (s : State) (f : GutterSt → GutterSt) : (s.modGutter f).host = s.host := rfl
@[simp] theorem State.modGutter_insts (s : State) (f : GutterSt → GutterSt) : (s.modGutter f).insts = s.insts := rfl
@[simp] theorem State.modGutter_finial (s : State) (f : GutterSt → GutterSt) : (s.modGutter f).finial = s.finial := rfl
@[simp] theorem State.modGutter_boot (s : State) (f : GutterSt → GutterSt) : (s.modGutter f).boot = s.boot := rfl
@[simp] theorem State.modGutter_power (s : State) (f : GutterSt → GutterSt) : (s.modGutter f).power = s.power := rfl
@[simp] theorem State.modGutter_mem (s : State) (f : GutterSt → GutterSt) : (s.modGutter f).mem = s.mem := rfl
@[simp] theorem State.modGutter_outs (s : State) (f : GutterSt → GutterSt) : (s.modGutter f).outs = s.outs := rfl
@[simp] theorem State.modGutter_freeCtr (s : State) (f : GutterSt → GutterSt) : (s.modGutter f).freeCtr = s.freeCtr := rfl
@[simp] theorem State.modGutter_pending (s : State) (f : GutterSt → GutterSt) : (s.modGutter f).pending = s.pending := rfl
@[simp] theorem State.modYelm_time (s : State) (f : YelmSt → YelmSt) : (s.modYelm f).time = s.time := rfl
@[simp] theorem State.modYelm_err (s : State) (f : YelmSt → YelmSt) : (s.modYelm f).err = s.err := rfl
@[simp] theorem State.modYelm_dict (s : State) (f : YelmSt → YelmSt) : (s.modYelm f).dict = s.dict := rfl
@[simp] theorem State.modYelm_tables (s : State) (f : YelmSt → YelmSt) : (s.modYelm f).tables = s.tables := rfl
@[simp] theorem State.modYelm_ingest (s : State) (f : YelmSt → YelmSt) : (s.modYelm f).ingest = s.ingest := rfl
@[simp] theorem State.modYelm_plans (s : State) (f : YelmSt → YelmSt) : (s.modYelm f).plans = s.plans := rfl
@[simp] theorem State.modYelm_purlin (s : State) (f : YelmSt → YelmSt) : (s.modYelm f).purlin = s.purlin := rfl
@[simp] theorem State.modYelm_batten (s : State) (f : YelmSt → YelmSt) : (s.modYelm f).batten = s.batten := rfl
@[simp] theorem State.modYelm_tiles (s : State) (f : YelmSt → YelmSt) : (s.modYelm f).tiles = s.tiles := rfl
@[simp] theorem State.modYelm_thatch (s : State) (f : YelmSt → YelmSt) : (s.modYelm f).thatch = s.thatch := rfl
@[simp] theorem State.modYelm_dram (s : State) (f : YelmSt → YelmSt) : (s.modYelm f).dram = s.dram := rfl
@[simp] theorem State.modYelm_gutter (s : State) (f : YelmSt → YelmSt) : (s.modYelm f).gutter = s.gutter := rfl
@[simp] theorem State.modYelm_yelm (s : State) (f : YelmSt → YelmSt) : (s.modYelm f).yelm = f s.yelm := rfl
@[simp] theorem State.modYelm_flash (s : State) (f : YelmSt → YelmSt) : (s.modYelm f).flash = s.flash := rfl
@[simp] theorem State.modYelm_host (s : State) (f : YelmSt → YelmSt) : (s.modYelm f).host = s.host := rfl
@[simp] theorem State.modYelm_insts (s : State) (f : YelmSt → YelmSt) : (s.modYelm f).insts = s.insts := rfl
@[simp] theorem State.modYelm_finial (s : State) (f : YelmSt → YelmSt) : (s.modYelm f).finial = s.finial := rfl
@[simp] theorem State.modYelm_boot (s : State) (f : YelmSt → YelmSt) : (s.modYelm f).boot = s.boot := rfl
@[simp] theorem State.modYelm_power (s : State) (f : YelmSt → YelmSt) : (s.modYelm f).power = s.power := rfl
@[simp] theorem State.modYelm_mem (s : State) (f : YelmSt → YelmSt) : (s.modYelm f).mem = s.mem := rfl
@[simp] theorem State.modYelm_outs (s : State) (f : YelmSt → YelmSt) : (s.modYelm f).outs = s.outs := rfl
@[simp] theorem State.modYelm_freeCtr (s : State) (f : YelmSt → YelmSt) : (s.modYelm f).freeCtr = s.freeCtr := rfl
@[simp] theorem State.modYelm_pending (s : State) (f : YelmSt → YelmSt) : (s.modYelm f).pending = s.pending := rfl
@[simp] theorem State.modFlash_time (s : State) (f : FlashSt → FlashSt) : (s.modFlash f).time = s.time := rfl
@[simp] theorem State.modFlash_err (s : State) (f : FlashSt → FlashSt) : (s.modFlash f).err = s.err := rfl
@[simp] theorem State.modFlash_dict (s : State) (f : FlashSt → FlashSt) : (s.modFlash f).dict = s.dict := rfl
@[simp] theorem State.modFlash_tables (s : State) (f : FlashSt → FlashSt) : (s.modFlash f).tables = s.tables := rfl
@[simp] theorem State.modFlash_ingest (s : State) (f : FlashSt → FlashSt) : (s.modFlash f).ingest = s.ingest := rfl
@[simp] theorem State.modFlash_plans (s : State) (f : FlashSt → FlashSt) : (s.modFlash f).plans = s.plans := rfl
@[simp] theorem State.modFlash_purlin (s : State) (f : FlashSt → FlashSt) : (s.modFlash f).purlin = s.purlin := rfl
@[simp] theorem State.modFlash_batten (s : State) (f : FlashSt → FlashSt) : (s.modFlash f).batten = s.batten := rfl
@[simp] theorem State.modFlash_tiles (s : State) (f : FlashSt → FlashSt) : (s.modFlash f).tiles = s.tiles := rfl
@[simp] theorem State.modFlash_thatch (s : State) (f : FlashSt → FlashSt) : (s.modFlash f).thatch = s.thatch := rfl
@[simp] theorem State.modFlash_dram (s : State) (f : FlashSt → FlashSt) : (s.modFlash f).dram = s.dram := rfl
@[simp] theorem State.modFlash_gutter (s : State) (f : FlashSt → FlashSt) : (s.modFlash f).gutter = s.gutter := rfl
@[simp] theorem State.modFlash_yelm (s : State) (f : FlashSt → FlashSt) : (s.modFlash f).yelm = s.yelm := rfl
@[simp] theorem State.modFlash_flash (s : State) (f : FlashSt → FlashSt) : (s.modFlash f).flash = f s.flash := rfl
@[simp] theorem State.modFlash_host (s : State) (f : FlashSt → FlashSt) : (s.modFlash f).host = s.host := rfl
@[simp] theorem State.modFlash_insts (s : State) (f : FlashSt → FlashSt) : (s.modFlash f).insts = s.insts := rfl
@[simp] theorem State.modFlash_finial (s : State) (f : FlashSt → FlashSt) : (s.modFlash f).finial = s.finial := rfl
@[simp] theorem State.modFlash_boot (s : State) (f : FlashSt → FlashSt) : (s.modFlash f).boot = s.boot := rfl
@[simp] theorem State.modFlash_power (s : State) (f : FlashSt → FlashSt) : (s.modFlash f).power = s.power := rfl
@[simp] theorem State.modFlash_mem (s : State) (f : FlashSt → FlashSt) : (s.modFlash f).mem = s.mem := rfl
@[simp] theorem State.modFlash_outs (s : State) (f : FlashSt → FlashSt) : (s.modFlash f).outs = s.outs := rfl
@[simp] theorem State.modFlash_freeCtr (s : State) (f : FlashSt → FlashSt) : (s.modFlash f).freeCtr = s.freeCtr := rfl
@[simp] theorem State.modFlash_pending (s : State) (f : FlashSt → FlashSt) : (s.modFlash f).pending = s.pending := rfl
@[simp] theorem State.modHost_time (s : State) (f : HostSt → HostSt) : (s.modHost f).time = s.time := rfl
@[simp] theorem State.modHost_err (s : State) (f : HostSt → HostSt) : (s.modHost f).err = s.err := rfl
@[simp] theorem State.modHost_dict (s : State) (f : HostSt → HostSt) : (s.modHost f).dict = s.dict := rfl
@[simp] theorem State.modHost_tables (s : State) (f : HostSt → HostSt) : (s.modHost f).tables = s.tables := rfl
@[simp] theorem State.modHost_ingest (s : State) (f : HostSt → HostSt) : (s.modHost f).ingest = s.ingest := rfl
@[simp] theorem State.modHost_plans (s : State) (f : HostSt → HostSt) : (s.modHost f).plans = s.plans := rfl
@[simp] theorem State.modHost_purlin (s : State) (f : HostSt → HostSt) : (s.modHost f).purlin = s.purlin := rfl
@[simp] theorem State.modHost_batten (s : State) (f : HostSt → HostSt) : (s.modHost f).batten = s.batten := rfl
@[simp] theorem State.modHost_tiles (s : State) (f : HostSt → HostSt) : (s.modHost f).tiles = s.tiles := rfl
@[simp] theorem State.modHost_thatch (s : State) (f : HostSt → HostSt) : (s.modHost f).thatch = s.thatch := rfl
@[simp] theorem State.modHost_dram (s : State) (f : HostSt → HostSt) : (s.modHost f).dram = s.dram := rfl
@[simp] theorem State.modHost_gutter (s : State) (f : HostSt → HostSt) : (s.modHost f).gutter = s.gutter := rfl
@[simp] theorem State.modHost_yelm (s : State) (f : HostSt → HostSt) : (s.modHost f).yelm = s.yelm := rfl
@[simp] theorem State.modHost_flash (s : State) (f : HostSt → HostSt) : (s.modHost f).flash = s.flash := rfl
@[simp] theorem State.modHost_host (s : State) (f : HostSt → HostSt) : (s.modHost f).host = f s.host := rfl
@[simp] theorem State.modHost_insts (s : State) (f : HostSt → HostSt) : (s.modHost f).insts = s.insts := rfl
@[simp] theorem State.modHost_finial (s : State) (f : HostSt → HostSt) : (s.modHost f).finial = s.finial := rfl
@[simp] theorem State.modHost_boot (s : State) (f : HostSt → HostSt) : (s.modHost f).boot = s.boot := rfl
@[simp] theorem State.modHost_power (s : State) (f : HostSt → HostSt) : (s.modHost f).power = s.power := rfl
@[simp] theorem State.modHost_mem (s : State) (f : HostSt → HostSt) : (s.modHost f).mem = s.mem := rfl
@[simp] theorem State.modHost_outs (s : State) (f : HostSt → HostSt) : (s.modHost f).outs = s.outs := rfl
@[simp] theorem State.modHost_freeCtr (s : State) (f : HostSt → HostSt) : (s.modHost f).freeCtr = s.freeCtr := rfl
@[simp] theorem State.modHost_pending (s : State) (f : HostSt → HostSt) : (s.modHost f).pending = s.pending := rfl
@[simp] theorem State.modInsts_time (s : State) (f : Vector Inst 64 → Vector Inst 64) : (s.modInsts f).time = s.time := rfl
@[simp] theorem State.modInsts_err (s : State) (f : Vector Inst 64 → Vector Inst 64) : (s.modInsts f).err = s.err := rfl
@[simp] theorem State.modInsts_dict (s : State) (f : Vector Inst 64 → Vector Inst 64) : (s.modInsts f).dict = s.dict := rfl
@[simp] theorem State.modInsts_tables (s : State) (f : Vector Inst 64 → Vector Inst 64) : (s.modInsts f).tables = s.tables := rfl
@[simp] theorem State.modInsts_ingest (s : State) (f : Vector Inst 64 → Vector Inst 64) : (s.modInsts f).ingest = s.ingest := rfl
@[simp] theorem State.modInsts_plans (s : State) (f : Vector Inst 64 → Vector Inst 64) : (s.modInsts f).plans = s.plans := rfl
@[simp] theorem State.modInsts_purlin (s : State) (f : Vector Inst 64 → Vector Inst 64) : (s.modInsts f).purlin = s.purlin := rfl
@[simp] theorem State.modInsts_batten (s : State) (f : Vector Inst 64 → Vector Inst 64) : (s.modInsts f).batten = s.batten := rfl
@[simp] theorem State.modInsts_tiles (s : State) (f : Vector Inst 64 → Vector Inst 64) : (s.modInsts f).tiles = s.tiles := rfl
@[simp] theorem State.modInsts_thatch (s : State) (f : Vector Inst 64 → Vector Inst 64) : (s.modInsts f).thatch = s.thatch := rfl
@[simp] theorem State.modInsts_dram (s : State) (f : Vector Inst 64 → Vector Inst 64) : (s.modInsts f).dram = s.dram := rfl
@[simp] theorem State.modInsts_gutter (s : State) (f : Vector Inst 64 → Vector Inst 64) : (s.modInsts f).gutter = s.gutter := rfl
@[simp] theorem State.modInsts_yelm (s : State) (f : Vector Inst 64 → Vector Inst 64) : (s.modInsts f).yelm = s.yelm := rfl
@[simp] theorem State.modInsts_flash (s : State) (f : Vector Inst 64 → Vector Inst 64) : (s.modInsts f).flash = s.flash := rfl
@[simp] theorem State.modInsts_host (s : State) (f : Vector Inst 64 → Vector Inst 64) : (s.modInsts f).host = s.host := rfl
@[simp] theorem State.modInsts_insts (s : State) (f : Vector Inst 64 → Vector Inst 64) : (s.modInsts f).insts = f s.insts := rfl
@[simp] theorem State.modInsts_finial (s : State) (f : Vector Inst 64 → Vector Inst 64) : (s.modInsts f).finial = s.finial := rfl
@[simp] theorem State.modInsts_boot (s : State) (f : Vector Inst 64 → Vector Inst 64) : (s.modInsts f).boot = s.boot := rfl
@[simp] theorem State.modInsts_power (s : State) (f : Vector Inst 64 → Vector Inst 64) : (s.modInsts f).power = s.power := rfl
@[simp] theorem State.modInsts_mem (s : State) (f : Vector Inst 64 → Vector Inst 64) : (s.modInsts f).mem = s.mem := rfl
@[simp] theorem State.modInsts_outs (s : State) (f : Vector Inst 64 → Vector Inst 64) : (s.modInsts f).outs = s.outs := rfl
@[simp] theorem State.modInsts_freeCtr (s : State) (f : Vector Inst 64 → Vector Inst 64) : (s.modInsts f).freeCtr = s.freeCtr := rfl
@[simp] theorem State.modInsts_pending (s : State) (f : Vector Inst 64 → Vector Inst 64) : (s.modInsts f).pending = s.pending := rfl
@[simp] theorem State.modFinial_time (s : State) (f : FinialSt → FinialSt) : (s.modFinial f).time = s.time := rfl
@[simp] theorem State.modFinial_err (s : State) (f : FinialSt → FinialSt) : (s.modFinial f).err = s.err := rfl
@[simp] theorem State.modFinial_dict (s : State) (f : FinialSt → FinialSt) : (s.modFinial f).dict = s.dict := rfl
@[simp] theorem State.modFinial_tables (s : State) (f : FinialSt → FinialSt) : (s.modFinial f).tables = s.tables := rfl
@[simp] theorem State.modFinial_ingest (s : State) (f : FinialSt → FinialSt) : (s.modFinial f).ingest = s.ingest := rfl
@[simp] theorem State.modFinial_plans (s : State) (f : FinialSt → FinialSt) : (s.modFinial f).plans = s.plans := rfl
@[simp] theorem State.modFinial_purlin (s : State) (f : FinialSt → FinialSt) : (s.modFinial f).purlin = s.purlin := rfl
@[simp] theorem State.modFinial_batten (s : State) (f : FinialSt → FinialSt) : (s.modFinial f).batten = s.batten := rfl
@[simp] theorem State.modFinial_tiles (s : State) (f : FinialSt → FinialSt) : (s.modFinial f).tiles = s.tiles := rfl
@[simp] theorem State.modFinial_thatch (s : State) (f : FinialSt → FinialSt) : (s.modFinial f).thatch = s.thatch := rfl
@[simp] theorem State.modFinial_dram (s : State) (f : FinialSt → FinialSt) : (s.modFinial f).dram = s.dram := rfl
@[simp] theorem State.modFinial_gutter (s : State) (f : FinialSt → FinialSt) : (s.modFinial f).gutter = s.gutter := rfl
@[simp] theorem State.modFinial_yelm (s : State) (f : FinialSt → FinialSt) : (s.modFinial f).yelm = s.yelm := rfl
@[simp] theorem State.modFinial_flash (s : State) (f : FinialSt → FinialSt) : (s.modFinial f).flash = s.flash := rfl
@[simp] theorem State.modFinial_host (s : State) (f : FinialSt → FinialSt) : (s.modFinial f).host = s.host := rfl
@[simp] theorem State.modFinial_insts (s : State) (f : FinialSt → FinialSt) : (s.modFinial f).insts = s.insts := rfl
@[simp] theorem State.modFinial_finial (s : State) (f : FinialSt → FinialSt) : (s.modFinial f).finial = f s.finial := rfl
@[simp] theorem State.modFinial_boot (s : State) (f : FinialSt → FinialSt) : (s.modFinial f).boot = s.boot := rfl
@[simp] theorem State.modFinial_power (s : State) (f : FinialSt → FinialSt) : (s.modFinial f).power = s.power := rfl
@[simp] theorem State.modFinial_mem (s : State) (f : FinialSt → FinialSt) : (s.modFinial f).mem = s.mem := rfl
@[simp] theorem State.modFinial_outs (s : State) (f : FinialSt → FinialSt) : (s.modFinial f).outs = s.outs := rfl
@[simp] theorem State.modFinial_freeCtr (s : State) (f : FinialSt → FinialSt) : (s.modFinial f).freeCtr = s.freeCtr := rfl
@[simp] theorem State.modFinial_pending (s : State) (f : FinialSt → FinialSt) : (s.modFinial f).pending = s.pending := rfl
@[simp] theorem State.modBoot_time (s : State) (f : BootSt → BootSt) : (s.modBoot f).time = s.time := rfl
@[simp] theorem State.modBoot_err (s : State) (f : BootSt → BootSt) : (s.modBoot f).err = s.err := rfl
@[simp] theorem State.modBoot_dict (s : State) (f : BootSt → BootSt) : (s.modBoot f).dict = s.dict := rfl
@[simp] theorem State.modBoot_tables (s : State) (f : BootSt → BootSt) : (s.modBoot f).tables = s.tables := rfl
@[simp] theorem State.modBoot_ingest (s : State) (f : BootSt → BootSt) : (s.modBoot f).ingest = s.ingest := rfl
@[simp] theorem State.modBoot_plans (s : State) (f : BootSt → BootSt) : (s.modBoot f).plans = s.plans := rfl
@[simp] theorem State.modBoot_purlin (s : State) (f : BootSt → BootSt) : (s.modBoot f).purlin = s.purlin := rfl
@[simp] theorem State.modBoot_batten (s : State) (f : BootSt → BootSt) : (s.modBoot f).batten = s.batten := rfl
@[simp] theorem State.modBoot_tiles (s : State) (f : BootSt → BootSt) : (s.modBoot f).tiles = s.tiles := rfl
@[simp] theorem State.modBoot_thatch (s : State) (f : BootSt → BootSt) : (s.modBoot f).thatch = s.thatch := rfl
@[simp] theorem State.modBoot_dram (s : State) (f : BootSt → BootSt) : (s.modBoot f).dram = s.dram := rfl
@[simp] theorem State.modBoot_gutter (s : State) (f : BootSt → BootSt) : (s.modBoot f).gutter = s.gutter := rfl
@[simp] theorem State.modBoot_yelm (s : State) (f : BootSt → BootSt) : (s.modBoot f).yelm = s.yelm := rfl
@[simp] theorem State.modBoot_flash (s : State) (f : BootSt → BootSt) : (s.modBoot f).flash = s.flash := rfl
@[simp] theorem State.modBoot_host (s : State) (f : BootSt → BootSt) : (s.modBoot f).host = s.host := rfl
@[simp] theorem State.modBoot_insts (s : State) (f : BootSt → BootSt) : (s.modBoot f).insts = s.insts := rfl
@[simp] theorem State.modBoot_finial (s : State) (f : BootSt → BootSt) : (s.modBoot f).finial = s.finial := rfl
@[simp] theorem State.modBoot_boot (s : State) (f : BootSt → BootSt) : (s.modBoot f).boot = f s.boot := rfl
@[simp] theorem State.modBoot_power (s : State) (f : BootSt → BootSt) : (s.modBoot f).power = s.power := rfl
@[simp] theorem State.modBoot_mem (s : State) (f : BootSt → BootSt) : (s.modBoot f).mem = s.mem := rfl
@[simp] theorem State.modBoot_outs (s : State) (f : BootSt → BootSt) : (s.modBoot f).outs = s.outs := rfl
@[simp] theorem State.modBoot_freeCtr (s : State) (f : BootSt → BootSt) : (s.modBoot f).freeCtr = s.freeCtr := rfl
@[simp] theorem State.modBoot_pending (s : State) (f : BootSt → BootSt) : (s.modBoot f).pending = s.pending := rfl
@[simp] theorem State.modPower_time (s : State) (f : PowerSt → PowerSt) : (s.modPower f).time = s.time := rfl
@[simp] theorem State.modPower_err (s : State) (f : PowerSt → PowerSt) : (s.modPower f).err = s.err := rfl
@[simp] theorem State.modPower_dict (s : State) (f : PowerSt → PowerSt) : (s.modPower f).dict = s.dict := rfl
@[simp] theorem State.modPower_tables (s : State) (f : PowerSt → PowerSt) : (s.modPower f).tables = s.tables := rfl
@[simp] theorem State.modPower_ingest (s : State) (f : PowerSt → PowerSt) : (s.modPower f).ingest = s.ingest := rfl
@[simp] theorem State.modPower_plans (s : State) (f : PowerSt → PowerSt) : (s.modPower f).plans = s.plans := rfl
@[simp] theorem State.modPower_purlin (s : State) (f : PowerSt → PowerSt) : (s.modPower f).purlin = s.purlin := rfl
@[simp] theorem State.modPower_batten (s : State) (f : PowerSt → PowerSt) : (s.modPower f).batten = s.batten := rfl
@[simp] theorem State.modPower_tiles (s : State) (f : PowerSt → PowerSt) : (s.modPower f).tiles = s.tiles := rfl
@[simp] theorem State.modPower_thatch (s : State) (f : PowerSt → PowerSt) : (s.modPower f).thatch = s.thatch := rfl
@[simp] theorem State.modPower_dram (s : State) (f : PowerSt → PowerSt) : (s.modPower f).dram = s.dram := rfl
@[simp] theorem State.modPower_gutter (s : State) (f : PowerSt → PowerSt) : (s.modPower f).gutter = s.gutter := rfl
@[simp] theorem State.modPower_yelm (s : State) (f : PowerSt → PowerSt) : (s.modPower f).yelm = s.yelm := rfl
@[simp] theorem State.modPower_flash (s : State) (f : PowerSt → PowerSt) : (s.modPower f).flash = s.flash := rfl
@[simp] theorem State.modPower_host (s : State) (f : PowerSt → PowerSt) : (s.modPower f).host = s.host := rfl
@[simp] theorem State.modPower_insts (s : State) (f : PowerSt → PowerSt) : (s.modPower f).insts = s.insts := rfl
@[simp] theorem State.modPower_finial (s : State) (f : PowerSt → PowerSt) : (s.modPower f).finial = s.finial := rfl
@[simp] theorem State.modPower_boot (s : State) (f : PowerSt → PowerSt) : (s.modPower f).boot = s.boot := rfl
@[simp] theorem State.modPower_power (s : State) (f : PowerSt → PowerSt) : (s.modPower f).power = f s.power := rfl
@[simp] theorem State.modPower_mem (s : State) (f : PowerSt → PowerSt) : (s.modPower f).mem = s.mem := rfl
@[simp] theorem State.modPower_outs (s : State) (f : PowerSt → PowerSt) : (s.modPower f).outs = s.outs := rfl
@[simp] theorem State.modPower_freeCtr (s : State) (f : PowerSt → PowerSt) : (s.modPower f).freeCtr = s.freeCtr := rfl
@[simp] theorem State.modPower_pending (s : State) (f : PowerSt → PowerSt) : (s.modPower f).pending = s.pending := rfl
@[simp] theorem State.modMem_time (s : State) (f : List Host.Cell → List Host.Cell) : (s.modMem f).time = s.time := rfl
@[simp] theorem State.modMem_err (s : State) (f : List Host.Cell → List Host.Cell) : (s.modMem f).err = s.err := rfl
@[simp] theorem State.modMem_dict (s : State) (f : List Host.Cell → List Host.Cell) : (s.modMem f).dict = s.dict := rfl
@[simp] theorem State.modMem_tables (s : State) (f : List Host.Cell → List Host.Cell) : (s.modMem f).tables = s.tables := rfl
@[simp] theorem State.modMem_ingest (s : State) (f : List Host.Cell → List Host.Cell) : (s.modMem f).ingest = s.ingest := rfl
@[simp] theorem State.modMem_plans (s : State) (f : List Host.Cell → List Host.Cell) : (s.modMem f).plans = s.plans := rfl
@[simp] theorem State.modMem_purlin (s : State) (f : List Host.Cell → List Host.Cell) : (s.modMem f).purlin = s.purlin := rfl
@[simp] theorem State.modMem_batten (s : State) (f : List Host.Cell → List Host.Cell) : (s.modMem f).batten = s.batten := rfl
@[simp] theorem State.modMem_tiles (s : State) (f : List Host.Cell → List Host.Cell) : (s.modMem f).tiles = s.tiles := rfl
@[simp] theorem State.modMem_thatch (s : State) (f : List Host.Cell → List Host.Cell) : (s.modMem f).thatch = s.thatch := rfl
@[simp] theorem State.modMem_dram (s : State) (f : List Host.Cell → List Host.Cell) : (s.modMem f).dram = s.dram := rfl
@[simp] theorem State.modMem_gutter (s : State) (f : List Host.Cell → List Host.Cell) : (s.modMem f).gutter = s.gutter := rfl
@[simp] theorem State.modMem_yelm (s : State) (f : List Host.Cell → List Host.Cell) : (s.modMem f).yelm = s.yelm := rfl
@[simp] theorem State.modMem_flash (s : State) (f : List Host.Cell → List Host.Cell) : (s.modMem f).flash = s.flash := rfl
@[simp] theorem State.modMem_host (s : State) (f : List Host.Cell → List Host.Cell) : (s.modMem f).host = s.host := rfl
@[simp] theorem State.modMem_insts (s : State) (f : List Host.Cell → List Host.Cell) : (s.modMem f).insts = s.insts := rfl
@[simp] theorem State.modMem_finial (s : State) (f : List Host.Cell → List Host.Cell) : (s.modMem f).finial = s.finial := rfl
@[simp] theorem State.modMem_boot (s : State) (f : List Host.Cell → List Host.Cell) : (s.modMem f).boot = s.boot := rfl
@[simp] theorem State.modMem_power (s : State) (f : List Host.Cell → List Host.Cell) : (s.modMem f).power = s.power := rfl
@[simp] theorem State.modMem_mem (s : State) (f : List Host.Cell → List Host.Cell) : (s.modMem f).mem = f s.mem := rfl
@[simp] theorem State.modMem_outs (s : State) (f : List Host.Cell → List Host.Cell) : (s.modMem f).outs = s.outs := rfl
@[simp] theorem State.modMem_freeCtr (s : State) (f : List Host.Cell → List Host.Cell) : (s.modMem f).freeCtr = s.freeCtr := rfl
@[simp] theorem State.modMem_pending (s : State) (f : List Host.Cell → List Host.Cell) : (s.modMem f).pending = s.pending := rfl
@[simp] theorem State.modOuts_time (s : State) (f : List Out → List Out) : (s.modOuts f).time = s.time := rfl
@[simp] theorem State.modOuts_err (s : State) (f : List Out → List Out) : (s.modOuts f).err = s.err := rfl
@[simp] theorem State.modOuts_dict (s : State) (f : List Out → List Out) : (s.modOuts f).dict = s.dict := rfl
@[simp] theorem State.modOuts_tables (s : State) (f : List Out → List Out) : (s.modOuts f).tables = s.tables := rfl
@[simp] theorem State.modOuts_ingest (s : State) (f : List Out → List Out) : (s.modOuts f).ingest = s.ingest := rfl
@[simp] theorem State.modOuts_plans (s : State) (f : List Out → List Out) : (s.modOuts f).plans = s.plans := rfl
@[simp] theorem State.modOuts_purlin (s : State) (f : List Out → List Out) : (s.modOuts f).purlin = s.purlin := rfl
@[simp] theorem State.modOuts_batten (s : State) (f : List Out → List Out) : (s.modOuts f).batten = s.batten := rfl
@[simp] theorem State.modOuts_tiles (s : State) (f : List Out → List Out) : (s.modOuts f).tiles = s.tiles := rfl
@[simp] theorem State.modOuts_thatch (s : State) (f : List Out → List Out) : (s.modOuts f).thatch = s.thatch := rfl
@[simp] theorem State.modOuts_dram (s : State) (f : List Out → List Out) : (s.modOuts f).dram = s.dram := rfl
@[simp] theorem State.modOuts_gutter (s : State) (f : List Out → List Out) : (s.modOuts f).gutter = s.gutter := rfl
@[simp] theorem State.modOuts_yelm (s : State) (f : List Out → List Out) : (s.modOuts f).yelm = s.yelm := rfl
@[simp] theorem State.modOuts_flash (s : State) (f : List Out → List Out) : (s.modOuts f).flash = s.flash := rfl
@[simp] theorem State.modOuts_host (s : State) (f : List Out → List Out) : (s.modOuts f).host = s.host := rfl
@[simp] theorem State.modOuts_insts (s : State) (f : List Out → List Out) : (s.modOuts f).insts = s.insts := rfl
@[simp] theorem State.modOuts_finial (s : State) (f : List Out → List Out) : (s.modOuts f).finial = s.finial := rfl
@[simp] theorem State.modOuts_boot (s : State) (f : List Out → List Out) : (s.modOuts f).boot = s.boot := rfl
@[simp] theorem State.modOuts_power (s : State) (f : List Out → List Out) : (s.modOuts f).power = s.power := rfl
@[simp] theorem State.modOuts_mem (s : State) (f : List Out → List Out) : (s.modOuts f).mem = s.mem := rfl
@[simp] theorem State.modOuts_outs (s : State) (f : List Out → List Out) : (s.modOuts f).outs = f s.outs := rfl
@[simp] theorem State.modOuts_freeCtr (s : State) (f : List Out → List Out) : (s.modOuts f).freeCtr = s.freeCtr := rfl
@[simp] theorem State.modOuts_pending (s : State) (f : List Out → List Out) : (s.modOuts f).pending = s.pending := rfl
@[simp] theorem State.modFreeCtr_time (s : State) (f : Nat → Nat) : (s.modFreeCtr f).time = s.time := rfl
@[simp] theorem State.modFreeCtr_err (s : State) (f : Nat → Nat) : (s.modFreeCtr f).err = s.err := rfl
@[simp] theorem State.modFreeCtr_dict (s : State) (f : Nat → Nat) : (s.modFreeCtr f).dict = s.dict := rfl
@[simp] theorem State.modFreeCtr_tables (s : State) (f : Nat → Nat) : (s.modFreeCtr f).tables = s.tables := rfl
@[simp] theorem State.modFreeCtr_ingest (s : State) (f : Nat → Nat) : (s.modFreeCtr f).ingest = s.ingest := rfl
@[simp] theorem State.modFreeCtr_plans (s : State) (f : Nat → Nat) : (s.modFreeCtr f).plans = s.plans := rfl
@[simp] theorem State.modFreeCtr_purlin (s : State) (f : Nat → Nat) : (s.modFreeCtr f).purlin = s.purlin := rfl
@[simp] theorem State.modFreeCtr_batten (s : State) (f : Nat → Nat) : (s.modFreeCtr f).batten = s.batten := rfl
@[simp] theorem State.modFreeCtr_tiles (s : State) (f : Nat → Nat) : (s.modFreeCtr f).tiles = s.tiles := rfl
@[simp] theorem State.modFreeCtr_thatch (s : State) (f : Nat → Nat) : (s.modFreeCtr f).thatch = s.thatch := rfl
@[simp] theorem State.modFreeCtr_dram (s : State) (f : Nat → Nat) : (s.modFreeCtr f).dram = s.dram := rfl
@[simp] theorem State.modFreeCtr_gutter (s : State) (f : Nat → Nat) : (s.modFreeCtr f).gutter = s.gutter := rfl
@[simp] theorem State.modFreeCtr_yelm (s : State) (f : Nat → Nat) : (s.modFreeCtr f).yelm = s.yelm := rfl
@[simp] theorem State.modFreeCtr_flash (s : State) (f : Nat → Nat) : (s.modFreeCtr f).flash = s.flash := rfl
@[simp] theorem State.modFreeCtr_host (s : State) (f : Nat → Nat) : (s.modFreeCtr f).host = s.host := rfl
@[simp] theorem State.modFreeCtr_insts (s : State) (f : Nat → Nat) : (s.modFreeCtr f).insts = s.insts := rfl
@[simp] theorem State.modFreeCtr_finial (s : State) (f : Nat → Nat) : (s.modFreeCtr f).finial = s.finial := rfl
@[simp] theorem State.modFreeCtr_boot (s : State) (f : Nat → Nat) : (s.modFreeCtr f).boot = s.boot := rfl
@[simp] theorem State.modFreeCtr_power (s : State) (f : Nat → Nat) : (s.modFreeCtr f).power = s.power := rfl
@[simp] theorem State.modFreeCtr_mem (s : State) (f : Nat → Nat) : (s.modFreeCtr f).mem = s.mem := rfl
@[simp] theorem State.modFreeCtr_outs (s : State) (f : Nat → Nat) : (s.modFreeCtr f).outs = s.outs := rfl
@[simp] theorem State.modFreeCtr_freeCtr (s : State) (f : Nat → Nat) : (s.modFreeCtr f).freeCtr = f s.freeCtr := rfl
@[simp] theorem State.modFreeCtr_pending (s : State) (f : Nat → Nat) : (s.modFreeCtr f).pending = s.pending := rfl
@[simp] theorem State.modPending_time (s : State) (f : List Instr → List Instr) : (s.modPending f).time = s.time := rfl
@[simp] theorem State.modPending_err (s : State) (f : List Instr → List Instr) : (s.modPending f).err = s.err := rfl
@[simp] theorem State.modPending_dict (s : State) (f : List Instr → List Instr) : (s.modPending f).dict = s.dict := rfl
@[simp] theorem State.modPending_tables (s : State) (f : List Instr → List Instr) : (s.modPending f).tables = s.tables := rfl
@[simp] theorem State.modPending_ingest (s : State) (f : List Instr → List Instr) : (s.modPending f).ingest = s.ingest := rfl
@[simp] theorem State.modPending_plans (s : State) (f : List Instr → List Instr) : (s.modPending f).plans = s.plans := rfl
@[simp] theorem State.modPending_purlin (s : State) (f : List Instr → List Instr) : (s.modPending f).purlin = s.purlin := rfl
@[simp] theorem State.modPending_batten (s : State) (f : List Instr → List Instr) : (s.modPending f).batten = s.batten := rfl
@[simp] theorem State.modPending_tiles (s : State) (f : List Instr → List Instr) : (s.modPending f).tiles = s.tiles := rfl
@[simp] theorem State.modPending_thatch (s : State) (f : List Instr → List Instr) : (s.modPending f).thatch = s.thatch := rfl
@[simp] theorem State.modPending_dram (s : State) (f : List Instr → List Instr) : (s.modPending f).dram = s.dram := rfl
@[simp] theorem State.modPending_gutter (s : State) (f : List Instr → List Instr) : (s.modPending f).gutter = s.gutter := rfl
@[simp] theorem State.modPending_yelm (s : State) (f : List Instr → List Instr) : (s.modPending f).yelm = s.yelm := rfl
@[simp] theorem State.modPending_flash (s : State) (f : List Instr → List Instr) : (s.modPending f).flash = s.flash := rfl
@[simp] theorem State.modPending_host (s : State) (f : List Instr → List Instr) : (s.modPending f).host = s.host := rfl
@[simp] theorem State.modPending_insts (s : State) (f : List Instr → List Instr) : (s.modPending f).insts = s.insts := rfl
@[simp] theorem State.modPending_finial (s : State) (f : List Instr → List Instr) : (s.modPending f).finial = s.finial := rfl
@[simp] theorem State.modPending_boot (s : State) (f : List Instr → List Instr) : (s.modPending f).boot = s.boot := rfl
@[simp] theorem State.modPending_power (s : State) (f : List Instr → List Instr) : (s.modPending f).power = s.power := rfl
@[simp] theorem State.modPending_mem (s : State) (f : List Instr → List Instr) : (s.modPending f).mem = s.mem := rfl
@[simp] theorem State.modPending_outs (s : State) (f : List Instr → List Instr) : (s.modPending f).outs = s.outs := rfl
@[simp] theorem State.modPending_freeCtr (s : State) (f : List Instr → List Instr) : (s.modPending f).freeCtr = s.freeCtr := rfl
@[simp] theorem State.modPending_pending (s : State) (f : List Instr → List Instr) : (s.modPending f).pending = f s.pending := rfl

end Sys2Proof.Machine
end

