-- ==== Sys2Proof/Laws/Memory.lean ====
section
/-! SUPPORT. Sparse maps and memory: reading after writing, and that every memory operation keeps the canonical form. -/

namespace Sys2Proof.Machine

set_option Elab.async false

variable {α : Type}

theorem nsorted_cons (i : Nat) (v : α) (r : NMap α) :
    nsorted ((i, v) :: r) = true ↔ (∀ p ∈ r, i < p.1) ∧ nsorted r = true := by
  induction r generalizing i v with
  | nil => simp [nsorted]
  | cons p r ih =>
    obtain ⟨j, w⟩ := p
    simp only [nsorted, Bool.and_eq_true, decide_eq_true_eq, List.mem_cons]
    constructor
    · rintro ⟨h, hs⟩
      refine ⟨?_, hs⟩
      rintro p (rfl | hp)
      · exact h
      · exact Nat.lt_trans h (((ih j w).mp hs).1 p hp)
    · rintro ⟨h, hs⟩
      exact ⟨h (j, w) (.inl rfl), hs⟩

theorem mem_nput {m : NMap α} {k : Nat} {v : α} {p : Nat × α} (h : p ∈ nput m k v) : p = (k, v) ∨ p ∈ m := by
  induction m with
  | nil => simpa [nput] using h
  | cons q r ih =>
    obtain ⟨j, w⟩ := q
    simp only [nput] at h
    split at h
    · rcases List.mem_cons.mp h with rfl | h
      · exact .inl rfl
      · exact .inr (List.mem_cons_of_mem _ h)
    · split at h
      · simpa using h
      · rcases List.mem_cons.mp h with rfl | h
        · exact .inr (by simp)
        · exact (ih h).imp id (List.mem_cons_of_mem _)

theorem mem_ndel {m : NMap α} {k : Nat} {p : Nat × α} (h : p ∈ ndel m k) : p ∈ m := by
  induction m with
  | nil => simp [ndel] at h
  | cons q r ih =>
    obtain ⟨j, w⟩ := q
    simp only [ndel] at h
    split at h
    · exact List.mem_cons_of_mem _ h
    · split at h
      · exact h
      · rcases List.mem_cons.mp h with rfl | h
        · simp
        · exact List.mem_cons_of_mem _ (ih h)

theorem nput_sorted {m : NMap α} (k : Nat) (v : α) (h : nsorted m = true) : nsorted (nput m k v) = true := by
  induction m with
  | nil => simp [nput, nsorted]
  | cons q r ih =>
    obtain ⟨j, w⟩ := q
    obtain ⟨hj, hr⟩ := (nsorted_cons j w r).mp h
    simp only [nput]
    split
    · rename_i e
      have e : j = k := by simpa using e
      subst e
      exact (nsorted_cons j v r).mpr ⟨hj, hr⟩
    · split
      · rename_i hk
        refine (nsorted_cons k v _).mpr ⟨?_, h⟩
        intro p hp
        rcases List.mem_cons.mp hp with rfl | hp
        · exact hk
        · exact Nat.lt_trans hk (hj p hp)
      · rename_i e hk
        refine (nsorted_cons j w _).mpr ⟨?_, ih hr⟩
        intro p hp
        rcases mem_nput hp with rfl | hp
        · have e : j ≠ k := by simpa using e
          omega
        · exact hj p hp

theorem ndel_sorted {m : NMap α} (k : Nat) (h : nsorted m = true) : nsorted (ndel m k) = true := by
  induction m with
  | nil => simp [ndel, nsorted]
  | cons q r ih =>
    obtain ⟨j, w⟩ := q
    obtain ⟨hj, hr⟩ := (nsorted_cons j w r).mp h
    simp only [ndel]
    split
    · exact hr
    · split
      · exact h
      · exact (nsorted_cons j w _).mpr ⟨fun p hp => hj p (mem_ndel hp), ih hr⟩

theorem filter_sorted {m : NMap α} (f : Nat × α → Bool) (h : nsorted m = true) : nsorted (m.filter f) = true := by
  induction m with
  | nil => simp [nsorted]
  | cons q r ih =>
    obtain ⟨j, w⟩ := q
    obtain ⟨hj, hr⟩ := (nsorted_cons j w r).mp h
    rw [List.filter_cons]
    split
    · exact (nsorted_cons j w _).mpr ⟨fun p hp => hj p (List.mem_filter.mp hp).1, ih hr⟩
    · exact ih hr

theorem nget_none_of_lt {m : NMap α} {k : Nat} (h : ∀ p ∈ m, k < p.1) : nget m k = none := by
  cases m with
  | nil => rfl
  | cons q r =>
    obtain ⟨j, w⟩ := q
    have hk : k < j := h (j, w) (by simp)
    have : (j == k) = false := by simp; omega
    simp [nget, this, hk]

@[simp] theorem nget_nput_self (m : NMap α) (k : Nat) (v : α) : nget (nput m k v) k = some v := by
  induction m with
  | nil => simp [nput, nget]
  | cons q r ih =>
    obtain ⟨j, w⟩ := q
    simp only [nput]
    split
    · simp [nget]
    · rename_i e
      split
      · simp [nget]
      · rename_i hk
        simp [nget, e, hk, ih]

theorem nget_nput_ne (m : NMap α) {k x : Nat} (v : α) (hx : x ≠ k) : nget (nput m k v) x = nget m x := by
  have hk : (k == x) = false := by simp; omega
  induction m with
  | nil => simp [nput, nget, hk]
  | cons q r ih =>
    obtain ⟨j, w⟩ := q
    simp only [nput]
    split
    · rename_i e
      have e : j = k := by simpa using e
      subst e
      simp [nget, hk]
    · split
      · rename_i hkj
        simp only [nget, hk]
        by_cases hxk : x < k
        · have : (j == x) = false := by simp; omega
          have : x < j := by omega
          simp [*]
        · simp [hxk]
      · simp [nget, ih]

theorem nget_ndel_self {m : NMap α} {k : Nat} (h : nsorted m = true) : nget (ndel m k) k = none := by
  induction m with
  | nil => rfl
  | cons q r ih =>
    obtain ⟨j, w⟩ := q
    obtain ⟨hj, hr⟩ := (nsorted_cons j w r).mp h
    simp only [ndel]
    split
    · rename_i e
      have e : j = k := by simpa using e
      subst e
      exact nget_none_of_lt hj
    · rename_i e
      split
      · rename_i hk
        simp [nget, e, hk]
      · rename_i hk
        simp [nget, e, hk, ih hr]

theorem nget_ndel_ne {m : NMap α} {k x : Nat} (h : nsorted m = true) (hx : x ≠ k) : nget (ndel m k) x = nget m x := by
  induction m with
  | nil => rfl
  | cons q r ih =>
    obtain ⟨j, w⟩ := q
    obtain ⟨hj, hr⟩ := (nsorted_cons j w r).mp h
    simp only [ndel]
    split
    · rename_i e
      have e : j = k := by simpa using e
      subst e
      have : (j == x) = false := by simp; omega
      simp only [nget, this]
      by_cases hxj : x < j
      · simp [hxj, nget_none_of_lt fun p hp => Nat.lt_trans hxj (hj p hp)]
      · simp [hxj]
    · split
      · rfl
      · simp [nget, ih hr]

/-! Memory. -/

theorem wf_iff (m : List Host.Cell) : Memory.wf m = true ↔ nsorted m = true ∧ ∀ p ∈ m, p.2 ≠ 0 := by
  simp [Memory.wf]

@[simp] theorem wf_nil : Memory.wf [] = true := rfl

theorem memPut_wf {m : List Host.Cell} (a : Nat) (b : Byte) (h : Memory.wf m = true) : Memory.wf (memPut m a b) = true := by
  obtain ⟨hs, hz⟩ := (wf_iff m).mp h
  unfold memPut
  split
  · exact (wf_iff _).mpr ⟨ndel_sorted a hs, fun p hp => hz p (mem_ndel hp)⟩
  · rename_i hb
    refine (wf_iff _).mpr ⟨nput_sorted a b hs, fun p hp => ?_⟩
    rcases mem_nput hp with rfl | hp
    · simpa using hb
    · exact hz p hp

theorem memPutBytes_wf {m : List Host.Cell} (a : Nat) (bs : Bytes) (h : Memory.wf m = true) : Memory.wf (memPutBytes m a bs) = true := by
  induction bs generalizing m a with
  | nil => exact h
  | cons b bs ih => exact ih (a + 1) (memPut_wf a b h)

theorem filter_wf {m : List Host.Cell} (f : Host.Cell → Bool) (h : Memory.wf m = true) : Memory.wf (m.filter f) = true := by
  obtain ⟨hs, hz⟩ := (wf_iff m).mp h
  exact (wf_iff _).mpr ⟨filter_sorted f hs, fun p hp => hz p (List.mem_filter.mp hp).1⟩

/-- One byte written reads back, and every other byte reads as before. -/
theorem memByte_memPut {m : List Host.Cell} (a x : Nat) (b : Byte) (h : Memory.wf m = true) :
    memByte (memPut m a b) x = if x = a then b else memByte m x := by
  have hs := ((wf_iff m).mp h).1
  unfold memPut memByte
  by_cases hb : (b == 0) = true
  · have hb0 : b = 0 := by simpa using hb
    rw [if_pos hb]
    by_cases hx : x = a
    · subst hx; simp [hb0, nget_ndel_self hs]
    · rw [nget_ndel_ne hs hx, if_neg hx]
  · rw [if_neg hb]
    by_cases hx : x = a
    · subst hx; simp
    · rw [nget_nput_ne m b hx, if_neg hx]

/-- Bytes written read back, and every other byte reads as before. -/
theorem memByte_memPutBytes {m : List Host.Cell} (a x : Nat) (bs : Bytes) (h : Memory.wf m = true) :
    memByte (memPutBytes m a bs) x = if a ≤ x ∧ x < a + bs.length then bs.getD (x - a) 0 else memByte m x := by
  induction bs generalizing m a with
  | nil => simp [memPutBytes]
  | cons b bs ih =>
    rw [memPutBytes, ih (a + 1) (memPut_wf a b h), memByte_memPut a x b h]
    by_cases h1 : x = a
    · subst h1; simp
    · by_cases h2 : a + 1 ≤ x ∧ x < a + 1 + bs.length
      · obtain ⟨n, rfl⟩ : ∃ n, x = a + 1 + n := ⟨x - (a + 1), by omega⟩
        have e : a + 1 + n - a = n + 1 := by omega
        have e2 : a + 1 + n - (a + 1) = n := by omega
        have h3 : a ≤ a + 1 + n ∧ a + 1 + n < a + (bs.length + 1) := by omega
        simp [h2, h3, e, e2]
      · have h3 : ¬(a ≤ x ∧ x < a + (bs.length + 1)) := by omega
        rw [if_neg h2, if_neg h1, if_neg (by simpa using h3)]

/-! Device memory and scratch. -/

theorem storeByte_wf {s : State} (a : Nat) (b : Byte) (h : Memory.wf s.mem = true) : Memory.wf (s.storeByte a b).mem = true := by
  unfold State.storeByte
  split
  · exact h
  · simpa using memPut_wf a b h

theorem storeBytes_wf {s : State} (a : Nat) (bs : Bytes) (h : Memory.wf s.mem = true) : Memory.wf (s.storeBytes a bs).mem = true := by
  have aux : ∀ (l : List (Byte × Nat)) (s : State), Memory.wf s.mem = true →
      Memory.wf (l.foldl (fun s (x : Byte × Nat) => s.storeByte (a + x.2) x.1) s).mem = true := by
    intro l
    induction l with
    | nil => intro s h; exact h
    | cons x l ih => intro s h; exact ih _ (storeByte_wf _ _ h)
  unfold State.storeBytes
  have := aux (bs.zip (List.range bs.length)) s h
  dsimp only
  split <;> simpa using this

theorem drainChan_wf {s : State} (m : Fin 8) (which : QWrite → Bool) (k : Nat) (h : Memory.wf s.mem = true) :
    Memory.wf (s.drainChan m which k).mem = true := by
  have aux : ∀ (l : List QWrite) (s : State), Memory.wf s.mem = true →
      Memory.wf (l.foldl (fun s (w : QWrite) => s.storeBytes w.addr w.data) s).mem = true := by
    intro l
    induction l with
    | nil => intro s h; exact h
    | cons x l ih => intro s h; exact ih _ (storeBytes_wf _ _ h)
  exact aux _ _ h

theorem scratchPut_wf (c : Tile) (a : Nat) (bs : Bytes) (h : Memory.wf c.scratch = true) : Memory.wf (c.scratchPut a bs).scratch = true := by
  induction bs generalizing c a with
  | nil => exact h
  | cons b bs ih => exact ih _ (a + 1) (memPut_wf _ b h)

theorem scratchWrite_wf (c : Tile) (off : Nat) (bs : Bytes) (h : Memory.wf c.scratch = true) :
    Memory.wf (c.scratchWrite off bs).scratch = true := memPutBytes_wf off bs h

theorem reset_mem_wf : Memory.wf State.reset.mem = true := rfl

end Sys2Proof.Machine
end

