-- ==== Sys2Proof/Laws/Spar.lean ====
section
/-! SUPPORT. What a fetch leaves of the tiles, and what an instruction that changes only registers comes to. -/

namespace Sys2Proof.Machine

set_option Elab.async false

/-- A view of the state that every step of a fold keeps, the fold keeps. -/
theorem foldl_keeps {α β γ : Type} (g : β → γ) (f : β → α → β) (h : ∀ b a, g (f b a) = g b) (l : List α) (b : β) :
    g (l.foldl f b) = g b := by
  induction l generalizing b with
  | nil => rfl
  | cons a r ih => rw [List.foldl_cons, ih, h]

@[simp] theorem State.modTile_tiles (s : State) (t : TileId) (f : Tile → Tile) :
    (s.modTile t f).tiles = s.tiles.set t (f s.tiles[t]) := rfl

/-- The tile that a change names holds it. -/
theorem State.modTile_at (s : State) (t : TileId) (f : Tile → Tile) : (s.modTile t f).tiles[t] = f s.tiles[t] := by
  simp [State.modTile_tiles]

/-- Another tile stands as it was. -/
theorem State.modTile_other (s : State) (t u : TileId) (f : Tile → Tile) (h : u ≠ t) :
    (s.modTile t f).tiles[u] = s.tiles[u] := by
  have hv : t.val ≠ u.val := fun e => h (Fin.ext e.symm)
  simp [State.modTile_tiles, hv]

/-- Two changes of one tile are one. -/
theorem State.modTile_modTile (s : State) (t : TileId) (f g : Tile → Tile) :
    (s.modTile t f).modTile t g = s.modTile t fun c => g (f c) := by
  simp [State.modTile, State.modTiles, Vector.set_set]

/-- Changes that agree on the tile as it stands agree. -/
theorem State.modTile_congr (s : State) (t : TileId) (f g : Tile → Tile) (h : f s.tiles[t] = g s.tiles[t]) :
    s.modTile t f = s.modTile t g := by
  have e : s.tiles.set t (f s.tiles[t]) = s.tiles.set t (g s.tiles[t]) := by rw [h]
  exact congrArg (fun v => { s with tiles := v }) e

@[simp] theorem State.modMemChan_tiles (s : State) (m : Fin 8) (f : MemChan → MemChan) : (s.modMemChan m f).tiles = s.tiles := rfl
@[simp] theorem State.modSlice_tiles (s : State) (i : Fin 16) (f : Slice → Slice) : (s.modSlice i f).tiles = s.tiles := rfl

theorem State.storeByte_tiles (s : State) (a : Nat) (b : Byte) : (s.storeByte a b).tiles = s.tiles := by
  unfold State.storeByte; split <;> rfl

theorem State.storeBytes_tiles (s : State) (a : Nat) (bs : Bytes) : (s.storeBytes a bs).tiles = s.tiles := by
  have h : ∀ l : List (Byte × Nat), (l.foldl (fun s (x : Byte × Nat) => s.storeByte (a + x.2) x.1) s).tiles = s.tiles := fun l =>
    foldl_keeps State.tiles _ (fun s x => s.storeByte_tiles (a + x.2) x.1) l s
  unfold State.storeBytes
  dsimp only
  split
  · exact h _
  · exact h _

theorem State.drainChan_tiles (s : State) (m : Fin 8) (which : QWrite → Bool) (k : Nat) : (s.drainChan m which k).tiles = s.tiles := by
  unfold State.drainChan
  dsimp only
  refine (foldl_keeps State.tiles _ ?_ _ _).trans (s.modMemChan_tiles m _)
  intro s w
  exact s.storeBytes_tiles w.addr w.data

theorem State.drainAll_tiles (s : State) : s.drainAll.tiles = s.tiles := by
  unfold State.drainAll
  refine foldl_keeps State.tiles _ ?_ _ _
  intro s m
  exact s.drainChan_tiles m _ 0

theorem State.dramWrite_tiles (s : State) (a : Nat) (bs : Bytes) : (s.dramWrite a bs).tiles = s.tiles :=
  (State.storeBytes_tiles _ a bs).trans s.drainAll_tiles

theorem State.writeBack_tiles (s : State) (x : TLine) : (s.writeBack x).tiles = s.tiles := by
  unfold State.writeBack
  split
  · rfl
  · refine foldl_keeps State.tiles _ ?_ _ _
    intro s p
    exact s.dramWrite_tiles p.1 p.2

theorem State.thFill_tiles (s : State) (x : TLine) (stream : Bool) : (s.thFill x stream).tiles = s.tiles := by
  unfold State.thFill
  dsimp only
  rw [State.modSlice_tiles]
  split
  · exact s.writeBack_tiles _
  · rfl

/-- A read through the Thatch changes no tile. -/
theorem State.thRead_tiles (s : State) (l : Nat) (stream : Bool) : (s.thRead l stream).2.tiles = s.tiles := by
  unfold State.thRead
  dsimp only
  split
  · rfl
  · split
    · rfl
    · split
      · rfl
      · exact s.thFill_tiles _ _

/-- Two tiles agree in all but their instruction caches. -/
def Tile.sameCore (c e : Tile) : Prop := e = { c with l1i := e.l1i, l1iPlru := e.l1iPlru }

theorem Tile.sameCore_refl (c : Tile) : c.sameCore c := rfl

/-- A change of one tile that keeps its core keeps every core. -/
theorem State.modTile_sameCore (s : State) (t u : TileId) (f : Tile → Tile) (h : ∀ c, Tile.sameCore c (f c)) :
    Tile.sameCore s.tiles[u] (s.modTile t f).tiles[u] := by
  by_cases e : u = t
  · subst e; rw [State.modTile_at]; exact h _
  · rw [State.modTile_other _ _ _ _ e]; exact rfl

/-- A fetch through the instruction cache changes of the tiles only that cache. -/
theorem State.iFetch_sameCore (s : State) (t u : TileId) (a : Nat) (slot : Option Nat) :
    Tile.sameCore s.tiles[u] (s.iFetch t a slot).2.tiles[u] := by
  unfold State.iFetch
  dsimp only
  split
  · exact s.modTile_sameCore t u _ fun c => rfl
  · split
    · simp only [State.thRead_tiles]; exact rfl
    · have h : (s.thRead (a / 64) false).2.tiles[u] = s.tiles[u] := by rw [State.thRead_tiles]
      split
      · rw [← h]; exact State.modTile_sameCore _ t u _ fun c => rfl
      · rw [← h]; exact State.modTile_sameCore _ t u _ fun c => rfl

/-- A fetch changes of the tiles only the instruction cache of the tile that fetches. -/
theorem State.sparFetch_sameCore (s : State) (t u : TileId) : Tile.sameCore s.tiles[u] (s.sparFetch t).2.tiles[u] := by
  unfold State.sparFetch
  dsimp only
  split
  · exact rfl
  · split
    · exact s.iFetch_sameCore t u _ _
    · exact rfl

/-- The tiles after a permitted fetch. -/
theorem Fetched.sameCore {s s' : State} {t : TileId} (h : Fetched s t s') (u : TileId) : Tile.sameCore s.tiles[u] s'.tiles[u] := by
  have := s.sparFetch_sameCore t u
  rw [h.2] at this
  exact this

/-- A tile that executes is not in RESET after its fetch. -/
theorem Fetched.running {s s' : State} {t : TileId} (h : Fetched s t s') : (s'.tiles[t]).state ≠ .reset := by
  have e : (s'.tiles[t]).state = (s.tiles[t]).state := by rw [h.sameCore t]
  rw [e]
  intro k
  have r := h.1
  unfold State.sparRuns at r
  rw [k] at r
  simp only [show (CoreState.reset == CoreState.monitor) = false from rfl, show (CoreState.reset == CoreState.bundle) = false from rfl,
    Bool.or_self, Bool.false_and, Bool.false_eq_true] at r

/-- Effects that agree on the tile as it stands agree. -/
theorem State.retires_congr (s : State) (t : TileId) (f g : Tile → Tile) (h : f s.tiles[t] = g s.tiles[t]) :
    s.retires t f = s.retires t g :=
  s.modTile_congr t _ _ (congrArg (Tile.past · s.tiles[t].pc) h)

/-- An instruction that changes only registers, and not TC_STATE: PC + 4 with the change. -/
theorem State.sparRegs_next {s s' : State} {t : TileId} (h : Fetched s t s') (f : Tile → Tile)
    (hf : ∀ c, (f c).state = c.state ∧ (f c).pc = c.pc) : s.sparRegs t f = s'.retires t f := by
  have hs := (hf (s'.tiles[t])).1
  have hp : ((s'.tiles[t]).pc) = (s.tiles[t]).pc := by rw [h.sameCore t]
  have hr := h.running
  rw [← hs] at hr
  have hm : ((s'.modTile t f).tiles[t]).state ≠ .reset := by rw [State.modTile_at]; exact hr
  unfold State.sparRegs State.spar State.sparWord
  rw [h.1, h.2]
  simp only [Bool.not_true, Bool.false_and, Bool.false_eq_true, if_false, SOut.retire, State.chargeLost, List.foldl_nil,
    State.setPc]
  rw [if_neg (by simpa using hm), State.modTile_modTile, State.retires, ← hp]
  exact s'.modTile_congr t _ _ rfl

end Sys2Proof.Machine
end

