-- ==== Sys2Proof/WellFormed.lean ====
section
/-! DEFINITION. What the wires, registers and records of the spec can carry: a command whose operands fit their fields. The
meanings are total and do not ask it; a sender of the part can send nothing else. -/

namespace Sys2Proof

open Sys2Proof.Machine

/-- A number of at most w bits. -/
def fits (w v : Nat) : Bool := decide (v < 2 ^ w)

/-- A number below a bound. -/
def below (n v : Nat) : Bool := decide (v < n)

/-- A two's-complement number of w bits. -/
def signedFits (w : Nat) (v : Int) : Bool := decide (-(2 ^ (w - 1) : Int) ≤ v ∧ v < 2 ^ (w - 1))

/-- Exactly n bytes. -/
def sized (n : Nat) (b : Bytes) : Bool := b.length == n

/-- At most n bytes. -/
def atMost (n : Nat) (b : Bytes) : Bool := decide (b.length ≤ n)

/-- Every number of a list has at most w bits. -/
def allFit (w : Nat) (l : List Nat) : Bool := l.all (fits w)

/-- The XID of a Plyn message has 32 bits (R578). -/
def viaOk (v : Via) : Bool :=
  match v with
  | .window _ => true
  | .plyn _ _ xid => fits 32 xid

/-- A register access of 1, 2, 4 or 8 bytes inside BAR0 (R28, R493) or the device address space (R22), aligned to its size. -/
def accessOk (size off : Nat) (data : Bytes) : Bool :=
  [1, 2, 4, 8].contains data.length && off % data.length == 0 && decide (off + data.length ≤ size)

/-- The register access of a REGISTER_WRITE. -/
def regAccessOk (w : RegAccess) : Bool :=
  match w with
  | .bar0 _ off data => accessOk 0x10000 off data
  | .ridge _ a data => accessOk (2 ^ 48) a data
  | .bar0Read _ off n => off + n ≤ 0x10000
  | .ridgeRead _ a n _ => a + n ≤ 2 ^ 48

/-- A Purlin request whose fields fit the staging layout of R220. -/
def reqOk (q : PReq) : Bool :=
  fits 4 q.op && fits 8 q.banks && fits 8 q.priority && fits 12 q.index && fits 32 q.result && q.key.all (fits 64)

/-- The environment of a pass through the start steps: as many bits as there are Ridges, channels, slices and so on. -/
def startEnvOk (e : StartEnv) : Bool :=
  fits 2 e.romFail && fits 8 e.answers && fits 8 e.resumeBad && fits 8 e.trainBad && fits 16 e.slicesBad && fits 8 e.banksBad
    && fits 8 e.coursesBad && fits 4 e.portsBad

/-- A unit of the list of R653 and a count of 32 bits. -/
def energyUseOk (u : EnergyUse) : Bool := below 16 u.unit && fits 32 u.count

/-- Fuse values that fit their fuses (R628), and images no longer than a slot of 8 MiB (R625). -/
def provisionOk (p : Provision) : Bool :=
  fits 64 p.serial && fits 4 p.grade && p.images.toList.all (atMost 0x800000) && p.keyHash.toList.all (sized 32)

/-- The operands of a command fit the fields that carry them. -/
def wellFormed (i : Instr) : Bool :=
  match i with
  | .registerWrite access => regAccessOk access
  | .clockAlarm domain => below 18 domain
  | .standbyWriteDiscarded => true
  | .bar2Read _ off n => fits 28 off && fits 12 n
  | .bar2Write _ off data => fits 28 off && atMost 4096 data
  | .rafterBoundary ckptBytes ckptCrc => fits 32 ckptBytes && fits 32 ckptCrc
  | .rafterInEdge _ ckptBytes ckptCrc => fits 32 ckptBytes && fits 32 ckptCrc
  | .syntheticBoundary ckptBytes ckptCrc => fits 32 ckptBytes && fits 32 ckptCrc
  | .battenTick => true
  | .gptpSync _ domain _ seq log origin corr => fits 8 domain && fits 16 seq && signedFits 8 log && fits 80 origin && signedFits 64 corr
  | .gptpFollowUp _ domain seq origin corr => fits 8 domain && fits 16 seq && fits 80 origin && signedFits 64 corr
  | .gptpAnnounce _ domain gm => fits 8 domain && fits 64 gm
  | .pdelayReq _ seq => fits 16 seq
  | .pdelayResp _ t2 t3 => fits 80 t2 && fits 80 t3
  | .pdelayInterval => true
  | .syncTimeout => true
  | .reserveCommit _ _ => true
  | .odoTick _ _ _ _ => true
  | .tableDropComplete table => fits 16 table
  | .sealAgeExpiry table => fits 16 table
  | .sealComplete table => fits 16 table
  | .retentionEvaluation => true
  | .lappedRepair table seg col _ => fits 16 table && fits 32 seg && fits 8 col
  | .appendHeaderRead _ seq header => fits 64 seq && atMost 65536 header
  | .appendPayloadRead _ seq payload => fits 64 seq && atMost 8388608 payload
  | .eaveFrameReceived _ frame _ => atMost 16384 frame
  | .eaveUnitEntry _ => true
  | .liggerRelease table => fits 16 table
  | .blockLimitExpiry _ seq => fits 64 seq
  | .forcedRelease => true
  | .mapEntry via index bank priority key mask result _ => viaOk via && fits 16 index && fits 3 bank && fits 8 priority && fits 256 key && fits 256 mask && fits 64 result
  | .programChunk via program offset _ bytes => viaOk via && fits 8 program && fits 16 offset && atMost 1408 bytes
  | .mapEntryRewrite _ index => fits 16 index
  | .planImageRead _ seq image _ => fits 64 seq && atMost 1048576 image
  | .planAdmission => true
  | .reedStart _ seg first count _ => fits 32 seg && fits 16 first && fits 16 count
  | .reedAbandon _ => true
  | .reedBatchHandover _ _ => true
  | .search _ q _ => reqOk q
  | .insert _ q _ => reqOk q
  | .write _ q => reqOk q
  | .invalidate _ q => reqOk q
  | .read _ q => reqOk q
  | .clear _ q => reqOk q
  | .purlinBackgroundCompare _ index _ => fits 16 index
  | .sealHipYield _ => true
  | .delayEntryRelease => true
  | .firingRecordDelivery cq _ answered => fits 16 cq && fits 2 answered
  | .btSubmit desc => sized 64 desc
  | .btPurge _ num => fits 8 num
  | .delayInsert entry => sized 32 entry
  | .delayMove _ entry due => fits 16 entry && fits 64 due
  | .delayRemove _ entry => fits 16 entry
  | .reservationExpiry => true
  | .preemptAfterExpiry => true
  | .preemptionTimeout _ => true
  | .saveLimitExpiry _ => true
  | .dispatchAck _ => true
  | .yield _ lost => allFit 48 lost
  | .done _ status _ lost => fits 16 status && allFit 48 lost
  | .tileResetDone _ => true
  | .illegal _ _ => true
  | .add _ _ _ _ => true
  | .sub _ _ _ _ => true
  | .and _ _ _ _ => true
  | .or _ _ _ _ => true
  | .xor _ _ _ _ => true
  | .andn _ _ _ _ => true
  | .shl _ _ _ _ => true
  | .shr _ _ _ _ => true
  | .sar _ _ _ _ => true
  | .ror _ _ _ _ => true
  | .mul _ _ _ _ => true
  | .mulhu _ _ _ _ => true
  | .mulhs _ _ _ _ => true
  | .divu _ _ _ _ => true
  | .divs _ _ _ _ => true
  | .remu _ _ _ _ => true
  | .rems _ _ _ _ => true
  | .minu _ _ _ _ => true
  | .mins _ _ _ _ => true
  | .maxu _ _ _ _ => true
  | .maxs _ _ _ _ => true
  | .sltu _ _ _ _ => true
  | .slts _ _ _ _ => true
  | .seq _ _ _ _ => true
  | .clz _ _ _ => true
  | .ctz _ _ _ => true
  | .popc _ _ _ => true
  | .bswap _ _ _ => true
  | .addi _ _ _ _ => true
  | .andi _ _ _ _ => true
  | .ori _ _ _ _ => true
  | .xori _ _ _ _ => true
  | .shli _ _ _ _ => true
  | .shri _ _ _ _ => true
  | .sari _ _ _ _ => true
  | .sltsi _ _ _ _ => true
  | .sltui _ _ _ _ => true
  | .movz _ _ _ _ => true
  | .movk _ _ _ _ => true
  | .ld8u _ _ _ _ _ => true
  | .ld8s _ _ _ _ _ => true
  | .ld16u _ _ _ _ _ => true
  | .ld16s _ _ _ _ _ => true
  | .ld32u _ _ _ _ _ => true
  | .ld32s _ _ _ _ _ => true
  | .ld64 _ _ _ _ _ => true
  | .st8 _ _ _ _ => true
  | .st16 _ _ _ _ => true
  | .st32 _ _ _ _ => true
  | .st64 _ _ _ _ => true
  | .fld32 _ _ _ _ _ => true
  | .fld64 _ _ _ _ _ => true
  | .fst32 _ _ _ _ => true
  | .fst64 _ _ _ _ => true
  | .beq _ _ _ _ => true
  | .bne _ _ _ _ => true
  | .blts _ _ _ _ => true
  | .bges _ _ _ _ => true
  | .bltu _ _ _ _ => true
  | .bgeu _ _ _ _ => true
  | .j _ _ => true
  | .jal _ _ => true
  | .jr _ _ => true
  | .jalr _ _ _ => true
  | .fadd _ _ _ _ _ => true
  | .fsub _ _ _ _ _ => true
  | .fmul _ _ _ _ _ => true
  | .fdiv _ _ _ _ _ => true
  | .fsqrt _ _ _ _ => true
  | .fmin _ _ _ _ _ => true
  | .fmax _ _ _ _ _ => true
  | .feq _ _ _ _ _ => true
  | .flt _ _ _ _ _ => true
  | .fle _ _ _ _ _ => true
  | .ftoi _ _ _ _ => true
  | .itof _ _ _ _ => true
  | .fcvt _ _ _ _ => true
  | .fmvg _ _ _ _ => true
  | .fmvf _ _ _ _ => true
  | .fusedMultiplyAdd _ _ _ _ _ _ => true
  | .fusedMultiplySubtract _ _ _ _ _ _ => true
  | .movs _ _ _ _ granules _ => fits 64 granules
  | .cmps _ _ _ _ granules _ => fits 64 granules
  | .fills _ _ _ _ granules => fits 64 granules
  | .scans _ _ _ _ granules _ => fits 64 granules
  | .svc _ _ => true
  | .rtm _ => true
  | .mfs _ _ _ => true
  | .mts _ _ _ => true
  | .wait _ => true
  | .waitWakeup _ => true
  | .brk _ _ => true
  | .fence _ => true
  | .cmoClean _ _ _ _ _ => true
  | .cmoInvalidate _ _ _ _ _ => true
  | .cmoCleanInvalidate _ _ _ _ _ => true
  | .cmoLock _ _ _ _ _ => true
  | .cmoUnlock _ _ _ _ _ => true
  | .preempt _ => true
  | .dispatch _ => true
  | .unit _ => true
  | .timer _ => true
  | .vadd _ _ _ _ _ _ _ => true
  | .vsub _ _ _ _ _ _ _ => true
  | .vmul _ _ _ _ _ _ _ => true
  | .vmulhu _ _ _ _ _ _ _ => true
  | .vmulhs _ _ _ _ _ _ _ => true
  | .vand _ _ _ _ _ _ _ => true
  | .vor _ _ _ _ _ _ _ => true
  | .vxor _ _ _ _ _ _ _ => true
  | .vandn _ _ _ _ _ _ _ => true
  | .vshl _ _ _ _ _ _ _ => true
  | .vshr _ _ _ _ _ _ _ => true
  | .vsar _ _ _ _ _ _ _ => true
  | .vror _ _ _ _ _ _ _ => true
  | .vminu _ _ _ _ _ _ _ => true
  | .vmins _ _ _ _ _ _ _ => true
  | .vmaxu _ _ _ _ _ _ _ => true
  | .vmaxs _ _ _ _ _ _ _ => true
  | .vabs _ _ _ _ _ _ => true
  | .vneg _ _ _ _ _ _ => true
  | .vmov _ _ _ _ _ _ => true
  | .vfadd _ _ _ _ _ _ _ => true
  | .vfsub _ _ _ _ _ _ _ => true
  | .vfmul _ _ _ _ _ _ _ => true
  | .vfdiv _ _ _ _ _ _ _ => true
  | .vfsqrt _ _ _ _ _ _ => true
  | .vfmin _ _ _ _ _ _ _ => true
  | .vfmax _ _ _ _ _ _ _ => true
  | .vfma _ _ _ _ _ _ _ => true
  | .vfms _ _ _ _ _ _ _ => true
  | .vceq _ _ _ _ _ _ _ => true
  | .vcne _ _ _ _ _ _ _ => true
  | .vcltu _ _ _ _ _ _ _ => true
  | .vcleu _ _ _ _ _ _ _ => true
  | .vclts _ _ _ _ _ _ _ => true
  | .vcles _ _ _ _ _ _ _ => true
  | .vfceq _ _ _ _ _ _ _ => true
  | .vfclt _ _ _ _ _ _ _ => true
  | .vfcle _ _ _ _ _ _ _ => true
  | .vfklt _ _ _ _ _ _ _ => true
  | .vfkle _ _ _ _ _ _ _ => true
  | .vld _ _ _ _ _ _ pe _ => fits 64 pe
  | .vst _ _ _ _ _ _ => true
  | .vlds _ _ _ _ _ _ _ pe _ => fits 64 pe
  | .vsts _ _ _ _ _ _ _ => true
  | .vgth _ _ _ _ _ _ _ _ pe _ => fits 64 pe
  | .gthf _ _ _ _ _ _ _ _ pe _ => fits 64 pe
  | .vsct _ _ _ _ _ _ _ _ => true
  | .vbcast _ _ _ _ _ _ => true
  | .vextr _ _ _ _ _ _ _ => true
  | .vcmprs _ _ _ _ _ => true
  | .vsldn _ _ _ _ _ _ _ => true
  | .vredsumu _ _ _ _ _ _ => true
  | .vredsums _ _ _ _ _ _ => true
  | .vredminu _ _ _ _ _ _ => true
  | .vredmins _ _ _ _ _ _ => true
  | .vredmaxu _ _ _ _ _ _ => true
  | .vredmaxs _ _ _ _ _ _ => true
  | .vfredsum _ _ _ _ _ _ => true
  | .mand _ _ _ _ _ _ _ => true
  | .mor _ _ _ _ _ _ _ => true
  | .mxor _ _ _ _ _ _ _ => true
  | .mandn _ _ _ _ _ _ _ => true
  | .mnot _ _ _ _ _ _ => true
  | .mpopc _ _ _ _ _ _ => true
  | .mfirst _ _ _ _ _ _ => true
  | .mtog _ _ _ _ _ _ => true
  | .gtom _ _ _ _ _ _ => true
  | .vwhile _ _ _ _ _ _ _ => true
  | .vunpk _ _ _ _ _ _ _ => true
  | .vplcmp _ _ _ _ _ => true
  | .vhash _ _ _ _ _ _ => true
  | .vhstep _ _ _ _ _ _ => true
  | .vhfin _ _ _ _ _ _ => true
  | .vzext _ _ _ _ _ _ => true
  | .vsext _ _ _ _ _ _ => true
  | .vnarw _ _ _ _ _ _ => true
  | .vitof _ _ _ _ _ _ => true
  | .vftoi _ _ _ _ _ _ => true
  | .vfcvt _ _ _ _ _ _ => true
  | .thClean _ addr len _ _ slices => fits 48 addr && fits 48 len && fits 16 slices
  | .thInvalidate _ addr len _ _ slices => fits 48 addr && fits 48 len && fits 16 slices
  | .thCleanInvalidate _ addr len _ _ slices => fits 48 addr && fits 48 len && fits 16 slices
  | .thLock _ addr len _ _ slices => fits 48 addr && fits 48 len && fits 16 slices
  | .thUnlock _ addr len _ _ slices => fits 48 addr && fits 48 len && fits 16 slices
  | .aperture _ selector _ _ slices => fits 48 selector && fits 16 slices
  | .thatchOperationDone _ => true
  | .planRetire slot => fits 8 slot
  | .sliceEnable _ _ => true
  | .slicePower _ _ => true
  | .slicePowerOnDone _ => true
  | .memoryRead addr src8 planSlot devErrs device hint => fits 48 addr && fits 8 src8 && fits 8 planSlot && fits 8 devErrs && fits 8 device && fits 2 hint
  | .memoryWrite addr data src8 planSlot hint _ => fits 48 addr && atMost 64 data && fits 8 src8 && fits 8 planSlot && fits 2 hint
  | .refresh _ bank => fits 5 bank
  | .scrub devErrs device _ => fits 8 devErrs && fits 8 device
  | .caParityAlert _ _ => true
  | .rfm _ bank => fits 5 bank
  | .rowHammerThreshold _ bank row => fits 8 bank && fits 20 row
  | .rhWindowEnd _ => true
  | .migrationUnit bad => allFit 48 bad
  | .trainReset via _ => viaOk via
  | .keepWakeDelayExpiry => true
  | .selfRefreshEntry => true
  | .keepEntryLimitExpiry => true
  | .keepRetentionExpiry => true
  | .chStart _ host => atMost 4194304 host
  | .chPause _ => true
  | .chResume _ host => atMost 4194304 host
  | .chAbort _ => true
  | .channelPaused _ => true
  | .requestLineRaise _ => true
  | .copy _ n => fits 32 n
  | .fill _ n => fits 32 n
  | .interleave _ n => fits 32 n
  | .deinterleave _ n => fits 32 n
  | .plane _ n => fits 32 n
  | .unplane _ n => fits 32 n
  | .descriptorComplete _ _ _ host => atMost 4194304 host
  | .ringPoll _ host => atMost 4194304 host
  | .yelmPoll _ => true
  | .yelmJobDone _ => true
  | .fdAlloc => true
  | .fcStart _ ctrl => fits 64 ctrl
  | .fcFree _ => true
  | .fcData _ _ => true
  | .fcKeyctl _ value => fits 64 value
  | .messageFinish _ => true
  | .configRequest _ bus off _ => fits 8 bus && fits 12 off
  | .busMasterEnableClear _ => true
  | .functionLevelReset _ => true
  | .linkDown _ cause => fits 8 cause
  | .fatalError _ => true
  | .linkUp _ speed width ltssm => fits 8 speed && fits 8 width && fits 8 ltssm
  | .completionReceived _ tag status _ data => fits 10 tag && fits 3 status && atMost 4096 data
  | .completionTimeout _ tag => fits 10 tag
  | .quarantineEnd _ tag => fits 10 tag
  | .freezeHoldExpiry _ => true
  | .frzRelease _ value => fits 64 value
  | .freezeRelease via _ seq => viaOk via && fits 32 seq
  | .suspendNow via _ seq => viaOk via && fits 32 seq
  | .intHoldoffExpiry _ _ => true
  | .taskGo _ value => fits 32 value
  | .badOpcode _ => true
  | .nop _ => true
  | .flush _ => true
  | .flushComplete _ => true
  | .cancel _ => true
  | .createTable _ desc => atMost 4224 desc
  | .alterTable _ desc => atMost 4224 desc
  | .dropTable _ => true
  | .append _ => true
  | .runPlan _ => true
  | .releaseResult _ => true
  | .registerQuery _ desc image => atMost 256 desc && atMost 1048576 image
  | .unregisterQuery _ => true
  | .retargetQuery _ desc => atMost 256 desc
  | .nailComplete _ seq => fits 64 seq
  | .completionRecordDelivery _ answered => fits 2 answered
  | .dozeEntry _ => true
  | .sleepEntry _ => true
  | .activationDrainExpiry => true
  | .create via _ => viaOk via
  | .destroy via _ _ => viaOk via
  | .bind via _ port fn _ => viaOk via && fits 8 port && fits 8 fn
  | .unbind via _ => viaOk via
  | .freeze via _ => viaOk via
  | .thaw via _ => viaOk via
  | .reset via _ => viaOk via
  | .instanceDrained _ => true
  | .mbOutAck _ value => fits 64 value
  | .mbInPost _ value => fits 64 value
  | .mbSend via _ kind body => viaOk via && fits 16 kind && sized 32 body
  | .mbReceiveAck via _ _ => viaOk via
  | .dwRead _ => true
  | .dwWrite _ => true
  | .dwInfo _ => true
  | .fieldPortFrame _ frame _ => atMost 16384 frame
  | .plynRead => true
  | .plynWrite => true
  | .plynInfo => true
  | .fragmentTimeout _ => true
  | .plynReplyTransmit _ => true
  | .persistentCommit => true
  | .plynKey via _ node rights key => viaOk via && fits 16 node && fits 8 rights && sized 32 key
  | .heartbeat raft => fits 32 raft
  | .checkpoint crc => fits 32 crc
  | .ack raft crc => fits 32 raft && fits 32 crc
  | .health _ => true
  | .sync _ => true
  | .handover crc => fits 32 crc
  | .checkpointDeadline => true
  | .selfFault _ code => fits 32 code
  | .lockstepMismatch _ => true
  | .failedResetExpiry _ => true
  | .ridgeSelfTestDone _ _ => true
  | .repairCountClear _ => true
  | .standbySelfTest _ _ => true
  | .revertHoldoffExpiry => true
  | .finialMismatch => true
  | .safeVetoN _ => true
  | .alertClear via bits => viaOk via && fits 32 bits
  | .coldStart provision => provision.all provisionOk
  | .mainSuppliesInRange passes => passes.all startEnvOk
  | .wake _ passes => passes.all startEnvOk
  | .rstN passes => passes.all startEnvOk
  | .fwStageBegin via kind => viaOk via && fits 8 kind
  | .fwChunk via kind offset bytes => viaOk via && fits 8 kind && fits 32 offset && atMost 4000 bytes
  | .fwStageEnd via kind => viaOk via && fits 8 kind
  | .fwStageAbandon via kind => viaOk via && fits 8 kind
  | .attestNonce via nonce => viaOk via && sized 32 nonce
  | .attestReportDone => true
  | .measureExtend via digest => viaOk via && sized 32 digest
  | .stepReset via _ => viaOk via
  | .pitchChangeDone _ => true
  | .policyPark _ => true
  | .capSample power energy uses => fits 32 power && energy.all (fits 64) && uses.all energyUseOk
  | .thermalSample _ => true
  | .selfTest via target index => viaOk via && fits 8 target && fits 8 index
  | .selfTestDone _ => true
  | .traceRearm via _ => viaOk via
  | .availReset via _ => viaOk via
  | .availabilityMirror => true
  | .voltageAlarm _ mv => fits 16 mv
  | .brownout _ => true
  | .standbySupplyLoss => true
  | .tamperN => true
  | .wakeFall => true
  | .eaveBlockLock _ _ => true
  | .plcaBeacon _ _ => true
  | .mainRailsLow => true
  | .clockAlarmEnd domain => below 18 domain
  | .voltageAlarmEnd _ mv => fits 16 mv

end Sys2Proof
end

