-- ==== Sys2Proof/Tests/Slice0.lean ====
section
/-! SUPPORT. The model's own tests: ill-formed commands refused, and witnesses of the statements' hypotheses. -/

namespace Sys2Proof.Tests

set_option Elab.async false

open Sys2Proof Sys2Proof.Machine

/-- One byte more than n. -/
def longer (n : Nat) : Bytes := List.replicate (n + 1) 0

theorem atMost_longer (n : Nat) : atMost n (longer n) = false := by
  simp [atMost, longer]

/-- Ill-formed commands, one for each check, refused. -/
theorem test_ill_formed_0 : (([
  .registerWrite (.bar0 0 0x10000 [0]),
  .clockAlarm 18,
  .bar2Read 0 268435456 0,
  .bar2Read 0 0 4096,
  .bar2Write 0 268435456 [],
  .rafterBoundary 4294967296 0,
  .rafterBoundary 0 4294967296,
  .rafterInEdge false 4294967296 0,
  .rafterInEdge false 0 4294967296,
  .syntheticBoundary 4294967296 0,
  .syntheticBoundary 0 4294967296,
  .gptpSync 0 256 false 0 0 0 0] : List Instr).any wellFormed) = false := by decide +kernel

/-- Ill-formed commands, one for each check, refused. -/
theorem test_ill_formed_1 : (([
  .gptpSync 0 0 false 65536 0 0 0,
  .gptpSync 0 0 false 0 128 0 0,
  .gptpSync 0 0 false 0 0 1208925819614629174706176 0,
  .gptpSync 0 0 false 0 0 0 9223372036854775808,
  .gptpFollowUp 0 256 0 0 0,
  .gptpFollowUp 0 0 65536 0 0,
  .gptpFollowUp 0 0 0 1208925819614629174706176 0,
  .gptpFollowUp 0 0 0 0 9223372036854775808,
  .gptpAnnounce 0 256 0,
  .gptpAnnounce 0 0 18446744073709551616,
  .pdelayReq 0 65536,
  .pdelayResp 0 1208925819614629174706176 0] : List Instr).any wellFormed) = false := by decide +kernel

/-- Ill-formed commands, one for each check, refused. -/
theorem test_ill_formed_2 : (([
  .pdelayResp 0 0 1208925819614629174706176,
  .tableDropComplete 65536,
  .sealAgeExpiry 65536,
  .sealComplete 65536,
  .lappedRepair 65536 0 0 false,
  .lappedRepair 0 4294967296 0 false,
  .lappedRepair 0 0 256 false,
  .appendHeaderRead 0 18446744073709551616 [],
  .appendPayloadRead 0 18446744073709551616 [],
  .liggerRelease 65536,
  .blockLimitExpiry 0 18446744073709551616,
  .mapEntry (.plyn 0 0 4294967296) 0 0 0 0 0 0 false] : List Instr).any wellFormed) = false := by decide +kernel

/-- Ill-formed commands, one for each check, refused. -/
theorem test_ill_formed_3 : (([
  .mapEntry (.window 0) 65536 0 0 0 0 0 false,
  .mapEntry (.window 0) 0 8 0 0 0 0 false,
  .mapEntry (.window 0) 0 0 256 0 0 0 false,
  .mapEntry (.window 0) 0 0 0 115792089237316195423570985008687907853269984665640564039457584007913129639936 0 0 false,
  .mapEntry (.window 0) 0 0 0 0 115792089237316195423570985008687907853269984665640564039457584007913129639936 0 false,
  .mapEntry (.window 0) 0 0 0 0 0 18446744073709551616 false,
  .programChunk (.plyn 0 0 4294967296) 0 0 false [],
  .programChunk (.window 0) 256 0 false [],
  .programChunk (.window 0) 0 65536 false [],
  .mapEntryRewrite 0 65536,
  .planImageRead 0 18446744073709551616 [] none,
  .reedStart 0 4294967296 0 0 []] : List Instr).any wellFormed) = false := by decide +kernel

/-- Ill-formed commands, one for each check, refused. -/
theorem test_ill_formed_4 : (([
  .reedStart 0 0 65536 0 [],
  .reedStart 0 0 0 65536 [],
  .search .ridge ⟨16, false, false, 0, 0, 0, 0, []⟩ ⟨[], []⟩,
  .insert .ridge ⟨16, false, false, 0, 0, 0, 0, []⟩ ⟨[], []⟩,
  .write .ridge ⟨16, false, false, 0, 0, 0, 0, []⟩,
  .invalidate .ridge ⟨16, false, false, 0, 0, 0, 0, []⟩,
  .read .ridge ⟨16, false, false, 0, 0, 0, 0, []⟩,
  .clear .ridge ⟨16, false, false, 0, 0, 0, 0, []⟩,
  .purlinBackgroundCompare 0 65536 false,
  .firingRecordDelivery 65536 none 0,
  .firingRecordDelivery 0 none 4,
  .btSubmit []] : List Instr).any wellFormed) = false := by decide +kernel

/-- Ill-formed commands, one for each check, refused. -/
theorem test_ill_formed_5 : (([
  .btPurge false 256,
  .delayInsert [],
  .delayMove false 65536 0,
  .delayMove false 0 18446744073709551616,
  .delayRemove false 65536,
  .yield 0 [281474976710656],
  .done 0 65536 [] [],
  .done 0 0 [] [281474976710656],
  .movs 0 0 0 0 18446744073709551616 .none,
  .cmps 0 0 0 0 18446744073709551616 .none,
  .fills 0 0 0 0 18446744073709551616,
  .scans 0 0 0 0 18446744073709551616 .none] : List Instr).any wellFormed) = false := by decide +kernel

/-- Ill-formed commands, one for each check, refused. -/
theorem test_ill_formed_6 : (([
  .vld 0 0 0 0 false 0 18446744073709551616 .none,
  .vlds 0 0 0 0 0 false 0 18446744073709551616 .none,
  .vgth 0 0 0 0 false 0 false 0 18446744073709551616 .none,
  .gthf 0 0 0 0 false 0 false 0 18446744073709551616 .none,
  .thClean 0 281474976710656 0 false false 0,
  .thClean 0 0 281474976710656 false false 0,
  .thClean 0 0 0 false false 65536,
  .thInvalidate 0 281474976710656 0 false false 0,
  .thInvalidate 0 0 281474976710656 false false 0,
  .thInvalidate 0 0 0 false false 65536,
  .thCleanInvalidate 0 281474976710656 0 false false 0,
  .thCleanInvalidate 0 0 281474976710656 false false 0] : List Instr).any wellFormed) = false := by decide +kernel

/-- Ill-formed commands, one for each check, refused. -/
theorem test_ill_formed_7 : (([
  .thCleanInvalidate 0 0 0 false false 65536,
  .thLock 0 281474976710656 0 false false 0,
  .thLock 0 0 281474976710656 false false 0,
  .thLock 0 0 0 false false 65536,
  .thUnlock 0 281474976710656 0 false false 0,
  .thUnlock 0 0 281474976710656 false false 0,
  .thUnlock 0 0 0 false false 65536,
  .aperture 0 281474976710656 false false 0,
  .aperture 0 0 false false 65536,
  .planRetire 256,
  .memoryRead 281474976710656 0 0 0 0 0,
  .memoryRead 0 256 0 0 0 0] : List Instr).any wellFormed) = false := by decide +kernel

/-- Ill-formed commands, one for each check, refused. -/
theorem test_ill_formed_8 : (([
  .memoryRead 0 0 256 0 0 0,
  .memoryRead 0 0 0 256 0 0,
  .memoryRead 0 0 0 0 256 0,
  .memoryRead 0 0 0 0 0 4,
  .memoryWrite 281474976710656 [] 0 0 0 false,
  .memoryWrite 0 (longer 64) 0 0 0 false,
  .memoryWrite 0 [] 256 0 0 false,
  .memoryWrite 0 [] 0 256 0 false,
  .memoryWrite 0 [] 0 0 4 false,
  .refresh 0 32,
  .scrub 256 0 none,
  .scrub 0 256 none] : List Instr).any wellFormed) = false := by decide +kernel

/-- Ill-formed commands, one for each check, refused. -/
theorem test_ill_formed_9 : (([
  .rfm 0 32,
  .rowHammerThreshold 0 256 0,
  .rowHammerThreshold 0 0 1048576,
  .migrationUnit [281474976710656],
  .trainReset (.plyn 0 0 4294967296) false,
  .copy 0 4294967296,
  .fill 0 4294967296,
  .interleave 0 4294967296,
  .deinterleave 0 4294967296,
  .plane 0 4294967296,
  .unplane 0 4294967296,
  .fcStart 0 18446744073709551616] : List Instr).any wellFormed) = false := by decide +kernel

/-- Ill-formed commands, one for each check, refused. -/
theorem test_ill_formed_10 : (([
  .fcKeyctl 0 18446744073709551616,
  .configRequest 0 256 0 none,
  .configRequest 0 0 4096 none,
  .linkDown 0 256,
  .linkUp 0 256 0 0,
  .linkUp 0 0 256 0,
  .linkUp 0 0 0 256,
  .completionReceived 0 1024 0 false [],
  .completionReceived 0 0 8 false [],
  .completionTimeout 0 1024,
  .quarantineEnd 0 1024,
  .frzRelease 0 18446744073709551616] : List Instr).any wellFormed) = false := by decide +kernel

/-- Ill-formed commands, one for each check, refused. -/
theorem test_ill_formed_11 : (([
  .freezeRelease (.plyn 0 0 4294967296) 0 0,
  .freezeRelease (.window 0) 0 4294967296,
  .suspendNow (.plyn 0 0 4294967296) 0 0,
  .suspendNow (.window 0) 0 4294967296,
  .taskGo 0 4294967296,
  .registerQuery 0 (longer 256) [],
  .retargetQuery 0 (longer 256),
  .nailComplete 0 18446744073709551616,
  .completionRecordDelivery 0 4,
  .create (.plyn 0 0 4294967296) 0,
  .destroy (.plyn 0 0 4294967296) 0 false,
  .bind (.plyn 0 0 4294967296) 0 0 0 false] : List Instr).any wellFormed) = false := by decide +kernel

/-- Ill-formed commands, one for each check, refused. -/
theorem test_ill_formed_12 : (([
  .bind (.window 0) 0 256 0 false,
  .bind (.window 0) 0 0 256 false,
  .unbind (.plyn 0 0 4294967296) 0,
  .freeze (.plyn 0 0 4294967296) 0,
  .thaw (.plyn 0 0 4294967296) 0,
  .reset (.plyn 0 0 4294967296) 0,
  .mbOutAck 0 18446744073709551616,
  .mbInPost 0 18446744073709551616,
  .mbSend (.plyn 0 0 4294967296) 0 0 (List.replicate 32 0),
  .mbSend (.window 0) 0 65536 (List.replicate 32 0),
  .mbSend (.window 0) 0 0 [],
  .mbReceiveAck (.plyn 0 0 4294967296) 0 false] : List Instr).any wellFormed) = false := by decide +kernel

/-- Ill-formed commands, one for each check, refused. -/
theorem test_ill_formed_13 : (([
  .plynKey (.plyn 0 0 4294967296) 0 0 0 (List.replicate 32 0),
  .plynKey (.window 0) 0 65536 0 (List.replicate 32 0),
  .plynKey (.window 0) 0 0 256 (List.replicate 32 0),
  .plynKey (.window 0) 0 0 0 [],
  .heartbeat 4294967296,
  .checkpoint 4294967296,
  .ack 4294967296 0,
  .ack 0 4294967296,
  .handover 4294967296,
  .selfFault 0 4294967296,
  .alertClear (.plyn 0 0 4294967296) 0,
  .alertClear (.window 0) 4294967296] : List Instr).any wellFormed) = false := by decide +kernel

/-- Ill-formed commands, one for each check, refused. -/
theorem test_ill_formed_14 : (([
  .coldStart (some ⟨.replicate 4 [], .replicate 4 (List.replicate 32 0), 0, 16⟩),
  .mainSuppliesInRange [{ StartEnv.clean with romFail := 4 }],
  .wake false [{ StartEnv.clean with romFail := 4 }],
  .rstN [{ StartEnv.clean with romFail := 4 }],
  .fwStageBegin (.plyn 0 0 4294967296) 0,
  .fwStageBegin (.window 0) 256,
  .fwChunk (.plyn 0 0 4294967296) 0 0 [],
  .fwChunk (.window 0) 256 0 [],
  .fwChunk (.window 0) 0 4294967296 [],
  .fwStageEnd (.plyn 0 0 4294967296) 0,
  .fwStageEnd (.window 0) 256,
  .fwStageAbandon (.plyn 0 0 4294967296) 0] : List Instr).any wellFormed) = false := by decide +kernel

/-- Ill-formed commands, one for each check, refused. -/
theorem test_ill_formed_15 : (([
  .fwStageAbandon (.window 0) 256,
  .attestNonce (.plyn 0 0 4294967296) (List.replicate 32 0),
  .attestNonce (.window 0) [],
  .measureExtend (.plyn 0 0 4294967296) (List.replicate 32 0),
  .measureExtend (.window 0) [],
  .stepReset (.plyn 0 0 4294967296) false,
  .capSample 4294967296 [] [],
  .capSample 0 [18446744073709551616] [],
  .capSample 0 [] [⟨.tile 0, 16, 0⟩],
  .selfTest (.plyn 0 0 4294967296) 0 0,
  .selfTest (.window 0) 256 0,
  .selfTest (.window 0) 0 256] : List Instr).any wellFormed) = false := by decide +kernel

/-- Ill-formed commands, one for each check, refused. -/
theorem test_ill_formed_16 : (([
  .traceRearm (.plyn 0 0 4294967296) false,
  .availReset (.plyn 0 0 4294967296) false,
  .voltageAlarm 0 65536,
  .clockAlarmEnd 18,
  .voltageAlarmEnd 0 65536] : List Instr).any wellFormed) = false := by decide +kernel

theorem test_ill_formed_bar2Write_data : wellFormed (.bar2Write 0 0 (longer 4096)) = false := by
  show (fits 28 0 && atMost 4096 (longer 4096)) = false
  rw [atMost_longer]
  rfl

theorem test_ill_formed_appendHeaderRead_header : wellFormed (.appendHeaderRead 0 0 (longer 65536)) = false := by
  show (fits 64 0 && atMost 65536 (longer 65536)) = false
  rw [atMost_longer]
  rfl

theorem test_ill_formed_appendPayloadRead_payload : wellFormed (.appendPayloadRead 0 0 (longer 8388608)) = false := by
  show (fits 64 0 && atMost 8388608 (longer 8388608)) = false
  rw [atMost_longer]
  rfl

theorem test_ill_formed_eaveFrameReceived_frame : wellFormed (.eaveFrameReceived 0 (longer 16384) false) = false := by
  show (atMost 16384 (longer 16384)) = false
  rw [atMost_longer]

theorem test_ill_formed_programChunk_bytes : wellFormed (.programChunk (.window 0) 0 0 false (longer 1408)) = false := by
  show (viaOk (.window 0) && fits 8 0 && fits 16 0 && atMost 1408 (longer 1408)) = false
  rw [atMost_longer]
  rfl

theorem test_ill_formed_planImageRead_image : wellFormed (.planImageRead 0 0 (longer 1048576) none) = false := by
  show (fits 64 0 && atMost 1048576 (longer 1048576)) = false
  rw [atMost_longer]
  rfl

theorem test_ill_formed_chStart_host : wellFormed (.chStart 0 (longer 4194304)) = false := by
  show (atMost 4194304 (longer 4194304)) = false
  rw [atMost_longer]

theorem test_ill_formed_chResume_host : wellFormed (.chResume 0 (longer 4194304)) = false := by
  show (atMost 4194304 (longer 4194304)) = false
  rw [atMost_longer]

theorem test_ill_formed_descriptorComplete_host : wellFormed (.descriptorComplete 0 false false (longer 4194304)) = false := by
  show (atMost 4194304 (longer 4194304)) = false
  rw [atMost_longer]

theorem test_ill_formed_ringPoll_host : wellFormed (.ringPoll 0 (longer 4194304)) = false := by
  show (atMost 4194304 (longer 4194304)) = false
  rw [atMost_longer]

theorem test_ill_formed_completionReceived_data : wellFormed (.completionReceived 0 0 0 false (longer 4096)) = false := by
  show (fits 10 0 && fits 3 0 && atMost 4096 (longer 4096)) = false
  rw [atMost_longer]
  rfl

theorem test_ill_formed_createTable_desc : wellFormed (.createTable 0 (longer 4224)) = false := by
  show (atMost 4224 (longer 4224)) = false
  rw [atMost_longer]

theorem test_ill_formed_alterTable_desc : wellFormed (.alterTable 0 (longer 4224)) = false := by
  show (atMost 4224 (longer 4224)) = false
  rw [atMost_longer]

theorem test_ill_formed_registerQuery_image : wellFormed (.registerQuery 0 [] (longer 1048576)) = false := by
  show (atMost 256 [] && atMost 1048576 (longer 1048576)) = false
  rw [atMost_longer]
  rfl

theorem test_ill_formed_fieldPortFrame_frame : wellFormed (.fieldPortFrame 0 (longer 16384) false) = false := by
  show (atMost 16384 (longer 16384)) = false
  rw [atMost_longer]

theorem test_ill_formed_fwChunk_bytes : wellFormed (.fwChunk (.window 0) 0 0 (longer 4000)) = false := by
  show (viaOk (.window 0) && fits 8 0 && fits 32 0 && atMost 4000 (longer 4000)) = false
  rw [atMost_longer]
  rfl

/-! States the tests run on. -/

/-- Tile 0 in monitor mode, about to execute the instruction at the start of its scratch, with some of it changed. -/
def ready (f : Tile → Tile) : State :=
  (State.reset.modTile 0 fun c => f { c with state := .monitor, pc := 0x020100000000 }).modCourse 0 fun k => { k with effective := 0 }

/-- The state after the fetch of tile 0. -/
def after (s : State) : State := (s.sparFetch 0).2

/-- A fetch that goes on. -/
theorem fetched_of (s : State) (t : TileId) (h1 : s.sparRuns t = true) (h2 : (s.sparFetch t).1 = none) :
    Fetched s t (s.sparFetch t).2 := ⟨h1, Prod.ext h2 rfl⟩

/-- Tile 0 with g1 = a, g2 = b and g3 = c. -/
def regs3 (a b c : Word) : State := ready fun x => { x with g := ((x.g.set 1 a).set 2 b).set 3 c }

/-- A part in service: TS64 5 ms, four slots of 1 GiB of DRAM, Ridge A active and Ridge B READY, function 0 of port H0 bound to
instance 5. -/
def live : State :=
  let s := State.reset
  { s with
    time := { s.time with ts := 5000000, run := true, period := 1000000, lastKind := .grid, lastBoundary := 4000000, nextTick := 1 }
    boot := { s.boot with inService := true, mainUp := true, standbyUp := true, mainEn := true, wakeHigh := true }
    finial := { s.finial with
      holder := 1
      ridges := (s.finial.ridges.set 0 { s.finial.ridges[0] with state := .active }).set 1 { s.finial.ridges[1] with state := .ready } }
    dram := { s.dram with slots := 4, rankSize := 2 ^ 30, ranksPerModule := 1, remap := [0, 1, 2, 3]
                          chans := s.dram.chans.map fun c => { c with wmHigh := 48, wmLow := 16 } }
    host := { s.host with funcs := s.host.funcs.set 0 { s.host.funcs[0] with memEn := true, bme := true, inst := some 5 }
                          ports := s.host.ports.set 0 { s.host.ports[0] with linkUp := true, enable := true } }
    insts := s.insts.set 5 { s.insts[5] with state := .bound, func := some 0 } }

/-- A queued command of instance 5. -/
def cmdOf (opcode : Nat) (args : List Nat) : Cmd :=
  { receipt := ⟨4000000, 5, 77, 0⟩, word := opcode, tag := 0xABC, args := args, stage := .queued, data := [], params := [], reads := [],
    planSlot := none, settled := false, manager := false, d := #v[0, 0, 0, 0], energy := 0, planId := [] }

/-- The part with one command of instance 5 in its queue. -/
def withCmd (c : Cmd) : State := live.modInst 5 fun x => { x with queue := [c] }

/-- Bytes 0, 1, 2 and on. -/
def counting (n : Nat) : Bytes := (List.range n).map (BitVec.ofNat 8)

/-! Witnesses of the hypotheses of the statements, in the order of the statements. -/

theorem witness_StepRunsFrontCommand : { live with pending := [.refresh 0 0, .nop 5] }.pending = .refresh 0 0 :: [.nop 5] := rfl

theorem witness_EmptyQueueAndNoStop : live.pending = [] := rfl

theorem live_sound : live.sound := ⟨by decide +kernel, by decide +kernel⟩

theorem witness_QueueKept : ∃ s', step { live with pending := [.refresh 0 0, .nop 5] } = .next s' := ⟨_, rfl⟩

theorem witness_SoundKept : live.sound ∧ ∃ s', step live = .next s' := ⟨live_sound, _, rfl⟩

theorem witness_StampOrder : Stamp.lt ⟨1, 5, 9, 3⟩ ⟨2, 0, 0, 0⟩ = true ∧ Stamp.lt ⟨2, 0, 0, 0⟩ ⟨2, 0, 1, 0⟩ = true ∧
    Stamp.lt ⟨2, 0, 1, 7⟩ ⟨2, 0, 1, 0⟩ = false ∧ Stamp.lt ⟨2, 0, 1, 0⟩ ⟨2, 0, 1, 7⟩ = false := by decide +kernel

theorem witness_NansAreCanonical : (0x7F800000 < 0x7F800001 % 2 ^ 31 ∧ 0x7F800001 < 2 ^ 32) ∧ (0xFF800000 % 2 ^ 31 ≤ 0x7F800000) ∧
    (0x7FF0000000000000 < (2 ^ 64 - 1) % 2 ^ 63) ∧ 0x7FF0000000000000 % 2 ^ 63 ≤ 0x7FF0000000000000 := by decide

theorem witness_PackedArrays : (packBits 3 [5, 2, 7]).length = 8 ∧ packBits 0 [5] = [] := by decide +kernel

theorem witness_DecodedBlocksAreTheirValues : ∀ enc ∈ [0, 1, 2, 3, 4, 5, 6], ∃ ty ∈ [1, 2, 3, 4, 5, 6, 7, 8, 9, 10, 11, 12],
    tyKnown ty = true ∧ encAllowed ty enc = true ∧ tyVar ty = false ∧ 5 < 2 ^ tyBits ty := by decide +kernel

/-! The tiles. -/

theorem ready_sound : (ready id).sound := ⟨by decide +kernel, by decide +kernel⟩

theorem ready_fetched : Fetched (ready id) 0 (after (ready id)) := fetched_of _ _ (by decide +kernel) (by decide +kernel)
theorem witness_SparIntegerResults : Fetched (ready id) 0 (after (ready id)) := ready_fetched

theorem witness_SparFloatResults : Fetched (ready id) 0 (after (ready id)) ∧ (f32.unpack 0x3F800000).isNan = false ∧
    (f64.unpack 0x7FF8000000000000).isNan = true := ⟨ready_fetched, by decide +kernel, by decide +kernel⟩

/-- g1 is an address of the last aligned 8 bytes of the tile's scratch. -/
def lastWord : State := regs3 0x02010003FFF8 0 0

theorem lastWord_fetched : Fetched lastWord 0 (after lastWord) := fetched_of _ _ (by decide +kernel) (by decide +kernel)

theorem lastWord_sound : lastWord.sound := ⟨by decide +kernel, by decide +kernel⟩

theorem witness_SparLoadAndStoreResults : lastWord.sound ∧ Fetched lastWord 0 (after lastWord) ∧ ∀ n ∈ [1, 2, 4, 8],
    (0x02010003FFF8 : Nat) % n = 0 ∧ (after lastWord).firstBad 0 .load 0x02010003FFF8 n = none ∧
    (after lastWord).firstBad 0 .store 0x02010003FFF8 n = none ∧ inScratch 0x02010003FFF8 = true ∧
    (((after lastWord).loadBytes 0 0x02010003FFF8 n .none).1.data.toOption = some (zeros n)) :=
  ⟨lastWord_sound, lastWord_fetched, by decide +kernel⟩

/-- The part with tile 0 in monitor mode whose window 0 opens the first MiB of device memory to loads and stores. -/
def windowed : State :=
  (live.modTile 0 fun c => { c with state := .monitor, pc := 0x020100000000, wbase := c.wbase.set 0 0, wlim := c.wlim.set 0 0x100000,
                                    wattr := c.wattr.set 0 15, g := c.g.set 1 0xFFFF8 }).modCourse 0 fun k => { k with effective := 0 }

theorem witness_SparLoadAndStoreResults_memory : windowed.sound ∧ Fetched windowed 0 (after windowed) ∧
    inScratch 0xFFFF8 = false ∧ inCtl 0 0xFFFF8 = false ∧ (after windowed).regionAt 0xFFFF8 = none ∧
    (after windowed).firstBad 0 .store 0xFFFF8 8 = none ∧ (∀ m : Fin 8, ((after windowed).dram.chans[m]).writes = []) ∧
    (after windowed).dram.gone 0xFFFF8 = false :=
  ⟨⟨by decide +kernel, by decide +kernel⟩, fetched_of _ _ (by decide +kernel) (by decide +kernel), by decide +kernel⟩

theorem witness_SparBranchResults : Fetched (regs3 (-1) 1 0) 0 (after (regs3 (-1) 1 0)) ∧
    (((regs3 (-1) 1 0).tiles[(0 : TileId)]).g[(1 : Reg)]).toInt < (((regs3 (-1) 1 0).tiles[(0 : TileId)]).g[(2 : Reg)]).toInt ∧
    (((regs3 (-1) 1 0).tiles[(0 : TileId)]).g[(2 : Reg)]).toNat < (((regs3 (-1) 1 0).tiles[(0 : TileId)]).g[(1 : Reg)]).toNat ∧
    ((regs3 (-1) 1 0).tiles[(0 : TileId)]).g[(3 : Reg)] = ((regs3 (-1) 1 0).tiles[(0 : TileId)]).g[(0 : Reg)] ∧
    (((regs3 (-1) 1 0).tiles[(0 : TileId)]).g[(3 : Reg)]).toNat % 4 = 0 :=
  ⟨fetched_of _ _ (by decide +kernel) (by decide +kernel), by decide +kernel⟩

/-- A tile whose MSP is one value and MSL another. -/
def stack (msp msl : Word) : Tile := { (ready id).tiles[(0 : TileId)] with msp := msp, msl := msl }

theorem witness_ExceptionEntry : (ready id).sound ∧ ¬ (stack 0x020100000010 0).pushGood ∧
    ((stack 0x020100040000 0x02010003C020).pushGood ∧ (0x02010003C020 : Nat) + 32 ≤ 0x020100040000) ∧
    ((stack 0x02010003C020 0x02010003C020).pushGood ∧ ¬ ((0x02010003C020 : Nat) + 32 ≤ 0x02010003C020)) ∧
    ((stack 0x02010003C020 0x02010003C030).pushGood ∧ (0x02010003C020 : Word) ≠ 0x02010003C030) :=
  ⟨ready_sound, by decide +kernel⟩

theorem witness_SparTraps : (ready id).sound ∧ Fetched (ready id) 0 (after (ready id)) ∧ ((ready id).tiles[(0 : TileId)]).roomy ∧
    (match sparWord 0xFFFFFFFF with | .illegal => true | _ => false) = true ∧
    (after (ready id)).firstBad 0 .load 0xFFFFFFFFFFF8 8 = some 0xFFFFFFFFFFF8 ∧
    (after (ready id)).firstBad 0 .store 0xFFFFFFFFFFF8 8 = some 0xFFFFFFFFFFF8 :=
  ⟨ready_sound, ready_fetched, by decide +kernel, by decide +kernel, by decide +kernel, by decide +kernel⟩

/-- Tile 0 in bundle mode, its code in a window of device memory. -/
def bundled : State := windowed.modTile 0 fun c => { c with pl := false, state := .bundle, pc := 0x1000 }

theorem witness_SparTraps_privileged : bundled.sound ∧ Fetched bundled 0 (after bundled) ∧ ((bundled.tiles[(0 : TileId)]).roomy) ∧
    (bundled.tiles[(0 : TileId)]).pl = false :=
  ⟨⟨by decide +kernel, by decide +kernel⟩, fetched_of _ _ (by decide +kernel) (by decide +kernel), by decide +kernel, by decide +kernel⟩

theorem witness_RtmRestores : Fetched (ready id) 0 (after (ready id)) ∧ ((ready id).tiles[(0 : TileId)]).pl = true ∧
    ((ready id).tiles[(0 : TileId)]).pushGood := ⟨ready_fetched, by decide +kernel, by decide +kernel⟩

theorem witness_RtmRestores_stall : Fetched (ready fun c => { c with msp := 0x10 }) 0 (after (ready fun c => { c with msp := 0x10 })) ∧
    ((ready fun c => { c with msp := 0x10 }).tiles[(0 : TileId)]).pl = true ∧
    ¬ ((ready fun c => { c with msp := 0x10 }).tiles[(0 : TileId)]).pushGood :=
  ⟨fetched_of _ _ (by decide +kernel) (by decide +kernel), by decide +kernel, by decide +kernel⟩

/-- Tile 0 waiting, with an event pending or with the timer set. -/
def dozing (unit : Bool) : State :=
  ready fun c => if unit then { c with unitSrc := 2, unitEnable := 2 } else { c with tcmp := 9000000 }

theorem witness_SystemInstructions : Fetched (ready id) 0 (after (ready id)) ∧ ((ready id).tiles[(0 : TileId)]).pl = true ∧
    (dozing true).asyncPending ((dozing true).tiles[(0 : TileId)]) ≠ 0 ∧ (dozing false).asyncPending ((dozing false).tiles[(0 : TileId)]) = 0 ∧
    ((dozing false).tiles[(0 : TileId)]).tcmp ≠ 0 ∧ ((dozing false).tiles[(0 : TileId)]).timerTaken = false ∧
    (((dozing false).modTile 0 fun c => { c with state := .waiting }).tiles[(0 : TileId)]).state = .waiting :=
  ⟨ready_fetched, by decide +kernel⟩

/-- Tile 0 with exceptions enabled and some events pending. -/
def eventful (preempt dispatch unit : Bool) : State :=
  ready fun c => { c with im := false, pendPreempt := preempt, pendDispatch := dispatch, unitSrc := if unit then 4 else 0, unitEnable := 6
                          tcmp := 77 }

theorem witness_AsynchronousEvents : (eventful true true true).sound ∧ (eventful true true true).sparRuns 0 = true ∧
    ((eventful true true true).tiles[(0 : TileId)]).im = false ∧ ((eventful true true true).tiles[(0 : TileId)]).roomy ∧
    ((eventful false true true).tiles[(0 : TileId)]).pendPreempt = false ∧ ((eventful false true true).tiles[(0 : TileId)]).pendDispatch = true ∧
    (((eventful false false true).tiles[(0 : TileId)]).unitSrc &&& ((eventful false false true).tiles[(0 : TileId)]).unitEnable ≠ 0) ∧
    (((eventful false false false).tiles[(0 : TileId)]).unitSrc &&& ((eventful false false false).tiles[(0 : TileId)]).unitEnable = 0) ∧
    ((eventful false false false).tiles[(0 : TileId)]).timerTaken = false :=
  ⟨⟨by decide +kernel, by decide +kernel⟩, by decide +kernel⟩

/-- Tile 0 with two streams of 8 bytes in its scratch: at a a byte 1, at b a byte 1 and then a byte 2. -/
def streams (a b n : Word) : State :=
  (regs3 a b n).modTile 0 fun c => { c with scratch := [(0, 1), (64, 1), (65, 2)] }

theorem witness_StreamResults : (streams 0x020100000000 0x020100000040 8).sound ∧
    Fetched (streams 0x020100000000 0x020100000040 8) 0 (after (streams 0x020100000000 0x020100000040 8)) ∧
    (∀ i, i < 8 → (after (streams 0x020100000000 0x020100000040 8)).byteOk 0 .store (0x020100000000 + i) = true ∧
      (after (streams 0x020100000000 0x020100000040 8)).byteOk 0 .load (0x020100000040 + i) = true) ∧
    (let byte := fun (x : Nat) => memByte ((streams 0x020100000000 0x020100000040 8).tiles[(0 : TileId)]).scratch x
     byte 0 = byte 64 ∧ byte 1 ≠ byte 65 ∧ (∀ i, i < 8 → byte (2 + i) = byte (66 + i)) ∧ (∀ i, i < 8 → byte (2 + i) ≠ 9) ∧ byte 0 = 1) :=
  ⟨⟨by decide +kernel, by decide +kernel⟩, fetched_of _ _ (by decide +kernel) (by decide +kernel), by decide +kernel, by decide +kernel⟩

theorem witness_StreamResults_empty : (streams 0x020100000000 0x020100000040 0).sound ∧
    Fetched (streams 0x020100000000 0x020100000040 0) 0 (after (streams 0x020100000000 0x020100000040 0)) ∧
    (((streams 0x020100000000 0x020100000040 0).tiles[(0 : TileId)]).g[(3 : Reg)]).toNat = 0 :=
  ⟨⟨by decide +kernel, by decide +kernel⟩, fetched_of _ _ (by decide +kernel) (by decide +kernel), by decide +kernel⟩
/-- A tile's L1 line of way 0 of set 0, dirty, locked or not. -/
def l1Line (locked : Bool) : L1Line :=
  { line := 0, valid := [true, true, true, true], dirty := [true, false, false, false], data := zeros 128, locked := locked, region := none,
    dirtyNo := 1 }

/-- Tile 0 with three registers and, in its L1, one locked line and one that is not. -/
def l1Tile (a b : Word) : State :=
  windowed.modTile 0 fun c => { c with g := (c.g.set 1 a).set 2 b, l1d := [(0, l1Line true), (1, l1Line false)] }

theorem witness_CacheOperations : Fetched (l1Tile 0 1) 0 (after (l1Tile 0 1)) ∧ ((l1Tile 0 1).tiles[(0 : TileId)]).pl = true ∧
    nget ((l1Tile 0 1).tiles[(0 : TileId)]).l1d 0 = some (l1Line true) ∧ (((l1Tile 0 1).tiles[(0 : TileId)]).g[(3 : Reg)]) = 0 :=
  ⟨fetched_of _ _ (by decide +kernel) (by decide +kernel), by decide +kernel⟩

theorem witness_CacheOperations_range : Fetched (l1Tile 0xFFF80 128) 0 (after (l1Tile 0xFFF80 128)) ∧
    (after (l1Tile 0xFFF80 128)).firstBad 0 .load 0xFFF80 128 = none ∧
    ∀ l, l < 2 → (after (l1Tile 0xFFF80 128)).lineBad (64 * (0xFFF80 / 64 + l)) = false :=
  ⟨fetched_of _ _ (by decide +kernel) (by decide +kernel), by decide +kernel⟩

/-- A Thatch line at an address of device memory. -/
def thLine (dirty locked : Bool) : TLine :=
  { line := 0, data := zeros 64, dirty0 := dirty, dirty1 := false, locked := locked, aperture := false, region := none,
    bad0 := false, bad1 := false }

/-- The part with slice 0 enabled, or off, and one line in it. -/
def sliced (enabled dirty locked : Bool) : State :=
  live.modSlice 0 fun c => { c with enabled := enabled, lines := [(0, thLine dirty locked)] }

theorem witness_CacheOperations_thatch : (sliced true true true).ridgeActs = true ∧ ((sliced true true true).thatch.slices[(3 : Fin 16)]).mop.busy = false ∧
    (sliced true true true).thBusyIn 0xFFFF = false ∧ (64 + 64 ≤ (sliced true true true).dram.managed) ∧
    ((0 : Nat) ∈ ((sliced true true true).thatch.slices[(0 : Fin 16)]).visited false 0 64) ∧
    ((sliced true true true).thatch.slices[(0 : Fin 16)]).heldIn 0 < 15 ∧
    ((sliced true true false).thatch.slices[(0 : Fin 16)]).powered = true ∧ (sliced true true true).thatch.retireUntil ≤ (sliced true true true).time.ts ∧
    (live.modThatch fun x => { x with retireUntil := 9000000 }).time.ts < (live.modThatch fun x => { x with retireUntil := 9000000 }).thatch.retireUntil := by
  decide +kernel

theorem witness_SliceEnableAndPower : (sliced true true false).ridgeActs = true ∧
    (((sliced true false true).thatch.slices[(0 : Fin 16)]).enabled = true ∧ (sliced true false true).thBusyIn 1 = false ∧
      ∀ p ∈ ((sliced true false true).thatch.slices[(0 : Fin 16)]).lines, p.2.dirty0 = false ∧ p.2.dirty1 = false) ∧
    (∃ p ∈ ((sliced true true false).thatch.slices[(0 : Fin 16)]).lines, p.2.dirty0 = true) ∧
    ((sliced false true false).thatch.slices[(0 : Fin 16)]).enabled = false ∧
    (let c := ((live.modSlice 0 fun c => { c with powered := false, powering := true }).thatch.slices[(0 : Fin 16)])
     c.powered = false ∧ c.fused = false ∧ c.powering = true) := by decide +kernel

/-! Vectors. -/

theorem witness_VectorIntegerResults : Fetched (ready id) 0 (after (ready id)) := ready_fetched

theorem witness_VectorFloatResults : Fetched (ready id) 0 (after (ready id)) ∧ 2 ≤ (2 : Fin 4).val := ⟨ready_fetched, by decide⟩

theorem witness_VectorCompareAndMaskResults : Fetched (ready id) 0 (after (ready id)) ∧ 2 ≤ (3 : Fin 4).val := ⟨ready_fetched, by decide⟩

theorem witness_VectorPermuteAndReduce : Fetched (ready id) 0 (after (ready id)) ∧
    (List.range 64).filter (((ready id).tiles[(0 : TileId)]).active 1) = [] ∧
    (List.range 64).filter (((ready id).tiles[(0 : TileId)]).active 0) ≠ [] := ⟨ready_fetched, by decide +kernel⟩

theorem witness_ColumnInstructions : Fetched (ready id) 0 (after (ready id)) := ready_fetched

/-- Tile 0 with the first two elements of m1 active, g1 at one address and the offset of element 1 in v4. -/
def gathering (a off : Nat) : State :=
  ready fun c => { c with g := (c.g.set 1 (BitVec.ofNat 64 a)).set 2 8, m := c.m.set 1 3, v := c.v.set 4 (BitVec.ofNat 512 (off * 2 ^ 32)) }

/-- What a read of the elements of g1 + v4 comes to. -/
def gathered (s : State) : VLoad :=
  ((after s).vRead 0 (fun i => (((s.tiles[(0 : TileId)]).g[(1 : Reg)]).toNat +
    vElem ((s.tiles[(0 : TileId)]).v[Fin.ofNat 32 (4 + i / 16)]) 32 (i % 16)) % 2 ^ 64) 4 0 .none [0, 1]).1

theorem witness_VectorMemoryResults : (gathering 0x020100000000 4).sound ∧
    Fetched (gathering 0x020100000000 4) 0 (after (gathering 0x020100000000 4)) ∧ (gathered (gathering 0x020100000000 4)).fault.isNone = true ∧
    (gathered (gathering 0x020100000000 4)).lost = [] ∧
    (after (gathering 0x020100000000 4)).firstBad 0 .load 0x020100000004 4 = none ∧
    (after (gathering 0x020100000000 4)).firstBad 0 .store 0x020100000004 4 = none ∧ inScratch 0x020100000004 = true ∧ (4 : Reg).val % 4 = 0 :=
  ⟨⟨by decide +kernel, by decide +kernel⟩, fetched_of _ _ (by decide +kernel) (by decide +kernel), by decide +kernel⟩

theorem witness_VectorMemoryResults_first_fault : (gathering 0x020100FFFFFC 4).sound ∧
    Fetched (gathering 0x020100FFFFFC 4) 0 (after (gathering 0x020100FFFFFC 4)) ∧
    (after (gathering 0x020100FFFFFC 4)).firstBad 0 .load 0x020100FFFFFC 4 = none ∧
    (after (gathering 0x020100FFFFFC 4)).firstBad 0 .load 0x020101000000 4 ≠ none :=
  ⟨⟨by decide +kernel, by decide +kernel⟩, fetched_of _ _ (by decide +kernel) (by decide +kernel), by decide +kernel⟩

/-! Memory. -/

/-- The part with every activation of bank 0 of rank 0 by SRC8 5 in slot 0 used up. -/
def throttledBank : State := live.modMemChan 0 fun c => { c with throttles := [⟨0, 0, 5, 0, 0, 5000000, 2⟩] }

/-- The part with the row of address 0 open. -/
def openRow : State := live.modMemChan 0 fun c => { c with pages := [⟨live.bankKey 0, (live.dram.place 0).row, 5000000, false⟩] }

theorem witness_MemoryRequestsAndErrors : live.sound ∧ (4 * 2 ^ 30 - 64) + 64 ≤ live.dram.managed ∧ live.rowWaits (4 * 2 ^ 30 - 64) 5 0 = false ∧
    (∀ k : Fin 8, (live.dram.chans[k]).writes = []) ∧ (live.dram.chans[live.dram.chanOf (4 * 2 ^ 30 - 64)]).writes.length + 1 <
      (live.dram.chans[live.dram.chanOf (4 * 2 ^ 30 - 64)]).wmHigh ∧ live.lineBad (4 * 2 ^ 30 - 64) = false ∧
    live.dram.readRank (4 * 2 ^ 30 - 64) < 16 :=
  ⟨live_sound, by decide +kernel⟩

theorem witness_MemoryRequestsAndErrors_rows : (throttledBank.sound ∧ throttledBank.rowWaits 0 5 0 = true) ∧
    (openRow.sound ∧ openRow.rowOpen 0 = true) := ⟨⟨⟨by decide +kernel, by decide +kernel⟩, by decide +kernel⟩, ⟨by decide +kernel, by decide +kernel⟩, by decide +kernel⟩

/-- The part with line 0 POISONED. -/
def poisonedLine : State := live.modDram fun d => { d with poison := [(0, ())] }

theorem witness_MemoryRequestsAndErrors_poison : poisonedLine.sound ∧ poisonedLine.lineBad 0 = true ∧
    poisonedLine.rowWaits 0 5 0 = false := ⟨⟨by decide +kernel, by decide +kernel⟩, by decide +kernel⟩

theorem witness_MemoryRequestsAndErrors_alerts :
    (((live.dram.chans[(0 : Fin 8)]).alerts.filter fun x => live.time.ts ≤ x.2 + 1000000).filter fun x => x.1 == 0).length < 2 ∧
    2 ≤ ((((live.modMemChan 0 fun c => { c with alerts := [(0, 4500000), (1, 4500000), (0, 4000000), (0, 3)] }).dram.chans[(0 : Fin 8)]).alerts.filter
      fun x => live.time.ts ≤ x.2 + 1000000).filter fun x => x.1 == 0).length := by decide +kernel

/-- A double-lapped table of one column whose segment holds one chunk of 256 bytes at 4096, and its copy at 8192. -/
def lappedPart : State :=
  let chunk : Bytes := [0, 0, 0, 0, 0, 1] ++ zeros 250
  live.modTables fun ts => { ts with tables := [(300,
    { desc := { id := 300, owner := 5, keep := false, lapped := true, chained := false, retTime := 0, retDist := 0, retBytes := 0, sealAge := 0,
                ingest := ⟨1000, false, 0⟩, readers := 0, holds := [], cols := [⟨1, false, 1, 0, 1, 0, 0⟩] }
      dropping := false, ingestNext := none, retNext := none, nextSeg := 1, mark := none, held := [], refusing := false, lastMax := none,
      lastDigest := zeros 32,
      segs := [{ no := 0, state := .sealed, unordered := false, overlap := false, rows := [], firstAt := 0, sealing := false, sealCols := none,
                 sealStamp := none, prevDigest := zeros 32, digest := zeros 32, chunksA := [chunk], chunksB := [chunk], badA := [], badB := [],
                 openHeld := 0, openRows := [], prevMax := none, sealAt := 0, atA := [0, 4096], atB := [16384, 8192], openAtA := [],
                 openAtB := [] }] })] }

theorem witness_MemoryRequestsAndErrors_lapped : (live.harmAt 4096).1 = false ∧ (lappedPart.harmAt 4096).1 = true ∧
    lappedPart.rowWaits 4096 5 0 = false ∧ lappedPart.lineBad 4096 = false := by decide +kernel

/-- The part with a row of bank 3 of channel 0 at its threshold. -/
def hammered : State :=
  live.modMemChan 0 fun c => { c with rows := [{ bank := 3, row := 9, count := c.rhThreshold, reqs := [(5, 2, 7)], acted := false }] }

/-- The part that moves rank 0, out of service, to rank 4 and has moved n units. -/
def migrating (n : Nat) : State := live.modDram fun d => { d with mig := ⟨n, 0, 4, 1⟩, ranksOut := 1 }

theorem witness_MemoryUpkeepAndKeep : 64 ≤ live.dram.managed ∧ live.dram.phase ≠ .inKeep ∧
    ((hammered.dram.chans[(0 : Fin 8)]).rows.find? fun r =>
      r.bank == 3 && r.row == 9 && (hammered.dram.chans[(0 : Fin 8)]).rhThreshold ≤ r.count && !r.acted).isSome = true ∧
    (∀ n ∈ [7, 1023], (migrating n).dram.mig.state = 1 ∧ bitAt (migrating n).dram.ranksOut (migrating n).dram.mig.fromRank = true) ∧
    7 + 1 < live.dram.rankSize / 2 ^ 20 ∧ live.dram.rankSize / 2 ^ 20 ≤ 1023 + 1 ∧
    (migrating 7).dram.inUnit (7168 * 64 / 64) = true := by decide +kernel

/-- The part in a phase of the Keep, with what the phase comes with. -/
def keeping (p : KeepPhase) : State :=
  (live.modDram fun d => { d with phase := p, keepStamp := some ⟨4000000, 5, 3, 0⟩, retainFrom := some 4500000, wakeLowAt := some 4900000, eighths := 8 }).modBoot
    fun b => { b with wakeHigh := false, wakePending := true, mainEn := false }

theorem witness_MemoryUpkeepAndKeep_keep : (live.boot.wakeHigh = true ∧ live.dram.phase ≠ .inKeep) ∧
    ((keeping .out).dram.wakeLowAt = some 4900000 ∧ (keeping .out).cfg 0x1020 4 2000 ≠ 0 ∧ (keeping .out).boot.wakeHigh = false ∧
      (keeping .out).dram.phase = .out ∧ (keeping .out).boot.inService = true) ∧
    ((keeping .entering).dram.phase = .entering ∧ (keeping .entering).dram.keepStamp = some ⟨4000000, 5, 3, 0⟩ ∧ (keeping .entering).keepWaits = false) ∧
    ((keeping .inKeep).dram.phase = .inKeep ∧ (keeping .inKeep).dram.retainFrom = some 4500000 ∧ (keeping .inKeep).boot.wakePending = true ∧
      (keeping .inKeep).boot.mainEn = false) := by decide +kernel
/-! Engines. -/

/-- A descriptor of some mode: mode word, count, source, destination, and the parameters of its mode. -/
def descOf (mode count src dst p0 p1 p2 : Nat) : GDesc :=
  { raw := toLE 4 (mode + 2 ^ 10) ++ toLE 4 count ++ toLE 8 src ++ toLE 8 dst ++ toLE 8 p0 ++ toLE 8 p1 ++ toLE 8 p2 ++ zeros 16, table := [], asked := 0
    burstTo := 0, moved := 0, readBack := false }

/-- The part with the Gutter enabled and one channel 3 of firmware in a state, with a descriptor, on a request line. -/
def channel (st : ChState) (d : Option GDesc) (line ring pending : Nat) : State :=
  (live.modGutter fun g => { g with enable := true }).modChan 3 fun x =>
    { x with state := st, desc := d, pendingReq := pending, ring := 0x100, use := .firmware, wbase := .replicate 4 0, wlim := .replicate 4 (2 ^ 47)
             ctrl := 16 + ring * 8 + 7 * 2 ^ 5 + line * 2 ^ 8 + 31 * 2 ^ 14 + 9 * 2 ^ 25 + 2 ^ 31 }

/-- A copy of 100 bytes from tile 0's scratch to tile 1's, begun or with its bytes written. -/
def copyDesc (done : Bool) : GDesc := { descOf 0 100 0x020100000100 0x020100040200 0 0 0 with readBack := done }

theorem witness_GutterControlAndMoves :
    ((channel .idle none 0x3F 0 0).ridgeActs = true ∧ ((channel .idle none 0x3F 0 0).gutter.chans[(3 : ChanId)]).busy = false ∧
      ((channel .idle none 0x3F 0 0).gutter.chans[(3 : ChanId)]).line = 0x3F ∧ ((channel .idle none 0x3F 0 0).gutter.chans[(3 : ChanId)]).isRing = false) ∧
    (let s := (channel .idle none 5 0 0).modChan 4 fun x => { x with state := .running, ctrl := 5 * 2 ^ 8 }
     (s.gutter.chans[(3 : ChanId)]).line ≠ 0x3F ∧ (s.gutter.chans[(4 : ChanId)]).line = (s.gutter.chans[(3 : ChanId)]).line ∧
       (s.gutter.chans[(4 : ChanId)]).busy = true) ∧
    ((channel .pausing (some (copyDesc false)) 0x3F 0 0).gutter.chans[(3 : ChanId)]).state = .pausing ∧
    ((channel .paused (some (copyDesc false)) 0x3F 0 0).gutter.chans[(3 : ChanId)]).line = 0x3F ∧
    ((channel .waiting (some (copyDesc false)) 0x3F 0 0).gutter.chans[(3 : ChanId)]).busy = true ∧ State.reset.ridgeActs = false := by decide +kernel

theorem witness_GutterControlAndMoves_lines : ∀ pending ∈ [254, 255],
    let s := channel .waiting (some (copyDesc false)) 47 0 pending
    (s.gutter.chans[(3 : ChanId)]).line = 47 ∧ (s.gutter.chans[(3 : ChanId)]).busy = true ∧ (s.gutter.chans[(3 : ChanId)]).pendingReq = pending ∧
      ∀ j : ChanId, (s.gutter.chans[j]).line = 47 → j = 3 := by decide +kernel

theorem witness_GutterControlAndMoves_ends :
    (let x := (channel .running (some (copyDesc true)) 0x3F 0 0).gutter.chans[(3 : ChanId)]
     (x.desc.any fun d => d.readBack && d.doneAddr == 0 && d.nextAddr == 0 && d.notify) = true ∧ x.state = .running ∧ x.isRing = false ∧ x.notifyEn = true) ∧
    (let s := channel .waiting none 0x3F 1 0
     (s.gutter.chans[(3 : ChanId)]).isRing = true ∧ (s.gutter.chans[(3 : ChanId)]).desc = none ∧ s.gutter.enable = true ∧
       (match (s.chanFetch 3 0x100 8 []).1 with | .ok (h, _) => fieldAt 0 4 h == fieldAt 4 4 h | _ => false) = true) := by decide +kernel

/-- The bytes a descriptor's next part writes, between tile scratches alone and permitted, or none. -/
def partOk (s : State) (d : GDesc) : Bool :=
  let scratch := fun (a : Nat) => match s.regionOf a with
    | .scratch _ _ => true
    | _ => false
  d.part.1.all (fun x => s.chanMay 3 x.1 x.2 false && scratch x.1) && 0 < d.part.2 && d.moved < d.total &&
    match d.emitPart (d.part.1.flatMap fun x => (s.devRead x.1 x.2 false).1.getD []) d.part.2 with
    | .ok ws => ws.all fun x => s.chanMay 3 x.1 x.2.length true && scratch x.1
    | .error _ => false

/-- A descriptor of each mode between tile scratches. -/
def modeDesc : Nat → GDesc
  | 0 => copyDesc false
  | 1 => descOf 1 100 0 0x020100040200 0x1234567 0 0
  | 2 => { descOf 2 10 0 0x020100040200 0x1000 2 0 with table := [(0x020100000300, 3), (0x020100000400, 5)] }
  | 3 => { descOf 3 10 0x020100000100 0 0x1000 2 0 with table := [(0x020100000300, 3), (0x020100000400, 5)] }
  | 4 => descOf 4 64 0x020100000100 0x020100040200 0 (8 * 2 ^ 8) 8
  | _ => descOf 5 64 0x020100000100 0x020100040200 0 (8 * 2 ^ 8) 8

theorem witness_GutterControlAndMoves_modes : ∀ m ∈ [0, 1, 2, 3, 4, 5], (modeDesc m).mode = m ∧
    partOk (channel .running (some (modeDesc m)) 0x3F 0 0) (modeDesc m) = true ∧
    ∀ k : Fin 16, ((channel .running (some (modeDesc m)) 0x3F 0 0).flash.ctxs[k]).state ≠ .running := by decide +kernel

theorem witness_UnplaneUndoesPlane : (planeWords (modeDesc 4) [0, 255, 128]).isSome = true ∧ (modeDesc 4).keyRule ≤ 2 ∧ (modeDesc 4).planes = 8 ∧
    (modeDesc 4).w = 8 ∧ (modeDesc 4).p0 < 2 ^ 8 := by decide +kernel

/-- The part with a Flashing context 0 in a state. -/
def flashing (st : FcState) (ctrl len taken : Nat) : State :=
  live.modFlash fun f => { f with ctxs := f.ctxs.set 0 { FCtx.reset with state := st, ctrl := ctrl, len := len, taken := zeros taken } }

theorem witness_YelmAndFlashing_digest : live.ridgeActs = true ∧
    (live.flash.alarms = 0 ∧ (live.flash.ctxs[(0 : Fin 16)]).state = .free) ∧
    (∀ j : Fin 16, ((live.modFlash fun f => { f with ctxs := .replicate 16 { FCtx.reset with state := .set } }).flash.ctxs[j]).state ≠ .free) ∧
    (live.modFlash fun f => { f with alarms := 4 }).flash.alarms ≠ 0 ∧
    (((flashing .set 0 0 0).flash.ctxs[(0 : Fin 16)]).state = .set ∧
      (flashing .set 0 0 0).fcRefuse 0 { ((flashing .set 0 0 0).flash.ctxs[(0 : Fin 16)]) with ctrl := 1 } 1 = none) ∧
    ((flashing .failed 1 0 0).flash.ctxs[(0 : Fin 16)]).state = .failed ∧
    (let x := (flashing .running 1 8 7).flash.ctxs[(0 : Fin 16)]
     x.state = .running ∧ x.source = 0 ∧ x.taken.length < x.len) ∧
    (let x := (flashing .running 1 8 8).flash.ctxs[(0 : Fin 16)]
     x.taken.length = x.len ∧ x.dest = 0) ∧
    ((flashing .running 0x41 8 8).flash.ctxs[(0 : Fin 16)]).dest = 2 ∧
    (let s := flashing .running 1 8 8
     (s.flash.ctxs[(0 : Fin 16)]).served < (s.flash.ctxs[(0 : Fin 16)]).blocks ∧
       ∀ j : Fin 16, j ≠ 0 → (s.flash.ctxs[j]).state ≠ .running) ∧
    (let x := (flashing .running 0x21 8 8).flash.ctxs[(0 : Fin 16)]
     x.dest = 1 ∧ (flashing .running 0x21 8 8).ridgeReaches x.dst (shaAlg x.alg x.taken).length = true) := by decide +kernel

/-- The part with the Yelm engines enabled and one READY job in slot 0 of queue 0, or an engine at work on one of a tile. -/
def yelmReady (job : Option YJob) : State :=
  (live.modYelm fun y =>
    { y with enable := true, jobs := y.jobs.set 0 job, queues := y.queues.set 0 { y.queues[0] with enable := true, base := 0x1000, engines := 15, slots := 1 } }).modMem
      fun _ => [(0x1078, 1)]

theorem witness_YelmAndFlashing : ((yelmReady none).yelm.enable = true ∧ (yelmReady none).yelm.jobs[(0 : Fin 4)] = none ∧
      (yelmReady none).yPick 0 = some ⟨0, 0, false, none, none⟩) ∧
    (let s := live.modYelm fun y => { y with enable := true }
     s.yelm.enable = true ∧ s.yelm.jobs[(0 : Fin 4)] = none ∧ s.yPick 0 = none) ∧
    ((yelmReady (some ⟨0, 0, zeros 64, some 7, none, [], false, some 0, 5000000, none, none⟩)).yelm.jobs[(0 : Fin 4)]).isSome = true ∧
    yBad (zeros 64) = true := by decide +kernel

/-! Ports. -/

theorem witness_ConfigurationBar2AndHoldoff : (live.host.ports[funcPort 0]).linkUp = true ∧ (live.host.funcs[(0 : FuncId)]).flrUntil ≤ live.time.ts ∧
    live.funcExists 0 = true ∧ live.funcExists 1 = false ∧ live.barOpen 0 = true ∧ (live.host.funcs[(0 : FuncId)]).inst = some 5 ∧
    0 + 0 ≤ live.areaBytes 5 ∧ (let s := live.modInst 5 fun x => { x with resultMib := 1 }; (2 ^ 20 - 8) + 8 ≤ s.areaBytes 5) ∧
    (bitAt ((live.modFunc 0 fun x => { x with merged := 2 ^ 31 }).host.funcs[(0 : FuncId)]).merged 31 = true ∧
      bitAt (live.host.funcs[(0 : FuncId)]).merged 31 = false) := by decide +kernel

/-- The part with port H0 in a state, its FREEZE_SEQ 7. -/
def portIn (st : PortState) (up : Bool) : State := live.modPort 0 fun h => { h with state := st, linkUp := up, freezeSeq := 7, holdEnd := 9000000 }

/-- The part with tags of port H0 in use and in quarantine. -/
def tagged : State :=
  live.modPort 0 fun h => { h with tags := [(1, .quarantined 8000000), (2, .outstanding 0 (.chan 3) 6000000), (3, .outstanding 0 .gone 6000000)] }

theorem witness_PortEvents : ((live.host.ports[(0 : PortId)]).enable = true ∧ (live.host.ports[(0 : PortId)]).fault = false) ∧
    (live.host.ports[(0 : PortId)]).state = .running ∧ ((portIn .frozen true).host.ports[(0 : PortId)]).state = .frozen ∧ (0 : PortId) = funcPort 0 ∧
    (((portIn .frozen true).host.ports[(0 : PortId)]).linkUp = true ∧ 7 = ((portIn .frozen true).host.ports[(0 : PortId)]).freezeSeq ∧ funcIndex 0 = 0) ∧
    (((portIn .frozen false).host.ports[(0 : PortId)]).linkUp = false) ∧ (live.host.funcs[(0 : FuncId)]).bme = true ∧
    (live.host.funcs[(1 : FuncId)]).bme = false ∧ funcIndex 1 ≠ 0 ∧ nget (tagged.host.ports[(0 : PortId)]).tags 0 = none ∧
    nget (tagged.host.ports[(0 : PortId)]).tags 1 = some (.quarantined 8000000) ∧
    nget (tagged.host.ports[(0 : PortId)]).tags 2 = some (.outstanding 0 (.chan 3) 6000000) ∧
    nget (tagged.host.ports[(0 : PortId)]).tags 3 = some (.outstanding 0 .gone 6000000) := by decide +kernel
/-! Task commands. -/

/-- A command may start and passes the checks. -/
def goes (s : State) (i : InstId) (opcode : Nat) (c : Cmd) : Bool :=
  s.startable i (fun c => c.opcode == opcode) == some c && s.cmd i c.receipt == some c && (s.precheck i c).isNone

theorem goesOn_of (s : State) (i : InstId) (opcode : Nat) (c : Cmd) (h : goes s i opcode c = true) : s.goesOn i opcode c := by
  simp only [goes, Bool.and_eq_true, beq_iff_eq, Option.isNone_iff_eq_none] at h
  exact ⟨h.1, h.2⟩

/-- An instance reaches its host through a function. -/
def reaches (s : State) (i : InstId) (f : FuncId) : Bool :=
  match s.hostReach i with
  | .ok g => g == f
  | .error _ => false

theorem reaches_ok (s : State) (i : InstId) (f : FuncId) (h : reaches s i f = true) : s.hostReach i = .ok f := by
  unfold reaches at h
  split at h
  · rename_i e
    rw [e, beq_iff_eq.mp h]
  · cases h

theorem witness_TaskGoAndChecks : (live.host.funcs[(0 : FuncId)]).inst = some 5 ∧ live.taskState 0 = 0 ∧
    ((live.modInst 5 fun x => { x with state := .frozen }).taskState 0 ≠ 0) ∧
    ((live.modInst 5 fun x => { x with queue := List.replicate 256 (cmdOf 1 []) }).taskFull 0 = true) ∧
    (withCmd (cmdOf 0 [])).startable 5 (fun c => !opcodes.contains c.opcode) = some (cmdOf 0 []) ∧
    (withCmd (cmdOf 0 [])).cmd 5 (cmdOf 0 []).receipt = some (cmdOf 0 []) := by decide +kernel

theorem witness_TaskGoAndChecks_refused : ∀ op ∈ opcodes,
    (withCmd (cmdOf (op + 2 ^ 9) [])).startable 5 (fun c => c.opcode == op) = some (cmdOf (op + 2 ^ 9) []) ∧
    (withCmd (cmdOf (op + 2 ^ 9) [])).cmd 5 (cmdOf op []).receipt = some (cmdOf (op + 2 ^ 9) []) ∧
    (withCmd (cmdOf (op + 2 ^ 9) [])).precheck 5 (cmdOf (op + 2 ^ 9) []) = some 0x2002 ∧ (cmdOf (op + 2 ^ 9) []).word / 2 ^ 9 ≠ 0 := by decide +kernel

theorem witness_PlainCommandsAndCompletion : (withCmd (cmdOf 1 [])).goesOn 5 1 (cmdOf 1 []) ∧ (withCmd (cmdOf 2 [])).goesOn 5 2 (cmdOf 2 []) ∧
    ((withCmd (cmdOf 3 [])).goesOn 5 3 (cmdOf 3 []) ∧ ((withCmd (cmdOf 3 [])).insts[(5 : InstId)]).queue.filter (cmdOf 3 []).selects = []) ∧
    (withCmd (cmdOf 0x31 [64])).goesOn 5 0x31 (cmdOf 0x31 [64]) :=
  ⟨goesOn_of _ _ _ _ (by decide +kernel), goesOn_of _ _ _ _ (by decide +kernel), ⟨goesOn_of _ _ _ _ (by decide +kernel), by decide +kernel⟩,
    goesOn_of _ _ _ _ (by decide +kernel)⟩

/-- An instance that holds a result set at offset 64. -/
def holding : State := (withCmd (cmdOf 0x31 [64])).modInst 5 fun x => { x with resets := [⟨64, 64, true⟩] }

/-- A FLUSH, or a Nail command, that runs and may end. -/
def ending (c : Cmd) : State := withCmd { c with stage := .running, settled := true }

theorem witness_PlainCommandsAndCompletion_ends : (holding.goesOn 5 0x31 (cmdOf 0x31 [64]) ∧
      (holding.insts[(5 : InstId)]).resets.any (fun r => r.held && r.offset == (cmdOf 0x31 [64]).arg 0) = true) ∧
    (let c := { cmdOf 2 [] with stage := .running, settled := true }
     (ending c).ridgeActs = true ∧ ((ending c).insts[(5 : InstId)]).queue.find? (fun c => c.opcode == 2 && c.stage == .running) = some c ∧
       (ending c).cmd 5 c.receipt = some c ∧ (ending c).afterKeepStamp c = false ∧ (ending c).writesBefore 5 c.receipt = [] ∧
       (ending c).dict.commits.any (fun w => 2 ^ 24 ≤ w.key && w.source == .inst 5) = false) ∧
    (let c := { cmdOf 0x120 [] with stage := .running, settled := true }
     (ending c).cmdSeq 5 77 = some c ∧ (ending c).cmd 5 c.receipt = some c ∧ c.nail = true) :=
  ⟨⟨goesOn_of _ _ _ _ (by decide +kernel), by decide +kernel⟩, by decide +kernel, by decide +kernel⟩

/-- The part with a record of instance 5 to deliver into a completion ring of 8 entries, or idle in a power state. -/
def delivering (n power : Nat) : State :=
  (live.modInst 5 fun x => { x with records := List.replicate n ⟨⟨1, 5, 1, 0⟩, zeros 128, [], 0⟩, power := power, idleSince := 3 }).modFunc 0 fun x =>
    { x with regs := { x.regs with cmplCfg := 256 + 3, produced := 2 ^ 32 - 1, consumed := 2 ^ 32 - 8 } }

theorem witness_PlainCommandsAndCompletion_records : reaches (delivering 1 0) 5 0 = true ∧ (delivering 1 0).ridgeActs = true ∧
    (let g := ((delivering 1 0).host.funcs[(0 : FuncId)]).regs
     bitAt g.cmplCfg 8 = true ∧ (g.produced + 2 ^ 32 - g.consumed) % 2 ^ 32 < g.entries) ∧
    (((delivering 1 0).insts[(5 : InstId)]).records.head?.any fun r => r.result == []) = true ∧
    (let x := (delivering 0 0).insts[(5 : InstId)]
     x.state ≠ .free ∧ x.power = 0 ∧ x.idle = true ∧ 1 ≤ (delivering 0 0).deepest 5) ∧
    (let x := (delivering 0 1).insts[(5 : InstId)]
     x.power = 1 ∧ x.idle = true ∧ (delivering 0 1).deepest 5 = 2 ∧ (delivering 0 1).batten.queries.any (fun q => q.2.inst == 5) = false) := by
  decide +kernel

/-- A column descriptor. -/
def colBytes (type enc digits : Nat) (null : Bool) : Bytes :=
  toLE 1 type ++ toLE 1 null.toNat ++ toLE 1 enc ++ toLE 1 0 ++ toLE 1 digits ++ zeros 11

/-- A descriptor of table 300 of instance 5 with four columns, the two of every table and two of its own. -/
def tableBytes (sealAge : Nat) : Bytes :=
  toLE 2 300 ++ toLE 2 4 ++ toLE 1 5 ++ zeros 27 ++ toLE 4 sealAge ++ zeros 4 ++ toLE 4 50 ++ zeros 84 ++ colBytes 12 0 1 false ++
    colBytes 6 0 1 false ++ colBytes 8 0 1 false ++ colBytes 9 0 3 true

/-- The descriptor they spell. -/
def tableDesc : TableDesc := (TableDesc.parse (tableBytes 1000)).1

/-- A state with table 300, or a dropped one. -/
def withTable (dropping : Bool) (s : State) : State :=
  s.modTables fun t => { t with tables := [(300, { Table.fresh tableDesc with dropping := dropping })] }

theorem witness_TableCommands : (withCmd (cmdOf 0x10 [0x1000, 192])).goesOn 5 0x10 (cmdOf 0x10 [0x1000, 192]) ∧
    reaches (withCmd (cmdOf 0x10 [0x1000, 192])) 5 0 = true ∧ descCols 192 = some 4 ∧ 192 ≤ (tableBytes 1000).length ∧
    TableDesc.parse ((tableBytes 1000).take 192) = (tableDesc, 4, true) ∧ tableDesc.owner = 5 ∧ 0 < tableDesc.id ∧ tableDesc.id < 0xFF00 ∧
    (withCmd (cmdOf 0x10 [0x1000, 192])).descOk tableDesc = true ∧ (withCmd (cmdOf 0x10 [0x1000, 192])).table 300 = none :=
  ⟨goesOn_of _ _ _ _ (by decide +kernel), by decide +kernel⟩

theorem witness_TableCommands_alter : (withTable false (withCmd (cmdOf 0x11 [0x1000, 192, 300]))).goesOn 5 0x11 (cmdOf 0x11 [0x1000, 192, 300]) ∧
    (withTable false (withCmd (cmdOf 0x11 [0x1000, 192, 300]))).tableDenied 5 300 true = none ∧
    (TableDesc.parse (tableBytes 7)).1.sameFixed tableDesc = true ∧
    (withTable false (withCmd (cmdOf 0x11 [0x1000, 192, 300]))).descOk (TableDesc.parse (tableBytes 7)).1 = true :=
  ⟨goesOn_of _ _ _ _ (by decide +kernel), by decide +kernel⟩

theorem witness_TableCommands_drop : ((withTable false (withCmd (cmdOf 0x12 [300]))).goesOn 5 0x12 (cmdOf 0x12 [300]) ∧
      (withTable false (withCmd (cmdOf 0x12 [300]))).tableDenied 5 300 false = none) ∧
    ((withCmd (cmdOf 0x12 [300])).goesOn 5 0x12 (cmdOf 0x12 [300]) ∧ (withCmd (cmdOf 0x12 [300])).table 300 = none) ∧
    (((withTable true live).table 300).any (·.dropping) = true ∧ (withTable true live).tableFree 300 = true) :=
  ⟨⟨goesOn_of _ _ _ _ (by decide +kernel), by decide +kernel⟩, ⟨goesOn_of _ _ _ _ (by decide +kernel), by decide +kernel⟩, by decide +kernel⟩

/-- An APPEND of two rows to table 300, in a stage. -/
def appendCmd (x : CmdStage) : Cmd := { cmdOf 0x20 [0x1000, 300, 2 + 9 * 2 ^ 32, 18] with stage := x }

/-- The part with it. -/
def appending (x : CmdStage) : State := withTable false (withCmd (appendCmd x))

/-- Its header, and its payload. -/
def appendHeader : Bytes := toLE 4 0x48544142 ++ toLE 2 1 ++ toLE 2 300 ++ toLE 4 2 ++ toLE 4 9 ++ toLE 4 18 ++ zeros 44
/-- Two rows. -/
def appendRows : Bytes := toLE 1 1 ++ toLE 8 5 ++ toLE 1 0 ++ toLE 8 7

/-- The state in which the APPEND is pending, before it asks for its header. -/
def pendNow (s : State) (c : Cmd) : State :=
  (s.noted c).modIngest fun g => { g with appends := g.appends ++ [⟨c.receipt, c.arg 1 % 2 ^ 16, s.time.ts, false⟩] }

theorem witness_AppendStages : ((appending .queued).goesOn 5 0x20 (appendCmd .queued) ∧ (appending .queued).appendCheck 5 (appendCmd .queued) = none ∧
      reaches (appending .queued) 5 0 = true ∧ ((pendNow (appending .queued) (appendCmd .queued)).askHost 5 0 77 0x1000 64).isSome = true) ∧
    ((withCmd (appendCmd .queued)).goesOn 5 0x20 (appendCmd .queued) ∧ ((withCmd (appendCmd .queued)).appendCheck 5 (appendCmd .queued)).isSome = true ∧
      (withCmd (appendCmd .queued)).isPending (appendCmd .queued) = false) :=
  ⟨⟨goesOn_of _ _ _ _ (by decide +kernel), by decide +kernel⟩, goesOn_of _ _ _ _ (by decide +kernel), by decide +kernel⟩

/-- The APPEND is pending, its instance bound to no function. -/
def pendingUnbound : State :=
  (pendNow (appending .queued) (appendCmd .queued)).modInst 5 fun x => { x with func := none }

theorem witness_AppendStages_pending : (pendNow (appending .queued) (appendCmd .queued)).isPending (appendCmd .queued) = true ∧
    (pendNow (appending .queued) (appendCmd .queued)).goesOn 5 0x20 (appendCmd .queued) ∧ pendingUnbound.isPending (appendCmd .queued) = true ∧
    (match pendingUnbound.hostReach 5 with | .error none => true | _ => false) = true :=
  ⟨by decide +kernel, goesOn_of _ _ _ _ (by decide +kernel), by decide +kernel⟩

theorem witness_AppendStages_waits : let s := appending .queued
    let t := s.modPort 0 fun h => { h with tags := (List.range 256).map fun k => (k, .outstanding 0 .gone 9000000) }
    reaches t 5 0 = true ∧ (pendNow t (appendCmd .queued)).askHost 5 0 77 0x1000 64 = none := by decide +kernel

theorem witness_AppendStages_read :
    ((appending (.reading 0)).readingCmd 5 77 0x20 0 = some (appendCmd (.reading 0)) ∧
      (appending (.reading 0)).cmd 5 (appendCmd .queued).receipt = some (appendCmd (.reading 0)) ∧
      headerCode (appendCmd (.reading 0)) appendHeader = none ∧ (headerCode (appendCmd (.reading 0)) (zeros 64)).isSome = true) ∧
    ((appending (.reading 1)).readingCmd 5 77 0x20 1 = some (appendCmd (.reading 1)) ∧
      (appending (.reading 1)).cmd 5 (appendCmd .queued).receipt = some (appendCmd (.reading 1)) ∧ (appendRows.take 17).length < 18 ∧
      18 ≤ appendRows.length ∧ (((appending (.reading 1)).table 300).bind fun t => stagedRows t.desc 2 (deinterleaved t.desc 2 appendRows)).isSome = true ∧
      (let d : TableDesc := { tableDesc with cols := tableDesc.cols.take 3 ++ [⟨1, false, 0, 0, 1, 0, 0⟩] }
       stagedRows d 2 (deinterleaved d 2 [1, 2]) = none)) := by decide +kernel

/-- Query 7 of instance 5. -/
def query : Query :=
  { inst := 5, receipt := ⟨3, 5, 2, 0⟩, planSlot := 12, hold := 0, start := 0, amendWindows := 0, vector := 1, fireOnKeep := false
    ringAddr := 0x10000, ringBytes := 65536, indexAddr := 0x5000, w := [0, 0, 0, 0, 0, 0], table := 300, nextNo := 0, sessions := []
    nextSession := 0, lastEnd := 0, fired := [], dirty := [], firings := [], produced := 256, skippedSince := 3, regTs := 0
    faultStreak := false, removing := none, held := false, rebound := false, toArm := false, nFirings := 1, nAmends := 0, nSkipped := 0, lastWindow := 0 }

/-- A state with it, some of it changed. -/
def withQuery (f : Query → Query) (s : State) : State := s.modBatten fun b => { b with queries := [(7, f query)] }

/-- A query descriptor with a ring of 128 KiB. -/
def queryBytes : Bytes := zeros 25 ++ toLE 1 3 ++ zeros 6 ++ toLE 8 0x20000 ++ toLE 4 131072 ++ zeros 4 ++ toLE 8 0x6000 ++ zeros 200

theorem planAreaFree_of (s : State) (i : InstId) (n : Nat) (h : s.planAreaUsed i + n ≤ 4194304) : s.planAreaFree i n = true :=
  decide_eq_true (Nat.le_trans h (Nat.le_add_right _ _))

theorem witness_PlanAndQueryCommands_room : (withCmd (cmdOf 0x30 [0x1000, 256])).planAreaFree 5 256 = true :=
  planAreaFree_of _ _ _ (by decide +kernel)

theorem witness_PlanAndQueryCommands : ((withCmd (cmdOf 0x30 [0x1000, 256])).goesOn 5 0x30 (cmdOf 0x30 [0x1000, 256]) ∧ imageSizeOk 256 = true ∧
      reaches (withCmd (cmdOf 0x30 [0x1000, 256])) 5 0 = true ∧
      (((withCmd (cmdOf 0x30 [0x1000, 256])).noted (cmdOf 0x30 [0x1000, 256])).askHost 5 0 77 0x1000 256).isSome = true) ∧
    ((withCmd (cmdOf 0x30 [0x1000, 100])).goesOn 5 0x30 (cmdOf 0x30 [0x1000, 100]) ∧ imageSizeOk 100 = false) ∧
    ((withCmd (cmdOf 0x38 [0x1000])).goesOn 5 0x38 (cmdOf 0x38 [0x1000]) ∧ reaches (withCmd (cmdOf 0x38 [0x1000])) 5 0 = true ∧
      (queryBytes.take 255).length < 256) ∧
    ((withCmd (cmdOf 0x39 [7])).goesOn 5 0x39 (cmdOf 0x39 [7]) ∧ (withCmd (cmdOf 0x39 [7])).ownQuery 5 7 = none) ∧
    ((withQuery id (withCmd (cmdOf 0x39 [7]))).goesOn 5 0x39 (cmdOf 0x39 [7]) ∧ (withQuery id (withCmd (cmdOf 0x39 [7]))).ownQuery 5 7 = some query) ∧
    ((withQuery id (withCmd (cmdOf 0x3A [0x1000, 7]))).goesOn 5 0x3A (cmdOf 0x3A [0x1000, 7]) ∧
      reaches (withQuery id (withCmd (cmdOf 0x3A [0x1000, 7]))) 5 0 = true ∧
      (withQuery id (withCmd (cmdOf 0x3A [0x1000, 7]))).ownQuery 5 7 = some query ∧ 256 ≤ queryBytes.length ∧
      retargetDescOk (queryBytes.take 256) = true ∧ 128 ≤ (QDesc.parse (queryBytes.take 256)).ringBytes / 2) :=
  ⟨⟨goesOn_of _ _ _ _ (by decide +kernel), by decide +kernel⟩, ⟨goesOn_of _ _ _ _ (by decide +kernel), by decide +kernel⟩,
    ⟨goesOn_of _ _ _ _ (by decide +kernel), by decide +kernel⟩, ⟨goesOn_of _ _ _ _ (by decide +kernel), by decide +kernel⟩,
    ⟨goesOn_of _ _ _ _ (by decide +kernel), by decide +kernel⟩, goesOn_of _ _ _ _ (by decide +kernel), by decide +kernel⟩

/-! The dictionary, its windows and the Plyn. -/

/-- The request word of a window. -/
def reqWord (key op type len : Nat) : Nat := key / 256 + key % 256 * 2 ^ 16 + op * 2 ^ 24 + type * 2 ^ 32 + len * 2 ^ 48

/-- The part with a request in the window of function 0. -/
def asking (busy : Bool) (key op type len : Nat) : State :=
  live.modDict fun d => { d with windows := d.windows.set 0 { d.windows[0] with req := reqWord key op type len, busy := busy } }

theorem live_serves : live.windowServes 0 (.host 0) := ⟨by decide +kernel, by decide +kernel, by decide +kernel⟩

theorem asking_serves : ((((asking false 0x010001 1 0 0).dict.windows[(0 : FuncId)]).busy = false ∧
      (asking false 0x010001 1 0 0).sourceOf 0 = some (.host 0)) ∧ (asking false 0x010001 1 0 0).ridgeTakes = true) ∧
    (((asking false 0x010001 2 8 4).dict.windows[(0 : FuncId)]).busy = false ∧ (asking false 0x010001 2 8 4).sourceOf 0 = some (.host 0) ∧
      (asking false 0x010001 2 8 4).ridgeTakes = true) := by decide +kernel

theorem witness_WindowRequestsAndChecks :
    (let x := (asking false 0x010001 1 0 0).dict.windows[(0 : FuncId)]
     x.reservedOk = true ∧ x.op = 1 ∧ bitsOf x.req 60 48 = 0 ∧ bitsOf x.req 39 32 = 0 ∧
     ((((asking false 0x010001 1 0 0).stamp (Source.host 0).src8).2.modWindow 0 fun x =>
       { x with busy := true, stamp := ((asking false 0x010001 1 0 0).stamp (Source.host 0).src8).1 }).readObj (.host 0) x.key).2.isSome = true) ∧
    (let x := (asking false 0x010001 3 0 0).dict.windows[(0 : FuncId)]
     x.reservedOk = true ∧ x.op = 3 ∧ (objRow x.key).isSome = true) ∧
    (let x := (asking false 0x010001 2 8 4096).dict.windows[(0 : FuncId)]
     x.reservedOk = true ∧ x.op = 2 ∧ bitsOf x.req 60 48 = 4096) ∧
    (∀ op ∈ [1, 2, 3], let x := (asking true 0x010001 op 0 0).dict.windows[(0 : FuncId)]
     x.busy = true ∧ x.op = op) := by decide +kernel

/-- A write through the window of function 0 passes the checks when it is served. -/
def passes (s : State) (index sub type : Nat) (v : Bytes) (kind : Nat) : Bool :=
  let w := s.windowWrite 0 (.host 0) index sub v
  (((s.windowBusy 0 (.host 0) index sub type v).journal kind w.stamp w.key).submitCode (.host 0) w.key type v).isNone

/-- A write that function 0 may submit. -/
def writing (index sub : Nat) (v : Bytes) : DictWrite := live.windowWrite 0 (.host 0) index sub v

theorem witness_WindowRequestsAndChecks_codes :
    (live.submitCode (.host 0) (objKey 0x0812 1) 8 (toLE 4 60) = none ∧ (objRow (objKey 0x0812 1)).any (fun r => !bitAt r.marks 1) = true) ∧
    (objRows.any fun r => bitAt r.marks 1 && (live.submitCode (.host 0) (objKey r.index r.first) r.type (toLE r.len r.lo)).isNone) = true ∧
    (live.submitCode (.host 0) (objKey 0x0812 1) 7 (toLE 4 60)).isSome = true ∧ objRow (objKey 0xFFFF 0) = none ∧
    (objRow (objKey 0x0812 1)).any (fun r => r.access != 0 && !live.mayWrite (.inst 5) (objKey 0x0812 1) r) = true := by decide +kernel

theorem witness_CommandObjectWrites :
    passes live 0x1840 2 17 (toLE 2 65535 ++ toLE 1 7 ++ toLE 1 255 ++ toLE 8 (2 ^ 64 - 1) ++ toLE 8 0xFF ++ toLE 4 9 ++ toLE 1 1) 3 = true ∧
    passes live 0x1840 3 17 (toLE 2 65535 ++ toLE 4 64 ++ toLE 1 1 ++ toLE 2 8 ++ counting 8) 3 = true ∧
    (∀ port : Fin 4, ∀ op ∈ [1, 2], passes live 0x3020 (port.val + 1) 17 (toLE 1 op ++ toLE 4 7) 3 = true) ∧
    (∀ op ∈ [1, 2, 3], passes live 0x0210 1 17 (toLE 1 op ++ toLE 1 1) 3 = true) ∧
    passes live 0x0210 2 17 (toLE 1 1 ++ toLE 4 64 ++ toLE 2 8 ++ counting 8) 3 = true ∧
    passes live 0x3C11 1 17 (toLE 1 2 ++ toLE 1 15) 3 = true ∧
    (∀ x ∈ [(0x1012, 3), (0x0202, 2), (0x3C20, 4), (0x3C30, 2)], passes live x.1 x.2 1 (toLE 1 1) 3 = true) ∧
    passes live 0x3821 2 7 (toLE 2 65535) 3 = true ∧ passes live 0x0120 4 16 (counting 32) 3 = true ∧
    (∀ slot : Fin 8, passes live 0x2E10 (slot.val + 1) 17 (toLE 2 9 ++ toLE 1 3 ++ toLE 2 32 ++ counting 32) 3 = true) ∧
    (passes live 0x0120 1 16 (counting 32) 3 = true ∧ live.boot.attest = none) := by decide +kernel

/-- A report is being computed. -/
def attesting : State := live.modBoot fun b => { b with attest := some (counting 32, writing 0x0120 1 (counting 32)) }

theorem witness_CommandObjectWrites_busy : (attesting.dict.windows[(0 : FuncId)]).busy = false ∧ attesting.sourceOf 0 = some (.host 0) ∧
    attesting.ridgeTakes = true ∧ passes attesting 0x0120 1 16 (counting 32) 3 = true ∧ attesting.boot.attest ≠ none := by decide +kernel

theorem witness_InstanceControlAndMailbox :
    (∀ x ∈ [(1, 0, 0, 0), (2, 0, 0, 2), (3, 3, 15, 1), (4, 0, 0, 0), (5, 0, 0, 0), (6, 0, 0, 0), (7, 0, 0, 0)],
      passes live 0x4500 3 17 (toLE 1 x.1 ++ toLE 1 x.2.1 ++ toLE 1 x.2.2.1 ++ toLE 1 x.2.2.2) 4 = true) ∧
    passes live 0x4503 1 17 (toLE 2 0x100 ++ toLE 2 416 ++ counting 416) 3 = true ∧ passes live 0x4503 3 1 (toLE 1 1) 3 = true := by decide +kernel

theorem witness_InstanceControlAndMailbox_drained :
    ∀ b, let s := live.modInst 5 fun x => { x with state := .freezing, unbinding := b }
      (s.insts[(5 : InstId)]).state = .freezing ∧ (s.hostChans 5).all (fun c => (s.gutter.chans[c]).state == .paused) = true ∧
        (s.insts[(5 : InstId)]).unbinding = b := by decide +kernel

theorem witness_InstanceControlAndMailbox_mailbox : (live.host.funcs[(0 : FuncId)]).inst = some 5 ∧
    (live.insts[(5 : InstId)]).outbox = [] ∧ (live.insts[(5 : InstId)]).inbox.length < 8 ∧
    ((0x100 * 2 ^ 16 + 512) % 2 ^ 16 ≤ 512 ∧ 0x100 ≤ (0x100 * 2 ^ 16 + 512) / 2 ^ 16 % 2 ^ 16) ∧
    ((live.modInst 5 fun x => { x with outbox := [⟨Stamp.zero, 0x100, 5, []⟩] }).insts[(5 : InstId)]).outbox = ⟨Stamp.zero, 0x100, 5, []⟩ :: [] := by
  decide +kernel

/-- A Plyn request to slot 3. -/
def plynMsg (kind key type len ts : Nat) : PlynIn :=
  { peer := ⟨2, counting 6, none⟩, slot := 3, key := counting 32, at_ := 4000000
    bytes := toLE 1 1 ++ toLE 1 kind ++ toLE 1 4 ++ toLE 1 (if kind = 2 then 1 else 0) ++ toLE 2 7 ++ toLE 2 1 ++ toLE 8 ts ++ toLE 4 99 ++ toLE 2 (key / 256) ++ toLE 1 (key % 256) ++
      toLE 1 type ++ zeros 2 ++ toLE 2 len ++ toLE 2 len ++ zeros 2 ++ counting len }

/-- The part with it waiting, slot 3 holding a key. -/
def requested (p : PlynIn) : State :=
  live.modDict fun d => { d with plynIn := [p], slots := d.slots.set 3 { d.slots[3] with key := counting 32, node := 7, rights := 3, lastTs := 1 } }

/-- A request is fresh and well formed. -/
def freshReq (p : PlynIn) : Bool := (((requested p).modDict fun d => { d with plynIn := [] }).plynFresh p).isSome && p.reservedOk

theorem witness_PlynRequests :
    (∀ kind ∈ [1, 3], freshReq (plynMsg kind 0x010001 0 0 5000000) = true ∧ (plynMsg kind 0x010001 0 0 5000000).kind = kind) ∧
    (requested (plynMsg 1 0x010001 0 0 5000000)).ridgeTakes = true ∧
    ((((requested (plynMsg 1 0x010001 0 0 5000000)).modDict fun d => { d with plynIn := [] }).plynFresh (plynMsg 1 0x010001 0 0 5000000)).any fun s' =>
      (s'.dict.slots[(3 : Fin 8)]).rights % 4 != 0 &&
        (s'.readObj (plynMsg 1 0x010001 0 0 5000000).source (plynMsg 1 0x010001 0 0 5000000).key').2.isSome) = true ∧
    (let p := plynMsg 2 0x010001 16 1408 5000000
     freshReq p = true ∧ p.kind = 2 ∧ p.offset = 0 ∧ p.last = true ∧ p.length = p.total ∧ p.length ≤ 1408) ∧
    (∀ kind ∈ [1, 2, 3], freshReq (plynMsg kind 0x010001 0 0 1) = false ∧
      ((requested (plynMsg kind 0x010001 0 0 1)).modDict fun d => { d with plynIn := [] }).plynFresh (plynMsg kind 0x010001 0 0 1) = none) := by
  decide +kernel

/-- A reply that waits to leave through a port. -/
def replyTo (port : Nat) : PlynReply := ⟨⟨port, counting 6, some 5⟩, 3, 7, 9, 0x81, 0x010001, 9, 0, 8, true, 0, counting 8, counting 32⟩

/-- The part with replies waiting, the field ports enabled, a fragmented write under way and a write to commit. -/
def fielded : State :=
  live.modDict fun d =>
    { d with vals := [(objKey 0x3150 1, [1]), (objKey 0x3151 1, [1])], replies := [replyTo 2, replyTo 5], commits := [writing 0x0812 1 (toLE 4 60)]
             slots := d.slots.set 3 { d.slots[3] with key := counting 32, node := 7, rights := 3, assembly := some ⟨9, 0x011001, 16, 3000, counting 4, 4999999⟩ } }

/-- A Plyn frame to the part. -/
def plynFrameBytes : Bytes := toBE 6 fielded.macAddress ++ counting 6 ++ toBE 2 0x88B5 ++ counting 60

theorem witness_PlynEventsAndWrites : (fielded.dict.slots[(3 : Fin 8)]).assembly = some ⟨9, 0x011001, 16, 3000, counting 4, 4999999⟩ ∧
    fielded.dict.replies.find? (·.peer.port == 2) = some (replyTo 2) ∧ fielded.dict.replies.find? (·.peer.port == 5) = some (replyTo 5) ∧
    fielded.cfgBool 0x3151 1 false = true ∧ fielded.dict.fieldStopped[(1 : Fin 2)] = false ∧ fielded.plynFor plynFrameBytes = true ∧
    60 ≤ plynFrameBytes.length ∧ plynFrameBytes.length ≤ 1518 ∧ fielded.ridgeActs = true ∧
    fielded.dict.commits = writing 0x0812 1 (toLE 4 60) :: [] ∧ (writing 0x0812 1 (toLE 4 60)).key < 2 ^ 24 ∧
    (fielded.dict.slots[(3 : Fin 8)]).key.isEmpty = false ∧ fielded.ridgeTakes = true := by decide +kernel

/-! The Ridges, the registers and the time base. -/

/-- The part with the Ridges in other states, Ridge A active. -/
def ridged (a b : RState) (acked handover image : Bool) : State :=
  live.modFinial fun x =>
    { x with handover := handover, ckpt := ⟨3, 4, 100, 0xABCD, acked, .replicate 4 0⟩, ret := .holdoff, returnAt := 7000000
             ridges := #v[{ x.ridges[0] with state := a, missed := 2, attempts := 1, failedAt := 1000 },
                          { x.ridges[1] with state := b, image := image, attempts := 3, failedAt := 9000000, readySince := 77 }] }

theorem witness_RidgeMessagesAndLife : (ridged .active .ready false false true).ridgeActs = true ∧
    7 ≠ (ridged .active .ready false false true).time.raft ∧
    (∀ h, (ridged .active .ready false h true).standby = some 1 ∧ (ridged .active .ready false h true).acknowledges 1 = true ∧
      (ridged .active .ready false h true).finial.handover = h ∧ (ridged .active .ready false h true).finial.ckpt.acked = false ∧
      ((ridged .active .ready false h true).finial.ridges[(1 : Fin 2)]).state = .ready) ∧
    ((ridged .active .syncing true false true).standby = some 1 ∧ (ridged .active .syncing true false true).acknowledges 1 = true ∧
      ((ridged .active .syncing true false true).finial.ridges[(1 : Fin 2)]).state = .syncing) := by decide +kernel

theorem witness_RidgeMessagesAndLife_life :
    (let s := ridged .failed .failed true false false
     (s.finial.ridges[(0 : Fin 2)]).state = .failed ∧ (s.finial.ridges[(0 : Fin 2)]).attempts < s.cfg 0x3803 3 3 ∧
       (s.finial.ridges[(1 : Fin 2)]).state = .failed ∧ s.cfg 0x3803 3 3 ≤ (s.finial.ridges[(1 : Fin 2)]).attempts ∧ s.finial.ret = .holdoff) ∧
    (let s := ridged .active .testing true false false
     (s.finial.ridges[(1 : Fin 2)]).state = .testing ∧ s.finial.fault = false ∧ s.finial.lone = none ∧ s.standby = some 1) ∧
    (let s := ridged .active .ready true false true
     (s.finial.ridges[(1 : Fin 2)]).state = .ready ∧ s.standby = some 1 ∧ s.finial.fault = false ∧ s.finial.handover = false ∧
       s.active ≠ some 1 ∧ s.standby.isSome = true) := by decide +kernel

theorem witness_TakeoverGrantsTheToken : ∀ acked,
    (ridged .active .ready acked false true).active = some 0 ∧ (ridged .active .ready acked false true).finial.fault = false ∧
    ((ridged .active .ready acked false true).finial.ridges[otherRidge 0]).state = .ready ∧ 65537 % 2 ^ 16 ≠ 0 ∧
    (ridged .active .ready acked false true).finial.handover = false ∧ (ridged .active .ready acked false true).finial.ckpt.acked = acked ∧
    2 ≤ ((ridged .active .ready acked false true).finial.ridges[(0 : Fin 2)]).missed ∧
    ((ridged .active .ready acked true true).active = some 0 ∧ (ridged .active .ready acked true true).finial.fault = false ∧
      ((ridged .active .ready acked true true).finial.ridges[otherRidge 0]).state = .ready ∧
      (ridged .active .ready acked true true).finial.handover = true) := by decide +kernel

theorem witness_RegisterWrites : live.barOpen 0 = true ∧ live.taskBusy 0 = false ∧ live.ridgeActs = true ∧ live.barOpen 1 = false ∧
    ((live.modInst 5 fun x => { x with state := .freezing }).taskBusy 0 = true ∧
      (live.modInst 5 fun x => { x with state := .freezing }).barOpen 0 = true ∧ (live.host.funcs[(0 : FuncId)]).inst = some 5) ∧
    bitAt (live.host.funcs[(0 : FuncId)]).regs.cmplCfg 8 = false ∧
    bitAt ((delivering 0 0).host.funcs[(0 : FuncId)]).regs.cmplCfg 8 = true ∧ (delivering 0 0).barOpen 0 = true ∧
    (live.purlin.banks[(7 : Fin 8)]).entries = [] ∧ leNat (toLE 8 0x10105) % 4 ≠ 3 ∧ live.active = some 0 ∧ live.standby = some 1 ∧
    live.dram.managed ≤ 0x020000000000 ∧ (State.reset.active ≠ some 0 ∧ State.reset.standby ≠ some 0) := by decide +kernel

theorem witness_RegisterWrites_reads : live.ridgeMay 0 0xFFFFFFFFFFF8 8 false = false ∧
    (live.ridgeMay 1 0x030000100028 8 false = true ∧ (match live.regionOf 0x030000100028 with | .control o => o == 0x100028 | _ => false) = true) ∧
    (live.ridgeMay 0 0x1000 64 false = true ∧ 0x1000 < live.dram.managed ∧ (live.devRead 0x1000 64 false).1.isSome = true) := by decide +kernel

/-- A part whose time base listens to Eave port 0 and knows its link delay. -/
def synced (st : TState) : State :=
  live.modTime fun t => { t with state := st, syncWait := some ⟨7, 4999999, 3⟩, linkDelay := some 500, pdelaySent := some 1000 }

theorem witness_GptpMessages : (synced .locked).gptpTakes 0 0 = true ∧ (synced .locked).time.linkDelay = some 500 ∧
    (synced .locked).time.syncWait = some ⟨7, 4999999, 3⟩ ∧ (synced .locked).time.pdelaySent = some 1000 ∧
    1000 + ((5000000 - 1000) - 0) ≤ (synced .locked).time.ts ∧ ((synced .locked).time.state = .acquiring ∨ (synced .locked).time.state = .locked) := by
  decide +kernel

/-- The time state with an offset. -/
def offsetBy (st : TState) (n : Int) : TimeSt := { live.time with state := st, goodSyncs := 7, offset := n }

theorem witness_OffsetsMoveTheTimeState : ((offsetBy .acquiring (-99)).state = .acquiring ∧ (offsetBy .acquiring (-99)).goodSyncs = 7 ∧
      (offsetBy .acquiring (-99)).offset.natAbs < 100 ∧ -((99 : Nat) : Int) ≤ (offsetBy .acquiring (-99)).offset) ∧
    (offsetBy .acquiring (-100)).offset < -((99 : Nat) : Int) ∧ 16 * 100 < (offsetBy .locked 1601).offset.natAbs ∧
    (offsetBy .locked 1600).offset.natAbs ≤ 16 * 100 ∧ ((1600 : Nat) : Int) < (offsetBy .locked 1601).offset ∧
    (offsetBy .locked 1600).offset ≤ ((1600 : Nat) : Int) := by decide

/-- The part with the raft clock in a mode. -/
def rafting (edge : Bool) (last : BoundaryKind) (ts : Nat) : State :=
  live.modTime fun t => { t with edgeMode := edge, lastKind := last, ts := ts, phase := 300, tickExp := 3, nextTick := 7 }

theorem witness_TimeEvents : live.ridgeActs = true ∧ live.time.stepPending = none ∧ live.time.tsReserve ≤ live.time.ts + 30000000000 ∧
    live.time.distReserve ≤ mmOf live.time.dist + 5000000 ∧ live.time.revReserve ≤ mmOf live.time.rev + 5000000 ∧
    (live.modDict fun d => { d with vals := [(objKey 0x0404 1, toLE 4 5)] }).cfg 0x0404 1 0 = 5 := by decide +kernel

theorem witness_TimeEvents_boundaries :
    (let t := (rafting false .grid 5000000).time
     t.run = true ∧ t.edgeMode = false ∧ t.lastKind ≠ .none ∧ t.nextTick < 2 ^ t.tickExp ∧ 0 < t.period) ∧
    (let t := (rafting false .none 5000000).time
     t.run = true ∧ t.edgeMode = false ∧ t.lastKind = .none ∧ 0 < t.period) ∧
    (let t := (rafting true .regular 4749999).time
     t.edgeMode = true ∧ t.lastKind ≠ .none ∧ 4 * (t.ts - t.lastBoundary) < 3 * t.period) ∧
    (let t := (rafting true .regular 4750000).time
     t.edgeMode = true ∧ t.lastKind ≠ .none ∧ 3 * t.period ≤ 4 * (t.ts - t.lastBoundary) ∧ t.source ≠ 1) := by decide +kernel

/-! Power, the electrical events and the starts. -/

theorem witness_PowerAndSelfTest :
    (let s := live.modCourse 3 fun k => { k with changing := true, effective := 1 }
     (s.power.courses[(3 : CourseId)]).changing = true ∧ (s.power.courses[(3 : CourseId)]).effective ≠ 3 ∧ s.boot.visits = []) ∧
    (let s := live.modCourse 3 fun k => { k with idleSince := some 1000, effective := 1, assigned := 1, changing := false }
     let k := s.power.courses[(3 : CourseId)]
     k.idleSince = some 1000 ∧ s.cfg 0x0812 1 50 = 50 ∧ k.assigned < 2 ∧ k.effective ≠ 3 ∧ k.changing = false ∧ s.ridgeActs = true ∧
       s.courseNeeded 3 = false) ∧
    live.boot.mainUp = true ∧ live.dram.phase ≠ .inKeep ∧
    (let v : Vector Int 16 := Vector.ofFn fun (k : Fin 16) => ([1600, -5, 800] : List Int).getD k.val 0
     ∀ t : Fin 4, (live.power.trips[t]).set = false ∧ v.toList.foldl max (v[0]) < 16 * (live.tripPoint t : Int)) ∧
    (∀ t : TileId, (live.batten.tiles[t]).desc = none) ∧
    (let s := live.modSched (tileOf 2 5) fun y => { y with state := .running, desc := some .zero }
     (s.batten.tiles[tileOf 2 5]).state = .running ∧ (s.batten.tiles[tileOf 2 5]).desc ≠ none ∧
       ∀ j : Fin 8, j ≠ 5 → (s.batten.tiles[tileOf 2 j]).desc = none) ∧
    ((live.modCourse 3 fun k => { k with assigned := 2 }).power.courses[(3 : CourseId)]).assigned = 2 := by decide +kernel

/-- A self-test of slice 15 is under way. -/
def testing : State := live.modErr fun e => { e with selfTest := some ⟨⟨1000, 5, 1, 0⟩, 2, 15, 0, 0⟩, poweredSince := some 1000 }

theorem witness_PowerAndSelfTest_selfTest : testing.err.selfTest = some ⟨⟨1000, 5, 1, 0⟩, 2, 15, 0, 0⟩ ∧ testing.err.poweredSince = some 1000 ∧
    testing.ridgeActs = true := by decide +kernel

/-- The part with alarms standing. -/
def alarmed (clocks rails : Nat) : State := live.modBoot fun b => { b with clockAlarms := clocks, railsOut := rails }

theorem witness_ElectricalEvents : live.boot.mainUp = true ∧ (∀ dom ∈ [1, 8, 9, 16, 17], bitAt live.boot.clockAlarms dom = false) ∧
    (∀ dom ∈ [9, 16, 17], live.domainRuns dom = true) ∧
    (∀ dom ∈ [1, 17], (alarmed (2 ^ dom) 0).boot.clockAlarms = 2 ^ dom) ∧
    (∀ rail : Fin 8, bitAt live.boot.railsOut (mainRail rail).val = false ∧
      (alarmed 0 (2 ^ (mainRail rail).val)).boot.railsOut = 2 ^ (mainRail rail).val) ∧
    live.boot.standbyUp = true ∧ bitAt live.flash.alarms 5 = false := by decide +kernel

theorem witness_StartAndActivation : State.reset.boot.standbyUp = false ∧
    (let s := live.modBoot fun b => { b with mainUp := false }
     s.boot.standbyUp = true ∧ s.boot.mainUp = false) ∧
    (live.dram.phase ≠ .inKeep ∧ live.boot.standbyUp = true ∧ live.boot.mainUp = true) ∧
    (let s := live.modDram fun d => { d with phase := .inKeep }
     s.dram.phase = .inKeep ∧ s.boot.standbyUp = true) ∧
    (live.modBoot fun b => { b with halted := true }).boot.halted = true := by decide +kernel

/-- The part in an activation, with a command that drains or one that does not. -/
def activatingPart (drains : Bool) : State :=
  (live.modBoot fun b => { b with activating := some (1, 4000) }).modInst 5 fun x =>
    { x with queue := [{ cmdOf 0x10 [1, 2] with stage := (if drains then .running else .queued) }] }

theorem witness_StartAndActivation_drain : (∀ b, (activatingPart b).boot.activating = some (1, 4000) ∧ (activatingPart b).ridgeActs = true ∧
      (activatingPart b).dram.phase = .out) ∧
    (∀ i : InstId, ((activatingPart false).insts[i]).queue.any (·.drains) = false) ∧
    ((activatingPart true).insts[(5 : InstId)]).queue.any (·.drains) = true ∧
    (attesting.boot.attest = some (counting 32, writing 0x0120 1 (counting 32)) ∧ (writing 0x0120 1 (counting 32)).reply = .window 0) ∧
    (let s := attesting.modDict fun d => { d with windows := d.windows.set 0 { d.windows[0] with busy := true, stamp := (writing 0x0120 1 (counting 32)).stamp } }
     (s.dict.windows[(0 : FuncId)]).busy = true ∧ (s.dict.windows[(0 : FuncId)]).stamp = (writing 0x0120 1 (counting 32)).stamp) := by
  decide +kernel
/-! Plans. -/

/-- An operator descriptor: code, slots written, inputs and parameter words. -/
def opBytes (code first n : Nat) (ins w : List Nat) : Bytes :=
  toLE 1 code ++ toLE 1 first ++ toLE 1 n ++ toLE 1 0 ++ toLE 4 0xFFFFFFFF ++ (ins ++ List.replicate (8 - ins.length) 0xFF).flatMap (toLE 1) ++
    (w ++ List.replicate (6 - w.length) 0).flatMap (toLE 8)

/-- A section's directory entry. -/
def dirBytes (type off : Nat) (sec : Bytes) : Bytes := toLE 4 type ++ toLE 4 off ++ toLE 4 sec.length ++ toLE 4 (crc32 sec)

/-- An image of one pipeline over column 3 of table 300 that emits one slot: a scan, or a tumbling window of 1 s. -/
def image (query : Bool) : Bytes :=
  let tables := toLE 8 300 ++ toLE 4 (schemaCrc (tableDesc).cols) ++ zeros 20 ++ toLE 32 8
  let pipes := toLE 2 0 ++ toLE 1 2 ++ toLE 1 (if query then 0x22 else 0x20) ++ zeros 12
  let ops := (if query then opBytes 0x30 0 5 [] [0x100, 2 ^ 64 - 0xFD, 1000000000] else opBytes 1 0 1 [] [0x100, 2 ^ 64 - 0xFD, 2 ^ 64 - 1]) ++
    opBytes 0x3E 0 0 [if query then 4 else 0] [1, 2 ^ 64 - 1]
  let claims := toLE 8 1 ++ toLE 8 64 ++ toLE 8 4096 ++ zeros 40
  toLE 4 0x4E414C50 ++ toLE 2 1 ++ toLE 2 query.toNat ++ toLE 4 512 ++ toLE 4 4 ++ toLE 2 1 ++ toLE 2 2 ++ toLE 4 1 ++ zeros 104 ++
    dirBytes 1 192 tables ++ dirBytes 2 256 pipes ++ dirBytes 3 320 ops ++ dirBytes 7 448 claims ++ tables ++ pipes ++ zeros 48 ++ ops ++ claims

/-- A query descriptor of that image, with a ring of 128 KiB. -/
def queryDesc : Bytes :=
  zeros 8 ++ toLE 4 512 ++ zeros 13 ++ toLE 1 3 ++ zeros 6 ++ toLE 8 0x20000 ++ toLE 4 131072 ++ zeros 4 ++ toLE 8 0x6000 ++ zeros 200

/-- The part with table 300, a result area for instance 5 and a command of it. -/
def planPart (c : Cmd) : State := (withTable false (withCmd c)).modInst 5 fun x => { x with resultMib := 1, queue := [c] }

set_option maxRecDepth 4000 in
theorem witness_PlanAndQueryCommands_register : (planPart (cmdOf 0x38 [0x1000])).goesOn 5 0x38 (cmdOf 0x38 [0x1000]) ∧
    (planPart (cmdOf 0x38 [0x1000])).planAreaFree 5 512 = true ∧ (QDesc.parse (queryDesc.take 256)).imageBytes = 512 ∧ imageSizeOk 512 = true ∧
    256 ≤ queryDesc.length ∧
    (((planPart (cmdOf 0x38 [0x1000])).noted (cmdOf 0x38 [0x1000])).countHit 5 512 (image true)).checkImage 5 512 true (image true) true = none :=
  ⟨goesOn_of _ _ _ _ (by decide +kernel), planAreaFree_of _ _ _ (by decide +kernel), by decide +kernel⟩

/-- A RUN_PLAN with an image, being read or waiting. -/
def planCmd (x : CmdStage) (settled : Bool) : Cmd :=
  { cmdOf 0x30 [0x1000, 512] with stage := x, data := (if x = .waiting then image false else []), params := List.replicate 16 0, settled := settled }

set_option maxRecDepth 4000 in
theorem witness_PlanAdmission : ((planPart (planCmd .waiting false)).waitingPlans = [(5, planCmd .waiting false)] ∧
      (planPart (planCmd .waiting false)).inOrder 5 (planCmd .waiting false) = true ∧
      (planPart (planCmd .waiting false)).lateCheck 5 (planCmd .waiting false) = none ∧
      (planPart (planCmd .waiting false)).canAllot 5 (parseImage (planCmd .waiting false).image).claims = true) ∧
    (let s := (withCmd (planCmd .waiting false))
     s.waitingPlans = [(5, planCmd .waiting false)] ∧ s.lateCheck 5 (planCmd .waiting false) = some (0x2002, 192)) ∧
    (let s := (withTable false (withCmd (planCmd .waiting true)))
     s.waitingPlans = [(5, planCmd .waiting true)] ∧ s.inOrder 5 (planCmd .waiting true) = true ∧
       s.canAllot 5 (parseImage (planCmd .waiting true).image).claims = false) ∧ live.waitingPlans = [] := by decide +kernel

set_option maxRecDepth 4000 in
theorem witness_PlanAdmission_image : (((planPart (planCmd (.reading 0) false)).insts[(5 : InstId)]).queue.find? fun c =>
      c.receipt.seq == 77 && c.opcode == 0x30 && c.stage == .reading 0) = some (planCmd (.reading 0) false) ∧
    (((planPart (planCmd (.reading 0) false)).freeCmdTags 5 77).countHit 5 512 (image false)).checkImage 5 512 false (image false) true = none ∧
    ((((planPart (planCmd (.reading 0) false)).freeCmdTags 5 77).countHit 5 512 (zeros 512)).checkImage 5 512 false (zeros 512) true).isSome = true := by
  decide +kernel

/-! The Purlin store. -/

/-- The part with banks 2 and 3 of a plan, one entry in bank 2, in agreement with its copy or not. -/
def stored (sound : Bool) : State :=
  let k : Bank := { Bank.reset with role := .planRole, owner := 12, enable := true }
  (live.modBank 2 fun _ => { k with entries := [(5, { PEntry.of [7] 3 9 with priority := if sound then 3 else 1 })] }).modBank 3 fun _ => k

/-- A request to banks. -/
def reqTo (banks : Nat) : PReq := { op := 0, replicate := false, reserved := false, banks := banks, priority := 1, index := 5, result := 2, key := [7] }

theorem witness_PurlinRequestsAndUpkeep : (∀ n ∈ [1, 2, 3, 4, 5, 6], (stored true).ridgeActs = true ∧
      (stored true).pMalformed (banksOf 4) { reqTo 4 with op := n } = false ∧ (stored true).pReady { reqTo 4 with op := n } = true) ∧
    banksOf 4 = [2] ∧ nget ((stored true).purlin.banks[(2 : Fin 8)]).entries 5 = some (.of [7] 3 9) ∧
    ((stored true).pMatches (banksOf 4) (keyUnits 0 [7])).all (·.2.2.sound) = true ∧
    ((stored true).pMatches (banksOf 12) (keyUnits 0 [8])) = [] ∧ (stored true).pMalformed (banksOf 0) { reqTo 0 with op := 1 } = true ∧
    (live.pMalformed (banksOf 4) { reqTo 4 with op := 1 } = false ∧ live.pReady { reqTo 4 with op := 1 } = false) ∧
    (stored true).ownsBanks 0 .ingest { reqTo 4 with op := 1 } = false := by decide +kernel

theorem witness_PurlinRequestsAndUpkeep_tile : let s := (stored true).modSched 9 fun y => { y with state := .running, run := { BRun.empty with leased := [2] } }
    s.ownsBanks 9 .bundle { reqTo 4 with op := 1 } = true ∧ s.pMalformed (banksOf 4) { reqTo 4 with op := 1 } = false ∧
      s.pReady { reqTo 4 with op := 1 } = true := by decide +kernel

/-- The part with bank 0 a MAP bank that waits for one entry to be rewritten, its Hip unit of course 0 sealing. -/
def rewriting : State :=
  (((live.modBank 0 fun k => { k with role := .mapRole, width := 1, masked := true, enable := true, entries := [(6, .of [1, 1] 0 0)], awaiting := [5] }).modIngest
    fun g => { g with mapNow := { g.mapNow with entries := [(5, ⟨3, 77, 255, 9⟩)] } }).modPurlin fun p => { p with hipSeal := p.hipSeal.set 0 (some (300, 0)) }).modBatten
      fun b => { b with ready := [⟨{ BDesc.zero with hip := true, courses := 1 }, 0, none, none, false, false⟩] }

theorem witness_PurlinRequestsAndUpkeep_upkeep : nget (rewriting.purlin.banks[(0 : Fin 8)]).entries 5 = none ∧
    nget (rewriting.purlin.banks[(0 : Fin 8)]).entries 6 = some (.of [1, 1] 0 0) ∧ (rewriting.purlin.banks[(0 : Fin 8)]).role ≠ .planRole ∧
    rewriting.ridgeActs = true ∧ (rewriting.purlin.banks[(0 : Fin 8)]).awaiting.contains 5 = true ∧
    nget rewriting.ingest.mapNow.entries ((0 : Fin 8).val * 65536 + 5) = some ⟨3, 77, 255, 9⟩ ∧ (rewriting.purlin.hipSeal[(0 : CourseId)]).isSome = true ∧
    rewriting.batten.ready.any (fun r => r.desc.hip && bitAt r.desc.courses 0) = true := by decide +kernel

theorem witness_PurlinWinner : ((stored true).pWinner (banksOf 12) [7]).isSome = true ∧ (stored true).pWinner (banksOf 12) [8] = none ∧
    (stored false).pWinner (banksOf 12) [7] = none ∧ nsorted ((stored true).purlin.banks[(2 : Fin 8)]).entries = true := by decide +kernel

/-! The Batten. -/

/-- A bundle of plan slot 12 on course 0. -/
def bundleOn (unit affinity : Nat) : BDesc := { BDesc.zero with planSlot := 12, courses := 1, inst := 5, unit := unit, affinity := affinity, readyTs := 4999999 }

/-- The plan of slot 12. -/
def planOf : Plan :=
  { inst := 5, receipt := ⟨4000000, 5, 77, 0⟩, image := image false, params := [], digest := [], snapshot := [], claims := { (parseImage (image false)).claims with tiles := 2 }
    banks := [], buildBanks := [], channels := [], hipHeld := 0, pipes := [⟨[], [0], true, false⟩], buffers := [], bufAt := [], results := []
    resultRows := 0, nulled := 0, reruns := 0, energy := 0, ended := none, query := none, resultAddr := 0, resultSpace := 0, resultOffset := 0 }

/-- The part with the Batten enabled, course 0 up, a bundle on tile 0 in a state, and ready bundles. -/
def scheduled (st : TileState) (ready : List BDesc) : State :=
  (((withTable false live).modCourse 0 fun k => { k with effective := 0 }).modPlans fun p => { p with plans := [(12, planOf)] }).modBatten fun b =>
    { b with enable := true, ready := ready.map fun d => ⟨d, 1, none, none, false, false⟩
             tiles := (b.tiles.set 0 { b.tiles[0] with state := st, desc := some (bundleOn 0 7), lastAffinity := some 7, preemptAt := 4999000 }).set 1
               { b.tiles[1] with state := .idle } }

theorem witness_SubmissionsAndDelayLists : live.ridgeActs = true ∧ live.judgeSubmit (BDesc.parse (padTo 64 (toLE 8 (2 ^ 20)))).1 true = 0 ∧
    live.judgeSubmit (BDesc.parse (padTo 64 [])).1 true = 0x2002 ∧ DEntry.parse (padTo 32 (zeros 16 ++ [8])) = none ∧
    (DEntry.parse (padTo 32 [7])).isSome = true ∧ freeEntry live.batten.timeList = some 0 ∧
    (live.modBatten fun b => { b with timeList := [(3, ⟨7, 0, 0, false, false, 0, 0, 0, 7⟩)] }).delayAt false 3 = some ⟨7, 0, 0, false, false, 0, 0, 0, 7⟩ ∧
    live.delayAt false 3 = none := by decide +kernel

theorem witness_BattenEventsAndBundleEnds :
    (let s := scheduled .running [bundleOn 1 7]
     s.batten.enable = true ∧ (oldest s.reservedBundles).isSome = true) ∧
    (let s := scheduled .running [bundleOn 1 7]
     s.batten.prioPreempt = true ∧ (oldest (s.batten.ready.filter fun r => !r.desc.flat && r.raised.isNone)).isSome = true) ∧
    ((scheduled .preempting []).batten.tiles[(0 : TileId)]).state = .preempting ∧ ((scheduled .saving []).batten.tiles[(0 : TileId)]).state = .saving ∧
    (((scheduled .dispatching []).batten.tiles[(0 : TileId)]).state = .dispatching ∧ (scheduled .dispatching []).courseUp (courseOf 0) = true ∧
      ((scheduled .dispatching []).batten.tiles[(0 : TileId)]).run.ctx = false) ∧
    ((scheduled .resetting []).batten.tiles[(0 : TileId)]).state = .resetting := by decide +kernel

theorem witness_BattenEventsAndBundleEnds_ends : ∀ st ∈ [TileState.running, .preempting, .saving],
    let s := scheduled st []
    (s.batten.tiles[(0 : TileId)]).desc = some (bundleOn 0 7) ∧ (s.batten.tiles[(0 : TileId)]).purged = false ∧ (s.dropDirty 0 []).1 = [] ∧
    (let w := (((((s.dropDirty 0 []).2.l1CleanAll 0).reedAbandon 0).yelmLeave 0 0x6001).spendEnergy 0)
     (w.batten.tiles[(0 : TileId)]).purged = false) ∧
    (let clean := (s.dropDirty 0 []).2.l1CleanAll 0
     (clean.plan 12).any (fun p => p.ended.isSome) = false ∧ ((clean.finishWork 0 []).batten.tiles[(0 : TileId)]).run.failed = none ∧
       ((clean.finishWork 0 []).commitBundle 0).1 = none) := by decide +kernel

/-- A delay list with all its entries. -/
def fullList : NMap DEntry := (List.range 1024).map fun k => (k, ⟨7, 0, 0, false, false, 0, 0, 0, 7⟩)

theorem nget_map_range' (e : DEntry) (n : Nat) : ∀ a k : Nat, a ≤ k → k < a + n →
    nget ((List.range' a n).map fun j => (j, e)) k = some e := by
  induction n with
  | zero => intro a k h g; omega
  | succ n ih =>
    intro a k h g
    simp only [List.range'_succ, List.map_cons, nget]
    by_cases q : a = k
    · simp [q]
    · rw [if_neg (by simpa using q), if_neg (by omega)]
      exact ih (a + 1) k (by omega) (by omega)

theorem witness_SubmissionsAndDelayLists_full : freeEntry fullList = none := by
  rw [freeEntry, List.find?_eq_none]
  intro k hk
  have := nget_map_range' ⟨7, 0, 0, false, false, 0, 0, 0, 7⟩ 1024 0 k (by omega) (by simpa using hk)
  simp [fullList, List.range_eq_range', this]

/-! The Reed unit. -/

/-- A scan on tile 0 with a batch to hand over. -/
def scanning (batches : List RBatch) (active : Bool) : State :=
  (scheduled .running []).modSched 0 fun y => { y with reed := { y.reed with batches := batches, active := active } }

theorem witness_PlanAdmissionAndReed : ((scanning [] false).batten.tiles[(0 : TileId)]).reed.active = false ∧
    ((scanning [] true).batten.tiles[(0 : TileId)]).reed.active = true ∧ ((scanning [] true).batten.tiles[(0 : TileId)]).reed.batches = [] ∧
    ((scanning [⟨3, zeros 64, ⟨[], []⟩⟩] true).batten.tiles[(0 : TileId)]).reed.batches = [⟨3, zeros 64, ⟨[], []⟩⟩] ∧
    ((scanning [] false).bundleOf 0).any (fun x => x.2.2.2.kind != 1) = true ∧ ((scanning [] false).tiles[(0 : TileId)]).reedBusy = false := by decide +kernel

/-! Firings. -/

/-- A complete firing. -/
def firing : Firing :=
  { window := ⟨0, 0, 1000, 0, 1000⟩, stamp := ⟨2000, 0xC1, 0, 0⟩, snapshot := [], phase := .complete, status := 0, amend := false, lateRows := 0
    partialRec := false, catchUp := false, skippedBefore := 0, results := [], rows := 0, energy := 0 }

/-- The part with query 7 of a shape, a firing of it complete, and an entry of its delay list due, of it or of firmware. -/
def falling (shape kind : Nat) : State :=
  (withQuery (fun q => { q with w := [shape * 2 ^ 18, 0, 0, 0, 0, 0], firings := [firing] }) live).modBatten fun b =>
    { b with enable := true, lastTick := some ⟨4900000, 3, 5, 0⟩, timeList := [(2, ⟨4800000, 0, 0, false, false, kind, 7, 0, 4800000⟩)] }

theorem witness_FiringsFallDueAndAreDelivered : ∀ shape ∈ [0, 2], ∀ kind ∈ [0, 1],
    (falling shape kind).batten.enable = true ∧ ((falling shape kind).dueEntry.any fun x => x.1 == 2 && x.2.kind == kind) = true ∧
    ((falling shape kind).query 7).any (fun q => q.shape == shape) = true ∧ (falling shape kind).ridgeActs = true ∧
    (((falling shape kind).query 7).bind fun q => (falling shape kind).queryFunc q) = some 0 ∧
    ((falling shape kind).query 7).any (fun q => q.firings.findIdx? (fun f => f.phase == .complete) == some 0 && q.firings[0]? == some firing &&
      q.produced % q.ringBytes + (firingBytes 7 q.skippedSince firing).length ≤ q.ringBytes &&
      q.produced - 256 + (firingBytes 7 q.skippedSince firing).length ≤ q.ringBytes &&
      q.ringBytes < q.produced + 70000 + (firingBytes 7 q.skippedSince firing).length) = true := by decide +kernel

/-! Ingest and segments. -/

/-- A row. -/
def rowAt (ts : Nat) : SRow := ⟨⟨ts, 5, 3, 0⟩, [.num 5], 0⟩

/-- A segment with two rows, the later one first. -/
def segOf (st : SegState) (sealing : Bool) (badA badB : List Nat) : Segment :=
  { no := 4, state := st, unordered := true, overlap := false, rows := [rowAt 3000, rowAt 2000], firstAt := 3000, sealing := sealing, sealCols := none
    sealStamp := none, prevDigest := zeros 32, digest := zeros 32, chunksA := [], chunksB := [], badA := badA, badB := badB, openHeld := 0
    openRows := [], prevMax := none, sealAt := 3500, atA := [], atB := [], openAtA := [], openAtB := [] }

/-- The part with table 300 changed. -/
def tabled (f : Table → Table) : State :=
  live.modTables fun t => { t with tables := [(300, f (Table.fresh { tableDesc with cols := tableDesc.cols.take 3 ++ [⟨1, false, 0, 0, 1, 0, 0⟩] }))] }

theorem witness_IngestAndSegments :
    (let s := tabled fun t => { t with segs := [segOf .opened false [] []] }
     (s.table 300).any (fun t => t.openSeg == some (segOf .opened false [] []) && 0 < t.desc.sealAge) = true ∧ (segOf .opened false [] []).rows ≠ [] ∧
       s.ridgeActs = true) ∧
    (∀ keep, let s := tabled fun t => { t with segs := [segOf .opened true [] []], desc := { t.desc with keep := keep } }
     (s.table 300).any (fun t => t.segs.find? (·.sealing) == some (segOf .opened true [] []) && t.desc.keep == keep) = true ∧
       s.sealWork.contains (300, 4) = true) ∧
    (∀ bad ∈ [([48], []), ([], [48])], let s := tabled fun t => { t with segs := [segOf .sealed false bad.1 bad.2], desc := { t.desc with lapped := true } }
     (s.table 300).any (fun t => t.desc.lapped && t.segs.find? (fun x => x.no == 4) == some (segOf .sealed false bad.1 bad.2)) = true ∧
       (48 / 16 = 3)) ∧
    live.time.lastBoundary < live.tables.lastRetention + 1000000 * live.cfg 0x1081 1 1000 ∧
    (let s := live.modTime fun t => { t with lastBoundary := 1000000000 }
     s.tables.lastRetention + 1000000 * s.cfg 0x1081 1 1000 ≤ s.time.lastBoundary) := by decide +kernel

/-- An entry of an Eave ring. -/
def ringEntry (frame : Bytes) : RingEntry :=
  { ts := 4000000, tq := 3, frame := frame, wireLength := frame.length + 4, flags := 0, pdus := 0, rows := [], capture := true, base := none, generation := 0
    entered := false }

/-- The part with Eave port 2 enabled and frames in its ring. -/
def eavePart (ring : List RingEntry) (used : Nat) : State :=
  ((live.modDict fun d => { d with vals := [(objKey 0x3142 1, [1])] }).modEave 2 fun e => { e with ring := ring, ringUsed := used }).modPurlin fun p =>
    { p with banks := p.banks.map fun k => { k with enable := true } }

theorem witness_IngestAndSegments_frames : (eavePart [] 0).cfgBool 0x3142 1 false = true ∧ (eavePart [] 0).time.run = true ∧
    ((eavePart [] 0).ingest.eave[(2 : PortId)]).stopped = false ∧
    (∀ n ∈ [60, 2044], 60 ≤ (zeros n).length ∧ (zeros n).length ≤ 2044 ∧ isPause (zeros n) = false ∧
      0 + ringSpace (zeros n) ≤ (eavePart [] 0).cfg 0x3142 5 64 * 2 ^ 20) ∧
    (∀ n ∈ [59, 2045], (zeros n).length + 4 < 64 ∨ 2048 < (zeros n).length + 4) ∧ isPause (zeros 12 ++ [0x88, 8, 0, 1] ++ zeros 60) = true ∧
    (eavePart [] 0).cfg 0x3142 5 64 * 2 ^ 20 < 2 ^ 26 + ringSpace (zeros 60) ∧
    ((eavePart [] 0).ingest.eave[(2 : PortId)]).ring.find? (!·.entered) = none ∧
    (let s := eavePart [ringEntry (zeros 60)] 128
     (s.ingest.eave[(2 : PortId)]).ring = ringEntry (zeros 60) :: [] ∧ s.mapReady = true ∧ s.cfg 0x3142 3 1 = 1) := by decide +kernel

/-- The part with a row held for table 300 and a pending APPEND to it. -/
def holdingRows (held : List SRow) (appends : List PendAppend) : State :=
  (tabled fun t => { t with held := held }).modIngest fun g => { g with appends := appends }

theorem witness_IngestAndSegments_releases : (((holdingRows [rowAt 3000] []).table 300).any (fun t => t.held == [rowAt 3000]) = true ∧
      (holdingRows [rowAt 3000] []).blocks 300 (rowAt 3000).stamp = none) ∧
    (let a : PendAppend := ⟨⟨2500, 5, 9, 0⟩, 300, 2500, false⟩
     let s := holdingRows [rowAt 3000] [a]
     s.blocks 300 (rowAt 3000).stamp ≠ none ∧ s.ingest.appends.find? (fun a => a.receipt.src == 5 && a.receipt.seq == 9) = some a ∧
       s.ingest.appends.find? (fun b => b.receipt == a.receipt && !b.expired) = some a) ∧
    (holdingRows [rowAt 3000] []).heldRows ≤ 15728640 := by decide +kernel

theorem heldRows_replicate (n : Nat) (r : SRow) : (holdingRows (List.replicate n r) []).heldRows = n := by
  simp [State.heldRows, holdingRows, tabled, State.modTables, State.modIngest]


theorem witness_IngestAndSegments_forced : 15728640 < (holdingRows (List.replicate 15728641 (rowAt 3000)) []).heldRows :=
  Nat.lt_of_lt_of_eq (by decide) (heldRows_replicate _ _).symm

end Sys2Proof.Tests
end

