-- ==== Sys2Proof/Proofs/StampOrder.lean ====
section
/-! SUPPORT. The order of stamps (R64) is the lexicographic order of their triples. -/

namespace Sys2Proof.Machine

/-- The triple of a stamp that R64 compares, in the lexicographic order of its numbers. -/
def Stamp.triple (a : Stamp) : ℕ ×ₗ ℕ ×ₗ ℕ := toLex (a.ts, toLex (a.src, a.seq))

theorem Stamp.lt_iff (a b : Stamp) :
    a.lt b = true ↔ a.ts < b.ts ∨ (a.ts = b.ts ∧ (a.src < b.src ∨ (a.src = b.src ∧ a.seq < b.seq))) := by
  simp [Stamp.lt]

theorem Stamp.same_iff (a b : Stamp) : a.same b = true ↔ a.ts = b.ts ∧ a.src = b.src ∧ a.seq = b.seq := by
  simp [Stamp.same, and_assoc]

theorem Stamp.lt_iff_triple_lt (a b : Stamp) : a.lt b = true ↔ a.triple < b.triple := by
  simp [Stamp.lt_iff, Stamp.triple, Prod.Lex.toLex_lt_toLex]

theorem Stamp.same_iff_triple_eq (a b : Stamp) : a.same b = true ↔ a.triple = b.triple := by
  simp [Stamp.same_iff, Stamp.triple]

@[simp] theorem Stamp.lt_setTq (a b : Stamp) (q q' : Nat) : ({ a with tq := q } : Stamp).lt { b with tq := q' } = a.lt b := rfl

theorem Stamp.lt_asymm {a b : Stamp} (h : a.lt b = true) : b.lt a = false := by
  rw [Stamp.lt_iff_triple_lt] at h
  exact Bool.eq_false_iff.mpr fun hba => h.asymm ((Stamp.lt_iff_triple_lt b a).mp hba)

theorem Stamp.not_same_of_lt {a b : Stamp} (h : a.lt b = true) : a.same b = false := by
  rw [Stamp.lt_iff_triple_lt] at h
  exact Bool.eq_false_iff.mpr fun hs => h.ne ((Stamp.same_iff_triple_eq a b).mp hs)

theorem Stamp.same_of_not_lt {a b : Stamp} (hab : a.lt b = false) (hba : b.lt a = false) : a.same b = true := by
  rw [Bool.eq_false_iff, Ne, Stamp.lt_iff_triple_lt] at hab hba
  exact (Stamp.same_iff_triple_eq a b).mpr ((not_lt.mp hba).antisymm (not_lt.mp hab))

theorem Stamp.lt_trans {a b c : Stamp} (hab : a.lt b = true) (hbc : b.lt c = true) : a.lt c = true := by
  rw [Stamp.lt_iff_triple_lt] at hab hbc ⊢
  exact hab.trans hbc

/-- Settles O6: R64 compares the triples lexicographically, which is a linear order, and TQ8 is no part of a triple. -/
theorem stampOrder : Obligations.StampOrder := fun a b _ =>
  ⟨Stamp.lt_iff a b, Stamp.lt_setTq a b, Stamp.same_iff a b, fun h => ⟨Stamp.lt_asymm h, Stamp.not_same_of_lt h⟩,
    Stamp.same_of_not_lt, Stamp.lt_trans⟩

end Sys2Proof.Machine
end

