-- ==== Sys2Proof/Proofs/CanonicalNans.lean ====
section
/-! SUPPORT. The NaNs of a binary format (R73, R74): the patterns whose magnitude, the bits below the sign, is above that of
infinity. Of a format it takes only that it has an exponent field and at least one fraction bit. -/

namespace Sys2Proof.Machine

/-- The exponent field of a pattern. -/
def FFmt.expField (f : FFmt) (x : Nat) : Nat := bitsOf (x % 2 ^ f.width) (f.width - 2) f.fracBits

/-- The fraction field of a pattern. -/
def FFmt.fracField (f : FFmt) (x : Nat) : Nat := x % 2 ^ f.width % 2 ^ f.fracBits

theorem FFmt.isNan_unpack_iff_fields (f : FFmt) (x : Nat) :
    (f.unpack x).isNan = true ↔ f.expField x = f.expMax ∧ f.fracField x ≠ 0 := by
  simp only [FFmt.unpack, ← FFmt.expField.eq_1, ← FFmt.fracField.eq_1, beq_iff_eq]
  split_ifs <;> simp_all [FVal.isNan]

theorem FFmt.fracField_lt (f : FFmt) (x : Nat) : f.fracField x < 2 ^ f.fracBits := Nat.mod_lt _ (Nat.two_pow_pos _)

theorem FFmt.expMax_succ (f : FFmt) : f.expMax + 1 = 2 ^ (f.width - f.p) := Nat.sub_add_cancel Nat.one_le_two_pow

theorem FFmt.signBit_pos (f : FFmt) : 0 < f.signBit := Nat.two_pow_pos _

theorem FFmt.infBits_lt_qnan (f : FFmt) : f.infBits < f.qnan := Nat.lt_add_of_pos_right (Nat.two_pow_pos _)

section
variable {f : FFmt} (hp : 2 ≤ f.p) (hw : f.p < f.width)
include hp hw

theorem FFmt.signBit_eq_mul : f.signBit = 2 ^ f.fracBits * (f.expMax + 1) := by
  rw [FFmt.expMax_succ, ← Nat.pow_add, FFmt.signBit, FFmt.fracBits]
  congr 1
  omega

theorem FFmt.expField_eq_mod (x : Nat) : f.expField x = x % 2 ^ f.width / 2 ^ f.fracBits % (f.expMax + 1) := by
  have hbits : f.width - 2 + 1 - f.fracBits = f.width - f.p := by unfold FFmt.fracBits; omega
  rw [FFmt.expField, bitsOf, hbits, FFmt.expMax_succ]

theorem FFmt.mod_signBit_eq_fields (x : Nat) : x % f.signBit = f.fracField x + 2 ^ f.fracBits * f.expField x := by
  have hdvd : f.signBit ∣ 2 ^ f.width := Nat.pow_dvd_pow 2 (Nat.sub_le _ _)
  rw [← Nat.mod_mod_of_dvd x hdvd, FFmt.signBit_eq_mul hp hw, Nat.mod_mul, FFmt.expField_eq_mod hp hw, FFmt.fracField]

/-- With the exponent field below all ones the fraction cannot reach the magnitude of infinity. -/
theorem FFmt.isNan_unpack_iff (x : Nat) : (f.unpack x).isNan = true ↔ f.infBits < x % f.signBit := by
  have hfrac := f.fracField_lt x
  have hexp : f.expField x ≤ f.expMax := by
    rw [FFmt.expField_eq_mod hp hw]
    exact Nat.le_of_lt_succ (Nat.mod_lt _ (Nat.succ_pos _))
  rw [FFmt.isNan_unpack_iff_fields, FFmt.mod_signBit_eq_fields hp hw, FFmt.infBits, Nat.mul_comm]
  obtain hmax | hless := hexp.eq_or_lt
  · rw [hmax]
    omega
  · have hstep : 2 ^ f.fracBits * (f.expField x + 1) ≤ 2 ^ f.fracBits * f.expMax := Nat.mul_le_mul_left _ hless
    rw [Nat.mul_succ] at hstep
    omega

theorem FFmt.qnan_lt_signBit : f.qnan < f.signBit := by
  have hfrac : 2 ^ (f.fracBits - 1) < 2 ^ f.fracBits := Nat.pow_lt_pow_right (by decide) (by unfold FFmt.fracBits; omega)
  rw [FFmt.signBit_eq_mul hp hw, FFmt.qnan, FFmt.infBits, Nat.mul_succ, Nat.mul_comm f.expMax]
  omega

theorem FFmt.canon_of_nan {x : Nat} (h : f.infBits < x % f.signBit) : f.canon x = f.qnan :=
  if_pos ((FFmt.isNan_unpack_iff hp hw x).mpr h)

theorem FFmt.canon_of_not_nan {x : Nat} (hx : x < 2 ^ f.width) (h : x % f.signBit ≤ f.infBits) : f.canon x = x :=
  (if_neg fun hn => h.not_gt ((FFmt.isNan_unpack_iff hp hw x).mp hn)).trans (Nat.mod_eq_of_lt hx)

theorem FFmt.two_pow_width : 2 ^ f.width = 2 * f.signBit := by
  rw [FFmt.signBit, ← Nat.pow_succ', Nat.succ_eq_add_one, Nat.sub_add_cancel (by omega)]

theorem FFmt.bitAt_sign_iff {x : Nat} (hx : x < 2 ^ f.width) : bitAt x (f.width - 1) = true ↔ f.signBit ≤ x := by
  rw [FFmt.two_pow_width hp hw] at hx
  have hdiv : x / f.signBit < 2 := Nat.div_lt_of_lt_mul (by omega)
  rw [bitAt, beq_iff_eq, ← FFmt.signBit, Nat.mod_eq_of_lt hdiv, ← Nat.one_le_div_iff f.signBit_pos]
  omega

theorem FFmt.key_of_neg {x : Nat} (hx : x < 2 ^ f.width) (hs : f.signBit ≤ x) : f.key x = 2 ^ f.width - 1 - x := by
  simp [FFmt.key, Nat.mod_eq_of_lt hx, (FFmt.bitAt_sign_iff hp hw hx).mpr hs]

theorem FFmt.key_of_nonneg {x : Nat} (hs : x < f.signBit) : f.key x = x + f.signBit := by
  have hx : x < 2 ^ f.width := by rw [FFmt.two_pow_width hp hw]; omega
  simp [FFmt.key, Nat.mod_eq_of_lt hx, FFmt.bitAt_sign_iff hp hw hx, hs]

/-- R74: a pattern with the sign has a key below the sign bit, and one without it keeps the order of the magnitudes. -/
theorem FFmt.key_lt_key_qnan {x : Nat} (hx : x < 2 ^ f.width) (h : x % f.signBit ≤ f.infBits) : f.key x < f.key f.qnan := by
  rw [FFmt.key_of_nonneg hp hw (FFmt.qnan_lt_signBit hp hw)]
  obtain hs | hs := Nat.lt_or_ge x f.signBit
  · rw [FFmt.key_of_nonneg hp hw hs]
    rw [Nat.mod_eq_of_lt hs] at h
    exact Nat.add_lt_add_right (h.trans_lt f.infBits_lt_qnan) _
  · have hpos := f.signBit_pos
    rw [FFmt.key_of_neg hp hw hx hs, FFmt.two_pow_width hp hw]
    omega

/-- R74 of one format. -/
theorem FFmt.canon_and_key {x : Nat} (hx : x < 2 ^ f.width) :
    (f.infBits < x % f.signBit → f.canon x = f.qnan) ∧
    (x % f.signBit ≤ f.infBits → f.canon x = x ∧ f.key x < f.key f.qnan) :=
  ⟨FFmt.canon_of_nan hp hw, fun h => ⟨FFmt.canon_of_not_nan hp hw hx h, FFmt.key_lt_key_qnan hp hw hx h⟩⟩

end

@[simp] theorem canonVal_f32 (x : Nat) : canonVal 10 (.num x) = .num (f32.canon x) := rfl

@[simp] theorem canonVal_f64 (x : Nat) : canonVal 11 (.num x) = .num (f64.canon x) := rfl

@[simp] theorem orderKey_f32 (x : Nat) : orderKey 10 x = f32.key x := rfl

@[simp] theorem orderKey_f64 (x : Nat) : orderKey 11 x = f64.key x := rfl

/-- Settles O7: R74 of any format, read at binary32 and at binary64. -/
theorem nansAreCanonical : Obligations.NansAreCanonical := by
  simp only [Obligations.NansAreCanonical, canonVal_f32, canonVal_f64, orderKey_f32, orderKey_f64, Val.num.injEq]
  exact ⟨fun x => FFmt.canon_and_key (f := f32) (by decide) (by decide),
    fun x => FFmt.canon_and_key (f := f64) (by decide) (by decide)⟩

end Sys2Proof.Machine
end

