-- ==== Sys2Proof/Proofs/PackedArrays.lean ====
section
/-! SUPPORT. The bits of a packed array (R86): those of the number that holds item i at bit i × B, in little-endian bytes. -/

namespace Sys2Proof.Machine

@[simp] theorem length_toLE (n x : Nat) : (toLE n x).length = n := by
  induction n generalizing x with
  | zero => rfl
  | succ n ih => simp [toLE, ih]

/-- R86, R6: bit j of a number stands at bit (j mod 8) of byte ⌊j/8⌋ of its little-endian bytes. -/
theorem testBit_getD_toLE {n x : Nat} (hx : x < 2 ^ (8 * n)) (j : Nat) :
    ((toLE n x).getD (j / 8) 0).toNat.testBit (j % 8) = x.testBit j := by
  induction n generalizing x j with
  | zero => simp_all [toLE]
  | succ n ih =>
    obtain hj | hj := Nat.lt_or_ge j 8
    · simp [toLE, Nat.div_eq_of_lt hj, Nat.mod_eq_of_lt hj, Nat.testBit_mod_two_pow x 8 j, hj]
    · obtain ⟨k, rfl⟩ := Nat.exists_eq_add_of_le' hj
      have hdiv : x / 2 ^ 8 < 2 ^ (8 * n) := Nat.div_lt_of_lt_mul (by rwa [← Nat.pow_add, Nat.add_comm])
      have hbyte := ih hdiv k
      rw [Nat.testBit_div_two_pow] at hbyte
      simpa [toLE] using hbyte

/-- The number of which a packed array holds the bits: item i stands at bit i × B. -/
def packedNat (B : Nat) (items : List Nat) : Nat := items.foldr (fun x acc => x % 2 ^ B + 2 ^ B * acc) 0

theorem packBits_eq_toLE (B : Nat) (items : List Nat) :
    packBits B items = toLE (ceilDiv (items.length * B) 64 * 8) (packedNat B items) := rfl

@[simp] theorem packedNat_cons (B x : Nat) (items : List Nat) :
    packedNat B (x :: items) = 2 ^ B * packedNat B items + x % 2 ^ B := Nat.add_comm _ _

theorem packedNat_lt (B : Nat) (items : List Nat) : packedNat B items < 2 ^ (items.length * B) := by
  induction items with
  | nil => simp [packedNat]
  | cons x items ih =>
    have hx : x % 2 ^ B < 2 ^ B := Nat.mod_lt _ (Nat.two_pow_pos _)
    calc packedNat B (x :: items) < 2 ^ B * (packedNat B items + 1) := by rw [packedNat_cons, Nat.mul_succ]; omega
      _ ≤ 2 ^ B * 2 ^ (items.length * B) := Nat.mul_le_mul_left _ ih
      _ = 2 ^ ((x :: items).length * B) := by rw [← Nat.pow_add, List.length_cons, Nat.succ_mul, Nat.add_comm]

theorem testBit_packedNat {B k : Nat} (hk : k < B) (items : List Nat) (i : Nat) :
    (packedNat B items).testBit (i * B + k) = (items.getD i 0).testBit k := by
  induction items generalizing i with
  | nil => simp [packedNat]
  | cons x items ih =>
    rw [packedNat_cons, Nat.testBit_two_pow_mul_add _ (Nat.mod_lt _ (Nat.two_pow_pos _))]
    cases i with
    | zero => simp [hk, Nat.testBit_mod_two_pow]
    | succ i =>
      have hpos : (i + 1) * B + k = i * B + k + B := by rw [Nat.succ_mul]; omega
      simpa [hpos] using ih i

theorem length_packBits (B : Nat) (items : List Nat) :
    (packBits B items).length = ceilDiv (items.length * B) 64 * 8 := by rw [packBits_eq_toLE, length_toLE]

/-- Padding to whole words of 64 bits takes the fewest that hold the items. -/
theorem bits_le_length_packBits (B : Nat) (items : List Nat) :
    items.length * B ≤ 8 * (packBits B items).length ∧ 8 * (packBits B items).length < items.length * B + 64 := by
  rw [length_packBits, ceilDiv]
  omega

theorem testBit_getD_packBits (B : Nat) (items : List Nat) (j : Nat) :
    ((packBits B items).getD (j / 8) 0).toNat.testBit (j % 8) = (packedNat B items).testBit j := by
  have hfits := (bits_le_length_packBits B items).1
  rw [length_packBits] at hfits
  exact testBit_getD_toLE ((packedNat_lt B items).trans_le (Nat.pow_le_pow_right (by decide) hfits)) j

theorem packBits_zero (items : List Nat) : packBits 0 items = [] := List.eq_nil_of_length_eq_zero (by simp [length_packBits, ceilDiv])

/-- Settles O8: the bytes hold the bits of the packed number, and above its last item that number has no bit set. -/
theorem packedArrays : Obligations.PackedArrays := by
  intro B items
  obtain ⟨hlow, hhigh⟩ := bits_le_length_packBits B items
  refine ⟨?_, hlow, hhigh, fun i k hk => ?_, fun j hj => ?_, fun hB => hB ▸ packBits_zero items⟩
  · rw [length_packBits, Nat.mul_mod_left]
  · rw [testBit_getD_packBits, testBit_packedNat hk]
  · rw [testBit_getD_packBits]
    exact Nat.testBit_lt_two_pow ((packedNat_lt B items).trans_le (Nat.pow_le_pow_right (by decide) hj))

end Sys2Proof.Machine
end

