-- ==== Sys2Proof/Proofs/PurlinWinner.lean ====
section
/-! SUPPORT. The winner of a search (R224): the fold of the model is the first of the least PRIORITY, and the candidates of a
search stand in rising order of bank and, where a bank's entries rise, of index. -/

namespace Sys2Proof.Machine

/-- Of two elements of a list, the one first found earlier is related to the other. -/
theorem rel_of_idxOf_le {α : Type} [DecidableEq α] {R : α → α → Prop} [Std.Refl R] {l : List α} (h : l.Pairwise R) {a b : α}
    (ha : a ∈ l) (hb : b ∈ l) (hab : l.idxOf a ≤ l.idxOf b) : R a b := by
  simpa using h.rel_get_of_le (a := ⟨_, List.idxOf_lt_length_of_mem ha⟩) (b := ⟨_, List.idxOf_lt_length_of_mem hb⟩) hab

theorem pairwise_lt_of_nsorted {α : Type} {m : NMap α} (h : nsorted m = true) : m.Pairwise fun p q => p.1 < q.1 := by
  induction m with
  | nil => exact .nil
  | cons p r ih =>
    obtain ⟨hp, hr⟩ := (nsorted_cons p.1 p.2 r).mp h
    exact .cons hp (ih hr)

/-- The entries that a search of banks may choose from: those that match and agree with their copies (R223, R227). -/
def State.candidates (s : State) (banks : List (Fin 8)) (key : List Nat) : List (Fin 8 × Nat × PEntry) :=
  (s.pMatches banks key).filter fun x => x.2.2.sound

theorem State.mem_candidates {s : State} {mask : Nat} {key : List Nat} {b : Fin 8} {i : Nat} {e : PEntry} :
    (b, i, e) ∈ s.candidates (banksOf mask) key ↔
      bitAt mask b.val = true ∧ (i, e) ∈ (s.purlin.banks[b]).entries ∧ e.hits (s.purlin.banks[b]).masked key = true ∧
        e.sound = true ∧ (s.purlin.banks[b]).retired.contains i = false := by
  simp only [State.candidates, State.pMatches, banksOf, List.mem_filter, List.mem_flatMap, List.mem_map, List.mem_finRange,
    true_and, Bool.and_eq_true, Bool.not_eq_true']
  constructor
  · rintro ⟨⟨_, hmask, ⟨_, _⟩, ⟨hmem, hhits, hret⟩, ⟨⟩⟩, hsound⟩
    exact ⟨hmask, hmem, hhits, hsound, hret⟩
  · rintro ⟨hmask, hmem, hhits, hsound, hret⟩
    exact ⟨⟨b, hmask, (i, e), ⟨hmem, hhits, hret⟩, rfl⟩, hsound⟩

/-- The order of R224 among entries of one PRIORITY: by bank, and within a bank whose entries rise by index. -/
def State.noLater (s : State) (x y : Fin 8 × Nat × PEntry) : Prop :=
  x.1.val < y.1.val ∨ (x.1 = y.1 ∧ (nsorted (s.purlin.banks[x.1]).entries = true → x.2.1 ≤ y.2.1))

theorem State.noLater_refl (s : State) : Std.Refl s.noLater := ⟨fun _ => .inr ⟨rfl, fun _ => Nat.le_refl _⟩⟩

theorem pairwise_lt_banksOf (mask : Nat) : (banksOf mask).Pairwise (· < ·) := (List.pairwise_lt_finRange 8).filter _

theorem State.candidates_pairwise_noLater (s : State) (mask : Nat) (key : List Nat) :
    (s.candidates (banksOf mask) key).Pairwise s.noLater := by
  refine (List.pairwise_flatMap.mpr ⟨fun b _ => ?_, (pairwise_lt_banksOf mask).imp ?_⟩).filter _
  · have hrise : (s.purlin.banks[b]).entries.Pairwise fun p q => nsorted (s.purlin.banks[b]).entries = true → p.1 ≤ q.1 := by
      by_cases hs : nsorted (s.purlin.banks[b]).entries = true
      · exact (pairwise_lt_of_nsorted hs).imp fun h _ => h.le
      · exact List.pairwise_of_forall fun _ _ h => absurd h hs
    exact List.pairwise_map.mpr ((hrise.filter _).imp fun h => .inr ⟨rfl, h⟩)
  · simp only [List.mem_map]
    rintro b b' hlt _ ⟨_, _, rfl⟩ _ ⟨_, _, rfl⟩
    exact .inl hlt

/-- The winner is the first candidate of the least PRIORITY, named by its bank's number. -/
theorem State.pWinner_eq_argmin (s : State) (banks : List (Fin 8)) (key : List Nat) :
    s.pWinner banks key = ((s.candidates banks key).argmin fun x => x.2.2.priority).map fun x => (x.1.val, x.2) := by
  refine List.foldl_hom (Option.map fun x : Fin 8 × Nat × PEntry => (x.1.val, x.2)) (init := none) fun best x => ?_
  cases best with
  | none => rfl
  | some y => by_cases hlt : x.2.2.priority < y.2.2.priority <;> simp [List.argAux, hlt]

/-- Settles O55: the first candidate of the least PRIORITY comes no later in R224's order than any other that has it. -/
theorem purlinWinner : Obligations.PurlinWinner := by
  intro s mask key
  simp only [State.pWinner_eq_argmin, ← State.mem_candidates]
  cases hmin : (s.candidates (banksOf mask) key).argmin fun x => x.2.2.priority with
  | none =>
    intro b i e
    rw [List.argmin_eq_none.mp hmin]
    exact List.not_mem_nil
  | some x =>
    obtain ⟨hx, hleast, hfirst⟩ := List.mem_argmin_iff.mp hmin
    refine ⟨x.1, rfl, hx, fun b' i' e' hy => (hleast _ hy).lt_or_eq.imp_right fun heq => ⟨heq, ?_⟩⟩
    have := s.noLater_refl
    exact rel_of_idxOf_le (s.candidates_pairwise_noLater mask key) hx hy (hfirst _ hy heq.ge)

end Sys2Proof.Machine
end

