-- ==== Sys2Proof/Proofs/Words.lean ====
section
/-! SUPPORT. The 64-bit words that the integer instructions compute (R331, R332), each as the image of an integer: of the unsigned
readings of its operands, or of the signed ones. -/

namespace Sys2Proof.Machine

theorem eq_ofInt_of_toNat {x : Word} {n : Nat} (h : x.toNat = n) : x = BitVec.ofInt 64 n := by
  rw [← h, BitVec.ofInt_natCast, BitVec.ofNat_toNat, BitVec.setWidth_eq]

theorem eq_ofInt_of_toInt {x : Word} {z : Int} (h : x.toInt = z) : x = BitVec.ofInt 64 z := by
  rw [← h, BitVec.ofInt_toInt]

@[simp] theorem ofInt_toNat (x : Word) : BitVec.ofInt 64 x.toNat = x := (eq_ofInt_of_toNat rfl).symm

theorem ofInt_sub (y z : Int) : BitVec.ofInt 64 (y - z) = BitVec.ofInt 64 y - BitVec.ofInt 64 z := by
  rw [Int.sub_eq_add_neg, BitVec.ofInt_add, BitVec.ofInt_neg, BitVec.sub_eq_add_neg]

/-! Sums, products and quotients. -/

theorem add_eq_ofInt (x y : Word) : x + y = BitVec.ofInt 64 (x.toNat + y.toNat) := by
  rw [BitVec.ofInt_add, ofInt_toNat, ofInt_toNat]

theorem sub_eq_ofInt (x y : Word) : x - y = BitVec.ofInt 64 (x.toNat - y.toNat) := by
  rw [ofInt_sub, ofInt_toNat, ofInt_toNat]

theorem mul_eq_ofInt (x y : Word) : x * y = BitVec.ofInt 64 (x.toNat * y.toNat) := by
  rw [BitVec.ofInt_mul, ofInt_toNat, ofInt_toNat]

theorem mulHigh_eq_ofInt (m n : Nat) : mulHigh m n = BitVec.ofInt 64 (m * n / 2 ^ 64 : Nat) := by
  rw [mulHigh]
  push_cast
  rfl

theorem beq_zero_iff (y : Word) : (y == 0) = true ↔ y.toNat = 0 := by
  rw [beq_iff_eq, ← BitVec.toNat_inj]
  rfl

theorem divuW_eq_ofInt (x y : Word) : divuW x y = BitVec.ofInt 64 (if y.toNat = 0 then 0 else x.toNat / y.toNat : Nat) := by
  refine eq_ofInt_of_toNat ?_
  simp only [divuW, beq_zero_iff]
  split_ifs
  · rfl
  · exact BitVec.toNat_udiv

theorem remuW_eq_ofInt (x y : Word) : remuW x y = BitVec.ofInt 64 (if y.toNat = 0 then x.toNat else x.toNat % y.toNat : Nat) := by
  refine eq_ofInt_of_toNat ?_
  simp only [remuW, beq_zero_iff]
  split_ifs
  · rfl
  · exact BitVec.toNat_umod

/-- The quotient of −2^63 by −1 is 2^63, which wraps. -/
theorem divsW_eq_ofInt (x y : Word) : divsW x y = BitVec.ofInt 64 (if y.toNat = 0 then 0 else x.toInt.tdiv y.toInt) := by
  simp only [divsW, beq_zero_iff]
  split_ifs
  · rfl
  · exact BitVec.eq_of_toInt_eq (by rw [BitVec.toInt_sdiv, BitVec.toInt_ofInt])

theorem remsW_eq_ofInt (x y : Word) : remsW x y = BitVec.ofInt 64 (if y.toNat = 0 then x.toInt else x.toInt.tmod y.toInt) := by
  refine eq_ofInt_of_toInt ?_
  simp only [remsW, beq_zero_iff]
  split_ifs
  · rfl
  · exact BitVec.toInt_srem x y

/-! Comparisons. -/

theorem ult_iff (x y : Word) : x.ult y = true ↔ x.toNat < y.toNat := by simp [BitVec.ult]

theorem slt_iff (x y : Word) : x.slt y = true ↔ x.toInt < y.toInt := by simp [BitVec.slt]

theorem beq_iff_toNat (x y : Word) : (x == y) = true ↔ x.toNat = y.toNat := by rw [beq_iff_eq, BitVec.toNat_inj]

theorem boolW_eq_ofInt {b : Bool} {p : Prop} [Decidable p] (h : b = true ↔ p) :
    boolW b = BitVec.ofInt 64 (if p then 1 else 0) := by
  simp only [boolW, h]
  split_ifs
  · rfl
  · rfl

theorem minu_eq_ofInt (x y : Word) : (if x.ult y then x else y) = BitVec.ofInt 64 (min x.toNat y.toNat : Nat) := by
  refine eq_ofInt_of_toNat ?_
  simp only [ult_iff]
  split_ifs <;> omega

theorem maxu_eq_ofInt (x y : Word) : (if x.ult y then y else x) = BitVec.ofInt 64 (max x.toNat y.toNat : Nat) := by
  refine eq_ofInt_of_toNat ?_
  simp only [ult_iff]
  split_ifs <;> omega

theorem mins_eq_ofInt (x y : Word) : (if x.slt y then x else y) = BitVec.ofInt 64 (min x.toInt y.toInt) := by
  refine eq_ofInt_of_toInt ?_
  simp only [slt_iff]
  split_ifs <;> omega

theorem maxs_eq_ofInt (x y : Word) : (if x.slt y then y else x) = BitVec.ofInt 64 (max x.toInt y.toInt) := by
  refine eq_ofInt_of_toInt ?_
  simp only [slt_iff]
  split_ifs <;> omega

/-! Shifts. -/

theorem andn_eq_ofInt (x y : Word) : x &&& ~~~y = BitVec.ofInt 64 (x.toNat &&& (2 ^ 64 - 1 - y.toNat) : Nat) :=
  eq_ofInt_of_toNat (by rw [BitVec.toNat_and, BitVec.toNat_not])

theorem shl_eq_ofInt (x : Word) (n : Nat) : x <<< n = BitVec.ofInt 64 (x.toNat * 2 ^ n) := by
  have hcast : (x.toNat * 2 ^ n : Int) = (x.toNat * 2 ^ n : Nat) := by push_cast; rfl
  rw [hcast, BitVec.ofInt_natCast]
  exact BitVec.eq_of_toNat_eq (by rw [BitVec.toNat_shiftLeft, Nat.shiftLeft_eq, BitVec.toNat_ofNat])

theorem shr_eq_ofInt (x : Word) (n : Nat) : x >>> n = BitVec.ofInt 64 (x.toNat / 2 ^ n : Nat) :=
  eq_ofInt_of_toNat (by rw [BitVec.toNat_ushiftRight, Nat.shiftRight_eq_div_pow])

theorem sar_eq_ofInt (x : Word) (n : Nat) : x.sshiftRight n = BitVec.ofInt 64 (x.toInt / 2 ^ n) :=
  eq_ofInt_of_toInt (by rw [BitVec.toInt_sshiftRight, Int.shiftRight_eq_div_pow]; norm_cast)

/-- The bits that a rotation brings in at the top stand above those that stay, so it adds them. -/
theorem ror_eq_ofInt (x : Word) {n : Nat} (hn : n < 64) :
    x.rotateRight n = BitVec.ofInt 64 (x.toNat / 2 ^ n + x.toNat * 2 ^ (64 - n) : Nat) := by
  have hdisj : x >>> n &&& x <<< (64 - n) = 0#64 := by
    ext i hi
    by_cases hin : i < 64 - n
    · simp [hin]
    · simp [BitVec.getLsbD_of_ge x (n + i) (by omega)]
  rw [BitVec.rotateRight_def, Nat.mod_eq_of_lt hn, ← BitVec.add_eq_or_of_and_eq_zero _ _ hdisj, shl_eq_ofInt, shr_eq_ofInt,
    ← BitVec.ofInt_add]
  norm_cast

/-! Immediates. -/

theorem toNat_zext (y : BitVec 16) : (y.setWidth 64).toNat = y.toNat := BitVec.toNat_setWidth_of_le (by decide)

theorem toInt_sext (y : BitVec 16) : (y.signExtend 64).toInt = y.toInt := BitVec.toInt_signExtend_of_le (by decide)

theorem add_sext_eq_ofInt (x : Word) (y : BitVec 16) : x + y.signExtend 64 = BitVec.ofInt 64 (x.toNat + y.toInt) := by
  rw [BitVec.ofInt_add, ofInt_toNat, ← toInt_sext, BitVec.ofInt_toInt]

theorem and_zext_eq_ofInt (x : Word) (y : BitVec 16) : x &&& y.setWidth 64 = BitVec.ofInt 64 (x.toNat &&& y.toNat : Nat) :=
  eq_ofInt_of_toNat (by rw [BitVec.toNat_and, toNat_zext])

theorem or_zext_eq_ofInt (x : Word) (y : BitVec 16) : x ||| y.setWidth 64 = BitVec.ofInt 64 (x.toNat ||| y.toNat : Nat) :=
  eq_ofInt_of_toNat (by rw [BitVec.toNat_or, toNat_zext])

theorem xor_zext_eq_ofInt (x : Word) (y : BitVec 16) : x ^^^ y.setWidth 64 = BitVec.ofInt 64 (x.toNat ^^^ y.toNat : Nat) :=
  eq_ofInt_of_toNat (by rw [BitVec.toNat_xor, toNat_zext])

theorem slt_sext_iff (x : Word) (y : BitVec 16) : x.slt (y.signExtend 64) = true ↔ x.toInt < y.toInt := by
  rw [slt_iff, toInt_sext]

theorem zext_shl_eq_ofInt (y : BitVec 16) (k : Nat) : (y.setWidth 64 : Word) <<< k = BitVec.ofInt 64 (y.toNat * 2 ^ k) := by
  rw [shl_eq_ofInt, toNat_zext]

/-! MOVK: the field of 16 bits at bit k is taken out of the word, and the immediate put in its place. -/

theorem getLsbD_fieldMask (k i : Nat) :
    ((0xFFFF : Word) <<< k).getLsbD i = (decide (i < 64) && decide (k ≤ i) && decide (i - k < 16)) := by
  have hones : (0xFFFF : Word) = (BitVec.allOnes 16).setWidth 64 := rfl
  rw [hones, BitVec.getLsbD_shiftLeft, BitVec.getLsbD_setWidth, BitVec.getLsbD_allOnes]
  grind

theorem and_fieldMask (x : Word) (k : Nat) : x &&& (0xFFFF : Word) <<< k = ((x >>> k).setWidth 16).setWidth 64 <<< k := by
  refine BitVec.eq_of_getLsbD_eq fun i _ => ?_
  rw [BitVec.getLsbD_and, getLsbD_fieldMask]
  simp only [BitVec.getLsbD_shiftLeft, BitVec.getLsbD_setWidth, BitVec.getLsbD_ushiftRight]
  grind

theorem and_fieldMask_eq_ofInt (x : Word) (k : Nat) :
    x &&& (0xFFFF : Word) <<< k = BitVec.ofInt 64 (x.toNat / 2 ^ k % 2 ^ 16 * 2 ^ k) := by
  rw [and_fieldMask, zext_shl_eq_ofInt, BitVec.toNat_setWidth, BitVec.toNat_ushiftRight, Nat.shiftRight_eq_div_pow]
  push_cast
  rfl

theorem and_not_eq_sub_and (x m : Word) : x &&& ~~~m = x - (x &&& m) := by
  have hdisj : (x &&& ~~~m) &&& (x &&& m) = 0#64 := by
    ext i
    simp only [BitVec.getElem_and, BitVec.getElem_not, BitVec.getElem_zero]
    grind
  have hor : (x &&& ~~~m) ||| (x &&& m) = x := by
    ext i
    simp only [BitVec.getElem_and, BitVec.getElem_not, BitVec.getElem_or]
    grind
  rw [BitVec.eq_sub_iff_add_eq, BitVec.add_eq_or_of_and_eq_zero _ _ hdisj, hor]

theorem movk_eq_ofInt (x : Word) (y : BitVec 16) (k : Nat) :
    (x &&& ~~~((0xFFFF : Word) <<< k)) ||| (y.setWidth 64 <<< k) =
      BitVec.ofInt 64 (x.toNat - x.toNat / 2 ^ k % 2 ^ 16 * 2 ^ k + y.toNat * 2 ^ k) := by
  have hdisj : (x &&& ~~~((0xFFFF : Word) <<< k)) &&& y.setWidth 64 <<< k = 0#64 := by
    refine BitVec.eq_of_getLsbD_eq fun i _ => ?_
    rw [BitVec.getLsbD_and, BitVec.getLsbD_and, BitVec.getLsbD_not, getLsbD_fieldMask]
    simp only [BitVec.getLsbD_shiftLeft, BitVec.getLsbD_setWidth]
    grind
  rw [← BitVec.add_eq_or_of_and_eq_zero _ _ hdisj, and_not_eq_sub_and, and_fieldMask_eq_ofInt, zext_shl_eq_ofInt, BitVec.ofInt_add,
    ofInt_sub, ofInt_toNat]

/-! Counted bits and reversed bytes. -/

theorem bitLen_eq_size (n : Nat) : bitLen n = n.size := by
  obtain rfl | hn := eq_or_ne n 0
  · rfl
  · rw [bitLen, if_neg (by simpa using hn)]
    exact le_antisymm (Nat.lt_size.mpr (Nat.log2_self_le hn)) (Nat.size_le.mpr Nat.lt_log2_self)

theorem clzN_spec {w x : Nat} (hx : x < 2 ^ w) :
    clzN w x ≤ w ∧ x < 2 ^ (w - clzN w x) ∧ (clzN w x < w → 2 ^ (w - 1 - clzN w x) ≤ x) := by
  have hsize : x.size ≤ w := Nat.size_le.mpr hx
  have hclz : clzN w x = w - x.size := by rw [clzN, Nat.mod_eq_of_lt hx, bitLen_eq_size]
  refine ⟨by omega, ?_, fun _ => Nat.lt_size.mp (by omega)⟩
  rw [hclz, Nat.sub_sub_self hsize]
  exact x.lt_size_self

theorem ctzN_spec (n x : Nat) : ctzN n x ≤ n ∧ 2 ^ ctzN n x ∣ x ∧ (ctzN n x < n → ¬ 2 ^ (ctzN n x + 1) ∣ x) := by
  induction n generalizing x with
  | zero => simp [ctzN]
  | succ n ih =>
    obtain heven | hodd := Nat.mod_two_eq_zero_or_one x
    · obtain ⟨y, rfl⟩ := Nat.dvd_of_mod_eq_zero heven
      have hstep : ctzN (n + 1) (2 * y) = ctzN n y + 1 := by simp [ctzN, Nat.add_comm]
      obtain ⟨hle, hdvd, hmax⟩ := ih y
      have hdouble (k : Nat) : 2 ^ (k + 1) ∣ 2 * y ↔ 2 ^ k ∣ y := by rw [Nat.pow_succ', Nat.mul_dvd_mul_iff_left (by decide)]
      rw [hstep, hdouble, hdouble]
      exact ⟨by omega, hdvd, fun hlt => hmax (by omega)⟩
    · simp [ctzN, hodd, Nat.dvd_iff_mod_eq_zero]

theorem bitAt_eq_testBit (x i : Nat) : bitAt x i = x.testBit i := by
  rw [bitAt, Nat.testBit_eq_decide_div_mod_eq]
  rfl

theorem popN_eq_countP (n x : Nat) : popN n x = (List.range n).countP fun i => x.testBit i := by
  simp only [popN, bitAt_eq_testBit]

theorem popc_eq_ofInt (x : Nat) :
    BitVec.ofNat 64 (popN 64 x) = BitVec.ofInt 64 ((List.range 64).countP fun i => x.testBit i : Nat) := by
  rw [BitVec.ofInt_natCast, popN_eq_countP]

theorem leNat_concat (bs : Bytes) (b : Byte) : leNat (bs ++ [b]) = leNat bs + 256 ^ bs.length * b.toNat := by
  induction bs with
  | nil => simp [leNat]
  | cons c bs ih =>
    simp only [List.cons_append, List.length_cons, leNat, ih]
    ring

theorem leNat_reverse_toLE (n x : Nat) :
    leNat (toLE n x).reverse = ((List.range n).map fun i => x / 256 ^ i % 256 * 256 ^ (n - 1 - i)).sum := by
  induction n generalizing x with
  | zero => rfl
  | succ n ih =>
    have hshift (i : Nat) : x / 256 ^ (i + 1) % 256 * 256 ^ (n + 1 - 1 - (i + 1)) = x / 256 / 256 ^ i % 256 * 256 ^ (n - 1 - i) := by
      rw [Nat.div_div_eq_div_mul, ← Nat.pow_succ', show n + 1 - 1 - (i + 1) = n - 1 - i by omega]
    calc leNat (toLE (n + 1) x).reverse
        = leNat (toLE n (x / 256)).reverse + 256 ^ n * (x % 256) := by
          rw [toLE, List.reverse_cons, leNat_concat, List.length_reverse, length_toLE, BitVec.toNat_ofNat]
      _ = x % 256 * 256 ^ n + ((List.range n).map fun i => x / 256 / 256 ^ i % 256 * 256 ^ (n - 1 - i)).sum := by
          rw [ih, Nat.add_comm, Nat.mul_comm]
      _ = ((List.range (n + 1)).map fun i => x / 256 ^ i % 256 * 256 ^ (n + 1 - 1 - i)).sum := by
          simp [List.range_succ_eq_map, Function.comp_def, ← hshift]

theorem bswap_eq_ofInt (x : Nat) : BitVec.ofNat 64 (leNat (toLE 8 x).reverse) =
    BitVec.ofInt 64 (((List.range 8).map fun i => x / 256 ^ i % 256 * 256 ^ (7 - i)).sum : Nat) := by
  rw [BitVec.ofInt_natCast, leNat_reverse_toLE]

end Sys2Proof.Machine
end

