-- ==== Sys2Proof/Proofs/SparIntegers.lean ====
section
/-! SUPPORT. The integer instructions of a tile (R331, R332): each is one write of a general register. -/

namespace Sys2Proof.Machine

theorem Fetched.g_eq {s s' : State} {t : TileId} (h : Fetched s t s') : (s'.tiles[t]).g = (s.tiles[t]).g := by
  rw [h.sameCore t]

/-- An instruction whose meaning is a write of one general register, with the word it writes given as an integer modulo 2^64. -/
theorem Fetched.exec_sparG {s s' : State} {t : TileId} {d : Reg} {i : Instr} {f : Tile → Word} {z : Int} (h : Fetched s t s')
    (hi : exec i s = .next (s.sparG t d f)) (hf : f s'.tiles[t] = BitVec.ofInt 64 z) :
    exec i s = .next (s'.retires t fun c => c.setG d (BitVec.ofInt 64 z)) := by
  have hnext : s.sparG t d f = s'.retires t fun c => c.setG d (f c) := State.sparRegs_next h _ fun _ => ⟨rfl, rfl⟩
  rw [hi, hnext]
  exact congrArg _ (s'.retires_congr t _ _ (congrArg _ hf))

/-- Settles O10: each instruction writes one register, and the word it writes is the stated integer modulo 2^64. -/
theorem sparIntegerResults : Obligations.SparIntegerResults := by
  intro s s' t d a b imm sel h
  rw [← h.g_eq]
  intro A B D SA SB go
  have hmod (n : Nat) : n % 64 < 64 := Nat.mod_lt n (by decide)
  have hA : A < 2 ^ 64 := BitVec.isLt _
  obtain ⟨hclz, hclzHigh, hclzLow⟩ := clzN_spec hA
  obtain ⟨hctz, hctzDvd, hctzMax⟩ := ctzN_spec 64 A
  exact ⟨
    h.exec_sparG rfl (add_eq_ofInt _ _),
    h.exec_sparG rfl (sub_eq_ofInt _ _),
    h.exec_sparG rfl (eq_ofInt_of_toNat (BitVec.toNat_and _ _)),
    h.exec_sparG rfl (eq_ofInt_of_toNat (BitVec.toNat_or _ _)),
    h.exec_sparG rfl (eq_ofInt_of_toNat (BitVec.toNat_xor _ _)),
    h.exec_sparG rfl (andn_eq_ofInt _ _),
    h.exec_sparG rfl (shl_eq_ofInt _ _),
    h.exec_sparG rfl (shr_eq_ofInt _ _),
    h.exec_sparG rfl (sar_eq_ofInt _ _),
    h.exec_sparG rfl (ror_eq_ofInt _ (hmod _)),
    h.exec_sparG rfl (mul_eq_ofInt _ _),
    h.exec_sparG rfl (mulHigh_eq_ofInt _ _),
    h.exec_sparG rfl rfl,
    h.exec_sparG rfl (divuW_eq_ofInt _ _),
    h.exec_sparG rfl (divsW_eq_ofInt _ _),
    h.exec_sparG rfl (remuW_eq_ofInt _ _),
    h.exec_sparG rfl (remsW_eq_ofInt _ _),
    h.exec_sparG rfl (minu_eq_ofInt _ _),
    h.exec_sparG rfl (mins_eq_ofInt _ _),
    h.exec_sparG rfl (maxu_eq_ofInt _ _),
    h.exec_sparG rfl (maxs_eq_ofInt _ _),
    h.exec_sparG rfl (boolW_eq_ofInt (ult_iff _ _)),
    h.exec_sparG rfl (boolW_eq_ofInt (slt_iff _ _)),
    h.exec_sparG rfl (boolW_eq_ofInt (beq_iff_toNat _ _)),
    ⟨_, hclz, hclzHigh, hclzLow, h.exec_sparG rfl (BitVec.ofInt_natCast _ _).symm⟩,
    ⟨_, hctz, hctzDvd, hctzMax, h.exec_sparG rfl (BitVec.ofInt_natCast _ _).symm⟩,
    h.exec_sparG rfl (popc_eq_ofInt _),
    h.exec_sparG rfl (bswap_eq_ofInt _),
    h.exec_sparG rfl (add_sext_eq_ofInt _ _),
    h.exec_sparG rfl (and_zext_eq_ofInt _ _),
    h.exec_sparG rfl (or_zext_eq_ofInt _ _),
    h.exec_sparG rfl (xor_zext_eq_ofInt _ _),
    h.exec_sparG rfl (shl_eq_ofInt _ _),
    h.exec_sparG rfl (shr_eq_ofInt _ _),
    h.exec_sparG rfl (sar_eq_ofInt _ _),
    h.exec_sparG rfl (boolW_eq_ofInt (slt_sext_iff _ _)),
    h.exec_sparG rfl (boolW_eq_ofInt (ult_iff _ _)),
    h.exec_sparG rfl (zext_shl_eq_ofInt _ _),
    h.exec_sparG rfl (movk_eq_ofInt _ _ _)⟩

end Sys2Proof.Machine
end

