-- ==== Sys2Proof/Proofs/TileExceptions.lean ====
section
/-! SUPPORT. Entry to the tile monitor and return from it (R336, R338): the frame of 32 bytes in scratch, the four cases of taking
an exception, and RTM. -/

namespace Sys2Proof.Machine

theorem Tile.pushBad_iff (c : Tile) : c.pushBad = true ↔ ¬ c.pushGood := by
  simp only [Tile.pushBad, Tile.pushGood, Bool.or_eq_true, bne_iff_ne, decide_eq_true_eq]
  omega

/-! The frame in scratch. Scratch repeats every 256 KiB (R325); bytes that do not cross such a bound lie there as in a memory. -/

theorem Tile.scratchPut_eq (c : Tile) (a : Nat) (bs : Bytes) : c.scratchPut a bs = { c with scratch := (c.scratchPut a bs).scratch } := by
  induction bs generalizing c a with
  | nil => rfl
  | cons b bs ih => exact ih _ (a + 1)

theorem Tile.scratchPut_scratch (c : Tile) {a : Nat} {bs : Bytes} (ha : scratchBase ≤ a)
    (hfit : (a - scratchBase) % 0x40000 + bs.length ≤ 0x40000) :
    (c.scratchPut a bs).scratch = memPutBytes c.scratch ((a - scratchBase) % 0x40000) bs := by
  induction bs generalizing c a with
  | nil => rfl
  | cons b bs ih =>
    obtain rfl | hne := eq_or_ne bs []
    · rfl
    have hpos := List.length_pos_iff.mpr hne
    rw [List.length_cons] at hfit
    have hnext : (a + 1 - scratchBase) % 0x40000 = (a - scratchBase) % 0x40000 + 1 := by omega
    rw [Tile.scratchPut, ih _ (by omega) (by omega), hnext]
    rfl

theorem Tile.scratchGet_eq_memBytes (c : Tile) {a n : Nat} (ha : scratchBase ≤ a)
    (hfit : (a - scratchBase) % 0x40000 + n ≤ 0x40000) :
    c.scratchGet a n = memBytes c.scratch ((a - scratchBase) % 0x40000) n := by
  refine List.map_congr_left fun i hi => congrArg _ ?_
  have hlt := List.mem_range.mp hi
  omega

theorem memBytes_memPutBytes {m : List Host.Cell} (a : Nat) (bs : Bytes) (h : Memory.wf m = true) :
    memBytes (memPutBytes m a bs) a bs.length = bs := by
  refine List.ext_getElem (by simp [memBytes]) fun i _ hi => ?_
  simp [memBytes, memByte_memPutBytes _ _ _ h, hi]

/-- The frame of an exception (R338). -/
def Tile.frame (c : Tile) (pc : Word) (cause value : Nat) : Bytes := toLE 8 pc.toNat ++ toLE 8 c.st ++ toLE 8 cause ++ toLE 8 value

theorem Tile.length_frame (c : Tile) (pc : Word) (cause value : Nat) : (c.frame pc cause value).length = 32 := by
  simp [Tile.frame]

/-- MSP is a multiple of 32, so the frame below it does not cross a bound of 256 KiB. -/
theorem Tile.frame_fits {c : Tile} (h : c.pushGood) :
    scratchBase ≤ c.msp.toNat - 32 ∧ (c.msp.toNat - 32 - scratchBase) % 0x40000 + 32 ≤ 0x40000 := by
  obtain ⟨halign, hlow, -, -⟩ := h
  unfold scratchBase at hlow ⊢
  omega

theorem Tile.enters_enter {c : Tile} (hwf : Memory.wf c.scratch = true) (hgood : c.pushGood) (pc : Word) (cause value : Nat) :
    c.enters (c.enter pc cause value) pc cause value := by
  have hlen := c.length_frame pc cause value
  obtain ⟨hbase, hfit⟩ := Tile.frame_fits hgood
  have hscratch : (c.enter pc cause value).scratch =
      memPutBytes c.scratch ((c.msp.toNat - 32 - scratchBase) % 0x40000) (c.frame pc cause value) :=
    c.scratchPut_scratch hbase (hlen ▸ hfit)
  refine ⟨?_, ?_, fun o _ ho => ?_⟩
  · have hmsp : BitVec.ofNat 64 (c.msp.toNat - 32) = c.msp - 32 := by
      obtain ⟨-, hlow, -, -⟩ := hgood
      bv_omega
    rw [← hmsp, Tile.enter, Tile.scratchPut_eq]
  · rw [Tile.scratchGet_eq_memBytes _ hbase hfit, hscratch, ← hlen, memBytes_memPutBytes _ _ hwf, Tile.frame]
  · rw [hscratch, memByte_memPutBytes _ _ _ hwf, hlen, if_neg ho]

/-! Taking an exception. -/

theorem State.modTile_const (s : State) (t : TileId) (f : Tile → Tile) : s.modTile t f = s.modTile t fun _ => f s.tiles[t] :=
  s.modTile_congr t _ _ rfl

/-- R338 in the terms of the statements. -/
theorem State.takeException_eq (s : State) (t : TileId) (cause value : Nat) (pc : Word) :
    s.takeException t cause value pc =
      if ¬ (s.tiles[t]).pushGood then s.stall t cause pc 0x7001
      else if (s.tiles[t]).msl.toNat + 32 ≤ (s.tiles[t]).msp.toNat then s.modTile t fun _ => (s.tiles[t]).enter pc cause value
      else if (s.tiles[t]).msp = (s.tiles[t]).msl then s.modTile t fun _ => (s.tiles[t]).enter pc 0x70020009 cause
      else s.stall t cause pc 0x7002 := by
  simp only [State.takeException, Tile.pushBad_iff, beq_iff_eq, s.modTile_const t fun c => c.enter _ _ _]
  rfl

/-- Settles O14: where the model enters the monitor, the frame stands below MSP as R338 says. -/
theorem exceptionEntry : Obligations.ExceptionEntry := by
  intro s t cause value pc hs c
  have hwf : Memory.wf c.scratch = true := hs.2 t
  rw [State.takeException_eq]
  split_ifs with hgood hroom hlast
  · exact ⟨_, Tile.enters_enter hwf hgood pc cause value, rfl⟩
  · exact ⟨_, Tile.enters_enter hwf hgood pc 0x70020009 cause, rfl⟩
  · rfl
  · rfl

/-! RTM. -/

/-- A legal instruction that the tile's mode permits has its effect. -/
theorem Fetched.sparWord_eq {s s' : State} {t : TileId} (h : Fetched s t s') {monitor : Bool}
    (hmode : monitor = true → (s.tiles[t]).pl = true) (word : Nat) (body : State → SOut) :
    s.sparWord t word true monitor body = (body s').retire t (s.tiles[t]).pc.toNat := by
  have hpl : (s'.tiles[t]).pl = (s.tiles[t]).pl := by rw [h.sameCore t]
  have hpriv : (monitor && !(s'.tiles[t]).pl) = false := by
    cases monitor with
    | false => rfl
    | true => rw [hpl, hmode rfl]; rfl
  rw [State.sparWord, h.1, h.2]
  exact if_neg (ne_true_of_eq_false hpriv)

theorem Tile.sameCore.msp_eq {c e : Tile} (h : c.sameCore e) : e.msp = c.msp := by rw [h]

theorem Tile.sameCore.pushBad_eq {c e : Tile} (h : c.sameCore e) : e.pushBad = c.pushBad := by rw [h]; rfl

theorem Tile.sameCore.scratchGet_eq {c e : Tile} (h : c.sameCore e) (a n : Nat) : e.scratchGet a n = c.scratchGet a n := by
  rw [h]; rfl

theorem Fetched.exec_rtm {s s' : State} {t : TileId} (h : Fetched s t s') (hpl : (s.tiles[t]).pl = true) :
    exec (.rtm t) s = .next
      (if (s.tiles[t]).pushGood then s'.modTile t Tile.leave else s'.stall t 0x7001000A (s.tiles[t]).pc 0x7001) := by
  have hcore := h.sameCore t
  have hpc : (s'.tiles[t]).pc = (s.tiles[t]).pc := by rw [hcore]
  refine congrArg Host.Outcome.next ((h.sparWord_eq (fun _ => hpl) (wordS 1 0 0) _).trans ?_)
  dsimp only
  rw [hcore.pushBad_eq, hpc]
  by_cases hgood : (s.tiles[t]).pushGood
  · rw [if_neg (mt (Tile.pushBad_iff _).mp (not_not.mpr hgood)), if_pos hgood]; rfl
  · rw [if_pos ((Tile.pushBad_iff _).mpr hgood), if_neg hgood]; rfl

theorem Tile.leave_eq (c : Tile) :
    let st := leNat (c.scratchGet (c.msp.toNat + 8) 8)
    c.leave = { c with pc := pcWord (leNat (c.scratchGet c.msp.toNat 8)), im := bitAt st 0, pl := bitAt st 1, vx := bitAt st 2,
                       fx := BitVec.ofNat 5 (st / 8), msp := c.msp + 32, state := if bitAt st 1 then .monitor else .bundle } := by
  have hmsp : BitVec.ofNat 64 (c.msp.toNat + 32) = c.msp + 32 := by bv_omega
  rw [← hmsp]
  rfl

/-- Settles O16: the fetch keeps MSP and scratch, so RTM reads the frame that stood there. -/
theorem rtmRestores : Obligations.RtmRestores := by
  intro s s' t h hpl m st
  have hcore := h.sameCore t
  rw [h.exec_rtm hpl]
  refine ⟨fun hgood => ?_, fun hbad => by rw [if_neg hbad]⟩
  rw [if_pos hgood]
  refine congrArg _ (s'.modTile_congr t _ _ ?_)
  rw [Tile.leave_eq, hcore.msp_eq, hcore.scratchGet_eq, hcore.scratchGet_eq]

end Sys2Proof.Machine
end

