-- ==== Sys2Proof/Proofs/ThatchSlices.lean ====
section
/-! SUPPORT. Writes of ENABLE and POWER of a Thatch slice (R393, R394): what the model does in each case where it acts. -/

namespace Sys2Proof.Machine

theorem Slice.anyDirty_iff (c : Slice) : c.anyDirty = true ↔ ∃ p ∈ c.lines, p.2.dirty0 = true ∨ p.2.dirty1 = true := by
  simp only [Slice.anyDirty, List.any_eq_true, Bool.or_eq_true]

theorem Slice.anyDirty_eq_false_iff (c : Slice) :
    c.anyDirty = false ↔ ∀ p ∈ c.lines, p.2.dirty0 = false ∧ p.2.dirty1 = false := by
  simp only [Slice.anyDirty, List.any_eq_false, Bool.or_eq_true, not_or, Bool.not_eq_true]

section
variable {s : State} {i : Fin 16} (hacts : s.ridgeActs = true)
include hacts

theorem State.sliceEnable_on (hpow : (s.thatch.slices[i]).powered = true) :
    s.sliceEnable i true = s.modSlice i fun c => { c with enabled := true } := by
  simp only [State.sliceEnable, hacts, hpow, Bool.not_true, Bool.false_eq_true, reduceIte]

theorem State.sliceEnable_off (hen : (s.thatch.slices[i]).enabled = true) :
    s.sliceEnable i false =
      if ((s.thatch.slices[i]).anyDirty || s.thBusyIn (2 ^ i.val)) = true then s.modSlice i fun c => { c with disableRefused := true }
      else s.modSlice i fun c => { c with enabled := false } := by
  simp only [State.sliceEnable, hacts, hen, Bool.not_true, Bool.false_eq_true, reduceIte]

theorem State.slicePower_on (hpow : (s.thatch.slices[i]).powered = false) (hfused : (s.thatch.slices[i]).fused = false) :
    s.slicePower i true = s.modSlice i fun c => { c with powering := true } := by
  simp only [State.slicePower, hacts, hpow, hfused, Bool.not_true, Bool.or_false, Bool.false_eq_true, reduceIte]

theorem State.slicePower_off :
    s.slicePower i false =
      if (s.thatch.slices[i]).enabled = true then s
      else s.modSlice i fun c => { c with powered := false, powering := false, lines := [], plru := [] } := by
  simp only [State.slicePower, hacts, Bool.not_true, Bool.false_eq_true, reduceIte]

theorem State.sliceEnable_off_of_free (hen : (s.thatch.slices[i]).enabled = true)
    (hclean : ∀ p ∈ (s.thatch.slices[i]).lines, p.2.dirty0 = false ∧ p.2.dirty1 = false)
    (hidle : s.thBusyIn (2 ^ i.val) = false) :
    s.sliceEnable i false = s.modSlice i fun c => { c with enabled := false } := by
  rw [State.sliceEnable_off hacts hen, (Slice.anyDirty_eq_false_iff _).mpr hclean, hidle]
  rfl

theorem State.sliceEnable_off_of_in_use (hen : (s.thatch.slices[i]).enabled = true)
    (huse : (∃ p ∈ (s.thatch.slices[i]).lines, p.2.dirty0 = true ∨ p.2.dirty1 = true) ∨ s.thBusyIn (2 ^ i.val) = true) :
    s.sliceEnable i false = s.modSlice i fun c => { c with disableRefused := true } := by
  rw [← Slice.anyDirty_iff, ← Bool.or_eq_true] at huse
  rw [State.sliceEnable_off hacts hen, if_pos huse]

end

/-- Settles O21: a write of 0 to ENABLE turns on whether the slice is in use, a write of 0 to POWER on whether it is enabled. -/
theorem sliceEnableAndPower : Obligations.SliceEnableAndPower := by
  intro s i hacts c gives
  refine ⟨fun hpow => ?enable, fun hen hclean hidle => ?disable, fun hen huse => ?refuse, fun hen => ?powerOff, fun hen => ?ignore,
    fun hpow hfused => ?powerOn, fun hpowering => ?powerOnDone⟩
  case enable => exact congrArg _ (State.sliceEnable_on hacts hpow)
  case disable => exact congrArg _ (State.sliceEnable_off_of_free hacts hen hclean hidle)
  case refuse => exact congrArg _ (State.sliceEnable_off_of_in_use hacts hen huse)
  case powerOff => exact congrArg _ ((State.slicePower_off hacts).trans (if_neg (ne_true_of_eq_false hen)))
  case ignore => exact congrArg _ ((State.slicePower_off hacts).trans (if_pos hen))
  case powerOn => exact congrArg _ (State.slicePower_on hacts hpow hfused)
  case powerOnDone => exact congrArg _ (if_pos hpowering)

end Sys2Proof.Machine
end

