-- ==== Sys2Proof/Proofs/StepForm.lean ====
section
/-! SUPPORT. The form of a step and the values of reset. -/

namespace Sys2Proof.Machine

set_option Elab.async false

theorem step_cons {s : State} {c : Instr} {rest : List Instr} (h : s.pending = c :: rest) : step s = exec c { s with pending := rest } := by
  rw [step, h]

theorem step_nil {s : State} (h : s.pending = []) : step s = .next (s.modTime TimeSt.cycle) := by rw [step, h]

/-- Settles O1: the second equation of `step`. -/
theorem stepRunsFrontCommand : Obligations.StepRunsFrontCommand := fun _ _ _ h => step_cons h

/-- Every arm of the dispatch is an answer `.next`. -/
theorem exec_next (c : Instr) (s : State) : ∃ t, exec c s = .next t := by
  cases c <;> exact ⟨_, rfl⟩

/-- Settles O2: the first equation of `step`, and that every arm of the dispatch answers a next state. -/
theorem emptyQueueAndNoStop : Obligations.EmptyQueueAndNoStop := ⟨fun _ h => step_nil h, exec_next⟩

theorem State.reset_sound : State.reset.sound := by
  refine ⟨reset_mem_wf, fun t => ?_⟩
  simp [State.reset, Tile.reset]

/-- Settles O5: the reset values are those of the records' own reset values. -/
theorem resetValues : Obligations.ResetValues := by
  refine ⟨State.reset_sound, rfl, rfl, rfl, fun t => ?_, fun f => ?_, fun c => ?_⟩
  · simp [State.reset, Tile.reset, Tile.st]
  · simp [State.reset, HostSt.reset, HFunc.reset, InstRegs.reset]
  · simp [Tile.hardReset, Tile.reset, Tile.st]

end Sys2Proof.Machine
end

