-- ==== Sys2Proof/Proofs/Kept.lean ====
section
/-! SUPPORT. What every command keeps: the queue behind it, and the canonical form of the memories. The updates of the records keep it. -/

namespace Sys2Proof.Machine

set_option Elab.async false

/-- What a step is to keep: the queue behind its command, and the canonical form of the memories where they had it (`sound`). -/
structure Keeping where
  queue : List Instr
  sound : Prop

/-- The state has the queue of `q`, and its memories are in canonical form where `q` says that they were. -/
def State.Kept (q : Keeping) (s : State) : Prop := s.pending = q.queue ∧ (q.sound → s.sound)

/-- The state of what an instruction came to is sound, with the queue q. -/
def SOut.Kept (q : Keeping) : SOut → Prop
  | .next s _ => s.Kept q
  | .goto s _ => s.Kept q
  | .hold s _ => s.Kept q
  | .fault s _ => s.Kept q

/-- The state after a granule of a stream is sound, with the queue q. -/
def Granule.Kept (q : Keeping) : Granule → Prop
  | .more s => s.Kept q
  | .done s => s.Kept q
  | .fault s _ => s.Kept q

/-- The state of an evaluation is sound, with the queue q. -/
def QAcc.Kept (q : Keeping) (a : QAcc) : Prop := a.s.Kept q

variable {q : Keeping} {s : State}

theorem State.Kept.of_eq {s' : State} (h : s.Kept q) (hp : s'.pending = s.pending) (hm : s'.mem = s.mem) (ht : s'.tiles = s.tiles) :
    s'.Kept q := by
  obtain ⟨hq, hsound⟩ := h
  refine ⟨hp.trans hq, fun hs => ⟨?_, fun t => ?_⟩⟩
  · rw [hm]; exact (hsound hs).1
  · rw [ht]; exact (hsound hs).2 t

theorem State.Kept.branch {c : Prop} [Decidable c] {a b : State} (ha : a.Kept q) (hb : b.Kept q) : (if c then a else b).Kept q := by
  split
  · exact ha
  · exact hb

theorem State.Kept.branch_snd {α : Type} {c : Prop} [Decidable c] {a b : α × State} (ha : a.2.Kept q) (hb : b.2.Kept q) :
    (if c then a else b).2.Kept q := by
  split
  · exact ha
  · exact hb

theorem State.Kept.branch_fst {α : Type} {c : Prop} [Decidable c] {a b : State × α} (ha : a.1.Kept q) (hb : b.1.Kept q) :
    (if c then a else b).1.Kept q := by
  split
  · exact ha
  · exact hb

theorem State.Kept.branch_snd_snd {α β : Type} {c : Prop} [Decidable c] {a b : α × β × State} (ha : a.2.2.Kept q) (hb : b.2.2.Kept q) :
    (if c then a else b).2.2.Kept q := by
  split
  · exact ha
  · exact hb

theorem State.Kept.foldl {α : Type} {f : State → α → State} {l : List α} (hf : ∀ s a, State.Kept q s → (f s a).Kept q) (h : s.Kept q) :
    (l.foldl f s).Kept q := by
  induction l generalizing s with
  | nil => exact h
  | cons a l ih => exact ih (hf s a h)

theorem State.Kept.foldl_snd {α β : Type} {f : β × State → α → β × State} {l : List α} {p : β × State}
    (hf : ∀ p a, State.Kept q p.2 → (f p a).2.Kept q) (h : p.2.Kept q) : (l.foldl f p).2.Kept q := by
  induction l generalizing p with
  | nil => exact h
  | cons a l ih => exact ih (hf p a h)

theorem State.Kept.foldl_snd_snd {α β γ : Type} {f : β × γ × State → α → β × γ × State} {l : List α} {p : β × γ × State}
    (hf : ∀ p a, State.Kept q p.2.2 → (f p a).2.2.Kept q) (h : p.2.2.Kept q) : (l.foldl f p).2.2.Kept q := by
  induction l generalizing p with
  | nil => exact h
  | cons a l ih => exact ih (hf p a h)

theorem State.Kept.foldl_fst {α β : Type} {f : State × β → α → State × β} {l : List α} {p : State × β}
    (hf : ∀ p a, State.Kept q p.1 → (f p a).1.Kept q) (h : p.1.Kept q) : (l.foldl f p).1.Kept q := by
  induction l generalizing p with
  | nil => exact h
  | cons a l ih => exact ih (hf p a h)

theorem State.Kept.modTime (h : s.Kept q) {f} : (s.modTime f).Kept q := h

theorem State.Kept.modErr (h : s.Kept q) {f} : (s.modErr f).Kept q := h

theorem State.Kept.modDict (h : s.Kept q) {f} : (s.modDict f).Kept q := h

theorem State.Kept.modTables (h : s.Kept q) {f} : (s.modTables f).Kept q := h

theorem State.Kept.modIngest (h : s.Kept q) {f} : (s.modIngest f).Kept q := h

theorem State.Kept.modPlans (h : s.Kept q) {f} : (s.modPlans f).Kept q := h

theorem State.Kept.modPurlin (h : s.Kept q) {f} : (s.modPurlin f).Kept q := h

theorem State.Kept.modBatten (h : s.Kept q) {f} : (s.modBatten f).Kept q := h

theorem State.Kept.modThatch (h : s.Kept q) {f} : (s.modThatch f).Kept q := h

theorem State.Kept.modDram (h : s.Kept q) {f} : (s.modDram f).Kept q := h

theorem State.Kept.modGutter (h : s.Kept q) {f} : (s.modGutter f).Kept q := h

theorem State.Kept.modYelm (h : s.Kept q) {f} : (s.modYelm f).Kept q := h

theorem State.Kept.modFlash (h : s.Kept q) {f} : (s.modFlash f).Kept q := h

theorem State.Kept.modHost (h : s.Kept q) {f} : (s.modHost f).Kept q := h

theorem State.Kept.modInsts (h : s.Kept q) {f} : (s.modInsts f).Kept q := h

theorem State.Kept.modFinial (h : s.Kept q) {f} : (s.modFinial f).Kept q := h

theorem State.Kept.modBoot (h : s.Kept q) {f} : (s.modBoot f).Kept q := h

theorem State.Kept.modPower (h : s.Kept q) {f} : (s.modPower f).Kept q := h

theorem State.Kept.modOuts (h : s.Kept q) {f} : (s.modOuts f).Kept q := h

theorem State.Kept.modFreeCtr (h : s.Kept q) {f} : (s.modFreeCtr f).Kept q := h

theorem State.Kept.modMem (h : s.Kept q) {f : List Host.Cell → List Host.Cell} (hf : ∀ m, Memory.wf m = true → Memory.wf (f m) = true) :
    (s.modMem f).Kept q := ⟨h.1, fun hs => ⟨hf _ (h.2 hs).1, (h.2 hs).2⟩⟩

theorem State.Kept.modTiles (h : s.Kept q) {f : Vector Tile 64 → Vector Tile 64}
    (hf : ∀ v : Vector Tile 64, (∀ t : TileId, Memory.wf (v[t]).scratch = true) → ∀ t : TileId, Memory.wf ((f v)[t]).scratch = true) :
    (s.modTiles f).Kept q := ⟨h.1, fun hs => ⟨(h.2 hs).1, hf _ (h.2 hs).2⟩⟩

theorem State.Kept.modTile_wf (h : s.Kept q) {t : TileId} {f : Tile → Tile}
    (hf : Memory.wf (s.tiles[t]).scratch = true → Memory.wf (f s.tiles[t]).scratch = true) : (s.modTile t f).Kept q := by
  refine ⟨h.1, fun hs => ⟨(h.2 hs).1, fun u => ?_⟩⟩
  obtain rfl | hu := eq_or_ne u t
  · rw [State.modTile_at]; exact hf ((h.2 hs).2 u)
  · rw [State.modTile_other _ _ _ _ hu]; exact (h.2 hs).2 u

theorem State.Kept.modTile (h : s.Kept q) {t : TileId} {f : Tile → Tile} (hf : ∀ c, (f c).scratch = c.scratch) : (s.modTile t f).Kept q :=
  h.modTile_wf fun hwf => by rwa [hf]

end Sys2Proof.Machine
end

