-- ==== Sys2Proof/Proofs/KeptRecords.lean ====
section
/-! SUPPORT. Functions that change one record, or a few, keep the queue and the canonical form, in the order in which they call one another. -/

namespace Sys2Proof.Machine

set_option Elab.async false

variable {q : Keeping} {s : State}

theorem State.Kept.takeSeq (h : s.Kept q) {src n} : (State.takeSeq s src n).2.Kept q := by
  unfold State.takeSeq
  grind [← Kept.modTime]

theorem State.Kept.stampAt (h : s.Kept q) {src ts} : (State.stampAt s src ts).2.Kept q := by
  unfold State.stampAt
  grind [← Kept.takeSeq, ← Kept.modTime]

theorem State.Kept.advanceTo (h : s.Kept q) {due} : (State.advanceTo s due).Kept q := by
  unfold State.advanceTo
  grind [← Kept.modTime]

theorem State.Kept.stamp (h : s.Kept q) {src} : (State.stamp s src).2.Kept q := by
  unfold State.stamp
  grind [← Kept.stampAt, ← Kept.advanceTo]

theorem State.Kept.traceTrigger (h : s.Kept q) {r} : (State.traceTrigger s r).Kept q := by
  unfold State.traceTrigger
  grind [← Kept.modErr]

theorem State.Kept.modFunc (h : s.Kept q) {x f} : (State.modFunc s x f).Kept q := by
  unfold State.modFunc
  grind [← Kept.modHost]

theorem State.Kept.emit (h : s.Kept q) {o} : (State.emit s o).Kept q := by
  unfold State.emit
  grind [← Kept.modOuts]

theorem State.Kept.sendVector (h : s.Kept q) {f v} : (State.sendVector s f v).Kept q := by
  unfold State.sendVector
  grind [← Kept.modFunc, ← Kept.emit]

theorem State.Kept.raiseCause (h : s.Kept q) {f bit v} : (State.raiseCause s f bit v).Kept q := by
  unfold State.raiseCause
  grind [← Kept.modFunc, ← Kept.sendVector]

theorem State.Kept.eventCause (h : s.Kept q) {f bit} : (State.eventCause s f bit).Kept q := by
  unfold State.eventCause
  grind [← Kept.raiseCause]

theorem State.Kept.raise (h : s.Kept q) {src r} : (State.raise s src r).Kept q := by
  unfold State.raise
  grind [← Kept.modErr, ← Kept.stamp, ← Kept.traceTrigger, ← Kept.eventCause]

theorem State.Kept.portRecord (h : s.Kept q) {p code sev f} : (State.portRecord s p code sev f).Kept q := by
  unfold State.portRecord
  grind [← Kept.raise]

theorem State.Kept.modPort (h : s.Kept q) {p f} : (State.modPort s p f).Kept q := by
  unfold State.modPort
  grind [← Kept.modHost]

theorem State.Kept.portCount (h : s.Kept q) {p g} : (State.portCount s p g).Kept q := by
  unfold State.portCount
  grind [← Kept.modPort]

theorem State.Kept.quarantine (h : s.Kept q) {p which} : (State.quarantine s p which).Kept q := by
  unfold State.quarantine
  grind [← Kept.modPort]

theorem State.Kept.bump (h : s.Kept q) {index sub n} : (State.bump s index sub n).Kept q := by
  unfold State.bump
  grind [← Kept.modDict]

theorem State.Kept.modChan (h : s.Kept q) {c f} : (State.modChan s c f).Kept q := by
  unfold State.modChan
  grind [← Kept.modGutter]

theorem State.Kept.chanStop (h : s.Kept q) {c code} : (State.chanStop s c code).Kept q := by
  unfold State.chanStop
  grind [← Kept.modPort, ← Kept.raise, ← Kept.bump, ← Kept.modChan, ← Kept.foldl, ← Kept.foldl_snd, ← Kept.foldl_fst]

theorem State.Kept.stopFuncChans (h : s.Kept q) {p code} : (State.stopFuncChans s p code).Kept q := by
  unfold State.stopFuncChans
  grind [← Kept.chanStop, ← Kept.foldl, ← Kept.foldl_snd, ← Kept.foldl_fst]

theorem State.Kept.modInst (h : s.Kept q) {i f} : (State.modInst s i f).Kept q := by
  unfold State.modInst
  grind [← Kept.modInsts]

theorem State.Kept.journalWith (h : s.Kept q) {kind stamp payload snapshot} : (State.journalWith s kind stamp payload snapshot).Kept q := by
  unfold State.journalWith
  grind [← Kept.modFinial]

theorem State.Kept.journal (h : s.Kept q) {kind stamp payload} : (State.journal s kind stamp payload).Kept q := by
  unfold State.journal
  grind [← Kept.journalWith]

theorem State.Kept.completeWith (h : s.Kept q) {i r status nailed result resultAddr} : (State.completeWith s i r status nailed result resultAddr).Kept q := by
  unfold State.completeWith
  grind [← Kept.stamp, ← Kept.modInst, ← Kept.modIngest, ← Kept.journal]

theorem State.Kept.complete (h : s.Kept q) {i r status} : (State.complete s i r status).Kept q := by
  unfold State.complete
  grind [← Kept.completeWith]

theorem State.Kept.endReads (h : s.Kept q) {i code} : (State.endReads s i code).Kept q := by
  unfold State.endReads
  grind [← Kept.complete, ← Kept.foldl, ← Kept.foldl_snd, ← Kept.foldl_fst]

theorem State.Kept.lostHost (h : s.Kept q) {f code} : (State.lostHost s f code).Kept q := by
  unfold State.lostHost
  grind [← Kept.stopFuncChans, ← Kept.endReads]

theorem State.Kept.freezeCause (h : s.Kept q) {p} : (State.freezeCause s p).Kept q := by
  unfold State.freezeCause
  grind [← Kept.eventCause, ← Kept.foldl, ← Kept.foldl_snd, ← Kept.foldl_fst]

theorem State.Kept.storeWrite (h : s.Kept q) {key v} : (State.storeWrite s key v).Kept q := by
  unfold State.storeWrite
  grind [← Kept.modDict, ← Kept.modBoot]

theorem State.Kept.persistInst (h : s.Kept q) {i} : (State.persistInst s i).Kept q := by
  unfold State.persistInst
  grind [← Kept.storeWrite]

theorem State.Kept.unbindNow (h : s.Kept q) {i} : (State.unbindNow s i).Kept q := by
  unfold State.unbindNow
  grind [← Kept.modInst, ← Kept.modFunc, ← Kept.persistInst, ← Kept.eventCause]

theorem State.Kept.instDrained (h : s.Kept q) {i} : (State.instDrained s i).Kept q := by
  unfold State.instDrained
  grind [← Kept.unbindNow, ← Kept.modInst]

theorem State.Kept.settleFreezing (h : s.Kept q) {p} : (State.settleFreezing s p).Kept q := by
  unfold State.settleFreezing
  grind [← Kept.instDrained, ← Kept.foldl, ← Kept.foldl_snd, ← Kept.foldl_fst]

theorem State.Kept.freezePort (h : s.Kept q) {p cause} : (State.freezePort s p cause).Kept q := by
  unfold State.freezePort
  dsimp only
  refine Kept.branch h.modPort (Kept.portRecord (Kept.freezeCause (Kept.settleFreezing (Kept.foldl (fun _ _ hs => hs.lostHost) ?_))))
  exact h.modPort.stamp.modPort.portCount.quarantine

theorem State.Kept.aerLog (h : s.Kept q) {f bit} : (State.aerLog s f bit).Kept q := by
  unfold State.aerLog
  grind [← Kept.modFunc, ← Kept.portCount, ← Kept.freezePort]

theorem State.Kept.unsupported (h : s.Kept q) {f} : (State.unsupported s f).Kept q := by
  unfold State.unsupported
  grind [← Kept.portRecord, ← Kept.aerLog, ← Kept.emit]

theorem State.Kept.modRegs (h : s.Kept q) {f g} : (State.modRegs s f g).Kept q := by
  unfold State.modRegs
  grind [← Kept.modFunc]

theorem State.Kept.taskReg (h : s.Kept q) {f g} : (State.taskReg s f g).Kept q := by
  unfold State.taskReg
  grind [← Kept.modRegs, ← Kept.modInst]

theorem State.Kept.cmplReg (h : s.Kept q) {f g} : (State.cmplReg s f g).Kept q := by
  unfold State.cmplReg
  grind [← Kept.modRegs]

theorem State.Kept.cmplCfg (h : s.Kept q) {f off data} : (State.cmplCfg s f off data).Kept q := by
  unfold State.cmplCfg
  grind [← Kept.modRegs]

theorem State.Kept.deepestWrite (h : s.Kept q) {f off data} : (State.deepestWrite s f off data).Kept q := by
  unfold State.deepestWrite
  grind [← Kept.modRegs, ← Kept.modInst]

theorem State.Kept.taskBlock (h : s.Kept q) {f off data} : (State.taskBlock s f off data).Kept q := by
  unfold State.taskBlock
  grind [← Kept.taskReg, ← Kept.cmplReg, ← Kept.cmplCfg, ← Kept.modRegs, ← Kept.deepestWrite]

theorem State.Kept.intBlock (h : s.Kept q) {f off data} : (State.intBlock s f off data).Kept q := by
  unfold State.intBlock
  grind [← Kept.modRegs]

theorem State.Kept.flushPending (h : s.Kept q) {f} : (State.flushPending s f).Kept q := by
  unfold State.flushPending
  grind [← Kept.sendVector, ← Kept.modFunc, ← Kept.foldl, ← Kept.foldl_snd, ← Kept.foldl_fst]

theorem State.Kept.msixWrite (h : s.Kept q) {f off data} : (State.msixWrite s f off data).Kept q := by
  unfold State.msixWrite
  grind [← Kept.flushPending, ← Kept.modFunc]

theorem State.Kept.modWindow (h : s.Kept q) {f g} : (State.modWindow s f g).Kept q := by
  unfold State.modWindow
  grind [← Kept.modDict]

theorem State.Kept.dwReq (h : s.Kept q) {f v} : (State.dwReq s f v).Kept q := by
  unfold State.dwReq
  grind [← Kept.modWindow]

theorem State.Kept.windowEnd (h : s.Kept q) {f stamp status data} : (State.windowEnd s f stamp status data).Kept q := by
  unfold State.windowEnd
  grind [← Kept.modDict]

theorem State.Kept.plynReply (h : s.Kept q) {r} : (State.plynReply s r).Kept q := by
  unfold State.plynReply
  grind [← Kept.modDict]

theorem State.Kept.dictReply (h : s.Kept q) {w status} : (State.dictReply s w status).Kept q := by
  unfold State.dictReply
  grind [← Kept.windowEnd, ← Kept.plynReply]

theorem State.Kept.modSlice (h : s.Kept q) {i f} : (State.modSlice s i f).Kept q := by
  unfold State.modSlice
  grind [← Kept.modThatch]

theorem State.Kept.storeByte (h : s.Kept q) {a b} : (State.storeByte s a b).Kept q := by
  unfold State.storeByte
  split
  · exact h
  · exact h.modMem fun _ hm => memPut_wf a b hm

theorem State.Kept.storeBytes (h : s.Kept q) {a bs} : (State.storeBytes s a bs).Kept q := by
  unfold State.storeBytes
  grind [← Kept.storeByte, ← Kept.modDram, ← Kept.foldl, ← Kept.foldl_snd, ← Kept.foldl_fst]

theorem State.Kept.modMemChan (h : s.Kept q) {m f} : (State.modMemChan s m f).Kept q := by
  unfold State.modMemChan
  grind [← Kept.modDram]

theorem State.Kept.drainChan (h : s.Kept q) {m which k} : (State.drainChan s m which k).Kept q := by
  unfold State.drainChan
  grind [← Kept.modMemChan, ← Kept.storeBytes, ← Kept.foldl, ← Kept.foldl_snd, ← Kept.foldl_fst]

theorem State.Kept.drainAll (h : s.Kept q) : (State.drainAll s).Kept q := by
  unfold State.drainAll
  grind [← Kept.drainChan, ← Kept.foldl, ← Kept.foldl_snd, ← Kept.foldl_fst]

theorem State.Kept.dramWrite (h : s.Kept q) {a bs} : (State.dramWrite s a bs).Kept q := by
  unfold State.dramWrite
  grind [← Kept.storeBytes, ← Kept.drainAll]

theorem State.Kept.thThrough (h : s.Kept q) {a bs} : (State.thThrough s a bs).Kept q := by
  unfold State.thThrough
  grind [← Kept.modSlice, ← Kept.dramWrite]

theorem State.Kept.writeBack (h : s.Kept q) {x} : (State.writeBack s x).Kept q := by
  unfold State.writeBack
  grind [← Kept.dramWrite, ← Kept.foldl, ← Kept.foldl_snd, ← Kept.foldl_fst]

theorem State.Kept.thFill (h : s.Kept q) {x stream} : (State.thFill s x stream).Kept q := by
  unfold State.thFill
  grind [← Kept.writeBack, ← Kept.modSlice]

theorem State.Kept.thRead (h : s.Kept q) {l stream} : (State.thRead s l stream).2.Kept q := by
  unfold State.thRead
  grind [← Kept.modSlice, ← Kept.thFill]

theorem State.Kept.thDirty (h : s.Kept q) {a bs region} : (State.thDirty s a bs region).Kept q := by
  unfold State.thDirty
  grind [← Kept.thThrough, ← Kept.thRead, ← Kept.modSlice]

theorem State.Kept.sysWrite (h : s.Kept q) {a bs} : (State.sysWrite s a bs).Kept q := by
  unfold State.sysWrite
  grind [← Kept.thDirty, ← Kept.thThrough, ← Kept.foldl, ← Kept.foldl_snd, ← Kept.foldl_fst]

theorem State.Kept.storeSeg (h : s.Kept q) {id no} : (State.storeSeg s id no).Kept q := by
  unfold State.storeSeg
  grind [← Kept.sysWrite, ← Kept.foldl, ← Kept.foldl_snd, ← Kept.foldl_fst]

theorem State.Kept.fresh (h : s.Kept q) : (State.fresh s).2.Kept q := by
  unfold State.fresh
  grind [← Kept.modFreeCtr]

theorem State.Kept.newPlace (h : s.Kept q) {keep n} : (State.newPlace s keep n).2.Kept q := by
  unfold State.newPlace
  grind [← Kept.fresh]

theorem State.Kept.newCopy (h : s.Kept q) {d a n} : (State.newCopy s d a n).2.Kept q := by
  unfold State.newCopy
  grind [← Kept.fresh]

theorem State.Kept.newPlaces (h : s.Kept q) {keep lapped lens} : (State.newPlaces s keep lapped lens).2.2.Kept q := by
  unfold State.newPlaces
  refine Kept.foldl_snd_snd (fun p n hp => ?_) h
  have hnew := hp.newPlace (keep := keep) (n := n)
  cases lapped with
  | false => exact hnew
  | true =>
    have hcopy := hnew.newCopy (d := (p.2.2.newPlace keep n).2.dram) (a := (p.2.2.newPlace keep n).1) (n := n)
    exact hcopy

theorem State.Kept.modTable (h : s.Kept q) {id f} : (State.modTable s id f).Kept q := by
  unfold State.modTable
  grind [← Kept.modTables]

theorem State.Kept.storeOpen (h : s.Kept q) {id no} : (State.storeOpen s id no).Kept q := by
  unfold State.storeOpen
  grind [← Kept.storeSeg, ← Kept.newPlaces, ← Kept.modTable]

theorem State.Kept.noteFresh (h : s.Kept q) {id r} : (State.noteFresh s id r).Kept q := by
  unfold State.noteFresh
  grind [← Kept.modBatten]

theorem State.Kept.putRow (h : s.Kept q) {id late r} : (State.putRow s id late r).2.Kept q := by
  unfold State.putRow
  grind [← Kept.storeOpen, ← Kept.modTable, ← Kept.noteFresh]

theorem State.Kept.putCatalogue (h : s.Kept q) {d g event} : (State.putCatalogue s d g event).Kept q := by
  unfold State.putCatalogue
  grind [← Kept.stamp, ← Kept.putRow]

theorem State.Kept.catalogue (h : s.Kept q) {id g event} : (State.catalogue s id g event).Kept q := by
  unfold State.catalogue
  grind [← Kept.putCatalogue]

theorem State.Kept.noteOpened (h : s.Kept q) {id opened} : (State.noteOpened s id opened).Kept q := by
  unfold State.noteOpened
  grind [← Kept.catalogue]

theorem State.Kept.logRow (h : s.Kept q) {id stamp vals} : (State.logRow s id stamp vals).Kept q := by
  unfold State.logRow
  grind [← Kept.putRow, ← Kept.noteOpened]

theorem State.Kept.dictLog (h : s.Kept q) {w status applied} : (State.dictLog s w status applied).Kept q := by
  unfold State.dictLog
  grind [← Kept.logRow]

theorem State.Kept.finishWrite (h : s.Kept q) {w status applied} : (State.finishWrite s w status applied).Kept q := by
  unfold State.finishWrite
  grind [← Kept.bump, ← Kept.dictReply, ← Kept.dictLog]

theorem State.Kept.shadowEntry (h : s.Kept q) {index bank priority key mask result valid} : (State.shadowEntry s index bank priority key mask result valid).Kept q := by
  unfold State.shadowEntry
  grind [← Kept.modIngest]

theorem State.Kept.shadowChunk (h : s.Kept q) {program off last bytes} : (State.shadowChunk s program off last bytes).2.Kept q := by
  unfold State.shadowChunk
  grind [← Kept.modIngest]

theorem State.Kept.mapCommit (h : s.Kept q) {action boundary} : (State.mapCommit s action boundary).2.Kept q := by
  unfold State.mapCommit
  grind [← Kept.modIngest, ← Kept.raise, ← Kept.modBoot]

theorem State.Kept.modBank (h : s.Kept q) {b f} : (State.modBank s b f).Kept q := by
  unfold State.modBank
  grind [← Kept.modPurlin]

theorem State.Kept.setBank (h : s.Kept q) {b role width masked owner} : (State.setBank s b role width masked owner).Kept q := by
  unfold State.setBank
  grind [← Kept.modBank]

theorem State.Kept.loadMapBanks (h : s.Kept q) : (State.loadMapBanks s).Kept q := by
  unfold State.loadMapBanks
  grind [← Kept.setBank, ← Kept.bump, ← Kept.modBank, ← Kept.raise, ← Kept.foldl, ← Kept.foldl_snd, ← Kept.foldl_fst]

theorem State.Kept.whenTrue (h : s.Kept q) {v} {t : State} (ht : t.Kept q) : (whenTrue v s t).2.Kept q := Kept.branch ht h

theorem State.Kept.storeFront (h : s.Kept q) {id no} : (State.storeFront s id no).Kept q := by
  unfold State.storeFront
  grind [← Kept.sysWrite, ← Kept.foldl, ← Kept.foldl_snd, ← Kept.foldl_fst]

theorem State.Kept.freeSegs (h : s.Kept q) {id} : (State.freeSegs s id).Kept q := by
  unfold State.freeSegs
  grind [← Kept.modTable]

theorem State.Kept.dictForget (h : s.Kept q) {table seg} : (State.dictForget s table seg).Kept q := by
  unfold State.dictForget
  grind [← Kept.modPurlin, ← Kept.modBank, ← Kept.foldl, ← Kept.foldl_snd, ← Kept.foldl_fst]

theorem State.Kept.retireSeg (h : s.Kept q) {id no event} : (State.retireSeg s id no event).Kept q := by
  unfold State.retireSeg
  split
  · exact h
  · exact h.catalogue.modTable.storeFront.modTables.dictForget.freeSegs

theorem State.Kept.keepRetire (h : s.Kept q) : (State.keepRetire s).Kept q := by
  unfold State.keepRetire
  grind [← Kept.retireSeg, ← Kept.foldl, ← Kept.foldl_snd, ← Kept.foldl_fst]

theorem State.Kept.sealHips (h : s.Kept q) : (State.sealHips s).Kept q := by
  unfold State.sealHips
  grind [← Kept.modPurlin, ← Kept.foldl, ← Kept.foldl_snd, ← Kept.foldl_fst]

theorem State.Kept.modCourse (h : s.Kept q) {c f} : (State.modCourse s c f).Kept q := by
  unfold State.modCourse
  grind [← Kept.modPower]

theorem State.Kept.noteIdle (h : s.Kept q) : (State.noteIdle s).Kept q := by
  unfold State.noteIdle
  grind [← Kept.modCourse, ← Kept.foldl, ← Kept.foldl_snd, ← Kept.foldl_fst]

theorem State.Kept.policyUnpark (h : s.Kept q) : (State.policyUnpark s).Kept q := by
  unfold State.policyUnpark
  grind [← Kept.modCourse, ← Kept.foldl, ← Kept.foldl_snd, ← Kept.foldl_fst]

theorem State.Kept.countWaits (h : s.Kept q) : (State.countWaits s).Kept q := by
  unfold State.countWaits
  grind [← Kept.bump, ← Kept.modBatten, ← Kept.foldl, ← Kept.foldl_snd, ← Kept.foldl_fst]

theorem State.Kept.modSched (h : s.Kept q) {t f} : (State.modSched s t f).Kept q := by
  unfold State.modSched
  grind [← Kept.modBatten]

theorem State.Kept.modCourseStat (h : s.Kept q) {c f} : (State.modCourseStat s c f).Kept q := by
  unfold State.modCourseStat
  grind [← Kept.modBatten]

theorem State.Kept.tileTo (h : s.Kept q) {t x} : (State.tileTo s t x).Kept q := by
  unfold State.tileTo
  grind [← Kept.modSched, ← Kept.modCourseStat]

theorem State.Kept.ringWrite (h : s.Kept q) {r bs} : (State.ringWrite s r bs).Kept q := by
  unfold State.ringWrite
  grind [← Kept.sysWrite]

theorem State.Kept.trace (h : s.Kept q) {event tile d status hit} : (State.trace s event tile d status hit).Kept q := by
  unfold State.trace
  grind [← Kept.bump, ← Kept.stamp, ← Kept.modBatten, ← Kept.ringWrite]

theorem State.Kept.preemptTile (h : s.Kept q) {t parking} : (State.preemptTile s t parking).Kept q := by
  unfold State.preemptTile
  split
  · exact h
  · exact (h.tileTo.modSched.modTile fun _ => by rfl).modCourseStat.trace

theorem State.Kept.preemptAll (h : s.Kept q) : (State.preemptAll s).Kept q := by
  unfold State.preemptAll
  grind [← Kept.modBatten, ← Kept.preemptTile, ← Kept.foldl, ← Kept.foldl_snd, ← Kept.foldl_fst]

theorem State.Kept.clearBank (h : s.Kept q) {b} : (State.clearBank s b).Kept q := by
  unfold State.clearBank
  grind [← Kept.bump, ← Kept.modBank]

theorem State.Kept.openRegion (h : s.Kept q) {d} : (State.openRegion s d).Kept q := by
  unfold State.openRegion
  grind [← Kept.fresh, ← Kept.modThatch]

theorem State.Kept.unready (h : s.Kept q) {d} : (State.unready s d).Kept q := by
  unfold State.unready
  grind [← Kept.modBatten]

theorem State.Kept.dropHip (h : s.Kept q) {d} : (State.dropHip s d).Kept q := by
  unfold State.dropHip
  grind [← Kept.modPurlin]

theorem State.Kept.syncSlot (h : s.Kept q) {slot} : (State.syncSlot s slot).Kept q := by
  unfold State.syncSlot
  grind [← Kept.modBatten]

theorem State.Kept.modList (h : s.Kept q) {n f} : (State.modList s n f).Kept q := by
  unfold State.modList
  grind [← Kept.modBatten]

theorem State.Kept.setRo (h : s.Kept q) {index sub v} : (State.setRo s index sub v).Kept q := by
  unfold State.setRo
  grind [← Kept.modDict]

theorem State.Kept.dispatch (h : s.Kept q) {t r hit} : (State.dispatch s t r hit).Kept q := by
  unfold State.dispatch
  dsimp only
  refine State.Kept.trace ?_
  have hlease {l : List Nat} {d} : (l.foldl (fun s b => s.clearBank (Fin.ofNat 8 b)) ((s.unready d).openRegion d)).Kept q :=
    Kept.foldl (fun _ _ hs => hs.clearBank) h.unready.openRegion
  have hhip {c : Prop} [Decidable c] {l : List Nat} {d d' f} : (if c then ((l.foldl (fun s b => s.clearBank (Fin.ofNat 8 b)) ((s.unready d).openRegion d)).dropHip d').modPurlin f
      else l.foldl (fun s b => s.clearBank (Fin.ofNat 8 b)) ((s.unready d).openRegion d)).Kept q := Kept.branch hlease.dropHip.modPurlin hlease
  have hset {x : State} (hx : x.Kept q) {c c' : Prop} [Decidable c] [Decidable c'] {n n' k v} :
      (if c then (if c' then x.bump 0x2022 n k else x).setRo 0x2100 n' v else if c' then x.bump 0x2022 n k else x).Kept q :=
    Kept.branch (Kept.branch hx.bump hx).setRo (Kept.branch hx.bump hx)
  exact Kept.branch (hset (State.Kept.modList (State.Kept.syncSlot (State.Kept.modTile (State.Kept.modSched (State.Kept.tileTo hhip)) fun _ => by rfl)))).bump
    (hset (State.Kept.modList (State.Kept.syncSlot (State.Kept.modTile (State.Kept.modSched (State.Kept.tileTo hhip)) fun _ => by rfl))))

theorem State.Kept.chooseAll (h : s.Kept q) : (State.chooseAll s).Kept q := by
  unfold State.chooseAll
  grind [← Kept.dispatch, ← Kept.foldl, ← Kept.foldl_snd, ← Kept.foldl_fst]

theorem State.Kept.pump (h : s.Kept q) : s.pump.Kept q :=
  Kept.branch h.sealHips h.chooseAll.preemptAll.countWaits.policyUnpark.sealHips.noteIdle

theorem State.Kept.placeBundle (h : s.Kept q) {d readyTs order saved} : (State.placeBundle s d readyTs order saved).Kept q := by
  unfold State.placeBundle
  grind [← Kept.modBatten, ← Kept.trace, ← Kept.modList]

theorem State.Kept.submit (h : s.Kept q) {d reservedOk} : (State.submit s d reservedOk).2.Kept q := by
  unfold State.submit
  grind [← Kept.placeBundle, ← Kept.bump, ← Kept.trace]

theorem State.Kept.modPlan (h : s.Kept q) {slot f} : (State.modPlan s slot f).Kept q := by
  unfold State.modPlan
  grind [← Kept.modPlans]

theorem State.Kept.formOne (h : s.Kept q) {slot} : (State.formOne s slot).2.Kept q := by
  have hsub : ∀ {d}, ((s.modFreeCtr (· + 2)).submit d true).2.Kept q := h.modFreeCtr.submit
  unfold State.formOne
  split
  · exact h
  · split
    · exact h
    · dsimp only
      split
      · exact h
      · split
        · split
          · exact hsub
          · exact hsub.modPlan
        · exact h

theorem State.Kept.form (h : s.Kept q) {slot n} : (State.form slot n s).Kept q := by
  induction n generalizing s with
  | zero => exact h
  | succ n ih =>
    unfold State.form
    have hone := h.formOne (slot := slot)
    split
    · next heq => rw [heq] at hone; exact ih hone
    · next heq => rw [heq] at hone; exact hone

theorem State.Kept.formRounds (h : s.Kept q) {slot n} : (State.formRounds slot n s).Kept q := by
  induction n generalizing s with
  | zero => exact h
  | succ n ih => exact Kept.branch h.form.pump (ih h.form.pump)

theorem State.Kept.formAll (h : s.Kept q) {slot} : (State.formAll s slot).Kept q := by
  unfold State.formAll
  grind [← Kept.formRounds]

theorem State.Kept.pumpPlans (h : s.Kept q) : (State.pumpPlans s).Kept q := by
  unfold State.pumpPlans
  grind [← Kept.pump, ← Kept.formAll, ← Kept.foldl, ← Kept.foldl_snd, ← Kept.foldl_fst]

theorem State.Kept.modQuery (h : s.Kept q) {cq f} : (State.modQuery s cq f).Kept q := by
  unfold State.modQuery
  grind [← Kept.modBatten]

theorem State.Kept.joinLate (h : s.Kept q) {cq k} : (State.joinLate s cq k).Kept q := by
  unfold State.joinLate
  grind [← Kept.modQuery]

theorem State.Kept.sessionRow (h : s.Kept q) {cq r seen} : (State.sessionRow s cq r seen).Kept q := by
  unfold State.sessionRow
  grind [← Kept.modQuery]

theorem State.Kept.lateRowIn (h : s.Kept q) {cq w} : (State.lateRowIn s cq w).Kept q := by
  unfold State.lateRowIn
  grind [← Kept.modQuery, ← Kept.bump]

theorem State.Kept.lateRow (h : s.Kept q) {cq r} : (State.lateRow s cq r).Kept q := by
  unfold State.lateRow
  grind [← Kept.lateRowIn, ← Kept.foldl, ← Kept.foldl_snd, ← Kept.foldl_fst]

theorem State.Kept.takeFresh (h : s.Kept q) : (State.takeFresh s).Kept q := by
  unfold State.takeFresh
  grind [← Kept.modBatten, ← Kept.sessionRow, ← Kept.lateRow, ← Kept.foldl, ← Kept.foldl_snd, ← Kept.foldl_fst]

theorem State.Kept.freshRun (h : s.Kept q) {slot snap} : (State.freshRun s slot snap).Kept q := by
  unfold State.freshRun
  grind [← Kept.clearBank, ← Kept.modPlan, ← Kept.foldl, ← Kept.foldl_snd, ← Kept.foldl_fst]

theorem State.Kept.delayDrop (h : s.Kept q) {cq} : (State.delayDrop s cq).Kept q := by
  unfold State.delayDrop
  grind [← Kept.modBatten]

theorem State.Kept.releaseSnap (h : s.Kept q) {slot} : (State.releaseSnap s slot).Kept q := by
  unfold State.releaseSnap
  grind [← Kept.freeSegs, ← Kept.modPlan, ← Kept.foldl, ← Kept.foldl_snd, ← Kept.foldl_fst]

theorem State.Kept.releasePlan (h : s.Kept q) {slot} : (State.releasePlan s slot).Kept q := by
  unfold State.releasePlan
  split
  · exact h
  · next p _ =>
    have hbank : ∀ s (b : Nat), State.Kept q s → (if (s.purlin.banks[Fin.ofNat 8 b]).role == .planRole
        then (s.clearBank (Fin.ofNat 8 b)).setBank (Fin.ofNat 8 b) .free 0 false 0xFF else s).Kept q :=
      fun s b hs => Kept.branch hs.clearBank.setBank hs
    have hbanks := Kept.foldl (l := p.banks) hbank (h.releaseSnap (slot := slot))
    refine State.Kept.modPlans (State.Kept.modBatten (State.Kept.modInst (Kept.foldl (fun _ _ hs => hs.modChan) (State.Kept.modYelm ?_))))
    exact Kept.branch hbanks.loadMapBanks hbanks

theorem State.Kept.removeQuery (h : s.Kept q) {cq} : (State.removeQuery s cq).Kept q := by
  unfold State.removeQuery
  grind [← Kept.modBatten, ← Kept.delayDrop, ← Kept.releasePlan]

theorem State.Kept.settleRemoval (h : s.Kept q) {cq} : (State.settleRemoval s cq).Kept q := by
  unfold State.settleRemoval
  grind [← Kept.modQuery, ← Kept.removeQuery, ← Kept.stamp]

theorem State.Kept.windowEmpty (h : s.Kept q) {cq k} : (State.windowEmpty s cq k).Kept q := by
  unfold State.windowEmpty
  grind [← Kept.modQuery, ← Kept.bump]

theorem State.Kept.placeFiring (h : s.Kept q) {cq slot f} : (State.placeFiring s cq slot f).Kept q := by
  unfold State.placeFiring
  grind [← Kept.bump, ← Kept.placeBundle, ← Kept.modPlan, ← Kept.foldl, ← Kept.foldl_snd, ← Kept.foldl_fst]

theorem State.Kept.readyPipes (h : s.Kept q) {slot window} : (State.readyPipes s slot window).Kept q := by
  unfold State.readyPipes
  grind [← Kept.modPlan]

theorem State.Kept.readyAll (h : s.Kept q) {slot window} : (State.readyAll s slot window).Kept q := by
  unfold State.readyAll
  grind [← Kept.readyPipes, ← Kept.foldl, ← Kept.foldl_snd, ← Kept.foldl_fst]

theorem State.Kept.advanceFiring (h : s.Kept q) {slot} : (State.advanceFiring s slot).Kept q := by
  unfold State.advanceFiring
  grind [← Kept.placeFiring, ← Kept.readyAll]

theorem State.Kept.startFiring (h : s.Kept q) {cq n} : (State.startFiring cq n s).Kept q := by
  induction n generalizing s with
  | zero => exact h
  | succ n ih =>
    have hjoin : ∀ (c : Bool) k f, ((if c then s.takeFresh.joinLate cq k else s).modQuery cq f).Kept q :=
      fun _ _ _ => (Kept.branch h.takeFresh.joinLate h).modQuery
    unfold State.startFiring
    split
    · exact h
    · split
      · exact h
      · split
        · exact h
        · next k _ =>
          dsimp only
          split
          · exact hjoin _ _ _
          · exact Kept.branch (ih (hjoin _ k _).freshRun.windowEmpty.releaseSnap.settleRemoval) (hjoin _ k _).freshRun.modQuery.advanceFiring

theorem State.Kept.runQuery (h : s.Kept q) {cq} : (State.runQuery s cq).Kept q := by
  unfold State.runQuery
  grind [← Kept.pumpPlans, ← Kept.startFiring]

theorem State.Kept.fireOpen (h : s.Kept q) {cq} : (State.fireOpen s cq).Kept q := by
  unfold State.fireOpen
  grind [← Kept.stamp, ← Kept.runQuery, ← Kept.modQuery]

theorem State.Kept.retireQuery (h : s.Kept q) {cq status} : (State.retireQuery s cq status).Kept q := by
  unfold State.retireQuery
  grind [← Kept.modQuery, ← Kept.settleRemoval, ← Kept.delayDrop]

theorem State.Kept.keepQueries (h : s.Kept q) : (State.keepQueries s).Kept q := by
  unfold State.keepQueries
  grind [← Kept.fireOpen, ← Kept.retireQuery, ← Kept.foldl, ← Kept.foldl_snd, ← Kept.foldl_fst]

theorem State.Kept.abandonSeals (h : s.Kept q) : (State.abandonSeals s).Kept q := by
  unfold State.abandonSeals
  grind [← Kept.modTables, ← Kept.modPurlin]

theorem State.Kept.modCmd (h : s.Kept q) {i r f} : (State.modCmd s i r f).Kept q := by
  unfold State.modCmd
  grind [← Kept.modInst]

theorem State.Kept.settleAppends (h : s.Kept q) : (State.settleAppends s).Kept q := by
  unfold State.settleAppends
  grind [← Kept.modCmd, ← Kept.complete, ← Kept.foldl, ← Kept.foldl_snd, ← Kept.foldl_fst]

theorem State.Kept.dictSpill (h : s.Kept q) {table seg col code v} : (State.dictSpill s table seg col code v).Kept q := by
  unfold State.dictSpill
  grind [← Kept.modPurlin]

theorem State.Kept.deadEntry (h : s.Kept q) {b idx} : (State.deadEntry s b idx).Kept q := by
  unfold State.deadEntry
  grind [← Kept.modPurlin, ← Kept.modBank, ← Kept.raise, ← Kept.bump]

theorem State.Kept.meetFaults (h : s.Kept q) {banks key f} : (State.meetFaults s banks key f).Kept q := by
  unfold State.meetFaults
  grind [← Kept.modBank, ← Kept.deadEntry, ← Kept.foldl, ← Kept.foldl_snd, ← Kept.foldl_fst]

theorem State.Kept.falseHit (h : s.Kept q) {b idx} : (State.falseHit s b idx).Kept q := by
  unfold State.falseHit
  grind [← Kept.bump, ← Kept.modBank, ← Kept.raise]

theorem State.Kept.pSearch (h : s.Kept q) {banks key f} : (State.pSearch s banks key f).2.Kept q := by
  unfold State.pSearch
  grind [← Kept.meetFaults, ← Kept.falseHit, ← Kept.foldl, ← Kept.foldl_snd, ← Kept.foldl_fst]

theorem State.Kept.pInsert (h : s.Kept q) {banks x1 key f} : (State.pInsert s banks x1 key f).2.Kept q := by
  unfold State.pInsert
  grind [← Kept.pSearch, ← Kept.modBank]

theorem State.Kept.dictNote (h : s.Kept q) {table seg col ty owner code v} : (State.dictNote s table seg col ty owner code v).Kept q := by
  unfold State.dictNote
  grind [← Kept.dictSpill, ← Kept.bump, ← Kept.pInsert]

theorem State.Kept.dictRebuild (h : s.Kept q) {id g col ty owner} : (State.dictRebuild s id g col ty owner).Kept q := by
  unfold State.dictRebuild
  grind [← Kept.dictNote, ← Kept.modPurlin, ← Kept.foldl, ← Kept.foldl_snd, ← Kept.foldl_fst]

theorem State.Kept.noteDict (h : s.Kept q) {id r} : (State.noteDict s id r).Kept q := by
  unfold State.noteDict
  grind [← Kept.dictNote, ← Kept.dictRebuild, ← Kept.foldl, ← Kept.foldl_snd, ← Kept.foldl_fst]

theorem State.Kept.placeRow (h : s.Kept q) {id late r} : (State.placeRow s id late r).Kept q := by
  unfold State.placeRow
  grind [← Kept.putRow, ← Kept.noteOpened, ← Kept.noteDict]

theorem State.Kept.releaseForKeep (h : s.Kept q) : (State.releaseForKeep s).Kept q := by
  unfold State.releaseForKeep
  grind [← Kept.modTables, ← Kept.settleAppends, ← Kept.placeRow, ← Kept.bump, ← Kept.foldl, ← Kept.foldl_snd, ← Kept.foldl_fst]

theorem State.Kept.freeCmdTags (h : s.Kept q) {i seq} : (State.freeCmdTags s i seq).Kept q := by
  unfold State.freeCmdTags
  grind [← Kept.modHost]

end Sys2Proof.Machine
end

