-- ==== Sys2Proof/Proofs/KeptUnits.lean ====
section
/-! SUPPORT. The units' functions keep the queue and the canonical form, in the order in which they call one another. -/

namespace Sys2Proof.Machine

set_option Elab.async false

variable {q : Keeping} {s : State}

theorem State.Kept.firingEnds (h : s.Kept q) {cq slot status} : (State.firingEnds s cq slot status).Kept q := by
  unfold State.firingEnds
  grind [← Kept.modQuery, ← Kept.runQuery, ← Kept.settleRemoval, ← Kept.releaseSnap]

theorem State.Kept.setDetails (h : s.Kept q) {i r d0 d1 d2 d3} : (State.setDetails s i r d0 d1 d2 d3).Kept q := by
  unfold State.setDetails
  grind [← Kept.modCmd]

theorem State.Kept.completePlan (h : s.Kept q) {slot status} : (State.completePlan s slot status).Kept q := by
  unfold State.completePlan
  grind [← Kept.setDetails, ← Kept.modCmd, ← Kept.releasePlan, ← Kept.modInst, ← Kept.completeWith]

theorem State.Kept.finishJob (h : s.Kept q) {slot} : (State.finishJob s slot).Kept q := by
  unfold State.finishJob
  grind [← Kept.firingEnds, ← Kept.completePlan]

theorem State.Kept.discardRegion (h : s.Kept q) {d again} : (State.discardRegion s d again).Kept q := by
  unfold State.discardRegion
  dsimp only
  split
  · exact h
  · refine h.modThatch.modTiles fun v hv t => ?_
    simpa using hv t

theorem State.Kept.doneRecord (h : s.Kept q) {d tile status} : (State.doneRecord s d tile status).Kept q := by
  unfold State.doneRecord
  grind [← Kept.stamp, ← Kept.modBatten, ← Kept.ringWrite]

theorem State.Kept.dropLeases (h : s.Kept q) {r} : (State.dropLeases s r).Kept q := by
  unfold State.dropLeases
  grind [← Kept.clearBank, ← Kept.dropHip, ← Kept.foldl, ← Kept.foldl_snd, ← Kept.foldl_fst]

theorem State.Kept.purge (h : s.Kept q) {which} : (State.purge s which).Kept q := by
  unfold State.purge
  grind [← Kept.modBatten, ← Kept.discardRegion, ← Kept.doneRecord, ← Kept.dropLeases, ← Kept.syncSlot, ← Kept.trace, ← Kept.foldl, ← Kept.foldl_snd, ← Kept.foldl_fst]

theorem State.Kept.endPlan (h : s.Kept q) {slot code} : (State.endPlan s slot code).Kept q := by
  unfold State.endPlan
  grind [← Kept.modPlan, ← Kept.pumpPlans, ← Kept.finishJob, ← Kept.purge]

theorem State.Kept.abortCmd (h : s.Kept q) {i c code} : (State.abortCmd s i c code).Kept q := by
  unfold State.abortCmd
  grind [← Kept.freeCmdTags, ← Kept.endPlan, ← Kept.complete]

theorem State.Kept.keepPlans (h : s.Kept q) : (State.keepPlans s).Kept q := by
  unfold State.keepPlans
  grind [← Kept.abortCmd, ← Kept.foldl, ← Kept.foldl_snd, ← Kept.foldl_fst]

theorem State.Kept.keepEntry (h : s.Kept q) : s.keepEntry.Kept q := by
  unfold State.keepEntry
  split
  · exact h
  · exact h.stamp.modDram.keepPlans.releaseForKeep.abandonSeals.keepQueries.keepRetire

theorem State.Kept.reserveChans (h : s.Kept q) {i l} : (State.reserveChans s i l).Kept q := by
  unfold State.reserveChans
  grind [← Kept.modInst, ← Kept.modChan, ← Kept.foldl, ← Kept.foldl_snd, ← Kept.foldl_fst]

theorem State.Kept.instCreate (h : s.Kept q) {i} : (State.instCreate s i).2.Kept q := by
  unfold State.instCreate
  grind [← Kept.modInst, ← Kept.persistInst, ← Kept.reserveChans]

theorem State.Kept.mailCause (h : s.Kept q) {i} : (State.mailCause s i).Kept q := by
  unfold State.mailCause
  grind [← Kept.raiseCause]

theorem State.Kept.mailPut (h : s.Kept q) {i m} : (State.mailPut s i m).Kept q := by
  unfold State.mailPut
  grind [← Kept.modInst, ← Kept.mailCause]

theorem State.Kept.notice (h : s.Kept q) {i kind body} : (State.notice s i kind body).Kept q := by
  unfold State.notice
  grind [← Kept.stamp, ← Kept.mailPut, ← Kept.modInst, ← Kept.mailCause]

theorem State.Kept.cacheDrop (h : s.Kept q) {i} : (State.cacheDrop s i).Kept q := by
  unfold State.cacheDrop
  grind [← Kept.modPlans]

theorem State.Kept.resetCommands (h : s.Kept q) {i} : (State.resetCommands s i).Kept q := by
  unfold State.resetCommands
  grind [← Kept.abortCmd, ← Kept.foldl, ← Kept.foldl_snd, ← Kept.foldl_fst]

theorem State.Kept.resetQueries (h : s.Kept q) {i} : (State.resetQueries s i).Kept q := by
  unfold State.resetQueries
  grind [← Kept.modQuery, ← Kept.settleRemoval, ← Kept.endPlan, ← Kept.delayDrop, ← Kept.foldl, ← Kept.foldl_snd, ← Kept.foldl_fst]

theorem State.Kept.chanDrainStop (h : s.Kept q) {c code} : (State.chanDrainStop s c code).Kept q := by
  unfold State.chanDrainStop
  grind [← Kept.modChan, ← Kept.chanStop]

theorem State.Kept.instReset (h : s.Kept q) {i} : (State.instReset s i).Kept q := by
  unfold State.instReset
  grind [← Kept.cacheDrop, ← Kept.resetCommands, ← Kept.resetQueries, ← Kept.chanDrainStop, ← Kept.foldl, ← Kept.foldl_snd, ← Kept.foldl_fst]

theorem State.Kept.managerReset (h : s.Kept q) {i} : (State.managerReset s i).Kept q := by
  unfold State.managerReset
  grind [← Kept.notice, ← Kept.modInst, ← Kept.instReset]

theorem State.Kept.commitTable (h : s.Kept q) {i id desc} : (State.commitTable s i id desc).Kept q := by
  unfold State.commitTable
  grind [← Kept.modDict]

theorem State.Kept.dropQueries (h : s.Kept q) {table} : (State.dropQueries s table).Kept q := by
  unfold State.dropQueries
  grind [← Kept.retireQuery, ← Kept.foldl, ← Kept.foldl_snd, ← Kept.foldl_fst]

theorem State.Kept.dropComplete (h : s.Kept q) {id} : (State.dropComplete s id).Kept q := by
  unfold State.dropComplete
  grind [← Kept.modTables]

theorem State.Kept.startDrop (h : s.Kept q) {id} : (State.startDrop s id).Kept q := by
  unfold State.startDrop
  grind [← Kept.modTable, ← Kept.dropQueries, ← Kept.dropComplete, ← Kept.retireSeg, ← Kept.foldl, ← Kept.foldl_snd, ← Kept.foldl_fst]

theorem State.Kept.freeInstChans (h : s.Kept q) {i} : (State.freeInstChans s i).Kept q := by
  unfold State.freeInstChans
  grind [← Kept.modInst, ← Kept.modChan, ← Kept.chanStop, ← Kept.foldl, ← Kept.foldl_snd, ← Kept.foldl_fst]

theorem State.Kept.instDestroy (h : s.Kept q) {i dropTables} : (State.instDestroy s i dropTables).2.Kept q := by
  unfold State.instDestroy
  grind [← Kept.managerReset, ← Kept.commitTable, ← Kept.startDrop, ← Kept.modIngest, ← Kept.freeInstChans, ← Kept.persistInst, ← Kept.modInst, ← Kept.foldl, ← Kept.foldl_snd, ← Kept.foldl_fst]

theorem State.Kept.hostRead (h : s.Kept q) {f x n} : (State.hostRead s f x n).Kept q := by
  unfold State.hostRead
  grind [← Kept.emit]

theorem State.Kept.sysRead (h : s.Kept q) {a n stream} : (State.sysRead s a n stream).2.Kept q := by
  unfold State.sysRead
  grind [← Kept.thRead, ← Kept.foldl, ← Kept.foldl_snd, ← Kept.foldl_fst]

theorem State.Kept.devRead1 (h : s.Kept q) {a n stream} : (State.devRead1 s a n stream).2.Kept q := by
  unfold State.devRead1
  grind [← Kept.sysRead]

theorem State.Kept.devRead (h : s.Kept q) {a n stream} : (State.devRead s a n stream).2.Kept q := by
  unfold State.devRead
  grind [← Kept.devRead1, ← Kept.foldl, ← Kept.foldl_snd, ← Kept.foldl_fst]

theorem State.Kept.apertureRecord (h : s.Kept q) {a} : (State.apertureRecord s a).Kept q := by
  unfold State.apertureRecord
  grind [← Kept.raise]

theorem State.Kept.chanFetch (h : s.Kept q) {c a n host} : (State.chanFetch s c a n host).2.Kept q := by
  unfold State.chanFetch
  grind [← Kept.hostRead, ← Kept.devRead, ← Kept.apertureRecord]

theorem State.Kept.chanLoad (h : s.Kept q) {c a host} : (State.chanLoad s c a host).Kept q := by
  unfold State.chanLoad
  grind [← Kept.modChan, ← Kept.chanStop, ← Kept.chanFetch]

theorem State.Kept.chanRing (h : s.Kept q) {c host} : (State.chanRing s c host).Kept q := by
  unfold State.chanRing
  dsimp only
  generalize hr : s.chanFetch c _ 8 host = r
  have hk : r.2.Kept q := hr ▸ h.chanFetch
  obtain ⟨_ | _, s₁⟩ := r
  · exact hk.chanStop
  · exact Kept.branch hk.chanStop (Kept.branch hk.modChan hk.chanLoad)

theorem State.Kept.chanResume (h : s.Kept q) {c host} : (State.chanResume s c host).Kept q := by
  unfold State.chanResume
  grind [← Kept.modChan, ← Kept.chanRing, ← Kept.chanLoad]

theorem State.Kept.resumeHost (h : s.Kept q) {i} : (State.resumeHost s i).Kept q := by
  unfold State.resumeHost
  grind [← Kept.chanResume, ← Kept.foldl, ← Kept.foldl_snd, ← Kept.foldl_fst]

theorem State.Kept.sortHeld (h : s.Kept q) {i} : (State.sortHeld s i).Kept q := by
  unfold State.sortHeld
  grind [← Kept.modInst]

theorem State.Kept.resumeInst (h : s.Kept q) {i} : (State.resumeInst s i).Kept q := by
  unfold State.resumeInst
  grind [← Kept.resumeHost, ← Kept.sortHeld]

theorem State.Kept.holdQueries (h : s.Kept q) {i other} : (State.holdQueries s i other).Kept q := by
  unfold State.holdQueries
  grind [← Kept.modBatten]

theorem State.Kept.instBind (h : s.Kept q) {i port fn restore} : (State.instBind s i port fn restore).2.Kept q := by
  unfold State.instBind
  grind [← Kept.modFunc, ← Kept.modInst, ← Kept.eventCause, ← Kept.resumeInst, ← Kept.holdQueries, ← Kept.persistInst, ← Kept.notice, ← Kept.mailCause]

theorem State.Kept.chanPause (h : s.Kept q) {c} : (State.chanPause s c).Kept q := by
  unfold State.chanPause
  grind [← Kept.modChan]

theorem State.Kept.pauseHost (h : s.Kept q) {i} : (State.pauseHost s i).Kept q := by
  unfold State.pauseHost
  grind [← Kept.modChan, ← Kept.chanPause, ← Kept.foldl, ← Kept.foldl_snd, ← Kept.foldl_fst]

theorem State.Kept.instUnbind (h : s.Kept q) {i} : (State.instUnbind s i).2.Kept q := by
  unfold State.instUnbind
  grind [← Kept.pauseHost, ← Kept.modInst, ← Kept.unbindNow]

theorem State.Kept.instFreeze (h : s.Kept q) {i} : (State.instFreeze s i).2.Kept q := by
  unfold State.instFreeze
  grind [← Kept.pauseHost, ← Kept.modInst]

theorem State.Kept.instThaw (h : s.Kept q) {i} : (State.instThaw s i).2.Kept q := by
  unfold State.instThaw
  grind [← Kept.resumeInst, ← Kept.mailCause, ← Kept.modInst]

theorem State.Kept.instManagerReset (h : s.Kept q) {i} : (State.instManagerReset s i).2.Kept q := by
  unfold State.instManagerReset
  grind [← Kept.managerReset]

theorem State.Kept.control (h : s.Kept q) {i action port fn flags} : (State.control s i action port fn flags).2.Kept q := by
  unfold State.control
  grind [← Kept.instCreate, ← Kept.instDestroy, ← Kept.instBind, ← Kept.instUnbind, ← Kept.instFreeze, ← Kept.instThaw, ← Kept.instManagerReset]

theorem State.Kept.mailSend (h : s.Kept q) {i stamp kind body} : (State.mailSend s i stamp kind body).2.Kept q := by
  unfold State.mailSend
  grind [← Kept.mailPut]

theorem State.Kept.mailTaken (h : s.Kept q) {i} : (State.mailTaken s i).Kept q := by
  unfold State.mailTaken
  grind [← Kept.modInst]

theorem State.Kept.keyRevoke (h : s.Kept q) {n} : (State.keyRevoke s n).2.Kept q := by
  unfold State.keyRevoke
  grind [← Kept.modBoot]

theorem State.Kept.modSlot (h : s.Kept q) {k f} : (State.modSlot s k f).Kept q := by
  unfold State.modSlot
  grind [← Kept.modBoot]

theorem State.Kept.rollbackCommit (h : s.Kept q) {kind} : (State.rollbackCommit s kind).2.Kept q := by
  unfold State.rollbackCommit
  grind [← Kept.modBoot, ← Kept.modSlot]

theorem State.Kept.attestNonce (h : s.Kept q) {w} : (State.attestNonce s w).Kept q := by
  unfold State.attestNonce
  grind [← Kept.finishWrite, ← Kept.modBoot]

theorem State.Kept.extendMs (h : s.Kept q) {n d} : (State.extendMs s n d).Kept q := by
  unfold State.extendMs
  grind [← Kept.modBoot]

theorem State.Kept.measureExtend (h : s.Kept q) {d} : (State.measureExtend s d).2.Kept q := by
  unfold State.measureExtend
  grind [← Kept.extendMs]

theorem State.Kept.askStepReset (h : s.Kept q) : (State.askStepReset s).Kept q := by
  unfold State.askStepReset
  grind [← Kept.modBoot]

theorem State.Kept.fwResult (h : s.Kept q) {kind code} : (State.fwResult s kind code).2.Kept q := by
  unfold State.fwResult
  grind [← Kept.modBoot]

theorem State.Kept.setStaging (h : s.Kept q) {kind on} : (State.setStaging s kind on).Kept q := by
  unfold State.setStaging
  grind [← Kept.modBoot]

theorem State.Kept.fwBegin (h : s.Kept q) {kind} : (State.fwBegin s kind).2.Kept q := by
  unfold State.fwBegin
  grind [← Kept.fwResult, ← Kept.setStaging, ← Kept.modSlot, ← Kept.modBoot]

theorem State.Kept.fwEnd (h : s.Kept q) {kind} : (State.fwEnd s kind).2.Kept q := by
  unfold State.fwEnd
  grind [← Kept.fwResult, ← Kept.setStaging, ← Kept.modSlot]

theorem State.Kept.fwAbandon (h : s.Kept q) {kind} : (State.fwAbandon s kind).2.Kept q := by
  unfold State.fwAbandon
  grind [← Kept.fwResult, ← Kept.setStaging]

theorem State.Kept.fwChunk (h : s.Kept q) {kind off bytes} : (State.fwChunk s kind off bytes).2.Kept q := by
  unfold State.fwChunk
  grind [← Kept.modSlot, ← Kept.modBoot]

theorem State.Kept.attestDone (h : s.Kept q) : (State.attestDone s).Kept q := by
  unfold State.attestDone
  grind [← Kept.stamp, ← Kept.fresh, ← Kept.modBoot, ← Kept.finishWrite]

theorem State.Kept.newMonitor (h : s.Kept q) {c} : (State.newMonitor s c).Kept q := by
  unfold State.newMonitor
  grind [← Kept.fresh, ← Kept.modTile, ← Kept.foldl, ← Kept.foldl_snd, ← Kept.foldl_fst]

theorem State.Kept.startChange (h : s.Kept q) {c} : (State.startChange s c).Kept q := by
  unfold State.startChange
  grind [← Kept.modCourse, ← Kept.tileTo, ← Kept.preemptTile, ← Kept.foldl, ← Kept.foldl_snd, ← Kept.foldl_fst]

theorem State.Kept.visitNext (h : s.Kept q) : (State.visitNext s).Kept q := by
  unfold State.visitNext
  grind [← Kept.startChange, ← Kept.modBoot]

theorem State.Kept.dropContexts (h : s.Kept q) : (State.dropContexts s).Kept q := by
  unfold State.dropContexts
  grind [← Kept.syncSlot, ← Kept.modBatten, ← Kept.dropLeases, ← Kept.foldl, ← Kept.foldl_snd, ← Kept.foldl_fst]

theorem State.Kept.fwActivate (h : s.Kept q) {kind} : (State.fwActivate s kind).2.Kept q := by
  unfold State.fwActivate
  dsimp only
  refine Kept.branch_snd h (Kept.branch_snd h.modBoot (Kept.pumpPlans (Kept.cacheDrop (Kept.visitNext (Kept.dropContexts (Kept.extendMs ?_))))))
  exact Kept.foldl (fun _ _ hs => hs.newMonitor) h.attestDone.modSlot.modSlot.modBoot

theorem State.Kept.requestRidge (h : s.Kept q) {r w} : (State.requestRidge s r w).Kept q := by
  unfold State.requestRidge
  grind [← Kept.finishWrite, ← Kept.modFinial]

theorem State.Kept.unalert (h : s.Kept q) {bit} : (State.unalert s bit).Kept q := by
  unfold State.unalert
  grind [← Kept.modFinial]

theorem State.Kept.alertW1C (h : s.Kept q) {v} : (State.alertW1C s v).Kept q := by
  unfold State.alertW1C
  grind [← Kept.unalert]

theorem State.Kept.selfTestStart (h : s.Kept q) {target index} : (State.selfTestStart s target index).2.Kept q := by
  unfold State.selfTestStart
  grind [← Kept.stamp, ← Kept.modErr]

theorem State.Kept.traceRearm (h : s.Kept q) : (State.traceRearm s).Kept q := by
  unfold State.traceRearm
  grind [← Kept.modErr]

theorem State.Kept.countPowered (h : s.Kept q) : (State.countPowered s).Kept q := by
  unfold State.countPowered
  grind [← Kept.modErr]

theorem State.Kept.availReset (h : s.Kept q) : (State.availReset s).Kept q := by
  unfold State.availReset
  grind [← Kept.modErr, ← Kept.countPowered]

theorem State.Kept.releaseRefused (h : s.Kept q) {p} : (State.releaseRefused s p).Kept q := by
  unfold State.releaseRefused
  grind [← Kept.portCount]

theorem State.Kept.releasePort (h : s.Kept q) {p seq} : (State.releasePort s p seq).2.Kept q := by
  unfold State.releasePort
  grind [← Kept.releaseRefused, ← Kept.freezeCause, ← Kept.modPort, ← Kept.flushPending, ← Kept.resumeInst, ← Kept.foldl, ← Kept.foldl_snd, ← Kept.foldl_fst]

theorem State.Kept.suspendPort (h : s.Kept q) {p} : (State.suspendPort s p).Kept q := by
  unfold State.suspendPort
  grind [← Kept.modPort, ← Kept.modInst, ← Kept.freezeCause, ← Kept.foldl, ← Kept.foldl_snd, ← Kept.foldl_fst]

theorem State.Kept.freezeAction (h : s.Kept q) {p action seq} : (State.freezeAction s p action seq).2.Kept q := by
  unfold State.freezeAction
  grind [← Kept.releasePort, ← Kept.suspendPort, ← Kept.releaseRefused]

theorem State.Kept.extendMs5 (h : s.Kept q) : (State.extendMs5 s).Kept q := by
  unfold State.extendMs5
  grind [← Kept.extendMs]

theorem State.Kept.setPlynKey (h : s.Kept q) {slot v} : (State.setPlynKey s slot v).Kept q := by
  unfold State.setPlynKey
  grind [← Kept.bump, ← Kept.extendMs5, ← Kept.modDict]

theorem State.Kept.extendMs4 (h : s.Kept q) {i} : (State.extendMs4 s i).Kept q := by
  unfold State.extendMs4
  grind [← Kept.extendMs]

theorem State.Kept.planKeyWrite (h : s.Kept q) {i action exponent modulus} : (State.planKeyWrite s i action exponent modulus).2.Kept q := by
  unfold State.planKeyWrite
  grind [← Kept.cacheDrop, ← Kept.modBoot, ← Kept.extendMs4]

theorem State.Kept.sweepMarked (h : s.Kept q) : (State.sweepMarked s).Kept q := by
  unfold State.sweepMarked
  grind [← Kept.modInst, ← Kept.modChan, ← Kept.foldl, ← Kept.foldl_snd, ← Kept.foldl_fst]

theorem State.Kept.squeeze (h : s.Kept q) {beyond pick fuel} : (State.squeeze beyond pick fuel s).1.Kept q := by
  induction fuel generalizing s with
  | zero => exact h
  | succ fuel ih =>
    unfold State.squeeze
    split
    · exact h
    · split
      · exact h
      · exact ih h.retireSeg

theorem State.Kept.enforce (h : s.Kept q) {id} : (State.enforce s id).Kept q := by
  unfold State.enforce
  split
  · exact h
  · dsimp only
    split
    · exact h.squeeze.squeeze.modTable
    · exact h.squeeze.squeeze.squeeze.modTables

theorem State.Kept.applyQuota (h : s.Kept q) {i sub value} : (State.applyQuota s i sub value).2.Kept q := by
  unfold State.applyQuota
  grind [← Kept.modDict, ← Kept.notice, ← Kept.reserveChans, ← Kept.modChan, ← Kept.sweepMarked, ← Kept.modInst, ← Kept.enforce, ← Kept.foldl, ← Kept.foldl_snd, ← Kept.foldl_fst]

theorem State.Kept.enterSource (h : s.Kept q) {src} : (State.enterSource s src).Kept q := by
  unfold State.enterSource
  grind [← Kept.modTime]

theorem State.Kept.remapBanks (h : s.Kept q) : (State.remapBanks s).Kept q := by
  unfold State.remapBanks
  grind [← Kept.loadMapBanks, ← Kept.setBank, ← Kept.foldl, ← Kept.foldl_snd, ← Kept.foldl_fst]

theorem State.Kept.cacheTrim (h : s.Kept q) {n} : (State.cacheTrim s n).Kept q := by
  unfold State.cacheTrim
  grind [← Kept.modPlans]

theorem State.Kept.allChans (h : s.Kept q) {f} : (State.allChans s f).Kept q := by
  unfold State.allChans
  grind [← Kept.modDram]

theorem State.Kept.setHoldoff (h : s.Kept q) {ms} : (State.setHoldoff s ms).Kept q := by
  unfold State.setHoldoff
  grind [← Kept.modFinial]

theorem State.Kept.abandonCourseTest (h : s.Kept q) {c} : (State.abandonCourseTest s c).Kept q := by
  unfold State.abandonCourseTest
  grind [← Kept.modErr]

theorem State.Kept.reflat (h : s.Kept q) : (State.reflat s).Kept q := by
  unfold State.reflat
  grind [← Kept.modBatten]

theorem State.Kept.assignPitch (h : s.Kept q) {c pitch} : (State.assignPitch s c pitch).Kept q := by
  unfold State.assignPitch
  grind [← Kept.abandonCourseTest, ← Kept.modCourse, ← Kept.pumpPlans, ← Kept.startChange, ← Kept.reflat]

theorem State.Kept.mirrorVal (h : s.Kept q) {base sub n} : (State.mirrorVal s base sub n).Kept q := by
  unfold State.mirrorVal
  grind [← Kept.modTime, ← Kept.enterSource, ← Kept.remapBanks, ← Kept.cacheTrim, ← Kept.allChans, ← Kept.modDram, ← Kept.modBatten, ← Kept.modYelm, ← Kept.extendMs5, ← Kept.setHoldoff, ← Kept.modFinial, ← Kept.modPower, ← Kept.assignPitch]

theorem State.Kept.setVal (h : s.Kept q) {key v} : (State.setVal s key v).Kept q := by
  unfold State.setVal
  grind [← Kept.modDict]

theorem State.Kept.objCommand (h : s.Kept q) {w r boundary} : (State.objCommand s w r boundary).2.Kept q := by
  unfold State.objCommand
  dsimp only
  split
  · exact h.shadowEntry
  · exact h.shadowChunk
  · exact Kept.branch h.mapCommit.loadMapBanks h.mapCommit
  · exact h.whenTrue h.modDram
  · exact h.whenTrue h.keepEntry
  · exact h.control
  · exact h.modInst
  · exact h.mailSend
  · exact h.whenTrue h.mailTaken
  · exact h.keyRevoke
  · exact h.rollbackCommit
  · exact h.attestNonce
  · exact h.measureExtend
  · exact h.whenTrue h.askStepReset
  · split
    · exact h.fwBegin
    · exact h.fwEnd
    · exact h.fwAbandon
  · exact h.fwChunk
  · exact Kept.branch_snd h.fwActivate h
  · exact h.requestRidge
  · exact h.alertW1C
  · exact h.selfTestStart
  · exact h.whenTrue h.traceRearm
  · exact h.whenTrue h.availReset
  · exact Kept.branch_snd h.freezeAction <| Kept.branch_snd h.setPlynKey <| Kept.branch_snd h.planKeyWrite <| Kept.branch_snd h.applyQuota h.setVal.mirrorVal

theorem State.Kept.writeApplied (h : s.Kept q) {w persistent status} : (State.writeApplied s w persistent status).Kept q := by
  unfold State.writeApplied
  grind [← Kept.modDict, ← Kept.finishWrite]

theorem State.Kept.applyWrite (h : s.Kept q) {w r boundary} : (State.applyWrite s w r boundary).Kept q := by
  unfold State.applyWrite
  grind [← Kept.finishWrite, ← Kept.objCommand, ← Kept.writeApplied]

theorem State.Kept.dictSubmit (h : s.Kept q) {w type} : (State.dictSubmit s w type).Kept q := by
  unfold State.dictSubmit
  grind [← Kept.journal, ← Kept.finishWrite, ← Kept.modDict, ← Kept.applyWrite]

theorem State.Kept.readClears (h : s.Kept q) {key} : (State.readClears s key).Kept q := by
  unfold State.readClears
  grind [← Kept.setRo, ← Kept.modList, ← Kept.modPower, ← Kept.foldl, ← Kept.foldl_snd, ← Kept.foldl_fst]

theorem State.Kept.serveWindow (h : s.Kept q) {f} : (State.serveWindow s f).Kept q := by
  unfold State.serveWindow
  grind [← Kept.windowEnd, ← Kept.finishWrite, ← Kept.journal, ← Kept.dictSubmit, ← Kept.readClears]

theorem State.Kept.noteDeferral (h : s.Kept q) : (State.noteDeferral s).Kept q := by
  unfold State.noteDeferral
  grind [← Kept.modFinial]

theorem State.Kept.dwGo (h : s.Kept q) {f} : (State.dwGo s f).Kept q := by
  unfold State.dwGo
  grind [← Kept.bump, ← Kept.modWindow, ← Kept.stamp, ← Kept.serveWindow, ← Kept.noteDeferral, ← Kept.modDict]

theorem State.Kept.dwData (h : s.Kept q) {f off bytes} : (State.dwData s f off bytes).Kept q := by
  unfold State.dwData
  grind [← Kept.modWindow]

theorem State.Kept.windowBlock (h : s.Kept q) {f off data} : (State.windowBlock s f off data).Kept q := by
  unfold State.windowBlock
  grind [← Kept.dwReq, ← Kept.dwGo, ← Kept.dwData]

theorem State.Kept.bar0Write (h : s.Kept q) {f off data} : (State.bar0Write s f off data).Kept q := by
  unfold State.bar0Write
  grind [← Kept.unsupported, ← Kept.taskBlock, ← Kept.intBlock, ← Kept.modRegs, ← Kept.modFunc, ← Kept.msixWrite, ← Kept.windowBlock]

theorem State.Kept.ridgeBusError (h : s.Kept q) {r a} : (State.ridgeBusError s r a).Kept q := by
  unfold State.ridgeBusError
  grind [← Kept.raise, ← Kept.emit]

theorem State.Kept.linkReset (h : s.Kept q) {f} : (State.linkReset s f).Kept q := by
  unfold State.linkReset
  grind [← Kept.modFunc, ← Kept.modDict]

theorem State.Kept.linkDown (h : s.Kept q) {p cause} : (State.linkDown s p cause).Kept q := by
  unfold State.linkDown
  grind [← Kept.modPort, ← Kept.freezePort, ← Kept.linkReset, ← Kept.foldl, ← Kept.foldl_snd, ← Kept.foldl_fst]

theorem State.Kept.portBlock (h : s.Kept q) {p off data} : (State.portBlock s p off data).Kept q := by
  unfold State.portBlock
  grind [← Kept.modPort, ← Kept.linkDown]

theorem State.Kept.tileBlock (h : s.Kept q) {t off data} : (State.tileBlock s t off data).Kept q := by
  unfold State.tileBlock
  grind [← Kept.modTile]

theorem State.Kept.finialBlock (h : s.Kept q) {off data} : (State.finialBlock s off data).Kept q := by
  unfold State.finialBlock
  grind [← Kept.setHoldoff, ← Kept.alertW1C, ← Kept.modFinial]

theorem State.Kept.slotTableWrite (h : s.Kept q) {slot off data} : (State.slotTableWrite s slot off data).Kept q := by
  unfold State.slotTableWrite
  grind [← Kept.modBatten]

theorem State.Kept.battenBlock (h : s.Kept q) {off data} : (State.battenBlock s off data).Kept q := by
  unfold State.battenBlock
  grind [← Kept.pumpPlans, ← Kept.modBatten, ← Kept.slotTableWrite]

theorem State.Kept.chanCtrlWrite (h : s.Kept q) {c off data} : (State.chanCtrlWrite s c off data).Kept q := by
  unfold State.chanCtrlWrite
  grind [← Kept.modChan]

theorem State.Kept.chanBlock (h : s.Kept q) {c off data} : (State.chanBlock s c off data).Kept q := by
  unfold State.chanBlock
  grind [← Kept.chanCtrlWrite, ← Kept.modChan]

theorem State.Kept.gutterBlock (h : s.Kept q) {off data} : (State.gutterBlock s off data).Kept q := by
  unfold State.gutterBlock
  grind [← Kept.modGutter, ← Kept.chanBlock]

theorem State.Kept.yelmBlock (h : s.Kept q) {off data} : (State.yelmBlock s off data).Kept q := by
  unfold State.yelmBlock
  grind [← Kept.modYelm, ← Kept.foldl, ← Kept.foldl_snd, ← Kept.foldl_fst]

theorem State.Kept.modCtx (h : s.Kept q) {k f} : (State.modCtx s k f).Kept q := by
  unfold State.modCtx
  grind [← Kept.modFlash]

theorem State.Kept.flashClear (h : s.Kept q) {cause} : (State.flashClear s cause).Kept q := by
  unfold State.flashClear
  grind [← Kept.stamp, ← Kept.modFlash, ← Kept.raise, ← Kept.bump]

theorem State.Kept.fcStart (h : s.Kept q) {k ctrl} : (State.fcStart s k ctrl).Kept q := by
  unfold State.fcStart
  dsimp only
  refine Kept.branch h.modCtx <| Kept.branch h ?_
  split
  · exact h.modCtx
  · refine Kept.branch h.flashClear ?_
    have hkey := fun {c : Prop} [Decidable c] {a n k} => Kept.branch_snd (c := c) (a := s.devRead a n false) (b := (k, s)) h.devRead h
    generalize hr : (@ite (Option Bytes × State) ..) = r
    have hk : r.2.Kept q := hr ▸ hkey
    obtain ⟨_ | key, s₁⟩ := r
    · exact hk.modCtx
    · dsimp only at hk ⊢
      refine Kept.branch (Kept.branch hk.modCtx.flashClear ?_) hk.modCtx
      generalize hd : s₁.devRead _ _ true = d
      have hkd : d.2.Kept q := hd ▸ hk.devRead
      obtain ⟨_ | _, _⟩ := d
      · exact hkd.modCtx
      · exact hkd.modCtx.bump

theorem State.Kept.fcData (h : s.Kept q) {k data} : (State.fcData s k data).Kept q := by
  unfold State.fcData
  grind [← Kept.modCtx, ← Kept.bump]

theorem State.Kept.fcKeyctl (h : s.Kept q) {k value} : (State.fcKeyctl s k value).Kept q := by
  unfold State.fcKeyctl
  grind [← Kept.modCtx]

theorem State.Kept.fcBlock (h : s.Kept q) {k off data} : (State.fcBlock s k off data).Kept q := by
  unfold State.fcBlock
  dsimp only
  exact Kept.branch (Kept.branch h.fcStart h.modCtx) <| Kept.branch h.fcData <| Kept.branch h.fcKeyctl <| Kept.branch h <| Kept.branch h.modCtx <|
    Kept.branch h.modCtx <| Kept.branch h.modCtx <| Kept.branch h.modCtx <| Kept.branch h.modCtx <| Kept.branch h.modCtx h

theorem State.Kept.flashBlock (h : s.Kept q) {off data} : (State.flashBlock s off data).Kept q := by
  unfold State.flashBlock
  grind [← Kept.modFlash, ← Kept.fcBlock]

theorem State.Kept.pExecute (h : s.Kept q) {r f} : (State.pExecute s r f).2.2.Kept q := by
  unfold State.pExecute
  dsimp only
  split
  · have hp := h.pSearch (banks := banksOf r.banks) (key := keyUnits (s.purlin.banks[(banksOf r.banks).headD 0]).width r.key) (f := f)
    revert hp
    generalize s.pSearch _ _ _ = p
    obtain ⟨_ | _, _⟩ := p
    · exact id
    · exact id
  · exact Kept.branch_snd_snd (Kept.foldl_snd_snd (fun _ _ hp => hp.pInsert) h) h.pInsert
  · exact h.modBank
  · split
    · exact h.modBank
    · exact h
  · split
    · exact h
    · exact h
  · exact Kept.foldl (fun _ _ hs => hs.modBank) h

theorem State.Kept.purlinWait (h : s.Kept q) {who x1} : (State.purlinWait s who x1).Kept q := by
  unfold State.purlinWait
  grind [← Kept.modPurlin]

theorem State.Kept.purlinAnswer (h : s.Kept q) {who x1 r key} : (State.purlinAnswer s who x1 r key).Kept q := by
  unfold State.purlinAnswer
  grind [← Kept.modPurlin, ← Kept.modTile]

theorem State.Kept.spendEnergy (h : s.Kept q) {t} : (State.spendEnergy s t).Kept q := by
  unfold State.spendEnergy
  grind [← Kept.modSched, ← Kept.modPlan]

theorem State.Kept.yelmLeave (h : s.Kept q) {t code} : (State.yelmLeave s t code).Kept q := by
  unfold State.yelmLeave
  grind [← Kept.modYelm]

theorem State.Kept.freeTile (h : s.Kept q) {t x} : (State.freeTile s t x).Kept q := by
  have hs := (h.yelmLeave (t := t) (code := 0x6002)).spendEnergy (t := t)
  unfold State.freeTile
  generalize (s.yelmLeave t 0x6002).spendEnergy t = s₁ at hs ⊢
  dsimp only
  split
  · exact hs.tileTo
  · exact Kept.syncSlot (Kept.modTile (Kept.modSched (Kept.tileTo (Kept.foldl (fun _ _ hs => hs.clearBank) hs.dropHip))) fun _ => by rfl)

theorem State.Kept.resetTile (h : s.Kept q) {t} : (State.resetTile s t).Kept q :=
  h.modPurlin.freeTile.modSched.modTile fun _ => by rfl

theorem State.Kept.noteFault (h : s.Kept q) {t} : (State.noteFault s t).Kept q := by
  unfold State.noteFault
  grind [← Kept.modSched, ← Kept.raise]

theorem State.Kept.placeRerun (h : s.Kept q) {d order exclude} : (State.placeRerun s d order exclude).Kept q := by
  unfold State.placeRerun
  grind [← Kept.placeBundle, ← Kept.bump, ← Kept.discardRegion]

theorem State.Kept.unitDone (h : s.Kept q) {d} : (State.unitDone s d).Kept q := by
  unfold State.unitDone
  grind [← Kept.modPlan, ← Kept.discardRegion]

theorem State.Kept.bundleFails (h : s.Kept q) {d order code exclude purged} : (State.bundleFails s d order code exclude purged).Kept q := by
  unfold State.bundleFails
  grind [← Kept.placeRerun, ← Kept.finishJob, ← Kept.unitDone, ← Kept.endPlan, ← Kept.clearBank, ← Kept.modPlan, ← Kept.foldl, ← Kept.foldl_snd, ← Kept.foldl_fst]

theorem State.Kept.tileLost (h : s.Kept q) {t code exclude fault} : (State.tileLost s t code exclude fault).Kept q := by
  unfold State.tileLost
  grind [← Kept.resetTile, ← Kept.noteFault, ← Kept.pumpPlans, ← Kept.doneRecord, ← Kept.bundleFails]

theorem State.Kept.bankLost (h : s.Kept q) {b} : (State.bankLost s b).Kept q := by
  unfold State.bankLost
  grind [← Kept.tileLost, ← Kept.doneRecord, ← Kept.dropLeases, ← Kept.unready, ← Kept.pumpPlans, ← Kept.bundleFails, ← Kept.syncSlot, ← Kept.foldl, ← Kept.foldl_snd, ← Kept.foldl_fst]

theorem State.Kept.purlinRun (h : s.Kept q) {who x1 f} : (State.purlinRun s who x1 f).Kept q := by
  unfold State.purlinRun
  grind [← Kept.pExecute, ← Kept.purlinWait, ← Kept.purlinAnswer, ← Kept.bump, ← Kept.bankLost, ← Kept.foldl, ← Kept.foldl_snd, ← Kept.foldl_fst]

theorem State.Kept.purlinRetry (h : s.Kept q) : (State.purlinRetry s).Kept q := by
  unfold State.purlinRetry
  grind [← Kept.purlinRun, ← Kept.purlinWait, ← Kept.modPurlin, ← Kept.foldl, ← Kept.foldl_snd, ← Kept.foldl_fst]

theorem State.Kept.purlinDo (h : s.Kept q) {who x1 f} : (State.purlinDo s who x1 f).Kept q := by
  unfold State.purlinDo
  grind [← Kept.purlinAnswer, ← Kept.endPlan, ← Kept.purlinWait, ← Kept.purlinRun]

theorem State.Kept.purlinBlock (h : s.Kept q) {off data} : (State.purlinBlock s off data).Kept q := by
  unfold State.purlinBlock
  grind [← Kept.purlinRetry, ← Kept.modBank, ← Kept.modPurlin, ← Kept.purlinDo]

theorem State.Kept.sliceBlock (h : s.Kept q) {off data} : (State.sliceBlock s off data).Kept q := by
  unfold State.sliceBlock
  grind [← Kept.modSlice, ← Kept.modThatch]

theorem State.Kept.memBlock (h : s.Kept q) {off data} : (State.memBlock s off data).Kept q := by
  unfold State.memBlock
  grind [← Kept.modDram, ← Kept.modMemChan]

theorem State.Kept.policyParkWrite (h : s.Kept q) {mask} : (State.policyParkWrite s mask).Kept q := by
  unfold State.policyParkWrite
  grind [← Kept.pumpPlans, ← Kept.startChange, ← Kept.modCourse, ← Kept.foldl, ← Kept.foldl_snd, ← Kept.foldl_fst]

theorem State.Kept.ridgeWrite (h : s.Kept q) {off data} : (State.ridgeWrite s off data).Kept q := by
  unfold State.ridgeWrite
  grind [← Kept.bar0Write, ← Kept.portBlock, ← Kept.tileBlock, ← Kept.finialBlock, ← Kept.battenBlock, ← Kept.gutterBlock, ← Kept.yelmBlock, ← Kept.flashBlock, ← Kept.purlinBlock, ← Kept.sliceBlock, ← Kept.memBlock, ← Kept.policyParkWrite]

theorem State.Kept.apertureWrite (h : s.Kept q) {a bs} : (State.apertureWrite s a bs).Kept q := by
  unfold State.apertureWrite
  grind [← Kept.modSlice]

theorem State.Kept.devWrite1 (h : s.Kept q) {a bs} : (State.devWrite1 s a bs).Kept q := by
  unfold State.devWrite1
  split
  · exact h.sysWrite
  · exact h.apertureWrite
  · exact h.modTile_wf (scratchWrite_wf _ _ _)
  · exact h

theorem State.Kept.devWrite (h : s.Kept q) {a bs} : (State.devWrite s a bs).Kept q := by
  unfold State.devWrite
  grind [← Kept.devWrite1, ← Kept.foldl, ← Kept.foldl_snd, ← Kept.foldl_fst]

theorem State.Kept.ridgeStore (h : s.Kept q) {r a data} : (State.ridgeStore s r a data).Kept q := by
  unfold State.ridgeStore
  grind [← Kept.modFinial, ← Kept.ridgeBusError, ← Kept.ridgeWrite, ← Kept.devWrite]

theorem State.Kept.bar0Read (h : s.Kept q) {f off n} : (State.bar0Read s f off n).Kept q := by
  unfold State.bar0Read
  grind [← Kept.unsupported, ← Kept.emit]

end Sys2Proof.Machine
end

