-- ==== Sys2Proof/Proofs/KeptPlans.lean ====
section
/-! SUPPORT. The functions of tables, plans, bundles and instances keep the queue and the canonical form. -/

namespace Sys2Proof.Machine

set_option Elab.async false

variable {q : Keeping} {s : State}

theorem State.Kept.apertureSpoil (h : s.Kept q) {a} : (State.apertureSpoil s a).Kept q := by
  unfold State.apertureSpoil
  grind [← Kept.bump, ← Kept.modSlice]

theorem State.Kept.ridgeLoad (h : s.Kept q) {r a n parity} : (State.ridgeLoad s r a n parity).Kept q := by
  unfold State.ridgeLoad
  grind [← Kept.ridgeBusError, ← Kept.emit, ← Kept.apertureSpoil, ← Kept.apertureRecord, ← Kept.devRead]

theorem State.Kept.fenceCourse (h : s.Kept q) {c} : (State.fenceCourse s c).Kept q := by
  unfold State.fenceCourse
  grind [← Kept.modBoot, ← Kept.pumpPlans, ← Kept.tileLost, ← Kept.tileTo, ← Kept.foldl, ← Kept.foldl_snd, ← Kept.foldl_fst]

theorem State.Kept.enterHoldover (h : s.Kept q) : (State.enterHoldover s).Kept q := by
  unfold State.enterHoldover
  grind [← Kept.modTime, ← Kept.bump, ← Kept.raise]

theorem State.Kept.modRidge (h : s.Kept q) {r f} : (State.modRidge s r f).Kept q := by
  unfold State.modRidge
  grind [← Kept.modFinial]

theorem State.Kept.grant (h : s.Kept q) {r} : (State.grant s r).Kept q := by
  unfold State.grant
  grind [← Kept.modRidge, ← Kept.modFinial]

theorem State.Kept.endRequest (h : s.Kept q) {status} : (State.endRequest s status).Kept q := by
  unfold State.endRequest
  grind [← Kept.finishWrite, ← Kept.modFinial]

theorem State.Kept.alert (h : s.Kept q) {bit sev scope scopeId} : (State.alert s bit sev scope scopeId).Kept q := by
  unfold State.alert
  grind [← Kept.raise, ← Kept.modFinial]

theorem State.Kept.noteStandby (h : s.Kept q) : (State.noteStandby s).Kept q := by
  unfold State.noteStandby
  grind [← Kept.unalert, ← Kept.alert]

theorem State.Kept.ridgeFails (h : s.Kept q) {r cause} : (State.ridgeFails s r cause).Kept q := by
  unfold State.ridgeFails
  grind [← Kept.modRidge, ← Kept.modFinial, ← Kept.endRequest, ← Kept.noteStandby]

theorem State.Kept.setOutage (h : s.Kept q) {on} : (State.setOutage s on).Kept q := by
  unfold State.setOutage
  grind [← Kept.modErr]

theorem State.Kept.noteOutage (h : s.Kept q) : (State.noteOutage s).Kept q := by
  unfold State.noteOutage
  grind [← Kept.setOutage]

theorem State.Kept.flashFreeAll (h : s.Kept q) : (State.flashFreeAll s).Kept q := by
  unfold State.flashFreeAll
  grind [← Kept.modFlash]

theorem State.Kept.mapFind (h : s.Kept q) {g key} : (State.mapFind s g key).2.Kept q := by
  unfold State.mapFind
  grind [← Kept.pSearch, ← Kept.bump]

theorem State.Kept.decodePdus (h : s.Kept q) {g p} : (State.decodePdus s g p).2.Kept q := by
  unfold State.decodePdus
  grind [← Kept.mapFind, ← Kept.foldl, ← Kept.foldl_snd, ← Kept.foldl_fst]

theorem State.Kept.enterRow {p : State × UnitOut} (h : p.1.Kept q) {x} : (State.enterRow p x).1.Kept q := by
  unfold State.enterRow
  dsimp only
  split
  · exact h
  · exact Kept.branch_fst h.modTable (Kept.branch_fst h.placeRow.enforce.bump h.bump)

theorem State.Kept.noteHeld (h : s.Kept q) : (State.noteHeld s).Kept q := by
  unfold State.noteHeld
  grind [← Kept.setRo]

theorem State.Kept.enterUnit (h : s.Kept q) {unit rows} : (State.enterUnit s unit rows).1.Kept q := by
  unfold State.enterUnit
  dsimp only
  split
  · split
    · exact h.modIngest.bump.bump.raise
    · exact h.modIngest.bump.bump
  · exact (Kept.foldl_fst (fun _ _ hp => hp.enterRow) h.modIngest.modIngest).noteHeld

theorem State.Kept.enterFrame (h : s.Kept q) {port e base} : (State.enterFrame s port e base).Kept q := by
  unfold State.enterFrame
  grind [← Kept.enterUnit]

theorem State.Kept.redecode (h : s.Kept q) {port e} : (State.redecode s port e).Kept q := by
  unfold State.redecode
  grind [← Kept.decodePdus, ← Kept.enterFrame]

theorem State.Kept.redecodeRings (h : s.Kept q) : (State.redecodeRings s).Kept q := by
  unfold State.redecodeRings
  grind [← Kept.redecode, ← Kept.foldl, ← Kept.foldl_snd, ← Kept.foldl_fst]

theorem State.Kept.takeUp (h : s.Kept q) : (State.takeUp s).Kept q := by
  unfold State.takeUp
  grind [← Kept.flashFreeAll, ← Kept.modTables, ← Kept.complete, ← Kept.setDetails, ← Kept.redecodeRings, ← Kept.noteOutage, ← Kept.modFinial, ← Kept.foldl, ← Kept.foldl_snd, ← Kept.foldl_fst]

theorem State.Kept.takeover (h : s.Kept q) {r next cause} : (State.takeover s r next cause).Kept q := by
  unfold State.takeover
  dsimp only
  refine (State.Kept.branch (State.Kept.endRequest ?_) ?_).takeUp.noteStandby
  all_goals exact h.fresh.modFinial.noteOutage.ridgeFails.grant.stamp.modFinial.alert.advanceTo

theorem State.Kept.loneStart (h : s.Kept q) {r cause} : (State.loneStart s r cause).Kept q := by
  unfold State.loneStart
  grind [← Kept.ridgeFails, ← Kept.modFinial, ← Kept.noteOutage, ← Kept.alert]

theorem State.Kept.declareFailed (h : s.Kept q) {r cause} : (State.declareFailed s r cause).Kept q := by
  unfold State.declareFailed
  grind [← Kept.takeover, ← Kept.loneStart]

theorem State.Kept.loneFails (h : s.Kept q) {r} : (State.loneFails s r).Kept q := by
  unfold State.loneFails
  grind [← Kept.alert, ← Kept.grant, ← Kept.modFinial, ← Kept.noteStandby, ← Kept.takeUp, ← Kept.modRidge, ← Kept.noteOutage]

theorem State.Kept.standbyFails (h : s.Kept q) {r cause} : (State.standbyFails s r cause).Kept q := by
  unfold State.standbyFails
  grind [← Kept.modFinial, ← Kept.loneFails, ← Kept.ridgeFails]

theorem State.Kept.ridgeDown (h : s.Kept q) {r cause} : (State.ridgeDown s r cause).Kept q := by
  unfold State.ridgeDown
  grind [← Kept.declareFailed, ← Kept.standbyFails]

theorem State.Kept.containClock (h : s.Kept q) {domain} : (State.containClock s domain).Kept q := by
  unfold State.containClock
  grind [← Kept.fenceCourse, ← Kept.keepEntry, ← Kept.freezePort, ← Kept.modIngest, ← Kept.enterHoldover, ← Kept.modDict, ← Kept.ridgeDown, ← Kept.modTime, ← Kept.foldl, ← Kept.foldl_snd, ← Kept.foldl_fst]

theorem State.Kept.flashAlarm (h : s.Kept q) {cause} : (State.flashAlarm s cause).Kept q := by
  unfold State.flashAlarm
  grind [← Kept.flashClear, ← Kept.modFlash]

theorem State.Kept.clockAlarm (h : s.Kept q) {domain} : (State.clockAlarm s domain).Kept q := by
  unfold State.clockAlarm
  grind [← Kept.modBoot, ← Kept.raise, ← Kept.containClock, ← Kept.flashAlarm]

theorem State.Kept.bar2Read (h : s.Kept q) {f off n} : (State.bar2Read s f off n).Kept q := by
  unfold State.bar2Read
  split
  · exact h.unsupported
  · split
    · exact h.unsupported
    · split
      · exact h.unsupported
      · exact h.emit

theorem State.Kept.endLoads (h : s.Kept q) : (State.endLoads s).Kept q := by
  unfold State.endLoads
  grind [← Kept.modCourseStat, ← Kept.foldl, ← Kept.foldl_snd, ← Kept.foldl_fst]

theorem State.Kept.timeInsert (h : s.Kept q) {e} {s' : State} (hs : s.timeInsert e = some s') : s'.Kept q := by
  obtain ⟨k, -, rfl⟩ := Option.map_eq_some_iff.mp hs
  exact h.modBatten

theorem State.Kept.bind_timeInsert (h : s.Kept q) {o : Option DEntry} {s' : State} (hs : o.bind s.timeInsert = some s') : s'.Kept q := by
  obtain ⟨e, -, hs⟩ := Option.bind_eq_some_iff.mp hs
  exact h.timeInsert hs

theorem State.Kept.delayInsert (h : s.Kept q) {e} : (State.delayInsert s e).2.Kept q := by
  unfold State.delayInsert
  grind [← Kept.bump, ← Kept.modBatten]

theorem State.Kept.armQuery (h : s.Kept q) {cq x due step} : (State.armQuery s cq x due step).Kept q := by
  have hdrop := h.delayDrop (cq := cq)
  unfold State.armQuery
  generalize s.delayDrop cq = s₁ at hdrop
  dsimp only
  refine State.Kept.modQuery ?_
  split
  · next heq => exact hdrop.bind_timeInsert heq
  · dsimp only
    exact hdrop.delayInsert

theorem State.Kept.armNext (h : s.Kept q) {cq} : (State.armNext s cq).Kept q := by
  unfold State.armNext
  grind [← Kept.armQuery]

theorem State.Kept.moveEntry (h : s.Kept q) {cq} : (State.moveEntry s cq).Kept q := by
  unfold State.moveEntry
  grind [← Kept.armNext]

theorem State.Kept.returnEntries (h : s.Kept q) : (State.returnEntries s).Kept q := by
  unfold State.returnEntries
  grind [← Kept.modBatten, ← Kept.foldl, ← Kept.foldl_snd, ← Kept.foldl_fst]

theorem State.Kept.convertEntries (h : s.Kept q) {k} : (State.convertEntries s k).Kept q := by
  refine Kept.foldl (fun s e hs => ?_) h.returnEntries.modBatten
  split
  · exact hs
  · next heq => exact (hs.bind_timeInsert heq).modBatten

theorem State.Kept.pushFiring (h : s.Kept q) {cq x1 w amend catchUp late} : (State.pushFiring s cq x1 w amend catchUp late).Kept q := by
  unfold State.pushFiring
  grind [← Kept.stampAt, ← Kept.modQuery, ← Kept.lateRowIn, ← Kept.foldl, ← Kept.foldl_snd, ← Kept.foldl_fst]

theorem State.Kept.amendQuery (h : s.Kept q) {cq} : (State.amendQuery s cq).Kept q := by
  unfold State.amendQuery
  grind [← Kept.joinLate, ← Kept.modQuery, ← Kept.pushFiring, ← Kept.runQuery, ← Kept.foldl, ← Kept.foldl_snd, ← Kept.foldl_fst]

theorem State.Kept.placeLeft (h : s.Kept q) {cq} : (State.placeLeft s cq).Kept q := by
  unfold State.placeLeft
  grind [← Kept.placeFiring]

theorem State.Kept.battenTick (h : s.Kept q) {k} : (State.battenTick s k).Kept q := by
  unfold State.battenTick
  grind [← Kept.takeFresh, ← Kept.modBatten, ← Kept.moveEntry, ← Kept.convertEntries, ← Kept.amendQuery, ← Kept.pumpPlans, ← Kept.placeLeft, ← Kept.foldl, ← Kept.foldl_snd, ← Kept.foldl_fst]

theorem State.Kept.issueTick (h : s.Kept q) {i ts} : (State.issueTick s i ts).Kept q := by
  unfold State.issueTick
  grind [← Kept.modTime, ← Kept.battenTick, ← Kept.modFinial]

theorem State.Kept.lateTicks (h : s.Kept q) {b} : (State.lateTicks s b).Kept q := by
  unfold State.lateTicks
  grind [← Kept.issueTick, ← Kept.foldl, ← Kept.foldl_snd, ← Kept.foldl_fst]

theorem State.Kept.ingestInForce (h : s.Kept q) : (State.ingestInForce s).Kept q := by
  unfold State.ingestInForce
  grind [← Kept.modTables]

theorem State.Kept.timeRow (h : s.Kept q) {b synthetic stepNow} : (State.timeRow s b synthetic stepNow).Kept q := by
  unfold State.timeRow
  grind [← Kept.stampAt, ← Kept.modTime, ← Kept.logRow]

theorem State.Kept.judgeHeartbeat (h : s.Kept q) : (State.judgeHeartbeat s).Kept q := by
  unfold State.judgeHeartbeat
  grind [← Kept.modRidge, ← Kept.modFinial]

theorem State.Kept.arbitrateSafety (h : s.Kept q) {r l copy boundary} : (State.arbitrateSafety s r l copy boundary).Kept q := by
  unfold State.arbitrateSafety
  grind [← Kept.finishWrite, ← Kept.raise, ← Kept.bump, ← Kept.applyWrite, ← Kept.writeApplied, ← Kept.foldl, ← Kept.foldl_snd, ← Kept.foldl_fst]

theorem State.Kept.arbitratePlain (h : s.Kept q) {r l boundary} : (State.arbitratePlain s r l boundary).Kept q := by
  unfold State.arbitratePlain
  grind [← Kept.applyWrite, ← Kept.finishWrite, ← Kept.foldl, ← Kept.foldl_snd, ← Kept.foldl_fst]

theorem State.Kept.applyCycle (h : s.Kept q) {l copy boundary} : (State.applyCycle s l copy boundary).Kept q := by
  unfold State.applyCycle
  grind [← Kept.arbitrateSafety, ← Kept.arbitratePlain, ← Kept.foldl, ← Kept.foldl_snd, ← Kept.foldl_fst]

theorem State.Kept.applyStaged (h : s.Kept q) {boundary} : (State.applyStaged s boundary).Kept q := by
  unfold State.applyStaged
  grind [← Kept.modDict, ← Kept.applyCycle, ← Kept.foldl, ← Kept.foldl_snd, ← Kept.foldl_fst]

theorem State.Kept.reserveFails (h : s.Kept q) {kind} : (State.reserveFails s kind).Kept q := by
  unfold State.reserveFails
  grind [← Kept.raise, ← Kept.modTime]

theorem State.Kept.reserveCommit (h : s.Kept q) {kind ok} : (State.reserveCommit s kind ok).Kept q := by
  unfold State.reserveCommit
  grind [← Kept.reserveFails, ← Kept.modTime, ← Kept.storeWrite, ← Kept.bump]

theorem State.Kept.retryReserves (h : s.Kept q) : (State.retryReserves s).Kept q := by
  unfold State.retryReserves
  grind [← Kept.fresh, ← Kept.reserveCommit, ← Kept.foldl, ← Kept.foldl_snd, ← Kept.foldl_fst]

theorem State.Kept.enforceBuiltin (h : s.Kept q) : (State.enforceBuiltin s).Kept q := by
  unfold State.enforceBuiltin
  grind [← Kept.enforce, ← Kept.foldl, ← Kept.foldl_snd, ← Kept.foldl_fst]

theorem State.Kept.errorCopy (h : s.Kept q) : (State.errorCopy s).Kept q := by
  unfold State.errorCopy
  grind [← Kept.logRow, ← Kept.modErr, ← Kept.foldl, ← Kept.foldl_snd, ← Kept.foldl_fst]

theorem State.Kept.traceCopy (h : s.Kept q) : (State.traceCopy s).Kept q := by
  unfold State.traceCopy
  grind [← Kept.logRow, ← Kept.modBatten, ← Kept.foldl, ← Kept.foldl_snd, ← Kept.foldl_fst]

theorem State.Kept.takeDeferred (h : s.Kept q) : (State.takeDeferred s).Kept q := by
  unfold State.takeDeferred
  grind [← Kept.modDict, ← Kept.serveWindow, ← Kept.foldl, ← Kept.foldl_snd, ← Kept.foldl_fst]

theorem State.Kept.modEave (h : s.Kept q) {port f} : (State.modEave s port f).Kept q := by
  unfold State.modEave
  grind [← Kept.modIngest]

theorem State.Kept.freeRings (h : s.Kept q) {pos} : (State.freeRings s pos).Kept q := by
  unfold State.freeRings
  grind [← Kept.modEave, ← Kept.foldl, ← Kept.foldl_snd, ← Kept.foldl_fst]

theorem State.Kept.swaySend (h : s.Kept q) {kind r raft len jseq crc} : (State.swaySend s kind r raft len jseq crc).Kept q := by
  unfold State.swaySend
  grind [← Kept.stamp, ← Kept.emit]

theorem State.Kept.sendCheckpoint (h : s.Kept q) {raft bytes crc} : (State.sendCheckpoint s raft bytes crc).Kept q := by
  unfold State.sendCheckpoint
  grind [← Kept.freeRings, ← Kept.swaySend, ← Kept.modFinial]

theorem State.Kept.startHandover (h : s.Kept q) : (State.startHandover s).Kept q := by
  unfold State.startHandover
  grind [← Kept.modFinial]

theorem State.Kept.stepBy (h : s.Kept q) {n} : (State.stepBy s n).Kept q := by
  unfold State.stepBy
  grind [← Kept.modTime, ← Kept.modBatten, ← Kept.raise, ← Kept.bump]

theorem State.Kept.rafterBoundary (h : s.Kept q) {b kind ckptBytes ckptCrc} : (State.rafterBoundary s b kind ckptBytes ckptCrc).Kept q := by
  unfold State.rafterBoundary
  dsimp only
  have hrow := fun {f b l x i y} => (h.lateTicks (b := b)).endLoads.modTime (f := f) |>.ingestInForce.issueTick (i := i) (ts := y)
    |>.timeRow (b := b) (synthetic := l) (stepNow := x) |>.judgeHeartbeat
  have hend := fun {s : State} {e m n} (hs : s.Kept q) =>
    hs.retryReserves.traceCopy.errorCopy.enforceBuiltin.startHandover.sendCheckpoint (raft := e) (bytes := m) (crc := n) |>.takeDeferred
  split
  · exact (hend (Kept.branch hrow.applyStaged hrow)).stepBy
  · exact hend (Kept.branch hrow.applyStaged hrow)

theorem State.Kept.regularEdge (h : s.Kept q) : (State.regularEdge s).Kept q := by
  unfold State.regularEdge
  grind [← Kept.modTime]

theorem State.Kept.tickDue (h : s.Kept q) : (State.tickDue s).Kept q := by
  unfold State.tickDue
  grind [← Kept.issueTick, ← Kept.advanceTo]

theorem State.Kept.measured (h : s.Kept q) {offset} : (State.measured s offset).Kept q := by
  unfold State.measured
  grind [← Kept.fresh, ← Kept.modTime, ← Kept.raise]

theorem State.Kept.gptpSync (h : s.Kept q) {port domain twoStep seq log origin corr} : (State.gptpSync s port domain twoStep seq log origin corr).Kept q := by
  unfold State.gptpSync
  grind [← Kept.modTime, ← Kept.measured]

theorem State.Kept.followUp (h : s.Kept q) {port domain seq origin corr} : (State.followUp s port domain seq origin corr).Kept q := by
  unfold State.followUp
  grind [← Kept.modTime, ← Kept.measured]

theorem State.Kept.pdelayInterval (h : s.Kept q) : (State.pdelayInterval s).Kept q := by
  unfold State.pdelayInterval
  grind [← Kept.advanceTo, ← Kept.emit, ← Kept.modTime]

theorem State.Kept.syncTimeout (h : s.Kept q) : (State.syncTimeout s).Kept q := by
  unfold State.syncTimeout
  grind [← Kept.enterHoldover, ← Kept.advanceTo]

theorem State.Kept.odoTick (h : s.Kept q) {rising stable dirHigh dirStable} : (State.odoTick s rising stable dirHigh dirStable).Kept q := by
  unfold State.odoTick
  grind [← Kept.bump, ← Kept.modTime]

theorem State.Kept.tableDone (h : s.Kept q) {i c id} : (State.tableDone s i c id).Kept q := by
  unfold State.tableDone
  grind [← Kept.setDetails, ← Kept.modCmd, ← Kept.complete]

theorem State.Kept.finishDrops (h : s.Kept q) : (State.finishDrops s).Kept q := by
  unfold State.finishDrops
  grind [← Kept.tableDone, ← Kept.commitTable, ← Kept.foldl, ← Kept.foldl_snd, ← Kept.foldl_fst]

theorem State.Kept.startSeal (h : s.Kept q) {id} : (State.startSeal s id).Kept q := by
  unfold State.startSeal
  grind [← Kept.modTable]

theorem State.Kept.sealAgeExpiry (h : s.Kept q) {id} : (State.sealAgeExpiry s id).Kept q := by
  unfold State.sealAgeExpiry
  grind [← Kept.startSeal, ← Kept.advanceTo]

theorem State.Kept.sealJobs (h : s.Kept q) {jobs} : (State.sealJobs s jobs).Kept q := by
  unfold State.sealJobs
  grind [← Kept.bump, ← Kept.fresh, ← Kept.foldl, ← Kept.foldl_snd, ← Kept.foldl_fst]

theorem State.Kept.putSegment (h : s.Kept q) {id no d} {x : Segment} :
    ((s.modTable id fun t => { t with lastDigest := d, segs := t.segs.map fun y => if y.no == no then x else y }).storeSeg id no).Kept q :=
  h.modTable.storeSeg

theorem State.Kept.sealComplete (h : s.Kept q) {id} : (State.sealComplete s id).Kept q := by
  unfold State.sealComplete
  split
  · exact h
  · split
    · exact h
    · dsimp only
      refine Kept.branch h (Kept.enforce ?_)
      exact Kept.branch
        (Kept.branch h.stamp.newPlaces.bump.sealJobs.dictForget.putSegment.bump
          h.stamp.newPlaces.bump.sealJobs.dictForget.putSegment).modPurlin.catalogue.modTables.putSegment.catalogue
        (Kept.branch h.stamp.newPlaces.bump.sealJobs.dictForget.putSegment.bump
          h.stamp.newPlaces.bump.sealJobs.dictForget.putSegment).modPurlin.catalogue

theorem State.Kept.retainTable (h : s.Kept q) {id} : (State.retainTable s id).Kept q := by
  unfold State.retainTable
  grind [← Kept.retireSeg, ← Kept.foldl, ← Kept.foldl_snd, ← Kept.foldl_fst]

theorem State.Kept.retention (h : s.Kept q) : (State.retention s).Kept q := by
  unfold State.retention
  grind [← Kept.modTables, ← Kept.enforce, ← Kept.retainTable, ← Kept.foldl, ← Kept.foldl_snd, ← Kept.foldl_fst]

theorem State.Kept.storeChunk (h : s.Kept q) {id no col copyB} : (State.storeChunk s id no col copyB).Kept q := by
  unfold State.storeChunk
  grind [← Kept.sysWrite, ← Kept.foldl, ← Kept.foldl_snd, ← Kept.foldl_fst]

theorem State.Kept.lappedRepair (h : s.Kept q) {id no col copyB} : (State.lappedRepair s id no col copyB).Kept q := by
  unfold State.lappedRepair
  grind [← Kept.modTable, ← Kept.bump, ← Kept.storeChunk]

theorem State.Kept.appendHeader (h : s.Kept q) {i seq header} : (State.appendHeader s i seq header).Kept q := by
  unfold State.appendHeader
  grind [← Kept.complete, ← Kept.freeCmdTags, ← Kept.modCmd]

theorem State.Kept.putStaging (h : s.Kept q) {i st} : (State.putStaging s i st).Kept q := by
  unfold State.putStaging
  grind [← Kept.modInst]

theorem State.Kept.appendPayload (h : s.Kept q) {i seq payload} : (State.appendPayload s i seq payload).Kept q := by
  unfold State.appendPayload
  split
  · dsimp only
    split
    · exact h.freeCmdTags.putStaging.setDetails.complete
    · split
      · exact h.freeCmdTags.putStaging.setDetails.complete
      · split
        · exact h.freeCmdTags.putStaging.putStaging.setDetails.complete
        · exact h.freeCmdTags.putStaging.enterUnit.modIngest.setDetails.modCmd.settleAppends
  · exact h

theorem State.Kept.eaveCount (h : s.Kept q) {port sub n} : (State.eaveCount s port sub n).Kept q := by
  unfold State.eaveCount
  grind [← Kept.bump]

theorem State.Kept.eaveNote (h : s.Kept q) {port event} : (State.eaveNote s port event).Kept q := by
  unfold State.eaveNote
  grind [← Kept.raise]

theorem State.Kept.eaveFrame (h : s.Kept q) {port frame fcsOk} : (State.eaveFrame s port frame fcsOk).Kept q := by
  unfold State.eaveFrame
  grind [← Kept.eaveCount, ← Kept.eaveNote, ← Kept.modEave, ← Kept.setRo]

theorem State.Kept.frameCounts (h : s.Kept q) {port p d} : (State.frameCounts s port p d).Kept q := by
  have h₀ := (((h.eaveCount (port := port) (sub := 6) (n := d.matched)).eaveCount (port := port) (sub := 7) (n := d.unknown)).eaveCount (port := port)
    (sub := 9) (n := d.short)).eaveCount (port := port) (sub := 0x0F) (n := p.skipped)
  have h₁ := h₀.eaveCount (port := port) (sub := 0x0A) (n := p.trailing)
  have h₂ := Kept.branch (c := (p.flags &&& fTruncated != 0) = true) (h₁.eaveCount (port := port) (sub := 8) (n := 1)) h₁
  have h₃ := Kept.branch (c := (p.flags &&& fStopped != 0) = true) (h₂.eaveCount (port := port) (sub := 0x0B) (n := 1)) h₂
  exact Kept.branch h₃.eaveCount h₃

theorem State.Kept.plynArrive (h : s.Kept q) {peer payload ts} : (State.plynArrive s peer payload ts).Kept q := by
  unfold State.plynArrive
  grind [← Kept.bump, ← Kept.modDict]

theorem State.Kept.plynFrame (h : s.Kept q) {port frame ts} : (State.plynFrame s port frame ts).Kept q := by
  unfold State.plynFrame
  grind [← Kept.plynArrive]

theorem State.Kept.setEntry (h : s.Kept q) {port k e} : (State.setEntry s port k e).Kept q := by
  unfold State.setEntry
  grind [← Kept.modEave]

theorem State.Kept.eaveEntry (h : s.Kept q) {port} : (State.eaveEntry s port).Kept q := by
  unfold State.eaveEntry
  dsimp only
  split
  · exact h
  · next e _ =>
    refine Kept.branch h ?_
    have hd := h.decodePdus (g := s.ingest.genNo e.generation) (p := s.framePdus port e)
    refine Kept.branch (Kept.setEntry (Kept.bump (Kept.eaveCount (Kept.frameCounts (Kept.plynFrame hd)))))
      (Kept.enterFrame (Kept.eaveCount (Kept.setEntry (Kept.takeSeq (Kept.bump (Kept.eaveCount (Kept.frameCounts (Kept.plynFrame hd))))))))

theorem State.Kept.releaseLeast (h : s.Kept q) {id} : (State.releaseLeast s id).Kept q := by
  unfold State.releaseLeast
  grind [← Kept.enforce, ← Kept.placeRow, ← Kept.modTable]

theorem State.Kept.liggerRelease (h : s.Kept q) {id} : (State.liggerRelease s id).Kept q := by
  unfold State.liggerRelease
  grind [← Kept.settleAppends, ← Kept.enforce, ← Kept.releaseLeast, ← Kept.advanceTo]

theorem State.Kept.blockExpiry (h : s.Kept q) {r} : (State.blockExpiry s r).Kept q := by
  unfold State.blockExpiry
  grind [← Kept.advanceTo, ← Kept.bump, ← Kept.modIngest]

theorem State.Kept.forceDown (h : s.Kept q) {bound n} : (State.forceDown bound n s).Kept q := by
  induction n generalizing s with
  | zero => exact h
  | succ n ih =>
    unfold State.forceDown
    split
    · exact h
    · split
      · exact h
      · exact ih h.releaseLeast.bump

theorem State.Kept.forcedRelease (h : s.Kept q) : (State.forcedRelease s).Kept q := by
  unfold State.forcedRelease
  grind [← Kept.settleAppends, ← Kept.forceDown]

theorem State.Kept.plynSubmit (h : s.Kept q) {p value} : (State.plynSubmit s p value).Kept q := by
  unfold State.plynSubmit
  grind [← Kept.stamp, ← Kept.dictSubmit]

theorem State.Kept.objWrite (h : s.Kept q) {via index sub type value} : (State.objWrite s via index sub type value).Kept q := by
  unfold State.objWrite
  grind [← Kept.dwGo, ← Kept.dwData, ← Kept.dwReq, ← Kept.noteDeferral, ← Kept.plynSubmit]

theorem State.Kept.mapRewrite (h : s.Kept q) {b idx} : (State.mapRewrite s b idx).Kept q := by
  unfold State.mapRewrite
  grind [← Kept.purlinRetry, ← Kept.modBank, ← Kept.bump]

theorem State.Kept.countHit (h : s.Kept q) {i declared img} : (State.countHit s i declared img).Kept q := by
  unfold State.countHit
  grind [← Kept.bump]

theorem State.Kept.refusePlan (h : s.Kept q) {i r code off} : (State.refusePlan s i r code off).Kept q := by
  unfold State.refusePlan
  grind [← Kept.modPlans, ← Kept.bump, ← Kept.raise, ← Kept.complete]

theorem State.Kept.retireLines (h : s.Kept q) {slot} : (State.retireLines s slot).Kept q :=
  h.modTiles fun v hv t => by simpa using hv t

theorem State.Kept.cachePut (h : s.Kept q) {i img m} : (State.cachePut s i img m).Kept q := by
  unfold State.cachePut
  grind [← Kept.modPlans]

theorem State.Kept.claimBanks (h : s.Kept q) {banks : List (Fin 8)} {r : BankRole} {f : Nat} {b : Bool} {inst : Nat} :
    (banks.foldl (fun s k => (s.clearBank k).setBank k r f b inst) s).Kept q :=
  Kept.foldl (fun _ _ hs => hs.clearBank.setBank) h

theorem State.Kept.claimChans (h : s.Kept q) {chans : List ChanId} {use : ChUse} :
    (chans.foldl (fun s k => s.modChan k fun x => { x with use := use }) s).Kept q :=
  Kept.foldl (fun _ _ hs => hs.modChan) h

theorem State.Kept.allot (h : s.Kept q) {i c img params query} : (State.allot s i c img params query).2.Kept q := by
  unfold State.allot
  dsimp only
  refine State.Kept.bump (State.Kept.cachePut (State.Kept.modYelm (State.Kept.modBatten (State.Kept.modPlans (State.Kept.modInst ?_)))))
  refine claimChans (claimBanks (State.Kept.retireLines (State.Kept.modThatch ?_)))
  generalize List.map _ (parseImage img).bufs = l
  exact h.newPlaces

theorem State.Kept.acceptPlan (h : s.Kept q) {i c} : (State.acceptPlan s i c).Kept q := by
  unfold State.acceptPlan
  dsimp only
  exact h.allot.modPlan.journalWith.modCmd.readyAll.formAll.finishJob

theorem State.Kept.writeTemplates (h : s.Kept q) {cq slot} : (State.writeTemplates s cq slot).Kept q := by
  unfold State.writeTemplates
  grind [← Kept.modBatten, ← Kept.modFreeCtr, ← Kept.foldl, ← Kept.foldl_snd, ← Kept.foldl_fst]

theorem State.Kept.pastSessions (h : s.Kept q) {cq table} : (State.pastSessions s cq table).Kept q := by
  unfold State.pastSessions
  grind [← Kept.sessionRow, ← Kept.foldl, ← Kept.foldl_snd, ← Kept.foldl_fst]

theorem State.Kept.acceptQuery (h : s.Kept q) {i c cq} : (State.acceptQuery s i c cq).Kept q := by
  unfold State.acceptQuery
  dsimp only
  refine State.Kept.complete (State.Kept.journal (State.Kept.modCmd (State.Kept.setDetails (State.Kept.armNext ?_))))
  exact Kept.branch h.allot.modBatten.writeTemplates.pastSessions h.allot.modBatten.writeTemplates

theorem State.Kept.tryAdmit (h : s.Kept q) {behind i c} : (State.tryAdmit s behind i c).2.Kept q := by
  unfold State.tryAdmit
  grind [← Kept.refusePlan, ← Kept.modCmd, ← Kept.acceptPlan, ← Kept.acceptQuery]

theorem State.Kept.admitPlans (h : s.Kept q) : (State.admitPlans s).Kept q := by
  unfold State.admitPlans
  grind [← Kept.tryAdmit, ← Kept.foldl, ← Kept.foldl_snd, ← Kept.foldl_fst]

theorem State.Kept.imageRead (h : s.Kept q) {i seq image params} : (State.imageRead s i seq image params).Kept q := by
  unfold State.imageRead
  grind [← Kept.freeCmdTags, ← Kept.countHit, ← Kept.refusePlan, ← Kept.admitPlans, ← Kept.modCmd]

theorem State.Kept.reedFails (h : s.Kept q) {t code at'} : (State.reedFails s t code at').Kept q := by
  unfold State.reedFails
  grind [← Kept.modSched]

theorem State.Kept.countJob (h : s.Kept q) {inBytes outBytes status} : (State.countJob s inBytes outBytes status).Kept q := by
  unfold State.countJob
  grind [← Kept.bump]

theorem State.Kept.toScratch (h : s.Kept q) {t kib b} : (State.toScratch s t kib b).2.Kept q :=
  h.fresh.modTile_wf (scratchWrite_wf _ _ _)

theorem State.Kept.activate (h : s.Kept q) {a src8 planSlot} : (State.activate s a src8 planSlot).Kept q := by
  unfold State.activate
  grind [← Kept.modMemChan]

theorem State.Kept.touchRow (h : s.Kept q) {a src8 planSlot hint} : (State.touchRow s a src8 planSlot hint).Kept q := by
  unfold State.touchRow
  grind [← Kept.activate, ← Kept.modMemChan]

theorem State.Kept.reedLine (h : s.Kept q) {t slot a stream} : (State.reedLine s t slot a stream).2.Kept q := by
  unfold State.reedLine
  grind [← Kept.touchRow, ← Kept.thRead]

theorem State.Kept.reedAct (h : s.Kept q) {t slot kib v x} : (State.reedAct s t slot kib v x).2.Kept q := by
  unfold State.reedAct
  grind [← Kept.countJob, ← Kept.toScratch, ← Kept.reedLine, ← Kept.modTable]

theorem State.Kept.countScan (h : s.Kept q) {c fail} : (State.countScan s c fail).Kept q :=
  Kept.branch h.bump.bump.bump.bump.bump.bump.bump.bump h.bump.bump.bump.bump.bump.bump.bump

theorem State.Kept.reedBatches (h : s.Kept q) {t slots key bs} : (State.reedBatches s t slots key bs).Kept q := by
  unfold State.reedBatches
  grind [← Kept.modSched, ← Kept.modFreeCtr]

theorem State.Kept.scanStep {p : Bool × State} (h : p.2.Kept q) {t slot kib v slots x} : (State.scanStep t slot kib v slots p x).2.Kept q := by
  have hacts := Kept.foldl_snd (l := x.acts) (p := ((none : Option Nat), p.2))
    (f := fun a y => if a.1.isSome then a else a.2.reedAct t slot kib v y) (fun _ _ hp => Kept.branch_snd hp hp.reedAct) h
  unfold State.scanStep
  split
  · exact h
  · dsimp only
    split
    · exact hacts.reedFails
    · split
      · exact hacts.countScan.reedFails
      · exact hacts.countScan.reedBatches
      · exact hacts.countScan

theorem State.Kept.scanInto (h : s.Kept q) {t slot p m pd seg blocks} : (State.scanInto s t slot p m pd seg blocks).Kept q := by
  unfold State.scanInto
  dsimp only
  split
  · exact h.reedFails
  · split
    · exact h.reedFails
    · exact Kept.foldl_snd (fun _ _ hp => hp.scanStep) h

theorem State.Kept.reedStart (h : s.Kept q) {t seg first count bad} : (State.reedStart s t seg first count bad).Kept q := by
  unfold State.reedStart
  grind [← Kept.modTable, ← Kept.scanInto, ← Kept.modTile]

theorem State.Kept.reedAbandon (h : s.Kept q) {t} : (State.reedAbandon s t).Kept q := by
  unfold State.reedAbandon
  grind [← Kept.bump, ← Kept.modSched, ← Kept.modTile]

theorem State.Kept.feed (h : s.Kept q) {t kernels} {f : QCtx → List (Nat × Nat × OpD) → QAcc → QAcc}
    (hf : ∀ c ops a, QAcc.Kept q a → (f c ops a).Kept q) : (State.feed s t kernels f).1.Kept q := by
  unfold State.feed
  split
  · exact h
  · refine State.Kept.modSched (hf _ _ _ ?_); exact h

theorem State.Kept.kernelReturn (h : s.Kept q) {t pc status} : (State.kernelReturn s t pc status).Kept q := by
  unfold State.kernelReturn
  grind [← Kept.modTile]

theorem State.Kept.kernelEnter (h : s.Kept q) {t kib entry stack words ins sel} : (State.kernelEnter s t kib entry stack words ins sel).Kept q := by
  have hins := Kept.foldl_snd (l := ins) (p := (([] : List Nat), s))
    (f := fun acc x =>
      let (v, s) := acc.2.toScratch t kib (payloadOf x.1 0 [] x.2).2.2.2
      let (m, s) := s.toScratch t kib (bitmapOf x.2)
      (acc.1 ++ [scratchBase + v, scratchBase + m], s)) (fun _ _ hp => hp.toScratch.toScratch) h
  exact hins.toScratch.toScratch.toScratch.toScratch.fresh.modTile fun _ => by rfl

@[simp] theorem QAcc.setOp_s (a : QAcc) (j : Nat) (x : OpSt) : (a.setOp j x).s = a.s := rfl

@[simp] theorem QAcc.fail_s (a : QAcc) (code : Nat) : (a.fail code).s = a.s := rfl

@[simp] theorem QAcc.countNull_s (a : QAcc) (n : Nat) : (a.countNull n).s = a.s := rfl

theorem QAcc.Kept.foldl {α : Type} {f : QAcc → α → QAcc} {l : List α} {a : QAcc} (hf : ∀ a x, QAcc.Kept q a → (f a x).Kept q) (h : a.Kept q) :
    (l.foldl f a).Kept q := by
  induction l generalizing a with
  | nil => exact h
  | cons x l ih => exact ih (hf a x h)

theorem QAcc.Kept.overflow {a : QAcc} (h : a.Kept q) {n} : (a.overflow n).Kept q := by
  unfold QAcc.overflow
  split
  · exact h
  · exact State.Kept.bump h

theorem QAcc.Kept.branch {c : Prop} [Decidable c] {a b : QAcc} (ha : a.Kept q) (hb : b.Kept q) : (if c then a else b).Kept q := by
  split
  · exact ha
  · exact hb

theorem QAcc.Kept.branch_s {c : Prop} [Decidable c] {a b : QAcc} (ha : a.Kept q) (hb : b.Kept q) : (if c then a else b).s.Kept q := ha.branch hb

theorem QAcc.Kept.countNull {a : QAcc} (h : a.Kept q) {n} : (a.countNull n).Kept q := h

theorem QAcc.Kept.hipRecords {a : QAcc} (h : a.Kept q) {n} : (a.hipRecords n).Kept q := State.Kept.bump h

theorem QAcc.Kept.joinGroup {a : QAcc} (h : a.Kept q) {ds j g i r} : (joinGroup ds a j g i r).Kept q :=
  QAcc.Kept.overflow (a := a.setOp _ _) h

theorem QAcc.Kept.buildRow {a : QAcc} (h : a.Kept q) {banks tys keys pay unique r} : (buildRow banks tys keys pay unique a r).Kept q := by
  have hins : ∀ {l : List (Fin 8)} {x : PReq} {key f}, (l.foldl (fun (acc : PResp × State) b => acc.2.pInsert [b] x key f)
      (PResp.zero, a.s.bump 0x18C0 3 1)).2.Kept q := State.Kept.foldl_snd (fun _ _ hp => hp.pInsert) (State.Kept.bump h)
  unfold Machine.buildRow
  dsimp only
  refine QAcc.Kept.branch h (QAcc.Kept.branch ?_ (QAcc.Kept.branch ?_ ?_))
  · exact hins
  · exact State.Kept.bump hins
  · exact hins

theorem State.Kept.sizeBanks (h : s.Kept q) {banks width} : (State.sizeBanks s banks width).Kept q := by
  unfold State.sizeBanks
  grind [← Kept.modBank, ← Kept.foldl, ← Kept.foldl_snd, ← Kept.foldl_fst]

theorem State.Kept.probeRow (h : s.Kept q) {bank tys keys r} : (Machine.probeRow bank tys keys s r).2.Kept q := by
  unfold Machine.probeRow
  dsimp only
  split
  · exact h
  · exact branch_snd h h.bump.pSearch

theorem QAcc.Kept.groupKeyRow {a : QAcc} (h : a.Kept q) {emit : List Batch → QAcc → QAcc} (he : ∀ l a, QAcc.Kept q a → (emit l a).Kept q)
    {banks x ds tys keys j r} : (groupKeyRow emit banks x ds tys keys j a r).Kept q := by
  have hins : ∀ {b key x f}, (State.pInsert (a.s.bump 0x18C0 3 1) b x key f).2.Kept q := (State.Kept.bump h).pInsert
  unfold Machine.groupKeyRow
  split
  · exact h
  · dsimp only
    split
    · refine QAcc.Kept.joinGroup ?_; exact hins
    · split
      · refine QAcc.Kept.joinGroup ?_; exact hins
      · split
        · exact hins
        · refine QAcc.Kept.joinGroup ?_
          refine State.Kept.pInsert (State.Kept.foldl (fun _ _ hs => hs.clearBank) (he _ _ ?_))
          exact State.Kept.bump hins

theorem QAcc.Kept.groupHashRow {a : QAcc} (h : a.Kept q) {emit : List Batch → QAcc → QAcc} (he : ∀ l a, QAcc.Kept q a → (emit l a).Kept q)
    {c x ds tys keys j r} : (groupHashRow emit c x ds tys keys j a r).Kept q := by
  unfold Machine.groupHashRow
  split
  · exact h
  · dsimp only
    split
    · exact h.joinGroup
    · split
      · exact h.joinGroup
      · split
        · refine QAcc.Kept.joinGroup (he _ _ ?_); exact State.Kept.bump h
        · split
          · exact h
          · exact State.Kept.bump h

theorem QAcc.Kept.pushBatch {a : QAcc} (h : a.Kept q) {c ops b} : (pushBatch c ops b a).Kept q := by
  induction ops generalizing a b with
  | nil => exact h
  | cons op ops ih =>
    obtain ⟨j, i, x⟩ := op
    have hemit : ∀ (l : List Batch) a, QAcc.Kept q a → (l.foldl (fun a b => Machine.pushBatch c ops b a) a).Kept q :=
      fun l a ha => QAcc.Kept.foldl (fun _ _ h => ih h) ha
    unfold Machine.pushBatch
    split
    · exact h
    · dsimp only
      split
      · split
        · exact h
        · refine ih ?_; exact h
      · split
        · exact h
        · refine ih ?_
          refine QAcc.Kept.countNull ?_
          split
          · exact h
          · exact h
          · exact h
      · have hrun : ∀ {t : TileId} {kib entry stack words ins sel pc status},
            ((a.s.kernelEnter t kib entry stack words ins sel).kernelReturn t pc status).Kept q :=
          State.Kept.kernelReturn (State.Kept.kernelEnter h)
        split
        · exact hrun
        · refine ih ?_; exact State.Kept.modFreeCtr hrun
      · refine ih ?_; exact h
      · split
        · exact h
        · refine QAcc.Kept.foldl (fun _ _ h => h.buildRow) ?_; exact State.Kept.sizeBanks h
      · refine ih ?_; exact State.Kept.foldl_snd (fun _ _ hp => State.Kept.branch_snd hp hp.probeRow) h
      · split
        · exact hemit _ _ h
        · exact ih h
      · exact h
      · refine QAcc.Kept.foldl (fun _ _ h => ?_) h; exact h
      · split
        · exact h
        · refine QAcc.Kept.foldl (fun _ _ h => h.groupKeyRow hemit) ?_; exact State.Kept.sizeBanks h
      · exact QAcc.Kept.foldl (fun _ _ h => h.groupHashRow hemit) h
      · refine QAcc.Kept.foldl (fun _ _ h => QAcc.Kept.overflow ?_) h; exact h
      · exact h
      · split
        · exact h
        · refine QAcc.Kept.hipRecords ?_; exact h
      · split
        · exact h
        · exact h
      · exact h
      · exact h

theorem State.Kept.reedHandover (h : s.Kept q) {t kernels} : (State.reedHandover s t kernels).1.Kept q := by
  unfold State.reedHandover
  split
  · exact h
  · exact (h.toScratch.modSched.modTile fun _ => by rfl).feed fun _ _ _ ha => ha.pushBatch

theorem State.Kept.backCompare (h : s.Kept q) {b idx dead} : (State.backCompare s b idx dead).Kept q := by
  unfold State.backCompare
  grind [← Kept.falseHit, ← Kept.deadEntry, ← Kept.bankLost]

theorem State.Kept.hipYield (h : s.Kept q) {c} : (State.hipYield s c).Kept q := by
  unfold State.hipYield
  grind [← Kept.bump, ← Kept.pumpPlans, ← Kept.modPurlin]

theorem State.Kept.rearm (h : s.Kept q) {k e} : (State.rearm s k e).Kept q := by
  unfold State.rearm
  grind [← Kept.modBatten, ← Kept.delayInsert]

theorem State.Kept.windowDue (h : s.Kept q) {cq w} : (State.windowDue s cq w).Kept q := by
  unfold State.windowDue
  grind [← Kept.modQuery, ← Kept.bump, ← Kept.runQuery, ← Kept.pushFiring]

theorem State.Kept.closeSession (h : s.Kept q) {cq} : (State.closeSession s cq).Kept q := by
  unfold State.closeSession
  grind [← Kept.windowDue, ← Kept.modQuery]

theorem State.Kept.nextWindow (h : s.Kept q) {cq} : (State.nextWindow s cq).Kept q := by
  unfold State.nextWindow
  grind [← Kept.windowDue, ← Kept.modQuery]

theorem State.Kept.releaseEntry (h : s.Kept q) : s.releaseEntry.Kept q := by
  unfold State.releaseEntry
  split
  · exact h
  · split
    · exact h
    · dsimp only
      split
      · exact h.bump.trace.rearm.journal
      · split
        · exact h.bump.trace.rearm
        · split
          · exact h.bump.trace.rearm.closeSession.armNext
          · exact h.bump.trace.rearm.nextWindow

theorem State.Kept.hostWrite (h : s.Kept q) {f x data} : (State.hostWrite s f x data).Kept q := by
  unfold State.hostWrite
  grind [← Kept.emit]

theorem State.Kept.readBack (h : s.Kept q) {f x n} : (State.readBack s f x n).Kept q := by
  unfold State.readBack
  grind [← Kept.hostRead]

theorem State.Kept.deliverFiring (h : s.Kept q) {cq consumed answered} : (State.deliverFiring s cq consumed answered).Kept q := by
  unfold State.deliverFiring
  split
  · exact h
  · split
    · exact h
    · split
      · split
        · exact h.modQuery.raise
        · split
          · exact h
          · have hfill {c : Prop} [Decidable c] {fn x b} : (if c then s else s.hostWrite fn x b).Kept q := Kept.branch h h.hostWrite
            have hring {c : Prop} [Decidable c] {fn x b y b' n} : (((if c then s else s.hostWrite fn x b).hostWrite fn y b').readBack fn y n).Kept q :=
              hfill.hostWrite.readBack
            dsimp only
            refine Kept.branch h (Kept.branch hring (Kept.branch hring.hostWrite.readBack ?_))
            exact hring.hostWrite.readBack.sendVector.bump.bump.modInst.modQuery.settleRemoval.runQuery
      · exact h

theorem State.Kept.btSubmit (h : s.Kept q) {desc} : (State.btSubmit s desc).Kept q := by
  unfold State.btSubmit
  grind [← Kept.submit, ← Kept.modBatten, ← Kept.pumpPlans]

theorem State.Kept.btPurge (h : s.Kept q) {bySlot num} : (State.btPurge s bySlot num).Kept q := by
  unfold State.btPurge
  grind [← Kept.pumpPlans, ← Kept.endPlan, ← Kept.purge, ← Kept.foldl, ← Kept.foldl_snd, ← Kept.foldl_fst]

theorem State.Kept.delayAnswer (h : s.Kept q) {st entry} : (State.delayAnswer s st entry).Kept q := by
  unfold State.delayAnswer
  grind [← Kept.modBatten]

theorem State.Kept.delayInsertCmd (h : s.Kept q) {entry} : (State.delayInsertCmd s entry).Kept q := by
  unfold State.delayInsertCmd
  grind [← Kept.modBatten, ← Kept.delayAnswer, ← Kept.delayInsert]

theorem State.Kept.modDelay (h : s.Kept q) {dist f} : (State.modDelay s dist f).Kept q := by
  unfold State.modDelay
  grind [← Kept.modBatten]

theorem State.Kept.delayMove (h : s.Kept q) {dist k due} : (State.delayMove s dist k due).Kept q := by
  unfold State.delayMove
  grind [← Kept.delayAnswer, ← Kept.modDelay]

theorem State.Kept.delayRemove (h : s.Kept q) {dist k} : (State.delayRemove s dist k).Kept q := by
  unfold State.delayRemove
  grind [← Kept.delayAnswer, ← Kept.modDelay]

theorem State.Kept.reservationExpiry (h : s.Kept q) : (State.reservationExpiry s).Kept q := by
  unfold State.reservationExpiry
  grind [← Kept.advanceTo, ← Kept.pumpPlans, ← Kept.trace, ← Kept.bump]

theorem State.Kept.preemptAfter (h : s.Kept q) : (State.preemptAfter s).Kept q := by
  unfold State.preemptAfter
  grind [← Kept.pumpPlans, ← Kept.advanceTo]

theorem State.Kept.bundleRecord (h : s.Kept q) {src t code} : (State.bundleRecord s src t code).Kept q := by
  unfold State.bundleRecord
  grind [← Kept.raise]

theorem State.Kept.timeoutReset (h : s.Kept q) {t} : (State.timeoutReset s t).Kept q := by
  unfold State.timeoutReset
  grind [← Kept.modCourseStat, ← Kept.tileLost, ← Kept.bundleRecord, ← Kept.trace]

theorem State.Kept.preemptionTimeout (h : s.Kept q) {t} : (State.preemptionTimeout s t).Kept q := by
  unfold State.preemptionTimeout
  grind [← Kept.timeoutReset, ← Kept.advanceTo]

theorem State.Kept.saveLimit (h : s.Kept q) {t} : (State.saveLimit s t).Kept q := by
  unfold State.saveLimit
  grind [← Kept.timeoutReset, ← Kept.advanceTo]

theorem State.Kept.l1WriteBack (h : s.Kept q) {x} : (State.l1WriteBack s x).Kept q := by
  unfold State.l1WriteBack
  grind [← Kept.thDirty, ← Kept.thThrough, ← Kept.foldl, ← Kept.foldl_snd, ← Kept.foldl_fst]

@[simp] theorem Tile.l1Touch_scratch (c : Tile) (k : Nat) : (c.l1Touch k).scratch = c.scratch := rfl

theorem State.Kept.l1Place (h : s.Kept q) {t x} : (State.l1Place s t x).Kept q := by
  unfold State.l1Place
  dsimp only
  refine Kept.modTile ?_ fun _ => by rfl
  split
  · exact h.l1WriteBack
  · exact h

theorem State.Kept.l1Ensure (h : s.Kept q) {t line} : (State.l1Ensure s t line).2.Kept q := by
  unfold State.l1Ensure
  split
  · exact h.modTile fun _ => by rfl
  · dsimp only
    split
    · exact h.bump.l1Place
    · exact h.l1Place

theorem State.Kept.l1Sector (h : s.Kept q) {t line j} : (State.l1Sector s t line j).2.Kept q := by
  unfold State.l1Sector
  grind [← Kept.l1Ensure, ← Kept.thRead, ← Kept.modTile]

theorem State.Kept.l1Read (h : s.Kept q) {t a n} : (State.l1Read s t a n).2.Kept q := by
  unfold State.l1Read
  grind [← Kept.l1Sector]

theorem State.Kept.dramGet (h : s.Kept q) {t a n} : (State.dramGet s t a n).2.Kept q := by
  unfold State.dramGet
  grind [← Kept.l1Read, ← Kept.foldl, ← Kept.foldl_snd, ← Kept.foldl_fst]

theorem State.Kept.dropDirty (h : s.Kept q) {t lost} : (State.dropDirty s t lost).2.Kept q := by
  unfold State.dropDirty
  grind [← Kept.modTile, ← Kept.bump]

theorem State.Kept.l1CleanAt (h : s.Kept q) {t k} : (State.l1CleanAt s t k).Kept q := by
  unfold State.l1CleanAt
  grind [← Kept.modTile, ← Kept.l1WriteBack]

theorem State.Kept.l1CleanAll (h : s.Kept q) {t} : (State.l1CleanAll s t).Kept q := by
  unfold State.l1CleanAll
  grind [← Kept.l1CleanAt, ← Kept.foldl, ← Kept.foldl_snd, ← Kept.foldl_fst]

theorem State.Kept.regionLost (h : s.Kept q) {r l1} : (State.regionLost s r l1).Kept q := by
  unfold State.regionLost
  split
  · exact h
  · dsimp only
    refine Kept.branch h ?_
    split
    · exact h.modThatch.raise.tileLost
    · split
      · exact h.modThatch.raise.unready.dropLeases.doneRecord.syncSlot.bundleFails.pumpPlans
      · exact h.modThatch.raise.bump

theorem State.Kept.handAll {p : State × List KRes} (h : p.1.Kept q) {t n} : (State.handAll t n p).1.Kept q := by
  induction n generalizing p with
  | zero => exact h
  | succ n ih => exact Kept.branch_fst h (ih h.reedHandover)

theorem State.Kept.scanAll (h : s.Kept q) {t kernels slot p m pd seg blocks} : (State.scanAll s t kernels slot p m pd seg blocks).1.Kept q :=
  Kept.handAll (p := (_, _)) h.scanInto

theorem QAcc.Kept.flushOps {a : QAcc} (h : a.Kept q) {c ops} : (flushOps c ops a).Kept q := by
  induction ops generalizing a with
  | nil => exact h
  | cons op ops ih =>
    obtain ⟨j, i, x⟩ := op
    have hemit : ∀ (l : List SlotRow) (a : QAcc), a.s.Kept q →
        ((batchesOf (l.length + 1) l).foldl (fun a b => Machine.pushBatch c ops b a) a).Kept q :=
      fun l a ha => QAcc.Kept.foldl (fun _ _ h => h.pushBatch) ha
    unfold Machine.flushOps
    refine ih ?_
    split
    · exact h
    · split
      · exact hemit _ _ h
      · exact hemit _ _ h
      · exact hemit _ _ h
      · split
        · exact hemit _ _ h
        · exact h
      · split
        · refine QAcc.Kept.hipRecords ?_; exact h
        · exact h
      · exact h

theorem State.Kept.finishWork (h : s.Kept q) {t kernels} : (State.finishWork s t kernels).Kept q := by
  unfold State.finishWork
  split
  · exact h
  · have hall := Kept.handAll (p := (s, kernels)) h (t := t) (n := (s.batten.tiles[t]).reed.batches.length)
    refine State.Kept.feed ?_ fun c ops a ha => ?feed
    case feed => refine QAcc.Kept.flushOps ?_; exact ha
    refine Kept.branch_fst ?_ ?_
    · refine hall.feed fun c ops a ha => QAcc.Kept.foldl (fun _ _ h => h.pushBatch) ?_
      refine QAcc.Kept.branch_s ?_ ?_
      · exact QAcc.Kept.hipRecords ha
      · exact ha
    · exact Kept.foldl_fst (fun _ _ hp => hp.scanAll) hall

theorem State.Kept.storeRows (h : s.Kept q) {m p new} : (State.storeRows s m p new).Kept q := by
  unfold State.storeRows
  grind [← Kept.sysWrite, ← Kept.modFreeCtr, ← Kept.foldl, ← Kept.foldl_snd, ← Kept.foldl_fst]

theorem State.Kept.commitBundle (h : s.Kept q) {t} : (State.commitBundle s t).2.Kept q := by
  unfold State.commitBundle
  grind [← Kept.modPlan, ← Kept.storeRows, ← Kept.modInst, ← Kept.bump]

theorem State.Kept.bundleCompleted (h : s.Kept q) {d} : (State.bundleCompleted s d).Kept q := by
  unfold State.bundleCompleted
  grind [← Kept.unitDone, ← Kept.endPlan, ← Kept.finishJob, ← Kept.advanceFiring, ← Kept.formAll, ← Kept.readyAll]

theorem State.Kept.tileDone (h : s.Kept q) {t status kernels lost} : (State.tileDone s t status kernels lost).Kept q := by
  unfold State.tileDone
  dsimp only
  split
  · exact h
  · have hl := h.dropDirty (t := t) (lost := lost) |>.l1CleanAll (t := t)
    refine Kept.branch h (Kept.branch (Kept.foldl (fun _ _ hs => hs.regionLost) hl) (Kept.pumpPlans ?_))
    generalize hr : (@ite (Option Nat × State) ..) = r
    have hk : r.2.Kept q := hr ▸ Kept.branch_snd (Kept.branch hl.finishWork hl).commitBundle (Kept.branch hl.finishWork hl)
    obtain ⟨quota, s₁⟩ := r
    dsimp only at hk ⊢
    generalize hd : State.trace (State.doneRecord (@ite State ..) _ _ _) _ _ _ _ _ = s₂
    have hkd : s₂.Kept q := hd ▸ (Kept.branch hk.raise hk).doneRecord.trace
    have hfree := fun {c : Prop} [Decidable c] {f} => Kept.branch (c := c) ((hkd.resetTile (t := t)).noteFault (t := t))
      ((hkd.freeTile (t := t) (x := s₂.restState t)).modSched (t := t) (f := f))
    exact Kept.branch (Kept.bundleFails hfree) (Kept.branch (Kept.finishJob (Kept.unitDone hfree)) (Kept.branch (Kept.bundleCompleted hfree) (Kept.endPlan (Kept.unitDone hfree))))

theorem Tile.resume_wf {c : Tile} (b : Bytes) (v : Bool) (h : Memory.wf c.scratch = true) : Memory.wf (c.resume b v).scratch = true := by
  simp only [Tile.resume]
  exact scratchWrite_wf _ _ _ h

theorem State.Kept.restoreContext (h : s.Kept q) {t d} : (State.restoreContext s t d).Kept q := by
  unfold State.restoreContext
  dsimp only
  refine Kept.branch h ?_
  generalize hr : s.dramGet t _ _ = r
  have hk : r.2.Kept q := hr ▸ h.dramGet
  obtain ⟨_ | _, s₁⟩ := r
  · exact hk.tileDone
  · exact hk.modTile_wf (Tile.resume_wf _ _)

theorem State.Kept.clearScratch (h : s.Kept q) {t inst} : (State.clearScratch s t inst).Kept q := by
  unfold State.clearScratch
  split
  · exact h
  · exact (h.modTile_wf (filter_wf _)).modSched

theorem State.Kept.dispatchAck (h : s.Kept q) {t} : (State.dispatchAck s t).Kept q := by
  unfold State.dispatchAck
  refine Kept.branch h ?_
  dsimp only
  generalize hs : (s.tileTo t .running).modTile t _ = s₁
  have hk : s₁.Kept q := hs ▸ h.tileTo.modTile fun _ => by rfl
  cases (s₁.batten.tiles[t]).desc with
  | some d => exact Kept.pumpPlans (Kept.branch hk.clearScratch.restoreContext (Kept.preemptTile hk.clearScratch.restoreContext))
  | none => exact Kept.pumpPlans (Kept.branch hk hk.preemptTile)

theorem State.Kept.tileYield (h : s.Kept q) {t lost} : (State.tileYield s t lost).Kept q := by
  unfold State.tileYield
  dsimp only
  split
  · exact h
  · have hl := h.dropDirty (t := t) (lost := lost) |>.l1CleanAll (t := t)
    refine Kept.branch h (Kept.branch (Kept.foldl (fun _ _ hs => hs.regionLost) hl) (Kept.branch ?_ ?_))
    · exact hl.reedAbandon.yelmLeave.spendEnergy.freeTile.modSched.doneRecord.trace.unitDone.finishJob.pumpPlans
    · exact Kept.pumpPlans (Kept.placeBundle (Kept.trace (hl.reedAbandon.yelmLeave.spendEnergy.tileTo.modSched.modSched.modTile fun _ => by rfl)))

theorem State.Kept.tileResetDone (h : s.Kept q) {t} : (State.tileResetDone s t).Kept q := by
  unfold State.tileResetDone
  grind [← Kept.pumpPlans, ← Kept.modTile, ← Kept.tileTo]

theorem State.Kept.iFetch (h : s.Kept q) {t a slot} : (State.iFetch s t a slot).2.Kept q := by
  unfold State.iFetch
  grind [← Kept.modTile, ← Kept.thRead]

theorem State.Kept.sparFetch (h : s.Kept q) {t} : (State.sparFetch s t).2.Kept q := by
  unfold State.sparFetch
  grind [← Kept.iFetch]

theorem State.Kept.chargeLost (h : s.Kept q) {lost} : (State.chargeLost s lost).Kept q := by
  unfold State.chargeLost
  grind [← Kept.regionLost, ← Kept.foldl, ← Kept.foldl_snd, ← Kept.foldl_fst]

theorem State.Kept.tileStalled (h : s.Kept q) {t code} : (State.tileStalled s t code).Kept q := by
  unfold State.tileStalled
  grind [← Kept.trace, ← Kept.tileLost, ← Kept.bundleRecord]

@[simp] theorem Tile.latch_scratch (c : Tile) (cause : Nat) (pc : Word) : (c.latch cause pc).scratch = c.scratch := by
  unfold Tile.latch
  split
  · rfl
  · rfl

theorem State.Kept.stall (h : s.Kept q) {t cause pc code} : (State.stall s t cause pc code).Kept q :=
  State.Kept.tileStalled (h.modTile fun c => c.latch_scratch cause pc)

theorem State.Kept.enter (h : s.Kept q) {t : TileId} {pc cause value} : (s.modTile t fun c => c.enter pc cause value).Kept q :=
  h.modTile_wf (scratchPut_wf _ _ _)

theorem State.Kept.takeException (h : s.Kept q) {t cause value pc} : (State.takeException s t cause value pc).Kept q := by
  unfold State.takeException
  dsimp only
  split_ifs
  · exact h.stall
  · exact h.enter
  · exact h.enter
  · exact h.stall

theorem State.Kept.raiseFault (h : s.Kept q) {t pc f} : (State.raiseFault s t pc f).Kept q := by
  unfold State.raiseFault
  grind [← Kept.chargeLost, ← Kept.takeException]

theorem State.Kept.setPc (h : s.Kept q) {t pc} : (State.setPc s t pc).Kept q := by
  unfold State.setPc
  grind [← Kept.modTile]

theorem SOut.Kept.retire {o : SOut} (h : o.Kept q) {t pc} : (o.retire t pc).Kept q := by
  cases o with
  | next s lost => exact State.Kept.chargeLost (State.Kept.setPc h)
  | goto s x => exact State.Kept.setPc h
  | hold s lost => exact State.Kept.chargeLost h
  | fault s f => exact State.Kept.raiseFault h

theorem State.Kept.sparWord (h : s.Kept q) {t word legal monitor} {body : State → SOut} (hb : ∀ s, State.Kept q s → (body s).Kept q) :
    (State.sparWord s t word legal monitor body).Kept q := by
  unfold State.sparWord
  have hf := h.sparFetch (t := t)
  revert hf
  obtain ⟨f, s₁⟩ := s.sparFetch t
  intro hf
  split
  · exact h
  · cases f with
    | some f => exact hf.raiseFault
    | none =>
      dsimp only
      split_ifs
      · exact hf.raiseFault
      · exact hf.raiseFault
      · exact (hb _ hf).retire

theorem State.Kept.spar (h : s.Kept q) {t} {body : State → SOut} (hb : ∀ s, State.Kept q s → (body s).Kept q) : (State.spar s t body).Kept q :=
  h.sparWord hb

theorem State.Kept.sparRegs (h : s.Kept q) {t} {f : Tile → Tile} (hf : ∀ c, (f c).scratch = c.scratch) : (State.sparRegs s t f).Kept q :=
  h.spar fun _ hs => hs.modTile hf

@[simp] theorem Tile.setG_scratch (c : Tile) (r : Reg) (v : Word) : (c.setG r v).scratch = c.scratch := rfl

theorem State.Kept.sparG (h : s.Kept q) {t d f} : (State.sparG s t d f).Kept q := h.sparRegs fun _ => by simp

theorem State.Kept.cleanParity (h : s.Kept q) {src scope id} : (State.cleanParity s src scope id).Kept q := by
  unfold State.cleanParity
  grind [← Kept.raise]

theorem State.Kept.parityMet (h : s.Kept q) {t a p} : (State.parityMet s t a p).2.2.Kept q := by
  unfold State.parityMet
  grind [← Kept.cleanParity, ← Kept.bump, ← Kept.modTile, ← Kept.dropDirty, ← Kept.modSlice]

theorem State.Kept.tileRead (h : s.Kept q) {t a n} : (State.tileRead s t a n).2.Kept q := by
  unfold State.tileRead
  grind [← Kept.dramGet]

theorem State.Kept.loadBytes (h : s.Kept q) {t a n p} : (State.loadBytes s t a n p).2.Kept q := by
  unfold State.loadBytes
  grind [← Kept.parityMet, ← Kept.tileRead]

theorem State.Kept.sparLoad (h : s.Kept q) {t a n p} : (State.sparLoad s t a n p).2.Kept q := by
  unfold State.sparLoad
  grind [← Kept.loadBytes]

theorem State.Kept.sparLd (h : s.Kept q) {t a off n p} {put : Nat → Tile → Tile} (hf : ∀ v c, (put v c).scratch = c.scratch) :
    (State.sparLd s t a off n p put).Kept q := by
  refine h.spar fun s hs => ?_
  have hl := hs.sparLoad (t := t) (a := (s.tiles[t]).ea a off) (n := n) (p := p)
  revert hl
  generalize s.sparLoad _ _ _ _ = r
  obtain ⟨⟨_ | _, _⟩, _⟩ := r
  · exact id
  · exact fun hl => hl.modTile (hf _)

theorem State.Kept.ctlWrite (h : s.Kept q) {t off bs} : (State.ctlWrite s t off bs).Kept q := by
  have htile {f : Tile → Tile} (hf : ∀ c, (f c).scratch = c.scratch) : (s.modTile t f).Kept q := h.modTile hf
  exact Kept.branch (Kept.branch h.dispatchAck h) (Kept.branch (Kept.branch h.tileYield h) (Kept.branch h.tileDone (Kept.branch (htile fun _ => by rfl)
    (Kept.branch h.purlinDo (Kept.branch (htile fun _ => by rfl) (Kept.branch (htile fun _ => by rfl)
    (Kept.branch (Kept.branch h.reedStart (Kept.branch h.reedAbandon h)) (Kept.branch (htile fun _ => by rfl) (Kept.branch (htile fun _ => by rfl) h)))))))))

theorem State.Kept.l1Through (h : s.Kept q) {t a bs} : (State.l1Through s t a bs).Kept q := by
  unfold State.l1Through
  grind [← Kept.thThrough, ← Kept.modTile]

theorem State.Kept.l1Write (h : s.Kept q) {t a bs} : (State.l1Write s t a bs).Kept q := by
  unfold State.l1Write
  grind [← Kept.l1Through, ← Kept.l1Sector, ← Kept.l1Ensure, ← Kept.l1CleanAt, ← Kept.modTile]

theorem State.Kept.dramPut (h : s.Kept q) {t a bs} : (State.dramPut s t a bs).Kept q := by
  unfold State.dramPut
  grind [← Kept.l1Write, ← Kept.foldl, ← Kept.foldl_snd, ← Kept.foldl_fst]

theorem State.Kept.tileWrite (h : s.Kept q) {t a bs} : (State.tileWrite s t a bs).Kept q := by
  unfold State.tileWrite
  split_ifs
  · exact h.modTile_wf (scratchPut_wf _ _ _)
  · exact Kept.foldl (fun _ _ hs => hs.ctlWrite) h
  · exact h.dramPut

theorem State.Kept.sparSt (h : s.Kept q) {t a off n val} : (State.sparSt s t a off n val).Kept q := by
  refine h.spar fun s hs => ?_
  dsimp only
  split
  · exact hs
  · split
    · exact hs
    · exact hs.tileWrite

theorem State.Kept.sparBranch (h : s.Kept q) {t off taken} : (State.sparBranch s t off taken).Kept q := by
  refine h.spar fun s hs => ?_
  dsimp only
  split
  · exact hs
  · exact hs

theorem State.Kept.sparJr (h : s.Kept q) {t a} {link : Tile → Tile} (hf : ∀ c, (link c).scratch = c.scratch) : (State.sparJr s t a link).Kept q := by
  refine h.spar fun s hs => ?_
  dsimp only
  split
  · exact hs
  · exact hs.modTile hf

theorem State.Kept.sparF (h : s.Kept q) {t d f} : (State.sparF s t d f).Kept q := h.sparRegs fun _ => by rfl

@[simp] theorem Tile.addFx_scratch (c : Tile) (x : Fx) : (c.addFx x).scratch = c.scratch := rfl

theorem State.Kept.sparFc (h : s.Kept q) {t d f} : (State.sparFc s t d f).Kept q := h.sparRegs fun _ => by simp

end Sys2Proof.Machine
end

