-- ==== Sys2Proof/Proofs/KeptEvents.lean ====
section
/-! SUPPORT. The events of tiles, ports, Ridges and starts keep the queue and the canonical form. -/

namespace Sys2Proof.Machine

set_option Elab.async false

variable {q : Keeping} {s : State}

theorem State.Kept.streamLoop {step : State → CPar → List (Nat × Bool) → Granule × List (Nat × Bool)}
    (hstep : ∀ s p lost, State.Kept q s → (step s p lost).1.Kept q) (h : s.Kept q) {n p lost} : (Machine.streamLoop step n s p lost).Kept q := by
  induction n generalizing s p lost with
  | zero => exact h
  | succ n ih =>
    have hg := hstep s p lost h
    unfold Machine.streamLoop
    revert hg
    generalize step s p lost = r
    obtain ⟨_ | _ | _, _⟩ := r
    · exact fun hg => ih hg
    · exact id
    · exact id

theorem Granule.Kept.branch {c : Prop} [Decidable c] {a b : Granule} (ha : a.Kept q) (hb : b.Kept q) : (if c then a else b).Kept q := by
  split
  · exact ha
  · exact hb

theorem Granule.Kept.branch_fst {α : Type} {c : Prop} [Decidable c] {a b : Granule × α} (ha : a.1.Kept q) (hb : b.1.Kept q) :
    (if c then a else b).1.Kept q := by
  split
  · exact ha
  · exact hb

@[simp] theorem Tile.streamBack_scratch (x : Tile) (a b c va vb vc y) : (x.streamBack a b c va vb vc y).scratch = x.scratch := by
  unfold Tile.streamBack
  split
  · rfl
  · rfl

theorem State.Kept.movsGranule (h : s.Kept q) {t a b c p lost} : (Machine.movsGranule t a b c s p lost).1.Kept q := by
  unfold Machine.movsGranule
  dsimp only
  refine Granule.Kept.branch_fst h ?_
  split
  · exact h
  · exact h
  · generalize hr : s.loadBytes t _ _ p = r
    have hk : r.2.Kept q := hr ▸ h.loadBytes
    obtain ⟨⟨_ | _, _⟩, s₁⟩ := r
    · exact hk
    · exact Granule.Kept.branch (State.Kept.modTile (State.Kept.tileWrite hk) fun _ => by simp) (State.Kept.modTile (State.Kept.tileWrite hk) fun _ => by simp)

theorem State.Kept.cmpsGranule (h : s.Kept q) {t a b c p lost} : (Machine.cmpsGranule t a b c s p lost).1.Kept q := by
  unfold Machine.cmpsGranule
  dsimp only
  refine Granule.Kept.branch_fst h ?_
  split
  · exact h
  · exact h
  · generalize hr : s.loadBytes t _ _ p = r
    have hk : r.2.Kept q := hr ▸ h.loadBytes
    obtain ⟨⟨_ | _, _⟩, s₁⟩ := r
    · exact hk
    · dsimp only at hk ⊢
      generalize hd : s₁.loadBytes t _ _ _ = d
      have hkd : d.2.Kept q := hd ▸ hk.loadBytes
      obtain ⟨⟨_ | _, _⟩, s₂⟩ := d
      · exact hkd
      · dsimp only at hkd ⊢
        split
        · exact State.Kept.modTile hkd fun _ => by simp
        · exact Granule.Kept.branch (State.Kept.modTile hkd fun _ => by simp) (State.Kept.modTile hkd fun _ => by simp)

theorem State.Kept.fillsGranule (h : s.Kept q) {t a b c p lost} : (Machine.fillsGranule t a b c s p lost).1.Kept q := by
  unfold Machine.fillsGranule
  dsimp only
  refine Granule.Kept.branch_fst h ?_
  split
  · exact h
  · exact Granule.Kept.branch (State.Kept.modTile h.tileWrite fun _ => by simp) (State.Kept.modTile h.tileWrite fun _ => by simp)

theorem State.Kept.scansGranule (h : s.Kept q) {t a b c p lost} : (Machine.scansGranule t a b c s p lost).1.Kept q := by
  unfold Machine.scansGranule
  dsimp only
  refine Granule.Kept.branch_fst h ?_
  split
  · exact h
  · generalize hr : s.loadBytes t _ _ p = r
    have hk : r.2.Kept q := hr ▸ h.loadBytes
    obtain ⟨⟨_ | _, _⟩, s₁⟩ := r
    · exact hk
    · dsimp only at hk ⊢
      split
      · exact State.Kept.modTile hk fun _ => by simp
      · exact Granule.Kept.branch (State.Kept.modTile hk fun _ => by simp) (State.Kept.modTile hk fun _ => by simp)

theorem State.Kept.wakeup (h : s.Kept q) {t} : (State.wakeup s t).Kept q := by
  unfold State.wakeup
  grind [← Kept.advanceTo, ← Kept.modTile]

theorem State.Kept.cmoStep (h : s.Kept q) {t target} {data instr : State → CmoTally × State} (hd : ∀ s, State.Kept q s → (data s).2.Kept q)
    (hi : ∀ s, State.Kept q s → (instr s).2.Kept q) : (State.cmoStep s t target data instr).2.Kept q := by
  have hdata := Kept.branch_snd (c := (target == 1) = true) (a := (CmoTally.zero, s)) h (hd s h)
  exact Kept.branch_snd hdata (hi _ hdata)

theorem State.Kept.cmoData (h : s.Kept q) {t op incl range k} : (State.cmoData s t op incl range k).2.Kept q := by
  unfold State.cmoData
  grind [← Kept.bump, ← Kept.modTile, ← Kept.l1CleanAt]

theorem State.Kept.cmoInstr (h : s.Kept q) {t op incl k} : (State.cmoInstr s t op incl k).2.Kept q := by
  unfold State.cmoInstr
  grind [← Kept.bump, ← Kept.modTile]

theorem State.Kept.cmoDataLine (h : s.Kept q) {t op incl line} : (State.cmoDataLine s t op incl line).2.Kept q := by
  unfold State.cmoDataLine
  grind [← Kept.l1Sector, ← Kept.cmoData, ← Kept.modTile, ← Kept.foldl, ← Kept.foldl_snd, ← Kept.foldl_fst]

theorem State.Kept.cmoInstrLine (h : s.Kept q) {t op incl line} : (State.cmoInstrLine s t op incl line).2.Kept q := by
  unfold State.cmoInstrLine
  grind [← Kept.iFetch, ← Kept.cmoInstr, ← Kept.foldl, ← Kept.foldl_snd, ← Kept.foldl_fst]

theorem State.Kept.cmo (h : s.Kept q) {t op r setway target incl} : (State.cmo s t op r setway target incl).Kept q := by
  refine h.sparWord fun s hs => ?_
  have hfold {l : List Nat} {d i : Nat → State → CmoTally × State} (hd : ∀ k s, State.Kept q s → (d k s).2.Kept q)
      (hi : ∀ k s, State.Kept q s → (i k s).2.Kept q) : (l.foldl (fun (acc : CmoTally × State) k =>
        let (z, s) := acc.2.cmoStep t target.val (d k) (i k)
        (acc.1.add z, s)) (CmoTally.zero, s)).2.Kept q :=
    Kept.foldl_snd (fun _ _ hp => hp.cmoStep (t := t) (hd _) (hi _)) hs
  dsimp only
  split
  · exact State.Kept.modTile (hfold (fun _ _ h => h.cmoData) fun _ _ h => h.cmoInstr) fun _ => by rfl
  · split
    · exact hs
    · split
      · exact hs
      · exact hs
      · exact State.Kept.modTile (hfold (fun _ _ h => h.cmoDataLine) fun _ _ h => h.cmoInstrLine) fun _ => by rfl

theorem State.Kept.acceptEvent (h : s.Kept q) {t no value} {clear : Tile → Tile} (hf : ∀ c, (clear c).scratch = c.scratch) :
    (State.acceptEvent s t no value clear).Kept q :=
  (h.modTile hf).takeException

theorem State.Kept.freeBytes (h : s.Kept q) {n} : (State.freeBytes s n).2.Kept q := by
  unfold State.freeBytes
  grind [← Kept.modFreeCtr]

theorem State.Kept.saveContext (h : s.Kept q) {t d} : (State.saveContext s t d).Kept q := by
  unfold State.saveContext
  grind [← Kept.freeBytes, ← Kept.fresh, ← Kept.dramPut, ← Kept.modSched]

theorem State.Kept.acceptPreempt (h : s.Kept q) {t} : (State.acceptPreempt s t).Kept q := by
  unfold State.acceptPreempt
  grind [← Kept.acceptEvent, ← Kept.trace, ← Kept.modSched, ← Kept.tileTo, ← Kept.saveContext]

theorem State.Kept.acceptTimer (h : s.Kept q) {t} : (State.acceptTimer s t).Kept q := by
  unfold State.acceptTimer
  grind [← Kept.advanceTo, ← Kept.acceptEvent]

@[simp] theorem Tile.setM_scratch (c : Tile) (k : MReg) (x : Nat) : (c.setM k x).scratch = c.scratch := by
  unfold Tile.setM
  split
  · rfl
  · rfl

theorem State.Kept.vRegs (h : s.Kept q) {t word} {f : Tile → Tile} (hf : ∀ c, (f c).scratch = c.scratch) : (State.vRegs s t word f).Kept q :=
  h.sparWord fun _ hs => hs.modTile hf

theorem State.Kept.vMap (h : s.Kept q) {t word d m z ew f} : (State.vMap s t word d m z ew f).Kept q := h.vRegs fun _ => by rfl

theorem State.Kept.vInt (h : s.Kept q) {t func d a b m z ew f} : (State.vInt s t func d a b m z ew f).Kept q := by
  unfold State.vInt
  grind [← Kept.vMap]

theorem State.Kept.vFp (h : s.Kept q) {t func d a b m z ew f} : (State.vFp s t func d a b m z ew f).Kept q := h.vRegs fun _ => by rfl

theorem State.Kept.vCmp (h : s.Kept q) {t func d a b m z ew f} : (State.vCmp s t func d a b m z ew f).Kept q := h.vRegs fun _ => by simp

theorem State.Kept.vRead (h : s.Kept q) {t addr bytes pe par elems} : (State.vRead s t addr bytes pe par elems).2.Kept q := by
  unfold State.vRead
  grind [← Kept.sparLoad, ← Kept.foldl, ← Kept.foldl_snd, ← Kept.foldl_fst]

@[simp] theorem Tile.vFill_scratch (c : Tile) (d z ew got) : (c.vFill d z ew got).scratch = c.scratch := rfl

theorem State.Kept.vLoad (h : s.Kept q) {t word d m z ew pe par addr} : (State.vLoad s t word d m z ew pe par addr).Kept q := by
  refine h.sparWord fun s hs => ?_
  dsimp only
  split
  · exact hs.vRead
  · exact hs.vRead.modTile fun _ => by rfl

theorem State.Kept.vStore (h : s.Kept q) {t word d m ew addr} : (State.vStore s t word d m ew addr).Kept q := by
  refine h.sparWord fun s hs => ?_
  dsimp only
  split
  · exact hs
  · exact Kept.foldl (fun _ _ hs => hs.tileWrite) hs

theorem State.Kept.vLoadFirst (h : s.Kept q) {t word d m z ew pe par addr} : (State.vLoadFirst s t word d m z ew pe par addr).Kept q := by
  refine h.sparWord fun s hs => ?_
  dsimp only
  split
  · exact hs.vRead.modTile fun _ => by rfl
  · split
    · exact hs.vRead
    · exact hs.vRead.modTile fun _ => by simp

theorem State.Kept.vRed (h : s.Kept q) {t func d a m z ew f} : (State.vRed s t func d a m z ew f).Kept q := h.vRegs fun _ => by simp

theorem State.Kept.vMaskOp (h : s.Kept q) {t func d a b m z ew f} : (State.vMaskOp s t func d a b m z ew f).Kept q := h.vRegs fun _ => by simp

theorem State.Kept.vConv (h : s.Kept q) {t func d a m z ew w n keepTop f} : (State.vConv s t func d a m z ew w n keepTop f).Kept q :=
  h.vRegs fun _ => by rfl

theorem State.Kept.thAperture (h : s.Kept q) {i incl k} : (State.thAperture s i incl k).2.Kept q := by
  unfold State.thAperture
  grind [← Kept.bump, ← Kept.writeBack, ← Kept.modSlice]

theorem State.Kept.thLineOp (h : s.Kept q) {i op incl range k} : (State.thLineOp s i op incl range k).2.Kept q := by
  unfold State.thLineOp
  grind [← Kept.bump, ← Kept.modSlice, ← Kept.writeBack]

theorem State.Kept.thSliceOp (h : s.Kept q) {i op setway incl addr len} : (State.thSliceOp s i op setway incl addr len).2.Kept q := by
  unfold State.thSliceOp
  grind [← Kept.thAperture, ← Kept.thLineOp, ← Kept.foldl, ← Kept.foldl_snd, ← Kept.foldl_fst]

theorem State.Kept.thOp (h : s.Kept q) {block op addr len setway incl mask} : (State.thOp s block op addr len setway incl mask).Kept q := by
  unfold State.thOp
  grind [← Kept.modSlice, ← Kept.thSliceOp, ← Kept.foldl, ← Kept.foldl_snd, ← Kept.foldl_fst]

theorem State.Kept.planRetire (h : s.Kept q) {slot} : (State.planRetire s slot).Kept q := by
  unfold State.planRetire
  grind [← Kept.retireLines, ← Kept.modThatch]

theorem State.Kept.sliceEnable (h : s.Kept q) {i on} : (State.sliceEnable s i on).Kept q := by
  unfold State.sliceEnable
  grind [← Kept.modSlice]

theorem State.Kept.slicePower (h : s.Kept q) {i on} : (State.slicePower s i on).Kept q := by
  unfold State.slicePower
  grind [← Kept.modSlice]

theorem State.Kept.memError (h : s.Kept q) {phys addr device kind} : (State.memError s phys addr device kind).Kept q := by
  unfold State.memError
  grind [← Kept.modMemChan]

theorem State.Kept.correctedRecord (h : s.Kept q) {phys addr device event} : (State.correctedRecord s phys addr device event).Kept q := by
  unfold State.correctedRecord
  grind [← Kept.raise]

theorem State.Kept.writeBootFlash (h : s.Kept q) : (State.writeBootFlash s).Kept q := by
  unfold State.writeBootFlash
  grind [← Kept.stamp, ← Kept.modBoot]

theorem State.Kept.retireRank (h : s.Kept q) {phys cause} : (State.retireRank s phys cause).Kept q := by
  unfold State.retireRank
  grind [← Kept.raise, ← Kept.modDram, ← Kept.writeBootFlash]

theorem State.Kept.corrected (h : s.Kept q) {phys addr device} : (State.corrected s phys addr device).Kept q := by
  unfold State.corrected
  grind [← Kept.modMemChan, ← Kept.bump, ← Kept.memError, ← Kept.correctedRecord, ← Kept.retireRank]

theorem State.Kept.harmAt (h : s.Kept q) {a} : (State.harmAt s a).2.Kept q := by
  unfold State.harmAt
  grind [← Kept.modTable, ← Kept.foldl, ← Kept.foldl_snd, ← Kept.foldl_fst]

theorem State.Kept.uncorrectable (h : s.Kept q) {phys addr} : (State.uncorrectable s phys addr).Kept q := by
  unfold State.uncorrectable
  dsimp only
  exact (Kept.branch h.harmAt.modMemChan.memError.bump h.harmAt.modMemChan.memError.bump.modDram.bump.raise).retireRank

theorem State.Kept.ecc (h : s.Kept q) {a devErrs device} : (State.ecc s a devErrs device).Kept q := by
  unfold State.ecc
  grind [← Kept.corrected, ← Kept.uncorrectable]

theorem State.Kept.memRead (h : s.Kept q) {addr src8 planSlot devErrs device hint} : (State.memRead s addr src8 planSlot devErrs device hint).Kept q := by
  unfold State.memRead
  grind [← Kept.touchRow, ← Kept.bump, ← Kept.ecc]

theorem State.Kept.memWrite (h : s.Kept q) {addr data src8 planSlot hint readWaits} : (State.memWrite s addr data src8 planSlot hint readWaits).Kept q := by
  unfold State.memWrite
  grind [← Kept.touchRow, ← Kept.modMemChan, ← Kept.drainChan]

theorem State.Kept.scrub (h : s.Kept q) {devErrs device ecs} : (State.scrub s devErrs device ecs).Kept q := by
  unfold State.scrub
  grind [← Kept.modDram, ← Kept.ecc]

theorem State.Kept.caAlert (h : s.Kept q) {phys writeCrc} : (State.caAlert s phys writeCrc).Kept q := by
  unfold State.caAlert
  grind [← Kept.memError, ← Kept.modMemChan, ← Kept.raise, ← Kept.bump, ← Kept.retireRank]

theorem State.Kept.rowHammer (h : s.Kept q) {chan bank row} : (State.rowHammer s chan bank row).Kept q := by
  unfold State.rowHammer
  grind [← Kept.bump, ← Kept.raise, ← Kept.modMemChan]

theorem State.Kept.movedPieces (h : s.Kept q) {mine other lens} : (State.movedPieces s mine other lens).2.Kept q := by
  unfold State.movedPieces
  grind [← Kept.newCopy, ← Kept.foldl, ← Kept.foldl_snd, ← Kept.foldl_fst]

theorem State.Kept.moveCopies (h : s.Kept q) {id no} : (State.moveCopies s id no).Kept q := by
  unfold State.moveCopies
  grind [← Kept.movedPieces, ← Kept.storeSeg, ← Kept.modTable]

theorem State.Kept.clearUnit (h : s.Kept q) : (State.clearUnit s).Kept q := by
  unfold State.clearUnit
  grind [← Kept.moveCopies, ← Kept.foldl, ← Kept.foldl_snd, ← Kept.foldl_fst]

theorem State.Kept.migrationUnit (h : s.Kept q) {bad} : (State.migrationUnit s bad).Kept q := by
  unfold State.migrationUnit
  grind [← Kept.clearUnit, ← Kept.uncorrectable, ← Kept.modDram, ← Kept.writeBootFlash, ← Kept.foldl, ← Kept.foldl_snd, ← Kept.foldl_fst]

theorem State.Kept.yelmOutput (h : s.Kept q) {j e} : (State.yelmOutput s j e).2.Kept q := by
  unfold State.yelmOutput
  grind [← Kept.modFreeCtr, ← Kept.freeBytes, ← Kept.devWrite, ← Kept.modYelm]

theorem State.Kept.raiseLine (h : s.Kept q) {l} : (State.raiseLine s l).Kept q := by
  unfold State.raiseLine
  grind [← Kept.bump, ← Kept.modGutter, ← Kept.modChan]

theorem State.Kept.yelmPace (h : s.Kept q) {n j consumed made} : (State.yelmPace s n j consumed made).Kept q := by
  unfold State.yelmPace
  grind [← Kept.raiseLine, ← Kept.foldl, ← Kept.foldl_snd, ← Kept.foldl_fst]

theorem State.Kept.yelmCount (h : s.Kept q) {status input output} : (State.yelmCount s status input output).Kept q := by
  unfold State.yelmCount
  grind [← Kept.bump]

theorem State.Kept.yelmEnd (h : s.Kept q) {n j} : (State.yelmEnd s n j).Kept q := by
  unfold State.yelmEnd
  dsimp only
  have hw := fun {x y z w v} => (h.yelmOutput (j := j) (e := s.yEnd j)).yelmPace (n := n) (j := j) (consumed := x) (made := y)
    |>.stamp (src := 0xC4 + n.val) |>.sysWrite (a := z) (bs := w) |>.sysWrite (a := v) (bs := [3])
  refine Kept.bump (Kept.yelmCount (Kept.modYelm ?_))
  split
  · exact hw.modTile fun _ => by rfl
  · exact hw

theorem State.Kept.yelmKeep (h : s.Kept q) : (State.yelmKeep s).Kept q := by
  unfold State.yelmKeep
  grind [← Kept.yelmEnd, ← Kept.modYelm, ← Kept.foldl, ← Kept.foldl_snd, ← Kept.foldl_fst]

theorem State.Kept.commitOne (h : s.Kept q) : (State.commitOne s).Kept q := by
  unfold State.commitOne
  grind [← Kept.modDict, ← Kept.storeWrite, ← Kept.finishWrite]

theorem State.Kept.commitAll (h : s.Kept q) : (State.commitAll s).Kept q := by
  unfold State.commitAll
  grind [← Kept.commitOne, ← Kept.foldl, ← Kept.foldl_snd, ← Kept.foldl_fst]

theorem State.Kept.catalogueUnit (h : s.Kept q) {c} : (State.catalogueUnit s c).Kept q := by
  unfold State.catalogueUnit
  grind [← Kept.modTables, ← Kept.foldl, ← Kept.foldl_snd, ← Kept.foldl_fst]

theorem State.Kept.storeTable (h : s.Kept q) {id} : (State.storeTable s id).Kept q := by
  unfold State.storeTable
  grind [← Kept.modDict, ← Kept.storeWrite, ← Kept.foldl, ← Kept.foldl_snd, ← Kept.foldl_fst]

theorem State.Kept.nailComplete (h : s.Kept q) {i seq} : (State.nailComplete s i seq).Kept q := by
  unfold State.nailComplete
  grind [← Kept.completeWith, ← Kept.catalogueUnit, ← Kept.drainAll, ← Kept.storeTable]

theorem State.Kept.recordDelivered (h : s.Kept q) {i f} : (State.recordDelivered s i f).Kept q := by
  unfold State.recordDelivered
  grind [← Kept.modFunc, ← Kept.modInst, ← Kept.raiseCause]

theorem State.Kept.deliverRecord (h : s.Kept q) {i answered} : (State.deliverRecord s i answered).Kept q := by
  unfold State.deliverRecord
  dsimp only
  split
  · have hres {c : Prop} [Decidable c] {f x b n} : (if c then s else (s.hostWrite f x b).readBack f x n).Kept q := Kept.branch h h.hostWrite.readBack
    refine Kept.branch h (Kept.branch hres (Kept.branch hres.hostWrite.readBack (Kept.branch hres.hostWrite.readBack.hostWrite.readBack ?_)))
    exact hres.hostWrite.readBack.hostWrite.readBack.recordDelivered
  · exact h

theorem State.Kept.keepDeliver (h : s.Kept q) : (State.keepDeliver s).Kept q := by
  unfold State.keepDeliver
  grind [← Kept.nailComplete, ← Kept.complete, ← Kept.deliverRecord, ← Kept.foldl, ← Kept.foldl_snd, ← Kept.foldl_fst]

theorem State.Kept.keepCatalogueAll (h : s.Kept q) : (State.keepCatalogueAll s).Kept q := by
  unfold State.keepCatalogueAll
  grind [← Kept.catalogue, ← Kept.modTable, ← Kept.modTables, ← Kept.foldl, ← Kept.foldl_snd, ← Kept.foldl_fst]

theorem State.Kept.setPowered (h : s.Kept q) {on} : (State.setPowered s on).Kept q := by
  unfold State.setPowered
  grind [← Kept.modErr, ← Kept.countPowered]

theorem State.Kept.dark (h : s.Kept q) : s.dark.Kept q := by
  obtain ⟨hq, hsound⟩ := h.setPowered (on := false) |>.setOutage (on := false)
  exact ⟨hq, fun hs => ⟨(hsound hs).1, fun t => by simp [State.dark, Tile.reset]⟩⟩

theorem State.Kept.enterKeep (h : s.Kept q) {valid} : (State.enterKeep s valid).Kept q :=
  (h.dark.modMem fun _ hm => filter_wf _ hm).modDram.modBoot

theorem State.Kept.mirrorAvail (h : s.Kept q) : (State.mirrorAvail s).Kept q := by
  unfold State.mirrorAvail
  grind [← Kept.modErr, ← Kept.countPowered]

theorem State.Kept.selfRefresh (h : s.Kept q) : (State.selfRefresh s).Kept q := by
  unfold State.selfRefresh
  dsimp only
  exact Kept.branch h
    h.releaseForKeep.keepRetire.keepCatalogueAll.drainAll.keepDeliver.commitAll.yelmKeep.applyStaged.modDram.modDict.mirrorAvail.writeBootFlash.enterKeep

theorem State.Kept.keepLapse (h : s.Kept q) {hours} : (State.keepLapse s hours).Kept q := by
  unfold State.keepLapse
  split
  · exact h.advanceTo.modDram.modMem fun _ _ => wf_nil
  · exact h

theorem State.Kept.chanStart (h : s.Kept q) {c host} : (State.chanStart s c host).Kept q := by
  unfold State.chanStart
  grind [← Kept.modChan, ← Kept.chanStop, ← Kept.chanRing, ← Kept.chanLoad]

theorem State.Kept.chanPaused (h : s.Kept q) {c} : (State.chanPaused s c).Kept q := by
  unfold State.chanPaused
  grind [← Kept.modChan]

theorem State.Kept.takeTag (h : s.Kept q) {f use x n} {s' : State} (hs : s.takeTag f use x n = some s') : s'.Kept q := by
  obtain ⟨k, -, rfl⟩ := Option.map_eq_some_iff.mp hs
  exact h.modPort.hostRead

theorem State.Kept.chanWrite (h : s.Kept q) {c a bs} {s' : State} (hs : s.chanWrite c a bs = .ok s') : s'.Kept q := by
  unfold State.chanWrite at hs
  grind [hostWrite, devWrite]

theorem State.Kept.chanWrites (h : s.Kept q) {c ws} : (State.chanWrites s c ws).2.2.Kept q := by
  induction ws generalizing s with
  | nil => exact h
  | cons w ws ih =>
    unfold State.chanWrites
    split
    · exact h
    · next heq => exact ih (h.chanWrite heq)

theorem State.Kept.tapTake (h : s.Kept q) {c bs} : (State.tapTake s c bs).Kept q := by
  unfold State.tapTake
  grind [← Kept.modFlash, ← Kept.bump, ← Kept.raiseLine, ← Kept.foldl, ← Kept.foldl_snd, ← Kept.foldl_fst]

theorem State.Kept.chanReadBack (h : s.Kept q) {c a n} : (State.chanReadBack s c a n).Kept q := by
  unfold State.chanReadBack
  grind [← Kept.readBack]

theorem State.Kept.chanPut (h : s.Kept q) {c d data n} : (State.chanPut s c d data n).Kept q := by
  unfold State.chanPut
  split
  · exact h.chanStop
  · have hput {ws out refused s' f} (heq : s.chanWrites c ws = (out, refused, s')) : (((s'.tapTake c out).modChan c f).bump 0x2801 1 out.length).Kept q := by
      have hs := h.chanWrites (c := c) (ws := ws)
      rw [heq] at hs
      exact hs.tapTake.modChan.bump
    split
    next heq =>
    dsimp only
    split
    · exact (hput heq).chanStop
    · split
      · exact Kept.branch (hput heq).modChan.chanReadBack (hput heq).modChan
      · exact (hput heq).modChan

theorem State.Kept.chanBeat (h : s.Kept q) {c} : (State.chanBeat s c).Kept q := by
  unfold State.chanBeat
  split
  · exact h
  · next d _ =>
    split
    · exact h
    · dsimp only
      split
      · exact h.chanStop
      · split
        · refine Kept.branch h.chanStop (Kept.branch h.chanStop ?_)
          split
          · exact h
          · next heq => exact State.Kept.modChan (Kept.foldl (fun _ _ hs => hs.hostRead) (h.takeTag heq))
        · have hreads {l : List (Nat × Nat)} : (l.foldl (fun (acc : Option Bytes × State) (x : Nat × Nat) =>
              let (b, s) := acc.2.devRead x.1 x.2 d.stream
              match acc.1, b with
              | some p, some q => (some (p ++ q), s)
              | _, _ => (none, s)) ((some [] : Option Bytes), s)).2.Kept q := by
            refine Kept.foldl_snd (fun p x hp => ?_) h
            have hread := hp.devRead (a := x.1) (n := x.2) (stream := d.stream)
            dsimp only
            split
            · exact hread
            · exact hread
          split
          · split
            · exact hreads.apertureRecord.chanStop
            · exact hreads.chanStop
          · exact hreads.chanPut

theorem State.Kept.chanBeats (h : s.Kept q) {c n stopAt} : (State.chanBeats c n stopAt s).Kept q := by
  induction n generalizing s with
  | zero => exact h
  | succ n ih =>
    unfold State.chanBeats
    split
    · exact Kept.branch h (ih h.chanBeat)
    · exact h

theorem State.Kept.chanMove (h : s.Kept q) {mode c n} : (State.chanMove s mode c n).Kept q := by
  unfold State.chanMove
  grind [← Kept.modChan, ← Kept.chanBeats]

theorem State.Kept.chanComplete (h : s.Kept q) {c dataBack doneBack host} : (State.chanComplete s c dataBack doneBack host).Kept q := by
  unfold State.chanComplete
  dsimp only
  split
  · exact h
  · refine Kept.branch h (Kept.branch h.chanStop.bump ?_)
    split
    · exact h.chanStop
    · next s₁ heq =>
      have h₁ : s₁.Kept q := by
        split at heq
        · cases heq; exact h
        · exact h.stamp.chanWrite heq
      refine Kept.branch (Kept.chanStop (Kept.branch h₁ h₁.chanReadBack)).bump ?_
      generalize hs : State.bump (State.modChan (@ite State ..) _ _) _ _ _ = s₂
      have h₂ : s₂.Kept q := hs ▸ (Kept.branch ((Kept.branch h₁ h₁.chanReadBack).modTile fun _ => by rfl) (Kept.branch h₁ h₁.chanReadBack)).modChan.bump
      refine Kept.branch ?_ (Kept.branch h₂.modChan (Kept.branch h₂.modChan h₂.chanLoad))
      generalize hf : s₂.chanFetch _ _ _ _ = r
      have h₃ : r.2.Kept q := hf ▸ h₂.chanFetch
      obtain ⟨_ | _, s₃⟩ := r
      · exact h₃.chanStop
      · dsimp only at h₃ ⊢
        split
        · exact h₃.chanStop
        · next hw => exact Kept.branch (h₃.chanWrite hw).chanReadBack.modChan (h₃.chanWrite hw).chanReadBack.chanRing

theorem State.Kept.ringPoll (h : s.Kept q) {c host} : (State.ringPoll s c host).Kept q := by
  unfold State.ringPoll
  grind [← Kept.chanRing]

theorem State.Kept.yInput (h : s.Kept q) {a n} : (State.yInput s a n).2.2.Kept q := by
  unfold State.yInput
  grind [← Kept.devRead]

theorem State.Kept.yelmPoll (h : s.Kept q) {n} : (State.yelmPoll s n).Kept q := by
  unfold State.yelmPoll
  grind [← Kept.sysRead, ← Kept.sysWrite, ← Kept.yInput, ← Kept.modYelm]

theorem State.Kept.yelmJobDone (h : s.Kept q) {n} : (State.yelmJobDone s n).Kept q := by
  unfold State.yelmJobDone
  grind [← Kept.pumpPlans, ← Kept.yelmEnd]

theorem State.Kept.fdAlloc (h : s.Kept q) : (State.fdAlloc s).2.Kept q := by
  unfold State.fdAlloc
  grind [← Kept.bump, ← Kept.modCtx]

theorem State.Kept.fcDeliver (h : s.Kept q) {k} : (State.fcDeliver s k).Kept q := by
  unfold State.fcDeliver
  grind [← Kept.bump, ← Kept.modCtx, ← Kept.flashClear, ← Kept.devWrite]

theorem State.Kept.serveUntil {k n} (h : s.Kept q) : (State.serveUntil k n s).Kept q := by
  induction n generalizing s with
  | zero => exact h
  | succ n ih =>
    unfold State.serveUntil
    refine Kept.branch h ?_
    split
    · exact h
    · exact ih (Kept.branch h.modFlash.fcDeliver h.modFlash)

theorem State.Kept.fcFinish (h : s.Kept q) {k} : (State.fcFinish s k).Kept q := by
  unfold State.fcFinish
  grind [← Kept.serveUntil]

theorem State.Kept.bmeSet (h : s.Kept q) {f} : (State.bmeSet s f).Kept q := by
  unfold State.bmeSet
  grind [← Kept.flushPending, ← Kept.modFunc, ← Kept.resumeHost]

theorem State.Kept.instRecord (h : s.Kept q) {f code} : (State.instRecord s f code).Kept q := by
  unfold State.instRecord
  grind [← Kept.raise]

theorem State.Kept.bmeClear (h : s.Kept q) {f} : (State.bmeClear s f).Kept q := by
  unfold State.bmeClear
  grind [← Kept.instRecord, ← Kept.lostHost, ← Kept.modFunc]

theorem State.Kept.powerWrite (h : s.Kept q) {f v} : (State.powerWrite s f v).Kept q := by
  unfold State.powerWrite
  grind [← Kept.lostHost, ← Kept.modFunc]

theorem State.Kept.resetFunc (h : s.Kept q) {f} : (State.resetFunc s f).Kept q := by
  unfold State.resetFunc
  grind [← Kept.modInst, ← Kept.notice, ← Kept.instReset, ← Kept.instRecord, ← Kept.lostHost, ← Kept.modFunc, ← Kept.modDict, ← Kept.quarantine]

theorem State.Kept.functionReset (h : s.Kept q) {f} : (State.functionReset s f).Kept q := by
  unfold State.functionReset
  grind [← Kept.resetFunc, ← Kept.modPort, ← Kept.foldl, ← Kept.foldl_snd, ← Kept.foldl_fst]

theorem State.Kept.configWrite (h : s.Kept q) {f off v} : (State.configWrite s f off v).Kept q := by
  unfold State.configWrite
  grind [← Kept.modFunc, ← Kept.bmeSet, ← Kept.bmeClear, ← Kept.powerWrite, ← Kept.flushPending, ← Kept.functionReset, ← Kept.modPort]

theorem State.Kept.configRequest (h : s.Kept q) {f bus off write} : (State.configRequest s f bus off write).Kept q := by
  unfold State.configRequest
  grind [← Kept.emit, ← Kept.configWrite, ← Kept.modPort]

theorem State.Kept.chanReturn (h : s.Kept q) {c data} : (State.chanReturn s c data).Kept q := by
  unfold State.chanReturn
  grind [← Kept.bump, ← Kept.chanStop, ← Kept.modChan, ← Kept.chanPut]

theorem State.Kept.failRead (h : s.Kept q) {use} : (State.failRead s use).Kept q := by
  unfold State.failRead
  grind [← Kept.sweepMarked, ← Kept.chanReturn, ← Kept.refusePlan, ← Kept.complete]

theorem State.Kept.cplReceived (h : s.Kept q) {f tag status poisoned data} : (State.cplReceived s f tag status poisoned data).Kept q := by
  unfold State.cplReceived
  grind [← Kept.aerLog, ← Kept.portCount, ← Kept.stamp, ← Kept.modHost, ← Kept.modPort, ← Kept.bump, ← Kept.failRead, ← Kept.sweepMarked, ← Kept.chanReturn]

theorem State.Kept.timeoutRecord (h : s.Kept q) {p f use} : (State.timeoutRecord s p f use).Kept q := by
  unfold State.timeoutRecord
  grind [← Kept.raise, ← Kept.portRecord]

theorem State.Kept.cplTimedOut (h : s.Kept q) {p tag} : (State.cplTimedOut s p tag).Kept q := by
  unfold State.cplTimedOut
  split
  · exact h.advanceTo.modPort.portCount.failRead.aerLog.timeoutRecord
  · exact h

theorem State.Kept.frzRelease (h : s.Kept q) {f value} : (State.frzRelease s f value).Kept q := by
  unfold State.frzRelease
  grind [← Kept.releasePort, ← Kept.releaseRefused]

theorem State.Kept.taskGo (h : s.Kept q) {f value} : (State.taskGo s f value).Kept q := by
  unfold State.taskGo
  grind [← Kept.modFunc, ← Kept.modInst, ← Kept.takeSeq, ← Kept.journal, ← Kept.noteDeferral]

theorem State.Kept.startCmd (h : s.Kept q) {i c} {body : State → Cmd → State} (hb : ∀ s c, State.Kept q s → (body s c).Kept q) :
    (State.startCmd s i c body).Kept q := by
  unfold State.startCmd
  have hs := Kept.branch (c := (s.finial.journal.any fun e => e.kind == 1 && e.stamp == c.receipt) = true) h
    (h.journal (kind := 1) (stamp := c.receipt) (payload := c.word))
  dsimp only
  split
  · exact hs.complete
  · exact hb _ _ hs

theorem State.Kept.begin (h : s.Kept q) {i opcode} {body : State → Cmd → State} (hb : ∀ s c, State.Kept q s → (body s c).Kept q) :
    (State.begin s i opcode body).Kept q := by
  unfold State.begin
  split
  · exact h
  · exact h.startCmd hb

theorem State.Kept.catalogueKeep (h : s.Kept q) {i} : (State.catalogueKeep s i).Kept q := by
  unfold State.catalogueKeep
  grind [← Kept.modTables]

theorem State.Kept.flushComplete (h : s.Kept q) {i} : (State.flushComplete s i).Kept q := by
  unfold State.flushComplete
  grind [← Kept.complete, ← Kept.catalogueKeep, ← Kept.drainAll]

theorem State.Kept.cancel (h : s.Kept q) {i c} : (State.cancel s i c).Kept q := by
  unfold State.cancel
  grind [← Kept.abortCmd, ← Kept.modInst, ← Kept.complete, ← Kept.setDetails, ← Kept.foldl, ← Kept.foldl_snd, ← Kept.foldl_fst]

theorem State.Kept.withHost (h : s.Kept q) {i c} {go : State → FuncId → State} (hgo : ∀ s f, State.Kept q s → (go s f).Kept q) :
    (State.withHost s i c go).Kept q := by
  unfold State.withHost
  split
  · exact h
  · exact h.complete
  · exact hgo _ _ h

theorem State.Kept.createTable (h : s.Kept q) {i c n b} : (State.createTable s i c n b).Kept q := by
  unfold State.createTable
  grind [← Kept.complete, ← Kept.modTables, ← Kept.tableDone, ← Kept.commitTable]

theorem State.Kept.alterTable (h : s.Kept q) {i c n id b} : (State.alterTable s i c n id b).Kept q := by
  unfold State.alterTable
  grind [← Kept.complete, ← Kept.commitTable, ← Kept.modTable, ← Kept.tableDone, ← Kept.storeFront, ← Kept.foldl, ← Kept.foldl_snd, ← Kept.foldl_fst]

theorem State.Kept.askHost (h : s.Kept q) {i f seq x n} {s' : State} (hs : s.askHost i f seq x n = some s') : s'.Kept q := h.takeTag hs

theorem State.Kept.appendAsk (h : s.Kept q) {i c} : (State.appendAsk s i c).Kept q := by
  refine h.withHost fun s f hs => ?_
  split
  · exact hs
  · next heq => exact (hs.askHost heq).modCmd

theorem State.Kept.registerQuery (h : s.Kept q) {i c desc image} : (State.registerQuery s i c desc image).Kept q := by
  unfold State.registerQuery
  grind [← Kept.complete, ← Kept.refusePlan, ← Kept.countHit, ← Kept.admitPlans, ← Kept.modCmd]

theorem State.Kept.retargetQuery (h : s.Kept q) {i c desc} : (State.retargetQuery s i c desc).Kept q := by
  unfold State.retargetQuery
  grind [← Kept.complete, ← Kept.modQuery, ← Kept.setDetails]

theorem State.Kept.adoptQueue (h : s.Kept q) {supported} : (State.adoptQueue s supported).Kept q := by
  unfold State.adoptQueue
  grind [← Kept.cacheDrop, ← Kept.runQuery, ← Kept.retireQuery, ← Kept.complete, ← Kept.foldl, ← Kept.foldl_snd, ← Kept.foldl_fst]

theorem State.Kept.writeShadow (h : s.Kept q) : (State.writeShadow s).Kept q := by
  unfold State.writeShadow
  grind [← Kept.modBoot]

theorem State.Kept.activateRidge (h : s.Kept q) {since} : (State.activateRidge s since).Kept q := by
  unfold State.activateRidge
  dsimp only
  have h₀ := fun {f g r k} => ((h.attestDone.modRidge (r := 0) (f := f)).modRidge (r := 1) (f := g)).grant (r := r) |>.modBoot (f := k)
  split
  · exact h₀.modSlot.modBoot.writeShadow.takeUp.noteStandby.adoptQueue
  · exact Kept.branch h₀.modSlot.modSlot.modBoot.extendMs.takeUp.noteStandby.adoptQueue
      h₀.modSlot.modSlot.modBoot.extendMs.takeUp.noteStandby.modBoot.keepEntry.modDram

theorem State.Kept.drainEnds (h : s.Kept q) : (State.drainEnds s).Kept q := by
  unfold State.drainEnds
  grind [← Kept.advanceTo, ← Kept.abortCmd, ← Kept.activateRidge, ← Kept.foldl, ← Kept.foldl_snd, ← Kept.foldl_fst]

theorem State.Kept.controlWrite (h : s.Kept q) {via i action port fn flags} : (State.controlWrite s via i action port fn flags).Kept q := by
  unfold State.controlWrite
  grind [← Kept.objWrite]

theorem State.Kept.mailAck (h : s.Kept q) {f value} : (State.mailAck s f value).Kept q := by
  unfold State.mailAck
  grind [← Kept.mailCause, ← Kept.modInst]

theorem State.Kept.mailPost (h : s.Kept q) {f value} : (State.mailPost s f value).Kept q := by
  unfold State.mailPost
  grind [← Kept.modInst, ← Kept.stamp]

theorem State.Kept.fieldFrame (h : s.Kept q) {port frame fcsOk} : (State.fieldFrame s port frame fcsOk).Kept q := by
  unfold State.fieldFrame
  grind [← Kept.bump, ← Kept.plynFrame]

theorem State.Kept.plynFresh (h : s.Kept q) {p} {s' : State} (hs : s.plynFresh p = some s') : s'.Kept q := by
  unfold State.plynFresh at hs
  dsimp only at hs
  split at hs
  · cases hs
  · cases hs; exact h.modDict.bump

theorem State.Kept.plynStatus (h : s.Kept q) {p status} : (State.plynStatus s p status).Kept q := by
  unfold State.plynStatus
  grind [← Kept.plynReply]

theorem State.Kept.setAssembly (h : s.Kept q) {slot a} : (State.setAssembly s slot a).Kept q := by
  unfold State.setAssembly
  grind [← Kept.modDict]

theorem State.Kept.plynWriteMsg (h : s.Kept q) {p} : (State.plynWriteMsg s p).Kept q := by
  unfold State.plynWriteMsg
  grind [← Kept.plynStatus, ← Kept.setAssembly, ← Kept.bump, ← Kept.plynSubmit]

theorem State.Kept.plynServe (h : s.Kept q) {p} : (State.plynServe s p).Kept q := by
  unfold State.plynServe
  split
  · exact h.bump.plynStatus
  · next heq =>
    have hs := h.plynFresh heq
    refine Kept.branch hs.plynStatus <| Kept.branch hs.plynWriteMsg <| Kept.branch hs.plynStatus <| Kept.branch ?_ ?_
    · split
      · exact Kept.readClears (Kept.foldl (fun _ _ hs => hs.plynReply) hs)
      · exact hs.plynStatus
    · split
      · exact hs.plynReply
      · exact hs.plynStatus

theorem State.Kept.plynTake (h : s.Kept q) {kind} : (State.plynTake s kind).Kept q := by
  unfold State.plynTake
  grind [← Kept.noteDeferral, ← Kept.plynServe, ← Kept.modDict]

theorem State.Kept.fragmentLate (h : s.Kept q) {slot peer} : (State.fragmentLate s slot peer).Kept q := by
  unfold State.fragmentLate
  grind [← Kept.setAssembly, ← Kept.bump, ← Kept.advanceTo, ← Kept.plynReply]

theorem State.Kept.plynSend (h : s.Kept q) {port} : (State.plynSend s port).Kept q := by
  unfold State.plynSend
  grind [← Kept.modDict, ← Kept.emit, ← Kept.bump]

theorem State.Kept.heartbeatWrite (h : s.Kept q) {raft} : (State.heartbeatWrite s raft).Kept q := by
  unfold State.heartbeatWrite
  grind [← Kept.modFinial]

theorem State.Kept.checkpointIn (h : s.Kept q) {crc} : (State.checkpointIn s crc).Kept q := by
  unfold State.checkpointIn
  grind [← Kept.standbyFails, ← Kept.swaySend, ← Kept.modRidge]

theorem State.Kept.handOver (h : s.Kept q) : s.handOver.Kept q := by
  unfold State.handOver
  split
  · exact h
  · exact Kept.branch h.grant.modRidge.modFinial.takeUp.noteStandby.endRequest h.grant.modRidge.modFinial.takeUp.noteStandby

theorem State.Kept.ridgeReady (h : s.Kept q) {r} : (State.ridgeReady s r).Kept q := by
  unfold State.ridgeReady
  grind [← Kept.modRidge, ← Kept.modFinial, ← Kept.noteStandby]

theorem State.Kept.ackIn (h : s.Kept q) {raft crc} : (State.ackIn s raft crc).Kept q := by
  unfold State.ackIn
  grind [← Kept.modFinial, ← Kept.freeRings, ← Kept.modRidge, ← Kept.handOver, ← Kept.ridgeReady]

theorem State.Kept.healthIn (h : s.Kept q) {lockstepOk} : (State.healthIn s lockstepOk).Kept q := by
  unfold State.healthIn
  grind [← Kept.stamp, ← Kept.modDict]

theorem State.Kept.ckptDeadline (h : s.Kept q) : (State.ckptDeadline s).Kept q := by
  unfold State.ckptDeadline
  grind [← Kept.advanceTo, ← Kept.modFinial, ← Kept.standbyFails, ← Kept.declareFailed]

theorem State.Kept.selfFault (h : s.Kept q) {ridge code} : (State.selfFault s ridge code).Kept q := by
  unfold State.selfFault
  grind [← Kept.modFinial, ← Kept.declareFailed, ← Kept.modRidge]

theorem State.Kept.failedExpiry (h : s.Kept q) {r} : (State.failedExpiry s r).Kept q := by
  unfold State.failedExpiry
  grind [← Kept.advanceTo, ← Kept.modRidge, ← Kept.loneFails]

theorem State.Kept.ridgeTested (h : s.Kept q) {r pass} : (State.ridgeTested s r pass).Kept q := by
  unfold State.ridgeTested
  grind [← Kept.loneFails, ← Kept.ridgeFails, ← Kept.noteStandby, ← Kept.takeUp, ← Kept.modFinial, ← Kept.grant, ← Kept.modRidge]

theorem State.Kept.standbyTest (h : s.Kept q) {march pass} : (State.standbyTest s march pass).Kept q := by
  unfold State.standbyTest
  grind [← Kept.modRidge, ← Kept.standbyFails]

theorem State.Kept.recordDram (h : s.Kept q) : (State.recordDram s).Kept q := by
  unfold State.recordDram
  grind [← Kept.modDram]

theorem State.Kept.provision (h : s.Kept q) {p} : (State.provision s p).Kept q := by
  unfold State.provision
  grind [← Kept.modBoot]

theorem State.Kept.coldStart (h : s.Kept q) {p} : (State.coldStart s p).Kept q := by
  unfold State.coldStart
  grind [← Kept.recordDram, ← Kept.provision, ← Kept.modBoot, ← Kept.modTime, ← Kept.modErr]

theorem State.Kept.noteStep (h : s.Kept q) {n f} : (State.noteStep s n f).Kept q := by
  unfold State.noteStep
  grind [← Kept.writeShadow, ← Kept.modBoot]

theorem State.Kept.stepTakes (h : s.Kept q) {n} : (State.stepTakes s n).Kept q := by
  unfold State.stepTakes
  grind [← Kept.raise, ← Kept.noteStep]

theorem State.Kept.stepAgain (h : s.Kept q) {n kind} : (State.stepAgain s n kind).2.Kept q := by
  unfold State.stepAgain
  grind [← Kept.writeBootFlash, ← Kept.stepTakes]

theorem State.Kept.stepFailed (h : s.Kept q) {n} : (State.stepFailed s n).Kept q := by
  unfold State.stepFailed
  grind [← Kept.fresh, ← Kept.noteStep]

theorem State.Kept.stepIn (h : s.Kept q) {n env} {f : State → StepEnd × State} (hf : ∀ s, State.Kept q s → (f s).2.Kept q) :
    (State.stepIn s n env f).2.Kept q := by
  unfold State.stepIn
  dsimp only
  exact Kept.branch_snd h.advanceTo.ridgeFails.stepFailed.modBoot.stepAgain (hf _ h.advanceTo)

theorem State.Kept.runSteps {env} {l : List (Fin 13 × (State → StepEnd × State))} (hl : ∀ x ∈ l, ∀ s, State.Kept q s → (x.2 s).2.Kept q)
    (h : s.Kept q) : (Machine.runSteps env l s).2.2.Kept q := by
  induction l generalizing s with
  | nil => exact h
  | cons x l ih =>
    have hx := h.stepIn (n := x.1) (env := env) (hl x List.mem_cons_self)
    unfold Machine.runSteps
    revert hx
    generalize s.stepIn x.1 env x.2 = r
    obtain ⟨_ | _ | _, _⟩ := r
    · exact fun hx => ih (fun y hy => hl y (List.mem_cons_of_mem x hy)) hx
    · exact id
    · exact id

theorem State.Kept.stepPassed (h : s.Kept q) {n} : (State.stepPassed s n).Kept q := by
  unfold State.stepPassed
  grind [← Kept.noteStep]

theorem State.Kept.startS0 (h : s.Kept q) {env} : (State.startS0 s env).2.Kept q := by
  unfold State.startS0
  grind [← Kept.modBoot, ← Kept.stepPassed]

theorem State.Kept.startS1 (h : s.Kept q) {kind env} : (State.startS1 s kind env).2.Kept q := by
  unfold State.startS1
  grind [← Kept.stepFailed, ← Kept.stepAgain, ← Kept.modBoot, ← Kept.stepPassed, ← Kept.extendMs]

theorem State.Kept.startS2 (h : s.Kept q) {kind env} : (State.startS2 s kind env).2.Kept q := by
  unfold State.startS2
  grind [← Kept.stepPassed, ← Kept.stepFailed, ← Kept.alert, ← Kept.modFinial, ← Kept.stepTakes, ← Kept.stepAgain]

theorem State.Kept.earlySteps {kind env} : ∀ x ∈ Machine.earlySteps kind env, ∀ s, State.Kept q s → (x.2 s).2.Kept q := by
  unfold Machine.earlySteps
  split
  · simp
  · simp only [List.mem_cons, List.not_mem_nil, or_false]
    rintro x (rfl | rfl | rfl) s h
    · exact h.startS0
    · exact h.startS1
    · exact Kept.branch_snd h h.startS2

theorem State.Kept.loadStore (h : s.Kept q) {env which} : (State.loadStore s env which).Kept q := by
  unfold State.loadStore
  grind [← Kept.setVal, ← Kept.raise, ← Kept.foldl, ← Kept.foldl_snd, ← Kept.foldl_fst]

theorem State.Kept.commitReserves (h : s.Kept q) {bad} : (State.commitReserves s bad).Kept q := by
  have hc : ∀ {s : State} {c : Prop} [Decidable c] {f : TimeSt → TimeSt} {k key v}, s.Kept q →
      (if c then s.reserveFails k else ((s.modTime f).storeWrite key v).bump 0x0413 4 1).Kept q :=
    fun hs => Kept.branch hs.reserveFails hs.modTime.storeWrite.bump
  unfold State.commitReserves
  split
  · exact h
  · exact hc (hc (hc h.modTime))

theorem State.Kept.startS3 (h : s.Kept q) {fromKeep env} : (State.startS3 s fromKeep env).2.Kept q := by
  unfold State.startS3
  dsimp only
  have h₀ := fun {f g} => (h.modFinial (f := f)).modBoot (f := g)
  refine Kept.branch_snd (Kept.branch_snd ?_ ?_) (Kept.branch_snd ?_ ?_)
  · exact h₀.ridgeFails.stepFailed
  · exact h₀.ridgeFails.stepFailed.modBoot.stepAgain
  · exact h₀.stepFailed.modBoot.stepAgain
  · refine Kept.stepPassed ?_
    split
    · exact (Kept.branch h₀.grant.ridgeFails h₀.grant.modRidge).commitReserves.loadStore.modBoot
    · exact Kept.branch (Kept.branch h₀.grant.ridgeFails h₀.grant.modRidge).commitReserves.loadStore
        (Kept.branch h₀.grant.ridgeFails h₀.grant.modRidge).commitReserves.loadStore.modBoot

theorem State.Kept.startS4 (h : s.Kept q) : (State.startS4 s).2.Kept q := by
  unfold State.startS4
  grind [← Kept.stepFailed, ← Kept.modSlot, ← Kept.stepAgain, ← Kept.modBoot, ← Kept.stepPassed, ← Kept.extendMs]

theorem State.Kept.loadFinial (h : s.Kept q) : (State.loadFinial s).Kept q := by
  unfold State.loadFinial
  grind [← Kept.modFinial]

theorem State.Kept.loadTime (h : s.Kept q) : (State.loadTime s).Kept q := by
  unfold State.loadTime
  grind [← Kept.modErr, ← Kept.modTime]

theorem State.Kept.startS5 (h : s.Kept q) {env} : (State.startS5 s env).2.Kept q := by
  unfold State.startS5
  grind [← Kept.stepPassed, ← Kept.loadFinial, ← Kept.loadTime, ← Kept.stepFailed, ← Kept.modBoot, ← Kept.stepAgain]

theorem State.Kept.dramInForce (h : s.Kept q) : (State.dramInForce s).Kept q := by
  unfold State.dramInForce
  grind [← Kept.setVal, ← Kept.modDram, ← Kept.foldl, ← Kept.foldl_snd, ← Kept.foldl_fst]

theorem State.Kept.trainedAll (h : s.Kept q) {env resume} : (State.trainedAll s env resume).Kept q := by
  unfold State.trainedAll
  grind [← Kept.modDram]

theorem State.Kept.mapSlots (h : s.Kept q) {chans} : (State.mapSlots s chans).Kept q := by
  unfold State.mapSlots
  grind [← Kept.modDram]

theorem State.Kept.nameMissing (h : s.Kept q) {env} : (State.nameMissing s env).Kept q := by
  unfold State.nameMissing
  grind [← Kept.raise, ← Kept.foldl, ← Kept.foldl_snd, ← Kept.foldl_fst]

theorem State.Kept.startS6 (h : s.Kept q) {fromKeep env} : (State.startS6 s fromKeep env).2.Kept q := by
  unfold State.startS6
  grind [← Kept.dramInForce, ← Kept.stepPassed, ← Kept.trainedAll, ← Kept.mapSlots, ← Kept.nameMissing, ← Kept.stepFailed, ← Kept.raise, ← Kept.modDram, ← Kept.stepAgain, ← Kept.foldl, ← Kept.foldl_snd, ← Kept.foldl_fst]

theorem State.Kept.stepGoesOn (h : s.Kept q) {n failed} : (State.stepGoesOn s n failed).Kept q := by
  unfold State.stepGoesOn
  grind [← Kept.stepTakes, ← Kept.stepFailed, ← Kept.stepPassed]

theorem State.Kept.startS7 (h : s.Kept q) {env} : (State.startS7 s env).2.Kept q := by
  unfold State.startS7
  grind [← Kept.stepGoesOn, ← Kept.modBoot, ← Kept.modThatch, ← Kept.modBank, ← Kept.raise, ← Kept.foldl, ← Kept.foldl_snd, ← Kept.foldl_fst]

theorem State.Kept.loadMonitor (h : s.Kept q) {k} : (State.loadMonitor s k).Kept q := by
  unfold State.loadMonitor
  grind [← Kept.modSlot, ← Kept.extendMs, ← Kept.modBoot, ← Kept.newMonitor, ← Kept.foldl, ← Kept.foldl_snd, ← Kept.foldl_fst]

theorem State.Kept.startS8 (h : s.Kept q) {env} : (State.startS8 s env).2.Kept q := by
  unfold State.startS8
  grind [← Kept.stepGoesOn, ← Kept.modBoot, ← Kept.modSlot, ← Kept.tileTo, ← Kept.loadMonitor, ← Kept.foldl, ← Kept.foldl_snd, ← Kept.foldl_fst]

theorem State.Kept.startS9 (h : s.Kept q) {env} : (State.startS9 s env).2.Kept q := by
  unfold State.startS9
  grind [← Kept.stepGoesOn, ← Kept.modBoot, ← Kept.setRo, ← Kept.modPort, ← Kept.foldl, ← Kept.foldl_snd, ← Kept.foldl_fst]

theorem State.Kept.mirrorAll (h : s.Kept q) : (State.mirrorAll s).Kept q := by
  unfold State.mirrorAll
  grind [← Kept.mirrorVal, ← Kept.foldl, ← Kept.foldl_snd, ← Kept.foldl_fst]

theorem State.Kept.loadTables (h : s.Kept q) : (State.loadTables s).Kept q := by
  unfold State.loadTables
  grind [← Kept.modTables, ← Kept.foldl, ← Kept.foldl_snd, ← Kept.foldl_fst]

theorem State.Kept.loadKeys (h : s.Kept q) : (State.loadKeys s).Kept q := by
  unfold State.loadKeys
  grind [← Kept.modBoot, ← Kept.modDict, ← Kept.extendMs5, ← Kept.extendMs4, ← Kept.foldl, ← Kept.foldl_snd, ← Kept.foldl_fst]

theorem State.Kept.makeIdentity (h : s.Kept q) : (State.makeIdentity s).Kept q := by
  unfold State.makeIdentity
  grind [← Kept.fresh, ← Kept.modBoot]

theorem State.Kept.restoreInst (h : s.Kept q) {i} : (State.restoreInst s i).Kept q := by
  unfold State.restoreInst
  grind [← Kept.modInst, ← Kept.reserveChans, ← Kept.raise, ← Kept.modFunc]

theorem State.Kept.startCourses (h : s.Kept q) : (State.startCourses s).Kept q := by
  unfold State.startCourses
  grind [← Kept.modCourse, ← Kept.startChange, ← Kept.foldl, ← Kept.foldl_snd, ← Kept.foldl_fst]

theorem State.Kept.setDictBanks (h : s.Kept q) : (State.setDictBanks s).Kept q := by
  unfold State.setDictBanks
  grind [← Kept.setBank, ← Kept.foldl, ← Kept.foldl_snd, ← Kept.foldl_fst]

theorem State.Kept.loadBanks (h : s.Kept q) : (State.loadBanks s).Kept q := by
  unfold State.loadBanks
  grind [← Kept.loadMapBanks, ← Kept.setDictBanks, ← Kept.modPurlin, ← Kept.extendMs]

theorem State.Kept.startS10 (h : s.Kept q) {env} : (State.startS10 s env).2.Kept q := by
  unfold State.startS10
  dsimp only
  exact (Kept.foldl (fun _ _ hs => hs.restoreInst) h.stepGoesOn.loadStore.mirrorAll.setRo.makeIdentity.loadKeys.loadTables).loadBanks.startCourses

theorem State.Kept.rebuildDict (h : s.Kept q) : (State.rebuildDict s).Kept q := by
  unfold State.rebuildDict
  grind [← Kept.noteDict, ← Kept.foldl, ← Kept.foldl_snd, ← Kept.foldl_fst]

theorem State.Kept.checkSeg (h : s.Kept q) {x} : (State.checkSeg s x).Kept q := by
  unfold State.checkSeg
  grind [← Kept.raise, ← Kept.bump, ← Kept.retireSeg, ← Kept.storeChunk, ← Kept.foldl, ← Kept.foldl_snd, ← Kept.foldl_fst]

theorem State.Kept.discardKeep (h : s.Kept q) : s.discardKeep.Kept q := by
  refine Kept.foldl (fun s p hs => ?_) (h.modMem fun _ _ => wf_nil).modDram.modTables
  have hsegs := Kept.foldl (f := fun s g => s.catalogue p.1 g 4) (fun _ _ hs => hs.catalogue) hs (l := p.2.segs)
  exact Kept.branch hsegs hsegs.catalogue

theorem State.Kept.startS11 (h : s.Kept q) {env} : (State.startS11 s env).2.Kept q := by
  unfold State.startS11
  grind [← Kept.stepGoesOn, ← Kept.rebuildDict, ← Kept.checkSeg, ← Kept.discardKeep, ← Kept.modDram, ← Kept.foldl, ← Kept.foldl_snd, ← Kept.foldl_fst]

theorem State.Kept.startS12 (h : s.Kept q) : (State.startS12 s).2.Kept q := by
  unfold State.startS12
  grind [← Kept.stepPassed, ← Kept.modBoot, ← Kept.writeBootFlash, ← Kept.extendMs, ← Kept.noteOutage, ← Kept.noteStandby, ← Kept.setPowered]

theorem State.Kept.lateSteps {fromKeep env} : ∀ x ∈ Machine.lateSteps fromKeep env, ∀ s, State.Kept q s → (x.2 s).2.Kept q := by
  simp only [Machine.lateSteps, List.forall_mem_cons]
  exact ⟨fun _ h => h.startS3, fun _ h => h.startS4, fun _ h => h.startS5, fun _ h => h.startS6, fun _ h => h.startS7, fun _ h => h.startS8,
    fun _ h => h.startS9, fun _ h => h.startS10, fun _ h => h.startS11, fun _ h => h.startS12, by simp⟩

theorem State.Kept.startResets (h : s.Kept q) : (State.startResets s).Kept q := by
  unfold State.startResets
  grind [← Kept.modDram, ← Kept.modBoot]

theorem State.Kept.startBegin (h : s.Kept q) {kind} : (State.startBegin s kind).Kept q := by
  unfold State.startBegin
  dsimp only
  exact (Kept.branch h.dark.startResets.setPowered.setOutage h.dark.startResets).modTime.modFinial.modFlash.modDram.modBoot

theorem State.Kept.haltAt (h : s.Kept q) {n} : (State.haltAt s n).Kept q :=
  h.noteStep.modBoot.modFinial.alert.setPowered.noteOutage

theorem State.Kept.startLoop {fuel kind fromKeep envs} (h : s.Kept q) : (State.startLoop fuel kind fromKeep envs s).Kept q := by
  induction fuel generalizing s kind fromKeep envs with
  | zero => exact h
  | succ fuel ih =>
    have hr := (h.startBegin (kind := kind)).runSteps (env := envs.headD .clean)
      (l := Machine.earlySteps kind (envs.headD .clean) ++ Machine.lateSteps fromKeep (envs.headD .clean))
      fun x hx => (List.mem_append.mp hx).elim (State.Kept.earlySteps x) (State.Kept.lateSteps x)
    unfold State.startLoop
    dsimp only
    revert hr
    generalize Machine.runSteps _ _ _ = r
    obtain ⟨_ | _ | _, _, _⟩ := r
    · exact id
    · exact fun hr => ih hr
    · exact fun hr => hr.haltAt

theorem State.Kept.start (h : s.Kept q) {kind envs} : (State.start s kind envs).Kept q := by
  unfold State.start
  grind [← Kept.startLoop]

theorem State.Kept.wakeRise (h : s.Kept q) {railsUp passes} : (State.wakeRise s railsUp passes).Kept q := by
  unfold State.wakeRise
  grind [← Kept.modDram, ← Kept.modBoot, ← Kept.start]

theorem State.Kept.resetPin (h : s.Kept q) {passes} : (State.resetPin s passes).Kept q := by
  unfold State.resetPin
  grind [← Kept.modBoot, ← Kept.start]

theorem State.Kept.unparkTiles (h : s.Kept q) {c} : (State.unparkTiles s c).Kept q :=
  Kept.foldl (fun _ _ hs => (hs.modTile fun _ => by rfl).modSched.tileTo) h

theorem State.Kept.pitchChangeDone (h : s.Kept q) {c} : (State.pitchChangeDone s c).Kept q := by
  unfold State.pitchChangeDone
  grind [← Kept.dropContexts, ← Kept.newMonitor, ← Kept.modCourse, ← Kept.pumpPlans, ← Kept.visitNext, ← Kept.modBoot, ← Kept.unparkTiles]

theorem State.Kept.policyParkDue (h : s.Kept q) {c} : (State.policyParkDue s c).Kept q := by
  unfold State.policyParkDue
  grind [← Kept.startChange, ← Kept.modCourse, ← Kept.advanceTo]

theorem State.Kept.addEnergy (h : s.Kept q) {user e} : (State.addEnergy s user e).Kept q := by
  unfold State.addEnergy
  grind [← Kept.modSched, ← Kept.modInst]

theorem State.Kept.shareCourse (h : s.Kept q) {c e} : (State.shareCourse s c e).2.Kept q := by
  unfold State.shareCourse
  grind [← Kept.addEnergy, ← Kept.foldl, ← Kept.foldl_snd, ← Kept.foldl_fst]

theorem State.Kept.shareUnit (h : s.Kept q) {uses unit e} : (State.shareUnit s uses unit e).2.Kept q := by
  unfold State.shareUnit
  grind [← Kept.addEnergy, ← Kept.foldl, ← Kept.foldl_snd, ← Kept.foldl_fst]

theorem State.Kept.attribute (h : s.Kept q) {energy uses} : (State.attribute s energy uses).Kept q := by
  unfold State.attribute
  grind [← Kept.shareCourse, ← Kept.shareUnit, ← Kept.modPower, ← Kept.foldl, ← Kept.foldl_snd, ← Kept.foldl_fst]

theorem State.Kept.setCeiling (h : s.Kept q) {c mhz} : (State.setCeiling s c mhz).Kept q := by
  unfold State.setCeiling
  grind [← Kept.modCourse]

theorem State.Kept.capDown (h : s.Kept q) : (State.capDown s).2.Kept q := by
  unfold State.capDown
  grind [← Kept.setCeiling, ← Kept.foldl, ← Kept.foldl_snd, ← Kept.foldl_fst]

theorem State.Kept.setUnmet (h : s.Kept q) {on} : (State.setUnmet s on).Kept q := by
  unfold State.setUnmet
  grind [← Kept.modPower, ← Kept.alert, ← Kept.unalert]

theorem State.Kept.capUp (h : s.Kept q) : (State.capUp s).Kept q := by
  unfold State.capUp
  grind [← Kept.setCeiling, ← Kept.foldl, ← Kept.foldl_snd, ← Kept.foldl_fst]

theorem State.Kept.noteCap (h : s.Kept q) : (State.noteCap s).Kept q := by
  unfold State.noteCap
  grind [← Kept.modPower]

theorem State.Kept.capSample (h : s.Kept q) {power energy uses} : (State.capSample s power energy uses).Kept q := by
  unfold State.capSample
  grind [← Kept.attribute, ← Kept.advanceTo, ← Kept.modPower, ← Kept.capDown, ← Kept.setUnmet, ← Kept.capUp, ← Kept.noteCap]

theorem State.Kept.modTrip (h : s.Kept q) {k f} : (State.modTrip s k f).Kept q := by
  unfold State.modTrip
  grind [← Kept.modPower]

theorem State.Kept.tripSet (h : s.Kept q) {k} : (State.tripSet s k).Kept q := by
  unfold State.tripSet
  grind [← Kept.alert, ← Kept.modTrip, ← Kept.noteCap, ← Kept.setCeiling, ← Kept.pumpPlans, ← Kept.noteOutage, ← Kept.flashAlarm, ← Kept.startChange, ← Kept.keepEntry, ← Kept.foldl, ← Kept.foldl_snd, ← Kept.foldl_fst]

theorem State.Kept.flashAlarmEnd (h : s.Kept q) {cause} : (State.flashAlarmEnd s cause).Kept q := by
  unfold State.flashAlarmEnd
  grind [← Kept.modFlash]

theorem State.Kept.tripClear (h : s.Kept q) {k} : (State.tripClear s k).Kept q := by
  unfold State.tripClear
  grind [← Kept.unalert, ← Kept.modTrip, ← Kept.pumpPlans, ← Kept.noteOutage, ← Kept.flashAlarmEnd, ← Kept.startChange, ← Kept.reflat, ← Kept.foldl, ← Kept.foldl_snd, ← Kept.foldl_fst]

theorem State.Kept.tripStep (h : s.Kept q) {hot k} : (State.tripStep s hot k).Kept q := by
  unfold State.tripStep
  dsimp only
  refine Kept.branch (Kept.branch h.tripSet h) (Kept.branch h.modTrip ?_)
  split
  · exact h.modTrip
  · exact Kept.branch h.tripClear h

theorem State.Kept.thermalSample (h : s.Kept q) {temps} : (State.thermalSample s temps).Kept q := by
  unfold State.thermalSample
  grind [← Kept.modPower, ← Kept.tripStep, ← Kept.foldl, ← Kept.foldl_snd, ← Kept.foldl_fst]

theorem State.Kept.testPassed (h : s.Kept q) {target index} : (State.testPassed s target index).Kept q := by
  unfold State.testPassed
  split
  · exact Kept.foldl (fun _ _ hs => hs.modTile fun _ => by rfl) h
  · split
    · exact h.modSlice
    · exact h.modBank

theorem State.Kept.fuseOff (h : s.Kept q) {target index} : (State.fuseOff s target index).Kept q := by
  unfold State.fuseOff
  grind [← Kept.raise, ← Kept.modBoot, ← Kept.modSlice, ← Kept.modBank]

theorem State.Kept.selfTestDone (h : s.Kept q) {pass} : (State.selfTestDone s pass).Kept q := by
  unfold State.selfTestDone
  grind [← Kept.modErr, ← Kept.testPassed, ← Kept.fuseOff]

theorem State.Kept.voltageAlarm (h : s.Kept q) {rail mv} : (State.voltageAlarm s rail mv).Kept q := by
  unfold State.voltageAlarm
  grind [← Kept.modBoot, ← Kept.flashAlarm, ← Kept.raise]

theorem State.Kept.brownout (h : s.Kept q) : s.brownout.Kept q := by
  unfold State.brownout
  split
  · exact h
  · exact (h.dark.modMem fun _ _ => wf_nil).modDram.modBoot.modFinial

theorem State.Kept.off (h : s.Kept q) : s.off.Kept q := ⟨h.1, fun _ => State.reset_sound⟩

theorem State.Kept.clockAlarmEnd (h : s.Kept q) {domain} : (State.clockAlarmEnd s domain).Kept q := by
  unfold State.clockAlarmEnd
  grind [← Kept.modBoot, ← Kept.modIngest, ← Kept.modDict, ← Kept.flashAlarmEnd]

theorem State.Kept.voltageAlarmEnd (h : s.Kept q) {rail mv} : (State.voltageAlarmEnd s rail mv).Kept q := by
  unfold State.voltageAlarmEnd
  grind [← Kept.modBoot, ← Kept.flashAlarmEnd]

end Sys2Proof.Machine
end

