-- ==== Sys2Proof/Proofs/KeptCommands.lean ====
section
/-! SUPPORT. Every command keeps the queue behind it and the canonical form of the memories. -/

namespace Sys2Proof.Machine

set_option Elab.async false

variable {q : Keeping} {s : State}

/-- The state that a command answers with is kept. -/
def Res.Kept (q : Keeping) : Res → Prop
  | .next s => s.Kept q
  | _ => False

@[simp] theorem Tile.setV_scratch (c : Tile) (r : Reg) (v : VecReg) : (c.setV r v).scratch = c.scratch := rfl

@[simp] theorem Tile.setF_scratch (c : Tile) (r : Reg) (v : Nat) : (c.setF r v).scratch = c.scratch := rfl

@[simp] theorem Tile.sysWrite'_scratch (c : Tile) (n : Nat) (x : Word) : (c.sysWrite' n x).scratch = c.scratch := by
  unfold Tile.sysWrite'
  dsimp only
  split_ifs
  all_goals rfl

theorem State.Kept.execRegisterWrite (h : s.Kept q) {a} : Res.Kept q (execRegisterWrite a s) := by
  cases a with
  | bar0 => exact h.bar0Write
  | ridge => exact h.ridgeStore
  | bar0Read => exact h.bar0Read
  | ridgeRead => exact h.ridgeLoad

theorem State.Kept.execPdelayResp (h : s.Kept q) {port t2 t3} : Res.Kept q (execPdelayResp port t2 t3 s) := by
  refine State.Kept.branch h ?_
  split
  · exact h
  · exact h.modTime

theorem State.Kept.execBlockLimitExpiry (h : s.Kept q) {i seq} : Res.Kept q (execBlockLimitExpiry i seq s) := by
  unfold Machine.execBlockLimitExpiry
  split
  · exact h.blockExpiry
  · exact h

theorem State.Kept.execKeepWakeDelayExpiry (h : s.Kept q) : Res.Kept q (execKeepWakeDelayExpiry s) := by
  unfold Machine.execKeepWakeDelayExpiry
  dsimp only
  split
  · exact State.Kept.branch h h.advanceTo.keepEntry
  · exact h

theorem State.Kept.execKeepEntryLimitExpiry (h : s.Kept q) : Res.Kept q (execKeepEntryLimitExpiry s) := by
  unfold Machine.execKeepEntryLimitExpiry
  split
  · exact h.advanceTo.raise.modDram.enterKeep
  · exact h

theorem State.Kept.execQuarantineEnd (h : s.Kept q) {port tag} : Res.Kept q (execQuarantineEnd port tag s) := by
  unfold Machine.execQuarantineEnd
  split
  · exact h.advanceTo.modPort
  · exact h

theorem State.Kept.execBadOpcode (h : s.Kept q) {i} : Res.Kept q (execBadOpcode i s) := by
  unfold Machine.execBadOpcode
  split
  · exact h.complete
  · exact h

theorem State.Kept.execCreateTable (h : s.Kept q) {i desc} : Res.Kept q (execCreateTable i desc s) := by
  unfold Machine.execCreateTable
  split
  · exact h
  · refine h.startCmd fun s c hs => ?_
    split
    · exact hs.complete
    · refine hs.withHost fun s _ ht => ?_
      split
      · exact ht.complete
      · exact ht.createTable

theorem State.Kept.execAlterTable (h : s.Kept q) {i desc} : Res.Kept q (execAlterTable i desc s) := by
  refine h.begin fun s c hs => ?_
  dsimp only
  split
  · exact hs.complete
  · exact hs.complete
  · refine hs.withHost fun s _ ht => ?_
    split
    · exact ht.complete
    · exact ht.alterTable

theorem State.Kept.execDropTable (h : s.Kept q) {i} : Res.Kept q (execDropTable i s) := by
  refine h.begin fun s c hs => ?_
  dsimp only
  split
  · exact hs.complete
  · exact hs.modCmd.startDrop.finishDrops

theorem State.Kept.execAppend (h : s.Kept q) {i} : Res.Kept q (execAppend i s) := by
  refine h.begin fun s c hs => State.Kept.branch hs.appendAsk ?_
  split
  · exact State.Kept.complete (State.Kept.branch hs.bump hs)
  · exact hs.modIngest.appendAsk

theorem State.Kept.execRunPlan (h : s.Kept q) {i} : Res.Kept q (execRunPlan i s) := by
  refine h.begin fun s c hs => State.Kept.branch hs.refusePlan (hs.withHost fun s _ ht => ?_)
  split
  · exact ht
  · next heq => exact (ht.askHost heq).modCmd

theorem State.Kept.execUnregisterQuery (h : s.Kept q) {i} : Res.Kept q (execUnregisterQuery i s) := by
  refine h.begin fun s c hs => ?_
  dsimp only
  split
  · exact hs.complete
  · exact hs.retireQuery.setDetails.complete

theorem State.Kept.execFragmentTimeout (h : s.Kept q) {slot} : Res.Kept q (execFragmentTimeout slot s) := by
  unfold Machine.execFragmentTimeout
  split
  · exact h.fragmentLate
  · exact h

theorem State.Kept.execSync (h : s.Kept q) {complete} : Res.Kept q (execSync complete s) := by
  unfold Machine.execSync
  split
  · exact State.Kept.branch h.modRidge h
  · exact h

theorem State.Kept.execAvailabilityMirror (h : s.Kept q) : Res.Kept q (execAvailabilityMirror s) := by
  unfold Machine.execAvailabilityMirror
  split
  · exact h
  · exact State.Kept.branch h h.advanceTo.mirrorAvail

theorem State.Kept.execRtm (h : s.Kept q) {t} : Res.Kept q (execRtm t s) := by
  refine h.sparWord fun s hs => ?_
  dsimp only
  split
  · exact hs.stall
  · exact hs.modTile fun _ => by rfl

/-- The state that every command answers keeps what the state before it kept (log entry 1). -/
theorem exec_kept {c : Instr} (h : s.Kept q) : Res.Kept q (exec c s) := by
  cases c with
  | registerWrite => exact h.execRegisterWrite
  | clockAlarm => exact h.clockAlarm
  | standbyWriteDiscarded => exact State.Kept.branch (h.modFinial) h
  | bar2Read => exact h.bar2Read
  | bar2Write => exact State.Kept.branch h.bump h.unsupported
  | rafterBoundary => exact State.Kept.branch h h.advanceTo.rafterBoundary
  | rafterInEdge => exact State.Kept.branch h (State.Kept.branch h.bump h.regularEdge.rafterBoundary)
  | syntheticBoundary => exact State.Kept.branch h (State.Kept.branch (State.Kept.enterHoldover h.advanceTo.bump.modTime.rafterBoundary) h.advanceTo.bump.modTime.rafterBoundary)
  | battenTick => exact h.tickDue
  | gptpSync => exact h.gptpSync
  | gptpFollowUp => exact h.followUp
  | gptpAnnounce => exact State.Kept.branch (h.modTime) h
  | pdelayReq => exact State.Kept.branch (h.emit) h
  | pdelayResp => exact h.execPdelayResp
  | pdelayInterval => exact h.pdelayInterval
  | syncTimeout => exact h.syncTimeout
  | reserveCommit => exact h.reserveCommit
  | odoTick => exact h.odoTick
  | tableDropComplete => exact h.dropComplete.finishDrops
  | sealAgeExpiry => exact h.sealAgeExpiry
  | sealComplete => exact h.sealComplete
  | retentionEvaluation => exact h.retention
  | lappedRepair => exact h.lappedRepair
  | appendHeaderRead => exact h.appendHeader
  | appendPayloadRead => exact h.appendPayload
  | eaveFrameReceived => exact h.eaveFrame
  | eaveUnitEntry => exact h.eaveEntry
  | liggerRelease => exact h.liggerRelease
  | blockLimitExpiry => exact h.execBlockLimitExpiry
  | forcedRelease => exact h.forcedRelease
  | mapEntry => exact h.objWrite
  | programChunk => exact h.objWrite
  | mapEntryRewrite => exact h.mapRewrite
  | planImageRead => exact h.imageRead
  | planAdmission => exact h.admitPlans
  | reedStart => exact h.reedStart
  | reedAbandon => exact h.reedAbandon
  | reedBatchHandover => exact h.reedHandover
  | search => exact h.purlinDo
  | insert => exact h.purlinDo
  | write => exact h.purlinDo
  | invalidate => exact h.purlinDo
  | read => exact h.purlinDo
  | clear => exact h.purlinDo.purlinRetry
  | purlinBackgroundCompare => exact h.backCompare
  | sealHipYield => exact h.hipYield
  | delayEntryRelease => exact h.releaseEntry
  | firingRecordDelivery => exact h.deliverFiring
  | btSubmit => exact h.btSubmit
  | btPurge => exact h.btPurge
  | delayInsert => exact h.delayInsertCmd
  | delayMove => exact h.delayMove
  | delayRemove => exact h.delayRemove
  | reservationExpiry => exact h.reservationExpiry
  | preemptAfterExpiry => exact h.preemptAfter
  | preemptionTimeout => exact h.preemptionTimeout
  | saveLimitExpiry => exact h.saveLimit
  | dispatchAck => exact h.dispatchAck
  | yield => exact h.tileYield
  | done => exact h.tileDone
  | tileResetDone => exact h.tileResetDone
  | illegal => exact State.Kept.branch (h.sparWord fun _ hs => hs) h
  | add => exact h.sparG
  | sub => exact h.sparG
  | and => exact h.sparG
  | or => exact h.sparG
  | xor => exact h.sparG
  | andn => exact h.sparG
  | shl => exact h.sparG
  | shr => exact h.sparG
  | sar => exact h.sparG
  | ror => exact h.sparG
  | mul => exact h.sparG
  | mulhu => exact h.sparG
  | mulhs => exact h.sparG
  | divu => exact h.sparG
  | divs => exact h.sparG
  | remu => exact h.sparG
  | rems => exact h.sparG
  | minu => exact h.sparG
  | mins => exact h.sparG
  | maxu => exact h.sparG
  | maxs => exact h.sparG
  | sltu => exact h.sparG
  | slts => exact h.sparG
  | seq => exact h.sparG
  | clz => exact h.sparG
  | ctz => exact h.sparG
  | popc => exact h.sparG
  | bswap => exact h.sparG
  | addi => exact h.sparG
  | andi => exact h.sparG
  | ori => exact h.sparG
  | xori => exact h.sparG
  | shli => exact h.sparG
  | shri => exact h.sparG
  | sari => exact h.sparG
  | sltsi => exact h.sparG
  | sltui => exact h.sparG
  | movz => exact h.sparG
  | movk => exact h.sparG
  | ld8u => exact h.sparLd fun _ _ => by rfl
  | ld8s => exact h.sparLd fun _ _ => by rfl
  | ld16u => exact h.sparLd fun _ _ => by rfl
  | ld16s => exact h.sparLd fun _ _ => by rfl
  | ld32u => exact h.sparLd fun _ _ => by rfl
  | ld32s => exact h.sparLd fun _ _ => by rfl
  | ld64 => exact h.sparLd fun _ _ => by rfl
  | st8 => exact h.sparSt
  | st16 => exact h.sparSt
  | st32 => exact h.sparSt
  | st64 => exact h.sparSt
  | fld32 => exact h.sparLd fun _ _ => by rfl
  | fld64 => exact h.sparLd fun _ _ => by rfl
  | fst32 => exact h.sparSt
  | fst64 => exact h.sparSt
  | beq => exact h.sparBranch
  | bne => exact h.sparBranch
  | blts => exact h.sparBranch
  | bges => exact h.sparBranch
  | bltu => exact h.sparBranch
  | bgeu => exact h.sparBranch
  | j => exact h.spar fun _ hs => hs
  | jal => exact h.spar fun _ hs => hs.modTile fun _ => by rfl
  | jr => exact h.sparJr fun _ => by rfl
  | jalr => exact h.sparJr fun _ => by rfl
  | fadd => exact h.sparF
  | fsub => exact h.sparF
  | fmul => exact h.sparF
  | fdiv => exact h.sparF
  | fsqrt => exact h.sparF
  | fmin => exact h.sparF
  | fmax => exact h.sparF
  | feq => exact h.sparFc
  | flt => exact h.sparFc
  | fle => exact h.sparFc
  | ftoi => exact h.sparRegs fun _ => by rfl
  | itof => exact h.sparF
  | fcvt => exact h.sparF
  | fmvg => exact h.sparG
  | fmvf => exact h.sparRegs fun _ => by rfl
  | fusedMultiplyAdd => exact h.sparF
  | fusedMultiplySubtract => exact h.sparF
  | movs => exact h.spar fun _ hs => State.Kept.streamLoop (fun _ _ _ hg => hg.movsGranule) hs
  | cmps => exact h.spar fun _ hs => State.Kept.streamLoop (fun _ _ _ hg => hg.cmpsGranule) hs
  | fills => exact h.spar fun _ hs => State.Kept.streamLoop (fun _ _ _ hg => hg.fillsGranule) hs
  | scans => exact h.spar fun _ hs => State.Kept.streamLoop (fun _ _ _ hg => hg.scansGranule) hs
  | svc => exact h.spar fun _ hs => hs
  | rtm => exact h.execRtm
  | mfs => exact h.sparWord fun _ hs => hs.modTile fun _ => by rfl
  | mts => exact h.sparWord fun _ hs => hs.modTile fun _ => by simp
  | wait => exact h.sparWord fun _ hs => State.Kept.branch (hs.modTile fun _ => by rfl) hs
  | waitWakeup => exact h.wakeup
  | brk => exact h.spar fun _ hs => hs
  | fence => exact h.spar fun _ hs => hs
  | cmoClean => exact h.cmo
  | cmoInvalidate => exact h.cmo
  | cmoCleanInvalidate => exact h.cmo
  | cmoLock => exact h.cmo
  | cmoUnlock => exact h.cmo
  | preempt => exact h.acceptPreempt
  | dispatch => exact State.Kept.branch (h.acceptEvent fun _ => by rfl) h
  | unit => exact State.Kept.branch (h.acceptEvent fun _ => by rfl) h
  | timer => exact h.acceptTimer
  | vadd => exact h.vInt
  | vsub => exact h.vInt
  | vmul => exact h.vInt
  | vmulhu => exact h.vInt
  | vmulhs => exact h.vInt
  | vand => exact h.vInt
  | vor => exact h.vInt
  | vxor => exact h.vInt
  | vandn => exact h.vInt
  | vshl => exact h.vInt
  | vshr => exact h.vInt
  | vsar => exact h.vInt
  | vror => exact h.vInt
  | vminu => exact h.vInt
  | vmins => exact h.vInt
  | vmaxu => exact h.vInt
  | vmaxs => exact h.vInt
  | vabs => exact h.vInt
  | vneg => exact h.vInt
  | vmov => exact h.vInt
  | vfadd => exact h.vFp
  | vfsub => exact h.vFp
  | vfmul => exact h.vFp
  | vfdiv => exact h.vFp
  | vfsqrt => exact h.vFp
  | vfmin => exact h.vFp
  | vfmax => exact h.vFp
  | vfma => exact h.vFp
  | vfms => exact h.vFp
  | vceq => exact h.vCmp
  | vcne => exact h.vCmp
  | vcltu => exact h.vCmp
  | vcleu => exact h.vCmp
  | vclts => exact h.vCmp
  | vcles => exact h.vCmp
  | vfceq => exact h.vCmp
  | vfclt => exact h.vCmp
  | vfcle => exact h.vCmp
  | vfklt => exact h.vCmp
  | vfkle => exact h.vCmp
  | vld => exact h.vLoad
  | vst => exact h.vStore
  | vlds => exact h.vLoad
  | vsts => exact h.vStore
  | vgth => exact h.vLoad
  | gthf => exact h.vLoadFirst
  | vsct => exact h.vStore
  | vbcast => exact h.vMap
  | vextr => exact h.vRegs fun _ => by simp
  | vcmprs => exact h.vRegs fun _ => by simp
  | vsldn => exact h.vMap
  | vredsumu => exact h.vRed
  | vredsums => exact h.vRed
  | vredminu => exact h.vRed
  | vredmins => exact h.vRed
  | vredmaxu => exact h.vRed
  | vredmaxs => exact h.vRed
  | vfredsum => exact h.vRegs fun _ => by simp
  | mand => exact h.vMaskOp
  | mor => exact h.vMaskOp
  | mxor => exact h.vMaskOp
  | mandn => exact h.vMaskOp
  | mnot => exact h.vRegs fun _ => by simp
  | mpopc => exact h.vRegs fun _ => by simp
  | mfirst => exact h.vRegs fun _ => by simp
  | mtog => exact h.vRegs fun _ => by simp
  | gtom => exact h.vRegs fun _ => by simp
  | vwhile => exact h.vRegs fun _ => by simp
  | vunpk => exact h.vMap
  | vplcmp => exact h.vRegs fun _ => by simp
  | vhash => exact h.vRegs fun _ => by simp
  | vhstep => exact h.vMap
  | vhfin => exact h.vMap
  | vzext => exact h.vRegs fun _ => by simp
  | vsext => exact h.vRegs fun _ => by simp
  | vnarw => exact h.vRegs fun _ => by simp
  | vitof => exact h.vConv
  | vftoi => exact h.vConv
  | vfcvt => exact State.Kept.branch h.vConv h.vConv
  | thClean => exact h.thOp
  | thInvalidate => exact h.thOp
  | thCleanInvalidate => exact h.thOp
  | thLock => exact h.thOp
  | thUnlock => exact h.thOp
  | aperture => exact h.thOp
  | thatchOperationDone => exact h.modSlice
  | planRetire => exact h.planRetire
  | sliceEnable => exact h.sliceEnable
  | slicePower => exact h.slicePower
  | slicePowerOnDone => exact State.Kept.branch (h.modSlice) h
  | memoryRead => exact h.memRead
  | memoryWrite => exact h.memWrite
  | refresh => exact h.modMemChan
  | scrub => exact h.scrub
  | caParityAlert => exact h.caAlert
  | rfm => exact h.bump
  | rowHammerThreshold => exact h.rowHammer
  | rhWindowEnd => exact h.modMemChan
  | migrationUnit => exact h.migrationUnit
  | trainReset => exact h.objWrite
  | keepWakeDelayExpiry => exact h.execKeepWakeDelayExpiry
  | selfRefreshEntry => exact h.selfRefresh
  | keepEntryLimitExpiry => exact h.execKeepEntryLimitExpiry
  | keepRetentionExpiry => exact h.keepLapse
  | chStart => exact h.chanStart
  | chPause => exact State.Kept.branch (h.chanPause) h
  | chResume => exact State.Kept.branch (h.chanResume) h
  | chAbort => exact State.Kept.branch (h.chanStop.sweepMarked) h
  | channelPaused => exact h.chanPaused
  | requestLineRaise => exact State.Kept.branch (h.raiseLine) h
  | copy => exact h.chanMove
  | fill => exact h.chanMove
  | interleave => exact h.chanMove
  | deinterleave => exact h.chanMove
  | plane => exact h.chanMove
  | unplane => exact h.chanMove
  | descriptorComplete => exact h.chanComplete.sweepMarked
  | ringPoll => exact h.ringPoll
  | yelmPoll => exact h.yelmPoll
  | yelmJobDone => exact h.yelmJobDone
  | fdAlloc => exact State.Kept.branch (h.fdAlloc.modFlash) h
  | fcStart => exact State.Kept.branch (h.fcStart) h
  | fcFree => exact State.Kept.branch (h.modCtx) h
  | fcData => exact State.Kept.branch (h.fcData) h
  | fcKeyctl => exact State.Kept.branch (h.fcKeyctl) h
  | messageFinish => exact h.fcFinish
  | configRequest => exact h.configRequest
  | busMasterEnableClear => exact h.bmeClear
  | functionLevelReset => exact h.functionReset
  | linkDown => exact h.linkDown
  | fatalError => exact h.portCount.freezePort
  | linkUp => exact State.Kept.branch (h.modPort) h
  | completionReceived => exact h.cplReceived
  | completionTimeout => exact h.cplTimedOut
  | quarantineEnd => exact h.execQuarantineEnd
  | freezeHoldExpiry => exact State.Kept.branch (h.advanceTo.suspendPort) h
  | frzRelease => exact h.frzRelease
  | freezeRelease => exact h.objWrite
  | suspendNow => exact h.objWrite
  | intHoldoffExpiry => exact State.Kept.branch (h.advanceTo.modFunc.sendVector) h
  | taskGo => exact h.taskGo
  | badOpcode => exact h.execBadOpcode
  | nop => exact h.begin fun _ _ hs => hs.complete
  | flush => exact h.begin fun _ _ hs => hs.setDetails.modCmd
  | flushComplete => exact h.flushComplete
  | cancel => exact h.begin fun _ _ hs => hs.cancel
  | createTable => exact h.execCreateTable
  | alterTable => exact h.execAlterTable
  | dropTable => exact h.execDropTable
  | append => exact h.execAppend
  | runPlan => exact h.execRunPlan
  | releaseResult => exact h.begin fun _ _ hs => State.Kept.branch hs.modInst.complete hs.complete
  | registerQuery => exact h.begin fun _ _ hs => hs.withHost fun _ _ ht => ht.registerQuery
  | unregisterQuery => exact h.execUnregisterQuery
  | retargetQuery => exact h.begin fun _ _ hs => hs.withHost fun _ _ ht => ht.retargetQuery
  | nailComplete => exact h.nailComplete
  | completionRecordDelivery => exact h.deliverRecord
  | dozeEntry => exact State.Kept.branch (h.advanceTo.modInst) h
  | sleepEntry => exact State.Kept.branch (h.advanceTo.modInst) h
  | activationDrainExpiry => exact h.drainEnds
  | create => exact h.controlWrite
  | destroy => exact h.controlWrite
  | bind => exact h.controlWrite
  | unbind => exact h.controlWrite
  | freeze => exact h.controlWrite
  | thaw => exact h.controlWrite
  | reset => exact h.controlWrite
  | instanceDrained => exact h.instDrained
  | mbOutAck => exact h.mailAck
  | mbInPost => exact h.mailPost
  | mbSend => exact h.objWrite
  | mbReceiveAck => exact h.objWrite
  | dwRead => exact State.Kept.branch (h.dwGo) h
  | dwWrite => exact State.Kept.branch (h.dwGo) h
  | dwInfo => exact State.Kept.branch (h.dwGo) h
  | fieldPortFrame => exact h.fieldFrame
  | plynRead => exact h.plynTake
  | plynWrite => exact h.plynTake
  | plynInfo => exact h.plynTake
  | fragmentTimeout => exact h.execFragmentTimeout
  | plynReplyTransmit => exact h.plynSend
  | persistentCommit => exact State.Kept.branch (h.commitOne) h
  | plynKey => exact h.objWrite
  | heartbeat => exact h.heartbeatWrite
  | checkpoint => exact h.checkpointIn
  | ack => exact h.ackIn
  | health => exact h.healthIn
  | sync => exact h.execSync
  | handover => exact State.Kept.branch (h.checkpointIn) h
  | checkpointDeadline => exact h.ckptDeadline
  | selfFault => exact h.selfFault
  | lockstepMismatch => exact h.ridgeDown
  | failedResetExpiry => exact h.failedExpiry
  | ridgeSelfTestDone => exact h.ridgeTested
  | repairCountClear => exact State.Kept.branch (h.advanceTo.modRidge) h
  | standbySelfTest => exact h.standbyTest
  | revertHoldoffExpiry => exact State.Kept.branch (h.advanceTo.modFinial) h
  | finialMismatch => exact h.modFinial.alert.endRequest.noteOutage
  | safeVetoN => exact h.modFinial
  | alertClear => exact h.objWrite
  | coldStart => exact h.coldStart
  | mainSuppliesInRange => exact State.Kept.branch (h.start) h
  | wake => exact h.wakeRise
  | rstN => exact h.resetPin
  | fwStageBegin => exact h.objWrite
  | fwChunk => exact h.objWrite
  | fwStageEnd => exact h.objWrite
  | fwStageAbandon => exact h.objWrite
  | attestNonce => exact h.objWrite
  | attestReportDone => exact h.attestDone
  | measureExtend => exact h.objWrite
  | stepReset => exact h.objWrite
  | pitchChangeDone => exact h.pitchChangeDone
  | policyPark => exact h.policyParkDue
  | capSample => exact h.capSample
  | thermalSample => exact h.thermalSample
  | selfTest => exact h.objWrite
  | selfTestDone => exact h.selfTestDone
  | traceRearm => exact h.objWrite
  | availReset => exact h.objWrite
  | availabilityMirror => exact h.execAvailabilityMirror
  | voltageAlarm => exact h.voltageAlarm
  | brownout => exact State.Kept.branch (h.modBoot.brownout) h
  | standbySupplyLoss => exact State.Kept.branch (h.off) h
  | tamperN => exact State.Kept.branch h h.modBoot.flashAlarm
  | wakeFall => exact State.Kept.branch h.modBoot.modDram h.modBoot
  | eaveBlockLock => exact h.modEave
  | plcaBeacon => exact h.modDict
  | mainRailsLow => exact State.Kept.branch (h.modBoot) h
  | clockAlarmEnd => exact h.clockAlarmEnd
  | voltageAlarmEnd => exact h.voltageAlarmEnd

/-- Settles O3: the command in front keeps the queue's rest, whatever the canonical form (`exec_kept`). -/
theorem queueKept : Obligations.QueueKept := by
  intro s s' c rest hq hstep
  rw [step_cons hq] at hstep
  have hk := exec_kept (q := ⟨rest, False⟩) (s := { s with pending := rest }) (c := c) ⟨rfl, False.elim⟩
  rw [hstep] at hk
  exact hk.1

/-- Settles O4: a cycle changes the time base alone, and a command keeps the canonical form (`exec_kept`). -/
theorem soundKept : Obligations.SoundKept := by
  intro s s' hs hstep
  cases hq : s.pending with
  | nil =>
    rw [step_nil hq] at hstep
    cases hstep
    exact hs
  | cons c rest =>
    rw [step_cons hq] at hstep
    have hk := exec_kept (q := ⟨rest, True⟩) (s := { s with pending := rest }) (c := c) ⟨rfl, fun _ => hs⟩
    rw [hstep] at hk
    exact hk.2 trivial

end Sys2Proof.Machine
end

