-- ==== Sys2Proof/Proofs/PlaneRoundTrip.lean ====
section
/-! SUPPORT. Sums of powers of two by their bits; PLANE and UNPLANE (R441, R442, R73). -/

namespace Sys2Proof.Machine

set_option Elab.async false

/-- The number below 2^n whose bit i is `b i`. -/
def bitSum (n : Nat) (b : Nat → Bool) : Nat := ((List.range n).map fun i => if b i then 2 ^ i else 0).sum

theorem bitSum_succ (n : Nat) (b : Nat → Bool) : bitSum (n + 1) b = bitSum n b + if b n then 2 ^ n else 0 := by
  simp [bitSum, List.range_succ]

theorem bitSum_lt (n : Nat) (b : Nat → Bool) : bitSum n b < 2 ^ n := by
  induction n with
  | zero => simp [bitSum]
  | succ n ih =>
    rw [bitSum_succ, Nat.pow_succ]
    split
    · omega
    · omega

theorem testBit_bitSum (n : Nat) (b : Nat → Bool) (i : Nat) : (bitSum n b).testBit i = (decide (i < n) && b i) := by
  induction n with
  | zero => simp [bitSum]
  | succ n ih =>
    have hlt := bitSum_lt n b
    rw [bitSum_succ]
    obtain hi | rfl | hi := Nat.lt_trichotomy i n
    · have hsum : (bitSum n b + if b n then 2 ^ n else 0).testBit i = (bitSum n b).testBit i := by
        split
        · rw [Nat.add_comm, Nat.testBit_two_pow_add_gt hi]
        · rfl
      simp [hsum, ih, hi, Nat.lt_succ_of_lt hi]
    · have hlow : (bitSum i b).testBit i = false := Nat.testBit_lt_two_pow hlt
      cases hb : b i with
      | false => simp [hlow]
      | true => simp [Nat.add_comm (bitSum i b), Nat.testBit_two_pow_add_eq, hlow]
    · have hsum : (bitSum n b + if b n then 2 ^ n else 0) < 2 ^ (n + 1) := bitSum_succ n b ▸ bitSum_lt (n + 1) b
      have hpow : 2 ^ (n + 1) ≤ 2 ^ i := Nat.pow_le_pow_right (by omega) hi
      have hn : ¬ i < n + 1 := by omega
      rw [Nat.testBit_lt_two_pow (hsum.trans_le hpow)]
      simp [hn]

theorem bitSum_testBit {n x : Nat} (hx : x < 2 ^ n) : bitSum n x.testBit = x := by
  refine Nat.eq_of_testBit_eq fun i => ?_
  rw [testBit_bitSum]
  by_cases hi : i < n
  · simp [hi]
  · have hpow : 2 ^ n ≤ 2 ^ i := Nat.pow_le_pow_right (by omega) (by omega)
    rw [Nat.testBit_lt_two_pow (hx.trans_le hpow)]
    simp [hi]

/-- The same number with its bits listed from the highest. -/
theorem sum_bits_from_top (n : Nat) (b : Nat → Bool) :
    ((List.range n).map fun p => if b (n - 1 - p) then 2 ^ (n - 1 - p) else 0).sum = bitSum n b :=
  Finset.sum_range_reflect (fun i => if b i then 2 ^ i else 0) n

theorem zip_range_length {α : Type} (l : List α) (z : α) :
    l.zip (List.range l.length) = (List.range l.length).map fun i => (l.getD i z, i) := by
  refine List.ext_getElem (by simp) fun i hi _ => ?_
  have hl : i < l.length := by simpa using hi
  simp [hl]

theorem two_pow_eq_halves {w : Nat} (hw : 0 < w) : 2 ^ w = 2 ^ (w - 1) + 2 ^ (w - 1) := by
  rw [← Nat.mul_two, ← Nat.pow_succ, Nat.succ_eq_add_one, Nat.sub_add_cancel hw]

theorem bitAt_top_iff {w v : Nat} (hw : 0 < w) (hv : v < 2 ^ w) : bitAt v (w - 1) = true ↔ 2 ^ (w - 1) ≤ v := by
  have hhalf := two_pow_eq_halves hw
  constructor
  · intro hbit
    by_contra hlt
    have hq : v / 2 ^ (w - 1) = 0 := Nat.div_eq_of_lt (by omega)
    simp [bitAt, hq] at hbit
  · intro hge
    have hq : v / 2 ^ (w - 1) = 1 := Nat.div_eq_of_lt_le (by omega) (by omega)
    simp [bitAt, hq]

theorem planeKey_lt {w rule v : Nat} (hw : 0 < w) (hv : v < 2 ^ w) : planeKey w rule v < 2 ^ w := by
  have hhalf := two_pow_eq_halves hw
  unfold planeKey
  split
  · exact hv
  · exact Nat.xor_lt_two_pow hv (by omega)
  · split
    · omega
    · next hbit =>
      have hlow : v < 2 ^ (w - 1) := Nat.lt_of_not_le fun h => hbit ((bitAt_top_iff hw hv).mpr h)
      omega

/-- R73: the key of each rule is undone, on the values of w bits. -/
theorem planeUnkey_planeKey {w rule v : Nat} (hw : 0 < w) (hv : v < 2 ^ w) : planeUnkey w rule (planeKey w rule v) = v := by
  have hhalf := two_pow_eq_halves hw
  have hlow := fun {x} (hx : x < 2 ^ w) => bitAt_top_iff hw hx
  obtain _ | _ | rule := rule
  · rfl
  · simp [planeKey, planeUnkey, Nat.xor_assoc]
  · simp only [planeKey, planeUnkey]
    by_cases hbit : bitAt v (w - 1) = true
    · have hv' := (hlow hv).mp hbit
      have hkey : ¬ bitAt (2 ^ w - 1 - v) (w - 1) = true := fun h => by
        have := (hlow (by omega)).mp h
        omega
      rw [if_pos hbit, if_neg hkey]
      omega
    · have hv' : v < 2 ^ (w - 1) := Nat.lt_of_not_le fun h => hbit ((hlow hv).mpr h)
      have hkey : bitAt (v + 2 ^ (w - 1)) (w - 1) = true := (hlow (by omega)).mpr (by omega)
      rw [if_neg hbit, if_pos hkey]
      omega

theorem GDesc.w_pos (d : GDesc) : 0 < d.w := by simp [GDesc.w]

/-- The offset of an element's key from P0, as its planes hold it. -/
def GDesc.planeOffset (d : GDesc) (v : Nat) : Nat := planeKey d.w d.keyRule v - d.p0

/-- PLANE's words: bit i of word p is bit (planes - 1 - p) of the offset of element i. -/
theorem planeWords_eq {d : GDesc} {vals words : List Nat} (h : planeWords d vals = some words) :
    words = (List.range d.planes).map fun p => bitSum vals.length fun i => (d.planeOffset (vals.getD i 0)).testBit (d.planes - 1 - p) := by
  unfold planeWords at h
  dsimp only at h
  split at h
  · cases h
  · cases h
    refine List.map_congr_left fun p _ => ?_
    rw [zip_range_length _ (planeKey d.w d.keyRule 0, planeKey d.w d.keyRule 0 - d.p0), List.map_map, List.length_map, bitSum]
    congr 1
    refine List.map_congr_left fun i hi => ?_
    have hi : i < vals.length := List.mem_range.mp hi
    simp [bitAt_eq_testBit, GDesc.planeOffset, hi]

theorem planeWords_ok {d : GDesc} {vals words : List Nat} (h : planeWords d vals = some words) :
    ∀ v ∈ vals, d.p0 ≤ planeKey d.w d.keyRule v ∧ d.planeOffset v < 2 ^ d.planes := by
  intro v hv
  unfold planeWords at h
  dsimp only at h
  split at h
  · cases h
  · next hany =>
    by_contra hbad
    refine hany (List.any_eq_true.mpr ⟨_, List.mem_map_of_mem hv, ?_⟩)
    simp only [GDesc.planeOffset] at hbad
    simp only [Bool.or_eq_true, decide_eq_true_eq]
    omega

/-- Settles O31: UNPLANE reads each offset's bits back from the words, from the highest plane down, and undoes the key. -/
theorem unplaneUndoesPlane : Obligations.UnplaneUndoesPlane := by
  intro d vals words _ _ _ _ _ hvals hwords
  have hok := planeWords_ok hwords
  rw [planeWords_eq hwords]
  refine List.ext_getElem (by simp [unplaneVals]) fun i hi hlen => ?_
  have hv := hok _ (List.getElem_mem hlen)
  have hw := hvals _ (List.getElem_mem hlen)
  have hoff : d.planeOffset vals[i] + d.p0 = planeKey d.w d.keyRule vals[i] := Nat.sub_add_cancel hv.1
  simp only [unplaneVals, List.getElem_map, List.getElem_range, List.length_map, List.length_range]
  rw [← List.map_prod_right_eq_zip, List.map_map]
  have hsum : ((List.range d.planes).map fun p => if (d.planeOffset vals[i]).testBit (d.planes - 1 - p) then 2 ^ (d.planes - 1 - p) else 0).sum
      = d.planeOffset vals[i] := (sum_bits_from_top _ _).trans (bitSum_testBit hv.2)
  have hread : ∀ p, bitAt (bitSum vals.length fun k => (d.planeOffset (vals.getD k 0)).testBit (d.planes - 1 - p)) i =
      (d.planeOffset vals[i]).testBit (d.planes - 1 - p) := fun p => by
    simp [bitAt_eq_testBit, testBit_bitSum, hlen]
  simp only [Function.comp_def, hread, hsum, hoff]
  rw [Nat.mod_eq_of_lt (planeKey_lt d.w_pos hw), planeUnkey_planeKey d.w_pos hw]

end Sys2Proof.Machine
end

