-- ==== Sys2Proof/Proofs/ByteStrings.lean ====
section
/-! SUPPORT. Little-endian numbers and fields of byte strings; items read back from a packed array (R86). -/

namespace Sys2Proof.Machine

set_option Elab.async false

theorem two_pow_eight_mul (n : Nat) : 2 ^ (8 * n) = 256 ^ n := by rw [Nat.pow_mul]

theorem leNat_lt (bs : Bytes) : leNat bs < 256 ^ bs.length := by
  induction bs with
  | nil => simp [leNat]
  | cons b bs ih =>
    have hb : b.toNat < 256 := b.isLt
    rw [leNat, List.length_cons, Nat.pow_succ]
    omega

theorem leNat_append (a b : Bytes) : leNat (a ++ b) = leNat a + 256 ^ a.length * leNat b := by
  induction a with
  | nil => simp [leNat]
  | cons x a ih => rw [List.cons_append, leNat, leNat, ih, List.length_cons, Nat.pow_succ]; ring

theorem leNat_toLE_mod (n x : Nat) : leNat (toLE n x) = x % 256 ^ n := by
  induction n generalizing x with
  | zero => simp [toLE, leNat, Nat.mod_one]
  | succ n ih =>
    have hbyte : (BitVec.ofNat 8 x).toNat = x % 256 := rfl
    rw [toLE, leNat, ih, hbyte, Nat.pow_succ, Nat.mul_comm (256 ^ n), Nat.mod_mul]

theorem leNat_toLE {n x : Nat} (hx : x < 2 ^ (8 * n)) : leNat (toLE n x) = x := by
  rw [leNat_toLE_mod, ← two_pow_eight_mul, Nat.mod_eq_of_lt hx]

theorem sliceB_zero_append {n : Nat} {a : Bytes} (ha : a.length = n) (b : Bytes) : sliceB 0 n (a ++ b) = a := by
  simp [sliceB, ← ha]

theorem fieldAt_append_right {a : Bytes} {off : Nat} (h : a.length ≤ off) (n : Nat) (b : Bytes) :
    fieldAt off n (a ++ b) = fieldAt (off - a.length) n b := by
  simp [fieldAt, sliceB, List.drop_append, List.drop_eq_nil_of_le h]

theorem fieldAt_append_left {a : Bytes} {off n : Nat} (h : off + n ≤ a.length) (b : Bytes) : fieldAt off n (a ++ b) = fieldAt off n a := by
  have hoff : off ≤ a.length := by omega
  have hn : n ≤ (a.drop off).length := by rw [List.length_drop]; omega
  rw [fieldAt, fieldAt, sliceB, sliceB, List.drop_append_of_le_length hoff, List.take_append_of_le_length hn]

theorem fieldAt_toLE_append {n x : Nat} (hx : x < 2 ^ (8 * n)) (b : Bytes) : fieldAt 0 n (toLE n x ++ b) = x := by
  rw [fieldAt, sliceB_zero_append (length_toLE n x), leNat_toLE hx]

@[simp] theorem length_padTo (n : Nat) (bs : Bytes) : (padTo n bs).length = n := by
  simp [padTo]
  omega

theorem le_ceilDiv_mul (n : Nat) {k : Nat} (hk : 0 < k) : n ≤ ceilDiv n k * k := by
  have hdiv := Nat.div_add_mod (n + k - 1) k
  have hmod := Nat.mod_lt (n + k - 1) hk
  rw [ceilDiv, Nat.mul_comm]
  omega

/-- Padding to 8 bytes appends. -/
theorem pad8_eq_append (bs : Bytes) : ∃ z, pad8 bs = bs ++ z := by
  refine ⟨List.replicate (ceilDiv bs.length 8 * 8 - bs.length) 0, ?_⟩
  have hle := le_ceilDiv_mul bs.length (k := 8) (by omega)
  exact List.take_of_length_le (by simp; omega)

@[simp] theorem length_pad8 (bs : Bytes) : (pad8 bs).length = ceilDiv bs.length 8 * 8 := length_padTo _ _

theorem length_flatMap_const {α β : Type} {f : α → List β} {w : Nat} {l : List α} (hf : ∀ x ∈ l, (f x).length = w) :
    (l.flatMap f).length = l.length * w := by
  rw [List.length_flatMap, List.map_congr_left hf, List.map_const', List.sum_replicate, smul_eq_mul]

/-- Strings of one length laid side by side: the drop of i of their lengths drops i of them. -/
theorem drop_flatMap_const {α β : Type} {f : α → List β} {w : Nat} {l : List α} (hf : ∀ x ∈ l, (f x).length = w) (i : Nat) :
    (l.flatMap f).drop (i * w) = (l.drop i).flatMap f := by
  induction l generalizing i with
  | nil => simp
  | cons x l ih =>
    cases i with
    | zero => simp
    | succ i =>
      have hx : (f x).length = w := hf x List.mem_cons_self
      have hlen : (i + 1) * w = (f x).length + i * w := by rw [hx, Nat.succ_mul, Nat.add_comm]
      rw [List.flatMap_cons, hlen, List.drop_length_add_append, List.drop_succ_cons]
      exact ih (fun y hy => hf y (List.mem_cons_of_mem x hy)) i

theorem drop_flatMap_const_append {α β : Type} {f : α → List β} {w i : Nat} {l : List α} (hf : ∀ x ∈ l, (f x).length = w)
    (hi : i < l.length) (r : List β) : ∃ z, (l.flatMap f ++ r).drop (i * w) = f l[i] ++ z := by
  have hle : i * w ≤ (l.flatMap f).length := by
    rw [length_flatMap_const hf]
    exact Nat.mul_le_mul_right w hi.le
  rw [List.drop_append_of_le_length hle, drop_flatMap_const hf, List.drop_eq_getElem_cons hi, List.flatMap_cons, List.append_assoc]
  exact ⟨_, rfl⟩

/-- Numbers of w bytes laid side by side are read back by their places. -/
theorem fieldAt_flatMap_toLE {w i : Nat} {l : List Nat} (hl : ∀ x ∈ l, x < 2 ^ (8 * w)) (hi : i < l.length) (r : Bytes) :
    fieldAt (i * w) w (l.flatMap (toLE w) ++ r) = l[i] := by
  obtain ⟨z, hz⟩ := drop_flatMap_const_append (f := toLE w) (fun x _ => length_toLE w x) hi r
  have hfield : fieldAt (i * w) w (l.flatMap (toLE w) ++ r) = fieldAt 0 w (toLE w l[i] ++ z) := by
    rw [fieldAt, fieldAt, sliceB, sliceB, hz, List.drop_zero]
  rw [hfield, fieldAt_toLE_append (hl _ (List.getElem_mem hi))]

theorem map_fieldAt_flatMap_toLE {w : Nat} {l : List Nat} (hl : ∀ x ∈ l, x < 2 ^ (8 * w)) (r : Bytes) :
    ((List.range l.length).map fun i => fieldAt (i * w) w (l.flatMap (toLE w) ++ r)) = l := by
  refine List.ext_getElem (by simp) fun i hi hlen => ?_
  simp [fieldAt_flatMap_toLE hl hlen]

theorem leNat_packBits (B : Nat) (items : List Nat) : leNat (packBits B items) = packedNat B items := by
  have hfits := (bits_le_length_packBits B items).1
  rw [length_packBits] at hfits
  rw [packBits_eq_toLE, leNat_toLE]
  exact (packedNat_lt B items).trans_le (Nat.pow_le_pow_right (by decide) hfits)

/-- R86: items below 2^B are read back, whatever follows the array. -/
theorem unpackBits_packBits_append {B : Nat} {items : List Nat} (h : ∀ x ∈ items, x < 2 ^ B) (r : Bytes) :
    unpackBits B items.length (packBits B items ++ r) = items := by
  refine List.ext_getElem (by simp [unpackBits]) fun i hi hlen => ?_
  have hfits := (bits_le_length_packBits B items).1
  have hx := h _ (List.getElem_mem hlen)
  have hend : (i + 1) * B ≤ items.length * B := Nat.mul_le_mul_right B hlen
  rw [Nat.succ_mul] at hend
  simp only [unpackBits, List.getElem_map, List.getElem_range]
  refine Nat.eq_of_testBit_eq fun k => ?_
  rw [Nat.testBit_mod_two_pow, Nat.testBit_div_two_pow, leNat_append, leNat_packBits, Nat.add_comm (packedNat B items),
    ← two_pow_eight_mul, Nat.testBit_two_pow_mul_add _ ((packedNat_lt B items).trans_le (Nat.pow_le_pow_right (by decide) hfits))]
  by_cases hk : k < B
  · have hlow : k + i * B < 8 * (packBits B items).length := by omega
    rw [if_pos hlow, Nat.add_comm, testBit_packedNat hk]
    simp [hk, hlen]
  · have hpow : 2 ^ B ≤ 2 ^ k := Nat.pow_le_pow_right (by decide) (by omega)
    rw [Nat.testBit_lt_two_pow (hx.trans_le hpow)]
    simp [hk]

theorem unpackBits_packBits {B : Nat} {items : List Nat} (h : ∀ x ∈ items, x < 2 ^ B) :
    unpackBits B items.length (packBits B items) = items := by simpa using unpackBits_packBits_append h []

theorem lt_two_pow_bitLen {x m : Nat} (h : x ≤ m) : x < 2 ^ bitLen m := by
  rw [bitLen_eq_size]
  exact h.trans_lt (Nat.lt_size_self m)

theorem bitLen_le {m w : Nat} (h : m < 2 ^ w) : bitLen m ≤ w := by
  rw [bitLen_eq_size]
  exact Nat.size_le.mpr h

theorem le_foldl_max {l : List Nat} {a x : Nat} (h : x ≤ a ∨ x ∈ l) : x ≤ l.foldl max a := by
  induction l generalizing a with
  | nil => simpa using h
  | cons y l ih =>
    refine ih ?_
    simp only [List.mem_cons] at h
    obtain h | rfl | h := h
    · exact .inl (h.trans (le_max_left a y))
    · exact .inl (le_max_right a x)
    · exact .inr h

theorem foldl_max_lt {l : List Nat} {a n : Nat} (ha : a < n) (h : ∀ x ∈ l, x < n) : l.foldl max a < n := by
  induction l generalizing a with
  | nil => exact ha
  | cons y l ih => exact ih (max_lt ha (h y List.mem_cons_self)) fun x hx => h x (List.mem_cons_of_mem y hx)

theorem foldl_min_le {l : List Nat} {a x : Nat} (h : a ≤ x ∨ x ∈ l) : l.foldl min a ≤ x := by
  induction l generalizing a with
  | nil => simpa using h
  | cons y l ih =>
    refine ih ?_
    simp only [List.mem_cons] at h
    obtain h | rfl | h := h
    · exact .inl ((min_le_left a y).trans h)
    · exact .inl (min_le_right a x)
    · exact .inr h

end Sys2Proof.Machine
end

