-- ==== Sys2Proof/Proofs/BlockValues.lean ====
section
/-! SUPPORT. What a block's encodings keep of its values (R84 to R94): the codes of single values, the runs, the offsets, the fillers,
and the body that is decoded. -/

namespace Sys2Proof.Machine

set_option Elab.async false

/-! Codes of one value. -/

theorem unsignedOf_signedOf (w x : Nat) : unsignedOf w (signedOf w x) = x % 2 ^ w := by
  have hx : x % 2 ^ w < 2 ^ w := Nat.mod_lt _ (Nat.two_pow_pos w)
  unfold unsignedOf signedOf
  dsimp only
  split
  · rw [Int.emod_eq_of_lt (by omega) (by omega)]; omega
  · rw [Int.sub_emod_right, Int.emod_eq_of_lt (by omega) (by omega)]; omega

theorem zigzag_lt (w x : Nat) : zigzag w x < 2 ^ w := by
  have hx : x % 2 ^ w < 2 ^ w := Nat.mod_lt _ (Nat.two_pow_pos w)
  unfold zigzag signedOf
  dsimp only
  split_ifs
  all_goals omega

/-- R89: a zigzag code gives back the value's low w bits. -/
theorem unzigzag_zigzag (w x : Nat) : unzigzag w (zigzag w x) = x % 2 ^ w := by
  have hdec : ∀ v : Int, (if (if 0 ≤ v then 2 * v else -2 * v - 1).toNat % 2 == 0 then
      (((if 0 ≤ v then 2 * v else -2 * v - 1).toNat / 2 : Nat) : Int)
      else -(((if 0 ≤ v then 2 * v else -2 * v - 1).toNat / 2 : Nat) : Int) - 1) = v := by
    intro v
    split_ifs
    all_goals simp_all
    all_goals omega
  rw [← unsignedOf_signedOf]
  exact congrArg (unsignedOf w) (hdec (signedOf w x))

theorem unsignedOf_mod {b w : Nat} (h : b ≤ w) (v : Int) : unsignedOf w v % 2 ^ b = unsignedOf b v := by
  have hdvd : ((2 ^ b : Nat) : Int) ∣ ((2 ^ w : Nat) : Int) := Int.natCast_dvd_natCast.mpr (Nat.pow_dvd_pow 2 h)
  have hpos : 0 ≤ v % ((2 ^ w : Nat) : Int) := Int.emod_nonneg _ (by positivity)
  unfold unsignedOf
  rw [← Int.emod_emod_of_dvd v hdvd, Int.toNat_emod hpos (by positivity), Int.toNat_natCast]

theorem ext64_mod {ty x : Nat} (hty : tyBits ty ≤ 64) (hx : x < 2 ^ tyBits ty) : ext64 ty x % 2 ^ tyBits ty = x := by
  unfold ext64
  split
  · rw [unsignedOf_mod hty, unsignedOf_signedOf, Nat.mod_eq_of_lt hx]
  · exact Nat.mod_eq_of_lt hx

theorem ext64_lt {ty x : Nat} (hty : tyBits ty ≤ 64) (hx : x < 2 ^ tyBits ty) : ext64 ty x < 2 ^ 64 := by
  unfold ext64
  split
  · unfold unsignedOf
    omega
  · exact hx.trans_le (Nat.pow_le_pow_right (by decide) hty)

/-! Runs (R92). -/

/-- The runs of a prefix, newest first, as `runsOf` collects them. -/
inductive RunsOf : List Nat → List (Nat × Nat) → Prop
  | nil : RunsOf [] []
  | run {p r} (x m : Nat) (h : RunsOf p r) (hm : 0 < m) : RunsOf (p ++ List.replicate m x) ((x, p.length + m) :: r)

/-- One value more: the newest run grows, or a run begins. -/
def runStep (acc : List (Nat × Nat) × Nat) (v : Nat) : List (Nat × Nat) × Nat :=
  match acc.1 with
  | (x, _) :: r => if x == v then ((x, acc.2 + 1) :: r, acc.2 + 1) else ((v, acc.2 + 1) :: acc.1, acc.2 + 1)
  | [] => ([(v, acc.2 + 1)], acc.2 + 1)

theorem RunsOf.step {p : List Nat} {r : List (Nat × Nat)} (h : RunsOf p r) (v : Nat) :
    RunsOf (p ++ [v]) (runStep (r, p.length) v).1 ∧ (runStep (r, p.length) v).2 = (p ++ [v]).length := by
  cases h with
  | nil => exact ⟨.run v 1 .nil (by decide), rfl⟩
  | run x m h hm =>
    unfold runStep
    dsimp only
    split
    · next hxv =>
      rw [beq_iff_eq] at hxv
      subst hxv
      refine ⟨?_, by simp [Nat.add_assoc]⟩
      have hgrown := RunsOf.run x (m + 1) h (by omega)
      rw [List.replicate_succ', ← List.append_assoc, ← Nat.add_assoc] at hgrown
      rwa [List.length_append, List.length_replicate]
    · exact ⟨.run v 1 (.run x m h hm) (by decide), by simp [Nat.add_assoc]⟩

theorem runsOf_eq (vals : List Nat) : runsOf vals = (vals.foldl runStep ([], 0)).1.reverse := rfl

theorem RunsOf.foldl {p : List Nat} {r : List (Nat × Nat)} (h : RunsOf p r) (vals : List Nat) :
    RunsOf (p ++ vals) (vals.foldl runStep (r, p.length)).1 := by
  induction vals generalizing p r with
  | nil => simpa using h
  | cons v vals ih =>
    obtain ⟨hruns, hlen⟩ := h.step v
    have hrest := ih hruns
    rw [← hlen, Prod.mk.eta] at hrest
    simpa using hrest

theorem runsOf_runs (vals : List Nat) : RunsOf vals (vals.foldl runStep ([], 0)).1 := by simpa using RunsOf.nil.foldl vals

/-- Laid out row by row, the runs are the values; their ends rise to the number of values. -/
theorem RunsOf.unrun_append {p : List Nat} {r : List (Nat × Nat)} (h : RunsOf p r) (l : List (Nat × Nat)) :
    unrun 0 (r.reverse ++ l) = p ++ unrun p.length l ∧
    ∀ n, endsOk n 0 ((r.reverse ++ l).map (·.2)) = endsOk n p.length (l.map (·.2)) := by
  induction h generalizing l with
  | nil => simp
  | run x m h hm ih =>
    obtain ⟨hvals, hends⟩ := ih ((x, _ + m) :: l)
    rw [List.reverse_cons, List.append_assoc, List.singleton_append]
    refine ⟨hvals.trans (by simp [unrun]), fun n => (hends n).trans ?_⟩
    simp [endsOk, hm]

theorem unrun_runsOf (vals : List Nat) : unrun 0 (runsOf vals) = vals := by
  simpa [runsOf_eq, unrun] using ((runsOf_runs vals).unrun_append []).1

theorem endsOk_runsOf (vals : List Nat) : endsOk vals.length 0 ((runsOf vals).map (·.2)) = true := by
  simpa [runsOf_eq, endsOk] using ((runsOf_runs vals).unrun_append []).2 vals.length

theorem RunsOf.bounds {p : List Nat} {r : List (Nat × Nat)} (h : RunsOf p r) :
    r.length ≤ p.length ∧ ∀ x ∈ r, x.1 ∈ p ∧ x.2 ≤ p.length := by
  induction h with
  | nil => simp
  | run x m h hm ih =>
    obtain ⟨hlen, hall⟩ := ih
    refine ⟨by simp; omega, fun y hy => ?_⟩
    obtain rfl | hy := List.mem_cons.mp hy
    · exact ⟨by simp; omega, by simp⟩
    · obtain ⟨hmem, hend⟩ := hall y hy
      exact ⟨List.mem_append_left _ hmem, by simp; omega⟩

theorem runsOf_bounds (vals : List Nat) :
    (runsOf vals).length ≤ vals.length ∧ ∀ x ∈ runsOf vals, x.1 ∈ vals ∧ x.2 ≤ vals.length := by
  simpa [runsOf_eq] using (runsOf_runs vals).bounds

/-! Offsets of variable-length values (R88). -/

/-- The offsets of strings that begin at a. -/
def offsFrom (a : Nat) : List Bytes → List Nat
  | [] => [a]
  | b :: bs => a :: offsFrom (a + b.length) bs

theorem offsetsOf_eq (l : List Bytes) : offsetsOf l = offsFrom 0 l := by
  have hfold : ∀ (l : List Bytes) (acc : List Nat) (a : Nat),
      (l.foldl (fun (acc : List Nat × Nat) b => ((acc.2 + b.length) :: acc.1, acc.2 + b.length)) (a :: acc, a)).1.reverse =
        acc.reverse ++ offsFrom a l := by
    intro l
    induction l with
    | nil => simp [offsFrom]
    | cons b l ih => intro acc a; rw [List.foldl_cons, ih]; simp [offsFrom]
  exact hfold l [] 0

@[simp] theorem length_offsFrom (a : Nat) (l : List Bytes) : (offsFrom a l).length = l.length + 1 := by
  induction l generalizing a with
  | nil => rfl
  | cons b l ih => simp [offsFrom, ih]

theorem offsFrom_ne_nil (a : Nat) (l : List Bytes) : offsFrom a l ≠ [] := by
  cases l with
  | nil => simp [offsFrom]
  | cons b l => simp [offsFrom]

theorem offsFrom_le {a : Nat} {l : List Bytes} : ∀ x ∈ offsFrom a l, a ≤ x ∧ x ≤ a + l.flatten.length := by
  induction l generalizing a with
  | nil => simp [offsFrom]
  | cons b l ih =>
    intro x hx
    rw [List.flatten_cons, List.length_append]
    obtain rfl | hx := List.mem_cons.mp hx
    · omega
    · have := ih x hx
      omega

theorem getLastD_offsFrom (a d : Nat) (l : List Bytes) : (offsFrom a l).getLastD d = a + l.flatten.length := by
  induction l generalizing a d with
  | nil => rfl
  | cons b l ih =>
    rw [offsFrom, List.getLastD_cons, ih]
    simp [Nat.add_assoc]

/-- The pairs of neighbouring offsets. -/
theorem zip_offsFrom (a : Nat) (b : Bytes) (l : List Bytes) : ((offsFrom a (b :: l)).zip ((offsFrom a (b :: l)).drop 1)) =
    (a, a + b.length) :: ((offsFrom (a + b.length) l).zip ((offsFrom (a + b.length) l).drop 1)) := by
  cases l with
  | nil => rfl
  | cons c l => rfl

theorem offsFrom_rises (a : Nat) (l : List Bytes) : ((offsFrom a l).zip ((offsFrom a l).drop 1)).all (fun x => x.1 ≤ x.2) = true := by
  induction l generalizing a with
  | nil => rfl
  | cons b l ih => rw [zip_offsFrom, List.all_cons, ih]; simp

/-- The strings between neighbouring offsets are those laid out. -/
theorem slices_offsFrom (p z : Bytes) (l : List Bytes) :
    ((offsFrom p.length l).zip ((offsFrom p.length l).drop 1)).map (fun x => sliceB x.1 (x.2 - x.1) (p ++ (l.flatten ++ z))) = l := by
  induction l generalizing p with
  | nil => rfl
  | cons b l ih =>
    have hrest := ih (p ++ b)
    rw [List.length_append] at hrest
    have hb : sliceB p.length b.length (p ++ (b ++ (l.flatten ++ z))) = b := by simp [sliceB]
    rw [zip_offsFrom, List.map_cons, List.flatten_cons, List.append_assoc, Nat.add_sub_cancel_left, hb]
    simpa using hrest

/-! Fillers (R85) and the validity bitmap (R84). -/

/-- The values with x, or the last present value, in place of each NULL. -/
def fillFrom (x : Val) : List Val → List Val
  | [] => []
  | v :: vs => (if v == .null then x else v) :: fillFrom (if v == .null then x else v) vs

theorem withFiller_eq {vals : List Val} {first : Val} (h : vals.find? (· != .null) = some first) : withFiller vals = fillFrom first vals := by
  have hfold : ∀ (l acc : List Val) (x : Val), ((l.foldl (fun (acc : List Val × Val) v =>
      let x := if v == .null then acc.2 else v
      (x :: acc.1, x)) (acc, x)).1.reverse) = acc.reverse ++ fillFrom x l := by
    intro l
    induction l with
    | nil => simp [fillFrom]
    | cons v l ih => intro acc x; rw [List.foldl_cons, ih]; simp [fillFrom]
  rw [withFiller, h]
  simpa using hfold vals [] first

/-- A stored list agrees with the values wherever they are present. -/
def Stores (st vals : List Val) : Prop := List.Forall₂ (fun y v => v ≠ .null → y = v) st vals

theorem stores_fillFrom (x : Val) (vals : List Val) : Stores (fillFrom x vals) vals := by
  induction vals generalizing x with
  | nil => exact .nil
  | cons v vals ih => exact .cons (fun hv => by simp [hv]) (ih _)

theorem fillFrom_forall {P : Val → Prop} {x : Val} {vals : List Val} (hx : P x) (h : ∀ v ∈ vals, v ≠ .null → P v) :
    ∀ y ∈ fillFrom x vals, P y := by
  induction vals generalizing x with
  | nil => simp [fillFrom]
  | cons v vals ih =>
    have hv : P (if v == .null then x else v) := by
      split
      · exact hx
      · next hne => exact h v List.mem_cons_self (by simpa using hne)
    intro y hy
    obtain rfl | hy := List.mem_cons.mp hy
    · exact hv
    · exact ih hv (fun w hw => h w (List.mem_cons_of_mem v hw)) y hy

/-- What is stored where NULL is put back: the values. -/
theorem Stores.zip_bitmap {st vals : List Val} (h : Stores st vals) :
    ((st.zip (vals.map fun v => if v == .null then 0 else 1)).map fun (x : Val × Nat) => if x.2 == 1 then x.1 else .null) = vals := by
  induction h with
  | nil => rfl
  | @cons y v st vals hyv h ih =>
    simp only [List.map_cons, List.zip_cons_cons, ih]
    by_cases hv : v = .null
    · simp [hv]
    · simp [hv, hyv hv]

theorem Stores.eq_of_present {st vals : List Val} (h : Stores st vals) (hall : ∀ v ∈ vals, v ≠ .null) : st = vals := by
  induction h with
  | nil => rfl
  | @cons y v st vals hyv h ih =>
    rw [hyv (hall v List.mem_cons_self), ih fun w hw => hall w (List.mem_cons_of_mem v hw)]

end Sys2Proof.Machine
end

