-- ==== Sys2Proof/Proofs/BlockDecoding.lean ====
section
/-! SUPPORT. Decoding of a block's body (R83 to R94): its header and bitmap read back, then each encoding's payload. -/

namespace Sys2Proof.Machine

set_option Elab.async false

theorem length_bodyHeader (enc B : Nat) (nulls : Bool) (inner count param : Nat) : (bodyHeader enc B nulls inner count param).length = 16 := by
  simp [bodyHeader]

/-- The header's fields, as a decoder reads them. -/
theorem fieldAt_bodyHeader {enc B count param : Nat} (he : enc < 256) (hB : B < 256) (hc : count < 65536) (hp : param < 2 ^ 64) (nulls : Bool)
    (r : Bytes) :
    fieldAt 0 1 (bodyHeader enc B nulls 0 count param ++ r) = enc ∧ fieldAt 1 1 (bodyHeader enc B nulls 0 count param ++ r) = B ∧
    bitAt (fieldAt 2 1 (bodyHeader enc B nulls 0 count param ++ r)) 0 = nulls ∧
    fieldAt 4 2 (bodyHeader enc B nulls 0 count param ++ r) = count ∧ fieldAt 8 8 (bodyHeader enc B nulls 0 count param ++ r) = param := by
  simp only [bodyHeader, List.append_assoc]
  refine ⟨fieldAt_toLE_append (n := 1) he _, ?_, ?_, ?_, ?_⟩
  · rw [fieldAt_append_right (by simp)]
    exact fieldAt_toLE_append (n := 1) hB _
  · rw [fieldAt_append_right (by simp), fieldAt_append_right (by simp)]
    simp only [length_toLE, Nat.reduceSub]
    rw [fieldAt_toLE_append (n := 1) (by split <;> decide)]
    cases nulls
    · rfl
    · rfl
  · iterate 4 rw [fieldAt_append_right (by simp)]
    exact fieldAt_toLE_append (n := 2) hc _
  · iterate 6 rw [fieldAt_append_right (by simp)]
    exact fieldAt_toLE_append (n := 8) hp _

/-- The decoding of a payload, with the header's fields. -/
def decodePayload (ty n : Nat) (dict : List Val) (enc B count param : Nat) (pay : Bytes) : DecRes (List Val) :=
  let w := tyWidth ty
  let packed := ceilDiv (n * B) 64 * 8
  match enc with
    | 0 =>
      if tyVar ty then do
        let head := ceilDiv (4 * (n + 1)) 8 * 8
        guardCheck (head ≤ pay.length)
        let offs := (List.range (n + 1)).map fun i => fieldAt (4 * i) 4 pay
        let data := pay.drop head
        guardCheck (offs.headD 1 == 0 && (offs.zip (offs.drop 1)).all (fun (a, b) => a ≤ b) && offs.getLastD 0 ≤ data.length)
        pure ((offs.zip (offs.drop 1)).map fun (a, b) => Val.str (sliceB a (b - a) data))
      else do
        guardCheck (n * w ≤ pay.length)
        pure ((List.range n).map fun i => Val.num (fieldAt (i * w) w pay))
    | 1 => do
      guardCheck (packed ≤ pay.length)
      pure ((unpackBits B n pay).map fun z => Val.num (if tySigned ty then unzigzag (8 * w) z else z))
    | 2 => do
      guardCheck (packed ≤ pay.length)
      pure ((unpackBits B n pay).map fun q => Val.num (unKey ty ((q + param) % 2 ^ (8 * w))))
    | 3 => do
      guardCheck (ceilDiv ((n - 1) * B) 64 * 8 ≤ pay.length)
      let ds := unpackBits B (n - 1) pay
      let es := ds.foldl (fun (acc : List Nat) z => (acc.headD 0 + unzigzag 64 z) % 2 ^ 64 :: acc) [param]
      pure (es.reverse.map fun e => Val.num (e % 2 ^ (8 * w)))
    | 4 => do
      let vlen := ceilDiv (count * w) 8 * 8
      guardCheck (vlen + ceilDiv (count * 2) 8 * 8 ≤ pay.length)
      let ends := (List.range count).map fun i => fieldAt (vlen + 2 * i) 2 pay
      guardCheck (endsOk n 0 ends)
      pure ((unrun 0 (((List.range count).map fun i => fieldAt (i * w) w pay).zip ends)).map Val.num)
    | 5 => do
      guardCheck (packed ≤ pay.length)
      let codes := unpackBits B n pay
      guardCheck (codes.all (· < dict.length))
      pure (codes.map fun c => dict.getD c .null)
    | 6 => do
      let pl := ceilDiv n 64 * 8
      guardCheck (B * pl ≤ pay.length)
      let planes := (List.range B).map fun p => unpackBits 1 n (pay.drop (p * pl))
      pure ((List.range n).map fun i =>
        Val.num (unKey ty (((planes.foldl (fun q pl => 2 * q + pl.getD i 0) 0) + param) % 2 ^ (8 * w))))
    | _ => .error stCheckMismatch

theorem guardCheck_bind {α : Type} {ok : Bool} (h : ok = true) (k : Unit → DecRes α) : (guardCheck ok >>= k) = k () := by
  rw [guardCheck, if_pos h]
  rfl

theorem length_bitmapOf (vals : List Val) : (bitmapOf vals).length = ceilDiv vals.length 64 * 8 := by
  rw [bitmapOf, length_packBits, List.length_map, Nat.mul_one]

/-- A body whose header and bitmap are as an encoder writes them is decoded by its payload. -/
theorem decodeStored_body {ty enc B count param : Nat} {dict vals : List Val} (he : enc < 256) (hB : B ≤ 64) (hc : count < 65536)
    (hp : param < 2 ^ 64) (nulls : Bool) (pay : Bytes) :
    decodeStored ty vals.length dict (bodyHeader enc B nulls 0 count param ++ (if nulls then bitmapOf vals else []) ++ pay) =
      decodePayload ty vals.length dict enc B count param pay := by
  obtain ⟨henc, hBf, hmap, hcount, hparam⟩ := fieldAt_bodyHeader (B := B) (r := (if nulls then bitmapOf vals else []) ++ pay) he (by omega) hc hp nulls
  have hlen : (if nulls then ceilDiv vals.length 64 * 8 else 0) = (if nulls then bitmapOf vals else []).length := by
    cases nulls with
    | false => rfl
    | true => exact (length_bitmapOf vals).symm
  have hpay : (bodyHeader enc B nulls 0 count param ++ ((if nulls then bitmapOf vals else []) ++ pay)).drop
      (16 + (if nulls then bitmapOf vals else []).length) = pay := by
    rw [← List.append_assoc, List.drop_left']
    simp [length_bodyHeader]
  rw [List.append_assoc]
  unfold decodeStored
  simp only [henc, hBf, hmap, hcount, hparam, hlen, hpay]
  rw [guardCheck_bind (by simp [length_bodyHeader, hB])]
  rfl

/-- NULL is put back where the bitmap says so. -/
theorem putNulls_body {st vals : List Val} (h : Stores st vals) {enc B count param : Nat} (he : enc < 256) (hB : B ≤ 64)
    (hc : count < 65536) (hp : param < 2 ^ 64) (pay : Bytes) :
    putNulls vals.length (bodyHeader enc B (vals.any (· == .null)) 0 count param ++
      (if vals.any (· == .null) then bitmapOf vals else []) ++ pay) st = vals := by
  obtain ⟨-, -, hmap, -⟩ := fieldAt_bodyHeader (B := B) (r := (if vals.any (· == .null) then bitmapOf vals else []) ++ pay) he (by omega) hc hp
    (vals.any (· == .null))
  unfold putNulls
  rw [List.append_assoc, hmap]
  split
  · have hbits : ∀ x ∈ vals.map (fun v => if v == .null then 0 else 1), x < 2 ^ 1 := by
      simp only [List.mem_map]
      rintro x ⟨v, -, rfl⟩
      split
      · decide
      · decide
    have hread := unpackBits_packBits_append hbits pay
    rw [List.length_map] at hread
    rw [List.drop_left' (length_bodyHeader ..), bitmapOf, hread]
    exact h.zip_bitmap
  · next hany =>
    refine h.eq_of_present fun v hv hnull => hany ?_
    exact List.any_eq_true.mpr ⟨v, hv, by simp [hnull]⟩

/-! The payloads, on values of fixed width with their fillers. -/

section
variable {ty : Nat} {dict : List Val} {xs : List Nat}

theorem tyBits_eq (ty : Nat) : tyBits ty = 8 * tyWidth ty := rfl

theorem tyWidth_le {ty : Nat} (hty : tyKnown ty = true) : tyWidth ty ≤ 8 := by
  have hle : ty ≤ 15 := by simp [tyKnown] at hty; omega
  interval_cases ty <;> decide

theorem tyWidth_pos {ty : Nat} (hty : tyKnown ty = true) (hvar : tyVar ty = false) : 0 < tyWidth ty := by
  have hle : ty ≤ 13 := by
    simp [tyKnown] at hty
    simp [tyVar] at hvar
    omega
  have hge : 1 ≤ ty := by simp [tyKnown] at hty; omega
  interval_cases ty <;> decide

/-- R88. -/
theorem decode_plain_fixed {n count param : Nat} (hvar : tyVar ty = false) (hx : ∀ x ∈ xs, x < 2 ^ tyBits ty) (hn : xs.length = n) :
    decodePayload ty n dict 0 (8 * tyWidth ty) count param (pad8 (xs.flatMap (toLE (tyWidth ty)))) = .ok (xs.map .num) := by
  obtain ⟨z, hz⟩ := pad8_eq_append (xs.flatMap (toLE (tyWidth ty)))
  have hlen : n * tyWidth ty ≤ (pad8 (xs.flatMap (toLE (tyWidth ty)))).length := by
    rw [hz, List.length_append, length_flatMap_const fun x _ => length_toLE _ x, hn]
    omega
  unfold decodePayload
  simp only [hvar, Bool.false_eq_true, if_false]
  rw [guardCheck_bind (by simpa using hlen), hz, ← hn]
  have hread := map_fieldAt_flatMap_toLE hx z
  calc _ = Except.ok (((List.range xs.length).map fun i => fieldAt (i * tyWidth ty) (tyWidth ty) (xs.flatMap (toLE (tyWidth ty)) ++ z)).map .num) := by
        rw [List.map_map]; rfl
    _ = _ := by rw [hread]

/-- R88, for strings: they are what lies between the offsets. -/
theorem decode_plain_var {n count param : Nat} {bs : List Bytes} (hvar : tyVar ty = true) (hsum : bs.flatten.length < 2 ^ 32) (hn : bs.length = n) :
    decodePayload ty n dict 0 0 count param (pad8 ((offsetsOf bs).flatMap (toLE 4)) ++ pad8 bs.flatten) = .ok (bs.map .str) := by
  obtain ⟨y, hy⟩ := pad8_eq_append ((offsFrom 0 bs).flatMap (toLE 4))
  obtain ⟨z, hz⟩ := pad8_eq_append bs.flatten
  have hoff : ∀ x ∈ offsFrom 0 bs, x < 2 ^ (8 * 4) := fun x hx => by
    have := offsFrom_le x hx
    omega
  have hhead : (pad8 ((offsFrom 0 bs).flatMap (toLE 4))).length = ceilDiv (4 * (n + 1)) 8 * 8 := by
    rw [length_pad8, length_flatMap_const fun x _ => length_toLE 4 x, length_offsFrom, hn, Nat.mul_comm (n + 1) 4]
  have hread : ((List.range (n + 1)).map fun i => fieldAt (4 * i) 4 (pad8 ((offsFrom 0 bs).flatMap (toLE 4)) ++ pad8 bs.flatten)) =
      offsFrom 0 bs := by
    rw [hy, List.append_assoc, ← hn, ← length_offsFrom 0 bs]
    simpa only [Nat.mul_comm 4] using map_fieldAt_flatMap_toLE hoff (y ++ pad8 bs.flatten)
  have hdata : (pad8 ((offsFrom 0 bs).flatMap (toLE 4)) ++ pad8 bs.flatten).drop (ceilDiv (4 * (n + 1)) 8 * 8) = bs.flatten ++ z := by
    rw [List.drop_left' hhead, hz]
  have hzero : (offsFrom 0 bs).headD 1 = 0 := by cases bs <;> rfl
  have hlast : (offsFrom 0 bs).getLastD 0 ≤ (bs.flatten ++ z).length := by
    rw [getLastD_offsFrom, List.length_append]
    omega
  unfold decodePayload
  simp only [hvar, if_true, offsetsOf_eq, hread, hdata]
  have hrises : ((offsFrom 0 bs).zip ((offsFrom 0 bs).drop 1)).all (fun (a, b) => decide (a ≤ b)) = true := offsFrom_rises 0 bs
  have hslices : ((offsFrom 0 bs).zip ((offsFrom 0 bs).drop 1)).map (fun x => sliceB x.1 (x.2 - x.1) (bs.flatten ++ z)) = bs :=
    slices_offsFrom [] z bs
  rw [guardCheck_bind (by rw [List.length_append, hhead]; simp),
    guardCheck_bind (by simp only [hzero, hrises, hlast, beq_self_eq_true, Bool.and_self, decide_true])]
  calc _ = Except.ok ((((offsFrom 0 bs).zip ((offsFrom 0 bs).drop 1)).map fun x => sliceB x.1 (x.2 - x.1) (bs.flatten ++ z)).map .str) := by
        rw [List.map_map]; rfl
    _ = _ := by rw [hslices]

/-- A packed array that a decoder finds whole. -/
theorem packed_le (B : Nat) {items : List Nat} {n : Nat} (hn : items.length = n) :
    decide (ceilDiv (n * B) 64 * 8 ≤ (packBits B items).length) = true := by
  rw [length_packBits, hn]
  simp

/-- R89. -/
theorem decode_packed {n count param : Nat} (hx : ∀ x ∈ xs, x < 2 ^ tyBits ty) (hn : xs.length = n) {items : List Nat}
    (hitems : items = if tySigned ty then xs.map (zigzag (8 * tyWidth ty)) else xs) :
    decodePayload ty n dict 1 (bitLen (items.foldl max 0)) count param (packBits (bitLen (items.foldl max 0)) items) = .ok (xs.map .num) := by
  have hlen : items.length = n := by
    rw [hitems]
    split
    · rw [List.length_map, hn]
    · exact hn
  have hread := unpackBits_packBits (B := bitLen (items.foldl max 0)) (items := items) fun x hx => lt_two_pow_bitLen (le_foldl_max (.inr hx))
  rw [hlen] at hread
  simp only [decodePayload]
  rw [guardCheck_bind (packed_le _ hlen), hread, hitems]
  refine congrArg Except.ok ?_
  split
  · rw [List.map_map]
    refine List.map_congr_left fun x hxs => ?_
    simp only [Function.comp_apply]
    rw [unzigzag_zigzag, ← tyBits_eq, Nat.mod_eq_of_lt (hx x hxs)]
  · rfl

end

end Sys2Proof.Machine
end

