-- ==== Sys2Proof/Proofs/BlockPayloads.lean ====
section
/-! SUPPORT. Order keys read back (R73), and each encoding's payload decoded (R90 to R94). -/

namespace Sys2Proof.Machine

set_option Elab.async false

/-! Order keys (R73). -/

section
variable {f : FFmt} (hp : 2 ≤ f.p) (hw : f.p < f.width)
include hp hw

theorem FFmt.key_lt_two_pow {x : Nat} (hx : x < 2 ^ f.width) : f.key x < 2 ^ f.width := by
  have hhalf := FFmt.two_pow_width hp hw
  obtain hs | hs := Nat.lt_or_ge x f.signBit
  · rw [FFmt.key_of_nonneg hp hw hs]
    omega
  · rw [FFmt.key_of_neg hp hw hx hs]
    omega

theorem FFmt.unkey_key {x : Nat} (hx : x < 2 ^ f.width) :
    (if f.signBit ≤ f.key x then f.key x - f.signBit else 2 * f.signBit - 1 - f.key x) = x := by
  have hhalf := FFmt.two_pow_width hp hw
  obtain hs | hs := Nat.lt_or_ge x f.signBit
  · rw [FFmt.key_of_nonneg hp hw hs, if_pos (Nat.le_add_left _ _), Nat.add_sub_cancel]
  · rw [FFmt.key_of_neg hp hw hx hs, if_neg (by omega)]
    omega

end

theorem two_pow_tyBits {ty : Nat} (h : 0 < tyWidth ty) : 2 ^ tyBits ty = 2 * 2 ^ (tyBits ty - 1) := by
  rw [← Nat.pow_succ', Nat.succ_eq_add_one, Nat.sub_add_cancel]
  rw [tyBits_eq]
  omega

/-- A key has the bits of its type, and its value is the one it was made of. -/
theorem orderKey_lt_and_unKey {ty x : Nat} (hty : 0 < tyWidth ty) (hx : x < 2 ^ tyBits ty) :
    orderKey ty x < 2 ^ tyBits ty ∧ unKey ty (orderKey ty x) = x := by
  by_cases hs : tySigned ty = true
  · have hhalf := two_pow_tyBits hty
    have hkey : orderKey ty x = (x + 2 ^ (tyBits ty - 1)) % 2 ^ tyBits ty := if_pos hs
    have hun : ∀ k, unKey ty k = (k + 2 ^ (tyBits ty - 1)) % 2 ^ tyBits ty := fun k => if_pos hs
    rw [hun, hkey]
    refine ⟨Nat.mod_lt _ (Nat.two_pow_pos _), ?_⟩
    rw [Nat.mod_add_mod, Nat.add_assoc, ← Nat.two_mul, ← hhalf, Nat.add_mod_right, Nat.mod_eq_of_lt hx]
  · by_cases h32 : ty = 10
    · subst h32
      exact ⟨FFmt.key_lt_two_pow (f := f32) (by decide) (by decide) hx, FFmt.unkey_key (f := f32) (by decide) (by decide) hx⟩
    · by_cases h64 : ty = 11
      · subst h64
        exact ⟨FFmt.key_lt_two_pow (f := f64) (by decide) (by decide) hx, FFmt.unkey_key (f := f64) (by decide) (by decide) hx⟩
      · simp [orderKey, unKey, tyFloat, hs, h32, h64, hx]

section
variable {ty : Nat} {dict : List Val} {xs : List Nat}

/-- The least key, as an encoder takes it. -/
def leastKey (ks : List Nat) : Nat := ks.foldl min (ks.headD 0)

theorem leastKey_le {ks : List Nat} {k : Nat} (hk : k ∈ ks) : leastKey ks ≤ k := foldl_min_le (.inr hk)

/-- The bits that hold the greatest key's distance from the least. -/
def spanBits (ks : List Nat) : Nat := bitLen (ks.foldl max 0 - leastKey ks)

theorem sub_leastKey_lt {ks : List Nat} {k : Nat} (hk : k ∈ ks) : k - leastKey ks < 2 ^ spanBits ks :=
  lt_two_pow_bitLen (Nat.sub_le_sub_right (le_foldl_max (.inr hk)) _)

theorem spanBits_le {ks : List Nat} {w : Nat} (h : ∀ k ∈ ks, k < 2 ^ w) : spanBits ks ≤ w :=
  bitLen_le ((Nat.sub_le _ _).trans_lt (foldl_max_lt (Nat.two_pow_pos w) h))

theorem leastKey_lt {ks : List Nat} {w : Nat} (h : ∀ k ∈ ks, k < 2 ^ w) : leastKey ks < 2 ^ w := by
  cases ks with
  | nil => simp [leastKey]
  | cons k ks => exact (leastKey_le List.mem_cons_self).trans_lt (h k List.mem_cons_self)

/-- A key's distance from the least, decoded. -/
theorem unKey_of_offset {ty x : Nat} (hty : 0 < tyWidth ty) {lo : Nat} (hx : x < 2 ^ tyBits ty) (hlo : lo ≤ orderKey ty x) :
    unKey ty ((orderKey ty x - lo + lo) % 2 ^ (8 * tyWidth ty)) = x := by
  obtain ⟨hk, hun⟩ := orderKey_lt_and_unKey hty hx
  rw [Nat.sub_add_cancel hlo, ← tyBits_eq, Nat.mod_eq_of_lt hk, hun]

/-- R90. -/
theorem decode_for {n count : Nat} (hty : 0 < tyWidth ty) (hx : ∀ x ∈ xs, x < 2 ^ tyBits ty) (hn : xs.length = n) {ks : List Nat}
    (hks : ks = xs.map (orderKey ty)) :
    decodePayload ty n dict 2 (spanBits ks) count (leastKey ks) (packBits (spanBits ks) (ks.map (· - leastKey ks))) = .ok (xs.map .num) := by
  have hlen : (ks.map (· - leastKey ks)).length = n := by rw [List.length_map, hks, List.length_map, hn]
  have hitems : ∀ q ∈ ks.map (· - leastKey ks), q < 2 ^ spanBits ks := by
    simp only [List.mem_map]
    rintro q ⟨k, hk, rfl⟩
    exact sub_leastKey_lt hk
  have hread := unpackBits_packBits hitems
  rw [hlen] at hread
  simp only [decodePayload]
  rw [guardCheck_bind (packed_le _ hlen), hread]
  refine congrArg Except.ok ?_
  conv_lhs => rw [hks]
  rw [List.map_map, List.map_map]
  refine List.map_congr_left fun x hxs => ?_
  have hmem : orderKey ty x ∈ ks := hks ▸ List.mem_map_of_mem hxs
  rw [← hks]
  exact congrArg Val.num (unKey_of_offset hty (hx x hxs) (leastKey_le hmem))

/-- A decoder's step over the codes of differences (R91). -/
def deltaStep (acc : List Nat) (z : Nat) : List Nat := (acc.headD 0 + unzigzag 64 z) % 2 ^ 64 :: acc

theorem foldl_deltaStep {e : Nat} {es : List Nat} (h : ∀ x ∈ e :: es, x < 2 ^ 64) (acc : List Nat) :
    (((e :: es).zip es).map fun (a, b) => zigzag 64 (b + 2 ^ 64 - a)).foldl deltaStep (e :: acc) = es.reverse ++ e :: acc := by
  induction es generalizing e acc with
  | nil => rfl
  | cons b es ih =>
    have he : e < 2 ^ 64 := h e List.mem_cons_self
    have hb : b < 2 ^ 64 := h b (by simp)
    have hstep : deltaStep (e :: acc) (zigzag 64 (b + 2 ^ 64 - e)) = b :: e :: acc := by
      rw [deltaStep, unzigzag_zigzag]
      refine congrArg (· :: e :: acc) ?_
      simp only [List.headD_cons]
      omega
    rw [List.zip_cons_cons, List.map_cons, List.foldl_cons, hstep, ih fun x hx => h x (List.mem_cons_of_mem e hx)]
    simp

/-- R91. -/
theorem decode_delta {n count : Nat} (hw : tyBits ty ≤ 64) (hx : ∀ x ∈ xs, x < 2 ^ tyBits ty) (hn : xs.length = n) (hne : xs ≠ [])
    {es ds : List Nat} (hes : es = xs.map (ext64 ty)) (hds : ds = (es.zip (es.drop 1)).map fun (a, b) => zigzag 64 (b + 2 ^ 64 - a)) :
    decodePayload ty n dict 3 (bitLen (ds.foldl max 0)) count (es.headD 0) (packBits (bitLen (ds.foldl max 0)) ds) = .ok (xs.map .num) := by
  have hlen : ds.length = n - 1 := by rw [hds, hes, ← hn]; simp
  have hread := unpackBits_packBits (B := bitLen (ds.foldl max 0)) (items := ds) fun x hx => lt_two_pow_bitLen (le_foldl_max (.inr hx))
  rw [hlen] at hread
  have hlt : ∀ e ∈ es, e < 2 ^ 64 := by
    rw [hes]
    simp only [List.mem_map]
    rintro e ⟨x, hxs, rfl⟩
    exact ext64_lt hw (hx x hxs)
  have hfold : ds.foldl deltaStep [es.headD 0] = es.reverse := by
    cases hes' : es with
    | nil => simp [hes] at hes'; exact absurd hes' hne
    | cons e rest =>
      rw [hes'] at hds hlt
      rw [hds]
      simpa using foldl_deltaStep hlt []
  simp only [decodePayload]
  rw [guardCheck_bind (packed_le _ hlen), hread]
  refine congrArg Except.ok ?_
  change (ds.foldl deltaStep [es.headD 0]).reverse.map _ = _
  rw [hfold, List.reverse_reverse, hes, List.map_map]
  refine List.map_congr_left fun x hxs => ?_
  exact congrArg Val.num (ext64_mod hw (hx x hxs))

/-- R92. -/
theorem decode_runs {n B param : Nat} (hx : ∀ x ∈ xs, x < 2 ^ tyBits ty) (hn : xs.length = n) (hmax : n < 65536) {rs : List (Nat × Nat)}
    (hrs : rs = runsOf xs) :
    decodePayload ty n dict 4 B rs.length param (pad8 (rs.flatMap fun r => toLE (tyWidth ty) r.1) ++ pad8 (rs.flatMap fun r => toLE 2 r.2)) =
      .ok (xs.map .num) := by
  obtain ⟨-, hbounds⟩ := runsOf_bounds xs
  have hvals : ∀ x ∈ rs.map (·.1), x < 2 ^ (8 * tyWidth ty) := by
    simp only [List.mem_map]
    rintro _ ⟨r, hr, rfl⟩
    exact hx _ (hbounds r (hrs ▸ hr)).1
  have hends : ∀ x ∈ rs.map (·.2), x < 2 ^ (8 * 2) := by
    simp only [List.mem_map]
    rintro _ ⟨r, hr, rfl⟩
    have := (hbounds r (hrs ▸ hr)).2
    omega
  have hflat1 : (rs.flatMap fun r => toLE (tyWidth ty) r.1) = (rs.map (·.1)).flatMap (toLE (tyWidth ty)) := by rw [List.flatMap_map]
  have hflat2 : (rs.flatMap fun r => toLE 2 r.2) = (rs.map (·.2)).flatMap (toLE 2) := by rw [List.flatMap_map]
  have hvlen : (pad8 ((rs.map (·.1)).flatMap (toLE (tyWidth ty)))).length = ceilDiv (rs.length * tyWidth ty) 8 * 8 := by
    rw [length_pad8, length_flatMap_const fun x _ => length_toLE _ x, List.length_map]
  have helen : (pad8 ((rs.map (·.2)).flatMap (toLE 2))).length = ceilDiv (rs.length * 2) 8 * 8 := by
    rw [length_pad8, length_flatMap_const fun x _ => length_toLE _ x, List.length_map]
  obtain ⟨y, hy⟩ := pad8_eq_append ((rs.map (·.1)).flatMap (toLE (tyWidth ty)))
  obtain ⟨z, hz⟩ := pad8_eq_append ((rs.map (·.2)).flatMap (toLE 2))
  have hreadv : ∀ r, ((List.range rs.length).map fun i => fieldAt (i * tyWidth ty) (tyWidth ty)
      (pad8 ((rs.map (·.1)).flatMap (toLE (tyWidth ty))) ++ r)) = rs.map (·.1) := fun r => by
    rw [hy, List.append_assoc]
    simpa using map_fieldAt_flatMap_toLE hvals (y ++ r)
  have hreade : ((List.range rs.length).map fun i => fieldAt (ceilDiv (rs.length * tyWidth ty) 8 * 8 + 2 * i) 2
      (pad8 ((rs.map (·.1)).flatMap (toLE (tyWidth ty))) ++ pad8 ((rs.map (·.2)).flatMap (toLE 2)))) = rs.map (·.2) := by
    have hread := map_fieldAt_flatMap_toLE hends z
    rw [List.length_map] at hread
    refine (List.map_congr_left fun i _ => ?_).trans hread
    rw [fieldAt_append_right (by omega), hvlen, Nat.add_sub_cancel_left, hz, Nat.mul_comm]
  unfold decodePayload
  simp only [hflat1, hflat2, hreade, hreadv]
  rw [guardCheck_bind (by rw [List.length_append, hvlen, helen]; simp), guardCheck_bind (by rw [hrs, ← hn]; exact endsOk_runsOf xs)]
  refine congrArg (fun l => Except.ok (List.map Val.num l)) ?_
  have hzip : (rs.map (·.1)).zip (rs.map (·.2)) = rs := by rw [List.zip_map']; simp
  rw [hzip, hrs, unrun_runsOf]

/-- R93. -/
theorem decode_dict {n count param : Nat} {st : List Val} (hmem : ∀ v ∈ st, v ∈ dict) (hn : st.length = n) :
    decodePayload ty n dict 5 (max 1 (bitLen (dict.length - 1))) count param
      (packBits (max 1 (bitLen (dict.length - 1))) (st.map fun v => dict.findIdx (· == v))) = .ok st := by
  have hidx : ∀ v ∈ st, dict.findIdx (· == v) < dict.length := fun v hv =>
    List.findIdx_lt_length_of_exists ⟨v, hmem v hv, beq_self_eq_true v⟩
  have hlen : (st.map fun v => dict.findIdx (· == v)).length = n := by rw [List.length_map, hn]
  have hread := unpackBits_packBits (B := max 1 (bitLen (dict.length - 1))) (items := st.map fun v => dict.findIdx (· == v)) fun x hx => by
    obtain ⟨v, hv, rfl⟩ := List.mem_map.mp hx
    have hlt := lt_two_pow_bitLen (Nat.le_sub_one_of_lt (hidx v hv))
    exact hlt.trans_le (Nat.pow_le_pow_right (by decide) (le_max_right _ _))
  rw [hlen] at hread
  have hall : (st.map fun v => dict.findIdx (· == v)).all (· < dict.length) = true := by
    simpa using hidx
  simp only [decodePayload]
  rw [guardCheck_bind (packed_le _ hlen), hread, guardCheck_bind hall, List.map_map]
  refine congrArg Except.ok ?_
  conv_rhs => rw [← List.map_id st]
  refine List.map_congr_left fun v hv => ?_
  have hfound := List.findIdx_getElem (w := hidx v hv)
  simp only [Function.comp_apply, List.getD_eq_getElem?_getD, List.getElem?_eq_getElem (hidx v hv), Option.getD_some, id]
  exact eq_of_beq hfound

/-- The bits of a number, from the highest, put together again. -/
theorem foldl_planes {B y : Nat} (hy : y < 2 ^ B) : (List.range B).foldl (fun q p => 2 * q + y / 2 ^ (B - 1 - p) % 2) 0 = y := by
  have hpart : ∀ m ≤ B, (List.range m).foldl (fun q p => 2 * q + y / 2 ^ (B - 1 - p) % 2) 0 = y / 2 ^ (B - m) := by
    intro m hm
    induction m with
    | zero => simp [Nat.div_eq_of_lt hy]
    | succ m ih =>
      have hstep : 2 ^ (B - m) = 2 ^ (B - 1 - m) * 2 := by rw [← Nat.pow_succ]; congr 1; omega
      have hexp : B - (m + 1) = B - 1 - m := by omega
      rw [List.range_succ, List.foldl_append, ih (by omega), hexp, hstep, ← Nat.div_div_eq_div_mul]
      exact Nat.div_add_mod _ 2
  simpa using hpart B le_rfl

/-- R94. -/
theorem decode_planes {n count : Nat} (hty : 0 < tyWidth ty) (hx : ∀ x ∈ xs, x < 2 ^ tyBits ty) (hn : xs.length = n) {ks : List Nat}
    (hks : ks = xs.map (orderKey ty)) :
    decodePayload ty n dict 6 (spanBits ks) count (leastKey ks)
      ((List.range (spanBits ks)).flatMap fun p => packBits 1 (ks.map fun k => (k - leastKey ks) / 2 ^ (spanBits ks - 1 - p) % 2)) =
      .ok (xs.map .num) := by
  have hlen : ks.length = n := by rw [hks, List.length_map, hn]
  have hplane : ∀ p ∈ List.range (spanBits ks),
      (packBits 1 (ks.map fun k => (k - leastKey ks) / 2 ^ (spanBits ks - 1 - p) % 2)).length = ceilDiv n 64 * 8 := fun p _ => by
    rw [length_packBits, List.length_map, hlen, Nat.mul_one]
  have hread : ((List.range (spanBits ks)).map fun p => unpackBits 1 n (((List.range (spanBits ks)).flatMap fun p =>
      packBits 1 (ks.map fun k => (k - leastKey ks) / 2 ^ (spanBits ks - 1 - p) % 2)).drop (p * (ceilDiv n 64 * 8)))) =
      (List.range (spanBits ks)).map fun p => ks.map fun k => (k - leastKey ks) / 2 ^ (spanBits ks - 1 - p) % 2 := by
    refine List.map_congr_left fun p hp => ?_
    have hp' : p < (List.range (spanBits ks)).length := by simpa using hp
    obtain ⟨z, hz⟩ := drop_flatMap_const_append hplane hp' []
    rw [List.append_nil, List.getElem_range] at hz
    have hbits : ∀ x ∈ ks.map (fun k => (k - leastKey ks) / 2 ^ (spanBits ks - 1 - p) % 2), x < 2 ^ 1 := by
      simp only [List.mem_map]
      rintro x ⟨k, -, rfl⟩
      exact Nat.mod_lt _ (by decide)
    have hun := unpackBits_packBits_append hbits z
    rw [List.length_map, hlen] at hun
    rw [hz, hun]
  simp only [decodePayload]
  rw [guardCheck_bind (by rw [length_flatMap_const hplane]; simp), hread]
  refine congrArg Except.ok ?_
  refine List.ext_getElem (by simp [hn]) fun i hi hlen' => ?_
  have hi' : i < xs.length := by simpa using hlen'
  have hk : i < ks.length := by omega
  have hkey : ks[i] = orderKey ty xs[i] := by simp [hks]
  have hfold : ((List.range (spanBits ks)).map fun p => ks.map fun k => (k - leastKey ks) / 2 ^ (spanBits ks - 1 - p) % 2).foldl
      (fun q pl => 2 * q + pl.getD i 0) 0 = ks[i] - leastKey ks := by
    rw [List.foldl_map]
    simp only [List.getD_eq_getElem?_getD, List.getElem?_map, List.getElem?_eq_getElem hk, Option.map_some, Option.getD_some]
    exact foldl_planes (sub_leastKey_lt (List.getElem_mem hk))
  simp only [List.getElem_map, List.getElem_range, hfold]
  rw [hkey]
  exact congrArg Val.num (unKey_of_offset hty (hx _ (List.getElem_mem hi')) (hkey ▸ leastKey_le (List.getElem_mem hk)))

end

end Sys2Proof.Machine
end

