-- ==== Sys2Proof/Proofs/BlockRoundTrip.lean ====
section
/-! SUPPORT. Decoding a block undoes its encoding (R84 to R94). -/

namespace Sys2Proof.Machine

set_option Elab.async false

/-! The blocks. -/

/-- A body whose payload decodes to a list that stores the values decodes to the values. -/
theorem decodeBody_bodyOf {ty enc B param count : Nat} {dict vals st : List Val} {pay : Bytes} (hpres : ∃ v ∈ vals, v ≠ .null)
    (hpay : payloadOf ty enc dict vals = (B, param, count, pay)) (he : enc < 256) (hB : B ≤ 64) (hc : count < 65536) (hp : param < 2 ^ 64)
    (hdec : decodePayload ty vals.length dict enc B count param pay = .ok st) (hst : Stores st vals) :
    decodeBody ty vals.length dict (bodyOf ty enc dict vals) = .ok vals := by
  have hall : ¬ vals.all (· == .null) = true := by
    obtain ⟨v, hv, hne⟩ := hpres
    exact fun h => hne (by simpa using List.all_eq_true.mp h v hv)
  rw [bodyOf, if_neg hall, hpay, decodeBody]
  dsimp only
  rw [decodeStored_body he hB hc hp, hdec]
  exact congrArg Except.ok (putNulls_body hst he hB hc hp pay)

section
variable {ty : Nat} {vals : List Val}

theorem exists_first_present (hpres : ∃ v ∈ vals, v ≠ .null) : ∃ first, vals.find? (· != .null) = some first := by
  refine Option.isSome_iff_exists.mp (List.find?_isSome.mpr ?_)
  simpa using hpres

/-- Fillers are present values of the block. -/
theorem mem_withFiller (hpres : ∃ v ∈ vals, v ≠ .null) : ∀ y ∈ withFiller vals, y ∈ vals ∧ y ≠ .null := by
  obtain ⟨first, hfirst⟩ := exists_first_present hpres
  rw [withFiller_eq hfirst]
  refine fillFrom_forall ⟨List.mem_of_find?_eq_some hfirst, by simpa using List.find?_some hfirst⟩ fun v hv hne => ⟨hv, hne⟩

theorem stores_withFiller (hpres : ∃ v ∈ vals, v ≠ .null) : Stores (withFiller vals) vals := by
  obtain ⟨first, hfirst⟩ := exists_first_present hpres
  rw [withFiller_eq hfirst]
  exact stores_fillFrom first vals

/-- A block's values of fixed width with their fillers are the numbers that its encodings take. -/
theorem withFiller_eq_nums (hpres : ∃ v ∈ vals, v ≠ .null) (hvals : ∀ v ∈ vals, v = .null ∨ ∃ x, v = .num x ∧ x < 2 ^ tyBits ty) :
    ((withFiller vals).map (·.bitsD)).map .num = withFiller vals ∧ ∀ x ∈ (withFiller vals).map (·.bitsD), x < 2 ^ tyBits ty := by
  have hnum : ∀ y ∈ withFiller vals, ∃ x, y = .num x ∧ x < 2 ^ tyBits ty := fun y hy => by
    obtain ⟨hmem, hne⟩ := mem_withFiller hpres y hy
    exact (hvals y hmem).resolve_left hne
  refine ⟨?_, ?_⟩
  · rw [List.map_map]
    conv_rhs => rw [← List.map_id (withFiller vals)]
    refine List.map_congr_left fun y hy => ?_
    obtain ⟨x, rfl, -⟩ := hnum y hy
    rfl
  · simp only [List.mem_map]
    rintro _ ⟨y, hy, rfl⟩
    obtain ⟨x, rfl, hx⟩ := hnum y hy
    exact hx

theorem length_withFiller (hpres : ∃ v ∈ vals, v ≠ .null) : (withFiller vals).length = vals.length := (stores_withFiller hpres).length_eq

/-- The strings of a block of strings. -/
theorem stores_strings (hvals : ∀ v ∈ vals, v = .null ∨ ∃ b, v = .str b) : Stores ((vals.map (·.bytesD)).map .str) vals := by
  refine List.forall₂_iff_get.mpr ⟨by simp, fun i _ hi hne => ?_⟩
  obtain hnull | ⟨b, hb⟩ := hvals _ (List.get_mem vals ⟨i, hi⟩)
  · exact absurd hnull hne
  · have hb : vals[i] = .str b := hb
    simp [hb, Val.bytesD]

/-- R88, strings. -/
theorem decodeBody_strings {dict : List Val} (hpres : ∃ v ∈ vals, v ≠ .null) (hvar : tyVar ty = true)
    (hvals : ∀ v ∈ vals, v = .null ∨ ∃ b, v = .str b) (hsum : (vals.map fun v => v.bytesD.length).sum < 2 ^ 32) :
    decodeBody ty vals.length dict (bodyOf ty 0 dict vals) = .ok vals := by
  have hpay : payloadOf ty 0 dict vals =
      (0, 0, 0, pad8 ((offsetsOf (vals.map (·.bytesD))).flatMap (toLE 4)) ++ pad8 (vals.map (·.bytesD)).flatten) := by
    simp [payloadOf, hvar]
  refine decodeBody_bodyOf hpres hpay (by decide) (by decide) (by decide) (by decide) (decode_plain_var hvar ?_ (by simp)) (stores_strings hvals)
  rw [List.length_flatten, List.map_map]
  exact hsum

/-- R93. -/
theorem decodeBody_dict {dict : List Val} (hpres : ∃ v ∈ vals, v ≠ .null) (hlen : dict.length ≤ 2 ^ 32)
    (hdict : ∀ v ∈ vals, v ≠ .null → v ∈ dict) : decodeBody ty vals.length dict (bodyOf ty 5 dict vals) = .ok vals := by
  have hmem : ∀ v ∈ withFiller vals, v ∈ dict := fun v hv => by
    obtain ⟨hv, hne⟩ := mem_withFiller hpres v hv
    exact hdict v hv hne
  have hB : max 1 (bitLen (dict.length - 1)) ≤ 64 := by
    have := bitLen_le (m := dict.length - 1) (w := 32) (by omega)
    omega
  exact decodeBody_bodyOf hpres rfl (by decide) hB (by decide) (by decide) (decode_dict hmem (length_withFiller hpres)) (stores_withFiller hpres)

/-- R88 to R92 and R94, of a type of fixed width. -/
theorem decodeBody_fixed {enc : Nat} {dict : List Val} (hty : tyKnown ty = true) (hvar : tyVar ty = false) (henc : enc ≤ 6) (h5 : enc ≠ 5)
    (hcount : vals.length ≤ 4096) (hpres : ∃ v ∈ vals, v ≠ .null) (hvals : ∀ v ∈ vals, v = .null ∨ ∃ x, v = .num x ∧ x < 2 ^ tyBits ty) :
    decodeBody ty vals.length dict (bodyOf ty enc dict vals) = .ok vals := by
  have hst := stores_withFiller hpres
  obtain ⟨hnums, hx⟩ := withFiller_eq_nums hpres hvals
  have hn : ((withFiller vals).map (·.bitsD)).length = vals.length := by rw [List.length_map, length_withFiller hpres]
  have hw : tyBits ty ≤ 64 := by
    have := tyWidth_le hty
    rw [tyBits_eq]
    omega
  have hpos := tyWidth_pos hty hvar
  have hpow : 2 ^ tyBits ty ≤ 2 ^ 64 := Nat.pow_le_pow_right (by decide) hw
  have hks : ∀ k ∈ ((withFiller vals).map (·.bitsD)).map (orderKey ty), k < 2 ^ tyBits ty := by
    simp only [List.mem_map (f := orderKey ty)]
    rintro _ ⟨x, hxs, rfl⟩
    exact (orderKey_lt_and_unKey hpos (hx x hxs)).1
  have hspan : spanBits (((withFiller vals).map (·.bitsD)).map (orderKey ty)) ≤ 64 := (spanBits_le hks).trans hw
  have hleast : leastKey (((withFiller vals).map (·.bitsD)).map (orderKey ty)) < 2 ^ 64 := (leastKey_lt hks).trans_le hpow
  rw [← hnums] at hst
  have hcases : enc = 0 ∨ enc = 1 ∨ enc = 2 ∨ enc = 3 ∨ enc = 4 ∨ enc = 6 := by omega
  obtain rfl | rfl | rfl | rfl | rfl | rfl := hcases
  · have hpay : payloadOf ty 0 dict vals =
        (8 * tyWidth ty, 0, 0, pad8 (((withFiller vals).map (·.bitsD)).flatMap (toLE (tyWidth ty)))) := by simp [payloadOf, hvar]
    exact decodeBody_bodyOf hpres hpay (by decide) hw (by decide) (by decide) (decode_plain_fixed hvar hx hn) hst
  · refine decodeBody_bodyOf hpres rfl (by decide) ((bitLen_le (foldl_max_lt (Nat.two_pow_pos _) fun x hxs => ?_)).trans hw) (by decide)
      (by decide) (decode_packed hx hn rfl) hst
    split at hxs
    · obtain ⟨y, -, rfl⟩ := List.mem_map.mp hxs
      exact zigzag_lt _ y
    · exact hx x hxs
  · exact decodeBody_bodyOf hpres rfl (by decide) hspan (by decide) hleast (decode_for hpos hx hn rfl) hst
  · refine decodeBody_bodyOf hpres rfl (by decide) (bitLen_le (foldl_max_lt (Nat.two_pow_pos _) fun z hz => ?_)) (by decide) ?_
      (decode_delta hw hx hn ?_ rfl rfl) hst
    · obtain ⟨y, -, rfl⟩ := List.mem_map.mp hz
      exact zigzag_lt 64 _
    · cases hxs : (withFiller vals).map (·.bitsD) with
      | nil => exact Nat.two_pow_pos 64
      | cons x xs => exact ext64_lt hw (hx x (hxs ▸ List.mem_cons_self))
    · obtain ⟨v, hv, -⟩ := hpres
      refine List.ne_nil_of_length_pos ?_
      rw [hn]
      exact List.length_pos_of_mem hv
  · obtain ⟨hlen, -⟩ := runsOf_bounds ((withFiller vals).map (·.bitsD))
    exact decodeBody_bodyOf hpres rfl (by decide) (by decide) (by omega) (by decide) (decode_runs hx hn (by omega) rfl) hst
  · exact decodeBody_bodyOf hpres rfl (by decide) hspan (by decide) hleast (decode_planes hpos hx hn rfl) hst

end

theorem encAllowed_var {ty enc : Nat} (hvar : tyVar ty = true) (henc : enc ≤ 6) (h : encAllowed ty enc = true) : enc = 0 ∨ enc = 5 := by
  have hcases : ty = 14 ∨ ty = 15 := by simpa [tyVar] using hvar
  obtain rfl | rfl := hcases
  · interval_cases enc <;> simp_all [encAllowed, tyVar, tySigned]
  · interval_cases enc <;> simp_all [encAllowed, tyVar, tySigned]

/-- Settles O9: per encoding, the payload decodes to the values with their fillers, among which the bitmap puts NULL back. -/
theorem decodedBlocksAreTheirValues : Obligations.DecodedBlocksAreTheirValues := by
  intro ty enc dict vals hty henc hallowed hcount hpres hdict hvals hsum
  by_cases h5 : enc = 5
  · subst h5
    exact decodeBody_dict hpres (hdict rfl).1 (hdict rfl).2
  · by_cases hvar : tyVar ty = true
    · obtain rfl := (encAllowed_var hvar henc hallowed).resolve_right h5
      refine decodeBody_strings hpres hvar (fun v hv => ?_) hsum
      obtain h | ⟨-, h⟩ | ⟨h, -⟩ := hvals v hv
      · exact .inl h
      · exact .inr h
      · simp [hvar] at h
    · have hvar : tyVar ty = false := by simpa using hvar
      refine decodeBody_fixed hty hvar henc h5 hcount hpres fun v hv => ?_
      obtain h | ⟨h, -⟩ | ⟨-, h⟩ := hvals v hv
      · exact .inl h
      · simp [hvar] at h
      · exact .inr h

end Sys2Proof.Machine
end

