-- ==== Sys2Proof/Proofs/TileBranches.lean ====
section
/-! SUPPORT. An instruction that jumps, and one that has no effect; branches and jumps (R331). -/

namespace Sys2Proof.Machine

set_option Elab.async false

section
variable {s s' : State} {t : TileId}

theorem State.setPc_of_ne_reset (h : (s.tiles[t]).state ≠ .reset) (x : Nat) :
    s.setPc t x = s.modTile t fun c => { c with pc := pcWord x } :=
  if_neg (by simpa using h)

theorem Fetched.pc_eq (h : Fetched s t s') : (s'.tiles[t]).pc = (s.tiles[t]).pc := by rw [h.sameCore t]

theorem Fetched.spar_eq (h : Fetched s t s') (body : State → SOut) : s.spar t body = (body s').retire t (s.tiles[t]).pc.toNat :=
  h.sparWord_eq (by simp) 0 body

/-- An instruction that jumps, with the change of its tile. -/
theorem Fetched.spar_goto (h : Fetched s t s') {body : State → SOut} {f : Tile → Tile} {x : Nat} (hf : ∀ c, (f c).state = c.state)
    (hbody : body s' = .goto (s'.modTile t f) x) : s.spar t body = s'.modTile t fun c => { f c with pc := pcWord x } := by
  have hrun : ((s'.modTile t f).tiles[t]).state ≠ .reset := by rw [State.modTile_at, hf]; exact h.running
  rw [h.spar_eq, hbody, SOut.retire, State.setPc_of_ne_reset hrun, State.modTile_modTile]

/-- An instruction that jumps and changes nothing else. -/
theorem Fetched.spar_jump (h : Fetched s t s') {body : State → SOut} {x : Nat} (hbody : body s' = .goto s' x) :
    s.spar t body = s'.modTile t fun c => { c with pc := pcWord x } := by
  rw [h.spar_eq, hbody, SOut.retire, State.setPc_of_ne_reset h.running]

/-- An instruction that has no effect but that of going on. -/
theorem Fetched.spar_skip (h : Fetched s t s') {body : State → SOut} (hbody : body s' = .next s' []) :
    s.spar t body = s'.modTile t fun c => { c with pc := pcWord ((s.tiles[t]).pc.toNat + 4) } := by
  rw [h.spar_eq, hbody, SOut.retire, State.setPc_of_ne_reset h.running]
  rfl

theorem Fetched.sparBranch_taken (h : Fetched s t s') {off : BitVec 16} {taken : Tile → Bool} (ht : taken (s'.tiles[t]) = true) :
    s.sparBranch t off taken = s'.modTile t fun c => { c with pc := pcWord (unsignedOf 64 (((s.tiles[t]).pc.toNat : Int) + 4 * off.toInt)) } := by
  refine h.spar_jump ?_
  dsimp only
  rw [if_pos ht, h.pc_eq]

theorem Fetched.sparBranch_not_taken (h : Fetched s t s') {off : BitVec 16} {taken : Tile → Bool} (ht : taken (s'.tiles[t]) = false) :
    s.sparBranch t off taken = s'.modTile t fun c => { c with pc := pcWord ((s.tiles[t]).pc.toNat + 4) } := by
  refine h.spar_skip ?_
  dsimp only
  exact if_neg (ne_true_of_eq_false ht)

theorem Fetched.sparJr_eq (h : Fetched s t s') {a : Reg} {link : Tile → Tile} (hl : ∀ c, (link c).state = c.state)
    (ha : ((s'.tiles[t]).g[a]).toNat % 4 = 0) :
    s.sparJr t a link = s'.modTile t fun c => { link c with pc := pcWord ((s'.tiles[t]).g[a]).toNat } := by
  refine h.spar_goto hl ?_
  dsimp only
  exact if_neg (by rw [ha]; decide)

end

/-- Settles O13: a branch compares the registers as the fetch left them, and a jump leaves its link. -/
theorem sparBranchResults : Obligations.SparBranchResults := by
  intro s s' t d a b off far h A B pc near there to'
  have hg : (s'.tiles[t]).g = (s.tiles[t]).g := h.g_eq
  have taken {i : Instr} {p : Tile → Bool} (hi : exec i s = .next (s.sparBranch t off p)) (hp : p (s'.tiles[t]) = true) : to' i id near :=
    hi.trans (congrArg _ (h.sparBranch_taken hp))
  have skipped {i : Instr} {p : Tile → Bool} (hi : exec i s = .next (s.sparBranch t off p)) (hp : p (s'.tiles[t]) = false) :
      to' i id (pc + 4) := hi.trans (congrArg _ (h.sparBranch_not_taken hp))
  have hslt : A.slt B = true ↔ A.toInt < B.toInt := BitVec.slt_iff_toInt_lt
  have hult : A.ult B = true ↔ A.toNat < B.toNat := BitVec.ult_iff_lt
  have hsge (hle : B.toInt ≤ A.toInt) : A.slt B = false := Bool.eq_false_iff.mpr (mt hslt.mp hle.not_gt)
  have huge (hle : B.toNat ≤ A.toNat) : A.ult B = false := Bool.eq_false_iff.mpr (mt hult.mp hle.not_gt)
  have onto {p : Word → Word → Bool} {r : Bool} (hp : p A B = r) : p (s'.tiles[t]).g[a] (s'.tiles[t]).g[b] = r := by rw [hg]; exact hp
  refine ⟨fun hab => taken rfl (onto (p := (· == ·)) (beq_iff_eq.mpr hab)), fun hab => skipped rfl (onto (p := (· == ·)) (beq_false_of_ne hab)),
    fun hab => taken rfl (onto (p := (· != ·)) (bne_iff_ne.mpr hab)), fun hab => skipped rfl (onto (p := (· != ·)) (by simp [hab])),
    fun hab => taken rfl (onto (hslt.mpr hab)), fun hab => skipped rfl (onto (hsge hab)),
    fun hab => taken rfl (onto (p := fun x y => !x.slt y) (by simp [hsge hab])), fun hab => skipped rfl (onto (p := fun x y => !x.slt y) (by simp [hslt.mpr hab])),
    fun hab => taken rfl (onto (hult.mpr hab)), fun hab => skipped rfl (onto (huge hab)),
    fun hab => taken rfl (onto (p := fun x y => !x.ult y) (by simp [huge hab])), fun hab => skipped rfl (onto (p := fun x y => !x.ult y) (by simp [hult.mpr hab])),
    ?_, ?_, fun ha => ?_, fun ha => ?_⟩
  · have hjump : s.spar t (fun s => .goto s (jumpTo (s.tiles[t]) far)) = _ := h.spar_jump rfl
    rw [jumpTo, h.pc_eq] at hjump
    exact congrArg _ hjump
  · have hjump : s.spar t (fun s => .goto (s.modTile t fun c => c.setG 31 (pcWord (c.pc.toNat + 4))) (jumpTo (s.tiles[t]) far)) = _ :=
      h.spar_goto (f := fun c => c.setG 31 (pcWord (c.pc.toNat + 4))) (fun _ => rfl) rfl
    rw [jumpTo, h.pc_eq] at hjump
    refine congrArg _ (hjump.trans (s'.modTile_congr t _ _ ?_))
    rw [h.pc_eq]
    rfl
  · have hjump := h.sparJr_eq (a := a) (link := id) (fun _ => rfl) (by rw [hg]; exact ha)
    rw [hg] at hjump
    exact congrArg _ hjump
  · have hjump := h.sparJr_eq (a := a) (link := fun c => c.setG d (pcWord (c.pc.toNat + 4))) (fun _ => rfl) (by rw [hg]; exact ha)
    rw [hg] at hjump
    refine congrArg _ (hjump.trans (s'.modTile_congr t _ _ ?_))
    rw [h.pc_eq]

end Sys2Proof.Machine
end

