-- ==== Sys2Proof/Proofs/FloatResults.lean ====
section
/-! SUPPORT. The floating-point instructions of a tile (R331, R333): results of a format are canonical, and what an instruction of registers comes to. -/

namespace Sys2Proof.Machine

set_option Elab.async false

/-! Results of a format (R333): a NaN result is the canonical NaN. -/

/-- The result is no NaN but the canonical one. -/
def FFmt.Canonical (f : FFmt) (r : FRes) : Prop := (f.unpack r.bits).isNan = true → r.bits = f.qnan

/-- A significand rounded to p bits or fewer. -/
theorem roundShift_le {m k p : Nat} {sticky : Bool} (h : bitLen m ≤ p + k) : (roundShift m k sticky).1 ≤ 2 ^ p := by
  have hm : m < 2 ^ (p + k) := (lt_two_pow_bitLen le_rfl).trans_le (Nat.pow_le_pow_right (by decide) h)
  have hq : m / 2 ^ k < 2 ^ p := Nat.div_lt_of_lt_mul (by rwa [← Nat.pow_add, Nat.add_comm])
  unfold roundShift
  dsimp only
  split_ifs with hk
  · rw [beq_iff_eq] at hk
    subst hk
    exact hm.le
  · exact hq
  · exact hq.le

section
variable {f : FFmt} (hp : 2 ≤ f.p) (hw : f.p < f.width)
include hp hw

theorem FFmt.canonical_of_le {r : FRes} (h : r.bits % f.signBit ≤ f.infBits) : f.Canonical r := fun hn =>
  absurd ((FFmt.isNan_unpack_iff hp hw r.bits).mp hn) h.not_gt

theorem FFmt.canonical_signed {bits : Nat} (h : bits ≤ f.infBits) (n : Bool) (x : Fx) : f.Canonical ⟨f.signed n bits, x⟩ := by
  refine FFmt.canonical_of_le hp hw ?_
  have hmod : f.signed n bits % f.signBit = bits % f.signBit := by
    cases n with
    | false => rfl
    | true => exact Nat.add_mod_right _ _
  rw [hmod]
  exact (Nat.mod_le _ _).trans h

theorem FFmt.canonical_inf (n : Bool) (x : Fx) : f.Canonical ⟨f.signed n f.infBits, x⟩ := FFmt.canonical_signed hp hw le_rfl n x

theorem FFmt.canonical_zero (n : Bool) (x : Fx) : f.Canonical ⟨f.signed n 0, x⟩ := FFmt.canonical_signed hp hw (Nat.zero_le _) n x

omit hp hw in
theorem FFmt.canonical_nanRes (b : Bool) : f.Canonical (f.nanRes b) := fun _ => rfl

omit hp hw in
theorem FFmt.two_pow_p (hp : 2 ≤ f.p) : 2 ^ f.p = 2 * 2 ^ f.fracBits := by
  rw [← Nat.pow_succ', FFmt.fracBits, Nat.succ_eq_add_one, Nat.sub_add_cancel (by omega)]

omit hw in
/-- The magnitude of a significand below 2^p with its exponent field, where that is below the field of infinity. -/
theorem FFmt.magnitude_le {mant : Nat} {field : Int} (hmant : mant < 2 ^ f.p)
    (hsub : mant < 2 ^ f.fracBits → field = 0) (hpos : ¬ mant < 2 ^ f.fracBits → 1 ≤ field)
    (hlt : ¬ (f.expMax : Int) ≤ field) :
    (if field == 0 then mant else mant - 2 ^ f.fracBits + field.toNat * 2 ^ f.fracBits) ≤ f.infBits := by
  rw [FFmt.two_pow_p hp] at hmant
  unfold FFmt.infBits
  split
  · next hzero =>
    rw [beq_iff_eq] at hzero
    have hsmall : mant < 2 ^ f.fracBits := by
      by_contra hbig
      have := hpos hbig
      omega
    have hmax : 1 * 2 ^ f.fracBits ≤ f.expMax * 2 ^ f.fracBits := Nat.mul_le_mul_right _ (by omega)
    omega
  · next hne =>
    have hbig : ¬ mant < 2 ^ f.fracBits := fun h => hne (by simp [hsub h])
    have hfield := hpos hbig
    have hstep : (field.toNat + 1) * 2 ^ f.fracBits ≤ f.expMax * 2 ^ f.fracBits := Nat.mul_le_mul_right _ (by omega)
    rw [Nat.succ_mul] at hstep
    have := Nat.two_pow_pos f.fracBits
    omega

/-- A rounded result's magnitude is at most infinity's. -/
theorem FFmt.canonical_round (n : Bool) (m : Nat) (e : Int) (sticky : Bool) : f.Canonical (f.round n m e sticky) := by
  unfold FFmt.round
  dsimp only
  split
  · exact FFmt.canonical_zero hp hw n 0
  · have hq := le_max_left (e + bitLen m - f.p) (f.emin - f.fracBits)
    have hmin := le_max_right (e + bitLen m - f.p) (f.emin - f.fracBits)
    generalize max (e + bitLen m - f.p) (f.emin - f.fracBits) = q at hq hmin ⊢
    have hmant : (if q - e ≤ 0 then (m * 2 ^ (-(q - e)).toNat, sticky) else roundShift m (q - e).toNat sticky).1 ≤ 2 ^ f.p := by
      split
      · have hm : m < 2 ^ bitLen m := lt_two_pow_bitLen le_rfl
        have hpow : 2 ^ bitLen m * 2 ^ (-(q - e)).toNat ≤ 2 ^ f.p := by
          rw [← Nat.pow_add]
          exact Nat.pow_le_pow_right (by decide) (by omega)
        exact (Nat.mul_le_mul_right _ hm.le).trans hpow
      · exact roundShift_le (by omega)
    generalize (if q - e ≤ 0 then (m * 2 ^ (-(q - e)).toNat, sticky) else roundShift m (q - e).toNat sticky) = r at hmant ⊢
    obtain ⟨mant, inexact⟩ := r
    dsimp only at hmant ⊢
    have hcarry : (if mant == 2 ^ f.p then (mant / 2, q + 1) else (mant, q)).1 < 2 ^ f.p ∧
        f.emin - f.fracBits ≤ (if mant == 2 ^ f.p then (mant / 2, q + 1) else (mant, q)).2 := by
      have := Nat.two_pow_pos f.p
      split
      · next hfull =>
        rw [beq_iff_eq] at hfull
        exact ⟨by omega, by omega⟩
      · next hnot =>
        rw [beq_iff_eq] at hnot
        exact ⟨by omega, hmin⟩
    generalize (if mant == 2 ^ f.p then (mant / 2, q + 1) else (mant, q)) = c at hcarry ⊢
    obtain ⟨mant, q⟩ := c
    obtain ⟨hmant, hmin⟩ := hcarry
    dsimp only at hmant hmin ⊢
    have hsub : mant < 2 ^ f.fracBits → (if mant < 2 ^ f.fracBits then (0 : Int) else q - (f.emin - f.fracBits) + 1) = 0 := fun h => if_pos h
    have hpos : ¬ mant < 2 ^ f.fracBits → 1 ≤ (if mant < 2 ^ f.fracBits then (0 : Int) else q - (f.emin - f.fracBits) + 1) := fun h => by
      rw [if_neg h]
      omega
    generalize (if mant < 2 ^ f.fracBits then (0 : Int) else q - (f.emin - f.fracBits) + 1) = field at hsub hpos ⊢
    split
    · exact FFmt.canonical_inf hp hw n _
    · next hlt => exact FFmt.canonical_signed hp hw (FFmt.magnitude_le hp hmant hsub hpos hlt) n _

/-! The operations. -/

theorem FFmt.canonical_addV (a b : FVal) : f.Canonical (f.addV a b) := by
  unfold FFmt.addV
  split
  · exact FFmt.canonical_nanRes _
  · exact FFmt.canonical_nanRes _
  · split
    · exact FFmt.canonical_inf hp hw _ _
    · exact FFmt.canonical_nanRes _
  · exact FFmt.canonical_inf hp hw _ _
  · exact FFmt.canonical_inf hp hw _ _
  · dsimp only
    split
    · exact FFmt.canonical_zero hp hw _ _
    · exact FFmt.canonical_round hp hw _ _ _ _

theorem FFmt.canonical_mul (a b : Nat) : f.Canonical (f.mul a b) := by
  unfold FFmt.mul
  split
  · exact FFmt.canonical_nanRes _
  · exact FFmt.canonical_nanRes _
  · exact FFmt.canonical_inf hp hw _ _
  · split
    · exact FFmt.canonical_nanRes _
    · exact FFmt.canonical_inf hp hw _ _
  · split
    · exact FFmt.canonical_nanRes _
    · exact FFmt.canonical_inf hp hw _ _
  · exact FFmt.canonical_round hp hw _ _ _ _

theorem FFmt.canonical_div (a b : Nat) : f.Canonical (f.div a b) := by
  unfold FFmt.div
  split
  · exact FFmt.canonical_nanRes _
  · exact FFmt.canonical_nanRes _
  · exact FFmt.canonical_nanRes _
  · exact FFmt.canonical_inf hp hw _ _
  · exact FFmt.canonical_zero hp hw _ _
  · split_ifs
    · exact FFmt.canonical_nanRes _
    · exact FFmt.canonical_inf hp hw _ _
    · exact FFmt.canonical_round hp hw _ _ _ _

theorem FFmt.canonical_sqrt (a : Nat) : f.Canonical (f.sqrt a) := by
  unfold FFmt.sqrt
  split
  · exact FFmt.canonical_nanRes _
  · split
    · exact FFmt.canonical_nanRes _
    · exact FFmt.canonical_inf hp hw false _
  · split
    · exact FFmt.canonical_zero hp hw _ _
    · split
      · exact FFmt.canonical_nanRes _
      · exact FFmt.canonical_round hp hw _ _ _ _

theorem FFmt.canonical_fma (sub : Bool) (a b c : Nat) : f.Canonical (f.fma sub a b c) := by
  unfold FFmt.fma
  extract_lets va vb vc sig zeroInf
  clear_value zeroInf sig va vb vc
  split
  · exact FFmt.canonical_nanRes _
  · split
    · split
      · exact FFmt.canonical_nanRes _
      · exact FFmt.canonical_nanRes _
    · split
      · exact FFmt.canonical_nanRes _
      · split
        · dsimp only
          split
          · exact FFmt.canonical_zero hp hw _ _
          · exact FFmt.canonical_round hp hw _ _ _ _
        · exact FFmt.canonical_inf hp hw _ _
        · dsimp only
          split
          · split
            · exact FFmt.canonical_inf hp hw _ _
            · exact FFmt.canonical_nanRes _
          · exact FFmt.canonical_inf hp hw _ _

theorem FFmt.canonical_cvt (src : FFmt) (a : Nat) : f.Canonical (src.cvt f a) := by
  unfold FFmt.cvt
  split
  · exact FFmt.canonical_nanRes _
  · exact FFmt.canonical_inf hp hw _ _
  · split
    · exact FFmt.canonical_zero hp hw _ _
    · exact FFmt.canonical_round hp hw _ _ _ _

omit hp hw in
theorem FFmt.unpack_mod (f : FFmt) (x : Nat) : f.unpack (x % 2 ^ f.width) = f.unpack x := by
  simp only [FFmt.unpack, Nat.mod_mod]

omit hp hw in
theorem FFmt.key_mod (f : FFmt) (x : Nat) : f.key (x % 2 ^ f.width) = f.key x := by
  simp only [FFmt.key, Nat.mod_mod]

omit hp hw in
theorem FFmt.canonical_canon (x : Nat) (fx : Fx) : f.Canonical ⟨f.canon x, fx⟩ := by
  intro hn
  dsimp only [FFmt.canon] at hn ⊢
  split
  · rfl
  · next hx =>
    rw [if_neg hx, FFmt.unpack_mod] at hn
    exact absurd hn hx

omit hp hw in
theorem FFmt.key_canon {x : Nat} (h : ¬ (f.unpack x).isNan = true) : f.key (f.canon x) = f.key x := by
  rw [FFmt.canon, if_neg h, FFmt.key_mod]

end

/-- FMIN and FMAX of no NaN choose by order key (R333). -/
theorem FFmt.key_minK_maxK {f : FFmt} {x y : Nat} (hx : ¬ (f.unpack x).isNan = true) (hy : ¬ (f.unpack y).isNan = true) :
    f.key (f.minK x y).bits = min (f.key x) (f.key y) ∧ f.key (f.maxK x y).bits = max (f.key x) (f.key y) := by
  constructor
  · unfold FFmt.minK
    split
    · next hlt => rw [FFmt.key_canon hy, min_eq_right hlt.le]
    · next hle => rw [FFmt.key_canon hx, min_eq_left (not_lt.mp hle)]
  · unfold FFmt.maxK
    split
    · next hlt => rw [FFmt.key_canon hy, max_eq_right hlt.le]
    · next hle => rw [FFmt.key_canon hx, max_eq_left (not_lt.mp hle)]

theorem FFmt.eqF_of_nan {f : FFmt} {x y : Nat} (h : (f.unpack x).isNan = true ∨ (f.unpack y).isNan = true) : (f.eqF x y).1 = false := by
  rw [FFmt.eqF, if_pos (Bool.or_eq_true_iff.mpr h)]

theorem FFmt.ltF_of_nan {f : FFmt} {orEqual : Bool} {x y : Nat} (h : (f.unpack x).isNan = true ∨ (f.unpack y).isNan = true) :
    (f.ltF orEqual x y).1 = false := by
  rw [FFmt.ltF, if_pos (Bool.or_eq_true_iff.mpr h)]

/-- FTOI to 64 bits, by the class of its operand (R333). -/
theorem FFmt.toInt_64 (f : FFmt) (x : Nat) :
    match f.unpack x with
    | .nan _ => f.toInt 64 x = ⟨0, fxInvalid⟩
    | .inf n => f.toInt 64 x = ⟨if n then 2 ^ 63 else 2 ^ 63 - 1, fxInvalid⟩
    | .fin n m p =>
      let v : Int := (if n then -1 else 1) * (if 0 ≤ p then m * 2 ^ p.toNat else m / 2 ^ (-p).toNat : Nat)
      if 2 ^ 63 ≤ v then f.toInt 64 x = ⟨2 ^ 63 - 1, fxInvalid⟩
      else if v < -(2 ^ 63) then f.toInt 64 x = ⟨2 ^ 63, fxInvalid⟩
      else BitVec.ofNat 64 (f.toInt 64 x).bits = BitVec.ofInt 64 v := by
  have hofNat : ∀ v : Int, BitVec.ofNat 64 (unsignedOf 64 v) = BitVec.ofInt 64 v := fun v => by
    apply BitVec.eq_of_toNat_eq
    rw [BitVec.toNat_ofNat, BitVec.toNat_ofInt, unsignedOf]
    omega
  unfold FFmt.toInt
  cases f.unpack x with
  | nan s => rfl
  | inf n =>
    cases n
    · rfl
    · rfl
  | fin n m p =>
    dsimp only
    have hsign : ∀ k : Nat, (if n = true then -(k : Int) else (k : Int)) = (if n = true then -1 else 1) * (k : Int) := by
      intro k
      cases n <;> simp
    rw [hsign]
    generalize (if n = true then (-1 : Int) else 1) * _ = v
    have htop : (2 : Int) ^ (64 - 1) - 1 < v ↔ 2 ^ 63 ≤ v := by omega
    simp only [htop]
    split
    · rfl
    · split
      · rfl
      · split
        · exact hofNat v
        · exact hofNat v

/-! The instructions. -/

section
variable {s s' : State} {t : TileId}

theorem Fetched.f_eq (h : Fetched s t s') (r : Reg) : (s'.tiles[t]).f r = (s.tiles[t]).f r := by
  rw [Tile.f, h.sameCore t]
  rfl

/-- An instruction whose meaning is a change of registers, with what it writes as the tile stood before its fetch. -/
theorem Fetched.exec_sparRegs (h : Fetched s t s') {i : Instr} {f g : Tile → Tile} (hi : exec i s = .next (s.sparRegs t f))
    (hf : ∀ c, (f c).state = c.state ∧ (f c).pc = c.pc) (hg : f s'.tiles[t] = g s'.tiles[t]) : exec i s = .next (s'.retires t g) := by
  rw [hi, State.sparRegs_next h f hf, s'.retires_congr t f g hg]

/-- An instruction that writes f(d) and collects its flags. -/
theorem Fetched.exec_sparF (h : Fetched s t s') {i : Instr} {d : Reg} {f : Tile → FRes} {r : FRes} (hi : exec i s = .next (s.sparF t d f))
    (hr : f s'.tiles[t] = r) : exec i s = .next (s'.retires t fun c => (c.setF d r.bits).addFx r.fx) :=
  h.exec_sparRegs hi (fun _ => ⟨rfl, rfl⟩) (by rw [hr])

/-- An instruction that writes 1 or 0 to g(d) and collects its flags. -/
theorem Fetched.exec_sparFc (h : Fetched s t s') {i : Instr} {d : Reg} {f : Tile → Bool × Fx} {r : Bool × Fx}
    (hi : exec i s = .next (s.sparFc t d f)) (hr : f s'.tiles[t] = r) :
    exec i s = .next (s'.retires t fun c => (c.setG d (if r.1 then 1 else 0)).addFx r.2) :=
  h.exec_sparRegs hi (fun _ => ⟨rfl, rfl⟩) (by rw [hr]; rfl)

end

theorem ffmt_p (dbl : Bool) : 2 ≤ (ffmt dbl).p := by cases dbl <;> decide

theorem ffmt_width (dbl : Bool) : (ffmt dbl).p < (ffmt dbl).width := by cases dbl <;> decide

/-- Settles O11: the operands are those before the fetch, and every result of a format is canonical. -/
theorem sparFloatResults : Obligations.SparFloatResults := by
  intro s s' t dbl d a b e h f x y w isNan go num cmp
  have hp := ffmt_p dbl
  have hw := ffmt_width dbl
  have ha := h.f_eq a
  have hb := h.f_eq b
  have he := h.f_eq e
  have hg := h.g_eq
  refine ⟨⟨h.exec_sparF rfl (by rw [ha, hb]), FFmt.canonical_addV hp hw _ _⟩, ⟨h.exec_sparF rfl (by rw [ha, hb]), FFmt.canonical_addV hp hw _ _⟩,
    ⟨h.exec_sparF rfl (by rw [ha, hb]), FFmt.canonical_mul hp hw _ _⟩, ⟨h.exec_sparF rfl (by rw [ha, hb]), FFmt.canonical_div hp hw _ _⟩,
    ⟨h.exec_sparF rfl (by rw [ha]), FFmt.canonical_sqrt hp hw _⟩,
    ⟨h.exec_sparF rfl (by rw [ha, hb, he]), FFmt.canonical_fma hp hw _ _ _ _⟩, ⟨h.exec_sparF rfl (by rw [ha, hb, he]), FFmt.canonical_fma hp hw _ _ _ _⟩,
    ⟨h.exec_sparF rfl (by rw [ha, hb]), FFmt.canonical_canon _ _⟩, ⟨h.exec_sparF rfl (by rw [ha, hb]), FFmt.canonical_canon _ _⟩,
    FFmt.key_minK_maxK, ⟨h.exec_sparFc rfl (by rw [ha, hb]), FFmt.eqF_of_nan⟩, ⟨h.exec_sparFc rfl (by rw [ha, hb]), FFmt.ltF_of_nan⟩,
    ⟨h.exec_sparFc rfl (by rw [ha, hb]), FFmt.ltF_of_nan⟩, ⟨h.exec_sparF rfl (by rw [hg]), FFmt.canonical_round hp hw _ _ _ _⟩,
    ⟨h.exec_sparF rfl (by rw [ha]), FFmt.canonical_cvt (ffmt_p _) (ffmt_width _) _ _⟩, ?_, ?_, ⟨f.toInt 64 x, ?_, f.toInt_64 x⟩⟩
  · exact h.exec_sparRegs rfl (fun _ => ⟨rfl, rfl⟩) (by dsimp only; rw [ha])
  · exact h.exec_sparRegs rfl (fun _ => ⟨rfl, rfl⟩) (by rw [hg])
  · exact h.exec_sparRegs rfl (fun _ => ⟨rfl, rfl⟩) (by rw [ha])

end Sys2Proof.Machine
end

