-- ==== Sys2Proof/Proofs/TileAccessFrames.lean ====
section
/-! SUPPORT. An error record and a write through the Thatch change no tile, and a load changes of the tiles only their caches. -/

namespace Sys2Proof.Machine

set_option Elab.async false

/-! What a part that keeps every tile leaves of them. -/

theorem State.stamp_tiles (s : State) (src : Nat) : (s.stamp src).2.tiles = s.tiles := rfl

theorem State.sendVector_tiles (s : State) (f : FuncId) (v : Fin 32) : (s.sendVector f v).tiles = s.tiles := by
  unfold State.sendVector
  dsimp only
  split_ifs
  all_goals rfl

theorem State.eventCause_tiles (s : State) (f : FuncId) (bit : Nat) : (s.eventCause f bit).tiles = s.tiles := by
  unfold State.eventCause State.raiseCause
  dsimp only
  split
  · exact State.sendVector_tiles _ f _
  · rfl

theorem State.traceTrigger_tiles (s : State) (r : ErrRec) : (s.traceTrigger r).tiles = s.tiles := by
  unfold State.traceTrigger
  dsimp only
  split
  · rfl
  · rfl

/-- An error record changes no tile. -/
theorem State.raise_tiles (s : State) (src : Nat) (r : ErrRec) : (s.raise src r).tiles = s.tiles := by
  unfold State.raise
  dsimp only
  have htrace : ∀ r' : ErrRec, (((s.stamp src).2.modErr (·.push r')).traceTrigger r').tiles = s.tiles := fun r' => State.traceTrigger_tiles _ r'
  have hinst : ∀ r' : ErrRec, ∀ x : State, x.tiles = s.tiles → (if r'.inst < 64 then
      match (x.insts[Fin.ofNat 64 r'.inst]).func with | some f => x.eventCause f 4 | none => x else x).tiles = s.tiles := by
    intro r' x hx
    split
    · split
      · rw [State.eventCause_tiles, hx]
      · exact hx
    · exact hx
  split
  · rfl
  · split
    · rfl
    · split
      · rw [State.eventCause_tiles]
        exact hinst _ _ (htrace _)
      · exact hinst _ _ (htrace _)

theorem State.thThrough_tiles (s : State) (a : Nat) (bs : Bytes) : (s.thThrough a bs).tiles = s.tiles := by
  unfold State.thThrough
  dsimp only
  rw [State.dramWrite_tiles]
  split
  · rfl
  · split
    · rfl
    · rfl

theorem State.thDirty_tiles (s : State) (a : Nat) (bs : Bytes) (r : Nat) : (s.thDirty a bs r).tiles = s.tiles := by
  unfold State.thDirty
  dsimp only
  split
  · exact s.thThrough_tiles a bs
  · split
    · rw [State.thThrough_tiles, State.thRead_tiles]
    · split
      · rw [State.modSlice_tiles, State.thRead_tiles]
      · rw [State.thThrough_tiles, State.thRead_tiles]

theorem State.l1WriteBack_tiles (s : State) (x : L1Line) : (s.l1WriteBack x).tiles = s.tiles := by
  unfold State.l1WriteBack
  refine foldl_keeps State.tiles _ ?_ _ _
  intro s j
  split
  · split
    · exact s.thDirty_tiles _ _ _
    · exact s.thThrough_tiles _ _
  · rfl

/-! What an access to memory leaves of the tiles. -/

/-- Two tiles agree in all but their data caches. -/
def Tile.sameData (c e : Tile) : Prop :=
  e = { c with l1d := e.l1d, l1dPlru := e.l1dPlru, victim := e.victim, dirtyNo := e.dirtyNo }

theorem Tile.sameData.refl (c : Tile) : c.sameData c := rfl

theorem Tile.sameData.trans {c d e : Tile} (h : c.sameData d) (k : d.sameData e) : c.sameData e := by
  unfold Tile.sameData at *
  rw [k, h]

/-- The tiles of two states agree in all but their data caches. -/
def State.SameData (s s' : State) : Prop := ∀ u : TileId, (s.tiles[u]).sameData (s'.tiles[u])

theorem State.SameData.refl (s : State) : s.SameData s := fun _ => rfl

theorem State.SameData.trans {s s' s'' : State} (h : s.SameData s') (k : s'.SameData s'') : s.SameData s'' := fun u => (h u).trans (k u)

theorem State.SameData.of_tiles {s s' : State} (h : s'.tiles = s.tiles) : s.SameData s' := fun u => by
  rw [h]
  rfl

theorem State.SameData.modTile {s s' : State} (h : s.SameData s') {t : TileId} {f : Tile → Tile} (hf : ∀ c, Tile.sameData c (f c)) :
    s.SameData (s'.modTile t f) := fun u => by
  refine (h u).trans ?_
  obtain rfl | hu := eq_or_ne u t
  · rw [State.modTile_at]
    exact hf _
  · rw [State.modTile_other _ _ _ _ hu]
    rfl

theorem Tile.sameData_l1Touch (c : Tile) (k : Nat) : c.sameData (c.l1Touch k) := rfl

theorem Tile.sameData_placed (c : Tile) (l : NMap L1Line) (v : List L1Line) : c.sameData { c with l1d := l, victim := v } := rfl

theorem State.SameData.bump {s s' : State} (h : s.SameData s') (index sub n : Nat) : s.SameData (s'.bump index sub n) := h

theorem State.l1Place_sameData (s : State) (t : TileId) (x : L1Line) : s.SameData (s.l1Place t x) := by
  unfold State.l1Place
  dsimp only
  refine State.SameData.modTile ?_ fun c => (c.sameData_placed _ _).trans (Tile.sameData_l1Touch _ _)
  split
  · exact State.SameData.of_tiles (s.l1WriteBack_tiles _)
  · exact State.SameData.refl s

theorem State.l1Ensure_sameData (s : State) (t : TileId) (line : Nat) : s.SameData (s.l1Ensure t line).2 := by
  unfold State.l1Ensure
  split
  · exact (State.SameData.refl s).modTile fun c => Tile.sameData_l1Touch c _
  · dsimp only
    split
    · exact ((State.SameData.refl s).bump _ _ _).trans (State.l1Place_sameData _ t _)
    · exact s.l1Place_sameData t _

theorem State.l1Sector_sameData (s : State) (t : TileId) (line j : Nat) : s.SameData (s.l1Sector t line j).2 := by
  unfold State.l1Sector
  extract_lets held a
  split
  · exact s.l1Ensure_sameData t line
  · have hread : s.SameData (s.thRead (a / 64) false).2 := State.SameData.of_tiles (s.thRead_tiles _ _)
    generalize s.thRead (a / 64) false = r at hread ⊢
    obtain ⟨_ | d, s₁⟩ := r
    · exact hread
    · exact (hread.trans (State.l1Ensure_sameData s₁ t line)).modTile fun _ => rfl

theorem State.l1Read_sameData (s : State) (t : TileId) (a n : Nat) : s.SameData (s.l1Read t a n).2 := by
  unfold State.l1Read
  have hsector := s.l1Sector_sameData t (a / 128) (a % 128 / 32)
  generalize s.l1Sector t (a / 128) (a % 128 / 32) = r at hsector ⊢
  obtain ⟨ok, s₁⟩ := r
  dsimp only at hsector ⊢
  split
  · exact hsector
  · split
    · exact hsector
    · exact hsector

theorem State.dramGet_sameData (s : State) (t : TileId) (a n : Nat) : s.SameData (s.dramGet t a n).2 := by
  unfold State.dramGet
  have hfold : ∀ (l : List (Nat × Nat)) (acc : Except Nat Bytes × State), acc.2.SameData (l.foldl (fun (acc : Except Nat Bytes × State) c =>
      let (d, s) := acc.2.l1Read t c.1 c.2
      match acc.1, d with
      | .ok got, some x => (.ok (got ++ x), s)
      | .ok _, none => (.error c.1, s)
      | .error e, _ => (.error e, s)) acc).2 := by
    intro l
    induction l with
    | nil => exact fun acc => State.SameData.refl _
    | cons c l ih =>
      intro acc
      refine State.SameData.trans (acc.2.l1Read_sameData t c.1 c.2) (State.SameData.trans ?_ (ih _))
      dsimp only
      split
      · exact State.SameData.refl _
      · exact State.SameData.refl _
      · exact State.SameData.refl _
  exact hfold _ _

theorem State.tileRead_sameData (s : State) (t : TileId) (a n : Nat) : s.SameData (s.tileRead t a n).2 := by
  unfold State.tileRead
  split
  · exact State.SameData.refl s
  · split
    · exact State.SameData.refl s
    · exact s.dramGet_sameData t a n

theorem State.dropDirty_sameData (s : State) (t : TileId) (lost : List Nat) : s.SameData (s.dropDirty t lost).2 := by
  unfold State.dropDirty
  dsimp only
  split
  · exact (State.SameData.refl s).modTile fun _ => rfl
  · exact State.SameData.bump ((State.SameData.refl s).modTile fun _ => by rfl) _ _ _

/-! What a load leaves of the tiles: a parity error may drop a line of the instruction cache too. -/

/-- Two tiles agree in all but their caches. -/
def Tile.sameRegs (c e : Tile) : Prop :=
  e = { c with l1d := e.l1d, l1dPlru := e.l1dPlru, victim := e.victim, l1i := e.l1i, l1iPlru := e.l1iPlru, dirtyNo := e.dirtyNo }

theorem Tile.sameRegs.trans {c d e : Tile} (h : c.sameRegs d) (k : d.sameRegs e) : c.sameRegs e := by
  unfold Tile.sameRegs at *
  rw [k, h]

theorem Tile.sameCore.sameRegs {c e : Tile} (h : c.sameCore e) : c.sameRegs e := by
  rw [h]
  rfl

theorem Tile.sameData.sameRegs {c e : Tile} (h : c.sameData e) : c.sameRegs e := by
  rw [h]
  rfl

/-- The tiles of two states agree in all but their caches. -/
def State.SameRegs (s s' : State) : Prop := ∀ u : TileId, (s.tiles[u]).sameRegs (s'.tiles[u])

theorem State.SameData.sameRegs {s s' : State} (h : s.SameData s') : s.SameRegs s' := fun u => (h u).sameRegs

theorem State.SameRegs.refl (s : State) : s.SameRegs s := fun _ => rfl

theorem State.SameRegs.trans {s s' s'' : State} (h : s.SameRegs s') (k : s'.SameRegs s'') : s.SameRegs s'' := fun u => (h u).trans (k u)

theorem State.SameRegs.of_tiles {s s' : State} (h : s'.tiles = s.tiles) : s.SameRegs s' := (State.SameData.of_tiles h).sameRegs

theorem State.SameRegs.modTile {s s' : State} (h : s.SameRegs s') {t : TileId} {f : Tile → Tile} (hf : ∀ c, Tile.sameRegs c (f c)) :
    s.SameRegs (s'.modTile t f) := fun u => by
  refine (h u).trans ?_
  obtain rfl | hu := eq_or_ne u t
  · rw [State.modTile_at]
    exact hf _
  · rw [State.modTile_other _ _ _ _ hu]
    rfl

theorem State.SameRegs.bump {s s' : State} (h : s.SameRegs s') (index sub n : Nat) : s.SameRegs (s'.bump index sub n) := h

theorem State.SameRegs.cleanParity {s s' : State} (h : s.SameRegs s') (src scope id : Nat) : s.SameRegs (s'.cleanParity src scope id) :=
  h.trans (State.SameRegs.of_tiles (State.raise_tiles _ _ _))

theorem State.parityMet_sameRegs (s : State) (t : TileId) (a : Nat) (p : CPar) : s.SameRegs (s.parityMet t a p).2.2 := by
  unfold State.parityMet
  dsimp only
  cases p with
  | none => exact State.SameRegs.refl s
  | fetch =>
    dsimp only
    split
    · exact State.SameRegs.cleanParity (State.SameRegs.bump ((State.SameRegs.refl s).modTile fun _ => by rfl) _ _ _) _ _ _
    · exact State.SameRegs.refl s
  | l1 =>
    dsimp only
    split
    · exact State.SameRegs.refl s
    · split
      · exact (s.dropDirty_sameData t _).sameRegs
      · exact State.SameRegs.cleanParity (State.SameRegs.bump ((State.SameRegs.refl s).modTile fun _ => by rfl) _ _ _) _ _ _
  | thatch =>
    dsimp only
    split
    · exact State.SameRegs.refl s
    · split
      · exact State.SameRegs.cleanParity (State.SameRegs.bump (State.SameRegs.of_tiles (s.modSlice_tiles _ _)) _ _ _) _ _ _
      · exact State.SameRegs.bump (State.SameRegs.of_tiles (s.modSlice_tiles _ _)) _ _ _

/-- A load changes of the tiles only their caches. -/
theorem State.loadBytes_sameRegs (s : State) (t : TileId) (a n : Nat) (p : CPar) : s.SameRegs (s.loadBytes t a n p).2 := by
  unfold State.loadBytes
  have hpar := s.parityMet_sameRegs t a p
  generalize s.parityMet t a p = r at hpar ⊢
  obtain ⟨gone, lost, s₁⟩ := r
  dsimp only at hpar ⊢
  split
  · exact hpar
  · have hread := (s₁.tileRead_sameData t a n).sameRegs
    generalize s₁.tileRead t a n = d at hread ⊢
    obtain ⟨_ | _, s₂⟩ := d
    · exact hpar.trans hread
    · exact hpar.trans hread

end Sys2Proof.Machine
end

