-- ==== Sys2Proof/Proofs/TileLoadsAndStores.lean ====
section
/-! SUPPORT. Loads and stores of a tile (R331, R325 to R327): a load writes the register with what it reads; a store in scratch changes the tile's own bytes, and one in device memory outside every region writes through both caches. -/

namespace Sys2Proof.Machine

set_option Elab.async false

/-! Loads. -/

theorem ofInt_signedOf (w x : Nat) : BitVec.ofInt 64 (signedOf w x) = (BitVec.ofNat w x).signExtend 64 := by
  rw [BitVec.signExtend, BitVec.toInt_eq_toNat_cond, BitVec.toNat_ofNat]
  rfl

theorem Tile.sameRegs.state_eq {c e : Tile} (h : c.sameRegs e) : e.state = c.state := by rw [h]

theorem Tile.sameRegs.pc_eq {c e : Tile} (h : c.sameRegs e) : e.pc = c.pc := by rw [h]

/-- A load of a tile that is aligned and permitted, with the bytes it gets. -/
theorem Fetched.sparLd_eq {s s' s'' : State} {t : TileId} (h : Fetched s t s') {a : Reg} {off : BitVec 16} {n : Nat} {par : CPar}
    {bs : Bytes} {lost : List (Nat × Bool)} {put : Nat → Tile → Tile} {f : Tile → Tile}
    (hput : ∀ c, put (leNat bs) c = f c) (hf : ∀ c, (f c).state = c.state)
    (halign : ((s.tiles[t]).g[a] + off.signExtend 64).toNat % n = 0)
    (hbad : s'.firstBad t .load ((s.tiles[t]).g[a] + off.signExtend 64).toNat n = none)
    (hload : s'.loadBytes t ((s.tiles[t]).g[a] + off.signExtend 64).toNat n par = (⟨.ok bs, lost⟩, s'')) :
    s.sparLd t a off n par put = (s''.retires t f).chargeLost lost := by
  have hsame : (s'.tiles[t]).sameRegs (s''.tiles[t]) := by
    have hframe := s'.loadBytes_sameRegs t ((s.tiles[t]).g[a] + off.signExtend 64).toNat n par t
    rwa [hload] at hframe
  have hea : (s'.tiles[t]).ea a off = ((s.tiles[t]).g[a] + off.signExtend 64).toNat := by rw [Tile.ea, h.g_eq]
  have hread : s'.sparLoad t ((s.tiles[t]).g[a] + off.signExtend 64).toNat n par = (⟨.ok bs, lost⟩, s'') := by
    rw [State.sparLoad, halign, hbad, hload]
    rfl
  have hrun : ((s''.modTile t (put (leNat bs))).tiles[t]).state ≠ .reset := by
    rw [State.modTile_at, hput, hf, hsame.state_eq]
    exact h.running
  rw [State.sparLd, h.spar_eq, hea, hread]
  rw [SOut.retire, State.setPc_of_ne_reset hrun, State.modTile_modTile, State.retires]
  refine congrArg (State.chargeLost · lost) (State.modTile_congr _ _ _ _ ?_)
  rw [Tile.past, hput, hsame.pc_eq, h.pc_eq]

/-- A load from scratch without a parity error reads the tile's own scratch and changes nothing. -/
theorem Fetched.loadBytes_scratch {s s' : State} {t : TileId} (h : Fetched s t s') {x : Nat} (hx : inScratch x = true) (n : Nat) :
    s'.loadBytes t x n .none =
      (⟨.ok ((List.range n).map fun i => memByte (s.tiles[t]).scratch ((x + i - scratchBase) % 0x40000)), []⟩, s') := by
  have hget := (h.sameCore t).scratchGet_eq x n
  simp only [State.loadBytes, State.parityMet, State.tileRead, hx, if_true, hget]
  rfl

/-! Stores. -/

theorem toLE_mod {n k : Nat} (h : n ≤ k) (x : Nat) : toLE n (x % 256 ^ k) = toLE n x := by
  induction n generalizing k x with
  | zero => rfl
  | succ n ih =>
    obtain ⟨k, rfl⟩ : ∃ j, k = j + 1 := ⟨k - 1, by omega⟩
    have hdiv : x % 256 ^ (k + 1) / 256 = x / 256 % 256 ^ k := by rw [pow_succ', Nat.mod_mul_right_div_self]
    have hlow : BitVec.ofNat 8 (x % 256 ^ (k + 1)) = BitVec.ofNat 8 x := by
      apply BitVec.eq_of_toNat_eq
      rw [BitVec.toNat_ofNat, BitVec.toNat_ofNat, pow_succ']
      exact Nat.mod_mul_right_mod x 256 (256 ^ k)
    rw [toLE, toLE, hdiv, ih (by omega), hlow]

theorem getD_toLE {n i : Nat} (h : i < n) (x : Nat) : (toLE n x).getD i 0 = BitVec.ofNat 8 (x / 256 ^ i) := by
  induction n generalizing i x with
  | zero => omega
  | succ n ih =>
    obtain _ | i := i
    · simp [toLE]
    · rw [toLE, List.getD_cons_succ, ih (by omega), pow_succ', Nat.div_div_eq_div_mul]

theorem Fetched.sparSt_eq {s s' : State} {t : TileId} (h : Fetched s t s') {a : Reg} {off : BitVec 16} {n v : Nat} {val : Tile → Nat}
    (hval : toLE n (val (s'.tiles[t])) = toLE n v) (halign : ((s.tiles[t]).g[a] + off.signExtend 64).toNat % n = 0)
    (hbad : s'.firstBad t .store ((s.tiles[t]).g[a] + off.signExtend 64).toNat n = none) :
    s.sparSt t a off n val =
      (s'.tileWrite t ((s.tiles[t]).g[a] + off.signExtend 64).toNat (toLE n v)).setPc t ((s.tiles[t]).pc.toNat + 4) := by
  have hea : (s'.tiles[t]).ea a off = ((s.tiles[t]).g[a] + off.signExtend 64).toNat := by rw [Tile.ea, h.g_eq]
  rw [State.sparSt, h.spar_eq]
  dsimp only
  rw [hea, halign, hbad, hval]
  rfl

theorem Tile.scratchPut_state (c : Tile) (a : Nat) (bs : Bytes) : (c.scratchPut a bs).state = c.state := by
  rw [Tile.scratchPut_eq]

/-- The bytes of a store within scratch: those stored, and every other byte as before. -/
theorem Tile.memByte_scratchPut {c : Tile} (hwf : Memory.wf c.scratch = true) {x n : Nat} (hx : inScratch x = true) (hn : 0 < n)
    (hdvd : n ∣ 8) (halign : x % n = 0) (v : Nat) {o : Nat} (ho : o < 0x40000) :
    memByte (c.scratchPut x (toLE n v)).scratch o =
      if (o + 0x40000 - (x - scratchBase) % 0x40000) % 0x40000 < n then
        BitVec.ofNat 8 (v / 256 ^ ((o + 0x40000 - (x - scratchBase) % 0x40000) % 0x40000))
      else memByte c.scratch o := by
  have hbase : scratchBase ≤ x := by
    simp only [inScratch, Bool.and_eq_true, decide_eq_true_eq] at hx
    exact hx.1
  have hn8 : n ≤ 8 := Nat.le_of_dvd (by decide) hdvd
  have hoff : (x - scratchBase) % 0x40000 % n = 0 := by
    have hmod : n ∣ (x - scratchBase) % 0x40000 :=
      (Nat.dvd_mod_iff (hdvd.trans (by decide))).mpr (Nat.dvd_sub (Nat.dvd_of_mod_eq_zero halign) (hdvd.trans (by decide)))
    exact Nat.mod_eq_zero_of_dvd hmod
  have hfit : (x - scratchBase) % 0x40000 + n ≤ 0x40000 := by
    have hdvd' : n ∣ 0x40000 - (x - scratchBase) % 0x40000 := Nat.dvd_sub (hdvd.trans (by decide)) (Nat.dvd_of_mod_eq_zero hoff)
    have := Nat.le_of_dvd (by omega) hdvd'
    omega
  rw [Tile.scratchPut_scratch c hbase (by rwa [length_toLE]), memByte_memPutBytes _ _ _ hwf, length_toLE]
  generalize (x - scratchBase) % 0x40000 = y at hfit ⊢
  by_cases hin : y ≤ o ∧ o < y + n
  · have hpos : (o + 0x40000 - y) % 0x40000 = o - y := by omega
    rw [if_pos hin, hpos, if_pos (by omega), getD_toLE (by omega)]
  · have hpos : ¬(o + 0x40000 - y) % 0x40000 < n := by omega
    rw [if_neg hin, if_neg hpos]

theorem State.drainChan_of_empty {s : State} {m : Fin 8} (h : (s.dram.chans[m]).writes = []) (which : QWrite → Bool) (k : Nat) :
    s.drainChan m which k = s := by
  have hchan : { s.dram.chans[m] with writes := [] } = s.dram.chans[m] := by rw [← h]
  have hset : s.dram.chans.set m s.dram.chans[m] = s.dram.chans := Vector.set_getElem_self m.isLt
  unfold State.drainChan State.modMemChan State.modDram
  simp only [h, dropWrites, List.filter_nil, List.length_nil, Nat.zero_sub, List.take_nil, List.foldl_nil, hchan]
  rw [hset]

theorem State.drainAll_of_empty {s : State} (h : ∀ m : Fin 8, (s.dram.chans[m]).writes = []) : s.drainAll = s := by
  unfold State.drainAll
  generalize List.finRange 8 = l
  induction l with
  | nil => rfl
  | cons m l ih => rw [List.foldl_cons, State.drainChan_of_empty (h m), ih]

theorem State.storeByte_dram (s : State) (a : Nat) (b : Byte) : (s.storeByte a b).dram = s.dram := by
  unfold State.storeByte
  split <;> rfl

/-- A byte stored where memory stands reads back, and every other byte reads as before. -/
theorem State.memByte_storeByte {s : State} (h : Memory.wf s.mem = true) {y : Nat} (hy : s.dram.gone y = false) (a : Nat) (b : Byte) :
    memByte (s.storeByte a b).mem y = if y = a then b else memByte s.mem y := by
  unfold State.storeByte
  split
  · next hgone =>
    rw [if_neg]
    rintro rfl
    rw [hgone] at hy
    cases hy
  · exact memByte_memPut a y b h

theorem State.memByte_storeBytes {s : State} (h : Memory.wf s.mem = true) {y : Nat} (hy : s.dram.gone y = false) (a : Nat) (bs : Bytes) :
    memByte (s.storeBytes a bs).mem y = if a ≤ y ∧ y < a + bs.length then bs.getD (y - a) 0 else memByte s.mem y := by
  have hfold : ∀ (k : Nat) (bs : Bytes) (s : State), Memory.wf s.mem = true → s.dram.gone y = false →
      memByte ((bs.zip (List.range' k bs.length)).foldl (fun s p => s.storeByte (a + p.2) p.1) s).mem y =
        if a + k ≤ y ∧ y < a + k + bs.length then bs.getD (y - (a + k)) 0 else memByte s.mem y := by
    intro k bs
    induction bs generalizing k with
    | nil =>
      intro s _ _
      rw [if_neg (by simp)]
      rfl
    | cons b bs ih =>
      intro s hwf hgone
      rw [List.length_cons, List.range'_succ, List.zip_cons_cons, List.foldl_cons,
        ih (k + 1) _ (storeByte_wf _ _ hwf) (by rwa [State.storeByte_dram]), State.memByte_storeByte hwf hgone]
      obtain hlt | rfl | hgt := lt_trichotomy y (a + k)
      · rw [if_neg (by omega), if_neg (by omega), if_neg (by omega)]
      · rw [if_neg (by omega), if_pos rfl, if_pos (by omega), Nat.sub_self, List.getD_cons_zero]
      · obtain ⟨i, rfl⟩ : ∃ i, y = a + k + (i + 1) := ⟨y - (a + k) - 1, by omega⟩
        have hi : a + k + (i + 1) - (a + k) = i + 1 := by omega
        have hi' : a + k + (i + 1) - (a + (k + 1)) = i := by omega
        rw [hi, hi', List.getD_cons_succ, if_neg (by omega : ¬a + k + (i + 1) = a + k)]
        exact if_congr (by omega) rfl rfl
  have hmem : (s.storeBytes a bs).mem = ((bs.zip (List.range' 0 bs.length)).foldl (fun s p => s.storeByte (a + p.2) p.1) s).mem := by
    unfold State.storeBytes
    rw [← List.range_eq_range']
    dsimp only
    split <;> rfl
  rw [hmem]
  exact hfold 0 bs s h hy

/-- What a write of device memory leaves of its bytes, with no write queued. -/
theorem State.memByte_dramWrite {s : State} (h : Memory.wf s.mem = true) (hqueue : ∀ m : Fin 8, (s.dram.chans[m]).writes = []) {y : Nat}
    (hy : s.dram.gone y = false) (a : Nat) (bs : Bytes) :
    memByte (s.dramWrite a bs).mem y = if a ≤ y ∧ y < a + bs.length then bs.getD (y - a) 0 else memByte s.mem y := by
  rw [State.dramWrite, State.drainAll_of_empty hqueue, State.memByte_storeBytes h hy]

/-- A write through the Thatch is one of device memory, by a state that holds the same memory. -/
theorem State.thThrough_eq (s : State) (a : Nat) (bs : Bytes) :
    ∃ u : State, s.thThrough a bs = u.dramWrite a bs ∧ u.mem = s.mem ∧ u.dram = s.dram := by
  unfold State.thThrough
  dsimp only
  refine ⟨_, rfl, ?_, ?_⟩
  · split
    · rfl
    · split <;> rfl
  · split
    · rfl
    · split <;> rfl

theorem State.memByte_thThrough {s : State} (h : Memory.wf s.mem = true) (hqueue : ∀ m : Fin 8, (s.dram.chans[m]).writes = []) {y : Nat}
    (hy : s.dram.gone y = false) (a : Nat) (bs : Bytes) :
    memByte (s.thThrough a bs).mem y = if a ≤ y ∧ y < a + bs.length then bs.getD (y - a) 0 else memByte s.mem y := by
  obtain ⟨u, hu, hmem, hdram⟩ := s.thThrough_eq a bs
  rw [hu, State.memByte_dramWrite (by rwa [hmem]) (by rwa [hdram]) (by rwa [hdram]), hmem]

theorem State.l1Through_sameData (s : State) (t : TileId) (a : Nat) (bs : Bytes) : s.SameData (s.l1Through t a bs) := by
  unfold State.l1Through
  exact (State.SameData.modTile (State.SameData.refl s) fun c => by rfl).trans (State.SameData.of_tiles (State.thThrough_tiles _ a bs))

theorem State.memByte_l1Through {s : State} (h : Memory.wf s.mem = true) (hqueue : ∀ m : Fin 8, (s.dram.chans[m]).writes = []) {y : Nat}
    (hy : s.dram.gone y = false) (t : TileId) (a : Nat) (bs : Bytes) :
    memByte (s.l1Through t a bs).mem y = if a ≤ y ∧ y < a + bs.length then bs.getD (y - a) 0 else memByte s.mem y := by
  unfold State.l1Through
  exact State.memByte_thThrough (s := s.modTile t _) h hqueue hy a bs

theorem cuts_one {g n a : Nat} (hn : 0 < n) (h : a % g + n ≤ g) (fuel : Nat) : cuts g (fuel + 2) a n = [(a, n)] := by
  have hmin : min n (g - a % g) = n := by omega
  rw [cuts, if_neg (by simpa using hn.ne'), hmin]
  dsimp only
  rw [Nat.sub_self, cuts]
  rfl

/-- An aligned store to device memory outside every bundle-temporary region writes through both caches. -/
theorem State.dramPut_eq {s : State} {t : TileId} {a n : Nat} (hn : 0 < n) (hdvd : n ∣ 8) (halign : a % n = 0)
    (hregion : s.regionAt a = none) (v : Nat) : s.dramPut t a (toLE n v) = s.l1Through t a (toLE n v) := by
  have hfit : a % 32 + n ≤ 32 := by
    have hmod : n ∣ 32 - a % 32 :=
      Nat.dvd_sub (hdvd.trans (by decide)) ((Nat.dvd_mod_iff (hdvd.trans (by decide))).mpr (Nat.dvd_of_mod_eq_zero halign))
    have := Nat.le_of_dvd (by omega) hmod
    omega
  obtain ⟨k, rfl⟩ : ∃ k, n = k + 1 := ⟨n - 1, by omega⟩
  rw [State.dramPut, length_toLE, cuts_one hn hfit, List.foldl_cons, List.foldl_nil, State.l1Write, hregion, Nat.sub_self]
  refine congrArg (s.l1Through t a) ?_
  simp [sliceB]

/-! An aligned store that is permitted, in scratch and in device memory. -/

section
variable {s s' : State} {t : TileId} {x n : Nat} (v : Nat)

theorem Fetched.store_scratch (h : Fetched s t s') (hsound : s.sound) (hn : 0 < n) (hdvd : n ∣ 8) (halign : x % n = 0)
    (hx : inScratch x = true) {u : State} (hu : u = (s'.tileWrite t x (toLE n v)).setPc t ((s.tiles[t]).pc.toNat + 4)) :
    u = s'.retires t (fun c => { c with scratch := (u.tiles[t]).scratch }) ∧
    ∀ o, o < 0x40000 → memByte (u.tiles[t]).scratch o =
      if (o + 0x40000 - (x - scratchBase) % 0x40000) % 0x40000 < n then
        BitVec.ofNat 8 (v / 256 ^ ((o + 0x40000 - (x - scratchBase) % 0x40000) % 0x40000))
      else memByte (s.tiles[t]).scratch o := by
  have hscratch : (s'.tiles[t]).scratch = (s.tiles[t]).scratch := by rw [h.sameCore t]
  have hu' : u = s'.modTile t fun c => { c.scratchPut x (toLE n v) with pc := pcWord ((s.tiles[t]).pc.toNat + 4) } := by
    rw [hu, State.tileWrite, if_pos hx, State.setPc_of_ne_reset, State.modTile_modTile]
    rw [State.modTile_at, Tile.scratchPut_state]
    exact h.running
  have hbytes : (u.tiles[t]).scratch = ((s'.tiles[t]).scratchPut x (toLE n v)).scratch := by rw [hu', State.modTile_at]
  refine ⟨?_, fun o ho => ?_⟩
  · rw [hbytes]
    conv_lhs => rw [hu']
    refine State.modTile_congr _ _ _ _ ?_
    rw [Tile.past, h.pc_eq, Tile.scratchPut_eq]
  · rw [hbytes, ← hscratch]
    exact Tile.memByte_scratchPut (by rw [hscratch]; exact hsound.2 t) hx hn hdvd halign v ho

theorem Fetched.mem_wf (h : Fetched s t s') (hsound : s.sound) : Memory.wf s'.mem = true := by
  have hkept := State.Kept.sparFetch (q := ⟨s.pending, True⟩) (s := s) ⟨rfl, fun _ => hsound⟩ (t := t)
  rw [h.2] at hkept
  exact (hkept.2 trivial).1

theorem Fetched.store_dram (h : Fetched s t s') (hsound : s.sound) (hn : 0 < n) (hdvd : n ∣ 8) (halign : x % n = 0)
    (hx : inScratch x = false) (hctl : inCtl t x = false) (hregion : s'.regionAt x = none)
    (hqueue : ∀ m : Fin 8, (s'.dram.chans[m]).writes = []) {u : State}
    (hu : u = (s'.tileWrite t x (toLE n v)).setPc t ((s.tiles[t]).pc.toNat + 4)) :
    (u.tiles[t]).pc = pcWord ((s.tiles[t]).pc.toNat + 4) ∧ (u.tiles[t]).g = (s.tiles[t]).g ∧
    (u.tiles[t]).v = (s.tiles[t]).v ∧ ∀ y, s'.dram.gone y = false → memByte u.mem y =
      if x ≤ y ∧ y < x + n then BitVec.ofNat 8 (v / 256 ^ (y - x)) else memByte s'.mem y := by
  have hsame : (s'.tiles[t]).sameRegs ((s'.l1Through t x (toLE n v)).tiles[t]) := (s'.l1Through_sameData t x (toLE n v)).sameRegs t
  have hregs := (h.sameCore t).sameRegs.trans hsame
  have hu' : u = (s'.l1Through t x (toLE n v)).modTile t fun c => { c with pc := pcWord ((s.tiles[t]).pc.toNat + 4) } := by
    rw [hu, State.tileWrite, if_neg (ne_true_of_eq_false hx), if_neg (ne_true_of_eq_false hctl), State.dramPut_eq hn hdvd halign hregion,
      State.setPc_of_ne_reset]
    rw [hsame.state_eq]
    exact h.running
  refine ⟨?_, ?_, ?_, fun y hy => ?_⟩
  · rw [hu', State.modTile_at]
  · rw [hu', State.modTile_at]
    dsimp only
    rw [hregs]
  · rw [hu', State.modTile_at]
    dsimp only
    rw [hregs]
  · have hmem : u.mem = (s'.l1Through t x (toLE n v)).mem := by rw [hu']; rfl
    rw [hmem, State.memByte_l1Through (h.mem_wf hsound) hqueue hy, length_toLE]
    refine if_ctx_congr Iff.rfl (fun hin => ?_) fun _ => rfl
    exact getD_toLE (by omega) v

end

/-- Settles O12: a load is the register write of what `loadBytes` gives, and a store the write of the value's bytes. -/
theorem sparLoadAndStoreResults : Obligations.SparLoadAndStoreResults := by
  refine ⟨?_, ?_⟩
  · intro s s' s'' t d a off par bs lost h x v loads
    have hsigned : ∀ w, BitVec.ofInt 64 (signedOf w v) = (BitVec.ofNat w v).signExtend 64 := fun w => ofInt_signedOf w v
    have load : ∀ {i : Instr} {n : Nat} {put : Nat → Tile → Tile} {f : Tile → Tile}, exec i s = .next (s.sparLd t a off n par put) →
        (∀ c, put v c = f c) → (∀ c, (f c).state = c.state) → loads i n f := by
      intro i n put f hi hput hf halign hbad hload
      rw [hi, h.sparLd_eq hput hf halign hbad hload]
    refine ⟨load rfl (fun _ => rfl) fun _ => rfl, load rfl (fun c => congrArg (c.setG d) (hsigned 8)) fun _ => rfl,
      load rfl (fun _ => rfl) fun _ => rfl, load rfl (fun c => congrArg (c.setG d) (hsigned 16)) fun _ => rfl,
      load rfl (fun _ => rfl) fun _ => rfl, load rfl (fun c => congrArg (c.setG d) (hsigned 32)) fun _ => rfl,
      load rfl (fun _ => rfl) fun _ => rfl, load rfl (fun _ => rfl) fun _ => rfl, load rfl (fun _ => rfl) fun _ => rfl,
      fun n hx => h.loadBytes_scratch hx n⟩
  · intro s s' t d a off hsound h x stores
    have store : ∀ {i : Instr} {n w : Nat} {val : Tile → Nat}, exec i s = .next (s.sparSt t a off n val) → 0 < n → n ∣ 8 →
        toLE n (val (s'.tiles[t])) = toLE n w → stores i n w := by
      intro i n w val hi hn hdvd hval halign hbad
      exact ⟨_, by rw [hi, h.sparSt_eq hval halign hbad], rfl, fun hx => h.store_scratch w hsound hn hdvd halign hx rfl,
        fun hx hctl hregion hqueue => h.store_dram w hsound hn hdvd halign hx hctl hregion hqueue rfl⟩
    have hg : ∀ n, toLE n ((s'.tiles[t]).g[d]).toNat = toLE n ((s.tiles[t]).g[d]).toNat := fun n => by rw [h.g_eq]
    have hf : ∀ n, n ≤ 8 → toLE n ((s'.tiles[t]).f d) = toLE n ((s.tiles[t]).v[d]).toNat := fun n hn => by
      rw [h.f_eq]
      exact toLE_mod hn _
    exact ⟨store rfl (by decide) (by decide) (hg 1), store rfl (by decide) (by decide) (hg 2), store rfl (by decide) (by decide) (hg 4),
      store rfl (by decide) (by decide) (hg 8), store rfl (by decide) (by decide) (hf 4 (by decide)),
      store rfl (by decide) (by decide) (hf 8 (by decide))⟩

end Sys2Proof.Machine
end

