-- ==== Sys2Proof/Proofs/TileTraps.lean ====
section
/-! SUPPORT. The synchronous exceptions of a tile (R334, R335, R341): a fault of an instruction, a word that is not legal, and one that its mode does not permit. -/

namespace Sys2Proof.Machine

set_option Elab.async false

section
variable {s s' : State} {t : TileId}

theorem SFault.cause_mk0 (no status value : Nat) : (SFault.mk0 no status value).cause = no + status * 2 ^ 16 := by
  simp [SFault.cause, SFault.mk0]

theorem SFault.cause_align (a : Nat) : (SFault.align a).cause = 0x70030003 := SFault.cause_mk0 3 stInternal a

theorem SFault.cause_window (a : Nat) : (SFault.window a).cause = 0x50010004 := SFault.cause_mk0 4 stWindowFault a

theorem SFault.cause_call (no value : Nat) : ({ SFault.mk0 no 0 value with after := true } : SFault).cause = no := by
  simp [SFault.cause, SFault.mk0]

theorem Tile.sameCore.roomy {c e : Tile} (h : c.sameCore e) (hroom : c.roomy) : e.roomy := by
  rw [h]
  exact hroom

/-- A fault of an instruction, where a frame fits above MSL: the tile enters the monitor. -/
theorem Fetched.raiseFault_enters (h : Fetched s t s') (hsound : s.sound) (hroom : (s.tiles[t]).roomy) {f : SFault} {cause : Nat}
    (hcause : f.cause = cause) (hlost : f.lost = []) (pc : Nat) :
    ∃ e, (s'.tiles[t]).enters e (pcWord (if f.after then pc + 4 else pc)) cause f.value ∧
      s'.raiseFault t pc f = s'.modTile t fun _ => e := by
  obtain ⟨hgood, hfits⟩ := (h.sameCore t).roomy hroom
  have hwf : Memory.wf (s'.tiles[t]).scratch = true := by
    rw [h.sameCore t]
    exact hsound.2 t
  refine ⟨_, Tile.enters_enter hwf hgood _ _ _, ?_⟩
  rw [State.raiseFault, hlost, hcause, State.takeException_eq, if_neg (not_not.mpr hgood), if_pos hfits]
  rfl

/-- An instruction that faults, where a frame fits above MSL. -/
theorem Fetched.spar_fault (h : Fetched s t s') (hsound : s.sound) (hroom : (s.tiles[t]).roomy) {body : State → SOut} {f : SFault}
    {cause : Nat} (hcause : f.cause = cause) (hbody : body s' = .fault s' f) (hlost : f.lost = []) :
    ∃ e, (s'.tiles[t]).enters e (pcWord (if f.after then (s.tiles[t]).pc.toNat + 4 else (s.tiles[t]).pc.toNat)) cause f.value ∧
      s.spar t body = s'.modTile t fun _ => e := by
  obtain ⟨e, he, heq⟩ := h.raiseFault_enters hsound hroom hcause hlost (s.tiles[t]).pc.toNat
  exact ⟨e, he, by rw [h.spar_eq, hbody, SOut.retire, heq]⟩

/-- A call of the monitor: the frame holds the PC of the next instruction. -/
theorem Fetched.spar_call (h : Fetched s t s') (hsound : s.sound) (hroom : (s.tiles[t]).roomy) (no value : Nat) :
    ∃ e, (s'.tiles[t]).enters e (pcWord ((s.tiles[t]).pc.toNat + 4)) no value ∧
      (s.spar t fun s => .fault s { SFault.mk0 no 0 value with after := true }) = s'.modTile t fun _ => e := by
  have hcall := h.spar_fault hsound hroom (body := fun s => .fault s { SFault.mk0 no 0 value with after := true })
    (SFault.cause_call no value) rfl rfl
  rwa [if_pos rfl] at hcall

/-- A word that is not legal, where a frame fits above MSL. -/
theorem Fetched.sparWord_illegal (h : Fetched s t s') (hsound : s.sound) (hroom : (s.tiles[t]).roomy) (word : Nat) (monitor : Bool)
    (body : State → SOut) :
    ∃ e, (s'.tiles[t]).enters e (pcWord (s.tiles[t]).pc.toNat) 0x70030001 word ∧
      s.sparWord t word false monitor body = s'.modTile t fun _ => e := by
  obtain ⟨e, he, heq⟩ := h.raiseFault_enters hsound hroom (f := .mk0 0x01 stInternal word) (SFault.cause_mk0 _ _ _) rfl (s.tiles[t]).pc.toNat
  refine ⟨e, he, ?_⟩
  rw [State.sparWord, h.1, h.2]
  exact heq

/-- A monitor-only instruction in bundle mode, where a frame fits above MSL. -/
theorem Fetched.sparWord_privileged (h : Fetched s t s') (hsound : s.sound) (hroom : (s.tiles[t]).roomy) (hpl : (s.tiles[t]).pl = false)
    (word : Nat) (body : State → SOut) :
    ∃ e, (s'.tiles[t]).enters e (pcWord (s.tiles[t]).pc.toNat) 0x70030002 word ∧
      s.sparWord t word true true body = s'.modTile t fun _ => e := by
  obtain ⟨e, he, heq⟩ := h.raiseFault_enters hsound hroom (f := .mk0 0x02 stInternal word) (SFault.cause_mk0 _ _ _) rfl (s.tiles[t]).pc.toNat
  have hpl' : (s'.tiles[t]).pl = false := by rw [h.sameCore t, hpl]
  refine ⟨e, he, ?_⟩
  rw [State.sparWord, h.1, h.2]
  dsimp only
  rw [hpl']
  exact heq

theorem sysRegListed_iff (n : Nat) : sysRegListed n = true ↔ n ≤ 3 ∨ (8 ≤ n ∧ n ≤ 0xB) ∨ (0x10 ≤ n ∧ n ≤ 0x3F) := by
  simp only [sysRegListed, Bool.or_eq_true, Bool.and_eq_true, decide_eq_true_eq, or_assoc]

theorem wordS_eq (func5 g : Nat) (num : BitVec 16) :
    wordS func5 g num.toNat = 0x3E * 2 ^ 26 + g * 2 ^ 21 + func5 * 2 ^ 16 + num.toNat := by
  rw [wordS, Nat.mod_eq_of_lt num.isLt]

/-! An access that is not aligned, or not permitted. -/

section
variable {a : Reg} {off : BitVec 16} {n : Nat}

theorem Fetched.ea_eq (h : Fetched s t s') : (s'.tiles[t]).ea a off = ((s.tiles[t]).g[a] + off.signExtend 64).toNat := by
  rw [Tile.ea, h.g_eq]

variable (h : Fetched s t s') (hsound : s.sound) (hroom : (s.tiles[t]).roomy)
include h hsound hroom

theorem Fetched.sparLd_align (halign : ((s.tiles[t]).g[a] + off.signExtend 64).toNat % n ≠ 0) (par : CPar) (put : Nat → Tile → Tile) :
    ∃ e, (s'.tiles[t]).enters e (pcWord (s.tiles[t]).pc.toNat) 0x70030003 ((s.tiles[t]).g[a] + off.signExtend 64).toNat ∧
      s.sparLd t a off n par put = s'.modTile t fun _ => e := by
  refine h.spar_fault hsound hroom (f := .align ((s.tiles[t]).g[a] + off.signExtend 64).toNat) (SFault.cause_align _) ?_ rfl
  rw [h.ea_eq, State.sparLoad, if_pos (by simpa using halign)]

theorem Fetched.sparLd_window (halign : ((s.tiles[t]).g[a] + off.signExtend 64).toNat % n = 0) {b : Nat}
    (hbad : s'.firstBad t .load ((s.tiles[t]).g[a] + off.signExtend 64).toNat n = some b) (par : CPar) (put : Nat → Tile → Tile) :
    ∃ e, (s'.tiles[t]).enters e (pcWord (s.tiles[t]).pc.toNat) 0x50010004 b ∧ s.sparLd t a off n par put = s'.modTile t fun _ => e := by
  refine h.spar_fault hsound hroom (f := .window b) (SFault.cause_window _) ?_ rfl
  rw [h.ea_eq, State.sparLoad, halign, hbad]
  rfl

theorem Fetched.sparSt_align (halign : ((s.tiles[t]).g[a] + off.signExtend 64).toNat % n ≠ 0) (val : Tile → Nat) :
    ∃ e, (s'.tiles[t]).enters e (pcWord (s.tiles[t]).pc.toNat) 0x70030003 ((s.tiles[t]).g[a] + off.signExtend 64).toNat ∧
      s.sparSt t a off n val = s'.modTile t fun _ => e := by
  refine h.spar_fault hsound hroom (f := .align ((s.tiles[t]).g[a] + off.signExtend 64).toNat) (SFault.cause_align _) ?_ rfl
  dsimp only
  rw [h.ea_eq, if_pos (by simpa using halign)]

theorem Fetched.sparSt_window (halign : ((s.tiles[t]).g[a] + off.signExtend 64).toNat % n = 0) {b : Nat}
    (hbad : s'.firstBad t .store ((s.tiles[t]).g[a] + off.signExtend 64).toNat n = some b) (val : Tile → Nat) :
    ∃ e, (s'.tiles[t]).enters e (pcWord (s.tiles[t]).pc.toNat) 0x50010004 b ∧ s.sparSt t a off n val = s'.modTile t fun _ => e := by
  refine h.spar_fault hsound hroom (f := .window b) (SFault.cause_window _) ?_ rfl
  dsimp only
  rw [h.ea_eq, halign, hbad]
  rfl

end

/-- A jump to a target that is not aligned. -/
theorem Fetched.sparJr_align (h : Fetched s t s') (hsound : s.sound) (hroom : (s.tiles[t]).roomy) {a : Reg}
    (ha : ((s.tiles[t]).g[a]).toNat % 4 ≠ 0) (link : Tile → Tile) :
    ∃ e, (s'.tiles[t]).enters e (pcWord (s.tiles[t]).pc.toNat) 0x70030003 ((s.tiles[t]).g[a]).toNat ∧
      s.sparJr t a link = s'.modTile t fun _ => e := by
  refine h.spar_fault hsound hroom (f := .align ((s.tiles[t]).g[a]).toNat) (SFault.cause_align _) ?_ rfl
  dsimp only
  rw [h.g_eq, if_pos (by simpa using ha)]

end

/-- Settles O15: each exception is one fault of the instruction, and enters the monitor as R338 says. -/
theorem sparTraps : Obligations.SparTraps := by
  intro s s' t d a imm off num word par hsound h hroom pc traps here n sys target x
  have trap : ∀ {i : Instr} {u : State} {at' : Word} {cause value : Nat}, exec i s = .next u →
      (∃ e, (s'.tiles[t]).enters e at' cause value ∧ u = s'.modTile t fun _ => e) → traps i at' cause value := by
    rintro i u at' cause value hi ⟨e, he, rfl⟩
    exact ⟨e, he, hi⟩
  have hunlisted : ¬(n ≤ 3 ∨ (8 ≤ n ∧ n ≤ 0xB) ∨ (0x10 ≤ n ∧ n ≤ 0x3F)) → sysRegListed num.toNat = false := fun hn =>
    eq_false_of_ne_true (mt (sysRegListed_iff n).mp hn)
  refine ⟨?svc, ?brk, ?illegal, ?unlisted, ?privileged, ?jump, ?align, ?load, ?store⟩
  case svc => exact trap rfl (h.spar_call hsound hroom 0x07 imm.toNat)
  case brk => exact trap rfl (h.spar_call hsound hroom 0x08 imm.toNat)
  case illegal =>
    intro hword
    refine trap (congrArg Host.Outcome.next (if_pos ?_)) (h.sparWord_illegal hsound hroom word.toNat false _)
    rw [hword]
    rfl
  case unlisted =>
    intro hn
    have sysTrap : ∀ (func5 : Nat) (body : State → SOut), ∃ e, (s'.tiles[t]).enters e here 0x70030001 (sys func5 d.val n) ∧
        s.sparWord t (wordS func5 d.val num.toNat) (sysRegListed num.toNat) (2 < num.toNat) body = s'.modTile t fun _ => e := by
      intro func5 body
      rw [hunlisted hn, wordS_eq]
      exact h.sparWord_illegal hsound hroom _ _ body
    exact ⟨trap rfl (sysTrap 2 _), trap rfl (sysTrap 3 _)⟩
  case privileged =>
    intro hpl
    refine ⟨trap rfl (h.sparWord_privileged hsound hroom hpl _ _), trap rfl (h.sparWord_privileged hsound hroom hpl _ _), fun hn => ?_⟩
    have hlisted : sysRegListed num.toNat = true := (sysRegListed_iff n).mpr (by omega)
    have hmonitor : decide (2 < num.toNat) = true := decide_eq_true (by omega)
    have sysTrap : ∀ (func5 : Nat) (body : State → SOut), ∃ e, (s'.tiles[t]).enters e here 0x70030002 (sys func5 d.val n) ∧
        s.sparWord t (wordS func5 d.val num.toNat) (sysRegListed num.toNat) (2 < num.toNat) body = s'.modTile t fun _ => e := by
      intro func5 body
      rw [hlisted, hmonitor, wordS_eq]
      exact h.sparWord_privileged hsound hroom hpl _ body
    exact ⟨trap rfl (sysTrap 2 _), trap rfl (sysTrap 3 _)⟩
  case jump =>
    exact fun ha => ⟨trap rfl (h.sparJr_align hsound hroom ha _), trap rfl (h.sparJr_align hsound hroom ha _)⟩
  case align =>
    simp only [List.forall_mem_cons, List.not_mem_nil, false_implies, implies_true, and_true]
    have load : ∀ {i : Instr} {k : Nat} {put : Nat → Tile → Tile}, exec i s = .next (s.sparLd t a off k par put) → x % k ≠ 0 →
        traps i here 0x70030003 x := fun hi hk => trap hi (h.sparLd_align hsound hroom hk _ _)
    have store : ∀ {i : Instr} {k : Nat} {val : Tile → Nat}, exec i s = .next (s.sparSt t a off k val) → x % k ≠ 0 →
        traps i here 0x70030003 x := fun hi hk => trap hi (h.sparSt_align hsound hroom hk _)
    exact ⟨load rfl, load rfl, load rfl, load rfl, load rfl, load rfl, load rfl, store rfl, store rfl, store rfl, store rfl, store rfl⟩
  case load =>
    intro b
    simp only [List.forall_mem_cons, List.not_mem_nil, false_implies, implies_true, and_true]
    have load : ∀ {i : Instr} {k : Nat} {put : Nat → Tile → Tile}, exec i s = .next (s.sparLd t a off k par put) → x % k = 0 →
        s'.firstBad t .load x k = some b → traps i here 0x50010004 b :=
      fun hi hk hb => trap hi (h.sparLd_window hsound hroom hk hb _ _)
    exact ⟨load rfl, load rfl, load rfl, load rfl, load rfl, load rfl, load rfl, load rfl, load rfl⟩
  case store =>
    intro b
    simp only [List.forall_mem_cons, List.not_mem_nil, false_implies, implies_true, and_true]
    have store : ∀ {i : Instr} {k : Nat} {val : Tile → Nat}, exec i s = .next (s.sparSt t a off k val) → x % k = 0 →
        s'.firstBad t .store x k = some b → traps i here 0x50010004 b :=
      fun hi hk hb => trap hi (h.sparSt_window hsound hroom hk hb _)
    exact ⟨store rfl, store rfl, store rfl, store rfl, store rfl, store rfl⟩

end Sys2Proof.Machine
end

