-- ==== Sys2Proof/Proofs/SystemRegisters.lean ====
section
/-! SUPPORT. MFS and MTS of every system register (R324, R328), and WAIT with its wake-up (R335, R348). -/

namespace Sys2Proof.Machine

set_option Elab.async false

section
variable {s s' : State} {t : TileId}

/-! What a system register reads, and what a write of it leaves (R324). -/

theorem State.sysRead'_wbase (s : State) (t : TileId) (k : Fin 16) : s.sysRead' t (0x10 + k.val) = (s.tiles[t]).wbase[k] := by
  have hk := k.isLt
  have hfin : Fin.ofNat 16 (0x10 + k.val) = k := Fin.ext (by change (0x10 + k.val) % 16 = k.val; omega)
  simp only [State.sysRead', hfin, beq_iff_eq]
  repeat rw [if_neg (by omega)]
  rw [if_pos (by omega)]

theorem State.sysRead'_wlim (s : State) (t : TileId) (k : Fin 16) : s.sysRead' t (0x20 + k.val) = (s.tiles[t]).wlim[k] := by
  have hk := k.isLt
  have hfin : Fin.ofNat 16 (0x20 + k.val) = k := Fin.ext (by change (0x20 + k.val) % 16 = k.val; omega)
  simp only [State.sysRead', hfin, beq_iff_eq]
  repeat rw [if_neg (by omega)]
  rw [if_pos (by omega)]

theorem State.sysRead'_wattr (s : State) (t : TileId) (k : Fin 16) :
    s.sysRead' t (0x30 + k.val) = ((s.tiles[t]).wattr[k]).setWidth 64 := by
  have hk := k.isLt
  have hfin : Fin.ofNat 16 (0x30 + k.val) = k := Fin.ext (by change (0x30 + k.val) % 16 = k.val; omega)
  simp only [State.sysRead', hfin, beq_iff_eq]
  repeat rw [if_neg (by omega)]

theorem cut_eq_and (x : Word) (k : Nat) : BitVec.ofNat 64 (x.toNat / 2 ^ k * 2 ^ k) = x &&& BitVec.allOnes 64 <<< k := by
  have hshift : BitVec.ofNat 64 (x.toNat / 2 ^ k * 2 ^ k) = x >>> k <<< k := by
    apply BitVec.eq_of_toNat_eq
    rw [BitVec.toNat_shiftLeft, BitVec.toNat_ushiftRight, Nat.shiftRight_eq_div_pow, Nat.shiftLeft_eq, BitVec.toNat_ofNat]
  rw [hshift]
  refine BitVec.eq_of_getLsbD_eq fun i hi => ?_
  simp only [BitVec.getLsbD_and, BitVec.getLsbD_shiftLeft, BitVec.getLsbD_ushiftRight, BitVec.getLsbD_allOnes]
  by_cases hik : i < k
  · simp [hik]
  · simp [hik, hi, show k + (i - k) = i by omega, show i - k < 64 by omega]

theorem and_not_0x1F (x : Word) : x &&& ~~~0x1F = BitVec.ofNat 64 (x.toNat / 32 * 32) := (cut_eq_and x 5).symm

theorem and_not_0x3F (x : Word) : x &&& ~~~0x3F = BitVec.ofNat 64 (x.toNat / 64 * 64) := (cut_eq_and x 6).symm

theorem and_not_0xFFF (x : Word) : x &&& ~~~0xFFF = BitVec.ofNat 64 (x.toNat / 4096 * 4096) := (cut_eq_and x 12).symm

theorem bitAt_toNat (x : Word) (i : Nat) : bitAt x.toNat i = x.getLsbD i := bitAt_eq_testBit _ _

theorem extractLsb'_eq_ofNat (x : Word) : x.extractLsb' 3 5 = BitVec.ofNat 5 (x.toNat / 8) := by
  rw [BitVec.extractLsb', Nat.shiftRight_eq_div_pow]

theorem Tile.sysWrite'_status_monitor {c : Tile} (hpl : c.pl = true) (x : Word) :
    c.sysWrite' 0x00 x = { c with im := x.getLsbD 0, pl := x.getLsbD 1, vx := x.getLsbD 2, fx := x.extractLsb' 3 5 } := by
  have h : c.sysWrite' 0x00 x = if c.pl then c.setSt x.toNat else _ := rfl
  rw [h, if_pos hpl, Tile.setSt, extractLsb'_eq_ofNat, bitAt_toNat, bitAt_toNat, bitAt_toNat]

theorem Tile.sysWrite'_status_bundle {c : Tile} (hpl : c.pl = false) (x : Word) :
    c.sysWrite' 0x00 x = { c with fx := x.extractLsb' 3 5 } := by
  have h : c.sysWrite' 0x00 x = if c.pl then _ else { c with fx := BitVec.ofNat 5 (x.toNat / 8) } := rfl
  rw [h, if_neg (ne_true_of_eq_false hpl), extractLsb'_eq_ofNat]

theorem Tile.sysWrite'_msl (c : Tile) (x : Word) : c.sysWrite' 0x09 x = { c with msl := x &&& ~~~0x1F } := by
  rw [and_not_0x1F]
  rfl

theorem Tile.sysWrite'_mvec (c : Tile) (x : Word) : c.sysWrite' 0x0A x = { c with mvec := x &&& ~~~0x3F } := by
  rw [and_not_0x3F]
  rfl

theorem Tile.sysWrite'_wbase (c : Tile) (k : Fin 16) (x : Word) :
    c.sysWrite' (0x10 + k.val) x = { c with wbase := c.wbase.set k (x &&& ~~~0xFFF) } := by
  have hk := k.isLt
  have hfin : Fin.ofNat 16 (0x10 + k.val) = k := Fin.ext (by change (0x10 + k.val) % 16 = k.val; omega)
  simp only [Tile.sysWrite', hfin, beq_iff_eq, Bool.and_eq_true, decide_eq_true_eq]
  repeat rw [if_neg (by omega)]
  rw [if_pos (by omega), and_not_0xFFF]

theorem Tile.sysWrite'_wlim (c : Tile) (k : Fin 16) (x : Word) :
    c.sysWrite' (0x20 + k.val) x = { c with wlim := c.wlim.set k (x &&& ~~~0xFFF) } := by
  have hk := k.isLt
  have hfin : Fin.ofNat 16 (0x20 + k.val) = k := Fin.ext (by change (0x20 + k.val) % 16 = k.val; omega)
  simp only [Tile.sysWrite', hfin, beq_iff_eq, Bool.and_eq_true, decide_eq_true_eq]
  repeat rw [if_neg (by omega)]
  rw [if_pos (by omega), and_not_0xFFF]

theorem Tile.sysWrite'_wattr (c : Tile) (k : Fin 16) (x : Word) :
    c.sysWrite' (0x30 + k.val) x = { c with wattr := c.wattr.set k (x.setWidth 5) } := by
  have hk := k.isLt
  have hfin : Fin.ofNat 16 (0x30 + k.val) = k := Fin.ext (by change (0x30 + k.val) % 16 = k.val; omega)
  simp only [Tile.sysWrite', hfin, beq_iff_eq, Bool.and_eq_true, decide_eq_true_eq]
  repeat rw [if_neg (by omega)]
  rw [if_pos (by omega)]

/-! MFS and MTS. -/

/-- What does not look at the instruction cache is the same of two tiles that agree in all else. -/
theorem Tile.sameCore.congr {α : Type} {c e : Tile} (h : c.sameCore e) (f : Tile → α)
    (hf : ∀ l p, f { c with l1i := l, l1iPlru := p } = f c) : f e = f c := by
  rw [h]
  exact hf _ _

/-- What an instruction that changes only its tile, and does not reset it, comes to. -/
theorem Fetched.retire_modTile (h : Fetched s t s') {f : Tile → Tile} (hf : (f s'.tiles[t]).state ≠ .reset) :
    (SOut.next (s'.modTile t f) []).retire t (s.tiles[t]).pc.toNat = s'.retires t f := by
  have hrun : ((s'.modTile t f).tiles[t]).state ≠ .reset := by rwa [State.modTile_at]
  rw [SOut.retire, State.setPc_of_ne_reset hrun, State.modTile_modTile, State.retires, State.chargeLost, List.foldl_nil]
  refine State.modTile_congr _ _ _ _ ?_
  rw [Tile.past, h.pc_eq]

theorem Tile.sysWrite'_state (c : Tile) (n : Nat) (x : Word) : (c.sysWrite' n x).state = c.state := by
  unfold Tile.sysWrite'
  dsimp only
  split_ifs
  all_goals rfl

section
variable {g : Reg} {num : BitVec 16} {n : Nat} (h : Fetched s t s') (hmode : (s.tiles[t]).pl = true ∨ num.toNat ≤ 2)
  (hlisted : sysRegListed num.toNat = true)
include h hmode hlisted

theorem Fetched.sparWord_sys (word : Nat) (body : State → SOut) :
    s.sparWord t word (sysRegListed num.toNat) (2 < num.toNat) body = (body s').retire t (s.tiles[t]).pc.toNat := by
  rw [hlisted]
  refine h.sparWord_eq (fun hmonitor => ?_) word body
  have hbig := of_decide_eq_true hmonitor
  exact hmode.resolve_right (by omega)

theorem Fetched.exec_mfs {v : Word} (hv : s'.sysRead' t num.toNat = v) :
    exec (.mfs t g num) s = .next (s'.retires t fun c => c.setG g v) := by
  rw [← hv]
  exact congrArg _ ((h.sparWord_sys hmode hlisted _ _).trans (h.retire_modTile h.running))

theorem Fetched.exec_mts {f : Tile → Tile} (hf : (s'.tiles[t]).sysWrite' num.toNat (s.tiles[t]).g[g] = f s'.tiles[t]) :
    exec (.mts t g num) s = .next (s'.retires t f) := by
  refine congrArg _ ((h.sparWord_sys hmode hlisted _ _).trans (Eq.trans (h.retire_modTile ?_) (State.retires_congr _ _ _ _ ?_)))
  · rw [Tile.sysWrite'_state]
    exact h.running
  · rw [← hf, h.g_eq]

end

theorem State.modTile_id (s : State) (t : TileId) : s.modTile t id = s := by
  have hset : s.tiles.set t s.tiles[t] = s.tiles := Vector.set_getElem_self t.isLt
  unfold State.modTile State.modTiles
  simp only [id, hset]

/-! WAIT. -/

theorem Fetched.exec_wait (h : Fetched s t s') (hpl : (s.tiles[t]).pl = true) :
    exec (.wait t) s = .next (s'.retires t fun c => if s'.asyncPending c = 0 then { c with state := .waiting } else c) := by
  by_cases hp : s'.asyncPending s'.tiles[t] = 0
  · have hwaits : (SOut.next (if s'.asyncPending (s'.tiles[t]) == 0 then s'.modTile t fun c => { c with state := .waiting } else s') []) =
        .next (s'.modTile t fun c => { c with state := .waiting }) [] := by rw [if_pos (by simpa using hp)]
    refine congrArg _ ((h.sparWord_eq (fun _ => hpl) (wordS 4 0 0) _).trans ?_)
    rw [hwaits, h.retire_modTile (by simp)]
    exact State.retires_congr _ _ _ _ (if_pos hp).symm
  · have hstays : (SOut.next (if s'.asyncPending (s'.tiles[t]) == 0 then s'.modTile t fun c => { c with state := .waiting } else s') []) =
        .next (s'.modTile t id) [] := by rw [if_neg (by simpa using hp), State.modTile_id]
    refine congrArg _ ((h.sparWord_eq (fun _ => hpl) (wordS 4 0 0) _).trans ?_)
    rw [hstays, h.retire_modTile h.running]
    exact State.retires_congr _ _ _ _ (if_neg hp).symm

theorem State.wakeup_pending (hw : (s.tiles[t]).state = .waiting) (hp : s.asyncPending s.tiles[t] ≠ 0) :
    s.wakeup t = s.modTile t fun c => { c with state := .monitor } := by
  have hzero : (s.asyncPending s.tiles[t] == 0) = false := beq_eq_false_iff_ne.mpr hp
  simp only [State.wakeup, hw, hzero, Bool.false_and, Bool.false_eq_true, bne_self_eq_false, if_false]

/-- With no other event pending, TIMER wakes the tile when TSNOW reaches TCMP. -/
theorem State.wakeup_timer (hw : (s.tiles[t]).state = .waiting) (hp : s.asyncPending s.tiles[t] = 0) (hc : (s.tiles[t]).tcmp ≠ 0)
    (ht : (s.tiles[t]).timerTaken = false) :
    s.wakeup t = (s.advanceTo (s.tiles[t]).tcmp.toNat).modTile t fun c => { c with state := .monitor } := by
  have hadvance : (s.asyncPending s.tiles[t] == 0 && (s.tiles[t]).tcmp != 0 && !(s.tiles[t]).timerTaken) = true := by
    rw [hp, ht]
    simpa using hc
  have hdue : ((s.advanceTo (s.tiles[t]).tcmp.toNat).asyncPending (s.tiles[t]) == 0) = false := by
    have hpending : (s.advanceTo (s.tiles[t]).tcmp.toNat).timerPending (s.tiles[t]) = true := by
      rw [State.timerPending, ht]
      simpa [State.advanceTo] using hc
    rw [State.asyncPending, hpending]
    simp
  simp only [State.wakeup, hw, hadvance, hdue, Bool.false_eq_true, bne_self_eq_false, if_false, if_true]

end

/-- Settles O17: MFS and MTS by the register's number, WAIT and its wake-up by the events that are pending. -/
theorem systemInstructions : Obligations.SystemInstructions := by
  refine ⟨?_, ?_⟩
  · intro s s' t g num k h hmode c x n reads writes
    have hcore := h.sameCore t
    have hk := k.isLt
    have read : ∀ {v : Word}, sysRegListed n = true → s'.sysRead' t n = v → reads v := fun hl hv => h.exec_mfs hmode hl hv
    have write : ∀ {f : Tile → Tile}, sysRegListed n = true → (s'.tiles[t]).sysWrite' n x = f s'.tiles[t] → writes f :=
      fun hl hf => h.exec_mts hmode hl hf
    have hpl : (s'.tiles[t]).pl = c.pl := by rw [hcore]
    refine ⟨fun hn => ?status, fun hn => ?tid, fun hn => ?tsnow, fun hn => ?tcmp, fun hn => ?msp, fun hn => ?msl, fun hn => ?mvec,
      fun hn => ?scrMon, fun hn => ?wbase, fun hn => ?wlim, fun hn => ?wattr⟩
    case status =>
      refine ⟨read (by rw [hn]; rfl) ?_, fun hp => write (by rw [hn]; rfl) ?_, fun hp => write (by rw [hn]; rfl) ?_⟩
      · have hst : (s'.tiles[t]).st = c.im.toNat + 2 * c.pl.toNat + 4 * c.vx.toNat + 8 * c.fx.toNat := by
          rw [hcore, Tile.st, mul_comm 2, mul_comm 4, mul_comm 8]
        rw [hn, ← hst]
        rfl
      · rw [hn, Tile.sysWrite'_status_monitor (hpl.trans hp)]
      · rw [hn, Tile.sysWrite'_status_bundle (hpl.trans hp)]
    case tid => exact ⟨read (by rw [hn]; rfl) (by rw [hn]; rfl), write (by rw [hn]; rfl) (by rw [hn]; rfl)⟩
    case tsnow => exact ⟨read (by rw [hn]; rfl) (by rw [hn]; rfl), write (by rw [hn]; rfl) (by rw [hn]; rfl)⟩
    case tcmp => exact ⟨read (by rw [hn]; rfl) (by rw [hn]; exact hcore.congr Tile.tcmp fun _ _ => rfl), write (by rw [hn]; rfl) (by rw [hn]; rfl)⟩
    case msp => exact ⟨read (by rw [hn]; rfl) (by rw [hn]; exact hcore.congr Tile.msp fun _ _ => rfl), write (by rw [hn]; rfl) (by rw [hn]; rfl)⟩
    case msl =>
      exact ⟨read (by rw [hn]; rfl) (by rw [hn]; exact hcore.congr Tile.msl fun _ _ => rfl),
        write (by rw [hn]; rfl) (by rw [hn, Tile.sysWrite'_msl])⟩
    case mvec =>
      exact ⟨read (by rw [hn]; rfl) (by rw [hn]; exact hcore.congr Tile.mvec fun _ _ => rfl),
        write (by rw [hn]; rfl) (by rw [hn, Tile.sysWrite'_mvec])⟩
    case scrMon =>
      exact ⟨read (by rw [hn]; rfl) (by rw [hn]; exact hcore.congr (fun c : Tile => c.scrMon.setWidth 64) fun _ _ => rfl),
        write (by rw [hn]; rfl) (by rw [hn]; rfl)⟩
    case wbase =>
      have hl : sysRegListed n = true := (sysRegListed_iff n).mpr (by omega)
      exact ⟨read hl (by rw [hn, State.sysRead'_wbase]; exact hcore.congr (fun c : Tile => c.wbase[k]) fun _ _ => rfl),
        write hl (by rw [hn, Tile.sysWrite'_wbase])⟩
    case wlim =>
      have hl : sysRegListed n = true := (sysRegListed_iff n).mpr (by omega)
      exact ⟨read hl (by rw [hn, State.sysRead'_wlim]; exact hcore.congr (fun c : Tile => c.wlim[k]) fun _ _ => rfl),
        write hl (by rw [hn, Tile.sysWrite'_wlim])⟩
    case wattr =>
      have hl : sysRegListed n = true := (sysRegListed_iff n).mpr (by omega)
      exact ⟨read hl (by rw [hn, State.sysRead'_wattr]; exact hcore.congr (fun c : Tile => (c.wattr[k]).setWidth 64) fun _ _ => rfl),
        write hl (by rw [hn, Tile.sysWrite'_wattr])⟩
  · intro s s' t
    refine ⟨fun h hpl => ?wait, fun h => ?fence, fun hw hp => ?wakes, fun hw hp hc ht => ?timer⟩
    case wait => exact h.exec_wait hpl
    case fence =>
      refine congrArg Host.Outcome.next ((h.spar_skip (body := fun s => .next s []) rfl).trans ?_)
      rw [State.retires]
      refine State.modTile_congr _ _ _ _ ?_
      rw [Tile.past, h.pc_eq, id]
    case wakes => exact congrArg Host.Outcome.next (State.wakeup_pending hw hp)
    case timer =>
      refine ⟨_, congrArg Host.Outcome.next (State.wakeup_timer hw hp hc ht), rfl, ?_⟩
      rw [State.modTile_at]
      rfl

end Sys2Proof.Machine
end

