-- ==== Sys2Proof/Proofs/CacheTraffic.lean ====
section
/-! SUPPORT. Accesses through the caches: what no view but those of memory, of the caches and of their counters can see, and what a store leaves of the tiles. -/

namespace Sys2Proof.Machine

set_option Elab.async false

/-! A view of the state that does not see memory, the caches or their counters: no access to memory changes it. -/

/-- What a write to device memory changes of the controllers' state: the channels, and which lines are POISONED. -/
def DramSt.touch (f : Vector MemChan 8 × NMap Unit → Vector MemChan 8 × NMap Unit) (d : DramSt) : DramSt :=
  { d with chans := (f (d.chans, d.poison)).1, poison := (f (d.chans, d.poison)).2 }

/-- A view that no write to device memory, no change of a cache and no change of a statistics counter changes. -/
structure CacheBlind {γ : Type} (g : State → γ) : Prop where
  modMem : ∀ s f, g (s.modMem f) = g s
  modDram : ∀ s f, g (s.modDram (DramSt.touch f)) = g s
  modSlice : ∀ s i f, g (s.modSlice i f) = g s
  modTile : ∀ s t f, g (s.modTile t f) = g s
  bump : ∀ s i j n, g (s.bump i j n) = g s

section
variable {γ : Type} {g : State → γ} (hg : CacheBlind g)
include hg

theorem CacheBlind.storeByte (s : State) (a : Nat) (b : Byte) : g (s.storeByte a b) = g s := by
  unfold State.storeByte
  split
  · rfl
  · exact hg.modMem s _

theorem CacheBlind.storeBytes (s : State) (a : Nat) (bs : Bytes) : g (s.storeBytes a bs) = g s := by
  have hfold := fun l => foldl_keeps g _ (fun s (x : Byte × Nat) => hg.storeByte s (a + x.2) x.1) l s
  unfold State.storeBytes
  dsimp only
  split
  · exact hfold _
  · exact (hg.modDram _ fun p => (p.1, (wholeLines a bs.length).foldl (fun p l => ndel p l) p.2)).trans (hfold _)

theorem CacheBlind.drainChan (s : State) (m : Fin 8) (which : QWrite → Bool) (k : Nat) : g (s.drainChan m which k) = g s := by
  unfold State.drainChan
  dsimp only
  generalize ((s.dram.chans[m]).writes.filter which).length - k = n
  refine (foldl_keeps g _ ?_ _ _).trans
    (hg.modDram s fun p => (p.1.set m { p.1[m] with writes := dropWrites which n (p.1[m]).writes }, p.2))
  intro s w
  exact hg.storeBytes s w.addr w.data

theorem CacheBlind.dramWrite (s : State) (a : Nat) (bs : Bytes) : g (s.dramWrite a bs) = g s := by
  unfold State.dramWrite State.drainAll
  rw [hg.storeBytes]
  refine foldl_keeps g _ ?_ _ _
  intro s m
  exact hg.drainChan s m _ 0

theorem CacheBlind.writeBack (s : State) (x : TLine) : g (s.writeBack x) = g s := by
  unfold State.writeBack
  split
  · rfl
  · refine foldl_keeps g _ ?_ _ _
    intro s p
    exact hg.dramWrite s p.1 p.2

theorem CacheBlind.thFill (s : State) (x : TLine) (stream : Bool) : g (s.thFill x stream) = g s := by
  unfold State.thFill
  dsimp only
  rw [hg.modSlice]
  split
  · exact hg.writeBack s _
  · rfl

theorem CacheBlind.thRead (s : State) (l : Nat) (stream : Bool) : g (s.thRead l stream).2 = g s := by
  unfold State.thRead
  dsimp only
  split
  · rfl
  · split
    · dsimp only
      exact hg.modSlice s _ _
    · split
      · rfl
      · exact hg.thFill s _ _

theorem CacheBlind.thThrough (s : State) (a : Nat) (bs : Bytes) : g (s.thThrough a bs) = g s := by
  unfold State.thThrough
  dsimp only
  rw [hg.dramWrite]
  split
  · rfl
  · split
    · exact hg.modSlice s _ _
    · rfl

theorem CacheBlind.thDirty (s : State) (a : Nat) (bs : Bytes) (r : Nat) : g (s.thDirty a bs r) = g s := by
  unfold State.thDirty
  dsimp only
  split
  · exact hg.thThrough s a bs
  · split
    · rw [hg.thThrough, hg.thRead]
    · split
      · rw [hg.modSlice, hg.thRead]
      · rw [hg.thThrough, hg.thRead]

theorem CacheBlind.l1WriteBack (s : State) (x : L1Line) : g (s.l1WriteBack x) = g s := by
  unfold State.l1WriteBack
  refine foldl_keeps g _ ?_ _ _
  intro s j
  split
  · split
    · exact hg.thDirty s _ _ _
    · exact hg.thThrough s _ _
  · rfl

theorem CacheBlind.l1Place (s : State) (t : TileId) (x : L1Line) : g (s.l1Place t x) = g s := by
  unfold State.l1Place
  dsimp only
  rw [hg.modTile]
  split
  · exact hg.l1WriteBack s _
  · rfl

theorem CacheBlind.l1Ensure (s : State) (t : TileId) (line : Nat) : g (s.l1Ensure t line).2 = g s := by
  unfold State.l1Ensure
  split
  · dsimp only
    exact hg.modTile s _ _
  · dsimp only
    split
    · rw [hg.l1Place, hg.bump]
    · exact hg.l1Place s _ _

theorem CacheBlind.l1Sector (s : State) (t : TileId) (line j : Nat) : g (s.l1Sector t line j).2 = g s := by
  unfold State.l1Sector
  extract_lets held a
  split
  · exact hg.l1Ensure s t line
  · have hread := hg.thRead s (a / 64) false
    generalize s.thRead (a / 64) false = r at hread ⊢
    obtain ⟨_ | d, s₁⟩ := r
    · exact hread
    · dsimp only
      exact (hg.modTile _ _ _).trans ((hg.l1Ensure s₁ t line).trans hread)

theorem CacheBlind.l1Through (s : State) (t : TileId) (a : Nat) (bs : Bytes) : g (s.l1Through t a bs) = g s := by
  unfold State.l1Through
  dsimp only
  rw [hg.thThrough, hg.modTile]

theorem CacheBlind.l1CleanAt (s : State) (t : TileId) (k : Nat) : g (s.l1CleanAt t k) = g s := by
  unfold State.l1CleanAt
  split
  · rw [hg.modTile, hg.l1WriteBack]
  · rfl

theorem CacheBlind.l1Write (s : State) (t : TileId) (a : Nat) (bs : Bytes) : g (s.l1Write t a bs) = g s := by
  unfold State.l1Write
  extract_lets line j
  split
  · exact hg.l1Through s t a bs
  · split
    · exact hg.l1Through s t a bs
    · have hsector : g (if (bs.length == 32) = true then (true, s) else s.l1Sector t line j).2 = g s := by
        split
        · rfl
        · exact hg.l1Sector s t line j
      generalize (if (bs.length == 32) = true then (true, s) else s.l1Sector t line j) = r at hsector ⊢
      obtain ⟨ok, s₁⟩ := r
      dsimp only at hsector ⊢
      split
      · exact (hg.l1Through s₁ t a bs).trans hsector
      · have hensure := (hg.l1Ensure s₁ t line).trans hsector
        generalize s₁.l1Ensure t line = e at hensure ⊢
        obtain ⟨k, s₂⟩ := e
        dsimp only at hensure ⊢
        rw [hg.modTile]
        split
        · split
          · exact (hg.l1CleanAt s₂ t _).trans hensure
          · exact hensure
        · exact hensure

theorem CacheBlind.dramPut (s : State) (t : TileId) (a : Nat) (bs : Bytes) : g (s.dramPut t a bs) = g s := by
  unfold State.dramPut
  refine foldl_keeps g _ ?_ _ _
  intro s c
  exact hg.l1Write s t c.1 _

end

theorem battenCacheBlind : CacheBlind State.batten :=
  ⟨fun _ _ => rfl, fun _ _ => rfl, fun _ _ _ => rfl, fun _ _ _ => rfl, fun _ _ _ _ => rfl⟩

/-! What a store to device memory leaves of the tiles. -/

theorem State.l1CleanAt_sameData (s : State) (t : TileId) (k : Nat) : s.SameData (s.l1CleanAt t k) := by
  unfold State.l1CleanAt
  split
  · exact (State.SameData.of_tiles (s.l1WriteBack_tiles _)).modTile fun _ => by rfl
  · exact State.SameData.refl s

theorem State.l1Write_sameData (s : State) (t : TileId) (a : Nat) (bs : Bytes) : s.SameData (s.l1Write t a bs) := by
  unfold State.l1Write
  extract_lets line j
  split
  · exact s.l1Through_sameData t a bs
  · split
    · exact s.l1Through_sameData t a bs
    · have hsector : s.SameData (if (bs.length == 32) = true then (true, s) else s.l1Sector t line j).2 := by
        split
        · exact State.SameData.refl s
        · exact s.l1Sector_sameData t line j
      generalize (if (bs.length == 32) = true then (true, s) else s.l1Sector t line j) = r at hsector ⊢
      obtain ⟨ok, s₁⟩ := r
      dsimp only at hsector ⊢
      split
      · exact hsector.trans (s₁.l1Through_sameData t a bs)
      · have hensure := hsector.trans (s₁.l1Ensure_sameData t line)
        generalize s₁.l1Ensure t line = e at hensure ⊢
        obtain ⟨k, s₂⟩ := e
        dsimp only at hensure ⊢
        refine State.SameData.modTile ?_ fun _ => by rfl
        split
        · split
          · exact hensure.trans (s₂.l1CleanAt_sameData t _)
          · exact hensure
        · exact hensure

theorem State.dramPut_sameData (s : State) (t : TileId) (a : Nat) (bs : Bytes) : s.SameData (s.dramPut t a bs) := by
  unfold State.dramPut
  generalize cuts 32 (bs.length + 1) a bs.length = l
  induction l generalizing s with
  | nil => exact State.SameData.refl s
  | cons c l ih => exact (s.l1Write_sameData t c.1 _).trans (ih _)

end Sys2Proof.Machine
end

