-- ==== Sys2Proof/Proofs/AsynchronousEvents.lean ====
section
/-! SUPPORT. Asynchronous events (R343): which is accepted, and what its entry into the monitor leaves. -/

namespace Sys2Proof.Machine

set_option Elab.async false

section
variable {s : State} {t : TileId}

/-- An event that is accepted where a frame fits above MSL enters the monitor. -/
theorem State.acceptEvent_eq {clear : Tile → Tile} (hroom : (clear s.tiles[t]).roomy) (no value : Nat) :
    s.acceptEvent t no value clear = s.modTile t fun c => (clear c).enter c.pc no value := by
  obtain ⟨hgood, hfits⟩ := hroom
  have hat : (s.modTile t clear).tiles[t] = clear s.tiles[t] := s.modTile_at t clear
  rw [State.acceptEvent, State.takeException_eq, hat, if_neg (not_not.mpr hgood), if_pos hfits, State.modTile_modTile]
  exact State.modTile_congr _ _ _ _ rfl

/-- A pending event is accepted where the tile executes with IM 0 and none before it in the order is pending. -/
theorem State.accepts_of_first (hruns : s.sparRuns t = true) (him : (s.tiles[t]).im = false) {bit : Nat}
    (hbit : bitAt (s.asyncPending s.tiles[t]) bit = true) (hfirst : s.asyncPending s.tiles[t] % 2 ^ bit = 0) : s.accepts t bit = true := by
  rw [State.accepts, hruns, him, hbit, hfirst]
  rfl

section
variable (hruns : s.sparRuns t = true) (him : (s.tiles[t]).im = false)
include hruns him

theorem State.accepts_preempt (hp : (s.tiles[t]).pendPreempt = true) : s.accepts t 0 = true := by
  refine State.accepts_of_first hruns him ?_ (Nat.mod_one _)
  rw [bitAt, State.asyncPending, hp, beq_iff_eq, Bool.toNat_true]
  omega

theorem State.accepts_dispatch (hp : (s.tiles[t]).pendPreempt = false) (hd : (s.tiles[t]).pendDispatch = true) : s.accepts t 1 = true := by
  refine State.accepts_of_first hruns him ?_ ?_
  · rw [bitAt, State.asyncPending, hp, hd, beq_iff_eq, Bool.toNat_true, Bool.toNat_false]
    omega
  · rw [State.asyncPending, hp, Bool.toNat_false]
    omega

theorem State.accepts_unit (hp : (s.tiles[t]).pendPreempt = false) (hd : (s.tiles[t]).pendDispatch = false)
    (hu : (s.tiles[t]).unitSrc &&& (s.tiles[t]).unitEnable ≠ 0) : s.accepts t 2 = true := by
  have hu' : ((s.tiles[t]).unitSrc &&& (s.tiles[t]).unitEnable != 0) = true := bne_iff_ne.mpr hu
  refine State.accepts_of_first hruns him ?_ ?_
  · rw [bitAt, State.asyncPending, hp, hd, hu', beq_iff_eq, Bool.toNat_true, Bool.toNat_false]
    omega
  · rw [State.asyncPending, hp, hd, Bool.toNat_false]
    omega

theorem State.accepts_timer (hp : (s.tiles[t]).pendPreempt = false) (hd : (s.tiles[t]).pendDispatch = false)
    (hu : ¬(s.tiles[t]).unitSrc &&& (s.tiles[t]).unitEnable ≠ 0) (htimer : s.timerPending s.tiles[t] = true) : s.accepts t 3 = true := by
  have hu' : ((s.tiles[t]).unitSrc &&& (s.tiles[t]).unitEnable != 0) = false := by simpa using hu
  have hpending : s.asyncPending s.tiles[t] = 8 := by
    rw [State.asyncPending, hp, hd, hu', htimer]
    rfl
  exact State.accepts_of_first hruns him (by rw [hpending]; rfl) (by rw [hpending]; rfl)

end

/-- TSNOW reaches TCMP, and TIMER is accepted. -/
theorem State.acceptTimer_eq (hruns : s.sparRuns t = true) (him : (s.tiles[t]).im = false) (hroom : (s.tiles[t]).roomy)
    (hp : (s.tiles[t]).pendPreempt = false) (hd : (s.tiles[t]).pendDispatch = false)
    (hu : ¬(s.tiles[t]).unitSrc &&& (s.tiles[t]).unitEnable ≠ 0) (hc : (s.tiles[t]).tcmp ≠ 0) (ht : (s.tiles[t]).timerTaken = false) :
    s.acceptTimer t = (s.advanceTo (s.tiles[t]).tcmp.toNat).modTile t fun c =>
      { c with timerTaken := true }.enter c.pc 0x13 (max s.time.ts (s.tiles[t]).tcmp.toNat) := by
  have hadvance : ((s.tiles[t]).tcmp != 0 && !(s.tiles[t]).timerTaken) = true := by
    rw [ht]
    simpa using hc
  have hdue : (s.advanceTo (s.tiles[t]).tcmp.toNat).timerPending (s.tiles[t]) = true := by
    rw [State.timerPending, ht]
    simpa [State.advanceTo] using hc
  have haccepts : (s.advanceTo (s.tiles[t]).tcmp.toNat).accepts t 3 = true := State.accepts_timer hruns him hp hd hu hdue
  rw [State.acceptTimer, if_pos hadvance, if_pos haccepts, State.acceptEvent_eq hroom]
  rfl

/-! What a record of the execution trace and the saving of a context leave. -/

theorem State.sysWrite_tiles (s : State) (a : Nat) (bs : Bytes) : (s.sysWrite a bs).tiles = s.tiles := by
  unfold State.sysWrite
  refine foldl_keeps State.tiles _ ?_ _ _
  intro s c
  dsimp only
  split
  · exact s.thDirty_tiles _ _ _
  · exact s.thThrough_tiles _ _

theorem CacheBlind.sysWrite {γ : Type} {g : State → γ} (hg : CacheBlind g) (s : State) (a : Nat) (bs : Bytes) : g (s.sysWrite a bs) = g s := by
  unfold State.sysWrite
  refine foldl_keeps g _ ?_ _ _
  intro s c
  dsimp only
  split
  · exact hg.thDirty s _ _ _
  · exact hg.thThrough s _ _

theorem State.ringWrite_tiles (s : State) (r : RingRegs) (bs : Bytes) : (s.ringWrite r bs).tiles = s.tiles := by
  unfold State.ringWrite
  split
  · rfl
  · exact s.sysWrite_tiles _ _

theorem State.ringWrite_batten (s : State) (r : RingRegs) (bs : Bytes) : (s.ringWrite r bs).batten = s.batten := by
  unfold State.ringWrite
  split
  · rfl
  · exact battenCacheBlind.sysWrite s _ _

theorem State.trace_tiles (s : State) (event tile : Nat) (d : BDesc) (status : Nat) (hit : Bool) :
    (s.trace event tile d status hit).tiles = s.tiles := by
  unfold State.trace
  extract_lets r full mode
  split
  · rfl
  · split
    · rfl
    · exact State.ringWrite_tiles _ r _

theorem State.trace_sched (s : State) (event tile : Nat) (d : BDesc) (status : Nat) (hit : Bool) :
    (s.trace event tile d status hit).batten.tiles = s.batten.tiles := by
  unfold State.trace
  extract_lets r full mode
  split
  · rfl
  · split
    · rfl
    · dsimp only [State.modBatten]
      rw [State.ringWrite_batten]
      rfl

theorem State.tileTo_tiles (s : State) (t : TileId) (x : TileState) : (s.tileTo t x).tiles = s.tiles := by
  unfold State.tileTo
  dsimp only
  split <;> rfl

theorem State.tileTo_sched (s : State) (t : TileId) (x : TileState) :
    (s.tileTo t x).batten.tiles[t] = { s.batten.tiles[t] with state := x, changed := s.time.ts } := by
  unfold State.tileTo
  dsimp only
  split
  · simp [State.modSched]
  · simp [State.modSched, State.modCourseStat]

/-- Saving a context is up to three stores of the tile, and a note in the Batten. -/
theorem State.saveContext_eq (s : State) (t : TileId) (d : BDesc) :
    s.saveContext t d = s ∨ ∃ (b₁ b₂ : Bool) (a : Nat) (bs₀ bs₁ bs₂ : Bytes) (f : TileSched → TileSched),
      (∀ y, (f y).state = y.state) ∧
      s.saveContext t d =
        (let s := (s.modFreeCtr (· + 1)).modFreeCtr (· + 1)
         let s := s.dramPut t a bs₀
         let s := if b₁ then s.dramPut t (a + 0x200) bs₁ else s
         let s := if b₂ then s else s.dramPut t (a + 0xA00) bs₂
         s.modSched t f) := by
  unfold State.saveContext
  extract_lets room c
  split
  · exact .inl rfl
  · refine .inr ⟨c.vx, room == 0, d.contextAddr, _, _, _, _, ?_, rfl⟩
    exact fun _ => rfl

theorem State.saveContext_sameData (s : State) (t : TileId) (d : BDesc) : s.SameData (s.saveContext t d) := by
  obtain h | ⟨b₁, b₂, a, bs₀, bs₁, bs₂, f, -, h⟩ := s.saveContext_eq t d
  · rw [h]
    exact State.SameData.refl s
  · rw [h]
    extract_lets s₁ s₂ s₃ s₄
    have h₁ : s.SameData s₁ := State.SameData.of_tiles rfl
    have h₂ : s.SameData s₂ := h₁.trans (s₁.dramPut_sameData t _ _)
    have h₃ : s.SameData s₃ := by
      cases b₁ with
      | true => exact h₂.trans (s₂.dramPut_sameData t _ _)
      | false => exact h₂
    have h₄ : s.SameData s₄ := by
      cases b₂ with
      | true => exact h₃
      | false => exact h₃.trans (s₃.dramPut_sameData t _ _)
    exact h₄.trans (State.SameData.of_tiles rfl)

theorem State.saveContext_sched (s : State) (t : TileId) (d : BDesc) :
    ((s.saveContext t d).batten.tiles[t]).state = (s.batten.tiles[t]).state := by
  obtain h | ⟨b₁, b₂, a, bs₀, bs₁, bs₂, f, hf, h⟩ := s.saveContext_eq t d
  · rw [h]
  · rw [h]
    extract_lets s₁ s₂ s₃ s₄
    have h₂ : s₂.batten = s.batten := battenCacheBlind.dramPut s₁ t _ _
    have h₃ : s₃.batten = s.batten := by
      cases b₁ with
      | true => exact (battenCacheBlind.dramPut s₂ t _ _).trans h₂
      | false => exact h₂
    have h₄ : s₄.batten = s.batten := by
      cases b₂ with
      | true => exact h₃
      | false => exact (battenCacheBlind.dramPut s₃ t _ _).trans h₃
    have hat : (s₄.modSched t f).batten.tiles[t] = f s₄.batten.tiles[t] := by simp [State.modSched]
    rw [hat, hf, h₄]

/-- The tile once it took PREEMPT, where a frame fits above MSL. -/
def Tile.preempted (c : Tile) : Tile := { c with pendPreempt := false }.enter c.pc 0x10 0

/-- The Batten makes the tile SAVING, with an entry in the execution trace. -/
def State.makeSaving (s : State) (t : TileId) (d : BDesc) : State :=
  ((s.tileTo t .saving).modSched t fun y => { y with preemptAt := s.time.ts }).trace 4 t.val d 0 false

theorem State.makeSaving_tiles (s : State) (t : TileId) (d : BDesc) : (s.makeSaving t d).tiles = s.tiles :=
  (State.trace_tiles _ _ _ _ _ _).trans (s.tileTo_tiles t _)

theorem State.makeSaving_sched (s : State) (t : TileId) (d : BDesc) : ((s.makeSaving t d).batten.tiles[t]).state = .saving := by
  rw [State.makeSaving, State.trace_sched]
  have hat : ∀ (x : State) (f : TileSched → TileSched), (x.modSched t f).batten.tiles[t] = f x.batten.tiles[t] := by
    intro x f
    simp [State.modSched]
  rw [hat]
  exact congrArg TileSched.state (s.tileTo_sched t .saving)

section
variable (haccepts : s.accepts t 0 = true) (hroom : (s.tiles[t]).roomy)
include haccepts hroom

/-- PREEMPT accepted: the monitor is entered, and a tile that the Batten pre-empts is SAVING with its context saved. -/
theorem State.acceptPreempt_eq :
    s.acceptPreempt t =
      match (s.batten.tiles[t]).desc with
      | some d =>
        if (s.batten.tiles[t]).state != .preempting then s.modTile t Tile.preempted else
        if (((s.modTile t Tile.preempted).makeSaving t d).tiles[t]).state == .monitor then
          ((s.modTile t Tile.preempted).makeSaving t d).saveContext t d
        else (s.modTile t Tile.preempted).makeSaving t d
      | none => s.modTile t Tile.preempted := by
  rw [State.acceptPreempt, haccepts, State.acceptEvent_eq hroom]
  rfl

/-- PREEMPT of a tile that the Batten is not pre-empting only enters the monitor. -/
theorem State.acceptPreempt_other (hother : (s.batten.tiles[t]).state ≠ .preempting) :
    s.acceptPreempt t = s.modTile t Tile.preempted := by
  rw [State.acceptPreempt_eq haccepts hroom]
  split
  · exact if_pos (bne_iff_ne.mpr hother)
  · rfl

/-- PREEMPT of a tile without a descriptor only enters the monitor. -/
theorem State.acceptPreempt_none (hnone : (s.batten.tiles[t]).desc = none) :
    s.acceptPreempt t = s.modTile t Tile.preempted := by
  rw [State.acceptPreempt_eq haccepts hroom, hnone]

/-- PREEMPT of a tile that the Batten is pre-empting: SAVING, and of the tile only the data cache changes besides. -/
theorem State.acceptPreempt_saving {d : BDesc} (hdesc : (s.batten.tiles[t]).desc = some d) (hstate : (s.batten.tiles[t]).state = .preempting) :
    (s.modTile t Tile.preempted).SameData (s.acceptPreempt t) ∧ ((s.acceptPreempt t).batten.tiles[t]).state = .saving := by
  have hsame : (s.modTile t Tile.preempted).SameData ((s.modTile t Tile.preempted).makeSaving t d) :=
    State.SameData.of_tiles (State.makeSaving_tiles _ _ _)
  have hsched := (s.modTile t Tile.preempted).makeSaving_sched t d
  rw [State.acceptPreempt_eq haccepts hroom, hdesc, hstate]
  dsimp only
  rw [if_neg (by decide)]
  split
  · exact ⟨hsame.trans (State.saveContext_sameData _ _ _), (State.saveContext_sched _ _ _).trans hsched⟩
  · exact ⟨hsame, hsched⟩

end

end

/-- Settles O18: the order of the events makes the first pending one the one accepted, and each enters the monitor as R338 says. -/
theorem asynchronousEvents : Obligations.AsynchronousEvents := by
  intro s t hsound hruns him hroom c unit takes
  have hwf : Memory.wf c.scratch = true := hsound.2 t
  have take : ∀ {i : Instr} {u : State} {c' : Tile} {cause value : Nat}, exec i s = .next u → Memory.wf c'.scratch = true → c'.pushGood →
      u.tiles[t] = c'.enter c.pc cause value → takes i c' cause value := by
    intro i u c' cause value hi hwf' hgood hu
    exact ⟨u, hi, hu ▸ Tile.enters_enter hwf' hgood c.pc cause value⟩
  refine ⟨fun hp => ?preempt, fun hp hd => ?dispatch, fun hp hd hu => ?unit, fun hp hd hu hc ht => ?timer⟩
  case preempt =>
    have haccepts := State.accepts_preempt hruns him hp
    have henters : ({ c with pendPreempt := false } : Tile).enters c.preempted c.pc 0x10 0 :=
      Tile.enters_enter (c := { c with pendPreempt := false }) hwf hroom.1 _ _ _
    have hat : (s.modTile t Tile.preempted).tiles[t] = c.preempted := s.modTile_at t _
    refine ⟨_, c.preempted, rfl, henters, ?_⟩
    by_cases hstate : (s.batten.tiles[t]).state = .preempting
    · cases hdesc : (s.batten.tiles[t]).desc with
      | none =>
        rw [State.acceptPreempt_none haccepts hroom hdesc, hat]
        exact ⟨Tile.sameData.refl _, fun _ => rfl, fun _ h => absurd h (by decide)⟩
      | some d =>
        obtain ⟨hdata, hsaving⟩ := State.acceptPreempt_saving haccepts hroom hdesc hstate
        refine ⟨?_, fun h => absurd hstate h, fun _ _ => hsaving⟩
        rw [← hat]
        exact hdata t
    · rw [State.acceptPreempt_other haccepts hroom hstate, hat]
      exact ⟨Tile.sameData.refl _, fun _ => rfl, fun h => absurd h hstate⟩
  case dispatch =>
    refine take (congrArg Host.Outcome.next (if_pos (State.accepts_dispatch hruns him hp hd))) hwf hroom.1 ?_
    rw [State.acceptEvent_eq hroom, State.modTile_at]
  case unit =>
    refine take (congrArg Host.Outcome.next (if_pos (State.accepts_unit hruns him hp hd hu))) hwf hroom.1 ?_
    rw [State.acceptEvent_eq hroom, State.modTile_at]
    rfl
  case timer =>
    refine take (congrArg Host.Outcome.next (State.acceptTimer_eq hruns him hroom hp hd hu hc ht)) hwf hroom.1 ?_
    rw [State.modTile_at]
    rfl

end Sys2Proof.Machine
end

