-- ==== Sys2Proof/Proofs/VectorElements.lean ====
section
/-! SUPPORT. Vector instructions: when their words are legal (R334, R359), elements of a register (R354), and what the active ones take and the others keep (R358). -/

namespace Sys2Proof.Machine

set_option Elab.async false

/-! The fields of a vector instruction's word, and that it is legal (R334, R359). -/

section
variable {major func d a b m ew : Nat} (z : Bool) (hf : func < 32) (hd : d < 32) (ha : a < 32) (hb : b < 32) (hm : m < 8) (hew : ew < 4)
include hf hd ha hb hm hew

theorem wMajor_wordV (hmajor : major < 64) : wMajor (wordV major func d a b m z ew) = major := by
  have hz := z.toNat_le
  unfold wMajor bitsOf wordV
  omega

theorem wD_wordV : wD (wordV major func d a b m z ew) = d := by
  have hz := z.toNat_le
  unfold wD bitsOf wordV
  omega

theorem wA_wordV : wA (wordV major func d a b m z ew) = a := by
  have hz := z.toNat_le
  unfold wA bitsOf wordV
  omega

theorem wB_wordV : wB (wordV major func d a b m z ew) = b := by
  have hz := z.toNat_le
  unfold wB bitsOf wordV
  omega

theorem wordV_func : wordV major func d a b m z ew % 32 = func := by
  have hz := z.toNat_le
  unfold wordV
  omega

theorem wordV_ew : bitsOf (wordV major func d a b m z ew) 6 5 = ew := by
  have hz := z.toNat_le
  unfold bitsOf wordV
  omega

theorem wordV_m : bitsOf (wordV major func d a b m z ew) 10 8 = m := by
  have hz := z.toNat_le
  unfold bitsOf wordV
  omega

theorem wordV_z : bitAt (wordV major func d a b m z ew) 7 = z := by
  have hz : (wordV major func d a b m z ew) / 2 ^ 7 % 2 = z.toNat := by
    have hz := z.toNat_le
    unfold wordV
    omega
  rw [bitAt, hz]
  cases z <;> rfl

end

section
variable {func d a b m ew : Nat} (z : Bool) (hd : d < 32) (ha : a < 32) (hb : b < 32) (hm : m < 8) (hew : ew < 4)
include hd ha hb hm hew

theorem vecLegal_int (hf : func ≤ 19) (hab : func < 17 ∨ b = 0) : vecLegal (wordV 0x30 func d a b m z ew) = true := by
  have hf' : func < 32 := by omega
  simp only [vecLegal, wMajor_wordV z hf' hd ha hb hm hew (show 0x30 < 64 by decide), wordV_func z hf' hd ha hb hm hew, wB_wordV z hf' hd ha hb hm hew,
    Bool.and_eq_true, Bool.or_eq_true, decide_eq_true_eq, beq_iff_eq]
  exact ⟨hf, hab⟩

theorem vecLegal_float (hf : func ≤ 8) (hew2 : 2 ≤ ew) (hab : func ≠ 4 ∨ b = 0) : vecLegal (wordV 0x31 func d a b m z ew) = true := by
  have hf' : func < 32 := by omega
  simp only [vecLegal, wMajor_wordV z hf' hd ha hb hm hew (show 0x31 < 64 by decide), wordV_func z hf' hd ha hb hm hew, wB_wordV z hf' hd ha hb hm hew,
    wordV_ew z hf' hd ha hb hm hew, Bool.and_eq_true, Bool.or_eq_true, decide_eq_true_eq, beq_iff_eq, bne_iff_ne]
  exact ⟨⟨hf, hew2⟩, hab⟩

theorem vecLegal_compare (hf : func ≤ 10) (hd8 : d < 8) (hfp : func < 6 ∨ 2 ≤ ew) : vecLegal (wordV 0x32 func d a b m z ew) = true := by
  have hf' : func < 32 := by omega
  simp only [vecLegal, wMajor_wordV z hf' hd ha hb hm hew (show 0x32 < 64 by decide), wordV_func z hf' hd ha hb hm hew, wD_wordV z hf' hd ha hb hm hew,
    wordV_ew z hf' hd ha hb hm hew, Bool.and_eq_true, Bool.or_eq_true, decide_eq_true_eq]
  exact ⟨⟨hf, hd8⟩, hfp⟩

theorem vecLegal_permute (hf : func ≤ 10) (hab : func = 1 ∨ func = 3 ∨ b = 0) (hz : func ≠ 2 ∨ z = false) (hfp : func ≠ 10 ∨ 2 ≤ ew) :
    vecLegal (wordV 0x34 func d a b m z ew) = true := by
  have hf' : func < 32 := by omega
  simp only [vecLegal, wMajor_wordV z hf' hd ha hb hm hew (show 0x34 < 64 by decide), wordV_func z hf' hd ha hb hm hew, wB_wordV z hf' hd ha hb hm hew,
    wordV_ew z hf' hd ha hb hm hew, wordV_z z hf' hd ha hb hm hew, Bool.and_eq_true, Bool.or_eq_true, decide_eq_true_eq, beq_iff_eq,
    bne_iff_ne, Bool.not_eq_true', or_assoc]
  exact ⟨⟨⟨hf, hab⟩, hz⟩, hfp⟩

/-- A mask instruction on two masks. -/
theorem vecLegal_maskOp (hf : func ≤ 3) (hd8 : d < 8) (ha8 : a < 8) (hb8 : b < 8) : vecLegal (wordV 0x35 func d a b m z ew) = true := by
  have hf' : func < 32 := by omega
  simp only [vecLegal, wMajor_wordV z hf' hd ha hb hm hew (show 0x35 < 64 by decide), wordV_func z hf' hd ha hb hm hew, wB_wordV z hf' hd ha hb hm hew,
    wD_wordV z hf' hd ha hb hm hew, wA_wordV z hf' hd ha hb hm hew, if_pos hf, Bool.and_eq_true, decide_eq_true_eq]
  exact ⟨⟨hd8, ha8⟩, hb8⟩

end

section
variable {d a b m ew : Nat} (z : Bool) (hd : d < 32) (ha : a < 32) (hb : b < 32) (hm : m < 8) (hew : ew < 4)
include hd ha hm hew

theorem vecLegal_maskNot (hd8 : d < 8) (ha8 : a < 8) : vecLegal (wordV 0x35 4 d a 0 m z ew) = true := by
  have hf : 4 < 32 := by decide
  have hb : 0 < 32 := by decide
  simp [vecLegal, wMajor_wordV z hf hd ha hb hm hew, wordV_func z hf hd ha hb hm hew, wB_wordV z hf hd ha hb hm hew,
    wD_wordV z hf hd ha hb hm hew, wA_wordV z hf hd ha hb hm hew, hd8, ha8]

/-- A mask instruction into a general register. -/
theorem vecLegal_maskToG {func : Nat} (hlow : 5 ≤ func) (hf : func ≤ 7) (ha8 : a < 8) : vecLegal (wordV 0x35 func d a 0 m z ew) = true := by
  have hf' : func < 32 := by omega
  have hb : 0 < 32 := by decide
  have h3 : ¬func ≤ 3 := by omega
  have h4 : func ≠ 4 := by omega
  simp [vecLegal, wMajor_wordV z hf' hd ha hb hm hew, wordV_func z hf' hd ha hb hm hew, wB_wordV z hf' hd ha hb hm hew,
    wA_wordV z hf' hd ha hb hm hew, hf, h3, h4, ha8]

theorem vecLegal_gtom (hd8 : d < 8) : vecLegal (wordV 0x35 8 d a 0 m z ew) = true := by
  have hf : 8 < 32 := by decide
  have hb : 0 < 32 := by decide
  simp [vecLegal, wMajor_wordV z hf hd ha hb hm hew, wordV_func z hf hd ha hb hm hew, wB_wordV z hf hd ha hb hm hew,
    wD_wordV z hf hd ha hb hm hew, hd8]

include hb in
theorem vecLegal_while (hd8 : d < 8) : vecLegal (wordV 0x35 9 d a b m z ew) = true := by
  have hf : 9 < 32 := by decide
  simp [vecLegal, wMajor_wordV z hf hd ha hb hm hew, wordV_func z hf hd ha hb hm hew, wD_wordV z hf hd ha hb hm hew, hd8]

/-- A conversion between formats. -/
theorem vecLegal_convert {func : Nat} (hlow : 3 ≤ func) (hf : func ≤ 5) (hew2 : 2 ≤ ew) :
    vecLegal (wordV 0x39 func d a 0 m z ew) = true := by
  have hf' : func < 32 := by omega
  have hb : 0 < 32 := by decide
  have h0 : func ≠ 0 := by omega
  have h1 : func ≠ 1 := by omega
  have h2 : func ≠ 2 := by omega
  simp [vecLegal, wMajor_wordV z hf' hd ha hb hm hew, wordV_func z hf' hd ha hb hm hew, wB_wordV z hf' hd ha hb hm hew,
    wordV_ew z hf' hd ha hb hm hew, h0, h1, h2, hf, hew2]

theorem vecLegal_unpack (hb : b < 32) : vecLegal (wordV 0x36 0 d a b m z ew) = true := by
  have hf : 0 < 32 := by decide
  simp [vecLegal, wMajor_wordV z hf hd ha hb hm hew, wordV_func z hf hd ha hb hm hew]

theorem vecLegal_hash {func : Nat} (hf : func ≤ 2) (hew3 : func = 0 ∨ ew = 3) : vecLegal (wordV 0x38 func d a 0 m z ew) = true := by
  have hf' : func < 32 := by omega
  have hb : 0 < 32 := by decide
  have hok : func = 0 ∨ (func = 1 ∨ func = 2) ∧ ew = 3 := by omega
  simp [vecLegal, wMajor_wordV z hf' hd ha hb hm hew, wordV_func z hf' hd ha hb hm hew, wB_wordV z hf' hd ha hb hm hew,
    wordV_ew z hf' hd ha hb hm hew, hok]

/-- A widening. -/
theorem vecLegal_widen {func : Nat} (hf : func ≤ 1) (hew2 : ew ≤ 2) : vecLegal (wordV 0x39 func d a 0 m z ew) = true := by
  have hf' : func < 32 := by omega
  have hb : 0 < 32 := by decide
  have hok : func = 0 ∨ func = 1 := by omega
  simp [vecLegal, wMajor_wordV z hf' hd ha hb hm hew, wordV_func z hf' hd ha hb hm hew, wB_wordV z hf' hd ha hb hm hew,
    wordV_ew z hf' hd ha hb hm hew, hok, hew2]

theorem vecLegal_narrow (hew1 : 1 ≤ ew) : vecLegal (wordV 0x39 2 d a 0 m z ew) = true := by
  have hf : 2 < 32 := by decide
  have hb : 0 < 32 := by decide
  simp [vecLegal, wMajor_wordV z hf hd ha hb hm hew, wordV_func z hf hd ha hb hm hew, wB_wordV z hf hd ha hb hm hew,
    wordV_ew z hf hd ha hb hm hew, hew1]

omit hew in
theorem vecLegal_planeCompare (hb : b < 32) (heven : d = 2 ∨ d = 4 ∨ d = 6) : vecLegal (wordV 0x37 0 d a b m false 0) = true := by
  have hf : 0 < 32 := by decide
  have hew : 0 < 4 := by decide
  simp [vecLegal, wMajor_wordV false hf hd ha hb hm hew, wordV_func false hf hd ha hb hm hew, wD_wordV false hf hd ha hb hm hew,
    wordV_ew false hf hd ha hb hm hew, wordV_z false hf hd ha hb hm hew, or_assoc, heven]

end

/-! Elements of a vector register. -/

theorem vElem_lt (x : VecReg) (w i : Nat) : vElem x w i < 2 ^ w := Nat.mod_lt _ (Nat.two_pow_pos w)

theorem sum_zipIdx_eq_ofDigits (w k : Nat) (l : List Nat) :
    (((l.zipIdx k).map fun (x : Nat × Nat) => x.1 % 2 ^ w * 2 ^ (w * x.2)).sum) =
      2 ^ (w * k) * Nat.ofDigits (2 ^ w) (l.map (· % 2 ^ w)) := by
  induction l generalizing k with
  | nil => rfl
  | cons x l ih =>
    rw [List.zipIdx_cons, List.map_cons, List.sum_cons, ih, List.map_cons, Nat.ofDigits_cons, Nat.mul_add, mul_comm (x % 2 ^ w),
      Nat.mul_succ, pow_add]
    ring

theorem ofDigits_div_pow_mod {B : Nat} (hB : 0 < B) {l : List Nat} (hl : ∀ x ∈ l, x < B) (i : Nat) :
    Nat.ofDigits B l / B ^ i % B = l.getD i 0 := by
  induction l generalizing i with
  | nil => simp
  | cons x l ih =>
    have hx := hl x List.mem_cons_self
    rw [Nat.ofDigits_cons]
    obtain _ | i := i
    · simp [Nat.mod_eq_of_lt hx]
    · rw [pow_succ', ← Nat.div_div_eq_div_mul, Nat.add_mul_div_left _ _ hB, Nat.div_eq_of_lt hx, zero_add,
        ih fun y hy => hl y (List.mem_cons_of_mem _ hy)]
      rfl

/-- The elements of a register made of elements; above them it is zero. -/
theorem vElem_vOf {w : Nat} (hw : 0 < w) {l : List Nat} (hfit : w * l.length ≤ 512) (i : Nat) :
    vElem (vOf w l) w i = l.getD i 0 % 2 ^ w := by
  have hB : 0 < 2 ^ w := Nat.two_pow_pos w
  have hdigits : ∀ x ∈ l.map (· % 2 ^ w), x < 2 ^ w := by
    intro x hx
    obtain ⟨y, -, rfl⟩ := List.mem_map.mp hx
    exact Nat.mod_lt y hB
  have hlt : Nat.ofDigits (2 ^ w) (l.map (· % 2 ^ w)) < 2 ^ 512 := by
    have hone : 1 < 2 ^ w := Nat.one_lt_two_pow hw.ne'
    refine (Nat.ofDigits_lt_base_pow_length hone hdigits).trans_le ?_
    rw [List.length_map, ← pow_mul]
    exact Nat.pow_le_pow_right (by decide) hfit
  have hval : (vOf w l).toNat = Nat.ofDigits (2 ^ w) (l.map (· % 2 ^ w)) := by
    rw [vOf, BitVec.toNat_ofNat, sum_zipIdx_eq_ofDigits, mul_zero, pow_zero, one_mul, Nat.mod_eq_of_lt hlt]
  rw [vElem, hval, pow_mul, ofDigits_div_pow_mod hB hdigits]
  by_cases hi : i < l.length
  · simp [hi]
  · simp [hi]

theorem ewBits_pos (ew : Nat) : 0 < ewBits ew := Nat.mul_pos (by decide) (Nat.two_pow_pos ew)

theorem ewBits_mul_vElems (ew : Fin 4) : ewBits ew.val * vElems ew.val = 512 := by
  revert ew
  decide

/-! What an instruction on vector registers comes to. -/

section
variable {s s' : State} {t : TileId}

theorem Fetched.vRegs_eq (h : Fetched s t s') {word : Nat} (hlegal : vecLegal word = true) {f : Tile → Tile}
    (hf : (f s'.tiles[t]).state = (s'.tiles[t]).state) : s.vRegs t word f = s'.retires t f := by
  have hrun : (f s'.tiles[t]).state ≠ .reset := by
    rw [hf]
    exact h.running
  rw [State.vRegs, hlegal, h.sparWord_eq (fun hm => by cases hm)]
  exact h.retire_modTile hrun

theorem Tile.sameCore.active_eq {c e : Tile} (h : c.sameCore e) (m : MReg) (i : Nat) : e.active m i = c.active m i :=
  h.congr (fun c => c.active m i) fun _ _ => rfl

theorem Tile.sameCore.v_eq {c e : Tile} (h : c.sameCore e) : e.v = c.v := h.congr Tile.v fun _ _ => rfl

theorem Tile.sameCore.vMerge_eq {c e : Tile} (h : c.sameCore e) : e.vMerge = c.vMerge := h.congr Tile.vMerge fun _ _ => rfl

theorem Tile.sameCore.vFlags_eq {c e : Tile} (h : c.sameCore e) : e.vFlags = c.vFlags := h.congr Tile.vFlags fun _ _ => rfl

theorem Tile.sameCore.mMerge_eq {c e : Tile} (h : c.sameCore e) : e.mMerge = c.mMerge := h.congr Tile.mMerge fun _ _ => rfl

theorem Tile.sameCore.mask_eq {c e : Tile} (h : c.sameCore e) : e.mask = c.mask := h.congr Tile.mask fun _ _ => rfl

end

/-- Element i of merged elements of w bits, where they fit in a register with what stands above them. -/
theorem Tile.vElem_vMerge_append (c : Tile) (d : Reg) (m : MReg) (z : Bool) {w n : Nat} (hw : 0 < w) (f : Nat → Nat) (top : List Nat)
    (hfit : w * (n + top.length) ≤ 512) {i : Nat} (hi : i < n) :
    vElem (vOf w (c.vMerge d m z w n f ++ top)) w i = if c.active m i then f i % 2 ^ w else if z then 0 else vElem c.v[d] w i := by
  have hlen : (c.vMerge d m z w n f).length = n := by rw [Tile.vMerge, List.length_map, List.length_range]
  rw [vElem_vOf hw (by rwa [List.length_append, hlen]), List.getD_append _ _ _ _ (by rwa [hlen])]
  have hat : (c.vMerge d m z w n f).getD i 0 = if c.active m i then f i else if z then 0 else vElem c.v[d] w i := by
    simp [Tile.vMerge, hi]
  rw [hat]
  split_ifs
  · rfl
  · exact Nat.zero_mod _
  · exact Nat.mod_eq_of_lt (vElem_lt _ _ _)

theorem Tile.vElem_vMerge_of_fits (c : Tile) (d : Reg) (m : MReg) (z : Bool) {w n : Nat} (hw : 0 < w) (f : Nat → Nat)
    (hfit : w * n ≤ 512) {i : Nat} (hi : i < n) :
    vElem (vOf w (c.vMerge d m z w n f)) w i = if c.active m i then f i % 2 ^ w else if z then 0 else vElem c.v[d] w i := by
  have h := c.vElem_vMerge_append d m z hw f [] (by simpa using hfit) hi
  rwa [List.append_nil] at h

/-- Element i of what an element-wise instruction writes. -/
theorem Tile.vElem_vMerge (c : Tile) (d : Reg) (m : MReg) (z : Bool) (ew : Fin 4) (f : Nat → Nat) {i : Nat} (hi : i < vElems ew.val) :
    vElem (vOf (ewBits ew.val) (c.vMerge d m z (ewBits ew.val) (vElems ew.val) f)) (ewBits ew.val) i =
      if c.active m i then f i % 2 ^ ewBits ew.val else if z then 0 else vElem c.v[d] (ewBits ew.val) i :=
  c.vElem_vMerge_of_fits d m z (ewBits_pos _) f (ewBits_mul_vElems ew).le hi

/-- The flags collected are those of the active elements. -/
theorem Tile.getLsbD_vFlags (c : Tile) (m : MReg) (n : Nat) (f : Nat → Fx) (k : Nat) :
    (c.vFlags m n f).getLsbD k = true ↔ ∃ i, i < n ∧ c.active m i = true ∧ (f i).getLsbD k = true := by
  have hfold : ∀ (l : List Nat) (acc : Fx), (l.foldl (fun (acc : Fx) i => if c.active m i then acc ||| f i else acc) acc).getLsbD k = true ↔
      acc.getLsbD k = true ∨ ∃ i ∈ l, c.active m i = true ∧ (f i).getLsbD k = true := by
    intro l
    induction l with
    | nil => simp
    | cons i l ih =>
      intro acc
      rw [List.foldl_cons, ih]
      by_cases hi : c.active m i = true
      · simp [hi, or_assoc]
      · simp [hi]
  simp [Tile.vFlags, hfold]

end Sys2Proof.Machine
end

