-- ==== Sys2Proof/Proofs/VectorIntegers.lean ====
section
/-! SUPPORT. The integer instructions on vectors (R354, R358, R360). -/

namespace Sys2Proof.Machine

set_option Elab.async false

section
variable {s s' : State} {t : TileId} {d a b : Reg} {m : MReg} {z : Bool} {ew : Fin 4}

/-- An element-wise instruction: each active element takes its result modulo 2^w. -/
theorem Fetched.vMap_elements (h : Fetched s t s') {word : Nat} (hlegal : vecLegal word = true) (f : Tile → Nat → Nat → Nat) :
    ∃ x : VecReg, s.vMap t word d m z ew f = s'.retires t (fun c => { c with v := c.v.set d x, vx := true }) ∧
      ∀ i, i < vElems ew.val → vElem x (ewBits ew.val) i =
        if (s.tiles[t]).active m i then f s'.tiles[t] (ewBits ew.val) i % 2 ^ ewBits ew.val
        else if z then 0 else vElem (s.tiles[t]).v[d] (ewBits ew.val) i := by
  have hcore := h.sameCore t
  refine ⟨_, (h.vRegs_eq hlegal rfl).trans (State.retires_congr _ _ _ _ rfl), fun i hi => ?_⟩
  rw [Tile.vElem_vMerge _ _ _ _ _ _ hi, hcore.active_eq, hcore.v_eq]

theorem signedOf_of_lt {w x : Nat} (hx : x < 2 ^ w) : signedOf w x = if 2 * x < 2 ^ w then (x : Int) else (x : Int) - 2 ^ w := by
  rw [signedOf, Nat.mod_eq_of_lt hx]
  rw [Nat.cast_pow, Nat.cast_ofNat]

theorem cast_unsignedOf (w : Nat) (v : Int) : (unsignedOf w v : Int) = v % 2 ^ w := by
  have hpos : ((2 ^ w : Nat) : Int) ≠ 0 := by positivity
  rw [unsignedOf, Int.toNat_of_nonneg (Int.emod_nonneg _ hpos), Nat.cast_pow, Nat.cast_ofNat]

theorem signedOf_emod (w x : Nat) : signedOf w x % 2 ^ w = (x : Int) % 2 ^ w := by
  rw [signedOf]
  split_ifs
  · push_cast
    exact Int.emod_emod _ _
  · push_cast
    rw [Int.sub_emod_right, Int.emod_emod]

theorem cast_mod_two_pow (w x : Nat) : ((x % 2 ^ w : Nat) : Int) = (x : Int) % 2 ^ w := by push_cast; rfl

theorem cast_sarW_mod (w x k : Nat) : ((sarW w x k % 2 ^ w : Nat) : Int) = signedOf w x / 2 ^ k % 2 ^ w := by
  rw [cast_mod_two_pow, sarW, cast_unsignedOf, Int.emod_emod]

/-- An integer instruction: the result of each active element, as an integer modulo 2^w. -/
theorem Fetched.vInt_elements (h : Fetched s t s') {func : Nat} (hf : func ≤ 19) (hb : func < 17 ∨ b.val = 0) {f : Nat → Nat → Nat → Nat}
    {g : Nat → Nat → Int}
    (hg : ∀ x y, x < 2 ^ ewBits ew.val → y < 2 ^ ewBits ew.val →
      ((f (ewBits ew.val) x y % 2 ^ ewBits ew.val : Nat) : Int) = g x y % 2 ^ ewBits ew.val) :
    ∃ x : VecReg, s.vInt t func d a b m z ew f = s'.retires t (fun c => { c with v := c.v.set d x, vx := true }) ∧
      ∀ i, i < vElems ew.val → (vElem x (ewBits ew.val) i : Int) =
        if (s.tiles[t]).active m i then
          g (vElem (s.tiles[t]).v[a] (ewBits ew.val) i) (vElem (s.tiles[t]).v[b] (ewBits ew.val) i) % 2 ^ ewBits ew.val
        else if z then 0 else vElem (s.tiles[t]).v[d] (ewBits ew.val) i := by
  obtain ⟨x, hx, helem⟩ := h.vMap_elements (d := d) (m := m) (z := z) (ew := ew)
    (vecLegal_int z d.isLt a.isLt b.isLt m.isLt ew.isLt hf hb) fun c w i => f w (vElem c.v[a] w i) (vElem c.v[b] w i)
  refine ⟨x, hx, fun i hi => ?_⟩
  rw [helem i hi, (h.sameCore t).v_eq]
  split_ifs
  · exact hg _ _ (vElem_lt _ _ _) (vElem_lt _ _ _)
  · rfl
  · rfl

end

/-- Settles O22: each instruction is one function of the elements, and agrees with the integer operation modulo 2^w. -/
theorem vectorIntegerResults : Obligations.VectorIntegerResults := by
  intro s s' t d a b m z ew h c w S does
  have hS : ∀ x, x < 2 ^ w → signedOf w x = S x := fun x hx => signedOf_of_lt hx
  have hSmod : ∀ x, x < 2 ^ w → S x % 2 ^ w = (x : Int) % 2 ^ w := fun x hx => by rw [← hS x hx, signedOf_emod]
  have two : ∀ (func : Nat) {i : Instr} {f : Nat → Nat → Nat → Nat} {g : Nat → Nat → Int},
      exec i s = .next (s.vInt t func d a b m z ew f) → func < 17 →
      (∀ x y, x < 2 ^ w → y < 2 ^ w → ((f w x y % 2 ^ w : Nat) : Int) = g x y % 2 ^ w) → does i g := by
    intro func i f g hi hf hg
    obtain ⟨x, hx, helem⟩ := h.vInt_elements (by omega) (.inl hf) hg
    exact ⟨x, hi.trans (congrArg _ hx), helem⟩
  have one : ∀ (func : Nat) {i : Instr} {f : Nat → Nat → Nat → Nat} {g : Nat → Nat → Int},
      exec i s = .next (s.vInt t func d a 0 m z ew f) → func ≤ 19 →
      (∀ x y, x < 2 ^ w → y < 2 ^ w → ((f w x y % 2 ^ w : Nat) : Int) = g x y % 2 ^ w) → (∀ x y y', g x y = g x y') → does i g := by
    intro func i f g hi hf hg hsame
    obtain ⟨x, hx, helem⟩ := h.vInt_elements (b := 0) hf (.inr rfl) hg
    refine ⟨x, hi.trans (congrArg _ hx), fun i hi => ?_⟩
    exact (helem i hi).trans (if_congr Iff.rfl (congrArg (· % (2 : Int) ^ w) (hsame _ _ _)) rfl)
  clear_value does
  refine ⟨?add, ?sub, ?mul, ?mulhu, ?mulhs, ?and, ?or, ?xor, ?andn, ?shl, ?shr, ?sar, ?ror, ?minu, ?mins, ?maxu, ?maxs, ?abs, ?neg, ?mov⟩
  case add => exact two 0 rfl (by decide) (fun x y _ _ => by push_cast; rfl)
  case sub =>
    refine two 1 rfl (by decide) (fun x y hx hy => ?_)
    rw [cast_mod_two_pow, Nat.cast_sub (by omega)]
    push_cast
    rw [show (x : Int) + 2 ^ w - y = x - y + 2 ^ w by ring, Int.add_emod_right]
  case mul => exact two 2 rfl (by decide) (fun x y _ _ => by push_cast; rfl)
  case mulhu => exact two 3 rfl (by decide) (fun x y _ _ => cast_mod_two_pow _ _)
  case mulhs =>
    refine two 4 rfl (by decide) (fun x y hx hy => ?_)
    rw [cast_mod_two_pow, cast_unsignedOf, Int.emod_emod, hS x hx, hS y hy]
  case and => exact two 5 rfl (by decide) (fun x y _ _ => cast_mod_two_pow _ _)
  case or => exact two 6 rfl (by decide) (fun x y _ _ => cast_mod_two_pow _ _)
  case xor => exact two 7 rfl (by decide) (fun x y _ _ => cast_mod_two_pow _ _)
  case andn => exact two 8 rfl (by decide) (fun x y _ _ => cast_mod_two_pow _ _)
  case shl => exact two 9 rfl (by decide) (fun x y _ _ => by push_cast; rfl)
  case shr => exact two 10 rfl (by decide) (fun x y _ _ => cast_mod_two_pow _ _)
  case sar =>
    refine two 11 rfl (by decide) (fun x y hx hy => ?_)
    rw [cast_sarW_mod, hS x hx]
  case ror => exact two 12 rfl (by decide) (fun x y _ _ => cast_mod_two_pow _ _)
  case minu => exact two 13 rfl (by decide) (fun x y _ _ => cast_mod_two_pow _ _)
  case mins =>
    refine two 14 rfl (by decide) (fun x y hx hy => ?_)
    rw [hS x hx, hS y hy]
    split_ifs with hlt
    · rw [min_eq_right hlt.le, hSmod y hy, cast_mod_two_pow]
    · rw [min_eq_left (not_lt.mp hlt), hSmod x hx, cast_mod_two_pow]
  case maxu => exact two 15 rfl (by decide) (fun x y _ _ => cast_mod_two_pow _ _)
  case maxs =>
    refine two 16 rfl (by decide) (fun x y hx hy => ?_)
    rw [hS x hx, hS y hy]
    split_ifs with hlt
    · rw [max_eq_right hlt.le, hSmod y hy, cast_mod_two_pow]
    · rw [max_eq_left (not_lt.mp hlt), hSmod x hx, cast_mod_two_pow]
  case abs =>
    refine one 17 rfl (by decide) (fun x y hx hy => ?_) fun _ _ _ => rfl
    rw [hS x hx, cast_mod_two_pow]
    refine congrArg (· % (2 : Int) ^ w) ?_
    have hle : ((2 ^ w - x : Nat) : Int) = 2 ^ w - x := by
      rw [Nat.cast_sub hx.le]
      push_cast
      rfl
    have hx' : (x : Int) < 2 ^ w := by exact_mod_cast hx
    by_cases hsmall : 2 * x < 2 ^ w
    · have hSx : S x = x := if_pos hsmall
      rw [hSx, if_neg (by omega)]
      rfl
    · have hSx : S x = x - 2 ^ w := if_neg hsmall
      rw [hSx, if_pos (by omega), hle]
      omega
  case neg =>
    refine one 18 rfl (by decide) (fun x y hx hy => ?_) fun _ _ _ => rfl
    rw [cast_mod_two_pow, Nat.cast_sub hx.le]
    push_cast
    rw [show (2 : Int) ^ w - x = -x + 2 ^ w by ring, Int.add_emod_right]
  case mov => exact one 19 rfl (by decide) (fun x y _ _ => cast_mod_two_pow _ _) fun _ _ _ => rfl

end Sys2Proof.Machine
end

