-- ==== Sys2Proof/Proofs/VectorFloats.lean ====
section
/-! SUPPORT. The floating-point instructions on vectors (R358, R360, R333). -/

namespace Sys2Proof.Machine

set_option Elab.async false

section
variable {s s' : State} {t : TileId} {d a b : Reg} {m : MReg} {z : Bool} {ew : Fin 4}

theorem ewFmt_eq (ew : Fin 4) : ewFmt ew = if ew = 3 then f64 else f32 := by
  unfold ewFmt
  exact if_congr beq_iff_eq rfl rfl

/-- An instruction that merges results into v(d) and collects their flags. -/
theorem Fetched.vRegs_results (h : Fetched s t s') {word : Nat} (hlegal : vecLegal word = true) {f : Tile → Tile} {r : Nat → FRes}
    (hf : f s'.tiles[t] = ((s'.tiles[t]).setV d (vOf (ewBits ew.val)
      ((s'.tiles[t]).vMerge d m z (ewBits ew.val) (vElems ew.val) fun i => (r i).bits))).addFx
        ((s'.tiles[t]).vFlags m (vElems ew.val) fun i => (r i).fx)) :
    ∃ (x : VecReg) (fx : Fx), s.vRegs t word f = s'.retires t (fun c => { c with v := c.v.set d x, vx := true, fx := c.fx ||| fx }) ∧
      (∀ i, i < vElems ew.val → vElem x (ewBits ew.val) i =
        if (s.tiles[t]).active m i then (r i).bits % 2 ^ ewBits ew.val else if z then 0 else vElem (s.tiles[t]).v[d] (ewBits ew.val) i) ∧
      ∀ k, fx.getLsbD k = true ↔ ∃ i, i < vElems ew.val ∧ (s.tiles[t]).active m i = true ∧ (r i).fx.getLsbD k = true := by
  have hcore := h.sameCore t
  refine ⟨_, _, (h.vRegs_eq hlegal (by rw [hf]; rfl)).trans (State.retires_congr _ _ _ _ hf), fun i hi => ?_, fun k => ?_⟩
  · rw [Tile.vElem_vMerge _ _ _ _ _ _ hi, hcore.active_eq, hcore.v_eq]
  · rw [hcore.vFlags_eq]
    exact Tile.getLsbD_vFlags _ _ _ _ k

end

/-- Settles O23: each instruction merges the scalar operation's results and collects the flags of the active elements. -/
theorem vectorFloatResults : Obligations.VectorFloatResults := by
  intro s s' t d a b m z ew h hew c w n F does
  have hcore := h.sameCore t
  have hF : ewFmt ew = F := ewFmt_eq ew
  have op : ∀ (func : Nat) {b' : Reg} {i : Instr} {f : FFmt → Nat → Nat → Nat → FRes} {g : Nat → Nat → Nat → FRes}, func ≤ 8 →
      (func ≠ 4 ∨ b'.val = 0) → exec i s = .next (s.vFp t func d a b' m z ew f) →
      (∀ x y q, f F x y q = g x y q) → (b' = b ∨ ∀ x y y' q, g x y q = g x y' q) → does i g := by
    intro func b' i f g hfunc hb hi hg hsame
    have hr : ∀ i, f (ewFmt ew) (vElem (s'.tiles[t]).v[a] w i) (vElem (s'.tiles[t]).v[b'] w i) (vElem (s'.tiles[t]).v[d] w i) =
        g (vElem c.v[a] w i) (vElem c.v[b] w i) (vElem c.v[d] w i) := by
      intro i
      rw [hF, hg, hcore.v_eq]
      obtain rfl | hsame := hsame
      · rfl
      · exact hsame _ _ _ _
    obtain ⟨x, fx, hx, hrest⟩ := h.vRegs_results (d := d) (m := m) (z := z) (ew := ew)
      (vecLegal_float z d.isLt a.isLt b'.isLt m.isLt ew.isLt hfunc hew hb)
      (f := fun c => (c.setV d (vOf w (c.vMerge d m z w (vElems ew.val) fun i =>
          (f (ewFmt ew) (vElem c.v[a] w i) (vElem c.v[b'] w i) (vElem c.v[d] w i)).bits))).addFx
        (c.vFlags m (vElems ew.val) fun i => (f (ewFmt ew) (vElem c.v[a] w i) (vElem c.v[b'] w i) (vElem c.v[d] w i)).fx))
      (r := fun i => g (vElem c.v[a] w i) (vElem c.v[b] w i) (vElem c.v[d] w i)) (by simp only [hr]; rfl)
    exact ⟨x, fx, hi.trans (congrArg _ hx), hrest⟩
  have conv : ∀ (func : Nat) {i : Instr} {f : Nat → FRes} {g : Nat → Nat → Nat → FRes}, 3 ≤ func → func ≤ 5 →
      exec i s = .next (s.vConv t func d a m z ew w n false f) → (∀ x y q, f x = g x y q) → does i g := by
    intro func i f g hlow hhigh hi hg
    have hr : ∀ i, f (vElem (s'.tiles[t]).v[a] w i) = g (vElem c.v[a] w i) (vElem c.v[b] w i) (vElem c.v[d] w i) := fun i => by
      rw [hg, hcore.v_eq]
    obtain ⟨x, fx, hx, hrest⟩ := h.vRegs_results (d := d) (m := m) (z := z) (ew := ew)
      (vecLegal_convert z d.isLt a.isLt m.isLt ew.isLt hlow hhigh hew)
      (f := fun c => (c.setV d (vOf w (c.vMerge d m z w n (fun i => (f (vElem c.v[a] w i)).bits) ++ []))).addFx
        (c.vFlags m n fun i => (f (vElem c.v[a] w i)).fx))
      (r := fun i => g (vElem c.v[a] w i) (vElem c.v[b] w i) (vElem c.v[d] w i)) (by
        simp only [List.append_nil, hr]
        rfl)
    exact ⟨x, fx, hi.trans (congrArg _ hx), hrest⟩
  clear_value does
  refine ⟨?add, ?sub, ?mul, ?div, ?sqrt, ?min, ?max, ?fma, ?fms, ?itof, ?ftoi⟩
  case add => exact op 0 (by decide) (.inl (by decide)) rfl (fun _ _ _ => rfl) (.inl rfl)
  case sub => exact op 1 (by decide) (.inl (by decide)) rfl (fun _ _ _ => rfl) (.inl rfl)
  case mul => exact op 2 (by decide) (.inl (by decide)) rfl (fun _ _ _ => rfl) (.inl rfl)
  case div => exact op 3 (by decide) (.inl (by decide)) rfl (fun _ _ _ => rfl) (.inl rfl)
  case sqrt => exact op 4 (by decide) (.inr rfl) rfl (fun _ _ _ => rfl) (.inr fun _ _ _ _ => rfl)
  case min => exact op 5 (by decide) (.inl (by decide)) rfl (fun _ _ _ => rfl) (.inl rfl)
  case max => exact op 6 (by decide) (.inl (by decide)) rfl (fun _ _ _ => rfl) (.inl rfl)
  case fma => exact op 7 (by decide) (.inl (by decide)) rfl (fun _ _ _ => rfl) (.inl rfl)
  case fms => exact op 8 (by decide) (.inl (by decide)) rfl (fun _ _ _ => rfl) (.inl rfl)
  case itof => exact conv 3 (by decide) (by decide) rfl fun x _ _ => congrArg (FFmt.ofInt · (signedOf w x)) hF
  case ftoi => exact conv 4 (by decide) (by decide) rfl fun x _ _ => congrArg (FFmt.toInt · w x) hF

end Sys2Proof.Machine
end

