-- ==== Sys2Proof/Proofs/VectorMasks.lean ====
section
/-! SUPPORT. Comparisons into a mask and the mask instructions (R357, R358, R360). -/

namespace Sys2Proof.Machine

set_option Elab.async false

/-- A sum of distinct powers of two: bit i is that of the power 2^i. -/
theorem testBit_sum_two_pow (n : Nat) (p : Nat → Bool) (i : Nat) :
    (((List.range n).map fun i => if p i then 2 ^ i else 0).sum).testBit i = (decide (i < n) && p i) := by
  have hlt : ∀ n, ((List.range n).map fun i => if p i then 2 ^ i else 0).sum < 2 ^ n := by
    intro n
    induction n with
    | zero => simp
    | succ n ih =>
      rw [List.range_succ, List.map_append, List.sum_append, pow_succ]
      have hlast : (List.map (fun i => if p i then 2 ^ i else 0) [n]).sum ≤ 2 ^ n := by
        rw [List.map_singleton, List.sum_singleton]
        split_ifs <;> simp
      omega
  induction n with
  | zero => simp
  | succ n ih =>
    rw [List.range_succ, List.map_append, List.sum_append, List.map_singleton, List.sum_singleton]
    have hn := hlt n
    by_cases hp : p n = true
    · rw [if_pos hp, Nat.add_comm]
      obtain hi | rfl | hi := lt_trichotomy i n
      · rw [Nat.testBit_two_pow_add_gt hi, ih]
        simp [hi, hi.trans (Nat.lt_succ_self n)]
      · rw [Nat.testBit_two_pow_add_eq, Nat.testBit_lt_two_pow hn]
        simp [hp]
      · rw [Nat.testBit_lt_two_pow]
        · simp; omega
        · calc _ < 2 ^ n + 2 ^ n := by omega
            _ = 2 ^ (n + 1) := by ring
            _ ≤ 2 ^ i := Nat.pow_le_pow_right (by decide) hi
    · rw [if_neg hp, Nat.add_zero, ih]
      obtain hi | rfl | hi := lt_trichotomy i n
      · simp [hi, hi.trans (Nat.lt_succ_self n)]
      · simp [hp]
      · simp [show ¬i < n by omega, show ¬i < n + 1 by omega]

theorem vElems_le (ew : Nat) : vElems ew ≤ 64 := Nat.div_le_self _ _

theorem Tile.testBit_mMerge (c : Tile) (d m : MReg) (z : Bool) (n : Nat) (f : Nat → Bool) (i : Nat) :
    (c.mMerge d m z n f).testBit i = (decide (i < n) && if c.active m i then f i else !z && (c.mask d).testBit i) := by
  rw [Tile.mMerge, testBit_sum_two_pow n fun i => if c.active m i then f i else !z && bitAt (c.mask d) i]
  simp only [bitAt_eq_testBit]

theorem Tile.setM_eq (c : Tile) (d : MReg) (x : Nat) :
    c.setM d x = if d = 0 then c else { c with m := c.m.set d (BitVec.ofNat 64 x), vx := true } :=
  if_congr beq_iff_eq rfl rfl

theorem getLsbD_ofNat_of_le {x n : Nat} (hn : n ≤ 64) (i : Nat) (p : Prop) (hx : x.testBit i = true ↔ i < n ∧ p) :
    (BitVec.ofNat 64 x).getLsbD i = true ↔ i < n ∧ p := by
  rw [BitVec.getLsbD_ofNat, Bool.and_eq_true, decide_eq_true_eq, hx]
  exact ⟨fun h => h.2, fun h => ⟨by omega, h⟩⟩

section
variable {s s' : State} {t : TileId} {d m : MReg} {z : Bool} {ew : Fin 4}

/-- An instruction that writes mask d. -/
theorem Fetched.vRegs_mask (h : Fetched s t s') {word : Nat} (hlegal : vecLegal word = true) {f : Tile → Tile} {x : Nat}
    (hf : f s'.tiles[t] = (s'.tiles[t]).setM d x) {p : Nat → Prop} (hx : ∀ i, x.testBit i = true ↔ i < vElems ew.val ∧ p i) :
    ∃ k : Word, s.vRegs t word f = s'.retires t (fun c => if d = 0 then c else { c with m := c.m.set d k, vx := true }) ∧
      ∀ i, k.getLsbD i = true ↔ i < vElems ew.val ∧ p i := by
  have hstate : (f s'.tiles[t]).state = (s'.tiles[t]).state := by
    rw [hf, Tile.setM_eq]
    split_ifs <;> rfl
  exact ⟨BitVec.ofNat 64 x, (h.vRegs_eq hlegal hstate).trans (State.retires_congr _ _ _ _ (hf.trans (Tile.setM_eq _ _ _))),
    fun i => getLsbD_ofNat_of_le (vElems_le _) i _ (hx i)⟩

/-- Bit i of a mask that is merged. -/
theorem Tile.testBit_mMerge_iff (c : Tile) (n : Nat) {f : Nat → Bool} {p : Nat → Prop} (hf : ∀ i, f i = true ↔ p i) (i : Nat) :
    (c.mMerge d m z n f).testBit i = true ↔
      i < n ∧ if c.active m i then p i else z = false ∧ (c.mask d).testBit i = true := by
  rw [Tile.testBit_mMerge, Bool.and_eq_true, decide_eq_true_eq]
  refine and_congr_right fun _ => ?_
  split_ifs
  · exact hf i
  · simp

/-- A comparison of the elements of a and b into mask d. -/
theorem Fetched.vCmp_mask (h : Fetched s t s') {func : Nat} (hf : func ≤ 10) (hfp : func < 6 ∨ 2 ≤ ew.val) {a b : Reg}
    {f : Nat → Nat → Nat → Bool × Fx} {p : Nat → Nat → Prop} {g : Nat → Nat → Fx}
    (hp : ∀ x y, x < 2 ^ ewBits ew.val → y < 2 ^ ewBits ew.val → ((f (ewBits ew.val) x y).1 = true ↔ p x y))
    (hg : ∀ x y, (f (ewBits ew.val) x y).2 = g x y) :
    ∃ (k : Word) (fx : Fx), s.vCmp t func d a b m z ew f = s'.retires t (fun c =>
        { (if d = 0 then c else { c with m := c.m.set d k, vx := true }) with fx := c.fx ||| fx }) ∧
      (∀ i, k.getLsbD i = true ↔ i < vElems ew.val ∧ if (s.tiles[t]).active m i then
          p (vElem (s.tiles[t]).v[a] (ewBits ew.val) i) (vElem (s.tiles[t]).v[b] (ewBits ew.val) i)
        else z = false ∧ ((s.tiles[t]).mask d).testBit i = true) ∧
      ∀ j, fx.getLsbD j = true ↔ ∃ i, i < vElems ew.val ∧ (s.tiles[t]).active m i = true ∧
        (g (vElem (s.tiles[t]).v[a] (ewBits ew.val) i) (vElem (s.tiles[t]).v[b] (ewBits ew.val) i)).getLsbD j = true := by
  have hcore := h.sameCore t
  have hlegal := vecLegal_compare z (by omega : d.val < 32) a.isLt b.isLt m.isLt ew.isLt hf d.isLt hfp
  have hv : ∀ i, f (ewBits ew.val) (vElem (s'.tiles[t]).v[a] (ewBits ew.val) i) (vElem (s'.tiles[t]).v[b] (ewBits ew.val) i) =
      f (ewBits ew.val) (vElem (s.tiles[t]).v[a] (ewBits ew.val) i) (vElem (s.tiles[t]).v[b] (ewBits ew.val) i) := fun i => by
    rw [hcore.v_eq]
  have hstate : ∀ (c : Tile) (x : Nat) (fx : Fx), ((c.setM d x).addFx fx).state = c.state := fun c x fx => by
    rw [Tile.setM_eq, Tile.addFx]
    split_ifs <;> rfl
  have hfx : ∀ (c : Tile) (x : Nat) (fx : Fx), (c.setM d x).addFx fx =
      { (if d = 0 then c else { c with m := c.m.set d (BitVec.ofNat 64 x), vx := true }) with fx := c.fx ||| fx } := fun c x fx => by
    rw [Tile.setM_eq, Tile.addFx]
    split_ifs <;> rfl
  refine ⟨_, _, (h.vRegs_eq hlegal (hstate _ _ _)).trans (State.retires_congr _ _ _ _ (hfx _ _ _)), fun i => ?_, fun j => ?_⟩
  · refine getLsbD_ofNat_of_le (vElems_le _) i _ ?_
    rw [hcore.mMerge_eq]
    refine Tile.testBit_mMerge_iff _ _ (p := fun i => p (vElem (s.tiles[t]).v[a] (ewBits ew.val) i)
      (vElem (s.tiles[t]).v[b] (ewBits ew.val) i)) (fun i => ?_) i
    dsimp only
    rw [hv]
    exact hp _ _ (vElem_lt _ _ _) (vElem_lt _ _ _)
  · rw [hcore.vFlags_eq, Tile.getLsbD_vFlags]
    simp only [hv, hg]

/-- An instruction on two masks. -/
theorem Fetched.vMaskOp_mask (h : Fetched s t s') {func : Nat} (hf : func ≤ 3) {a b : MReg} {f : Bool → Bool → Bool} {p : Prop → Prop → Prop}
    (hp : ∀ x y : Bool, f x y = true ↔ p (x = true) (y = true)) :
    ∃ k : Word, s.vMaskOp t func d a b m z ew f =
        s'.retires t (fun c => if d = 0 then c else { c with m := c.m.set d k, vx := true }) ∧
      ∀ i, k.getLsbD i = true ↔ i < vElems ew.val ∧ if (s.tiles[t]).active m i then
          p (((s.tiles[t]).mask a).testBit i = true) (((s.tiles[t]).mask b).testBit i = true)
        else z = false ∧ ((s.tiles[t]).mask d).testBit i = true := by
  have hcore := h.sameCore t
  refine h.vRegs_mask (vecLegal_maskOp z (by omega) (by omega) (by omega) m.isLt ew.isLt hf d.isLt a.isLt b.isLt) rfl fun i => ?_
  rw [hcore.mMerge_eq, hcore.mask_eq]
  refine Tile.testBit_mMerge_iff _ _ (p := fun i => p (((s.tiles[t]).mask a).testBit i = true) (((s.tiles[t]).mask b).testBit i = true))
    (fun i => ?_) i
  rw [hp, bitAt_eq_testBit, bitAt_eq_testBit]

/-- An instruction that writes a general register. -/
theorem Fetched.vRegs_setG (h : Fetched s t s') {word : Nat} (hlegal : vecLegal word = true) {f : Tile → Tile} {g : Reg} {x : Word}
    (hf : f s'.tiles[t] = (s'.tiles[t]).setG g x) : s.vRegs t word f = s'.retires t fun c => c.setG g x :=
  (h.vRegs_eq hlegal (by rw [hf]; rfl)).trans (State.retires_congr _ _ _ _ hf)

end

/-- Settles O24: the bits that are merged are the comparison's, or the logic's, and those above the elements are zero. -/
theorem vectorCompareAndMaskResults : Obligations.VectorCompareAndMaskResults := by
  refine ⟨?_, ?_⟩
  · intro s s' t d a b m z ew h c w n F S isNan does
    have hF : ewFmt ew = F := ewFmt_eq ew
    have compare : ∀ (func : Nat) {i : Instr} {f : Nat → Nat → Nat → Bool × Fx} {p : Nat → Nat → Prop} {g : Nat → Nat → Fx}, func ≤ 10 →
        (func < 6 ∨ 2 ≤ ew.val) → exec i s = .next (s.vCmp t func d a b m z ew f) →
        (∀ x y, x < 2 ^ w → y < 2 ^ w → ((f w x y).1 = true ↔ p x y)) → (∀ x y, (f w x y).2 = g x y) → does i p g := by
      intro func i f p g hf hfp hi hp hg
      obtain ⟨k, fx, hk, hrest⟩ := h.vCmp_mask hf hfp hp hg
      exact ⟨k, fx, hi.trans (congrArg _ hk), hrest⟩
    have hS : ∀ x, x < 2 ^ w → signedOf w x = S x := fun x hx => signedOf_of_lt hx
    have hnan : ∀ {x y : Nat} {r : Bool × Fx}, ((F.unpack x).isNan = true ∨ (F.unpack y).isNan = true → r.1 = false) →
        (r.1 = true ↔ ¬isNan x ∧ ¬isNan y ∧ r.1 = true) := by
      intro x y r hr
      refine ⟨fun h1 => ⟨fun hx => ?_, fun hy => ?_, h1⟩, fun h1 => h1.2.2⟩
      · rw [hr (.inl hx)] at h1
        cases h1
      · rw [hr (.inr hy)] at h1
        cases h1
    clear_value does
    refine ⟨?eq, ?ne, ?ltu, ?leu, ?lts, ?les, fun hew => ⟨?feq, ?flt, ?fle, ?fklt, ?fkle⟩⟩
    case eq => exact compare 0 (by decide) (.inl (by decide)) rfl (fun x y _ _ => beq_iff_eq) fun _ _ => rfl
    case ne => exact compare 1 (by decide) (.inl (by decide)) rfl (fun x y _ _ => bne_iff_ne) fun _ _ => rfl
    case ltu => exact compare 2 (by decide) (.inl (by decide)) rfl (fun x y _ _ => decide_eq_true_iff) fun _ _ => rfl
    case leu => exact compare 3 (by decide) (.inl (by decide)) rfl (fun x y _ _ => decide_eq_true_iff) fun _ _ => rfl
    case lts =>
      refine compare 4 (by decide) (.inl (by decide)) rfl (fun x y hx hy => ?_) fun _ _ => rfl
      rw [hS x hx, hS y hy]
      exact decide_eq_true_iff
    case les =>
      refine compare 5 (by decide) (.inl (by decide)) rfl (fun x y hx hy => ?_) fun _ _ => rfl
      rw [hS x hx, hS y hy]
      exact decide_eq_true_iff
    case feq =>
      refine compare 6 (by decide) (.inr hew) rfl (fun x y _ _ => ?_) fun _ _ => by rw [hF]
      rw [hF]
      exact hnan fun hxy => F.eqF_of_nan hxy
    case flt =>
      refine compare 7 (by decide) (.inr hew) rfl (fun x y _ _ => ?_) fun _ _ => by rw [hF]
      rw [hF]
      exact hnan fun hxy => F.ltF_of_nan hxy
    case fle =>
      refine compare 8 (by decide) (.inr hew) rfl (fun x y _ _ => ?_) fun _ _ => by rw [hF]
      rw [hF]
      exact hnan fun hxy => F.ltF_of_nan hxy
    case fklt =>
      refine compare 9 (by decide) (.inr hew) rfl (fun x y _ _ => ?_) fun _ _ => rfl
      rw [hF]
      exact decide_eq_true_iff
    case fkle =>
      refine compare 10 (by decide) (.inr hew) rfl (fun x y _ _ => ?_) fun _ _ => rfl
      rw [hF]
      exact decide_eq_true_iff
  · intro s s' t d a b m gd ga gb z ew h c n A B toM merged toG
    have hcore := h.sameCore t
    have hmask : (s'.tiles[t]).mask = c.mask := hcore.mask_eq
    have op : ∀ (func : Nat) {i : Instr} {f : Bool → Bool → Bool} {p : Prop → Prop → Prop}, func ≤ 3 →
        exec i s = .next (s.vMaskOp t func d a b m z ew f) → (∀ x y : Bool, f x y = true ↔ p (x = true) (y = true)) →
        toM i (merged fun i => p (A i) (B i)) := by
      intro func i f p hf hi hp
      obtain ⟨k, hk, hbits⟩ := h.vMaskOp_mask hf hp
      exact ⟨k, hi.trans (congrArg _ hk), hbits⟩
    have g : ∀ {i : Instr} {word : Nat} {f : Tile → Tile} {x : Nat}, exec i s = .next (s.vRegs t word f) → vecLegal word = true →
        f s'.tiles[t] = (s'.tiles[t]).setG gd (BitVec.ofNat 64 x) → toG i x := by
      intro i word f x hi hlegal hf
      exact hi.trans (congrArg _ (h.vRegs_setG hlegal hf))
    have toMask : ∀ {i : Instr} {word : Nat} {f : Tile → Tile} {x : Nat} {p : Nat → Prop}, exec i s = .next (s.vRegs t word f) →
        vecLegal word = true → f s'.tiles[t] = (s'.tiles[t]).setM d x → (∀ i, x.testBit i = true ↔ i < n ∧ p i) → toM i p := by
      intro i word f x p hi hlegal hf hx
      obtain ⟨k, hk, hbits⟩ := h.vRegs_mask hlegal hf hx
      exact ⟨k, hi.trans (congrArg _ hk), hbits⟩
    refine ⟨?and, ?or, ?xor, ?andn, ?not, ?popc, ?first, ?mtog, ?gtom, ?below⟩
    case and => exact op 0 (p := And) (by decide) rfl (by decide)
    case or => exact op 1 (p := Or) (by decide) rfl (by decide)
    case xor => exact op 2 (p := fun x y => ¬(x ↔ y)) (by decide) rfl (by decide)
    case andn => exact op 3 (p := fun x y => x ∧ ¬y) (by decide) rfl (by decide)
    case not =>
      refine toMask rfl (vecLegal_maskNot z (by omega) (by omega) m.isLt ew.isLt d.isLt a.isLt) rfl fun i => ?_
      have hsub : 2 ^ vElems ew.val - 1 - (s'.tiles[t]).mask a % 2 ^ vElems ew.val =
          2 ^ n - (c.mask a % 2 ^ n + 1) := by
        rw [hmask, Nat.sub_sub, add_comm]
        rfl
      rw [hsub, Nat.testBit_two_pow_sub_succ (Nat.mod_lt _ (Nat.two_pow_pos n)), Nat.testBit_mod_two_pow]
      by_cases hi : i < n
      · simp [hi, A]
      · simp [hi]
    case popc =>
      refine g rfl (vecLegal_maskToG z (by omega) (by omega) m.isLt ew.isLt (by decide) (by decide) a.isLt) ?_
      simp only [hmask, hcore.active_eq, bitAt_eq_testBit, List.countP_eq_length_filter]
      rfl
    case first =>
      refine ⟨_, g rfl (vecLegal_maskToG z (by omega) (by omega) m.isLt ew.isLt (by decide) (by decide) a.isLt) rfl, ?_⟩
      simp only [hmask, hcore.active_eq, bitAt_eq_testBit]
      cases hfind : (List.range (vElems ew.val)).find? fun i => c.active m i && (c.mask a).testBit i with
      | none =>
        refine ⟨le_rfl, fun hlt => absurd hlt (lt_irrefl _), fun i hi hact => ?_⟩
        have hnone := List.find?_eq_none.mp hfind i (List.mem_range.mpr hi)
        rw [hact.1, hact.2] at hnone
        exact hnone rfl
      | some k =>
        obtain ⟨hk, hlt, hbefore⟩ := List.find?_range_eq_some.mp hfind
        rw [Bool.and_eq_true] at hk
        refine ⟨(List.mem_range.mp hlt).le, fun _ => hk, fun i hi hact => ?_⟩
        have hno := hbefore i hi
        rw [hact.1, hact.2] at hno
        cases hno
    case mtog =>
      refine g rfl (vecLegal_maskToG z (by omega) (by omega) m.isLt ew.isLt (by decide) (by decide) a.isLt) ?_
      rw [hmask]
      rfl
    case gtom =>
      refine toMask rfl (vecLegal_gtom z (by omega) (by omega) m.isLt ew.isLt d.isLt) rfl fun i => ?_
      rw [Nat.testBit_mod_two_pow, h.g_eq, Bool.and_eq_true, decide_eq_true_eq]
      rfl
    case below =>
      refine toMask rfl (vecLegal_while z (by omega) (by omega) (by omega) m.isLt ew.isLt d.isLt) rfl fun i => ?_
      rw [hcore.mMerge_eq, h.g_eq]
      exact Tile.testBit_mMerge_iff _ _ (p := fun i => (c.g[ga]).toNat + i < (c.g[gb]).toNat) (fun i => decide_eq_true_iff) i

end Sys2Proof.Machine
end

