-- ==== Sys2Proof/Proofs/VectorReductions.lean ====
section
/-! SUPPORT. Permutes and reductions over the active elements (R360, R371). -/

namespace Sys2Proof.Machine

set_option Elab.async false

/-! Minimum and maximum of a list that starts from a bound of its elements. -/

theorem foldl_min_spec {α : Type} [LinearOrder α] (top : α) (l : List α) (hl : ∀ x ∈ l, x ≤ top) :
    (l = [] → l.foldl min top = top) ∧ (l ≠ [] → l.foldl min top ∈ l ∧ ∀ x ∈ l, l.foldl min top ≤ x) := by
  have hfold : ∀ (l : List α) (a : α), (l.foldl min a = a ∨ l.foldl min a ∈ l) ∧ l.foldl min a ≤ a ∧ ∀ x ∈ l, l.foldl min a ≤ x := by
    intro l
    induction l with
    | nil => exact fun a => ⟨.inl rfl, le_rfl, fun x hx => by cases hx⟩
    | cons y l ih =>
      intro a
      obtain ⟨hmem, hle, hall⟩ := ih (min a y)
      refine ⟨?_, hle.trans (min_le_left _ _), ?_⟩
      · obtain heq | hmem := hmem
        · obtain h | h := min_choice a y
          · exact .inl (heq.trans h)
          · exact .inr (List.mem_cons.mpr (.inl (heq.trans h)))
        · exact .inr (List.mem_cons_of_mem _ hmem)
      · intro x hx
        obtain rfl | hx := List.mem_cons.mp hx
        · exact hle.trans (min_le_right _ _)
        · exact hall x hx
  refine ⟨fun h => by rw [h]; rfl, fun hne => ?_⟩
  obtain ⟨hmem, hle, hall⟩ := hfold l top
  refine ⟨?_, hall⟩
  obtain heq | hmem := hmem
  · obtain ⟨x, hx⟩ := List.exists_mem_of_ne_nil l hne
    have hxtop : x = top := le_antisymm (hl x hx) (heq ▸ hall x hx)
    rwa [heq, ← hxtop]
  · exact hmem

theorem foldl_max_spec {α : Type} [LinearOrder α] (bot : α) (l : List α) (hl : ∀ x ∈ l, bot ≤ x) :
    (l = [] → l.foldl max bot = bot) ∧ (l ≠ [] → l.foldl max bot ∈ l ∧ ∀ x ∈ l, x ≤ l.foldl max bot) :=
  foldl_min_spec (α := αᵒᵈ) bot l hl

theorem signedOf_bounds (w x : Nat) (hw : 0 < w) : -(2 ^ (w - 1) : Int) ≤ signedOf w x ∧ signedOf w x ≤ 2 ^ (w - 1) - 1 := by
  have hlt : x % 2 ^ w < 2 ^ w := Nat.mod_lt x (Nat.two_pow_pos w)
  have hpow : 2 ^ w = 2 * 2 ^ (w - 1) := by
    rw [← pow_succ', Nat.sub_add_cancel hw]
  have hcast : ((2 ^ (w - 1) : Nat) : Int) = 2 ^ (w - 1) := by push_cast; rfl
  unfold signedOf
  rw [← hcast, hpow]
  rw [hpow] at hlt
  generalize 2 ^ (w - 1) = P at hlt ⊢
  generalize x % (2 * P) = y at hlt ⊢
  dsimp only
  split_ifs
  · omega
  · omega

theorem ofNat_unsignedOf (v : Int) : BitVec.ofNat 64 (unsignedOf 64 v) = BitVec.ofInt 64 v := by
  apply BitVec.eq_of_toNat_eq
  rw [BitVec.toNat_ofNat, BitVec.toNat_ofInt, unsignedOf]
  omega

section
variable {s s' : State} {t : TileId} {d a b : Reg} {m : MReg} {z : Bool} {ew : Fin 4}

/-- The values of the active elements of v(a), in ascending order. -/
def Tile.actives (c : Tile) (a : Reg) (m : MReg) (ew : Fin 4) : List Nat :=
  ((List.range (vElems ew.val)).filter (c.active m)).map (vElem c.v[a] (ewBits ew.val))

theorem Tile.actives_lt {c : Tile} {a : Reg} {m : MReg} {ew : Fin 4} : ∀ x ∈ c.actives a m ew, x < 2 ^ ewBits ew.val := by
  intro x hx
  obtain ⟨i, -, rfl⟩ := List.mem_map.mp hx
  exact vElem_lt _ _ _

theorem Tile.length_actives_le (c : Tile) (a : Reg) (m : MReg) (ew : Fin 4) : (c.actives a m ew).length ≤ vElems ew.val := by
  rw [Tile.actives, List.length_map]
  exact (List.length_filter_le _ _).trans (List.length_range).le

theorem Tile.sameCore.actives_eq {c e : Tile} (h : c.sameCore e) : e.actives = c.actives := h.congr Tile.actives fun _ _ => rfl

/-- A reduction over the active elements. -/
theorem Fetched.vRed_eq (h : Fetched s t s') {func : Nat} (hlow : 4 ≤ func) (hhigh : func ≤ 9) {f : Nat → List Nat → Nat} {r : Int}
    (hf : BitVec.ofNat 64 (f (ewBits ew.val) ((s.tiles[t]).actives a m ew)) = BitVec.ofInt 64 r) :
    s.vRed t func d a m z ew f = s'.retires t fun c => c.setG d (BitVec.ofInt 64 r) := by
  refine h.vRegs_setG (vecLegal_permute z d.isLt a.isLt (by decide) m.isLt ew.isLt (by omega) (.inr (.inr rfl)) (.inl (by omega))
    (.inl (by omega))) ?_
  rw [← hf, ← (h.sameCore t).actives_eq]
  rfl

end

/-- Settles O25: a permute places elements, and a reduction folds over the active ones. -/
theorem vectorPermuteAndReduce : Obligations.VectorPermuteAndReduce := by
  intro s s' t d a b m z ew h c w n el S acts toG toV merged least most
  have hcore := h.sameCore t
  have hw : 0 < w := ewBits_pos ew.val
  have hacts : acts = c.actives a m ew := rfl
  have hactlt : ∀ x ∈ acts, x < 2 ^ w := Tile.actives_lt
  have hS : ∀ x, x < 2 ^ w → signedOf w x = S x := fun x hx => signedOf_of_lt hx
  have hmapS : acts.map (signedOf w) = acts.map S := List.map_congr_left fun x hx => hS x (hactlt x hx)
  have map : ∀ (func : Nat) {b' : Reg} {i : Instr} {f : Tile → Nat → Nat → Nat} {g : Nat → Nat},
      exec i s = .next (s.vMap t (wordV 0x34 func d.val a.val b'.val m.val z ew.val) d m z ew f) → func = 0 ∧ b'.val = 0 ∨ func = 3 →
      (∀ i, i < n → f s'.tiles[t] w i % 2 ^ w = g i) → toV i (merged g) := by
    intro func b' i f g hi hfunc hg
    obtain ⟨x, hx, helem⟩ := h.vMap_elements (d := d) (m := m) (z := z) (ew := ew)
      (vecLegal_permute z d.isLt a.isLt b'.isLt m.isLt ew.isLt (func := func) (by omega) (by omega) (.inl (by omega)) (.inl (by omega))) f
    refine ⟨x, hi.trans (congrArg _ hx), fun i hi => (helem i hi).trans ?_⟩
    exact if_congr Iff.rfl (hg i hi) rfl
  have red : ∀ (func : Nat) {i : Instr} {f : Nat → List Nat → Nat} {r : Int}, 4 ≤ func → func ≤ 9 →
      exec i s = .next (s.vRed t func d a m z ew f) → BitVec.ofNat 64 (f w acts) = BitVec.ofInt 64 r → toG i r := by
    intro func i f r hlow hhigh hi hf
    exact hi.trans (congrArg _ (h.vRed_eq hlow hhigh hf))
  have extract : ∀ {i : Instr} {word : Nat} {f : Tile → Tile} {r : Int}, exec i s = .next (s.vRegs t word f) → vecLegal word = true →
      f s'.tiles[t] = (s'.tiles[t]).setG d (BitVec.ofInt 64 r) → toG i r := by
    intro i word f r hi hlegal hf
    exact hi.trans (congrArg _ (h.vRegs_setG hlegal hf))
  clear_value toG
  refine ⟨?bcast, ?extr, ?cmprs, ?sldn, ?sumu, ?sums, ?minu, ?mins, ?maxu, ?maxs, fun hew => ?fsum⟩
  case bcast =>
    exact map 0 (b' := 0) rfl (.inl ⟨rfl, rfl⟩) fun i hi => congrArg (fun g : Vector Word 32 => (g[a]).toNat % 2 ^ w) h.g_eq
  case extr =>
    refine extract rfl (vecLegal_permute z d.isLt a.isLt b.isLt m.isLt ew.isLt (by decide) (.inl rfl) (.inl (by decide))
      (.inl (by decide))) ?_
    rw [BitVec.ofInt_natCast, hcore.v_eq, h.g_eq]
    rfl
  case cmprs =>
    refine ⟨vOf w ((s'.tiles[t]).actives a m ew), congrArg Host.Outcome.next ((h.vRegs_eq (vecLegal_permute false d.isLt a.isLt
      (by decide) m.isLt ew.isLt (by decide) (.inr (.inr rfl)) (.inr rfl) (.inl (by decide))) rfl).trans
        (State.retires_congr _ _ _ _ rfl)), fun i hi => ?_⟩
    have hfit : w * (c.actives a m ew).length ≤ 512 :=
      (Nat.mul_le_mul_left w (c.length_actives_le a m ew)).trans (ewBits_mul_vElems ew).le
    rw [hcore.actives_eq, vElem_vOf hw hfit]
    refine Nat.mod_eq_of_lt ?_
    by_cases hlen : i < (c.actives a m ew).length
    · rw [List.getD_eq_getElem _ _ hlen]
      exact Tile.actives_lt _ (List.getElem_mem hlen)
    · rw [List.getD_eq_default _ _ (not_lt.mp hlen)]
      exact Nat.two_pow_pos w
  case sldn =>
    refine map 3 rfl (.inr rfl) fun i hi => ?_
    rw [h.g_eq, hcore.v_eq]
    dsimp only
    split_ifs with hk hk' hk'
    · exact Nat.mod_eq_of_lt (vElem_lt _ _ _)
    · exact absurd hk hk'
    · exact absurd hk' hk
    · exact Nat.zero_mod _
  case sumu => exact red 4 (by decide) (by decide) rfl (BitVec.ofInt_natCast _ _).symm
  case sums =>
    refine red 5 (by decide) (by decide) rfl ?_
    rw [ofNat_unsignedOf, hmapS]
  case minu =>
    obtain ⟨hnil, hcons⟩ := foldl_min_spec (2 ^ w - 1) acts fun x hx => by have := hactlt x hx; omega
    refine ⟨_, red 6 (by decide) (by decide) rfl (BitVec.ofInt_natCast _ _).symm, fun h0 => ?_, fun hne => ?_⟩
    · rw [hnil h0, Nat.cast_sub (Nat.two_pow_pos w)]
      push_cast
      rfl
    · obtain ⟨hmem, hall⟩ := hcons hne
      exact ⟨⟨_, hmem, rfl⟩, fun x hx => Int.ofNat_le.mpr (hall x hx)⟩
  case mins =>
    obtain ⟨hnil, hcons⟩ := foldl_min_spec ((2 : Int) ^ (w - 1) - 1) (acts.map S) fun y hy => by
      obtain ⟨x, hx, rfl⟩ := List.mem_map.mp hy
      rw [← hS x (hactlt x hx)]
      exact (signedOf_bounds w x hw).2
    refine ⟨_, red 7 (by decide) (by decide) rfl (by rw [ofNat_unsignedOf, hmapS]), fun h0 => hnil (by rw [h0]; rfl), fun hne => ?_⟩
    obtain ⟨hmem, hall⟩ := hcons (mt List.map_eq_nil_iff.mp hne)
    obtain ⟨x, hx, hxr⟩ := List.mem_map.mp hmem
    exact ⟨⟨x, hx, hxr⟩, fun x hx => hall _ (List.mem_map_of_mem hx)⟩
  case maxu =>
    obtain ⟨hnil, hcons⟩ := foldl_max_spec 0 acts fun x _ => Nat.zero_le x
    refine ⟨_, red 8 (by decide) (by decide) rfl (BitVec.ofInt_natCast _ _).symm, fun h0 => by rw [hnil h0]; rfl, fun hne => ?_⟩
    obtain ⟨hmem, hall⟩ := hcons hne
    exact ⟨⟨_, hmem, rfl⟩, fun x hx => Int.ofNat_le.mpr (hall x hx)⟩
  case maxs =>
    obtain ⟨hnil, hcons⟩ := foldl_max_spec (-((2 : Int) ^ (w - 1))) (acts.map S) fun y hy => by
      obtain ⟨x, hx, rfl⟩ := List.mem_map.mp hy
      rw [← hS x (hactlt x hx)]
      exact (signedOf_bounds w x hw).1
    refine ⟨_, red 9 (by decide) (by decide) rfl (by rw [ofNat_unsignedOf, hmapS]), fun h0 => hnil (by rw [h0]; rfl), fun hne => ?_⟩
    obtain ⟨hmem, hall⟩ := hcons (mt List.map_eq_nil_iff.mp hne)
    obtain ⟨x, hx, hxr⟩ := List.mem_map.mp hmem
    exact ⟨⟨x, hx, hxr⟩, fun x hx => hall _ (List.mem_map_of_mem hx)⟩
  case fsum =>
    intro F r
    have hF : ewFmt ew = F := ewFmt_eq ew
    have hr : ((s'.tiles[t]).actives a m ew).foldl (fun (acc : FRes) x =>
        let y := (ewFmt ew).add acc.bits x
        ⟨y.bits, acc.fx ||| y.fx⟩) ⟨0, 0⟩ = r := by
      rw [hcore.actives_eq, hF]
      rfl
    refine congrArg Host.Outcome.next ((h.vRegs_eq (vecLegal_permute z d.isLt a.isLt (by decide) m.isLt ew.isLt (by decide)
      (.inr (.inr rfl)) (.inl (by decide)) (.inr hew)) rfl).trans (State.retires_congr _ _ _ _ ?_))
    rw [← hr]
    rfl

end Sys2Proof.Machine
end

