-- ==== Sys2Proof/Proofs/VectorColumns.lean ====
section
/-! SUPPORT. The instructions on columns: unpacking, plane comparison, hashing and conversions of width (R360, R367 to R370). -/

namespace Sys2Proof.Machine

set_option Elab.async false

/-! The hash of columns (R369). -/

theorem rotl64_eq {x : Nat} (hx : x < 2 ^ 64) : rotl64 x 29 = (x * 2 ^ 29 + x / 2 ^ (64 - 29)) % 2 ^ 64 := by
  have hhigh : x * 2 ^ 29 % 2 ^ 64 = 2 ^ 29 * (x % 2 ^ 35) := by omega
  have hlow : x / 2 ^ (64 - 29) < 2 ^ 29 := by omega
  rw [rotl64, hhigh, ← Nat.two_pow_add_eq_or_of_lt hlow]
  omega

theorem hStep_eq (h x : Nat) :
    hStep h x = (((h ^^^ x) * 0xB3F10D5AC7E2946B % 2 ^ 64 * 2 ^ 29 + (h ^^^ x) * 0xB3F10D5AC7E2946B % 2 ^ 64 / 2 ^ (64 - 29)) % 2 ^ 64) *
      0x8E2C5193F7A03D6D % 2 ^ 64 := by
  rw [hStep, rotl64_eq (Nat.mod_lt _ (by decide))]

/-- The hash of one element of at most 8 bytes. -/
theorem hashBytes_toLE {k x : Nat} (hk : k ≤ 3) (hx : x < 2 ^ ewBits k) :
    hashBytes (toLE (2 ^ k) x) = hFin (hStep (0x6A1D4C8F2B97E535 ^^^ 2 ^ k) x) := by
  have hle : 2 ^ k ≤ 8 := Nat.pow_le_pow_right (by decide) hk
  have hpos : 0 < 2 ^ k := Nat.two_pow_pos k
  have hwords : ceilDiv (toLE (2 ^ k) x).length 8 = 1 := by
    rw [length_toLE, ceilDiv]
    omega
  have hfield : fieldAt (8 * 0) 8 (toLE (2 ^ k) x) = x := by
    rw [fieldAt, sliceB, mul_zero, List.drop_zero, List.take_of_length_le (by rwa [length_toLE]), leNat_toLE hx]
  rw [hashBytes]
  rw [hwords, length_toLE, List.range_one, List.foldl_cons, List.foldl_nil, hfield]

/-- The element that VUNPK makes of a zigzag item. -/
theorem cast_unzigzag_mod (w x : Nat) :
    ((unzigzag w x % 2 ^ w : Nat) : Int) = (if x % 2 = 0 then ((x / 2 : Nat) : Int) else -((x / 2 : Nat) : Int) - 1) % 2 ^ w := by
  rw [cast_mod_two_pow, unzigzag, cast_unsignedOf, Int.emod_emod]
  exact congrArg (· % (2 : Int) ^ w) (if_congr beq_iff_eq (by push_cast; rfl) rfl)

section
variable {s s' : State} {t : TileId} {d : Reg} {m : MReg} {z : Bool}

/-- An instruction that merges n elements of w bits into v(d). -/
theorem Fetched.vRegs_elements (h : Fetched s t s') {word : Nat} (hlegal : vecLegal word = true) {f : Tile → Tile} {w n : Nat} (hw : 0 < w)
    (hfit : w * n ≤ 512) {r : Nat → Nat} (hf : f s'.tiles[t] = (s'.tiles[t]).setV d (vOf w ((s'.tiles[t]).vMerge d m z w n r)))
    {g : Nat → Int} (hg : ∀ i, ((r i % 2 ^ w : Nat) : Int) = g i % 2 ^ w) :
    ∃ x : VecReg, s.vRegs t word f = s'.retires t (fun c => { c with v := c.v.set d x, vx := true }) ∧
      ∀ i, i < n → (vElem x w i : Int) =
        if (s.tiles[t]).active m i then g i % 2 ^ w else if z then 0 else vElem (s.tiles[t]).v[d] w i := by
  have hcore := h.sameCore t
  refine ⟨_, (h.vRegs_eq hlegal (by rw [hf]; rfl)).trans (State.retires_congr _ _ _ _ hf), fun i hi => ?_⟩
  rw [Tile.vElem_vMerge_of_fits _ _ _ _ hw _ hfit hi, hcore.active_eq, hcore.v_eq]
  split_ifs
  · exact hg i
  · rfl
  · rfl

end

theorem vecLegal_vplcmp {e : MReg} (he : e = 2 ∨ e = 4 ∨ e = 6) (a b : Reg) (m : MReg) :
    vecLegal (wordV 0x37 0 e.val a.val b.val m.val false 0) = true := by
  refine vecLegal_planeCompare (by omega) a.isLt m.isLt b.isLt ?_
  obtain rfl | rfl | rfl := he
  · exact .inl rfl
  · exact .inr (.inl rfl)
  · exact .inr (.inr rfl)

theorem Tile.mask_of_ne_zero (c : Tile) {k : MReg} (hk : k ≠ 0) : c.mask k = (c.m[k]).toNat := if_neg (by simpa using hk)

theorem Tile.setM_of_ne_zero (c : Tile) {k : MReg} (hk : k ≠ 0) (x : Nat) :
    c.setM k x = { c with m := c.m.set k (BitVec.ofNat 64 x), vx := true } := if_neg (by simpa using hk)

/-- Row i is active, equal so far, and its bit of the plane is not the key's (R368). -/
def Tile.planeHit (c : Tile) (d m : MReg) (plane : Nat) (k : Bool) (i : Nat) : Bool :=
  c.active m i && bitAt (c.mask d) i && bitAt plane i != k

/-- The rows that stay equal. -/
def Tile.planeEq (c : Tile) (d m : MReg) (plane : Nat) (k : Bool) : Nat :=
  ((List.range 64).map fun i => if bitAt (c.mask d) i && !c.planeHit d m plane k i then 2 ^ i else 0).sum

/-- The rows that are greater. -/
def Tile.planeGt (c : Tile) (d m : MReg) (plane : Nat) (k : Bool) : Nat :=
  ((List.range 64).map fun i => if (if c.planeHit d m plane k i then bitAt plane i else bitAt (c.mask (d + 1)) i) then 2 ^ i else 0).sum

theorem Fetched.exec_vplcmp {s s' : State} {t : TileId} (h : Fetched s t s') {e e1 : MReg} (h1 : e1 = e + 1) (he : e = 2 ∨ e = 4 ∨ e = 6) (a b : Reg) (m : MReg) :
    let c := s.tiles[t]
    let key := bitAt (c.g[b]).toNat 0
    exec (.vplcmp t e a b m) s = .next (s'.retires t fun x =>
      { x with m := (x.m.set e (BitVec.ofNat 64 (c.planeEq e m (c.g[a]).toNat key))).set e1
                 (BitVec.ofNat 64 (c.planeGt e m (c.g[a]).toNat key)), vx := true }) := by
  intro c key
  have he0 : e ≠ 0 := by rintro rfl; exact absurd he (by decide)
  have he1 : e1 ≠ 0 := by obtain rfl | rfl | rfl := he <;> (rw [h1]; decide)
  have heq : (s'.tiles[t]).planeEq = c.planeEq := (h.sameCore t).congr Tile.planeEq fun _ _ => rfl
  have hgt : (s'.tiles[t]).planeGt = c.planeGt := (h.sameCore t).congr Tile.planeGt fun _ _ => rfl
  have hset : ∀ (x : Tile) (u v : Nat), (x.setM e u).setM e1 v =
      { x with m := (x.m.set e (BitVec.ofNat 64 u)).set e1 (BitVec.ofNat 64 v), vx := true } := by
    intro x u v
    rw [Tile.setM_of_ne_zero _ he1, Tile.setM_of_ne_zero _ he0]
  have hsame : ((s'.tiles[t]).setM e ((s'.tiles[t]).planeEq e m ((s'.tiles[t]).g[a]).toNat (bitAt ((s'.tiles[t]).g[b]).toNat 0))).setM e1
      ((s'.tiles[t]).planeGt e m ((s'.tiles[t]).g[a]).toNat (bitAt ((s'.tiles[t]).g[b]).toNat 0)) =
      ((s'.tiles[t]).setM e (c.planeEq e m (c.g[a]).toNat key)).setM e1 (c.planeGt e m (c.g[a]).toNat key) := by
    rw [heq, hgt, h.g_eq]
  have hf := hsame.trans (hset _ _ _)
  subst h1
  refine congrArg Host.Outcome.next ((h.vRegs_eq (vecLegal_vplcmp he a b m) ?_).trans (State.retires_congr _ _ _ _ hf))
  exact (congrArg Tile.state hf :)

theorem Tile.planeHit_iff (c : Tile) {e : MReg} (he : e ≠ 0) (m : MReg) (x y : Word) (i : Nat) :
    c.planeHit e m x.toNat (bitAt y.toNat 0) i = true ↔
      c.active m i = true ∧ (c.m[e]).getLsbD i = true ∧ x.getLsbD i ≠ y.getLsbD 0 := by
  rw [Tile.planeHit, Tile.mask_of_ne_zero c he, bitAt_toNat, bitAt_toNat, bitAt_toNat, Bool.and_eq_true, Bool.and_eq_true, bne_iff_ne,
    and_assoc]

/-- Settles O26: what each instruction makes of an element is the function that the spec gives. -/
theorem columnInstructions : Obligations.ColumnInstructions := by
  intro s s' t d a b e m z ew h c w n S toV rotl step fin e1 key B item
  have hcore := h.sameCore t
  have hw : 0 < w := ewBits_pos ew.val
  have hwn : w * n = 512 := ewBits_mul_vElems ew
  have hg : (s'.tiles[t]).g = c.g := h.g_eq
  have hv : (s'.tiles[t]).v = c.v := hcore.v_eq
  have hstep : ∀ x y, hStep x y = step x y := hStep_eq
  have hfin : ∀ x, hFin x = fin x := fun _ => rfl
  have map : ∀ {i : Instr} {word w' n' : Nat} {f : Tile → Tile} {r : Nat → Nat} {g : Nat → Int}, exec i s = .next (s.vRegs t word f) →
      vecLegal word = true → 0 < w' → w' * n' ≤ 512 →
      f s'.tiles[t] = (s'.tiles[t]).setV d (vOf w' ((s'.tiles[t]).vMerge d m z w' n' r)) →
      (∀ i, ((r i % 2 ^ w' : Nat) : Int) = g i % 2 ^ w') → toV i w' n' g := by
    intro i word w' n' f r g hi hlegal hw' hfit hf hr
    obtain ⟨x, hx, helem⟩ := h.vRegs_elements hlegal hw' hfit hf hr
    exact ⟨x, hi.trans (congrArg _ hx), helem⟩
  have h8 : 8 ≤ w := Nat.le_mul_of_pos_right 8 (Nat.two_pow_pos ew.val)
  have hhalf : 2 * w * (n / 2) ≤ 512 := by
    calc 2 * w * (n / 2) = w * (2 * (n / 2)) := by ring
      _ ≤ w * n := Nat.mul_le_mul_left w (Nat.mul_div_le n 2)
      _ = 512 := hwn
  have hnarrow : w / 2 * n ≤ 512 := (Nat.mul_le_mul_right n (Nat.div_le_self w 2)).trans hwn.le
  clear_value toV
  refine ⟨?unpack, ?hash, fun hew => ⟨?hstep, ?hfin⟩, fun he => ?compare, fun hew => ⟨?zext, ?sext⟩, fun hew => ?narrow, fun hew => ?cvt⟩
  case unpack =>
    refine map rfl (vecLegal_unpack z d.isLt a.isLt m.isLt ew.isLt b.isLt) hw hwn.le rfl fun i => ?_
    have hitem : (if bitAt key 16 then unzigzag w (item i) else item i) =
        (if key.testBit 16 then unzigzag w (item i) else item i) := by rw [bitAt_eq_testBit]
    dsimp only
    rw [hg, hv]
    refine Eq.trans (congrArg (fun x : Nat => ((x % 2 ^ w : Nat) : Int)) hitem) ?_
    split_ifs with hz heven heven
    · rw [cast_unzigzag_mod, if_pos heven]
    · rw [cast_unzigzag_mod, if_neg heven]
    · exact cast_mod_two_pow _ _
  case hash =>
    refine map rfl (vecLegal_hash z d.isLt a.isLt m.isLt ew.isLt (by decide) (.inl rfl)) (by decide) (by decide) rfl fun i => ?_
    rw [hashBytes_toLE (Nat.le_of_lt_succ ew.isLt) (vElem_lt _ _ _), hfin, hstep, hv]
    exact cast_mod_two_pow _ _
  case hstep =>
    subst hew
    refine map rfl (vecLegal_hash z d.isLt a.isLt m.isLt (by decide) (by decide) (.inr rfl)) (by decide) (by decide) rfl fun i => ?_
    simp only [hstep, hv]
    exact cast_mod_two_pow _ _
  case hfin =>
    subst hew
    refine map rfl (vecLegal_hash z d.isLt a.isLt m.isLt (by decide) (by decide) (.inr rfl)) (by decide) (by decide) rfl fun i => ?_
    simp only [hfin, hv]
    exact cast_mod_two_pow _ _
  case zext =>
    refine map rfl (vecLegal_widen z d.isLt a.isLt m.isLt ew.isLt (by decide) hew) (by omega) hhalf rfl fun i => ?_
    rw [hv]
    exact cast_mod_two_pow _ _
  case sext =>
    refine map rfl (vecLegal_widen z d.isLt a.isLt m.isLt ew.isLt (by decide) hew) (by omega) hhalf rfl fun i => ?_
    rw [cast_mod_two_pow]
    refine (congrArg (· % (2 : Int) ^ (2 * w)) (cast_unsignedOf _ _)).trans ?_
    rw [hv]
    exact (Int.emod_emod _ _).trans (congrArg (· % (2 : Int) ^ (2 * w)) (signedOf_of_lt (vElem_lt _ _ _)))
  case narrow =>
    refine map rfl (vecLegal_narrow z d.isLt a.isLt m.isLt ew.isLt hew) (by omega) hnarrow rfl fun i => ?_
    rw [hv]
    exact cast_mod_two_pow _ _
  case compare =>
    have he0 : e ≠ 0 := by rintro rfl; exact absurd he (by decide)
    have he1 : e1 ≠ 0 := by obtain rfl | rfl | rfl := he <;> decide
    refine ⟨_, _, h.exec_vplcmp rfl he a b m, fun i hi => ?_⟩
    have hhit := c.planeHit_iff he0 m c.g[a] c.g[b] i
    have hbit : ∀ x, (BitVec.ofNat 64 x).getLsbD i = x.testBit i := fun x => by
      rw [BitVec.getLsbD_ofNat, decide_eq_true hi, Bool.true_and]
    intro hit
    have hdec : c.planeHit e m (c.g[a]).toNat (bitAt (c.g[b]).toNat 0) i = decide hit := Bool.eq_iff_iff.mpr (hhit.trans decide_eq_true_iff.symm)
    have he : bitAt (c.mask e) i = (c.m[e]).getLsbD i := by rw [Tile.mask_of_ne_zero c he0, bitAt_toNat]
    have he' : bitAt (c.mask (e + 1)) i = (c.m[e1]).getLsbD i := by rw [Tile.mask_of_ne_zero c he1, bitAt_toNat]
    refine ⟨?_, ?_⟩
    · rw [hbit, Tile.planeEq, testBit_sum_two_pow _ fun i => bitAt (c.mask e) i && !c.planeHit e m (c.g[a]).toNat (bitAt (c.g[b]).toNat 0) i,
        decide_eq_true hi, Bool.true_and, he, hdec]
    · rw [hbit, Tile.planeGt, testBit_sum_two_pow _ fun i => if c.planeHit e m (c.g[a]).toNat (bitAt (c.g[b]).toNat 0) i then
        bitAt (c.g[a]).toNat i else bitAt (c.mask (e + 1)) i, decide_eq_true hi, Bool.true_and, he', hdec, bitAt_toNat]
      exact if_congr decide_eq_true_iff rfl rfl
  case cvt =>
    have hlegal := vecLegal_convert z d.isLt a.isLt m.isLt ew.isLt (by decide : 3 ≤ 5) (by decide) hew
    have hew4 := ew.isLt
    obtain rfl | rfl : ew = 2 ∨ ew = 3 := by omega
    · refine ⟨_, _, congrArg Host.Outcome.next ((h.vRegs_eq hlegal rfl).trans (State.retires_congr _ _ _ _ rfl)), fun i hi hact => ?_⟩
      rw [if_pos rfl]
      refine (Tile.vElem_vMerge_append _ _ _ _ (by decide) _ [] (by decide) hi).trans ?_
      rw [hcore.active_eq, if_pos hact, hv]
      rfl
    · refine ⟨_, _, congrArg Host.Outcome.next ((h.vRegs_eq hlegal rfl).trans (State.retires_congr _ _ _ _ rfl)), fun i hi hact => ?_⟩
      rw [if_neg (by decide)]
      refine (Tile.vElem_vMerge_append _ _ _ _ (by decide) _ _ (by simp [upFrom]) hi).trans ?_
      rw [hcore.active_eq, if_pos hact, hv]
      rfl

end Sys2Proof.Machine
end

