-- ==== Sys2Proof/Proofs/VectorLoads.lean ====
section
/-! SUPPORT. Vector loads and gathers (R361 to R366): their words, the elements read one after another, and what is filled into the register. -/

namespace Sys2Proof.Machine

set_option Elab.async false

theorem vElems_ceil (ew : Fin 4) : ceilDiv (vElems ew.val) 16 = if ew = 0 then 4 else if ew = 1 then 2 else 1 := by
  revert ew
  decide

section
variable {func d a b m ew : Nat} (z : Bool) (hd : d < 32) (ha : a < 32) (hb : b < 32) (hm : m < 8) (hew : ew < 4)
include hd ha hb hm hew

theorem vecLegal_unit (hf : func ≤ 1) (hb0 : b = 0) : vecLegal (wordV 0x33 func d a b m z ew) = true := by
  have hf' : func < 32 := by omega
  have hok : func = 0 ∨ func = 1 := by omega
  subst hb0
  simp [vecLegal, wMajor_wordV z hf' hd ha hb hm hew, wordV_func z hf' hd ha hb hm hew, wB_wordV z hf' hd ha hb hm hew, hok]

theorem vecLegal_strided (hlow : 2 ≤ func) (hf : func ≤ 3) : vecLegal (wordV 0x33 func d a b m z ew) = true := by
  have hf' : func < 32 := by omega
  have hok : func = 2 ∨ func = 3 := by omega
  have hno : ¬(func = 0 ∨ func = 1) := by omega
  simp [vecLegal, wMajor_wordV z hf' hd ha hb hm hew, wordV_func z hf' hd ha hb hm hew, wB_wordV z hf' hd ha hb hm hew, hok, hno]

/-- A gather or a scatter: the register of the indices is aligned to their number. -/
theorem vecLegal_indexed (hf : func = 4 ∨ func = 0xC ∨ func = 6 ∨ func = 0xE ∨ (func = 5 ∨ func = 0xD) ∧ m ≠ 0)
    (hpair : b % ceilDiv (vElems ew) 16 = 0) : vecLegal (wordV 0x33 func d a b m z ew) = true := by
  have hf' : func < 32 := by omega
  have hno : ¬(func = 0 ∨ func = 1) := by omega
  have hno' : ¬(func = 2 ∨ func = 3) := by omega
  by_cases hg : func = 4 ∨ func = 0xC ∨ func = 6 ∨ func = 0xE
  · simp [vecLegal, wMajor_wordV z hf' hd ha hb hm hew, wordV_func z hf' hd ha hb hm hew, wB_wordV z hf' hd ha hb hm hew,
      wordV_ew z hf' hd ha hb hm hew, hno, hno', hg, hpair, or_assoc]
  · have hfirst : (func = 5 ∨ func = 0xD) ∧ m ≠ 0 := by omega
    simp [vecLegal, wMajor_wordV z hf' hd ha hb hm hew, wordV_func z hf' hd ha hb hm hew, wB_wordV z hf' hd ha hb hm hew,
      wordV_ew z hf' hd ha hb hm hew, wordV_m z hf' hd ha hb hm hew, hno, hno', hg, hpair, hfirst.1, hfirst.2, or_assoc]

end

theorem unitAddr_eq (c : Tile) (a : Reg) (ew : Fin 4) (i : Nat) : c.unitAddr a ew i = ((c.g[a]).toNat + i * 2 ^ ew.val) % 2 ^ 64 := by
  rw [Tile.unitAddr, addr64, unsignedOf]
  exact_mod_cast Int.toNat_natCast _

theorem strideAddr_eq (c : Tile) (a b : Reg) (i : Nat) : c.strideAddr a b i = (((c.g[a]).toNat + i * (c.g[b]).toInt) % 2 ^ 64).toNat := rfl

theorem indexAddr_eq (c : Tile) (a b : Reg) (scale : Bool) (ew : Fin 4) (i : Nat) :
    c.indexAddr a b scale ew i =
      ((c.g[a]).toNat + vElem c.v[Fin.ofNat 32 (b.val + i / 16)] 32 (i % 16) * (if scale then 2 ^ ew.val else 1)) % 2 ^ 64 := by
  rw [Tile.indexAddr, addr64, unsignedOf]
  cases scale
  · exact_mod_cast Int.toNat_natCast _
  · exact_mod_cast Int.toNat_natCast _

/-! Reading elements. -/

theorem State.sparLoad_sameRegs (s : State) (t : TileId) (a n : Nat) (p : CPar) : s.SameRegs (s.sparLoad t a n p).2 := by
  unfold State.sparLoad
  split
  · exact State.SameRegs.refl s
  · split
    · exact State.SameRegs.refl s
    · exact s.loadBytes_sameRegs t a n p

/-- One element of a vector load is read, unless one before it faulted. -/
def State.vReadStep (t : TileId) (addr : Nat → Nat) (bytes pe : Nat) (par : CPar) (acc : VLoad × State) (i : Nat) : VLoad × State :=
  if acc.1.fault.isSome then acc else
  let r := acc.2.sparLoad t (addr i) bytes (if i == pe then par else .none)
  match r.1.data with
  | .ok d => ({ acc.1 with got := acc.1.got ++ [(i, leNat d)], lost := acc.1.lost ++ r.1.lost }, r.2)
  | .error f => ({ acc.1 with fault := some (i, f) }, r.2)

theorem State.vRead_eq (s : State) (t : TileId) (addr : Nat → Nat) (bytes pe : Nat) (par : CPar) (elems : List Nat) :
    s.vRead t addr bytes pe par elems = elems.foldl (State.vReadStep t addr bytes pe par) (⟨[], none, []⟩, s) := rfl

theorem State.vReadStep_sameRegs (t : TileId) (addr : Nat → Nat) (bytes pe : Nat) (par : CPar) (acc : VLoad × State) (i : Nat) :
    acc.2.SameRegs (State.vReadStep t addr bytes pe par acc i).2 := by
  unfold State.vReadStep
  split
  · exact State.SameRegs.refl _
  · have hload := acc.2.sparLoad_sameRegs t (addr i) bytes (if i == pe then par else .none)
    dsimp only
    split
    · exact hload
    · exact hload

theorem State.vRead_sameRegs (s : State) (t : TileId) (addr : Nat → Nat) (bytes pe : Nat) (par : CPar) (elems : List Nat) :
    s.SameRegs (s.vRead t addr bytes pe par elems).2 := by
  have hfold : ∀ (l : List Nat) (acc : VLoad × State), acc.2.SameRegs (l.foldl (State.vReadStep t addr bytes pe par) acc).2 := by
    intro l
    induction l with
    | nil => exact fun acc => State.SameRegs.refl _
    | cons i l ih => exact fun acc => (State.vReadStep_sameRegs t addr bytes pe par acc i).trans (ih _)
  exact hfold _ _

section
variable {s s' : State} {t : TileId} (h : Fetched s t s')
include h

theorem Fetched.sparLoad_scratch {x n : Nat} (halign : x % n = 0) (hbad : s'.firstBad t .load x n = none) (hx : inScratch x = true) :
    s'.sparLoad t x n .none = (⟨.ok ((s.tiles[t]).scratchGet x n), []⟩, s') := by
  rw [State.sparLoad, halign, hbad]
  exact h.loadBytes_scratch hx n

omit h in
theorem State.sparLoad_bad {s : State} {t : TileId} {x n : Nat} (hfault : ¬(x % n = 0 ∧ s.firstBad t .load x n = none)) (p : CPar) :
    ∃ f : SFault, f.lost = [] ∧ s.sparLoad t x n p = (⟨.error f, []⟩, s) := by
  by_cases halign : x % n = 0
  · cases hbad : s.firstBad t .load x n with
    | none => exact absurd ⟨halign, hbad⟩ hfault
    | some b =>
      refine ⟨.window b, rfl, ?_⟩
      rw [State.sparLoad, halign, hbad]
      rfl
  · exact ⟨.align x, rfl, if_pos (by simpa using halign)⟩

/-- Elements of scratch that are aligned and permitted are read one after another, and nothing changes. -/
theorem Fetched.vRead_scratch {addr : Nat → Nat} {bytes pe : Nat} (elems : List Nat)
    (hfits : ∀ i ∈ elems, (addr i % bytes = 0 ∧ s'.firstBad t .load (addr i) bytes = none) ∧ inScratch (addr i) = true)
    (got : List (Nat × Nat)) :
    elems.foldl (State.vReadStep t addr bytes pe .none) (⟨got, none, []⟩, s') =
      (⟨got ++ elems.map fun i => (i, leNat ((s.tiles[t]).scratchGet (addr i) bytes)), none, []⟩, s') := by
  induction elems generalizing got with
  | nil => rw [List.foldl_nil, List.map_nil, List.append_nil]
  | cons i elems ih =>
    obtain ⟨⟨halign, hbad⟩, hx⟩ := hfits i List.mem_cons_self
    have hstep : State.vReadStep t addr bytes pe .none (⟨got, none, []⟩, s') i =
        (⟨got ++ [(i, leNat ((s.tiles[t]).scratchGet (addr i) bytes))], none, []⟩, s') := by
      rw [State.vReadStep, if_neg (by simp), ite_self, h.sparLoad_scratch halign hbad hx]
      rfl
    rw [List.foldl_cons, hstep, ih fun j hj => hfits j (List.mem_cons_of_mem _ hj), List.map_cons, List.append_assoc]
    rfl

omit h in
theorem State.vReadStep_foldl_of_fault (addr : Nat → Nat) (bytes pe : Nat) (par : CPar) {acc : VLoad × State}
    (hfault : acc.1.fault.isSome = true) (elems : List Nat) : elems.foldl (State.vReadStep t addr bytes pe par) acc = acc := by
  induction elems with
  | nil => rfl
  | cons i elems ih => rw [List.foldl_cons, State.vReadStep, if_pos hfault, ih]

end

/-! What is filled in. -/

theorem Tile.vElem_vFill (c : Tile) (d : Reg) (z : Bool) (ew : Fin 4) {got : List (Nat × Nat)}
    (hgot : ∀ x ∈ got, x.2 < 2 ^ ewBits ew.val) :
    ∃ x : VecReg, c.vFill d z ew got = { c with v := c.v.set d x, vx := true } ∧ ∀ i, i < vElems ew.val → vElem x (ewBits ew.val) i =
      match got.find? fun (x : Nat × Nat) => x.1 == i with
      | some x => x.2
      | none => if z then 0 else vElem c.v[d] (ewBits ew.val) i := by
  refine ⟨_, rfl, fun i hi => ?_⟩
  have hfit : ∀ f : Nat → Nat, ewBits ew.val * ((List.range (vElems ew.val)).map f).length ≤ 512 := fun f => by
    rw [List.length_map, List.length_range, ewBits_mul_vElems]
  rw [vElem_vOf (ewBits_pos _) (hfit _)]
  have hat : ∀ f : Nat → Nat, ((List.range (vElems ew.val)).map f).getD i 0 = f i := fun f => by simp [hi]
  rw [hat]
  cases hfind : got.find? fun (x : Nat × Nat) => x.1 == i with
  | none =>
    dsimp only
    split_ifs
    · exact Nat.zero_mod _
    · exact Nat.mod_eq_of_lt (vElem_lt _ _ _)
  | some x => exact Nat.mod_eq_of_lt (hgot x (List.mem_of_find?_eq_some hfind))

theorem find?_map_pair (l : List Nat) (f : Nat → Nat) (i : Nat) :
    (l.map fun i => (i, f i)).find? (fun x => x.1 == i) = if i ∈ l then some (i, f i) else none := by
  induction l with
  | nil => rfl
  | cons j l ih =>
    rw [List.map_cons, List.find?_cons, ih]
    obtain rfl | hj := eq_or_ne j i
    · simp
    · rw [beq_false_of_ne hj]
      simp [hj.symm]

theorem Tile.mem_activeElems {c : Tile} {m : MReg} {n i : Nat} : i ∈ c.activeElems m n ↔ i < n ∧ c.active m i = true := by
  rw [Tile.activeElems, List.mem_filter, List.mem_range]

/-- What v(d) holds once the elements of a list are filled in from scratch. -/
theorem Tile.vElem_vFill_scratch (c : Tile) (d : Reg) (z : Bool) (ew : Fin 4) (addr : Nat → Nat) (elems : List Nat) :
    ∃ x : VecReg,
      c.vFill d z ew (elems.map fun i => (i, leNat (c.scratchGet (addr i) (2 ^ ew.val)))) = { c with v := c.v.set d x, vx := true } ∧
      ∀ i, i < vElems ew.val → vElem x (ewBits ew.val) i =
        if i ∈ elems then leNat (c.scratchGet (addr i) (2 ^ ew.val)) else if z then 0 else vElem c.v[d] (ewBits ew.val) i := by
  have hgot : ∀ x ∈ elems.map fun i => (i, leNat (c.scratchGet (addr i) (2 ^ ew.val))), x.2 < 2 ^ ewBits ew.val := by
    intro x hx
    obtain ⟨i, -, rfl⟩ := List.mem_map.mp hx
    have hlt := leNat_lt (c.scratchGet (addr i) (2 ^ ew.val))
    rwa [Tile.scratchGet, List.length_map, List.length_range, show 256 = 2 ^ 8 from rfl, ← pow_mul] at hlt
  obtain ⟨x, hx, helem⟩ := c.vElem_vFill d z ew hgot
  refine ⟨x, hx, fun i hi => ?_⟩
  rw [helem i hi, find?_map_pair]
  split_ifs <;> rfl

/-! The instructions. -/

section
variable {s s' s'' : State} {t : TileId} {d : Reg} {m : MReg} {z : Bool} {ew : Fin 4} {pe : Nat} {par : CPar} (h : Fetched s t s')
include h

/-- What an instruction that read memory and then changes its tile comes to. -/
theorem Fetched.retire_after (hsame : (s'.tiles[t]).sameRegs (s''.tiles[t])) {f : Tile → Tile}
    (hf : (f s''.tiles[t]).state = (s''.tiles[t]).state) (lost : List (Nat × Bool)) :
    (SOut.next (s''.modTile t f) lost).retire t (s.tiles[t]).pc.toNat = (s''.retires t f).chargeLost lost := by
  have hrun : ((s''.modTile t f).tiles[t]).state ≠ .reset := by
    rw [State.modTile_at, hf, hsame.state_eq]
    exact h.running
  rw [SOut.retire, State.setPc_of_ne_reset hrun, State.modTile_modTile, State.retires]
  refine congrArg (State.chargeLost · lost) (State.modTile_congr _ _ _ _ ?_)
  rw [Tile.past, hsame.pc_eq, h.pc_eq]

section
variable {word : Nat} (hlegal : vecLegal word = true) {addr : Tile → Nat → Nat} {A : Nat → Nat} (haddr : addr s'.tiles[t] = A) {r : VLoad}
  (hread : s'.vRead t A (2 ^ ew.val) pe par ((s.tiles[t]).activeElems m (vElems ew.val)) = (r, s''))
include hlegal haddr hread

theorem Fetched.vRead_same : (s'.tiles[t]).sameRegs (s''.tiles[t]) := by
  have hsame := s'.vRead_sameRegs t A (2 ^ ew.val) pe par ((s.tiles[t]).activeElems m (vElems ew.val)) t
  rwa [hread] at hsame

theorem Fetched.vLoad_eq (hr : r.fault = none) :
    s.vLoad t word d m z ew pe par addr = (s''.retires t fun c => c.vFill d z ew r.got).chargeLost r.lost := by
  have hact : (s'.tiles[t]).activeElems m (vElems ew.val) = (s.tiles[t]).activeElems m (vElems ew.val) :=
    (h.sameCore t).congr (fun c => c.activeElems m (vElems ew.val)) fun _ _ => rfl
  rw [State.vLoad, hlegal, h.sparWord_eq (fun hm => by cases hm)]
  dsimp only
  rw [haddr, hact, hread]
  dsimp only
  rw [hr]
  exact h.retire_after (h.vRead_same hlegal haddr hread) rfl _

theorem Fetched.vLoadFirst_eq (hr : r.fault = none) :
    s.vLoadFirst t word d m z ew pe par addr = (s''.retires t fun c => c.vFill d z ew r.got).chargeLost r.lost := by
  have hact : (s'.tiles[t]).activeElems m (vElems ew.val) = (s.tiles[t]).activeElems m (vElems ew.val) :=
    (h.sameCore t).congr (fun c => c.activeElems m (vElems ew.val)) fun _ _ => rfl
  rw [State.vLoadFirst, hlegal, h.sparWord_eq (fun hm => by cases hm)]
  dsimp only
  rw [haddr, hact, hread]
  dsimp only
  rw [hr]
  exact h.retire_after (h.vRead_same hlegal haddr hread) rfl _

end

/-- The elements of a vector load from scratch, where every active one is aligned and permitted. -/
theorem Fetched.vRead_all {addr : Nat → Nat} {n : Nat}
    (hfits : ∀ i, i < n → (s.tiles[t]).active m i = true →
      (addr i % 2 ^ ew.val = 0 ∧ s'.firstBad t .load (addr i) (2 ^ ew.val) = none) ∧ inScratch (addr i) = true) :
    s'.vRead t addr (2 ^ ew.val) pe .none ((s.tiles[t]).activeElems m n) =
      (⟨((s.tiles[t]).activeElems m n).map fun i => (i, leNat ((s.tiles[t]).scratchGet (addr i) (2 ^ ew.val))), none, []⟩, s') := by
  rw [State.vRead_eq]
  refine h.vRead_scratch _ (fun i hi => ?_) []
  obtain ⟨hlt, hact⟩ := Tile.mem_activeElems.mp hi
  exact hfits i hlt hact

omit h in
theorem Tile.activeElems_split {c : Tile} {m : MReg} {n k : Nat} (hk : k < n) (hact : c.active m k = true) :
    ∃ rest, c.activeElems m n = c.activeElems m k ++ k :: rest := by
  obtain ⟨j, rfl⟩ : ∃ j, n = k + 1 + j := ⟨n - (k + 1), by omega⟩
  refine ⟨((List.range j).map (k + 1 + ·)).filter (c.active m), ?_⟩
  rw [Tile.activeElems, Tile.activeElems, List.range_add, List.range_succ, List.filter_append, List.filter_append, List.filter_singleton,
    hact, List.append_assoc]
  rfl

/-- The elements of a vector load from scratch up to the first that faults. -/
theorem Fetched.vRead_cut {addr : Nat → Nat} {n k : Nat} (hk : k < n) (hact : (s.tiles[t]).active m k = true)
    (hfault : ¬(addr k % 2 ^ ew.val = 0 ∧ s'.firstBad t .load (addr k) (2 ^ ew.val) = none))
    (hfits : ∀ i, i < k → (s.tiles[t]).active m i = true →
      (addr i % 2 ^ ew.val = 0 ∧ s'.firstBad t .load (addr i) (2 ^ ew.val) = none) ∧ inScratch (addr i) = true) :
    ∃ f : SFault, f.lost = [] ∧ s'.vRead t addr (2 ^ ew.val) pe .none ((s.tiles[t]).activeElems m n) =
      (⟨((s.tiles[t]).activeElems m k).map fun i => (i, leNat ((s.tiles[t]).scratchGet (addr i) (2 ^ ew.val))), some (k, f), []⟩, s') := by
  obtain ⟨rest, hrest⟩ := Tile.activeElems_split hk hact
  obtain ⟨f, hlost, hload⟩ := State.sparLoad_bad hfault .none
  refine ⟨f, hlost, ?_⟩
  have hbefore := h.vRead_all (ew := ew) (pe := pe) hfits
  rw [State.vRead_eq] at hbefore ⊢
  rw [hrest, List.foldl_append, hbefore, List.foldl_cons]
  have hstep : ∀ got, State.vReadStep t addr (2 ^ ew.val) pe .none (⟨got, none, []⟩, s') k = (⟨got, some (k, f), []⟩, s') := by
    intro got
    rw [State.vReadStep, if_neg (by simp), ite_self, hload]
  rw [hstep]
  exact State.vReadStep_foldl_of_fault addr _ _ _ rfl rest

/-- v(d) filled from scratch, of the tile after the fetch. -/
theorem Fetched.vFill_scratch (addr : Nat → Nat) (elems : List Nat) :
    ∃ x : VecReg,
      ((s'.tiles[t]).vFill d z ew (elems.map fun i => (i, leNat ((s.tiles[t]).scratchGet (addr i) (2 ^ ew.val)))) =
        { s'.tiles[t] with v := (s'.tiles[t]).v.set d x, vx := true }) ∧
      ∀ i, i < vElems ew.val → vElem x (ewBits ew.val) i =
        if i ∈ elems then leNat ((s.tiles[t]).scratchGet (addr i) (2 ^ ew.val)) else if z then 0
        else vElem (s.tiles[t]).v[d] (ewBits ew.val) i := by
  have hget : (s'.tiles[t]).scratchGet = (s.tiles[t]).scratchGet := (h.sameCore t).congr Tile.scratchGet fun _ _ => rfl
  obtain ⟨x, hx, helem⟩ := (s'.tiles[t]).vElem_vFill_scratch d z ew addr elems
  rw [hget] at hx
  rw [hget, (h.sameCore t).v_eq] at helem
  exact ⟨x, hx, helem⟩

/-- A first-fault gather whose first faulting element is not its first active one completes under the mask that is cut. -/
theorem Fetched.vLoadFirst_cut {word : Nat} (hlegal : vecLegal word = true) {addr : Tile → Nat → Nat} {A : Nat → Nat}
    (haddr : addr s'.tiles[t] = A) (hm : m ≠ 0) {f k : Nat} (hf : f < k) (hfact : (s.tiles[t]).active m f = true) (hk : k < vElems ew.val)
    (hact : (s.tiles[t]).active m k = true) (hfault : ¬(A k % 2 ^ ew.val = 0 ∧ s'.firstBad t .load (A k) (2 ^ ew.val) = none))
    (hfits : ∀ i, i < k → (s.tiles[t]).active m i = true →
      (A i % 2 ^ ew.val = 0 ∧ s'.firstBad t .load (A i) (2 ^ ew.val) = none) ∧ inScratch (A i) = true) :
    ∃ x : VecReg, s.vLoadFirst t word d m z ew pe .none addr = s'.retires t (fun c =>
        { c with v := c.v.set d x, m := c.m.set m (BitVec.ofNat 64 ((c.m[m]).toNat % 2 ^ k)), vx := true }) ∧
      ∀ i, i < vElems ew.val → vElem x (ewBits ew.val) i =
        if i ∈ (s.tiles[t]).activeElems m k then leNat ((s.tiles[t]).scratchGet (A i) (2 ^ ew.val)) else if z then 0
        else vElem (s.tiles[t]).v[d] (ewBits ew.val) i := by
  obtain ⟨x, hx, helem⟩ := h.vFill_scratch (d := d) (z := z) (ew := ew) A ((s.tiles[t]).activeElems m k)
  obtain ⟨g, hlost, hread⟩ := h.vRead_cut (pe := pe) hk hact hfault hfits
  have hacts : (s'.tiles[t]).activeElems m (vElems ew.val) = (s.tiles[t]).activeElems m (vElems ew.val) :=
    (h.sameCore t).congr (fun c => c.activeElems m (vElems ew.val)) fun _ _ => rfl
  have hne : (((s.tiles[t]).activeElems m k).map fun i => (i, leNat ((s.tiles[t]).scratchGet (A i) (2 ^ ew.val)))).isEmpty = false := by
    rw [List.isEmpty_eq_false_iff]
    exact mt List.map_eq_nil_iff.mp (List.ne_nil_of_mem (Tile.mem_activeElems.mpr ⟨hf, hfact⟩))
  have hmask : (s'.tiles[t]).mask m = ((s'.tiles[t]).m[m]).toNat := Tile.mask_of_ne_zero _ hm
  refine ⟨x, ?_, helem⟩
  rw [State.vLoadFirst, hlegal, h.sparWord_eq (fun hm => by cases hm)]
  dsimp only
  rw [haddr, hacts, hread]
  dsimp only
  rw [hne, hlost, if_neg Bool.false_ne_true]
  have hset : ((s'.tiles[t]).vFill d z ew (((s.tiles[t]).activeElems m k).map fun i =>
      (i, leNat ((s.tiles[t]).scratchGet (A i) (2 ^ ew.val))))).setM m ((s'.tiles[t]).mask m % 2 ^ k) =
      { s'.tiles[t] with v := (s'.tiles[t]).v.set d x, m := (s'.tiles[t]).m.set m (BitVec.ofNat 64 (((s'.tiles[t]).m[m]).toNat % 2 ^ k)),
                         vx := true } := by
    rw [hx, Tile.setM_of_ne_zero _ hm, hmask]
  exact (h.retire_modTile (by rw [hset]; exact h.running)).trans (State.retires_congr _ _ _ _ hset)

end

end Sys2Proof.Machine
end

