-- ==== Sys2Proof/Proofs/VectorStores.lean ====
section
/-! SUPPORT. Vector stores and scatters (R361 to R366): elements in ascending order, the last one over a byte winning; and what the memory instructions come to. -/

namespace Sys2Proof.Machine

set_option Elab.async false

theorem State.chargeLost_nil (s : State) : s.chargeLost [] = s := rfl

/-! Elements stored to scratch one after another. -/

section
variable (addr : Nat → Nat) (bytes : Nat → Bytes)

/-- A tile after elements were stored to its scratch. -/
def Tile.scatter (addr : Nat → Nat) (bytes : Nat → Bytes) (c : Tile) (elems : List Nat) : Tile :=
  elems.foldl (fun c i => c.scratchPut (addr i) (bytes i)) c

theorem State.foldl_tileWrite_scratch (s : State) (t : TileId) (elems : List Nat) (hx : ∀ i ∈ elems, inScratch (addr i) = true) :
    elems.foldl (fun s i => s.tileWrite t (addr i) (bytes i)) s = s.modTile t fun c => c.scatter addr bytes elems := by
  induction elems generalizing s with
  | nil => exact (s.modTile_id t).symm
  | cons i elems ih =>
    rw [List.foldl_cons, ih _ fun j hj => hx j (List.mem_cons_of_mem _ hj), State.tileWrite, if_pos (hx i List.mem_cons_self),
      State.modTile_modTile]
    rfl

theorem Tile.scatter_eq (c : Tile) (elems : List Nat) : c.scatter addr bytes elems = { c with scratch := (c.scatter addr bytes elems).scratch } := by
  induction elems generalizing c with
  | nil => rfl
  | cons i elems ih =>
    rw [Tile.scatter, List.foldl_cons, ← Tile.scatter, ih, Tile.scratchPut_eq]

theorem Tile.scatter_append (c : Tile) (elems : List Nat) (i : Nat) :
    c.scatter addr bytes (elems ++ [i]) = (c.scatter addr bytes elems).scratchPut (addr i) (bytes i) := by
  rw [Tile.scatter, List.foldl_append, List.foldl_cons, List.foldl_nil, Tile.scatter]

theorem Tile.scatter_wf {c : Tile} (h : Memory.wf c.scratch = true) (elems : List Nat) :
    Memory.wf (c.scatter addr bytes elems).scratch = true := by
  induction elems generalizing c with
  | nil => exact h
  | cons i elems ih => exact ih (scratchPut_wf c (addr i) (bytes i) h)

end

/-- Byte o of scratch lies in the n bytes that element i is stored to. -/
def storesTo (addr : Nat → Nat) (n o i : Nat) : Bool := (o + 0x40000 - (addr i - scratchBase) % 0x40000) % 0x40000 < n

/-- Of the elements stored over a byte, the last one wins. -/
theorem Tile.memByte_scatter {c : Tile} (hwf : Memory.wf c.scratch = true) {addr val : Nat → Nat} {n : Nat} (hn : 0 < n) (hdvd : n ∣ 8)
    {elems : List Nat} (halign : ∀ i ∈ elems, addr i % n = 0) (hx : ∀ i ∈ elems, inScratch (addr i) = true) {o : Nat} (ho : o < 0x40000) :
    memByte (c.scatter addr (fun i => toLE n (val i)) elems).scratch o =
      ((elems.filter (storesTo addr n o)).getLast?).elim (memByte c.scratch o)
        fun i => BitVec.ofNat 8 (val i / 256 ^ ((o + 0x40000 - (addr i - scratchBase) % 0x40000) % 0x40000)) := by
  induction elems using List.reverseRecOn with
  | nil => rfl
  | append_singleton elems i ih =>
    have hbefore := ih (fun j hj => halign j (List.mem_append_left _ hj)) fun j hj => hx j (List.mem_append_left _ hj)
    have hi : i ∈ elems ++ [i] := List.mem_append_right _ List.mem_cons_self
    rw [Tile.scatter_append, Tile.memByte_scratchPut (Tile.scatter_wf _ _ hwf _) (hx i hi) hn hdvd (halign i hi) _ ho, hbefore,
      List.filter_append, List.filter_singleton]
    by_cases hcover : storesTo addr n o i = true
    · rw [if_pos (of_decide_eq_true hcover), hcover]
      simp
    · rw [if_neg (mt decide_eq_true hcover), eq_false_of_ne_true hcover]
      simp

section
variable {s s' : State} {t : TileId} {d : Reg} {m : MReg} {ew : Fin 4} (h : Fetched s t s')

theorem State.vStoreFault_eq_none {s : State} {addr : Nat → Nat} {bytes : Nat} {elems : List Nat}
    (hfits : ∀ i ∈ elems, addr i % bytes = 0 ∧ s.firstBad t .store (addr i) bytes = none) : s.vStoreFault t addr bytes elems = none := by
  refine List.findSome?_eq_none_iff.mpr fun i hi => ?_
  obtain ⟨halign, hbad⟩ := hfits i hi
  rw [halign, hbad]
  rfl

include h

/-- A vector store whose active elements are all aligned and permitted. -/
theorem Fetched.vStore_eq {word : Nat} (hlegal : vecLegal word = true) {addr : Tile → Nat → Nat} {A : Nat → Nat}
    (haddr : addr s'.tiles[t] = A)
    (hfits : ∀ i, i < vElems ew.val → (s.tiles[t]).active m i = true →
      A i % 2 ^ ew.val = 0 ∧ s'.firstBad t .store (A i) (2 ^ ew.val) = none) :
    s.vStore t word d m ew addr =
      (((s.tiles[t]).activeElems m (vElems ew.val)).foldl (fun s₁ i =>
        s₁.tileWrite t (A i) (toLE (2 ^ ew.val) (vElem (s.tiles[t]).v[d] (ewBits ew.val) i))) s').setPc t ((s.tiles[t]).pc.toNat + 4) := by
  have hacts : (s'.tiles[t]).activeElems m (vElems ew.val) = (s.tiles[t]).activeElems m (vElems ew.val) :=
    (h.sameCore t).congr (fun c => c.activeElems m (vElems ew.val)) fun _ _ => rfl
  have hnone : s'.vStoreFault t A (2 ^ ew.val) ((s.tiles[t]).activeElems m (vElems ew.val)) = none :=
    State.vStoreFault_eq_none fun i hi => by
      obtain ⟨hlt, hact⟩ := Tile.mem_activeElems.mp hi
      exact hfits i hlt hact
  rw [State.vStore, hlegal, h.sparWord_eq (fun hm => by cases hm)]
  dsimp only
  rw [haddr, hacts, hnone, (h.sameCore t).v_eq]
  rfl

/-- Such a store to scratch: the elements in ascending order, the last one over a byte winning. -/
theorem Fetched.vStore_scratch (hsound : s.sound) {A : Nat → Nat}
    (halign : ∀ i, i < vElems ew.val → (s.tiles[t]).active m i = true → A i % 2 ^ ew.val = 0)
    (hx : ∀ i, i < vElems ew.val → (s.tiles[t]).active m i = true → inScratch (A i) = true) {u : State}
    (hu : u = (((s.tiles[t]).activeElems m (vElems ew.val)).foldl (fun s₁ i =>
        s₁.tileWrite t (A i) (toLE (2 ^ ew.val) (vElem (s.tiles[t]).v[d] (ewBits ew.val) i))) s').setPc t ((s.tiles[t]).pc.toNat + 4)) :
    u = s'.retires t (fun c => { c with scratch := (u.tiles[t]).scratch }) ∧
    ∀ o, o < 0x40000 → memByte (u.tiles[t]).scratch o =
      ((((s.tiles[t]).activeElems m (vElems ew.val)).filter (storesTo A (2 ^ ew.val) o)).getLast?).elim (memByte (s.tiles[t]).scratch o)
        fun i => BitVec.ofNat 8 (vElem (s.tiles[t]).v[d] (ewBits ew.val) i /
          256 ^ ((o + 0x40000 - (A i - scratchBase) % 0x40000) % 0x40000)) := by
  have hscratch : (s'.tiles[t]).scratch = (s.tiles[t]).scratch := (h.sameCore t).congr Tile.scratch fun _ _ => rfl
  have hpow : 0 < 2 ^ ew.val ∧ 2 ^ ew.val ∣ 8 := by
    have hew : ew.val ≤ 3 := Nat.le_of_lt_succ ew.isLt
    exact ⟨Nat.two_pow_pos _, Nat.pow_dvd_pow 2 hew⟩
  have hin : ∀ i ∈ (s.tiles[t]).activeElems m (vElems ew.val), inScratch (A i) = true := fun i hi =>
    hx i (Tile.mem_activeElems.mp hi).1 (Tile.mem_activeElems.mp hi).2
  have hal : ∀ i ∈ (s.tiles[t]).activeElems m (vElems ew.val), A i % 2 ^ ew.val = 0 := fun i hi =>
    halign i (Tile.mem_activeElems.mp hi).1 (Tile.mem_activeElems.mp hi).2
  have hu' : u = s'.modTile t fun c =>
      { c.scatter A (fun i => toLE (2 ^ ew.val) (vElem (s.tiles[t]).v[d] (ewBits ew.val) i)) ((s.tiles[t]).activeElems m (vElems ew.val)) with
        pc := pcWord ((s.tiles[t]).pc.toNat + 4) } := by
    rw [hu, State.foldl_tileWrite_scratch A _ _ _ _ hin, State.setPc_of_ne_reset, State.modTile_modTile]
    rw [State.modTile_at, Tile.scatter_eq]
    exact h.running
  have hbytes : (u.tiles[t]).scratch = ((s'.tiles[t]).scatter A (fun i => toLE (2 ^ ew.val) (vElem (s.tiles[t]).v[d] (ewBits ew.val) i))
      ((s.tiles[t]).activeElems m (vElems ew.val))).scratch := by rw [hu', State.modTile_at]
  refine ⟨?_, fun o ho => ?_⟩
  · rw [hbytes]
    conv_lhs => rw [hu']
    refine State.modTile_congr _ _ _ _ ?_
    rw [Tile.past, h.pc_eq, Tile.scatter_eq]
  · rw [hbytes, ← hscratch]
    exact Tile.memByte_scatter (by rw [hscratch]; exact hsound.2 t) hpow.1 hpow.2 hal hin ho

end

/-- Settles O27: a load fills the register with what the elements read, up to the one that faults, and a store is made element by
element. -/
theorem vectorMemoryResults : Obligations.VectorMemoryResults := by
  intro s s' s'' t d a b m z scale ew pe par r hsound h c w n unit strided indexed byte fits loaded loads stores paired
  have hcore := h.sameCore t
  have hunit : (fun i => (s'.tiles[t]).unitAddr a ew i) = unit := funext fun i => by
    rw [unitAddr_eq, h.g_eq]
  have hstrided : (fun i => (s'.tiles[t]).strideAddr a b i) = strided := funext fun i => by
    rw [strideAddr_eq, h.g_eq]
  have hindexed : (fun i => (s'.tiles[t]).indexAddr a b scale ew i) = indexed := funext fun i => by
    rw [indexAddr_eq, h.g_eq, hcore.v_eq]
  have hpair : paired → b.val % ceilDiv (vElems ew.val) 16 = 0 := fun hp => by
    rw [vElems_ceil]
    exact hp
  have fill : ∀ {x : VecReg} {got : List (Nat × Nat)},
      (s'.tiles[t]).vFill d z ew got = { s'.tiles[t] with v := (s'.tiles[t]).v.set d x, vx := true } →
      (s'.retires t fun c => c.vFill d z ew got).chargeLost [] = s'.retires t fun c => { c with v := c.v.set d x, vx := true } :=
    fun hx => (State.chargeLost_nil _).trans (State.retires_congr _ _ _ _ hx)
  have filled : ∀ {x : VecReg} {A : Nat → Nat} {top : Nat}, top ≤ n → (∀ i, i < n → vElem x w i =
      if i ∈ c.activeElems m top then leNat (c.scratchGet (A i) (2 ^ ew.val)) else if z then 0 else vElem c.v[d] w i) → loaded A x top := by
    intro x A top htop hx i hi
    rw [hx i hi]
    exact if_congr (Tile.mem_activeElems.trans and_comm) rfl rfl
  have load : ∀ {ins : CPar → Instr} {addr : Tile → Nat → Nat} {A : Nat → Nat} {word : Nat},
      (∀ p, exec (ins p) s = .next (s.vLoad t word d m z ew pe p addr)) → vecLegal word = true → addr s'.tiles[t] = A → loads ins A := by
    intro ins addr A word hi hlegal haddr
    refine ⟨fun hread hr => (hi par).trans (congrArg _ (h.vLoad_eq hlegal haddr hread hr)), fun hfits => ?_⟩
    obtain ⟨x, hx, helem⟩ := h.vFill_scratch (d := d) (z := z) (ew := ew) A (c.activeElems m n)
    refine ⟨x, (hi .none).trans (congrArg _ ((h.vLoad_eq hlegal haddr (h.vRead_all hfits) rfl).trans (fill hx))), filled le_rfl helem⟩
  have first : ∀ {ins : CPar → Instr} {addr : Tile → Nat → Nat} {A : Nat → Nat} {word : Nat},
      (∀ p, exec (ins p) s = .next (s.vLoadFirst t word d m z ew pe p addr)) → vecLegal word = true → addr s'.tiles[t] = A → loads ins A := by
    intro ins addr A word hi hlegal haddr
    refine ⟨fun hread hr => (hi par).trans (congrArg _ (h.vLoadFirst_eq hlegal haddr hread hr)), fun hfits => ?_⟩
    obtain ⟨x, hx, helem⟩ := h.vFill_scratch (d := d) (z := z) (ew := ew) A (c.activeElems m n)
    refine ⟨x, (hi .none).trans (congrArg _ ((h.vLoadFirst_eq hlegal haddr (h.vRead_all hfits) rfl).trans (fill hx))), filled le_rfl helem⟩
  have store : ∀ {ins : Instr} {addr : Tile → Nat → Nat} {A : Nat → Nat} {word : Nat},
      exec ins s = .next (s.vStore t word d m ew addr) → vecLegal word = true → addr s'.tiles[t] = A → stores ins A := by
    intro ins addr A word hi hlegal haddr hfits
    have heq := hi.trans (congrArg _ (h.vStore_eq hlegal haddr hfits))
    refine ⟨heq, fun hx => ?_⟩
    obtain ⟨hu, hbytes⟩ := h.vStore_scratch (d := d) (m := m) (ew := ew) hsound (fun i hi hact => (hfits i hi hact).1) hx rfl
    refine ⟨_, heq, hu, fun o ho => ?_⟩
    have hfilter : (List.range n).filter (fun i => c.active m i &&
        decide ((o + 0x40000 - (A i - scratchBase) % 0x40000) % 0x40000 < 2 ^ ew.val)) =
        (c.activeElems m n).filter (storesTo A (2 ^ ew.val) o) := by
      rw [Tile.activeElems, List.filter_filter]
      exact List.filter_congr fun i _ => Bool.and_comm _ _
    intro covers
    rw [hfilter]
    have hbyte := hbytes o ho
    generalize hlast : ((c.activeElems m n).filter (storesTo A (2 ^ ew.val) o)).getLast? = last
    have hlast' : (((s.tiles[t]).activeElems m (vElems ew.val)).filter (storesTo A (2 ^ ew.val) o)).getLast? = last := hlast
    rw [hlast'] at hbyte
    cases last with
    | none => exact hbyte
    | some i => exact hbyte
  clear_value loads stores
  have hgather : ∀ {func : Nat}, func = 4 ∨ func = 0xC ∨ func = 6 ∨ func = 0xE ∨ (func = 5 ∨ func = 0xD) ∧ m.val ≠ 0 → paired →
      vecLegal (wordV 0x33 func d.val a.val b.val m.val z ew.val) = true := fun hf hp =>
    vecLegal_indexed z d.isLt a.isLt b.isLt m.isLt ew.isLt hf (hpair hp)
  have hfirst : m ≠ 0 → paired → vecLegal (wordV 0x33 (5 + scale.toNat * 8) d.val a.val b.val m.val z ew.val) = true := fun hm hp =>
    hgather (.inr (.inr (.inr (.inr ⟨by cases scale <;> decide, fun h0 => hm (Fin.ext h0)⟩)))) hp
  refine ⟨?unit, ?strided, fun hp => ?gather, fun hp hm => ⟨?first, fun f k hf hk hfact hact hfault hfits => ?cut⟩, ?unitStore,
    ?stridedStore, fun hp => ?scatter⟩
  case unit => exact load (fun _ => rfl) (vecLegal_unit z d.isLt a.isLt (by decide) m.isLt ew.isLt (by decide) rfl) hunit
  case strided => exact load (fun _ => rfl) (vecLegal_strided z d.isLt a.isLt b.isLt m.isLt ew.isLt (by decide) (by decide)) hstrided
  case gather => exact load (fun _ => rfl) (hgather (by cases scale <;> simp) hp) hindexed
  case first => exact first (fun _ => rfl) (hfirst hm hp) hindexed
  case cut =>
    obtain ⟨x, hx, helem⟩ := h.vLoadFirst_cut (d := d) (z := z) (pe := pe)
      (addr := fun c i => c.indexAddr a b scale ew i) (hfirst hm hp) hindexed hm hf hfact hk hact hfault hfits
    exact ⟨x, congrArg Host.Outcome.next hx, filled hk.le helem⟩
  case unitStore => exact store rfl (vecLegal_unit z d.isLt a.isLt (by decide) m.isLt ew.isLt (by decide) rfl) hunit
  case stridedStore => exact store rfl (vecLegal_strided z d.isLt a.isLt b.isLt m.isLt ew.isLt (by decide) (by decide)) hstrided
  case scatter => exact store rfl (hgather (by cases scale <;> simp) hp) hindexed

end Sys2Proof.Machine
end

