-- ==== Sys2Proof/Proofs/TileStreams.lean ====
section
/-! SUPPORT. Streams over a tile's own scratch (R345, R346): the granules one after another, each with the bytes before it done. -/

namespace Sys2Proof.Machine

set_option Elab.async false

/-! The granules one after another. -/

section
variable (step : State → CPar → List (Nat × Bool) → Granule × List (Nat × Bool)) (at' : Nat → State → Prop) (stop : Nat → Prop) (va n : Nat)

/-- A granule that begins with `j` of the `n` bytes done, and meets no byte that stops the stream, does `granLen` bytes more. -/
def GoesOn : Prop := ∀ j s, at' j s → j < n → (∀ i, j ≤ i → i < j + granLen (va + j) (n - j) → ¬ stop i) →
  ∃ u, at' (j + granLen (va + j) (n - j)) u ∧
    step s .none [] = (if n - j == granLen (va + j) (n - j) then .done u else .more u, [])

/-- A granule that meets a byte that stops the stream ends there. -/
def StopsAt : Prop := ∀ j k s, at' j s → j ≤ k → k < j + granLen (va + j) (n - j) → stop k → (∀ i, j ≤ i → i < k → ¬ stop i) →
  ∃ u, at' k u ∧ step s .none [] = (.done u, [])

variable {step at' stop va n}

theorem streamLoop_goes (hgo : GoesOn step at' stop va n) (granules : Nat) {j : Nat} {s : State} (hs : at' j s) (hj : j < n)
    (hal : granules = 0 → (va + j) % 64 = 0) (hfree : ∀ i, j ≤ i → i < min n (j + 64 * granules - (va + j) % 64) → ¬ stop i) :
    ∃ u, at' (min n (j + 64 * granules - (va + j) % 64)) u ∧ streamLoop step granules s .none [] =
      if n ≤ j + 64 * granules - (va + j) % 64 then .next u [] else .hold u [] := by
  induction granules generalizing j s with
  | zero =>
    have hz := hal rfl
    refine ⟨s, by rwa [hz, show min n (j + 64 * 0 - 0) = j by omega], ?_⟩
    rw [hz, if_neg (by omega), streamLoop]
  | succ k ih =>
    have hlen : granLen (va + j) (n - j) = min (n - j) (64 - (va + j) % 64) := rfl
    obtain ⟨u, hu, hstep⟩ := hgo j s hs hj fun i h1 h2 => hfree i h1 (by omega)
    rw [streamLoop, hstep]
    by_cases hend : n - j = granLen (va + j) (n - j)
    · refine ⟨u, by rwa [show min n (j + 64 * (k + 1) - (va + j) % 64) = j + granLen (va + j) (n - j) by omega], ?_⟩
      rw [if_pos (beq_iff_eq.mpr hend), if_pos (by omega)]
    · rw [if_neg (by simpa using hend)]
      have hpos : j + 64 * (k + 1) - (va + j) % 64 =
          j + granLen (va + j) (n - j) + 64 * k - (va + (j + granLen (va + j) (n - j))) % 64 := by omega
      rw [hpos]
      exact ih hu (by omega) (fun _ => by omega) fun i h1 h2 => hfree i (by omega) (by omega)

theorem streamLoop_stops (hgo : GoesOn step at' stop va n) (hstop : StopsAt step at' stop va n) (granules : Nat) {j k : Nat} {s : State}
    (hs : at' j s) (hjk : j ≤ k) (hal : granules = 0 → (va + j) % 64 = 0) (hk : k < min n (j + 64 * granules - (va + j) % 64))
    (hat : stop k) (hfirst : ∀ i, j ≤ i → i < k → ¬ stop i) :
    ∃ u, at' k u ∧ streamLoop step granules s .none [] = .next u [] := by
  induction granules generalizing j s with
  | zero => exact absurd hk (by have := hal rfl; omega)
  | succ g ih =>
    have hlen : granLen (va + j) (n - j) = min (n - j) (64 - (va + j) % 64) := rfl
    by_cases hin : k < j + granLen (va + j) (n - j)
    · obtain ⟨u, hu, hstep⟩ := hstop j k s hs hjk hin hat hfirst
      exact ⟨u, hu, by rw [streamLoop, hstep]⟩
    · obtain ⟨u, hu, hstep⟩ := hgo j s hs (by omega) fun i h1 h2 => hfirst i h1 (by omega)
      have hmore : ¬ (n - j == granLen (va + j) (n - j)) = true := by
        rw [beq_iff_eq]
        omega
      rw [streamLoop, hstep, if_neg hmore]
      exact ih hu (by omega) (fun _ => by omega) (by omega) fun i h1 h2 => hfirst i (by omega) h2

end

/-! A stream over a tile's own scratch. -/

/-- A stream as it begins: the state, the registers of the two pointers and of the count, what stands in them, and whether the
second pointer moves. -/
structure StreamRun where
  base : State
  tile : TileId
  a : Reg
  b : Reg
  c : Reg
  va : Nat
  vb : Nat
  n : Nat
  two : Bool

namespace StreamRun

/-- The registers with the pointers and the count as given. -/
def regs (r : StreamRun) (g : Vector Word 32) (x y left : Nat) : Vector Word 32 :=
  (if r.two then (g.set r.a (BitVec.ofNat 64 x)).set r.b (BitVec.ofNat 64 y) else g.set r.a (BitVec.ofNat 64 x)).set r.c
    (BitVec.ofNat 64 left)

/-- The state with `j` bytes done and `scr` in scratch. -/
def after (r : StreamRun) (scr : List Host.Cell) (j : Nat) : State :=
  r.base.modTile r.tile fun e => { e with g := r.regs e.g (r.va + j) (r.vb + j) (r.n - j), scratch := scr }

/-- The registers hold the pointers and the count; the registers are three, and nothing wraps. -/
structure Begins (r : StreamRun) : Prop where
  ne_ab : r.a ≠ r.b
  ne_ac : r.a ≠ r.c
  ne_bc : r.b ≠ r.c
  reg_a : ((r.base.tiles[r.tile]).g[r.a]).toNat = r.va
  reg_b : ((r.base.tiles[r.tile]).g[r.b]).toNat = r.vb
  reg_c : ((r.base.tiles[r.tile]).g[r.c]).toNat = r.n
  fits_a : r.va + r.n < 2 ^ 64
  fits_b : r.two = true → r.vb + r.n < 2 ^ 64
  fits_c : r.n < 2 ^ 64

variable {r : StreamRun} {scr : List Host.Cell} {j : Nat}

theorem regs_getElem (g : Vector Word 32) (x y left : Nat) (d : Reg) : (r.regs g x y left)[d] =
    if r.c = d then BitVec.ofNat 64 left else if r.two = true ∧ r.b = d then BitVec.ofNat 64 y
      else if r.a = d then BitVec.ofNat 64 x else g[d] := by
  have hget : ∀ (v : Vector Word 32) (i d : Reg) (w : Word), (v.set i w)[d] = if i = d then w else v[d] := fun v i d w => by
    simp [Vector.getElem_set, Fin.ext_iff]
  unfold regs
  rw [hget]
  split
  · rfl
  · cases r.two
    · simp [hget]
    · simp [hget]

theorem Begins.regs_zero (h : r.Begins) : r.regs (r.base.tiles[r.tile]).g r.va r.vb r.n = (r.base.tiles[r.tile]).g := by
  refine Vector.ext fun i hi => ?_
  have hget := regs_getElem (r := r) (r.base.tiles[r.tile]).g r.va r.vb r.n ⟨i, hi⟩
  have hword : ∀ d : Reg, ∀ v, ((r.base.tiles[r.tile]).g[d]).toNat = v → BitVec.ofNat 64 v = (r.base.tiles[r.tile]).g[d] := by
    rintro d _ rfl
    simp
  have hsame : ∀ d : Reg, d = ⟨i, hi⟩ → (r.base.tiles[r.tile]).g[d] = (r.base.tiles[r.tile]).g[i] := by
    rintro d rfl
    rfl
  refine Eq.trans hget ?_
  split
  case isTrue e => rw [hword _ _ h.reg_c, hsame _ e]
  split
  case isTrue e => rw [hword _ _ h.reg_b, hsame _ e.2]
  split
  case isTrue e => rw [hword _ _ h.reg_a, hsame _ e]
  rfl

theorem Begins.after_zero (h : r.Begins) : r.after (r.base.tiles[r.tile]).scratch 0 = r.base := by
  refine (State.modTile_congr _ _ _ id ?_).trans (State.modTile_id _ _)
  show ({ r.base.tiles[r.tile] with g := r.regs (r.base.tiles[r.tile]).g r.va r.vb r.n } : Tile) = r.base.tiles[r.tile]
  rw [h.regs_zero]

theorem after_tile : (r.after scr j).tiles[r.tile] =
    { r.base.tiles[r.tile] with g := r.regs (r.base.tiles[r.tile]).g (r.va + j) (r.vb + j) (r.n - j), scratch := scr } :=
  State.modTile_at _ _ _

theorem Begins.after_a (h : r.Begins) (hj : j ≤ r.n) : (((r.after scr j).tiles[r.tile]).g[r.a]).toNat = r.va + j := by
  have := h.fits_a
  rw [after_tile, regs_getElem, if_neg h.ne_ac.symm, if_neg (fun e => h.ne_ab e.2.symm), if_pos rfl, BitVec.toNat_ofNat,
    Nat.mod_eq_of_lt (by omega)]

theorem Begins.after_b (h : r.Begins) (hj : j ≤ r.n) :
    (((r.after scr j).tiles[r.tile]).g[r.b]).toNat = if r.two then r.vb + j else r.vb := by
  rw [after_tile, regs_getElem, if_neg h.ne_bc.symm]
  cases htwo : r.two
  · rw [if_neg (by simp), if_neg h.ne_ab, h.reg_b]
    simp
  · have := h.fits_b htwo
    rw [if_pos ⟨rfl, rfl⟩, BitVec.toNat_ofNat, Nat.mod_eq_of_lt (by omega)]
    simp

theorem Begins.after_c (h : r.Begins) : (((r.after scr j).tiles[r.tile]).g[r.c]).toNat = r.n - j := by
  have := h.fits_c
  rw [after_tile, regs_getElem, if_pos rfl, BitVec.toNat_ofNat, Nat.mod_eq_of_lt (by omega)]

theorem regs_regs (g : Vector Word 32) (x y left x' y' left' : Nat) :
    r.regs (r.regs g x y left) x' y' left' = r.regs g x' y' left' := by
  refine Vector.ext fun i hi => ?_
  have h1 := regs_getElem (r := r) (r.regs g x y left) x' y' left' ⟨i, hi⟩
  have h2 := regs_getElem (r := r) g x' y' left' ⟨i, hi⟩
  have h3 := regs_getElem (r := r) g x y left ⟨i, hi⟩
  refine Eq.trans h1 (Eq.trans ?_ h2.symm)
  rw [h3]
  split_ifs <;> rfl

/-- The pointers and the count go to what is done. -/
theorem after_streamBack (k : Nat) {y : Nat} (hy : r.two = true → y = r.vb + k) : ((r.after scr j).modTile r.tile fun x =>
    x.streamBack r.a r.b r.c (r.va + k) y (r.n - k) r.two) = r.after scr k := by
  rw [after, after, State.modTile_modTile]
  refine State.modTile_congr _ _ _ _ ?_
  generalize r.base.tiles[r.tile] = e
  have hback : ∀ e : Tile, e.streamBack r.a r.b r.c (r.va + k) y (r.n - k) r.two =
      { e with g := r.regs e.g (r.va + k) (r.vb + k) (r.n - k) } := by
    intro e
    unfold Tile.streamBack regs
    cases htwo : r.two
    · rfl
    · rw [hy htwo]
      rfl
  rw [hback]
  simp only [regs_regs]

/-! Reading and writing within the tile's own scratch. -/

/-- The bytes from `x` on that the stream runs over lie in the tile's own scratch and are permitted. -/
structure Own (r : StreamRun) (k : SAcc) (x : Nat) : Prop where
  low : scratchBase ≤ x
  high : x + r.n ≤ scratchBase + 0x40000
  permitted : ∀ i, i < r.n → r.base.byteOk r.tile k (x + i) = true

theorem Own.lt_two_pow {k : SAcc} {x : Nat} (h : r.Own k x) : x + r.n < 2 ^ 64 := by
  have := h.high
  simp only [scratchBase] at this
  omega

theorem Own.inScratch {k : SAcc} {x : Nat} (h : r.Own k x) (hj : j < r.n) : inScratch (x + j) = true := by
  have hlow := h.low
  have hhigh := h.high
  simp only [Machine.inScratch, Bool.and_eq_true, decide_eq_true_eq]
  omega

theorem after_byteOk (k : SAcc) (x : Nat) : (r.after scr j).byteOk r.tile k x = r.base.byteOk r.tile k x := by
  unfold State.byteOk State.windowGrants
  rw [after_tile]
  rfl

theorem Own.firstBad {k : SAcc} {x : Nat} (h : r.Own k x) {l : Nat} (hl : j + l ≤ r.n) :
    (r.after scr j).firstBad r.tile k (x + j) l = none := by
  rw [State.firstBad, List.find?_eq_none]
  intro y hy
  obtain ⟨i, hi, rfl⟩ := List.mem_map.mp hy
  have hi := List.mem_range.mp hi
  rw [after_byteOk, Nat.add_assoc, h.permitted _ (by omega)]
  simp

theorem Own.loadBytes {k : SAcc} {x : Nat} (h : r.Own k x) {l : Nat} (hl : j + l ≤ r.n) (hpos : 0 < l) :
    (r.after scr j).loadBytes r.tile (x + j) l .none =
      (⟨.ok ((List.range l).map fun i => memByte scr (x - scratchBase + (j + i))), []⟩, r.after scr j) := by
  have hget : ((r.after scr j).tiles[r.tile]).scratchGet (x + j) l =
      (List.range l).map fun i => memByte scr (x - scratchBase + (j + i)) := by
    have hlow := h.low
    have hhigh := h.high
    refine List.map_congr_left fun i hi => ?_
    have hi := List.mem_range.mp hi
    rw [after_tile, show (x + j + i - scratchBase) % 0x40000 = x - scratchBase + (j + i) by omega]
  simp only [State.loadBytes, State.parityMet, State.tileRead, h.inScratch (show j < r.n by omega), if_true, hget]
  rfl

theorem Own.tileWrite {k : SAcc} {x : Nat} (h : r.Own k x) {d : Bytes} (hl : j + d.length ≤ r.n) (hpos : 0 < d.length) :
    (r.after scr j).tileWrite r.tile (x + j) d = r.after (memPutBytes scr (x - scratchBase + j) d) j := by
  have hlow := h.low
  have hhigh := h.high
  have hoff : (x + j - scratchBase) % 0x40000 = x - scratchBase + j := by omega
  rw [State.tileWrite, if_pos (h.inScratch (by omega)), after, after, State.modTile_modTile]
  refine State.modTile_congr _ _ _ _ ?_
  rw [Tile.scratchPut_eq, Tile.scratchPut_scratch _ (by omega) (by rw [hoff]; omega), hoff]

/-- The state with `j` bytes done, whose scratch holds the bytes `bytes j`. -/
def At (r : StreamRun) (bytes : Nat → Nat → Byte) (j : Nat) (u : State) : Prop :=
  ∃ scr, u = r.after scr j ∧ Memory.wf scr = true ∧ ∀ o, o < 0x40000 → memByte scr o = bytes j o

/-- Scratch with the first `j` bytes from `va` on replaced by `d`. -/
def written (r : StreamRun) (d : Nat → Byte) (j o : Nat) : Byte :=
  if r.va - scratchBase ≤ o ∧ o < r.va - scratchBase + j then d (o - (r.va - scratchBase))
  else memByte (r.base.tiles[r.tile]).scratch o

theorem written_zero (d : Nat → Byte) (o : Nat) : r.written d 0 o = memByte (r.base.tiles[r.tile]).scratch o :=
  if_neg (by omega)

/-- The next bytes written behind the first. -/
theorem written_add {d : Nat → Byte} (hwf : Memory.wf scr = true) (hscr : ∀ o, o < 0x40000 → memByte scr o = r.written d j o)
    (l : Nat) {o : Nat} (ho : o < 0x40000) :
    memByte (memPutBytes scr (r.va - scratchBase + j) ((List.range l).map fun i => d (j + i))) o = r.written d (j + l) o := by
  rw [memByte_memPutBytes _ _ _ hwf, hscr o ho, List.length_map, List.length_range]
  unfold written
  by_cases h1 : r.va - scratchBase + j ≤ o ∧ o < r.va - scratchBase + j + l
  · rw [if_pos h1, if_pos (by omega)]
    have hi : o - (r.va - scratchBase + j) < l := by omega
    simp only [List.getD_eq_getElem?_getD, List.getElem?_map, List.getElem?_range hi, Option.map_some, Option.getD_some]
    exact congrArg d (show j + (o - (r.va - scratchBase + j)) = o - (r.va - scratchBase) by omega)
  · rw [if_neg h1]
    by_cases h2 : r.va - scratchBase ≤ o ∧ o < r.va - scratchBase + j
    · rw [if_pos h2, if_pos (by omega)]
    · rw [if_neg h2, if_neg (by omega)]

theorem written_eq_of_not_mem {d : Nat → Byte} {o : Nat} (h : ¬ (r.va - scratchBase ≤ o ∧ o < r.va - scratchBase + j)) :
    r.written d j o = memByte (r.base.tiles[r.tile]).scratch o := if_neg h

/-- The next granule's bytes written, and the registers moved on. -/
theorem Begins.granule_writes {d : Nat → Byte} {u : State} (hown : r.Own .store r.va) (hu : r.At (r.written d) j u)
    {l : Nat} (hpos : 0 < l) (hl : j + l ≤ r.n) {y : Nat} (hy : r.two = true → y = r.vb + (j + l)) :
    r.At (r.written d) (j + l) ((u.tileWrite r.tile (r.va + j) ((List.range l).map fun i => d (j + i))).modTile r.tile fun x =>
      x.streamBack r.a r.b r.c (r.va + (j + l)) y (r.n - (j + l)) r.two) := by
  obtain ⟨scr, rfl, hwf, hscr⟩ := hu
  refine ⟨memPutBytes scr (r.va - scratchBase + j) ((List.range l).map fun i => d (j + i)), ?_, memPutBytes_wf _ _ hwf,
    fun o ho => written_add hwf hscr l ho⟩
  rw [hown.tileWrite (by simpa using hl) (by simpa using hpos), after_streamBack _ hy]

theorem granLen_pos {x l : Nat} (h : 0 < l) : 0 < granLen x l := by
  unfold granLen
  omega

theorem granLen_le (x l : Nat) : granLen x l ≤ l := Nat.min_le_left _ _

/-! MOVS. -/

/-- The bytes that MOVS moves. -/
def source (r : StreamRun) (i : Nat) : Byte := memByte (r.base.tiles[r.tile]).scratch (r.vb - scratchBase + i)

theorem Begins.movs_goesOn (h : r.Begins) (htwo : r.two = true) (hdst : r.Own .store r.va) (hsrc : r.Own .load r.vb)
    (hapart : r.va + r.n ≤ r.vb ∨ r.vb + r.n ≤ r.va) :
    GoesOn (movsGranule r.tile r.a r.b r.c) (r.At (r.written r.source)) (fun _ => False) r.va r.n := by
  intro j u hu hj _
  have hpos := granLen_pos (x := r.va + j) (show 0 < r.n - j by omega)
  have hle := granLen_le (r.va + j) (r.n - j)
  have hgran := Begins.granule_writes hdst hu hpos (by omega) (y := r.vb + (j + granLen (r.va + j) (r.n - j))) fun _ => rfl
  refine ⟨_, hgran, ?_⟩
  obtain ⟨scr, rfl, hwf, hscr⟩ := hu
  have hread : ((List.range (granLen (r.va + j) (r.n - j))).map fun i => memByte scr (r.vb - scratchBase + (j + i))) =
      (List.range (granLen (r.va + j) (r.n - j))).map fun i => r.source (j + i) := by
    refine List.map_congr_left fun i hi => ?_
    have hi := List.mem_range.mp hi
    have h1 := hdst.low
    have h2 := hsrc.low
    have h3 := hsrc.high
    rw [hscr _ (by omega), written_eq_of_not_mem (by omega), source]
  have hzero : ¬ (r.n - j == 0) = true := by rw [beq_iff_eq]; omega
  simp only [movsGranule, h.after_a hj.le, h.after_b hj.le, htwo, if_true, h.after_c]
  rw [if_neg hzero, hsrc.firstBad (by omega), hdst.firstBad (by omega), hsrc.loadBytes (by omega) hpos, hread]
  simp only [Nat.add_assoc, Nat.sub_sub]
  rfl

/-! FILLS. -/

/-- The byte that FILLS puts at the `i`th place. -/
def fill (r : StreamRun) (i : Nat) : Byte := BitVec.ofNat 8 (r.vb / 2 ^ (8 * ((r.va + i) % 8)))

theorem Begins.fills_goesOn (h : r.Begins) (htwo : r.two = false) (hdst : r.Own .store r.va) :
    GoesOn (fillsGranule r.tile r.a r.b r.c) (r.At (r.written r.fill)) (fun _ => False) r.va r.n := by
  intro j u hu hj _
  have hpos := granLen_pos (x := r.va + j) (show 0 < r.n - j by omega)
  have hle := granLen_le (r.va + j) (r.n - j)
  have hgran := Begins.granule_writes hdst hu hpos (by omega) (y := r.vb) fun e => absurd e (by simp [htwo])
  refine ⟨_, hgran, ?_⟩
  obtain ⟨scr, rfl, hwf, hscr⟩ := hu
  have hbytes : ((upFrom (r.va + j) (granLen (r.va + j) (r.n - j))).map fun y => BitVec.ofNat 8 (r.vb / 2 ^ (8 * (y % 8)))) =
      (List.range (granLen (r.va + j) (r.n - j))).map fun i => r.fill (j + i) := by
    rw [upFrom, List.map_map]
    refine List.map_congr_left fun i _ => ?_
    rw [fill, Function.comp_apply, Nat.add_assoc]
  have hzero : ¬ (r.n - j == 0) = true := by rw [beq_iff_eq]; omega
  simp only [fillsGranule, h.after_a hj.le, h.after_b hj.le, htwo, h.after_c]
  rw [if_neg hzero, hdst.firstBad (by omega)]
  simp only [Bool.false_eq_true, if_false, hbytes, Nat.add_assoc, Nat.sub_sub]

/-! CMPS and SCANS, which write nothing. -/

theorem At.scratch_kept {u : State} {k : Nat} (hu : ∃ scr, u = r.after scr j ∧ Memory.wf scr = true ∧
    ∀ o, o < 0x40000 → memByte scr o = memByte (r.base.tiles[r.tile]).scratch o) {y : Nat} (hy : r.two = true → y = r.vb + k) :
    r.At (fun _ => memByte (r.base.tiles[r.tile]).scratch) k (u.modTile r.tile fun x =>
      x.streamBack r.a r.b r.c (r.va + k) y (r.n - k) r.two) := by
  obtain ⟨scr, rfl, hwf, hscr⟩ := hu
  exact ⟨scr, after_streamBack _ hy, hwf, hscr⟩

/-- The `i`th byte of an operand that stands in scratch from `x` on. -/
def operand (r : StreamRun) (x i : Nat) : Byte := memByte (r.base.tiles[r.tile]).scratch (x - scratchBase + i)

theorem getElem?_map_range {l i : Nat} (hi : i < l) (f : Nat → Byte) : ((List.range l).map f)[i]? = some (f i) := by
  simp [hi]

theorem find?_range_none {l : Nat} {p : Nat → Bool} (h : ∀ i, i < l → p i = false) : (List.range l).find? p = none :=
  List.find?_eq_none.mpr fun i hi => by simp [h i (List.mem_range.mp hi)]

theorem find?_range_some {l k : Nat} {p : Nat → Bool} (hk : k < l) (hp : p k = true) (h : ∀ i, i < k → p i = false) :
    (List.range l).find? p = some k := by
  rw [List.find?_range_eq_some]
  exact ⟨hp, List.mem_range.mpr hk, fun i hi => by simp [h i hi]⟩

/-- The bytes of a granule that CMPS or SCANS reads. -/
theorem operand_eq {x : Nat} (hown : r.Own .load x) (hscr : ∀ o, o < 0x40000 → memByte scr o = memByte (r.base.tiles[r.tile]).scratch o)
    {l : Nat} (hl : j + l ≤ r.n) :
    ((List.range l).map fun i => memByte scr (x - scratchBase + (j + i))) = (List.range l).map fun i => r.operand x (j + i) := by
  refine List.map_congr_left fun i hi => ?_
  have hi := List.mem_range.mp hi
  have h1 := hown.low
  have h2 := hown.high
  rw [hscr _ (by omega), operand]

/-- What a granule that only reads comes to, with `p` the places of it at which the stream stops. -/
def scanned (r : StreamRun) (scr : List Host.Cell) (j : Nat) (p : Nat → Bool) : Granule × List (Nat × Bool) :=
  ((List.range (granLen (r.va + j) (r.n - j))).find? p).elim
    (if r.n - j == granLen (r.va + j) (r.n - j) then .done (r.after scr (j + granLen (r.va + j) (r.n - j)))
      else .more (r.after scr (j + granLen (r.va + j) (r.n - j))), [])
    fun k => (.done (r.after scr (j + k)), [])

/-- A granule of CMPS over the tile's own scratch. -/
theorem Begins.cmps_eq (h : r.Begins) (htwo : r.two = true) (ha : r.Own .load r.va) (hb : r.Own .load r.vb) (hj : j < r.n)
    (hscr : ∀ o, o < 0x40000 → memByte scr o = memByte (r.base.tiles[r.tile]).scratch o) :
    cmpsGranule r.tile r.a r.b r.c (r.after scr j) .none [] = r.scanned scr j fun i =>
      ((List.range (granLen (r.va + j) (r.n - j))).map fun i => r.operand r.va (j + i))[i]? !=
        ((List.range (granLen (r.va + j) (r.n - j))).map fun i => r.operand r.vb (j + i))[i]? := by
  have hpos := granLen_pos (x := r.va + j) (show 0 < r.n - j by omega)
  have hle := granLen_le (r.va + j) (r.n - j)
  have hzero : ¬ (r.n - j == 0) = true := by rw [beq_iff_eq]; omega
  have hback : ∀ k, ((r.after scr j).modTile r.tile fun x =>
      x.streamBack r.a r.b r.c (r.va + (j + k)) (r.vb + (j + k)) (r.n - (j + k)) true) = r.after scr (j + k) := fun k => by
    rw [← after_streamBack (r := r) (j := j) (j + k) fun _ => rfl, htwo]
  simp only [scanned, cmpsGranule, h.after_a hj.le, h.after_b hj.le, htwo, if_true, h.after_c]
  rw [if_neg hzero, ha.firstBad (by omega), hb.firstBad (by omega), ha.loadBytes (by omega) hpos, operand_eq ha hscr (by omega)]
  dsimp only
  rw [hb.loadBytes (by omega) hpos, operand_eq hb hscr (by omega)]
  simp only [Nat.add_assoc, Nat.sub_sub, hback, List.nil_append]
  generalize List.find? _ _ = o
  cases o <;> rfl

/-- A granule of SCANS over the tile's own scratch. -/
theorem Begins.scans_eq (h : r.Begins) (htwo : r.two = false) (ha : r.Own .load r.va) (hj : j < r.n)
    (hscr : ∀ o, o < 0x40000 → memByte scr o = memByte (r.base.tiles[r.tile]).scratch o) :
    scansGranule r.tile r.a r.b r.c (r.after scr j) .none [] = r.scanned scr j fun i =>
      ((List.range (granLen (r.va + j) (r.n - j))).map fun i => r.operand r.va (j + i))[i]? == some (BitVec.ofNat 8 r.vb) := by
  have hpos := granLen_pos (x := r.va + j) (show 0 < r.n - j by omega)
  have hle := granLen_le (r.va + j) (r.n - j)
  have hzero : ¬ (r.n - j == 0) = true := by rw [beq_iff_eq]; omega
  have hback : ∀ k, ((r.after scr j).modTile r.tile fun x =>
      x.streamBack r.a r.b r.c (r.va + (j + k)) 0 (r.n - (j + k)) false) = r.after scr (j + k) := fun k => by
    rw [← after_streamBack (r := r) (j := j) (y := 0) (j + k) fun e => absurd e (by simp [htwo]), htwo]
  simp only [scanned, scansGranule, h.after_a hj.le, h.after_b hj.le, htwo, Bool.false_eq_true, if_false, h.after_c]
  rw [if_neg hzero, ha.firstBad (by omega), ha.loadBytes (by omega) hpos, operand_eq ha hscr (by omega)]
  simp only [Nat.add_assoc, Nat.sub_sub, hback, List.nil_append]
  generalize List.find? _ _ = o
  cases o <;> rfl

section
variable {step : State → CPar → List (Nat × Bool) → Granule × List (Nat × Bool)} {stop : Nat → Prop} {p : Nat → Nat → Bool}
  (hstep : ∀ scr j, j < r.n → (∀ o, o < 0x40000 → memByte scr o = memByte (r.base.tiles[r.tile]).scratch o) →
    step (r.after scr j) .none [] = r.scanned scr j (p j))
  (hp : ∀ j i, i < granLen (r.va + j) (r.n - j) → (p j i = true ↔ stop (j + i)))
include hstep hp

theorem scanned_goesOn : GoesOn step (r.At fun _ => memByte (r.base.tiles[r.tile]).scratch) stop r.va r.n := by
  rintro j _ ⟨scr, rfl, hwf, hscr⟩ hj hfree
  refine ⟨_, ⟨scr, rfl, hwf, hscr⟩, ?_⟩
  have hnone := find?_range_none (p := p j) fun i hi => by
    rw [← Bool.not_eq_true, hp j i hi]
    exact hfree (j + i) (by omega) (by omega)
  rw [hstep scr j hj hscr, scanned, hnone, Option.elim_none]

theorem scanned_stopsAt : StopsAt step (r.At fun _ => memByte (r.base.tiles[r.tile]).scratch) stop r.va r.n := by
  rintro j k _ ⟨scr, rfl, hwf, hscr⟩ hjk hk hat hfirst
  have hle := granLen_le (r.va + j) (r.n - j)
  obtain ⟨i, rfl⟩ := Nat.exists_eq_add_of_le hjk
  refine ⟨_, ⟨scr, rfl, hwf, hscr⟩, ?_⟩
  have hsome := find?_range_some (p := p j) (show i < granLen (r.va + j) (r.n - j) by omega) ((hp j i (by omega)).mpr hat)
    fun i' hi => by
      rw [← Bool.not_eq_true, hp j i' (by omega)]
      exact hfirst (j + i') (by omega) (by omega)
  rw [hstep scr j (by omega) hscr, scanned, hsome, Option.elim_some]

end

/-- CMPS stops at a byte that differs. -/
theorem cmps_place (i j l : Nat) (hi : i < l) :
    (((List.range l).map fun i => r.operand r.va (j + i))[i]? != ((List.range l).map fun i => r.operand r.vb (j + i))[i]?) = true ↔
      r.operand r.va (j + i) ≠ r.operand r.vb (j + i) := by
  rw [getElem?_map_range hi, getElem?_map_range hi]
  simp

/-- SCANS stops at a byte that is the key. -/
theorem scans_place (i j l : Nat) (hi : i < l) :
    (((List.range l).map fun i => r.operand r.va (j + i))[i]? == some (BitVec.ofNat 8 r.vb)) = true ↔
      r.operand r.va (j + i) = BitVec.ofNat 8 r.vb := by
  rw [getElem?_map_range hi]
  simp

theorem Begins.cmps_goesOn (h : r.Begins) (htwo : r.two = true) (ha : r.Own .load r.va) (hb : r.Own .load r.vb) :
    GoesOn (cmpsGranule r.tile r.a r.b r.c) (r.At fun _ => memByte (r.base.tiles[r.tile]).scratch)
      (fun i => r.operand r.va i ≠ r.operand r.vb i) r.va r.n :=
  scanned_goesOn (fun _ _ => h.cmps_eq htwo ha hb) fun j i hi => cmps_place i j _ hi

theorem Begins.cmps_stopsAt (h : r.Begins) (htwo : r.two = true) (ha : r.Own .load r.va) (hb : r.Own .load r.vb) :
    StopsAt (cmpsGranule r.tile r.a r.b r.c) (r.At fun _ => memByte (r.base.tiles[r.tile]).scratch)
      (fun i => r.operand r.va i ≠ r.operand r.vb i) r.va r.n :=
  scanned_stopsAt (fun _ _ => h.cmps_eq htwo ha hb) fun j i hi => cmps_place i j _ hi

theorem Begins.scans_goesOn (h : r.Begins) (htwo : r.two = false) (ha : r.Own .load r.va) :
    GoesOn (scansGranule r.tile r.a r.b r.c) (r.At fun _ => memByte (r.base.tiles[r.tile]).scratch)
      (fun i => r.operand r.va i = BitVec.ofNat 8 r.vb) r.va r.n :=
  scanned_goesOn (fun _ _ => h.scans_eq htwo ha) fun j i hi => scans_place i j _ hi

theorem Begins.scans_stopsAt (h : r.Begins) (htwo : r.two = false) (ha : r.Own .load r.va) :
    StopsAt (scansGranule r.tile r.a r.b r.c) (r.At fun _ => memByte (r.base.tiles[r.tile]).scratch)
      (fun i => r.operand r.va i = BitVec.ofNat 8 r.vb) r.va r.n :=
  scanned_stopsAt (fun _ _ => h.scans_eq htwo ha) fun j i hi => scans_place i j _ hi

end StreamRun

/-! What the instructions come to. -/

section
variable {s s' : State} {t : TileId}

/-- The run of a stream instruction. -/
def StreamRun.of (s s' : State) (t : TileId) (a b c : Reg) (two : Bool) : StreamRun where
  base := s'
  tile := t
  a := a
  b := b
  c := c
  va := ((s.tiles[t]).g[a]).toNat
  vb := ((s.tiles[t]).g[b]).toNat
  n := ((s.tiles[t]).g[c]).toNat
  two := two

theorem Fetched.scratch_eq (h : Fetched s t s') : (s'.tiles[t]).scratch = (s.tiles[t]).scratch := by rw [h.sameCore t]

/-- With nothing left to do every granule ends at once. -/
theorem Fetched.stream_empty (h : Fetched s t s') {step : State → CPar → List (Nat × Bool) → Granule × List (Nat × Bool)} {granules : Nat}
    (hpos : 0 < granules) (par : CPar) (hstep : step s' par [] = (.done s', [])) :
    s.spar t (fun s => streamLoop step granules s par []) = s'.retires t id := by
  obtain ⟨k, rfl⟩ := Nat.exists_eq_add_of_lt hpos
  rw [h.spar_eq, Nat.zero_add, streamLoop, hstep, ← h.retire_modTile (f := id) h.running, State.modTile_id]

/-- A stream that has run: the registers and scratch of the tile as they are then, and the program counter. -/
theorem Fetched.stream_ends (h : Fetched s t s') {a b c : Reg} {two : Bool} {i : Instr} {body : State → SOut} (hi : exec i s = .next (s.spar t body))
    {bytes : Nat → Nat → Byte} {k : Nat} {done : Bool}
    (hout : ∃ u, (StreamRun.of s s' t a b c two).At bytes k u ∧ body s' = if done then .next u [] else .hold u []) :
    ∃ u, exec i s = .next u ∧
      u = (s'.modTile t fun e => { e with
        g := (StreamRun.of s s' t a b c two).regs e.g (((s.tiles[t]).g[a]).toNat + k) (((s.tiles[t]).g[b]).toNat + k)
          (((s.tiles[t]).g[c]).toNat - k),
        pc := if done then pcWord ((s.tiles[t]).pc.toNat + 4) else e.pc, scratch := (u.tiles[t]).scratch }) ∧
      ∀ o, o < 0x40000 → memByte (u.tiles[t]).scratch o = bytes k o := by
  obtain ⟨_, ⟨scr, rfl, _, hscr⟩, hbody⟩ := hout
  have hrun : (((StreamRun.of s s' t a b c two).after scr k).tiles[t]).state ≠ .reset :=
    (congrArg Tile.state (StreamRun.after_tile (r := StreamRun.of s s' t a b c two))).trans_ne h.running
  have hform : ∃ f : Tile → Tile, (if done then SOut.next ((StreamRun.of s s' t a b c two).after scr k) []
      else .hold ((StreamRun.of s s' t a b c two).after scr k) []).retire t (s.tiles[t]).pc.toNat = s'.modTile t f ∧
      f = fun e => { e with
        g := (StreamRun.of s s' t a b c two).regs e.g (((s.tiles[t]).g[a]).toNat + k) (((s.tiles[t]).g[b]).toNat + k)
          (((s.tiles[t]).g[c]).toNat - k),
        pc := if done then pcWord ((s.tiles[t]).pc.toNat + 4) else e.pc, scratch := scr } := by
    refine ⟨_, ?_, rfl⟩
    cases done
    · rfl
    · rw [if_pos rfl, SOut.retire, State.setPc_of_ne_reset hrun, State.chargeLost_nil]
      exact State.modTile_modTile _ _ _ _
  obtain ⟨f, hf, rfl⟩ := hform
  refine ⟨_, by rw [hi, h.spar_eq, hbody, hf], ?_, ?_⟩
  · rw [State.modTile_at]
  · rw [State.modTile_at]
    exact hscr

/-- The run of a stream whose operands stand in scratch begins with what the registers hold. -/
theorem Fetched.begins (h : Fetched s t s') {a b c : Reg} {two : Bool} (hab : a ≠ b) (hac : a ≠ c) (hbc : b ≠ c)
    {ka kb : SAcc} (ha : (StreamRun.of s s' t a b c two).Own ka ((s.tiles[t]).g[a]).toNat)
    (hb : two = true → (StreamRun.of s s' t a b c two).Own kb ((s.tiles[t]).g[b]).toNat) : (StreamRun.of s s' t a b c two).Begins where
  ne_ab := hab
  ne_ac := hac
  ne_bc := hbc
  reg_a := congrArg (fun g : Vector Word 32 => (g[a]).toNat) h.g_eq
  reg_b := congrArg (fun g : Vector Word 32 => (g[b]).toNat) h.g_eq
  reg_c := congrArg (fun g : Vector Word 32 => (g[c]).toNat) h.g_eq
  fits_a := ha.lt_two_pow
  fits_b := fun e => (hb e).lt_two_pow
  fits_c := ((s.tiles[t]).g[c]).isLt

theorem Fetched.at_zero (h : Fetched s t s') (hsound : s.sound) {a b c : Reg} {two : Bool}
    (hb : (StreamRun.of s s' t a b c two).Begins) {bytes : Nat → Nat → Byte}
    (hbytes : ∀ o, o < 0x40000 → memByte (s.tiles[t]).scratch o = bytes 0 o) : (StreamRun.of s s' t a b c two).At bytes 0 s' := by
  refine ⟨(s'.tiles[t]).scratch, hb.after_zero.symm, ?_, ?_⟩
  · rw [h.scratch_eq]
    exact hsound.2 t
  · rw [h.scratch_eq]
    exact hbytes

/-- The operand from `x` on lies in the tile's own scratch and is permitted. -/
theorem Fetched.own (h : Fetched s t s') {a b c : Reg} {two : Bool} {k : SAcc} {x : Nat}
    (hx : scratchBase ≤ x ∧ x + ((s.tiles[t]).g[c]).toNat ≤ scratchBase + 0x40000 ∧
      ∀ i, i < ((s.tiles[t]).g[c]).toNat → s'.byteOk t k (x + i) = true) : (StreamRun.of s s' t a b c two).Own k x :=
  ⟨hx.1, hx.2.1, hx.2.2⟩

/-- The whole stream, with no byte that stops it. -/
theorem StreamRun.runs {r : StreamRun} {step : State → CPar → List (Nat × Bool) → Granule × List (Nat × Bool)} {bytes : Nat → Nat → Byte}
    {stop : Nat → Prop} (hgo : GoesOn step (r.At bytes) stop r.va r.n) {granules : Nat} (hg : 0 < granules) (hn : 0 < r.n)
    (hat : r.At bytes 0 s) (hfree : ∀ i, i < min r.n (64 * granules - r.va % 64) → ¬ stop i) :
    ∃ u, r.At bytes (min r.n (64 * granules - r.va % 64)) u ∧ streamLoop step granules s .none [] =
      if decide (min r.n (64 * granules - r.va % 64) = r.n) then .next u [] else .hold u [] := by
  obtain ⟨u, hu, hout⟩ := streamLoop_goes hgo granules hat hn (by omega) (by simpa using hfree)
  rw [Nat.zero_add, Nat.add_zero] at hu hout
  refine ⟨u, hu, hout.trans ?_⟩
  simp only [decide_eq_true_eq, min_eq_left_iff]

/-- The stream up to the first byte that stops it. -/
theorem StreamRun.stops {r : StreamRun} {step : State → CPar → List (Nat × Bool) → Granule × List (Nat × Bool)} {bytes : Nat → Nat → Byte}
    {stop : Nat → Prop} (hgo : GoesOn step (r.At bytes) stop r.va r.n) (hstop : StopsAt step (r.At bytes) stop r.va r.n) {granules k : Nat}
    (hg : 0 < granules) (hat : r.At bytes 0 s) (hk : k < min r.n (64 * granules - r.va % 64)) (hk' : stop k)
    (hfirst : ∀ i, i < k → ¬ stop i) :
    ∃ u, r.At bytes k u ∧ streamLoop step granules s .none [] = if true then .next u [] else .hold u [] := by
  obtain ⟨u, hu, hout⟩ := streamLoop_stops hgo hstop granules hat (Nat.zero_le k) (by omega) (by simpa using hk) hk' fun i _ => hfirst i
  exact ⟨u, hu, by rw [hout, if_pos rfl]⟩

/-- An operand's bytes as the statement names them. -/
theorem Fetched.operand_eq (h : Fetched s t s') {a b c : Reg} {two : Bool} {x : Nat} (hx : scratchBase ≤ x) (i : Nat) :
    (StreamRun.of s s' t a b c two).operand x i = memByte (s.tiles[t]).scratch (x + i - scratchBase) :=
  congrArg₂ memByte h.scratch_eq (by omega)

/-- Scratch with the first bytes replaced, as the statement names it. -/
theorem Fetched.written_eq (h : Fetched s t s') {a b c : Reg} {two : Bool} {d d' : Nat → Byte} {k o : Nat}
    (hlow : scratchBase ≤ ((s.tiles[t]).g[a]).toNat) (hd : ∀ i, d i = d' (((s.tiles[t]).g[a]).toNat + i)) :
    (StreamRun.of s s' t a b c two).written d k o =
      if ((s.tiles[t]).g[a]).toNat - scratchBase ≤ o ∧ o < ((s.tiles[t]).g[a]).toNat - scratchBase + k then d' (o + scratchBase)
      else memByte (s.tiles[t]).scratch o := by
  rw [← h.scratch_eq]
  unfold StreamRun.written
  refine ite_congr rfl (fun hin => ?_) fun _ => rfl
  have hsum : ∀ va, scratchBase ≤ va → va - scratchBase ≤ o → va + (o - (va - scratchBase)) = o + scratchBase := fun va h1 h2 => by omega
  rw [hd]
  exact congrArg d' (hsum _ hlow hin.1)

/-- Settles O19: a stream is an induction over its granules, each beginning with the bytes before it done. -/
theorem streamResults : Obligations.StreamResults := by
  unfold Obligations.StreamResults
  intro s s' t a b c granules par hsound h hgran e va vb n m pc byte ok ends
  refine ⟨fun hn => ?empty, fun hn hab hac hbc => ⟨?movs, ?fills, ?cmps, ?scans⟩⟩
  case empty =>
    have hzero : (((s'.tiles[t]).g[c]).toNat == 0) = true := by rw [h.g_eq]; exact beq_iff_eq.mpr hn
    refine ⟨congrArg Host.Outcome.next (h.stream_empty hgran _ ?_), congrArg Host.Outcome.next (h.stream_empty hgran _ ?_),
      congrArg Host.Outcome.next (h.stream_empty hgran _ ?_), congrArg Host.Outcome.next (h.stream_empty hgran _ ?_)⟩
    · rw [movsGranule, if_pos hzero]
    · rw [cmpsGranule, if_pos hzero]
    · rw [fillsGranule, if_pos hzero]
    · rw [scansGranule, if_pos hzero]
  case movs =>
    intro hdst hsrc hapart
    have hb := h.begins (two := true) hab hac hbc (h.own hdst) fun _ => h.own hsrc
    have hrun := StreamRun.runs (hb.movs_goesOn rfl (h.own hdst) (h.own hsrc) hapart) hgran hn
      (h.at_zero hsound hb fun o _ => ?_) fun _ _ => not_false
    · obtain ⟨u, hu, hreg, hscr⟩ := h.stream_ends (i := .movs t a b c granules .none) rfl hrun
      refine ⟨u, hu, hreg, fun o ho => (hscr o ho).trans ?_⟩
      refine h.written_eq hdst.1 (d' := fun x => byte (vb + (x - va))) fun i => ?_
      have hlow := hsrc.1
      rw [Nat.add_sub_cancel_left]
      exact congrArg₂ memByte h.scratch_eq (show vb - scratchBase + i = vb + i - scratchBase by omega)
    · rw [StreamRun.written_zero]
      exact congrArg (memByte · o) h.scratch_eq.symm
  case fills =>
    intro hdst
    have hb := h.begins (two := false) (kb := .load) hab hac hbc (h.own hdst) nofun
    have hrun := StreamRun.runs (hb.fills_goesOn rfl (h.own hdst)) hgran hn
      (h.at_zero hsound hb fun o _ => ?_) fun _ _ => not_false
    · obtain ⟨u, hu, hreg, hscr⟩ := h.stream_ends (i := .fills t a b c granules) rfl hrun
      refine ⟨u, hu, hreg, fun o ho => (hscr o ho).trans ?_⟩
      refine h.written_eq hdst.1 (d' := fun x => BitVec.ofNat 8 (vb / 256 ^ (x % 8))) fun i => ?_
      rw [StreamRun.fill, Nat.pow_mul]
      rfl
    · rw [StreamRun.written_zero]
      exact congrArg (memByte · o) h.scratch_eq.symm
  case cmps =>
    intro hx hy
    have hb := h.begins (two := true) hab hac hbc (h.own hx) fun _ => h.own hy
    have hstart := h.at_zero hsound hb (bytes := fun _ => memByte (s'.tiles[t]).scratch) fun o _ => by rw [h.scratch_eq]
    have hbyteA : ∀ i, (StreamRun.of s s' t a b c true).operand (StreamRun.of s s' t a b c true).va i = byte (va + i) := h.operand_eq hx.1
    have hbyteB : ∀ i, (StreamRun.of s s' t a b c true).operand (StreamRun.of s s' t a b c true).vb i = byte (vb + i) := h.operand_eq hy.1
    have hgo := hb.cmps_goesOn rfl (h.own hx) (h.own hy)
    have hstop := hb.cmps_stopsAt rfl (h.own hx) (h.own hy)
    have hends := fun k done => h.stream_ends (a := a) (b := b) (c := c) (k := k) (done := done) (two := true) (i := .cmps t a b c granules .none) rfl
      (bytes := fun _ => memByte (s'.tiles[t]).scratch)
    rw [show e.scratch = (s'.tiles[t]).scratch from h.scratch_eq.symm]
    refine ⟨fun k hk hne hsame => hends k true ?_, fun hsame => hends m (m = n) ?_⟩
    · refine StreamRun.stops hgo hstop hgran hstart hk ?_ fun i hi => ?_
      · rw [hbyteA, hbyteB]
        exact hne
      · rw [hbyteA, hbyteB, not_not]
        exact hsame i hi
    · refine StreamRun.runs hgo hgran hn hstart fun i hi => ?_
      rw [hbyteA, hbyteB, not_not]
      exact hsame i hi
  case scans =>
    intro hx
    have hb := h.begins (two := false) (kb := .load) hab hac hbc (h.own hx) nofun
    have hstart := h.at_zero hsound hb (bytes := fun _ => memByte (s'.tiles[t]).scratch) fun o _ => by rw [h.scratch_eq]
    have hbyteA : ∀ i, (StreamRun.of s s' t a b c false).operand (StreamRun.of s s' t a b c false).va i = byte (va + i) := h.operand_eq hx.1
    have hgo := hb.scans_goesOn rfl (h.own hx)
    have hstop := hb.scans_stopsAt rfl (h.own hx)
    have hends := fun k done => h.stream_ends (a := a) (b := b) (c := c) (k := k) (done := done) (two := false) (i := .scans t a b c granules .none) rfl
      (bytes := fun _ => memByte (s'.tiles[t]).scratch)
    rw [show e.scratch = (s'.tiles[t]).scratch from h.scratch_eq.symm]
    refine ⟨fun k hk hat hfree => hends k true ?_, fun hfree => hends m (m = n) ?_⟩
    · refine StreamRun.stops hgo hstop hgran hstart hk ?_ fun i hi => ?_
      · rw [hbyteA]
        exact hat
      · rw [hbyteA]
        exact hfree i hi
    · refine StreamRun.runs hgo hgran hn hstart fun i hi => ?_
      rw [hbyteA]
      exact hfree i hi

end
end Sys2Proof.Machine
end

