-- ==== Sys2Proof/Proofs/ErrorRecordFrames.lean ====
section
/-! SUPPORT. What an error record, a count, a stamp or a message of a function may change of the state, and what every such change leaves. -/

namespace Sys2Proof.Machine

set_option Elab.async false

/-! A part of the state that an error record, a count, a stamp or a message of a function may change. -/

/-- TS64 may have gone on, and stamps may have been drawn. -/
def TimeSt.Stamped (t u : TimeSt) : Prop :=
  ∃ ts seqs stamped, t.ts ≤ ts ∧ u = { t with ts := ts, seqs := seqs, stamped := stamped }

/-- Causes of interrupts and messages of a function may have been noted. -/
def HFunc.Signalled (x y : HFunc) : Prop :=
  ∃ cause pba heldOff merged, y = { x with pba := pba, heldOff := heldOff, merged := merged, regs := { x.regs with intCause := cause } }

def HostSt.Signalled (h k : HostSt) : Prop :=
  ∃ funcs, (∀ f : FuncId, (h.funcs[f]).Signalled funcs[f]) ∧ k = { h with funcs := funcs }

/-- The state with an error record, counts, stamps, signals of functions and what was sent out. -/
def State.Logged (s u : State) : Prop :=
  ∃ time err host ro outs ctr, s.time.Stamped time ∧ s.host.Signalled host ∧
    u = { s with time := time, err := err, host := host, dict := { s.dict with ro := ro }, outs := outs, freeCtr := ctr }

theorem TimeSt.Stamped.refl (t : TimeSt) : t.Stamped t := ⟨_, _, _, Nat.le_refl _, rfl⟩

theorem TimeSt.Stamped.trans {t u v : TimeSt} (h : t.Stamped u) (k : u.Stamped v) : t.Stamped v := by
  obtain ⟨_, _, _, h1, rfl⟩ := h
  obtain ⟨_, _, _, h2, rfl⟩ := k
  exact ⟨_, _, _, h1.trans h2, rfl⟩

theorem HFunc.Signalled.refl (x : HFunc) : x.Signalled x := ⟨_, _, _, _, rfl⟩

theorem HFunc.Signalled.trans {x y z : HFunc} (h : x.Signalled y) (k : y.Signalled z) : x.Signalled z := by
  obtain ⟨_, _, _, _, rfl⟩ := h
  obtain ⟨_, _, _, _, rfl⟩ := k
  exact ⟨_, _, _, _, rfl⟩

theorem HostSt.Signalled.refl (h : HostSt) : h.Signalled h := ⟨_, fun f => .refl _, rfl⟩

theorem HostSt.Signalled.trans {h k l : HostSt} (a : h.Signalled k) (b : k.Signalled l) : h.Signalled l := by
  obtain ⟨_, ha, rfl⟩ := a
  obtain ⟨_, hb, rfl⟩ := b
  exact ⟨_, fun f => (ha f).trans (hb f), rfl⟩

namespace State.Logged
variable {s u v : State}

theorem refl (s : State) : s.Logged s := ⟨_, _, _, _, _, _, .refl _, .refl _, rfl⟩

theorem trans (h : s.Logged u) (k : u.Logged v) : s.Logged v := by
  obtain ⟨_, _, _, _, _, _, ht, hh, rfl⟩ := h
  obtain ⟨_, _, _, _, _, _, kt, kh, rfl⟩ := k
  exact ⟨_, _, _, _, _, _, ht.trans kt, hh.trans kh, rfl⟩

/-! What it leaves. -/

theorem tables (h : s.Logged u) : u.tables = s.tables := by obtain ⟨_, _, _, _, _, _, _, _, rfl⟩ := h; rfl
theorem ingest (h : s.Logged u) : u.ingest = s.ingest := by obtain ⟨_, _, _, _, _, _, _, _, rfl⟩ := h; rfl
theorem plans (h : s.Logged u) : u.plans = s.plans := by obtain ⟨_, _, _, _, _, _, _, _, rfl⟩ := h; rfl
theorem purlin (h : s.Logged u) : u.purlin = s.purlin := by obtain ⟨_, _, _, _, _, _, _, _, rfl⟩ := h; rfl
theorem batten (h : s.Logged u) : u.batten = s.batten := by obtain ⟨_, _, _, _, _, _, _, _, rfl⟩ := h; rfl
theorem tiles (h : s.Logged u) : u.tiles = s.tiles := by obtain ⟨_, _, _, _, _, _, _, _, rfl⟩ := h; rfl
theorem thatch (h : s.Logged u) : u.thatch = s.thatch := by obtain ⟨_, _, _, _, _, _, _, _, rfl⟩ := h; rfl
theorem dram (h : s.Logged u) : u.dram = s.dram := by obtain ⟨_, _, _, _, _, _, _, _, rfl⟩ := h; rfl
theorem gutter (h : s.Logged u) : u.gutter = s.gutter := by obtain ⟨_, _, _, _, _, _, _, _, rfl⟩ := h; rfl
theorem yelm (h : s.Logged u) : u.yelm = s.yelm := by obtain ⟨_, _, _, _, _, _, _, _, rfl⟩ := h; rfl
theorem flash (h : s.Logged u) : u.flash = s.flash := by obtain ⟨_, _, _, _, _, _, _, _, rfl⟩ := h; rfl
theorem insts (h : s.Logged u) : u.insts = s.insts := by obtain ⟨_, _, _, _, _, _, _, _, rfl⟩ := h; rfl
theorem finial (h : s.Logged u) : u.finial = s.finial := by obtain ⟨_, _, _, _, _, _, _, _, rfl⟩ := h; rfl
theorem boot (h : s.Logged u) : u.boot = s.boot := by obtain ⟨_, _, _, _, _, _, _, _, rfl⟩ := h; rfl
theorem power (h : s.Logged u) : u.power = s.power := by obtain ⟨_, _, _, _, _, _, _, _, rfl⟩ := h; rfl
theorem mem (h : s.Logged u) : u.mem = s.mem := by obtain ⟨_, _, _, _, _, _, _, _, rfl⟩ := h; rfl
theorem pending (h : s.Logged u) : u.pending = s.pending := by obtain ⟨_, _, _, _, _, _, _, _, rfl⟩ := h; rfl
theorem cfg (h : s.Logged u) (index sub default : Nat) : u.cfg index sub default = s.cfg index sub default := by
  obtain ⟨_, _, _, _, _, _, _, _, rfl⟩ := h; rfl

theorem dict (h : s.Logged u) : ∃ ro, u.dict = { s.dict with ro := ro } := by
  obtain ⟨_, _, _, _, _, _, _, _, rfl⟩ := h
  exact ⟨_, rfl⟩

theorem time (h : s.Logged u) : s.time.Stamped u.time := by
  obtain ⟨_, _, _, _, _, _, ht, _, rfl⟩ := h
  exact ht

theorem host (h : s.Logged u) : s.host.Signalled u.host := by
  obtain ⟨_, _, _, _, _, _, _, hh, rfl⟩ := h
  exact hh

end State.Logged

/-! What leaves the state so. -/

theorem State.logged_modErr (s : State) (f : ErrSt → ErrSt) : s.Logged (s.modErr f) :=
  ⟨_, f s.err, _, _, _, _, .refl _, .refl _, rfl⟩

theorem State.logged_bump (s : State) (index sub n : Nat) : s.Logged (s.bump index sub n) :=
  ⟨_, _, _, _, _, _, .refl _, .refl _, rfl⟩

theorem State.logged_emit (s : State) (o : Out) : s.Logged (s.emit o) :=
  ⟨_, _, _, _, s.outs ++ [o], _, .refl _, .refl _, rfl⟩

theorem State.logged_fresh (s : State) : s.Logged s.fresh.2 := ⟨_, _, _, _, _, s.freeCtr + 1, .refl _, .refl _, rfl⟩

theorem State.logged_advanceTo (s : State) (due : Nat) : s.Logged (s.advanceTo due) :=
  ⟨_, _, _, _, _, _, ⟨max s.time.ts due, _, _, Nat.le_max_left _ _, rfl⟩, .refl _, rfl⟩

theorem State.logged_stamp (s : State) (src : Nat) : s.Logged (s.stamp src).2 :=
  ⟨_, _, _, _, _, _, ⟨max s.time.ts (s.stampTime src), _, _, Nat.le_max_left _ _, rfl⟩, .refl _, rfl⟩

theorem State.logged_modFunc (s : State) (f : FuncId) {g : HFunc → HFunc} (hg : (s.host.funcs[f]).Signalled (g s.host.funcs[f])) :
    s.Logged (s.modFunc f g) := by
  refine ⟨_, _, _, _, _, _, .refl _, ⟨s.host.funcs.set f (g s.host.funcs[f]), fun k => ?_, rfl⟩, rfl⟩
  by_cases hk : f.val = k.val
  · obtain rfl := Fin.ext hk
    rwa [show (s.host.funcs.set f (g s.host.funcs[f]))[f] = g s.host.funcs[f] by simp]
  · rw [show (s.host.funcs.set f (g s.host.funcs[f]))[k] = s.host.funcs[k] by simp [Vector.getElem_set, hk]]
    exact .refl _

theorem State.logged_sendVector (s : State) (f : FuncId) (v : Fin 32) : s.Logged (s.sendVector f v) := by
  unfold State.sendVector
  extract_lets x slot masked addr data sent
  split
  · exact .refl s
  have hpend : s.Logged (s.modFunc f (·.pend slot)) := s.logged_modFunc f ⟨_, _, _, _, rfl⟩
  have hmerge : s.Logged (s.modFunc f fun y => { y with merged := y.merged ||| 2 ^ v.val }) := s.logged_modFunc f ⟨_, _, _, _, rfl⟩
  split
  · exact hpend
  split
  · exact hmerge
  refine (s.logged_emit (.message f addr data)).trans (State.logged_modFunc _ f ?_)
  exact ⟨_, _, _, _, rfl⟩

theorem State.logged_eventCause (s : State) (f : FuncId) (bit : Nat) : s.Logged (s.eventCause f bit) := by
  unfold State.eventCause State.raiseCause
  dsimp only
  have hcause := s.logged_modFunc f (g := fun x => { x with regs := { x.regs with intCause := x.regs.intCause ||| 2 ^ bit } })
    ⟨_, _, _, _, rfl⟩
  split
  · exact hcause.trans (State.logged_sendVector _ f _)
  · exact hcause

theorem State.logged_traceTrigger (s : State) (r : ErrRec) : s.Logged (s.traceTrigger r) := by
  unfold State.traceTrigger
  dsimp only
  split
  · exact s.logged_modErr _
  · exact .refl s

theorem State.logged_raise (s : State) (src : Nat) (r : ErrRec) : s.Logged (s.raise src r) := by
  unfold State.raise
  dsimp only
  split
  · exact s.logged_modErr _
  have hpush := fun r' : ErrRec => (s.logged_stamp src).trans (State.logged_modErr _ (·.push r'))
  split
  · exact hpush _
  have htrace := fun r' : ErrRec => (hpush r').trans (State.logged_traceTrigger _ r')
  have hinst : ∀ (r' : ErrRec) (x : State), s.Logged x → s.Logged (if r'.inst < 64 then
      match (x.insts[Fin.ofNat 64 r'.inst]).func with | some f => x.eventCause f 4 | none => x else x) := by
    intro r' x hx
    split
    · split
      · exact hx.trans (State.logged_eventCause x _ 4)
      · exact hx
    · exact hx
  split
  · exact (hinst _ _ (htrace _)).trans (State.logged_eventCause _ _ 4)
  · exact hinst _ _ (htrace _)

end Sys2Proof.Machine
end

