-- ==== Sys2Proof/Proofs/TimeBaseMessages.lean ====
section
/-! SUPPORT. gPTP messages (R40, R41), and what a measured offset does to the time base. -/

namespace Sys2Proof.Machine

set_option Elab.async false

/-! What a measured offset does (R40, R41). -/

section
variable {t : TimeSt}

@[simp] theorem TimeSt.enter_state (t : TimeSt) (st : TState) : (t.enter st).state = st := by
  unfold TimeSt.enter
  by_cases h : (t.state == st) = true
  · rw [if_pos h]
    exact beq_iff_eq.mp h
  · rw [if_neg h]
    dsimp only
    split
    · rfl
    · split
      · rfl
      · rfl

@[simp] theorem TimeSt.enter_offset (t : TimeSt) (st : TState) : (t.enter st).offset = t.offset := by
  unfold TimeSt.enter TimeSt.leaveLock
  split_ifs
  all_goals rfl

/-- The judgement of an offset while ACQUIRING. -/
def TimeSt.acquire (t : TimeSt) (lockTh slew : Nat) : TimeSt :=
  if t.offset < -(slew : Int) then t.enter .behind else
  if 8 ≤ (if t.offset.natAbs < lockTh then t.goodSyncs + 1 else 0) then
    { t.enter .locked with goodSyncs := if t.offset.natAbs < lockTh then t.goodSyncs + 1 else 0 }
  else { t with goodSyncs := if t.offset.natAbs < lockTh then t.goodSyncs + 1 else 0 }

theorem TimeSt.judge_of_acquiring {lockTh slew : Nat} (h : t.state = .acquiring) : t.judge lockTh slew = t.acquire lockTh slew := by
  simp only [TimeSt.judge, TimeSt.acquire, h, Bool.false_eq_true, if_false]

/-- The time base goes back to ACQUIRING first, from UNSYNCED and HOLDOVER, and from LOCKED with a large offset. -/
theorem TimeSt.judge_of_starts {lockTh slew : Nat} (h : t.state = .unsynced ∨ t.state = .holdover ∨
    (t.state = .locked ∧ 16 * lockTh < t.offset.natAbs)) :
    t.judge lockTh slew = TimeSt.acquire { t.enter .acquiring with goodSyncs := 0 } lockTh slew := by
  rcases h with h | h | ⟨h, hbig⟩
  · simp only [TimeSt.judge, TimeSt.acquire, h, if_true, TimeSt.enter_state, TimeSt.enter_offset]
  · simp only [TimeSt.judge, TimeSt.acquire, h, if_true, TimeSt.enter_state, TimeSt.enter_offset]
  · simp only [TimeSt.judge, TimeSt.acquire, h, hbig, decide_true, if_true, TimeSt.enter_state, TimeSt.enter_offset]

theorem TimeSt.judge_of_locked {lockTh slew : Nat} (h : t.state = .locked) (hsmall : t.offset.natAbs ≤ 16 * lockTh) :
    t.judge lockTh slew = t := by
  simp [TimeSt.judge, h, Nat.not_lt.mpr hsmall]

theorem TimeSt.acquire_behind {lockTh slew : Nat} (h : t.offset < -(slew : Int)) : t.acquire lockTh slew = t.enter .behind :=
  if_pos h

/-- From no good Sync one does not lock. -/
theorem TimeSt.acquire_of_zero {lockTh slew : Nat} (h : -(slew : Int) ≤ t.offset) (hzero : t.goodSyncs = 0) :
    t.acquire lockTh slew = { t with goodSyncs := if t.offset.natAbs < lockTh then 1 else 0 } := by
  rw [TimeSt.acquire, if_neg (by omega), if_neg (by rw [hzero]; split <;> omega), hzero]

@[simp] theorem TimeSt.enter_goodSyncs (t : TimeSt) (st : TState) : (t.enter st).goodSyncs = t.goodSyncs := by
  unfold TimeSt.enter TimeSt.leaveLock
  split_ifs
  all_goals rfl

theorem clampTrim_bounds (x : Rat) : -trimLimit ≤ clampTrim x ∧ clampTrim x ≤ trimLimit :=
  ⟨le_max_left _ _, max_le (by unfold trimLimit; norm_num) (min_le_left _ _)⟩

/-- Settles O49, by the state of the time base for the judgement and by the offset for the correction. -/
theorem offsetsMoveTheTimeState : Obligations.OffsetsMoveTheTimeState := by
  unfold Obligations.OffsetsMoveTheTimeState
  intro t lockTh stepTh slew ctr
  have hcorrect : t.offset ≤ (stepTh : Int) → t.correct stepTh slew ctr =
      if -(slew : Int) ≤ t.offset then
        { t with stepPending := none, trim := clampTrim ((Config.slewTrim ctr t.offset : Rat) / 1000000000) }
      else { t with stepPending := none } := fun h => if_neg (by omega)
  refine ⟨fun h h7 hgood hslew => ?_, fun h hoff => ?_, fun h hbig => ?_, fun h hslew => ?_, fun h hsmall => TimeSt.judge_of_locked h hsmall,
    fun h => ?_, fun h => ?_, fun h hslew => ?_, fun hoff => ?_⟩
  · rw [TimeSt.judge_of_acquiring h, TimeSt.acquire, if_neg (by omega), if_pos hgood, if_pos (by omega)]
    exact t.enter_state _
  · rw [TimeSt.judge_of_acquiring h, TimeSt.acquire_behind hoff, TimeSt.enter_state]
  · rw [TimeSt.judge_of_starts (Or.inr (Or.inr ⟨h, hbig⟩))]
    by_cases hoff : t.offset < -(slew : Int)
    · rw [TimeSt.acquire_behind (by simpa using hoff), if_pos hoff]
      exact ⟨TimeSt.enter_goodSyncs _ _, TimeSt.enter_state _ _⟩
    · rw [TimeSt.acquire_of_zero (by simpa using hoff) rfl, if_neg hoff]
      simp only [TimeSt.enter_offset, TimeSt.enter_state, and_true]
      exact if_neg (by omega)
  · rw [TimeSt.judge_of_starts (by tauto), TimeSt.acquire_of_zero (by simpa using hslew) rfl]
    exact ⟨t.enter_state _, by simp only [TimeSt.enter_offset]⟩
  · rw [TimeSt.correct, if_pos h]
    exact ⟨rfl, rfl⟩
  · rw [hcorrect h]
    split <;> rfl
  · rw [hcorrect h, if_pos hslew]
    exact clampTrim_bounds _
  · rw [TimeSt.correct]
    split
    · rfl
    · rw [if_neg (by omega)]

/-! gPTP messages (R40, R41). -/

theorem State.gptpTakes_iff {s : State} {p : PortId} {dom : Nat} : s.gptpTakes p dom = true ↔
    s.time.run = true ∧ s.time.source = 0 ∧ p.val = s.cfg 0x0402 2 0 ∧ dom = s.cfg 0x0402 3 0 ∧ (s.ingest.eave[p]).stopped = false := by
  simp [State.gptpTakes, and_assoc]

theorem State.gptpSync_of_takes {s : State} {p : PortId} {dom : Nat} (h : s.gptpTakes p dom = true) {log : Int} (hlow : -5 ≤ log)
    (hhigh : log ≤ 0) (twoStep : Bool) (seq origin : Nat) (corr : Int) :
    s.gptpSync p dom twoStep seq log origin corr =
      (if twoStep then
        (s.modTime fun t => { t with lastSync := t.ts, syncInterval := syncNs log }).modTime fun t => { t with syncWait := some ⟨seq, t.ts, corr⟩ }
      else match s.time.linkDelay with
        | none => s.modTime fun t => { t with lastSync := t.ts, syncInterval := syncNs log }
        | some d => (s.modTime fun t => { t with lastSync := t.ts, syncInterval := syncNs log }).measured (origin + corr + d - s.time.ts)) := by
  unfold State.gptpSync
  rw [if_neg (by simp [h, not_lt.mpr hlow, not_lt.mpr hhigh])]
  rfl

theorem TimeSt.enter_lastChange {t : TimeSt} {st : TState} (h : t.state ≠ st) : (t.enter st).lastChange = t.ts := by
  unfold TimeSt.enter TimeSt.leaveLock
  rw [if_neg (by simpa using h)]
  dsimp only
  split_ifs
  all_goals rfl

theorem State.enterHoldover_time (s : State) : (s.time.enter .holdover).Stamped s.enterHoldover.time :=
  ((State.logged_bump (s.modTime (·.enter .holdover)) 0x0412 4 1).trans (State.logged_raise _ _ _)).time

/-- Settles O48, by the conditions under which the port takes a message. -/
theorem gptpMessages : Obligations.GptpMessages := by
  unfold Obligations.GptpMessages
  intro s p dom seq origin gm t2 t3 t1 d log corr w h
  obtain ⟨hrun, hsrc, hport, hdom, hgo⟩ := State.gptpTakes_iff.mp h
  have hcfg : s.gptpTakes p (s.cfg 0x0402 3 0) = true := hdom ▸ h
  refine ⟨fun hlow hhigh => ⟨fun hd => ?sync, ?twoStep⟩, fun hw hseq hd => ?followUp, ?announce, ?req, fun ht1 h23 hts => ?resp,
    ?interval, fun hst => ?timeout⟩
  case sync =>
    refine congrArg Host.Outcome.next ((State.gptpSync_of_takes h hlow hhigh _ _ _ _).trans ?_)
    rw [if_neg (by decide), hd]
  case twoStep => exact congrArg Host.Outcome.next ((State.gptpSync_of_takes h hlow hhigh _ _ _ _).trans (if_pos rfl))
  case followUp =>
    refine congrArg Host.Outcome.next (?_ : s.followUp p dom seq origin corr = _)
    unfold State.followUp
    rw [if_neg (by simp [h]), hw]
    dsimp only
    rw [if_neg (by simp [hseq])]
    simp only [State.modTime_time, hd]
  case announce => exact congrArg Host.Outcome.next (if_pos h)
  case req => exact congrArg Host.Outcome.next (if_pos hcfg)
  case resp =>
    have hexec : exec (.pdelayResp p t2 t3) s = .next (s.modTime fun t => { t with linkDelay := some (pdelayOf t1 t2 t3 t.ts), pdelaySent := none }) := by
      show Host.Outcome.next (if _ then _ else _) = _
      rw [if_neg (by simp [hcfg]), ht1]
    have hdelay : pdelayOf t1 t2 t3 s.time.ts = (s.time.ts - t1 - (t3 - t2)) / 2 := by
      unfold pdelayOf
      omega
    rw [hexec]
    simp only [State.modTime, hdelay]
  case interval =>
    have hfin : Fin.ofNat 4 (s.cfg 0x0402 2 0) = p := by
      rw [← hport]
      exact Fin.ext (Nat.mod_eq_of_lt p.isLt)
    refine congrArg Host.Outcome.next (?_ : s.pdelayInterval = _)
    unfold State.pdelayInterval
    rw [hfin]
    exact if_neg (by simp [hcfg])
  case timeout =>
    have hexec : exec .syncTimeout s = .next (s.advanceTo (s.time.lastSync + 3 * s.time.syncInterval)).enterHoldover :=
      congrArg Host.Outcome.next (if_pos (by rcases hst with hst | hst <;> simp [hrun, hsrc, hst]))
    obtain ⟨_, _, _, _, htime⟩ := (s.advanceTo (s.time.lastSync + 3 * s.time.syncInterval)).enterHoldover_time
    refine ⟨_, hexec, ?_, ?_⟩
    · rw [htime]
      exact TimeSt.enter_state _ _
    · rw [htime]
      refine TimeSt.enter_lastChange (t := (s.advanceTo _).time) fun e => ?_
      have e : s.time.state = .holdover := e
      rcases hst with hst | hst
      · exact absurd (hst.symm.trans e) (by decide)
      · exact absurd (hst.symm.trans e) (by decide)

end
end Sys2Proof.Machine
end

