-- ==== Sys2Proof/Proofs/FunctionAccesses.lean ====
section
/-! SUPPORT. Configuration requests, BAR2 accesses and the interrupt holdoff of a function (R494, R495, R498, R29). -/

namespace Sys2Proof.Machine

set_option Elab.async false

/-! Functions of the host ports. -/

section
variable {s : State} {f : FuncId}

@[simp] theorem State.modFunc_at (s : State) (f : FuncId) (g : HFunc → HFunc) : (s.modFunc f g).host.funcs[f] = g s.host.funcs[f] := by
  simp [State.modFunc]

theorem State.modFunc_other (s : State) {f k : FuncId} (g : HFunc → HFunc) (h : k ≠ f) :
    (s.modFunc f g).host.funcs[k] = s.host.funcs[k] := by
  have hv : f.val ≠ k.val := fun e => h (Fin.ext e.symm)
  simp [State.modFunc, Vector.getElem_set, hv]

@[simp] theorem State.modPort_at (s : State) (p : PortId) (g : HPort → HPort) : (s.modPort p g).host.ports[p] = g s.host.ports[p] := by
  simp [State.modPort]

theorem State.modPort_other (s : State) {p q : PortId} (g : HPort → HPort) (h : q ≠ p) :
    (s.modPort p g).host.ports[q] = s.host.ports[q] := by
  have hv : p.val ≠ q.val := fun e => h (Fin.ext e.symm)
  simp [State.modPort, Vector.getElem_set, hv]

/-- A vector's bit cleared in the merged events (R495). -/
theorem bitAt_clear (m : Nat) (v : Fin 32) : bitAt (m &&& (2 ^ 32 - 1 - 2 ^ v.val)) v.val = false := by
  have hmask : ∀ v : Fin 32, (2 ^ 32 - 1 - 2 ^ v.val).testBit v.val = false := by decide
  rw [bitAt_eq_testBit, Nat.testBit_and, hmask v, Bool.and_false]

/-- A configuration request to a function that answers (R494, R502). -/
theorem State.configRequest_of_up {bus off : Nat} {w : Option Nat} (hup : (s.host.ports[funcPort f]).linkUp = true)
    (hflr : (s.host.funcs[f]).flrUntil ≤ s.time.ts) : s.configRequest f bus off w =
      (if !s.funcExists f then s.emit (.reply f none)
      else match w with
        | none => s.emit (.reply f (some (toLE 4 (s.configRead f (off / 4 * 4)))))
        | some v => ((s.modPort (funcPort f) fun h => { h with bus := bus % 256 }).configWrite f (off / 4 * 4) (v % 2 ^ 32)).emit
            (.reply f (some []))) := by
  unfold State.configRequest
  dsimp only
  rw [if_neg (by rw [hup, Bool.not_true, Bool.false_or, decide_eq_true_eq]; omega)]
  cases w <;> rfl

/-- Settles O33, by the access and by whether the vector has merged events. -/
theorem configurationBar2AndHoldoff : Obligations.ConfigurationBar2AndHoldoff := by
  unfold Obligations.ConfigurationBar2AndHoldoff
  refine ⟨fun s f i bus off n v data => ⟨fun hup hflr => ⟨fun hex => ⟨?read, ?write⟩, fun hex => ?absent⟩, fun hopen hinst harea => ?barRead,
    fun hopen => ?barWrite⟩, fun s f vec => ⟨fun hm => ?merged, fun hm => ?alone⟩⟩
  case read =>
    refine congrArg Host.Outcome.next ((State.configRequest_of_up hup hflr).trans ?_)
    rw [if_neg (by simp [hex])]
  case write =>
    refine ⟨_, congrArg Host.Outcome.next ((State.configRequest_of_up hup hflr).trans ?_), rfl, fun h5c => ?_⟩
    · rw [if_neg (by simp [hex])]
    · have hw : ∀ x : State, x.configWrite f (off / 4 * 4) (v % 2 ^ 32) = x.modFunc f fun y => { y with msiData := v % 2 ^ 32 % 2 ^ 16 } := by
        intro x
        rw [h5c]
        rfl
      rw [hw]
      refine ⟨?_, (congrArg HPort.bus (State.modPort_at s (funcPort f) fun h => { h with bus := bus % 256 }) :), fun g hg => State.modFunc_other _ _ hg⟩
      rw [State.modFunc_at]
      exact Nat.mod_mod_of_dvd _ (by decide)
  case absent =>
    refine congrArg Host.Outcome.next ((State.configRequest_of_up hup hflr).trans ?_)
    rw [if_pos (by simp [hex])]
  case barRead =>
    refine congrArg Host.Outcome.next (?_ : s.bar2Read f off n = _)
    unfold State.bar2Read
    rw [if_neg (by simp [hopen]), hinst]
    exact if_neg (by omega)
  case barWrite => exact congrArg Host.Outcome.next (if_pos hopen)
  case merged =>
    refine ⟨_, rfl, congrArg Host.Outcome.next (if_pos hm), ?_⟩
    rw [State.modFunc_at]
    exact bitAt_clear _ vec
  case alone => exact congrArg Host.Outcome.next (if_neg (by rw [hm]; decide))

end
end Sys2Proof.Machine
end

