-- ==== Sys2Proof/Proofs/WindowWrites.lean ====
section
/-! SUPPORT. A value written through a function's dictionary window: the request word, the checks, and the action of a command object (R567, R568, R575, R576). -/

namespace Sys2Proof.Machine

set_option Elab.async false

/-! The request word of a window (R575). -/

/-- DW_REQ of a write of `n` bytes of a type to an object. -/
def writeReq (index sub type n : Nat) : Nat := index + sub * 2 ^ 16 + 2 * 2 ^ 24 + type * 2 ^ 32 + n * 2 ^ 48

section
variable {index sub type n : Nat} (hi : index < 2 ^ 16) (hs : sub < 2 ^ 8) (ht : type < 2 ^ 8) (hn : n < 2 ^ 13)
include hi hs ht hn

theorem writeReq_fields : bitsOf (writeReq index sub type n) 15 0 = index ∧ bitsOf (writeReq index sub type n) 23 16 = sub ∧
    bitsOf (writeReq index sub type n) 25 24 = 2 ∧ bitsOf (writeReq index sub type n) 31 26 = 0 ∧
    bitsOf (writeReq index sub type n) 39 32 = type ∧ bitsOf (writeReq index sub type n) 47 40 = 0 ∧
    bitsOf (writeReq index sub type n) 60 48 = n ∧ bitsOf (writeReq index sub type n) 63 61 = 0 ∧ writeReq index sub type n < 2 ^ 64 := by
  unfold writeReq bitsOf
  refine ⟨?_, ?_, ?_, ?_, ?_, ?_, ?_, ?_, ?_⟩ <;> omega

end

/-- A value of at most 4,096 bytes stands in DW_DATA whole. -/
theorem padTo_overlay (image v : Bytes) (hv : v.length ≤ 4096) : padTo v.length ((overlay image 0 v).take 4096) = v := by
  have hform : overlay image 0 v = v ++ (padTo (max image.length (0 + v.length)) image).drop (0 + v.length) := by
    simp [overlay]
  have htake : (v ++ (padTo (max image.length (0 + v.length)) image).drop (0 + v.length)).take 4096 =
      v ++ ((padTo (max image.length (0 + v.length)) image).drop (0 + v.length)).take (4096 - v.length) := by
    rw [List.take_append, List.take_of_length_le hv]
  rw [hform, htake, padTo, List.append_assoc, List.take_left]

section
variable {s : State} {f : FuncId} {src : Source} {index sub type : Nat} {v : Bytes}

@[simp] theorem State.modWindow_at (s : State) (f : FuncId) (g : DWindow → DWindow) :
    (s.modWindow f g).dict.windows[f] = g s.dict.windows[f] := by
  simp [State.modWindow]

theorem State.windowServes_iff : s.windowServes f src ↔
    (s.dict.windows[f]).busy = false ∧ s.sourceOf f = some src ∧ s.ridgeTakes = true := Iff.rfl

/-- A free window whose request the active Ridge serves at once (R576). -/
theorem State.dwGo_of_serves (h : s.windowServes f src) : s.dwGo f =
    (((s.stamp src.src8).2).modWindow f fun x => { x with busy := true, stamp := (s.stamp src.src8).1 }).serveWindow f := by
  obtain ⟨hbusy, hsrc, htakes⟩ := h
  have hstill : (((s.stamp src.src8).2).modWindow f fun x => { x with busy := true, stamp := (s.stamp src.src8).1 }).ridgeTakes = true := htakes
  unfold State.dwGo
  rw [if_neg (by rw [hbusy]; decide), hsrc]
  exact if_pos hstill

/-- A request that is well formed is served by what it asks (R576): a READ. -/
theorem State.serveWindow_read (hsrc : s.sourceOf f = some src) (hres : (s.dict.windows[f]).reservedOk = true)
    (hop : (s.dict.windows[f]).op = 1) (hlen : bitsOf (s.dict.windows[f]).req 60 48 = 0) (htype : bitsOf (s.dict.windows[f]).req 39 32 = 0)
    {st : Nat} {d : Nat × Bytes} (hread : s.readObj src (s.dict.windows[f]).key = (st, some d)) :
    s.serveWindow f = (s.windowEnd f (s.dict.windows[f]).stamp st (some d)).readClears (s.dict.windows[f]).key := by
  unfold State.serveWindow
  dsimp only
  rw [hsrc]
  simp only [hres, hop, hlen, htype, hread]
  rfl

/-- An INFO of an object that there is. -/
theorem State.serveWindow_info (hsrc : s.sourceOf f = some src) (hres : (s.dict.windows[f]).reservedOk = true)
    (hop : (s.dict.windows[f]).op = 3) (hlen : bitsOf (s.dict.windows[f]).req 60 48 = 0) (htype : bitsOf (s.dict.windows[f]).req 39 32 = 0)
    {r : ObjRow} (hrow : objRow (s.dict.windows[f]).key = some r) :
    s.serveWindow f = s.windowEnd f (s.dict.windows[f]).stamp 0 (some (9, r.info)) := by
  unfold State.serveWindow
  dsimp only
  rw [hsrc]
  simp only [hres, hop, hlen, htype, hrow]
  rfl

/-- A WRITE of at most 4,096 bytes. -/
theorem State.serveWindow_write (hsrc : s.sourceOf f = some src) (hres : (s.dict.windows[f]).reservedOk = true)
    (hop : (s.dict.windows[f]).op = 2) (hlen : bitsOf (s.dict.windows[f]).req 60 48 ≤ 4096) :
    s.serveWindow f = s.dictSubmit
      { stamp := (s.dict.windows[f]).stamp, source := src, key := (s.dict.windows[f]).key,
        value := padTo (bitsOf (s.dict.windows[f]).req 60 48) (s.dict.windows[f]).data, node := 0, cycle := s.time.raft + 1,
        reply := .window f, applied := 0 } (bitsOf (s.dict.windows[f]).req 39 32) := by
  unfold State.serveWindow
  dsimp only
  rw [hsrc]
  simp only [hres, hop, Nat.min_eq_left hlen, Nat.not_lt.mpr hlen]
  rfl

/-- The window as a write leaves it before it is served. -/
theorem State.windowBusy_at (h : (s.dict.windows[f]).busy = false) : (s.windowBusy f src index sub type v).dict.windows[f] =
    { s.dict.windows[f] with req := writeReq index sub type v.length % 2 ^ 64, data := (overlay (s.dict.windows[f]).data 0 v).take 4096,
                             busy := true, stamp := (s.stamp src.src8).1 } := by
  unfold State.windowBusy
  rw [State.modWindow_at]
  have hreq : ((s.dwReq f (index + sub * 2 ^ 16 + 2 * 2 ^ 24 + type * 2 ^ 32 + v.length * 2 ^ 48)).dwData f 0 v).dict.windows[f] =
      { s.dict.windows[f] with req := writeReq index sub type v.length % 2 ^ 64, data := (overlay (s.dict.windows[f]).data 0 v).take 4096 } := by
    unfold State.dwData State.dwReq
    rw [State.modWindow_at, State.modWindow_at]
    simp only [h, Bool.false_eq_true, if_false, writeReq]
  show ({ ((s.dwReq f _).dwData f 0 v).dict.windows[f] with busy := true, stamp := _ } : DWindow) = _
  rw [hreq]
  rfl

/-- A write through a free window is submitted at once, with the window's source (R567, R576). -/
theorem State.objWrite_window (h : s.windowServes f src) (hi : index < 2 ^ 16) (hs : sub < 2 ^ 8) (ht : type < 2 ^ 8)
    (hv : v.length ≤ 4096) : s.objWrite (.window f) index sub type v =
      (s.windowBusy f src index sub type v).dictSubmit (s.windowWrite f src index sub v) type := by
  obtain ⟨hindex, hsub, hop, hres1, htype, hres2, hlen, hres3, hfit⟩ := writeReq_fields hi hs ht (show v.length < 2 ^ 13 by omega)
  have hbusy := h.1
  have hat := s.windowBusy_at (src := src) (index := index) (sub := sub) (type := type) (v := v) hbusy
  rw [Nat.mod_eq_of_lt hfit] at hat
  have hserves : ((s.dwReq f (index + sub * 2 ^ 16 + 2 * 2 ^ 24 + type * 2 ^ 32 + v.length * 2 ^ 48)).dwData f 0 v).windowServes f src := by
    refine ⟨?_, h.2.1, h.2.2⟩
    unfold State.dwData State.dwReq
    rw [State.modWindow_at, State.modWindow_at]
    simp only [hbusy, Bool.false_eq_true, if_false]
  have hgo : s.objWrite (.window f) index sub type v = (s.windowBusy f src index sub type v).serveWindow f := by
    unfold State.objWrite
    dsimp only
    rw [if_neg (by rw [hbusy]; decide), State.dwGo_of_serves hserves]
    rfl
  have hsource : (s.windowBusy f src index sub type v).sourceOf f = some src := h.2.1
  have hwrite := State.serveWindow_write (s := s.windowBusy f src index sub type v) hsource (by rw [hat]; simp [DWindow.reservedOk, hres1, hres2, hres3])
    (by rw [hat]; exact hop) (by rw [hat]; simpa [hlen] using hv)
  rw [hgo, hwrite, hat]
  dsimp only [DWindow.key]
  rw [hindex, hsub, hlen, htype, padTo_overlay _ _ hv]
  rfl

/-! The checks of a write (R567). -/

/-- The journal entry of a write (R600). -/
def writeKind (key : Nat) : Nat := if (objBase (key / 256)).1 == 0x4000 && key % 256 == 3 then 4 else 3

theorem State.submitCode_journal (s : State) (kind : Nat) (st : Stamp) (payload : Nat) (src : Source) (key type : Nat) (v : Bytes) :
    (s.journal kind st payload).submitCode src key type v = s.submitCode src key type v := rfl

theorem State.dictSubmit_refused {w : DictWrite} {code : Nat} (h : s.submitCode w.source w.key type w.value = some code) :
    s.dictSubmit w type = (s.journal (writeKind w.key) w.stamp w.key).finishWrite w code 0 := by
  unfold State.dictSubmit
  dsimp only
  rw [State.submitCode_journal, h]
  rfl

theorem State.dictSubmit_accepted {w : DictWrite} {r : ObjRow} (h : s.submitCode w.source w.key type w.value = none)
    (hrow : objRow w.key = some r) : s.dictSubmit w type =
      if bitAt r.marks 1 then (s.journal (writeKind w.key) w.stamp w.key).modDict fun d =>
        { d with staged := d.staged ++ [w], finialCopy := if bitAt r.marks 2 then d.finialCopy ++ [w] else d.finialCopy }
      else (s.journal (writeKind w.key) w.stamp w.key).applyWrite w r s.time.ts := by
  unfold State.dictSubmit
  dsimp only
  rw [State.submitCode_journal, h, hrow]
  rfl

/-- A write that reaches a command object (R568). -/
theorem State.applyWrite_command {w : DictWrite} {r : ObjRow} {boundary : Nat} {action : Nat × State} (hacc : r.access ≠ 2)
    (hcmd : s.objCommand w r boundary = (some action.1, action.2)) :
    s.applyWrite w r boundary = action.2.writeApplied w (bitAt r.marks 0) action.1 := by
  unfold State.applyWrite
  rw [if_neg (by simp [hacc]), hcmd]

/-- A write to an object that is not staged is applied at receipt (R568). -/
theorem State.dictSubmit_applied {w : DictWrite} {r : ObjRow} (h : s.submitCode w.source w.key type w.value = none)
    (hrow : objRow w.key = some r) (hstaged : bitAt r.marks 1 = false) :
    s.dictSubmit w type = (s.journal (writeKind w.key) w.stamp w.key).applyWrite w r s.time.ts := by
  rw [State.dictSubmit_accepted h hrow, if_neg (by rw [hstaged]; decide)]

/-- A write to a command object acts at once (R568). -/
theorem State.dictSubmit_command {w : DictWrite} {r : ObjRow} {action : State → Nat × State}
    (h : s.submitCode w.source w.key type w.value = none)
    (hrow : objRow w.key = some r) (hacc : r.access ≠ 2) (hstaged : bitAt r.marks 1 = false)
    (hcmd : ∀ t : State, t.objCommand w r t.time.ts = (some (action t).1, (action t).2)) :
    s.dictSubmit w type = (action (s.journal (writeKind w.key) w.stamp w.key)).2.writeApplied w (bitAt r.marks 0)
      (action (s.journal (writeKind w.key) w.stamp w.key)).1 :=
  (State.dictSubmit_applied h hrow hstaged).trans (State.applyWrite_command hacc (hcmd _))

/-- A value written through a window to a command object has the object's action. -/
theorem State.windowActs_of_row (h : s.windowServes f src) {i : Instr} {kind : Nat} {p : Bool} {action : State → Nat × State} {r : ObjRow}
    (hexec : exec i s = .next (s.objWrite (.window f) index sub type v)) (hi : index < 2 ^ 16) (hs : sub < 2 ^ 8) (ht : type < 2 ^ 8)
    (hv : v.length ≤ 4096) (hrow : objRow (objKey index sub) = some r) (hacc : r.access ≠ 2) (hstaged : bitAt r.marks 1 = false)
    (hp : bitAt r.marks 0 = p) (hkind : writeKind (objKey index sub) = kind)
    (hcmd : ∀ t : State, t.objCommand (s.windowWrite f src index sub v) r t.time.ts = (some (action t).1, (action t).2)) :
    s.windowActs f src i index sub type v kind p action := by
  subst hkind hp
  intro hcode
  rw [hexec, State.objWrite_window h hi hs ht hv]
  have hcode' := (State.submitCode_journal (s.windowBusy f src index sub type v) (writeKind (objKey index sub)) _ _ _ _ _ _).symm.trans hcode
  exact congrArg Host.Outcome.next (State.dictSubmit_command hcode' hrow hacc hstaged hcmd)

end
end Sys2Proof.Machine
end

