-- ==== Sys2Proof/Proofs/RowFrames.lean ====
section
/-! SUPPORT. What a row filed in a table may change of the state, and what every such row leaves. -/

namespace Sys2Proof.Machine

set_option Elab.async false

/-! What a row of a table may change: the tables, memory with the caches over it, the fresh rows of queries, and what is logged. -/

/-- A function without its causes of interrupts and messages. -/
def HFunc.quiet (x : HFunc) : HFunc := { x with pba := 0, heldOff := [], merged := 0, regs := { x.regs with intCause := 0 } }

/-- The state without those parts. -/
def State.unfiled (s : State) : State :=
  { s with
    time := { s.time with ts := 0, seqs := [], stamped := [] }
    err := .reset
    host := { s.host with funcs := s.host.funcs.map HFunc.quiet }
    dict := { s.dict with ro := [] }
    batten := { s.batten with fresh := [] }
    tables := .empty
    tiles := .replicate 64 .reset
    thatch := .reset
    dram := .reset
    mem := []
    outs := []
    freeCtr := 0 }

/-- The two states differ in those parts only. -/
def State.Filed (s u : State) : Prop := u.unfiled = s.unfiled

theorem unfiledCacheBlind : CacheBlind State.unfiled :=
  ⟨fun _ _ => rfl, fun _ _ => rfl, fun _ _ _ => rfl, fun _ _ _ => rfl, fun _ _ _ _ => rfl⟩

theorem HFunc.Signalled.quiet {x y : HFunc} (h : x.Signalled y) : y.quiet = x.quiet := by
  obtain ⟨_, _, _, _, rfl⟩ := h
  rfl

namespace State.Filed
variable {s u v : State}

theorem refl (s : State) : s.Filed s := rfl

theorem trans (h : s.Filed u) (k : u.Filed v) : s.Filed v := Eq.trans k h

theorem boot (h : s.Filed u) : u.boot = s.boot := (congrArg State.boot h :)
theorem ingest (h : s.Filed u) : u.ingest = s.ingest := (congrArg State.ingest h :)
theorem plans (h : s.Filed u) : u.plans = s.plans := (congrArg State.plans h :)
theorem purlin (h : s.Filed u) : u.purlin = s.purlin := (congrArg State.purlin h :)
theorem gutter (h : s.Filed u) : u.gutter = s.gutter := (congrArg State.gutter h :)
theorem yelm (h : s.Filed u) : u.yelm = s.yelm := (congrArg State.yelm h :)
theorem flash (h : s.Filed u) : u.flash = s.flash := (congrArg State.flash h :)
theorem insts (h : s.Filed u) : u.insts = s.insts := (congrArg State.insts h :)
theorem finial (h : s.Filed u) : u.finial = s.finial := (congrArg State.finial h :)
theorem power (h : s.Filed u) : u.power = s.power := (congrArg State.power h :)
theorem pending (h : s.Filed u) : u.pending = s.pending := (congrArg State.pending h :)
theorem vals (h : s.Filed u) : u.dict.vals = s.dict.vals := (congrArg (fun x : State => x.dict.vals) h :)
theorem store (h : s.Filed u) : u.dict.store = s.dict.store := (congrArg (fun x : State => x.dict.store) h :)
theorem staged (h : s.Filed u) : u.dict.staged = s.dict.staged := (congrArg (fun x : State => x.dict.staged) h :)
theorem windows (h : s.Filed u) : u.dict.windows = s.dict.windows := (congrArg (fun x : State => x.dict.windows) h :)
theorem replies (h : s.Filed u) : u.dict.replies = s.dict.replies := (congrArg (fun x : State => x.dict.replies) h :)
theorem ports (h : s.Filed u) : u.host.ports = s.host.ports := (congrArg (fun x : State => x.host.ports) h :)

theorem func_quiet (h : s.Filed u) (f : FuncId) : (u.host.funcs[f]).quiet = (s.host.funcs[f]).quiet := by
  have hmap : u.host.funcs.map HFunc.quiet = s.host.funcs.map HFunc.quiet := (congrArg (fun x : State => x.host.funcs) h :)
  simpa using congrArg (fun v : Vector HFunc 64 => v[f]) hmap

theorem cfg (h : s.Filed u) (index sub default : Nat) : u.cfg index sub default = s.cfg index sub default :=
  (congrArg (fun x : State => x.cfg index sub default) h :)

theorem of_blind {f : State → State} (hf : ∀ s, (f s).unfiled = s.unfiled) (s : State) : s.Filed (f s) := hf s

end State.Filed

/-! What files rows. -/

section
variable {s u : State}

theorem State.Logged.filed (h : s.Logged u) : s.Filed u := by
  obtain ⟨_, _, _, _, _, _, ⟨_, _, _, _, rfl⟩, ⟨funcs, hfuncs, rfl⟩, rfl⟩ := h
  have hmap : funcs.map HFunc.quiet = s.host.funcs.map HFunc.quiet := Vector.ext fun i hi => by
    rw [Vector.getElem_map, Vector.getElem_map]
    exact (hfuncs ⟨i, hi⟩).quiet
  show State.unfiled _ = State.unfiled _
  unfold State.unfiled
  dsimp only
  rw [hmap]

theorem State.filed_foldl {α : Type} {f : State → α → State} (hf : ∀ s a, State.Filed s (f s a)) (l : List α) (s : State) :
    s.Filed (l.foldl f s) := foldl_keeps State.unfiled f hf l s

theorem State.filed_sysWrite (s : State) (a : Nat) (bs : Bytes) : s.Filed (s.sysWrite a bs) := unfiledCacheBlind.sysWrite s a bs

theorem State.filed_storeSeg (s : State) (id no : Nat) : s.Filed (s.storeSeg id no) := by
  unfold State.storeSeg
  split
  · exact .refl s
  · exact State.filed_foldl (fun s x => s.filed_sysWrite _ _) _ s

theorem State.filed_newPlace (s : State) (keep : Bool) (n : Nat) : s.Filed (s.newPlace keep n).2 := rfl

theorem State.filed_newCopy (s : State) (d : DramSt) (a n : Nat) : s.Filed (s.newCopy d a n).2 := rfl

theorem State.filed_newPlaces (s : State) (keep lapped : Bool) (lens : List Nat) : s.Filed (s.newPlaces keep lapped lens).2.2 := by
  unfold State.newPlaces
  refine foldl_keeps (fun x : List Nat × List Nat × State => x.2.2.unfiled) _ (fun x n => ?_) lens ([], [], s)
  cases lapped <;> rfl

theorem State.filed_modTable (s : State) (id : Nat) (f : Table → Table) : s.Filed (s.modTable id f) := rfl

theorem State.filed_storeOpen (s : State) (id no : Nat) : s.Filed (s.storeOpen id no) := by
  unfold State.storeOpen
  split
  · exact .refl s
  split
  · exact s.filed_storeSeg id no
  rename_i t _ _ _
  have hnew := s.filed_newPlaces t.desc.keep t.desc.lapped (t.desc.frontLen :: t.desc.cols.map openCap)
  rcases hp : s.newPlaces t.desc.keep t.desc.lapped (t.desc.frontLen :: t.desc.cols.map openCap) with ⟨la, lb, s'⟩
  rw [hp] at hnew
  exact (hnew.trans (s'.filed_modTable id _)).trans (State.filed_storeSeg _ id no)

theorem State.filed_noteFresh (s : State) (id : Nat) (r : SRow) : s.Filed (s.noteFresh id r) := by
  unfold State.noteFresh
  split
  · rfl
  · rfl

theorem State.filed_putRow (s : State) (id : Nat) (late : Bool) (r : SRow) : s.Filed (s.putRow id late r).2 := by
  unfold State.putRow
  split
  · exact .refl s
  · exact (s.filed_noteFresh id r).trans (State.filed_storeOpen _ id _)

theorem State.filed_stamp (s : State) (src : Nat) : s.Filed (s.stamp src).2 := (s.logged_stamp src).filed

theorem State.filed_bump (s : State) (index sub n : Nat) : s.Filed (s.bump index sub n) := rfl

theorem State.filed_putCatalogue (s : State) (d : TableDesc) (g : Segment) (event : Nat) : s.Filed (s.putCatalogue d g event) := by
  unfold State.putCatalogue
  dsimp only
  have hrow := fun r => (s.filed_stamp s.ridgeSrc).trans (State.filed_putRow (s.stamp s.ridgeSrc).2 0xFFF1 false r)
  split
  · exact hrow _
  · exact ((hrow _).trans (State.filed_stamp _ _)).trans (State.filed_putRow _ 0xFFF1 false _)

theorem State.filed_catalogue (s : State) (id : Nat) (g : Segment) (event : Nat) : s.Filed (s.catalogue id g event) := by
  unfold State.catalogue
  split
  · exact .refl s
  · exact s.filed_putCatalogue _ _ _

theorem State.filed_noteOpened (s : State) (id : Nat) (opened : Option Nat) : s.Filed (s.noteOpened id opened) := by
  unfold State.noteOpened
  split
  · exact s.filed_catalogue _ _ _
  · exact .refl s

theorem State.filed_logRow (s : State) (id : Nat) (stamp : Stamp) (vals : List Val) : s.Filed (s.logRow id stamp vals) :=
  (s.filed_putRow id false _).trans (State.filed_noteOpened _ id _)

theorem State.filed_dictLog (s : State) (w : DictWrite) (status applied : Nat) : s.Filed (s.dictLog w status applied) :=
  s.filed_logRow _ _ _

end
end Sys2Proof.Machine
end

