-- ==== Sys2Proof/Proofs/WindowRequests.lean ====
section
/-! SUPPORT. The requests of a dictionary window and how they end (R575 to R577); the checks of a write (R567). -/

namespace Sys2Proof.Machine

set_option Elab.async false

section
variable {s u : State} {f : FuncId} {src : Source}

/-! The end of a request of a window, and of a write (R575, R576). -/

/-- The answer to a window's request. -/
def DWindow.answered (x : DWindow) (status : Nat) (data : Option (Nat × Bytes)) : DWindow :=
  match data with
  | some (ty, bs) => { x with busy := false, status := status, length := bs.length, type := ty, data := overlay x.data 0 bs }
  | none => { x with busy := false, status := status, length := 0, type := 0 }

/-- A BUSY window with this stamp takes the answer. -/
theorem State.windowEnd_at {st : Stamp} (hbusy : (s.dict.windows[f]).busy = true) (hst : (s.dict.windows[f]).stamp = st) (status : Nat)
    (data : Option (Nat × Bytes)) : (s.windowEnd f st status data).dict.windows[f] = (s.dict.windows[f]).answered status data := by
  have heq : s.windowEnd f st status data = s.modWindow f (·.answered status data) := by
    refine congrArg (fun d => { s with dict := d }) (if_neg ?_)
    rw [hbusy, hst]
    simp
  rw [heq, State.modWindow_at]

theorem State.windowEnd_vals (st : Stamp) (status : Nat) (data : Option (Nat × Bytes)) :
    (s.windowEnd f st status data).dict.vals = s.dict.vals := by
  unfold State.windowEnd
  simp only [State.modDict_dict]
  split <;> rfl

theorem State.windowEnd_boot (st : Stamp) (status : Nat) (data : Option (Nat × Bytes)) :
    (s.windowEnd f st status data).boot = s.boot := rfl

/-- What a READ clears stands in no window. -/
theorem State.readClears_windows (key : Nat) : (s.readClears key).dict.windows = s.dict.windows := by
  unfold State.readClears
  dsimp only
  split_ifs
  all_goals rfl

theorem State.dictReply_vals (w : DictWrite) (status : Nat) : (s.dictReply w status).dict.vals = s.dict.vals := by
  unfold State.dictReply
  split
  · exact State.windowEnd_vals _ _ _
  · rfl

/-- The end of a write is logged, and then answered. -/
theorem State.finishWrite_eq (s : State) (w : DictWrite) (status applied : Nat) :
    ∃ v, s.Filed v ∧ s.finishWrite w status applied = v.dictReply w status := by
  unfold State.finishWrite
  refine ⟨_, ?_, rfl⟩
  by_cases h1 : (status == stSuperseded) = true
  · rw [if_pos h1]
    exact (s.filed_bump _ _ _).trans (State.filed_dictLog _ _ _ _)
  rw [if_neg h1]
  by_cases h2 : (status == stConflict) = true
  · rw [if_pos h2]
    exact (s.filed_bump _ _ _).trans (State.filed_dictLog _ _ _ _)
  · rw [if_neg h2]
    exact s.filed_dictLog _ _ _

theorem State.finishWrite_vals (w : DictWrite) (status applied : Nat) : (s.finishWrite w status applied).dict.vals = s.dict.vals := by
  obtain ⟨v, hv, h⟩ := s.finishWrite_eq w status applied
  rw [h, State.dictReply_vals, hv.vals]

theorem State.finishWrite_boot (w : DictWrite) (status applied : Nat) : (s.finishWrite w status applied).boot = s.boot := by
  obtain ⟨v, hv, h⟩ := s.finishWrite_eq w status applied
  rw [h, ← hv.boot]
  unfold State.dictReply
  split <;> rfl

/-- The end of a write through a window frees the window, with the status. -/
theorem State.finishWrite_window {w : DictWrite} (hw : w.reply = .window f) (hbusy : (s.dict.windows[f]).busy = true)
    (hst : (s.dict.windows[f]).stamp = w.stamp) (status applied : Nat) : (s.finishWrite w status applied).dict.windows[f] =
      { s.dict.windows[f] with busy := false, status := status, length := 0, type := 0 } := by
  obtain ⟨v, hv, h⟩ := s.finishWrite_eq w status applied
  have hreply : v.dictReply w status = v.windowEnd f w.stamp status none := by
    unfold State.dictReply
    rw [hw]
  rw [h, hreply, State.windowEnd_at (by rw [hv.windows]; exact hbusy) (by rw [hv.windows]; exact hst), hv.windows]
  rfl

/-! The checks (R567). -/

theorem State.submitCode_unknown {key type : Nat} {v : Bytes} (h : objRow key = none) : s.submitCode src key type v = some 0x2002 := by
  unfold State.submitCode
  rw [h]
  rfl

theorem State.submitCode_notOwner {key type : Nat} {v : Bytes} {r : ObjRow} (h : objRow key = some r) (hacc : r.access ≠ 0)
    (hown : s.mayWrite src key r = false) : s.submitCode src key type v = some 0x2004 := by
  unfold State.submitCode
  rw [h]
  dsimp only
  rw [if_neg (by simpa using hacc), if_pos (by rw [hown]; decide)]
  rfl

/-- Settles O40, by the operation of the request and by the outcome of the checks. -/
theorem windowRequestsAndChecks : Obligations.WindowRequestsAndChecks := by
  unfold Obligations.WindowRequestsAndChecks
  refine ⟨fun s f src r st type v => ?_, fun s w r type code => ?_⟩
  · intro x n busy answered
    have hx : busy.dict.windows[f] = { x with busy := true, stamp := (s.stamp src.src8).1 } := State.modWindow_at _ f _
    have hxbusy : (busy.dict.windows[f]).busy = true := by rw [hx]
    refine ⟨fun h hres => ?_, fun hbusy => ?_⟩
    · have hsrc : busy.sourceOf f = some src := h.2.1
      have hexec := State.dwGo_of_serves h
      have hres' : (busy.dict.windows[f]).reservedOk = true := by rw [hx]; exact hres
      refine ⟨fun hop hlen htype hread => ?_, fun hop hlen htype hrow => ?_, fun hop hlen => ?_⟩
      · have hserve := State.serveWindow_read (s := busy) hsrc hres' (by rw [hx]; exact hop) (by rw [hx]; exact hlen)
          (by rw [hx]; exact htype) (d := (type, v)) (st := st) (by rw [hx]; exact hread)
        refine ⟨_, congrArg Host.Outcome.next ((if_pos (by rw [beq_iff_eq]; exact hop)).trans (hexec.trans hserve)), ?_⟩
        dsimp only [answered]
        rw [State.readClears_windows, State.windowEnd_at hxbusy rfl, hx]
        rfl
      · have hserve := State.serveWindow_info (s := busy) hsrc hres' (by rw [hx]; exact hop) (by rw [hx]; exact hlen)
          (by rw [hx]; exact htype) (r := r) (by rw [hx]; exact hrow)
        refine ⟨_, congrArg Host.Outcome.next ((if_pos (by rw [beq_iff_eq]; exact hop)).trans (hexec.trans hserve)), ?_⟩
        dsimp only [answered]
        rw [State.windowEnd_at hxbusy rfl, hx]
        rfl
      · have hserve := State.serveWindow_write (s := busy) hsrc hres' (by rw [hx]; exact hop) (by rw [hx]; exact hlen)
        rw [hx] at hserve
        exact congrArg Host.Outcome.next ((if_pos (by rw [beq_iff_eq]; exact hop)).trans (hexec.trans hserve))
    · have hgo : s.dwGo f = s.bump 0x3061 5 1 := if_pos hbusy
      exact ⟨fun hop => congrArg Host.Outcome.next ((if_pos (by rw [beq_iff_eq]; exact hop)).trans hgo),
        fun hop => congrArg Host.Outcome.next ((if_pos (by rw [beq_iff_eq]; exact hop)).trans hgo),
        fun hop => congrArg Host.Outcome.next ((if_pos (by rw [beq_iff_eq]; exact hop)).trans hgo)⟩
  · intro t
    refine ⟨fun hcode => ⟨State.dictSubmit_refused hcode, ?_⟩, fun hcode hrow => ⟨fun hstaged => ?_, fun hstaged => ?_⟩,
      fun hrow => State.submitCode_unknown hrow, fun hrow hacc hown => State.submitCode_notOwner hrow hacc hown⟩
    · rw [State.dictSubmit_refused hcode, State.finishWrite_vals]
      rfl
    · rw [State.dictSubmit_accepted hcode hrow, if_pos hstaged]
      exact ⟨rfl, rfl⟩
    · exact State.dictSubmit_applied hcode hrow hstaged

end
end Sys2Proof.Machine
end

