-- ==== Sys2Proof/Proofs/CommandObjects.lean ====
section
/-! SUPPORT. The command objects of the dictionary: the row, the fields and the action of each. -/

namespace Sys2Proof.Machine

set_option Elab.async false

/-! Fields of a value, one behind another. -/

theorem fieldAt_skip {k off : Nat} (h : k ≤ off) (n x : Nat) (b : Bytes) : fieldAt off n (toLE k x ++ b) = fieldAt (off - k) n b := by
  rw [fieldAt_append_right (by rwa [length_toLE]), length_toLE]

theorem drop_skip {k off : Nat} (h : k ≤ off) (x : Nat) (b : Bytes) : (toLE k x ++ b).drop off = b.drop (off - k) := by
  rw [List.drop_append, List.drop_eq_nil_of_le (by rwa [length_toLE]), length_toLE, List.nil_append]

theorem fieldAt_toLE_last {n x : Nat} (hx : x < 2 ^ (8 * n)) : fieldAt 0 n (toLE n x) = x := by
  simpa using fieldAt_toLE_append hx []

theorem toNat_lt_byte (b : Bool) : b.toNat < 2 ^ (8 * 1) := by
  cases b <;> decide

theorem leNat_flag (b : Bool) : (leNat (toLE 1 b.toNat) == 1) = b := by
  cases b <;> rfl

section
variable {s : State} {f : FuncId} {src : Source}

/-! The rows of the command objects. -/

theorem row_mapEntry : objRow (objKey 0x1840 2) = some ⟨0x1840, 2, 2, 17, 25, 0, 3, 0, 0, 0, 0⟩ := by decide +kernel
theorem row_programChunk : objRow (objKey 0x1840 3) = some ⟨0x1840, 3, 3, 17, 9, 4000, 3, 0, 0, 0, 0⟩ := by decide +kernel
theorem row_freeze (p : PortId) : objRow (objKey 0x3020 (p.val + 1)) = some ⟨0x3020, 1, 4, 17, 5, 0, 3, 0, 0, 0, 0⟩ := by
  revert p
  decide +kernel
theorem row_fwStage : objRow (objKey 0x0210 1) = some ⟨0x0210, 1, 1, 17, 2, 0, 3, 0, 0, 0, 0⟩ := by decide +kernel
theorem row_fwChunk : objRow (objKey 0x0210 2) = some ⟨0x0210, 2, 2, 17, 7, 4000, 3, 0, 0, 0, 0⟩ := by decide +kernel
theorem row_selfTest : objRow (objKey 0x3C11 1) = some ⟨0x3C11, 1, 1, 17, 2, 0, 3, 0, 0, 0, 0⟩ := by decide +kernel
theorem row_trainReset : objRow (objKey 0x1012 3) = some ⟨0x1012, 3, 3, 1, 1, 0, 3, 0, 0, 1, 0⟩ := by decide +kernel
theorem row_stepReset : objRow (objKey 0x0202 2) = some ⟨0x0202, 2, 2, 1, 1, 0, 3, 0, 0, 1, 0⟩ := by decide +kernel
theorem row_traceRearm : objRow (objKey 0x3C20 4) = some ⟨0x3C20, 4, 4, 1, 1, 0, 3, 0, 0, 1, 0⟩ := by decide +kernel
theorem row_availReset : objRow (objKey 0x3C30 2) = some ⟨0x3C30, 2, 2, 1, 1, 0, 3, 0, 0, 1, 0⟩ := by decide +kernel
theorem row_alertClear : objRow (objKey 0x3821 2) = some ⟨0x3821, 2, 2, 7, 2, 0, 3, 0, 0, 0, 0⟩ := by decide +kernel
theorem row_measureExtend : objRow (objKey 0x0120 4) = some ⟨0x0120, 4, 4, 16, 0, 32, 3, 0, 0, 0, 0⟩ := by decide +kernel
theorem row_attestNonce : objRow (objKey 0x0120 1) = some ⟨0x0120, 1, 1, 16, 0, 32, 3, 0, 0, 0, 0⟩ := by decide +kernel
theorem row_plynKey (slot : Fin 8) : objRow (objKey 0x2E10 (slot.val + 1)) = some ⟨0x2E10, 1, 8, 17, 5, 32, 3, 1, 0, 0, 0⟩ := by
  revert slot
  decide +kernel

/-- A command object of chapter 20 (R568): a record, journaled as a write, neither staged nor of the kind that waits for a standstill. -/
theorem State.windowActs_plain (h : s.windowServes f src) {i : Instr} {index sub type : Nat} {v : Bytes} {action : State → Nat × State}
    {r : ObjRow} {p : Bool} (hrow : objRow (objKey index sub) = some r)
    (hexec : exec i s = .next (s.objWrite (.window f) index sub type v))
    (hform : (decide (index < 2 ^ 16) && decide (sub < 2 ^ 8) && decide (type < 2 ^ 8) && r.access == 3 && !bitAt r.marks 1 &&
      bitAt r.marks 0 == p && writeKind (objKey index sub) == 3) = true)
    (hv : v.length ≤ 4096)
    (hcmd : ∀ t : State, t.objCommand (s.windowWrite f src index sub v) r t.time.ts = (some (action t).1, (action t).2)) :
    s.windowActs f src i index sub type v 3 p action := by
  simp only [Bool.and_eq_true, decide_eq_true_eq, beq_iff_eq, Bool.not_eq_true'] at hform
  obtain ⟨⟨⟨⟨⟨⟨hi, hs⟩, ht⟩, hacc⟩, hstaged⟩, hp⟩, hkind⟩ := hform
  exact State.windowActs_of_row h hexec hi hs ht hv hrow (by rw [hacc]; decide) hstaged hp hkind hcmd

/-- A flag object acts when it is written 1. -/
theorem whenTrue_flag (on : Bool) (t u : State) : whenTrue (toLE 1 on.toNat) t u = (0, if on then u else t) := by
  rw [whenTrue, leNat_flag]
  rfl

/-! The actions, by the object. -/

theorem State.objCommand_mapEntry (t : State) (w : DictWrite) (ts : Nat) (hk : w.key = objKey 0x1840 2) :
    t.objCommand w ⟨0x1840, 2, 2, 17, 25, 0, 3, 0, 0, 0, 0⟩ ts = (some 0, t.shadowEntry (fieldAt 0 2 w.value) (fieldAt 2 1 w.value)
      (fieldAt 3 1 w.value) (fieldAt 4 8 w.value) (fieldAt 12 8 w.value) (fieldAt 20 4 w.value) (fieldAt 24 1 w.value == 1)) := by
  unfold State.objCommand
  rw [hk]
  rfl

theorem State.objCommand_programChunk (t : State) (w : DictWrite) (ts : Nat) (hk : w.key = objKey 0x1840 3) :
    t.objCommand w ⟨0x1840, 3, 3, 17, 9, 4000, 3, 0, 0, 0, 0⟩ ts =
      (some (t.shadowChunk (fieldAt 0 2 w.value) (fieldAt 2 4 w.value) (fieldAt 6 1 w.value == 1) (w.value.drop 9)).1,
        (t.shadowChunk (fieldAt 0 2 w.value) (fieldAt 2 4 w.value) (fieldAt 6 1 w.value == 1) (w.value.drop 9)).2) := by
  unfold State.objCommand
  rw [hk]
  rfl

theorem State.objCommand_freeze (t : State) (w : DictWrite) (ts : Nat) (p : PortId) (hk : w.key = objKey 0x3020 (p.val + 1)) :
    t.objCommand w ⟨0x3020, 1, 4, 17, 5, 0, 3, 0, 0, 0, 0⟩ ts =
      (some (t.freezeAction p (fieldAt 0 1 w.value) (fieldAt 1 4 w.value)).1, (t.freezeAction p (fieldAt 0 1 w.value) (fieldAt 1 4 w.value)).2) := by
  unfold State.objCommand
  rw [hk]
  fin_cases p <;> rfl

theorem State.objCommand_fwStage (t : State) (w : DictWrite) (ts : Nat) (hk : w.key = objKey 0x0210 1) :
    t.objCommand w ⟨0x0210, 1, 1, 17, 2, 0, 3, 0, 0, 0, 0⟩ ts =
      (fun x : Nat × State => (some x.1, x.2)) (match fieldAt 0 1 w.value with
        | 1 => t.fwBegin (fieldAt 1 1 w.value)
        | 2 => t.fwEnd (fieldAt 1 1 w.value)
        | _ => t.fwAbandon (fieldAt 1 1 w.value)) := by
  unfold State.objCommand
  rw [hk]
  rfl

theorem State.objCommand_fwChunk (t : State) (w : DictWrite) (ts : Nat) (hk : w.key = objKey 0x0210 2) :
    t.objCommand w ⟨0x0210, 2, 2, 17, 7, 4000, 3, 0, 0, 0, 0⟩ ts =
      (some (t.fwChunk (fieldAt 0 1 w.value) (fieldAt 1 4 w.value) (w.value.drop 7)).1,
        (t.fwChunk (fieldAt 0 1 w.value) (fieldAt 1 4 w.value) (w.value.drop 7)).2) := by
  unfold State.objCommand
  rw [hk]
  rfl

theorem State.objCommand_selfTest (t : State) (w : DictWrite) (ts : Nat) (hk : w.key = objKey 0x3C11 1) :
    t.objCommand w ⟨0x3C11, 1, 1, 17, 2, 0, 3, 0, 0, 0, 0⟩ ts =
      (some (t.selfTestStart (fieldAt 0 1 w.value) (fieldAt 1 1 w.value)).1, (t.selfTestStart (fieldAt 0 1 w.value) (fieldAt 1 1 w.value)).2) := by
  unfold State.objCommand
  rw [hk]
  rfl

theorem State.objCommand_trainReset (t : State) (w : DictWrite) (ts : Nat) (hk : w.key = objKey 0x1012 3) :
    t.objCommand w ⟨0x1012, 3, 3, 1, 1, 0, 3, 0, 0, 1, 0⟩ ts =
      (fun x : Nat × State => (some x.1, x.2)) (whenTrue w.value t (t.modDram fun d => { d with trainReset := true })) := by
  unfold State.objCommand
  rw [hk]
  rfl

theorem State.objCommand_stepReset (t : State) (w : DictWrite) (ts : Nat) (hk : w.key = objKey 0x0202 2) :
    t.objCommand w ⟨0x0202, 2, 2, 1, 1, 0, 3, 0, 0, 1, 0⟩ ts =
      (fun x : Nat × State => (some x.1, x.2)) (whenTrue w.value t t.askStepReset) := by
  unfold State.objCommand
  rw [hk]
  rfl

theorem State.objCommand_traceRearm (t : State) (w : DictWrite) (ts : Nat) (hk : w.key = objKey 0x3C20 4) :
    t.objCommand w ⟨0x3C20, 4, 4, 1, 1, 0, 3, 0, 0, 1, 0⟩ ts =
      (fun x : Nat × State => (some x.1, x.2)) (whenTrue w.value t t.traceRearm) := by
  unfold State.objCommand
  rw [hk]
  rfl

theorem State.objCommand_availReset (t : State) (w : DictWrite) (ts : Nat) (hk : w.key = objKey 0x3C30 2) :
    t.objCommand w ⟨0x3C30, 2, 2, 1, 1, 0, 3, 0, 0, 1, 0⟩ ts =
      (fun x : Nat × State => (some x.1, x.2)) (whenTrue w.value t t.availReset) := by
  unfold State.objCommand
  rw [hk]
  rfl

theorem State.objCommand_alertClear (t : State) (w : DictWrite) (ts : Nat) (hk : w.key = objKey 0x3821 2) :
    t.objCommand w ⟨0x3821, 2, 2, 7, 2, 0, 3, 0, 0, 0, 0⟩ ts = (some 0, t.alertW1C (leNat w.value)) := by
  unfold State.objCommand
  rw [hk]
  rfl

theorem State.objCommand_measureExtend (t : State) (w : DictWrite) (ts : Nat) (hk : w.key = objKey 0x0120 4) :
    t.objCommand w ⟨0x0120, 4, 4, 16, 0, 32, 3, 0, 0, 0, 0⟩ ts = (some (t.measureExtend w.value).1, (t.measureExtend w.value).2) := by
  unfold State.objCommand
  rw [hk]
  rfl

theorem State.objCommand_attestNonce (t : State) (w : DictWrite) (ts : Nat) (hk : w.key = objKey 0x0120 1) :
    t.objCommand w ⟨0x0120, 1, 1, 16, 0, 32, 3, 0, 0, 0, 0⟩ ts = (none, t.attestNonce w) := by
  unfold State.objCommand
  rw [hk]
  rfl

theorem State.objCommand_plynKey (t : State) (w : DictWrite) (ts : Nat) (slot : Fin 8) (hk : w.key = objKey 0x2E10 (slot.val + 1)) :
    t.objCommand w ⟨0x2E10, 1, 8, 17, 5, 32, 3, 1, 0, 0, 0⟩ ts = (some 0, t.setPlynKey slot w.value) := by
  unfold State.objCommand
  rw [hk]
  fin_cases slot <;> rfl

/-- A write whose object answers later. -/
theorem State.applyWrite_deferred {t u : State} {w : DictWrite} {r : ObjRow} {boundary : Nat} (hacc : r.access ≠ 2)
    (hcmd : t.objCommand w r boundary = (none, u)) : t.applyWrite w r boundary = u := by
  unfold State.applyWrite
  rw [if_neg (by simp [hacc]), hcmd]

/-- The form of the objects that are rows of several subindices. -/
theorem freeze_form : ∀ p : PortId, (decide (0x3020 < 2 ^ 16) && decide (p.val + 1 < 2 ^ 8) && decide (17 < 2 ^ 8) && (3 : Nat) == 3 &&
    !bitAt 0 1 && bitAt 0 0 == false && writeKind (objKey 0x3020 (p.val + 1)) == 3) = true := by decide +kernel

theorem plynKey_form : ∀ slot : Fin 8, (decide (0x2E10 < 2 ^ 16) && decide (slot.val + 1 < 2 ^ 8) && decide (17 < 2 ^ 8) && (3 : Nat) == 3 &&
    !bitAt 1 1 && bitAt 1 0 == true && writeKind (objKey 0x2E10 (slot.val + 1)) == 3) = true := by decide +kernel

/-- The state in which the write of a nonce acts. -/
def State.noncePut (s : State) (f : FuncId) (src : Source) (nonce : Bytes) : State :=
  (s.windowBusy f src 0x0120 1 16 nonce).journal 3 (s.windowWrite f src 0x0120 1 nonce).stamp (s.windowWrite f src 0x0120 1 nonce).key

theorem State.attestNonce_exec (h : s.windowServes f src) {nonce : Bytes} (hlen : nonce.length = 32)
    (hcode : (s.noncePut f src nonce).submitCode src (s.windowWrite f src 0x0120 1 nonce).key 16 nonce = none) :
    exec (.attestNonce (.window f) nonce) s = .next ((s.noncePut f src nonce).attestNonce (s.windowWrite f src 0x0120 1 nonce)) := by
  have hcode' := (State.submitCode_journal (s.windowBusy f src 0x0120 1 16 nonce) 3 _ _ _ _ _ _).symm.trans hcode
  have hkind : writeKind (s.windowWrite f src 0x0120 1 nonce).key = 3 := (show writeKind (objKey 0x0120 1) = 3 by decide +kernel)
  have happlied := State.dictSubmit_applied (w := s.windowWrite f src 0x0120 1 nonce) hcode' row_attestNonce (by decide)
  rw [hkind, State.applyWrite_deferred (by decide) (State.objCommand_attestNonce _ _ _ rfl)] at happlied
  exact congrArg Host.Outcome.next ((State.objWrite_window h (by decide) (by decide) (by decide) (by omega)).trans happlied)

/-- Settles O41, object by object: its row, its value's fields, its action. -/
theorem commandObjectWrites : Obligations.CommandObjectWrites := by
  unfold Obligations.CommandObjectWrites
  refine ⟨fun s f src h => ?_, fun s f src nonce h hlen => ?_⟩
  · intro acts flag
    have hflag : ∀ (i : Sys2Proof.Instr) (index sub : Nat) (on : Bool) (action : State → State) (r : ObjRow),
        objRow (objKey index sub) = some r → exec i s = .next (s.objWrite (.window f) index sub 1 (toLE 1 on.toNat)) →
        (decide (index < 2 ^ 16) && decide (sub < 2 ^ 8) && decide (1 < 2 ^ 8) && r.access == 3 && !bitAt r.marks 1 &&
          bitAt r.marks 0 == false && writeKind (objKey index sub) == 3) = true →
        (∀ t : State, t.objCommand (s.windowWrite f src index sub (toLE 1 on.toNat)) r t.time.ts =
          (fun x : Nat × State => (some x.1, x.2)) (whenTrue (toLE 1 on.toNat) t (action t))) → flag i index sub on action := by
      intro i index sub on action r hrow hexec hform hcmd
      refine State.windowActs_plain h hrow hexec hform (by simp [length_toLE]) fun t => ?_
      rw [hcmd, whenTrue_flag]
    refine ⟨?mapEntry, ?program, ?freeze, ?fw, ?selfTest, ?flags, ?alert, ?measure, ?key⟩
    case mapEntry =>
      intro n bank priority key mask result valid hn hb hp hk hm hr
      refine State.windowActs_plain h row_mapEntry rfl (by decide) (by simp [length_toLE]) fun t =>
        (State.objCommand_mapEntry t _ _ rfl).trans ?_
      simp [State.windowWrite, fieldAt_skip, fieldAt_toLE_append (n := 2) hn, fieldAt_toLE_append (n := 1) hb,
        fieldAt_toLE_append (n := 1) hp, fieldAt_toLE_append (n := 8) hk, fieldAt_toLE_append (n := 8) hm,
        fieldAt_toLE_append (n := 4) hr, fieldAt_toLE_last (toNat_lt_byte valid)]
    case program =>
      intro program off last bytes hp ho hb
      refine State.windowActs_plain h row_programChunk rfl (by decide) (by simp [length_toLE]; omega) fun t =>
        (State.objCommand_programChunk t _ _ rfl).trans ?_
      simp [State.windowWrite, fieldAt_skip, drop_skip, fieldAt_toLE_append (n := 2) hp, fieldAt_toLE_append (n := 4) ho,
        fieldAt_toLE_append (n := 1) (toNat_lt_byte last)]
    case freeze =>
      intro port seq hseq
      refine ⟨State.windowActs_plain h (row_freeze port) rfl (freeze_form port) (by simp [length_toLE]) fun t =>
          (State.objCommand_freeze t _ _ port rfl).trans ?_,
        State.windowActs_plain h (row_freeze port) rfl (freeze_form port) (by simp [length_toLE]) fun t =>
          (State.objCommand_freeze t _ _ port rfl).trans ?_⟩
      · simp [State.windowWrite, fieldAt_skip, fieldAt_toLE_append (n := 1) (show 1 < 2 ^ (8 * 1) by decide), fieldAt_toLE_last (n := 4) hseq]
      · simp [State.windowWrite, fieldAt_skip, fieldAt_toLE_append (n := 1) (show 2 < 2 ^ (8 * 1) by decide), fieldAt_toLE_last (n := 4) hseq]
    case fw =>
      intro kind hk
      have hstage : ∀ (i : Sys2Proof.Instr) (op : Nat) (action : State → Nat × State), op < 2 ^ (8 * 1) →
          exec i s = .next (s.objWrite (.window f) 0x0210 1 17 (toLE 1 op ++ toLE 1 kind)) →
          (∀ t : State, (match op with | 1 => t.fwBegin kind | 2 => t.fwEnd kind | _ => t.fwAbandon kind) = action t) →
          acts i 0x0210 1 (toLE 1 op ++ toLE 1 kind) action := by
        intro i op action hop hexec haction
        refine State.windowActs_plain h row_fwStage hexec (by decide) (by simp [length_toLE]) fun t =>
          (State.objCommand_fwStage t _ _ rfl).trans ?_
        rw [← haction]
        simp only [State.windowWrite, fieldAt_skip (k := 1) (off := 1) (Nat.le_refl 1), fieldAt_toLE_append hop,
          fieldAt_toLE_last (n := 1) hk, Nat.sub_self]
      refine ⟨hstage _ 1 _ (by decide) rfl fun t => rfl, hstage _ 2 _ (by decide) rfl fun t => rfl,
        hstage _ 3 _ (by decide) rfl fun t => rfl, fun off bytes ho hb => ?_⟩
      refine State.windowActs_plain h row_fwChunk rfl (by decide) (by simp [length_toLE]; omega) fun t =>
        (State.objCommand_fwChunk t _ _ rfl).trans ?_
      simp [State.windowWrite, fieldAt_skip, drop_skip, fieldAt_toLE_append (n := 1) hk, fieldAt_toLE_append (n := 4) ho]
    case selfTest =>
      intro target index ht hi
      refine State.windowActs_plain h row_selfTest rfl (by decide) (by simp [length_toLE]) fun t =>
        (State.objCommand_selfTest t _ _ rfl).trans ?_
      simp [State.windowWrite, fieldAt_skip, fieldAt_toLE_append (n := 1) ht, fieldAt_toLE_last (n := 1) hi]
    case flags =>
      intro on
      exact ⟨hflag _ _ _ _ _ _ row_trainReset rfl (by decide) fun t => State.objCommand_trainReset t _ _ rfl,
        hflag _ _ _ _ _ _ row_stepReset rfl (by decide) fun t => State.objCommand_stepReset t _ _ rfl,
        hflag _ _ _ _ _ _ row_traceRearm rfl (by decide) fun t => State.objCommand_traceRearm t _ _ rfl,
        hflag _ _ _ _ _ _ row_availReset rfl (by decide) fun t => State.objCommand_availReset t _ _ rfl⟩
    case alert =>
      intro bits hb
      refine State.windowActs_plain h row_alertClear rfl (by decide) (by simp [length_toLE]) fun t =>
        (State.objCommand_alertClear t _ _ rfl).trans ?_
      rw [State.windowWrite, leNat_toLE (show bits < 2 ^ (8 * 2) from hb)]
    case measure =>
      intro digest hd
      exact State.windowActs_plain h row_measureExtend rfl (by decide) (by rw [hd]; decide) fun t => State.objCommand_measureExtend t _ _ rfl
    case key =>
      intro slot node rights key hn hr hk
      refine State.windowActs_plain h (row_plynKey slot) (by rw [← hk]; rfl) (plynKey_form slot) (by simp [length_toLE, hk]) fun t =>
        State.objCommand_plynKey t _ _ slot rfl
  · intro w t hcode
    have hexec := State.attestNonce_exec h hlen hcode
    have hwin := s.windowBusy_at (src := src) (index := 0x0120) (sub := 1) (type := 16) (v := nonce) h.1
    rw [hexec]
    refine ⟨fun hfree => ?_, fun hheld => ?_⟩
    · refine ⟨_, congrArg Host.Outcome.next (if_neg (?_ : ¬ t.boot.attest.isSome = true)), rfl, congrArg DWindow.busy hwin⟩
      rw [show t.boot.attest = none from hfree]
      decide
    · refine ⟨_, congrArg Host.Outcome.next (if_pos (?_ : t.boot.attest.isSome = true)),
        congrArg BootSt.attest (State.finishWrite_boot _ _ _), ?_⟩
      · exact Option.isSome_iff_ne_none.mpr hheld
      · have hend := State.finishWrite_window (s := s.noncePut f src nonce) (w := w) rfl (congrArg DWindow.busy hwin :) (congrArg DWindow.stamp hwin :) stBusy 0
        exact ⟨congrArg DWindow.busy hend, congrArg DWindow.status hend⟩

end
end Sys2Proof.Machine
end

