-- ==== Sys2Proof/Proofs/InstanceControl.lean ====
section
/-! SUPPORT. CONTROL and the mailbox of an instance (R543 to R559): the writes, the actions in the wrong state, and the events of the mailbox. -/

namespace Sys2Proof.Machine

set_option Elab.async false

section
variable {s : State} {f : FuncId} {src : Source}

/-! CONTROL, MB_SEND and MB_RECEIVE_ACK (R552, R559). -/

theorem row_control (i : InstId) : objRow (objKey (0x4000 + 0x100 * i.val) 3) = some ⟨0x4000, 3, 3, 17, 4, 0, 3, 0, 0, 0, 0⟩ := by
  revert i
  decide +kernel

theorem row_mbSend (i : InstId) : objRow (objKey (0x4000 + 0x100 * i.val + 3) 1) = some ⟨0x4003, 1, 1, 17, 4, 416, 3, 0, 0, 0, 0⟩ := by
  revert i
  decide +kernel

theorem row_mbReceiveAck (i : InstId) : objRow (objKey (0x4000 + 0x100 * i.val + 3) 3) = some ⟨0x4003, 3, 3, 1, 1, 0, 3, 0, 0, 1, 0⟩ := by
  revert i
  decide +kernel

/-- The instance whose object an index names (R563). -/
theorem objBase_inst : ∀ i : InstId, objBase (0x4000 + 0x100 * i.val) = (0x4000, i.val) ∧ objBase (0x4000 + 0x100 * i.val + 3) = (0x4003, i.val) := by
  decide +kernel

theorem fin_ofNat_val {n : Nat} [NeZero n] (i : Fin n) : Fin.ofNat n i.val = i := Fin.ext (Nat.mod_eq_of_lt i.isLt)

theorem State.objCommand_control (t : State) (w : DictWrite) (ts : Nat) (i : InstId) (hk : w.key = objKey (0x4000 + 0x100 * i.val) 3) :
    t.objCommand w ⟨0x4000, 3, 3, 17, 4, 0, 3, 0, 0, 0, 0⟩ ts =
      (some (t.control i (fieldAt 0 1 w.value) (fieldAt 1 1 w.value) (fieldAt 2 1 w.value) (fieldAt 3 1 w.value)).1,
        (t.control i (fieldAt 0 1 w.value) (fieldAt 1 1 w.value) (fieldAt 2 1 w.value) (fieldAt 3 1 w.value)).2) := by
  have hsub : w.key % 256 = 3 := by rw [hk, objKey]; omega
  have hindex : w.key / 256 = 0x4000 + 0x100 * i.val := by rw [hk, objKey]; omega
  unfold State.objCommand
  dsimp only
  rw [hsub, hindex]
  show (some (t.control (Fin.ofNat 64 (objBase (0x4000 + 0x100 * i.val)).2) _ _ _ _).1, _) = _
  rw [(objBase_inst i).1, fin_ofNat_val]

theorem State.objCommand_mbSend (t : State) (w : DictWrite) (ts : Nat) (i : InstId) (hk : w.key = objKey (0x4000 + 0x100 * i.val + 3) 1) :
    t.objCommand w ⟨0x4003, 1, 1, 17, 4, 416, 3, 0, 0, 0, 0⟩ ts =
      (some (t.mailSend i w.stamp (fieldAt 0 2 w.value) (w.value.drop 4)).1, (t.mailSend i w.stamp (fieldAt 0 2 w.value) (w.value.drop 4)).2) := by
  have hsub : w.key % 256 = 1 := by rw [hk, objKey]; omega
  have hindex : w.key / 256 = 0x4000 + 0x100 * i.val + 3 := by rw [hk, objKey]; omega
  unfold State.objCommand
  dsimp only
  rw [hsub, hindex]
  show (some (t.mailSend (Fin.ofNat 64 (objBase (0x4000 + 0x100 * i.val + 3)).2) _ _ _).1, _) = _
  rw [(objBase_inst i).2, fin_ofNat_val]

theorem State.objCommand_mbReceiveAck (t : State) (w : DictWrite) (ts : Nat) (i : InstId)
    (hk : w.key = objKey (0x4000 + 0x100 * i.val + 3) 3) : t.objCommand w ⟨0x4003, 3, 3, 1, 1, 0, 3, 0, 0, 1, 0⟩ ts =
      (fun x : Nat × State => (some x.1, x.2)) (whenTrue w.value t (t.mailTaken i)) := by
  have hsub : w.key % 256 = 3 := by rw [hk, objKey]; omega
  have hindex : w.key / 256 = 0x4000 + 0x100 * i.val + 3 := by rw [hk, objKey]; omega
  unfold State.objCommand
  dsimp only
  rw [hsub, hindex]
  show (fun x : Nat × State => (some x.1, x.2)) (whenTrue w.value t (t.mailTaken (Fin.ofNat 64 (objBase (0x4000 + 0x100 * i.val + 3)).2))) = _
  rw [(objBase_inst i).2, fin_ofNat_val]

theorem control_form : ∀ i : InstId, 0x4000 + 0x100 * i.val < 2 ^ 16 ∧ writeKind (objKey (0x4000 + 0x100 * i.val) 3) = 4 := by decide +kernel

theorem mbox_form : ∀ i : InstId, 0x4000 + 0x100 * i.val + 3 < 2 ^ 16 ∧ writeKind (objKey (0x4000 + 0x100 * i.val + 3) 1) = 3 ∧
    writeKind (objKey (0x4000 + 0x100 * i.val + 3) 3) = 3 := by decide +kernel

/-- CONTROL written through a window has the action of its value. -/
theorem State.windowActs_control (h : s.windowServes f src) (i : InstId) {c : Sys2Proof.Instr} {action port fn flags : Nat}
    (hexec : exec c s = .next (s.controlWrite (.window f) i action port fn flags)) (ha : action < 2 ^ (8 * 1)) (hp : port < 2 ^ (8 * 1))
    (hf : fn < 2 ^ (8 * 1)) (hfl : flags < 2 ^ (8 * 1)) :
    s.windowActs f src c (0x4000 + 0x100 * i.val) 3 17 (toLE 1 action ++ toLE 1 port ++ toLE 1 fn ++ toLE 1 flags) 4 false
      fun t => t.control i action port fn flags := by
  refine State.windowActs_of_row h hexec (control_form i).1 (by decide) (by decide) (by simp [length_toLE]) (row_control i) (by decide)
    (by decide) rfl (control_form i).2 fun t => (State.objCommand_control t _ _ i rfl).trans ?_
  simp [State.windowWrite, fieldAt_skip, fieldAt_toLE_append ha, fieldAt_toLE_append hp, fieldAt_toLE_append hf, fieldAt_toLE_last hfl]

/-! Events of the mailbox leave the instances but for its boxes. -/

theorem State.mailCause_insts (s : State) (i : InstId) : (s.mailCause i).insts = s.insts := by
  unfold State.mailCause
  split
  · unfold State.raiseCause
    dsimp only
    split
    · exact (State.logged_sendVector _ _ _).insts
    · rfl
  · rfl

@[simp] theorem State.modInst_at (s : State) (i : InstId) (g : Inst → Inst) : (s.modInst i g).insts[i] = g s.insts[i] := by
  simp [State.modInst]

theorem State.mailShown_of_bound {i : InstId} (h : (s.insts[i]).state = .bound) : s.mailShown i = (s.insts[i]).outbox.head? := by
  unfold State.mailShown
  rw [if_pos (by rw [h]; decide)]

theorem State.mailShown_none {i : InstId} (h : (s.insts[i]).outbox = [] ∨ (s.insts[i]).state ≠ .bound) : s.mailShown i = none := by
  unfold State.mailShown
  rcases h with h | h
  · rw [h]
    split <;> rfl
  · exact if_neg (by simpa using h)

/-- Settles O42, by the action for the writes, and by the state of the instance for the actions and the mailbox. -/
theorem instanceControlAndMailbox : Obligations.InstanceControlAndMailbox := by
  unfold Obligations.InstanceControlAndMailbox
  refine ⟨fun s f src i h => ?_, fun s i port fn b => ?_, fun s f i value hinst => ?_⟩
  · intro base control
    have hcontrol := fun {c : Sys2Proof.Instr} {action port fn flags : Nat} => State.windowActs_control h i (c := c) (action := action)
      (port := port) (fn := fn) (flags := flags)
    have hindex : instIndex i 0x4003 = base + 3 := by
      show 0x4003 + 0x100 * i.val = 0x4000 + 0x100 * i.val + 3
      omega
    refine ⟨hcontrol rfl (by decide) (by decide) (by decide) (by decide), fun drop => ?_, fun port fn restore hp hf => ?_,
      hcontrol rfl (by decide) (by decide) (by decide) (by decide), hcontrol rfl (by decide) (by decide) (by decide) (by decide),
      hcontrol rfl (by decide) (by decide) (by decide) (by decide), hcontrol rfl (by decide) (by decide) (by decide) (by decide),
      fun kind body hk hb => ?_, fun on => ?_⟩
    · have hact := hcontrol (c := .destroy (.window f) i drop) (action := 2) (port := 0) (fn := 0) (flags := 2 * drop.toNat) rfl (by decide)
        (by decide) (by decide) (by cases drop <;> decide)
      cases drop
      · exact hact
      · exact hact
    · have hact := hcontrol (c := .bind (.window f) i port fn restore) (action := 3) (flags := restore.toNat) rfl (by decide)
        hp hf (toNat_lt_byte restore)
      cases restore
      · exact hact
      · exact hact
    · have hexec : exec (.mbSend (.window f) i kind body) s =
          .next (s.objWrite (.window f) (base + 3) 1 17 (toLE 2 kind ++ toLE 2 body.length ++ body)) := by
        rw [← hindex]
        rfl
      refine State.windowActs_of_row h hexec (mbox_form i).1 (by decide) (by decide) (by simp [length_toLE]; omega) (row_mbSend i) (by decide)
        (by decide) rfl (mbox_form i).2.1 fun t => (State.objCommand_mbSend t _ _ i rfl).trans ?_
      simp [State.windowWrite, drop_skip, fieldAt_toLE_append (n := 2) hk]
    · have hexec : exec (.mbReceiveAck (.window f) i on) s = .next (s.objWrite (.window f) (base + 3) 3 1 (toLE 1 on.toNat)) := by
        rw [← hindex]
        rfl
      refine State.windowActs_of_row h hexec (mbox_form i).1 (by decide) (by decide) (by simp [length_toLE]) (row_mbReceiveAck i) (by decide)
        (by decide) rfl (mbox_form i).2.2 fun t => (State.objCommand_mbReceiveAck t _ _ i rfl).trans ?_
      rw [State.windowWrite, whenTrue_flag]
  · intro st
    refine ⟨fun h => if_pos (bne_iff_ne.mpr h), fun h => if_pos (bne_iff_ne.mpr h), fun h hp hf => ?bind, fun h => if_pos (bne_iff_ne.mpr h),
      fun h => ?unbind, fun h1 h2 => ?thaw, fun h => if_pos (beq_iff_eq.mpr h), fun h hall => ?drained⟩
    case bind =>
      unfold State.instBind
      rw [if_neg (by simp; omega)]
      have hst : ((s.insts[i]).state != .unbound) = true := bne_iff_ne.mpr h
      exact if_pos (by rw [hst, Bool.true_or, Bool.true_or])
    case unbind =>
      unfold State.instUnbind
      rcases h with h | h | h
      · rw [show (s.insts[i]).state = .free from h]
        rfl
      · rw [show (s.insts[i]).state = .unbound from h]
        rfl
      · rw [show (s.insts[i]).state = .freezing from h]
        rfl
    case thaw =>
      unfold State.instThaw
      refine if_neg ?_
      rw [beq_false_of_ne h1, beq_false_of_ne h2, Bool.false_and, Bool.or_false]
      exact Bool.false_ne_true
    case drained =>
      have hwait : ¬ ((s.insts[i]).state != .freezing || (s.hostChans i).any fun c => (s.gutter.chans[c]).state != .paused) = true := by
        rw [show (s.insts[i]).state = .freezing from h]
        simpa using hall
      refine ⟨fun hu => congrArg Host.Outcome.next ?_, fun hu => congrArg Host.Outcome.next ?_⟩
      · exact (if_neg hwait).trans (if_neg (by rw [hu]; decide))
      · exact (if_neg hwait).trans (if_pos hu)
  · intro x len kind
    have hack : ∀ v, exec (.mbOutAck f v) s = .next (if v == 1 && (s.mailShown i).isSome then
        (s.modInst i fun x => { x with outbox := x.outbox.tail }).mailCause i else s) := fun v => by
      refine congrArg Host.Outcome.next (?_ : s.mailAck f v = _)
      unfold State.mailAck
      rw [hinst]
    have hpost : exec (.mbInPost f value) s = .next (if 512 < len || kind < 0x100 || 8 ≤ x.inbox.length then
        s.modInst i fun x => { x with mbDropped := x.mbDropped + 1 }
        else (s.stamp i.val).2.modInst i fun x =>
          { x with inbox := x.inbox ++ [⟨(s.stamp i.val).1, kind, i.val, padTo len (s.host.funcs[f]).mbIn⟩] }) := by
      refine congrArg Host.Outcome.next (?_ : s.mailPost f value = _)
      unfold State.mailPost
      rw [hinst]
    refine ⟨fun m rest hbox hst => ?_, fun hnone => ?_, fun hlen hkind hroom => ?_, fun hbad => ?_⟩
    · refine ⟨_, (hack 1).trans (congrArg Host.Outcome.next (if_pos ?_)), ?_⟩
      · rw [State.mailShown_of_bound hst, show (s.insts[i]).outbox = m :: rest from hbox]
        rfl
      · rw [State.mailCause_insts, State.modInst_at]
        exact ⟨by rw [show (s.insts[i]).outbox = m :: rest from hbox]; rfl, rfl⟩
    · refine (hack value).trans (congrArg Host.Outcome.next (if_neg ?_))
      rcases hnone with h | h | h
      · rw [State.mailShown_none (Or.inl h)]
        simp
      · simp [h]
      · rw [State.mailShown_none (Or.inr h)]
        simp
    · refine ⟨_, hpost.trans (congrArg Host.Outcome.next (if_neg ?_)), State.modInst_at _ _ _⟩
      simp only [Bool.or_eq_true, decide_eq_true_eq]
      omega
    · refine hpost.trans (congrArg Host.Outcome.next (if_pos ?_))
      simp only [Bool.or_eq_true, decide_eq_true_eq]
      tauto

end
end Sys2Proof.Machine
end

