-- ==== Sys2Proof/Proofs/TimeEvents.lean ====
section
/-! SUPPORT. Time's events: reserves, the odometer, boundaries, ticks and the store's writes (R46 to R59). -/

namespace Sys2Proof.Machine

set_option Elab.async false

section
variable {s : State}

/-! Reserves (R46). -/

/-- A reserve that is due is committed and stored. -/
theorem State.reserveCommit_of_due {kind : Fin 3} (hdue : s.time.reserveDue kind = true) (hridge : s.ridgeActs = true) :
    s.reserveCommit kind true = ((s.modTime fun t =>
      { t.setReserve kind (s.time.nextReserve kind) with retry := t.retry &&& (7 - 2 ^ kind.val) }).storeWrite
        (objKey 0x0413 (kind.val + 1)) (some (toLE 8 (s.time.nextReserve kind)))).bump 0x0413 4 1 := by
  unfold State.reserveCommit
  rw [if_neg (by rw [hdue, hridge, Bool.true_or]; decide)]
  rfl

theorem State.storeWrite_store (s : State) (key : Nat) (v : Bytes) : (s.storeWrite key (some v)).dict.store = nput s.dict.store key v := rfl

theorem State.storeWrite_time (s : State) (key : Nat) (v : Option Bytes) : (s.storeWrite key v).time = s.time := rfl

theorem State.reserveCommit_results {kind : Fin 3} (hdue : s.time.reserveDue kind = true) (hridge : s.ridgeActs = true) :
    ∃ u, exec (.reserveCommit kind true) s = .next u ∧
      u.time = { s.time.setReserve kind (s.time.nextReserve kind) with retry := s.time.retry &&& (7 - 2 ^ kind.val) } ∧
      nget u.dict.store (objKey 0x0413 (kind.val + 1)) = some (toLE 8 (s.time.nextReserve kind)) := by
  refine ⟨_, congrArg Host.Outcome.next (State.reserveCommit_of_due hdue hridge), ?_, ?_⟩
  · rfl
  · exact nget_nput_self _ _ _

/-! Odometry (R55 to R59). -/

theorem State.odoTick_of_stable {rising high dirStable : Bool} (hrun : s.time.run = true) (hedge : rising = decide (s.cfg 0x0404 2 0 = 0))
    (hmm : 0 < s.cfg 0x0404 1 0) : s.odoTick rising true high dirStable =
      (if dirStable then s else s.bump 0x0412 6 1).modTime fun t =>
        { t with dist := (t.dist + s.cfg 0x0404 1 0) % 2 ^ 64,
                 rev := if high != (s.cfg 0x0404 3 0 == 0) then (t.rev + s.cfg 0x0404 1 0) % 2 ^ 64 else t.rev } := by
  have hcfg : ∀ sub d, (if dirStable then s else s.bump 0x0412 6 1).cfg 0x0404 sub d = s.cfg 0x0404 sub d := by
    cases dirStable <;> exact fun _ _ => rfl
  unfold State.odoTick
  rw [if_neg (by rw [hrun, hedge]; simp; rfl), if_neg (by decide)]
  simp only [hcfg]
  rw [if_neg (by simp; omega)]

/-! Boundaries (R47 to R49). -/

/-- The next boundary of the grid, with none before it (R47). -/
theorem TimeSt.nextGrid_first {t : TimeSt} (h : t.lastKind = .none) (hp : 0 < t.period) :
    t.nextGrid % t.period = t.phase % t.period ∧ t.phase ≤ t.nextGrid ∧ t.ts ≤ t.nextGrid ∧
      (t.phase < t.nextGrid → t.nextGrid < t.ts + t.period) := by
  unfold TimeSt.nextGrid
  rw [if_pos (by rw [h]; decide)]
  by_cases hle : t.ts ≤ t.phase
  · rw [if_pos hle]
    exact ⟨rfl, Nat.le_refl _, hle, fun hlt => absurd hlt (lt_irrefl _)⟩
  · rw [if_neg hle]
    unfold ceilDiv
    have hdiv := Nat.div_add_mod (t.ts - t.phase + t.period - 1) t.period
    have hmod := Nat.mod_lt (t.ts - t.phase + t.period - 1) hp
    have hgrid := Nat.add_mul_mod_self_right t.phase ((t.ts - t.phase + t.period - 1) / t.period) t.period
    rw [Nat.mul_comm] at hdiv
    generalize (t.ts - t.phase + t.period - 1) / t.period * t.period = m at hdiv hgrid
    exact ⟨hgrid, Nat.le_add_right _ _, by omega, fun _ => by omega⟩

/-- A quarter of a period after a missing edge (R49). -/
theorem State.exec_synthetic {bytes crc : Nat} (hrun : s.time.run = true) (hmode : s.time.edgeMode = true) (hlast : s.time.lastKind ≠ .none)
    {w : State} (hw : w = (((s.advanceTo (s.time.lastBoundary + 5 * s.time.period / 4)).bump 0x0412 2 1).modTime fun t =>
      { t with regularRun := 0, synthRun := t.synthRun + 1 }).rafterBoundary (s.time.lastBoundary + s.time.period) .synthetic bytes crc) :
    exec (.syntheticBoundary bytes crc) s = .next
      (if w.time.source == 1 && w.time.state == .edgeLocked && decide (2 ≤ w.time.synthRun) then w.enterHoldover else w) := by
  have hgo : (!s.time.run || !s.time.edgeMode || s.time.lastKind == .none) = false := by
    rw [hrun, hmode, beq_false_of_ne hlast]
    rfl
  show execSyntheticBoundary bytes crc s = _
  unfold execSyntheticBoundary
  dsimp only
  rw [if_neg (by rw [hgo]; exact Bool.false_ne_true), ← hw]

/-- When a synthetic boundary brings HOLDOVER (R692). -/
theorem State.holdover_iff (w a b : State) :
    (if w.time.source == 1 && w.time.state == .edgeLocked && decide (2 ≤ w.time.synthRun) then a else b) =
      if w.time.source = 1 ∧ w.time.state = .edgeLocked ∧ 2 ≤ w.time.synthRun then a else b :=
  if_congr (by simp [and_assoc]) rfl rfl

/-- Settles O50: each event in the case where it acts. -/
theorem timeEvents : Obligations.TimeEvents := by
  unfold Obligations.TimeEvents
  refine ⟨fun s high dirStable => ?_, fun s bytes crc hrun => ?_⟩
  · intro mm rising
    refine ⟨fun hridge hstep hdue => ?ts, fun hridge hdue => ?dist, fun hridge hdue => ?rev, fun hrun => ⟨?good, fun hmm => ?zero, ?bad, ?other⟩⟩
    case ts =>
      have hnext : s.time.nextReserve 0 = s.time.ts + 60000000000 := by simp [TimeSt.nextReserve, hstep]
      obtain ⟨u, hu, htime, hstore⟩ := State.reserveCommit_results (kind := 0) (by simp [TimeSt.reserveDue, hdue]) hridge
      rw [hnext] at htime hstore
      exact ⟨u, hu, by rw [htime]; rfl, hstore⟩
    case dist =>
      obtain ⟨u, hu, htime, hstore⟩ := State.reserveCommit_results (kind := 1) (by simp [TimeSt.reserveDue, hdue]) hridge
      exact ⟨u, hu, by rw [htime]; rfl, hstore⟩
    case rev =>
      obtain ⟨u, hu, htime, hstore⟩ := State.reserveCommit_results (kind := 2) (by simp [TimeSt.reserveDue, hdue]) hridge
      exact ⟨u, hu, by rw [htime]; rfl, hstore⟩
    case good =>
      refine ⟨_, rfl, fun hmm => ?_⟩
      have htime : (if dirStable then s else s.bump 0x0412 6 1).time = s.time := by cases dirStable <;> rfl
      rw [State.odoTick_of_stable hrun rfl hmm, State.modTime_time, htime]
      refine ⟨rfl, ?_⟩
      show (if (high != decide (s.cfg 0x0404 3 0 = 0)) = true then _ else _) = _
      by_cases hdir : high = decide (s.cfg 0x0404 3 0 = 0)
      · rw [if_neg (by simp [← hdir]), if_pos hdir]
      · rw [if_pos (bne_iff_ne.mpr hdir), if_neg hdir]
    case zero =>
      refine congrArg Host.Outcome.next ?_
      unfold State.odoTick
      rw [if_neg (by rw [hrun]; simp; rfl), if_neg (by decide)]
      exact if_pos (by rw [beq_iff_eq]; exact hmm)
    case bad =>
      refine congrArg Host.Outcome.next ?_
      unfold State.odoTick
      rw [if_neg (by rw [hrun]; simp; rfl)]
      rfl
    case other =>
      refine congrArg Host.Outcome.next (if_pos ?_)
      rw [hrun]
      cases h : decide (s.cfg 0x0404 2 0 = 0)
      · simp [rising, h]
        simpa using h
      · simp [rising, h]
        simpa using h
  · intro t
    refine ⟨fun hmode hlast => ?next, fun hmode hlast hp => ?first, fun hmode hlast => ⟨fun hearly => ?early, fun hlate => ?regular, ?synthetic⟩,
      fun hlast hticks => ?tick, fun hp => ?raft, fun hphase hle => ?before⟩
    case next =>
      have hgrid : t.nextGrid = t.lastBoundary + t.period := if_neg (by simpa using hlast)
      rw [← hgrid]
      exact congrArg Host.Outcome.next (if_neg (by rw [hrun, hmode]; decide))
    case first =>
      obtain ⟨hmod, hphase, hts, hlt⟩ := TimeSt.nextGrid_first hlast hp
      exact ⟨t.nextGrid, hmod, hphase, hts, hlt, congrArg Host.Outcome.next (if_neg (by rw [hrun, hmode]; decide))⟩
    case early =>
      refine congrArg Host.Outcome.next ((if_neg ?_).trans (if_pos ?_))
      · rw [hrun, hmode]; simp; rfl
      · have hsoon : 4 * (s.time.ts - s.time.lastBoundary) < 3 * s.time.period := hearly
        simp [hsoon]; exact hlast
    case regular =>
      refine congrArg Host.Outcome.next ((if_neg ?_).trans (if_neg ?_))
      · rw [hrun, hmode]; simp; rfl
      · have hwait : 3 * s.time.period ≤ 4 * (s.time.ts - s.time.lastBoundary) := hlate
        simp; omega
    case synthetic =>
      obtain ⟨w, hw⟩ : ∃ w, w = (((s.advanceTo (t.lastBoundary + 5 * t.period / 4)).bump 0x0412 2 1).modTime fun t =>
          { t with regularRun := 0, synthRun := t.synthRun + 1 }).rafterBoundary (t.lastBoundary + t.period) .synthetic bytes crc := ⟨_, rfl⟩
      exact ⟨w, hw, (State.exec_synthetic hrun hmode hlast hw).trans (congrArg Host.Outcome.next (State.holdover_iff w _ _))⟩
    case tick =>
      refine congrArg Host.Outcome.next (if_neg ?_)
      rw [hrun]; simp; exact ⟨hlast, hticks⟩
    case raft =>
      have hdiv : ((t.phase + 7 * t.period : Nat) - t.phase : Int) / t.period = 7 := by
        rw [Nat.cast_add, Nat.cast_mul, add_sub_cancel_left]
        exact Int.mul_ediv_cancel _ (by omega)
      unfold TimeSt.raftAt
      rw [hdiv]
      rfl
    case before =>
      have hdiv : ((0 : Nat) - t.phase : Int) / t.period = -1 := by
        refine Int.ediv_eq_neg_one_of_neg_of_le ?_ ?_ <;> omega
      unfold TimeSt.raftAt
      rw [hdiv]
      rfl

end
end Sys2Proof.Machine
end

