-- ==== Sys2Proof/Proofs/PlynEvents.lean ====
section
/-! SUPPORT. What Plyn's ports do of themselves, and the writes that reach an object (R582 to R589). -/

namespace Sys2Proof.Machine

set_option Elab.async false

section
variable {s u : State}

/-! Replies and commits (R572, R583). -/

theorem State.Filed.commits (h : s.Filed u) : u.dict.commits = s.dict.commits := (congrArg (fun x : State => x.dict.commits) h :)

theorem State.dictReply_commits (w : DictWrite) (status : Nat) : (s.dictReply w status).dict.commits = s.dict.commits := by
  unfold State.dictReply
  split
  · unfold State.windowEnd
    simp only [State.modDict_dict]
    split <;> rfl
  · rfl

theorem State.dictReply_store (w : DictWrite) (status : Nat) : (s.dictReply w status).dict.store = s.dict.store := by
  unfold State.dictReply
  split
  · unfold State.windowEnd
    simp only [State.modDict_dict]
    split <;> rfl
  · rfl

theorem State.finishWrite_commits (w : DictWrite) (status applied : Nat) : (s.finishWrite w status applied).dict.commits = s.dict.commits := by
  obtain ⟨v, hv, h⟩ := s.finishWrite_eq w status applied
  rw [h, State.dictReply_commits, hv.commits]

theorem State.finishWrite_store (w : DictWrite) (status applied : Nat) : (s.finishWrite w status applied).dict.store = s.dict.store := by
  obtain ⟨v, hv, h⟩ := s.finishWrite_eq w status applied
  rw [h, State.dictReply_store, hv.store]

theorem State.exec_persistentCommit {w : DictWrite} {rest : List DictWrite} (hridge : s.ridgeActs = true)
    (h : s.dict.commits = w :: rest) (hk : w.key < 2 ^ 24) : exec .persistentCommit s =
      .next (((s.modDict fun d => { d with commits := rest }).storeWrite w.key
        (some ((s.modDict fun d => { d with commits := rest }).commitValue w))).finishWrite w stOk w.applied) := by
  refine congrArg Host.Outcome.next ((if_pos hridge).trans ?_)
  unfold State.commitOne
  rw [h]
  exact if_neg (by omega)

theorem State.plynSend_eq {port : Fin 6} {r : PlynReply} (h : s.dict.replies.find? (·.peer.port == port.val) = some r) :
    s.plynSend port = if port.val < 4 then
        (s.modDict fun d => { d with replies := eraseFirst (· == r) d.replies }).emit (.eaveFrame (Fin.ofNat 4 port.val) (s.replyFrame r))
      else if s.cfgBool (0x3150 + (port.val - 4)) 1 false && !(s.dict.fieldStopped[Fin.ofNat 2 (port.val - 4)]) then
        ((s.modDict fun d => { d with replies := eraseFirst (· == r) d.replies }).emit (.fieldFrame (port.val - 4) (s.replyFrame r))).bump
          (0x3158 + (port.val - 4)) 2 1
      else s.modDict fun d => { d with replies := eraseFirst (· == r) d.replies } := by
  unfold State.plynSend
  rw [h]
  rfl

/-! The message of a write (R581): a header of 32 bytes and the value. -/

/-- The header of a WRITE of one message. -/
def plynHeader (slot : Fin 8) (node key0 ts xid index sub type len : Nat) : Bytes :=
  [1, 2, BitVec.ofNat 8 (slot.val + 1), 1] ++ toLE 2 node ++ toLE 2 key0 ++ toLE 8 ts ++ toLE 4 xid ++ toLE 2 index ++ toLE 1 sub ++ toLE 1 type ++
    toLE 2 0 ++ toLE 2 len ++ toLE 2 len ++ toLE 2 0

theorem fieldAt_behind {p : Bytes} {k off : Nat} (hp : p.length = k) (h : k ≤ off) (n : Nat) (b : Bytes) :
    fieldAt off n (p ++ b) = fieldAt (off - k) n b := by
  rw [fieldAt_append_right (by omega), hp]

theorem fieldAt_toLE_mod (n x : Nat) (b : Bytes) : fieldAt 0 n (toLE n x ++ b) = x % 256 ^ n := by
  rw [fieldAt, sliceB_zero_append (length_toLE n x), leNat_toLE_mod]

theorem plynHeader_fields {slot : Fin 8} {node key0 ts xid index sub type len : Nat} (hi : index < 2 ^ (8 * 2)) (hs : sub < 2 ^ (8 * 1))
    (ht : type < 2 ^ (8 * 1)) (hx : xid < 2 ^ (8 * 4)) (v : Bytes) :
    fieldAt 4 2 (plynHeader slot node key0 ts xid index sub type len ++ v) = node % 2 ^ 16 ∧
    fieldAt 16 4 (plynHeader slot node key0 ts xid index sub type len ++ v) = xid ∧
    fieldAt 20 2 (plynHeader slot node key0 ts xid index sub type len ++ v) = index ∧
    fieldAt 22 1 (plynHeader slot node key0 ts xid index sub type len ++ v) = sub ∧
    fieldAt 23 1 (plynHeader slot node key0 ts xid index sub type len ++ v) = type := by
  unfold plynHeader
  obtain ⟨p, hp⟩ : ∃ p : Bytes, p = [1, 2, BitVec.ofNat 8 (slot.val + 1), 1] := ⟨_, rfl⟩
  have hlen : p.length = 4 := by rw [hp]; rfl
  rw [← hp]
  refine ⟨?_, ?_, ?_, ?_, ?_⟩
  · simp only [List.append_assoc, fieldAt_behind hlen (show 4 ≤ 4 by decide), Nat.sub_self, fieldAt_toLE_mod]
    rfl
  · simp [fieldAt_behind hlen, fieldAt_skip, fieldAt_toLE_append hx]
  · simp [fieldAt_behind hlen, fieldAt_skip, fieldAt_toLE_append hi]
  · simp [fieldAt_behind hlen, fieldAt_skip, fieldAt_toLE_append hs]
  · simp [fieldAt_behind hlen, fieldAt_skip, fieldAt_toLE_append ht]

/-- A write of one message through an authenticated slot (R580, R581). -/
theorem State.objWrite_plyn {slot : Fin 8} {port : Fin 6} {xid index sub type : Nat} {v : Bytes}
    (hkey : (s.dict.slots[slot]).key.isEmpty = false) (htakes : s.ridgeTakes = true) (hi : index < 2 ^ 16) (hs : sub < 2 ^ 8)
    (ht : type < 2 ^ 8) (hx : xid < 2 ^ 32) :
    s.objWrite (.plyn slot port xid) index sub type v = (s.stamp (plynSrc port.val)).2.dictSubmit
      { stamp := (s.stamp (plynSrc port.val)).1, source := .plyn slot (plynSrc port.val), key := objKey index sub, value := v,
        node := (s.dict.slots[slot]).node % 2 ^ 16, cycle := s.time.raft + 1,
        reply := .plyn slot ⟨port.val, (s.dict.slots[slot]).peer.mac, (s.dict.slots[slot]).peer.tci⟩ ((s.dict.slots[slot]).node % 2 ^ 16)
          xid index sub (s.dict.slots[slot]).key, applied := 0 } type := by
  obtain ⟨hnode, hxid, hindex, hsub, htype⟩ := plynHeader_fields (slot := slot) (node := (s.dict.slots[slot]).node)
    (key0 := s.cfg 0x3060 3 1) (ts := s.time.ts) (len := v.length) hi hs ht hx v
  have hbase : objKey index sub / 256 = index ∧ objKey index sub % 256 = sub := by
    unfold objKey
    omega
  have hsubmit : s.objWrite (.plyn slot port xid) index sub type v =
      s.plynSubmit ⟨⟨port.val, (s.dict.slots[slot]).peer.mac, (s.dict.slots[slot]).peer.tci⟩, slot,
        plynHeader slot (s.dict.slots[slot]).node (s.cfg 0x3060 3 1) s.time.ts xid index sub type v.length ++ v, (s.dict.slots[slot]).key,
        s.time.ts⟩ v := if_neg (by rw [hkey, htakes]; decide)
  rw [hsubmit]
  simp only [State.plynSubmit, PlynIn.source, PlynIn.key', PlynIn.node, PlynIn.xid, PlynIn.type, hnode, hxid, hindex, hsub, htype, hbase]
  rfl

/-- Settles O44, event by event. -/
theorem plynEventsAndWrites : Obligations.PlynEventsAndWrites := by
  unfold Obligations.PlynEventsAndWrites
  refine ⟨fun s slot a port r n frame w rest present => ⟨fun ha => ?late, fun hr => ⟨fun h => ?eave, fun m hm hen hrun => ?field⟩,
    fun hen hrun => ⟨?bad, fun hlow hhigh hfor => ?good⟩, rfl, fun hridge hc hk => ?commit⟩,
    fun s slot port xid index sub type v hkey htakes hi hs ht hv hx => ?write⟩
  case late =>
    refine ⟨_, congrArg Host.Outcome.next (?_ : _ = ((((s.advanceTo (a.lastAt + 100000001)).bump 0x3061 4 1).setAssembly slot none).plynReply
      { peer := (s.dict.slots[slot]).peer, slot := slot, node := (s.dict.slots[slot]).node, xid := a.xid, kind := 0x82, key := a.key, type := 0,
        offset := 0, total := 0, last := true, status := stBadArgument, value := [], signKey := (s.dict.slots[slot]).key })), ?_⟩
    · unfold State.fragmentLate
      dsimp only
      rw [ha]
    · refine ⟨rfl, ?_, _, rfl, rfl, rfl, rfl⟩
      show ((s.dict.slots.set slot { s.dict.slots[slot] with assembly := none })[slot]).assembly = none
      simp
  case eave =>
    have hfin : Fin.ofNat 4 port.val = ⟨port.val, h⟩ := Fin.ext (Nat.mod_eq_of_lt h)
    exact congrArg Host.Outcome.next ((State.plynSend_eq hr).trans (by rw [if_pos h, hfin]))
  case field =>
    have hport : port.val - 4 = m.val := by omega
    have hstop : s.dict.fieldStopped[Fin.ofNat 2 (port.val - 4)] = false :=
      (congrArg (fun k : Fin 2 => s.dict.fieldStopped[k]) (Fin.ext (by rw [hport]; exact Nat.mod_eq_of_lt m.isLt))).trans hrun
    have hopen : (s.cfgBool (0x3150 + (port.val - 4)) 1 false && !(s.dict.fieldStopped[Fin.ofNat 2 (port.val - 4)])) = true := by
      rw [hstop, hport, hen]
      rfl
    refine congrArg Host.Outcome.next ((State.plynSend_eq hr).trans ?_)
    rw [if_neg (by omega), if_pos hopen, hport]
  case bad =>
    refine congrArg Host.Outcome.next (?_ : s.fieldFrame n frame false = _)
    unfold State.fieldFrame
    dsimp only
    rw [hen, hrun]
    rfl
  case good =>
    refine congrArg Host.Outcome.next (?_ : s.fieldFrame n frame true = _)
    unfold State.fieldFrame
    dsimp only
    rw [hen, hrun, if_neg (by decide), if_neg (by decide), if_neg (by decide), if_neg (by rw [hfor]; simp; omega)]
  case commit =>
    refine ⟨_, State.exec_persistentCommit hridge hc hk, ?_, ?_⟩
    · rw [State.finishWrite_commits]
      rfl
    · rw [State.finishWrite_store, State.storeWrite_store, nget_nput_self]
  case write =>
    intro k src
    exact ⟨State.objWrite_plyn hkey htakes hi hs ht hx, fun on => rfl⟩

end
end Sys2Proof.Machine
end

