-- ==== Sys2Proof/Proofs/RowViews.lean ====
section
/-! SUPPORT. Views of the state that no row, no entry of a frame and no purlin operation changes. -/

namespace Sys2Proof.Machine

set_option Elab.async false

/-- A view of the state that does not see the tables, the ingest, the Purlin store, the dictionary, the host ports, the time base, the
error log, the Batten and the memories: what the filing and the entry of rows may change. -/
structure RowBlind {γ : Type} (g : State → γ) : Prop extends CacheBlind g where
  modPurlin : ∀ s f, g (s.modPurlin f) = g s
  modErr : ∀ s f, g (s.modErr f) = g s
  modTime : ∀ s f, g (s.modTime f) = g s
  modHost : ∀ s f, g (s.modHost f) = g s
  modOuts : ∀ s f, g (s.modOuts f) = g s
  modDict : ∀ s f, g (s.modDict f) = g s
  modIngest : ∀ s f, g (s.modIngest f) = g s
  modTables : ∀ s f, g (s.modTables f) = g s
  modBatten : ∀ s f, g (s.modBatten f) = g s
  modFreeCtr : ∀ s f, g (s.modFreeCtr f) = g s

/-- The state shows `seen` to such a view. -/
structure State.Still {γ : Type} (view : State → γ) (seen : γ) (s : State) : Prop where
  blind : RowBlind view
  eq : view s = seen

section
variable {γ : Type} {view : State → γ} {seen : γ} {s : State}

theorem State.Still.foldl {α : Type} {f : State → α → State} {l : List α} (hf : ∀ s a, State.Still view seen s → (f s a).Still view seen)
    (h : s.Still view seen) : (l.foldl f s).Still view seen := by
  induction l generalizing s with
  | nil => exact h
  | cons a l ih => exact ih (hf s a h)

theorem State.Still.foldl_fst {α β : Type} {f : State × β → α → State × β} {l : List α} {p : State × β}
    (hf : ∀ p a, State.Still view seen p.1 → (f p a).1.Still view seen) (h : p.1.Still view seen) : (l.foldl f p).1.Still view seen := by
  induction l generalizing p with
  | nil => exact h
  | cons a l ih => exact ih (hf p a h)

theorem State.Still.foldl_snd {α β : Type} {f : β × State → α → β × State} {l : List α} {p : β × State}
    (hf : ∀ p a, State.Still view seen p.2 → (f p a).2.Still view seen) (h : p.2.Still view seen) : (l.foldl f p).2.Still view seen := by
  induction l generalizing p with
  | nil => exact h
  | cons a l ih => exact ih (hf p a h)

theorem State.Still.foldl_snd_snd {α β δ : Type} {f : β × δ × State → α → β × δ × State} {l : List α} {p : β × δ × State}
    (hf : ∀ p a, State.Still view seen p.2.2 → (f p a).2.2.Still view seen) (h : p.2.2.Still view seen) : (l.foldl f p).2.2.Still view seen := by
  induction l generalizing p with
  | nil => exact h
  | cons a l ih => exact ih (hf p a h)

theorem State.Still.branch_fst {α : Type} {d : Prop} [Decidable d] {a b : State × α} (ha : a.1.Still view seen) (hb : b.1.Still view seen) :
    (if d then a else b).1.Still view seen := by
  split
  · exact ha
  · exact hb

/-! The records that the view does not see. -/

theorem State.Still.modPurlin (h : s.Still view seen) {f} : (s.modPurlin f).Still view seen := ⟨h.blind, (h.blind.modPurlin s f).trans h.eq⟩
theorem State.Still.modErr (h : s.Still view seen) {f} : (s.modErr f).Still view seen := ⟨h.blind, (h.blind.modErr s f).trans h.eq⟩
theorem State.Still.modTime (h : s.Still view seen) {f} : (s.modTime f).Still view seen := ⟨h.blind, (h.blind.modTime s f).trans h.eq⟩
theorem State.Still.modHost (h : s.Still view seen) {f} : (s.modHost f).Still view seen := ⟨h.blind, (h.blind.modHost s f).trans h.eq⟩
theorem State.Still.modOuts (h : s.Still view seen) {f} : (s.modOuts f).Still view seen := ⟨h.blind, (h.blind.modOuts s f).trans h.eq⟩
theorem State.Still.modDict (h : s.Still view seen) {f} : (s.modDict f).Still view seen := ⟨h.blind, (h.blind.modDict s f).trans h.eq⟩
theorem State.Still.modIngest (h : s.Still view seen) {f} : (s.modIngest f).Still view seen := ⟨h.blind, (h.blind.modIngest s f).trans h.eq⟩
theorem State.Still.modTables (h : s.Still view seen) {f} : (s.modTables f).Still view seen := ⟨h.blind, (h.blind.modTables s f).trans h.eq⟩
theorem State.Still.modBatten (h : s.Still view seen) {f} : (s.modBatten f).Still view seen := ⟨h.blind, (h.blind.modBatten s f).trans h.eq⟩
theorem State.Still.modFreeCtr (h : s.Still view seen) {f} : (s.modFreeCtr f).Still view seen := ⟨h.blind, (h.blind.modFreeCtr s f).trans h.eq⟩
theorem State.Still.bump (h : s.Still view seen) {index sub n} : (s.bump index sub n).Still view seen := h.modDict
theorem State.Still.sysWrite (h : s.Still view seen) {a bs} : (s.sysWrite a bs).Still view seen :=
  ⟨h.blind, (h.blind.toCacheBlind.sysWrite s a bs).trans h.eq⟩

/-! The functions that file and enter rows, in the order in which they call one another. -/

theorem State.Still.modBank (h : s.Still view seen) {b f} : (State.modBank s b f).Still view seen := by
  unfold State.modBank
  grind [← Still.modPurlin]

theorem State.Still.takeSeq (h : s.Still view seen) {src n} : (State.takeSeq s src n).2.Still view seen := by
  unfold State.takeSeq
  grind [← Still.modTime]

theorem State.Still.stampAt (h : s.Still view seen) {src ts} : (State.stampAt s src ts).2.Still view seen := by
  unfold State.stampAt
  grind [← Still.takeSeq, ← Still.modTime]

theorem State.Still.advanceTo (h : s.Still view seen) {due} : (State.advanceTo s due).Still view seen := by
  unfold State.advanceTo
  grind [← Still.modTime]

theorem State.Still.stamp (h : s.Still view seen) {src} : (State.stamp s src).2.Still view seen := by
  unfold State.stamp
  grind [← Still.stampAt, ← Still.advanceTo]

theorem State.Still.traceTrigger (h : s.Still view seen) {r} : (State.traceTrigger s r).Still view seen := by
  unfold State.traceTrigger
  grind [← Still.modErr]

theorem State.Still.modFunc (h : s.Still view seen) {x f} : (State.modFunc s x f).Still view seen := by
  unfold State.modFunc
  grind [← Still.modHost]

theorem State.Still.emit (h : s.Still view seen) {o} : (State.emit s o).Still view seen := by
  unfold State.emit
  grind [← Still.modOuts]

theorem State.Still.sendVector (h : s.Still view seen) {f v} : (State.sendVector s f v).Still view seen := by
  unfold State.sendVector
  grind [← Still.modFunc, ← Still.emit]

theorem State.Still.raiseCause (h : s.Still view seen) {f bit v} : (State.raiseCause s f bit v).Still view seen := by
  unfold State.raiseCause
  grind [← Still.modFunc, ← Still.sendVector]

theorem State.Still.eventCause (h : s.Still view seen) {f bit} : (State.eventCause s f bit).Still view seen := by
  unfold State.eventCause
  grind [← Still.raiseCause]

theorem State.Still.raise (h : s.Still view seen) {src r} : (State.raise s src r).Still view seen := by
  unfold State.raise
  grind [← Still.modErr, ← Still.stamp, ← Still.traceTrigger, ← Still.eventCause]

theorem State.Still.deadEntry (h : s.Still view seen) {b idx} : (State.deadEntry s b idx).Still view seen := by
  unfold State.deadEntry
  grind [← Still.modPurlin, ← Still.modBank, ← Still.raise, ← Still.bump]

theorem State.Still.meetFaults (h : s.Still view seen) {banks key f} : (State.meetFaults s banks key f).Still view seen := by
  unfold State.meetFaults
  grind [← Still.modBank, ← Still.deadEntry, ← Still.foldl, ← Still.foldl_snd, ← Still.foldl_fst]

theorem State.Still.falseHit (h : s.Still view seen) {b idx} : (State.falseHit s b idx).Still view seen := by
  unfold State.falseHit
  grind [← Still.bump, ← Still.modBank, ← Still.raise]

theorem State.Still.pSearch (h : s.Still view seen) {banks key f} : (State.pSearch s banks key f).2.Still view seen := by
  unfold State.pSearch
  grind [← Still.meetFaults, ← Still.falseHit, ← Still.foldl, ← Still.foldl_snd, ← Still.foldl_fst]

theorem State.Still.mapFind (h : s.Still view seen) {g key} : (State.mapFind s g key).2.Still view seen := by
  unfold State.mapFind
  grind [← Still.pSearch, ← Still.bump]

theorem State.Still.decodePdus (h : s.Still view seen) {g p} : (State.decodePdus s g p).2.Still view seen := by
  unfold State.decodePdus
  grind [← Still.mapFind, ← Still.foldl, ← Still.foldl_snd, ← Still.foldl_fst]

theorem State.Still.modTable (h : s.Still view seen) {id f} : (State.modTable s id f).Still view seen := by
  unfold State.modTable
  grind [← Still.modTables]

theorem State.Still.storeSeg (h : s.Still view seen) {id no} : (State.storeSeg s id no).Still view seen := by
  unfold State.storeSeg
  grind [← Still.sysWrite, ← Still.foldl, ← Still.foldl_snd, ← Still.foldl_fst]

theorem State.Still.fresh (h : s.Still view seen) : (State.fresh s).2.Still view seen := by
  unfold State.fresh
  grind [← Still.modFreeCtr]

theorem State.Still.newPlace (h : s.Still view seen) {keep n} : (State.newPlace s keep n).2.Still view seen := by
  unfold State.newPlace
  grind [← Still.fresh]

theorem State.Still.newCopy (h : s.Still view seen) {d a n} : (State.newCopy s d a n).2.Still view seen := by
  unfold State.newCopy
  grind [← Still.fresh]

theorem State.Still.newPlaces (h : s.Still view seen) {keep lapped lens} : (State.newPlaces s keep lapped lens).2.2.Still view seen := by
  unfold State.newPlaces
  refine Still.foldl_snd_snd (fun p n hp => ?_) h
  have hnew := hp.newPlace (keep := keep) (n := n)
  cases lapped with
  | false => exact hnew
  | true =>
    have hcopy := hnew.newCopy (d := (p.2.2.newPlace keep n).2.dram) (a := (p.2.2.newPlace keep n).1) (n := n)
    exact hcopy

theorem State.Still.storeOpen (h : s.Still view seen) {id no} : (State.storeOpen s id no).Still view seen := by
  unfold State.storeOpen
  grind [← Still.storeSeg, ← Still.newPlaces, ← Still.modTable]

theorem State.Still.noteFresh (h : s.Still view seen) {id r} : (State.noteFresh s id r).Still view seen := by
  unfold State.noteFresh
  grind [← Still.modBatten]

theorem State.Still.putRow (h : s.Still view seen) {id late r} : (State.putRow s id late r).2.Still view seen := by
  unfold State.putRow
  grind [← Still.storeOpen, ← Still.modTable, ← Still.noteFresh]

theorem State.Still.putCatalogue (h : s.Still view seen) {d g event} : (State.putCatalogue s d g event).Still view seen := by
  unfold State.putCatalogue
  grind [← Still.stamp, ← Still.putRow]

theorem State.Still.catalogue (h : s.Still view seen) {id g event} : (State.catalogue s id g event).Still view seen := by
  unfold State.catalogue
  grind [← Still.putCatalogue]

theorem State.Still.storeFront (h : s.Still view seen) {id no} : (State.storeFront s id no).Still view seen := by
  unfold State.storeFront
  grind [← Still.sysWrite, ← Still.foldl, ← Still.foldl_snd, ← Still.foldl_fst]

theorem State.Still.freeSegs (h : s.Still view seen) {id} : (State.freeSegs s id).Still view seen := by
  unfold State.freeSegs
  grind [← Still.modTable]

theorem State.Still.dictForget (h : s.Still view seen) {table seg} : (State.dictForget s table seg).Still view seen := by
  unfold State.dictForget
  grind [← Still.modPurlin, ← Still.modBank, ← Still.foldl, ← Still.foldl_snd, ← Still.foldl_fst]

theorem State.Still.retireSeg (h : s.Still view seen) {id no event} : (State.retireSeg s id no event).Still view seen := by
  unfold State.retireSeg
  split
  · exact h
  · exact h.catalogue.modTable.storeFront.modTables.dictForget.freeSegs

theorem State.Still.squeeze (h : s.Still view seen) {beyond pick fuel} : (State.squeeze beyond pick fuel s).1.Still view seen := by
  induction fuel generalizing s with
  | zero => exact h
  | succ fuel ih =>
    unfold State.squeeze
    split
    · exact h
    · split
      · exact h
      · exact ih h.retireSeg

theorem State.Still.enforce (h : s.Still view seen) {id} : (State.enforce s id).Still view seen := by
  unfold State.enforce
  split
  · exact h
  · dsimp only
    split
    · exact h.squeeze.squeeze.modTable
    · exact h.squeeze.squeeze.squeeze.modTables

theorem State.Still.noteOpened (h : s.Still view seen) {id opened} : (State.noteOpened s id opened).Still view seen := by
  unfold State.noteOpened
  grind [← Still.catalogue]

theorem State.Still.dictSpill (h : s.Still view seen) {table seg col code v} : (State.dictSpill s table seg col code v).Still view seen := by
  unfold State.dictSpill
  grind [← Still.modPurlin]

theorem State.Still.pInsert (h : s.Still view seen) {banks x1 key f} : (State.pInsert s banks x1 key f).2.Still view seen := by
  unfold State.pInsert
  grind [← Still.pSearch, ← Still.modBank]

theorem State.Still.dictNote (h : s.Still view seen) {table seg col ty owner code v} : (State.dictNote s table seg col ty owner code v).Still view seen := by
  unfold State.dictNote
  grind [← Still.dictSpill, ← Still.bump, ← Still.pInsert]

theorem State.Still.dictRebuild (h : s.Still view seen) {id g col ty owner} : (State.dictRebuild s id g col ty owner).Still view seen := by
  unfold State.dictRebuild
  grind [← Still.dictNote, ← Still.modPurlin, ← Still.foldl, ← Still.foldl_snd, ← Still.foldl_fst]

theorem State.Still.noteDict (h : s.Still view seen) {id r} : (State.noteDict s id r).Still view seen := by
  unfold State.noteDict
  grind [← Still.dictNote, ← Still.dictRebuild, ← Still.foldl, ← Still.foldl_snd, ← Still.foldl_fst]

theorem State.Still.placeRow (h : s.Still view seen) {id late r} : (State.placeRow s id late r).Still view seen := by
  unfold State.placeRow
  grind [← Still.putRow, ← Still.noteOpened, ← Still.noteDict]

theorem State.Still.enterRow {p : State × UnitOut} (h : p.1.Still view seen) {x} : (State.enterRow p x).1.Still view seen := by
  unfold State.enterRow
  dsimp only
  split
  · exact h
  · exact Still.branch_fst h.modTable (Still.branch_fst h.placeRow.enforce.bump h.bump)

theorem State.Still.setRo (h : s.Still view seen) {index sub v} : (State.setRo s index sub v).Still view seen := by
  unfold State.setRo
  grind [← Still.modDict]

theorem State.Still.noteHeld (h : s.Still view seen) : (State.noteHeld s).Still view seen := by
  unfold State.noteHeld
  grind [← Still.setRo]

theorem State.Still.enterUnit (h : s.Still view seen) {unit rows} : (State.enterUnit s unit rows).1.Still view seen := by
  unfold State.enterUnit
  dsimp only
  split
  · split
    · exact h.modIngest.bump.bump.raise
    · exact h.modIngest.bump.bump
  · refine (Still.foldl_fst (fun _ _ hp => hp.enterRow) ?_).noteHeld
    dsimp only
    exact h.modIngest.modIngest

theorem State.Still.enterFrame (h : s.Still view seen) {port e base} : (State.enterFrame s port e base).Still view seen := by
  unfold State.enterFrame
  grind [← Still.enterUnit]

theorem State.Still.redecode (h : s.Still view seen) {port e} : (State.redecode s port e).Still view seen := by
  unfold State.redecode
  grind [← Still.decodePdus, ← Still.enterFrame]

theorem State.Still.redecodeRings (h : s.Still view seen) : (State.redecodeRings s).Still view seen := by
  unfold State.redecodeRings
  grind [← Still.redecode, ← Still.foldl, ← Still.foldl_snd, ← Still.foldl_fst]

end
end Sys2Proof.Machine
end

