-- ==== Sys2Proof/Proofs/FinialViews.lean ====
section
/-! SUPPORT. What completions, alerts and a replay leave of the Finial's record. -/

namespace Sys2Proof.Machine

set_option Elab.async false

theorem finialRowBlind : RowBlind State.finial where
  toCacheBlind := ⟨fun _ _ => rfl, fun _ _ => rfl, fun _ _ _ => rfl, fun _ _ _ => rfl, fun _ _ _ _ => rfl⟩
  modPurlin _ _ := rfl
  modErr _ _ := rfl
  modTime _ _ := rfl
  modHost _ _ := rfl
  modOuts _ _ := rfl
  modDict _ _ := rfl
  modIngest _ _ := rfl
  modTables _ _ := rfl
  modBatten _ _ := rfl
  modFreeCtr _ _ := rfl

/-- The Finial's record without the journal, a handover asked for and FN_ALERT: what the token, the Ridges and a lone restart are. -/
def FinialSt.core (x : FinialSt) : FinialSt :=
  { x with journal := [], jseq := 0, journalMax := 0, ackJseq := 0, requested := none, alert := 0 }

section
variable {s : State}

/-! What leaves the Ridges and the token as they are. -/

theorem State.journal_core (s : State) (kind : Nat) (st : Stamp) (payload : Nat) : (s.journal kind st payload).finial.core = s.finial.core := rfl

theorem State.complete_core (s : State) (i : InstId) (r : Stamp) (status : Nat) : (s.complete i r status).finial.core = s.finial.core := by
  unfold State.complete State.completeWith
  split
  · rfl
  · rfl

theorem State.complete_alert (s : State) (i : InstId) (r : Stamp) (status : Nat) : (s.complete i r status).finial.alert = s.finial.alert := by
  unfold State.complete State.completeWith
  split
  · rfl
  · rfl

theorem State.redecodeRings_finial (s : State) : s.redecodeRings.finial = s.finial :=
  (State.Still.redecodeRings (s := s) ⟨finialRowBlind, rfl⟩).eq

/-- A view of the Finial that completions of commands do not change is not changed by a takeover's replay. -/
theorem State.takeUp_view {γ : Type} (g : FinialSt → γ) (hcomplete : ∀ (s : State) i r st, g (s.complete i r st).finial = g s.finial)
    (hack : ∀ (x : FinialSt) k, g { x with ackJseq := k } = g x) (s : State) : g s.takeUp.finial = g s.finial := by
  unfold State.takeUp State.noteOutage State.setOutage
  refine (hack _ _).trans ?_
  refine (foldl_keeps (fun s : State => g s.finial) _ (fun s i => ?_) _ _).trans ?_
  · refine foldl_keeps (fun s : State => g s.finial) _ (fun s c => ?_) _ _
    split
    · exact hcomplete _ _ _ _
    · rfl
  · rw [State.redecodeRings_finial]
    rfl

theorem State.takeUp_core (s : State) : s.takeUp.finial.core = s.finial.core :=
  s.takeUp_view FinialSt.core State.complete_core fun _ _ => rfl

theorem State.takeUp_alert (s : State) : s.takeUp.finial.alert = s.finial.alert :=
  s.takeUp_view FinialSt.alert State.complete_alert fun _ _ => rfl

theorem State.finishWrite_finial (w : DictWrite) (status applied : Nat) : (s.finishWrite w status applied).finial = s.finial := by
  obtain ⟨v, hv, h⟩ := s.finishWrite_eq w status applied
  rw [h, ← hv.finial]
  unfold State.dictReply
  split <;> rfl

theorem State.endRequest_core (s : State) (status : Nat) : (s.endRequest status).finial.core = s.finial.core := by
  unfold State.endRequest
  split
  · rw [State.finishWrite_finial]
    rfl
  · rfl

theorem State.endRequest_alert (s : State) (status : Nat) : (s.endRequest status).finial.alert = s.finial.alert := by
  unfold State.endRequest
  split
  · rw [State.finishWrite_finial]
    rfl
  · rfl

theorem State.raise_finial (s : State) (src : Nat) (r : ErrRec) : (s.raise src r).finial = s.finial := (s.logged_raise src r).finial

theorem State.alert_core (s : State) (bit : Nat) (sev : Severity) (scope id : Nat) : (s.alert bit sev scope id).finial.core = s.finial.core := by
  unfold State.alert
  split
  · rfl
  · rw [State.raise_finial]
    rfl

theorem State.noteStandby_core (s : State) : s.noteStandby.finial.core = s.finial.core := by
  unfold State.noteStandby
  split
  · rfl
  · exact s.alert_core _ _ _ _

/-! Alerts. -/

theorem bitAt_or_two_pow (x b : Nat) : bitAt (x ||| 2 ^ b) b = true := by
  rw [bitAt_eq_testBit, Nat.testBit_or, Nat.testBit_two_pow_self, Bool.or_true]

/-- An alert is on once it has been raised (R594). -/
theorem State.alert_on (s : State) (bit : Nat) (sev : Severity) (scope id : Nat) : bitAt (s.alert bit sev scope id).finial.alert bit = true := by
  unfold State.alert
  split
  case isTrue h => exact h
  · rw [State.raise_finial]
    exact bitAt_or_two_pow _ _

/-- Whether a standby is READY is another alert than those of a takeover and of a lone restart. -/
theorem State.noteStandby_alert (s : State) {bit : Nat} (hbit : bit = 0 ∨ bit = 4) (h : bitAt s.finial.alert bit = true) :
    bitAt s.noteStandby.finial.alert bit = true := by
  have hmask : (0xFFFF - 2 ^ 1 % 0x10000).testBit bit = true := by rcases hbit with rfl | rfl <;> decide
  rw [bitAt_eq_testBit] at h ⊢
  unfold State.noteStandby State.unalert State.alert
  split
  · show (s.finial.alert &&& _).testBit bit = true
    rw [Nat.testBit_and, h, hmask]
    rfl
  · split
    · exact h
    · rw [State.raise_finial]
      show (s.finial.alert ||| _).testBit bit = true
      rw [Nat.testBit_or, h, Bool.true_or]

end
end Sys2Proof.Machine
end

