-- ==== Sys2Proof/Proofs/Takeover.lean ====
section
/-! SUPPORT. The active Ridge's failure: takeover and lone restart (R602, R603, R613). -/

namespace Sys2Proof.Machine

set_option Elab.async false

section
variable {s : State}

/-- What a takeover says of the Finial: who holds the token, where a lone Ridge restarts, and what the Ridges are. -/
structure FinialSt.Holds (x y : FinialSt) : Prop where
  holder : x.holder = y.holder
  handover : x.handover = y.handover
  lone : x.lone = y.lone
  tokenSeq : x.tokenSeq = y.tokenSeq
  ridges : x.ridges = y.ridges

theorem FinialSt.Holds.of_core {x y : FinialSt} (h : x.core = y.core) : x.Holds y :=
  ⟨(congrArg FinialSt.holder h :), (congrArg FinialSt.handover h :), (congrArg FinialSt.lone h :), (congrArg FinialSt.tokenSeq h :),
    (congrArg FinialSt.ridges h :)⟩

theorem FinialSt.Holds.trans {x y z : FinialSt} (h : x.Holds y) (k : y.Holds z) : x.Holds z :=
  ⟨h.holder.trans k.holder, h.handover.trans k.handover, h.lone.trans k.lone, h.tokenSeq.trans k.tokenSeq, h.ridges.trans k.ridges⟩

theorem otherRidge_ne (r : Fin 2) : otherRidge r ≠ r := by
  revert r
  decide

/-- A Ridge that fails is FAILED; the token and the other Ridge stay as they are (R592). -/
theorem State.ridgeFails_holds (s : State) (r : Fin 2) (cause : Nat) : ∃ k : RidgeSt, k.state = .failed ∧
    (s.ridgeFails r cause).finial.Holds { s.finial with ridges := s.finial.ridges.set r k } := by
  refine ⟨{ s.ridge r with
    state := .failed, cause := cause, missed := 0, attempts := min 15 ((s.ridge r).attempts + 1), failedAt := s.time.ts, image := false, acks := 0 },
    rfl, ?_⟩
  unfold State.ridgeFails
  refine (FinialSt.Holds.of_core (State.noteStandby_core _)).trans ?_
  dsimp only
  generalize hu : State.modRidge s r _ = u
  have hret : (if r = 0 then u.modFinial fun x => { x with ret := .none } else u).finial.Holds u.finial := by
    split <;> exact ⟨rfl, rfl, rfl, rfl, rfl⟩
  have hend : ∀ (c : Bool) (v : State), (if c then v.endRequest stWrongState else v).finial.Holds v.finial := fun c v => by
    cases c
    · exact ⟨rfl, rfl, rfl, rfl, rfl⟩
    · exact .of_core (v.endRequest_core stWrongState)
  refine (hend _ _).trans (hret.trans ?_)
  rw [← hu]
  exact ⟨rfl, rfl, rfl, rfl, rfl⟩

/-- What ends a takeover moves neither the token nor a Ridge, and leaves the takeover's alert on. -/
theorem State.takeoverEnd_holds (s : State) (c : Bool) (halert : bitAt s.finial.alert 0 = true) :
    (if c then s.endRequest stOk else s).takeUp.noteStandby.finial.Holds s.finial ∧
      bitAt (if c then s.endRequest stOk else s).takeUp.noteStandby.finial.alert 0 = true := by
  constructor
  · refine (FinialSt.Holds.of_core ((State.noteStandby_core _).trans (State.takeUp_core _))).trans ?_
    cases c
    · exact ⟨rfl, rfl, rfl, rfl, rfl⟩
    · exact .of_core (s.endRequest_core stOk)
  · refine State.noteStandby_alert _ (.inl rfl) ?_
    rw [State.takeUp_alert]
    cases c
    · exact halert
    · exact (congrArg (bitAt · 0) (s.endRequest_alert stOk)).trans halert

/-- The Ridge that gets the token is ACTIVE (R603). -/
theorem State.grant_ridges (s : State) (r : Fin 2) : ∃ k : RidgeSt, k.state = .active ∧ (s.grant r).finial.ridges = s.finial.ridges.set r k :=
  ⟨_, rfl, rfl⟩

/-- A takeover: the failed Ridge is FAILED, the other is ACTIVE and has the next token, and the takeover's alert is on (R602, R603). -/
theorem State.takeover_goes (s : State) (r : Fin 2) (cause : Nat) :
    (s.takeover r (otherRidge r) cause).finial.holder = (otherRidge r).val + 1 ∧
      ((s.takeover r (otherRidge r) cause).finial.ridges[r]).state = .failed ∧
      ((s.takeover r (otherRidge r) cause).finial.ridges[otherRidge r]).state = .active ∧
      (s.takeover r (otherRidge r) cause).finial.tokenSeq = (s.finial.tokenSeq + 1) % 2 ^ 32 ∧
      bitAt (s.takeover r (otherRidge r) cause).finial.alert 0 = true := by
  obtain ⟨v, hv, hseq⟩ : ∃ v, v = (s.fresh.2.modFinial fun x => { x with holder := 0, handover := false, ret := .none }).noteOutage ∧
      v.finial.tokenSeq = s.finial.tokenSeq := ⟨_, rfl, rfl⟩
  obtain ⟨k, hk, hfails⟩ := v.ridgeFails_holds r cause
  obtain ⟨w, hw⟩ : ∃ w, w = v.ridgeFails r cause := ⟨_, rfl⟩
  rw [← hw] at hfails
  obtain ⟨y, hy⟩ : ∃ y, y = (((w.grant (otherRidge r)).stamp srcFinial).2.modFinial fun x => { x with
    lastTakeover := some ⟨((w.grant (otherRidge r)).stamp srcFinial).1, r.val + 1, (otherRidge r).val + 1, cause, (s.fresh.2.ridge (otherRidge r)).lastAck,
      s.fresh.2.finial.unacked, Config.freeNat s.fresh.1 % 88001⟩ }) := ⟨_, rfl⟩
  obtain ⟨z, hz⟩ : ∃ z, z = (y.alert 0 .contained 10 r.val).advanceTo
    (((w.grant (otherRidge r)).stamp srcFinial).1.ts + Config.freeNat s.fresh.1 % 88001) := ⟨_, rfl⟩
  have hend := z.takeoverEnd_holds (z.finial.requested.any (·.1 == (otherRidge r).val + 1)) (by rw [hz]; exact y.alert_on _ _ _ _)
  have hgrant : y.finial.Holds (w.grant (otherRidge r)).finial := by rw [hy]; exact ⟨rfl, rfl, rfl, rfl, rfl⟩
  have hall := hend.1.trans ((show z.finial.Holds y.finial by rw [hz]; exact .of_core (y.alert_core _ _ _ _)).trans hgrant)
  have hres : s.takeover r (otherRidge r) cause =
      (if z.finial.requested.any (·.1 == (otherRidge r).val + 1) then z.endRequest stOk else z).takeUp.noteStandby := by
    rw [hz, hy, hw, hv]
    rfl
  obtain ⟨hh, -, -, hs, hr⟩ := hall
  obtain ⟨k', hk', hridges⟩ := w.grant_ridges (otherRidge r)
  rw [hres]
  refine ⟨hh, ?_, ?_, hs.trans ?_, hend.2⟩
  · rw [hr, hridges, hfails.ridges]
    show ((v.finial.ridges.set r k).set (otherRidge r) k')[r.val].state = _
    rw [Vector.getElem_set_ne _ _ (fun h => otherRidge_ne r (Fin.ext h)), Vector.getElem_set_self, hk]
  · rw [hr, hridges]
    show (w.finial.ridges.set (otherRidge r) k')[(otherRidge r).val].state = _
    rw [Vector.getElem_set_self, hk']
  · rw [← hseq, ← show w.finial.tokenSeq = v.finial.tokenSeq from hfails.tokenSeq]
    rfl

/-- A lone restart: nobody holds the token, the failed Ridge is tried again, no handover goes on, and the alert of it is on (R613). -/
theorem State.loneStart_alone (s : State) (r : Fin 2) (cause : Nat) :
    (s.loneStart r cause).finial.holder = 0 ∧ (s.loneStart r cause).finial.lone = some r ∧ ((s.loneStart r cause).finial.ridges[r]).state = .failed ∧
      (s.loneStart r cause).finial.handover = false ∧ bitAt (s.loneStart r cause).finial.alert 4 = true := by
  obtain ⟨v, hv⟩ : ∃ v, v = s.modFinial fun x =>
    { x with holder := 0, handover := false, ret := .none, lone := some r, loneTried := 0, declaredAt := s.time.ts } := ⟨_, rfl⟩
  obtain ⟨k, hk, hfails⟩ := v.ridgeFails_holds r cause
  obtain ⟨hh, hover, hlone, -, hr⟩ := (FinialSt.Holds.of_core ((v.ridgeFails r cause).alert_core 4 .contained 10 r.val)).trans hfails
  have hres : (s.loneStart r cause).finial = ((v.ridgeFails r cause).alert 4 .contained 10 r.val).finial := by
    rw [hv]
    rfl
  rw [hres]
  refine ⟨hh.trans (by rw [hv]; rfl), hlone.trans (by rw [hv]; rfl), ?_, hover.trans (by rw [hv]; rfl), State.alert_on _ _ _ _ _⟩
  rw [hr]
  show (v.finial.ridges.set r k)[r.val].state = _
  rw [Vector.getElem_set_self, hk]

/-- The active Ridge is declared failed while the other is READY and no handover goes on: the other takes over (R602). -/
theorem State.declareFailed_takeover {r : Fin 2} (cause : Nat) (hactive : s.active = some r) (hfault : s.finial.fault = false)
    (hover : s.finial.handover = false) (hready : (s.finial.ridges[otherRidge r]).state = .ready) :
    s.declareFailed r cause = s.takeover r (otherRidge r) cause := by
  unfold State.declareFailed
  rw [if_neg (by rw [hfault, hactive]; simp), if_pos (by rw [hover, show (s.ridge (otherRidge r)).state = .ready from hready]; rfl)]

theorem State.declareFailed_alone {r : Fin 2} (cause : Nat) (hactive : s.active = some r) (hfault : s.finial.fault = false)
    (hover : s.finial.handover = true) : s.declareFailed r cause = s.loneStart r cause := by
  unfold State.declareFailed
  rw [if_neg (by rw [hfault, hactive]; simp), if_neg (by rw [hover]; simp)]

/-- The active Ridge's own report of a failure (R602). -/
theorem State.selfFault_declared {r : Fin 2} {code : Nat} (hactive : s.active = some r) (hcode : code % 2 ^ 16 ≠ 0) :
    s.selfFault r code = (s.modRidge r fun k => { k with selfCode := code % 65536 }).declareFailed r 4 := by
  unfold State.selfFault
  rw [if_neg (by rw [hactive]; simp), if_neg (by rw [beq_iff_eq]; exact hcode)]

theorem State.modRidge_other (s : State) (r : Fin 2) (f : RidgeSt → RidgeSt) :
    (s.modRidge r f).finial.ridges[otherRidge r] = s.finial.ridges[otherRidge r] := by
  show (s.finial.ridges.set r (f s.finial.ridges[r]))[(otherRidge r).val] = _
  rw [Vector.getElem_set_ne _ _ (fun h => otherRidge_ne r (Fin.ext h.symm))]
  rfl

/-- At the checkpoint's deadline a READY standby takes over from an active Ridge that did not acknowledge, or that missed two heartbeats (R602). -/
theorem State.ckptDeadline_declared {r : Fin 2} (hactive : s.active = some r) (hover : s.finial.handover = false)
    (hready : (s.finial.ridges[otherRidge r]).state = .ready)
    (h : s.finial.ckpt.acked = false ∨ s.finial.ckpt.acked = true ∧ 2 ≤ (s.finial.ridges[r]).missed) :
    ∃ cause, s.ckptDeadline = (s.advanceTo (s.time.lastBoundary + 60000)).declareFailed r cause := by
  have hridge : (s.ridge (otherRidge r)).state = .ready := hready
  unfold State.ckptDeadline
  rw [hactive]
  dsimp only
  rw [if_neg (by rw [show (s.advanceTo (s.time.lastBoundary + 60000)).finial.handover = false from hover]; exact Bool.false_ne_true)]
  rcases h with hacked | ⟨hacked, hmissed⟩
  · exact ⟨2, if_pos (by
      show ((!s.finial.ckpt.acked && s.acknowledges (otherRidge r)) && (s.ridge (otherRidge r)).state == .ready) = true
      unfold State.acknowledges
      rw [hacked, hridge]
      rfl)⟩
  · have hsilent : ((!(s.advanceTo (s.time.lastBoundary + 60000)).finial.ckpt.acked) &&
        (s.advanceTo (s.time.lastBoundary + 60000)).acknowledges (otherRidge r)) = false := by
      rw [show (s.advanceTo (s.time.lastBoundary + 60000)).finial.ckpt.acked = true from hacked]
      rfl
    rw [hsilent]
    exact ⟨1, if_pos hmissed⟩

end

/-- Settles O46: with the other Ridge READY each way the active one fails ends in a takeover, and during a handover in a lone restart. -/
theorem takeoverGrantsTheToken : Obligations.TakeoverGrantsTheToken := by
  intro s r code hactive hfault hready
  have hself : ∀ f : RidgeSt → RidgeSt, ((s.modRidge r f).finial.ridges[otherRidge r]).state = .ready := fun f =>
    (congrArg RidgeSt.state (s.modRidge_other r f)).trans hready
  have hdeadline : s.finial.handover = false → s.finial.ckpt.acked = false ∨ s.finial.ckpt.acked = true ∧ 2 ≤ (s.finial.ridges[r]).missed →
      ∃ cause, s.ckptDeadline = (s.advanceTo (s.time.lastBoundary + 60000)).takeover r (otherRidge r) cause := fun hover h => by
    obtain ⟨cause, hc⟩ := State.ckptDeadline_declared hactive hover hready h
    exact ⟨cause, hc.trans (State.declareFailed_takeover cause hactive hfault hover hready)⟩
  have hdown : ∀ cause, s.ridgeDown r cause = s.declareFailed r cause := fun cause => if_pos (by rw [hactive]; exact beq_self_eq_true _)
  dsimp only
  refine ⟨fun hover => ⟨fun hcode => ?_, ?_, fun hacked hmissed => ?_, fun hacked => ?_⟩, fun hover => ⟨fun hcode => ?_, ?_⟩⟩
  · exact ⟨_, congrArg Host.Outcome.next ((State.selfFault_declared hactive hcode).trans
      (State.declareFailed_takeover 4 hactive hfault hover (hself _))), State.takeover_goes _ r 4⟩
  · exact ⟨_, congrArg Host.Outcome.next ((hdown 3).trans (State.declareFailed_takeover 3 hactive hfault hover hready)), State.takeover_goes _ r 3⟩
  · obtain ⟨cause, hc⟩ := hdeadline hover (.inr ⟨hacked, hmissed⟩)
    exact ⟨_, congrArg Host.Outcome.next hc, State.takeover_goes _ r cause⟩
  · obtain ⟨cause, hc⟩ := hdeadline hover (.inl hacked)
    exact ⟨_, congrArg Host.Outcome.next hc, State.takeover_goes _ r cause⟩
  · exact ⟨_, congrArg Host.Outcome.next ((State.selfFault_declared hactive hcode).trans (State.declareFailed_alone 4 hactive hfault hover)),
      State.loneStart_alone _ r 4⟩
  · exact ⟨_, congrArg Host.Outcome.next ((hdown 3).trans (State.declareFailed_alone 3 hactive hfault hover)), State.loneStart_alone _ r 3⟩

end Sys2Proof.Machine
end

