-- ==== Sys2Proof/Proofs/StartAndActivation.lean ====
section
/-! SUPPORT. What begins a start; the end of an activation's drain and of an attestation (R617, R632, R637, R681 to R684). -/

namespace Sys2Proof.Machine

set_option Elab.async false

section
variable {s : State}

/-- The power-up of the standby domain, apart from what it provisions and what it finds in the record: the supplies and counters it sets (R617). -/
theorem State.coldStart_sets (p : Option Provision) (h : s.boot.standbyUp = false) :
    (s.coldStart p).boot.standbyUp = true ∧ (s.coldStart p).boot.mainEn = true ∧ (s.coldStart p).boot.mainUp = false ∧
      (s.coldStart p).boot.halted = false ∧ (s.coldStart p).time.sbRun = true ∧ (s.coldStart p).err.poweredUs = s.err.mirrorPowered ∧
      (s.coldStart p).err.outages = s.err.mirrorOutages := by
  have herr : ((s.provision p).recordDram).err = s.err := by
    have hprov : (s.provision p).err = s.err := by
      cases p with
      | none => rfl
      | some q =>
        unfold State.provision
        dsimp only
        split_ifs
        all_goals rfl
    rw [← hprov]
    unfold State.recordDram
    split
    all_goals rfl
  unfold State.coldStart
  rw [if_neg (by rw [h]; exact Bool.false_ne_true)]
  exact ⟨rfl, rfl, rfl, rfl, rfl, congrArg ErrSt.mirrorPowered herr, congrArg ErrSt.mirrorOutages herr⟩

/-- WAKE high outside the Keep is noted and starts nothing; in the Keep it starts the part once the rails are up (R682). -/
theorem State.wakeRise_out (railsUp : Bool) (passes : List StartEnv) (h : s.dram.phase ≠ .inKeep) :
    s.wakeRise railsUp passes = (s.modBoot fun b => { b with wakeHigh := true }).modDram fun d => { d with wakeLowAt := none } := by
  unfold State.wakeRise
  exact if_pos (by
    rw [Bool.or_eq_true]
    exact .inl (bne_iff_ne.mpr h))

theorem State.wakeRise_keep (railsUp : Bool) (passes : List StartEnv) (h : s.dram.phase = .inKeep) (hup : s.boot.standbyUp = true) :
    s.wakeRise railsUp passes = if railsUp
      then ((s.modBoot fun b => { b with wakeHigh := true }).modDram fun d => { d with wakeLowAt := none }).start 1 passes
      else ((s.modBoot fun b => { b with wakeHigh := true }).modDram fun d => { d with wakeLowAt := none }).modBoot
        fun b => { b with wakePending := true } := by
  unfold State.wakeRise
  refine if_neg ?_
  show ¬(s.dram.phase != .inKeep || !s.boot.standbyUp) = true
  rw [h, hup]
  decide

/-- RST_N is counted in the Keep; outside it, with the main supplies up, it begins a WARM start (R684). -/
theorem State.resetPin_keep (passes : List StartEnv) (hup : s.boot.standbyUp = true) (h : s.dram.phase = .inKeep) :
    s.resetPin passes = s.modBoot fun b => { b with rstIgnored := b.rstIgnored + 1 } := by
  unfold State.resetPin
  rw [hup, h]
  rfl

theorem State.resetPin_warm (passes : List StartEnv) (hup : s.boot.standbyUp = true) (h : s.dram.phase ≠ .inKeep) (hmain : s.boot.mainUp = true) :
    s.resetPin passes = s.start 2 passes := by
  unfold State.resetPin
  rw [hup, if_neg (by decide), if_neg (by rw [beq_iff_eq]; exact h), hmain]
  rfl

/-- The commands that an activation drains. -/
def State.drainLeft (s : State) : Bool := (List.finRange 64).any fun i => (s.insts[i]).queue.any (·.drains)

theorem State.drainEnds_eq {since : Nat} (h : s.boot.activating = some (1, since)) (hacts : s.ridgeActs = true) (hout : s.dram.phase = .out) :
    s.drainEnds = ((List.finRange 64).foldl (fun s i => ((s.insts[i]).queue.filter (·.drains)).foldl (fun s c =>
      s.abortCmd i c 0x6003) s) (if s.drainLeft then s.advanceTo (since + 1000000 * s.cfg 0x3040 1 200) else s)).activateRidge since := by
  unfold State.drainEnds
  split
  · rename_i since' h'
    obtain rfl : since' = since := by simpa [h] using h'.symm
    rw [if_neg (by rw [hacts, hout]; decide)]
    rfl
  · rename_i hne
    exact absurd h (hne since)

/-- The drain of an activation that has no command left to drain (R632). -/
theorem State.drainEnds_drained {since : Nat} (h : s.boot.activating = some (1, since)) (hacts : s.ridgeActs = true) (hout : s.dram.phase = .out)
    (hnone : ∀ i : InstId, (s.insts[i]).queue.any (·.drains) = false) : s.drainEnds = s.activateRidge since := by
  rw [State.drainEnds_eq h hacts hout]
  have hleft : s.drainLeft = false := by
    refine List.any_eq_false.mpr ?_
    exact fun i _ => Bool.eq_false_iff.mp (hnone i)
  rw [hleft]
  refine congrArg (State.activateRidge · since) ?_
  rw [if_neg Bool.false_ne_true]
  refine List.foldl_fixed' (fun i => ?_) _
  have hempty : (s.insts[i]).queue.filter (·.drains) = [] := by
    rw [List.filter_eq_nil_iff]
    exact List.any_eq_false.mp (hnone i)
  rw [hempty]
  rfl

/-- The drain of an activation that ends with commands left ends them (R632). -/
theorem State.drainEnds_left {since : Nat} (h : s.boot.activating = some (1, since)) (hacts : s.ridgeActs = true) (hout : s.dram.phase = .out)
    {i : InstId} (hany : (s.insts[i]).queue.any (·.drains) = true) : s.drainEnds =
      ((List.finRange 64).foldl (fun s i => ((s.insts[i]).queue.filter (·.drains)).foldl (fun s c =>
        s.abortCmd i c 0x6003) s) (s.advanceTo (since + 1000000 * s.cfg 0x3040 1 200))).activateRidge since := by
  rw [State.drainEnds_eq h hacts hout]
  have hleft : s.drainLeft = true := List.any_eq_true.mpr ⟨i, List.mem_finRange i, hany⟩
  rw [hleft]
  rfl

/-- The report of an attestation: the body it signs and the signature of 384 bytes, and its write is answered (R637). -/
theorem State.attestDone_report {nonce : Bytes} {w : DictWrite} (h : s.boot.attest = some (nonce, w)) :
    s.attestDone.boot.attest = none ∧
      (∃ body, body = ((s.stamp s.ridgeSrc).2.fresh).2.reportBody nonce (s.stamp s.ridgeSrc).1 ∧
        s.attestDone.boot.report.take body.length = body ∧ s.attestDone.boot.report.length = body.length + 384) ∧
      ∀ f : FuncId, w.reply = .window f → (s.dict.windows[f]).busy = true → (s.dict.windows[f]).stamp = w.stamp →
        (s.attestDone.dict.windows[f]).busy = false ∧ (s.attestDone.dict.windows[f]).status = 0 := by
  obtain ⟨v, hv⟩ : ∃ v, v = ((s.stamp s.ridgeSrc).2.fresh).2.modBoot fun b => { b with
      attest := none
      report := ((s.stamp s.ridgeSrc).2.fresh).2.reportBody nonce (s.stamp s.ridgeSrc).1 ++ padTo 384 (Config.attestSignature
        (s.stamp s.ridgeSrc).2.fresh.1 (((s.stamp s.ridgeSrc).2.fresh).2.reportBody nonce (s.stamp s.ridgeSrc).1)) } := ⟨_, rfl⟩
  have hdone : s.attestDone = v.finishWrite w stOk w.applied := by
    unfold State.attestDone
    rw [h, hv]
  rw [hdone, State.finishWrite_boot, hv]
  refine ⟨rfl, ⟨_, rfl, List.take_left' rfl, ?_⟩, fun f hw hbusy hst => ?_⟩
  · show (_ ++ padTo 384 _).length = _
    rw [List.length_append, length_padTo]
  · rw [← hv, State.finishWrite_window hw (by rw [hv]; exact hbusy) (by rw [hv]; exact hst)]
    exact ⟨rfl, rfl⟩

end

/-- Settles O53, by what begins a start and by how an activation's drain and an attestation end. -/
theorem startAndActivation : Obligations.StartAndActivation := by
  refine ⟨fun s pr passes => ⟨fun h => ⟨_, rfl, State.coldStart_sets pr h⟩, fun hup hmain => ?_, fun high hhigh => ⟨fun hout => ?_, fun hkeep hup => ?_⟩,
    fun hup => ⟨fun hkeep => ?_, fun hout hmain => ?_⟩, fun hhalted => ?_⟩, fun s since nonce w f => ⟨fun h hacts hout => ⟨fun hnone => ?_, fun i hany => ?_⟩,
    fun h => ?_⟩⟩
  · exact congrArg Host.Outcome.next (if_pos (by rw [hup, hmain]; rfl))
  · rw [hhigh]
    exact congrArg Host.Outcome.next (State.wakeRise_out true passes hout)
  · rw [hhigh]
    exact ⟨congrArg Host.Outcome.next (State.wakeRise_keep true passes hkeep hup), congrArg Host.Outcome.next (State.wakeRise_keep false passes hkeep hup)⟩
  · exact congrArg Host.Outcome.next (State.resetPin_keep passes hup hkeep)
  · exact congrArg Host.Outcome.next (State.resetPin_warm passes hup hout hmain)
  · exact if_pos hhalted
  · exact congrArg Host.Outcome.next (State.drainEnds_drained h hacts hout hnone)
  · exact congrArg Host.Outcome.next (State.drainEnds_left h hacts hout hany)
  · obtain ⟨hnone, hbody, hwin⟩ := State.attestDone_report h
    exact ⟨_, rfl, hnone, hbody, hwin f⟩

end Sys2Proof.Machine
end

