-- ==== Sys2Proof/Proofs/ElectricalEvents.lean ====
section
/-! SUPPORT. Alarms of clocks and supplies, and the losses of supply (R21, R482, R668, R679, R680, R686). -/

namespace Sys2Proof.Machine

set_option Elab.async false

section
variable {s : State}

/-! Alarms of the Flashing engine (R482). -/

/-- An alarm at the Flashing engine: it stands, the contexts are cleared; the boot record and whether domain 17 runs stay. -/
theorem State.flashAlarm_sets (s : State) (cause : Nat) : bitAt (s.flashAlarm cause).flash.alarms cause = true ∧
    (s.flashAlarm cause).flash.cleared = true ∧ (s.flashAlarm cause).boot = s.boot := by
  unfold State.flashAlarm State.flashClear
  dsimp only
  have h := fun (u : State) (r : ErrRec) => u.logged_raise srcFlash r
  refine ⟨?_, ?_, ?_⟩
  · rw [(h _ _).flash]
    exact bitAt_or_two_pow _ _
  · rw [(h _ _).flash]
    rfl
  · rw [(h _ _).boot]
    rfl

theorem bitAt_two_pow_self (b : Nat) : bitAt (2 ^ b) b = true := by rw [bitAt_eq_testBit, Nat.testBit_two_pow_self]

/-- Bit `b` of a number less its bit `b` is clear. -/
theorem bitAt_sub_two_pow {m b : Nat} (h : bitAt m b = true) : bitAt (m - 2 ^ b) b = false := by
  rw [bitAt_eq_testBit, Nat.testBit_eq_decide_div_mod_eq, decide_eq_true_eq] at h
  rw [bitAt_eq_testBit, Nat.testBit_eq_decide_div_mod_eq, decide_eq_false_iff_not]
  have hdiv := Nat.sub_mul_div m (2 ^ b) 1
  rw [Nat.mul_one] at hdiv
  rw [hdiv]
  omega

theorem State.flashAlarmEnd_alarms (s : State) (cause : Nat) : bitAt (s.flashAlarmEnd cause).flash.alarms cause = false := by
  show bitAt (if bitAt s.flash.alarms cause then s.flash.alarms - 2 ^ cause else s.flash.alarms) cause = false
  by_cases h : bitAt s.flash.alarms cause = true
  · rw [if_pos h, bitAt_sub_two_pow h]
  · rw [if_neg h]
    exact Bool.eq_false_iff.mpr h

/-! Alarms of clock domains and supplies (R679, R680). -/

theorem State.clockAlarm_eq {dom : Nat} (hruns : s.domainRuns dom = true) (hpos : 0 < dom) (hle : dom ≤ 17)
    (hclear : bitAt s.boot.clockAlarms dom = false) : s.clockAlarm dom =
      (((s.modBoot fun b => { b with clockAlarms := b.clockAlarms ||| 2 ^ dom }).raise srcFinial
        { ErrRec.blank with severity := (clockScope dom).2.2, scope := (clockScope dom).1, scopeId := (clockScope dom).2.1, event := 20,
                            detail0 := dom }).flashAlarm 3).containClock dom := by
  unfold State.clockAlarm
  refine if_neg ?_
  rw [hclear, hruns]
  simp
  omega

theorem State.clockAlarm_rafter (hruns : s.domainRuns 17 = true) (hclear : bitAt s.boot.clockAlarms 17 = false) :
    (s.clockAlarm 17).time.run = false ∧ bitAt (s.clockAlarm 17).boot.clockAlarms 17 = true ∧ bitAt (s.clockAlarm 17).flash.alarms 3 = true ∧
      (s.clockAlarm 17).flash.cleared = true := by
  obtain ⟨r, u, hu, heq⟩ : ∃ (r : ErrRec) (u : State), u = (s.modBoot fun b => { b with clockAlarms := b.clockAlarms ||| 2 ^ 17 }) ∧
      s.clockAlarm 17 = ((u.raise srcFinial r).flashAlarm 3).modTime (·.stop) :=
    ⟨_, _, rfl, State.clockAlarm_eq hruns (by omega) (by omega) hclear⟩
  obtain ⟨halarm, hcleared, hboot⟩ := State.flashAlarm_sets (u.raise srcFinial r) 3
  rw [heq]
  refine ⟨rfl, ?_, halarm, hcleared⟩
  show bitAt ((u.raise srcFinial r).flashAlarm 3).boot.clockAlarms 17 = true
  rw [hboot, (State.logged_raise _ _ _).boot, hu]
  exact bitAt_or_two_pow _ _

theorem State.clockAlarmEnd_last {dom : Nat} (h : s.boot.clockAlarms = 2 ^ dom) :
    (s.clockAlarmEnd dom).boot.clockAlarms = 0 ∧ bitAt (s.clockAlarmEnd dom).flash.alarms 3 = false := by
  obtain ⟨u, hu, hend⟩ : ∃ u, u.boot.clockAlarms = 0 ∧ s.clockAlarmEnd dom = if u.boot.clockAlarms == 0 then u.flashAlarmEnd 3 else u := by
    unfold State.clockAlarmEnd
    rw [if_neg (by rw [h, bitAt_two_pow_self]; decide)]
    refine ⟨_, ?_, rfl⟩
    split_ifs
    all_goals exact (congrArg (· - 2 ^ dom) h).trans (Nat.sub_self _)
  rw [hend, hu]
  exact ⟨hu, u.flashAlarmEnd_alarms 3⟩

theorem State.voltageAlarm_sets (rail : Fin 8) (mv : Nat) (hmain : s.boot.mainUp = true) (hin : bitAt s.boot.railsOut (mainRail rail).val = false) :
    (s.voltageAlarm rail mv).boot.rails[mainRail rail] = mv ∧
      (s.voltageAlarm rail mv).boot.railAlarms[mainRail rail] = s.boot.railAlarms[mainRail rail] + 1 ∧
      bitAt (s.voltageAlarm rail mv).boot.railsOut (mainRail rail).val = true ∧ bitAt (s.voltageAlarm rail mv).flash.alarms 2 = true := by
  obtain ⟨u, hu⟩ : ∃ u, u = ((s.modBoot fun b => { b with rails := b.rails.set (mainRail rail) mv }).modBoot fun b =>
    { b with
      railsOut := b.railsOut ||| 2 ^ (mainRail rail).val
      railAlarms := b.railAlarms.set (mainRail rail) (b.railAlarms[mainRail rail] + 1) }) := ⟨_, rfl⟩
  have heq : s.voltageAlarm rail mv =
      (u.raise srcFinial { ErrRec.blank with severity := .contained, event := 21, detail0 := (mainRail rail).val }).flashAlarm 2 := by
    unfold State.voltageAlarm
    rw [if_neg (by rw [hmain]; decide), hu]
    exact if_neg (Bool.eq_false_iff.mp hin)
  obtain ⟨halarm, -, hboot⟩ := State.flashAlarm_sets
    (u.raise srcFinial { ErrRec.blank with severity := .contained, event := 21, detail0 := (mainRail rail).val }) 2
  rw [heq, hboot, (State.logged_raise _ _ _).boot]
  refine ⟨?_, ?_, ?_, halarm⟩
  · rw [hu]
    exact Vector.getElem_set_self _
  · rw [hu]
    exact Vector.getElem_set_self _
  · rw [hu]
    exact bitAt_or_two_pow _ _

theorem State.voltageAlarmEnd_last (rail : Fin 8) (mv : Nat) (h : s.boot.railsOut = 2 ^ (mainRail rail).val) :
    (s.voltageAlarmEnd rail mv).boot.rails[mainRail rail] = mv ∧ (s.voltageAlarmEnd rail mv).boot.railsOut = 0 ∧
      bitAt (s.voltageAlarmEnd rail mv).flash.alarms 2 = false := by
  unfold State.voltageAlarmEnd
  dsimp only
  rw [if_neg (by rw [h, bitAt_two_pow_self]; decide)]
  obtain ⟨u, hu⟩ : ∃ u, u = s.modBoot fun b => { b with rails := b.rails.set (mainRail rail) mv, railsOut := b.railsOut - 2 ^ (mainRail rail).val } :=
    ⟨_, rfl⟩
  have hout : u.boot.railsOut = 0 := by rw [hu]; exact (congrArg (· - 2 ^ (mainRail rail).val) h).trans (Nat.sub_self _)
  rw [← hu, hout]
  refine ⟨?_, hout, u.flashAlarmEnd_alarms 2⟩
  show u.boot.rails[mainRail rail] = mv
  rw [hu]
  exact Vector.getElem_set_self _

/-- A brownout loses memory and the Keep, and forces the alert (R71, R686). -/
theorem State.brownout_sets (h : s.boot.mainUp = true) : s.brownout.mem = [] ∧ s.brownout.boot.mainUp = false ∧
    s.brownout.boot.mainEn = false ∧ s.brownout.boot.brownouts = s.boot.brownouts + 1 ∧ s.brownout.dram.keepValid = false ∧
      s.brownout.finial.alertForced = true ∧ s.brownout.finial.holder = 0 ∧ s.brownout.dict.store = s.storeDropped := by
  unfold State.brownout
  rw [if_neg (by rw [h]; decide)]
  exact ⟨rfl, rfl, rfl, rfl, rfl, rfl, rfl, rfl⟩

/-- Without the standby supply only the fuses, the boot flash and what it holds stay (R21). -/
theorem State.off_sets (s : State) : s.off.mem = [] ∧ s.off.boot.standbyUp = false ∧ s.off.time.sbRun = false ∧ s.off.boot.fuses = s.boot.fuses ∧
    s.off.boot.flash = s.boot.flash ∧ s.off.dict.store = s.storeDropped ∧ s.off.finial = State.reset.finial := by
  unfold State.off
  dsimp only
  refine ⟨rfl, ?_, rfl, ?_, ?_, rfl, rfl⟩
  all_goals
    split
    · rfl
    · rfl

end

/-- Settles O52, alarm by alarm; the losses of supply by the values they set. -/
theorem electricalEvents : Obligations.ElectricalEvents := by
  intro s dom rail mv p locked
  dsimp only
  refine ⟨fun hruns hpos hle hclear => ⟨_, _, _, rfl, congrArg Host.Outcome.next (State.clockAlarm_eq hruns hpos hle hclear)⟩,
    fun hruns hclear => ⟨_, rfl, State.clockAlarm_rafter hruns hclear⟩, fun h => ⟨_, rfl, State.clockAlarmEnd_last h⟩,
    fun hmain hin => ⟨_, rfl, State.voltageAlarm_sets rail mv hmain hin⟩, fun h => ⟨_, rfl, State.voltageAlarmEnd_last rail mv h⟩,
    fun hmain => ?_, fun hup => ?_, fun hup hclear => ?_, rfl⟩
  · exact ⟨_, congrArg Host.Outcome.next (if_pos hmain),
      (s.modBoot fun b => { b with rails := b.rails.set (mainRail rail) 0 }).brownout_sets hmain⟩
  · exact ⟨_, congrArg Host.Outcome.next (if_pos hup), s.off_sets⟩
  · obtain ⟨halarm, hcleared, hboot⟩ := (s.modBoot fun b => { b with tamperEvents := b.tamperEvents + 1 }).flashAlarm_sets 5
    refine ⟨_, congrArg Host.Outcome.next (if_neg (by rw [hup, hclear]; decide)), ?_, halarm, hcleared⟩
    rw [hboot]
    rfl

end Sys2Proof.Machine
end

