-- ==== Sys2Proof/Proofs/PowerSamples.lean ====
section
/-! SUPPORT. Pitch changes, power and temperature samples, self-tests and the mirror of the availability counters (R621, R644 to R653, R670, R674). -/

namespace Sys2Proof.Machine

set_option Elab.async false

section
variable {s u v : State}

/-! Pitch changes and parking (R644, R645). -/

/-- A change of a course that is not parked completes with the clock of its pitch; with no start on the way nothing else follows but waiting plans. -/
theorem State.pitchChangeDone_clock {c : CourseId} (hchanging : (s.power.courses[c]).changing = true) (hpark : (s.power.courses[c]).effective ≠ 3)
    (hvisits : s.boot.visits = []) : s.pitchChangeDone c =
      (s.modCourse c fun k => { k with changing := false, effective := s.targetPitch c, mhz := s.clockAt c (s.targetPitch c) }).pumpPlans := by
  have hnot : ((s.power.courses[c]).effective == 3) = false := beq_eq_false_iff_ne.mpr hpark
  unfold State.pitchChangeDone
  dsimp only
  rw [hnot, hvisits, if_neg (by rw [hchanging]; decide), if_neg (by rw [Bool.false_and]; exact Bool.false_ne_true), show ([].head? == some c.val) = false from rfl, if_neg Bool.false_ne_true,
    if_neg (by rw [Bool.false_and]; exact Bool.false_ne_true)]

/-- An idle course that nothing needs is parked once AUTO_PARK has passed. -/
theorem State.policyParkDue_parks {c : CourseId} {since ms : Nat} (hidle : (s.power.courses[c]).idleSince = some since) (hms : s.cfg 0x0812 1 50 = ms)
    (hpos : 0 < ms) (hassigned : (s.power.courses[c]).assigned < 2) (heff : (s.power.courses[c]).effective ≠ 3)
    (hchanging : (s.power.courses[c]).changing = false) (hacts : s.ridgeActs = true) (hneeded : s.courseNeeded c = false) :
    s.policyParkDue c = ((s.advanceTo (since + 1000000 * ms)).modCourse c fun k => { k with policyPark := true }).startChange c := by
  unfold State.policyParkDue
  dsimp only
  rw [hidle, hms]
  refine if_neg ?_
  rw [hchanging, hacts, hneeded, beq_eq_false_iff_ne.mpr heff, decide_eq_false (Nat.not_le_of_lt hassigned), beq_eq_false_iff_ne.mpr hpos.ne']
  decide

/-! Power samples (R648 to R650). -/

/-- What a sample does to the ceilings after it is recorded: of the measurements, the bundles and a Flat course it changes nothing. -/
structure State.Capped (s u : State) : Prop where
  now : u.power.now = s.power.now
  maxMw : u.power.maxMw = s.power.maxMw
  energy : u.power.energy = s.power.energy
  unattributed : u.power.unattributed = s.power.unattributed
  tiles : u.batten.tiles = s.batten.tiles
  assigned : ∀ d : CourseId, (u.power.courses[d]).assigned = (s.power.courses[d]).assigned
  flat : ∀ d : CourseId, (s.power.courses[d]).assigned = 2 → u.power.courses[d] = s.power.courses[d]

theorem State.Capped.refl (s : State) : s.Capped s := ⟨rfl, rfl, rfl, rfl, rfl, fun _ => rfl, fun _ _ => rfl⟩

theorem State.Capped.trans (h : s.Capped u) (k : u.Capped v) : s.Capped v :=
  ⟨k.now.trans h.now, k.maxMw.trans h.maxMw, k.energy.trans h.energy, k.unattributed.trans h.unattributed, k.tiles.trans h.tiles,
    fun d => (k.assigned d).trans (h.assigned d), fun d hd => (k.flat d ((h.assigned d).trans hd)).trans (h.flat d hd)⟩

theorem State.Capped.of_eq (hp : u.power = s.power) (hb : u.batten.tiles = s.batten.tiles) : s.Capped u :=
  ⟨by rw [hp], by rw [hp], by rw [hp], by rw [hp], hb, fun d => by rw [hp], fun d _ => by rw [hp]⟩

theorem State.capped_unalert (s : State) (bit : Nat) : s.Capped (s.unalert bit) := .of_eq rfl rfl

theorem State.capped_alert (s : State) (bit : Nat) (sev : Severity) (scope id : Nat) : s.Capped (s.alert bit sev scope id) := by
  unfold State.alert
  split
  · exact .refl s
  · exact .of_eq (State.logged_raise _ _ _).power (congrArg BattenSt.tiles (State.logged_raise _ _ _).batten)

theorem State.modCourse_at (s : State) (c : CourseId) (f : CoursePw → CoursePw) : (s.modCourse c f).power.courses[c] = f s.power.courses[c] :=
  Vector.getElem_set_self _

theorem State.modCourse_other {c d : CourseId} (h : d ≠ c) (f : CoursePw → CoursePw) :
    (s.modCourse c f).power.courses[d] = s.power.courses[d] := by
  show (s.power.courses.set c (f s.power.courses[c]))[d.val] = _
  exact Vector.getElem_set_ne _ _ (fun e => h (Fin.ext e.symm))

/-- A change of a course that is not Flat, to the same assigned pitch. -/
theorem State.capped_modCourse {c : CourseId} (hc : (s.power.courses[c]).assigned ≠ 2) {f : CoursePw → CoursePw}
    (hf : ∀ k, (f k).assigned = k.assigned) : s.Capped (s.modCourse c f) := by
  refine ⟨rfl, rfl, rfl, rfl, rfl, fun d => ?_, fun d hd => ?_⟩
  · by_cases h : d = c
    · rw [h, State.modCourse_at, hf]
    · rw [State.modCourse_other h]
  · exact State.modCourse_other (fun h => hc (by rw [← h]; exact hd)) f

theorem State.capped_setCeiling {c : CourseId} (hc : (s.power.courses[c]).assigned ≠ 2) (mhz : Nat) : s.Capped (s.setCeiling c mhz) := by
  have h1 : s.Capped (s.modCourse c fun k => { k with ceiling := mhz }) := State.capped_modCourse hc fun _ => rfl
  unfold State.setCeiling
  dsimp only
  refine h1.trans (State.capped_modCourse ?_ fun k => ?_)
  · rw [h1.assigned]
    exact hc
  · split_ifs
    · rfl
    · rfl

theorem State.capped_ceilings {l : List CourseId} {f : State → CourseId → Nat} (hl : ∀ c ∈ l, (s.power.courses[c]).assigned ≠ 2) :
    s.Capped (l.foldl (fun s c => s.setCeiling c (f s c)) s) := by
  induction l generalizing s with
  | nil => exact .refl s
  | cons c l ih =>
    have h := State.capped_setCeiling (hl c List.mem_cons_self) (f s c)
    refine h.trans (ih fun d hd => ?_)
    rw [h.assigned]
    exact hl d (List.mem_cons_of_mem c hd)

theorem State.coursesAt_assigned {pitch : Nat} {c : CourseId} (h : c ∈ s.coursesAt pitch) : (s.power.courses[c]).assigned = pitch := by
  have := (List.mem_filter.mp h).2
  rw [Bool.and_eq_true, beq_iff_eq] at this
  exact this.1

theorem State.capped_capDown (s : State) : s.Capped s.capDown.2 := by
  refine State.capped_ceilings fun c hc => ?_
  split at hc
  · rw [State.coursesAt_assigned (List.mem_filter.mp hc).1]
    decide
  · rw [State.coursesAt_assigned (List.mem_filter.mp hc).1]
    decide

/-- A step up of the courses whose ceilings lie below `top`. -/
theorem State.capped_up (s : State) (top : Nat → Nat) (pitch : Nat) (hpitch : pitch ≠ 2) :
    s.Capped (((s.coursesAt pitch).filter fun c => (s.power.courses[c]).ceiling < top pitch).foldl
      (fun s c => s.setCeiling c (min (top pitch) (s.cappedAt c + 100))) s) := by
  refine State.capped_ceilings fun c hc => ?_
  rw [State.coursesAt_assigned (List.mem_filter.mp hc).1]
  exact hpitch

theorem State.capped_capUp (s : State) : s.Capped s.capUp := by
  unfold State.capUp
  by_cases h : (!((s.coursesAt 1).filter fun c => (s.power.courses[c]).ceiling <
      if (s.power.trips[1]).set then min 600 (pitchClock 1) else pitchClock 1).isEmpty) = true
  · refine (congrArg s.Capped (if_pos h)).mpr ?_
    exact s.capped_up (fun p => if (s.power.trips[1]).set then min 600 (pitchClock p) else pitchClock p) 1 (by decide)
  · refine (congrArg s.Capped (if_neg h)).mpr ?_
    exact s.capped_up (fun p => if (s.power.trips[1]).set then min 600 (pitchClock p) else pitchClock p) 0 (by decide)

theorem State.capped_setUnmet (s : State) (on : Bool) : s.Capped (s.setUnmet on) := by
  unfold State.setUnmet
  dsimp only
  obtain ⟨w, hw, hsw⟩ : ∃ w, w = (s.modPower fun p => { p with
      capUnmet := on, capUnmetEvents := p.capUnmetEvents + if on && !s.power.capUnmet then 1 else 0 }) ∧ s.Capped w :=
    ⟨_, rfl, rfl, rfl, rfl, rfl, rfl, fun _ => rfl, fun _ _ => rfl⟩
  rw [← hw]
  split_ifs
  · exact hsw.trans (w.capped_alert _ _ _ _)
  · exact hsw.trans (w.capped_unalert 11)
  · exact hsw

/-- What a sample does to the ceilings (R648 to R650), once the sample is recorded. -/
def State.capStep (s : State) (power : Nat) : State :=
  let cap := 100 * s.power.capW
  let s :=
    if cap < power then
      let (done, s) := (s.modPower fun p => { p with belowSince := none }).capDown
      if done then s else s.setUnmet true
    else
      let s := if s.power.capUnmet then s.setUnmet false else s
      if cap * 10 - s.power.hystMw ≤ power * 10 then s.modPower fun p => { p with belowSince := none }
      else
        match s.power.belowSince with
        | none => s.modPower fun p => { p with belowSince := some s.time.ts }
        | some t =>
          if s.time.ts < t + 200000 then s
          else (s.modPower fun p => { p with belowSince := some (s.time.ts - 100000) }).capUp
  s.noteCap

theorem State.capped_below (s : State) (t : Option Nat) : s.Capped (s.modPower fun p => { p with belowSince := t }) :=
  ⟨rfl, rfl, rfl, rfl, rfl, fun _ => rfl, fun _ _ => rfl⟩

theorem State.capped_capStep (s : State) (power : Nat) : s.Capped (s.capStep power) := by
  have hnote : ∀ u : State, u.Capped u.noteCap := fun u => ⟨rfl, rfl, rfl, rfl, rfl, fun _ => rfl, fun _ _ => rfl⟩
  unfold State.capStep
  dsimp only
  refine State.Capped.trans ?_ (hnote _)
  split
  · have hdown := (s.capped_below none).trans (State.capped_capDown _)
    split
    · exact hdown
    · exact hdown.trans (State.capped_setUnmet _ true)
  · obtain ⟨w, hw, hsw⟩ : ∃ w, w = (if s.power.capUnmet then s.setUnmet false else s) ∧ s.Capped w := by
      refine ⟨_, rfl, ?_⟩
      split
      · exact s.capped_setUnmet false
      · exact .refl s
    rw [← hw]
    refine hsw.trans ?_
    split
    · exact w.capped_below none
    · split
      · exact w.capped_below _
      · split
        · exact .refl w
        · exact (w.capped_below _).trans (State.capped_capUp _)

theorem State.capSample_eq (power : Nat) (energy : List Nat) (uses : List EnergyUse) (hmain : s.boot.mainUp = true) (hphase : s.dram.phase ≠ .inKeep) :
    s.capSample power energy uses = (((s.advanceTo ((s.time.ts / 1000 + 1) * 1000)).attribute energy uses).modPower
      fun p => { p with now := power, maxMw := max p.maxMw (10 * power) }).capStep power := by
  unfold State.capSample
  rw [if_neg (by rw [hmain, beq_eq_false_iff_ne.mpr hphase]; decide)]
  generalize (s.advanceTo ((s.time.ts / 1000 + 1) * 1000)).attribute energy uses = w
  rfl

/-! Energy of a sample (R653). -/

theorem tileOf_inj {c c' : CourseId} {i j : Fin 8} (h : tileOf c i = tileOf c' j) : c = c' ∧ i = j := by
  have hval : 8 * c.val + i.val = 8 * c'.val + j.val := congrArg Fin.val h
  exact ⟨Fin.ext (by omega), Fin.ext (by omega)⟩

theorem State.modSched_at (s : State) (t : TileId) (f : TileSched → TileSched) : (s.modSched t f).batten.tiles[t] = f s.batten.tiles[t] :=
  Vector.getElem_set_self _

theorem State.modSched_other {t t' : TileId} (h : t' ≠ t) (f : TileSched → TileSched) : (s.modSched t f).batten.tiles[t'] = s.batten.tiles[t'] := by
  show (s.batten.tiles.set t (f s.batten.tiles[t]))[t'.val] = _
  exact Vector.getElem_set_ne _ _ (fun e => h (Fin.ext e.symm))

/-- Energy counted to a tile moves neither what runs there nor its state. -/
theorem State.addEnergy_sched (t t' : TileId) (e : Rat) : ((s.addEnergy (.tile t) e).batten.tiles[t']).desc = (s.batten.tiles[t']).desc ∧
    ((s.addEnergy (.tile t) e).batten.tiles[t']).state = (s.batten.tiles[t']).state := by
  unfold State.addEnergy
  dsimp only
  by_cases h : t' = t
  · rw [h, State.modSched_at]
    exact ⟨rfl, rfl⟩
  · rw [State.modSched_other h]
    exact ⟨rfl, rfl⟩

/-- Energy counted to other tiles. -/
theorem State.addEnergies_other {t : TileId} {l : List TileId} (h : t ∉ l) (e : Rat) :
    (l.foldl (fun u t' => u.addEnergy (.tile t') e) s).batten.tiles[t] = s.batten.tiles[t] := by
  induction l generalizing s with
  | nil => rfl
  | cons t' l ih =>
    rw [List.foldl_cons, ih fun hmem => h (List.mem_cons_of_mem t' hmem)]
    exact State.modSched_other (fun he => h (by rw [he]; exact List.mem_cons_self)) _

theorem State.addEnergy_power (user : EnergyUser) (e : Rat) : (s.addEnergy user e).power = s.power := by
  unfold State.addEnergy
  split
  · rfl
  · rfl

/-- The busy tiles of a course: they share its energy. -/
def State.busyTiles (s : State) (c : CourseId) : List TileId := ((List.finRange 8).map (tileOf c ·)).filter fun t =>
  let y := s.batten.tiles[t]
  y.desc.isSome && (y.state == .dispatching || y.state == .running || y.state == .saving)

theorem State.shareCourse_eq (c : CourseId) (e : Nat) : s.shareCourse c e = if (s.busyTiles c).isEmpty then (e, s)
    else (0, (s.busyTiles c).foldl (fun u t => u.addEnergy (.tile t) ((e : Rat) / ((s.busyTiles c).length : Nat))) s) := rfl

theorem State.shareCourse_power (s : State) (c : CourseId) (e : Nat) : (s.shareCourse c e).2.power = s.power := by
  rw [State.shareCourse_eq]
  split
  · rfl
  · exact foldl_keeps State.power _ (fun u _ => State.addEnergy_power (s := u) _ _) _ _

theorem State.shareUnit_power (s : State) (uses : List EnergyUse) (k e : Nat) : (s.shareUnit uses k e).2.power = s.power := by
  unfold State.shareUnit
  dsimp only
  split
  · rfl
  · exact foldl_keeps State.power _ (fun u _ => State.addEnergy_power (s := u) _ _) _ _

/-- A course on which nothing runs leaves its energy unattributed. -/
theorem State.shareCourse_idle {c : CourseId} (h : ∀ i, (s.batten.tiles[tileOf c i]).desc = none) (e : Nat) : s.shareCourse c e = (e, s) := by
  have hnone : s.busyTiles c = [] := by
    refine List.filter_eq_nil_iff.mpr fun t ht => ?_
    obtain ⟨i, -, rfl⟩ := List.mem_map.mp ht
    dsimp only
    rw [h i]
    exact Bool.false_ne_true
  rw [State.shareCourse_eq, hnone]
  rfl

theorem State.shareUnit_unused (k e : Nat) : s.shareUnit [] k e = (e, s) := rfl

theorem State.busyTiles_course {c : CourseId} {t : TileId} (h : t ∈ s.busyTiles c) : ∃ i, t = tileOf c i := by
  obtain ⟨i, -, hi⟩ := List.mem_map.mp (List.mem_filter.mp h).1
  exact ⟨i, hi.symm⟩

/-- The energy of a course is counted to tiles of that course alone, and moves neither what runs on a tile nor its state. -/
theorem State.shareCourse_sched (c : CourseId) (e : Nat) (t : TileId) :
    ((s.shareCourse c e).2.batten.tiles[t]).desc = (s.batten.tiles[t]).desc ∧
      ((s.shareCourse c e).2.batten.tiles[t]).state = (s.batten.tiles[t]).state ∧
      ((∀ i, t ≠ tileOf c i) → (s.shareCourse c e).2.batten.tiles[t] = s.batten.tiles[t]) := by
  rw [State.shareCourse_eq]
  split
  · exact ⟨rfl, rfl, fun _ => rfl⟩
  · refine ⟨foldl_keeps (fun u : State => (u.batten.tiles[t]).desc) _ (fun u t' => (u.addEnergy_sched t' t _).1) _ _,
      foldl_keeps (fun u : State => (u.batten.tiles[t]).state) _ (fun u t' => (u.addEnergy_sched t' t _).2) _ _, fun hne => ?_⟩
    have hout : t ∉ s.busyTiles c := fun hmem => by
      obtain ⟨i, hi⟩ := State.busyTiles_course hmem
      exact hne i hi
    exact State.addEnergies_other hout _

/-- The one busy tile of a course takes all of the course's energy. -/
theorem State.shareCourse_one {c : CourseId} {i : Fin 8} (hrun : (s.batten.tiles[tileOf c i]).state = .running)
    (hdesc : (s.batten.tiles[tileOf c i]).desc ≠ none) (hothers : ∀ j : Fin 8, j ≠ i → (s.batten.tiles[tileOf c j]).desc = none) (e : Nat) :
    ((s.shareCourse c e).2.batten.tiles[tileOf c i]).energy = (s.batten.tiles[tileOf c i]).energy + ((e : Nat) : Rat) := by
  have hbusy : s.busyTiles c = [tileOf c i] := by
    unfold State.busyTiles
    rw [List.filter_map]
    have hone : (List.finRange 8).filter ((fun t => (s.batten.tiles[t]).desc.isSome && ((s.batten.tiles[t]).state == .dispatching ||
        (s.batten.tiles[t]).state == .running || (s.batten.tiles[t]).state == .saving)) ∘ (tileOf c ·)) = (List.finRange 8).filter (· = i) := by
      refine List.filter_congr fun j _ => ?_
      by_cases hj : j = i
      · rw [hj]
        dsimp only [Function.comp]
        rw [hrun, Option.isSome_iff_ne_none.mpr hdesc]
        simp
      · dsimp only [Function.comp]
        rw [hothers j hj]
        simp [hj]
    refine (congrArg (List.map (tileOf c ·)) hone).trans ?_
    rw [List.filter_eq, List.count_eq_one_of_mem (List.nodup_finRange 8) (List.mem_finRange i)]
    rfl
  rw [State.shareCourse_eq, hbusy]
  show ((s.modSched (tileOf c i) fun y => { y with energy := y.energy + (e : Rat) / ((1 : Nat) : Rat) }).batten.tiles[tileOf c i]).energy = _
  rw [State.modSched_at, Nat.cast_one, div_one]

/-- The energies of the courses, as they are shared in turn. -/
def State.shareCourses (e : CourseId → Nat) (l : List CourseId) (acc : Nat × State) : Nat × State :=
  l.foldl (fun acc c =>
    let (r, s) := acc.2.shareCourse c (e c)
    (acc.1 + r, s)) acc

def State.shareUnits (uses : List EnergyUse) (e : Nat → Nat) (l : List Nat) (acc : Nat × State) : Nat × State :=
  l.foldl (fun acc k =>
    let (r, s) := acc.2.shareUnit uses k (e k)
    (acc.1 + r, s)) acc

/-- What a sample attributes, course by course and unit by unit. -/
def State.shared (s : State) (energy : List Nat) (uses : List EnergyUse) : Nat × State :=
  State.shareUnits uses (fun k => energy.getD k 0) [8, 9, 12, 13, 14, 15] (State.shareCourses (fun c => energy.getD c.val 0) (List.finRange 8)
    (energy.getD 10 0 + energy.getD 11 0 + energy.getD 16 0, s))

theorem State.attribute_eq (energy : List Nat) (uses : List EnergyUse) : s.attribute energy uses =
    (s.shared energy uses).2.modPower fun p => { p with
      unattributed := p.unattributed + (s.shared energy uses).1
      energy := Vector.ofFn fun (u : Fin 16) => (p.energy[u] + (if u.val == 14 then energy.getD 14 0 + energy.getD 15 0
        else if u.val == 15 then energy.getD 16 0 else energy.getD u.val 0)) % 2 ^ 64 } := by
  unfold State.attribute State.shared State.shareUnits State.shareCourses
  dsimp only

theorem State.shareCourses_cons (e : CourseId → Nat) (c : CourseId) (l : List CourseId) (acc : Nat × State) :
    State.shareCourses e (c :: l) acc = State.shareCourses e l (acc.1 + (acc.2.shareCourse c (e c)).1, (acc.2.shareCourse c (e c)).2) := rfl

theorem State.shareCourses_power (e : CourseId → Nat) (l : List CourseId) (acc : Nat × State) : (State.shareCourses e l acc).2.power = acc.2.power := by
  unfold State.shareCourses
  refine foldl_keeps (fun acc : Nat × State => acc.2.power) _ (fun acc c => ?_) l acc
  exact acc.2.shareCourse_power c (e c)

theorem State.shareUnits_power (uses : List EnergyUse) (e : Nat → Nat) (l : List Nat) (acc : Nat × State) :
    (State.shareUnits uses e l acc).2.power = acc.2.power := by
  unfold State.shareUnits
  refine foldl_keeps (fun acc : Nat × State => acc.2.power) _ (fun acc k => ?_) l acc
  exact acc.2.shareUnit_power uses k (e k)

theorem State.shareCourses_idle (h : ∀ t : TileId, (s.batten.tiles[t]).desc = none) (e : CourseId → Nat) (l : List CourseId) (n : Nat) :
    State.shareCourses e l (n, s) = (n + (l.map e).sum, s) := by
  induction l generalizing n with
  | nil => rfl
  | cons c l ih =>
    rw [State.shareCourses_cons, State.shareCourse_idle (fun i => h _), ih, List.map_cons, List.sum_cons, Nat.add_assoc]

theorem State.shareUnits_unused (e : Nat → Nat) (l : List Nat) (acc : Nat × State) : State.shareUnits [] e l acc = (acc.1 + (l.map e).sum, acc.2) := by
  induction l generalizing acc with
  | nil => rfl
  | cons k l ih =>
    show State.shareUnits [] e l (acc.1 + e k, acc.2) = _
    rw [ih, List.map_cons, List.sum_cons, Nat.add_assoc]

/-- Courses other than `c` leave the tiles of `c` as they are; all leave what runs where, and in what state. -/
theorem State.shareCourses_other {c : CourseId} {l : List CourseId} (hl : c ∉ l) (e : CourseId → Nat) (acc : Nat × State) (i : Fin 8) :
    (State.shareCourses e l acc).2.batten.tiles[tileOf c i] = acc.2.batten.tiles[tileOf c i] := by
  induction l generalizing acc with
  | nil => rfl
  | cons c' l ih =>
    rw [State.shareCourses_cons, ih fun h => hl (List.mem_cons_of_mem c' h)]
    exact (State.shareCourse_sched c' (e c') (tileOf c i)).2.2 fun j h => hl (by rw [(tileOf_inj h).1]; exact List.mem_cons_self)

/-- The one busy tile of a course takes the course's energy of a sample. -/
theorem State.shareCourses_one {c : CourseId} {i : Fin 8} (hrun : (s.batten.tiles[tileOf c i]).state = .running)
    (hdesc : (s.batten.tiles[tileOf c i]).desc ≠ none) (hothers : ∀ j : Fin 8, j ≠ i → (s.batten.tiles[tileOf c j]).desc = none)
    (e : CourseId → Nat) (n : Nat) : ((State.shareCourses e (List.finRange 8) (n, s)).2.batten.tiles[tileOf c i]).energy =
      (s.batten.tiles[tileOf c i]).energy + ((e c : Nat) : Rat) := by
  obtain ⟨l, r, hsplit⟩ := List.append_of_mem (List.mem_finRange c)
  have hnodup : (l ++ c :: r).Nodup := by
    rw [← hsplit]
    exact List.nodup_finRange 8
  obtain ⟨-, hcr, hdisj⟩ := List.nodup_append.mp hnodup
  have hl : c ∉ l := fun h => hdisj c h c List.mem_cons_self rfl
  obtain ⟨u, hu⟩ : ∃ u, u = State.shareCourses e l (n, s) := ⟨_, rfl⟩
  have hkeep : ∀ j, u.2.batten.tiles[tileOf c j] = s.batten.tiles[tileOf c j] := fun j => by rw [hu, State.shareCourses_other hl]
  have hall : State.shareCourses e (List.finRange 8) (n, s) =
      State.shareCourses e r (u.1 + (u.2.shareCourse c (e c)).1, (u.2.shareCourse c (e c)).2) := by
    rw [hsplit, hu]
    exact List.foldl_append
  rw [hall, State.shareCourses_other (List.nodup_cons.mp hcr).1, State.shareCourse_one (by rw [hkeep]; exact hrun) (by rw [hkeep]; exact hdesc)
    (fun j hj => by rw [hkeep]; exact hothers j hj), hkeep]

/-- A sample of the power: what it records, and what stays as it is (R648, R653). -/
theorem State.capSample_sets (power : Nat) (energy : List Nat) (uses : List EnergyUse) (c : CourseId) (k : Fin 16) (i : Fin 8)
    (hmain : s.boot.mainUp = true) (hphase : s.dram.phase ≠ .inKeep) : ∃ u, s.capSample power energy uses = u ∧ u.power.now = power ∧
      u.power.maxMw = max s.power.maxMw (10 * power) ∧
      u.power.energy[k] = (s.power.energy[k] + (if k.val = 14 then energy.getD 14 0 + energy.getD 15 0
        else energy.getD (if k.val = 15 then 16 else k.val) 0)) % 2 ^ 64 ∧
      (uses = [] → (∀ t : TileId, (s.batten.tiles[t]).desc = none) → u.power.unattributed =
        s.power.unattributed + ((List.range 17).map fun k => energy.getD k 0).sum) ∧
      (uses = [] → (s.batten.tiles[tileOf c i]).state = .running → (s.batten.tiles[tileOf c i]).desc ≠ none →
        (∀ j : Fin 8, j ≠ i → (s.batten.tiles[tileOf c j]).desc = none) →
        (u.batten.tiles[tileOf c i]).energy = (s.batten.tiles[tileOf c i]).energy + ((energy.getD c.val 0 : Nat) : Rat)) ∧
      ∀ d : CourseId, (s.power.courses[d]).assigned = 2 → u.power.courses[d] = s.power.courses[d] := by
  obtain ⟨v, hv⟩ : ∃ v, v = s.advanceTo ((s.time.ts / 1000 + 1) * 1000) := ⟨_, rfl⟩
  obtain ⟨w, hw⟩ : ∃ w, w = (v.attribute energy uses).modPower fun p => { p with now := power, maxMw := max p.maxMw (10 * power) } := ⟨_, rfl⟩
  have heq : s.capSample power energy uses = w.capStep power := by rw [hw, hv, State.capSample_eq power energy uses hmain hphase]
  obtain ⟨hnow, hmax, henergy, hun, htiles, -, hflat⟩ := w.capped_capStep power
  have hpower : (v.shared energy uses).2.power = s.power := (State.shareUnits_power _ _ _ _).trans ((State.shareCourses_power _ _ _).trans (by rw [hv]; rfl))
  have hattr : w.power = { s.power with
      unattributed := s.power.unattributed + (v.shared energy uses).1
      energy := Vector.ofFn fun (u : Fin 16) => (s.power.energy[u] + (if u.val == 14 then energy.getD 14 0 + energy.getD 15 0
        else if u.val == 15 then energy.getD 16 0 else energy.getD u.val 0)) % 2 ^ 64
      now := power, maxMw := max s.power.maxMw (10 * power) } := by
    rw [hw, State.attribute_eq, ← hpower]
    rfl
  rw [hattr] at hnow hmax henergy hun hflat
  refine ⟨_, heq, hnow, hmax, ?_, fun huses hnone => ?_, fun huses hrun hdesc hothers => ?_, fun d hd => hflat d hd⟩
  · rw [henergy]
    show (Vector.ofFn _)[k.val] = _
    rw [Vector.getElem_ofFn]
    simp only [beq_iff_eq]
    split_ifs
    all_goals rfl
  · have hidle : ∀ t : TileId, (v.batten.tiles[t]).desc = none := by rw [hv]; exact hnone
    rw [hun, huses]
    unfold State.shared
    rw [State.shareCourses_idle hidle, State.shareUnits_unused]
    simp only [List.finRange, List.range_succ, List.range_zero]
    simp
    omega
  · have hbatten : ∀ (x : State) f g, ((x.modPower f).modPower g).batten = x.batten := fun _ _ _ => rfl
    rw [htiles, hw, State.attribute_eq, huses, hbatten]
    unfold State.shared
    rw [State.shareUnits_unused]
    have hsched : ∀ t : TileId, v.batten.tiles[t] = s.batten.tiles[t] := fun t => by rw [hv]; rfl
    rw [State.shareCourses_one (by rw [hsched]; exact hrun) (by rw [hsched]; exact hdesc) (fun j hj => by rw [hsched]; exact hothers j hj), hsched]

/-! Self-tests and availability (R621, R670, R674). -/

/-- A slice of the Thatch that fails its self-test is taken out of service. -/
theorem State.fuseOff_slice (s : State) (index : Nat) : bitAt (s.fuseOff 2 index).boot.slicesOff index = true ∧
    ((s.fuseOff 2 index).thatch.slices[Fin.ofNat 16 index]).fused = true ∧
    ((s.fuseOff 2 index).thatch.slices[Fin.ofNat 16 index]).powered = false := by
  obtain ⟨w, hw⟩ : ∃ w, w = ((s.modBoot fun b => { b with slicesOff := b.slicesOff ||| 2 ^ index }).modSlice (Fin.ofNat 16 index) fun c =>
    { c with fused := true, powered := false, enabled := false, lines := [], plru := [] }) := ⟨_, rfl⟩
  have heq : s.fuseOff 2 index = w.raise s.ridgeSrc { ErrRec.blank with severity := .degraded, scope := 7, scopeId := index } := by
    rw [hw]
    rfl
  have hslice : w.thatch.slices[Fin.ofNat 16 index] =
      { s.thatch.slices[Fin.ofNat 16 index] with fused := true, powered := false, enabled := false, lines := [], plru := [] } := by
    rw [hw]
    exact Vector.getElem_set_self _
  rw [heq, (State.logged_raise _ _ _).boot, (State.logged_raise _ _ _).thatch, hslice, hw]
  exact ⟨bitAt_or_two_pow _ _, rfl, rfl⟩

end

/-- Settles O51, by the event: pitch change, parking, power and temperature sample; self-test and availability mirror. -/
theorem powerAndSelfTest : Obligations.PowerAndSelfTest := by
  refine ⟨fun s c power ms since energy uses temps u16 i => ?_, fun s t since htest hrunning => ?_⟩
  · intro k p v
    refine ⟨fun hchanging heff hvisits => ?_, fun hidle hms hpos hassigned heff hchanging hacts hneeded => ?_, fun hmain hphase => ?_,
      fun hmain hphase => ⟨?_, fun htrips => ?_⟩⟩
    · exact congrArg Host.Outcome.next (State.pitchChangeDone_clock hchanging heff hvisits)
    · exact congrArg Host.Outcome.next (State.policyParkDue_parks hidle hms hpos hassigned heff hchanging hacts hneeded)
    · obtain ⟨u, hu, hall⟩ := State.capSample_sets power energy uses c u16 i hmain hphase
      exact ⟨u, congrArg Host.Outcome.next hu, hall⟩
    · exact congrArg Host.Outcome.next (if_neg (by rw [hmain, beq_eq_false_iff_ne.mpr hphase]; decide))
    · refine congrArg Host.Outcome.next ((if_neg (by rw [hmain, beq_eq_false_iff_ne.mpr hphase]; decide)).trans ?_)
      refine List.foldl_fixed' (fun j => ?_) _
      obtain ⟨hset, hcold⟩ := htrips j
      exact (if_pos (congrArg (!·) hset)).trans (if_neg (not_le.mpr hcold))
  · intro ended
    have hdone : ∀ pass, s.selfTestDone pass = if pass then (ended 1).testPassed t.target t.index else (ended 2).fuseOff t.target t.index := fun pass => by
      unfold State.selfTestDone
      rw [htest]
      dsimp only
      rw [if_neg (by rw [hrunning]; decide)]
      cases pass
      · rfl
      · rfl
    refine ⟨congrArg Host.Outcome.next (hdone true), congrArg Host.Outcome.next (hdone false), fun htarget _ => ?_, fun hsince hacts => ?_⟩
    · refine ⟨_, congrArg Host.Outcome.next (hdone false), ?_⟩
      rw [if_neg Bool.false_ne_true, htarget]
      exact (ended 2).fuseOff_slice t.index
    · have hmirror : exec .availabilityMirror s = .next (s.advanceTo (since + 1000 * (60000000 - (s.err.poweredUs - s.err.mirrorAt)))).mirrorAvail := by
        show Host.Outcome.next _ = _
        rw [hsince]
        exact congrArg Host.Outcome.next (if_neg (by rw [hacts]; decide))
      exact ⟨_, hmirror, rfl, rfl, rfl, rfl⟩

end Sys2Proof.Machine
end

