-- ==== Sys2Proof/Proofs/Submissions.lean ====
section
/-! SUPPORT. Bundle submissions and the delay lists (R292 to R294, R306, R311, R312, R320). -/

namespace Sys2Proof.Machine

set_option Elab.async false

section
variable {s : State}

/-! Bundle submissions (R292, R294, R306). -/

/-- A trace record changes of the Batten the trace and its ring alone. -/
theorem State.trace_view {γ : Type} (g : BattenSt → γ) (hg : ∀ b t r, g { b with trace := t, traceRegs := r } = g b) (s : State) (event tile : Nat)
    (d : BDesc) (status : Nat) (hit : Bool) : g (s.trace event tile d status hit).batten = g s.batten := by
  unfold State.trace
  extract_lets r full mode
  split
  · rfl
  · split
    · rfl
    · refine (hg _ _ _).trans ?_
      rw [State.ringWrite_batten]
      rfl

/-- A taken bundle stands last in its list, with the time and the next order number. -/
theorem State.placeBundle_ready (s : State) (d : BDesc) (now : Nat) : (s.placeBundle d now none none).batten.ready =
    s.batten.ready ++ [⟨{ d with readyTs := now, flat := s.flatOf d.courses }, s.batten.orderNo, none, none, false, false⟩] :=
  (State.trace_view BattenSt.ready (fun _ _ _ => rfl) _ _ _ _ _ _).trans rfl

theorem State.placeBundle_desc (s : State) (d : BDesc) (now : Nat) : (s.placeBundle d now none none).batten.desc = s.batten.desc :=
  (State.trace_view BattenSt.desc (fun _ _ _ => rfl) _ _ _ _ _ _).trans rfl

/-- The Batten's judgement of a submission and what it does (R292). -/
theorem State.submit_taken {d : BDesc} {ok : Bool} (h : s.judgeSubmit d ok = 0) : s.submit d ok = (0, s.placeBundle d s.time.ts none none) := by
  unfold State.submit
  dsimp only
  rw [h]
  rfl

theorem State.submit_refused {d : BDesc} {ok : Bool} (h : s.judgeSubmit d ok ≠ 0) :
    (s.submit d ok).1 = s.judgeSubmit d ok ∧ (s.submit d ok).2.batten.ready = s.batten.ready ∧ (s.submit d ok).2.batten.desc = s.batten.desc := by
  unfold State.submit
  dsimp only
  rw [if_neg (by rw [beq_iff_eq]; exact h)]
  refine ⟨rfl, (State.trace_view BattenSt.ready (fun _ _ _ => rfl) _ _ _ _ _ _).trans ?_,
    (State.trace_view BattenSt.desc (fun _ _ _ => rfl) _ _ _ _ _ _).trans ?_⟩
  · split
    · rfl
    · rfl
  · split
    · rfl
    · rfl

/-- A submission: the result says what was judged, and a bundle that is taken stands last. -/
theorem State.btSubmit_result {desc : Bytes} {d : BDesc} {ok : Bool} (hacts : s.ridgeActs = true) (hparse : BDesc.parse (padTo 64 desc) = (d, ok)) :
    ∃ u : State, s.btSubmit desc = u.pumpPlans ∧ u.batten.submitResult = s.judgeSubmit d ok ∧ u.batten.desc = padTo 64 desc ∧
      (s.judgeSubmit d ok = 0 → ∃ r, u.batten.ready = s.batten.ready ++ [r] ∧ r.order = s.batten.orderNo ∧ r.saved = none ∧
        r.desc = { d with readyTs := s.time.ts, flat := s.flatOf d.courses }) ∧
      (s.judgeSubmit d ok ≠ 0 → u.batten.ready = s.batten.ready) := by
  obtain ⟨v, hv⟩ : ∃ v, v = s.modBatten fun b => { b with desc := padTo 64 desc } := ⟨_, rfl⟩
  have hjudge : v.judgeSubmit d ok = s.judgeSubmit d ok := by rw [hv]; rfl
  refine ⟨(v.submit d ok).2.modBatten fun b => { b with submitResult := (v.submit d ok).1 }, ?_, ?_⟩
  · unfold State.btSubmit
    rw [if_neg (by rw [hacts]; decide), hparse, hv]
  rw [← hjudge]
  by_cases h : v.judgeSubmit d ok = 0
  · rw [h, State.submit_taken h]
    refine ⟨rfl, ?_, fun _ => ⟨⟨{ d with readyTs := v.time.ts, flat := v.flatOf d.courses }, v.batten.orderNo, none, none, false, false⟩,
      (v.placeBundle_ready d v.time.ts).trans ?_, by rw [hv]; rfl, rfl, by rw [hv]; rfl⟩, fun hne => absurd rfl hne⟩
    · exact (v.placeBundle_desc d v.time.ts).trans (by rw [hv]; rfl)
    · rw [hv]
      rfl
  · obtain ⟨hcode, hready, hdesc⟩ := State.submit_refused h
    exact ⟨hcode, hdesc.trans (by rw [hv]; rfl), fun h0 => absurd h0 h, fun _ => hready.trans (by rw [hv]; rfl)⟩

theorem State.judgeSubmit_malformed {d : BDesc} {ok : Bool} (h : ok = false ∨ d.courses = 0 ∨ 8 < d.banks ∨ 65536 < d.rowCount ∨ d.depends ≠ 0) :
    s.judgeSubmit d ok = 0x2002 := by
  unfold State.judgeSubmit
  refine if_pos ?_
  simpa [or_assoc] using h

theorem State.judgeSubmit_taken {d : BDesc} {ok : Bool} (h : s.judgeSubmit d ok = 0) : s.heldDescs < 32768 ∧ s.holdsIdent d = false := by
  unfold State.judgeSubmit at h
  split_ifs at h with hbad hfull hheld
  exact ⟨by omega, Bool.eq_false_iff.mpr hheld⟩

/-! The delay lists (R311, R312, R320). -/

theorem freeEntry_some {l : NMap DEntry} {k : Nat} (h : freeEntry l = some k) : nget l k = none ∧ ∀ j, j < k → (nget l j).isSome = true := by
  unfold freeEntry at h
  obtain ⟨hk, -, hbefore⟩ := List.find?_range_eq_some.mp h
  refine ⟨Option.isNone_iff_eq_none.mp hk, fun j hj => ?_⟩
  have := hbefore j hj
  rwa [Option.not_isNone] at this

/-- The delay list of distances, or of times. -/
def State.delayList (s : State) (dist : Bool) : NMap DEntry := if dist then s.batten.distList else s.batten.timeList

theorem State.delayInsert_full {e : DEntry} (h : freeEntry (s.delayList e.onDist) = none) : s.delayInsert e = (none, s.bump 0x2022 2 1) := by
  unfold State.delayInsert
  dsimp only
  rw [show freeEntry (if e.onDist then s.batten.distList else s.batten.timeList) = none from h]

theorem State.delayInsert_free {e : DEntry} {k : Nat} (h : freeEntry (s.delayList e.onDist) = some k) :
    s.delayInsert e = (some k, s.modDelay e.onDist fun l => nput l k e) := by
  unfold State.delayInsert
  dsimp only
  rw [show freeEntry (if e.onDist then s.batten.distList else s.batten.timeList) = some k from h]
  rfl

theorem State.modDelay_list (s : State) (dist : Bool) (f : NMap DEntry → NMap DEntry) :
    (s.modDelay dist f).delayList dist = f (s.delayList dist) ∧ (s.modDelay dist f).delayList (!dist) = s.delayList (!dist) := by
  cases dist
  · exact ⟨rfl, rfl⟩
  · exact ⟨rfl, rfl⟩

theorem State.delayMove_time {dist : Bool} {k due : Nat} {e : DEntry} (hacts : s.ridgeActs = true) (h : s.delayAt dist k = some e) (hform : e.form = 0) :
    s.delayMove dist k due = (s.modDelay dist fun l => nput l k { e with due := due, origDue := due }).delayAnswer 0 k := by
  unfold State.delayMove
  rw [if_neg (by rw [hacts]; decide), h]
  dsimp only
  rw [hform, show (!dist && (((0 : Nat) == 2) && !e.cycle || ((0 : Nat) == 1))) = false from Bool.and_false _]
  rfl

theorem State.delayMove_none {dist : Bool} {k due : Nat} (hacts : s.ridgeActs = true) (h : s.delayAt dist k = none) :
    s.delayMove dist k due = s.delayAnswer 0x2002 k := by
  unfold State.delayMove
  rw [if_neg (by rw [hacts]; decide), h]
  rfl

theorem State.delayRemove_some {dist : Bool} {k : Nat} {e : DEntry} (hacts : s.ridgeActs = true) (h : s.delayAt dist k = some e) :
    s.delayRemove dist k = (s.modDelay dist fun l => ndel l k).delayAnswer 0 k := by
  unfold State.delayRemove
  rw [if_neg (by rw [hacts]; decide), h]
  rfl

theorem State.delayRemove_none {dist : Bool} {k : Nat} (hacts : s.ridgeActs = true) (h : s.delayAt dist k = none) :
    s.delayRemove dist k = s.delayAnswer 0x2002 k := by
  unfold State.delayRemove
  rw [if_neg (by rw [hacts]; decide), h]
  rfl

/-- An INSERT by what its entry is and whether its list has room. -/
theorem State.delayInsertCmd_malformed {entry : Bytes} (hacts : s.ridgeActs = true) (h : DEntry.parse (padTo 32 entry) = none) :
    s.delayInsertCmd entry = (s.modBatten fun b => { b with delayStage := padTo 32 entry }).delayAnswer 0x2002 0 := by
  unfold State.delayInsertCmd
  rw [if_neg (by rw [hacts]; decide), h]
  rfl

theorem State.delayInsertCmd_full {entry : Bytes} {e : DEntry} (hacts : s.ridgeActs = true) (h : DEntry.parse (padTo 32 entry) = some e)
    (hfull : freeEntry (s.delayList e.onDist) = none) :
    s.delayInsertCmd entry = ((s.modBatten fun b => { b with delayStage := padTo 32 entry }).bump 0x2022 2 1).delayAnswer 0x3001 0 := by
  unfold State.delayInsertCmd
  rw [if_neg (by rw [hacts]; decide), h]
  dsimp only
  rw [State.delayInsert_full (s := s.modBatten fun b => { b with delayStage := padTo 32 entry }) hfull]
  rfl

theorem State.delayInsertCmd_free {entry : Bytes} {e : DEntry} {k : Nat} (hacts : s.ridgeActs = true) (h : DEntry.parse (padTo 32 entry) = some e)
    (hfree : freeEntry (s.delayList e.onDist) = some k) : s.delayInsertCmd entry =
      ((s.modBatten fun b => { b with delayStage := padTo 32 entry }).modDelay e.onDist fun l => nput l k e).delayAnswer 0 k := by
  unfold State.delayInsertCmd
  rw [if_neg (by rw [hacts]; decide), h]
  dsimp only
  rw [State.delayInsert_free (s := s.modBatten fun b => { b with delayStage := padTo 32 entry }) hfree]

end

/-- Settles O56, by the command and by what it finds. -/
theorem submissionsAndDelayLists : Obligations.SubmissionsAndDelayLists := by
  refine ⟨fun s desc d ok hacts hparse => ?_, fun s entry e dist k due hacts => ?_⟩
  · intro code
    obtain ⟨u, hu, hrest⟩ := State.btSubmit_result hacts hparse
    exact ⟨⟨u, congrArg Host.Outcome.next hu, hrest⟩, State.judgeSubmit_malformed, State.judgeSubmit_taken,
      fun bySlot num => congrArg Host.Outcome.next (if_neg (by rw [hacts]; decide))⟩
  · intro staged listOf
    refine ⟨fun hparse => congrArg Host.Outcome.next (State.delayInsertCmd_malformed hacts hparse),
      fun hparse => ⟨fun hfull => congrArg Host.Outcome.next (State.delayInsertCmd_full hacts hparse hfull), fun hfree => ⟨?_, freeEntry_some hfree⟩⟩,
      fun hat hform => congrArg Host.Outcome.next (State.delayMove_time hacts hat hform),
      fun hat => congrArg Host.Outcome.next (State.delayRemove_some hacts hat),
      fun hnone => ⟨congrArg Host.Outcome.next (State.delayMove_none hacts hnone), congrArg Host.Outcome.next (State.delayRemove_none hacts hnone)⟩⟩
    obtain ⟨hown, hother⟩ := staged.modDelay_list e.onDist fun l => nput l k e
    refine ⟨_, congrArg Host.Outcome.next (State.delayInsertCmd_free hacts hparse hfree), rfl, rfl, ?_, hother⟩
    exact (congrArg (nget · k) hown).trans (nget_nput_self _ _ _)

end Sys2Proof.Machine
end

