-- ==== Sys2Proof/Proofs/RegisterWrites.lean ====
section
/-! SUPPORT. Register accesses of hosts and of the active Ridge (R9, R11, R24 to R29, R219, R495, R518, R530). -/

namespace Sys2Proof.Machine

set_option Elab.async false

section
variable {s : State} {f : FuncId} {off v : Nat} {data : Bytes}

/-! Whole words (R24). -/

theorem overlay_whole {old : Bytes} (hold : old.length = 8) (hdata : data.length = 8) : overlay old 0 data = data := by
  unfold overlay
  dsimp only
  rw [hold, hdata, Nat.zero_add, Nat.max_self, List.take_zero, List.nil_append, List.drop_eq_nil_of_le (by rw [length_padTo]), List.append_nil]

/-- A write of a whole word replaces the word. -/
theorem wordWith_whole (cur : Nat) (hdata : data.length = 8) (hoff : off % 8 = 0) : wordWith cur off data = leNat data := by
  unfold wordWith
  rw [hoff, overlay_whole (length_toLE 8 cur) hdata, List.take_of_length_le (Nat.le_of_eq hdata)]

/-! Registers of a function through BAR0 (R24 to R29, R495, R518, R530). -/

section
variable (hopen : s.barOpen f = true)
include hopen

theorem State.bar0Write_task (h : off < 0x100) : s.bar0Write f off data = s.taskBlock f off data := by
  unfold State.bar0Write
  rw [if_neg (by rw [hopen]; decide), if_pos h]

theorem State.bar0Write_int (h : 0x100 ≤ off) (h' : off < 0x200) : s.bar0Write f off data = s.intBlock f off data := by
  unfold State.bar0Write
  rw [if_neg (by rw [hopen]; decide), if_neg (by omega), if_pos h']

end

theorem State.taskReg_idle (h : s.taskBusy f = false) (g : InstRegs → InstRegs) : s.taskReg f g = s.modRegs f g := by
  unfold State.taskReg
  exact if_pos (by rw [h]; rfl)

theorem State.taskReg_busy {i : InstId} (h : s.taskBusy f = true) (hi : (s.host.funcs[f]).inst = some i) (g : InstRegs → InstRegs) :
    s.taskReg f g = s.modInst i fun x => { x with writesDiscarded := x.writesDiscarded + 1 } := by
  unfold State.taskReg
  rw [if_neg (by rw [h]; decide), hi]

theorem State.modRegs_congr {g g' : InstRegs → InstRegs} (h : g (s.host.funcs[f]).regs = g' (s.host.funcs[f]).regs) :
    s.modRegs f g = s.modFunc f fun x => { x with regs := g' x.regs } := by
  unfold State.modRegs State.modFunc State.modHost
  dsimp only
  rw [h]

theorem State.taskBlock_args (n : Fin 8) : s.taskBlock f (0x10 + 8 * n.val) data = s.taskReg f fun x =>
    { x with args := x.args.set n (wordWith (s.host.funcs[f]).regs.args[n] (0x10 + 8 * n.val) data) } := by
  have hword : (0x10 + 8 * n.val) / 8 = n.val + 2 := by omega
  unfold State.taskBlock
  dsimp only
  generalize (0x10 + 8 * n.val) / 8 = k at hword
  split
  all_goals try omega
  subst hword
  rw [dif_pos ⟨by omega, by omega⟩]
  rfl

/-- What a write of a whole word does to the registers of a task (R518). -/
theorem State.bar0Write_taskRegs (hopen : s.barOpen f = true) (hdata : data.length = 8) (hidle : s.taskBusy f = false) (n : Fin 8) :
    s.bar0Write f 0x00 data = s.modFunc f (fun x => { x with regs := { x.regs with cmd := leNat data } }) ∧
      s.bar0Write f 0x08 data = s.modFunc f (fun x => { x with regs := { x.regs with tag := leNat data } }) ∧
      s.bar0Write f (0x10 + 8 * n.val) data = s.modFunc f fun x => { x with regs := { x.regs with args := x.regs.args.set n (leNat data) } } := by
  have hword := fun (cur off : Nat) (h : off % 8 = 0) => wordWith_whole (off := off) cur hdata h
  refine ⟨?_, ?_, ?_⟩
  · rw [State.bar0Write_task hopen (by omega)]
    refine (State.taskReg_idle hidle _).trans (State.modRegs_congr (g' := fun r => { r with cmd := leNat data }) ?_)
    rw [hword _ _ rfl]
  · rw [State.bar0Write_task hopen (by omega)]
    refine (State.taskReg_idle hidle _).trans (State.modRegs_congr (g' := fun r => { r with tag := leNat data }) ?_)
    rw [hword _ _ rfl]
  · rw [State.bar0Write_task hopen (by omega), State.taskBlock_args, hword _ _ (by omega)]
    exact State.taskReg_idle hidle _

/-- What a write of a whole word does to the registers of the interrupts and of the outbound window (R495, R530). -/
theorem State.bar0Write_intRegs (hopen : s.barOpen f = true) (hdata : data.length = 8) :
    s.bar0Write f 0x100 data = s.modFunc f (fun x => { x with regs := { x.regs with
        intCause := x.regs.intCause ^^^ (x.regs.intCause &&& leNat data % 2 ^ 6) } }) ∧
      s.bar0Write f 0x108 data = s.modFunc f (fun x => { x with regs := { x.regs with intEnable := leNat data % 2 ^ 6 } }) ∧
      s.bar0Write f 0x118 data = s.modFunc f (fun x => { x with regs := { x.regs with intHoldoff := leNat data % 2 ^ 16 } }) ∧
      s.bar0Write f 0x200 data = s.modFunc f (fun x => { x with regs := { x.regs with obHigh := leNat data % 2 ^ 24 } }) ∧
      s.bar0Write f 0x88 data = s.modFunc f (fun x => { x with regs := { x.regs with consumed := leNat data % 2 ^ 32 } }) := by
  have hword := fun (cur off : Nat) (h : off % 8 = 0) => wordWith_whole (off := off) cur hdata h
  refine ⟨?_, ?_, ?_, ?_, ?_⟩
  · rw [State.bar0Write_int hopen (by omega) (by omega)]
    refine State.modRegs_congr (g' := fun r => { r with intCause := r.intCause ^^^ (r.intCause &&& leNat data % 2 ^ 6) }) ?_
    rw [← hword 0 0x100 rfl]
    rfl
  · rw [State.bar0Write_int hopen (by omega) (by omega)]
    refine State.modRegs_congr (g' := fun r => { r with intEnable := leNat data % 2 ^ 6 }) ?_
    rw [← hword (s.host.funcs[f]).regs.intEnable 0x108 rfl]
    rfl
  · rw [State.bar0Write_int hopen (by omega) (by omega)]
    refine State.modRegs_congr (g' := fun r => { r with intHoldoff := leNat data % 2 ^ 16 }) ?_
    rw [← hword (s.host.funcs[f]).regs.intHoldoff 0x118 rfl]
    rfl
  · unfold State.bar0Write
    rw [if_neg (by rw [hopen]; decide), if_neg (by omega), if_neg (by omega), if_pos (by decide)]
    refine State.modRegs_congr (g' := fun r => { r with obHigh := leNat data % 2 ^ 24 }) ?_
    rw [hword _ _ rfl]
  · rw [State.bar0Write_task hopen (by omega)]
    refine (show s.taskBlock f 0x88 data = s.modRegs f fun r => { r with consumed := wordWith r.consumed 0x88 data % 2 ^ 32 } from rfl).trans
      (State.modRegs_congr (g' := fun r => { r with consumed := leNat data % 2 ^ 32 }) ?_)
    rw [hword _ _ rfl]

/-- The completion ring's base and index are written only while ENABLE is 0 (R530). -/
theorem State.bar0Write_cmplRegs (hopen : s.barOpen f = true) (hdata : data.length = 8) (h : bitAt (s.host.funcs[f]).regs.cmplCfg 8 = false) :
    s.bar0Write f 0x70 data = s.modFunc f (fun x => { x with regs := { x.regs with cmplBase := leNat data &&& 0xFFFFFFF000 } }) ∧
      s.bar0Write f 0x80 data = s.modFunc f fun x => { x with regs := { x.regs with cmplIndex := leNat data &&& 0xFFFFFFFFF8 } } := by
  have hword := fun (cur off : Nat) (h : off % 8 = 0) => wordWith_whole (off := off) cur hdata h
  constructor
  · rw [State.bar0Write_task hopen (by omega)]
    refine (if_neg (Bool.eq_false_iff.mp h)).trans (State.modRegs_congr (g' := fun r => { r with cmplBase := leNat data &&& 0xFFFFFFF000 }) ?_)
    rw [hword _ _ rfl]
    rfl
  · rw [State.bar0Write_task hopen (by omega)]
    refine (if_neg (Bool.eq_false_iff.mp h)).trans (State.modRegs_congr (g' := fun r => { r with cmplIndex := leNat data &&& 0xFFFFFFFFF8 }) ?_)
    rw [hword _ _ rfl]
    rfl

theorem State.bar0Write_cmplHeld (hopen : s.barOpen f = true) (h : bitAt (s.host.funcs[f]).regs.cmplCfg 8 = true) :
    s.bar0Write f 0x70 data = s := by
  rw [State.bar0Write_task hopen (by omega)]
  exact if_pos h

/-! Control space, which the active Ridge writes (R9, R11, R219). -/

theorem State.standby_of_active {r : Fin 2} (h : s.active = some r) : s.standby ≠ some r := by
  unfold State.standby
  rw [h]
  exact fun he => otherRidge_ne r (Option.some.inj he)

/-- Addresses above 0x030000000000 are of control space, memory ending below the aperture (R11). -/
theorem State.regionOf_control (hoff : off < 0x10000000) (hmem : s.dram.managed ≤ 0x020000000000) :
    s.regionOf (0x030000000000 + off) = .control off := by
  unfold State.regionOf
  rw [if_neg (by omega), if_neg (by simp; omega), if_neg (by simp; omega), if_pos (by simp; omega), Nat.add_sub_cancel_left]

theorem State.devCuts_control {n : Nat} (hoff : off < 0x10000000) (hmem : s.dram.managed ≤ 0x020000000000) :
    s.devCuts (0x030000000000 + off) n = [(0x030000000000 + off, n)] := by
  unfold State.devCuts
  rw [State.regionOf_control hoff hmem]

/-- The active Ridge may write what is mapped in control space, and only that. -/
theorem State.ridgeMay_control {r : Fin 2} {n : Nat} (h : s.active = some r) (hoff : off < 0x10000000) (hmem : s.dram.managed ≤ 0x020000000000) :
    s.ridgeMay r (0x030000000000 + off) n true = controlMapped off := by
  unfold State.ridgeMay
  dsimp only
  rw [State.devCuts_control hoff hmem, h, List.all_cons, List.all_nil, State.regionOf_control hoff hmem]
  simp

theorem State.ridgeStore_control {r : Fin 2} (h : s.active = some r) (hoff : off < 0xD00000) (hmem : s.dram.managed ≤ 0x020000000000) :
    s.ridgeStore r (0x030000000000 + off) data = s.ridgeWrite off data := by
  unfold State.ridgeStore
  rw [if_neg (by rw [beq_iff_eq]; exact State.standby_of_active h), if_neg (by rw [h]; simp),
    if_neg (by
      rw [State.ridgeMay_control h (by omega) hmem]
      unfold controlMapped
      rw [decide_eq_true hoff]
      simp), State.regionOf_control (by omega) hmem]

theorem State.ridgeStore_unmapped {r : Fin 2} (h : s.active = some r) (hoff : 0xD00000 ≤ off) (hoff' : off < 0x1000000)
    (hmem : s.dram.managed ≤ 0x020000000000) :
    s.ridgeStore r (0x030000000000 + off) data = s.ridgeBusError r (0x030000000000 + off) := by
  unfold State.ridgeStore
  rw [if_neg (by rw [beq_iff_eq]; exact State.standby_of_active h), if_neg (by rw [h]; simp),
    if_pos (by
      rw [State.ridgeMay_control h (by omega) hmem]
      unfold controlMapped
      rw [decide_eq_false (by omega), decide_eq_false (by omega : ¬0x1000000 ≤ off), decide_eq_false (by omega : ¬0x2000000 ≤ off),
        decide_eq_false (by omega : ¬0x4000000 ≤ off)]
      rfl)]

theorem State.ridgeWrite_purlin (b : Fin 8) (hdata : data.length = 8) (hempty : (s.purlin.banks[b]).entries = []) (hwidth : leNat data % 4 ≠ 3) :
    s.ridgeWrite (0x800000 + 0x1000 * b.val) data =
      (s.modBank b fun k => { k with
        width := leNat data % 4, role := if k.bistFail then .free else bankRoleOf (leNat data / 4)
        masked := bitAt (leNat data) 4 && decide (leNat data % 4 = 1), owner := bitsOf (leNat data) 15 8
        enable := bitAt (leNat data) 16 }).purlinRetry := by
  have hblock : (0x800000 + 0x1000 * b.val) / 0x100000 = 8 := by omega
  have hoff : (0x800000 + 0x1000 * b.val) % 0x100000 = 0x1000 * b.val := by omega
  have hb : Fin.ofNat 8 (0x1000 * b.val / 0x1000) = b := by
    rw [Nat.mul_div_cancel_left _ (by omega)]
    exact fin_ofNat_val b
  have hwrite : s.ridgeWrite (0x800000 + 0x1000 * b.val) data = s.purlinBlock (0x1000 * b.val) data := by
    unfold State.ridgeWrite
    rw [if_neg (by simp; omega), if_neg (by simp; omega), if_neg (by simp; omega)]
    dsimp only
    rw [hblock, hoff]
    rfl
  rw [hwrite]
  unfold State.purlinBlock
  rw [if_pos (by omega), if_pos (by omega), hb]
  refine congrArg State.purlinRetry ?_
  unfold State.modBank State.modPurlin
  dsimp only
  refine congrArg (fun x => { s with purlin := { s.purlin with banks := s.purlin.banks.set b x } }) ?_
  rw [wordWith_whole _ hdata (by omega)]
  unfold Bank.setCfg
  rw [hempty, if_neg (by simp), beq_eq_false_iff_ne.mpr hwidth, if_neg Bool.false_ne_true]
  rfl

/-! Reads by the Ridges (R28). -/

/-- No line of the aperture stands in memory. -/
theorem State.apertureLine_dram {a : Nat} (h : a < 0x020000000000) : s.apertureLine a = none := by
  unfold State.apertureLine
  rw [if_pos (by rw [Bool.or_eq_true, decide_eq_true_eq]; exact .inl h)]

theorem cuts_lt {g fuel a n : Nat} {c : Nat × Nat} (h : c ∈ cuts g fuel a n) : c.1 < a + n := by
  induction fuel generalizing a n with
  | zero => cases h
  | succ fuel ih =>
    rw [cuts] at h
    split at h
    · cases h
    · rename_i hn
      have hpos : n ≠ 0 := by simpa using hn
      rcases List.mem_cons.mp h with rfl | h
      · dsimp only
        omega
      · have := ih h
        omega

theorem State.ridgeLoad_memory {r : Fin 2} {addr len : Nat} {parity : Bool} {d : Bytes} {s' : State} (h : s.active = some r ∨ s.standby = some r)
    (hmay : s.ridgeMay r addr len false = true) (hlt : addr < s.dram.managed) (hmem : s.dram.managed ≤ 0x020000000000)
    (hread : s.devRead addr len false = (some d, s')) : s.ridgeLoad r addr len parity = s'.emit (.ridgeData r addr d) := by
  have hregion : s.regionOf addr = .dram := if_pos hlt
  have hend : addr + len ≤ s.dram.managed := by
    unfold State.ridgeMay State.devCuts at hmay
    rw [hregion] at hmay
    simpa [hregion] using hmay
  have hspoil : s.apertureSpoil addr = s := by
    unfold State.apertureSpoil
    exact if_pos (by rw [State.apertureLine_dram (by omega)]; rfl)
  have hbad : s.apertureBad addr len = false := by
    refine List.any_eq_false.mpr fun c hc => ?_
    rw [State.apertureLine_dram (by have := cuts_lt hc; omega)]
    exact Bool.false_ne_true
  have hsame : (if parity then s.apertureSpoil addr else s) = s := by
    rw [hspoil]
    exact ite_self s
  unfold State.ridgeLoad
  rw [if_neg (by rcases h with h | h <;> simp [h]), if_neg (by rw [hmay]; decide), hregion]
  dsimp only
  rw [hsame, if_neg (by rw [hbad]; decide), hread]

end

/-- Settles O47, by who writes or reads and what stands there. -/
theorem registerWrites : Obligations.RegisterWrites := by
  intro s s' f n r off addr len parity data hdata v ridge host
  have hridge : ∀ {off u}, s.ridgeStore r (0x030000000000 + off) data = u → ridge off = .next u := fun h => congrArg Host.Outcome.next h
  refine ⟨fun hopen => ⟨fun hidle => ?_, fun i hbusy hi => ?_, ?_⟩, fun hclosed => ?_, fun hactive hmem => ⟨?_, ?_, ?_, fun b hempty hwidth => ?_,
    fun hge hlt => hridge (State.ridgeStore_unmapped hactive hge hlt hmem)⟩, fun hstandby => hridge ?_, fun hactive hstandby => hridge ?_,
    fun hopen => ?_, fun hclosed => ?_, fun hacts => ⟨fun hmay => ?_, fun o hmay hregion => ?_, fun d hmay hlt hmem hread => ?_⟩⟩
  · obtain ⟨h0, h8, hargs⟩ := State.bar0Write_taskRegs hopen hdata hidle n
    exact ⟨congrArg Host.Outcome.next h0, congrArg Host.Outcome.next h8, congrArg Host.Outcome.next hargs⟩
  · exact congrArg Host.Outcome.next ((State.bar0Write_task hopen (by omega)).trans (State.taskReg_busy hbusy hi _))
  · obtain ⟨hcause, henable, hholdoff, hhigh, hconsumed⟩ := State.bar0Write_intRegs hopen hdata
    refine ⟨congrArg Host.Outcome.next hcause, congrArg Host.Outcome.next henable, congrArg Host.Outcome.next hholdoff, congrArg Host.Outcome.next hhigh,
      congrArg Host.Outcome.next hconsumed, fun hclear => ?_, fun hset => congrArg Host.Outcome.next (State.bar0Write_cmplHeld hopen hset)⟩
    obtain ⟨hbase, hindex⟩ := State.bar0Write_cmplRegs hopen hdata hclear
    exact ⟨congrArg Host.Outcome.next hbase, congrArg Host.Outcome.next hindex⟩
  · exact congrArg Host.Outcome.next (if_pos (by rw [hclosed]; rfl))
  · refine hridge ((State.ridgeStore_control hactive (by omega) hmem).trans ?_)
    exact congrArg s.setHoldoff (wordWith_whole _ hdata rfl)
  · refine hridge ((State.ridgeStore_control hactive (by omega) hmem).trans ?_)
    exact congrArg (fun w => s.modGutter fun g => { g with enable := bitAt w 0 }) (wordWith_whole _ hdata rfl)
  · refine hridge ((State.ridgeStore_control hactive (by omega) hmem).trans ?_)
    exact congrArg (fun w => s.modGutter fun g => { g with overrun := g.overrun ^^^ (g.overrun &&& w % 2 ^ 48) }) (wordWith_whole 0 hdata rfl)
  · exact hridge ((State.ridgeStore_control hactive (by omega) hmem).trans (State.ridgeWrite_purlin b hdata hempty hwidth))
  · exact if_pos (by rw [hstandby]; exact beq_self_eq_true _)
  · exact (if_neg (by rw [beq_iff_eq]; exact hstandby)).trans (if_pos (bne_iff_ne.mpr hactive))
  · exact congrArg Host.Outcome.next (if_neg (by rw [hopen]; decide))
  · exact congrArg Host.Outcome.next (if_pos (by rw [hclosed]; rfl))
  · refine congrArg Host.Outcome.next ((if_neg ?_).trans (if_pos (by rw [hmay]; rfl)))
    rcases hacts with h | h <;> simp [h]
  · refine congrArg Host.Outcome.next (show s.ridgeLoad r addr len parity = _ from ?_)
    unfold State.ridgeLoad
    rw [if_neg (by rcases hacts with h | h <;> simp [h]), if_neg (by rw [hmay]; decide), hregion]
  · exact congrArg Host.Outcome.next (State.ridgeLoad_memory hacts hmay hlt hmem hread)

end Sys2Proof.Machine
end

