-- ==== Sys2Proof/Proofs/RidgeMessages.lean ====
section
/-! SUPPORT. What the two Ridges send, and what befalls them (R592 to R597, R605 to R608, R612). -/

namespace Sys2Proof.Machine

set_option Elab.async false

section
variable {s : State} {r : Fin 2}

/-! The standby, and changes of one Ridge. -/

theorem State.modRidge_at (s : State) (r : Fin 2) (f : RidgeSt → RidgeSt) : (s.modRidge r f).finial.ridges[r] = f s.finial.ridges[r] :=
  Vector.getElem_set_self _

theorem State.modRidge_ne {q : Fin 2} (h : q ≠ r) (f : RidgeSt → RidgeSt) : (s.modRidge r f).finial.ridges[q] = s.finial.ridges[q] := by
  show (s.finial.ridges.set r (f s.finial.ridges[r]))[q.val] = _
  exact Vector.getElem_set_ne _ _ (fun e => h (Fin.ext e.symm))

theorem otherRidge_otherRidge (r : Fin 2) : otherRidge (otherRidge r) = r := by
  revert r
  decide

theorem eq_otherRidge_of_ne {q r : Fin 2} (h : q ≠ r) : q = otherRidge r := by
  revert q r
  decide

theorem State.freeRings_finial (s : State) (pos : Vector Nat 4) : (s.freeRings pos).finial = s.finial := by
  unfold State.freeRings
  refine foldl_keeps State.finial _ (fun u i => ?_) _ _
  rfl

/-- The standby is the Ridge that is not active. -/
theorem State.active_of_standby (h : s.standby = some r) : ∃ a, s.active = some a ∧ r = otherRidge a ∧ a = otherRidge r := by
  obtain ⟨a, ha, hr⟩ := Option.map_eq_some_iff.mp h
  refine ⟨a, ha, hr.symm, ?_⟩
  rw [← hr, otherRidge_otherRidge]

theorem State.active_ne_of_standby (h : s.standby = some r) : s.active ≠ some r := by
  obtain ⟨a, ha, hr, -⟩ := State.active_of_standby h
  rw [ha, hr]
  exact fun he => otherRidge_ne a (Option.some.inj he).symm

/-! Checkpoints and their acknowledgement (R597, R608). -/

/-- A standby that acknowledges takes the checkpoint whose CRC agrees, and sends an ACK frame. -/
theorem State.checkpointIn_taken (h : s.standby = some r) (hack : s.acknowledges r = true) :
    ∃ (u : State) (st : Stamp), s.checkpointIn s.finial.ckpt.crc =
      u.emit (.swayFrame (swayHeader 2 r s.finial.ckpt.raft 0 s.finial.ckpt.jseq s.finial.ckpt.crc st)) ∧ st.src = 0x60 + r.val ∧
      (u.finial.ridges[r]).lastAck = s.finial.ckpt.raft ∧ u.finial.ckpt = s.finial.ckpt ∧ u.outs = s.outs := by
  obtain ⟨v, hv⟩ : ∃ v, v = s.modRidge r fun k => { k with lastAck := s.finial.ckpt.raft } := ⟨_, rfl⟩
  refine ⟨(v.stamp (0x60 + r.val)).2, (v.stamp (0x60 + r.val)).1, ?_, rfl, ?_, ?_, ?_⟩
  · unfold State.checkpointIn
    rw [h]
    dsimp only
    rw [if_neg (by rw [hack]; decide), if_neg (by simp), hv]
    rfl
  · show (v.finial.ridges[r]).lastAck = _
    rw [hv, State.modRidge_at]
  · rw [hv]
    rfl
  · rw [hv]
    rfl

theorem State.checkpointIn_bad {crc : Nat} (h : s.standby = some r) (hack : s.acknowledges r = true) (hcrc : crc ≠ s.finial.ckpt.crc) :
    s.checkpointIn crc = s.standbyFails r 7 := by
  unfold State.checkpointIn
  rw [h]
  dsimp only
  rw [if_neg (by rw [hack]; decide), if_pos (bne_iff_ne.mpr hcrc)]

/-- What an ACK of the checkpoint records (R597): the checkpoint acknowledged by both Ridges, and the journal's replay start. -/
def State.acked (s : State) (r : Fin 2) : State :=
  (((s.freeRings s.finial.ckpt.rings).modFinial fun x => { x with
      ckpt := { s.finial.ckpt with acked := true }, ckptAcked := x.ckptAcked + 1, ackJseq := s.finial.ckpt.jseq }).modRidge r fun k =>
    { k with lastAck := s.finial.ckpt.raft, acks := k.acks + 1 }).modRidge (otherRidge r) fun k => { k with lastAck := s.finial.ckpt.raft }

theorem State.ackIn_eq (h : s.standby = some r) (hack : s.acknowledges r = true) (hopen : s.finial.ckpt.acked = false) :
    s.ackIn s.finial.ckpt.raft s.finial.ckpt.crc = if s.finial.handover && !s.finial.fault then (s.acked r).handOver
      else if ((s.acked r).ridge r).state == .syncing && 8 ≤ ((s.acked r).ridge r).acks then (s.acked r).ridgeReady r else s.acked r := by
  have hfree := s.freeRings_finial s.finial.ckpt.rings
  have hflags : (s.acked r).finial.handover = s.finial.handover ∧ (s.acked r).finial.fault = s.finial.fault := by
    rw [← hfree]
    exact ⟨rfl, rfl⟩
  unfold State.ackIn
  rw [h]
  dsimp only
  rw [if_neg (by rw [hopen, hack]; simp), ← hflags.1, ← hflags.2]
  rfl

theorem State.acked_sets (s : State) (r : Fin 2) : (s.acked r).finial.ckpt = { s.finial.ckpt with acked := true } ∧
    (s.acked r).finial.ckptAcked = s.finial.ckptAcked + 1 ∧ (s.acked r).finial.ackJseq = s.finial.ckpt.jseq ∧
    (s.acked r).finial.holder = s.finial.holder ∧ ((s.acked r).finial.ridges[r]).state = (s.finial.ridges[r]).state ∧
    ∀ q : Fin 2, ((s.acked r).finial.ridges[q]).lastAck = s.finial.ckpt.raft := by
  obtain ⟨v, hv, hfree⟩ : ∃ v, v = s.freeRings s.finial.ckpt.rings ∧ v.finial = s.finial :=
    ⟨_, rfl, s.freeRings_finial _⟩
  obtain ⟨w, hw⟩ : ∃ w, w = (v.modFinial fun x => { x with
    ckpt := { s.finial.ckpt with acked := true }, ckptAcked := x.ckptAcked + 1, ackJseq := s.finial.ckpt.jseq }).modRidge r fun k =>
      { k with lastAck := s.finial.ckpt.raft, acks := k.acks + 1 } := ⟨_, rfl⟩
  have hacked : s.acked r = w.modRidge (otherRidge r) fun k => { k with lastAck := s.finial.ckpt.raft } := by rw [hw, hv]; rfl
  have hown : (s.acked r).finial.ridges[r] = w.finial.ridges[r] := by
    rw [hacked]
    exact State.modRidge_ne (otherRidge_ne r).symm _
  have hat : w.finial.ridges[r] = { s.finial.ridges[r] with lastAck := s.finial.ckpt.raft, acks := (s.finial.ridges[r]).acks + 1 } := by
    rw [hw, State.modRidge_at, ← hfree]
    rfl
  refine ⟨?_, ?_, ?_, ?_, ?_, fun q => ?_⟩
  · rw [hacked, hw]
    rfl
  · rw [hacked, hw, ← hfree]
    rfl
  · rw [hacked, hw]
    rfl
  · rw [hacked, hw, ← hfree]
    rfl
  · rw [hown, hat]
  · by_cases hq : q = r
    · rw [hq, hown, hat]
    · rw [eq_otherRidge_of_ne hq, hacked, State.modRidge_at]

/-- A planned handover ends with the token at the other Ridge (R608). -/
theorem State.handOver_holder {a : Fin 2} (h : s.active = some a) :
    s.handOver.finial.holder = (otherRidge a).val + 1 ∧ s.handOver.finial.handover = false := by
  unfold State.handOver
  rw [h]
  dsimp only
  obtain ⟨w, hw⟩ : ∃ w, w = ((s.grant (otherRidge a)).modRidge a fun k => { k with state := .syncing, image := true, acks := 0 }).modFinial
    fun x => { x with ret := .none } := ⟨_, rfl⟩
  rw [← hw]
  have hold : w.takeUp.noteStandby.finial.Holds w.finial := .of_core ((State.noteStandby_core _).trans (State.takeUp_core _))
  have hgoal : ∀ v : State, v.finial.Holds w.finial → v.finial.holder = (otherRidge a).val + 1 ∧ v.finial.handover = false := fun v hvw =>
    ⟨hvw.holder.trans (by rw [hw]; rfl), hvw.handover.trans (by rw [hw]; rfl)⟩
  split
  · exact hgoal _ ((FinialSt.Holds.of_core (State.endRequest_core _ _)).trans hold)
  · exact hgoal _ hold

/-! HEALTH (R606). -/

theorem Stamp.length_bytes (st : Stamp) : st.bytes.length = 16 := by simp [Stamp.bytes]

/-- A HEALTH frame publishes which Ridge stands by, its state and its LOCKSTEP_OK. -/
theorem State.healthIn_vals (ok : Bool) (h : s.standby = some r) (hoff : (s.finial.ridges[r]).state ≠ .off) (hfailed : (s.finial.ridges[r]).state ≠ .failed) :
    ∃ v, nget (s.healthIn ok).dict.vals (objKey 0x3820 1) = some v ∧ fieldAt 16 1 v = r.val ∧
      fieldAt 17 1 v = (s.finial.ridges[r]).state.code % 256 ∧ fieldAt 18 1 v = ok.toNat := by
  unfold State.healthIn
  rw [h]
  dsimp only
  rw [if_neg (by
    rw [Bool.or_eq_true, beq_iff_eq, beq_iff_eq]
    exact not_or.mpr ⟨hoff, hfailed⟩)]
  refine ⟨_, nget_nput_self _ _ _, ?_⟩
  simp only [List.append_assoc]
  generalize toLE 4 _ ++ _ = tail
  generalize (s.stamp (0x60 + r.val)).1 = st
  have hlen : st.bytes.length = 16 := st.length_bytes
  refine ⟨?_, ?_, ?_⟩
  · rw [fieldAt_behind hlen (by omega), fieldAt_toLE_mod, Nat.mod_eq_of_lt (by omega)]
  · rw [fieldAt_behind hlen (by omega), fieldAt_skip (by omega), fieldAt_toLE_mod]
    rfl
  · rw [fieldAt_behind hlen (by omega), fieldAt_skip (by omega), fieldAt_skip (by omega), fieldAt_toLE_mod, Nat.mod_eq_of_lt (by cases ok <;> decide)]

/-! What befalls a Ridge (R592, R593, R605). -/

theorem State.failedExpiry_eq (h : (s.finial.ridges[r]).state = .failed) :
    s.failedExpiry r = if (s.finial.ridges[r]).attempts < s.cfg 0x3803 3 3
      then (s.advanceTo ((s.finial.ridges[r]).failedAt + 10000000)).modRidge r fun k => { k with state := .testing }
      else ((s.advanceTo ((s.finial.ridges[r]).failedAt + 10000000)).modRidge r fun k => { k with state := .off }).loneFails r := by
  unfold State.failedExpiry
  exact if_neg (by rw [show (s.ridge r).state = _ from h]; decide)

theorem State.ridgeTested_failed (h : (s.finial.ridges[r]).state = .testing) (hfault : s.finial.fault = false) :
    s.ridgeTested r false = (s.ridgeFails r 6).loneFails r := by
  unfold State.ridgeTested
  rw [show (s.ridge r).state = _ from h, hfault]
  rfl

theorem State.ridgeTested_passed (h : (s.finial.ridges[r]).state = .testing) (hfault : s.finial.fault = false) (hlone : s.finial.lone = none)
    (hstandby : s.standby = some r) : s.ridgeTested r true = s.modRidge r fun k => { k with state := .syncing, image := false, acks := 0 } := by
  unfold State.ridgeTested
  rw [if_neg (by rw [show (s.ridge r).state = _ from h, hfault]; decide), if_neg (by decide), hlone, if_neg (by simp),
    if_pos (by rw [hstandby]; exact beq_self_eq_true _)]

theorem State.standbyTest_passed (march : Bool) (h : s.standby = some r) (hoff : (s.finial.ridges[r]).state ≠ .off)
    (hfailed : (s.finial.ridges[r]).state ≠ .failed) : s.standbyTest march true = s.modRidge r fun k =>
      if march then { k with marchPasses := k.marchPasses + 1 } else { k with vectorRuns := k.vectorRuns + 1 } := by
  unfold State.standbyTest
  rw [h]
  dsimp only
  rw [if_neg (by
    rw [Bool.or_eq_true, beq_iff_eq, beq_iff_eq]
    exact not_or.mpr ⟨hoff, hfailed⟩), if_pos rfl]
  cases march
  · rfl
  · rfl

/-- A standby that is READY fails (R605). -/
theorem State.standbyFails_ready (cause : Nat) (h : (s.finial.ridges[r]).state = .ready) (hfault : s.finial.fault = false)
    (hover : s.finial.handover = false) : s.standbyFails r cause = (s.ridgeFails r cause).loneFails r := by
  unfold State.standbyFails
  rw [if_neg (by rw [hfault]; decide), show (s.ridge r).state = _ from h, hover]
  rfl

/-- The Finial's copies disagree: FINIAL_FAULT, with its alert (R612). -/
theorem State.finialMismatch_sets (s : State) : ∃ u, exec .finialMismatch s = .next u ∧ u.finial.fault = true ∧ bitAt u.finial.alert 3 = true := by
  obtain ⟨w, hw⟩ : ∃ w, w = s.modFinial fun x => { x with fault := true } := ⟨_, rfl⟩
  refine ⟨((w.alert 3 .fatal 11 0).endRequest stConflict).noteOutage, by rw [hw]; rfl, ?_, ?_⟩
  · have hcore := ((w.alert 3 .fatal 11 0).endRequest_core stConflict).trans (w.alert_core 3 .fatal 11 0)
    exact (congrArg FinialSt.fault hcore :).trans (by rw [hw]; rfl)
  · exact (congrArg (bitAt · 3) ((w.alert 3 .fatal 11 0).endRequest_alert stConflict)).trans (w.alert_on _ _ _ _)

end

/-- Settles O45, frame by frame and event by event. -/
theorem ridgeMessagesAndLife : Obligations.RidgeMessagesAndLife := by
  refine ⟨fun s r raft crc complete ok => ?_, fun s r march high code => ?_⟩
  · intro f
    refine ⟨fun hacts => ?_, fun hacts hne => ?_, fun hstandby hack => ⟨fun i hi hover => ?_, fun hover => ?_, fun hcrc => ?_,
      fun hopen hover hready => ?_, fun hopen hover hfault => ?_⟩, fun hstandby hoff hfailed => ?_, fun hstandby hsyncing => ?_⟩
    · exact congrArg Host.Outcome.next ((if_neg (by rw [hacts]; decide)).trans (if_pos (beq_self_eq_true _)))
    · exact congrArg Host.Outcome.next ((if_neg (by rw [hacts]; decide)).trans (if_neg (by rw [beq_iff_eq]; exact hne)))
    · obtain ⟨u, st, hu, hrest⟩ := State.checkpointIn_taken hstandby hack
      rcases List.mem_pair.mp hi with rfl | rfl
      · exact ⟨u, st, congrArg Host.Outcome.next hu, hrest⟩
      · exact ⟨u, st, congrArg Host.Outcome.next ((if_pos (hover rfl)).trans hu), hrest⟩
    · exact congrArg Host.Outcome.next (if_neg (by rw [show s.finial.handover = false from hover]; decide))
    · exact congrArg Host.Outcome.next (State.checkpointIn_bad hstandby hack hcrc)
    · obtain ⟨hckpt, hcount, hjseq, hholder, hstate, hlast⟩ := s.acked_sets r
      refine ⟨s.acked r, congrArg Host.Outcome.next ((State.ackIn_eq hstandby hack hopen).trans ?_), hckpt, hcount, hjseq, hholder, hlast⟩
      rw [if_neg (by rw [show s.finial.handover = false from hover, Bool.false_and]; exact Bool.false_ne_true),
        if_neg (by rw [show ((s.acked r).ridge r).state = .ready from hstate.trans hready]; simp)]
    · obtain ⟨a, ha, hr, -⟩ := State.active_of_standby hstandby
      have hacked : (s.acked r).active = some a := by
        rw [← ha]
        unfold State.active
        rw [(s.acked_sets r).2.2.2.1]
      refine ⟨(s.acked r).handOver, congrArg Host.Outcome.next ((State.ackIn_eq hstandby hack hopen).trans ?_), ?_⟩
      · exact if_pos (by rw [show s.finial.handover = true from hover, show s.finial.fault = false from hfault]; rfl)
      · rw [hr]
        exact State.handOver_holder (by rw [← hr]; exact hacked)
    · obtain ⟨v, hv⟩ := State.healthIn_vals ok hstandby hoff hfailed
      exact ⟨_, v, rfl, hv⟩
    · show Host.Outcome.next _ = _
      rw [hstandby]
      exact congrArg Host.Outcome.next (if_pos (by rw [show (s.ridge r).state = _ from hsyncing]; rfl))
  · intro k due
    refine ⟨fun hfailed => ?_, fun htesting hfault => ?_, fun hserving => ?_, fun hstandby hoff hfailed => ?_, fun hstandby hready hfault hover => ?_,
      fun hret => ?_, s.finialMismatch_sets, rfl, fun hactive => ?_, fun hstandby => ?_⟩
    · exact ⟨fun hlt => congrArg Host.Outcome.next ((State.failedExpiry_eq hfailed).trans (if_pos hlt)),
        fun hle => congrArg Host.Outcome.next ((State.failedExpiry_eq hfailed).trans (if_neg (Nat.not_lt.mpr hle)))⟩
    · exact ⟨congrArg Host.Outcome.next (State.ridgeTested_failed htesting hfault),
        fun hlone hstandby => congrArg Host.Outcome.next (State.ridgeTested_passed htesting hfault hlone hstandby)⟩
    · refine congrArg Host.Outcome.next (if_pos ?_)
      rcases hserving with h | h
      · rw [show (s.ridge r).state = _ from h]
        rfl
      · rw [show (s.ridge r).state = _ from h]
        rfl
    · exact congrArg Host.Outcome.next (State.standbyTest_passed march hstandby hoff hfailed)
    · refine congrArg Host.Outcome.next (Eq.trans (if_neg ?_) (State.standbyFails_ready 3 hready hfault hover))
      rw [beq_iff_eq]
      exact State.active_ne_of_standby hstandby
    · exact congrArg Host.Outcome.next (if_pos (by rw [hret]; rfl))
    · exact congrArg Host.Outcome.next (if_pos (bne_iff_ne.mpr hactive))
    · exact congrArg Host.Outcome.next (if_pos hstandby)

end Sys2Proof.Machine
end

