-- ==== Sys2Proof/Proofs/PlynRequests.lean ====
section
/-! SUPPORT. Plyn requests and their answers (R581 to R583). -/

namespace Sys2Proof.Machine

set_option Elab.async false

section
variable {s s' : State} {p : PlynIn} {rest : List PlynIn}

/-- The oldest request is taken where it is of the kind asked for and the active Ridge takes input (R581). -/
theorem State.plynTake_served {kind : Nat} (h : s.dict.plynIn = p :: rest) (htakes : s.ridgeTakes = true) (hkind : p.kind = kind) :
    s.plynTake kind = (s.modDict fun d => { d with plynIn := rest }).plynServe p := by
  unfold State.plynTake
  rw [h]
  dsimp only
  rw [if_neg (by rw [hkind]; simp), if_neg (by rw [htakes]; decide)]

theorem State.plynServe_stale (h : s.plynFresh p = none) : s.plynServe p = (s.bump 0x3061 3 1).plynStatus p 0x5004 := by
  unfold State.plynServe
  rw [h]
  rfl

/-- A fresh READ of a slot that may read is answered by the fragments of the value (R581, R583). -/
theorem State.plynServe_read {st type : Nat} {v : Bytes} (h : s.plynFresh p = some s') (hres : p.reservedOk = true) (hkind : p.kind = 1)
    (hrights : (s'.dict.slots[p.slot]).rights % 4 ≠ 0) (hread : s'.readObj p.source p.key' = (st, some (type, v))) :
    s.plynServe p = ((p.fragments type v).foldl State.plynReply s').readClears p.key' := by
  unfold State.plynServe
  rw [h]
  dsimp only
  rw [if_neg (by rw [hres]; decide), if_neg (by rw [hkind]; decide), if_neg (by rw [beq_iff_eq]; exact hrights), if_pos (by rw [hkind]; rfl), hread]

/-- A fresh INFO is answered by the object's description. -/
theorem State.plynServe_info {r : ObjRow} (h : s.plynFresh p = some s') (hres : p.reservedOk = true) (hkind : p.kind = 3)
    (hrights : (s'.dict.slots[p.slot]).rights % 4 ≠ 0) (hrow : objRow p.key' = some r) :
    s.plynServe p = s'.plynReply (p.reply 0 9 0 8 true r.info) := by
  unfold State.plynServe
  rw [h]
  dsimp only
  rw [if_neg (by rw [hres]; decide), if_neg (by rw [hkind]; decide), if_neg (by rw [beq_iff_eq]; exact hrights), if_neg (by rw [hkind]; decide), hrow]
  rfl

/-- A WRITE of one message reaches the checks whole (R582). -/
theorem State.plynServe_write (h : s.plynFresh p = some s') (hres : p.reservedOk = true) (hkind : p.kind = 2) (hoffset : p.offset = 0)
    (hlast : p.last = true) (htotal : p.length = p.total) (hlen : p.length ≤ 1408) (hassembly : (s'.dict.slots[p.slot]).assembly = none) :
    s.plynServe p = s'.plynSubmit p ((p.bytes.drop 32).take p.length) := by
  have hmsg : s'.plynWriteMsg p = s'.plynSubmit p ((p.bytes.drop 32).take p.length) := by
    unfold State.plynWriteMsg
    dsimp only
    rw [hassembly, hoffset, hlast, ← htotal, if_neg (by simp; omega), if_pos (by decide), if_neg (by simp), if_pos rfl, if_neg (by simp)]
  rw [← hmsg]
  unfold State.plynServe
  rw [h]
  dsimp only
  rw [if_neg (by rw [hres]; decide), if_pos (by rw [hkind]; rfl)]

/-- Replies are queued in order (R583). -/
theorem State.plynReplies (l : List PlynReply) (s : State) : (l.foldl State.plynReply s).dict.replies = s.dict.replies ++ l := by
  induction l generalizing s with
  | nil => exact (List.append_nil _).symm
  | cons r l ih =>
    rw [List.foldl_cons, ih]
    exact List.append_assoc _ [r] l

end

/-- Settles O43, by the kind of the request. -/
theorem plynRequests : Obligations.PlynRequests := by
  intro s s' p rest r st type v hin htakes taken fresh mayRead
  have hserve := fun {kind u} (hkind : p.kind = kind) (h : taken.plynServe p = u) => (State.plynTake_served hin htakes hkind).trans h
  refine ⟨fun hkind ⟨hfresh, hres⟩ hmay hread => ⟨?_, State.plynReplies _ _⟩, fun hkind ⟨hfresh, hres⟩ hmay hrow => ?_,
    fun hkind ⟨hfresh, hres⟩ hoffset hlast htotal hlen hassembly => ?_, fun hstale x hx hkind => ?_⟩
  · exact congrArg Host.Outcome.next (hserve hkind (State.plynServe_read hfresh hres hkind hmay hread))
  · exact congrArg Host.Outcome.next (hserve hkind (State.plynServe_info hfresh hres hkind hmay hrow))
  · exact congrArg Host.Outcome.next (hserve hkind (State.plynServe_write hfresh hres hkind hoffset hlast htotal hlen hassembly))
  · have hanswer := fun {kind} (h : p.kind = kind) => hserve h (State.plynServe_stale hstale)
    simp only [List.mem_cons, List.not_mem_nil, or_false] at hx
    rcases hx with rfl | rfl | rfl
    · exact congrArg Host.Outcome.next (hanswer hkind)
    · exact congrArg Host.Outcome.next (hanswer hkind)
    · exact congrArg Host.Outcome.next (hanswer hkind)

end Sys2Proof.Machine
end

