-- ==== Sys2Proof/Proofs/CommandEnds.lean ====
section
/-! SUPPORT. Commands of an instance: how one is found by its receipt, how it starts, and the record that ends it (R521, R528). -/

namespace Sys2Proof.Machine

set_option Elab.async false

section
variable {s w : State} {i : InstId} {c : Cmd}

/-! The queue of an instance, and its commands by their receipts. -/

theorem Cmd.opcode_lt (c : Cmd) : c.opcode < 256 := Nat.mod_lt _ (by decide)

/-- A command that is changed but for its receipt is still the one its receipt names. -/
theorem find_map_receipt {l : List Cmd} {r : Stamp} {f : Cmd → Cmd} (hf : ∀ c, (f c).receipt = c.receipt) (h : l.find? (·.receipt == r) = some c) :
    (l.map fun c => if c.receipt == r then f c else c).find? (·.receipt == r) = some (f c) := by
  have hcomp : ((·.receipt == r) ∘ fun c => if c.receipt == r then f c else c) = (·.receipt == r) := by
    funext e
    dsimp only [Function.comp]
    split
    · rw [hf]
    · rfl
  rw [List.find?_map, hcomp, h, Option.map_some, if_pos (List.find?_some h :)]

/-- Its neighbours in the queue do not change with it. -/
theorem filter_map_receipt (l : List Cmd) (r : Stamp) {f : Cmd → Cmd} (hf : ∀ c, (f c).receipt = c.receipt) :
    (l.map fun c => if c.receipt == r then f c else c).filter (·.receipt != r) = l.filter (·.receipt != r) := by
  have hcomp : ((·.receipt != r) ∘ fun c => if c.receipt == r then f c else c) = (·.receipt != r) := by
    funext e
    dsimp only [Function.comp]
    split
    · rw [hf]
    · rfl
  rw [List.filter_map, hcomp]
  refine (List.map_congr_left fun e he => ?_).trans (List.map_id _)
  rw [if_neg (by simpa using (List.mem_filter.mp he).2)]
  rfl

theorem State.journal_insts (s : State) (kind : Nat) (st : Stamp) (payload : Nat) : (s.journal kind st payload).insts = s.insts := rfl

theorem State.modCmd_cmd {r : Stamp} {f : Cmd → Cmd} (hf : ∀ c, (f c).receipt = c.receipt) (h : s.cmd i r = some c) :
    (s.modCmd i r f).cmd i r = some (f c) := by
  unfold State.cmd State.modCmd
  rw [State.modInst_at]
  exact find_map_receipt hf h

theorem State.modCmd_others (r : Stamp) {f : Cmd → Cmd} (hf : ∀ c, (f c).receipt = c.receipt) :
    ((s.modCmd i r f).insts[i]).queue.filter (·.receipt != r) = (s.insts[i]).queue.filter (·.receipt != r) := by
  unfold State.modCmd
  rw [State.modInst_at]
  exact filter_map_receipt _ r hf

theorem State.modCmd_records (r : Stamp) (f : Cmd → Cmd) : ((s.modCmd i r f).insts[i]).records = (s.insts[i]).records := by
  unfold State.modCmd
  rw [State.modInst_at]

theorem State.cmd_receipt {r : Stamp} (h : s.cmd i r = some c) : c.receipt = r := beq_iff_eq.mp (List.find?_some h :)

/-! Completion records (R528). -/

theorem length_recordBytes (c : Cmd) (i : InstId) (status : Nat) (nailed : Bool) (done : Stamp) : (recordBytes c i status nailed done).length = 128 := by
  simp [recordBytes, Stamp.length_bytes, zeros]

/-- Four words in a row. -/
theorem fieldAt_details (d : Vector Nat 4) (rest : Bytes) (k : Fin 4) :
    fieldAt (8 * k.val) 8 (toLE 8 d[0] ++ (toLE 8 d[1] ++ (toLE 8 d[2] ++ (toLE 8 d[3] ++ rest)))) = d[k] % 2 ^ 64 := by
  match k with
  | 0 => exact fieldAt_toLE_mod 8 _ _
  | 1 =>
    rw [fieldAt_skip (by decide)]
    exact fieldAt_toLE_mod 8 _ _
  | 2 =>
    rw [fieldAt_skip (by decide), fieldAt_skip (by decide)]
    exact fieldAt_toLE_mod 8 _ _
  | 3 =>
    rw [fieldAt_skip (by decide), fieldAt_skip (by decide), fieldAt_skip (by decide)]
    exact fieldAt_toLE_mod 8 _ _

/-- A record has opcode, status, tag and details where R528 puts them. -/
theorem recordBytes_fields (c : Cmd) (i : InstId) (status : Nat) (nailed : Bool) (done : Stamp) :
    fieldAt 0 4 (recordBytes c i status nailed done) = 0x454E4F44 ∧ fieldAt 4 1 (recordBytes c i status nailed done) = c.opcode ∧
      fieldAt 6 2 (recordBytes c i status nailed done) = status % 2 ^ 16 ∧ fieldAt 8 8 (recordBytes c i status nailed done) = c.tag % 2 ^ 64 ∧
      ∀ k : Fin 4, fieldAt (64 + 8 * k.val) 8 (recordBytes c i status nailed done) = c.d[k] % 2 ^ 64 := by
  unfold recordBytes
  simp only [List.append_assoc]
  refine ⟨?_, ?_, ?_, ?_, fun k => ?_⟩
  · rw [fieldAt_toLE_mod]
    rfl
  · rw [fieldAt_skip (by omega), fieldAt_toLE_mod, Nat.mod_eq_of_lt (by have := c.opcode_lt; omega)]
  · rw [fieldAt_skip (by omega), fieldAt_skip (by omega), fieldAt_skip (by omega), fieldAt_toLE_mod]
    rfl
  · rw [fieldAt_skip (by omega), fieldAt_skip (by omega), fieldAt_skip (by omega), fieldAt_skip (by omega), fieldAt_toLE_mod]
    rfl
  · rw [fieldAt_skip (by omega), fieldAt_skip (by omega), fieldAt_skip (by omega), fieldAt_skip (by omega), fieldAt_skip (by omega),
      fieldAt_behind c.receipt.length_bytes (by omega), fieldAt_behind done.length_bytes (by omega), fieldAt_skip (by omega),
      fieldAt_behind (k := 8) (by simp [zeros]) (by omega), show 64 + 8 * k.val - 4 - 1 - 1 - 2 - 8 - 16 - 16 - 8 - 8 = 8 * k.val by omega]
    exact fieldAt_details c.d _ k

/-! Commands under way, and how they end (R521, R528). -/

/-- A later state whose queue of the instance is the earlier one but for one command, which stands there as `c'`; its records are the same. -/
structure State.Carries (s w : State) (i : InstId) (c c' : Cmd) : Prop where
  others : (w.insts[i]).queue.filter (·.receipt != c.receipt) = (s.insts[i]).queue.filter (·.receipt != c.receipt)
  records : (w.insts[i]).records = (s.insts[i]).records
  cmd : w.cmd i c.receipt = some c'
  opcode : c'.opcode = c.opcode
  tag : c'.tag = c.tag

theorem State.Carries.start (h : s.cmd i c.receipt = some c) : s.Carries s i c c := ⟨rfl, rfl, h, rfl, rfl⟩

section
variable {c' : Cmd} (h : s.Carries w i c c')
include h

/-- What does not touch the instance. -/
theorem State.Carries.of_inst {v : State} (hv : v.insts[i] = w.insts[i]) : s.Carries v i c c' :=
  ⟨by rw [hv, h.others], by rw [hv, h.records], by
    unfold State.cmd
    rw [hv]
    exact h.cmd, h.opcode, h.tag⟩

theorem State.Carries.of_insts {v : State} (hv : v.insts = w.insts) : s.Carries v i c c' := h.of_inst (congrArg (fun x : Vector Inst 64 => x[i]) hv)

/-- A change of the instance that leaves the queue and the records. -/
theorem State.Carries.modInst {f : Inst → Inst} (hf : ∀ x, (f x).queue = x.queue ∧ (f x).records = x.records) : s.Carries (w.modInst i f) i c c' := by
  refine ⟨?_, ?_, ?_, h.opcode, h.tag⟩
  · rw [State.modInst_at, (hf _).1, h.others]
  · rw [State.modInst_at, (hf _).2, h.records]
  · unfold State.cmd
    rw [State.modInst_at, (hf _).1]
    exact h.cmd

/-- A change of the command. -/
theorem State.Carries.modCmd {f : Cmd → Cmd} (hf : ∀ c, (f c).receipt = c.receipt ∧ (f c).word = c.word ∧ (f c).tag = c.tag) :
    s.Carries (w.modCmd i c.receipt f) i c (f c') := by
  have hreceipt : ∀ c, (f c).receipt = c.receipt := fun c => (hf c).1
  refine ⟨?_, ?_, State.modCmd_cmd hreceipt h.cmd, ?_, ?_⟩
  · rw [State.modCmd_others _ hreceipt, h.others]
  · rw [State.modCmd_records, h.records]
  · rw [Cmd.opcode, (hf c').2.1]
    exact h.opcode
  · rw [(hf c').2.2, h.tag]

theorem State.Carries.setDetails (d0 d1 d2 d3 : Nat) : s.Carries (w.setDetails i c.receipt d0 d1 d2 d3) i c { c' with d := #v[d0, d1, d2, d3] } :=
  h.modCmd fun _ => ⟨rfl, rfl, rfl⟩

/-- The instance once the command is complete. -/
theorem State.Carries.completeWith_inst (status : Nat) (nailed : Bool) : ∃ (done : Stamp) (e t : Nat),
    (w.completeWith i c.receipt status nailed [] 0).insts[i] = { w.insts[i] with
      queue := (w.insts[i]).queue.filter (·.receipt != c.receipt)
      records := (w.insts[i]).records ++ [{ receipt := c.receipt, bytes := recordBytes c' i status nailed done, result := [], resultAddr := 0 }]
      energyTotal := e, idleSince := t } := by
  refine ⟨(w.stamp w.ridgeSrc).1, (w.insts[i]).energyTotal + c'.energy.floor.toNat, (w.stamp w.ridgeSrc).2.time.ts, ?_⟩
  obtain ⟨v, hv⟩ : ∃ v, v = (w.stamp w.ridgeSrc).2 := ⟨_, rfl⟩
  have heq : w.completeWith i c.receipt status nailed [] 0 = ((v.modInst i fun x => { x with
      queue := x.queue.filter (·.receipt != c.receipt)
      records := x.records ++ [{ receipt := c.receipt, bytes := recordBytes c' i status nailed (w.stamp w.ridgeSrc).1, result := [], resultAddr := 0 }]
      energyTotal := x.energyTotal + c'.energy.floor.toNat, idleSince := v.time.ts }).modIngest fun g =>
        { g with appends := g.appends.filter (·.receipt != c.receipt) }).journal 5 c.receipt status := by
    unfold State.completeWith
    rw [h.cmd, hv]
  have hinst : v.insts[i] = w.insts[i] := by rw [hv]; rfl
  rw [heq, ← hv, ← hinst]
  rw [State.journal_insts, State.modIngest_insts, State.modInst_at]

/-- A command that completes has ended. -/
theorem State.Carries.ended (status : Nat) (nailed : Bool) : Ended s (w.completeWith i c.receipt status nailed [] 0) i c status c'.d := by
  obtain ⟨done, e, t, hinst⟩ := h.completeWith_inst status nailed
  obtain ⟨hmagic, hopcode, hstatus, htag, hdetails⟩ := recordBytes_fields c' i status nailed done
  refine ⟨?_, { receipt := c.receipt, bytes := recordBytes c' i status nailed done, result := [], resultAddr := 0 }, ?_, rfl,
    length_recordBytes _ _ _ _ _, hmagic, hopcode.trans h.opcode, hstatus, htag.trans (by rw [h.tag]), hdetails⟩
  · rw [hinst]
    exact h.others
  · rw [hinst]
    exact congrArg (· ++ _) h.records

theorem State.Carries.complete (status : Nat) : Ended s (w.complete i c.receipt status) i c status c'.d := h.ended status false

end

/-! The start of a command (R521). -/

theorem State.noted_insts (s : State) (c : Cmd) : (s.noted c).insts = s.insts := by
  unfold State.noted
  split
  · rfl
  · rfl

theorem State.Carries.noted (h : s.cmd i c.receipt = some c) : s.Carries (s.noted c) i c c := (State.Carries.start h).of_insts (s.noted_insts c)

theorem State.noted_precheck (s : State) (c e : Cmd) : (s.noted c).precheck i e = s.precheck i e := by
  unfold State.noted
  split
  · rfl
  · rfl

theorem State.startCmd_refused {code : Nat} (h : s.precheck i c = some code) (body : State → Cmd → State) :
    s.startCmd i c body = (s.noted c).complete i c.receipt code := by
  have hpre : (s.noted c).precheck i c = some code := (s.noted_precheck c c).trans h
  show (match (s.noted c).precheck i c with
    | some code => (s.noted c).complete i c.receipt code
    | none => body (s.noted c) c) = _
  rw [hpre]

theorem State.startCmd_goesOn (h : s.precheck i c = none) (body : State → Cmd → State) : s.startCmd i c body = body (s.noted c) c := by
  have hpre : (s.noted c).precheck i c = none := (s.noted_precheck c c).trans h
  show (match (s.noted c).precheck i c with
    | some code => (s.noted c).complete i c.receipt code
    | none => body (s.noted c) c) = _
  rw [hpre]

theorem State.begin_starts {opcode : Nat} (h : s.starts i opcode c) (body : State → Cmd → State) : s.begin i opcode body = s.startCmd i c body := by
  unfold State.begin
  rw [h.1]

theorem State.begin_refused {opcode code : Nat} (h : s.starts i opcode c) (hpre : s.precheck i c = some code) (body : State → Cmd → State) :
    s.begin i opcode body = (s.noted c).complete i c.receipt code := by
  rw [State.begin_starts h, State.startCmd_refused hpre]

theorem State.begin_goesOn {opcode : Nat} (h : s.goesOn i opcode c) (body : State → Cmd → State) : s.begin i opcode body = body (s.noted c) c := by
  rw [State.begin_starts h.1, State.startCmd_goesOn h.2]

end
end Sys2Proof.Machine
end


namespace Sys2Proof.Machine

section
variable {s : State} {i : InstId} {c : Cmd} {f : FuncId}

/-! TASK_GO (R517 to R519). -/

/-- The command that TASK_GO queues of the function's registers. -/
def State.goCmd (s : State) (f : FuncId) (i : InstId) : Cmd :=
  { receipt := ⟨s.time.ts, i.val, ngetZ s.time.seqs i.val, s.tq8⟩, word := (s.host.funcs[f]).regs.cmd, tag := (s.host.funcs[f]).regs.tag
    args := (s.host.funcs[f]).regs.args.toList, stage := .queued, data := [], params := [], reads := []
    planSlot := none, settled := false, d := .replicate 4 0, energy := 0, planId := [], manager := s.managerInst i }

theorem State.modFunc_insts (s : State) (f : FuncId) (g : HFunc → HFunc) : (s.modFunc f g).insts = s.insts := rfl

/-- TASK_GO at a function in service with room queues one command and shows its receipt. -/
theorem State.taskGo_queues (hi : (s.host.funcs[f]).inst = some i) (h : s.taskState f = 0) :
    ((s.taskGo f 1).insts[i]).queue = (s.insts[i]).queue ++ [s.goCmd f i] ∧
      ((s.taskGo f 1).insts[i]).commands = (s.insts[i]).commands + 1 ∧ ((s.taskGo f 1).insts[i]).power = 0 ∧
      ((s.taskGo f 1).host.funcs[f]).regs.receipt = (s.goCmd f i).receipt ∧ ((s.taskGo f 1).host.funcs[f]).regs.lastStatus = 0 := by
  obtain ⟨v, hv⟩ : ∃ v, v = ((s.takeSeq i.val (receiptSeqs (s.host.funcs[f]).regs.cmd ((s.host.funcs[f]).regs.args.toList.getD 2 0))).2.modInst i fun x =>
      { x with queue := x.queue ++ [s.goCmd f i], commands := x.commands + 1, power := 0 }).modFunc f fun x =>
        { x with regs := { x.regs with receipt := (s.goCmd f i).receipt, lastStatus := 0 } } := ⟨_, rfl⟩
  have hgo : s.taskGo f 1 = if v.ridgeTakes then v.journal 1 (s.goCmd f i).receipt (s.host.funcs[f]).regs.cmd else v.noteDeferral := by
    unfold State.taskGo
    rw [if_neg (by decide), hi]
    dsimp only
    rw [if_neg (by rw [h]; decide), hv]
    rfl
  have hkeep : (s.taskGo f 1).insts = v.insts ∧ (s.taskGo f 1).host = v.host := by
    rw [hgo]
    split
    · exact ⟨rfl, rfl⟩
    · unfold State.noteDeferral
      split
      · exact ⟨rfl, rfl⟩
      · exact ⟨rfl, rfl⟩
  have hinst : v.insts[i] = { s.insts[i] with queue := (s.insts[i]).queue ++ [s.goCmd f i], commands := (s.insts[i]).commands + 1, power := 0 } := by
    rw [hv, State.modFunc_insts, State.modInst_at]
    rfl
  have hfunc : v.host.funcs[f] = { s.host.funcs[f] with regs := { (s.host.funcs[f]).regs with receipt := (s.goCmd f i).receipt, lastStatus := 0 } } := by
    rw [hv, State.modFunc_at]
    rfl
  rw [hkeep.1, hkeep.2, hinst, hfunc]
  exact ⟨rfl, rfl, rfl, rfl, rfl⟩

theorem State.taskGo_ignored (hi : (s.host.funcs[f]).inst = some i) (h : s.taskState f ≠ 0) : s.taskGo f 1 =
    (s.modFunc f fun x => { x with regs := { x.regs with lastStatus := if s.taskFull f then 0x3005 else 0x3001 } }).modInst i fun x =>
      { x with goIgnored := x.goIgnored + 1 } := by
  unfold State.taskGo
  rw [if_neg (by decide), hi]
  dsimp only
  rw [if_pos (bne_iff_ne.mpr h)]
  rfl

/-! The checks of R521. -/

theorem Cmd.precheck_reserved (s : State) (i : InstId) (h : c.word / 2 ^ 9 ≠ 0) : s.precheck i c = some 0x2002 := by
  unfold State.precheck Cmd.reservedOk
  rw [beq_eq_false_iff_ne.mpr h]
  rfl

/-- A command that fails a check ends with the check's code. -/
theorem State.refused_ended {code : Nat} (h : s.cmd i c.receipt = some c) {u : State} (hu : u = (s.noted c).complete i c.receipt code) :
    Ended s u i c code c.d := by
  rw [hu]
  exact (State.Carries.noted h).complete code

end

/-- Settles O35: the registers TASK_GO reads, and the one way in which a failed check ends a command of any opcode. -/
theorem taskGoAndChecks : Obligations.TaskGoAndChecks := by
  refine ⟨fun s f i hi => ?_, fun s i c code b b' => ⟨fun x hx hstarts hpre => ?_, fun hcreates hpre => ?_, fun hstart hcmd => ?_, fun hword => ?_⟩⟩
  · intro x regs
    refine ⟨fun h => ⟨s.taskGo f 1, s.goCmd f i, rfl, ?_⟩, fun h => congrArg Host.Outcome.next (State.taskGo_ignored hi h)⟩
    obtain ⟨hqueue, hcommands, hpower, hreceipt, hstatus⟩ := State.taskGo_queues hi h
    exact ⟨hqueue, hcommands, hpower, rfl, rfl, rfl, rfl, rfl, rfl, hreceipt, hstatus⟩
  · have hends : ∀ body, Ended s (s.begin i x.1 body) i c code c.d := fun body => State.refused_ended hstarts.2 (State.begin_refused hstarts hpre body)
    simp only [List.mem_cons, List.not_mem_nil, or_false] at hx
    rcases hx with rfl | rfl | rfl | rfl | rfl | rfl | rfl | rfl | rfl | rfl | rfl
    all_goals exact ⟨_, rfl, hends _⟩
  · refine ⟨_, congrArg Host.Outcome.next ?_, State.refused_ended (c := c) (code := code) hcreates.2 rfl⟩
    rw [hcreates.1]
    exact State.startCmd_refused hpre _
  · refine ⟨_, congrArg Host.Outcome.next ?_, (State.Carries.start hcmd).complete 0x2001⟩
    rw [hstart]
    rfl
  · exact Cmd.precheck_reserved s i hword

end Sys2Proof.Machine

-- ==== Sys2Proof/Proofs/PlainCommands.lean ====
section
/-! SUPPORT. Commands that read nothing of the host, and the delivery of their records (R520 to R531). -/

namespace Sys2Proof.Machine

set_option Elab.async false

section
variable {s w : State} {i : InstId} {c : Cmd} {f : FuncId}

/-! NOP, RELEASE_RESULT, FLUSH and CANCEL (R520, R522, R525, R526). -/

theorem State.writesBefore_noted (s : State) (i : InstId) (c : Cmd) (r : Stamp) : (s.noted c).writesBefore i r = s.writesBefore i r := by
  unfold State.writesBefore
  rw [State.noted_insts]

theorem Commands.nop_ends (h : s.goesOn i 1 c) : ∃ u, exec (.nop i) s = .next u ∧ Ended s u i c 0 c.d :=
  ⟨_, congrArg Host.Outcome.next (State.begin_goesOn h _), (State.Carries.noted h.1.2).complete 0⟩

/-- A release of a held result set, with what the other sets of the instance are. -/
theorem Commands.release_held (h : s.goesOn i 0x31 c) (hheld : (s.insts[i]).resets.any (fun r => r.held && r.offset == c.arg 0) = true) :
    ∃ u, exec (.releaseResult i) s = .next u ∧ Ended s u i c 0 c.d ∧
      (u.insts[i]).resets = (s.insts[i]).resets.filter fun r => !(r.held && r.offset == c.arg 0) := by
  have hcarry : s.Carries ((s.noted c).modInst i fun x => { x with resets := x.resets.filter fun r => !(r.held && r.offset == c.arg 0) }) i c c :=
    (State.Carries.noted h.1.2).modInst fun _ => ⟨rfl, rfl⟩
  refine ⟨_, congrArg Host.Outcome.next ((State.begin_goesOn h _).trans (if_pos ?_)), hcarry.complete 0, ?_⟩
  · rw [State.noted_insts]
    exact hheld
  · obtain ⟨done, e, t, hinst⟩ := hcarry.completeWith_inst 0 false
    refine (congrArg Inst.resets hinst).trans ?_
    rw [State.modInst_at, State.noted_insts]

theorem Commands.release_other (h : s.goesOn i 0x31 c) (hheld : (s.insts[i]).resets.any (fun r => r.held && r.offset == c.arg 0) = false) :
    ∃ u, exec (.releaseResult i) s = .next u ∧ Ended s u i c 0x2002 c.d := by
  refine ⟨_, congrArg Host.Outcome.next ((State.begin_goesOn h _).trans (if_neg ?_)), (State.Carries.noted h.1.2).complete 0x2002⟩
  rw [State.noted_insts]
  exact Bool.eq_false_iff.mp hheld

/-- A FLUSH waits, with D0 the earlier writes of its instance. -/
theorem Commands.flush_waits (h : s.goesOn i 2 c) : ∃ u, exec (.flush i) s = .next u ∧
    u.cmd i c.receipt = some { c with stage := .running, d := #v[(s.writesBefore i c.receipt).length, 0, 0, 0] } := by
  have hcarry := ((State.Carries.noted h.1.2).setDetails (s.writesBefore i c.receipt).length 0 0 0).modCmd (f := fun c => { c with stage := .running })
    fun _ => ⟨rfl, rfl, rfl⟩
  refine ⟨_, congrArg Host.Outcome.next ((State.begin_goesOn h _).trans ?_), hcarry.cmd⟩
  rw [State.writesBefore_noted]

theorem instsCacheBlind : CacheBlind State.insts :=
  ⟨fun _ _ => rfl, fun _ _ => rfl, fun _ _ _ => rfl, fun _ _ _ => rfl, fun _ _ _ _ => rfl⟩

theorem State.drainAll_insts (s : State) : s.drainAll.insts = s.insts := by
  unfold State.drainAll
  refine foldl_keeps State.insts _ (fun u m => ?_) _ _
  exact instsCacheBlind.drainChan u m _ _

theorem State.catalogueKeep_insts (s : State) (i : InstId) : (s.catalogueKeep i).insts = s.insts := rfl

/-- A FLUSH with nothing left to wait for ends. -/
theorem State.flushComplete_ends (hacts : s.ridgeActs = true) (hfind : (s.insts[i]).queue.find? (fun c => c.opcode == 2 && c.stage == .running) = some c)
    (hcmd : s.cmd i c.receipt = some c) (hkeep : s.afterKeepStamp c = false) (hwrites : s.writesBefore i c.receipt = [])
    (hcommits : s.dict.commits.any (fun w => 2 ^ 24 ≤ w.key && w.source == .inst i) = false) : Ended s (s.flushComplete i) i c 0 c.d := by
  have hcarry : s.Carries (s.drainAll.catalogueKeep i) i c c := (State.Carries.start hcmd).of_insts ((State.catalogueKeep_insts _ _).trans s.drainAll_insts)
  have heq : s.flushComplete i = (s.drainAll.catalogueKeep i).complete i c.receipt stOk := by
    unfold State.flushComplete
    rw [if_neg (by rw [hacts]; decide), hfind]
    dsimp only
    rw [if_neg (by rw [hkeep, hwrites, hcommits]; decide)]
  rw [heq]
  exact hcarry.complete 0

theorem Commands.cancel_eq (h : s.goesOn i 3 c) : exec (.cancel i) s =
    .next ((((((s.insts[i]).queue.filter c.selects).foldl (fun s e => s.abortCmd i e stAbortCancel) (s.noted c)).modInst i fun x =>
      { x with cancelled := x.cancelled + ((s.insts[i]).queue.filter c.selects).length }).setDetails i c.receipt
        ((s.insts[i]).queue.filter c.selects).length 0 0 0).complete i c.receipt stOk) := by
  refine congrArg Host.Outcome.next ((State.begin_goesOn h _).trans ?_)
  unfold State.cancel
  dsimp only
  rw [State.noted_insts]

/-- A CANCEL of nothing ends with D0 zero. -/
theorem Commands.cancel_none (h : s.goesOn i 3 c) (hnone : (s.insts[i]).queue.filter c.selects = []) :
    ∃ u, exec (.cancel i) s = .next u ∧ Ended s u i c 0 #v[0, 0, 0, 0] := by
  refine ⟨_, Commands.cancel_eq h, ?_⟩
  rw [hnone]
  exact (((State.Carries.noted h.1.2).modInst fun _ => ⟨rfl, rfl⟩).setDetails 0 0 0 0).complete 0

/-! Nail completion and delivery of the records (R527 to R531). -/

theorem State.catalogueUnit_insts (s : State) (c : Cmd) : (s.catalogueUnit c).insts = s.insts := rfl

theorem State.storeTable_insts (s : State) (id : Nat) : (s.storeTable id).insts = s.insts := by
  unfold State.storeTable
  refine Eq.trans ?_ (foldl_keeps State.insts (fun (s : State) (w : DictWrite) => s.storeWrite w.key (if w.value.isEmpty then none else some w.value))
    (fun _ _ => rfl) (s.dict.commits.filter fun w => w.key == tableKey id) s)
  rfl

/-- A Nail command whose conditions hold ends. -/
theorem State.nailComplete_ends {seq : Nat} (hacts : s.ridgeActs = true) (hseq : s.cmdSeq i seq = some c) (hcmd : s.cmd i c.receipt = some c)
    (hnail : c.nail = true) (hstage : c.stage = .running) (hsettled : c.settled = true) :
    Ended s (s.nailComplete i seq) i c (if c.opcode = 0x20 then c.appendStatus else 0) c.d := by
  have hcarry := State.Carries.start hcmd
  unfold State.nailComplete
  rw [if_neg (by rw [hacts]; decide), hseq]
  dsimp only
  rw [if_neg (by rw [hnail, hstage, hsettled]; decide)]
  by_cases h : c.opcode = 0x20
  · rw [if_pos (beq_iff_eq.mpr h), if_pos h]
    exact (hcarry.of_insts ((s.drainAll.catalogueUnit_insts c).trans s.drainAll_insts)).ended c.appendStatus true
  · rw [if_neg (by rw [beq_iff_eq]; exact h), if_neg h]
    exact (hcarry.of_insts (s.storeTable_insts _)).ended 0 true

/-- A message of a vector is sent, or noted; registers and instances stay. -/
theorem State.sendVector_quiet (s : State) (f : FuncId) (v : Fin 32) : ((s.sendVector f v).host.funcs[f]).regs = (s.host.funcs[f]).regs ∧
    (s.sendVector f v).insts = s.insts ∧ ∃ more, (s.sendVector f v).outs = s.outs ++ more := by
  unfold State.sendVector
  dsimp only
  split
  · exact ⟨rfl, rfl, [], (List.append_nil _).symm⟩
  split
  · split
    · exact ⟨by rw [State.modFunc_at]; rfl, rfl, [], (List.append_nil _).symm⟩
    split
    · exact ⟨by rw [State.modFunc_at], rfl, [], (List.append_nil _).symm⟩
    · exact ⟨by rw [State.modFunc_at]; rfl, rfl, _, rfl⟩
  · split
    · exact ⟨by rw [State.modFunc_at]; rfl, rfl, [], (List.append_nil _).symm⟩
    split
    · exact ⟨by rw [State.modFunc_at], rfl, [], (List.append_nil _).symm⟩
    · exact ⟨by rw [State.modFunc_at]; rfl, rfl, _, rfl⟩

/-- PRODUCED advances, the record leaves, and its cause is raised (R529). -/
theorem State.recordDelivered_sets (s : State) (i : InstId) (f : FuncId) :
    ((s.recordDelivered i f).insts[i]).records = (s.insts[i]).records.drop 1 ∧ ((s.recordDelivered i f).insts[i]).idleSince = s.time.ts ∧
      ((s.recordDelivered i f).host.funcs[f]).regs.produced = ((s.host.funcs[f]).regs.produced + 1) % 2 ^ 32 ∧
      bitAt ((s.recordDelivered i f).host.funcs[f]).regs.intCause 0 = true ∧ ∃ more, (s.recordDelivered i f).outs = s.outs ++ more := by
  obtain ⟨v, hv⟩ : ∃ v, v = (((s.modFunc f fun y => { y with regs := { y.regs with produced := (y.regs.produced + 1) % 2 ^ 32 } }).modInst i fun y =>
      { y with records := y.records.drop 1, idleSince := s.time.ts }).modFunc f fun x => { x with regs := { x.regs with intCause := x.regs.intCause ||| 2 ^ 0 } }) :=
    ⟨_, rfl⟩
  have hinst : v.insts[i] = { s.insts[i] with records := (s.insts[i]).records.drop 1, idleSince := s.time.ts } := by
    rw [hv, State.modFunc_insts, State.modInst_at]
    rfl
  have hregs : (v.host.funcs[f]).regs = { (s.host.funcs[f]).regs with
      produced := ((s.host.funcs[f]).regs.produced + 1) % 2 ^ 32, intCause := (s.host.funcs[f]).regs.intCause ||| 2 ^ 0 } := by
    have hhost : ∀ (u : State) (g : Inst → Inst), (u.modInst i g).host = u.host := fun _ _ => rfl
    rw [hv, State.modFunc_at, hhost, State.modFunc_at]
  have houts : v.outs = s.outs := by rw [hv]; rfl
  obtain ⟨en, k, hres⟩ : ∃ (en : Bool) (k : Fin 32), s.recordDelivered i f = if en then v.sendVector f k else v := ⟨_, _, by rw [hv]; rfl⟩
  have hquiet : ((s.recordDelivered i f).host.funcs[f]).regs = (v.host.funcs[f]).regs ∧ (s.recordDelivered i f).insts = v.insts ∧
      ∃ more, (s.recordDelivered i f).outs = v.outs ++ more := by
    rw [hres]
    cases en
    · exact ⟨rfl, rfl, [], (List.append_nil _).symm⟩
    · exact v.sendVector_quiet f k
  obtain ⟨hregs', hinsts', more, houts'⟩ := hquiet
  rw [hinsts', hinst, hregs', hregs]
  exact ⟨rfl, rfl, rfl, bitAt_or_two_pow _ 0, more, houts'.trans (by rw [houts])⟩

/-- A write to the host and the read-back of its last line (R32). -/
theorem State.hostWrite_readBack (s : State) (f : FuncId) (x n : Nat) (data : Bytes) : (s.hostWrite f x data).readBack f x (n + 1) =
    s.modOuts (· ++ [.hostWrite f (s.hostAddr f x) data, .hostRead f (s.hostAddr f ((x + n) / 64 * 64)) 64]) := by
  show { s with outs := (s.outs ++ [_]) ++ [_] } = { s with outs := s.outs ++ [_, _] }
  rw [List.append_assoc]
  rfl

/-- The writes and reads by which a record is delivered, step by step. -/
theorem State.deliverRecord_steps {r : CRec} {rest : List CRec} (hrec : (s.insts[i]).records = r :: rest) (hreach : s.hostReach i = .ok f)
    (hacts : s.ridgeActs = true) (hen : bitAt (s.host.funcs[f]).regs.cmplCfg 8 = true)
    (hroom : ((s.host.funcs[f]).regs.produced + 2 ^ 32 - (s.host.funcs[f]).regs.consumed) % 2 ^ 32 < (s.host.funcs[f]).regs.entries)
    (hres : r.result = []) (answered : Nat) :
    let g := (s.host.funcs[f]).regs
    let slot := g.cmplBase / 4096 % 2 ^ 28 * 4096 + 128 * (g.produced % g.entries)
    let word := g.cmplIndex / 8 % 2 ^ 37 * 8
    let first := (s.hostWrite f slot r.bytes).readBack f slot 128
    let second := (first.hostWrite f word (toLE 8 ((g.produced + 1) % 2 ^ 32))).readBack f word 8
    s.deliverRecord i answered = if answered < 1 then first else if answered < 2 then second else second.recordDelivered i f := by
  intro g slot word first second
  unfold State.deliverRecord
  dsimp only
  rw [hrec, hreach]
  dsimp only
  rw [if_neg (by rw [hacts, hen]; simp; omega), hres]
  rfl

end

/-- Settles O36, command by command, and step by step of a record's delivery. -/
theorem plainCommandsAndCompletion : Obligations.PlainCommandsAndCompletion := by
  refine ⟨fun s i c => ?_, fun s i c seq answered r rest f => ?_⟩
  · intro held writes
    exact ⟨Commands.nop_ends, Commands.release_held, Commands.release_other, Commands.flush_waits,
      fun hacts hfind hcmd hkeep hwrites hcommits => ⟨_, rfl, State.flushComplete_ends hacts hfind hcmd hkeep hwrites hcommits⟩,
      Commands.cancel_eq, Commands.cancel_none⟩
  · intro x g
    refine ⟨fun hacts hseq hcmd hnail hstage hsettled => ⟨_, rfl, State.nailComplete_ends hacts hseq hcmd hnail hstage hsettled⟩,
      fun hrec hreach hacts hen hroom hres => ?_, fun hfree hpower hidle hdeep => ?_, fun hpower hidle hdeep hqueries => ?_⟩
    · intro slot word first second
      obtain ⟨u, hu, hfirst⟩ : ∃ u, u = (s.hostWrite f slot r.bytes).readBack f slot 128 ∧ u = s.modOuts (· ++ first) :=
        ⟨_, rfl, s.hostWrite_readBack f slot 127 r.bytes⟩
      obtain ⟨v, hv, hsecond⟩ : ∃ v, v = (u.hostWrite f word (toLE 8 ((g.produced + 1) % 2 ^ 32))).readBack f word 8 ∧
          v = s.modOuts (· ++ first ++ second) := by
        refine ⟨_, rfl, (u.hostWrite_readBack f word 7 _).trans ?_⟩
        rw [hfirst]
        rfl
      have hsteps : s.deliverRecord i answered = if answered < 1 then u else if answered < 2 then v else v.recordDelivered i f := by
        rw [hv, hu]
        exact State.deliverRecord_steps hrec hreach hacts hen hroom hres answered
      refine ⟨fun h0 => ?_, fun h1 => ?_, fun h2 => ?_⟩
      · exact congrArg Host.Outcome.next (hsteps.trans ((if_pos (by omega)).trans hfirst))
      · exact congrArg Host.Outcome.next (hsteps.trans ((if_neg (by omega)).trans ((if_pos (by omega)).trans hsecond)))
      · obtain ⟨hrecords, hidle, hproduced, hcause, more, houts⟩ := v.recordDelivered_sets i f
        have hinsts : v.insts = s.insts ∧ v.time = s.time ∧ v.host = s.host ∧ v.outs = s.outs ++ first ++ second := by
          rw [hsecond]
          exact ⟨rfl, rfl, rfl, rfl⟩
        obtain ⟨hvinsts, hvtime, hvhost, hvouts⟩ := hinsts
        refine ⟨_, congrArg Host.Outcome.next (hsteps.trans ((if_neg (by omega)).trans (if_neg (by omega)))), ?_, ?_, ?_, hcause, more, ?_⟩
        · rw [hrecords, hvinsts, show (s.insts[i]).records = r :: rest from hrec]
          rfl
        · rw [hidle, hvtime]
        · rw [hproduced, hvhost]
        · rw [houts, hvouts]
    · refine ⟨_, congrArg Host.Outcome.next (if_pos ?_), rfl, State.modInst_at _ _ _⟩
      rw [bne_iff_ne.mpr hfree, show (s.insts[i]).power = 0 from hpower, show (s.insts[i]).idle = true from hidle, decide_eq_true hdeep]
      rfl
    · refine ⟨_, congrArg Host.Outcome.next (if_pos ?_), rfl, State.modInst_at _ _ _⟩
      rw [show (s.insts[i]).power = 1 from hpower, show (s.insts[i]).idle = true from hidle, hdeep, hqueries]
      rfl

end Sys2Proof.Machine
end

