-- ==== Sys2Proof/Proofs/TableCommands.lean ====
section
/-! SUPPORT. CREATE_TABLE, ALTER_TABLE and DROP_TABLE (R67 to R72, R520). -/

namespace Sys2Proof.Machine

set_option Elab.async false

section
variable {s w : State} {i : InstId} {c : Cmd} {f : FuncId}

/-! Where a command's own meaning begins, and a completion, seen from elsewhere. -/

/-- The journal entry of a command changes the Finial's record alone. -/
theorem State.noted_view {γ : Type} (g : State → γ) (hg : ∀ s f, g (State.modFinial s f) = g s) (s : State) (c : Cmd) : g (s.noted c) = g s := by
  unfold State.noted
  split
  · rfl
  · exact hg s fun _ => (s.journal 1 c.receipt c.word).finial

theorem State.complete_tables (s : State) (i : InstId) (r : Stamp) (status : Nat) : (s.complete i r status).tables = s.tables := by
  unfold State.complete State.completeWith
  split
  · rfl
  · rfl

theorem State.withHost_ok (h : s.hostReach i = .ok f) (go : State → FuncId → State) : s.withHost i c go = go s f := by
  unfold State.withHost
  rw [h]

theorem tablesCacheBlind : CacheBlind State.tables :=
  ⟨fun _ _ => rfl, fun _ _ => rfl, fun _ _ _ => rfl, fun _ _ _ => rfl, fun _ _ _ _ => rfl⟩

/-- Stores of segments' descriptors change no table and no instance. -/
theorem State.storeFront_keeps (s : State) (id no : Nat) : (s.storeFront id no).tables = s.tables ∧ (s.storeFront id no).insts = s.insts := by
  unfold State.storeFront
  split
  · exact ⟨rfl, rfl⟩
  · rename_i t g _
    generalize (segImage t g false).take 1 ++ (segImage t g true).take 1 = l
    exact ⟨foldl_keeps State.tables _ (fun u (x : Nat × Bytes) => tablesCacheBlind.sysWrite u x.1 x.2) l s,
      foldl_keeps State.insts _ (fun u (x : Nat × Bytes) => instsCacheBlind.sysWrite u x.1 x.2) l s⟩

theorem State.storeFronts_keep (s : State) (id : Nat) (l : List Segment) :
    (l.foldl (fun s g => s.storeFront id g.no) s).tables = s.tables ∧ (l.foldl (fun s g => s.storeFront id g.no) s).insts = s.insts :=
  ⟨foldl_keeps State.tables _ (fun u (g : Segment) => (u.storeFront_keeps id g.no).1) l s,
    foldl_keeps State.insts _ (fun u (g : Segment) => (u.storeFront_keeps id g.no).2) l s⟩

/-- A table command without the Nail flag ends once it has done its work, with its TABLE_ID as D0 (R520, R527). -/
theorem State.Carries.tableDone (h : s.Carries w i c c) (hnail : c.nail = false) (id : Nat) :
    Ended s (w.tableDone i c id) i c 0 #v[id, 0, 0, 0] ∧ (w.tableDone i c id).tables = w.tables := by
  have heq : w.tableDone i c id = (w.setDetails i c.receipt id 0 0 0).complete i c.receipt stOk := by
    unfold State.tableDone
    exact if_neg (by rw [hnail]; exact Bool.false_ne_true)
  rw [heq]
  exact ⟨(h.setDetails id 0 0 0).complete 0, (State.complete_tables _ _ _ _).trans rfl⟩

/-! CREATE_TABLE (R67 to R71). -/

/-- A CREATE_TABLE whose descriptor is permitted makes an empty table. -/
theorem State.Carries.createTable {n : Nat} {b : Bytes} {d : TableDesc} (h : s.Carries w i c c) (hparse : TableDesc.parse b = (d, n, true))
    (howner : d.owner = i.val) (hpos : 0 < d.id) (hid : d.id < 0xFF00) (hdesc : w.descOk d = true) (hroom : w.tables.tables.length < 4096)
    (hnew : w.table d.id = none) (hnail : c.nail = false) : Ended s (w.createTable i c n b) i c 0 #v[d.id, 0, 0, 0] ∧
      (w.createTable i c n b).tables.tables = nput w.tables.tables d.id (Table.fresh d) := by
  obtain ⟨v, hv⟩ : ∃ v, v = (w.modTables fun t => { t with tables := nput t.tables d.id (Table.fresh d) }).commitTable i d.id b := ⟨_, rfl⟩
  have heq : w.createTable i c n b = v.tableDone i c d.id := by
    unfold State.createTable
    rw [hparse]
    dsimp only
    rw [hnew, if_neg (by simp), if_neg (by rw [howner, hdesc]; simp; omega), hv]
  have hcarry : s.Carries v i c c := h.of_insts (by rw [hv]; rfl)
  obtain ⟨hended, htables⟩ := hcarry.tableDone hnail d.id
  rw [heq, htables]
  exact ⟨hended, by rw [hv]; rfl⟩

/-! ALTER_TABLE and DROP_TABLE (R71, R72). -/

theorem nget_nmod {α : Type} (m : NMap α) (k j : Nat) (f : α → α) : nget (nmod m k f) j = if j = k then (nget m j).map f else nget m j := by
  induction m with
  | nil => exact (ite_self _).symm
  | cons p r ih =>
    obtain ⟨x, v⟩ := p
    have hcons : nmod ((x, v) :: r) k f = (x, if x == k then f v else v) :: nmod r k f := by
      unfold nmod
      rw [List.map_cons]
      dsimp only
      split
      · rfl
      · rfl
    rw [hcons]
    simp only [nget, ih, beq_iff_eq]
    split_ifs
    all_goals simp_all

/-- An ALTER_TABLE whose descriptor is permitted alters its table. -/
theorem State.Carries.alterTable {n id : Nat} {b : Bytes} {d : TableDesc} {t : Table} (h : s.Carries w i c c) (hparse : TableDesc.parse b = (d, n, true))
    (htable : w.table id = some t) (hfixed : d.sameFixed t.desc = true) (hdesc : w.descOk d = true) (hnail : c.nail = false) :
    Ended s (w.alterTable i c n id b) i c 0 #v[id, 0, 0, 0] ∧ (w.alterTable i c n id b).tables.tables = nmod w.tables.tables id (·.alter d) := by
  obtain ⟨v, hv⟩ : ∃ v, v = (w.modTable id (·.alter d)).commitTable i id b := ⟨_, rfl⟩
  have heq : w.alterTable i c n id b = (t.segs.foldl (fun s g => s.storeFront id g.no) v).tableDone i c id := by
    unfold State.alterTable
    rw [hparse]
    dsimp only
    rw [htable]
    dsimp only
    rw [if_neg (by rw [hfixed, hdesc]; simp), hv]
  obtain ⟨htables, hinsts⟩ := v.storeFronts_keep id t.segs
  have hcarry : s.Carries (t.segs.foldl (fun s g => s.storeFront id g.no) v) i c c := h.of_insts (hinsts.trans (by rw [hv]; rfl))
  obtain ⟨hended, hdone⟩ := hcarry.tableDone hnail id
  rw [heq, hdone, htables]
  exact ⟨hended, by rw [hv]; rfl⟩

/-- The descriptor of a table command as it arrives from its host. -/
theorem descArrived_ok {desc : Bytes} (h : c.arg 1 % 2 ^ 32 ≤ desc.length) : descArrived c desc = .ok (desc.take (c.arg 1 % 2 ^ 32)) := by
  unfold descArrived
  exact if_neg (Nat.not_lt.mpr h)

end

/-- Settles O37, command by command. -/
theorem tableCommands : Obligations.TableCommands := by
  intro s i c desc f n id d t len arrived
  refine ⟨fun hcreates hpre harr howner hpos hid hdesc hroom hnew hnail => ?_, fun hgo harr hid htable hdenied hfixed hdesc hnail => ?_,
    fun hgo hid hdenied => ?_, fun hgo hid htable => ?_, fun htable hdropping hfree => ?_⟩
  · obtain ⟨hcols, hreach, hlen, hparse⟩ := harr
    have htables := State.noted_view State.tables (fun _ _ => rfl) s c
    obtain ⟨hended, hput⟩ := (State.Carries.noted hcreates.2).createTable hparse howner hpos hid
      ((State.noted_view (·.descOk d) (fun _ _ => rfl) s c).trans hdesc) (by rw [htables]; exact hroom)
      ((State.noted_view (·.table d.id) (fun _ _ => rfl) s c).trans hnew) hnail
    rw [htables] at hput
    refine ⟨_, congrArg Host.Outcome.next ?_, hended, ?_, fun k hk => ?_⟩
    · rw [hcreates.1]
      refine (State.startCmd_goesOn hpre _).trans ?_
      rw [hcols]
      refine (State.withHost_ok ((State.noted_view (·.hostReach i) (fun _ _ => rfl) s c).trans hreach) _).trans ?_
      rw [descArrived_ok hlen]
    · exact (congrArg (nget · d.id) hput).trans (nget_nput_self _ _ _)
    · exact (congrArg (nget · k) hput).trans (nget_nput_ne _ _ hk)
  · obtain ⟨hcols, hreach, hlen, hparse⟩ := harr
    have hnoted := State.noted_view (·.table id) (fun _ _ => rfl) s c
    obtain ⟨hended, hmod⟩ := (State.Carries.noted hgo.1.2).alterTable hparse (hnoted.trans htable) hfixed
      ((State.noted_view (·.descOk d) (fun _ _ => rfl) s c).trans hdesc) hnail
    rw [State.noted_view State.tables (fun _ _ => rfl) s c] at hmod
    refine ⟨_, congrArg Host.Outcome.next ?_, hended, ?_, fun k hk => ?_⟩
    · refine (State.begin_goesOn hgo _).trans ?_
      dsimp only
      rw [hcols, hid, (State.noted_view (·.tableDenied i id c.manager) (fun _ _ => rfl) s c).trans hdenied]
      refine (State.withHost_ok ((State.noted_view (·.hostReach i) (fun _ _ => rfl) s c).trans hreach) _).trans ?_
      rw [descArrived_ok hlen]
    · refine (congrArg (nget · id) hmod).trans ((nget_nmod _ _ _ _).trans ?_)
      rw [if_pos rfl, show nget s.tables.tables id = some t from htable]
      rfl
    · exact (congrArg (nget · k) hmod).trans ((nget_nmod _ _ _ _).trans (if_neg hk))
  · refine congrArg Host.Outcome.next ((State.begin_goesOn hgo _).trans ?_)
    dsimp only
    rw [hid, (State.noted_view (·.tableDenied i id false) (fun _ _ => rfl) s c).trans hdenied]
  · have hdenied : (s.noted c).tableDenied i id false = some 0x2002 := by
      refine (State.noted_view (·.tableDenied i id false) (fun _ _ => rfl) s c).trans ?_
      unfold State.tableDenied
      rw [htable]
      rfl
    refine ⟨_, congrArg Host.Outcome.next ((State.begin_goesOn hgo _).trans ?_), (State.Carries.noted hgo.1.2).complete 0x2002⟩
    dsimp only
    rw [hid, hdenied]
  · refine congrArg Host.Outcome.next (congrArg State.finishDrops ?_)
    unfold State.dropComplete
    rw [htable]
    exact if_pos (by rw [hdropping, hfree]; rfl)

end Sys2Proof.Machine
end

