-- ==== Sys2Proof/Proofs/AppendStages.lean ====
section
/-! SUPPORT. APPEND, stage by stage (R108, R116 to R122, R143). -/

namespace Sys2Proof.Machine

set_option Elab.async false

section
variable {s s' w : State} {i : InstId} {c : Cmd} {f : FuncId}

/-! The start of an APPEND (R117, R143). -/

/-- A counter that counts one more. -/
theorem State.bump_ro (s : State) (index sub : Nat) : (s.bump index sub 1).ro index sub = s.ro index sub + 1 := by
  show ngetZ (nputZ s.dict.ro (objKey index sub) (s.ro index sub + 1)) (objKey index sub) = _
  unfold nputZ ngetZ
  rw [if_neg (by simp), nget_nput_self]
  rfl

theorem State.complete_ro (s : State) (i : InstId) (r : Stamp) (status : Nat) : (s.complete i r status).dict.ro = s.dict.ro := by
  unfold State.complete State.completeWith
  split
  · rfl
  · rfl

/-- An APPEND that R117 refuses ends with the check's code; a refusal under R108 is counted. -/
theorem Commands.append_refused {code : Nat} (h : s.goesOn i 0x20 c) (hpending : s.isPending c = false) (hcheck : s.appendCheck i c = some code) :
    ∃ u, exec (.append i) s = .next u ∧ Ended s u i c code c.d ∧ (code = 0x3004 → u.ro 0x1082 4 = s.ro 0x1082 4 + 1) := by
  have hcarry := State.Carries.noted h.1.2
  obtain ⟨v, hv⟩ : ∃ v, v = if code == stQuota then (s.noted c).bump 0x1082 4 1 else s.noted c := ⟨_, rfl⟩
  have hvcarry : s.Carries v i c c := hcarry.of_insts (by
    rw [hv]
    split
    · rfl
    · rfl)
  refine ⟨v.complete i c.receipt code, congrArg Host.Outcome.next ((State.begin_goesOn h _).trans ?_), hvcarry.complete code, fun hquota => ?_⟩
  · rw [if_neg (by rw [State.noted_view (·.isPending c) (fun _ _ => rfl) s c, hpending]; exact Bool.false_ne_true),
      (State.noted_view (·.appendCheck i c) (fun _ _ => rfl) s c).trans hcheck, hv]
  · have hro : v.ro 0x1082 4 = s.ro 0x1082 4 + 1 := by
      rw [hv, if_pos (by rw [hquota]; rfl), State.bump_ro]
      exact congrArg (· + 1) (State.noted_view (·.ro 0x1082 4) (fun _ _ => rfl) s c)
    exact (congrArg (fun m => ngetZ m (objKey 0x1082 4)) (v.complete_ro i c.receipt code)).trans hro

/-- The state in which the header of an APPEND is asked for: it is pending. -/
def State.appendPending (s : State) (c : Cmd) : State :=
  if s.isPending c then s.noted c else (s.noted c).modIngest fun g =>
    { g with appends := g.appends ++ [⟨c.receipt, c.arg 1 % 2 ^ 16, s.time.ts, false⟩] }

theorem State.appendPending_isPending (s : State) (c : Cmd) : (s.appendPending c).isPending c = true := by
  unfold State.appendPending
  split
  · rename_i h
    exact (State.noted_view (·.isPending c) (fun _ _ => rfl) s c).trans h
  · show (((s.noted c).ingest.appends ++ [_]).any (·.receipt == c.receipt)) = true
    rw [List.any_append, List.any_cons, beq_self_eq_true, Bool.true_or, Bool.or_true]

theorem State.appendPending_hostReach (s : State) (c : Cmd) (i : InstId) : (s.appendPending c).hostReach i = s.hostReach i := by
  have hnoted := State.noted_view (·.hostReach i) (fun _ _ => rfl) s c
  unfold State.appendPending
  split
  · exact hnoted
  · exact hnoted

/-- An APPEND that is pending, or that passes R117, asks for its header. -/
theorem Commands.append_asks (h : s.goesOn i 0x20 c) (hpass : s.isPending c = true ∨ s.appendCheck i c = none) :
    exec (.append i) s = .next ((s.appendPending c).appendAsk i c) := by
  have hnoted := State.noted_view (·.isPending c) (fun _ _ => rfl) s c
  refine congrArg Host.Outcome.next ((State.begin_goesOn h _).trans ?_)
  unfold State.appendPending
  by_cases hpending : s.isPending c = true
  · rw [if_pos (hnoted.trans hpending), if_pos hpending]
  · rw [if_neg (by rw [show (s.noted c).isPending c = s.isPending c from hnoted]; exact hpending), if_neg hpending,
      (State.noted_view (·.appendCheck i c) (fun _ _ => rfl) s c).trans (hpass.resolve_left hpending)]
    rw [show (s.noted c).time = s.time from State.noted_view State.time (fun _ _ => rfl) s c]

/-! The header and the payload (R116, R119 to R122). -/

theorem State.freeCmdTags_insts (s : State) (i : InstId) (seq : Nat) : (s.freeCmdTags i seq).insts = s.insts := rfl

theorem State.appendHeader_agrees {seq : Nat} {header : Bytes} (hread : s.readingCmd i seq 0x20 0 = some c) (hreach : s.hostReach i = .ok f)
    (hcode : headerCode c header = none) :
    s.appendHeader i seq header = s.modCmd i c.receipt fun c => { c with stage := .reading 1, data := header.take 64 } := by
  unfold State.appendHeader
  rw [hread, hreach]
  dsimp only
  rw [hcode]

theorem State.appendHeader_refused {seq code : Nat} {header : Bytes} (hread : s.readingCmd i seq 0x20 0 = some c) (hreach : s.hostReach i = .ok f)
    (hcode : headerCode c header = some code) : s.appendHeader i seq header = (s.freeCmdTags i seq).complete i c.receipt code := by
  unfold State.appendHeader
  rw [hread, hreach]
  dsimp only
  rw [hcode]

/-- An APPEND that fails with its payload: its staging is discarded, and D2 says how many bytes came (R120). -/
theorem State.Carries.appendFails (h : s.Carries w i c c) (n code : Nat) :
    Ended s (((w.putStaging i []).setDetails i c.receipt 0 0 n 0).complete i c.receipt code) i c code #v[0, 0, n, 0] ∧
      ((((w.putStaging i []).setDetails i c.receipt 0 0 n 0).complete i c.receipt code).insts[i]).staging = [] := by
  have hcarry := (h.modInst (f := fun x => { x with staging := [] }) fun _ => ⟨rfl, rfl⟩).setDetails 0 0 n 0
  refine ⟨hcarry.complete code, ?_⟩
  obtain ⟨done, e, t, hinst⟩ := hcarry.completeWith_inst code false
  refine (congrArg Inst.staging hinst).trans ?_
  unfold State.setDetails State.modCmd
  rw [State.modInst_at, State.modInst_at]

theorem State.appendPayload_short {seq : Nat} {payload : Bytes} (hread : s.readingCmd i seq 0x20 1 = some c) (hreach : s.hostReach i = .ok f)
    (hlen : payload.length < c.arg 3 % 2 ^ 32) : s.appendPayload i seq payload =
      (((s.freeCmdTags i seq).putStaging i []).setDetails i c.receipt 0 0 payload.length 0).complete i c.receipt 0x2008 := by
  unfold State.appendPayload
  rw [hread, hreach]
  dsimp only
  rw [if_pos hlen]
  rfl

/-- A payload that came whole is staged, per stream of its table (R122). -/
def State.staged (s : State) (i : InstId) (seq : Nat) (c : Cmd) (d : TableDesc) (payload : Bytes) : State :=
  (s.freeCmdTags i seq).putStaging i (deinterleaved d c.rows payload)

/-- The unit of an APPEND's rows: the stamps after its receipt, in order (R116). -/
def appendUnit (c : Cmd) (rows : List (List Val)) : List (Nat × SRow) :=
  (rows.zip (List.range rows.length)).map fun (v, k) =>
    (c.arg 1 % 2 ^ 16, (⟨⟨c.receipt.ts, c.receipt.src, (c.receipt.seq + 1 + k) % 2 ^ 24, c.receipt.tq⟩, v, 0⟩ : SRow))

section
variable {seq : Nat} {payload : Bytes} {t : Table} (hread : s.readingCmd i seq 0x20 1 = some c) (hreach : s.hostReach i = .ok f)
  (hlen : c.arg 3 % 2 ^ 32 ≤ payload.length) (htable : s.table (c.arg 1 % 2 ^ 16) = some t)
include hread hreach hlen htable

theorem State.appendPayload_whole : s.appendPayload i seq payload =
    match stagedRows t.desc c.rows (deinterleaved t.desc c.rows payload) with
    | none => (((s.staged i seq c t.desc payload).putStaging i []).setDetails i c.receipt 0 0 (c.arg 3 % 2 ^ 32) 0).complete i c.receipt 0x2002
    | some rows =>
      let (w, o) := (s.staged i seq c t.desc payload).enterUnit c.receipt (appendUnit c rows)
      (((w.modIngest fun g => { g with appends := g.appends.filter (·.receipt != c.receipt) }).setDetails i c.receipt
        (c.rows - o.dropped) (o.admitted + o.dropped * 2 ^ 32) (c.arg 3 % 2 ^ 32) 0).modCmd i c.receipt fun c =>
          { c with stage := .running, data := [] }).settleAppends := by
  have htable' : (s.freeCmdTags i seq).table (c.arg 1 % 2 ^ 16) = some t := htable
  have hstaging : ((s.staged i seq c t.desc payload).insts[i]).staging = deinterleaved t.desc c.rows payload := by
    unfold State.staged State.putStaging
    rw [State.modInst_at]
  unfold State.appendPayload
  rw [hread, hreach]
  dsimp only
  rw [if_neg (Nat.not_lt.mpr hlen), htable']
  dsimp only [Option.map_some]
  rw [show (((s.freeCmdTags i seq).putStaging i (deinterleaved t.desc c.rows payload)).insts[i]).staging = _ from hstaging]
  cases stagedRows t.desc c.rows (deinterleaved t.desc c.rows payload) with
  | none => rfl
  | some rows => rfl

end

end

/-- Settles O38, stage by stage. -/
theorem appendStages : Obligations.AppendStages := by
  intro s s' i c f seq code header payload rows t id
  refine ⟨Commands.append_refused, fun hgo hpass => ?_, fun hread hcmd hreach => ⟨fun hcode => ?_, fun hcode => ?_⟩,
    fun hread hcmd hreach => ⟨fun hshort => ?_, fun hlen htable hbad => ?_, fun hlen htable hrows => ?_⟩⟩
  · intro w
    have hasks : exec (.append i) s = .next (w.appendAsk i c) := Commands.append_asks hgo hpass
    have hwhost : w.hostReach i = s.hostReach i := s.appendPending_hostReach c i
    refine ⟨s.appendPending_isPending c, fun hreach => ?_, fun hreach hask => ?_, fun hreach hask => ?_⟩
    · refine hasks.trans (congrArg Host.Outcome.next ?_)
      unfold State.appendAsk State.withHost
      rw [hwhost, hreach]
    · refine hasks.trans (congrArg Host.Outcome.next ((State.withHost_ok (hwhost.trans hreach) _).trans ?_))
      rw [hask]
    · refine hasks.trans (congrArg Host.Outcome.next ((State.withHost_ok (hwhost.trans hreach) _).trans ?_))
      rw [hask]
  · exact ⟨_, congrArg Host.Outcome.next (State.appendHeader_agrees hread hreach hcode), ((State.Carries.start hcmd).modCmd
      (f := fun c => { c with stage := .reading 1, data := header.take 64 }) fun _ => ⟨rfl, rfl, rfl⟩).cmd⟩
  · exact ⟨_, congrArg Host.Outcome.next (State.appendHeader_refused hread hreach hcode),
      ((State.Carries.start hcmd).of_insts (State.freeCmdTags_insts _ _ _)).complete code⟩
  · exact ⟨_, congrArg Host.Outcome.next (State.appendPayload_short hread hreach hshort),
      (((State.Carries.start hcmd).of_insts (State.freeCmdTags_insts _ _ _)).appendFails _ _).1⟩
  · have hstaged : s.Carries (s.staged i seq c t.desc payload) i c c :=
      ((State.Carries.start hcmd).of_insts (s.freeCmdTags_insts i seq)).modInst
        (f := fun x => { x with staging := deinterleaved t.desc c.rows payload }) fun _ => ⟨rfl, rfl⟩
    refine ⟨_, congrArg Host.Outcome.next ((State.appendPayload_whole hread hreach hlen htable).trans ?_), hstaged.appendFails _ _⟩
    rw [hbad]
  · refine ⟨_, _, rfl, congrArg Host.Outcome.next ((State.appendPayload_whole hread hreach hlen htable).trans ?_)⟩
    rw [hrows]
    rfl

end Sys2Proof.Machine
end

