-- ==== Sys2Proof/Proofs/QueryCommands.lean ====
section
/-! SUPPORT. RUN_PLAN and the query commands (R176, R261, R262, R284). -/

namespace Sys2Proof.Machine

set_option Elab.async false

section
variable {s s' w : State} {i : InstId} {c : Cmd} {f : FuncId} {desc image : Bytes}

/-! RUN_PLAN (R176). -/

theorem Commands.runPlan_asks (h : s.goesOn i 0x30 c) (hsize : imageSizeOk (c.arg 1 % 2 ^ 32) = true) (harea : s.planAreaFree i (c.arg 1 % 2 ^ 32) = true)
    (hreach : s.hostReach i = .ok f) (hask : (s.noted c).askHost i f c.receipt.seq (c.arg 0) (c.arg 1 % 2 ^ 32) = some s') :
    exec (.runPlan i) s = .next (s'.modCmd i c.receipt fun c => { c with stage := .reading 0 }) := by
  refine congrArg Host.Outcome.next ((State.begin_goesOn h _).trans ?_)
  dsimp only
  rw [if_neg (by rw [hsize, show (s.noted c).planAreaFree i (c.arg 1 % 2 ^ 32) = true from
    (State.noted_view (·.planAreaFree i (c.arg 1 % 2 ^ 32)) (fun _ _ => rfl) s c).trans harea]; decide)]
  refine (State.withHost_ok ((State.noted_view (·.hostReach i) (fun _ _ => rfl) s c).trans hreach) _).trans ?_
  rw [hask]

theorem Commands.runPlan_refused (h : s.goesOn i 0x30 c)
    (hbad : imageSizeOk (c.arg 1 % 2 ^ 32) = false ∨ s.planAreaFree i (c.arg 1 % 2 ^ 32) = false) :
    exec (.runPlan i) s = .next ((s.noted c).refusePlan i c.receipt 0x2002 noOffset) := by
  have harea := State.noted_view (·.planAreaFree i (c.arg 1 % 2 ^ 32)) (fun _ _ => rfl) s c
  refine congrArg Host.Outcome.next ((State.begin_goesOn h _).trans (if_pos ?_))
  rcases hbad with hbad | hbad
  · rw [hbad]
    rfl
  · rw [show (s.noted c).planAreaFree i (c.arg 1 % 2 ^ 32) = false from harea.trans hbad, Bool.not_false, Bool.or_true]

/-! The query commands (R261, R262, R284). -/

theorem Commands.registerQuery_eq (h : s.goesOn i 0x38 c) (hreach : s.hostReach i = .ok f) :
    exec (.registerQuery i desc image) s = .next ((s.noted c).registerQuery i c desc image) :=
  congrArg Host.Outcome.next ((State.begin_goesOn h _).trans
    (State.withHost_ok ((State.noted_view (·.hostReach i) (fun _ _ => rfl) s c).trans hreach) _))

theorem Commands.unregisterQuery_other (h : s.goesOn i 0x39 c) (hnone : s.ownQuery i (c.arg 0) = none) :
    ∃ u, exec (.unregisterQuery i) s = .next u ∧ Ended s u i c 0x2004 c.d := by
  refine ⟨_, congrArg Host.Outcome.next ((State.begin_goesOn h _).trans ?_), (State.Carries.noted h.1.2).complete 0x2004⟩
  dsimp only
  rw [(State.noted_view (·.ownQuery i (c.arg 0)) (fun _ _ => rfl) s c).trans hnone]
  rfl

theorem Commands.unregisterQuery_own {q : Query} (h : s.goesOn i 0x39 c) (hsome : s.ownQuery i (c.arg 0) = some q) :
    exec (.unregisterQuery i) s = .next ((((s.noted c).retireQuery (c.arg 0) 0).setDetails i c.receipt (c.arg 0) 0 0 0).complete i c.receipt 0) := by
  refine congrArg Host.Outcome.next ((State.begin_goesOn h _).trans ?_)
  dsimp only
  rw [(State.noted_view (·.ownQuery i (c.arg 0)) (fun _ _ => rfl) s c).trans hsome]
  rfl

theorem State.complete_batten (s : State) (i : InstId) (r : Stamp) (status : Nat) : (s.complete i r status).batten = s.batten := by
  unfold State.complete State.completeWith
  split
  · rfl
  · rfl

/-- A query's descriptor that came short ends its REGISTER_QUERY. -/
theorem State.registerQuery_short (h : desc.length < 256) : w.registerQuery i c desc image = w.complete i c.receipt 0x2008 := by
  unfold State.registerQuery
  exact if_pos h

/-- A query whose image passes its checks waits with what it read. -/
theorem State.registerQuery_waits (hlen : 256 ≤ desc.length) (hsize : imageSizeOk (QDesc.parse (desc.take 256)).imageBytes = true)
    (harea : w.planAreaFree i (QDesc.parse (desc.take 256)).imageBytes = true)
    (hcheck : (w.countHit i (QDesc.parse (desc.take 256)).imageBytes image).checkImage i (QDesc.parse (desc.take 256)).imageBytes true image true = none) :
    w.registerQuery i c desc image = ((w.countHit i (QDesc.parse (desc.take 256)).imageBytes image).modCmd i c.receipt fun c =>
      { c with
        stage := .waiting, data := desc.take 256 ++ image.take (QDesc.parse (desc.take 256)).imageBytes
        reads := (parseImage (image.take (QDesc.parse (desc.take 256)).imageBytes)).trefs.map (·.id)
        planId := imgPlanId (image.take (QDesc.parse (desc.take 256)).imageBytes) }).admitPlans := by
  unfold State.registerQuery
  rw [if_neg (Nat.not_lt.mpr hlen)]
  dsimp only
  rw [if_neg (by rw [hsize, harea]; decide), hcheck]

/-- RETARGET_QUERY replaces ring, index and vector of a query of the instance (R261). -/
theorem State.Carries.retargetQuery {q : Query} (h : s.Carries w i c c) (hown : w.ownQuery i (c.arg 1) = some q) (hlen : 256 ≤ desc.length)
    (hdesc : retargetDescOk (desc.take 256) = true)
    (hring : ((w.plan q.planSlot).map (·.claims.resultBytes)).getD 0 + 128 ≤ (QDesc.parse (desc.take 256)).ringBytes / 2) :
    Ended s (w.retargetQuery i c desc) i c 0 #v[c.arg 1, 0, 0, 0] ∧
      (w.retargetQuery i c desc).batten.queries = nmod w.batten.queries (c.arg 1) fun q => { q with
        ringAddr := (QDesc.parse (desc.take 256)).ringAddr, ringBytes := (QDesc.parse (desc.take 256)).ringBytes
        indexAddr := (QDesc.parse (desc.take 256)).indexAddr, vector := (QDesc.parse (desc.take 256)).vector, held := false, rebound := false } := by
  obtain ⟨v, hv⟩ : ∃ v, v = w.modQuery (c.arg 1) fun q => { q with
      ringAddr := (QDesc.parse (desc.take 256)).ringAddr, ringBytes := (QDesc.parse (desc.take 256)).ringBytes
      indexAddr := (QDesc.parse (desc.take 256)).indexAddr, vector := (QDesc.parse (desc.take 256)).vector, held := false, rebound := false } := ⟨_, rfl⟩
  have heq : w.retargetQuery i c desc = (v.setDetails i c.receipt (c.arg 1) 0 0 0).complete i c.receipt stOk := by
    unfold State.retargetQuery
    dsimp only
    rw [hown]
    dsimp only
    rw [if_neg (Nat.not_lt.mpr hlen), if_neg (by rw [hdesc, decide_eq_false (Nat.not_lt.mpr hring)]; decide), hv]
  have hcarry : s.Carries v i c c := h.of_insts (by rw [hv]; rfl)
  rw [heq, State.complete_batten]
  exact ⟨(hcarry.setDetails (c.arg 1) 0 0 0).complete 0, by rw [hv]; rfl⟩

end

/-- Settles O39, command by command. -/
theorem planAndQueryCommands : Obligations.PlanAndQueryCommands := by
  intro s s' i c f q desc image d
  refine ⟨Commands.runPlan_asks, Commands.runPlan_refused, fun hgo hreach => ⟨fun hshort => ?_, fun hlen hsize harea hcheck => ?_⟩,
    fun hgo => ⟨Commands.unregisterQuery_other hgo, Commands.unregisterQuery_own hgo⟩, fun hgo hreach hown hlen hdesc hring => ?_⟩
  · exact ⟨_, (Commands.registerQuery_eq hgo hreach).trans (congrArg Host.Outcome.next (State.registerQuery_short hshort)),
      (State.Carries.noted hgo.1.2).complete 0x2008⟩
  · refine (Commands.registerQuery_eq hgo hreach).trans (congrArg Host.Outcome.next (State.registerQuery_waits hlen hsize ?_ hcheck))
    exact (State.noted_view (·.planAreaFree i d.imageBytes) (fun _ _ => rfl) s c).trans harea
  · obtain ⟨hended, hqueries⟩ := (State.Carries.noted hgo.1.2).retargetQuery
      ((State.noted_view (·.ownQuery i (c.arg 1)) (fun _ _ => rfl) s c).trans hown) hlen hdesc
      (by rw [show (s.noted c).plan q.planSlot = s.plan q.planSlot from State.noted_view (·.plan q.planSlot) (fun _ _ => rfl) s c]; exact hring)
    rw [State.noted_view State.batten (fun _ _ => rfl) s c] at hqueries
    refine ⟨_, congrArg Host.Outcome.next ((State.begin_goesOn hgo _).trans ?_), hended, hqueries⟩
    exact State.withHost_ok ((State.noted_view (·.hostReach i) (fun _ _ => rfl) s c).trans hreach) _

end Sys2Proof.Machine
end

