-- ==== Sys2Proof/Proofs/PortEvents.lean ====
section
/-! SUPPORT. Links, freezes, resets and tags of a host port (R489, R499 to R511). -/

namespace Sys2Proof.Machine

set_option Elab.async false

/-- Which host ports have their link up. -/
def State.links (s : State) : Vector Bool 4 := s.host.ports.map (·.linkUp)

theorem State.linkUp_of_links {s u : State} (h : u.links = s.links) (p : PortId) : (u.host.ports[p]).linkUp = (s.host.ports[p]).linkUp := by
  have hp := congrArg (fun v : Vector Bool 4 => v[p.val]) h
  simp only [State.links, Vector.getElem_map] at hp
  exact hp

theorem State.links_of_filed {s u : State} (h : s.Filed u) : u.links = s.links := by rw [State.links, h.ports, State.links]

section
variable (s : State) (p : PortId) (f : FuncId) (i : InstId)

theorem State.modPort_links {g : HPort → HPort} (hg : ∀ h, (g h).linkUp = h.linkUp) : (s.modPort p g).links = s.links := by
  apply Vector.ext
  intro k hk
  by_cases e : p.val = k <;> simp [State.links, State.modPort, e, hg]

theorem State.raise_links (src : Nat) (r : ErrRec) : (s.raise src r).links = s.links := State.links_of_filed (s.logged_raise src r).filed

theorem State.eventCause_links (bit : Nat) : (s.eventCause f bit).links = s.links := State.links_of_filed (s.logged_eventCause f bit).filed

theorem State.chanStop_links (c : ChanId) (code : Nat) : (s.chanStop c code).links = s.links := by
  unfold State.chanStop
  dsimp only
  have hforget : ((List.finRange 4).foldl (fun s p => s.modPort p (·.forget c)) s).links = s.links :=
    foldl_keeps State.links _ (fun (u : State) p => u.modPort_links (g := (·.forget c)) p fun _ => rfl) _ _
  split
  · exact hforget
  · exact (State.raise_links _ _ _).trans hforget

theorem State.complete_links (r : Stamp) (status : Nat) : (s.complete i r status).links = s.links := by
  unfold State.complete State.completeWith
  split <;> rfl

theorem State.endReads_links (code : Nat) : (s.endReads i code).links = s.links :=
  foldl_keeps State.links (fun u (c : Cmd) => u.complete i c.receipt code) (fun u c => u.complete_links i c.receipt code) _ s

theorem State.quarantine_links (which : FuncId → Bool) : (s.quarantine p which).links = s.links := s.modPort_links p fun _ => rfl

theorem State.portCount_links (g : PortCounters → PortCounters) : (s.portCount p g).links = s.links := s.modPort_links p fun _ => rfl

theorem State.freezeCause_links : (s.freezeCause p).links = s.links :=
  foldl_keeps State.links _ (fun u f => u.eventCause_links f 3) _ s

theorem State.lostHost_links (code : Nat) : (s.lostHost f code).links = s.links := by
  have hchans : (s.stopFuncChans (· == f) code).links = s.links := by
    unfold State.stopFuncChans
    refine foldl_keeps State.links _ (fun (u : State) c => ?_) _ _
    dsimp only
    split
    · exact u.chanStop_links c code
    · rfl
  unfold State.lostHost
  dsimp only
  split
  · exact (State.endReads_links _ _ code).trans hchans
  · exact hchans

theorem State.persistInst_links : (s.persistInst i).links = s.links := by
  have hput : ∀ (u : State) (key : Nat) (v : Option Bytes), (if nget u.dict.store key == v then u else u.storeWrite key v).links = u.links := by
    intro u key v
    split <;> rfl
  exact (hput _ _ _).trans (hput _ _ _)

theorem State.instDrained_links : (s.instDrained i).links = s.links := by
  unfold State.instDrained
  dsimp only
  split
  · rfl
  split
  · unfold State.unbindNow
    split
    · rfl
    · exact (State.persistInst_links _ i).trans (State.eventCause_links _ _ 5)
  · rfl

theorem State.settleFreezing_links : (s.settleFreezing p).links = s.links :=
  foldl_keeps State.links _ (fun u i => u.instDrained_links i) _ s

/-- A freeze leaves the links as they are (R505). -/
theorem State.freezePort_links (cause : Nat) : (s.freezePort p cause).links = s.links := by
  unfold State.freezePort
  dsimp only
  split
  · exact s.modPort_links p fun _ => rfl
  have hhost : ∀ (l : List FuncId) (u : State), (l.foldl (fun s f => s.lostHost f stPortFrozen) u).links = u.links :=
    fun l u => foldl_keeps State.links _ (fun u f => u.lostHost_links f stPortFrozen) l u
  refine (State.raise_links _ _ _).trans ?_
  refine (State.freezeCause_links _ p).trans ?_
  refine (State.settleFreezing_links _ p).trans ?_
  refine (hhost _ _).trans ?_
  refine (State.quarantine_links _ p _).trans ?_
  refine (State.portCount_links _ p _).trans ?_
  refine Eq.trans (State.modPort_links _ p fun _ => ?_) ?_
  · rfl
  refine (State.links_of_filed (State.filed_stamp _ _)).trans (s.modPort_links p fun _ => ?_)
  rfl

theorem State.linkReset_links : (s.linkReset f).links = s.links := rfl

/-- A function as a link-down leaves it: its registers at reset but for what its binding keeps. -/
def HFunc.LinkReset (x : HFunc) : Prop := ∃ inst regs, x = { HFunc.reset with inst := inst, regs := regs }

theorem State.linkReset_at : ((s.linkReset f).host.funcs[f]).LinkReset := by
  refine ⟨(s.host.funcs[f]).inst, if (s.host.funcs[f]).inst.isSome then (s.host.funcs[f]).regs else .reset, ?_⟩
  exact s.modFunc_at f fun x => { HFunc.reset with inst := x.inst, regs := if x.inst.isSome then x.regs else .reset }

theorem State.linkReset_keeps {g : FuncId} (h : (s.host.funcs[g]).LinkReset) : ((s.linkReset f).host.funcs[g]).LinkReset := by
  by_cases e : g = f
  · rw [e]; exact s.linkReset_at f
  · have hg : (s.linkReset f).host.funcs[g] = s.host.funcs[g] :=
      s.modFunc_other (fun x => { HFunc.reset with inst := x.inst, regs := if x.inst.isSome then x.regs else .reset }) e
    rw [hg]
    exact h

theorem State.linkReset_all (l : List FuncId) {g : FuncId} (h : g ∈ l ∨ (s.host.funcs[g]).LinkReset) :
    ((l.foldl (fun s f => s.linkReset f) s).host.funcs[g]).LinkReset := by
  induction l generalizing s with
  | nil => exact h.resolve_left (by simp)
  | cons f l ih =>
    refine ih (s.linkReset f) ?_
    rcases h with h | h
    · rcases List.mem_cons.mp h with rfl | h
      · exact .inr (s.linkReset_at g)
      · exact .inl h
    · exact .inr (s.linkReset_keeps f h)

theorem mem_portFuncs (f : FuncId) : f ∈ portFuncs (funcPort f) := by
  unfold portFuncs
  refine List.mem_map.mpr ⟨⟨f.val % 16, by omega⟩, List.mem_finRange _, Fin.ext ?_⟩
  simp only [funcOf, funcPort]
  omega

/-- A link-down resets the functions of the port, whatever the freeze before it did (R505). -/
theorem State.linkDown_up (cause : Nat) (h : (s.host.ports[p]).linkUp = true) : ((s.linkDown p cause).host.ports[p]).linkUp = false ∧
    ∀ g, funcPort g = p → ((s.linkDown p cause).host.funcs[g]).LinkReset := by
  unfold State.linkDown
  rw [if_neg (by rw [h]; decide)]
  constructor
  · have hreset : ∀ (l : List FuncId) (u : State), (l.foldl (fun s f => s.linkReset f) u).links = u.links :=
      fun l u => foldl_keeps State.links _ (fun u f => u.linkReset_links f) l u
    refine (State.linkUp_of_links ((hreset _ _).trans (State.freezePort_links _ p cause)) p).trans ?_
    rw [State.modPort_at]
  · rintro g rfl
    exact State.linkReset_all _ _ (.inl (mem_portFuncs g))

theorem State.resetFunc_at : ∃ inst until', (s.resetFunc f).host.funcs[f] = { HFunc.reset with inst := inst, flrUntil := until' } := by
  unfold State.resetFunc
  dsimp only
  generalize State.instRecord _ f stAbortReset = v
  refine ⟨(v.host.funcs[f]).inst, v.time.ts + 10000000, ?_⟩
  exact v.modFunc_at f fun x => { HFunc.reset with inst := x.inst, flrUntil := v.time.ts + 10000000 }

theorem State.functionReset_vf (h : funcIndex f ≠ 0) : ∃ inst until',
    (s.functionReset f).host.funcs[f] = { HFunc.reset with inst := inst, flrUntil := until' } := by
  have hpf : (f == funcOf (funcPort f) 0) = false := by
    refine beq_eq_false_iff_ne.mpr fun e => h ?_
    rw [e]
    simp [funcOf, funcIndex]
  unfold State.functionReset
  dsimp only
  rw [hpf]
  exact s.resetFunc_at f

end

/-- Settles O34: a link-down by the functions it resets, the others by what the port, the function or the tag holds. -/
theorem portEvents : Obligations.PortEvents := by
  unfold Obligations.PortEvents
  refine ⟨fun s p f cause speed width ltssm seq => ?links, fun s p f tag status due till use c poisoned data => ?tags⟩
  case links =>
    dsimp only
    refine ⟨fun he hf => ?up, fun h => ?downDown, fun h => ⟨_, rfl, s.linkDown_up p cause h⟩, fun h => ?still, fun h => ⟨_, rfl, rfl⟩,
      fun h => ⟨_, ?hold, rfl⟩, fun hp hseq => ⟨fun h => ?refused, fun hstate hup hs hf => ⟨_, rfl, ?released⟩⟩⟩
    case up =>
      refine congrArg Host.Outcome.next (if_pos ?_)
      rw [he, hf]; rfl
    case downDown =>
      refine congrArg Host.Outcome.next ?_
      unfold State.linkDown
      rw [if_pos (by rw [h]; rfl)]
      rfl
    case still =>
      refine congrArg Host.Outcome.next ?_
      unfold State.freezePort
      dsimp only
      refine if_pos ?_
      rw [State.modPort_at, State.portCount, State.modPort_at]
      exact bne_iff_ne.mpr h
    case hold => exact congrArg Host.Outcome.next (if_pos (by rw [h]; rfl))
    case refused =>
      subst hp
      refine congrArg Host.Outcome.next ?_
      unfold State.frzRelease State.releasePort
      dsimp only
      rw [Nat.mod_eq_of_lt hseq]
      by_cases hi : funcIndex f = 0
      · rw [if_pos (beq_iff_eq.mpr hi), if_pos]
        · rfl
        · simpa [hi, or_assoc] using h
      · exact if_neg (by simpa using hi)
    case released =>
      subst hp
      refine congrArg Host.Outcome.next ?_
      unfold State.frzRelease State.releasePort
      dsimp only
      rw [Nat.mod_eq_of_lt hseq, if_pos (beq_iff_eq.mpr hf), if_neg]
      rw [beq_eq_false_iff_ne.mpr hstate, hup, hs]
      simp
  case tags =>
    dsimp only
    refine ⟨fun h => ?bme, fun h => ?bmeOff, fun h => ⟨_, rfl, s.functionReset_vf f h⟩, fun hp => ⟨fun ht => ?unexpected,
      fun ht => ⟨_, rfl, ?late⟩, fun ht hst hpo => ?chan, fun ht hbad huse => ?failed, fun ht hpo => ?gone⟩, fun ht => ⟨_, ?timeout, rfl⟩,
      fun ht => ?freed⟩
    case bme => exact congrArg Host.Outcome.next (if_neg (by rw [h]; decide))
    case bmeOff => exact congrArg Host.Outcome.next (if_pos (by rw [h]; rfl))
    case unexpected =>
      subst hp
      refine congrArg Host.Outcome.next ?_
      unfold State.cplReceived
      dsimp only
      rw [ht]
    case late =>
      subst hp
      unfold State.cplReceived
      dsimp only
      rw [ht]
      generalize hu : (s.stamp (srcPort (funcPort f))).2 = u
      have hports : u.host.ports = s.host.ports := hu ▸ rfl
      have hat : ((u.portCount (funcPort f) fun c => { c with late := c.late + 1 }).host.ports[funcPort f]) =
          { u.host.ports[funcPort f] with counters := { (u.host.ports[funcPort f]).counters with
            late := (u.host.ports[funcPort f]).counters.late + 1 } } := by rw [State.portCount, State.modPort_at]
      rw [hports] at hat
      exact ⟨congrArg (·.counters.late) hat, congrArg (·.tags) hat⟩
    case chan =>
      subst hp
      refine congrArg Host.Outcome.next ?_
      unfold State.cplReceived
      dsimp only
      rw [ht, hst, hpo]
      rfl
    case failed =>
      subst hp
      refine congrArg Host.Outcome.next ?_
      unfold State.cplReceived
      dsimp only
      rw [ht]
      cases use with
      | gone => exact absurd rfl huse
      | chan c => exact if_pos (by simpa using hbad)
      | command i n => exact if_pos (by simpa using hbad)
    case gone =>
      subst hp
      refine congrArg Host.Outcome.next ?_
      unfold State.cplReceived
      dsimp only
      rw [ht, hpo]
      rfl
    case timeout =>
      refine congrArg Host.Outcome.next ?_
      unfold State.cplTimedOut
      rw [ht]
      rfl
    case freed =>
      refine congrArg Host.Outcome.next ?_
      rw [ht]
end Sys2Proof.Machine
end

