-- ==== Sys2Proof/Proofs/BundleEnds.lean ====
section
/-! SUPPORT. What time and tiles report to the Batten, and the end of a bundle (R295 to R305, R329, R349). -/

namespace Sys2Proof.Machine

set_option Elab.async false

section
variable {s : State} {t : TileId} {d : BDesc}

/-- Nothing stands at a key that a filter leaves out. -/
theorem nget_filter_none {α : Type} (m : NMap α) {q : Nat × α → Bool} {k : Nat} (h : ∀ v, q (k, v) = false) : nget (m.filter q) k = none := by
  induction m with
  | nil => rfl
  | cons p m ih =>
    rw [List.filter_cons]
    split
    case isFalse => exact ih
    case isTrue hp =>
      have hne : p.1 ≠ k := fun e => by rw [← e] at h; exact Bool.noConfusion (hp.symm.trans (h p.2))
      obtain ⟨j, v⟩ := p
      rw [nget, if_neg (by simpa using hne)]
      split
      · rfl
      · exact ih

theorem State.courseUp_tileTo (s : State) (t : TileId) (x : TileState) (c : CourseId) : (s.tileTo t x).courseUp c = s.courseUp c := by
  unfold State.tileTo
  dsimp only
  split <;> rfl

theorem State.restoreContext_none (h : (s.batten.tiles[t]).run.ctx = false) (d : BDesc) : s.restoreContext t d = s := by
  unfold State.restoreContext
  dsimp only
  rw [h]
  rfl

theorem State.courseUp_clearScratch (s : State) (t : TileId) (inst : Nat) (c : CourseId) : (s.clearScratch t inst).courseUp c = s.courseUp c := by
  unfold State.clearScratch
  split <;> rfl

/-- A tile's scratch after the instance it runs for is set (R329). -/
theorem State.clearScratch_at (s : State) (t : TileId) (inst : Nat) : (s.clearScratch t inst).batten.tiles[t] =
      { s.batten.tiles[t] with lastInst := some inst } ∧
    ((s.clearScratch t inst).tiles[t]).pendDispatch = (s.tiles[t]).pendDispatch ∧
    ((s.batten.tiles[t]).lastInst ≠ some inst →
      ∀ a, a < (s.tiles[t]).scrMon.toNat * 4096 → nget ((s.clearScratch t inst).tiles[t]).scratch a = none) := by
  unfold State.clearScratch
  split
  case isTrue h =>
    have hlast := beq_iff_eq.mp h
    refine ⟨?_, rfl, fun hne => absurd hlast hne⟩
    generalize s.batten.tiles[t] = y at hlast ⊢
    cases y
    cases hlast
    rfl
  case isFalse h =>
    have hat := s.modTile_at t fun c => { c with scratch := c.scratch.filter fun x => c.scrMon.toNat * 4096 ≤ x.1 }
    refine ⟨State.modSched_at _ t _, (congrArg Tile.pendDispatch hat :), fun _ a ha => ?_⟩
    refine (congrArg (fun c : Tile => nget c.scratch a) hat).trans ?_
    exact nget_filter_none _ fun v => decide_eq_false (by omega)

end

/-- Settles O57, by what stands on the tile; a bundle that ends by the code it ends with. -/
theorem battenEventsAndBundleEnds : Obligations.BattenEventsAndBundleEnds := by
  unfold Obligations.BattenEventsAndBundleEnds
  refine ⟨fun s t r => ?events, fun s s' t d status kernels lost => ?ends⟩
  case events =>
    dsimp only
    refine ⟨fun he hr => ?reservation, fun he hp hr => ?after, fun h => ?timeout, fun h => ?save, fun h hup hctx => ?ack, fun h => ?reset⟩
    case reservation =>
      refine congrArg Host.Outcome.next ?_
      unfold State.reservationExpiry
      rw [if_neg (by rw [he]; decide), hr]
    case after =>
      refine congrArg Host.Outcome.next ?_
      unfold State.preemptAfter
      rw [if_neg (by rw [he, hp]; decide), hr]
    case timeout =>
      refine congrArg Host.Outcome.next ?_
      unfold State.preemptionTimeout
      dsimp only
      rw [if_neg (by rw [h]; decide)]
    case save =>
      refine congrArg Host.Outcome.next ?_
      unfold State.saveLimit
      dsimp only
      rw [if_neg (by rw [h]; decide)]
    case ack =>
      have hat := State.modTile_at (s.tileTo t .running) t fun c => { c.l1Flash with pendDispatch := false }
      generalize hv : ((s.tileTo t .running).modTile t fun c => { c.l1Flash with pendDispatch := false }) = v at hat
      have hsched : v.batten.tiles[t] = { s.batten.tiles[t] with state := .running, changed := s.time.ts } := hv ▸ s.tileTo_sched t .running
      have hup' : v.courseUp (courseOf t) = true := by rw [← hv]; exact (s.courseUp_tileTo t .running _).trans hup
      rw [State.tileTo_tiles] at hat
      have hdesc : (v.batten.tiles[t]).desc = (s.batten.tiles[t]).desc := by rw [hsched]
      cases hd : (s.batten.tiles[t]).desc with
      | none =>
        refine ⟨v, congrArg Host.Outcome.next ?_, by rw [hsched], by rw [hat], fun d hd' => nomatch hd'⟩
        unfold State.dispatchAck
        rw [if_neg (by rw [h]; decide)]
        dsimp only
        rw [hv, hdesc, hd]
        dsimp only
        rw [hup', Bool.true_or, if_pos rfl]
      | some d =>
        obtain ⟨hb, hpend, hscr⟩ := v.clearScratch_at t d.inst
        refine ⟨v.clearScratch t d.inst, congrArg Host.Outcome.next ?_, by rw [hb, hsched], by rw [hpend, hat], ?_⟩
        · unfold State.dispatchAck
          rw [if_neg (by rw [h]; decide)]
          dsimp only
          rw [hv, hdesc, hd]
          dsimp only
          have hrest : (v.clearScratch t d.inst).restoreContext t d = v.clearScratch t d.inst :=
            State.restoreContext_none (by rw [hb, hsched]; exact hctx) d
          refine (congrArg (fun u : State => (if u.courseUp (courseOf t) || (u.batten.tiles[t]).state != .running then u
            else u.preemptTile t true).pumpPlans) hrest).trans ?_
          refine congrArg State.pumpPlans (if_pos ?_)
          rw [State.courseUp_clearScratch, hup', Bool.true_or]
        · rintro d' hd'
          obtain rfl := Option.some.inj hd'
          refine ⟨by rw [hb], fun hne a ha => hscr ?_ a ?_⟩
          · rw [hsched]; exact hne
          · rw [hat]; exact ha
    case reset =>
      refine ⟨(s.tileTo t (s.restState t)).modTile t fun c => { c with state := .monitor, pc := c.resetPc },
        congrArg Host.Outcome.next ?_, ?_, ?_, ?_⟩
      · unfold State.tileResetDone
        rw [if_neg (by rw [h]; decide)]
      · exact (congrArg TileSched.state (s.tileTo_sched t (s.restState t)) :)
      · exact congrArg Tile.state (State.modTile_at (s.tileTo t (s.restState t)) t fun c => { c with state := .monitor, pc := c.resetPc })
      · refine (congrArg Tile.pc (State.modTile_at (s.tileTo t (s.restState t)) t fun c => { c with state := .monitor, pc := c.resetPc })).trans ?_
        rw [State.tileTo_tiles]
  case ends =>
    dsimp only
    intro hd hp hdrop
    refine ⟨fun w hw hwp hst => ⟨_, rfl, ?yield⟩, fun hst hend => ⟨fun h0 hwf hpo htf hsl => ?ended, fun w h0 hrun hc => ?ok⟩⟩
    case yield =>
      refine congrArg Host.Outcome.next ?_
      unfold State.tileYield
      dsimp only
      rw [hd]
      dsimp only
      rw [if_neg (by rw [hst]; decide), hdrop]
      dsimp only
      rw [show stAbortCancel = 0x6001 from rfl, ← hw, if_neg (by decide), if_neg (by rw [hwp]; decide)]
    case ended =>
      refine congrArg Host.Outcome.next ?_
      unfold State.tileDone
      dsimp only
      rw [hd]
      dsimp only
      rw [if_neg (by rcases hst with h | h <;> rw [h] <;> decide), hdrop]
      dsimp only
      rw [hend, hp, beq_eq_false_iff_ne.mpr h0]
      have hbne : (status != 0) = true := bne_iff_ne.mpr h0
      have hb0 : (status == 0) = false := beq_eq_false_iff_ne.mpr h0
      have hbwf : (status == stWindowFault) = false := beq_eq_false_iff_ne.mpr hwf
      have hbpo : (status == stPoisoned) = false := beq_eq_false_iff_ne.mpr hpo
      have hbtf : (status == stTileFault) = false := beq_eq_false_iff_ne.mpr htf
      have hbsl : (status == stStackLimit) = false := beq_eq_false_iff_ne.mpr hsl
      simp only [List.isEmpty_nil, Bool.not_true, Bool.false_eq_true, if_false, Bool.or_self, Bool.false_and, hbne, if_true, hb0, hbwf, hbpo,
        hbtf, hbsl, Option.getD_none]
    case ok =>
      refine congrArg Host.Outcome.next ?_
      unfold State.tileDone
      dsimp only
      rw [hd]
      dsimp only
      rw [if_neg (by rcases hst with h | h <;> rw [h] <;> decide), hdrop]
      dsimp only
      rw [hend, hp, h0]
      have hok : ∀ code : Nat, code ≠ 0 → ((0 : Nat) == code) = false := fun code h => beq_eq_false_iff_ne.mpr h.symm
      simp only [List.isEmpty_nil, Bool.not_true, Bool.false_eq_true, if_false, Bool.or_self, Bool.not_false, Bool.true_and, if_true,
        bne_self_eq_false, beq_self_eq_true, hrun, hc, Option.getD_none, hok stWindowFault (by decide), hok stPoisoned (by decide),
        hok stTileFault (by decide), hok stStackLimit (by decide)]
end Sys2Proof.Machine
end

