-- ==== Sys2Proof/Proofs/FiringDelivery.lean ====
section
/-! SUPPORT. Delay entries fall due and firings are delivered (R281, R282, R289, R313). -/

namespace Sys2Proof.Machine

set_option Elab.async false

section
variable {s : State} {cq n used : Nat} {q : Query} {f : Firing} {fn : FuncId}

theorem State.delayInsert_queries (s : State) (e : DEntry) : (s.delayInsert e).2.batten.queries = s.batten.queries := by
  cases h : freeEntry (s.delayList e.onDist) with
  | none => rw [State.delayInsert_full h]; rfl
  | some k =>
    rw [State.delayInsert_free h]
    cases e.onDist <;> rfl

/-- An entry put back leaves the queries (R313). -/
theorem State.rearm_queries (s : State) (k : Nat) (e : DEntry) : (s.rearm k e).batten.queries = s.batten.queries := by
  unfold State.rearm
  extract_lets v back put
  split
  · rfl
  split
  · rfl
  split
  · rfl
  have hins : (v.delayInsert back).2.batten.queries = s.batten.queries := v.delayInsert_queries back
  split
  case h_1 heq => rw [heq] at hins; exact hins
  case h_2 => rfl

/-- The host writes of a firing's record, each with its read-back (R32, R289). -/
def recordOuts (s : State) (fn : FuncId) (a : Nat) (bytes : Bytes) : List Out :=
  [.hostWrite fn (s.hostAddr fn a) bytes, .hostRead fn (s.hostAddr fn ((a + bytes.length - 1) / 64 * 64)) 64]

theorem State.hostWrite_readBack_length (s : State) (fn : FuncId) (a : Nat) (bytes : Bytes) :
    (s.hostWrite fn a bytes).readBack fn a bytes.length = s.modOuts (· ++ recordOuts s fn a bytes) := by
  show { s with outs := (s.outs ++ [_]) ++ [_] } = { s with outs := s.outs ++ [_, _] }
  rw [List.append_assoc]
  rfl

/-- A query once the `n`th of its firings is delivered. -/
def Query.delivered (q : Query) (n prod : Nat) (f : Firing) : Query :=
  { q with firings := q.firings.eraseIdx n, produced := prod, skippedSince := 0, held := false, nFirings := q.nFirings + 1,
           nAmends := q.nAmends + f.amend.toNat }

/-- What the delivery of a firing leaves once its record and the new PRODUCED are read back (R289). -/
def State.firingDelivered (s : State) (cq n prod : Nat) (q : Query) (f : Firing) (fn : FuncId) : State :=
  ((((s.sendVector fn (Fin.ofNat 32 q.vector)).bump 0x2100 2 1).bump 0x2100 3 f.amend.toNat).modInst (Fin.ofNat 64 q.inst) fun x =>
    { x with energyTotal := x.energyTotal + f.energy }).modQuery cq (·.delivered n prod f)

theorem State.firingDelivered_outs (s : State) (cq n prod : Nat) (q : Query) (f : Firing) (fn : FuncId) :
    ∃ more, (s.firingDelivered cq n prod q f fn).outs = s.outs ++ more := (s.sendVector_quiet fn (Fin.ofNat 32 q.vector)).2.2

theorem State.firingDelivered_queries (s : State) (cq n prod : Nat) (q : Query) (f : Firing) (fn : FuncId) :
    (s.firingDelivered cq n prod q f fn).batten.queries = nmod s.batten.queries cq (·.delivered n prod f) := by
  have hb := (s.logged_sendVector fn (Fin.ofNat 32 q.vector)).batten
  exact congrArg (fun b : BattenSt => nmod b.queries cq (·.delivered n prod f)) hb

variable (hacts : s.ridgeActs = true) (hq : s.query cq = some q) (hf : s.queryFunc q = some fn)
  (hn : q.firings.findIdx? (fun f => f.phase == .complete) = some n)
include hacts hq hf hn

theorem State.deliverFiring_revoked (answered : Nat) : s.deliverFiring cq none answered =
    (s.modQuery cq fun q => { q with held := true }).raise s.ridgeSrc
      { ErrRec.blank with code := 0x5002, severity := .contained, scope := 4, scopeId := q.inst, inst := q.inst } := by
  unfold State.deliverFiring
  rw [if_neg (by rw [hacts]; decide), hq]
  dsimp only
  rw [hf, hn]
  rfl

/-- No room in the ring for a record: the firing waits (R282). -/
theorem State.deliverFiring_full (hfir : q.firings[n]? = some f)
    (hfull : q.ringBytes < q.produced - used + (firingBytes cq q.skippedSince f).length) (answered : Nat) :
    s.deliverFiring cq (some used) answered = s := by
  unfold State.deliverFiring
  rw [if_neg (by rw [hacts]; decide), hq]
  dsimp only
  rw [hf, hn]
  dsimp only
  rw [hfir]
  exact if_pos (by omega)

/-- A record that fits and does not wrap, step by step of what the host has answered. -/
theorem State.deliverFiring_fits (hfir : q.firings[n]? = some f)
    (hfit : q.produced % q.ringBytes + (firingBytes cq q.skippedSince f).length ≤ q.ringBytes)
    (hroom : q.produced - used + (firingBytes cq q.skippedSince f).length ≤ q.ringBytes) (answered : Nat) :
    s.deliverFiring cq (some used) answered =
      let bytes := firingBytes cq q.skippedSince f
      let a := q.ringAddr + q.produced % q.ringBytes
      let prod := q.produced + bytes.length
      let s := (s.hostWrite fn a bytes).readBack fn a bytes.length
      if answered == 0 then s else
      let s := (s.hostWrite fn (q.indexAddr + 8) (toLE 8 prod)).readBack fn (q.indexAddr + 8) 8
      if answered == 1 then s else ((s.firingDelivered cq n prod q f fn).settleRemoval cq).runQuery cq := by
  unfold State.deliverFiring
  rw [if_neg (by rw [hacts]; decide), hq]
  dsimp only
  rw [hf, hn]
  dsimp only
  rw [hfir]
  dsimp only
  rw [if_pos hfit]
  refine (if_neg (by omega)).trans ?_
  rfl

end

/-- Settles O59, by the kind of the entry that is due and by what the host has answered of the record. -/
theorem firingsFallDueAndAreDelivered : Obligations.FiringsFallDueAndAreDelivered := by
  unfold Obligations.FiringsFallDueAndAreDelivered
  intro s k cq n used e q f fn
  dsimp only
  generalize hrel : State.rearm _ k e = released
  refine ⟨fun hen hdue => ?_, fun hacts hq hf hn => ⟨?refused, fun hfir => ⟨fun hfull => ?full, fun hfit hroom => ?record, fun hfit hroom => ?done⟩⟩⟩
  · have hquery : ∀ q, s.query e.owner = some q → released.query e.owner = some q := by
      intro q hq
      have htrace : ∀ (d : BDesc), ((s.bump 0x2022 7 1).trace 9 0 d 0 false).batten.queries = s.batten.queries := fun d =>
        State.trace_view BattenSt.queries (fun _ _ _ => rfl) (s.bump 0x2022 7 1) 9 0 d 0 false
      rw [State.query, ← hrel, State.rearm_queries, htrace]
      exact hq
    have hrelease : s.releaseEntry = if e.kind != 0 then released.journal 8 Stamp.zero e.owner else
        match released.query e.owner with
        | none => released
        | some q => if q.shape == 2 then (released.closeSession e.owner).armNext e.owner else released.nextWindow e.owner := by
      unfold State.releaseEntry
      rw [if_neg (by rw [hen]; decide), hdue]
      dsimp only
      rw [hrel] <;> rfl
    refine ⟨fun hk => ?timer, fun hk hq hs => ?window, fun hk hq hs => ⟨_, rfl, ?session⟩⟩
    case timer => exact congrArg Host.Outcome.next (hrelease.trans (if_pos (bne_iff_ne.mpr hk)))
    case window =>
      refine congrArg Host.Outcome.next (hrelease.trans ?_)
      rw [hk, hquery q hq]
      have hshape : (q.shape == 2) = false := beq_eq_false_iff_ne.mpr hs
      dsimp only
      rw [hshape]
      rfl
    case session =>
      refine congrArg Host.Outcome.next (hrelease.trans ?_)
      rw [hk, hquery q hq]
      dsimp only
      rw [hs]
      rfl
  case refused => exact congrArg Host.Outcome.next (State.deliverFiring_revoked hacts hq hf hn k)
  case full => exact congrArg Host.Outcome.next (State.deliverFiring_full hacts hq hf hn hfir hfull k)
  case record =>
    refine ⟨_, congrArg Host.Outcome.next ((State.deliverFiring_fits hacts hq hf hn hfir hfit hroom 0).trans (if_pos rfl)), ?_, rfl⟩
    rw [State.hostWrite_readBack_length]
    rfl
  case done =>
    have hsteps := State.deliverFiring_fits hacts hq hf hn hfir hfit hroom 2
    dsimp only at hsteps
    rw [if_neg (by decide), if_neg (by decide), State.hostWrite_readBack_length] at hsteps
    generalize hu : State.readBack _ fn (q.indexAddr + 8) 8 = u at hsteps
    obtain ⟨more, hmore⟩ := u.firingDelivered_outs cq n (q.produced + (firingBytes cq q.skippedSince f).length) q f fn
    refine ⟨_, more, congrArg Host.Outcome.next hsteps, ?_, ?_⟩
    · rw [hmore, ← hu]
      refine congrArg (· ++ more) ?_
      exact List.append_assoc _ [_] [_]
    · rw [State.firingDelivered_queries, ← hu]
      rfl
end Sys2Proof.Machine
end

