-- ==== Sys2Proof/Proofs/PurlinRequests.lean ====
section
/-! SUPPORT. Purlin requests, background compare and MAP rewriting (R219 to R230, R254). -/

namespace Sys2Proof.Machine

set_option Elab.async false

section
variable {s u v : State} {who : PWho} {q : PReq} {f : PFaults} {b : Fin 8} {idx : Nat}

@[simp] theorem State.modBank_at (s : State) (b : Fin 8) (g : Bank → Bank) : (s.modBank b g).purlin.banks[b] = g s.purlin.banks[b] := by
  simp [State.modBank]

theorem State.modBank_other (s : State) {b c : Fin 8} (g : Bank → Bank) (h : c ≠ b) : (s.modBank b g).purlin.banks[c] = s.purlin.banks[c] := by
  have hv : b.val ≠ c.val := fun e => h (Fin.ext e.symm)
  simp [State.modBank, hv]

theorem State.raise_purlin (s : State) (src : Nat) (r : ErrRec) : (s.raise src r).purlin = s.purlin := (s.logged_raise src r).purlin

/-- Every bank executes requests in `u` where it does in `s`: what R226 asks of it stands. -/
def State.SameService (s u : State) : Prop := ∀ b : Fin 8, (u.purlin.banks[b]).enable = (s.purlin.banks[b]).enable ∧
  (u.purlin.banks[b]).bistFail = (s.purlin.banks[b]).bistFail ∧ (u.purlin.banks[b]).awaiting = (s.purlin.banks[b]).awaiting

theorem State.SameService.refl (s : State) : s.SameService s := fun _ => ⟨rfl, rfl, rfl⟩

theorem State.SameService.trans (h : s.SameService u) (k : u.SameService v) : s.SameService v := fun b => by
  obtain ⟨he, hb, ha⟩ := h b
  obtain ⟨ke, kb, ka⟩ := k b
  exact ⟨ke.trans he, kb.trans hb, ka.trans ha⟩

theorem State.SameService.of_purlin (h : u.purlin = s.purlin) : s.SameService u := fun b => by
  rw [h]
  exact ⟨rfl, rfl, rfl⟩

theorem State.SameService.modBank (s : State) (b : Fin 8) {g : Bank → Bank}
    (hg : ∀ k, (g k).enable = k.enable ∧ (g k).bistFail = k.bistFail ∧ (g k).awaiting = k.awaiting) : s.SameService (s.modBank b g) := fun c => by
  by_cases h : c = b
  · rw [h, State.modBank_at]
    exact hg _
  · rw [State.modBank_other s g h]
    exact ⟨rfl, rfl, rfl⟩

theorem State.SameService.foldl {α : Type} {g : State → α → State} (hg : ∀ s a, State.SameService s (g s a)) (l : List α) (s : State) :
    s.SameService (l.foldl g s) := by
  induction l generalizing s with
  | nil => exact .refl s
  | cons a l ih => exact (hg s a).trans (ih _)

theorem State.SameService.pReady (h : s.SameService u) (q : PReq) : u.pReady q = s.pReady q := by
  unfold State.pReady
  refine congrArg (List.all _) (funext fun b => ?_)
  obtain ⟨he, hb, ha⟩ := h b
  dsimp only
  rw [he, hb, ha]

theorem State.falseHit_service (s : State) (b : Fin 8) (idx : Nat) : s.SameService (s.falseHit b idx) := by
  unfold State.falseHit
  extract_lets w limit n x r y
  have hbank : State.SameService w x := .modBank w b fun _ => ⟨rfl, rfl, rfl⟩
  have h : s.SameService y := State.SameService.trans hbank (.of_purlin (State.raise_purlin x _ _))
  split
  · exact h
  · have hretire : State.SameService y (y.modBank b fun k => { k with retired := k.retired ++ [idx], entries := ndel k.entries idx }) :=
      .modBank y b fun _ => ⟨rfl, rfl, rfl⟩
    exact (h.trans hretire).trans (.of_purlin rfl)

/-- A cell that a fault sets (R228). -/
def State.setCells (s : State) (x : Nat × Nat × PCells) : State :=
  s.modBank (Fin.ofNat 8 x.1) fun k => { k with entries := nmod k.entries x.2.1 fun e => { e with toPCells := x.2.2 } }

theorem State.setCells_service (s : State) (x : Nat × Nat × PCells) : s.SameService (s.setCells x) :=
  .modBank s _ fun _ => ⟨rfl, rfl, rfl⟩

theorem State.meetFaults_eq (s : State) (banks : List (Fin 8)) (key : List Nat) (h : f.dead = []) :
    s.meetFaults banks key f = f.flips.foldl State.setCells s := by
  unfold State.meetFaults
  rw [h]
  rfl

theorem State.meetFaults_service (s : State) (banks : List (Fin 8)) (key : List Nat) (h : f.dead = []) :
    s.SameService (s.meetFaults banks key f) := by
  rw [State.meetFaults_eq s banks key h]
  exact .foldl State.setCells_service _ s

/-- A search that meets no dead entry leaves every bank executing requests. -/
theorem State.pSearch_service (s : State) (banks : List (Fin 8)) (key : List Nat) (h : f.dead = []) :
    s.SameService (s.pSearch banks key f).2 := by
  refine (s.meetFaults_service banks key h).trans ?_
  have hfold : ∀ (l : List (Fin 8 × Nat × PEntry)) (u : State), u.SameService (l.foldl (fun s x => s.falseHit x.1 x.2.1) u) :=
    fun l u => State.SameService.foldl (g := fun s (x : Fin 8 × Nat × PEntry) => s.falseHit x.1 x.2.1)
      (fun s x => s.falseHit_service x.1 x.2.1) l u
  exact hfold (((s.meetFaults banks key f).pMatches banks key).filter fun x => !x.2.2.sound) (s.meetFaults banks key f)

/-- A search without faults over entries that agree with their copies (R221, R227). -/
theorem State.pSearch_agreeing {banks : List (Fin 8)} {key : List Nat} (h : (s.pMatches banks key).all (·.2.2.sound) = true) :
    s.pSearch banks key ⟨[], []⟩ = (s.pWinner banks key, s) := by
  have hnone : (s.pMatches banks key).filter (fun x => !x.2.2.sound) = [] :=
    List.filter_eq_nil_iff.mpr fun x hx => by rw [List.all_eq_true.mp h x hx]; decide
  show (s.pWinner banks key, ((s.pMatches banks key).filter fun x => !x.2.2.sound).foldl (fun s x => s.falseHit x.1 x.2.1) s) = _
  rw [hnone]
  rfl

/-- Who may have the banks of a request execute it (R219). -/
def PWho.May (s : State) (q : PReq) : PWho → Prop
  | .ridge => s.ridgeActs = true
  | .tile t _ role => s.ownsBanks t role q = true

theorem State.purlinDo_may (h : who.May s q) : s.purlinDo who q f =
    if s.pMalformed (banksOf q.banks) q then s.purlinAnswer who q (PResp.refuse stBadArgument) none
    else if !s.pReady q then s.purlinWait who q else s.purlinRun who q f := by
  unfold State.purlinDo
  cases who with
  | ridge =>
    rw [if_neg (by rw [show s.ridgeActs = true from h]; decide)]
    rfl
  | tile t tag role =>
    have howns : s.ownsBanks t role q = true := h
    dsimp only
    rw [if_neg (by simp), if_neg (by rw [howns]; decide)]

/-- A request that is executed and answered at once. -/
theorem State.purlinDo_answers {r : PResp} {key : Option (List Nat)} (hmay : who.May s q) (hform : s.pMalformed (banksOf q.banks) q = false)
    (hready : s.pReady q = true) (hexec : s.pExecute q f = (r, key, u)) (hdead : f.dead = []) (hstill : q.op = 1 → s.SameService u) :
    s.purlinDo who q f = (u.bump 0x18C0 3 1).purlinAnswer who q r key := by
  have hwait : (q.op == 1 && !u.pReady q) = false := by
    by_cases h : q.op = 1
    · rw [(hstill h).pReady, hready]
      exact Bool.and_false _
    · rw [beq_eq_false_iff_ne.mpr h]
      rfl
  rw [State.purlinDo_may hmay, if_neg (by rw [hform]; decide), if_neg (by rw [hready]; decide)]
  unfold State.purlinRun
  rw [hexec]
  dsimp only
  rw [hwait]
  unfold State.deadBanks
  rw [hdead]
  rfl

theorem State.pInsert_agreeing {banks : List (Fin 8)} {key : List Nat} (h : (s.pMatches banks key).all (·.2.2.sound) = true) :
    s.pInsert banks q key ⟨[], []⟩ = match s.pWinner banks key with
      | some (b, i, e) => (e.report 1 b i, s)
      | none => match banks.find? fun b => ((s.purlin.banks[b]).freeIndex).isSome with
        | none => ({ PResp.zero with outcome := 3 }, s)
        | some b => ((PEntry.of key q.priority q.result).report 2 b.val (((s.purlin.banks[b]).freeIndex).getD 0), s.modBank b fun k =>
            { k with entries := nput k.entries (((s.purlin.banks[b]).freeIndex).getD 0) (PEntry.of key q.priority q.result) }) := by
  unfold State.pInsert
  rw [State.pSearch_agreeing h]
  cases s.pWinner banks key <;> rfl

/-- What a search answers, with the entry it finds (R221). -/
theorem State.pExecute_search (s : State) (q : PReq) (f : PFaults) : ∃ r, s.pExecute { q with op := 1 } f =
    (r, none, (s.pSearch (banksOf q.banks) (keyUnits (s.purlin.banks[(banksOf q.banks).headD 0]).width q.key) f).2) := by
  unfold State.pExecute
  dsimp only
  generalize s.pSearch _ _ f = found
  obtain ⟨best, u⟩ := found
  cases best with
  | none => exact ⟨_, rfl⟩
  | some x => exact ⟨_, rfl⟩

theorem State.pExecute_insert (s : State) (q : PReq) (f : PFaults) : ∃ r u, s.pExecute { q with op := 2 } f = (r, none, u) := by
  have hfold : ∀ (l : List (Fin 8)) (acc : PResp × Option (List Nat) × State), acc.2.1 = none →
      ∃ r u, l.foldl (fun (acc : PResp × Option (List Nat) × State) b =>
        let (r, s) := acc.2.2.pInsert [b] { q with op := 2 } (keyUnits (s.purlin.banks[(banksOf q.banks).headD 0]).width q.key) f
        (r, none, s)) acc = (r, none, u) := by
    intro l
    induction l with
    | nil =>
      rintro ⟨r, key, u⟩ rfl
      exact ⟨r, u, rfl⟩
    | cons b l ih => exact fun acc _ => ih _ rfl
  cases hq : q.replicate with
  | true =>
    obtain ⟨r, u, h⟩ := hfold (banksOf q.banks).reverse (PResp.zero, none, s) rfl
    refine ⟨r, u, Eq.trans ?_ h⟩
    unfold State.pExecute
    dsimp only
    rw [hq]
    rfl
  | false =>
    unfold State.pExecute
    dsimp only
    exact ⟨_, _, rfl⟩

/-- A request to one entry of one bank (R223 to R225). -/
theorem State.pExecute_write (h : (banksOf q.banks).headD 0 = b) : s.pExecute { q with op := 3 } f =
    (⟨2, b.val, q.index, q.result, q.priority, 0⟩, none, s.modBank b fun k =>
      { k with entries := nput k.entries q.index (.of (keyUnits (s.purlin.banks[b]).width q.key) q.priority q.result) }) := by
  subst h
  rfl

theorem State.pExecute_invalidate {e : PEntry} (h : (banksOf q.banks).headD 0 = b) (he : nget (s.purlin.banks[b]).entries q.index = some e) :
    s.pExecute { q with op := 4 } f =
      (⟨1, b.val, q.index, e.result, e.priority, 0⟩, none, s.modBank b fun k => { k with entries := ndel k.entries q.index }) := by
  subst h
  unfold State.pExecute
  dsimp only
  rw [he]
  rfl

theorem State.pExecute_read {e : PEntry} (h : (banksOf q.banks).headD 0 = b) (he : nget (s.purlin.banks[b]).entries q.index = some e) :
    s.pExecute { q with op := 5 } f = (⟨1, b.val, q.index, e.result, e.priority, 0⟩, some e.copy.key, s) := by
  subst h
  unfold State.pExecute
  dsimp only
  rw [he]
  rfl

/-- The background compare of an entry that is dead (R228, R229). -/
theorem State.deadEntry_bank (s : State) (b : Fin 8) (idx : Nat) : ((s.deadEntry b idx).purlin.banks[b]) =
    { s.purlin.banks[b] with
      entries := ndel (s.purlin.banks[b]).entries idx
      uncorrectable := (s.purlin.banks[b]).uncorrectable + 1
      awaiting := if (s.purlin.banks[b]).role == .mapRole then (s.purlin.banks[b]).awaiting ++ [idx] else (s.purlin.banks[b]).awaiting } := by
  unfold State.deadEntry
  extract_lets k v w user bundle
  have hv : v.purlin.banks = s.purlin.banks := by
    unfold v
    split <;> rfl
  have hw : w.purlin.banks[b] = _ := State.modBank_at v b _
  rw [State.raise_purlin]
  refine Eq.trans hw ?_
  rw [hv]

theorem State.falseHit_counts (s : State) (b : Fin 8) (idx : Nat) :
    ((s.falseHit b idx).purlin.banks[b]).falseHits = (s.purlin.banks[b]).falseHits + 1 := by
  unfold State.falseHit
  extract_lets w limit n x r y
  have hx : (x.purlin.banks[b]).falseHits = (s.purlin.banks[b]).falseHits + 1 := congrArg Bank.falseHits (State.modBank_at w b _)
  have hy : (y.purlin.banks[b]).falseHits = (s.purlin.banks[b]).falseHits + 1 :=
    (congrArg (fun p : PurlinSt => (p.banks[b]).falseHits) (State.raise_purlin x _ _)).trans hx
  split
  · exact hy
  · have hretire := State.modBank_at y b fun k => { k with retired := k.retired ++ [idx], entries := ndel k.entries idx }
    exact (congrArg Bank.falseHits hretire).trans hy

end

/-- Settles O54, by the request and who sends it; the upkeep by the entry it meets. -/
theorem purlinRequestsAndUpkeep : Obligations.PurlinRequestsAndUpkeep := by
  unfold Obligations.PurlinRequestsAndUpkeep
  refine ⟨fun s who q f b e => ?requests, fun s b idx e m c => ?upkeep⟩
  case requests =>
    extract_lets k key banks sought agree done may runs
    have hmay : ∀ n, may { q with op := n } → who.May s { q with op := n } := fun n h => by
      cases who with
      | ridge => exact h
      | tile t tag role => exact h
    have hrun : ∀ n, n ≠ 1 → ∀ (r : PResp) (key : Option (List Nat)) (u : State) (f : PFaults), f.dead = [] → runs n →
        s.pExecute { q with op := n } f = (r, key, u) → s.purlinDo who { q with op := n } f = done u n r key := by
      rintro n hn r key u f hdead ⟨hm, hform, hready⟩ hexec
      exact State.purlinDo_answers (hmay n hm) hform hready hexec hdead fun h => absurd h hn
    have hsearch : ∀ (r : PResp) (u : State), f.dead = [] → runs 1 → s.pExecute { q with op := 1 } f = (r, none, u) → s.SameService u →
        s.purlinDo who { q with op := 1 } f = done u 1 r none := by
      rintro r u hdead ⟨hm, hform, hready⟩ hexec hu
      exact State.purlinDo_answers (hmay 1 hm) hform hready hexec hdead fun _ => hu
    refine ⟨fun hr hdead => ?search, fun hr hf ha => ?searchFound, fun hr hdead => ?insert, fun hr hrep hf ha => ?insertFound,
      fun hb => ⟨fun hr => ?write, fun hr he => ?invalidate, fun hr he => ?read⟩, fun hr => ?clear, fun hm hform hready => ?wait,
      fun hacts hform => ⟨_, rfl, ?malformed⟩, fun t tag howns => ⟨_, rfl, ?foreign⟩⟩
    case search =>
      obtain ⟨r, hexec⟩ := s.pExecute_search q f
      exact ⟨r, _, hexec, congrArg Host.Outcome.next (hsearch r _ hdead hr hexec (s.pSearch_service _ _ hdead))⟩
    case searchFound =>
      subst hf
      refine congrArg Host.Outcome.next (hsearch _ s rfl hr ?_ (.refl s))
      unfold State.pExecute
      dsimp only
      rw [State.pSearch_agreeing ha]
      cases s.pWinner banks sought <;> rfl
    case insert =>
      obtain ⟨r, u, hexec⟩ := s.pExecute_insert q f
      exact ⟨r, u, hexec, congrArg Host.Outcome.next (hrun 2 (by decide) r none u f hdead hr hexec)⟩
    case insertFound =>
      subst hf
      have hexec : s.pExecute { q with op := 2 } ⟨[], []⟩ =
          let x := s.pInsert banks { q with op := 2 } sought ⟨[], []⟩
          (x.1, none, x.2) := if_neg (by rw [hrep]; decide)
      rw [State.pInsert_agreeing ha] at hexec
      have hins := fun r u h => hrun 2 (by decide) r none u ⟨[], []⟩ rfl hr (hexec.trans h)
      refine congrArg Host.Outcome.next ?_
      cases hw : s.pWinner banks sought with
      | some x => exact hins _ s (by rw [hw])
      | none =>
        dsimp only
        cases hfree : banks.find? fun b => ((s.purlin.banks[b]).freeIndex).isSome with
        | none => exact hins _ s (by rw [hw]; dsimp only; rw [hfree])
        | some b => exact hins _ _ (by rw [hw]; dsimp only; rw [hfree]; rfl)
    case write =>
      exact congrArg Host.Outcome.next (hrun 3 (by decide) _ _ _ ⟨[], []⟩ rfl hr (State.pExecute_write (congrArg (·.headD 0) hb)))
    case invalidate =>
      exact congrArg Host.Outcome.next (hrun 4 (by decide) _ _ _ ⟨[], []⟩ rfl hr (State.pExecute_invalidate (congrArg (·.headD 0) hb) he))
    case read =>
      exact congrArg Host.Outcome.next (hrun 5 (by decide) _ _ _ ⟨[], []⟩ rfl hr (State.pExecute_read (congrArg (·.headD 0) hb) he))
    case clear =>
      exact congrArg (fun u : State => Host.Outcome.next u.purlinRetry) (hrun 6 (by decide) _ _ _ _ rfl hr rfl)
    case wait =>
      refine congrArg Host.Outcome.next ((State.purlinDo_may (hmay 1 hm)).trans ?_)
      rw [if_neg (by rw [hform]; decide), hready]
      rfl
    case malformed =>
      have h := State.purlinDo_may (s := s) (who := .ridge) (q := { q with op := 1 }) (f := f) hacts
      rw [if_pos hform] at h
      rw [h]
      exact ⟨rfl, rfl⟩
    case foreign =>
      have h : s.purlinDo (.tile t tag .ingest) { q with op := 1 } f =
          s.purlinAnswer (.tile t tag .ingest) { q with op := 1 } (PResp.refuse stNotOwner) none := by
        unfold State.purlinDo
        dsimp only
        rw [if_neg (by simp), howns]
        rfl
      rw [h]
      refine ⟨rfl, ?_⟩
      unfold State.purlinAnswer
      dsimp only
      rw [State.modTile_at]
      exact nget_nput_self _ _ _
  case upkeep =>
    refine ⟨fun hnone dead => ?absent, fun he => ⟨⟨?live, s.falseHit_counts b idx⟩, fun hrole => ⟨s.deadEntry b idx, ?dead, ?_⟩⟩, fun hacts hwait hmap => ?rewrite,
      fun hseal hready => ?yield⟩
    case absent =>
      refine congrArg Host.Outcome.next ?_
      unfold State.backCompare
      rw [hnone]
      rfl
    case live =>
      refine congrArg Host.Outcome.next ?_
      unfold State.backCompare
      rw [he]
      rfl
    case dead =>
      refine congrArg Host.Outcome.next ?_
      unfold State.backCompare
      rw [he, beq_eq_false_iff_ne.mpr hrole]
      rfl
    · rw [State.deadEntry_bank]
      exact ⟨rfl, rfl, fun hr => if_pos (beq_iff_eq.mpr hr)⟩
    case rewrite =>
      refine congrArg Host.Outcome.next ?_
      unfold State.mapRewrite
      rw [if_neg (by rw [hacts, hwait]; decide), hmap]
      rfl
    case yield =>
      refine congrArg Host.Outcome.next ?_
      unfold State.hipYield
      refine if_neg ?_
      rw [hready, Bool.not_true, Bool.or_false, Option.isNone_eq_false_iff.mpr hseal]
      decide
end Sys2Proof.Machine
end

