-- ==== Sys2Proof/Proofs/PlanAdmission.lean ====
section
/-! SUPPORT. Plan admission and the Reed unit (R176, R177, R201, R205, R210). -/

namespace Sys2Proof.Machine

set_option Elab.async false

section
variable {s : State} {i : InstId} {c : Cmd} {t : TileId}

/-- One plan waits: admission judges it alone (R176, R177). -/
theorem State.admitPlans_one (hacts : s.ridgeActs = true) (h : s.waitingPlans = [(i, c)]) : s.admitPlans = (s.tryAdmit false i c).2 := by
  unfold State.admitPlans
  rw [if_neg (by rw [hacts]; decide), h]
  dsimp only [List.foldl]
  rw [show ([] : List InstId).contains i = false from rfl]
  generalize s.tryAdmit false i c = x
  obtain ⟨waits, u⟩ := x
  cases waits <;> rfl

theorem State.tryAdmit_refused {code off : Nat} (h : s.inOrder i c = true) (hset : c.settled = false) (hlate : s.lateCheck i c = some (code, off)) :
    (s.tryAdmit false i c).2 = s.refusePlan i c.receipt code off := by
  unfold State.tryAdmit
  rw [if_neg (by rw [h]; decide), if_neg (by rw [hset]; decide), hlate]

/-- A plan that the late checks pass, or had passed, is accepted where its resources are free (R177). -/
theorem State.tryAdmit_settled (h : s.inOrder i c = true) (hset : c.settled = true ∨ s.lateCheck i c = none) :
    (s.tryAdmit false i c).2 =
      if s.canAllot i (parseImage c.image).claims then
        (if c.opcode ≠ 0x38 then s.acceptPlan i c else match s.queryRoom i with
          | some cq => s.acceptQuery i c cq
          | none => s.modCmd i c.receipt fun c => { c with settled := true })
      else s.modCmd i c.receipt fun c => { c with settled := true } := by
  have hnone : (if c.settled then none else s.lateCheck i c) = none := by
    rcases hset with hset | hset
    · rw [hset]; rfl
    · rw [hset, ite_self]
  unfold State.tryAdmit
  rw [if_neg (by rw [h]; decide), hnone]
  dsimp only
  cases s.canAllot i (parseImage c.image).claims with
  | false => rfl
  | true =>
    rw [if_neg (by decide), if_pos rfl]
    by_cases hop : c.opcode = 0x38
    · rw [if_neg (by simpa using hop), if_neg (by simpa using hop)]
      cases s.queryRoom i <;> rfl
    · rw [if_pos (bne_iff_ne.mpr hop), if_pos hop]

theorem State.reedAbandon_sets (s : State) (t : TileId) :
    ((s.reedAbandon t).batten.tiles[t]).reed = { (s.batten.tiles[t]).reed with batches := [], active := false } ∧
      ((s.reedAbandon t).tiles[t]).reedBusy = false := by
  unfold State.reedAbandon
  extract_lets r u v
  have hu : u.batten = s.batten := by
    unfold u
    split <;> rfl
  have hv : v.batten.tiles[t] = _ := State.modSched_at u t _
  refine ⟨?_, ?_⟩
  · refine (congrArg TileSched.reed hv).trans ?_
    rw [hu]
  · rw [State.modTile_at]

theorem State.reedAbandon_counts (h : (s.batten.tiles[t]).reed.active = true) : (s.reedAbandon t).ro 0x20A0 8 = s.ro 0x20A0 8 + 1 := by
  unfold State.reedAbandon
  dsimp only
  rw [if_pos h]
  exact s.bump_ro 0x20A0 8

/-- The scheduler's record of a tile once the first of its batches is handed over (R205). -/
def TileSched.handed (y : TileSched) (key : Nat) (more : List RBatch) : TileSched :=
  let last := !more.any fun x => x.block == key
  { y with reed := { y.reed with
      batches := more
      active := !more.isEmpty
      scanned := if last then y.reed.scanned ++ [key] else y.reed.scanned
      cur := if last then none else some key
      consumed := if last then 0 else (if y.reed.cur == some key then y.reed.consumed else 0) + 1 } }

/-- The first batch of a tile in its scratch, before the bundle's operators take it. -/
def State.batchPlaced (s : State) (t : TileId) (key : Nat) (image : Bytes) (more : List RBatch) : State :=
  (((s.toScratch t (((s.bundleOf t).map fun x => x.2.1.claims.scratchKib).getD 0) image).2).modSched t (·.handed key more)).modTile t fun c =>
    { c with reedHanded := (c.reedHanded + 1) % 256, reedBusy := !more.isEmpty }

theorem State.reedHandover_some {key : Nat} {image : Bytes} {b : Batch} {more : List RBatch} {kernels : List KRes}
    (h : (s.batten.tiles[t]).reed.batches = ⟨key, image, b⟩ :: more) :
    s.reedHandover t kernels = (s.batchPlaced t key image more).feed t kernels fun c ops a => pushBatch c ops b a := by
  unfold State.reedHandover
  rw [h]
  rfl

theorem State.batchPlaced_sched (s : State) (t : TileId) (key : Nat) (image : Bytes) (more : List RBatch) :
    (s.batchPlaced t key image more).batten.tiles[t] = (s.batten.tiles[t]).handed key more := by
  unfold State.batchPlaced
  generalize hu : (s.toScratch t (((s.bundleOf t).map fun x => x.2.1.claims.scratchKib).getD 0) image).2 = u
  have hsched : u.batten.tiles[t] = s.batten.tiles[t] := by
    rw [← hu]
    rfl
  refine Eq.trans (u.modSched_at t (·.handed key more)) ?_
  rw [hsched]

theorem State.batchPlaced_tile (s : State) (t : TileId) (key : Nat) (image : Bytes) (more : List RBatch) :
    ((s.batchPlaced t key image more).tiles[t]).reedBusy = !more.isEmpty ∧ ((s.batchPlaced t key image more).tiles[t]).scratch =
      ((s.toScratch t (((s.bundleOf t).map fun x => x.2.1.claims.scratchKib).getD 0) image).2.tiles[t]).scratch := by
  unfold State.batchPlaced
  rw [State.modTile_at]
  exact ⟨rfl, rfl⟩

end

/-- Settles O58: admission by what the one waiting plan meets, the Reed unit by the batches it holds. -/
theorem planAdmissionAndReed : Obligations.PlanAdmissionAndReed := by
  unfold Obligations.PlanAdmissionAndReed
  refine ⟨fun s i c seq code off image params hacts => ?plans, fun s t seg first count key bad kernels image b more => ?reed⟩
  case plans =>
    dsimp only
    refine ⟨fun hnone => ?none, fun hone hord => ⟨fun hset hlate => ?refused, fun hset => ?judged⟩, fun hfind => ⟨fun hbad => ?badImage, fun hok => ?goodImage⟩⟩
    case none =>
      refine congrArg Host.Outcome.next ?_
      unfold State.admitPlans
      rw [if_neg (by rw [hacts]; decide), hnone]
      rfl
    case refused => exact congrArg Host.Outcome.next ((State.admitPlans_one hacts hone).trans (State.tryAdmit_refused hord hset hlate))
    case judged =>
      have h := (State.admitPlans_one hacts hone).trans (State.tryAdmit_settled hord hset)
      refine ⟨fun hroom => congrArg Host.Outcome.next ?_, fun hroom => congrArg Host.Outcome.next ?_⟩
      · rw [hroom, if_pos rfl] at h
        refine h.trans ?_
        cases s.queryRoom i <;> rfl
      · rw [hroom] at h
        exact h
    case badImage =>
      refine congrArg Host.Outcome.next ?_
      unfold State.imageRead
      rw [if_neg (by rw [hacts]; decide), hfind]
      dsimp only
      rw [hbad]
    case goodImage =>
      refine congrArg Host.Outcome.next ?_
      unfold State.imageRead
      rw [if_neg (by rw [hacts]; decide), hfind]
      dsimp only
      rw [hok]
  case reed =>
    dsimp only
    refine ⟨fun hact => ⟨_, rfl, s.reedAbandon_sets t⟩, fun hact => ⟨_, rfl, (s.reedAbandon_sets t).1, State.reedAbandon_counts hact⟩,
      fun hnone => ?empty, fun hcons => ?handed, fun d p m pd hb hk hbusy => ⟨_, _, rfl, rfl, ?started⟩⟩
    case empty =>
      refine congrArg Host.Outcome.next ?_
      unfold State.reedHandover
      rw [hnone]
    case handed =>
      obtain ⟨hbusy, hscr⟩ := s.batchPlaced_tile t key image more
      refine ⟨s.batchPlaced t key image more, congrArg (fun x : State × List KRes => Host.Outcome.next x.1) (State.reedHandover_some hcons), ?_, ?_, hbusy, hscr⟩
      · rw [State.batchPlaced_sched]
        rfl
      · rw [State.batchPlaced_sched]
        rfl
    case started =>
      refine congrArg Host.Outcome.next ?_
      unfold State.reedStart
      rw [hb]
      dsimp only
      rw [if_neg (by rw [hbusy, Bool.or_false, beq_iff_eq]; exact hk)]
      rfl
end Sys2Proof.Machine
end

