-- ==== Sys2Proof/Proofs/UnsortedSequences.lean ====
section
/-! SUPPORT. The entry of a frame on a state that lists the sequence numbers of stamps out of order (R137). -/

namespace Sys2Proof.Machine

set_option Elab.async false

/-- Rows for no table are entered nowhere (R117). -/
theorem enterRow_none {s : State} (h : s.tables.tables = []) (o : UnitOut) (x : Nat × SRow) : State.enterRow (s, o) x = (s, o) := by
  have hnone : s.table x.1 = none := by
    rw [State.table, h]
    rfl
  unfold State.enterRow
  dsimp only
  rw [hnone]

/-- No table, and the Eave rings of `s`. -/
structure State.RingsOf (s u : State) : Prop where
  rings : u.ingest.eave = s.ingest.eave
  empty : u.tables.tables = []

section
variable {s u : State}

theorem State.RingsOf.modIngest (h : s.RingsOf u) {f : IngestSt → IngestSt} (hf : ∀ g, (f g).eave = g.eave) : s.RingsOf (u.modIngest f) :=
  ⟨(hf u.ingest).trans h.rings, h.empty⟩

theorem State.RingsOf.bump (h : s.RingsOf u) {index sub n : Nat} : s.RingsOf (u.bump index sub n) := ⟨h.rings, h.empty⟩

theorem State.RingsOf.noteHeld (h : s.RingsOf u) : s.RingsOf u.noteHeld := ⟨h.rings, h.empty⟩

theorem State.RingsOf.raise (h : s.RingsOf u) {src : Nat} {r : ErrRec} : s.RingsOf (u.raise src r) := by
  have hlog := u.logged_raise src r
  exact ⟨(congrArg IngestSt.eave hlog.ingest).trans h.rings, (congrArg TableSt.tables hlog.tables).trans h.empty⟩

theorem State.RingsOf.enterRows (h : s.RingsOf u) {o : UnitOut} {rows : List (Nat × SRow)} : s.RingsOf (rows.foldl State.enterRow (u, o)).1 := by
  rw [List.foldl_fixed' (fun x => enterRow_none h.empty o x) rows]
  exact h

/-- A unit entered where there is no table leaves the Eave rings. -/
theorem State.RingsOf.enterUnit (h : s.RingsOf u) {unit : Stamp} {rows : List (Nat × SRow)} : s.RingsOf (u.enterUnit unit rows).1 := by
  unfold State.enterUnit
  dsimp only
  split
  · split
    · refine (h.modIngest fun g => ?_).bump.bump.raise
      rfl
    · refine (h.modIngest fun g => ?_).bump.bump
      rfl
  · refine ((h.modIngest fun g => ?_).modIngest fun g => ?_).enterRows.noteHeld
    · rfl
    · rfl

end

/-- A frame that waits in an Eave ring. -/
def waitingFrame : RingEntry :=
  { ts := 0, tq := 0, frame := zeros 60, wireLength := 64, flags := 0, pdus := 0, rows := [], capture := false, base := none, generation := 0
    entered := false }

/-- A bank of the signal map whose one entry matches every key and disagrees with its copy. -/
def mismatchedBank : Bank :=
  { Bank.reset with role := .mapRole, masked := true, enable := true, entries := [(0, { PEntry.of [] 0 0 with priority := 1 })] }

/-- A state with no table, one frame waiting at Eave port 0, and the sequence numbers of the sources of stamps listed out of order: that
of the Purlin store, about to wrap, before that of the port. -/
def unsortedSeqs : State :=
  (((State.reset.modTables fun t => { t with tables := [] }).modBank 0 fun _ => mismatchedBank).modEave 0 fun e =>
    { e with ring := [waitingFrame] }).modTime fun t => { t with seqs := [(0xC9, 2 ^ 24 - 1), (0x48, 5)] }

theorem unsortedSeqs_entry : ((unsortedSeqs.eaveEntry 0).ingest.eave[(0 : PortId)]).ring.map (·.base) = [some 5] := by decide +kernel

/-- Refutes O60, by `unsortedSeqs`: the frame's decoding meets the mismatched entry, whose record takes the last sequence number of the
Purlin store; its wrapped counter leaves the list, and the port's, hidden behind it before, is read as 5. The statement asks for the number
that the state read before, 0. -/
theorem not_ingestAndSegments : ¬ Obligations.IngestAndSegments := by
  unfold Obligations.IngestAndSegments
  rintro ⟨-, hframes, -⟩
  obtain ⟨-, -, hentry⟩ := hframes unsortedSeqs 0 [] waitingFrame []
  obtain ⟨w, y, base, rows, raw, hexec, hring, -, hbase, -, -, htables, -, hseq⟩ := hentry rfl rfl (by decide) (by decide)
  have hrun : unsortedSeqs.eaveEntry 0 = (w.enterUnit _ _).1 := Host.Outcome.next.inj hexec
  have heave := unsortedSeqs_entry
  have hrings : w.RingsOf w := ⟨rfl, by rw [htables]; rfl⟩
  rw [hrun, hrings.enterUnit.rings, hring] at heave
  have hfive : base = 5 := by simpa [hbase] using heave
  have hzero : ngetZ unsortedSeqs.time.seqs 0x48 = 0 := by decide
  exact absurd (hzero.symm.trans (hseq.trans hfive)) (by decide)

end Sys2Proof.Machine
end

