-- ==== Sys2Proof/Proofs/FlashMessages.lean ====
section
/-! SUPPORT. A message of the Flashing engine that ends (R475, R478, R479). -/

namespace Sys2Proof.Machine

set_option Elab.async false

/-! A message of the Flashing engine that ends (R475, R478, R479). -/

/-- The digest of a whole message. -/
def FCtx.digestOf (x : FCtx) : Bytes := if x.hmac then hmacAlg x.alg x.inUse x.taken else shaAlg x.alg x.taken

/-- The context of a message that has been delivered (R479). -/
def FCtx.delivered (x : FCtx) : FCtx :=
  let fin : FCtx := { x with state := .done, code := stOk, taken := [], inUse := [] }
  match x.dest with
  | 0 => { fin with digest := x.digestOf }
  | 1 => fin
  | _ => { fin with compare := if x.digestOf.take x.cmpLen == x.expect.take x.cmpLen then 1 else 2, expect := [] }

/-- The context with all blocks of its message taken. -/
def FCtx.whole (x : FCtx) : FCtx := { x with served := x.blocks }

/-- Blocks of a message that the core has not taken. -/
def FCtx.ahead (x : FCtx) : Nat := x.blocks - x.served

/-- Blocks that the core has not taken, of all contexts. Irreducible: the search for the bound of an index would unfold the sum. -/
@[irreducible] def FlashSt.ahead (f : FlashSt) : Nat := ∑ j : Fin 16, (f.ctxs[j]).ahead

section
variable {s u : State} {k j : Fin 16}

theorem FCtx.delivered_ahead (x : FCtx) : x.delivered.ahead = x.ahead := by
  unfold FCtx.delivered
  dsimp only
  split <;> rfl

theorem FCtx.delivered_state (x : FCtx) : x.delivered.state = .done := by
  unfold FCtx.delivered
  dsimp only
  split <;> rfl

theorem flashCacheBlind : CacheBlind State.flash :=
  ⟨fun _ _ => rfl, fun _ _ => rfl, fun _ _ _ => rfl, fun _ _ _ => rfl, fun _ _ _ _ => rfl⟩

/-- A write into device memory by an engine. -/
theorem CacheBlind.devWrite {γ : Type} {g : State → γ} (hg : CacheBlind g) (s : State) (a : Nat) (bs : Bytes) : g (s.devWrite a bs) = g s := by
  unfold State.devWrite
  refine foldl_keeps g _ (fun (u : State) c => ?_) _ s
  unfold State.devWrite1
  split
  · exact hg.sysWrite u _ _
  · unfold State.apertureWrite
    exact hg.modSlice u _ _
  · exact hg.modTile u _ _
  · rfl

theorem State.modCtx_ctxs (s : State) (k : Fin 16) (f : FCtx → FCtx) : (s.modCtx k f).flash.ctxs = s.flash.ctxs.set k (f s.flash.ctxs[k]) := rfl

/-- Delivery changes the one context, but for an address that is not reached. -/
theorem State.fcDeliver_ctxs (h : (s.flash.ctxs[k]).dest = 1 → s.ridgeReaches (s.flash.ctxs[k]).dst (s.flash.ctxs[k]).digestOf.length = true) :
    (s.fcDeliver k).flash.ctxs = s.flash.ctxs.set k (s.flash.ctxs[k]).delivered := by
  have hdev : ∀ (u : State) (a : Nat) (bs : Bytes), (u.devWrite a bs).flash = u.flash := flashCacheBlind.devWrite
  unfold State.fcDeliver FCtx.delivered
  dsimp only
  rw [show (if (s.flash.ctxs[k]).hmac then hmacAlg (s.flash.ctxs[k]).alg (s.flash.ctxs[k]).inUse (s.flash.ctxs[k]).taken
    else shaAlg (s.flash.ctxs[k]).alg (s.flash.ctxs[k]).taken) = (s.flash.ctxs[k]).digestOf from rfl]
  generalize (s.flash.ctxs[k]).dest = dest at h ⊢
  match dest, h with
  | 0, _ => rfl
  | 1, h =>
    refine Eq.trans (congrArg (fun u : State => u.flash.ctxs) (if_neg (by rw [h rfl]; decide))) ?_
    rw [State.modCtx_ctxs, hdev]
    rfl
  | _ + 2, _ =>
    cases (s.flash.ctxs[k]).digestOf.take (s.flash.ctxs[k]).cmpLen == (s.flash.ctxs[k]).expect.take (s.flash.ctxs[k]).cmpLen
    · rfl
    · rfl

theorem FlashSt.takeBlock_ctxs (f : FlashSt) (k : Fin 16) : (f.takeBlock k).ctxs = f.ctxs.set k { f.ctxs[k] with served := (f.ctxs[k]).served + 1 } := by
  unfold FlashSt.takeBlock
  dsimp only
  split <;> rfl

theorem shaBlock_pos (alg : Nat) : 0 < shaBlock alg := by
  unfold shaBlock
  split <;> decide

/-- A whole block is one that the core has not taken. -/
theorem FCtx.served_lt (x : FCtx) (h : x.wholeBlock = true) (hlen : x.taken.length ≤ x.len) : x.state = .running ∧ x.served < x.blocks := by
  unfold FCtx.wholeBlock at h
  rw [Bool.and_eq_true, Bool.or_eq_true, Bool.and_eq_true, beq_iff_eq, decide_eq_true_eq, decide_eq_true_eq] at h
  obtain ⟨hrun, h⟩ := h
  refine ⟨hrun, h.elim (fun hb => ?_) fun h => h.2⟩
  unfold FCtx.blocks
  have hpos := shaBlock_pos x.alg
  generalize shaBlock x.alg = b at hb hpos ⊢
  rw [Nat.lt_div_iff_mul_lt hpos]
  have hsucc : b * (x.served + 1) = x.served * b + b := by rw [Nat.mul_succ, Nat.mul_comm]
  omega

theorem FlashSt.nextBlock_whole {f : FlashSt} (h : f.nextBlock = some j) : (f.ctxs[j]).wholeBlock = true := by
  unfold FlashSt.nextBlock at h
  dsimp only at h
  split at h
  case h_1 i hi =>
    obtain rfl := Option.some.inj h
    exact (Bool.and_eq_true _ _ ▸ List.find?_some hi).1
  case h_2 => exact (Bool.and_eq_true _ _ ▸ List.find?_some h).1

theorem mem_ctxsAfter (n : Nat) (k : Fin 16) : k ∈ ctxsAfter n := by
  unfold ctxsAfter
  refine List.mem_map.mpr ⟨(k.val + 16 - (n + 1) % 16) % 16, List.mem_range.mpr (Nat.mod_lt _ (by decide)), Fin.ext ?_⟩
  rw [Fin.val_ofNat]
  omega

/-- A context with a whole block: the core has a block to take. -/
theorem FlashSt.nextBlock_isSome {f : FlashSt} (h : (f.ctxs[k]).wholeBlock = true) : ∃ j, f.nextBlock = some j := by
  unfold FlashSt.nextBlock
  dsimp only
  split
  · exact ⟨_, rfl⟩
  case h_2 hnone =>
    refine Option.isSome_iff_exists.mp (List.find?_isSome.mpr ⟨k, mem_ctxsAfter _ k, ?_⟩)
    have hk := List.find?_eq_none.mp hnone k (mem_ctxsAfter _ k)
    revert hk
    rw [h]
    cases (f.ctxs[k]).source == 2 <;> decide

/-- The core takes a block of a context and delivers its message where that was the last (R475). -/
def State.serveOne (s : State) (j : Fin 16) : State :=
  let v := s.modFlash fun f => f.takeBlock j
  let x := v.flash.ctxs[j]
  if x.taken.length == x.len && x.served == x.blocks then v.fcDeliver j else v

/-- A context after one block of it. -/
def FCtx.next (x : FCtx) : FCtx :=
  let y := { x with served := x.served + 1 }
  if y.taken.length == y.len && y.served == y.blocks then y.delivered else y

theorem State.serveUntil_next (n : Nat) (hrun : (s.flash.ctxs[k]).state = .running) (hnext : s.flash.nextBlock = some j) :
    State.serveUntil k (n + 1) s = State.serveUntil k n (s.serveOne j) := by
  rw [State.serveUntil, if_neg (by rw [hrun]; decide), hnext]
  rfl

theorem State.serveUntil_ended (n : Nat) (h : (s.flash.ctxs[k]).state ≠ .running) : State.serveUntil k n s = s := by
  cases n with
  | zero => rfl
  | succ n => rw [State.serveUntil, if_pos (bne_iff_ne.mpr h)]

theorem State.takeBlock_at (s : State) (j : Fin 16) : ((s.modFlash fun f => f.takeBlock j).flash.ctxs[j]) =
    { s.flash.ctxs[j] with served := (s.flash.ctxs[j]).served + 1 } := by
  have h := congrArg (fun v : Vector FCtx 16 => v[j]) (s.flash.takeBlock_ctxs j)
  exact h.trans (Vector.getElem_set_self _)

theorem State.serveOne_ctxs (s : State) (j : Fin 16)
    (h : (s.flash.ctxs[j]).dest = 1 → s.ridgeReaches (s.flash.ctxs[j]).dst (s.flash.ctxs[j]).digestOf.length = true) :
    (s.serveOne j).flash.ctxs = s.flash.ctxs.set j (s.flash.ctxs[j]).next := by
  have hat := s.takeBlock_at j
  have hset : (s.modFlash fun f => f.takeBlock j).flash.ctxs = _ := s.flash.takeBlock_ctxs j
  unfold State.serveOne FCtx.next
  dsimp only
  rw [hat]
  split
  · rw [State.fcDeliver_ctxs (by rw [hat]; exact h), hat, hset, Vector.set_set]
  · exact hset

theorem FCtx.next_ahead (x : FCtx) (h : x.served < x.blocks) : x.next.ahead < x.ahead := by
  have hstep : ({ x with served := x.served + 1 } : FCtx).ahead < x.ahead := by
    show x.blocks - (x.served + 1) < x.blocks - x.served
    omega
  unfold FCtx.next
  dsimp only
  split
  · rw [FCtx.delivered_ahead]
    exact hstep
  · exact hstep

theorem FCtx.next_running (x : FCtx) (h : x.next.state = .running) : x.next = { x with served := x.served + 1 } := by
  unfold FCtx.next at h ⊢
  dsimp only at h ⊢
  split at h
  · exact absurd (h.symm.trans (FCtx.delivered_state _)) (by decide)
  case isFalse hc => exact if_neg hc

/-- A block taken brings the core closer to the end. -/
theorem FlashSt.ahead_lt {f g : FlashSt} (hctxs : g.ctxs = f.ctxs.set j (f.ctxs[j]).next) (h : (f.ctxs[j]).served < (f.ctxs[j]).blocks) :
    g.ahead < f.ahead := by
  have hat : ∀ i : Fin 16, g.ctxs[i] = if j.val = i.val then (f.ctxs[j]).next else f.ctxs[i] := by
    intro i
    have hi := congrArg (fun v : Vector FCtx 16 => v[i.val]) hctxs
    exact hi.trans (Vector.getElem_set _ _)
  have hlt := FCtx.next_ahead _ h
  unfold FlashSt.ahead
  refine Finset.sum_lt_sum (fun i _ => ?_) ⟨j, Finset.mem_univ j, ?_⟩
  · rw [hat i]
    split
    case isTrue e =>
      obtain rfl := Fin.ext e
      exact hlt.le
    case isFalse => exact le_rfl
  · rw [hat j, if_pos rfl]
    exact hlt

theorem State.fcDeliver_reaches (h : (s.flash.ctxs[k]).dest ≠ 1) (a n : Nat) : (s.fcDeliver k).ridgeReaches a n = s.ridgeReaches a n := by
  unfold State.fcDeliver
  dsimp only
  split
  · rfl
  case h_2 hdest => exact absurd hdest h
  case h_3 =>
    split
    · split <;> rfl
    · split <;> rfl

theorem State.serveOne_reaches (h : (s.flash.ctxs[j]).dest ≠ 1) (a n : Nat) : (s.serveOne j).ridgeReaches a n = s.ridgeReaches a n := by
  unfold State.serveOne
  dsimp only
  split
  · exact State.fcDeliver_reaches (by rw [s.takeBlock_at j]; exact h) a n
  · rfl

/-- What stands while the core serves the message of context `k`, from state `s` on: the message but for the count of its blocks, the
contexts that do not run, and what the engine reaches. -/
structure State.Serving (s : State) (k : Fin 16) (u : State) : Prop where
  mine : ∃ m, m < (s.flash.ctxs[k]).blocks ∧ u.flash.ctxs[k] = { s.flash.ctxs[k] with served := m }
  sound : ∀ j, j ≠ k → (u.flash.ctxs[j]).state = .running → (u.flash.ctxs[j]).dest ≠ 1 ∧ (u.flash.ctxs[j]).taken.length ≤ (u.flash.ctxs[j]).len
  still : ∀ j, j ≠ k → (s.flash.ctxs[j]).state ≠ .running → u.flash.ctxs[j] = s.flash.ctxs[j]
  reach : ∀ a n, u.ridgeReaches a n = s.ridgeReaches a n

/-- The core takes a block of another context. -/
theorem State.Serving.other (h : s.Serving k u) (hne : j ≠ k) (hrun : (u.flash.ctxs[j]).state = .running) : s.Serving k (u.serveOne j) := by
  obtain ⟨hdest, hlen⟩ := h.sound j hne hrun
  have hctxs := u.serveOne_ctxs j fun e => absurd e hdest
  have hother : ∀ i : Fin 16, i ≠ j → (u.serveOne j).flash.ctxs[i] = u.flash.ctxs[i] := fun i hi =>
    (congrArg (fun v : Vector FCtx 16 => v[i.val]) hctxs).trans (Vector.getElem_set_ne _ _ fun e => hi (Fin.ext e.symm))
  have hself : (u.serveOne j).flash.ctxs[j] = (u.flash.ctxs[j]).next :=
    (congrArg (fun v : Vector FCtx 16 => v[j.val]) hctxs).trans (Vector.getElem_set_self _)
  refine ⟨?_, fun i hi hr => ?_, fun i hi hs => ?_, fun a n => ?_⟩
  · rw [hother k hne.symm]
    exact h.mine
  · by_cases e : i = j
    · subst e
      rw [hself] at hr ⊢
      rw [FCtx.next_running _ hr]
      exact ⟨hdest, hlen⟩
    · rw [hother i e] at hr ⊢
      exact h.sound i hi hr
  · by_cases e : i = j
    · subst e
      rw [h.still i hi hs] at hrun
      exact absurd hrun hs
    · rw [hother i e]
      exact h.still i hi hs
  · rw [State.serveOne_reaches hdest]
    exact h.reach a n

/-- The core takes a block of the message itself, not its last. -/
theorem State.Serving.own (h : s.Serving k u) {m : Nat} (hat : u.flash.ctxs[k] = { s.flash.ctxs[k] with served := m })
    (hm : m + 1 < (s.flash.ctxs[k]).blocks) : s.Serving k (u.serveOne k) := by
  have hone : u.serveOne k = u.modFlash fun f => f.takeBlock k := by
    refine if_neg ?_
    rw [u.takeBlock_at k, hat]
    simp only [Bool.and_eq_true, beq_iff_eq, not_and]
    exact fun _ => Nat.ne_of_lt hm
  have hother : ∀ i : Fin 16, i ≠ k → (u.modFlash fun f => f.takeBlock k).flash.ctxs[i] = u.flash.ctxs[i] := fun i hi =>
    (congrArg (fun v : Vector FCtx 16 => v[i.val]) (u.flash.takeBlock_ctxs k)).trans (Vector.getElem_set_ne _ _ fun e => hi (Fin.ext e.symm))
  rw [hone]
  refine ⟨⟨m + 1, hm, ?_⟩, fun i hi hr => ?_, fun i hi hs => ?_, h.reach⟩
  · rw [u.takeBlock_at k, hat]
  · rw [hother i hi] at hr ⊢
    exact h.sound i hi hr
  · rw [hother i hi]
    exact h.still i hi hs

/-- The last block of the message: it is delivered. -/
theorem State.Serving.last (h : s.Serving k u) {m : Nat} (hat : u.flash.ctxs[k] = { s.flash.ctxs[k] with served := m })
    (hlen : (s.flash.ctxs[k]).taken.length = (s.flash.ctxs[k]).len) (hm : m + 1 = (s.flash.ctxs[k]).blocks)
    (hreach : (s.flash.ctxs[k]).dest = 1 → s.ridgeReaches (s.flash.ctxs[k]).dst (s.flash.ctxs[k]).digestOf.length = true) :
    (u.serveOne k).flash.ctxs[k] = ({ s.flash.ctxs[k] with served := m + 1 } : FCtx).delivered ∧
      ∀ j, j ≠ k → (s.flash.ctxs[j]).state ≠ .running → (u.serveOne k).flash.ctxs[j] = s.flash.ctxs[j] := by
  have hctxs := u.serveOne_ctxs k (by rw [hat, h.reach]; exact hreach)
  refine ⟨?_, fun j hj hs => ?_⟩
  · refine ((congrArg (fun v : Vector FCtx 16 => v[k.val]) hctxs).trans (Vector.getElem_set_self _)).trans ?_
    rw [hat]
    refine if_pos ?_
    simp only [Bool.and_eq_true, beq_iff_eq]
    exact ⟨hlen, hm⟩
  · exact ((congrArg (fun v : Vector FCtx 16 => v[j.val]) hctxs).trans (Vector.getElem_set_ne _ _ fun e => hj (Fin.ext e.symm))).trans
      (h.still j hj hs)

/-- The core serves the message to its end, whatever else it takes on the way (R475). -/
theorem State.Serving.ends (hrun : (s.flash.ctxs[k]).state = .running) (hlen : (s.flash.ctxs[k]).taken.length = (s.flash.ctxs[k]).len)
    (hreach : (s.flash.ctxs[k]).dest = 1 → s.ridgeReaches (s.flash.ctxs[k]).dst (s.flash.ctxs[k]).digestOf.length = true) {n : Nat}
    (h : s.Serving k u) : u.flash.ahead < n →
    (State.serveUntil k n u).flash.ctxs[k] = (s.flash.ctxs[k]).whole.delivered ∧
      ∀ j, j ≠ k → (s.flash.ctxs[j]).state ≠ .running → (State.serveUntil k n u).flash.ctxs[j] = s.flash.ctxs[j] := by
  induction n generalizing u with
  | zero => exact fun hn => absurd hn (Nat.not_lt_zero _)
  | succ n ih =>
    intro hn
    obtain ⟨m, hm, hat⟩ := h.mine
    have hwhole : (u.flash.ctxs[k]).wholeBlock = true := by
      rw [hat]
      unfold FCtx.wholeBlock
      simp only [Bool.and_eq_true, Bool.or_eq_true, beq_iff_eq, decide_eq_true_eq]
      exact ⟨hrun, .inr ⟨hlen, hm⟩⟩
    obtain ⟨j, hnext⟩ := FlashSt.nextBlock_isSome hwhole
    have hjwhole := FlashSt.nextBlock_whole hnext
    have hrunk : (u.flash.ctxs[k]).state = .running := by rw [hat]; exact hrun
    rw [State.serveUntil_next n hrunk hnext]
    by_cases hj : j = k
    · subst hj
      by_cases hm' : m + 1 = (s.flash.ctxs[j]).blocks
      · obtain ⟨hend, hstill⟩ := h.last hat hlen hm' hreach
        rw [State.serveUntil_ended n (by rw [hend, FCtx.delivered_state]; decide), FCtx.whole, ← hm']
        exact ⟨hend, hstill⟩
      · have hserv := h.own hat (by omega)
        have hdrop := FlashSt.ahead_lt (u.serveOne_ctxs j (by rw [hat, h.reach]; exact hreach)) (by rw [hat]; exact hm)
        exact ih hserv (by omega)
    · obtain ⟨hrunj, hlenj⟩ : (u.flash.ctxs[j]).state = .running ∧ (u.flash.ctxs[j]).served < (u.flash.ctxs[j]).blocks := by
        have hst : (u.flash.ctxs[j]).state = .running := by
          unfold FCtx.wholeBlock at hjwhole
          rw [Bool.and_eq_true, beq_iff_eq] at hjwhole
          exact hjwhole.1
        exact FCtx.served_lt _ hjwhole (h.sound j hj hst).2
      have hdrop := FlashSt.ahead_lt (u.serveOne_ctxs j fun e => absurd e (h.sound j hj hrunj).1) hlenj
      exact ih (h.other hj hrunj) (by omega)

/-- The blocks that all contexts have ahead are fewer than the core serves at most. -/
theorem FlashSt.ahead_lt_fuel (f : FlashSt) : f.ahead < (f.ctxs.toList.map fun y => y.blocks + 1).sum := by
  have hlist : f.ctxs.toList = (List.finRange 16).map fun i => f.ctxs[i] := by
    refine List.ext_getElem (by simp) fun i h₁ h₂ => ?_
    simp
  have hsum : (f.ctxs.toList.map fun y => y.blocks + 1).sum = ∑ i : Fin 16, ((f.ctxs[i]).blocks + 1) := by
    rw [hlist, List.map_map, Fin.sum_univ_def]
    rfl
  rw [hsum]
  unfold FlashSt.ahead
  refine Finset.sum_lt_sum (fun i _ => ?_) ⟨0, Finset.mem_univ _, ?_⟩
  · exact (Nat.sub_le _ _).trans (Nat.le_succ _)
  · exact Nat.lt_succ_of_le (Nat.sub_le _ _)

/-- A whole message is served and delivered, and no context that does not run changes (R475, R478, R479). -/
theorem State.fcFinish_delivers (hrun : (s.flash.ctxs[k]).state = .running) (hlen : (s.flash.ctxs[k]).taken.length = (s.flash.ctxs[k]).len)
    (hserved : (s.flash.ctxs[k]).served < (s.flash.ctxs[k]).blocks)
    (hothers : ∀ j : Fin 16, j ≠ k → (s.flash.ctxs[j]).state = .running →
      (s.flash.ctxs[j]).dest ≠ 1 ∧ (s.flash.ctxs[j]).taken.length ≤ (s.flash.ctxs[j]).len)
    (hreach : (s.flash.ctxs[k]).dest = 1 → s.ridgeReaches (s.flash.ctxs[k]).dst (s.flash.ctxs[k]).digestOf.length = true) :
    (s.fcFinish k).flash.ctxs[k] = (s.flash.ctxs[k]).whole.delivered ∧
      ∀ j, j ≠ k → (s.flash.ctxs[j]).state ≠ .running → (s.fcFinish k).flash.ctxs[j] = s.flash.ctxs[j] := by
  have hserving : s.Serving k s := ⟨⟨_, hserved, rfl⟩, hothers, fun _ _ _ => rfl, fun _ _ => rfl⟩
  unfold State.fcFinish
  dsimp only
  rw [if_neg (by rw [hrun, hlen]; simp)]
  exact hserving.ends hrun hlen hreach s.flash.ahead_lt_fuel

end
end Sys2Proof.Machine
end

