-- ==== Sys2Proof/Proofs/YelmAndFlashing.lean ====
section
/-! SUPPORT. The Yelm engines and the registers of the Flashing engine (R457 to R480). -/

namespace Sys2Proof.Machine

set_option Elab.async false

section
variable {γ : Type} {g : State → γ} (hg : CacheBlind g)
include hg

theorem CacheBlind.sysRead (s : State) (a n : Nat) (stream : Bool) : g (s.sysRead a n stream).2 = g s := by
  unfold State.sysRead
  refine foldl_keeps (fun acc : Option Bytes × State => g acc.2) _ (fun acc c => ?_) _ (some [], s)
  refine Eq.trans ?_ (hg.thRead acc.2 (c.1 / 64) stream)
  dsimp only
  split <;> rfl

theorem CacheBlind.devRead (s : State) (a n : Nat) (stream : Bool) : g (s.devRead a n stream).2 = g s := by
  unfold State.devRead
  refine foldl_keeps (fun acc : Option Bytes × State => g acc.2) _ (fun acc c => ?_) _ (some [], s)
  show g (acc.2.devRead1 c.1 c.2 stream).2 = g acc.2
  unfold State.devRead1
  split
  · split
    · rfl
    · exact hg.sysRead acc.2 _ _ _
  · rfl
  · rfl
  · rfl

theorem CacheBlind.yInput (s : State) (a n : Nat) : g (s.yInput a n).2.2 = g s := by
  have h := hg.devRead s a n true
  unfold State.yInput
  split
  case h_1 heq => rw [heq] at h; exact h
  case h_2 heq => rw [heq] at h; exact h

end

theorem timeCacheBlind : CacheBlind State.time :=
  ⟨fun _ _ => rfl, fun _ _ => rfl, fun _ _ _ => rfl, fun _ _ _ => rfl, fun _ _ _ _ => rfl⟩

theorem yelmJobsCacheBlind : CacheBlind (fun s : State => s.yelm.jobs) :=
  ⟨fun _ _ => rfl, fun _ _ => rfl, fun _ _ _ => rfl, fun _ _ _ => rfl, fun _ _ _ _ => rfl⟩

section
variable {s : State} {n : Fin 4}

/-- An idle engine takes the job that R458 ranks first, with the time and at once with BAD_ARGUMENT for a malformed descriptor. -/
theorem State.yelmPoll_takes {c : YCand} (hen : s.yelm.enable = true) (hidle : s.yelm.jobs[n] = none) (hpick : s.yPick n = some c) :
    ∃ j, (s.yelmPoll n).yelm.jobs[n] = some j ∧ j.queue = c.queue.val ∧ j.slot = c.slot ∧ j.tile = c.tile ∧ j.planSlot = c.planSlot ∧
      j.since = s.time.ts ∧ (s.yelmPoll n).yelm.lastQueue = c.queue.val ∧ (yBad j.desc = true → j.ended = some 0x2002) := by
  generalize hu : s.yelmPoll n = u
  unfold State.yelmPoll at hu
  rw [if_neg (by rw [hen, hidle]; decide), hpick] at hu
  dsimp -zeta only at hu
  extract_lets a d w claim early₁ before early x limit job at hu
  have hw : w.time = s.time := (timeCacheBlind.sysWrite _ _ _).trans (timeCacheBlind.sysRead s a 64 false)
  clear_value w
  have hinput := timeCacheBlind.yInput w (yInAddr d) (yInBytes d)
  have hx : x.time = s.time := by
    unfold x
    split
    · exact hw
    · split
      · exact hw
      · exact hinput.trans hw
  have hbad : yBad d = true → early = some 0x2002 := by
    intro h
    have h₁ : early₁ = some 0x2002 := if_pos h
    unfold early
    rw [h₁]
    rfl
  have hsince : job.since = s.time.ts := congrArg TimeSt.ts hx
  have hjob : job.queue = c.queue.val ∧ job.slot = c.slot ∧ job.tile = c.tile ∧ job.planSlot = c.planSlot ∧ job.desc = d ∧ job.ended = early :=
    ⟨rfl, rfl, rfl, rfl, rfl, rfl⟩
  obtain ⟨hqueue, hslot, htile, hplan, hdesc, hended⟩ := hjob
  clear_value job early x before
  subst hu
  refine ⟨job, Vector.getElem_set_self _, hqueue, hslot, htile, hplan, hsince, rfl, ?_⟩
  rw [hdesc, hended]
  exact hbad

theorem State.yelmOutput_jobs (s : State) (j : YJob) (e : YEnd) : (s.yelmOutput j e).2.yelm.jobs = s.yelm.jobs := by
  have hdev := yelmJobsCacheBlind.devWrite
  unfold State.yelmOutput
  have hput : ∀ (u : State) (new : Bytes), (if new.isEmpty then u else u.devWrite (yOutAddr j.desc) new).yelm.jobs = u.yelm.jobs := by
    intro u new
    split
    · rfl
    · exact hdev u _ new
  dsimp only
  split
  · refine (hdev _ _ _).trans ((hput _ _).trans ?_)
    cases e.undef <;> rfl
  · refine (hput _ _).trans ?_
    cases e.undef <;> rfl

theorem State.yelmPace_jobs (s : State) (n : Fin 4) (j : YJob) (consumed made : Nat) : (s.yelmPace n j consumed made).yelm = s.yelm := by
  have hline : ∀ (s : State) (l : Nat), (s.raiseLine l).yelm = s.yelm := by
    intro s l
    unfold State.raiseLine
    dsimp only
    split
    · rfl
    split
    · rfl
    split <;> rfl
  have hlines : ∀ (s : State) (l k : Nat), ((List.range k).foldl (fun s _ => s.raiseLine l) s).yelm = s.yelm := fun s l k =>
    foldl_keeps State.yelm (fun s _ => s.raiseLine l) (fun u _ => hline u l) (List.range k) s
  unfold State.yelmPace
  split
  · rfl
  · exact (hlines _ _ _).trans (hlines _ _ _)

theorem State.yelmCount_keeps (s : State) (status input output : Nat) : (s.yelmCount status input output).yelm = s.yelm ∧
    (s.yelmCount status input output).tiles = s.tiles := by
  unfold State.yelmCount
  dsimp only
  repeat' split
  all_goals exact ⟨rfl, rfl⟩

/-- A job that ends: its engine is free, its tile has the UNIT source, the other engines are as they were. -/
theorem State.yelmEnd_sets (s : State) (n : Fin 4) (j : YJob) : (s.yelmEnd n j).yelm.jobs = s.yelm.jobs.set n none ∧ (s.yelmEnd n j).yelm.read[n] = 0 ∧
    ∀ t, j.tile = some t → (((s.yelmEnd n j).tiles[t]).unitSrc.getLsbD 3 = true) := by
  generalize hu : s.yelmEnd n j = u
  unfold State.yelmEnd at hu
  dsimp -zeta only at hu
  extract_lets had e doneRec a written told freed cons at hu
  have hjobs : written.yelm.jobs = s.yelm.jobs := by
    refine (yelmJobsCacheBlind.sysWrite _ _ _).trans ((yelmJobsCacheBlind.sysWrite _ _ _).trans ?_)
    refine (congrArg YelmSt.jobs (State.logged_stamp _ _).yelm).trans ?_
    exact (congrArg YelmSt.jobs (State.yelmPace_jobs _ n j _ _)).trans (s.yelmOutput_jobs j e)
  clear_value written
  have htold : told.yelm = written.yelm := by
    unfold told
    split <;> rfl
  have hsrc : ∀ t, j.tile = some t → (told.tiles[t]).unitSrc.getLsbD 3 = true := by
    intro t ht
    unfold told
    rw [ht]
    dsimp only
    rw [State.modTile_at]
    simp
  clear_value told
  obtain ⟨hy, ht⟩ := freed.yelmCount_keeps e.status (e.consumed - cons) (s.yelmOutput j e).1
  subst hu
  refine ⟨?_, ?_, fun t h => ?_⟩
  · refine (congrArg YelmSt.jobs hy).trans ?_
    show told.yelm.jobs.set n none = _
    rw [htold, hjobs]
  · exact (congrArg (fun y : YelmSt => y.read[n]) hy).trans (Vector.getElem_set_self _)
  · refine (congrArg (fun v : Vector Tile 64 => (v[t]).unitSrc.getLsbD 3) ht).trans ?_
    exact hsrc t h

end
/-! The registers of the Flashing engine (R475 to R477). -/

section
variable {s : State} {k : Fin 16}

theorem State.modCtx_at (s : State) (k : Fin 16) (f : FCtx → FCtx) : (s.modCtx k f).flash.ctxs[k] = f s.flash.ctxs[k] :=
  Vector.getElem_set_self _

theorem State.modCtx_other (s : State) {k j : Fin 16} (h : j ≠ k) (f : FCtx → FCtx) : (s.modCtx k f).flash.ctxs[j] = s.flash.ctxs[j] :=
  Vector.getElem_set_ne k.isLt j.isLt fun e => h (Fin.ext e.symm)

theorem FCtx.delivered_code (x : FCtx) : x.delivered.code = 0 := by
  unfold FCtx.delivered
  dsimp only
  split <;> rfl

theorem FCtx.delivered_digest (x : FCtx) (h : x.dest = 0) : x.delivered.digest = x.digestOf := by
  unfold FCtx.delivered
  rw [h]
  rfl

theorem FCtx.delivered_memory (x : FCtx) (h : x.dest = 1) : x.delivered.taken = [] := by
  unfold FCtx.delivered
  rw [h]
  rfl

theorem FCtx.delivered_compare (x : FCtx) (h : x.dest = 2) :
    x.delivered.compare = (if x.digestOf.take x.cmpLen == x.expect.take x.cmpLen then 1 else 2) ∧ x.delivered.expect = [] := by
  unfold FCtx.delivered
  rw [h]
  exact ⟨rfl, rfl⟩

/-- A start without an algorithm is refused (R476). -/
theorem State.fcStart_bad {ctrl : Nat} (hset : (s.flash.ctxs[k]).state = .set) (habort : ctrl.testBit 21 = false) (halg : ctrl % 4 = 0) :
    s.fcStart k ctrl = s.modCtx k fun x => { x with ctrl := ctrl % 2 ^ 20, state := .failed, code := stBadArgument } := by
  have hrefuse : s.fcRefuse k { s.flash.ctxs[k] with ctrl := ctrl % 2 ^ 20 } ctrl = some stBadArgument := by
    unfold State.fcRefuse
    dsimp only
    refine if_pos ?_
    have h0 : ({ s.flash.ctxs[k] with ctrl := ctrl % 2 ^ 20 } : FCtx).alg = 0 := by
      show ctrl % 2 ^ 20 % 4 = 0
      omega
    rw [h0]
    simp only [beq_self_eq_true, Bool.true_or]
  unfold State.fcStart
  dsimp only
  rw [bitAt_eq_testBit, habort, if_neg (by decide), if_neg (by rw [hset]; decide), hrefuse]
  rfl

/-- The context of a message without HMAC that starts (R476). -/
def FCtx.started (x : FCtx) (ctrl : Nat) : FCtx :=
  { x with ctrl := ctrl % 2 ^ 20, state := .running, inUse := [], key := [], keyLen := 0, keyMem := false, keyWritten := false, keyAddr := 0
           taken := [], served := 0 }

/-- A start that the checks of R476 pass, of a message without HMAC that is not read from memory. -/
theorem State.fcStart_runs {ctrl : Nat} (hset : (s.flash.ctxs[k]).state = .set) (habort : ctrl.testBit 21 = false)
    (hok : s.fcRefuse k { s.flash.ctxs[k] with ctrl := ctrl % 2 ^ 20 } ctrl = none) (hhmac : ctrl.testBit 2 = false) (hsrc : ctrl / 8 % 4 ≠ 1) :
    s.fcStart k ctrl = s.modCtx k (·.started ctrl) := by
  have hh : ({ s.flash.ctxs[k] with ctrl := ctrl % 2 ^ 20 } : FCtx).hmac = false := by
    show bitAt (ctrl % 2 ^ 20) 2 = false
    rw [bitAt_eq_testBit, Nat.testBit_mod_two_pow, hhmac, Bool.and_false]
  have hs : ((s.flash.ctxs[k]).started ctrl).source ≠ 1 := by
    intro e
    refine hsrc (Eq.trans ?_ e)
    show ctrl / 8 % 4 = ctrl % 2 ^ 20 / 2 ^ 3 % 2 ^ (4 + 1 - 3)
    omega
  unfold State.fcStart
  dsimp only
  rw [bitAt_eq_testBit, habort, if_neg (by decide), if_neg (by rw [hset]; decide), hok]
  dsimp only at hh ⊢
  rw [hh]
  rw [Bool.false_and, Bool.false_and, if_neg (by decide), if_neg (by decide)]
  exact if_neg (by rw [beq_iff_eq]; exact hs)

theorem State.fdAlloc_first (halarm : s.flash.alarms = 0) (hfree : (s.flash.ctxs[k]).state = .free)
    (hfirst : ∀ j : Fin 16, j < k → (s.flash.ctxs[j]).state ≠ .free) :
    s.fdAlloc = (k.val, s.modCtx k fun _ => { FCtx.reset with state := .set }) := by
  have hfind : (List.finRange 16).find? (fun k => (s.flash.ctxs[k]).state == .free) = some k := by
    refine List.find?_eq_some_iff_getElem.mpr ⟨by rw [hfree]; rfl, k.val, by simp, by simp, fun j hj => ?_⟩
    have hj' := hfirst ⟨j, by omega⟩ hj
    simpa using hj'
  unfold State.fdAlloc
  rw [if_neg (by rw [halarm]; decide), hfind]

/-- A message that ends leaves its context delivered and those that do not run alone. -/
theorem State.messageFinish_ends {p : FCtx → Prop} (hrun : (s.flash.ctxs[k]).state = .running)
    (hlen : (s.flash.ctxs[k]).taken.length = (s.flash.ctxs[k]).len) (hserved : (s.flash.ctxs[k]).served < (s.flash.ctxs[k]).blocks)
    (hothers : ∀ j : Fin 16, j ≠ k → (s.flash.ctxs[j]).state = .running →
      (s.flash.ctxs[j]).dest ≠ 1 ∧ (s.flash.ctxs[j]).taken.length ≤ (s.flash.ctxs[j]).len)
    (hreach : (s.flash.ctxs[k]).dest = 1 → s.ridgeReaches (s.flash.ctxs[k]).dst (s.flash.ctxs[k]).digestOf.length = true)
    (hp : p (s.flash.ctxs[k]).whole.delivered) :
    ∃ u, exec (.messageFinish k) s = .next u ∧ p u.flash.ctxs[k] ∧ (u.flash.ctxs[k]).state = .done ∧ (u.flash.ctxs[k]).code = 0 ∧
      ∀ j : Fin 16, j ≠ k → (s.flash.ctxs[j]).state ≠ .running → u.flash.ctxs[j] = s.flash.ctxs[j] := by
  obtain ⟨hat, hstill⟩ := State.fcFinish_delivers hrun hlen hserved hothers hreach
  refine ⟨_, rfl, ?_, ?_, ?_, hstill⟩
  · rw [hat]; exact hp
  · rw [hat]; exact FCtx.delivered_state _
  · rw [hat]; exact FCtx.delivered_code _

end

/-- Settles O32: a job by the engine's step, a message by the blocks the core serves until it is delivered. -/
theorem yelmAndFlashing : Obligations.YelmAndFlashing := by
  unfold Obligations.YelmAndFlashing
  refine ⟨fun s n => ?yelm, fun s k ctrl value data hacts => ?flash⟩
  case yelm =>
    refine ⟨fun hen hidle hpick => ?none, fun c hen hidle hpick => ⟨_, rfl, State.yelmPoll_takes hen hidle hpick⟩, fun hidle => ?idle,
      fun j hj => ⟨s.yelmEnd n j, ?ended, ?_⟩⟩
    case none =>
      refine congrArg Host.Outcome.next ?_
      unfold State.yelmPoll
      rw [if_neg (by rw [hen, hidle]; decide), hpick]
    case idle =>
      refine congrArg Host.Outcome.next ?_
      unfold State.yelmJobDone
      rw [hidle]
    case ended =>
      refine congrArg Host.Outcome.next ?_
      unfold State.yelmJobDone
      rw [hj]
    · obtain ⟨hjobs, hread, hsrc⟩ := s.yelmEnd_sets n j
      refine ⟨?_, hread, hsrc, fun i hi => ?_⟩
      · exact (congrArg (fun v : Vector (Option YJob) 4 => v[n]) hjobs).trans (Vector.getElem_set_self _)
      · exact (congrArg (fun v : Vector (Option YJob) 4 => v[i]) hjobs).trans (Vector.getElem_set_ne _ _ fun e => hi (Fin.ext e.symm))
  case flash =>
    extract_lets x ctx _ _ dig ends
    have hctx : ∀ (i : Instr) (p : FCtx → Prop) (v u : State) (f : FCtx → FCtx), exec i s = .next (if s.ridgeActs then v else s) → v = u →
        u.flash.ctxs = (s.modCtx k f).flash.ctxs → u.mem = s.mem → p (f x) → ctx i p := by
      intro i p v u f hexec hv hctxs hmem hp
      refine ⟨u, hexec.trans (congrArg Host.Outcome.next ((if_pos hacts).trans hv)), ?_, hmem, fun j hj => ?_⟩
      · rw [hctxs, State.modCtx_at]
        exact hp
      · rw [hctxs, State.modCtx_other s hj]
    have hdo : ∀ u : State, (if s.ridgeActs then u else s) = u := fun u => if_pos hacts
    refine ⟨fun hal hfree hfirst => ?alloc, fun hal hall => ?full, fun hal => ?alarm, ?free, fun hset => ?key, fun hset => ?keyLate,
      fun hset hab hc => ?badStart, fun hset hab hok hh hsrc => ?start, fun hend hab => ?restart, fun hrun hsrc => ⟨fun hroom => ?data, fun hfull => ?tooLong⟩,
      fun hrun hlen hserved hothers => ?finish⟩
    case alloc =>
      refine congrArg Host.Outcome.next ((if_pos hacts).trans ?_)
      rw [State.fdAlloc_first hal hfree hfirst]
      rfl
    case full =>
      have hfind : (List.finRange 16).find? (fun k => (s.flash.ctxs[k]).state == .free) = none :=
        List.find?_eq_none.mpr fun j _ => by rw [beq_iff_eq]; exact hall j
      have halloc : s.fdAlloc = (stNoContext * 65536, s.bump 0x2E00 4 1) := by
        unfold State.fdAlloc
        rw [if_neg (by rw [hal]; decide), hfind]
      refine ⟨_, congrArg Host.Outcome.next (if_pos hacts), ?_, ?_⟩
      · rw [halloc]
        rfl
      · rw [halloc]
        exact s.bump_ro 0x2E00 4
    case alarm =>
      have halloc : s.fdAlloc = (stAlarmCleared * 65536, s) := by
        unfold State.fdAlloc
        rw [if_pos (bne_iff_ne.mpr hal)]
      refine congrArg Host.Outcome.next ((if_pos hacts).trans ?_)
      rw [halloc]
      rfl
    case free => exact congrArg Host.Outcome.next (if_pos hacts)
    case key =>
      refine hctx (.fcKeyctl k value) (fun y => y = _) _ _ (fun x => { x with keyLen := value % 2 ^ 13, keyMem := bitAt value 16, keyWritten := true })
        rfl (if_neg ?_) rfl rfl ?_
      · rw [show (s.flash.ctxs[k]).state = .set from hset]; decide
      · rw [bitAt_eq_testBit]
    case keyLate => exact congrArg Host.Outcome.next ((hdo _).trans (if_pos (bne_iff_ne.mpr hset)))
    case badStart =>
      exact hctx (.fcStart k ctrl) (fun y => y.state = .failed ∧ y.code = 0x2002) _ _ (fun x => { x with ctrl := ctrl % 2 ^ 20, state := .failed, code := stBadArgument }) rfl
        (State.fcStart_bad hset hab hc) rfl rfl ⟨rfl, rfl⟩
    case start =>
      exact hctx (.fcStart k ctrl) (fun y => y.state = .running ∧ y.taken = [] ∧ y.ctrl = ctrl % 2 ^ 20) _ _ (·.started ctrl) rfl
        (State.fcStart_runs hset hab hok hh hsrc) rfl rfl ⟨rfl, rfl, rfl⟩
    case restart =>
      refine congrArg Host.Outcome.next ((hdo _).trans ?_)
      unfold State.fcStart
      rw [bitAt_eq_testBit, hab]
      refine if_pos (bne_iff_ne.mpr fun e => ?_)
      rcases hend with h | h <;> exact absurd (h.symm.trans e) (by decide)
    case data =>
      refine hctx (.fcData k data) (fun y => y = _) _ ((s.modCtx k fun y => { y with taken := (x.taken ++ toLE 8 data.toNat).take x.len }).bump 0x2E00 3
        (((x.taken ++ toLE 8 data.toNat).take x.len).length - x.taken.length)) (fun y => { y with taken := (x.taken ++ toLE 8 data.toNat).take x.len }) rfl
        ((if_neg ?_).trans (if_neg (Nat.not_le.mpr hroom))) rfl rfl rfl
      rw [show (s.flash.ctxs[k]).state = .running from hrun, show (s.flash.ctxs[k]).source = 0 from hsrc]
      decide
    case tooLong =>
      refine hctx (.fcData k data) (fun y => y.state = .failed ∧ y.code = 0x2009 ∧ y.digest = FCtx.reset.digest) _ _ (fun _ => FCtx.failedWith stLengthLong) rfl ((if_neg ?_).trans (if_pos hfull)) rfl rfl ⟨rfl, rfl, rfl⟩
      rw [show (s.flash.ctxs[k]).state = .running from hrun, show (s.flash.ctxs[k]).source = 0 from hsrc]
      decide
    case finish =>
      have hothers' : ∀ j : Fin 16, j ≠ k → (s.flash.ctxs[j]).state = .running →
          (s.flash.ctxs[j]).dest ≠ 1 ∧ (s.flash.ctxs[j]).taken.length ≤ (s.flash.ctxs[j]).len := fun j hj hr =>
        ⟨(hothers j hj hr).1, (hothers j hj hr).2.1⟩
      have hnone : x.dest ≠ 1 → x.dest = 1 → s.ridgeReaches x.dst dig.length = true := fun h e => absurd e h
      refine ⟨fun hdest => ?_, fun hdest hreach => ?_, fun hdest => ?_⟩
      · exact State.messageFinish_ends (p := fun y => y.digest = dig) hrun hlen hserved hothers' (hnone (by rw [hdest]; decide))
          (x.whole.delivered_digest hdest)
      · exact State.messageFinish_ends (p := fun y => y.taken = []) hrun hlen hserved hothers' (fun _ => hreach) (x.whole.delivered_memory hdest)
      · obtain ⟨hcompare, hexpect⟩ := x.whole.delivered_compare hdest
        exact State.messageFinish_ends
          (p := fun y => y.compare = (if dig.take x.cmpLen = x.expect.take x.cmpLen then 1 else 2) ∧ y.expect = []) hrun hlen hserved hothers'
          (hnone (by rw [hdest]; decide)) ⟨hcompare.trans (if_congr beq_iff_eq rfl rfl), hexpect⟩

end Sys2Proof.Machine
end

