-- ==== Sys2Proof/Proofs/MemoryUpkeepAndKeep.lean ====
section
/-! SUPPORT. What upkeep of the memory, a migration and the Keep leave, each read off the event's own case. -/

namespace Sys2Proof.Machine

set_option Elab.async false

section
variable {s : State} {chan : Fin 8} {bank row : Nat}

/-! Scrubbing, row hammer and windows (R416, R419, R420). -/

theorem State.scrub_counts {n : Nat} (rank : Nat) (hlines : 64 ≤ s.dram.managed) (hkeep : s.dram.phase ≠ .inKeep) (hn : 0 < n) :
    (s.scrub 0 0 (some (rank, n))).mem = s.mem ∧
      ngetZ (s.scrub 0 0 (some (rank, n))).dram.ecs (rank % 16) = max (ngetZ s.dram.ecs (rank % 16)) n := by
  have h0 : (s.dram.managed / 64 == 0 || s.dram.phase == .inKeep) = false := by
    rw [beq_eq_false_iff_ne.mpr hkeep, Bool.or_false, beq_eq_false_iff_ne]
    omega
  unfold State.scrub
  dsimp only
  rw [h0, if_neg Bool.false_ne_true]
  generalize hu : (if State.lineBad _ _ then _ else _ : State) = u
  have hu' : u.mem = s.mem ∧ u.dram.ecs = s.dram.ecs := by
    rw [← hu]
    unfold State.ecc
    split
    · exact ⟨rfl, rfl⟩
    · exact ⟨rfl, rfl⟩
  obtain ⟨hmem, hecs⟩ := hu'
  refine ⟨hmem, ?_⟩
  show ngetZ (nputZ u.dram.ecs (rank % 16) (max (ngetZ u.dram.ecs (rank % 16)) n)) (rank % 16) = _
  rw [hecs]
  unfold nputZ
  rw [if_neg (by rw [beq_iff_eq]; omega), ngetZ, nget_nput_self]
  rfl

theorem State.modMemChan_at (s : State) (m : Fin 8) (f : MemChan → MemChan) : (s.modMemChan m f).dram.chans[m] = f s.dram.chans[m] :=
  Vector.getElem_set_self _

theorem State.modMemChan_congr (s : State) {m : Fin 8} {f g : MemChan → MemChan} (h : f s.dram.chans[m] = g s.dram.chans[m]) :
    s.modMemChan m f = s.modMemChan m g :=
  congrArg (fun c => s.modDram fun d => { d with chans := d.chans.set m c }) h

/-- A refresh closes the rows of its bank in every bank group (R412). -/
theorem State.refresh_pages (s : State) (chan : Fin 8) (bank : Nat) (p : OpenPage) :
    p ∈ ((s.dram.chans[chan]).pages.filter fun p => p.bank / 32 != bank / 32 || p.bank % 4 != bank % 4) ↔
      p ∈ (s.dram.chans[chan]).pages ∧ ¬(p.bank / 32 = bank / 32 ∧ p.bank % 4 = bank % 4) := by
  rw [List.mem_filter, Bool.or_eq_true, bne_iff_ne, bne_iff_ne, not_and_or]

/-- Scrubbing a line without an error (R416). -/
theorem State.scrub_clean (hlines : 64 ≤ s.dram.managed) (hkeep : s.dram.phase ≠ .inKeep) :
    s.scrub 0 0 none = s.modDram fun d => { d with scrubLine := (d.scrubLine + 1) % (s.dram.managed / 64) } := by
  have h0 : (s.dram.managed / 64 == 0 || s.dram.phase == .inKeep) = false := by
    rw [beq_eq_false_iff_ne.mpr hkeep, Bool.or_false, beq_eq_false_iff_ne]
    omega
  unfold State.scrub
  dsimp only
  rw [h0, if_neg Bool.false_ne_true]
  split
  · rfl
  · rfl

/-- A row at the threshold throttles the requester that activated it most (R420). -/
theorem State.rowHammer_throttles {r : RhRow} (h : (s.dram.chans[chan]).rows.find? (fun r =>
    r.bank == bank && r.row == row && (s.dram.chans[chan]).rhThreshold ≤ r.count && !r.acted) = some r) :
    (s.rowHammer chan bank row).mem = s.mem ∧ (⟨2 * chan.val + bank / 64, bank % 64, r.top.1, r.top.2, 8, (s.rowHammer chan bank row).time.ts, 2⟩ :
      Throttle) ∈ ((s.rowHammer chan bank row).dram.chans[chan]).throttles ∧
      ∀ x ∈ ((s.rowHammer chan bank row).dram.chans[chan]).rows, x.bank = bank → x.row = row → x.acted = true := by
  unfold State.rowHammer
  dsimp only
  rw [h]
  dsimp only
  generalize hu : State.raise _ _ _ = u
  have hmem : u.mem = s.mem := by rw [← hu]; exact (State.logged_raise _ _ _).mem
  refine ⟨hmem, ?_, ?_⟩
  · rw [State.modMemChan_at]
    exact List.mem_append_right _ (List.mem_singleton.mpr rfl)
  · rw [State.modMemChan_at]
    intro x hx hb hr
    obtain ⟨y, -, rfl⟩ := List.mem_map.mp hx
    by_cases hy : (y.bank == bank && y.row == row) = true
    · rw [if_pos hy]
    · rw [if_neg hy] at hb hr
      exact absurd (by rw [hb, hr, beq_self_eq_true, beq_self_eq_true]; rfl) hy

/-- A window's end forgets the rows and shortens the throttles (R420). -/
theorem mem_windowEnd (l : List Throttle) (t : Throttle) : t ∈ (l.map fun t => { t with windows := t.windows - 1 }).filter (0 < ·.windows) ↔
    0 < t.windows ∧ { t with windows := t.windows + 1 } ∈ l := by
  rw [List.mem_filter, decide_eq_true_eq, and_comm]
  refine and_congr_right fun hw => ?_
  rw [List.mem_map]
  constructor
  · rintro ⟨y, hy, rfl⟩
    have hpos : y.windows - 1 + 1 = y.windows := Nat.sub_add_cancel (by dsimp only at hw; omega)
    rw [show ({ ({ y with windows := y.windows - 1 } : Throttle) with windows := y.windows - 1 + 1 } : Throttle) = y by rw [hpos]]
    exact hy
  · exact fun h => ⟨_, h, rfl⟩

/-! Migration of a retired rank (R427 to R429). -/

/-- The controllers' state without what a write to device memory changes of it. -/
def DramSt.settled (d : DramSt) : DramSt := d.touch fun _ => (.replicate 8 .reset, [])

/-- The settled state of the controllers. -/
def State.dramSettled (s : State) : DramSt := s.dram.settled

/-- What it holds: the ranks and the migration. -/
theorem State.of_settled {u : State} (h : u.dramSettled = s.dramSettled) : u.dram.mig = s.dram.mig ∧ u.dram.remap = s.dram.remap ∧
    u.dram.migSlot = s.dram.migSlot ∧ u.dram.ranksOut = s.dram.ranksOut ∧ u.dram.rankSize = s.dram.rankSize :=
  ⟨(congrArg DramSt.mig h :), (congrArg DramSt.remap h :), (congrArg DramSt.migSlot h :), (congrArg DramSt.ranksOut h :), (congrArg DramSt.rankSize h :)⟩

theorem State.out_of_settled {u : State} (h : u.dramSettled = s.dramSettled) (hout : bitAt s.dram.ranksOut s.dram.mig.fromRank = true) :
    bitAt u.dram.ranksOut u.dram.mig.fromRank = true := by
  obtain ⟨hmig, -, -, hranks, -⟩ := State.of_settled h
  rw [hmig, hranks]
  exact hout

theorem settledRowBlind : RowBlind State.dramSettled where
  toCacheBlind := ⟨fun _ _ => rfl, fun _ _ => rfl, fun _ _ _ => rfl, fun _ _ _ => rfl, fun _ _ _ _ => rfl⟩
  modPurlin := fun _ _ => rfl
  modErr := fun _ _ => rfl
  modTime := fun _ _ => rfl
  modHost := fun _ _ => rfl
  modOuts := fun _ _ => rfl
  modDict := fun _ _ => rfl
  modIngest := fun _ _ => rfl
  modTables := fun _ _ => rfl
  modBatten := fun _ _ => rfl
  modFreeCtr := fun _ _ => rfl

theorem State.still_dram (s : State) : s.Still State.dramSettled s.dramSettled := ⟨settledRowBlind, rfl⟩

theorem State.Still.movedPieces {γ : Type} {view : State → γ} {seen : γ} (h : s.Still view seen) (mine other lens : List Nat) :
    (s.movedPieces mine other lens).2.Still view seen := by
  unfold State.movedPieces
  refine State.Still.foldl_snd (fun p a hp => ?_) h
  obtain ⟨⟨m, o⟩, n⟩ := a
  dsimp only
  split
  · exact State.Still.newCopy hp (d := p.2.dram.migrated) (a := o) (n := n)
  · exact hp

theorem State.Still.moveCopies {γ : Type} {view : State → γ} {seen : γ} (h : s.Still view seen) (id no : Nat) :
    (s.moveCopies id no).Still view seen := by
  unfold State.moveCopies
  split
  · exact h
  · extract_lets lens
    have h₁ := fun mine other => h.movedPieces mine other lens
    have h₂ := fun mine other mine' other' => (h₁ mine other).movedPieces mine' other' lens
    dsimp only
    split
    · exact h₂ _ _ _ _
    · exact (h₂ _ _ _ _).modTable.storeSeg

theorem State.clearUnit_settled (s : State) : s.clearUnit.dramSettled = s.dramSettled :=
  (s.still_dram.foldl fun _ _ hu => hu.foldl fun _ _ hv => hv.moveCopies _ _).eq

theorem State.clearUnit_of_none (h : ∀ p ∈ s.tables.tables, p.2.desc.lapped = false) : s.clearUnit = s := by
  unfold State.clearUnit
  rw [List.filter_eq_nil_iff.mpr fun p hp => by rw [h p hp]; exact Bool.false_ne_true]
  rfl

theorem State.harmAt_settled (s : State) (a : Nat) : (s.harmAt a).2.dramSettled = s.dramSettled :=
  (s.still_dram.foldl fun _ _ hu => hu.modTable).eq

theorem State.lappedAt_of_none (h : ∀ p ∈ s.tables.tables, p.2.desc.lapped = false) (a : Nat) : s.lappedAt a = [] := by
  unfold State.lappedAt
  rw [List.filter_eq_nil_iff.mpr fun p hp => by rw [h p hp]; exact Bool.false_ne_true]
  rfl

theorem State.harmAt_of_none (h : ∀ p ∈ s.tables.tables, p.2.desc.lapped = false) (a : Nat) : s.harmAt a = (false, s) := by
  unfold State.harmAt
  rw [State.lappedAt_of_none h]
  rfl

theorem State.retireRank_of_out {phys : Nat} (h : bitAt s.dram.ranksOut phys = true) (cause : Stamp) : s.retireRank phys cause = s := by
  unfold State.retireRank
  rw [if_pos h]

/-- An unreadable line of a rank that is out: the ranks and the migration stand. -/
theorem State.uncorrectable_settled {phys : Nat} (hout : bitAt s.dram.ranksOut phys = true) (addr : Nat) :
    (s.uncorrectable phys addr).dramSettled = s.dramSettled := by
  unfold State.uncorrectable
  have hharm := s.harmAt_settled addr
  generalize s.harmAt addr = r at hharm ⊢
  obtain ⟨lapped, s₁⟩ := r
  dsimp only at hharm ⊢
  generalize hu : (if lapped = true then _ else _ : State) = u
  have hu' : u.dramSettled = s₁.dramSettled := by
    rw [← hu]
    split
    · rfl
    · exact (congrArg DramSt.settled (State.logged_raise _ _ _).dram).trans rfl
  have hout' : bitAt u.dram.ranksOut phys = true := by
    obtain ⟨-, -, -, hranks, -⟩ := State.of_settled (hu'.trans hharm)
    rw [hranks]
    exact hout
  rw [State.retireRank_of_out hout']
  exact hu'.trans hharm

/-- With no table lapped it poisons the line, and changes neither memory nor a table. -/
theorem State.uncorrectable_of_none {phys : Nat} (hout : bitAt s.dram.ranksOut phys = true) (h : ∀ p ∈ s.tables.tables, p.2.desc.lapped = false) (addr : Nat) :
    (s.uncorrectable phys addr).mem = s.mem ∧ (s.uncorrectable phys addr).tables = s.tables ∧
      (s.uncorrectable phys addr).dram.poison = nput s.dram.poison (addr / 64) () := by
  unfold State.uncorrectable
  rw [State.harmAt_of_none h]
  dsimp only
  rw [if_neg Bool.false_ne_true]
  generalize hu : State.raise _ _ _ = u
  have hlog : State.Logged _ u := hu ▸ State.logged_raise _ _ _
  rw [State.retireRank_of_out (by rw [hlog.dram]; exact hout)]
  exact ⟨hlog.mem, hlog.tables, congrArg DramSt.poison hlog.dram⟩

/-- The unreadable lines of a migrated unit, each met in turn. -/
def State.unreadable (s : State) (l : List Nat) : State := l.foldl (fun s l => s.uncorrectable s.dram.mig.fromRank (64 * l)) s

theorem State.unreadable_settled (l : List Nat) (hout : bitAt s.dram.ranksOut s.dram.mig.fromRank = true) :
    (s.unreadable l).dramSettled = s.dramSettled := by
  induction l generalizing s with
  | nil => rfl
  | cons a l ih =>
    have h := State.uncorrectable_settled hout (64 * a)
    exact (ih (State.out_of_settled h hout)).trans h

theorem State.unreadable_of_none (l : List Nat) (hout : bitAt s.dram.ranksOut s.dram.mig.fromRank = true)
    (h : ∀ p ∈ s.tables.tables, p.2.desc.lapped = false) : (s.unreadable l).mem = s.mem ∧
      ∀ k, (nget s.dram.poison k).isSome = true ∨ k ∈ l → (nget (s.unreadable l).dram.poison k).isSome = true := by
  induction l generalizing s with
  | nil => exact ⟨rfl, fun k hk => hk.resolve_right List.not_mem_nil⟩
  | cons a l ih =>
    have hset := State.uncorrectable_settled hout (64 * a)
    obtain ⟨hmem, htables, hpoison⟩ := State.uncorrectable_of_none hout h (64 * a)
    obtain ⟨hmem', hk'⟩ := ih (State.out_of_settled hset hout) (by rw [htables]; exact h)
    refine ⟨hmem'.trans hmem, fun k hk => hk' k ?_⟩
    rw [Nat.mul_div_cancel_left _ (by decide : 0 < 64)] at hpoison
    rw [hpoison]
    by_cases hka : k = a
    · exact .inl (by rw [hka, nget_nput_self]; rfl)
    · rw [nget_nput_ne _ _ hka]
      exact hk.imp_right fun hk => (List.mem_cons.mp hk).resolve_left hka

theorem State.writeBootFlash_leaves (s : State) : s.writeBootFlash.dram = s.dram ∧ s.writeBootFlash.mem = s.mem := by
  unfold State.writeBootFlash
  split
  · exact ⟨rfl, rfl⟩
  · have hlog := State.logged_stamp s s.ridgeSrc
    exact ⟨hlog.dram, hlog.mem⟩

/-- A unit of a migration that ends, in the controllers' state (R428). -/
def DramSt.unitEnds (d : DramSt) : DramSt :=
  let u := d.mig.units + 1
  if d.unitsTotal ≤ u then
    { d with mig := { d.mig with units := u, state := 3 }, remap := lset d.remap d.migSlot d.mig.toRank }
  else { d with mig := { d.mig with units := u } }

theorem DramSt.unitEnds_last {d : DramSt} (h : d.unitsTotal ≤ d.mig.units + 1) : d.unitEnds =
    { d with mig := { d.mig with units := d.mig.units + 1, state := 3 }, remap := lset d.remap d.migSlot d.mig.toRank } := if_pos h

theorem DramSt.unitEnds_more {d : DramSt} (h : d.mig.units + 1 < d.unitsTotal) : d.unitEnds =
    { d with mig := { d.mig with units := d.mig.units + 1 } } := if_neg (Nat.not_le.mpr h)

theorem DramSt.unitEnds_poison (d : DramSt) : d.unitEnds.poison = d.poison := by
  rcases Nat.lt_or_ge (d.mig.units + 1) d.unitsTotal with h | h
  · rw [DramSt.unitEnds_more h]
  · rw [DramSt.unitEnds_last h]

theorem DramSt.unitEnds_units (d : DramSt) : d.unitEnds.mig.units = d.mig.units + 1 := by
  rcases Nat.lt_or_ge (d.mig.units + 1) d.unitsTotal with h | h
  · rw [DramSt.unitEnds_more h]
  · rw [DramSt.unitEnds_last h]

/-- The unit's copies made and its unreadable lines met. -/
def State.unitMoved (s : State) (bad : List Nat) : State := s.clearUnit.unreadable (bad.filter fun l => s.clearUnit.dram.inUnit (l / 64))

theorem State.migrationUnit_ends (bad : List Nat) (hstate : s.dram.mig.state = 1) :
    (s.migrationUnit bad).dram = (s.unitMoved bad).dram.unitEnds ∧ (s.migrationUnit bad).mem = (s.unitMoved bad).mem := by
  have hrun : (s.dram.mig.state != 1) = false := by rw [hstate]; rfl
  unfold State.migrationUnit
  rw [hrun, if_neg Bool.false_ne_true]
  show State.dram (if _ then ((s.unitMoved bad).modDram DramSt.unitEnds).writeBootFlash else (s.unitMoved bad).modDram DramSt.unitEnds) = _ ∧
    State.mem (if _ then ((s.unitMoved bad).modDram DramSt.unitEnds).writeBootFlash else (s.unitMoved bad).modDram DramSt.unitEnds) = _
  split
  · exact State.writeBootFlash_leaves _
  · exact ⟨rfl, rfl⟩

theorem State.unitMoved_settled (bad : List Nat) (hout : bitAt s.dram.ranksOut s.dram.mig.fromRank = true) :
    (s.unitMoved bad).dramSettled = s.dramSettled :=
  (State.unreadable_settled _ (State.out_of_settled s.clearUnit_settled hout)).trans s.clearUnit_settled

/-- With no table lapped, memory stands and the unit's unreadable lines are POISONED. -/
theorem State.unitMoved_of_none {bad : List Nat} (hout : bitAt s.dram.ranksOut s.dram.mig.fromRank = true)
    (h : ∀ p ∈ s.tables.tables, p.2.desc.lapped = false) : (s.unitMoved bad).mem = s.mem ∧
      ∀ l ∈ bad, s.dram.inUnit (l / 64) = true → (nget (s.unitMoved bad).dram.poison l).isSome = true := by
  unfold State.unitMoved
  rw [State.clearUnit_of_none h]
  obtain ⟨hmem, hpoison⟩ := State.unreadable_of_none (bad.filter fun l => s.dram.inUnit (l / 64)) hout h
  exact ⟨hmem, fun l hl hunit => hpoison l (.inr (List.mem_filter.mpr ⟨hl, hunit⟩))⟩

/-! The Keep (R421 to R424). -/

theorem State.setPowered_view {γ : Type} {g : State → γ} (hg : ∀ s f, g (s.modErr f) = g s) (s : State) (b : Bool) :
    g ((s.setPowered b).setOutage false) = g s :=
  (hg _ _).trans ((hg _ _).trans (hg _ _))

/-- What the entry leaves: memory and its status (R423, R424). -/
theorem State.enterKeep_sets (s : State) (valid : Bool) : (s.enterKeep valid).dram.phase = .inKeep ∧ (s.enterKeep valid).dram.keepValid = valid ∧
    (s.enterKeep valid).dram.overran = s.dram.overran ∧ (s.enterKeep valid).boot.mainEn = false ∧
    (s.enterKeep valid).dram.retainFrom = some (s.enterKeep valid).time.ts ∧
    ∀ y, (s.enterKeep valid).dram.managed * (s.enterKeep valid).dram.eighths / 8 ≤ y → memByte (s.enterKeep valid).mem y = 0 := by
  have hdram : s.dark.dram = { s.dram with chans := .replicate 8 .reset } :=
    congrArg (fun d : DramSt => { d with chans := Vector.replicate 8 .reset }) (State.setPowered_view (g := State.dram) (fun _ _ => rfl) s false)
  refine ⟨rfl, rfl, ?_, rfl, rfl, ?_⟩
  · show s.dark.dram.overran = _
    rw [hdram]
  · intro y hy
    have hkeep : s.keepBytes ≤ y := by
      have hsize : s.dark.dram.managed * s.dark.dram.eighths / 8 ≤ y := hy
      rw [hdram] at hsize
      exact hsize
    show (nget (s.dark.mem.filter fun c => c.1 < s.keepBytes) y).getD 0 = 0
    rw [nget_filter_none _ fun v => decide_eq_false (by dsimp only; omega)]
    rfl

end

/-- What an entry that ends in time leaves (R422, R423). -/
theorem State.selfRefresh_enters (s : State) (hphase : s.dram.phase = .entering) (hwaits : s.keepWaits = false) :
    ∃ u : State, s.selfRefresh = u.enterKeep true := by
  unfold State.selfRefresh
  rw [hphase, hwaits]
  exact ⟨_, rfl⟩

/-- An entry that overruns its limit (R423). -/
theorem execKeepEntryLimitExpiry_enters (s : State) {k : Stamp} (hphase : s.dram.phase = .entering) (hstamp : s.dram.keepStamp = some k) :
    ∃ u : State, execKeepEntryLimitExpiry s = .next ((u.modDram fun d => { d with overran := true }).enterKeep false) := by
  unfold execKeepEntryLimitExpiry
  rw [hphase, hstamp]
  exact ⟨_, rfl⟩

/-- The retention limit (R424). -/
theorem State.keepLapse_sets (s : State) {t : Nat} (hphase : s.dram.phase = .inKeep) (ht : s.dram.retainFrom = some t) (hours : Nat) :
    (s.keepLapse hours).dram.keepValid = false ∧ (s.keepLapse hours).mem = [] ∧ (s.keepLapse hours).dram.phase = .inKeep ∧
      (s.keepLapse hours).dram.modulesReset = true ∧ (s.keepLapse hours).boot = s.boot := by
  unfold State.keepLapse
  rw [hphase, ht]
  exact ⟨rfl, rfl, hphase, rfl, rfl⟩

/-- Settles O29: by the case of each event; the migration goes by the controllers' state that no write to memory changes. -/
theorem memoryUpkeepAndKeep : Obligations.MemoryUpkeepAndKeep := by
  refine ⟨fun s chan bank row rank n bad => ⟨⟨_, rfl, s.modMemChan_congr ?_, fun p => ?_⟩, ⟨_, rfl, s.bump_ro _ _, rfl⟩, fun hlines hkeep =>
    ⟨congrArg Host.Outcome.next (State.scrub_clean hlines hkeep), fun hn => ⟨_, rfl, State.scrub_counts rank hlines hkeep hn⟩⟩,
    fun r hr => ⟨_, rfl, State.rowHammer_throttles hr⟩, ⟨_, rfl, congrArg MemChan.rows (s.modMemChan_at chan _), rfl, fun t => ?_⟩,
    fun hstate hout => ⟨_, rfl, ?_⟩⟩, fun s => ⟨fun hhigh hphase => ?_, fun t ht hms hhigh hphase hservice => ?_, fun k hphase hstamp => ?_,
    fun t hphase ht => ?_, fun hphase hwake hmain => ?_, fun hphase hwaits => ?_⟩⟩
  · rw [State.modMemChan_at]
  · rw [State.modMemChan_at]
    exact s.refresh_pages chan bank p
  · rw [State.modMemChan_at]
    exact mem_windowEnd _ t
  · obtain ⟨hdram, hmem⟩ := State.migrationUnit_ends bad hstate
    obtain ⟨hmig, hremap, hslot, -, hsize⟩ := State.of_settled (State.unitMoved_settled bad hout)
    rw [hdram, hmem]
    have htotal : (s.unitMoved bad).dram.unitsTotal = s.dram.rankSize / 2 ^ 20 := congrArg (· / 2 ^ 20) hsize
    refine ⟨?_, fun hnone => ?_, fun hmore => ?_, fun hlast => ?_⟩
    · rw [DramSt.unitEnds_units, hmig]
    · rw [DramSt.unitEnds_poison]
      exact State.unitMoved_of_none hout hnone
    · rw [DramSt.unitEnds_more (by rw [htotal, hmig]; exact hmore)]
      exact ⟨(congrArg MigProgress.state hmig).trans hstate, hremap⟩
    · rw [DramSt.unitEnds_last (by rw [htotal, hmig]; exact hlast)]
      dsimp only
      rw [hmig, hremap, hslot]
      exact ⟨rfl, rfl⟩
  · refine ⟨_, congrArg Host.Outcome.next (if_pos ?_), rfl, rfl, rfl, rfl⟩
    rw [hhigh, bne_iff_ne.mpr hphase]
    rfl
  · show Host.Outcome.next (match s.dram.wakeLowAt with | some t => _ | none => s) = _
    rw [ht]
    dsimp only
    rw [beq_eq_false_iff_ne.mpr hms, hhigh, hphase, hservice]
    rfl
  · obtain ⟨u, hu⟩ := execKeepEntryLimitExpiry_enters s hphase hstamp
    obtain ⟨hin, hvalid, hover, hmain, hretain, -⟩ := (u.modDram fun d => { d with overran := true }).enterKeep_sets false
    exact ⟨_, hu, hin, hvalid, hover, hmain, hretain⟩
  · exact ⟨_, rfl, s.keepLapse_sets hphase ht _⟩
  · refine congrArg Host.Outcome.next (if_pos ?_)
    rw [hphase, hwake, hmain]
    rfl
  · obtain ⟨u, hu⟩ := s.selfRefresh_enters hphase hwaits
    obtain ⟨hin, hvalid, -, hmain, hretain, hmem⟩ := u.enterKeep_sets true
    exact ⟨_, congrArg Host.Outcome.next hu, hin, hvalid, hmain, hretain, hmem⟩
end Sys2Proof.Machine
end

