-- ==== Sys2Proof/Proofs/MemoryRequests.lean ====
section
/-! SUPPORT. Accesses of a row of memory, and writes by a channel's queue. -/

namespace Sys2Proof.Machine

set_option Elab.async false

section
variable {s : State} {a hint : Nat}

/-! Accesses of a row (R412). -/

theorem State.modMemChan_twice (s : State) (m : Fin 8) (f g : MemChan → MemChan) : (s.modMemChan m f).modMemChan m g = s.modMemChan m (g ∘ f) := by
  have hset : ∀ x, (s.dram.chans.set m x).set m (g (s.dram.chans.set m x)[m]) = s.dram.chans.set m (g x) := fun x => by
    rw [Vector.set_set]
    exact congrArg (fun c => s.dram.chans.set m (g c)) (Vector.getElem_set_self _)
  exact congrArg (fun c => s.modDram fun d => { d with chans := c }) (hset _)

theorem State.modMemChan_other (s : State) {m k : Fin 8} (h : k ≠ m) (f : MemChan → MemChan) :
    (s.modMemChan m f).dram.chans[k] = s.dram.chans[k] :=
  Vector.getElem_set_ne m.isLt k.isLt fun e => h (Fin.ext e.symm)

/-- The rows open after an access of a row with a hint. -/
def State.pagesAfter (s : State) (a hint : Nat) (l : List OpenPage) : List OpenPage :=
  l.filter (·.bank != s.bankKey a) ++ if hint == 2 then [] else [⟨s.bankKey a, (s.dram.place a).row, s.time.ts, hint == 0⟩]

/-- An access of a row changes the open rows of its channel, and with an activation the tracked rows and the throttles. -/
def State.Touched (s : State) (a hint : Nat) (u : State) : Prop :=
  ∃ rows throttles, u = s.modMemChan (s.dram.chanOf a) (fun c =>
      { c with pages := s.pagesAfter a hint c.pages, rows := rows, throttles := throttles }) ∧
    (s.rowOpen a = true → rows = (s.dram.chans[s.dram.chanOf a]).rows ∧ throttles = (s.dram.chans[s.dram.chanOf a]).throttles)

theorem State.activate_rows (s : State) (a src8 planSlot : Nat) : ∃ rows throttles, s.activate a src8 planSlot =
    s.modMemChan (s.dram.chanOf a) fun c => { c with rows := rows, throttles := throttles } := by
  unfold State.activate
  extract_lets slot p rank key
  exact ⟨_, _, s.modMemChan_congr rfl⟩

theorem State.touchRow_touched (s : State) (a src8 planSlot hint : Nat) : s.Touched a hint (s.touchRow a src8 planSlot hint) := by
  unfold State.touchRow
  split
  next hopen => exact ⟨_, _, s.modMemChan_congr rfl, fun _ => ⟨rfl, rfl⟩⟩
  next hclosed =>
    obtain ⟨rows, throttles, hact⟩ := s.activate_rows a src8 planSlot
    rw [hact]
    exact ⟨rows, throttles, s.modMemChan_twice _ _ _, fun h => absurd h hclosed⟩

theorem State.mem_pagesAfter (s : State) (a hint : Nat) (l : List OpenPage) {p : OpenPage} (hp : p.bank = s.bankKey a) :
    p ∈ s.pagesAfter a hint l ↔ hint ≠ 2 ∧ p = ⟨s.bankKey a, (s.dram.place a).row, s.time.ts, decide (hint = 0)⟩ := by
  unfold State.pagesAfter
  rw [List.mem_append, List.mem_filter, hp, bne_self_eq_false]
  by_cases h2 : hint = 2
  · rw [if_pos (beq_iff_eq.mpr h2)]
    exact ⟨fun h => h.elim (fun h => absurd h.2 Bool.false_ne_true) (fun h => absurd h List.not_mem_nil), fun h => absurd h2 h.1⟩
  · rw [if_neg (by rwa [beq_iff_eq]), List.mem_singleton]
    exact ⟨fun h => ⟨h2, h.resolve_left fun h => Bool.false_ne_true h.2⟩, fun h => .inr h.2⟩

/-- The rows of a bank after an access, where nothing else touched the open rows. -/
theorem State.Touched.pages {u v : State} (h : s.Touched a hint u) (hv : (v.dram.chans[s.dram.chanOf a]).pages = (u.dram.chans[s.dram.chanOf a]).pages)
    (p : OpenPage) (hp : p.bank = s.bankKey a) : p ∈ (v.dram.chans[s.dram.chanOf a]).pages ↔
      hint ≠ 2 ∧ p = ⟨s.bankKey a, (s.dram.place a).row, s.time.ts, decide (hint = 0)⟩ := by
  obtain ⟨rows, throttles, rfl, -⟩ := h
  rw [hv, State.modMemChan_at]
  exact s.mem_pagesAfter a hint _ hp

theorem State.Touched.only {u : State} (h : s.Touched a hint u) :
    u = s.modMemChan (s.dram.chanOf a) (fun c =>
        { c with pages := (u.dram.chans[s.dram.chanOf a]).pages, rows := (u.dram.chans[s.dram.chanOf a]).rows,
                 throttles := (u.dram.chans[s.dram.chanOf a]).throttles }) ∧
      (s.rowOpen a = true → (u.dram.chans[s.dram.chanOf a]).rows = (s.dram.chans[s.dram.chanOf a]).rows ∧
        (u.dram.chans[s.dram.chanOf a]).throttles = (s.dram.chans[s.dram.chanOf a]).throttles) := by
  obtain ⟨rows, throttles, rfl, hopen⟩ := h
  rw [State.modMemChan_at]
  exact ⟨s.modMemChan_congr rfl, hopen⟩

/-- What an access of a row leaves of every channel. -/
theorem State.Touched.chan {u : State} (h : s.Touched a hint u) (k : Fin 8) : (u.dram.chans[k]).writes = (s.dram.chans[k]).writes ∧
    (u.dram.chans[k]).wmHigh = (s.dram.chans[k]).wmHigh ∧ (u.dram.chans[k]).ce = (s.dram.chans[k]).ce ∧ (u.dram.chans[k]).ue = (s.dram.chans[k]).ue := by
  obtain ⟨rows, throttles, rfl, -⟩ := h
  by_cases hk : k = s.dram.chanOf a
  · subst hk
    rw [State.modMemChan_at]
    exact ⟨rfl, rfl, rfl, rfl⟩
  · rw [State.modMemChan_other s hk]
    exact ⟨rfl, rfl, rfl, rfl⟩

/-- It changes nothing but its channel. -/
theorem State.Touched.besides {u : State} (h : s.Touched a hint u) : ∃ chans, u = s.modDram fun d => { d with chans := chans } := by
  obtain ⟨rows, throttles, rfl, -⟩ := h
  exact ⟨_, rfl⟩

/-! Writes (R410, R411). -/

theorem State.storeBytes_view {γ : Type} {g : State → γ} (hmem : ∀ s f, g (s.modMem f) = g s)
    (hpoison : ∀ (s : State) (p : NMap Unit → NMap Unit), g (s.modDram fun d => { d with poison := p d.poison }) = g s) (s : State) (a : Nat) (bs : Bytes) :
    g (s.storeBytes a bs) = g s := by
  have hfold := fun l => foldl_keeps g (fun s (x : Byte × Nat) => State.storeByte s (a + x.2) x.1) (fun s x => by
    unfold State.storeByte
    split
    · rfl
    · exact hmem s _) l s
  unfold State.storeBytes
  dsimp only
  split
  · exact hfold _
  · exact (hpoison _ fun p => (wholeLines a bs.length).foldl (fun p l => ndel p l) p).trans (hfold _)

theorem State.storeBytes_chans (s : State) (a : Nat) (bs : Bytes) : (s.storeBytes a bs).dram.chans = s.dram.chans :=
  State.storeBytes_view (g := fun s => s.dram.chans) (fun _ _ => rfl) (fun _ _ => rfl) s a bs

theorem State.storeBytes_thatch (s : State) (a : Nat) (bs : Bytes) : (s.storeBytes a bs).thatch = s.thatch :=
  State.storeBytes_view (g := State.thatch) (fun _ _ => rfl) (fun _ _ => rfl) s a bs

/-- A queue of one write drains. -/
theorem State.drainChan_one {m : Fin 8} {w : QWrite} (hq : (s.dram.chans[m]).writes = [w]) {which : QWrite → Bool} (hw : which w = true) :
    s.drainChan m which 0 = (s.modMemChan m fun c => { c with writes := [] }).storeBytes w.addr w.data := by
  have hchan : s.modMemChan m (fun c => { c with writes := dropWrites which 1 c.writes }) = s.modMemChan m fun c => { c with writes := [] } := by
    refine s.modMemChan_congr ?_
    rw [hq, dropWrites, if_pos hw]
    rfl
  unfold State.drainChan
  rw [hq, List.filter_cons_of_pos hw]
  exact congrArg (fun u : State => u.storeBytes w.addr w.data) hchan

/-- The bytes of one line lie in one channel. -/
theorem DramSt.chanOf_line (d : DramSt) {x y : Nat} (h : x / 64 = y / 64) : d.chanOf x = d.chanOf y := by
  have hpage : x / 4096 = y / 4096 := by omega
  have hoffset : (x / 4096 / d.slots * 4096 + x % 4096) / 2 ^ 20 = (y / 4096 / d.slots * 4096 + y % 4096) / 2 ^ 20 := by
    rw [hpage]
    generalize y / 4096 / d.slots = q
    omega
  have hrank : d.readRank x = d.readRank y := by
    unfold DramSt.readRank
    dsimp only
    rw [hoffset]
    unfold DramSt.place
    rw [hpage]
  unfold DramSt.chanOf
  rw [hrank]

/-- A read of a queued write's bytes is answered from the queue (R411). -/
theorem State.dramByte_queued {l : List QWrite} {bs : Bytes} (hlen : a % 64 + bs.length ≤ 64)
    (hq : (s.dram.chans[s.dram.chanOf a]).writes = l ++ [⟨a, bs⟩]) {i : Nat} (hi : i < bs.length) : s.dramByte (a + i) = bs.getD i 0 := by
  have hchan : s.dram.chanOf (a + i) = s.dram.chanOf a := s.dram.chanOf_line (by omega)
  unfold State.dramByte
  have hw : (s.dram.chans[s.dram.chanOf (a + i)]).writes = l ++ [⟨a, bs⟩] := (congrArg (fun m : Fin 8 => (s.dram.chans[m]).writes) hchan).trans hq
  rw [hw, List.reverse_append, List.reverse_singleton, List.singleton_append, List.find?_cons_of_pos]
  · show bs.getD (a + i - a) 0 = _
    rw [Nat.add_sub_cancel_left]
  · rw [Bool.and_eq_true, decide_eq_true_eq, decide_eq_true_eq]
    dsimp only
    omega

theorem State.memWrite_waits {addr src8 planSlot : Nat} (data : Bytes) (h : s.rowWaits addr src8 planSlot = true) (readWaits : Bool) :
    s.memWrite addr data src8 planSlot hint readWaits = s := by
  unfold State.memWrite
  rw [h, Bool.or_true, if_pos rfl]

/-- The write at the end of its channel's queue, its row accessed. -/
def State.queued (s : State) (addr : Nat) (data : Bytes) (src8 planSlot hint : Nat) : State :=
  (s.touchRow addr src8 planSlot hint).modMemChan (s.dram.chanOf addr) fun c => { c with writes := c.writes ++ [⟨addr, data⟩] }

/-- How far a channel's queue drains at a write. -/
def State.drainAfter (u : State) (m : Fin 8) (addr : Nat) (readWaits : Bool) : State :=
  let mine := fun (w : QWrite) => (u.dram.place w.addr).sub == (u.dram.place addr).sub
  let c := u.dram.chans[m]
  if !readWaits then u.drainChan m mine 0
  else if c.wmHigh ≤ c.writes.countP mine then u.drainChan m mine c.wmLow
  else u

theorem State.memWrite_queues {addr src8 planSlot : Nat} {data : Bytes} (hsize : addr + data.length ≤ s.dram.managed)
    (h : s.rowWaits addr src8 planSlot = false) (readWaits : Bool) : s.memWrite addr data src8 planSlot hint readWaits =
      (s.queued addr data src8 planSlot hint).drainAfter (s.dram.chanOf addr) addr readWaits := by
  obtain ⟨chans, hu⟩ := (s.touchRow_touched addr src8 planSlot hint).besides
  have hchan : (s.touchRow addr src8 planSlot hint).dram.chanOf addr = s.dram.chanOf addr := by
    rw [hu]
    rfl
  unfold State.memWrite
  rw [h, Bool.or_false, if_neg (by rw [decide_eq_true_eq]; omega)]
  show State.drainAfter (State.modMemChan _ ((s.touchRow addr src8 planSlot hint).dram.chanOf addr) _)
    ((s.touchRow addr src8 planSlot hint).dram.chanOf addr) addr readWaits = _
  rw [hchan]
  rfl

theorem State.drainAfter_waiting {u : State} {m : Fin 8} (h : (u.dram.chans[m]).writes.length < (u.dram.chans[m]).wmHigh) (addr : Nat) :
    u.drainAfter m addr true = u := by
  unfold State.drainAfter
  dsimp only
  rw [if_neg (by decide), if_neg (Nat.not_le.mpr (Nat.lt_of_le_of_lt List.countP_le_length h))]

theorem State.drainAfter_one {u : State} {m : Fin 8} {addr : Nat} {data : Bytes} (h : (u.dram.chans[m]).writes = [⟨addr, data⟩]) :
    u.drainAfter m addr false = (u.modMemChan m fun c => { c with writes := [] }).storeBytes addr data :=
  State.drainChan_one h (beq_self_eq_true _)

/-- The queue, the rows and the memory with a write queued. -/
theorem State.queued_leaves (s : State) (addr : Nat) (data : Bytes) (src8 planSlot hint : Nat) :
    (∃ u, s.Touched addr hint u ∧ s.queued addr data src8 planSlot hint = u.modMemChan (s.dram.chanOf addr) fun c =>
      { c with writes := c.writes ++ [⟨addr, data⟩] }) ∧
    ((s.queued addr data src8 planSlot hint).dram.chans[s.dram.chanOf addr]).writes = (s.dram.chans[s.dram.chanOf addr]).writes ++ [⟨addr, data⟩] ∧
    ((s.queued addr data src8 planSlot hint).dram.chans[s.dram.chanOf addr]).wmHigh = (s.dram.chans[s.dram.chanOf addr]).wmHigh := by
  have htouch := s.touchRow_touched addr src8 planSlot hint
  obtain ⟨hwrites, hhigh, -, -⟩ := htouch.chan (s.dram.chanOf addr)
  refine ⟨⟨_, htouch, rfl⟩, ?_, ?_⟩
  · unfold State.queued
    rw [State.modMemChan_at]
    dsimp only
    rw [hwrites]
  · unfold State.queued
    rw [State.modMemChan_at]
    exact hhigh

/-- With no read waiting and no write queued a write is made at once (R411). -/
theorem State.memWrite_atOnce {addr src8 planSlot : Nat} {data : Bytes} (hwf : Memory.wf s.mem = true) (hsize : addr + data.length ≤ s.dram.managed)
    (h : s.rowWaits addr src8 planSlot = false) (hq : (s.dram.chans[s.dram.chanOf addr]).writes = []) :
    (s.memWrite addr data src8 planSlot hint false).tiles = s.tiles ∧ (s.memWrite addr data src8 planSlot hint false).thatch = s.thatch ∧
      (∀ p : OpenPage, p.bank = s.bankKey addr → (p ∈ ((s.memWrite addr data src8 planSlot hint false).dram.chans[s.dram.chanOf addr]).pages ↔
        hint ≠ 2 ∧ p = ⟨s.bankKey addr, (s.dram.place addr).row, s.time.ts, decide (hint = 0)⟩)) ∧
      ∀ y, s.dram.gone y = false → memByte (s.memWrite addr data src8 planSlot hint false).mem y =
        if addr ≤ y ∧ y < addr + data.length then data.getD (y - addr) 0 else memByte s.mem y := by
  obtain ⟨⟨u, htouch, hu⟩, hwrites, -⟩ := s.queued_leaves addr data src8 planSlot hint
  rw [hq] at hwrites
  rw [State.memWrite_queues hsize h, State.drainAfter_one hwrites, hu, State.modMemChan_twice]
  obtain ⟨chans, hrest⟩ := htouch.besides
  refine ⟨?_, ?_, htouch.pages ?_, fun y hy => ?_⟩
  · rw [State.storeBytes_tiles, hrest]
    rfl
  · rw [State.storeBytes_thatch, hrest]
    rfl
  · rw [State.storeBytes_chans, State.modMemChan_at]
    rfl
  · rw [State.memByte_storeBytes (by rw [hrest]; exact hwf) (by rw [hrest]; exact hy), hrest]
    rfl

/-- While reads wait and the queue stays below WM_HIGH a write is queued (R410, R411). -/
theorem State.memWrite_behind {addr src8 planSlot : Nat} {data : Bytes} (hsize : addr + data.length ≤ s.dram.managed)
    (h : s.rowWaits addr src8 planSlot = false) (hlen : addr % 64 + data.length ≤ 64)
    (hq : (s.dram.chans[s.dram.chanOf addr]).writes.length + 1 < (s.dram.chans[s.dram.chanOf addr]).wmHigh) :
    (s.memWrite addr data src8 planSlot hint true).mem = s.mem ∧
      (∀ p : OpenPage, p.bank = s.bankKey addr → (p ∈ ((s.memWrite addr data src8 planSlot hint true).dram.chans[s.dram.chanOf addr]).pages ↔
        hint ≠ 2 ∧ p = ⟨s.bankKey addr, (s.dram.place addr).row, s.time.ts, decide (hint = 0)⟩)) ∧
      ((s.memWrite addr data src8 planSlot hint true).dram.chans[s.dram.chanOf addr]).writes =
        (s.dram.chans[s.dram.chanOf addr]).writes ++ [⟨addr, data⟩] ∧
      ∀ i, i < data.length → (s.memWrite addr data src8 planSlot hint true).dramByte (addr + i) = data.getD i 0 := by
  obtain ⟨⟨u, htouch, hu⟩, hwrites, hhigh⟩ := s.queued_leaves addr data src8 planSlot hint
  obtain ⟨chans, hrest⟩ := htouch.besides
  rw [State.memWrite_queues hsize h, State.drainAfter_waiting (by rw [hwrites, hhigh, List.length_append]; exact hq)]
  refine ⟨?_, htouch.pages ?_, hwrites, fun i hi => ?_⟩
  · rw [hu, hrest]
    rfl
  · rw [hu, State.modMemChan_at]
  · have hchan : (s.queued addr data src8 planSlot hint).dram.chanOf addr = s.dram.chanOf addr := by
      rw [hu, hrest]
      rfl
    refine State.dramByte_queued (l := (s.dram.chans[s.dram.chanOf addr]).writes) hlen ?_ hi
    exact (congrArg (fun m : Fin 8 => ((s.queued addr data src8 planSlot hint).dram.chans[m]).writes) hchan).trans hwrites

end
end Sys2Proof.Machine
end

