-- ==== Sys2Proof/Proofs/MemoryErrors.lean ====
section
/-! SUPPORT. Reads of memory, what their ECC finds, and alerts of a rank. -/

namespace Sys2Proof.Machine

set_option Elab.async false

section
variable {s : State} {addr src8 planSlot hint : Nat}

/-! Reads (R410 to R417). -/

theorem State.memRead_waits (h : s.rowWaits (addr / 64 * 64) src8 planSlot = true) (devErrs device : Nat) :
    s.memRead addr src8 planSlot devErrs device hint = s := by
  unfold State.memRead
  dsimp only
  rw [h, Bool.or_true, if_pos rfl]

theorem State.Touched.lineBad {u : State} {a : Nat} (h : s.Touched a hint u) (x : Nat) : u.lineBad x = s.lineBad x := by
  obtain ⟨chans, rfl⟩ := h.besides
  rfl

/-- A read of a line that no queued write holds, its row accessed: POISONED it is counted, else it goes by its ECC. -/
theorem State.memRead_serves (hsize : addr / 64 * 64 < s.dram.managed) (h : s.rowWaits (addr / 64 * 64) src8 planSlot = false)
    (hq : ∀ w ∈ (s.dram.chans[s.dram.chanOf (addr / 64 * 64)]).writes, w.addr / 64 ≠ addr / 64 * 64 / 64) (devErrs device : Nat) :
    ∃ u, s.Touched (addr / 64 * 64) hint u ∧ s.memRead addr src8 planSlot devErrs device hint =
      if s.lineBad (addr / 64 * 64) then u.bump 0x1014 7 1 else u.ecc (addr / 64 * 64) devErrs device := by
  have htouch := s.touchRow_touched (addr / 64 * 64) src8 planSlot hint
  refine ⟨_, htouch, ?_⟩
  unfold State.memRead
  dsimp only
  rw [h, Bool.or_false, if_neg (by rw [decide_eq_true_eq]; omega), htouch.lineBad]
  refine if_neg fun hany => ?_
  obtain ⟨chans, hu⟩ := htouch.besides
  have hchan : (s.touchRow (addr / 64 * 64) src8 planSlot hint).dram.chanOf (addr / 64 * 64) = s.dram.chanOf (addr / 64 * 64) := by
    rw [hu]
    rfl
  have hwrites := (congrArg (fun m : Fin 8 => ((s.touchRow (addr / 64 * 64) src8 planSlot hint).dram.chans[m]).writes) hchan).trans
    (htouch.chan (s.dram.chanOf (addr / 64 * 64))).1
  rw [hwrites] at hany
  obtain ⟨w, hw, heq⟩ := List.any_eq_true.mp hany
  exact hq w hw (beq_iff_eq.mp heq)

/-! What ECC finds (R415 to R417), and a rank that leaves service (R426). -/

/-- What a rank's retirement leaves. -/
theorem State.retireRank_leaves (s : State) (phys : Nat) (cause : Stamp) : (s.retireRank phys cause).mem = s.mem ∧
    (s.retireRank phys cause).dram.poison = s.dram.poison ∧ (s.retireRank phys cause).dram.chans = s.dram.chans ∧
    (s.retireRank phys cause).dram.ranksOut.testBit phys = true := by
  unfold State.retireRank
  split
  next hout => exact ⟨rfl, rfl, rfl, by rw [← bitAt_eq_testBit]; exact hout⟩
  next hin =>
    dsimp only
    generalize hu : State.raise s _ _ = u
    have hlog : s.Logged u := by
      rw [← hu]
      exact s.logged_raise _ _
    generalize hv : State.modDram u _ = v
    have hv' : v.mem = u.mem ∧ v.dram.poison = u.dram.poison ∧ v.dram.chans = u.dram.chans ∧ v.dram.ranksOut = u.dram.ranksOut ||| 2 ^ phys := by
      rw [← hv]
      refine ⟨rfl, ?_⟩
      unfold State.modDram
      dsimp only
      split
      · exact ⟨rfl, rfl, rfl⟩
      · split
        · split
          · exact ⟨rfl, rfl, rfl⟩
          · exact ⟨rfl, rfl, rfl⟩
        · exact ⟨rfl, rfl, rfl⟩
        · exact ⟨rfl, rfl, rfl⟩
        · exact ⟨rfl, rfl, rfl⟩
    obtain ⟨hmem, hpoison, hchans, hranks⟩ := hv'
    obtain ⟨hdram, hmem'⟩ := v.writeBootFlash_leaves
    rw [hdram, hmem', hmem, hpoison, hchans, hranks, hlog.mem, hlog.dram]
    exact ⟨rfl, rfl, rfl, by rw [← bitAt_eq_testBit]; exact bitAt_or_two_pow _ _⟩

theorem State.memError_leaves (s : State) (phys x device kind : Nat) (k : Fin 8) :
    ((s.memError phys x device kind).dram.chans[k]).ce = (s.dram.chans[k]).ce ∧ ((s.memError phys x device kind).dram.chans[k]).ue = (s.dram.chans[k]).ue := by
  unfold State.memError
  by_cases hk : k = Fin.ofNat 8 (phys / 2)
  · subst hk
    rw [State.modMemChan_at]
    exact ⟨rfl, rfl⟩
  · rw [State.modMemChan_other s hk]
    exact ⟨rfl, rfl⟩

/-- A corrected error is counted, and nothing of memory changes (R416). -/
theorem State.corrected_counts (s : State) (phys x device : Nat) : (s.corrected phys x device).mem = s.mem ∧
    (s.corrected phys x device).dram.poison = s.dram.poison ∧
    ((s.corrected phys x device).dram.chans[(Fin.ofNat 8 (phys / 2) : Fin 8)]).ce[Fin.ofNat 2 phys] =
      (s.dram.chans[(Fin.ofNat 8 (phys / 2) : Fin 8)]).ce[Fin.ofNat 2 phys] + 1 := by
  unfold State.corrected
  extract_lets m key s₁ s₂ s₃
  have hce : (s₂.dram.chans[m]).ce[Fin.ofNat 2 phys] = (s.dram.chans[m]).ce[Fin.ofNat 2 phys] + 1 := by
    show ((s₁.memError phys x device 0).dram.chans[m]).ce[Fin.ofNat 2 phys] = _
    rw [(s₁.memError_leaves phys x device 0 m).1, State.modMemChan_at]
    exact Vector.getElem_set_self _
  have hrec : ∀ event, s₂.Logged (s₂.correctedRecord phys x device event) := fun _ => s₂.logged_raise _ _
  generalize hv : (if ((nget (s₂.dram.chans[m]).devCe key).getD []).length == s₂.cfg 0x1014 2 1000 then _ else _ : State) = v
  have hv' : v.mem = s₂.mem ∧ v.dram.poison = s₂.dram.poison ∧ v.dram.chans = s₂.dram.chans := by
    rw [← hv]
    split
    · split
      · obtain ⟨hmem, hpoison, hchans, -⟩ := s₃.retireRank_leaves phys (s₃.recordOf (0xE0 + phys / 2) 0 8 (memScope phys))
        exact ⟨hmem.trans (hrec 2).mem, hpoison.trans (congrArg DramSt.poison (hrec 2).dram), hchans.trans (congrArg DramSt.chans (hrec 2).dram)⟩
      · exact ⟨(hrec 2).mem, congrArg DramSt.poison (hrec 2).dram, congrArg DramSt.chans (hrec 2).dram⟩
    · exact ⟨(hrec 5).mem, congrArg DramSt.poison (hrec 5).dram, congrArg DramSt.chans (hrec 5).dram⟩
  obtain ⟨hmem, hpoison, hchans⟩ := hv'
  exact ⟨hmem, hpoison, (congrArg (fun q : Vector MemChan 8 => (q[m]).ce[Fin.ofNat 2 phys]) hchans).trans hce⟩

/-- What harm to a line of double-lapped tables leaves. -/
theorem State.harmAt_leaves (s : State) (x : Nat) : (s.harmAt x).2.mem = s.mem ∧ (s.harmAt x).2.dram = s.dram := by
  unfold State.harmAt
  dsimp only
  constructor
  · refine foldl_keeps State.mem _ ?_ _ _
    exact fun _ _ => rfl
  · refine foldl_keeps State.dram _ ?_ _ _
    exact fun _ _ => rfl

/-- An uncorrectable error is counted, poisons its line unless the other copy serves it, and retires the rank (R417). -/
theorem State.uncorrectable_counts (s : State) (phys x : Nat) : (s.uncorrectable phys x).mem = s.mem ∧
    ((s.uncorrectable phys x).dram.chans[(Fin.ofNat 8 (phys / 2) : Fin 8)]).ue[Fin.ofNat 2 phys] =
      (s.dram.chans[(Fin.ofNat 8 (phys / 2) : Fin 8)]).ue[Fin.ofNat 2 phys] + 1 ∧
    (s.uncorrectable phys x).dram.ranksOut.testBit phys = true ∧
    ((s.harmAt x).1 = false → (nget (s.uncorrectable phys x).dram.poison (x / 64)).isSome = true) ∧
    ((s.harmAt x).1 = true → (s.uncorrectable phys x).dram.poison = s.dram.poison) := by
  obtain ⟨hmem₀, hdram₀⟩ := s.harmAt_leaves x
  unfold State.uncorrectable
  generalize s.harmAt x = r at hmem₀ hdram₀ ⊢
  obtain ⟨lapped, s₀⟩ := r
  dsimp only at hmem₀ hdram₀
  dsimp -zeta only
  extract_lets m s₁ s₂ s₃ blank w
  have hue : (s₂.dram.chans[m]).ue[Fin.ofNat 2 phys] = (s.dram.chans[m]).ue[Fin.ofNat 2 phys] + 1 := by
    show ((s₁.memError phys x 0 1).dram.chans[m]).ue[Fin.ofNat 2 phys] = _
    rw [(s₁.memError_leaves phys x 0 1 m).2, State.modMemChan_at, ← hdram₀]
    exact Vector.getElem_set_self _
  have hw : w.mem = s₂.mem ∧ w.dram.chans = s₂.dram.chans ∧
      w.dram.poison = if lapped = true then s₂.dram.poison else nput s₂.dram.poison (x / 64) () := by
    cases lapped with
    | true => exact ⟨rfl, rfl, rfl⟩
    | false =>
      have hlog : s₃.Logged w := (s₃.logged_bump _ _ _).trans (State.logged_raise _ _ _)
      exact ⟨hlog.mem, (congrArg DramSt.chans hlog.dram).trans rfl, (congrArg DramSt.poison hlog.dram).trans rfl⟩
  obtain ⟨hmem, hchans, hpoison⟩ := hw
  obtain ⟨hmem', hpoison', hchans', hranks⟩ :=
    w.retireRank_leaves phys (if lapped then Stamp.zero else w.recordOf (0xE0 + phys / 2) stPoisoned 8 (memScope phys))
  refine ⟨(hmem'.trans hmem).trans hmem₀, ?_, hranks, fun hl => ?_, fun hl => ?_⟩
  · exact (congrArg (fun q : Vector MemChan 8 => (q[m]).ue[Fin.ofNat 2 phys]) (hchans'.trans hchans)).trans hue
  · rw [hpoison', hpoison, hl, if_neg Bool.false_ne_true, nget_nput_self]
    rfl
  · rw [hpoison', hpoison, hl, if_pos rfl]
    show s₀.dram.poison = _
    rw [hdram₀]

theorem State.Touched.harmAt {u : State} {a : Nat} (h : s.Touched a hint u) (x : Nat) : (u.harmAt x).1 = (s.harmAt x).1 := by
  obtain ⟨chans, rfl⟩ := h.besides
  rfl

theorem State.Touched.leaves {u : State} {a : Nat} (h : s.Touched a hint u) :
    u.mem = s.mem ∧ u.dram.poison = s.dram.poison ∧ u.dram.readRank a = s.dram.readRank a := by
  obtain ⟨chans, rfl⟩ := h.besides
  exact ⟨rfl, rfl, rfl⟩

/-- A read of a line with no device in error changes its row alone, and one of a POISONED line is counted (R412, R417). -/
theorem State.Touched.bump {u : State} {a : Nat} (h : s.Touched a hint u) :
    ((u.bump 0x1014 7 1).modDict fun d => { d with ro := s.dict.ro }) = u ∧ (u.bump 0x1014 7 1).ro 0x1014 7 = s.ro 0x1014 7 + 1 := by
  rw [State.bump_ro]
  obtain ⟨chans, rfl⟩ := h.besides
  exact ⟨rfl, rfl⟩

/-- One device in error (R415, R416). -/
theorem State.Touched.ecc_one {u : State} {a : Nat} (h : s.Touched a hint u) (device : Nat) : (u.ecc a 1 device).mem = s.mem ∧
    (u.ecc a 1 device).dram.poison = s.dram.poison ∧
    ((u.ecc a 1 device).dram.chans[(Fin.ofNat 8 (s.dram.readRank a / 2) : Fin 8)]).ce[Fin.ofNat 2 (s.dram.readRank a)] =
      (s.dram.chans[(Fin.ofNat 8 (s.dram.readRank a / 2) : Fin 8)]).ce[Fin.ofNat 2 (s.dram.readRank a)] + 1 := by
  obtain ⟨hmem, hpoison, hrank⟩ := h.leaves
  have hcounts := u.corrected_counts (s.dram.readRank a) a device
  rw [(h.chan _).2.2.1, hmem, hpoison] at hcounts
  have hecc : u.ecc a 1 device = u.corrected (s.dram.readRank a) a device := by rw [← hrank]; rfl
  rw [hecc]
  exact hcounts

/-- Two devices in error or more (R417). -/
theorem State.Touched.ecc_more {u : State} {a : Nat} (h : s.Touched a hint u) {devErrs : Nat} (herrs : 2 ≤ devErrs) (device : Nat) :
    (u.ecc a devErrs device).mem = s.mem ∧
      ((u.ecc a devErrs device).dram.chans[(Fin.ofNat 8 (s.dram.readRank a / 2) : Fin 8)]).ue[Fin.ofNat 2 (s.dram.readRank a)] =
        (s.dram.chans[(Fin.ofNat 8 (s.dram.readRank a / 2) : Fin 8)]).ue[Fin.ofNat 2 (s.dram.readRank a)] + 1 ∧
      (u.ecc a devErrs device).dram.ranksOut.testBit (s.dram.readRank a) = true ∧
      ((s.harmAt a).1 = false → (nget (u.ecc a devErrs device).dram.poison (a / 64)).isSome = true) ∧
      ((s.harmAt a).1 = true → (u.ecc a devErrs device).dram.poison = s.dram.poison) := by
  obtain ⟨hmem, hpoison, hrank⟩ := h.leaves
  have hcounts := u.uncorrectable_counts (s.dram.readRank a) a
  rw [(h.chan _).2.2.2, hmem, hpoison, h.harmAt] at hcounts
  have hecc : u.ecc a devErrs device = u.uncorrectable (s.dram.readRank a) a := by
    unfold State.ecc
    dsimp only
    rw [hrank, if_neg (by rw [beq_iff_eq]; omega), if_neg (by rw [beq_iff_eq]; omega)]
  rw [hecc]
  exact hcounts

/-! Alerts (R418). -/

theorem State.caAlert_notes (s : State) (phys : Fin 16) (writeCrc : Bool)
    (h : ((s.dram.chans[(Fin.ofNat 8 (phys.val / 2) : Fin 8)]).alerts.filter fun x => s.time.ts ≤ x.2 + 1000000).countP (·.1 == phys.val) < 2) :
    (s.caAlert phys writeCrc).mem = s.mem ∧ (s.caAlert phys writeCrc).dram.ranksOut = s.dram.ranksOut ∧
      ((s.caAlert phys writeCrc).dram.chans[(Fin.ofNat 8 (phys.val / 2) : Fin 8)]).alerts =
        ((s.dram.chans[(Fin.ofNat 8 (phys.val / 2) : Fin 8)]).alerts.filter fun x => s.time.ts ≤ x.2 + 1000000) ++ [(phys.val, s.time.ts)] := by
  unfold State.caAlert
  dsimp only
  rw [if_neg (Nat.not_le.mpr h)]
  refine ⟨rfl, rfl, ?_⟩
  rw [State.modMemChan_at]
  rfl

theorem State.caAlert_retires (s : State) (phys : Fin 16) (writeCrc : Bool)
    (h : 2 ≤ ((s.dram.chans[(Fin.ofNat 8 (phys.val / 2) : Fin 8)]).alerts.filter fun x => s.time.ts ≤ x.2 + 1000000).countP (·.1 == phys.val)) :
    (s.caAlert phys writeCrc).mem = s.mem ∧ (s.caAlert phys writeCrc).dram.ranksOut.testBit phys.val = true := by
  unfold State.caAlert
  dsimp only
  rw [if_pos h]
  generalize hu : State.raise _ _ _ = u
  have hlog : State.Logged _ u := hu ▸ State.logged_raise _ _ _
  obtain ⟨hmem, -, -, hranks⟩ := u.retireRank_leaves phys.val (u.recordOf (0xE0 + (Fin.ofNat 8 (phys.val / 2) : Fin 8).val) stPoisoned 8 (memScope phys.val))
  exact ⟨hmem.trans hlog.mem, hranks⟩

end

/-- Settles O28: an access goes by its row, a write then by its channel's queue, a read by what its ECC finds. -/
theorem memoryRequestsAndErrors : Obligations.MemoryRequestsAndErrors := by
  refine ⟨fun s addr data src8 planSlot device hint readWaits hsound => ⟨fun hsize hwaits => ⟨fun hq => ?_, fun hq => ?_⟩, fun hsize hwaits => ?_,
    fun hsize => ⟨fun hwaits => ?_, fun hwaits hq => ⟨fun hbad => ?_, fun hbad => ?_⟩⟩⟩,
    fun s addr src8 planSlot devErrs device hint phys writeCrc => ⟨fun hsize hwaits hbad hq => ⟨?_, fun herrs => ?_⟩, fun hfew => ?_, fun hmany => ?_⟩⟩
  · obtain ⟨htiles, hthatch, hrow, hmem⟩ := State.memWrite_atOnce (hint := hint) hsound.1 hsize hwaits (hq _)
    exact ⟨_, rfl, htiles, hthatch, hrow, hmem⟩
  · obtain ⟨hmem, hrow, hwrites, hread⟩ := State.memWrite_behind (hint := hint) hsize hwaits (by rw [List.length_take]; omega) hq
    exact ⟨_, rfl, hmem, hrow, hwrites, hread⟩
  · exact congrArg Host.Outcome.next (State.memWrite_waits _ hwaits readWaits)
  · exact congrArg Host.Outcome.next (State.memRead_waits hwaits 0 device)
  · obtain ⟨u, htouch, hread⟩ := State.memRead_serves (hint := hint) hsize hwaits hq 0 device
    rw [hbad] at hread
    exact ⟨u, congrArg Host.Outcome.next hread, htouch.pages rfl, htouch.only⟩
  · obtain ⟨u, htouch, hread⟩ := State.memRead_serves (hint := hint) hsize hwaits hq 0 device
    rw [hbad] at hread
    obtain ⟨hrest, hcount⟩ := htouch.bump
    refine ⟨_, congrArg Host.Outcome.next hread, htouch.pages rfl, hcount, ?_⟩
    dsimp only
    rw [if_pos rfl, hrest]
    exact htouch.only
  · obtain ⟨u, htouch, hread⟩ := State.memRead_serves (hint := hint) hsize hwaits hq 1 device
    rw [hbad] at hread
    exact ⟨_, congrArg Host.Outcome.next hread, htouch.ecc_one device⟩
  · obtain ⟨u, htouch, hread⟩ := State.memRead_serves (hint := hint) hsize hwaits hq devErrs device
    rw [hbad] at hread
    obtain ⟨hmem, hue, hrank, hpoison, hcopy⟩ := htouch.ecc_more herrs device
    exact ⟨_, congrArg Host.Outcome.next hread, hmem, hue, fun _ => hrank, hpoison, hcopy⟩
  · exact ⟨_, rfl, s.caAlert_notes phys writeCrc (by rw [List.countP_eq_length_filter]; exact hfew)⟩
  · exact ⟨_, rfl, s.caAlert_retires phys writeCrc (by rw [List.countP_eq_length_filter]; exact hmany)⟩
end Sys2Proof.Machine
end

