-- ==== Sys2Proof/Proofs/GutterControl.lean ====
section
/-! SUPPORT. The control of a Gutter channel: what starts, pauses, stops and completes it. -/

namespace Sys2Proof.Machine

set_option Elab.async false

section
variable {s : State} {c : ChanId}

/-! A channel's registers. -/

theorem State.modChan_at (s : State) (c : ChanId) (f : GChan → GChan) : (s.modChan c f).gutter.chans[c] = f s.gutter.chans[c] :=
  Vector.getElem_set_self _

theorem State.modChan_other (s : State) {c j : ChanId} (h : j ≠ c) (f : GChan → GChan) : (s.modChan c f).gutter.chans[j] = s.gutter.chans[j] :=
  Vector.getElem_set_ne c.isLt j.isLt fun e => h (Fin.ext e.symm)

theorem State.modChan_congr (s : State) {c : ChanId} {f g : GChan → GChan} (h : f s.gutter.chans[c] = g s.gutter.chans[c]) :
    s.modChan c f = s.modChan c g :=
  congrArg (fun x => s.modGutter fun g => { g with chans := g.chans.set c x }) h

/-- What a channel that stops leaves (R447). -/
theorem State.chanStop_leaves (s : State) (c : ChanId) (code : Nat) : (s.chanStop c code).mem = s.mem ∧ (s.chanStop c code).tiles = s.tiles ∧
    ((s.chanStop c code).gutter.chans[c]).state = .stopped ∧ ((s.chanStop c code).gutter.chans[c]).code = code ∧
    ((s.chanStop c code).gutter.chans[c]).desc = none := by
  unfold State.chanStop
  extract_lets s₁ x blank s₂
  have hforget : s₁.mem = s.mem ∧ s₁.tiles = s.tiles := by
    refine ⟨foldl_keeps State.mem _ ?_ _ s, foldl_keeps State.tiles _ ?_ _ s⟩
    · exact fun _ _ => rfl
    · exact fun _ _ => rfl
  have hrecord : s₂.mem = s₁.mem ∧ s₂.tiles = s₁.tiles := by
    unfold s₂
    split
    · exact ⟨rfl, rfl⟩
    · have hlog := s₁.logged_raise srcGutter
      exact ⟨(hlog _).mem, (hlog _).tiles⟩
  have hat := s₂.modChan_at c fun x => { x with state := .stopped, code := code, desc := none, stopAs := none }
  exact ⟨hrecord.1.trans hforget.1, hrecord.2.trans hforget.2, congrArg GChan.state hat, congrArg GChan.code hat, congrArg GChan.desc hat⟩

/-- Memory, the tiles, and where each channel stands. -/
def State.chanEnds (s : State) : List Host.Cell × Vector Tile 64 × (ChanId → ChState × Nat × Option GDesc) :=
  (s.mem, s.tiles, fun c => ((s.gutter.chans[c]).state, (s.gutter.chans[c]).code, (s.gutter.chans[c]).desc))

theorem State.chanEnds_modChan (s : State) (c : ChanId) {f : GChan → GChan}
    (h : ∀ x, (f x).state = x.state ∧ (f x).code = x.code ∧ (f x).desc = x.desc) : (s.modChan c f).chanEnds = s.chanEnds := by
  refine congrArg (fun x => (s.mem, s.tiles, x)) (funext fun j => ?_)
  by_cases hj : j = c
  · obtain ⟨hstate, hcode, hdesc⟩ := h s.gutter.chans[c]
    rw [hj, State.modChan_at, hstate, hcode, hdesc]
  · rw [State.modChan_other s hj]

/-- A sweep of marked channels changes what they serve alone (R550). -/
theorem State.sweepMarked_ends (s : State) : s.sweepMarked.chanEnds = s.chanEnds := by
  unfold State.sweepMarked
  refine foldl_keeps State.chanEnds _ (fun u c => ?_) _ s
  dsimp only
  split
  · split
    · exact u.chanEnds_modChan c (f := fun x => { x with use := .free, marked := false }) fun _ => ⟨rfl, rfl, rfl⟩
    · rfl
  · rfl

theorem State.sweepMarked_leaves (s : State) : s.sweepMarked.mem = s.mem ∧ s.sweepMarked.tiles = s.tiles ∧ ∀ c : ChanId,
    (s.sweepMarked.gutter.chans[c]).state = (s.gutter.chans[c]).state ∧ (s.sweepMarked.gutter.chans[c]).code = (s.gutter.chans[c]).code ∧
    (s.sweepMarked.gutter.chans[c]).desc = (s.gutter.chans[c]).desc := by
  obtain ⟨hmem, hrest⟩ := Prod.mk.inj s.sweepMarked_ends
  obtain ⟨htiles, hchans⟩ := Prod.mk.inj hrest
  refine ⟨hmem, htiles, fun c => ?_⟩
  obtain ⟨hstate, hrest⟩ := Prod.mk.inj (congrFun hchans c)
  obtain ⟨hcode, hdesc⟩ := Prod.mk.inj hrest
  exact ⟨hstate, hcode, hdesc⟩

/-! START, PAUSE, RESUME and ABORT (R436, R446, R447). -/

theorem State.chanStart_loads (hridge : s.ridgeActs = true) (hbusy : (s.gutter.chans[c]).busy = false) (hline : (s.gutter.chans[c]).line = 0x3F)
    (hring : (s.gutter.chans[c]).isRing = false) (host : Bytes) : s.chanStart c host =
      (s.modChan c fun x => { x with state := .running, bytes := 0, code := 0, desc := none }).chanLoad c (s.gutter.chans[c]).descAddr host := by
  unfold State.chanStart
  dsimp only
  rw [hbusy, hridge, hline, hring]
  rfl

theorem State.chanStart_clashes (hridge : s.ridgeActs = true) (hbusy : (s.gutter.chans[c]).busy = false) (hline : (s.gutter.chans[c]).line ≠ 0x3F)
    (h : ∃ j : ChanId, j ≠ c ∧ (s.gutter.chans[j]).line = (s.gutter.chans[c]).line ∧ (s.gutter.chans[j]).busy = true) (host : Bytes) :
    s.chanStart c host = (s.modChan c fun x => { x with state := .running, bytes := 0, code := 0, desc := none }).chanStop c stWrongState := by
  obtain ⟨j, hj, hsame, hjbusy⟩ := h
  unfold State.chanStart
  dsimp only
  rw [hbusy, hridge, Bool.false_or, Bool.not_true, if_neg Bool.false_ne_true]
  refine if_pos ?_
  rw [Bool.and_eq_true, bne_iff_ne, List.any_eq_true]
  refine ⟨hline, j, List.mem_finRange j, ?_⟩
  rw [bne_iff_ne.mpr hj, hsame, beq_self_eq_true, hjbusy]
  rfl

theorem State.chanPause_pauses (h : (s.gutter.chans[c]).state = .running ∨ (s.gutter.chans[c]).state = .waiting) :
    s.chanPause c = s.modChan c fun x => { x with ctrl := x.ctrl ||| 2, state := .pausing } := by
  refine if_pos ?_
  rw [Bool.or_eq_true, beq_iff_eq, beq_iff_eq]
  exact h

theorem State.chanPaused_ends (h : (s.gutter.chans[c]).state = .pausing)
    (hd : ∀ d, (s.gutter.chans[c]).desc = some d → d.readBack = false ∧ d.asked = 0) :
    s.chanPaused c = s.modChan c fun x => ({ x with state := .paused } : GChan).show := by
  refine if_pos ?_
  rw [Bool.and_eq_true, beq_iff_eq, Bool.not_eq_true', Option.any_eq_false]
  refine ⟨h, fun d hdesc => ?_⟩
  obtain ⟨hback, hasked⟩ := hd d hdesc
  rw [hback, hasked]
  decide

theorem State.chanResume_goesOn {d : GDesc} (h : (s.gutter.chans[c]).state = .paused) (hstop : (s.gutter.chans[c]).stopAs = none)
    (hdesc : (s.gutter.chans[c]).desc = some d) (hline : (s.gutter.chans[c]).line = 0x3F) (host : Bytes) :
    s.chanResume c host = s.modChan c fun x => { x with ctrl := x.ctrl &&& (2 ^ 64 - 3), state := .running, frozen := false } := by
  unfold State.chanResume
  dsimp only
  rw [h, hstop, hdesc, hline]
  rfl

theorem execChAbort_stops (hridge : s.ridgeActs = true) (hbusy : (s.gutter.chans[c]).busy = true) :
    execChAbort c s = .next (s.chanStop c stAbortCancel).sweepMarked := by
  unfold execChAbort
  rw [hridge, hbusy]
  rfl

/-! Request lines (R443, R444). -/

theorem State.raiseLine_reserved {l : Nat} (h : 21 ≤ l) (h' : l ≤ 23) : s.raiseLine l = s := by
  unfold State.raiseLine
  rw [if_pos]
  rw [Bool.and_eq_true, decide_eq_true_eq, decide_eq_true_eq]
  exact ⟨h, h'⟩

/-- A line raised to its one channel, which is busy. -/
theorem State.raiseLine_one {l : Nat} (hl : ¬(21 ≤ l ∧ l ≤ 23)) (hline : (s.gutter.chans[c]).line = l) (hbusy : (s.gutter.chans[c]).busy = true)
    (hone : ∀ j : ChanId, (s.gutter.chans[j]).line = l → j = c) : s.raiseLine l =
      if 255 ≤ (s.gutter.chans[c]).pendingReq then (s.modGutter fun g => { g with overrun := g.overrun ||| 2 ^ l }).bump 0x2801 4 1
      else s.modChan c fun x =>
        { x with pendingReq := x.pendingReq + 1, state := if x.state == .waiting && x.desc.isSome then .running else x.state } := by
  have hfind : ((List.finRange 32).filter fun j : ChanId => (s.gutter.chans[j]).line == l).find? (fun j => (s.gutter.chans[j]).busy) = some c := by
    generalize hr : List.find? _ _ = r
    cases r with
    | none =>
      have hnot := List.find?_eq_none.mp hr c (List.mem_filter.mpr ⟨List.mem_finRange c, beq_iff_eq.mpr hline⟩)
      exact absurd hbusy hnot
    | some j =>
      have hj := (List.mem_filter.mp (List.mem_of_find?_eq_some hr)).2
      rw [hone j (beq_iff_eq.mp hj)]
  unfold State.raiseLine
  rw [if_neg (by rwa [Bool.and_eq_true, decide_eq_true_eq, decide_eq_true_eq])]
  dsimp only
  rw [hfind]
  rfl

/-- A line that a unit, or the active Ridge, raises to its one channel, which is busy. -/
theorem execRequestLineRaise_one {line : Fin 48} (hmay : line.val < 21 ∨ (24 ≤ line.val ∧ s.ridgeActs = true))
    (hline : (s.gutter.chans[c]).line = line.val) (hbusy : (s.gutter.chans[c]).busy = true)
    (hone : ∀ j : ChanId, (s.gutter.chans[j]).line = line.val → j = c) : exec (.requestLineRaise line) s =
      .next (if 255 ≤ (s.gutter.chans[c]).pendingReq then (s.modGutter fun g => { g with overrun := g.overrun ||| 2 ^ line.val }).bump 0x2801 4 1
      else s.modChan c fun x =>
        { x with pendingReq := x.pendingReq + 1, state := if x.state == .waiting && x.desc.isSome then .running else x.state }) := by
  refine congrArg Host.Outcome.next ((if_pos ?_).trans (State.raiseLine_one ?_ hline hbusy hone))
  · rw [Bool.or_eq_true, decide_eq_true_eq]
    rcases hmay with hlow | ⟨-, hridge⟩
    · exact .inl (by omega)
    · exact .inr hridge
  · omega

/-! Completion, and the poll of a ring (R448, R449). -/

theorem State.chanComplete_fails {d : GDesc} (hdesc : (s.gutter.chans[c]).desc = some d) (hback : d.readBack = true)
    (hrun : (s.gutter.chans[c]).state = .running) (doneBack : Bool) (host : Bytes) :
    s.chanComplete c false doneBack host = (s.chanStop c stRevoked).bump 0x2801 6 1 := by
  unfold State.chanComplete
  dsimp only
  rw [hdesc, hrun]
  dsimp only
  rw [hback]
  rfl

theorem State.sweepMarked_bump (u : State) (index sub n : Nat) (c : ChanId) :
    ((u.bump index sub n).sweepMarked.gutter.chans[c]).state = (u.gutter.chans[c]).state ∧
      ((u.bump index sub n).sweepMarked.gutter.chans[c]).code = (u.gutter.chans[c]).code := by
  obtain ⟨-, -, hchan⟩ := (u.bump index sub n).sweepMarked_leaves
  obtain ⟨hstate, hcode, -⟩ := hchan c
  exact ⟨hstate, hcode⟩

/-- A completion whose read-back failed stops its channel. -/
theorem State.chanComplete_stops {d : GDesc} (hdesc : (s.gutter.chans[c]).desc = some d) (hback : d.readBack = true)
    (hrun : (s.gutter.chans[c]).state = .running) (doneBack : Bool) (host : Bytes) :
    ((s.chanComplete c false doneBack host).sweepMarked.gutter.chans[c]).state = .stopped ∧
      ((s.chanComplete c false doneBack host).sweepMarked.gutter.chans[c]).code = stRevoked := by
  obtain ⟨-, -, hstate, hcode, -⟩ := s.chanStop_leaves c stRevoked
  obtain ⟨hstate', hcode'⟩ := (s.chanStop c stRevoked).sweepMarked_bump 0x2801 6 1 c
  rw [State.chanComplete_fails hdesc hback hrun, hstate', hcode']
  exact ⟨hstate, hcode⟩

theorem State.chanComplete_ends {d : GDesc} (hdesc : (s.gutter.chans[c]).desc = some d) (hback : d.readBack = true)
    (hrun : (s.gutter.chans[c]).state = .running) (hdone : d.doneAddr = 0) (hnext : d.nextAddr = 0) (hring : (s.gutter.chans[c]).isRing = false)
    (doneBack : Bool) (host : Bytes) : s.chanComplete c true doneBack host =
      ((((if d.notify && (s.gutter.chans[c]).notifyEn then
          s.modTile (s.gutter.chans[c]).notifyTile fun t => { t with unitSrc := t.unitSrc ||| 4 } else s).modChan c fun x =>
        { x with code := stOk, desc := none, descAddr := d.nextAddr }).bump 0x2801 2 1).modChan c fun x => { x with state := .done }) := by
  unfold State.chanComplete
  dsimp only
  rw [hdesc, hrun]
  dsimp only
  rw [hback, hdone, hring, hnext]
  rfl

theorem State.ringPoll_empty {h host host' : Bytes} {s' : State} (hring : (s.gutter.chans[c]).isRing = true)
    (hwait : (s.gutter.chans[c]).state = .waiting) (hdesc : (s.gutter.chans[c]).desc = none) (hen : s.gutter.enable = true)
    (hfetch : s.chanFetch c ((s.gutter.chans[c]).ring % 2 ^ 48) 8 host = (.ok (h, host'), s')) (hempty : fieldAt 0 4 h = fieldAt 4 4 h) :
    s.ringPoll c host = s'.modChan c fun x => { x with state := .waiting, desc := none } := by
  unfold State.ringPoll
  dsimp only
  rw [hring, hwait, hdesc, hen]
  refine (if_pos rfl).trans ?_
  unfold State.chanRing
  dsimp only
  rw [hfetch]
  dsimp only
  rw [hempty, Nat.add_sub_cancel_left, Nat.mod_self]
  rfl

/-- The last descriptor of a chain that needs no record ends (R448). -/
theorem State.chanComplete_done {d : GDesc} (hdesc : (s.gutter.chans[c]).desc = some d) (hback : d.readBack = true)
    (hrun : (s.gutter.chans[c]).state = .running) (hdone : d.doneAddr = 0) (hnext : d.nextAddr = 0) (hring : (s.gutter.chans[c]).isRing = false)
    (doneBack : Bool) (host : Bytes) : ((s.chanComplete c true doneBack host).gutter.chans[c]).state = .done ∧
      ((s.chanComplete c true doneBack host).gutter.chans[c]).code = 0 ∧ ((s.chanComplete c true doneBack host).gutter.chans[c]).desc = none ∧
      (d.notify = true → (s.gutter.chans[c]).notifyEn = true → ((s.chanComplete c true doneBack host).tiles[(s.gutter.chans[c]).notifyTile]).unitSrc =
        (s.tiles[(s.gutter.chans[c]).notifyTile]).unitSrc ||| 4) := by
  rw [State.chanComplete_ends hdesc hback hrun hdone hnext hring]
  generalize hu : (if d.notify && (s.gutter.chans[c]).notifyEn then _ else _ : State) = u
  have hat := State.modChan_at u c fun x => { x with code := stOk, desc := none, descAddr := d.nextAddr }
  rw [State.modChan_at]
  refine ⟨rfl, congrArg GChan.code hat, congrArg GChan.desc hat, fun hnotify hen => ?_⟩
  rw [hnotify, hen, Bool.and_self, if_pos rfl] at hu
  show (u.tiles[(s.gutter.chans[c]).notifyTile]).unitSrc = _
  rw [← hu]
  exact congrArg Tile.unitSrc (s.modTile_at _ _)

end
end Sys2Proof.Machine
end

