-- ==== Sys2Proof/Proofs/GutterMoves.lean ====
section
/-! SUPPORT. One beat of a Gutter channel between the tiles' scratches. -/

namespace Sys2Proof.Machine

set_option Elab.async false

section
variable {s : State} {c : ChanId}

/-! Reads and writes of the tiles' scratches (R22). -/

/-- The pieces of a range lie in it. -/
theorem cuts_within {g fuel a n : Nat} {p : Nat × Nat} (h : p ∈ cuts g fuel a n) : a ≤ p.1 ∧ p.1 < a + n := by
  induction fuel generalizing a n with
  | zero => exact absurd h List.not_mem_nil
  | succ fuel ih =>
    rw [cuts] at h
    split at h
    · exact absurd h List.not_mem_nil
    next hn =>
      have hpos : 0 < n := Nat.pos_of_ne_zero fun e => hn (beq_iff_eq.mpr e)
      rcases List.mem_cons.mp h with rfl | h
      · exact ⟨Nat.le_refl _, by dsimp only; omega⟩
      · obtain ⟨hlow, hhigh⟩ := ih h
        have hmin : min n (g - a % g) ≤ n := Nat.min_le_left _ _
        generalize min n (g - a % g) = k at hlow hhigh hmin
        omega

/-- A range begins in a scratch and ends within the scratches. -/
def State.InScratch (s : State) (a n : Nat) : Prop := (∃ t off, s.regionOf a = .scratch t off) ∧ a + n ≤ scratchBase + 0x1000000

theorem State.regionOf_scratch {a : Nat} : (∃ t off, s.regionOf a = .scratch t off) ↔ s.dram.managed ≤ a ∧ 0x020100000000 ≤ a ∧ a < 0x020101000000 := by
  unfold State.regionOf
  constructor
  · rintro ⟨t, off, h⟩
    split at h
    · cases h
    · split at h
      · cases h
      · split at h
        next hmanaged _ hin =>
          rw [Bool.and_eq_true, decide_eq_true_eq, decide_eq_true_eq] at hin
          exact ⟨Nat.le_of_not_lt hmanaged, hin⟩
        · split at h
          · cases h
          · split at h
            · cases h
            · cases h
  · rintro ⟨hmanaged, hin⟩
    rw [if_neg (Nat.not_lt.mpr hmanaged), if_neg, if_pos]
    · exact ⟨_, _, rfl⟩
    · rwa [Bool.and_eq_true, decide_eq_true_eq, decide_eq_true_eq]
    · rw [Bool.and_eq_true, decide_eq_true_eq, decide_eq_true_eq]
      omega

theorem State.InScratch.inside {a n b : Nat} (h : s.InScratch a n) (hab : a ≤ b) (hb : b < a + n) : ∃ t off, s.regionOf b = .scratch t off := by
  obtain ⟨hstart, hend⟩ := h
  obtain ⟨hmanaged, hlow, -⟩ := State.regionOf_scratch.mp hstart
  unfold scratchBase at hend
  exact State.regionOf_scratch.mpr ⟨by omega, by omega, by omega⟩

theorem State.InScratch.cuts {a n : Nat} (h : s.InScratch a n) : s.devCuts a n = cuts 0x40000 (n + 1) a n := by
  obtain ⟨⟨t, off, hregion⟩, -⟩ := h
  unfold State.devCuts
  rw [hregion]

theorem State.devRead1_scratch {a : Nat} (h : ∃ t off, s.regionOf a = .scratch t off) (n : Nat) (stream : Bool) :
    s.devRead1 a n stream = (some ((s.devRead1 a n false).1.getD []), s) := by
  obtain ⟨t, off, h⟩ := h
  unfold State.devRead1
  rw [h]
  rfl

/-- A read of scratches changes nothing and gets its bytes. -/
theorem State.InScratch.devRead {a n : Nat} (h : s.InScratch a n) (stream : Bool) :
    s.devRead a n stream = (some ((s.devRead a n false).1.getD []), s) := by
  have hall : ∀ stream, s.devRead a n stream =
      (some ((Machine.cuts 0x40000 (n + 1) a n).flatMap fun p => (s.devRead1 p.1 p.2 false).1.getD []), s) := by
    intro stream
    unfold State.devRead
    rw [h.cuts]
    have hin : ∀ p ∈ Machine.cuts 0x40000 (n + 1) a n, ∃ t off, s.regionOf p.1 = .scratch t off := fun p hp =>
      h.inside (cuts_within hp).1 (cuts_within hp).2
    generalize Machine.cuts 0x40000 (n + 1) a n = l at hin
    suffices hfold : ∀ got : Bytes, l.foldl (fun (acc : Option Bytes × State) c =>
        let (d, s) := acc.2.devRead1 c.1 c.2 stream
        (acc.1.bind fun got => d.map (got ++ ·), s)) (some got, s) = (some (got ++ l.flatMap fun p => (s.devRead1 p.1 p.2 false).1.getD []), s) from
      hfold []
    induction l with
    | nil => exact fun got => by rw [List.flatMap_nil, List.append_nil]; rfl
    | cons p l ih =>
      intro got
      rw [List.foldl_cons, State.devRead1_scratch (hin p List.mem_cons_self)]
      refine (ih (fun q hq => hin q (List.mem_cons_of_mem p hq)) _).trans ?_
      rw [List.flatMap_cons, List.append_assoc]
  rw [hall stream, hall false]
  rfl

/-- The state with other tiles. -/
def State.TilesOnly (s u : State) : Prop := ∃ tiles, u = { s with tiles := tiles }

theorem State.TilesOnly.refl (s : State) : s.TilesOnly s := ⟨s.tiles, rfl⟩

theorem State.TilesOnly.trans {u v : State} (h : s.TilesOnly u) (k : u.TilesOnly v) : s.TilesOnly v := by
  obtain ⟨_, rfl⟩ := h
  obtain ⟨tiles, rfl⟩ := k
  exact ⟨tiles, rfl⟩

theorem State.InScratch.tilesOnly {u : State} {a n : Nat} (h : s.InScratch a n) (hu : s.TilesOnly u) : u.InScratch a n := by
  obtain ⟨_, rfl⟩ := hu
  exact h

theorem State.devWrite1_scratch {a : Nat} (h : ∃ t off, s.regionOf a = .scratch t off) (bs : Bytes) : s.TilesOnly (s.devWrite1 a bs) := by
  obtain ⟨t, off, h⟩ := h
  unfold State.devWrite1
  rw [h]
  exact ⟨_, rfl⟩

/-- A write of scratches changes the tiles alone. -/
theorem State.InScratch.devWrite {a : Nat} {bs : Bytes} (h : s.InScratch a bs.length) : s.TilesOnly (s.devWrite a bs) := by
  unfold State.devWrite
  rw [h.cuts]
  have hin : ∀ p ∈ Machine.cuts 0x40000 (bs.length + 1) a bs.length, ∃ t off, s.regionOf p.1 = .scratch t off := fun p hp =>
    h.inside (cuts_within hp).1 (cuts_within hp).2
  generalize Machine.cuts 0x40000 (bs.length + 1) a bs.length = l at hin
  have hfold : ∀ u : State, s.TilesOnly u → s.TilesOnly (l.foldl (fun s c => s.devWrite1 c.1 (sliceB (c.1 - a) c.2 bs)) u) := by
    induction l with
    | nil => exact fun u hu => hu
    | cons p l ih =>
      intro u hu
      refine ih (fun q hq => hin q (List.mem_cons_of_mem p hq)) _ (hu.trans ?_)
      obtain ⟨tiles, rfl⟩ := hu
      exact State.devWrite1_scratch (s := { s with tiles := tiles }) (hin p List.mem_cons_self) _
  exact hfold s (.refl s)

/-! One beat or group of a descriptor (R438 to R442). -/

/-- A write between the scratches that a channel may make. -/
def State.ChanScratch (s : State) (c : ChanId) (x : Nat × Bytes) : Prop := s.chanMay c x.1 x.2.length true = true ∧ ∃ t off, s.regionOf x.1 = .scratch t off

theorem State.inScratch_of_may {a n : Nat} {write : Bool} (h : s.chanMay c a n write = true) (hregion : ∃ t off, s.regionOf a = .scratch t off) :
    s.InScratch a n := by
  refine ⟨hregion, ?_⟩
  obtain ⟨t, off, hr⟩ := hregion
  unfold State.chanMay at h
  rw [hr] at h
  exact of_decide_eq_true h

theorem State.ChanScratch.tilesOnly {u : State} {x : Nat × Bytes} (h : s.ChanScratch c x) (hu : s.TilesOnly u) : u.ChanScratch c x := by
  obtain ⟨_, rfl⟩ := hu
  exact h

theorem State.ChanScratch.chanWrite {x : Nat × Bytes} (h : s.ChanScratch c x) : s.chanWrite c x.1 x.2 = .ok (s.devWrite x.1 x.2) := by
  obtain ⟨hmay, t, off, hregion⟩ := h
  unfold State.chanWrite
  rw [hmay, hregion]
  rfl

theorem State.ChanScratch.devWrite {x : Nat × Bytes} (h : s.ChanScratch c x) : s.TilesOnly (s.devWrite x.1 x.2) :=
  (State.inScratch_of_may h.1 h.2).devWrite

/-- The writes of a beat between scratches, in order. -/
theorem State.chanWrites_scratch {ws : List (Nat × Bytes)} (h : ∀ x ∈ ws, s.ChanScratch c x) :
    s.chanWrites c ws = (ws.flatMap (·.2), none, ws.foldl (fun s x => s.devWrite x.1 x.2) s) ∧
      s.TilesOnly (ws.foldl (fun s x => s.devWrite x.1 x.2) s) := by
  induction ws generalizing s with
  | nil => exact ⟨rfl, .refl s⟩
  | cons x ws ih =>
    have hx := h x List.mem_cons_self
    obtain ⟨hws, htiles⟩ := ih fun y hy => (h y (List.mem_cons_of_mem x hy)).tilesOnly hx.devWrite
    refine ⟨?_, hx.devWrite.trans htiles⟩
    rw [State.chanWrites, hx.chanWrite]
    dsimp only
    rw [hws]
    rfl

theorem State.tapTake_of_idle (h : ∀ k : Fin 16, (s.flash.ctxs[k]).state ≠ .running) (bs : Bytes) : s.tapTake c bs = s := by
  unfold State.tapTake
  dsimp only
  rw [List.find?_eq_none.mpr fun k _ hk => ?_]
  rw [Bool.and_eq_true, Bool.and_eq_true, beq_iff_eq] at hk
  exact h k hk.1.1

theorem State.chanReadBack_scratch {u : State} {a : Nat} (h : ∃ t off, s.regionOf a = .scratch t off) (hu : u.dram = s.dram) (n : Nat) :
    u.chanReadBack c a n = u := by
  obtain ⟨t, off, h⟩ := h
  have hregion : u.regionOf a = .scratch t off := by
    unfold State.regionOf
    rw [hu]
    exact h
  unfold State.chanReadBack
  rw [hregion]

/-- What a beat written between scratches leaves. -/
def State.put (s : State) (c : ChanId) (d : GDesc) (ws : List (Nat × Bytes)) (n : Nat) : State :=
  (((ws.foldl (fun s x => s.devWrite x.1 x.2) s).modChan c fun x => { x with bytes := x.bytes + (ws.flatMap (·.2)).length }).bump 0x2801 1
    (ws.flatMap (·.2)).length).modChan c fun x =>
      ({ x with desc := some { d with moved := d.moved + n, asked := 0, readBack := d.total ≤ d.moved + n } } : GChan).show

theorem State.chanPut_scratch {d : GDesc} {data : Bytes} {n : Nat} {ws : List (Nat × Bytes)} (hemit : d.emitPart data n = .ok ws)
    (h : ∀ x ∈ ws, s.ChanScratch c x) (hidle : ∀ k : Fin 16, (s.flash.ctxs[k]).state ≠ .running) : s.chanPut c d data n = s.put c d ws n := by
  obtain ⟨hws, htiles⟩ := State.chanWrites_scratch h
  unfold State.chanPut State.put
  rw [hemit]
  dsimp only
  rw [hws]
  dsimp only
  obtain ⟨tiles, hfold⟩ := htiles
  rw [hfold, State.tapTake_of_idle (s := { s with tiles := tiles }) hidle]
  generalize hlast : ws.getLast? = last
  cases last with
  | none => rfl
  | some w =>
    dsimp only
    split
    · refine (State.chanReadBack_scratch (h w (List.mem_of_getLast? hlast)).2 ?_ _).trans ?_
      · rfl
      · rfl
    · rfl

/-- Reads in order that each get their bytes and leave the state get the bytes of all. -/
theorem foldl_gathers {σ : Type} {u : σ} {reads : List (Nat × Nat)} {f : Option Bytes × σ → Nat × Nat → Option Bytes × σ} {get : Nat × Nat → Bytes}
    (h : ∀ x ∈ reads, ∀ got, f (some got, u) x = (some (got ++ get x), u)) (got : Bytes) :
    reads.foldl f (some got, u) = (some (got ++ reads.flatMap get), u) := by
  induction reads generalizing got with
  | nil => rw [List.flatMap_nil, List.append_nil]; rfl
  | cons x reads ih =>
    rw [List.foldl_cons, h x List.mem_cons_self, ih (fun y hy => h y (List.mem_cons_of_mem x hy)), List.flatMap_cons, List.append_assoc]

/-- One beat between scratches. -/
theorem State.chanBeat_scratch {d : GDesc} {reads : List (Nat × Nat)} {n : Nat} {ws : List (Nat × Bytes)}
    (hdesc : (s.gutter.chans[c]).desc = some d) (hrun : (s.gutter.chans[c]).state = .running) (hback : d.readBack = false) (hasked : d.asked = 0)
    (hpart : d.part = (reads, n)) (hreads : ∀ x ∈ reads, s.chanMay c x.1 x.2 false = true ∧ ∃ t off, s.regionOf x.1 = .scratch t off)
    (hemit : d.emitPart (reads.flatMap fun x => (s.devRead x.1 x.2 false).1.getD []) n = .ok ws) (hws : ∀ x ∈ ws, s.ChanScratch c x)
    (hidle : ∀ k : Fin 16, (s.flash.ctxs[k]).state ≠ .running) : s.chanBeat c = s.put c d ws n := by
  have hmay : (reads.any fun (x : Nat × Nat) => !s.chanMay c x.1 x.2 false) = false :=
    List.any_eq_false.mpr fun x hx => by rw [(hreads x hx).1]; decide
  have hin := fun x (hx : x ∈ reads) => State.inScratch_of_may (hreads x hx).1 (hreads x hx).2
  unfold State.chanBeat
  rw [hdesc]
  dsimp only
  rw [hback, hasked, hrun, hpart]
  dsimp only
  rw [hmay, if_neg (by decide), if_neg Bool.false_ne_true, (List.filterMap_eq_nil_iff (l := reads)).mpr]
  · dsimp only [List.head?_nil, Option.bind_none]
    rw [foldl_gathers (u := s) (get := fun x => (s.devRead x.1 x.2 false).1.getD []) fun x hx got => by rw [(hin x hx).devRead d.stream]]
    exact State.chanPut_scratch hemit hws hidle
  · intro x hx
    obtain ⟨t, off, hregion⟩ := (hreads x hx).2
    rw [hregion]

/-- What a beat put between scratches leaves of the channel. -/
theorem State.put_leaves {ws : List (Nat × Bytes)} (h : ∀ x ∈ ws, s.ChanScratch c x) (d : GDesc) (n : Nat) :
    (s.put c d ws n).mem = s.mem ∧ (s.put c d ws n).dram = s.dram ∧ (s.put c d ws n).thatch = s.thatch ∧
      (s.put c d ws n).tiles = (ws.foldl (fun s x => s.devWrite x.1 x.2) s).tiles ∧
      (s.put c d ws n).gutter.enable = s.gutter.enable ∧
      (s.put c d ws n).gutter.chans[c] = ({ s.gutter.chans[c] with
        bytes := (s.gutter.chans[c]).bytes + (ws.flatMap (·.2)).length
        desc := some { d with moved := d.moved + n, asked := 0, readBack := d.total ≤ d.moved + n } } : GChan).show := by
  obtain ⟨tiles, hfold⟩ := (State.chanWrites_scratch h).2
  unfold State.put
  rw [hfold, State.modChan_at]
  refine ⟨rfl, rfl, rfl, rfl, rfl, ?_⟩
  exact congrArg (fun x : GChan => ({ x with desc := some { d with moved := d.moved + n, asked := 0, readBack := d.total ≤ d.moved + n } } : GChan).show)
    (State.modChan_at { s with tiles := tiles } c fun x => { x with bytes := x.bytes + (ws.flatMap (·.2)).length })

theorem GChan.show_keeps (x : GChan) : x.show.bytes = x.bytes ∧ x.show.desc = x.desc ∧ x.show.line = x.line := by
  unfold GChan.show
  split
  · exact ⟨rfl, rfl, rfl⟩
  · exact ⟨rfl, rfl, rfl⟩

theorem GChan.await_of_free {x : GChan} (h : x.line = 0x3F) : x.await = x := by
  unfold GChan.await
  rw [h]
  split
  · rfl
  · rfl

/-- A command for one byte or row moves one beat of a channel that runs without a request line. -/
theorem State.chanMove_beat {d : GDesc} {n : Nat} (hdesc : (s.gutter.chans[c]).desc = some d) (hen : s.gutter.enable = true)
    (hrun : (s.gutter.chans[c]).state = .running) (hline : (s.gutter.chans[c]).line = 0x3F) (hback : d.readBack = false) (hasked : d.asked = 0)
    (hmore : d.moved < d.total) {u : State} {e : GDesc} (hbeat : s.chanBeat c = u) (hdesc' : (u.gutter.chans[c]).desc = some e)
    (hmoved : e.moved = d.moved + n) (hn : 0 < n) : s.chanMove d.mode c 1 = u.modChan c (·.await) := by
  have hbeats : State.chanBeats c (1 + 1) (d.moved + 1) s = u := by
    rw [State.chanBeats, hdesc]
    dsimp only
    rw [hback, hasked, hrun, if_neg, hbeat, State.chanBeats, hdesc']
    · dsimp only
      rw [hmoved, if_pos]
      rw [decide_eq_true (by omega : d.moved + 1 ≤ d.moved + n)]
      rfl
    · rw [decide_eq_false (by omega : ¬d.moved + 1 ≤ d.moved)]
      decide
  have hwant : min (max 1 1) (d.total - d.moved) = 1 := by omega
  unfold State.chanMove
  dsimp only
  rw [hdesc]
  dsimp only
  rw [hen, hrun, hback, hasked, hline]
  simp only [bne_self_eq_false, Bool.not_true, Bool.not_false, Bool.or_self, Bool.false_and, Bool.false_eq_true, if_false, if_true, hwant]
  rw [hbeats]

/-- A move between scratches: one beat, its bytes written in order. -/
theorem State.chanMove_scratch {d : GDesc} {reads : List (Nat × Nat)} {n : Nat} {ws : List (Nat × Bytes)}
    (hdesc : (s.gutter.chans[c]).desc = some d) (hen : s.gutter.enable = true) (hrun : (s.gutter.chans[c]).state = .running)
    (hline : (s.gutter.chans[c]).line = 0x3F) (hback : d.readBack = false) (hasked : d.asked = 0) (hmore : d.moved < d.total)
    (hpart : d.part = (reads, n)) (hn : 0 < n) (hreads : ∀ x ∈ reads, s.chanMay c x.1 x.2 false = true ∧ ∃ t off, s.regionOf x.1 = .scratch t off)
    (hemit : d.emitPart (reads.flatMap fun x => (s.devRead x.1 x.2 false).1.getD []) n = .ok ws) (hws : ∀ x ∈ ws, s.ChanScratch c x)
    (hidle : ∀ k : Fin 16, (s.flash.ctxs[k]).state ≠ .running) :
    (s.chanMove d.mode c 1).mem = s.mem ∧ (s.chanMove d.mode c 1).dram = s.dram ∧ (s.chanMove d.mode c 1).thatch = s.thatch ∧
      (s.chanMove d.mode c 1).tiles = (ws.foldl (fun s x => s.devWrite x.1 x.2) s).tiles ∧
      ((s.chanMove d.mode c 1).gutter.chans[c]).bytes = (s.gutter.chans[c]).bytes + (ws.map fun x => x.2.length).sum ∧
      ((s.chanMove d.mode c 1).gutter.chans[c]).desc = some { d with moved := d.moved + n, readBack := d.total ≤ d.moved + n } := by
  obtain ⟨hmem, hdram, hthatch, htiles, -, hchan⟩ := State.put_leaves hws d n
  have hbeat := State.chanBeat_scratch hdesc hrun hback hasked hpart hreads hemit hws hidle
  generalize s.put c d ws n = u at *
  obtain ⟨hbytes, hdesc', hline'⟩ := GChan.show_keeps { s.gutter.chans[c] with
    bytes := (s.gutter.chans[c]).bytes + (ws.flatMap (·.2)).length
    desc := some { d with moved := d.moved + n, asked := 0, readBack := d.total ≤ d.moved + n } }
  rw [← hchan] at hbytes hdesc' hline'
  rw [State.chanMove_beat hdesc hen hrun hline hback hasked hmore hbeat hdesc' rfl hn]
  have hawait : (u.modChan c (·.await)).gutter.chans[c] = u.gutter.chans[c] := by
    rw [State.modChan_at, GChan.await_of_free (hline'.trans hline)]
  refine ⟨hmem, hdram, hthatch, htiles, ?_, ?_⟩
  · rw [hawait, hbytes, List.length_flatMap]
  · rw [hawait, hdesc', ← hasked]

end

/-- Settles O30: control goes by the channel's state; a move between scratches is one beat that reads, makes and writes. -/
theorem gutterControlAndMoves : Obligations.GutterControlAndMoves := by
  refine ⟨fun s s' c host h host' line doneBack => ⟨fun hridge hbusy hline hring => ?_, fun hridge hbusy hline hclash => ?_, fun hridge hstate => ?_,
    fun hstate hdesc => ?_, fun d hridge hstate hstop hdesc hline => ?_, fun hridge hbusy => ?_, fun hlow hhigh => ?_, fun hlow hridge => ?_,
    fun hline hbusy hmay hone => ⟨fun hroom => ?_, fun hfull => ?_⟩, fun d hdesc hback hrun => ⟨?_, fun hdone hnext hring => ?_⟩,
    fun hring hwait hdesc hen hfetch hempty => ?_⟩,
    fun s c d reads n ws hdesc hen hrun hline hback hasked hmore hpart hn hreads hemit hws hidle => ?_⟩
  · exact congrArg Host.Outcome.next (State.chanStart_loads hridge hbusy hline hring host)
  · obtain ⟨-, -, hstate, hcode, -⟩ := (s.modChan c fun x => { x with state := .running, bytes := 0, code := 0, desc := none }).chanStop_leaves c stWrongState
    exact ⟨_, congrArg Host.Outcome.next (State.chanStart_clashes hridge hbusy hline hclash host), hstate, hcode⟩
  · exact congrArg Host.Outcome.next ((if_pos hridge).trans (State.chanPause_pauses hstate))
  · exact congrArg Host.Outcome.next (State.chanPaused_ends hstate hdesc)
  · exact congrArg Host.Outcome.next ((if_pos hridge).trans (State.chanResume_goesOn hstate hstop hdesc hline host))
  · obtain ⟨hmem, htiles, hstate, hcode, hdesc⟩ := s.chanStop_leaves c stAbortCancel
    obtain ⟨hmem', htiles', hchan⟩ := (s.chanStop c stAbortCancel).sweepMarked_leaves
    obtain ⟨hstate', hcode', hdesc'⟩ := hchan c
    exact ⟨_, execChAbort_stops hridge hbusy, hstate'.trans hstate, hcode'.trans hcode, hdesc'.trans hdesc, hmem'.trans hmem, htiles'.trans htiles⟩
  · refine congrArg Host.Outcome.next ((if_pos ?_).trans (State.raiseLine_reserved hlow hhigh))
    rw [decide_eq_true (by omega : line.val < 24)]
    rfl
  · refine congrArg Host.Outcome.next (if_neg ?_)
    rw [hridge, decide_eq_false (by omega : ¬line.val < 24)]
    decide
  · rw [execRequestLineRaise_one hmay hline hbusy hone, if_neg (by omega)]
    refine congrArg Host.Outcome.next (s.modChan_congr ?_)
    rw [if_congr (Bool.and_eq_true_iff.trans (and_congr_left' beq_iff_eq)) rfl rfl]
  · rw [execRequestLineRaise_one hmay hline hbusy hone, if_pos (by omega)]
    exact ⟨_, rfl, rfl, rfl, State.bump_ro _ _ _⟩
  · exact ⟨_, rfl, State.chanComplete_stops hdesc hback hrun doneBack host⟩
  · obtain ⟨hstate, hcode, hdesc', hunit⟩ := State.chanComplete_done hdesc hback hrun hdone hnext hring doneBack host
    obtain ⟨-, htiles, hchan⟩ := (s.chanComplete c true doneBack host).sweepMarked_leaves
    obtain ⟨hstate', hcode', hdesc''⟩ := hchan c
    refine ⟨_, rfl, hstate'.trans hstate, hcode'.trans hcode, hdesc''.trans hdesc', fun hnotify hnotifyEn => ?_⟩
    rw [htiles]
    exact hunit hnotify hnotifyEn
  · exact congrArg Host.Outcome.next (State.ringPoll_empty hring hwait hdesc hen hfetch hempty)
  · have hmove := State.chanMove_scratch hdesc hen hrun hline hback hasked hmore hpart hn hreads hemit hws hidle
    exact ⟨fun hmode => ⟨_, rfl, hmode ▸ hmove⟩, fun hmode => ⟨_, rfl, hmode ▸ hmove⟩, fun hmode => ⟨_, rfl, hmode ▸ hmove⟩,
      fun hmode => ⟨_, rfl, hmode ▸ hmove⟩, fun hmode => ⟨_, rfl, hmode ▸ hmove⟩, fun hmode => ⟨_, rfl, hmode ▸ hmove⟩⟩
end Sys2Proof.Machine
end

