-- ==== Sys2Proof/Proofs/CacheMaintenance.lean ====
section
/-! SUPPORT. CMO: its places or lines in order, its registers and its tally. -/

namespace Sys2Proof.Machine

set_option Elab.async false

section
variable {s : State} {t : TileId}

/-! What a CMO leaves of the tiles (R389): their caches alone may change. -/

theorem State.cmoData_sameRegs (s : State) (t : TileId) (op : Nat) (incl range : Bool) (k : Nat) :
    s.SameRegs (s.cmoData t op incl range k).2 := by
  unfold State.cmoData
  split
  · exact .refl s
  · split
    · exact .refl s
    · extract_lets n u lostN w
      have hu : s.SameRegs u := by
        unfold u
        split
        · exact (s.l1CleanAt_sameData t k).sameRegs
        · exact .refl s
      have hw : s.SameRegs w := by
        unfold w
        split
        · exact hu
        · exact hu.bump _ _ _
      split
      · split
        · exact (State.SameRegs.refl s).bump _ _ _
        · exact (State.SameRegs.refl s).modTile fun _ => by rfl
      · exact hw.modTile fun _ => by rfl

theorem State.cmoInstr_sameRegs (s : State) (t : TileId) (op : Nat) (incl : Bool) (k : Nat) : s.SameRegs (s.cmoInstr t op incl k).2 := by
  unfold State.cmoInstr
  split
  · exact .refl s
  · split
    · exact .refl s
    · split
      · exact .refl s
      · split
        · split
          · exact (State.SameRegs.refl s).bump _ _ _
          · exact (State.SameRegs.refl s).modTile fun _ => by rfl
        · exact (State.SameRegs.refl s).modTile fun _ => by rfl

theorem State.SameRegs.foldl {α : Type} {f : State → α → State} (hf : ∀ u a, State.SameRegs u (f u a)) (s : State) (l : List α) :
    s.SameRegs (l.foldl f s) := by
  induction l generalizing s with
  | nil => exact .refl s
  | cons a l ih => exact (hf s a).trans (ih _)

theorem State.SameRegs.foldl_snd {α β : Type} {f : β × State → α → β × State} (hf : ∀ p a, State.SameRegs p.2 (f p a).2) (p : β × State) (l : List α) :
    p.2.SameRegs (l.foldl f p).2 := by
  induction l generalizing p with
  | nil => exact .refl p.2
  | cons a l ih => exact (hf p a).trans (ih _)

theorem State.iFetch_sameRegs (s : State) (t : TileId) (a : Nat) (slot : Option Nat) : s.SameRegs (s.iFetch t a slot).2 :=
  fun u => (s.iFetch_sameCore t u a slot).sameRegs

theorem State.cmoDataLine_sameRegs (s : State) (t : TileId) (op : Nat) (incl : Bool) (line : Nat) :
    s.SameRegs (s.cmoDataLine t op incl line).2 := by
  unfold State.cmoDataLine
  extract_lets u
  have hu : s.SameRegs u := by
    unfold u
    split
    · exact State.SameRegs.foldl (fun v j => (v.l1Sector_sameData t line j).sameRegs) s _
    · exact .refl s
  split
  · exact hu.trans (u.cmoData_sameRegs _ _ _ _ _)
  · split
    · exact hu
    · dsimp only
      split
      · exact hu.modTile fun _ => by rfl
      · exact hu

theorem State.cmoInstrLine_sameRegs (s : State) (t : TileId) (op : Nat) (incl : Bool) (line : Nat) :
    s.SameRegs (s.cmoInstrLine t op incl line).2 := by
  unfold State.cmoInstrLine
  extract_lets u
  have hu : s.SameRegs u := by
    unfold u
    split
    · exact State.SameRegs.foldl (fun v j => v.iFetch_sameRegs t _ _) s _
    · exact .refl s
  refine hu.trans (State.SameRegs.foldl_snd (fun p k => ?_) (CmoTally.zero, u) _)
  split
  · exact p.2.cmoInstr_sameRegs _ _ _ _
  · exact .refl p.2

theorem State.cmoStep_sameRegs {data instr : State → CmoTally × State} (hdata : ∀ u, State.SameRegs u (data u).2)
    (hinstr : ∀ u, State.SameRegs u (instr u).2) (s : State) (t : TileId) (target : Nat) : s.SameRegs (s.cmoStep t target data instr).2 := by
  unfold State.cmoStep
  dsimp only
  have h : s.SameRegs (if (target == 1) = true then (CmoTally.zero, s) else data s).2 := by
    split
    · exact .refl s
    · exact hdata s
  split
  · exact h
  · exact h.trans (hinstr _)

/-! The places and the lines that one execution acts on. -/

/-- An execution by sets and ways. -/
def State.cmoPlaces (s : State) (t : TileId) (op target : Nat) (incl : Bool) (first n : Nat) : CmoTally × State :=
  (upFrom first n).foldl (fun (acc : CmoTally × State) k =>
    let (z, s) := acc.2.cmoStep t target (fun s => s.cmoData t op incl false (k % 512)) (fun s => s.cmoInstr t op incl (k % 256))
    (acc.1.add z, s)) (CmoTally.zero, s)

/-- An execution over a range. -/
def State.cmoLines (s : State) (t : TileId) (op target : Nat) (incl : Bool) (first n : Nat) : CmoTally × State :=
  (upFrom first n).foldl (fun (acc : CmoTally × State) line =>
    let (z, s) := acc.2.cmoStep t target (fun s => s.cmoDataLine t op incl line) (fun s => s.cmoInstrLine t op incl line)
    (acc.1.add z, s)) (CmoTally.zero, s)

theorem State.cmoPlaces_sameRegs (s : State) (t : TileId) (op target : Nat) (incl : Bool) (first n : Nat) :
    s.SameRegs (s.cmoPlaces t op target incl first n).2 := by
  refine State.SameRegs.foldl_snd (fun p k => ?_) (CmoTally.zero, s) (upFrom first n)
  exact State.cmoStep_sameRegs (fun u => u.cmoData_sameRegs t op incl false (k % 512)) (fun u => u.cmoInstr_sameRegs t op incl (k % 256)) p.2 t target

theorem State.cmoLines_sameRegs (s : State) (t : TileId) (op target : Nat) (incl : Bool) (first n : Nat) :
    s.SameRegs (s.cmoLines t op target incl first n).2 := by
  refine State.SameRegs.foldl_snd (fun p line => ?_) (CmoTally.zero, s) (upFrom first n)
  exact State.cmoStep_sameRegs (fun u => u.cmoDataLine_sameRegs t op incl line) (fun u => u.cmoInstrLine_sameRegs t op incl line) p.2 t target

/-! The registers after an execution. -/

/-- The registers of a CMO advanced, and its tally added (R389). -/
def Tile.cmoDone (c : Tile) (r : Reg) (y : CmoTally) (base count : Nat) : Tile :=
  ((c.setG r (BitVec.ofNat 64 base)).setG (r + 1) (BitVec.ofNat 64 count)).setG (r + 2) (BitVec.ofNat 64 (y.into (c.g[(r + 2 : Reg)]).toNat))

theorem cmoLegal_of {op : Nat} (hop : op ∈ [1, 2, 3, 4, 5]) (setway incl : Bool) {target : Fin 4} (ht : target ≠ 3) :
    cmoLegal (op + setway.toNat * 8 + target.val * 16 + incl.toNat * 64) = true :=
  (by decide : ∀ op ∈ [1, 2, 3, 4, 5], ∀ setway incl : Bool, ∀ target : Fin 4, target ≠ 3 →
    cmoLegal (op + setway.toNat * 8 + target.val * 16 + incl.toNat * 64) = true) op hop setway incl target ht

variable {s' : State}

/-- The effect of a CMO on the state after its fetch. -/
def State.cmoBody (s : State) (t : TileId) (op : Nat) (r : Reg) (setway : Bool) (target : Fin 4) (incl : Bool) : SOut :=
  let base := ((s.tiles[t]).g[r]).toNat
  let count := ((s.tiles[t]).g[(r + 1 : Reg)]).toNat
  if setway then
    let n := min count 128
    let first := base % 128 * 4 + bitsOf base 8 7
    let p := s.cmoPlaces t op target.val incl first n
    let after := (first + n) % ((if target == 1 then 64 else 128) * 4)
    .next (p.2.modTile t fun c => c.cmoDone r p.1 (after / 4 + after % 4 * 2 ^ 7) (count - n)) []
  else if base % 128 != 0 || count % 128 != 0 then .fault s (.align base)
  else
    let n := min (count / 128) 128
    let fetched := if op == 4 then (upFrom (base / 128) n).filter ((s.tiles[t]).lockFetches target.val) else []
    match fetched.findSome? fun l => s.firstBad t .load (128 * l) 128,
      (fetched.flatMap fun l => [2 * l, 2 * l + 1]).find? fun l => s.lineBad (64 * l) with
    | some k, _ => .fault s (.window k)
    | none, some l => .fault s (.poisoned (64 * l))
    | none, none =>
      let p := s.cmoLines t op target.val incl (base / 128) n
      .next (p.2.modTile t fun c => c.cmoDone r p.1 (base + 128 * n) (count - 128 * n)) []

theorem State.cmo_eq (s : State) (t : TileId) (op : Nat) (r : Reg) (setway : Bool) (target : Fin 4) (incl : Bool) :
    s.cmo t op r setway target incl = s.sparWord t (wordS 7 r.val (op + setway.toNat * 8 + target.val * 16 + incl.toNat * 64))
      (cmoLegal (op + setway.toNat * 8 + target.val * 16 + incl.toNat * 64)) true fun s => s.cmoBody t op r setway target incl := by
  unfold State.cmo State.cmoBody
  rfl

theorem Fetched.cmo_eq (h : Fetched s t s') (hpl : (s.tiles[t]).pl = true) {op : Nat} (hop : op ∈ [1, 2, 3, 4, 5]) (r : Reg) (setway incl : Bool)
    {target : Fin 4} (ht : target ≠ 3) : s.cmo t op r setway target incl =
      (s'.cmoBody t op r setway target incl).retire t (s.tiles[t]).pc.toNat := by
  rw [State.cmo_eq, cmoLegal_of hop setway incl ht]
  exact h.sparWord_eq (fun _ => hpl) _ _

/-- What an execution that ends leaves of its tile. -/
theorem Fetched.cmo_leaves (h : Fetched s t s') {w : State} (hw : s'.SameRegs w) (r : Reg) (y : CmoTally) (base count : Nat) {u : State}
    (hu : u = (SOut.next (w.modTile t fun c => c.cmoDone r y base count) []).retire t (s.tiles[t]).pc.toNat) :
    (u.tiles[t]).g = (((s.tiles[t]).g.set r (BitVec.ofNat 64 base)).set (r + 1 : Reg) (BitVec.ofNat 64 count)).set (r + 2 : Reg)
        (BitVec.ofNat 64 (y.into ((s.tiles[t]).g[(r + 2 : Reg)]).toNat)) ∧
      (u.tiles[t]).v = (s.tiles[t]).v ∧ (u.tiles[t]).m = (s.tiles[t]).m ∧ (u.tiles[t]).msp = (s.tiles[t]).msp ∧
      (u.tiles[t]).scratch = (s.tiles[t]).scratch ∧ (u.tiles[t]).pc = pcWord ((s.tiles[t]).pc.toNat + 4) := by
  have hregs : (s.tiles[t]).sameRegs w.tiles[t] := (h.sameCore t).sameRegs.trans (hw t)
  have hstate : (w.tiles[t]).state ≠ .reset := by
    rw [hw t]
    exact h.running
  have hset : u = (w.modTile t fun c => c.cmoDone r y base count).modTile t fun c => { c with pc := pcWord ((s.tiles[t]).pc.toNat + 4) } := by
    rw [hu]
    refine if_neg fun hreset => hstate ?_
    rw [State.modTile_at] at hreset
    exact beq_iff_eq.mp hreset
  have htile : u.tiles[t] = { (w.tiles[t]).cmoDone r y base count with pc := pcWord ((s.tiles[t]).pc.toNat + 4) } := by
    rw [hset, State.modTile_at, State.modTile_at]
  rw [htile, hregs]
  exact ⟨rfl, rfl, rfl, rfl, rfl, rfl⟩

theorem State.cmoBody_places (s : State) (t : TileId) (op : Nat) (r : Reg) (target : Fin 4) (incl : Bool) :
    s.cmoBody t op r true target incl =
      (let base := ((s.tiles[t]).g[r]).toNat
       let count := ((s.tiles[t]).g[(r + 1 : Reg)]).toNat
       let first := base % 128 * 4 + base / 128 % 4
       let sets := if target = 1 then 64 else 128
       let n := min count 128
       let p := s.cmoPlaces t op target.val incl first n
       .next (p.2.modTile t fun c => c.cmoDone r p.1 (((first + n) % (4 * sets)) / 4 + (first + n) % 4 * 128) (count - n)) []) := by
  have hsets : (if target == 1 then 64 else 128) = if target = 1 then 64 else 128 := if_congr beq_iff_eq rfl rfl
  have hfirst : ∀ x, bitsOf x 8 7 = x / 128 % 4 := fun _ => rfl
  unfold State.cmoBody
  dsimp only
  rw [if_pos rfl, hsets, hfirst, Nat.mod_mul_left_mod, Nat.mul_comm (if target = 1 then 64 else 128) 4]
  rfl

theorem State.cmoBody_lines {op : Nat} {r : Reg} (hbase : ((s.tiles[t]).g[r]).toNat % 128 = 0) (hcount : ((s.tiles[t]).g[(r + 1 : Reg)]).toNat % 128 = 0)
    (hmay : op = 4 → s.firstBad t .load ((s.tiles[t]).g[r]).toNat (128 * min (((s.tiles[t]).g[(r + 1 : Reg)]).toNat / 128) 128) = none ∧
      ∀ l, l < 2 * min (((s.tiles[t]).g[(r + 1 : Reg)]).toNat / 128) 128 → s.lineBad (64 * (((s.tiles[t]).g[r]).toNat / 64 + l)) = false)
    (target : Fin 4) (incl : Bool) : s.cmoBody t op r false target incl =
      (let base := ((s.tiles[t]).g[r]).toNat
       let count := ((s.tiles[t]).g[(r + 1 : Reg)]).toNat
       let n := min (count / 128) 128
       let p := s.cmoLines t op target.val incl (base / 128) n
       .next (p.2.modTile t fun c => c.cmoDone r p.1 (base + 128 * n) (count - 128 * n)) []) := by
  unfold State.cmoBody
  dsimp only
  generalize hb : ((s.tiles[t]).g[r]).toNat = base at *
  generalize hc : ((s.tiles[t]).g[(r + 1 : Reg)]).toNat = count at *
  generalize min (count / 128) 128 = n at *
  generalize hf : (if (op == 4) = true then (upFrom (base / 128) n).filter ((s.tiles[t]).lockFetches target.val) else []) = fetched
  have hfetched : ∀ l ∈ fetched, op = 4 ∧ ∃ j, j < n ∧ l = base / 128 + j := by
    intro l hl
    rw [← hf] at hl
    split at hl
    next hop =>
      obtain ⟨j, hj, hjl⟩ := List.mem_map.mp (List.mem_filter.mp hl).1
      exact ⟨beq_iff_eq.mp hop, j, List.mem_range.mp hj, hjl.symm⟩
    · exact absurd hl List.not_mem_nil
  have hwindow : (fetched.findSome? fun l => s.firstBad t .load (128 * l) 128) = none := by
    refine List.findSome?_eq_none_iff.mpr fun l hl => List.find?_eq_none.mpr fun x hx => ?_
    obtain ⟨hop, j, hj, rfl⟩ := hfetched l hl
    obtain ⟨i, hi, rfl⟩ := List.mem_map.mp hx
    refine List.find?_eq_none.mp (hmay hop).1 _ (List.mem_map.mpr ⟨128 * j + i, List.mem_range.mpr ?_, ?_⟩)
    · have := List.mem_range.mp hi
      omega
    · omega
  have hpoison : ((fetched.flatMap fun l => [2 * l, 2 * l + 1]).find? fun l => s.lineBad (64 * l)) = none := by
    refine List.find?_eq_none.mpr fun x hx => ?_
    obtain ⟨l, hl, hxl⟩ := List.mem_flatMap.mp hx
    obtain ⟨hop, j, hj, rfl⟩ := hfetched l hl
    have hline : ∃ k, k < 2 * n ∧ x = base / 64 + k := by
      rcases List.mem_cons.mp hxl with rfl | hxl
      · exact ⟨2 * j, by omega, by omega⟩
      · exact ⟨2 * j + 1, by omega, by rw [List.mem_singleton.mp hxl]; omega⟩
    obtain ⟨k, hk, rfl⟩ := hline
    rw [(hmay hop).2 k hk]
    exact Bool.false_ne_true
  rw [hbase, hcount, if_neg Bool.false_ne_true, if_neg (by decide), hwindow, hpoison]

/-! The accumulator after an execution on one place of L1 data (R389, R391). -/

theorem State.cmoPlaces_one (s : State) (t : TileId) (op : Nat) (incl : Bool) {first : Nat} (h : first < 512) :
    (s.cmoPlaces t op 0 incl first 1).1 = (s.cmoData t op incl false first).1 := by
  unfold State.cmoPlaces State.cmoStep
  show (CmoTally.zero.add ((s.cmoData t op incl false ((first + 0) % 512)).1.add CmoTally.zero)) = _
  rw [Nat.add_zero, Nat.mod_eq_of_lt h]
  simp [CmoTally.add, CmoTally.zero]

theorem CmoTally.into_zero (y : CmoTally) : y.into 0 =
    min 0xFFFF y.acted + min 0xFFFF y.skipped * 2 ^ 16 + min 0xFFFF y.discarded * 2 ^ 32 + min 0xFFFF y.refused * 2 ^ 48 := by
  unfold CmoTally.into satField bitsOf
  rw [Nat.zero_div, Nat.zero_div, Nat.zero_div]
  simp

/-- What an operation on one place of L1 data counts. -/
def Tile.cmoTally (c : Tile) (op : Nat) (incl : Bool) (k : Nat) : CmoTally :=
  match nget c.l1d k with
  | none => .zero
  | some x =>
    if x.locked = true ∧ incl = false then ⟨0, 1, 0, 0⟩
    else if op = 4 ∧ x.locked = false ∧ 3 ≤ c.lockedIn (k / 4) then ⟨0, 0, 0, 1⟩
    else ⟨1, 0, if op = 2 then x.dirty.countP id else 0, 0⟩

theorem State.cmoData_tally (s : State) (t : TileId) (op : Nat) (incl : Bool) (k : Nat) :
    (s.cmoData t op incl false k).1 = (s.tiles[t]).cmoTally op incl k := by
  unfold State.cmoData Tile.cmoTally
  rcases nget (s.tiles[t]).l1d k with _ | x
  · rfl
  · dsimp -zeta only
    by_cases hskip : x.locked = true ∧ incl = false
    · rw [if_pos (by rw [hskip.1, hskip.2]; rfl), if_pos hskip]
    · rw [if_neg (by rwa [Bool.and_eq_true, Bool.not_eq_true']), if_neg hskip]
      dsimp only
      by_cases h4 : op = 4
      · subst h4
        rw [if_pos (beq_self_eq_true 4)]
        by_cases hfull : x.locked = false ∧ 3 ≤ (s.tiles[t]).lockedIn (k / 4)
        · rw [if_pos (by rw [hfull.1, decide_eq_true hfull.2]; rfl), if_pos ⟨rfl, hfull⟩]
        · rw [if_neg (by rwa [Bool.and_eq_true, Bool.not_eq_true', decide_eq_true_eq]), if_neg fun h => hfull h.2]
          rfl
      · have hfull : ¬(op = 4 ∧ x.locked = false ∧ 3 ≤ (s.tiles[t]).lockedIn (k / 4)) := fun h => h4 h.1
        rw [if_neg (by rwa [beq_iff_eq]), if_neg hfull]
        exact congrArg (fun n => (⟨1, 0, n, 0⟩ : CmoTally)) (if_congr beq_iff_eq rfl rfl)

theorem Tile.sameCore.cmoTally {c e : Tile} (h : c.sameCore e) (op : Nat) (incl : Bool) (k : Nat) : e.cmoTally op incl k = c.cmoTally op incl k := by
  rw [h]
  rfl

/-- What a CMO in monitor mode does (R389). -/
theorem Fetched.cmo_does (h : Fetched s t s') (hpl : (s.tiles[t]).pl = true) {op : Nat} (hop : op ∈ [1, 2, 3, 4, 5]) (r : Reg) (setway incl : Bool)
    {target : Fin 4} (ht : target ≠ 3) {base count : Nat} (hb : ((s.tiles[t]).g[r]).toNat = base) (hc : ((s.tiles[t]).g[(r + 1 : Reg)]).toNat = count)
    (haligned : setway = true ∨ (base % 128 = 0 ∧ count % 128 = 0))
    (hmay : op = 4 → setway = true ∨ (s'.firstBad t .load base (128 * min (if setway = true then count else count / 128) 128) = none ∧
      ∀ l, l < 2 * min (if setway = true then count else count / 128) 128 → s'.lineBad (64 * (base / 64 + l)) = false)) :
    ∃ u acc, s.cmo t op r setway target incl = u ∧
      (let first := base % 128 * 4 + base / 128 % 4
       let lines := min (if setway = true then count else count / 128) 128
       let sets := if target = 1 then 64 else 128
       let next := if setway = true then ((first + lines) % (4 * sets)) / 4 + (first + lines) % 4 * 128 else base + 128 * lines
       let rest := if setway = true then count - lines else count - 128 * lines
       (u.tiles[t]).g = (((s.tiles[t]).g.set r (BitVec.ofNat 64 next)).set (r + 1 : Reg) (BitVec.ofNat 64 rest)).set (r + 2 : Reg) acc ∧
       (u.tiles[t]).v = (s.tiles[t]).v ∧ (u.tiles[t]).m = (s.tiles[t]).m ∧ (u.tiles[t]).msp = (s.tiles[t]).msp ∧
       (u.tiles[t]).scratch = (s.tiles[t]).scratch ∧ (u.tiles[t]).pc = pcWord ((s.tiles[t]).pc.toNat + 4) ∧
       (setway = true → target = 0 → count = 1 → (s.tiles[t]).g[(r + 2 : Reg)] = 0 →
         acc = BitVec.ofNat 64 (((s.tiles[t]).cmoTally op incl first).into 0))) := by
  have hcmo := h.cmo_eq hpl hop r setway incl ht
  have hb' : ((s'.tiles[t]).g[r]).toNat = base := by rw [h.sameCore t]; exact hb
  have hc' : ((s'.tiles[t]).g[(r + 1 : Reg)]).toNat = count := by rw [h.sameCore t]; exact hc
  cases setway with
  | true =>
    have hbody := s'.cmoBody_places t op r target incl
    rw [hb', hc'] at hbody
    rw [hbody] at hcmo
    obtain ⟨hg, hv, hm, hmsp, hscratch, hpc⟩ := h.cmo_leaves (s'.cmoPlaces_sameRegs t op target.val incl _ _) r _ _ _ hcmo
    refine ⟨_, _, rfl, hg, hv, hm, hmsp, hscratch, hpc, fun _ h0 h1 hacc => ?_⟩
    subst h0 h1
    have hone : (s'.cmoPlaces t op 0 incl (base % 128 * 4 + base / 128 % 4) 1).1 = (s.tiles[t]).cmoTally op incl (base % 128 * 4 + base / 128 % 4) := by
      rw [State.cmoPlaces_one _ _ _ _ (by omega), State.cmoData_tally, (h.sameCore t).cmoTally]
    rw [hacc]
    exact congrArg (fun y : CmoTally => BitVec.ofNat 64 (y.into 0)) hone
  | false =>
    obtain ⟨hbase, hcount⟩ := haligned.resolve_left Bool.false_ne_true
    have hbody := State.cmoBody_lines (s := s') (op := op) (r := r) (t := t) (by rw [hb']; exact hbase) (by rw [hc']; exact hcount)
      (fun h4 => by rw [hb', hc']; exact (hmay h4).resolve_left Bool.false_ne_true) target incl
    rw [hb', hc'] at hbody
    rw [hbody] at hcmo
    obtain ⟨hg, hv, hm, hmsp, hscratch, hpc⟩ := h.cmo_leaves (s'.cmoLines_sameRegs t op target.val incl _ _) r _ _ _ hcmo
    exact ⟨_, _, rfl, hg, hv, hm, hmsp, hscratch, hpc, fun hset => absurd hset Bool.false_ne_true⟩

/-- The accumulator of an execution on one place, from zero. -/
theorem Tile.cmoTally_acc (c : Tile) (op : Nat) (incl : Bool) (k : Nat) {acc : Word} (h : acc = BitVec.ofNat 64 ((c.cmoTally op incl k).into 0)) :
    match nget c.l1d k with
    | none => acc = 0
    | some x =>
      if x.locked = true ∧ incl = false then acc = 2 ^ 16
      else if op = 4 ∧ x.locked = false ∧ 3 ≤ c.lockedIn (k / 4) then acc = 2 ^ 48
      else acc = BitVec.ofNat 64 (1 + if op = 2 then min 0xFFFF (x.dirty.countP id) * 2 ^ 32 else 0) := by
  rw [h, CmoTally.into_zero]
  unfold Tile.cmoTally
  rcases nget c.l1d k with _ | x
  · dsimp only
    decide
  · dsimp only
    by_cases hskip : x.locked = true ∧ incl = false
    · rw [if_pos hskip, if_pos hskip]
      decide
    · rw [if_neg hskip, if_neg hskip]
      by_cases hfull : op = 4 ∧ x.locked = false ∧ 3 ≤ c.lockedIn (k / 4)
      · rw [if_pos hfull, if_pos hfull]
        decide
      · rw [if_neg hfull, if_neg hfull]
        by_cases h2 : op = 2
        · rw [if_pos h2, if_pos h2]
          simp
        · rw [if_neg h2, if_neg h2]
          simp

end
end Sys2Proof.Machine
end

