-- ==== Sys2Proof/Proofs/ThatchLines.lean ====
section
/-! SUPPORT. What a Thatch operation leaves of the lines of its slices. -/

namespace Sys2Proof.Machine

set_option Elab.async false

section
variable {s : State} {i : Fin 16}

/-! Slices. -/

theorem State.modSlice_at (s : State) (i : Fin 16) (f : Slice → Slice) : (s.modSlice i f).thatch.slices[i] = f s.thatch.slices[i] :=
  Vector.getElem_set_self _

theorem State.modSlice_other (s : State) {i j : Fin 16} (h : j ≠ i) (f : Slice → Slice) :
    (s.modSlice i f).thatch.slices[j] = s.thatch.slices[j] :=
  Vector.getElem_set_ne i.isLt j.isLt fun e => h (Fin.ext e.symm)

theorem State.drainAll_thatch (s : State) : s.drainAll.thatch = s.thatch := by
  unfold State.drainAll
  refine foldl_keeps State.thatch _ (fun u m => ?_) _ s
  unfold State.drainChan
  refine (foldl_keeps State.thatch _ ?_ _ _).trans ?_
  · exact fun v w => v.storeBytes_thatch _ _
  · rfl

theorem State.dramWrite_thatch (s : State) (a : Nat) (bs : Bytes) : (s.dramWrite a bs).thatch = s.thatch :=
  (s.drainAll.storeBytes_thatch a bs).trans s.drainAll_thatch

theorem State.writeBack_thatch (s : State) (x : TLine) : (s.writeBack x).thatch = s.thatch := by
  unfold State.writeBack
  split
  · rfl
  · refine foldl_keeps State.thatch _ ?_ _ s
    exact fun v p => v.dramWrite_thatch _ _

/-! What an operation on a line leaves of its slice (R387, R391). -/

/-- The lines of a slice after an operation on one place. -/
def Slice.lineOp (c : Slice) (op : Nat) (incl range : Bool) (k : Nat) : NMap TLine :=
  match nget c.lines k with
  | none => c.lines
  | some x =>
    if (x.locked || x.aperture) && !incl then c.lines
    else if op == 4 then
      if !x.locked && !x.aperture && 15 ≤ c.heldIn (k / 16) then c.lines else nmod c.lines k fun x => { x with locked := true }
    else if op == 2 || op == 3 then ndel c.lines k
    else if op == 1 then nmod c.lines k fun x => { x with dirty0 := false, dirty1 := false, region := none, locked := x.locked && !range }
    else nmod c.lines k fun x => { x with locked := false }

/-- The slices of two states are the same but for the lines of one. -/
def State.LinesOf (s : State) (i : Fin 16) (lines : NMap TLine) (u : State) : Prop :=
  u.thatch.slices[i] = { s.thatch.slices[i] with lines := lines } ∧ ∀ j : Fin 16, j ≠ i → u.thatch.slices[j] = s.thatch.slices[j]

theorem State.LinesOf.refl (s : State) (i : Fin 16) : s.LinesOf i (s.thatch.slices[i]).lines s := ⟨rfl, fun _ _ => rfl⟩

theorem State.LinesOf.of_thatch {lines : NMap TLine} {u v : State} (h : s.LinesOf i lines u) (hv : v.thatch = u.thatch) : s.LinesOf i lines v := by
  unfold State.LinesOf
  rw [hv]
  exact h

theorem State.LinesOf.trans {l m : NMap TLine} {u v : State} (h : s.LinesOf i l u) (k : u.LinesOf i m v) : s.LinesOf i m v := by
  obtain ⟨hat, hother⟩ := h
  obtain ⟨kat, kother⟩ := k
  exact ⟨by rw [kat, hat], fun j hj => (kother j hj).trans (hother j hj)⟩

theorem State.linesOf_modSlice {u : State} (hu : u.thatch = s.thatch) (i : Fin 16) {f : Slice → NMap TLine} :
    s.LinesOf i (f s.thatch.slices[i]) (u.modSlice i fun c => { c with lines := f c }) := by
  refine ⟨?_, fun j hj => ?_⟩
  · rw [State.modSlice_at, hu]
  · rw [State.modSlice_other u hj, hu]

theorem State.thLineOp_lines (s : State) (i : Fin 16) (op : Nat) (incl range : Bool) (k : Nat) :
    s.LinesOf i ((s.thatch.slices[i]).lineOp op incl range k) (s.thLineOp i op incl range k).2 := by
  have hsame := State.LinesOf.refl s i
  have hmod := fun (u : State) (hu : u.thatch = s.thatch) f => State.linesOf_modSlice (s := s) hu i (f := f)
  unfold State.thLineOp Slice.lineOp
  rcases nget (s.thatch.slices[i]).lines k with _ | x
  · exact hsame
  · dsimp -zeta only
    split
    · exact hsame
    · split
      · split
        · exact hsame.of_thatch rfl
        · exact hmod s rfl fun c => nmod c.lines k fun x => { x with locked := true }
      · extract_lets u n w
        have hu : u.thatch = s.thatch := by
          unfold u
          split
          · exact s.writeBack_thatch x
          · rfl
        have hw : w.thatch = s.thatch := by
          unfold w
          split
          · exact hu
          · exact hu
        exact hmod w hw fun c => if op == 2 || op == 3 then ndel c.lines k
          else if op == 1 then nmod c.lines k fun x => { x with dirty0 := false, dirty1 := false, region := none, locked := x.locked && !range }
          else nmod c.lines k fun x => { x with locked := false }

/-- The slice after operations on places in order. -/
def Slice.lineOps (c : Slice) (op : Nat) (incl range : Bool) (l : List Nat) : Slice :=
  l.foldl (fun c k => { c with lines := c.lineOp op incl range k }) c

theorem State.thLineOps_lines (i : Fin 16) (op : Nat) (incl range : Bool) (l : List Nat) (p : CmoTally × State) :
    p.2.LinesOf i ((p.2.thatch.slices[i]).lineOps op incl range l).lines (l.foldl (fun (acc : CmoTally × State) k =>
      let (y, s) := acc.2.thLineOp i op incl range k
      (acc.1.add y, s)) p).2 := by
  induction l generalizing p with
  | nil => exact .refl p.2 i
  | cons k l ih =>
    have hk := p.2.thLineOp_lines i op incl range k
    refine hk.trans ?_
    have hrest := ih (p.1.add (p.2.thLineOp i op incl range k).1, (p.2.thLineOp i op incl range k).2)
    dsimp only at hrest
    rw [hk.1] at hrest
    exact hrest

/-- The line that APERTURE puts in its place (R388). -/
def TLine.aperturePlace : TLine :=
  { line := 0, data := zeros 64, dirty0 := false, dirty1 := false, locked := true, aperture := true, region := none, bad0 := false, bad1 := false }

/-- The lines of a slice after an APERTURE of one place. -/
def Slice.apertureOp (c : Slice) (incl : Bool) (k : Nat) : NMap TLine :=
  let held := (nget c.lines k).any fun x => x.locked || x.aperture
  if held && !incl then c.lines
  else if !held && 15 ≤ c.heldIn (k / 16) then c.lines
  else nput c.lines k .aperturePlace

theorem State.thAperture_lines (s : State) (i : Fin 16) (incl : Bool) (k : Nat) :
    s.LinesOf i ((s.thatch.slices[i]).apertureOp incl k) (s.thAperture i incl k).2 := by
  have hsame := State.LinesOf.refl s i
  unfold State.thAperture Slice.apertureOp
  dsimp only
  split
  · exact hsame
  · split
    · exact hsame.of_thatch rfl
    · refine State.linesOf_modSlice ?_ i (f := fun c => nput c.lines k .aperturePlace)
      split
      · exact s.writeBack_thatch _
      · rfl

/-- The lines of a slice after an operation over it (R390). -/
def Slice.opLines (c : Slice) (op : Nat) (setway incl : Bool) (addr len : Nat) : NMap TLine :=
  if !c.powered then c.lines
  else if op == 6 then c.apertureOp incl (addr % 2 ^ 13 * 16 + bitsOf addr 19 16)
  else (c.lineOps op incl (!setway) (c.visited setway addr len)).lines

theorem State.thSliceOp_lines (s : State) (i : Fin 16) (op : Nat) (setway incl : Bool) (addr len : Nat) :
    s.LinesOf i ((s.thatch.slices[i]).opLines op setway incl addr len) (s.thSliceOp i op setway incl addr len).2 := by
  unfold State.thSliceOp Slice.opLines
  split
  · exact .refl s i
  · split
    · exact s.thAperture_lines i incl _
    · exact State.thLineOps_lines i op incl (!setway) _ (CmoTally.zero, s)

/-- The slices after an operation over several, each once. -/
theorem State.thSlices_lines (op : Nat) (setway incl : Bool) (addr len : Nat) {l : List (Fin 16)} (hl : l.Nodup) (p : CmoTally × State) (i : Fin 16) :
    (l.foldl (fun (acc : CmoTally × State) i =>
        let (z, s) := acc.2.thSliceOp i op setway incl addr len
        (acc.1.add z, s)) p).2.thatch.slices[i] =
      if i ∈ l then { p.2.thatch.slices[i] with lines := (p.2.thatch.slices[i]).opLines op setway incl addr len } else p.2.thatch.slices[i] := by
  induction l generalizing p with
  | nil => rfl
  | cons j l ih =>
    obtain ⟨hj, hl⟩ := List.nodup_cons.mp hl
    have hstep := p.2.thSliceOp_lines j op setway incl addr len
    refine (ih hl (p.1.add (p.2.thSliceOp j op setway incl addr len).1, (p.2.thSliceOp j op setway incl addr len).2)).trans ?_
    dsimp only
    by_cases hij : i = j
    · subst hij
      rw [if_neg hj, if_pos List.mem_cons_self]
      exact hstep.1
    · rw [hstep.2 i hij]
      exact if_congr (List.mem_cons.trans (or_iff_right hij)).symm rfl rfl

/-! What an operation leaves besides. -/

section
variable {γ : Type} {g : State → γ} (hslice : ∀ s i f, g (State.modSlice s i f) = g s) (hbump : ∀ s a b n, g (State.bump s a b n) = g s)
include hslice hbump

theorem State.thLineOp_view {op : Nat} (hback : op = 1 ∨ op = 3 → ∀ s x, g (State.writeBack s x) = g s) (s : State) (i : Fin 16) (incl range : Bool) (k : Nat) :
    g (s.thLineOp i op incl range k).2 = g s := by
  unfold State.thLineOp
  split
  · rfl
  · split
    · rfl
    · split
      · split
        · exact hbump _ _ _ _
        · dsimp only
          exact hslice _ _ _
      · extract_lets u n w v
        have hu : g u = g s := by
          unfold u
          split
          next hop =>
            rw [Bool.or_eq_true, beq_iff_eq, beq_iff_eq] at hop
            exact hback hop s _
          · rfl
        have hw : g w = g u := by
          unfold w
          split
          · rfl
          · exact hbump _ _ _ _
        have hv : g v = g w := by
          unfold v
          exact hslice _ _ _
        exact hv.trans (hw.trans hu)

theorem State.thSliceOp_view {op : Nat} (hback : op = 1 ∨ op = 3 ∨ op = 6 → ∀ s x, g (State.writeBack s x) = g s) (s : State) (i : Fin 16)
    (setway incl : Bool) (addr len : Nat) : g (s.thSliceOp i op setway incl addr len).2 = g s := by
  unfold State.thSliceOp
  split
  · rfl
  · split
    next hop =>
      unfold State.thAperture
      dsimp only
      split
      · rfl
      · split
        · exact hbump _ _ _ _
        · dsimp only
          refine (hslice _ _ _).trans ?_
          split
          · exact hback (.inr (.inr (beq_iff_eq.mp hop))) s _
          · rfl
    · refine foldl_keeps (fun p : CmoTally × State => g p.2) _ (fun p k => ?_) _ (CmoTally.zero, s)
      exact State.thLineOp_view hslice hbump (fun h => hback (h.imp_right .inl)) p.2 i incl (!setway) k

end

end
end Sys2Proof.Machine
end

