-- ==== Sys2Proof/Proofs/ThatchLineOperations.lean ====
section
/-! SUPPORT. Operations on one line of a slice, and the forms of a Thatch operation. -/

namespace Sys2Proof.Machine

set_option Elab.async false

section
variable {s : State} {c : Slice} {op : Nat} {incl range : Bool}

/-! What operations on places in order leave of one line (R387, R391). -/

theorem nmod_or_keeps {R : TLine → TLine → Prop} (hrefl : ∀ x, R x x) {f : TLine → TLine} (hf : ∀ x, R x (f x)) {m m' : NMap TLine} {k j : Nat}
    (h : m' = m ∨ m' = nmod m k f) {x : TLine} (hx : nget m j = some x) : ∃ y, nget m' j = some y ∧ R x y := by
  rcases h with rfl | rfl
  · exact ⟨x, hx, hrefl x⟩
  · rw [nget_nmod]
    split
    · exact ⟨f x, by rw [hx]; rfl, hf x⟩
    · exact ⟨x, hx, hrefl x⟩

/-- What each operation keeps of a line all of them keep. -/
theorem Slice.lineOps_keeps {R : TLine → TLine → Prop} (hrefl : ∀ x, R x x) (htrans : ∀ x y z, R x y → R y z → R x z)
    (hstep : ∀ (c : Slice) k j x, nget c.lines j = some x → ∃ y, nget (c.lineOp op incl range k) j = some y ∧ R x y) (l : List Nat) {j : Nat} {x : TLine}
    (hx : nget c.lines j = some x) : ∃ y, nget (c.lineOps op incl range l).lines j = some y ∧ R x y := by
  induction l generalizing c x with
  | nil => exact ⟨x, hx, hrefl x⟩
  | cons k l ih =>
    obtain ⟨y, hy, hxy⟩ := hstep c k j x hx
    obtain ⟨z, hz, hyz⟩ := ih (c := { c with lines := c.lineOp op incl range k }) hy
    exact ⟨z, hz, htrans x y z hxy hyz⟩

/-- What the operation on a line of its list brings about stands at the end. -/
theorem Slice.lineOps_reaches {R : TLine → TLine → Prop} (hrefl : ∀ x, R x x) (htrans : ∀ x y z, R x y → R y z → R x z)
    (hstep : ∀ (c : Slice) k j x, nget c.lines j = some x → ∃ y, nget (c.lineOp op incl range k) j = some y ∧ R x y) {acts done : TLine → Prop}
    (hat : ∀ (c : Slice) k x, nget c.lines k = some x → acts x → ∀ y, nget (c.lineOp op incl range k) k = some y → done y)
    (hacts : ∀ x y, R x y → acts x → acts y) (hdone : ∀ x y, R x y → done x → done y) {l : List Nat} {k : Nat} (hk : k ∈ l) {x : TLine}
    (hx : nget c.lines k = some x) (hxacts : acts x) : ∃ y, nget (c.lineOps op incl range l).lines k = some y ∧ R x y ∧ done y := by
  induction l generalizing c x with
  | nil => exact absurd hk List.not_mem_nil
  | cons a l ih =>
    obtain ⟨y, hy, hxy⟩ := hstep c a k x hx
    rcases List.mem_cons.mp hk with rfl | hk
    · obtain ⟨z, hz, hyz⟩ := Slice.lineOps_keeps hrefl htrans hstep l (c := { c with lines := c.lineOp op incl range k }) hy
      exact ⟨z, hz, htrans x y z hxy hyz, hdone y z hyz (hat c k x hx hxacts y hy)⟩
    · obtain ⟨z, hz, hyz, hzdone⟩ := ih (c := { c with lines := c.lineOp op incl range a }) hk hy (hacts x y hxy hxacts)
      exact ⟨z, hz, htrans x y z hxy hyz, hzdone⟩

/-- The operation acts on the line. -/
def TLine.actedOn (incl : Bool) (x : TLine) : Prop := (x.locked = false ∧ x.aperture = false) ∨ incl = true

theorem TLine.actedOn_iff {incl : Bool} {x : TLine} : x.actedOn incl ↔ ¬((x.locked || x.aperture) && !incl) = true := by
  rw [Bool.not_eq_true, Bool.and_eq_false_iff, Bool.or_eq_false_iff, Bool.not_eq_false']
  rfl

/-! CLEAN. -/

/-- A clean line: no dirty sector, no region, and without its lock where a range was cleaned. -/
def TLine.cleaned (range : Bool) (x : TLine) : TLine := { x with dirty0 := false, dirty1 := false, region := none, locked := x.locked && !range }

theorem Slice.lineOp_clean (c : Slice) (incl range : Bool) (k : Nat) {x : TLine} (hx : nget c.lines k = some x) :
    (x.actedOn incl → c.lineOp 1 incl range k = nmod c.lines k (TLine.cleaned range)) ∧
      (c.lineOp 1 incl range k = c.lines ∨ c.lineOp 1 incl range k = nmod c.lines k (TLine.cleaned range)) := by
  unfold Slice.lineOp
  rw [hx]
  dsimp only
  rw [TLine.actedOn_iff]
  split
  next hskip => exact ⟨fun h => absurd hskip h, .inl rfl⟩
  next hact => exact ⟨fun _ => rfl, .inr rfl⟩

theorem Slice.lineOp_unlock (c : Slice) (incl range : Bool) (k : Nat) {x : TLine} (hx : nget c.lines k = some x) :
    (x.actedOn incl → c.lineOp 5 incl range k = nmod c.lines k fun x => { x with locked := false }) ∧
      (c.lineOp 5 incl range k = c.lines ∨ c.lineOp 5 incl range k = nmod c.lines k fun x => { x with locked := false }) := by
  unfold Slice.lineOp
  rw [hx]
  dsimp only
  rw [TLine.actedOn_iff]
  split
  next hskip => exact ⟨fun h => absurd hskip h, .inl rfl⟩
  next hact => exact ⟨fun _ => rfl, .inr rfl⟩

theorem Slice.lineOp_of_none (c : Slice) (op : Nat) (incl range : Bool) {k : Nat} (hk : nget c.lines k = none) : c.lineOp op incl range k = c.lines := by
  unfold Slice.lineOp
  rw [hk]

theorem Slice.lineOp_lock (c : Slice) (incl range : Bool) (k : Nat) :
    c.lineOp 4 incl range k = c.lines ∨ c.lineOp 4 incl range k = nmod c.lines k fun x => { x with locked := true } := by
  unfold Slice.lineOp
  split
  · exact .inl rfl
  · split
    · exact .inl rfl
    · rw [if_pos (beq_self_eq_true 4)]
      split
      · exact .inl rfl
      · exact .inr rfl

/-- What operations that clean keep of a line. -/
def TLine.keptClean (x y : TLine) : Prop :=
  y.line = x.line ∧ y.data = x.data ∧ y.aperture = x.aperture ∧ (y.locked = true → x.locked = true) ∧
    (x.dirty0 = false → y.dirty0 = false) ∧ (x.dirty1 = false → y.dirty1 = false)

theorem TLine.keptClean_refl (x : TLine) : x.keptClean x := ⟨rfl, rfl, rfl, id, id, id⟩

theorem TLine.keptClean_trans (x y z : TLine) (h : x.keptClean y) (k : y.keptClean z) : x.keptClean z := by
  obtain ⟨h1, h2, h3, h4, h5, h6⟩ := h
  obtain ⟨k1, k2, k3, k4, k5, k6⟩ := k
  exact ⟨k1.trans h1, k2.trans h2, k3.trans h3, fun h => h4 (k4 h), fun h => k5 (h5 h), fun h => k6 (h6 h)⟩

theorem TLine.keptClean_cleaned (range : Bool) (x : TLine) : x.keptClean (x.cleaned range) :=
  ⟨rfl, rfl, rfl, fun h => (Bool.and_eq_true_iff.mp h).1, fun _ => rfl, fun _ => rfl⟩

theorem Slice.lineOp_keptClean (c : Slice) (incl range : Bool) (a j : Nat) {x : TLine} (hx : nget c.lines j = some x) :
    ∃ y, nget (c.lineOp 1 incl range a) j = some y ∧ x.keptClean y := by
  rcases ha : nget c.lines a with _ | z
  · rw [c.lineOp_of_none 1 incl range ha]
    exact ⟨x, hx, x.keptClean_refl⟩
  · exact nmod_or_keeps TLine.keptClean_refl (TLine.keptClean_cleaned range) (c.lineOp_clean incl range a ha).2 hx

theorem TLine.keptClean.actedOn {x y : TLine} (h : x.keptClean y) (hx : x.actedOn incl) : y.actedOn incl := by
  obtain ⟨-, -, hap, hlock, -, -⟩ := h
  refine hx.imp_left fun ⟨hxlock, hxap⟩ => ⟨?_, hap.trans hxap⟩
  exact Bool.eq_false_iff.mpr fun hy => Bool.eq_false_iff.mp hxlock (hlock hy)

theorem Slice.lineOps_clean {l : List Nat} {k : Nat} (hk : k ∈ l) {x : TLine} (hx : nget c.lines k = some x) (hacts : x.actedOn incl) :
    ∃ y, nget (c.lineOps 1 incl range l).lines k = some y ∧ y.line = x.line ∧ y.data = x.data ∧ y.dirty0 = false ∧ y.dirty1 = false := by
  have hat : ∀ (c : Slice) a x, nget c.lines a = some x → x.actedOn incl → ∀ y, nget (c.lineOp 1 incl range a) a = some y →
      y.dirty0 = false ∧ y.dirty1 = false := by
    intro c a x hx hacts y hy
    rw [(c.lineOp_clean incl range a hx).1 hacts, nget_nmod, if_pos rfl, hx] at hy
    obtain rfl := Option.some.inj hy
    exact ⟨rfl, rfl⟩
  obtain ⟨y, hy, ⟨hline, hdata, -⟩, h0, h1⟩ := Slice.lineOps_reaches TLine.keptClean_refl TLine.keptClean_trans
    (fun c a j _ => c.lineOp_keptClean incl range a j) hat (fun _ _ => TLine.keptClean.actedOn)
    (fun _ _ h hx => ⟨h.2.2.2.2.1 hx.1, h.2.2.2.2.2 hx.2⟩) hk hx hacts
  exact ⟨y, hy, hline, hdata, h0, h1⟩

/-! UNLOCK and LOCK. -/

/-- Two lines agree but for a lock that may have gone. -/
def TLine.unlockedFrom (x y : TLine) : Prop := y = { x with locked := y.locked } ∧ (y.locked = true → x.locked = true)

/-- Two lines agree but for a lock that may have come. -/
def TLine.lockedFrom (x y : TLine) : Prop := y = { x with locked := y.locked } ∧ (x.locked = true → y.locked = true)

theorem TLine.locked_trans {x y z : TLine} (h : y = { x with locked := y.locked }) (k : z = { y with locked := z.locked }) :
    z = { x with locked := z.locked } := by
  rw [k, h]

theorem Slice.lineOp_unlockedFrom (c : Slice) (incl range : Bool) (a j : Nat) {x : TLine} (hx : nget c.lines j = some x) :
    ∃ y, nget (c.lineOp 5 incl range a) j = some y ∧ x.unlockedFrom y := by
  rcases ha : nget c.lines a with _ | z
  · rw [c.lineOp_of_none 5 incl range ha]
    exact ⟨x, hx, rfl, id⟩
  · exact nmod_or_keeps (fun _ => ⟨rfl, id⟩) (fun _ => ⟨rfl, fun h => absurd h Bool.false_ne_true⟩) (c.lineOp_unlock incl range a ha).2 hx

theorem TLine.unlockedFrom.stays {x y : TLine} (h : x.unlockedFrom y) (hx : x.locked = false) : y.locked = false :=
  Bool.eq_false_iff.mpr fun hy => Bool.eq_false_iff.mp hx (h.2 hy)

theorem TLine.unlockedFrom.actedOn {x y : TLine} (h : x.unlockedFrom y) (hx : x.actedOn incl) : y.actedOn incl :=
  hx.imp_left fun ⟨hxlock, hxap⟩ => ⟨h.stays hxlock, by rw [h.1]; exact hxap⟩

theorem Slice.lineOps_unlock {l : List Nat} {k : Nat} (hk : k ∈ l) {x : TLine} (hx : nget c.lines k = some x) (hacts : x.actedOn incl) :
    nget (c.lineOps 5 incl range l).lines k = some { x with locked := false } := by
  have hat : ∀ (c : Slice) a x, nget c.lines a = some x → x.actedOn incl → ∀ y, nget (c.lineOp 5 incl range a) a = some y → y.locked = false := by
    intro c a x hx hacts y hy
    rw [(c.lineOp_unlock incl range a hx).1 hacts, nget_nmod, if_pos rfl, hx] at hy
    obtain rfl := Option.some.inj hy
    rfl
  obtain ⟨y, hy, ⟨hsame, -⟩, hdone⟩ := Slice.lineOps_reaches (R := TLine.unlockedFrom) (fun _ => ⟨rfl, id⟩)
    (fun _ _ _ h k => ⟨TLine.locked_trans h.1 k.1, fun hz => h.2 (k.2 hz)⟩) (fun c a j _ => c.lineOp_unlockedFrom incl range a j) hat
    (fun _ _ => TLine.unlockedFrom.actedOn) (fun _ _ => TLine.unlockedFrom.stays) hk hx hacts
  rw [hy, hsame, hdone]

theorem Slice.lineOps_lock (c : Slice) (incl range : Bool) (l : List Nat) {k : Nat} {x : TLine} (hx : nget c.lines k = some x) :
    ∃ y, nget (c.lineOps 4 incl range l).lines k = some y ∧ x.lockedFrom y :=
  Slice.lineOps_keeps (fun _ => ⟨rfl, id⟩) (fun _ _ _ h k => ⟨TLine.locked_trans h.1 k.1, fun hx => k.2 (h.2 hx)⟩)
    (fun c a _ _ hx => nmod_or_keeps (fun _ => ⟨rfl, id⟩) (fun _ => ⟨rfl, fun _ => rfl⟩) (c.lineOp_lock incl range a) hx) l hx

/-! A Thatch operation that runs, and one that is malformed (R390, R391). -/

/-- The operation is well formed. -/
def State.thFormed (s : State) (setway : Bool) (addr len mask : Nat) : Prop :=
  mask ≠ 0 ∧ (setway = true ∨ (addr % 64 = 0 ∧ len % 64 = 0 ∧ addr + len ≤ s.dram.managed))

/-- The state after the slices are operated on, and the tally. -/
def State.thSlices (s : State) (op addr len : Nat) (setway incl : Bool) (mask : Nat) : CmoTally × State :=
  (slicesIn mask).foldl (fun (acc : CmoTally × State) i =>
    let (z, s) := acc.2.thSliceOp i op setway incl addr len
    (acc.1.add z, s)) (CmoTally.zero, s)

/-- The registers of a slice's block after an operation was written. -/
def Slice.written (c : Slice) (op addr len : Nat) (setway incl : Bool) (mask : Nat) (busy : Bool) (status : Nat) (y : CmoTally) : Slice :=
  { c with mop := { mop := op + setway.toNat * 8 + incl.toNat * 16 + mask * 2 ^ 16, addr := addr, len := len, busy := busy, status := status,
                    acted := y.acted, skipped := y.skipped, discarded := y.discarded, refused := y.refused } }

theorem State.thOp_eq (hridge : s.ridgeActs = true) {block : Fin 16} (hidle : (s.thatch.slices[block]).mop.busy = false) (op addr len : Nat)
    (setway incl : Bool) (mask : Nat) : s.thOp block op addr len setway incl mask =
      if (op == 6 && !setway) || (!setway && (addr % 64 != 0 || len % 64 != 0 || s.dram.managed < addr + len)) || mask % 2 ^ 16 == 0 then
        s.modSlice block fun c => c.written op addr len setway incl (mask % 2 ^ 16) false stBadArgument .zero
      else if s.thBusyIn (mask % 2 ^ 16) then s.modSlice block fun c => c.written op addr len setway incl (mask % 2 ^ 16) false stBusy .zero
      else (s.thSlices op addr len setway incl (mask % 2 ^ 16)).2.modSlice block fun c =>
        c.written op addr len setway incl (mask % 2 ^ 16) true 0 (s.thSlices op addr len setway incl (mask % 2 ^ 16)).1 := by
  unfold State.thOp
  rw [hridge, hidle]
  rfl

theorem State.thFormed_iff {setway : Bool} {addr len mask op : Nat} (hop : op = 6 → setway = true) : s.thFormed setway addr len mask ↔
    ¬((op == 6 && !setway) || (!setway && (addr % 64 != 0 || len % 64 != 0 || s.dram.managed < addr + len)) || mask == 0) = true := by
  have h6 : (op == 6 && !setway) = false := by
    by_cases h : op = 6
    · rw [hop h, Bool.not_true, Bool.and_false]
    · rw [beq_eq_false_iff_ne.mpr h, Bool.false_and]
  unfold State.thFormed
  rw [h6, Bool.false_or, Bool.or_eq_true, Bool.and_eq_true, Bool.or_eq_true, Bool.or_eq_true, bne_iff_ne, bne_iff_ne, decide_eq_true_eq,
    beq_iff_eq, Bool.not_eq_true']
  cases setway with
  | true => simp
  | false =>
    simp
    omega

end
end Sys2Proof.Machine
end

