-- ==== Sys2Proof/Proofs/CacheOperations.lean ====
section
/-! SUPPORT. Thatch operations that run and that are malformed, and PLAN_RETIRE. -/

namespace Sys2Proof.Machine

set_option Elab.async false

section
variable {s : State}

theorem State.thSlices_slice (s : State) (op addr len : Nat) (setway incl : Bool) (mask : Nat) (i : Fin 16) :
    (s.thSlices op addr len setway incl mask).2.thatch.slices[i] =
      if mask.testBit i.val = true then { s.thatch.slices[i] with lines := (s.thatch.slices[i]).opLines op setway incl addr len }
      else s.thatch.slices[i] := by
  have hmem : i ∈ slicesIn mask ↔ mask.testBit i.val = true := by
    unfold slicesIn
    rw [List.mem_filter, bitAt_eq_testBit]
    exact and_iff_right (List.mem_finRange i)
  refine (State.thSlices_lines op setway incl addr len ((List.nodup_finRange 16).filter _) (CmoTally.zero, s) i).trans ?_
  exact if_congr hmem rfl rfl

theorem State.thSlices_view {γ : Type} {g : State → γ} (hslice : ∀ s i f, g (State.modSlice s i f) = g s) (hbump : ∀ s a b n, g (State.bump s a b n) = g s)
    {op : Nat} (hback : op = 1 ∨ op = 3 ∨ op = 6 → ∀ s x, g (State.writeBack s x) = g s) (s : State) (addr len : Nat) (setway incl : Bool) (mask : Nat) :
    g (s.thSlices op addr len setway incl mask).2 = g s := by
  unfold State.thSlices
  refine foldl_keeps (fun p : CmoTally × State => g p.2) _ (fun p i => ?_) _ (CmoTally.zero, s)
  exact State.thSliceOp_view hslice hbump hback p.2 i setway incl addr len

/-- A well-formed operation where none runs in its slices (R390). -/
theorem State.thOp_runs (hridge : s.ridgeActs = true) {block : Fin 16} (hidle : (s.thatch.slices[block]).mop.busy = false) {op addr len slices : Nat}
    {setway incl : Bool} (hop : op = 6 → setway = true) (hformed : s.thFormed setway addr len (slices % 2 ^ 16)) (hfree : s.thBusyIn (slices % 2 ^ 16) = false) :
    (s.thOp block op addr len setway incl slices).tiles = s.tiles ∧
      ((s.thOp block op addr len setway incl slices).thatch.slices[block]).mop.busy = true ∧
      ((s.thOp block op addr len setway incl slices).thatch.slices[block]).mop.status = 0 ∧
      ((s.thOp block op addr len setway incl slices).thatch.slices[block]).mop.mop = op + setway.toNat * 8 + incl.toNat * 16 + slices % 2 ^ 16 * 2 ^ 16 ∧
      ((s.thOp block op addr len setway incl slices).thatch.slices[block]).mop.addr = addr ∧
      ((s.thOp block op addr len setway incl slices).thatch.slices[block]).mop.len = len ∧
      (¬(op = 1 ∨ op = 3 ∨ op = 6) → (s.thOp block op addr len setway incl slices).mem = s.mem) ∧
      ∀ i : Fin 16, ((s.thOp block op addr len setway incl slices).thatch.slices[i]).lines =
        if (slices % 2 ^ 16).testBit i.val = true then (s.thatch.slices[i]).opLines op setway incl addr len else (s.thatch.slices[i]).lines := by
  rw [State.thOp_eq hridge hidle, if_neg ((State.thFormed_iff hop).mp hformed), hfree, if_neg Bool.false_ne_true, State.modSlice_at]
  refine ⟨State.thSlices_view (g := State.tiles) (fun _ _ _ => rfl) (fun _ _ _ _ => rfl) (fun _ s x => s.writeBack_tiles x) s addr len setway incl _,
    rfl, rfl, rfl, rfl, rfl, fun h => State.thSlices_view (g := State.mem) (fun _ _ _ => rfl) (fun _ _ _ _ => rfl) (fun k => absurd k h) s addr len setway incl _,
    fun i => ?_⟩
  have hlines : ((s.thSlices op addr len setway incl (slices % 2 ^ 16)).2.thatch.slices[i]).lines =
      if (slices % 2 ^ 16).testBit i.val = true then (s.thatch.slices[i]).opLines op setway incl addr len else (s.thatch.slices[i]).lines := by
    rw [State.thSlices_slice]
    split
    · rfl
    · rfl
  by_cases hi : i = block
  · subst hi
    rw [State.modSlice_at]
    exact hlines
  · rw [State.modSlice_other _ hi]
    exact hlines

/-- A malformed operation does nothing (R390). -/
theorem State.thOp_malformed (hridge : s.ridgeActs = true) {block : Fin 16} (hidle : (s.thatch.slices[block]).mop.busy = false) {op addr len slices : Nat}
    {setway incl : Bool} (hop : op = 6 → setway = true) (hformed : ¬s.thFormed setway addr len (slices % 2 ^ 16)) :
    ∃ u, s.thOp block op addr len setway incl slices = u ∧ u = s.modSlice block (fun c => { c with mop := (u.thatch.slices[block]).mop }) ∧
      (u.thatch.slices[block]).mop.status = 0x2002 ∧ (u.thatch.slices[block]).mop.busy = false := by
  refine ⟨_, rfl, ?_⟩
  rw [State.thOp_eq hridge hidle, if_pos (not_not.mp (mt (State.thFormed_iff hop).mpr hformed)), State.modSlice_at]
  exact ⟨rfl, rfl, rfl⟩

theorem Slice.opLines_of_powered {c : Slice} (h : c.powered = true) {op : Nat} (hop : op ≠ 6) (setway incl : Bool) (addr len : Nat) :
    c.opLines op setway incl addr len = (c.lineOps op incl (!setway) (c.visited setway addr len)).lines := by
  unfold Slice.opLines
  rw [h, if_neg (by decide), if_neg (by rwa [beq_iff_eq])]

theorem Slice.opLines_lock {c : Slice} (setway incl : Bool) (addr len : Nat) {k : Nat} {x : TLine} (hx : nget c.lines k = some x) :
    ∃ y, nget (c.opLines 4 setway incl addr len) k = some y ∧ x.lockedFrom y := by
  unfold Slice.opLines
  split
  · exact ⟨x, hx, rfl, id⟩
  · rw [if_neg (by decide)]
    exact c.lineOps_lock incl (!setway) _ hx

/-- An APERTURE of a place that is free takes it (R388). -/
theorem Slice.opLines_aperture {c : Slice} (h : c.powered = true) (setway incl : Bool) (addr len : Nat)
    (hfree : ∀ x, nget c.lines (addr % 2 ^ 13 * 16 + addr / 2 ^ 16 % 16) = some x → x.locked = false ∧ x.aperture = false)
    (hroom : c.heldIn (addr % 2 ^ 13) < 15) :
    nget (c.opLines 6 setway incl addr len) (addr % 2 ^ 13 * 16 + addr / 2 ^ 16 % 16) = some .aperturePlace := by
  have hbits : bitsOf addr 19 16 = addr / 2 ^ 16 % 16 := rfl
  have hset : (addr % 2 ^ 13 * 16 + addr / 2 ^ 16 % 16) / 16 = addr % 2 ^ 13 := by omega
  have hheld : ((nget c.lines (addr % 2 ^ 13 * 16 + addr / 2 ^ 16 % 16)).any fun x => x.locked || x.aperture) = false := by
    rw [Option.any_eq_false]
    intro x hx
    rw [(hfree x hx).1, (hfree x hx).2]
    decide
  unfold Slice.opLines
  rw [h, if_neg (by decide), if_pos (beq_self_eq_true 6), hbits]
  unfold Slice.apertureOp
  dsimp only
  rw [hheld, hset, Bool.false_and, if_neg Bool.false_ne_true, if_neg (by rw [decide_eq_false (by omega)]; decide), nget_nput_self]

/-- The two cases of a Thatch operation, with what it leaves of the lines. -/
theorem State.thOp_does {i : Instr} (hridge : s.ridgeActs = true) {block : Fin 16} (hidle : (s.thatch.slices[block]).mop.busy = false)
    {op addr len slices : Nat} {setway incl : Bool} (hi : exec i s = .next (s.thOp block op addr len setway incl slices)) (hop : op = 6 → setway = true)
    {formed : Prop} (hformed : formed ↔ s.thFormed setway addr len (slices % 2 ^ 16)) {after : State → Prop}
    (hafter : ∀ u : State, (¬(op = 1 ∨ op = 3 ∨ op = 6) → u.mem = s.mem) → (∀ i : Fin 16, (u.thatch.slices[i]).lines =
        if (slices % 2 ^ 16).testBit i.val = true then (s.thatch.slices[i]).opLines op setway incl addr len else (s.thatch.slices[i]).lines) → after u) :
    (formed → s.thBusyIn (slices % 2 ^ 16) = false → ∃ u, exec i s = .next u ∧ u.tiles = s.tiles ∧
        (u.thatch.slices[block]).mop.busy = true ∧ (u.thatch.slices[block]).mop.status = 0 ∧
        (u.thatch.slices[block]).mop.mop = op + setway.toNat * 8 + incl.toNat * 16 + slices % 2 ^ 16 * 2 ^ 16 ∧
        (u.thatch.slices[block]).mop.addr = addr ∧ (u.thatch.slices[block]).mop.len = len ∧ after u) ∧
      (¬formed → ∃ u, exec i s = .next u ∧
        u = s.modSlice block (fun c => { c with mop := (u.thatch.slices[block]).mop }) ∧
        (u.thatch.slices[block]).mop.status = 0x2002 ∧ (u.thatch.slices[block]).mop.busy = false) := by
  rw [hformed]
  refine ⟨fun hformed hfree => ?_, fun hformed => ?_⟩
  · obtain ⟨htiles, hbusy, hstatus, hmop, haddr, hlen, hmem, hlines⟩ := State.thOp_runs hridge hidle hop hformed hfree
    exact ⟨_, hi, htiles, hbusy, hstatus, hmop, haddr, hlen, hafter _ hmem hlines⟩
  · obtain ⟨u, hu, hrest⟩ := State.thOp_malformed hridge hidle hop hformed
    exact ⟨u, hi.trans (congrArg Host.Outcome.next hu), hrest⟩

/-! PLAN_RETIRE (R384). -/

theorem State.planRetire_retires {slot : Nat} (hridge : s.ridgeActs = true) (hfree : s.thatch.retireUntil ≤ s.time.ts) : s.planRetire slot =
    (s.modThatch fun t => { t with retireSlot := slot % 2 ^ 12, retireUntil := s.time.ts + 1000 }).retireLines slot := by
  unfold State.planRetire
  rw [hridge]
  refine if_neg ?_
  rw [decide_eq_false (by omega)]
  decide

theorem State.retireLines_tile (s : State) (slot : Nat) (t : TileId) : (s.retireLines slot).tiles[t] =
    { s.tiles[t] with l1i := (s.tiles[t]).l1i.filter fun x => x.2.planSlot != some (slot % 2 ^ 12) } :=
  Vector.getElem_map _ t.isLt

end

/-- Settles O20: a CMO goes by its places or its range, a Thatch operation by its slices, each line by the operation on it. -/
theorem cacheOperations : Obligations.CacheOperations := by
  refine ⟨fun s s' t r setway incl target hfetch hpl htarget => ?_, fun s block addr len slices setway incl hridge hidle => ?_, fun s slot block =>
    ⟨rfl, fun hridge hfree => ?_, fun hbusy => ?_⟩⟩
  · intro g base r1 r2 count first lines sets next rest does aligned
    have hdoes : ∀ (i : Instr) (op : Nat), exec i s = .next (s.cmo t op r setway target incl) → op ∈ [1, 2, 3, 4, 5] → aligned →
        (op = 4 → setway = true ∨ (s'.firstBad t .load base (128 * lines) = none ∧ ∀ l, l < 2 * lines → s'.lineBad (64 * (base / 64 + l)) = false)) →
        does i op := by
      intro i op hi hop haligned hmay
      obtain ⟨u, acc, hu, hg, hv, hm, hmsp, hscratch, hpc, hacc⟩ := hfetch.cmo_does hpl hop r setway incl htarget rfl rfl haligned hmay
      exact ⟨u, acc, hi.trans (congrArg Host.Outcome.next hu), hg, hv, hm, hmsp, hscratch, hpc,
        fun h0 h1 h2 h3 => (s.tiles[t]).cmoTally_acc op incl first (hacc h0 h1 h2 h3)⟩
    exact ⟨fun ha => hdoes _ 1 rfl (by decide) ha fun h => absurd h (by decide), fun ha => hdoes _ 2 rfl (by decide) ha fun h => absurd h (by decide),
      fun ha => hdoes _ 3 rfl (by decide) ha fun h => absurd h (by decide), fun ha hmay => hdoes _ 4 rfl (by decide) ha fun _ => hmay,
      fun ha => hdoes _ 5 rfl (by decide) ha fun h => absurd h (by decide)⟩
  · intro mask formed acts runs
    have hline : ∀ (u : State) op (len : Nat), op ≠ 6 → (∀ i : Fin 16, (u.thatch.slices[i]).lines =
        if mask.testBit i.val = true then (s.thatch.slices[i]).opLines op setway incl addr len else (s.thatch.slices[i]).lines) →
        ∀ i : Fin 16, mask.testBit i.val = true → (s.thatch.slices[i]).powered = true →
          (u.thatch.slices[i]).lines = ((s.thatch.slices[i]).lineOps op incl (!setway) ((s.thatch.slices[i]).visited setway addr len)).lines :=
      fun u op len hop hlines i hin hpow => ((hlines i).trans (if_pos hin)).trans (Slice.opLines_of_powered hpow hop setway incl addr len)
    refine ⟨State.thOp_does hridge hidle (op := 1) rfl (fun h => absurd h (by decide)) Iff.rfl fun u _ hlines i k x hacts => ?_,
      State.thOp_does hridge hidle (op := 2) rfl (fun h => absurd h (by decide)) Iff.rfl fun u hmem _ => hmem (by decide),
      State.thOp_does hridge hidle (op := 3) rfl (fun h => absurd h (by decide)) Iff.rfl fun _ _ _ => trivial,
      State.thOp_does hridge hidle (op := 4) rfl (fun h => absurd h (by decide)) Iff.rfl fun u hmem hlines => ⟨hmem (by decide), fun i k x hx => ?_⟩,
      State.thOp_does hridge hidle (op := 5) rfl (fun h => absurd h (by decide)) Iff.rfl fun u hmem hlines => ⟨hmem (by decide), fun i k x hacts => ?_⟩,
      fun hset => State.thOp_does hridge hidle (op := 6) rfl (fun _ => hset) ⟨fun h => ⟨h.1, .inl hset⟩, fun h => ⟨h.1, .inl hset⟩⟩
        fun u _ hlines i hin hpow hfree hroom => ?_⟩
    · obtain ⟨hin, hpow, hx, hk, hact⟩ := hacts
      rw [hline u 1 len (by decide) hlines i hin hpow]
      exact Slice.lineOps_clean hk hx hact
    · rw [hlines i]
      split
      · exact Slice.opLines_lock setway incl addr len hx
      · exact ⟨x, hx, rfl, id⟩
    · obtain ⟨hin, hpow, hx, hk, hact⟩ := hacts
      rw [hline u 5 len (by decide) hlines i hin hpow]
      exact Slice.lineOps_unlock hk hx hact
    · refine ⟨.aperturePlace, ?_, rfl, rfl, rfl⟩
      rw [hlines i, if_pos hin]
      exact Slice.opLines_aperture hpow setway incl addr 0 hfree hroom
  · refine ⟨_, congrArg Host.Outcome.next (State.planRetire_retires hridge hfree), rfl, rfl, rfl, fun t => ?_⟩
    rw [State.retireLines_tile]
    refine ⟨fun p => ?_, rfl⟩
    exact List.mem_filter.trans (and_congr_right' bne_iff_ne)
  · refine congrArg Host.Outcome.next (if_pos ?_)
    rw [decide_eq_true hbusy, Bool.or_true]
end Sys2Proof.Machine
end
